-- ==== Sys2Proof/Word.lean ====
section
/-!
DEFINITION. The word types of the Q9X: the 32-bit register word (spec/00_scope.md, "Register conventions") and the byte.
Only the types and their plainest arithmetic stand here; every bit-field helper is in Machine/Store.lean.
-/

namespace Sys2Proof

/-- A register of a unit window: 32 bits. -/
abbrev Word := BitVec 32

/-- A byte of memory. -/
abbrev Byte := BitVec 8

end Sys2Proof
end

