-- ==== Sys2Proof/Env.lean ====
section
/-!
DEFINITION. Operand types: what the surroundings hand to the block with a command, where that is more than a number.
-/

namespace Sys2Proof

/-- Privilege mode of the hart that makes an access (R21). The warden runs in machine mode (R23). -/
inductive Priv where
  | u | s | m
  deriving DecidableEq, Repr

/-- A control-store word whose parity fails as it is fetched, and whether its MRAM copy is uncorrectable (R150, R151). -/
structure Upset where
  addr    : Nat
  copyBad : Bool
  deriving DecidableEq, Repr

/-- What the front end of SRVn takes from one wedge (R99, R159, R160): the servo field as demodulated, what the HV die and
the accelerometers returned, the estimator's prediction for the wedge (in 1/256 track position), the estimated velocity,
and a control-store word of the law program whose parity fails in the run, if one does. -/
structure Sample where
  mark  : Bool
  gray  : Nat
  wedge : Nat
  wpar  : Nat
  a     : Nat
  b     : Nat
  c     : Nat
  d     : Nat
  rro   : Nat
  rroPar : Nat
  emf   : Int
  acc0  : Nat
  acc1  : Nat
  pred  : Nat
  vel   : Int
  upset : Option Upset
  deriving DecidableEq, Repr

/-- What the front end of a read channel delivers in one slot (R228 to R233), bit positions counted from the first preamble
bit: in how many positions the bits at a place differ from mark A and from mark B (24 and 16 at places not listed), the
header received for a frame at a place, the envelope as runs of (percent of the reference, bits), and the log-likelihood
ratio of each codeword bit. -/
structure Detection where
  aDiff    : List (Nat × Nat)
  bDiff    : List (Nat × Nat)
  headers  : List (Nat × Nat)
  envelope : List (Nat × Nat)
  llrs     : List Int
  deriving DecidableEq, Repr

/-- What reading an active band back from ACK_WP to WP finds (R280): the namespace and zone, the first band slot that is not
GOOD or whose WRITE_SEQ is above the highest issued (WP where there is none), how many acknowledged slots neither the ladder
nor a twin recovers, and the stored user bytes of the data slots of the open group below the trim point. -/
structure BandRead where
  ns    : Nat
  zone  : Nat
  good  : Nat
  lost  : Nat
  group : List (List Byte)
  deriving DecidableEq, Repr

/-- A frame of the Waixia Link as it arrives (R464, R467): the logical port and lane it comes in on (`reverse`: the reverse
lane), HOPS, the SRC and DST words, the 12 payload bytes, and whether its CRC fails or it ends in K30.7. Its CLASS and TYPE are
those of the command that carries it. -/
structure Frame where
  port    : Nat
  reverse : Bool
  hops    : Nat
  src     : Nat
  dst     : Nat
  payload : List Byte
  bad     : Bool
  deriving DecidableEq, Repr

end Sys2Proof
end

