-- ==== Sys2Proof/Syntax.lean ====
section
/-!
DEFINITION. The commands of the Q9X block: one constructor per row of spec/opcode_table.json, in the table's order, with the
row's operands. A quantity that the surroundings supply (an angle reached, a sample, a frame received, the outcome of an
analog or cryptographic process) is an operand of the command that carries it.
-/

namespace Sys2Proof

/-- The commands of the block: one constructor per row of the table of operations and events. -/
inductive Instr where
  /-- REGISTER_WRITE (R14): A write to a register that has no row of its own takes effect under the Access code of each field. `m`: bus master (R516); `size`: bytes written; `data`: the value stored, little-endian. -/
  | registerWrite (m : Nat) (priv : Priv) (addr size : Nat) (data : Nat)
  /-- MODE_WRITE (R20): A write to a unit's MODE register sets LEVEL when the unit is idle, otherwise holds it, and clears EXPERT_WR_IGNORED on a write of 0. `unit`: window number, SYS 0 to CRY 31. -/
  | modeWrite (unit : Nat) (data : Word)
  /-- LEVEL_CHANGE_APPLY (R20): When a unit becomes idle, a held LEVEL write takes effect and LEVEL_PEND clears. `unit`: the unit that has become idle. -/
  | levelChangeApply (unit : Nat)
  /-- CONTROL_STORE_WRITE (R28): A store to a control-store word commits when its highest part is written, writing parity and the MRAM copy, subject to the level and idle rules. `store`: 0 BWK0, 1 BWK1, 2 CE0, 3 CE1, 4 CE2; `offset`: byte offset in its window. -/
  | controlStoreWrite (store offset : Nat) (data : Word)
  /-- POR (R447): VL rising, or supply return after shutdown, resets the whole package and starts BOOT. `hv`: VL had fallen below 4.50 V. -/
  | por (hv : Bool)
  /-- POR_RELEASE (R417): 2 ms after all rails are good, POR is released, PGOOD rises and B1 begins. `noSpare`: repair candidates for which no spare row is left. -/
  | porRelease (noSpare : List Nat)
  /-- B1_FILL_DONE (R359): The memory fill and checker self-test complete, FILL_DONE is set and B1 ends. `fails`: checkers that misreport, bit 0 SRAM, 1 DRAM, 2 MRAM, 3 control stores. -/
  | b1FillDone (fails : Nat)
  /-- SET_AUTH_DONE (R489): The warden's authentication of the chosen image set completes at B2, passing it to the structure loader or rejecting the slot. `key`: the image set on the service key, empty where SK_PRES_N is high. -/
  | setAuthDone (key : List Byte)
  /-- IMAGE_STREAM_DONE (R63): The image has been streamed into staging and hashed, and the loader enters AUTH and runs checks 0x07 to 0x09. -/
  | imageStreamDone
  /-- IMAGE_AUTH_DONE (R63): Authentication ends, and the loader enters CHECK and runs checks 0x0A to 0x10. -/
  | imageAuthDone
  /-- IMAGE_CHECK_DONE (R63): The checks end, and the loader enters APPLY and forms the effective roster from the retire mask. -/
  | imageCheckDone
  /-- IMAGE_APPLY_DONE (R63): Apply ends, STATE becomes LOADED and B3 begins. `rpm`: the speed that the spindle still has. -/
  | imageApplyDone (rpm : Nat)
  /-- B4_DONE (R193): Every actuator of the roster has reached FOLLOW or has been set down, so BOOT passes to SERVICE. -/
  | b4Done
  /-- SVC_MODE_ASSERT (R34): SVC_MODE asserted during B2 abandons the load and enters RECOVERY. -/
  | svcModeAssert
  /-- SVC_MODE_HOLD_EXPIRY (R34): SVC_MODE held for 10 ms in SERVICE, REST or STANDBY leads to RECOVERY. -/
  | svcModeHoldExpiry
  /-- SAFE_PARK_DONE (R375): Once both actuators are parked, SYS_OPMODE becomes SAFE and the warden starts answering under R40. -/
  | safeParkDone
  /-- STANDBY_UNIT_GATE (R458): Once a gated unit is idle, its s registers are shadowed and the unit is power-gated. `u`: 0 and 1 BWK, 2 and 3 SRV, 4 SPN, 5 and 6 AST, 7 and 8 RDC. -/
  | standbyUnitGate (u : Nat)
  /-- STANDBY_WAKE_RESTORE (R460): The gated units are powered, and their shadows and control stores are restored within 200 µs. -/
  | standbyWakeRestore
  /-- APST_IDLE_EXPIRY (R314): The APST idle timer expires with no I/O outstanding, and a transition to PS3 or PS4 is made. `idle`: milliseconds since the last I/O command. -/
  | apstIdleExpiry (idle : Nat)
  /-- SIM_RETIRE_ADD_WRITE (R72): A guarded write sets a bit of the stored retire mask and writes a SIM record. `priv`: privilege of the write; `data`: the word written. -/
  | simRetireAddWrite (priv : Priv) (data : Word)
  /-- SPINDLE_ABOVE_300 (R78): The spindle reaches 300 rpm with commutation running, and ANG passes from STOPPED to COARSE. `commutating`: commutation is running. -/
  | spindleAbove300 (commutating : Bool)
  /-- SPINDLE_BELOW_300 (R78): The spindle falls below 300 rpm, and ANG enters STOPPED, clearing INDEX_KNOWN. -/
  | spindleBelow300
  /-- GOOD_WEDGE_MARK (R78): A good wedge mark from an allowed actuator advances the ANG acquisition and lock states. `act`: the actuator; `surface`: the one its head reads; `dev`: the device full angle ANG predicts for the mark; `decoded`: the wedge number read. -/
  | goodWedgeMark (act surface dev decoded : Nat)
  /-- MISSING_WEDGE_MARK (R78): An expected mark is missing, so the source switches or ANG coasts. `act`: the actuator; `otherGood`: the other actuator delivers good marks. -/
  | missingWedgeMark (act : Nat) (otherGood : Bool)
  /-- COAST_WEDGES_EXPIRY (R78): COAST_WEDGES wedges pass without a good mark, and ANG falls to COARSE. -/
  | coastWedgesExpiry
  /-- REV_STORE (R79): REV is stored to MRAM each time its low 20 bits pass through 0. -/
  | revStore
  /-- XCHK_DETECT (R80): The two actuators disagree beyond XCHK_LIM for 16 wedges, so XCHK is set, a record is written and a skew calibration is requested. `src`: the source in use; `diff`: the difference in ticks. -/
  | xchkDetect (src diff : Nat)
  /-- CEILING_CHANGE (R83): A change of CEIL_AGE or CEIL_THM recomputes CEILING and, at basic level, requests a rung change down to it. `age`: AGE changes CEIL_AGE, else Sluice changes CEIL_THM; `rung`: its new value. -/
  | ceilingChange (age : Bool) (rung : Nat)
  /-- RUNG_TARGET_WRITE (R87): At basic level, a write of TARGET is judged and either refused, marked DONE, held, or starts HOLDING. `data`: the word written to ANG_RUNG. -/
  | rungTargetWrite (data : Word)
  /-- RUNG_HELD (R84): Both sequencers stop at a plank boundary and the loops are settled, so PHASE becomes HELD and RAMP starts. -/
  | rungHeld
  /-- SCHED_RUNG_SWITCH (R85): The revolution period crosses the mean of the two rung speeds, and SCHED_RUNG switches. -/
  | schedRungSwitch
  /-- RUNG_RAMP_END (R84): RAMP_MS elapses and the phase passes to SETTLE. -/
  | rungRampEnd
  /-- RUNG_SETTLED (R84): Eight revolutions within ±0.05 % of the target period lead to RETUNE. -/
  | rungSettled
  /-- RUNG_RETUNE_DONE (R84): Retune completes, CURRENT switches, the sequencers are released and RESULT is written. -/
  | rungRetuneDone
  /-- RUNG_SETTLE_TIMEOUT (R86): SETTLE is not met 3.9 s after HELD, so the change is abandoned into RETURN. -/
  | rungSettleTimeout
  /-- RETURN_SETTLE_TIMEOUT (R86): A RETURN does not settle within 3.9 s, so the change ends with SPINDLE and SPN faults with RUNG_SETTLE. -/
  | returnSettleTimeout
  /-- ANG_CMD_HOLD (R89): The expert HOLD is judged against TARGET and starts HOLDING. -/
  | angCmdHold
  /-- ANG_CMD_RAMP (R89): The expert RAMP from HELD starts the speed ramp unless a write gate is high. -/
  | angCmdRamp
  /-- ANG_CMD_RETUNE (R89): The expert RETUNE from SETTLE retargets the clocks once the settle condition holds. -/
  | angCmdRetune
  /-- ANG_CMD_RELEASE (R89): The expert RELEASE releases the sequencers after RETUNE. -/
  | angCmdRelease
  /-- ANG_CMD_ABORT (R89): The expert ABORT enters RETURN or releases at once. -/
  | angCmdAbort
  /-- OPSEC_STORE (R91): Operating seconds are stored to MRAM every 64 s. -/
  | opsecStore
  /-- SNAPSHOT_TAKE (R93): A write of ANG_SNAP.TAKE captures the angle, the cycle count, domain time and operating seconds at one edge. `full`: the device full angle; `cycles`: the fabric cycle count at the edge. -/
  | snapshotTake (full cycles : Nat)
  /-- ALARM_ARM (R95): A write of ANG_ALARM_POS arms the alarm at the full angle written. `m`: the bus master; `data`: the word written to ANG_ALARM_POS. -/
  | alarmArm (m : Nat) (data : Word)
  /-- ALARM_FIRE (R95): The device angle reaches the alarm angle, so ALARM is raised and EN clears. `full`: the device full angle reached. -/
  | alarmFire (full : Nat)
  /-- PLANK_FETCH (R119): The sequencer fetches a published plank, checks it and resolves its start angle. `n`: BWKn; `full`: the device full angle. -/
  | plankFetch (n full : Nat)
  /-- PLANK_SEEK (R122): A SEEK plank begins, moving SRVn to the target head and track. `n`: BWKn; `full`: the device full angle. -/
  | plankSeek (n full : Nat)
  /-- PLANK_SETTLE (R122): A SETTLE plank begins counting on-track decisions. `n`: BWKn; `full`: the device full angle. -/
  | plankSettle (n full : Nat)
  /-- PLANK_READ (R122): A READ plank begins, opening the read gate over its slots. `n`: BWKn; `full`: the device full angle. -/
  | plankRead (n full : Nat)
  /-- PLANK_WRITE (R122): A WRITE plank begins writing its sectors from their slot starts. `n`: BWKn; `full`: the device full angle. -/
  | plankWrite (n full : Nat)
  /-- PLANK_PREHEAT (R210): A PREHEAT plank begins the assist ramp for its span. `n`: BWKn; `full`: the device full angle. -/
  | plankPreheat (n full : Nat)
  /-- PLANK_PROBE (R215): A PROBE plank writes a probe pattern at a probe position. `n`: BWKn; `full`: the device full angle. -/
  | plankProbe (n full : Nat)
  /-- PLANK_CAL (R393): A CAL plank opens the measurement window of its calibration group. `n`: the sequencer; `full`: the device full angle. -/
  | plankCal (n full : Nat)
  /-- PLANK_MARK (R122): A MARK plank copies PARAM to BWKn_MARK at its start angle. `n`: BWKn; `full`: the device full angle. -/
  | plankMark (n full : Nat)
  /-- MARKER_PLANK (R132): A plank with COUNT 0 waits for its angle and ends with MARKER. `n`: BWKn; `full`: the device full angle. -/
  | markerPlank (n full : Nat)
  /-- MICROWORD_EXECUTE (R145): A microword waits, drives its strobes, updates its counters and chooses the next address. `n`: BWKn; `full`: the full angle of its frame; `upset`: the word fetched next fails parity. -/
  | microwordExecute (n full : Nat) (upset : Option Upset)
  /-- PARITY_RELOAD_DONE (R150): The affected line has been reloaded from MRAM, and the sequencer continues with the next plank. `n`: BWKn. -/
  | parityReloadDone (n : Nat)
  /-- NOLOCK_TIMEOUT (R134): BWKn_NOLOCK_TO expires while a plank waits without lock, so the plank ends NO_ANGLE and the sequencer stalls. `n`: BWKn; `full`: the device full angle. -/
  | nolockTimeout (n full : Nat)
  /-- WRITE_GATE_FALL (R143): A flag falls during a write, the gate drops, and the fault sector ends the plank with WRITE_FAULT. `n`: BWKn; `full`: the device full angle of the fall; `bits`: codeword bits of the sector written before it. -/
  | writeGateFall (n full bits : Nat)
  /-- BWK_ABORT (R154): BWKn_CTL.ABORT ends the current plank and gives ABORTED to every other published plank. `n`: BWKn; `full`: the device full angle at which the current plank ends. -/
  | bwkAbort (n full : Nat)
  /-- BWK_RESUME (R154): BWKn_CTL.RESUME leaves STALLED or HALTED. `n`: BWKn. -/
  | bwkResume (n : Nat)
  /-- SERVO_SAMPLE (R160): SRVn demodulates a wedge, forms position and quality, publishes the decision and starts the SAMPLE program. `n`: SRVn; `full`: the device full angle of the sample boundary. -/
  | servoSample (n full : Nat) (smp : Sample)
  /-- LAW_OVERRUN (R171): The run does not yield within BUDGET or before the next wedge, so the loop enters FALLBACK. `n`: SRVn. -/
  | lawOverrun (n : Nat)
  /-- COAST_EXHAUSTED (R173): Missing samples exceed FB_COAST, and the loop enters FALLBACK. `n`: SRVn. -/
  | coastExhausted (n : Nat)
  /-- FE_LIMIT_FAULT (R180): Following error exceeds FE_LIMIT on FE_TIME good samples, and the loop enters FALLBACK. `n`: SRVn. -/
  | feLimitFault (n : Nat)
  /-- SETTLE_RUN_MET (R173): SETTLE_RUN consecutive on-track decisions take the loop from SETTLE to FOLLOW. `n`: SRVn. -/
  | settleRunMet (n : Nat)
  /-- SETTLE_PLANK_RUN (R185): A SETTLE plank's RUN samples are met, and the plank ends OK. `n`: BWKn; `full`: the device full angle. -/
  | settlePlankRun (n full : Nat)
  /-- SETTLE_TIMEOUT (R185): A SETTLE plank's TIMEOUT wedges pass, and it ends with SETTLE_TIMEOUT. `n`: BWKn; `full`: the device full angle. -/
  | settleTimeout (n full : Nat)
  /-- REACQUIRED (R182): MARKS consecutive good, agreeing samples at low speed end FALLBACK or LOADING. `n`: SRVn; `full`: the device full angle. -/
  | reacquired (n full : Nat)
  /-- REACQ_TIMEOUT (R182): REACQ_TIME wedges pass without reacquisition, so a retract is requested and the loop enters RETRACTING. `n`: SRVn. -/
  | reacqTimeout (n : Nat)
  /-- SEEK_ARRIVAL (R185): The current angle reaches the posted arrival, so the SEEK plank ends and the loop settles. `n`: SRVn; `full`: the device full angle reached. -/
  | seekArrival (n full : Nat)
  /-- SEEK_TIMEOUT (R184): The seek passes DUR plus GRACE, faults, and settles on the nearest track. `n`: SRVn; `full`: the device full angle. -/
  | seekTimeout (n full : Nat)
  /-- SEEK_VERR_FAULT (R184): The velocity error exceeds VERR_LIM on FE_TIME samples, and the seek faults. `n`: SRVn; `full`: the device full angle. -/
  | seekVerrFault (n full : Nat)
  /-- SRV_CMD_LOAD (R186): A LOAD command drives the heads off the ramp to reacquire and seek. `n`: SRVn; `head` and `track`: the fields of the SRVn_CMD write; `full`: the device full angle. -/
  | srvCmdLoad (n head track full : Nat)
  /-- SRV_CMD_UNLOAD (R186): An UNLOAD command seeks outward and drives onto the ramp. `n`: SRVn. -/
  | srvCmdUnload (n : Nat)
  /-- SRV_CMD_RETRACT (R186): A RETRACT command asks the HV die to retract the actuator. `n`: SRVn. -/
  | srvCmdRetract (n : Nat)
  /-- UNLOAD_RAMP_REACHED (R173): The unload reaches the ramp, and the loop enters PARKED. `n`: SRVn. -/
  | unloadRampReached (n : Nat)
  /-- RETRACT_DONE (R173): The HV die reports the retract done, and the loop enters PARKED. `n`: the actuator; `full`: the device full angle. -/
  | retractDone (n full : Nat)
  /-- SETUP_REPLAY (R221): After a LOAD or a fault-line clear, PRE replays its preamp setup table. `pa`: the preamp group. -/
  | setupReplay (pa : Nat)
  /-- TAP_DATA_ACCESS (R195): An access to SRVn_TAP_DATA reads or writes a feedforward tap and increments INDEX. `n`: SRVn; `write`: the word stored, none for a read. -/
  | tapDataAccess (n : Nat) (write : Option Word)
  /-- SPN_CMD_START (R188): START begins spin-up through TOKEN at the named rung, or handles a coasting spindle. `rung`: SPN_CMD.RUNG; `rpm`: the speed the spindle still turns at. -/
  | spnCmdStart (rung rpm : Nat)
  /-- SPN_CMD_STOP (R188): STOP brakes the spindle to 300 rpm, then floats the phases. -/
  | spnCmdStop
  /-- SPN_CMD_CLEAR (R188): CLEAR leaves FAULT for STOPPED once the spindle is below 300 rpm. `rpm`: the measured speed. -/
  | spnCmdClear (rpm : Nat)
  /-- ALIGN_TIME_EXPIRY (R188): ALIGN_MS ends, and SPN enters OPENLOOP. -/
  | alignTimeExpiry
  /-- HANDOVER_REACHED (R188): Open-loop commutation reaches HANDOVER_RPM, and SPN enters ACCEL. -/
  | handoverReached
  /-- SPINUP_TIMEOUT (R188): LOCKED is not reached within SPINUP_S, and SPN faults with SPINUP_TIMEOUT. -/
  | spinupTimeout
  /-- ZERO_CROSSING (R189): A back-EMF zero crossing in its window runs SPEED, or locks or returns from ZC_COAST. `rpm`: the measured speed; `period`: the revolution period in fabric cycles where the crossing ends a revolution, else 0; `upset`: a CE2 control-store word whose parity fails in the run. -/
  | zeroCrossing (rpm period : Nat) (upset : Option Upset)
  /-- ZC_WINDOW_MISS (R189): A crossing absent from its window puts SPN in ZC_COAST. -/
  | zcWindowMiss
  /-- ZC_LOST (R189): ZC_COAST + 1 missing crossings fault SPN, floating the phases and retracting both actuators. -/
  | zcLost
  /-- OFFSPEED_SET (R190): The period is out of tolerance for REVS revolutions, so OFFSPEED holds both on-track flags low. -/
  | offspeedSet
  /-- SPEED_BELOW_FLY_MIN (R190): The speed falls below FLY_MIN_PCT with a loop active, so both actuators are retracted. `rpm`: the measured speed. -/
  | speedBelowFlyMin (rpm : Nat)
  /-- SPINDLE_BRAKE_DONE (R188): Braking brings the spindle below 300 rpm, and the phases float. `rpm`: the measured speed. -/
  | spindleBrakeDone (rpm : Nat)
  /-- RETRACT_START (R191): A retract trigger starts the HV retract engine on one or both actuators. `mask`: bit n for actuator n; `cause`: the CAUSE code of HV_RETRACTn. -/
  | retractStart (mask cause : Nat)
  /-- RETRACT_PHASE_END (R191): BRAKE or MOVE meets its end condition, or CLIMB or LATCH ends, passing to the next phase or to DONE. `n`: the actuator. -/
  | retractPhaseEnd (n : Nat)
  /-- RETRACT_PHASE_TIMEOUT (R191): BRAKE or MOVE reaches its time limit, sets TIMEOUT and RETRACT_TIMEOUT, and passes on. `n`: the actuator. -/
  | retractPhaseTimeout (n : Nat)
  /-- AST_SAMPLE (R204): Each 500 ns frame, ASTn checks the sensor word, computes the setpoint and updates STATE and the in-band flag. `n`: ASTn; `full`: the device full angle; `word`: the 32-bit sensor word, none when it does not arrive within the window. -/
  | astSample (n full : Nat) (word : Option Nat)
  /-- PROXY_LOSS (R211): HOLD_SAMPLES + 1 invalid samples declare the proxy lost, drop in-band, enter OPEN and mark the head suspect. `n`: ASTn; `full`: the device full angle. -/
  | proxyLoss (n full : Nat)
  /-- AST_STAGED_APPLY (R209): Staged gain and ceiling writes take effect at the first boundary with ASTn in IDLE. `n`: ASTn. -/
  | astStagedApply (n : Nat)
  /-- AST_TBL_DATA_ACCESS (R209): An access to ASTn_TBL_DATA stages a ceiling entry and increments INDEX. `n`: ASTn; `write`: the word stored, none for a read. -/
  | astTblDataAccess (n : Nat) (write : Option Word)
  /-- AST_SET_DATA_ACCESS (R209): An access to ASTn_SET_DATA stages a gain or open-loop word and increments WORD. `n`: ASTn; `write`: the word stored, none for a read. -/
  | astSetDataAccess (n : Nat) (write : Option Word)
  /-- PREAMP_FAULT (R223): A fault line low for 50 samples registers a preamp fault and puts ASTn in FAULT. `pa`: the preamp group; `full`: the device full angle. -/
  | preampFault (pa full : Nat)
  /-- PREAMP_FAULT_CLEAR (R223): The line has been released for 10 µs and the setup replay is done, so the fault clears. `pa`: the preamp group. -/
  | preampFaultClear (pa : Nat)
  /-- PRE_XFER_GO (R222): An expert raw preamp transaction is queued behind any running plank. `data`: the word written to PRE_XFER with GO set. -/
  | preXferGo (data : Word)
  /-- PRE_TRANSACTION_DONE (R220): A serial preamp transaction ends and signals done or sets VALID. `data`: the 16 bits the preamp drives on a read. -/
  | preTransactionDone (data : Nat)
  /-- PRE_READ_TIMEOUT (R220): A read with no response within 4 clocks completes with ERR. -/
  | preReadTimeout
  /-- PRE_SETUP_DATA_ACCESS (R225): An access to PRE_SETUP_DATA reads or writes a setup entry and increments INDEX. `write`: the word stored, none for a read. -/
  | preSetupDataAccess (write : Option Word)
  /-- READ_SECTOR (R229): At a slot start, the channel acquires, frames and detects one sector and streams it to a decoder. `n`: BWKn; `full`: the device full angle; `det`: what the channel saw. -/
  | readSector (n full : Nat) (det : Detection)
  /-- WRITE_SECTOR (R142): At a slot start, the write request rises and one sector frame is written. `n`: BWKn; `full`: the device full angle of the slot boundary: the sector in progress ends and the next begins. -/
  | writeSector (n full : Nat)
  /-- FAST_DECODE_DONE (R236): Fast decoding stops, and the sector is decrypted and checked, or fails. `k`: place of the codeword among those in progress, oldest first; `iter`, `unsat`: iterations run and checks unsatisfied; `block`: the information block decoded. -/
  | fastDecodeDone (k iter unsat : Nat) (block : List Byte)
  /-- DECODE_DEADLINE_CUT (R235): A codeword unconverged DEADLINE µs after its last bit is cut with DECODE_FAIL. As FAST_DECODE_DONE, for the codeword cut. -/
  | decodeDeadlineCut (k iter unsat : Nat) (block : List Byte)
  /-- READ_RESULT_WRITE (R236): Once every sector outcome is final, the READ result entry is written. `n`: BWKn. -/
  | readResultWrite (n : Nat)
  /-- DEEP (R242): A DEEP job combines captures and deep-decodes one sector. -/
  | deep
  /-- DEEP_JOB_DONE (R243): A deep job ends and its result entry is written. `iter`, `unsat`: iterations run and checks unsatisfied; `block`: the information block decoded. -/
  | deepJobDone (iter unsat : Nat) (block : List Byte)
  /-- ENCODE (R247): An OCE ENCODE job produces the parity of a group. -/
  | encode
  /-- REBUILD (R247): An OCE REBUILD job checks syndromes and produces erased sectors. -/
  | rebuild
  /-- OCE_JOB_DONE (R248): An OCE job ends and its result entry is written. -/
  | oceJobDone
  /-- OCE_ACC_CLR_WRITE (R245): A write of OCE_ACC_CLR clears an accumulator at once or holds the clear. `data`: the word written to OCE_ACC_CLR. -/
  | oceAccClrWrite (data : Word)
  /-- OCE_ACC_CLR_APPLY (R245): A held clear applies once the streaming sector's outcome is final. -/
  | oceAccClrApply
  /-- CHANNEL_GRANT (R249): A shared channel is granted to a waiting sequencer, and the crossover switches. `c`: RDCc; `full`: the device full angle. -/
  | channelGrant (c full : Nat)
  /-- RDC_STAGED_APPLY (R252): Staged expert RDC writes take effect at the next plank gap. `c`: RDCc. -/
  | rdcStagedApply (c : Nat)
  /-- RDC_PROF_DATA_ACCESS (R255): An access to RDCn_PROF_DATA stages a profile word and increments WORD. `c`: RDCc; `write`: the word stored, none for a read. -/
  | rdcProfDataAccess (c : Nat) (write : Option Word)
  /-- RDC_EQ_DATA_ACCESS (R255): An access to RDCn_EQ_DATA stages an equalizer tap and increments TAP. `c`: RDCc; `write`: the word stored, none for a read. -/
  | rdcEqDataAccess (c : Nat) (write : Option Word)
  /-- CHANNEL_LOCK_LOSS (R373): Bit-clock lock loss drops the write request and ends the sectors in progress. `c`: RDCc; `bits`: codeword bits of the sector being written; `inDet`: a sector of a READ plank is in detection. -/
  | channelLockLoss (c bits : Nat) (inDet : Bool)
  /-- CHANNEL_RELOCK (R373): The channel relocks and takes grants again. `c`: RDCc. -/
  | channelRelock (c : Nat)
  /-- CHANNEL_RELOCK_TIMEOUT (R373): No relock within 100 µs, or three losses in 1 s, is unit-fatal. `c`: RDCc. -/
  | channelRelockTimeout (c : Nat)
  /-- ROUTE (R260): An expert ROUTE chooses the direct or journaled route for a command. -/
  | route
  /-- FOLD (R260): An expert FOLD folds a journal extent to its home. -/
  | fold
  /-- RELEASE (R260): An expert RELEASE frees a journal extent. -/
  | release
  /-- TWIN_WAIT_EXPIRY (R264): TWIN_WAIT_US passes without a seal, and JNL issues a twin record. `tag`: the direct write whose group is not sealed. -/
  | twinWaitExpiry (tag : Nat)
  /-- FOLD_IDLE_START (R271): IDLE_MS of idleness, or occupancy at HIGH_WM, starts folds. -/
  | foldIdleStart
  /-- JOURNAL_REPLAY (R279): After power loss, JNL checks the index, frees intents, re-runs folds, trims bands and resets ring heads. `reads`: what reading the active bands back finds. -/
  | journalReplay (reads : List BandRead)
  /-- PCIE_LANE_FAIL (R286): A lane fails, and the port retrains at a narrower width. `lane`: 0 to 3; `int`: the interruption in units of 10 ns. -/
  | pcieLaneFail (lane int : Nat)
  /-- SQ_TAIL_DOORBELL (R288): A submission-queue doorbell write makes new commands available to fetch. `fn`: device function index; `qid`: queue; `value`: the tail written. -/
  | sqTailDoorbell (fn qid value : Nat)
  /-- CQ_HEAD_DOORBELL (R309): A head doorbell frees completion slots and drains the pending list. `fn`: device function index; `qid`: queue; `value`: the head written. -/
  | cqHeadDoorbell (fn qid value : Nat)
  /-- COMMAND_FETCH (R304): A fetched command gets a tag and an intent record and is placed in overlap order. `fn`, `sqid`: the queue that arbitration serves; `tag`: the free tag taken by an I/O command; `hart`: the hart it is delivered to; `sqe`: the 64 bytes fetched. -/
  | commandFetch (fn sqid tag hart : Nat) (sqe : List Byte)
  /-- COMMAND_BEGIN (R305): Once earlier conflicts are DONE, a command begins its media work and transfer. `tag`: the command's tag. -/
  | commandBegin (tag : Nat)
  /-- COMPLETION_POST (R308): A posting lane posts a DONE record through its latch, or queues it on a full queue. `lane`: posting lane 0 to 3; `tag`: the command's tag. -/
  | completionPost (lane tag : Nat)
  /-- FRONTEND_RESTART (R372): An uncorrectable HST state read restarts the front end from the MRAM shadows. `int`: the interruption in units of 10 ns; `again`: a second within 1 s of the first. -/
  | frontendRestart (int : Nat) (again : Bool)
  /-- CREATE_IO_SQ (R294): Admin command creating an I/O submission queue. `entries`: queue size; `cq`: its completion queue; `prio`: its class. -/
  | createIoSq (fn qid base entries cq prio : Nat)
  /-- CREATE_IO_CQ (R294): Admin command creating an I/O completion queue. `entries`: queue size; `vector`: its interrupt vector; `ien`: interrupts enabled. -/
  | createIoCq (fn qid base entries vector : Nat) (ien : Bool)
  /-- DELETE_IO_SQ (R310): Admin command deleting an I/O submission queue and aborting its unstarted commands. `fn`: device function index; `qid`: queue. -/
  | deleteIoSq (fn qid : Nat)
  /-- DELETE_IO_CQ (R294): Admin command deleting an I/O completion queue. `fn`: device function index; `qid`: queue. -/
  | deleteIoCq (fn qid : Nat)
  /-- GET_LOG_PAGE (R296): Admin command returning a log page. `lid`: log identifier; `ns`: NSID; `offset` and `len` in bytes. -/
  | getLogPage (fn lid ns offset len : Nat)
  /-- IDENTIFY (R294): Admin command returning an identify structure. `cns`: CNS; `ns`: NSID; `csi`: command set. -/
  | identify (fn cns ns csi : Nat)
  /-- ABORT (R307): Abort matches the named command once and aborts it if it is still removable. `cid`: the Abort's own identifier; `sqid` and `target`: the command it names. -/
  | abort (fn cid sqid target : Nat)
  /-- SET_FEATURES (R295): Set Features for the standard feature identifiers without a row of their own. `fid`: feature identifier; `value`: CDW11; `save`: the Save bit. -/
  | setFeatures (fn fid value : Nat) (save : Bool)
  /-- SET_FEATURES_POWER_MGMT (R313): A power-state selection starts a rung change or a mode change. `ps`: the power state. -/
  | setFeaturesPowerMgmt (fn ps : Nat)
  /-- SET_FEATURES_APST (R314): Configures the APST table. `table`: the 32 entries of 64 bits. -/
  | setFeaturesApst (fn : Nat) (enable : Bool) (table : List Nat) (save : Bool)
  /-- SET_FEATURES_HCTM (R438): Sets the TMT1 and TMT2 thermal thresholds. `value`: CDW11, TMT1 in bits 31:16 and TMT2 in bits 15:0. -/
  | setFeaturesHctm (fn value : Nat) (save : Bool)
  /-- SET_FEATURES_TWIN (R295): Twin Protection writes JNL_CTL.TWIN for later commands. `value`: CDW11. -/
  | setFeaturesTwin (fn value : Nat) (save : Bool)
  /-- SET_FEATURES_IDLE_CADENCE (R315): Sets the T1 and T2 idle rung-step times. `value`: CDW11, T1 in bits 15:0 and T2 in bits 31:16. -/
  | setFeaturesIdleCadence (fn value : Nat) (save : Bool)
  /-- SET_FEATURES_NS_MASK (R295): Sets the namespace mask of a function in settings. `value`: CDW11, the VF in bits 7:0 and the mask in bits 23:16. -/
  | setFeaturesNsMask (fn value : Nat)
  /-- GET_FEATURES (R295): Returns a feature value. `sel`: current, default, saved or capabilities; `value`: CDW11. -/
  | getFeatures (fn fid sel value : Nat)
  /-- ASYNCHRONOUS_EVENT_REQUEST (R294): Registers an asynchronous event request. `cid`: the request's identifier. -/
  | asynchronousEventRequest (fn cid : Nat)
  /-- FIRMWARE_IMAGE_DOWNLOAD (R493): Programs a piece of an image set into the pending slot. `offset`: byte offset in the set; `data`: the piece. -/
  | firmwareImageDownload (fn offset : Nat) (data : List Byte)
  /-- FIRMWARE_COMMIT_CA0 (R493): Ends staging and authenticates the set. `slot`: the firmware slot named. -/
  | firmwareCommitCa0 (fn slot : Nat)
  /-- FIRMWARE_COMMIT_CA1 (R493): Ends staging, authenticates and arms the set. `slot`: the firmware slot named. -/
  | firmwareCommitCa1 (fn slot : Nat)
  /-- FIRMWARE_COMMIT_CA2 (R493): Arms a VALID set already in a slot. `slot`: the firmware slot named. -/
  | firmwareCommitCa2 (fn slot : Nat)
  /-- FORMAT_NVM (R303): Installs a new key, resets the zones and zeroes the conventional sectors of a namespace. `lbaf`, `pi`, `ses`: fields of CDW10; `key`: the new key that the hardware draws. -/
  | formatNvm (fn ns lbaf pi ses : Nat) (key : List Byte)
  /-- SANITIZE (R303): Crypto-erases every namespace as Format NVM with SES 2. `action`: SANACT; `keys`: the new keys that the hardware draws, by namespace. -/
  | sanitize (fn action : Nat) (keys : List (List Byte))
  /-- FLUSH (R268): Completes once earlier writes of the namespace are posted. `tag`: the command's tag. -/
  | flush (tag : Nat)
  /-- WRITE (R259): Host write, routed direct or journaled. `ok`: the host memory reads completed; `data`, `info`: the data and metadata fetched. -/
  | write (tag : Nat) (ok : Bool) (data info : List Byte)
  /-- READ (R305): Host read, served from the cache or the medium. `ok`: the host memory writes complete. -/
  | read (tag : Nat) (ok : Bool)
  /-- WRITE_ZEROES (R259): Write Zeroes, routed as a write of its range. `tag`: the command's tag. -/
  | writeZeroes (tag : Nat)
  /-- ZONE_APPEND (R301): Appends at the write pointer and records ALBA. `ok`: the host memory reads completed; `data`, `info`: the data and metadata fetched. -/
  | zoneAppend (tag : Nat) (ok : Bool) (data info : List Byte)
  /-- ZONE_CLOSE (R302): Zone Management Send Close. `tag`: the command's tag. -/
  | zoneClose (tag : Nat)
  /-- ZONE_FINISH (R302): Zone Management Send Finish, sealing the last group. `tag`: the command's tag. -/
  | zoneFinish (tag : Nat)
  /-- ZONE_OPEN (R302): Zone Management Send Open. `tag`: the command's tag. -/
  | zoneOpen (tag : Nat)
  /-- ZONE_RESET (R302): Zone Management Send Reset, freeing extents and applying a held plan. `tag`: the command's tag. -/
  | zoneReset (tag : Nat)
  /-- ZONE_OFFLINE (R302): Zone Management Send Offline, accepted only from Read Only. `tag`: the command's tag. -/
  | zoneOffline (tag : Nat)
  /-- SET_ZONE_DESC_EXT (R302): Completes with Invalid Field in Command. `tag`: the command's tag. -/
  | setZoneDescExt (tag : Nat)
  /-- REPORT_ZONES (R302): Zone Management Receive Report Zones. `tag`: the command's tag. -/
  | reportZones (tag : Nat)
  /-- EXTENDED_REPORT_ZONES (R302): Completes with Invalid Field in Command. `tag`: the command's tag. -/
  | extendedReportZones (tag : Nat)
  /-- ADMIN_INBOX_CONSUME (R293): Firmware advances HST_ADM_CONS to consume admin inbox entries. `data`: the word written to HST_ADM_CONS. -/
  | adminInboxConsume (data : Word)
  /-- ADMIN_COMPLETION_GO (R293): HST_ADM_CPL2.GO posts an admin completion. `data`: the word written to HST_ADM_CPL2. -/
  | adminCompletionGo (data : Word)
  /-- IDLE_CADENCE_STEP (R315): T1 or T2 seconds idle move the spindle one or two rungs slower. `step`: 1 after T1 seconds, 2 after T2 seconds. -/
  | idleCadenceStep (step : Nat)
  /-- MI_READ_DATA_STRUCTURE (R317): The NVMe-MI command Read NVMe-MI Data Structure. `type`: Data Structure Type. -/
  | miReadDataStructure (type : Nat)
  /-- MI_SUBSYSTEM_HEALTH_POLL (R317): The NVMe-MI command NVM Subsystem Health Status Poll. `clear`: Clear Status. -/
  | miSubsystemHealthPoll (clear : Bool)
  /-- MI_CONTROLLER_HEALTH_POLL (R317): The NVMe-MI command Controller Health Status Poll. the first function and how many functions. -/
  | miControllerHealthPoll (first count : Nat)
  /-- MI_CONFIG_GET (R317): The NVMe-MI command Configuration Get. `id`: Configuration Identifier. -/
  | miConfigGet (id : Nat)
  /-- MI_CONFIG_SET (R317): The NVMe-MI command Configuration Set. `id`: Configuration Identifier. -/
  | miConfigSet (id value : Nat)
  /-- MI_TUNNELED_ADMIN (R317): A tunnelled Identify, Get Features or Get Log Page. `fn`: the function addressed; `opc`: opcode; `sel`: CNS, feature or log identifier; `arg`: CSI, Select or log offset; `len`: bytes of log asked for. -/
  | miTunneledAdmin (fn opc sel ns arg len : Nat)
  /-- MI_BASIC_MGMT_COMMAND (R316): The NVMe Basic Management Command at address 0x6A. `code`: the command code, the offset of the block read. -/
  | miBasicMgmtCommand (code : Nat)
  /-- RING_REQ_PROD_WRITE (R324): Firmware publishes request entries by moving the producer index. `n`: ring pair 0 to 6. -/
  | ringReqProdWrite (n : Nat) (data : Word)
  /-- RING_RES_CONS_WRITE (R324): Firmware frees result slots by moving the consumer index. `n`: ring pair 0 to 6. -/
  | ringResConsWrite (n : Nat) (data : Word)
  /-- RING_ENABLE (R332): ENABLE 0 to 1 checks the pair and enables it or refuses. `n`: ring pair 0 to 6; ENABLE written 1. -/
  | ringEnable (n : Nat)
  /-- RING_DISABLE (R333): ENABLE 1 to 0 starts a drain. `n`: ring pair 0 to 6; ENABLE written 0. -/
  | ringDisable (n : Nat)
  /-- RING_DRAIN_DONE (R333): The drain ends, IDLE rises and DRAINED is raised. `n`: ring pair 0 to 6. -/
  | ringDrainDone (n : Nat)
  /-- RING_ENTRY_ADMIT (R330): An engine admits a published entry when it has room. `n`: ring pair 0 to 6. -/
  | ringEntryAdmit (n : Nat)
  /-- HELD_RESULT_WRITE (R330): Held results are written as result slots free. `n`: ring pair 0 to 6. -/
  | heldResultWrite (n : Nat)
  /-- ENCRYPT (R334): CRY ENCRYPT of data units under AES-XTS. -/
  | encrypt
  /-- DECRYPT (R334): CRY DECRYPT of data units. -/
  | decrypt
  /-- HASH (R334): CRY SHA-384 over a chain of segments. -/
  | hash
  /-- KEY_LOAD (R334): Loads a key slot from memory. -/
  | keyLoad
  /-- KEY_CLEAR (R334): Empties a key slot. -/
  | keyClear
  /-- KEY_OP_APPLY (R334): A waiting key operation takes effect once no work uses the slot. -/
  | keyOpApply
  /-- CRY_ENTRY_DONE (R335): A CRY entry ends and its result is written. -/
  | cryEntryDone
  /-- NOP (R337): Mailbox NOP returns its arguments. -/
  | nop
  /-- KEYCMD (R503): Mailbox service applying a signed key command. -/
  | keycmd
  /-- LOOKUP (R343): Reports a line's frame and its VALID and DIRTY sectors. `slot`: 0 to 3; `data`: the word written to BCM_OPn_CTL with GO 1 and OP 1. -/
  | lookup (slot : Nat) (data : Word)
  /-- ALLOC (R344): Allocates a line and makes sectors FILLING. As LOOKUP, with OP 2. -/
  | alloc (slot : Nat) (data : Word)
  /-- FILL_OK (R343): FILLING sectors become VALID. As LOOKUP, with OP 3. -/
  | fillOk (slot : Nat) (data : Word)
  /-- FILL_FAIL (R343): FILLING sectors become INVALID. As LOOKUP, with OP 4. -/
  | fillFail (slot : Nat) (data : Word)
  /-- CLEAN (R348): Folds the extents holding DIRTY sectors of a line. As LOOKUP, with OP 5. -/
  | clean (slot : Nat) (data : Word)
  /-- INVALIDATE (R348): Cleans, then invalidates the sectors of a line. As LOOKUP, with OP 6. -/
  | invalidate (slot : Nat) (data : Word)
  /-- PIN (R343): Pins a line at expert level. As LOOKUP, with OP 7. -/
  | pin (slot : Nat) (data : Word)
  /-- UNPIN (R343): Unpins a line at expert level. As LOOKUP, with OP 8. -/
  | unpin (slot : Nat) (data : Word)
  /-- BCM_REQ_POP (R346): Removes the head entry of the miss request FIFO. -/
  | bcmReqPop
  /-- BCM_WAYS_WRITE (R349): Powers ways up, or starts powering them down. `data`: the word written to BCM_WAYS. -/
  | bcmWaysWrite (data : Word)
  /-- WAY_GATED (R349): A way finishes cleaning and is gated, and PEND clears. `w`: the way. -/
  | wayGated (w : Nat)
  /-- BCM_EN_WRITE (R350): EN 0 enters DRAINING, and EN 1 in OFF powers the ways on. `data`: the word written to BCM_CTL. -/
  | bcmEnWrite (data : Word)
  /-- BCM_DRAIN_DONE (R350): No DIRTY sector is left, so BCM frees all lines and enters OFF. -/
  | bcmDrainDone
  /-- MEM_CORRECTED_READ (R355): A corrected read updates the tracker and may dispatch a write-back. `m`: bus master; `addr`: word address; `position`: bit or symbol corrected. -/
  | memCorrectedRead (m addr position : Nat)
  /-- MEM_UNCORRECTABLE_READ (R352): An uncorrectable read poisons the word and ends its reader under R353. `m`: bus master; `addr`: word address. -/
  | memUncorrectableRead (m addr : Nat)
  /-- TRACKER_WRITEBACK (R355): The scrubber writes back a tracked word within 10 µs. `k`: tracker entry. -/
  | trackerWriteback (k : Nat)
  /-- SCRUB_STEP (R358): The scrubber visits words at its rate, writing back corrected ones. `array`: 0 SRAM, 1 DRAM, 2 MRAM; `flaw`: what the word read shows: 0 clean, 1 corrected, 2 uncorrectable. -/
  | scrubStep (array : Nat) (flaw : Nat)
  /-- MEM_INJECT_ARM (R364): Arms error injection on the next full-word write to the target. `data`: the word written to MEM_INJECT with ARM set. -/
  | memInjectArm (data : Word)
  /-- HART_WATCHDOG_EXPIRY (R369): A hart watchdog expires, which is a control-core fault. `h`: the hart; `int`: the interruption in units of 10 ns. -/
  | hartWatchdogExpiry (h int : Nat)
  /-- CORE_FAULT (R369): An uncorrectable core error or bus lockup is a control-core fault. `h`: the hart; `int`: the interruption in units of 10 ns. -/
  | coreFault (h int : Nat)
  /-- CORE_REJOIN (R371): The warden releases the faulted hart with REJOIN set. `h`: the hart. -/
  | coreRejoin (h : Nat)
  /-- FLT_CORE_ONLINE (R371): A hart writes ONLINE and takes tags again. `h`: the hart that writes; `data`: the word written to FLT_CORE. -/
  | fltCoreOnline (h : Nat) (data : Word)
  /-- FLT_WDOG_KICK (R382): KICK restarts a hart watchdog count. `m`: the hart that writes; `n`: the watchdog; `data`: the word written to FLT_WDOGn. -/
  | fltWdogKick (m n : Nat) (data : Word)
  /-- FLT_DECLARE_CONTAINED (R378): Firmware declares a contained fault with CODE 0x0070 + SUB. `m`: the hart that writes; `data`: the word written to FLT_DECLARE. -/
  | fltDeclareContained (m : Nat) (priv : Priv) (data : Word)
  /-- FLT_DECLARE_DEVICE_FATAL (R378): Firmware declares a device-fatal fault, and the device enters SAFE. `m`: the hart that writes; `data`: the word written to FLT_DECLARE. -/
  | fltDeclareDeviceFatal (m : Nat) (priv : Priv) (data : Word)
  /-- FLT_DECLARE_HART (R378): Firmware declares a control-core fault on a hart. `m`: the hart that writes; `data`: the word written to FLT_DECLARE; `int`: the interruption in units of 10 ns. -/
  | fltDeclareHart (m : Nat) (priv : Priv) (data : Word) (int : Nat)
  /-- WARDEN_WATCHDOG_EXPIRY (R374): The warden watchdog is not kicked within 100 ms, which forces DRST. -/
  | wardenWatchdogExpiry
  /-- LOCKSTEP_MISMATCH (R376): A warden lockstep mismatch asserts RETRACT and restarts the warden. -/
  | lockstepMismatch
  /-- WARDEN_RESTART_DONE (R376): The restarted warden carries out SAFE entry from step 3. -/
  | wardenRestartDone
  /-- RUN (R391): CAL_CMD RUN requests an internal group run. `group` and `inst`: as CAL_CMD has them. -/
  | run (group inst : Nat)
  /-- SAVE (R387): CAL_CMD SAVE writes every overlay to settings. -/
  | save
  /-- FACTORY (R387): CAL_CMD FACTORY clears RUN_VALID for a group. `group`: as CAL_CMD has it. -/
  | factory (group : Nat)
  /-- CAL_INTERNAL_RUN_END (R394): An internal run ends, and values are applied on a pass. `values`: the quantities measured, in index order; `check`: whether the run's own check holds. -/
  | calInternalRunEnd (group : Nat) (values : List Int) (check : Bool)
  /-- CAL_WINDOW_CLOSE (R393): A CAL plank's window closes, and the run is judged and recorded. `n`: the sequencer; `full`: the device full angle; `values`: what the window measured (m0 and m1 for group 4); `check`: whether the fit and validity conditions of R393 hold. -/
  | calWindowClose (n full : Nat) (values : List Int) (check : Bool)
  /-- CAL_OVERLAY_WRITE (R387): A write to CAL_Q_OVERLAY stages an overlay. `data`: the word written to CAL_Q_OVERLAY. -/
  | calOverlayWrite (data : Word)
  /-- CAL_OVERLAY_APPLY (R387): A staged overlay applies at its group boundary. `group`: whose boundary has come. -/
  | calOverlayApply (group : Nat)
  /-- AGE_EVAL_TIMER (R401): Every EVAL_H hours, AGE evaluates the ledger. `delay`: the ring-oscillator delay in ps; `readers`: reader resistance of each head in 0.25 Ω, 0 where none was read. -/
  | ageEvalTimer (delay : Nat) (readers : List Nat)
  /-- EVAL (R401): AGE_CTL.EVAL starts an evaluation now. as AGE_EVAL_TIMER. -/
  | eval (delay : Nat) (readers : List Nat)
  /-- APPLY (R407): AGE_PROP_CMD APPLY applies a pending proposal. `entry`: the proposal entry. -/
  | apply (entry : Nat)
  /-- DISCARD (R407): AGE_PROP_CMD DISCARD drops a pending proposal. `entry`: the proposal entry. -/
  | discard (entry : Nat)
  /-- POWER_LOSS_DETECT (R425): VM or VL below threshold for 2 µs starts the power-loss sequence. `vm`, `vl`: the supplies in mV. -/
  | powerLossDetect (vm vl : Nat)
  /-- LOSS_SECTOR_BOUNDARY (R425): The write requests fall at the sector boundary, and the retracts start. -/
  | lossSectorBoundary
  /-- LOSS_CORE_HOLD (R425): After CORE_US, the cores are held and the units are gated. -/
  | lossCoreHold
  /-- LAST_GASP_RECORD (R429): The warden writes the last-gasp record. `vhold`: VHOLD in mV. -/
  | lastGaspRecord (vhold : Nat)
  /-- VHOLD_BELOW_VMIN (R425): VHOLD falls below VMIN, and the rails shut down. `vhold`: VHOLD in mV. -/
  | vholdBelowVmin (vhold : Nat)
  /-- SUPPLY_RETURN (R426): Supplies back for 10 ms lead to a power-glitch DRST after the park. `vm`, `vl`: the supplies in mV. -/
  | supplyReturn (vm vl : Nat)
  /-- HOLDUP_TEST_DONE (R428): The hold-up test ends, and AGE computes the budget. `rise`: the time from 5.0 V to 30.0 V in µs; `step`: the voltage step in mV; `vhold`: VHOLD in mV. -/
  | holdupTestDone (rise step vhold : Nat)
  /-- HOLDUP_READY_TIMEOUT (R428): No HOLDUP_READY within 5 s sets HOLDUP_FAIL and HOLDUP_LOW. -/
  | holdupReadyTimeout
  /-- VM_ARRIVAL (R539): VM reaches 10.5 V, which arms the detector and starts the hold-up test. `vm`: VM in mV. -/
  | vmArrival (vm : Nat)
  /-- DYKE_LINK_DOWN (R420): Bad or missing frames declare the dyke link down, and it retrains. -/
  | dykeLinkDown
  /-- DYKE_LINK_RETRAINED (R420): The dyke link is up again. -/
  | dykeLinkRetrained
  /-- DYKE_SILENCE_RETRACT (R420): 50 µs with no good frame makes the HV die retract both actuators. -/
  | dykeSilenceRetract
  /-- HEARTBEAT_LOSS (R422): 50 µs without a heartbeat edge retracts both actuators. -/
  | heartbeatLoss
  /-- HV_FAULT_ASSERT (R422): An HV fault cause raises HV_FAULT and a notice. `cause`: the bits of HV_FAULT_CAUSE that rise. -/
  | hvFaultAssert (cause : Nat)
  /-- HVB_ACCESS (R423): An access through the HVB window crosses the dyke link, or fails with a bus error. `offset`: offset in the HVB window, from 0x1000 on. -/
  | hvbAccess (m : Nat) (priv : Priv) (write : Bool) (offset : Nat) (data : Word)
  /-- HVB_CTL_RETRACT (R446): Asserts RETRACT until both actuators are DONE. `data`: the word written to HVB_CTL. -/
  | hvbCtlRetract (priv : Priv) (data : Word)
  /-- THM_SAMPLE (R431): THM samples the sensors and updates levels, rise and the throttle condition. `ms`: the time in milliseconds; `temps`: the sensors sampled, with their readings in 1/8 °C, 16 bits signed. -/
  | thmSample (ms : Nat) (temps : List (Nat × Nat))
  /-- RISE_CLEAR_EXPIRY (R433): RISE clears 30 s after its last detection. `g`: the group. -/
  | riseClearExpiry (g : Nat)
  /-- SLUICE_GRACE_EXPIRY (R435): GRACE_S passes in ASK, and Sluice enforces step 1. -/
  | sluiceGraceExpiry
  /-- SLUICE_STEP_EXPIRY (R435): STEP_S passes in ENFORCE, and the step rises. -/
  | sluiceStepExpiry
  /-- SLUICE_RELEASE_EXPIRY (R435): RELEASE_S without the condition returns Sluice to CLEAR. -/
  | sluiceReleaseExpiry
  /-- STEP (R437): THM_CMD STEP carries out a Sluice step at expert level. -/
  | step
  /-- THM_CMD_RELEASE (R437): THM_CMD RELEASE releases Sluice at expert level. -/
  | thmCmdRelease
  /-- THERMAL_TRIP (R439): A shutdown comparator asserts THERM_TRIP, retracts and raises power loss with CAUSE THERMAL. `k`: the sensor; `reading`: in 1/8 °C, 16 bits signed. -/
  | thermalTrip (k reading : Nat)
  /-- TRIP_LOGIC_HOLD (R439): 5 ms after a trip, the logic die is held in reset. -/
  | tripLogicHold
  /-- THERMAL_RESTART (R440): The sensors are cool and 30 s have passed, so a thermal-restart DRST follows. `readings`: sensors 0 to 12 in 1/8 °C, 16 bits signed. -/
  | thermalRestart (readings : List Nat)
  /-- RESET_N_LOW (R449): RESET_N low requests DRST and starts the stop window. `us`: how long the pin is low, in microseconds. -/
  | resetNLow (us : Nat)
  /-- RST_DRST_REQ_WRITE (R462): A guarded write requests DRST. `priv`: privilege of the writer; `data`: the word written. -/
  | rstDrstReqWrite (priv : Priv) (data : Word)
  /-- NVM_SUBSYSTEM_RESET (R447): A PF write of NSSR requests DRST. `fn`: device function index; `value`: the value written to NSSR. -/
  | nvmSubsystemReset (fn value : Nat)
  /-- DRST_WRITE_STOP (R449): The write requests fall at the sector boundary, and the planks end ABORTED. -/
  | drstWriteStop
  /-- DRST_HOLD (R449): After JNL saves state, RETRACT is asserted and the logic die is held in reset. -/
  | drstHold
  /-- DRST_RELEASE (R449): The reset is released, the PLLs lock and B1 begins. `noSpare`: repair candidates for which no spare row is left. -/
  | drstRelease (noSpare : List Nat)
  /-- PERST_N_ASSERT (R453): Both ports leave L0, and every function resets. -/
  | perstNAssert
  /-- PERST_N_DEASSERT (R453): The ports enter Detect and retrain. -/
  | perstNDeassert
  /-- HOT_RESET (R453): A hot reset or link down resets one port's functions. `port`: the PCIe port. -/
  | hotReset (port : Nat)
  /-- FLR (R454): Initiate FLR resets one function. `fn`: device function index. -/
  | flr (fn : Nat)
  /-- CC_EN_CLEAR (R447): CC.EN 1 to 0 resets a controller (CRST). `fn`: device function index. -/
  | ccEnClear (fn : Nat)
  /-- CC_EN_SET (R453): CC.EN 0 to 1 readies a controller. `ams`: CC.AMS; base and entries of the admin queues from ASQ, ACQ and AQA. -/
  | ccEnSet (fn ams sqBase sqSize cqBase cqSize : Nat)
  /-- SAFE (R481): Frame: a safe-state broadcast puts a worker in SAFE. `f`: the frame. -/
  | safe (f : Frame)
  /-- NOTICE (R476): Frame: a neighbour notice is queued and forwarded. `f`: the frame; `now`: own domain time in 1/16 µs. -/
  | notice (f : Frame) (now : Nat)
  /-- SYNC (R474): Frame: a time sync steps or slews domain time. `f`: the frame; `ns`: at a worker own domain time at its start symbol in ns, at a manager its round trip in ns; `resid`: residence of a forwarder in ns. -/
  | sync (f : Frame) (ns resid : Nat)
  /-- ENUM (R472): Frame: enumeration sets the worker position. `f`: the frame. -/
  | enum (f : Frame)
  /-- TOKEN_REQ (R478): Frame: a spin-up token request reaches the manager. `f`: the frame. -/
  | tokenReq (f : Frame)
  /-- TOKEN_GRANT (R478): Frame: a token grant lets SPN leave TOKEN. `f`: the frame. -/
  | tokenGrant (f : Frame)
  /-- TOKEN_RETURN (R478): Frame: a token comes back to the manager. `f`: the frame. -/
  | tokenReturn (f : Frame)
  /-- TOKEN_QUEUED (R478): Frame: the request is queued. `f`: the frame. -/
  | tokenQueued (f : Frame)
  /-- ACTIVATE (R495): Frame: schedules activation of an armed set. `f`: the frame. -/
  | activate (f : Frame)
  /-- RESET (R470): Frame: a guarded manager reset requests DRST. `f`: the frame. -/
  | reset (f : Frame)
  /-- HEALTH (R479): Frame: health is written into the manager's health table. `f`: the frame. -/
  | health (f : Frame)
  /-- PULL (R480): Frame: requests a bulk stream range. `f`: the frame. -/
  | pull (f : Frame)
  /-- DATA (R480): Frame: carries 8 bytes of a bulk stream. `f`: the frame. -/
  | data (f : Frame)
  /-- BLOCK_END (R480): Frame: ends a 4 KiB block with its CRC, to be acknowledged. `f`: the frame. -/
  | blockEnd (f : Frame)
  /-- ACK (R480): Frame: acknowledges a block. `f`: the frame. -/
  | ack (f : Frame)
  /-- NAK (R480): Frame: rejects a block or reports an update refusal. `f`: the frame. -/
  | nak (f : Frame)
  /-- TASK (R504): Frame: Uandonak task-register traffic. `f`: the frame. -/
  | task (f : Frame)
  /-- USER (R470): Frame: delivered to the receive FIFO. `f`: the frame. -/
  | user (f : Frame)
  /-- WX_LANE_UP (R466): A Waixia lane comes up after 128 idle pairs. `port`: logical port. -/
  | wxLaneUp (port : Nat)
  /-- WX_LANE_DOWN (R466): A lane goes down, and a port is failed after 8 downs. `port`: logical port; `n`: downs of the port within the last second, this one included. -/
  | wxLaneDown (port n : Nat)
  /-- LISTEN_TIMEOUT (R471): MGR_WAIT_MS without ENUM puts the worker in ALONE. -/
  | listenTimeout
  /-- SYNC_MISSING (R471): 10 missing SYNC frames put the worker in ORPHAN. -/
  | syncMissing
  /-- ORPHAN_TIMEOUT (R471): ORPHAN_S without SYNC puts the worker in ALONE. -/
  | orphanTimeout
  /-- ENUM_SEND (R472): The manager sends ENUM on every up port each second. -/
  | enumSend
  /-- SYNC_SEND (R473): The manager sends SYNC every 1 ms. `now`: domain time in µs as the start symbol leaves. -/
  | syncSend (now : Nat)
  /-- DOM_TIME_SET_WRITE (R473): Sets domain time forward, with STEP in the next SYNC. `m`: bus master; `data`: the high half written. -/
  | domTimeSetWrite (m : Nat) (data : Word)
  /-- TOKEN_REQ_REPEAT (R478): TOKEN_REQ is repeated every 100 ms. -/
  | tokenReqRepeat
  /-- TOKEN_FALLBACK (R478): MGR_WAIT_MS without an answer falls back to the stagger. -/
  | tokenFallback
  /-- STAGGER_EXPIRY (R478): The staggered spin-up delay ends. -/
  | staggerExpiry
  /-- TOKEN_RECLAIM (R478): A token held beyond HOLD_S is reclaimed. `id`: device ID of the holder, 0 the manager's own. -/
  | tokenReclaim (id : Nat)
  /-- HEALTH_SEND (R479): The warden sends HEALTH every HEALTH.MS. -/
  | healthSend
  /-- BULK_RESEND_TIMEOUT (R480): An unanswered block is resent, or the stream fails after 8 tries. -/
  | bulkResendTimeout
  /-- DOM_SAFE_WRITE (R481): A guarded write broadcasts SAFE on every up port. `priv`: privilege of the write; `data`: the word written. -/
  | domSafeWrite (priv : Priv) (data : Word)
  /-- SAFE_REPEAT (R481): The SAFE broadcast repeats 10 ms apart. -/
  | safeRepeat
  /-- DOM_TX_GO (R483): Sends a firmware-built frame. `data`: the word written to DOM_TX_CTL. -/
  | domTxGo (data : Word)
  /-- DOM_RX_POP (R483): Removes the receive FIFO head. `data`: the word written to DOM_RX_CTL. -/
  | domRxPop (data : Word)
  /-- UPD_STAGE_AUTH_DONE (R489): Staging-end authentication passes or rejects the pending set. -/
  | updStageAuthDone
  /-- LOCK_IDLE_EXPIRY (R491): An idle host lock is released after LOCK_IDLE_S. -/
  | lockIdleExpiry
  /-- ACTIVATE_AT_REACHED (R495): Domain time reaches AT, and a manager DRST boots the armed set. -/
  | activateAtReached
  /-- WAVE_AT_REACHED (R496): The manager sends ACTIVATE for the next wave. -/
  | waveAtReached
  /-- WAVE_TIMEOUT (R496): TIMEOUT_S passes from a wave's AT, and the sequence halts. -/
  | waveTimeout
  /-- UPD_CONFIRM_WRITE (R499): Confirms the trial, making the slot ACTIVE and advancing the fuses. `priv`: privilege of the write; `data`: the word written. -/
  | updConfirmWrite (priv : Priv) (data : Word)
  /-- TRIAL_WINDOW_EXPIRY (R498): The trial window passes unconfirmed, and the trial fails. -/
  | trialWindowExpiry
  /-- UPD_SET_CMD (R501): Writes a settings block into the older LIVE copy. `data`: the word written. -/
  | updSetCmd (data : Word)
  /-- SETTINGS_MIRROR_DONE (R501): The NOR mirror of the settings is written. -/
  | settingsMirrorDone
  /-- SERVICE_PORT_REQUEST (R504): A Uandonak task-register read or write over the UART. `req`: the bytes received. -/
  | servicePortRequest (req : List Byte)
  /-- UANDONAK_OPEN (R504): Takes the service lock and opens a slot. -/
  | uandonakOpen
  /-- UANDONAK_BLOCK (R504): Programs the input buffer at a block. -/
  | uandonakBlock
  /-- UANDONAK_CLOSE (R504): Authenticates the open slot. -/
  | uandonakClose
  /-- UANDONAK_ARM (R504): Arms a VALID slot. -/
  | uandonakArm
  /-- UANDONAK_SVCKEY (R504): Stages a slot from the service key. `key`: the image set on the service key. -/
  | uandonakSvckey (key : List Byte)
  /-- UANDONAK_KEYCMD (R504): Applies a key command from the input buffer. -/
  | uandonakKeycmd
  /-- UANDONAK_RECREAD (R504): Places a recorder record in the output buffer. -/
  | uandonakRecread
  /-- UANDONAK_BAUD (R504): Selects the service-port baud rate. -/
  | uandonakBaud
  /-- UANDONAK_RESET (R504): Requests DRST. -/
  | uandonakReset
  /-- UANDONAK_CMD_DONE (R504): A running Uandonak command ends and STATUS is set. -/
  | uandonakCmdDone
  /-- RECORD_POST (R510): A unit posts an event to the recorder queue, or it is dropped. `source`: SOURCE of the unit; `warden`: the warden posts it. -/
  | recordPost (source severity code : Nat) (payload : List Byte) (warden : Bool)
  /-- REC_POST_GO (R520): Firmware queues a record from REC_POST. `m`: bus master, a hart 0 to 3 or the warden 4; `priv`: its privilege; `data`: the word written. -/
  | recPostGo (m : Nat) (priv : Priv) (data : Word)
  /-- RECORD_WRITE (R509): REC claims, writes and seals one record. -/
  | recordWrite
  /-- COUNTER_WRAP (R514): A PMU counter wraps, sets OVF and may interrupt. `k`: counter. -/
  | counterWrap (k : Nat)
  /-- CLR_ALL (R521): Zeroes the eight event counters. `priv`: privilege of the writer; `data`: the word written to PMU_CTL. -/
  | clrAll (priv : Priv) (data : Word)
  /-- PMU_COUNTER_WRITE (R521): A counter takes a written value when _HI is written. `m`: bus master; `k`: counter; `priv`: privilege; `data`: the word written to _HI. -/
  | pmuCounterWrite (m k : Nat) (priv : Priv) (data : Word)
  /-- FAST_DECODER_CHECK_FAIL (R251): A fast decoder fails its internal check and becomes unit-fatal, its codewords end DECODE_FAIL and the survivor becomes home for both channels. `d`: the fast decoder. -/
  | fastDecoderCheckFail (d : Nat)
  /-- PCIE_LINK_UP (R286): A PCIe port completes training to L0 after Detect or a retrain, and waiting completions and fetches resume on the link. `width` and `speed`: as HST_STATUS codes them. -/
  | pcieLinkUp (port width speed : Nat)
  /-- AGGREGATION_TIME_EXPIRY (R308): The interrupt-coalescing aggregation time of a completion queue runs out, and the pending vector is signalled. `fn`: device function index; `vector`: the interrupt vector. -/
  | aggregationTimeExpiry (fn vector : Nat)
  /-- RAIL_OUT_OF_RANGE (R418): An internal rail leaves its range, so a RAILS_OK bit falls, PGOOD goes low and RAIL is raised. `rail`: its bit of RAILS_OK. -/
  | railOutOfRange (rail : Nat)
  deriving DecidableEq, Repr

end Sys2Proof
end

