-- ==== Sys2Proof/Config.lean ====
section
/-!
DEFINITION. What an implementation fixes and the spec does not: free values, and the cryptographic functions that the
spec takes from published standards (R2). Every one is an opaque constant: nothing can be proved of its value, so a
statement that holds, holds for every value.
-/

namespace Sys2Proof

/-- A value that the spec leaves open. A step applies it to the free-value counter of the state and advances the counter
(notes/assumptions/2.md). -/
opaque Config.freeValue : Nat → Nat

/-- SHA-384 of a byte string (R58): 48 bytes. An uninterpreted function (notes/assumptions/3.md). -/
opaque Config.sha384 : List Byte → List Byte

/-- ECDSA P-384 verification under FIPS 186 (R58): public key, message hash, r, s. Uninterpreted. -/
opaque Config.ecdsaVerify : List Byte → List Byte → List Byte → List Byte → Bool

/-- The SHA-384 hash of the vendor root key in ROM (R59). -/
opaque Config.vendorKeyHash : List Byte

/-- AES-XTS encryption of one data unit (R334): 64 key bytes, tweak, data. Uninterpreted. -/
opaque Config.xtsEncrypt : List Byte → Nat → List Byte → List Byte

/-- AES-XTS decryption of one data unit (R334): 64 key bytes, tweak, data. Uninterpreted. -/
opaque Config.xtsDecrypt : List Byte → Nat → List Byte → List Byte

/-- The unwrapping of a sealed key bag (R501, R503): uninterpreted. -/
opaque Config.unwrapKey : List Byte → List Byte

/-- The row of a memory word (R356): how an array's words lie in rows is not stated. Array, word address. -/
opaque Config.memRow : Nat → Nat → Nat

/-- Defect-map slots of a band of a surface in force for its numbering (R110, R115, R116): the medium's defect map lies
outside the state. Surface, band. -/
opaque Config.bandDefects : Nat → Nat → Nat

end Sys2Proof
end

