-- ==== Sys2Proof/Machine/Store.lean ====
section
/-!
DEFINITION. Sparse stores: lists of (key, value) pairs in one canonical form. The register file, the memory and every
table of the block is one of these. Keys rise strictly and no entry holds the value an unlisted key reads as, so equal
contents are equal data.
-/

namespace Sys2Proof.Machine

/-- A sparse table from a key to a value. -/
abbrev Store (α : Type) := List (Nat × α)

/-- The value at `k`; `d` is what an unlisted key reads as. -/
def Store.read {α : Type} (d : α) : Store α → Nat → α
  | [], _ => d
  | (j, v) :: m, k => if j = k then v else Store.read d m k

/-- The table with every entry of key `k` removed. -/
def Store.erase {α : Type} : Store α → Nat → Store α
  | [], _ => []
  | (j, v) :: m, k => if j = k then Store.erase m k else (j, v) :: Store.erase m k

/-- The table with `v` put at key `k` (in key order, replacing what stood there). -/
def Store.put {α : Type} : Store α → Nat → α → Store α
  | [], k, v => [(k, v)]
  | (j, w) :: m, k, v =>
    if k < j then (k, v) :: (j, w) :: m
    else if j = k then (k, v) :: m
    else (j, w) :: Store.put m k v

/-- The table after writing `v` at `k`: writing what an unlisted key reads as removes the entry. -/
def Store.write {α : Type} [DecidableEq α] (d : α) (m : Store α) (k : Nat) (v : α) : Store α :=
  if v = d then Store.erase m k else Store.put m k v

/-- Whether every key of the table is above `lo`, in strictly rising order. -/
def Store.risingAbove {α : Type} : Nat → Store α → Bool
  | _, [] => true
  | lo, (j, _) :: m => decide (lo < j) && Store.risingAbove j m

/-- The canonical form: keys strictly rising, no entry equal to what an unlisted key reads as. -/
def Store.wf {α : Type} [DecidableEq α] (d : α) : Store α → Bool
  | [] => true
  | (j, v) :: m => Store.risingAbove j m && (m.all fun e => e.2 != d) && v != d

/-- The table with every entry whose key meets `p` removed. -/
def Store.clear {α : Type} (m : Store α) (p : Nat → Bool) : Store α :=
  m.filter fun e => !p e.1

/-- Write a run of values at `k`, `k + 1`, …. -/
def Store.writeRun {α : Type} [DecidableEq α] (d : α) (m : Store α) (k : Nat) : List α → Store α
  | [] => m
  | v :: vs => Store.writeRun d (Store.write d m k v) (k + 1) vs

/-- Read `n` values from `k` on. -/
def Store.readRun {α : Type} (d : α) (m : Store α) (k : Nat) : Nat → List α
  | 0 => []
  | n + 1 => Store.read d m k :: Store.readRun d m (k + 1) n

/-- `n` with its bits `lo` to `lo + width - 1` taken out, as a number. -/
def bitsOf (n lo width : Nat) : Nat := n / 2 ^ lo % 2 ^ width

/-- The bits `lo` to `lo + width - 1` of a word, as a number. -/
def fieldOf (w : Word) (lo width : Nat) : Nat := (w >>> lo).toNat % 2 ^ width

/-- The mask of `width` ones standing at bit `lo`. -/
def fieldMask (lo width : Nat) : Word := BitVec.ofNat 32 (2 ^ width - 1) <<< lo

/-- A word with `v` (its low `width` bits) put at bits `lo` to `lo + width - 1`. -/
def setField (w : Word) (lo width v : Nat) : Word :=
  (w &&& ~~~ fieldMask lo width) ||| (BitVec.ofNat 32 (v % 2 ^ width) <<< lo)

/-- A field of a register: its address, its lowest bit and its width; `stride` is the distance to the same field of the
next instance of the register (0 where the register stands once), and `count` the number of instances. -/
structure Fld where
  addr   : Nat
  lo     : Nat
  width  : Nat
  stride : Nat
  count  : Nat
  deriving DecidableEq, Repr

/-- The same field of instance `n` of the register. An instance that does not exist is a field of no bits: it reads 0 and
takes no write. -/
def Fld.elem (f : Fld) (n : Nat) : Fld :=
  { addr := f.addr + n * f.stride, lo := f.lo, width := if n < f.count then f.width else 0, stride := f.stride, count := 1 }

/-- Two fields share no bit. -/
def Fld.disjoint (f g : Fld) : Bool :=
  f.addr != g.addr || decide (f.lo + f.width ≤ g.lo) || decide (g.lo + g.width ≤ f.lo)

/-- The field lies within its 32-bit register. -/
def Fld.fits (f : Fld) : Bool := decide (f.lo + f.width ≤ 32)

/-- A field's value in a register store. -/
def Store.field (m : Store Word) (f : Fld) : Nat := fieldOf (Store.read 0 m f.addr) f.lo f.width

/-- A register store with a field's value replaced; the register's other bits stay. -/
def Store.setFld (m : Store Word) (f : Fld) (v : Nat) : Store Word :=
  Store.write 0 m f.addr (setField (Store.read 0 m f.addr) f.lo f.width v)

/-- Little-endian value of a byte list (R9). -/
def leValue : List Byte → Nat
  | [] => 0
  | b :: bs => b.toNat + 256 * leValue bs

/-- The `n` little-endian bytes of a number (R9). -/
def leBytes : Nat → Nat → List Byte
  | 0, _ => []
  | n + 1, v => BitVec.ofNat 8 v :: leBytes n (v / 256)

/-- Two's-complement reading of the low `width` bits. -/
def signedOf (width v : Nat) : Int :=
  if v % 2 ^ width < 2 ^ (width - 1) then (v % 2 ^ width : Nat) else ((v % 2 ^ width : Nat) : Int) - (2 ^ width : Nat)

/-- The low `width` bits of an integer in two's complement. -/
def toBits (width : Nat) (x : Int) : Nat := (x % (2 ^ width : Nat)).toNat

/-- An integer held to `lo … hi`. -/
def clampInt (lo hi x : Int) : Int := if x < lo then lo else if hi < x then hi else x

/-- An integer saturated to `width` bits, signed. -/
def satInt (width : Nat) (x : Int) : Int := clampInt (-(2 ^ (width - 1) : Nat)) ((2 ^ (width - 1) : Nat) - 1) x

/-- A counter of `width` bits that saturates. -/
def satAdd (width v n : Nat) : Nat := min (v + n) (2 ^ width - 1)

/-- Element `i` of a list, with a default outside it. -/
def nth {α : Type} (d : α) : List α → Nat → α
  | [], _ => d
  | x :: _, 0 => x
  | _ :: xs, i + 1 => nth d xs i

/-- A list with element `i` replaced (unchanged where there is none). -/
def setNth {α : Type} : List α → Nat → α → List α
  | [], _, _ => []
  | _ :: xs, 0, v => v :: xs
  | x :: xs, i + 1, v => x :: setNth xs i v

/-- The indices of the set bits of a mask, lowest first. -/
def bitList (width mask : Nat) : List Nat := (List.range width).filter fun i => mask.testBit i

/-- A mask with a bit set. -/
def maskSet (mask i : Nat) : Nat := mask ||| 2 ^ i

/-- A mask with a bit cleared. -/
def maskClear (mask i : Nat) : Nat := if mask.testBit i then mask - 2 ^ i else mask

/-- One bit from a truth value. -/
def bit (b : Bool) : Nat := if b then 1 else 0

end Sys2Proof.Machine
end

