-- ==== Sys2Proof/Machine/RegMap.lean ====
section
/-!
DEFINITION. The register map: one field descriptor per field of the spec's register tables (spec/01 to spec/19, the rule of
each table is named above its block), and the table of their access codes (R14), reset values (R16) and retention classes
(R17, R456). A register of a unit with two windows (BWK, SRV, AST, RDC) and a register array stand once, with their stride.
-/

namespace Sys2Proof.Machine

/-- Access codes of R14. -/
inductive Access where
  | rw | ro | wo | w1c | w1s | rwo | xrw
  deriving DecidableEq, Repr

/-- Retention classes of R17. -/
inductive Keep where
  | n | p | d | h | f | c
  deriving DecidableEq, Repr

/-- What STANDBY does to a register of a power-gated unit (R17): `s` restored from its shadow, `g` back to reset. -/
inductive Gate where
  | none | s | g
  deriving DecidableEq, Repr

/-- The Reset column (R16): a value; or loaded from the structure image; or the effective calibration value; or
undefined until the hardware first writes the field. -/
inductive ResetVal where
  | val (v : Nat)
  | image
  | calibration
  | undefined
  deriving DecidableEq, Repr

/-- The value a field holds after the reset that clears it. DESIGN CHOICE (notes/assumptions/1.md): zero where the
Reset column gives I, U or X. -/
def ResetVal.toNat : ResetVal → Nat
  | .val v => v
  | .image => 0
  | .calibration => 0
  | .undefined => 0

/-- One row of a register table. -/
structure RegRow where
  fld   : Fld
  count : Nat
  acc   : Access
  reset : ResetVal
  keep  : Keep
  gate  : Gate
  deriving DecidableEq, Repr

namespace Reg


/-! `SYS`: spec/01_architecture.md, R33. -/
def sysOpmodeCause : Fld := ⟨0x20000010, 16, 8, 0, 1⟩
def sysOpmodePrevMode : Fld := ⟨0x20000010, 8, 4, 0, 1⟩
def sysOpmodeMode : Fld := ⟨0x20000010, 0, 4, 0, 1⟩

/-! `SYS`: spec/01_architecture.md, R42. -/
def sysIdLogicRev : Fld := ⟨0x20000014, 24, 8, 0, 1⟩
def sysIdDram : Fld := ⟨0x20000014, 20, 4, 0, 1⟩
def sysIdDevice : Fld := ⟨0x20000014, 0, 16, 0, 1⟩
def sysRomVerVer : Fld := ⟨0x20000018, 0, 16, 0, 1⟩
def sysWardenPatchVerRomVer : Fld := ⟨0x2000001C, 16, 16, 0, 1⟩
def sysWardenPatchVerPatchLevel : Fld := ⟨0x2000001C, 8, 8, 0, 1⟩
def sysWardenPatchVerSkipped : Fld := ⟨0x2000001C, 0, 1, 0, 1⟩
def sysCoreRelRun : Fld := ⟨0x20000020, 0, 4, 0, 1⟩
def sysBootLoAddr : Fld := ⟨0x20000024, 0, 32, 0, 1⟩
def sysBootHiAddr : Fld := ⟨0x20000028, 0, 4, 0, 1⟩
def sysFwRevLoChars : Fld := ⟨0x20000030, 0, 32, 0, 1⟩
def sysFwRevHiChars : Fld := ⟨0x20000034, 0, 32, 0, 1⟩

/-! `SIM`: spec/02_structure_image.md, R71. -/
def simStatusRewired : Fld := ⟨0x20010010, 11, 1, 0, 1⟩
def simStatusMinFail : Fld := ⟨0x20010010, 10, 1, 0, 1⟩
def simStatusSlot : Fld := ⟨0x20010010, 8, 2, 0, 1⟩
def simStatusState : Fld := ⟨0x20010010, 0, 4, 0, 1⟩
def simRejectErr : Fld := ⟨0x20010014, 24, 8, 0, 1⟩
def simRejectErrSect : Fld := ⟨0x20010014, 16, 8, 0, 1⟩
def simRejectSlot : Fld := ⟨0x20010014, 8, 2, 0, 1⟩
def simRejectCount : Fld := ⟨0x20010014, 0, 2, 0, 1⟩
def simRejectOffOffset : Fld := ⟨0x20010018, 0, 32, 0, 1⟩
def simImgVerImageVer : Fld := ⟨0x2001001C, 0, 32, 0, 1⟩
def simSecFuseArb : Fld := ⟨0x20010020, 16, 8, 0, 1⟩
def simSecSecVer : Fld := ⟨0x20010020, 0, 8, 0, 1⟩
def simKeysRevoked : Fld := ⟨0x20010024, 8, 4, 0, 1⟩
def simKeysProgrammed : Fld := ⟨0x20010024, 4, 4, 0, 1⟩
def simKeysKeyId : Fld := ⟨0x20010024, 0, 3, 0, 1⟩
def simRoleRole : Fld := ⟨0x20010028, 0, 2, 0, 1⟩
def simRosterMask : Fld := ⟨0x20010030, 0, 32, 4, 4⟩
def simRetireMask : Fld := ⟨0x20010040, 0, 32, 4, 4⟩
def simEffMask : Fld := ⟨0x20010050, 0, 32, 4, 4⟩
def simRetireAddGuard : Fld := ⟨0x20010060, 16, 16, 0, 1⟩
def simRetireAddIndex : Fld := ⟨0x20010060, 0, 7, 0, 1⟩

/-! `ANG`: spec/01_architecture.md, R29. -/
def angModeExpertWrIgnored : Fld := ⟨0x20020000, 16, 16, 0, 1⟩
def angModeIdle : Fld := ⟨0x20020000, 8, 1, 0, 1⟩
def angModeLevelPend : Fld := ⟨0x20020000, 1, 1, 0, 1⟩
def angModeLevel : Fld := ⟨0x20020000, 0, 1, 0, 1⟩

/-! `ANG`: spec/03_angle_time.md, R94. -/
def angStatusGapCount : Fld := ⟨0x20020010, 16, 16, 0, 1⟩
def angStatusIndexKnown : Fld := ⟨0x20020010, 7, 1, 0, 1⟩
def angStatusSrc : Fld := ⟨0x20020010, 4, 2, 0, 1⟩
def angStatusState : Fld := ⟨0x20020010, 0, 3, 0, 1⟩
def angCtlXchkLim : Fld := ⟨0x20020014, 8, 8, 0, 1⟩
def angCtlSrcSel : Fld := ⟨0x20020014, 0, 2, 0, 1⟩
def angPosValid : Fld := ⟨0x20020018, 31, 1, 0, 1⟩
def angPosWedge : Fld := ⟨0x20020018, 16, 11, 0, 1⟩
def angPosTick : Fld := ⟨0x20020018, 0, 10, 0, 1⟩
def angRevLoRev : Fld := ⟨0x20020020, 0, 32, 0, 1⟩
def angRevHiRev : Fld := ⟨0x20020024, 0, 12, 0, 1⟩
def angRevPeriodCycles : Fld := ⟨0x20020028, 0, 32, 0, 1⟩
def angCoastAcqMarks : Fld := ⟨0x2002002C, 16, 8, 0, 1⟩
def angCoastCoastWedges : Fld := ⟨0x2002002C, 0, 16, 0, 1⟩
def angRungCeilExceeded : Fld := ⟨0x20020030, 31, 1, 0, 1⟩
def angRungResult : Fld := ⟨0x20020030, 28, 3, 0, 1⟩
def angRungPhase : Fld := ⟨0x20020030, 25, 3, 0, 1⟩
def angRungPend : Fld := ⟨0x20020030, 24, 1, 0, 1⟩
def angRungPendTarget : Fld := ⟨0x20020030, 22, 2, 0, 1⟩
def angRungSchedRung : Fld := ⟨0x20020030, 20, 2, 0, 1⟩
def angRungCeilAge : Fld := ⟨0x20020030, 18, 2, 0, 1⟩
def angRungCeilThm : Fld := ⟨0x20020030, 16, 2, 0, 1⟩
def angRungCeiling : Fld := ⟨0x20020030, 14, 2, 0, 1⟩
def angRungTarget : Fld := ⟨0x20020030, 8, 2, 0, 1⟩
def angRungCurrent : Fld := ⟨0x20020030, 0, 2, 0, 1⟩
def angRampRampMs : Fld := ⟨0x20020034, 0, 12, 0, 1⟩
def angCmdOp : Fld := ⟨0x20020038, 0, 3, 0, 1⟩
def angAlarmPosEn : Fld := ⟨0x20020040, 31, 1, 0, 1⟩
def angAlarmPosWedge : Fld := ⟨0x20020040, 16, 11, 0, 1⟩
def angAlarmPosTick : Fld := ⟨0x20020040, 0, 10, 0, 1⟩
def angAlarmRevLoRev : Fld := ⟨0x20020044, 0, 32, 0, 1⟩
def angAlarmRevHiRev : Fld := ⟨0x20020048, 0, 12, 0, 1⟩
def angIrqStatusGap : Fld := ⟨0x20020050, 4, 1, 0, 1⟩
def angIrqStatusXchk : Fld := ⟨0x20020050, 3, 1, 0, 1⟩
def angIrqStatusRungDone : Fld := ⟨0x20020050, 2, 1, 0, 1⟩
def angIrqStatusAlarm : Fld := ⟨0x20020050, 1, 1, 0, 1⟩
def angIrqStatusStateChg : Fld := ⟨0x20020050, 0, 1, 0, 1⟩
def angIrqEnEn : Fld := ⟨0x20020054, 0, 5, 0, 1⟩
def angSnapTake : Fld := ⟨0x20020060, 0, 1, 0, 1⟩
def angSnapPos : Fld := ⟨0x20020064, 0, 32, 0, 1⟩
def angSnapRevRev : Fld := ⟨0x20020068, 0, 32, 4, 2⟩
def angSnapCycCyc : Fld := ⟨0x20020070, 0, 32, 4, 2⟩
def angSnapDtimeDtime : Fld := ⟨0x20020078, 0, 32, 4, 2⟩
def angSnapOpsecOpsec : Fld := ⟨0x20020080, 0, 32, 4, 2⟩
def angOpsecOpsec : Fld := ⟨0x20020088, 0, 32, 4, 2⟩
def angSkewSkew : Fld := ⟨0x20020100, 0, 21, 4, 32⟩

/-! `BWK`: spec/01_architecture.md, R29. -/
def bwkModeExpertWrIgnored : Fld := ⟨0x20030000, 16, 16, 65536, 2⟩
def bwkModeIdle : Fld := ⟨0x20030000, 8, 1, 65536, 2⟩
def bwkModeLevelPend : Fld := ⟨0x20030000, 1, 1, 65536, 2⟩
def bwkModeLevel : Fld := ⟨0x20030000, 0, 1, 65536, 2⟩

/-! `BWK`: spec/05_boardwalk.md, R158. -/
def bwkStatusCurIdx : Fld := ⟨0x20030010, 16, 16, 65536, 2⟩
def bwkStatusCurHead : Fld := ⟨0x20030010, 11, 5, 65536, 2⟩
def bwkStatusCurAction : Fld := ⟨0x20030010, 8, 3, 65536, 2⟩
def bwkStatusInband : Fld := ⟨0x20030010, 7, 1, 65536, 2⟩
def bwkStatusOntrack : Fld := ⟨0x20030010, 6, 1, 65536, 2⟩
def bwkStatusWreq : Fld := ⟨0x20030010, 5, 1, 65536, 2⟩
def bwkStatusGate : Fld := ⟨0x20030010, 4, 1, 65536, 2⟩
def bwkStatusState : Fld := ⟨0x20030010, 0, 4, 65536, 2⟩
def bwkCtlResume : Fld := ⟨0x20030014, 1, 1, 65536, 2⟩
def bwkCtlAbort : Fld := ⟨0x20030014, 0, 1, 65536, 2⟩
def bwkNolockToUs : Fld := ⟨0x20030018, 0, 16, 65536, 2⟩
def bwkUcodeVerBase : Fld := ⟨0x2003001C, 16, 16, 65536, 2⟩
def bwkUcodeVerPatch : Fld := ⟨0x2003001C, 8, 8, 65536, 2⟩
def bwkUcodeVerModified : Fld := ⟨0x2003001C, 1, 1, 65536, 2⟩
def bwkUcodeVerPatchSkipped : Fld := ⟨0x2003001C, 0, 1, 65536, 2⟩
def bwkParCount : Fld := ⟨0x20030020, 16, 16, 65536, 2⟩
def bwkParAddr : Fld := ⟨0x20030020, 0, 13, 65536, 2⟩
def bwkMarkParam : Fld := ⟨0x20030024, 0, 32, 65536, 2⟩
def bwkPlanksCount : Fld := ⟨0x20030028, 0, 32, 65536, 2⟩
def bwkSlipsCount : Fld := ⟨0x2003002C, 0, 32, 65536, 2⟩
def bwkIrqStatusRevSlip : Fld := ⟨0x20030030, 6, 1, 65536, 2⟩
def bwkIrqStatusMark : Fld := ⟨0x20030030, 5, 1, 65536, 2⟩
def bwkIrqStatusHalt : Fld := ⟨0x20030030, 4, 1, 65536, 2⟩
def bwkIrqStatusNoAngle : Fld := ⟨0x20030030, 3, 1, 65536, 2⟩
def bwkIrqStatusParity : Fld := ⟨0x20030030, 2, 1, 65536, 2⟩
def bwkIrqStatusWriteFault : Fld := ⟨0x20030030, 1, 1, 65536, 2⟩
def bwkIrqStatusResult : Fld := ⟨0x20030030, 0, 1, 65536, 2⟩
def bwkIrqEnEn : Fld := ⟨0x20030034, 0, 7, 65536, 2⟩

/-! `SRV`: spec/01_architecture.md, R29. -/
def srvModeExpertWrIgnored : Fld := ⟨0x20050000, 16, 16, 65536, 2⟩
def srvModeIdle : Fld := ⟨0x20050000, 8, 1, 65536, 2⟩
def srvModeLevelPend : Fld := ⟨0x20050000, 1, 1, 65536, 2⟩
def srvModeLevel : Fld := ⟨0x20050000, 0, 1, 65536, 2⟩

/-! `SRV`: spec/06_servo.md, R195. -/
def srvStatusHead : Fld := ⟨0x20050010, 27, 5, 65536, 2⟩
def srvStatusGset : Fld := ⟨0x20050010, 20, 7, 65536, 2⟩
def srvStatusBand : Fld := ⟨0x20050010, 17, 3, 65536, 2⟩
def srvStatusHold : Fld := ⟨0x20050010, 16, 1, 65536, 2⟩
def srvStatusSat : Fld := ⟨0x20050010, 15, 1, 65536, 2⟩
def srvStatusSatHi : Fld := ⟨0x20050010, 14, 1, 65536, 2⟩
def srvStatusCoastCnt : Fld := ⟨0x20050010, 8, 4, 65536, 2⟩
def srvStatusQual : Fld := ⟨0x20050010, 7, 1, 65536, 2⟩
def srvStatusOntrack : Fld := ⟨0x20050010, 6, 1, 65536, 2⟩
def srvStatusDecision : Fld := ⟨0x20050010, 5, 1, 65536, 2⟩
def srvStatusState : Fld := ⟨0x20050010, 0, 4, 65536, 2⟩
def srvCmdTrack : Fld := ⟨0x20050014, 8, 20, 65536, 2⟩
def srvCmdHead : Fld := ⟨0x20050014, 3, 5, 65536, 2⟩
def srvCmdOp : Fld := ⟨0x20050014, 0, 3, 65536, 2⟩
def srvPosValid : Fld := ⟨0x20050018, 31, 1, 65536, 2⟩
def srvPosPos : Fld := ⟨0x20050018, 0, 28, 65536, 2⟩
def srvTargetTarget : Fld := ⟨0x2005001C, 0, 28, 65536, 2⟩
def srvVelVel : Fld := ⟨0x20050020, 0, 32, 65536, 2⟩
def srvFeLimitValue : Fld := ⟨0x20050024, 0, 16, 65536, 2⟩
def srvFeTimeValue : Fld := ⟨0x20050028, 0, 8, 65536, 2⟩
def srvFbCoastValue : Fld := ⟨0x2005002C, 0, 8, 65536, 2⟩
def srvFbFreezeValue : Fld := ⟨0x20050030, 0, 8, 65536, 2⟩
def srvReacqTimeValue : Fld := ⟨0x20050034, 0, 16, 65536, 2⟩
def srvReacqMarks : Fld := ⟨0x20050038, 0, 8, 65536, 2⟩
def srvFbIIret : Fld := ⟨0x2005003C, 16, 16, 65536, 2⟩
def srvFbIImax : Fld := ⟨0x2005003C, 0, 16, 65536, 2⟩
def srvFbVKv : Fld := ⟨0x20050040, 16, 16, 65536, 2⟩
def srvFbVVmax : Fld := ⟨0x20050040, 0, 16, 65536, 2⟩
def srvOntrackSettleRun : Fld := ⟨0x20050044, 8, 8, 65536, 2⟩
def srvOntrackWriteLim : Fld := ⟨0x20050044, 0, 8, 65536, 2⟩
def srvDemodTidWin : Fld := ⟨0x20050048, 24, 8, 65536, 2⟩
def srvDemodSumMax : Fld := ⟨0x20050048, 12, 12, 65536, 2⟩
def srvDemodSumMin : Fld := ⟨0x20050048, 0, 12, 65536, 2⟩
def srvLawBudget : Fld := ⟨0x2005004C, 16, 16, 65536, 2⟩
def srvLawProg : Fld := ⟨0x2005004C, 0, 8, 65536, 2⟩
def srvFfCtlMuNbr : Fld := ⟨0x20050050, 16, 16, 65536, 2⟩
def srvFfCtlMuAcc : Fld := ⟨0x20050050, 8, 8, 65536, 2⟩
def srvFfCtlAdaptFreeze : Fld := ⟨0x20050050, 3, 1, 65536, 2⟩
def srvFfCtlNbrEn : Fld := ⟨0x20050050, 2, 1, 65536, 2⟩
def srvFfCtlAccEn : Fld := ⟨0x20050050, 0, 2, 65536, 2⟩
def srvTapIdxIndex : Fld := ⟨0x20050054, 0, 9, 65536, 2⟩
def srvTapDataTap : Fld := ⟨0x20050058, 0, 32, 65536, 2⟩
def srvIntegS : Fld := ⟨0x2005005C, 0, 32, 65536, 2⟩
def srvOutMa : Fld := ⟨0x20050060, 16, 16, 65536, 2⟩
def srvOutVcm : Fld := ⟨0x20050060, 0, 16, 65536, 2⟩
def srvLastFaultWedge : Fld := ⟨0x20050064, 16, 11, 65536, 2⟩
def srvLastFaultCause : Fld := ⟨0x20050064, 0, 8, 65536, 2⟩
def srvCountsFallbacks : Fld := ⟨0x20050068, 16, 16, 65536, 2⟩
def srvCountsRroErr : Fld := ⟨0x20050068, 8, 8, 65536, 2⟩
def srvCountsMissing : Fld := ⟨0x20050068, 0, 8, 65536, 2⟩
def srvIrqStatusNbrDrop : Fld := ⟨0x20050070, 9, 1, 65536, 2⟩
def srvIrqStatusLawEvent : Fld := ⟨0x20050070, 8, 1, 65536, 2⟩
def srvIrqStatusParked : Fld := ⟨0x20050070, 7, 1, 65536, 2⟩
def srvIrqStatusLoaded : Fld := ⟨0x20050070, 6, 1, 65536, 2⟩
def srvIrqStatusRetract : Fld := ⟨0x20050070, 5, 1, 65536, 2⟩
def srvIrqStatusReacq : Fld := ⟨0x20050070, 4, 1, 65536, 2⟩
def srvIrqStatusFallback : Fld := ⟨0x20050070, 3, 1, 65536, 2⟩
def srvIrqStatusCoast : Fld := ⟨0x20050070, 2, 1, 65536, 2⟩
def srvIrqStatusSettled : Fld := ⟨0x20050070, 1, 1, 65536, 2⟩
def srvIrqStatusArrive : Fld := ⟨0x20050070, 0, 1, 65536, 2⟩
def srvIrqEnEn : Fld := ⟨0x20050074, 0, 10, 65536, 2⟩

/-! `SPN`: spec/01_architecture.md, R29. -/
def spnModeExpertWrIgnored : Fld := ⟨0x20070000, 16, 16, 0, 1⟩
def spnModeIdle : Fld := ⟨0x20070000, 8, 1, 0, 1⟩
def spnModeLevelPend : Fld := ⟨0x20070000, 1, 1, 0, 1⟩
def spnModeLevel : Fld := ⟨0x20070000, 0, 1, 0, 1⟩

/-! `SPN`: spec/06_servo.md, R196. -/
def spnStatusRpm : Fld := ⟨0x20070010, 16, 16, 0, 1⟩
def spnStatusOffspeed : Fld := ⟨0x20070010, 7, 1, 0, 1⟩
def spnStatusTokenWait : Fld := ⟨0x20070010, 6, 1, 0, 1⟩
def spnStatusState : Fld := ⟨0x20070010, 0, 4, 0, 1⟩
def spnCmdRung : Fld := ⟨0x20070014, 4, 2, 0, 1⟩
def spnCmdOp : Fld := ⟨0x20070014, 0, 3, 0, 1⟩
def spnIlimMa : Fld := ⟨0x20070018, 0, 12, 0, 1⟩
def spnZcCoastValue : Fld := ⟨0x2007001C, 0, 8, 0, 1⟩
def spnTolRevs : Fld := ⟨0x20070020, 16, 8, 0, 1⟩
def spnTolPpm : Fld := ⟨0x20070020, 0, 16, 0, 1⟩
def spnFaultCause : Fld := ⟨0x20070024, 0, 8, 0, 1⟩
def spnCountsStarts : Fld := ⟨0x20070028, 16, 16, 0, 1⟩
def spnCountsZcMissed : Fld := ⟨0x20070028, 0, 16, 0, 1⟩
def spnIrqStatusToken : Fld := ⟨0x20070030, 4, 1, 0, 1⟩
def spnIrqStatusStopped : Fld := ⟨0x20070030, 3, 1, 0, 1⟩
def spnIrqStatusFault : Fld := ⟨0x20070030, 2, 1, 0, 1⟩
def spnIrqStatusOffspeed : Fld := ⟨0x20070030, 1, 1, 0, 1⟩
def spnIrqStatusLocked : Fld := ⟨0x20070030, 0, 1, 0, 1⟩
def spnIrqEnEn : Fld := ⟨0x20070034, 0, 5, 0, 1⟩

/-! `AST`: spec/01_architecture.md, R29. -/
def astModeExpertWrIgnored : Fld := ⟨0x20080000, 16, 16, 65536, 2⟩
def astModeIdle : Fld := ⟨0x20080000, 8, 1, 65536, 2⟩
def astModeLevelPend : Fld := ⟨0x20080000, 1, 1, 65536, 2⟩
def astModeLevel : Fld := ⟨0x20080000, 0, 1, 65536, 2⟩

/-! `AST`: spec/07_assist_write.md, R224. -/
def astStatusHead : Fld := ⟨0x20080010, 28, 4, 65536, 2⟩
def astStatusGset : Fld := ⟨0x20080010, 19, 9, 65536, 2⟩
def astStatusLimiter : Fld := ⟨0x20080010, 16, 3, 65536, 2⟩
def astStatusHoldCnt : Fld := ⟨0x20080010, 12, 4, 65536, 2⟩
def astStatusPrefault : Fld := ⟨0x20080010, 9, 1, 65536, 2⟩
def astStatusInband : Fld := ⟨0x20080010, 8, 1, 65536, 2⟩
def astStatusState : Fld := ⟨0x20080010, 0, 3, 65536, 2⟩
def astProxyValid : Fld := ⟨0x20080014, 31, 1, 65536, 2⟩
def astProxyTarget : Fld := ⟨0x20080014, 16, 14, 65536, 2⟩
def astProxyProxy : Fld := ⟨0x20080014, 0, 14, 65536, 2⟩
def astSetpointIset : Fld := ⟨0x20080018, 16, 12, 65536, 2⟩
def astSetpointHeld : Fld := ⟨0x20080018, 0, 12, 65536, 2⟩
def astHoldSamples : Fld := ⟨0x2008001C, 0, 8, 65536, 2⟩
def astFreezeSamples : Fld := ⟨0x20080020, 0, 8, 65536, 2⟩
def astSuspectHeads : Fld := ⟨0x20080024, 0, 16, 65536, 2⟩
def astTblIdxIndex : Fld := ⟨0x20080028, 0, 7, 65536, 2⟩
def astTblDataWwCeil : Fld := ⟨0x2008002C, 16, 12, 65536, 2⟩
def astTblDataAgeCeil : Fld := ⟨0x2008002C, 0, 12, 65536, 2⟩
def astStagedPend : Fld := ⟨0x20080030, 0, 1, 65536, 2⟩
def astSetIdxWord : Fld := ⟨0x20080034, 0, 13, 65536, 2⟩
def astSetDataData : Fld := ⟨0x20080038, 0, 32, 65536, 2⟩
def astChanCrcErr : Fld := ⟨0x2008003C, 16, 16, 65536, 2⟩
def astChanEchoErr : Fld := ⟨0x2008003C, 0, 16, 65536, 2⟩
def astLossHead : Fld := ⟨0x20080040, 24, 4, 65536, 2⟩
def astLossCause : Fld := ⟨0x20080040, 16, 8, 65536, 2⟩
def astLossCount : Fld := ⟨0x20080040, 0, 16, 65536, 2⟩
def astWfSnap0PosErr : Fld := ⟨0x20080044, 16, 16, 65536, 2⟩
def astWfSnap0Proxy : Fld := ⟨0x20080044, 0, 14, 65536, 2⟩
def astWfSnap1GateCause : Fld := ⟨0x20080048, 16, 8, 65536, 2⟩
def astWfSnap1Head : Fld := ⟨0x20080048, 12, 4, 65536, 2⟩
def astWfSnap1Iset : Fld := ⟨0x20080048, 0, 12, 65536, 2⟩
def astWfAngleAngle : Fld := ⟨0x2008004C, 0, 32, 65536, 2⟩
def astIrqStatusStagedApplied : Fld := ⟨0x20080050, 4, 1, 65536, 2⟩
def astIrqStatusCeilHit : Fld := ⟨0x20080050, 3, 1, 65536, 2⟩
def astIrqStatusPreampFault : Fld := ⟨0x20080050, 2, 1, 65536, 2⟩
def astIrqStatusSuspect : Fld := ⟨0x20080050, 1, 1, 65536, 2⟩
def astIrqStatusLoss : Fld := ⟨0x20080050, 0, 1, 65536, 2⟩
def astIrqEnEn : Fld := ⟨0x20080054, 0, 5, 65536, 2⟩

/-! `RDC`: spec/01_architecture.md, R29. -/
def rdcModeExpertWrIgnored : Fld := ⟨0x200A0000, 16, 16, 65536, 2⟩
def rdcModeIdle : Fld := ⟨0x200A0000, 8, 1, 65536, 2⟩
def rdcModeLevelPend : Fld := ⟨0x200A0000, 1, 1, 65536, 2⟩
def rdcModeLevel : Fld := ⟨0x200A0000, 0, 1, 65536, 2⟩

/-! `RDC`: spec/08_read_channel.md, R255. -/
def rdcStatusEnvelope : Fld := ⟨0x200A0010, 24, 8, 65536, 2⟩
def rdcStatusStaged : Fld := ⟨0x200A0010, 11, 1, 65536, 2⟩
def rdcStatusFrozen : Fld := ⟨0x200A0010, 10, 1, 65536, 2⟩
def rdcStatusGrant : Fld := ⟨0x200A0010, 9, 1, 65536, 2⟩
def rdcStatusShared : Fld := ⟨0x200A0010, 8, 1, 65536, 2⟩
def rdcStatusPa : Fld := ⟨0x200A0010, 6, 2, 65536, 2⟩
def rdcStatusPhase : Fld := ⟨0x200A0010, 0, 3, 65536, 2⟩
def rdcSyncHdrTol : Fld := ⟨0x200A0014, 24, 3, 65536, 2⟩
def rdcSyncBTol : Fld := ⟨0x200A0014, 20, 4, 65536, 2⟩
def rdcSyncATol : Fld := ⟨0x200A0014, 16, 4, 65536, 2⟩
def rdcSyncWinB : Fld := ⟨0x200A0014, 8, 8, 65536, 2⟩
def rdcSyncWinA : Fld := ⟨0x200A0014, 0, 8, 65536, 2⟩
def rdcDefectRecoverBits : Fld := ⟨0x200A0018, 24, 8, 65536, 2⟩
def rdcDefectRecoverPct : Fld := ⟨0x200A0018, 16, 8, 65536, 2⟩
def rdcDefectDropBits : Fld := ⟨0x200A0018, 8, 8, 65536, 2⟩
def rdcDefectDropPct : Fld := ⟨0x200A0018, 0, 8, 65536, 2⟩
def rdcAdaptTrkBw : Fld := ⟨0x200A001C, 16, 8, 65536, 2⟩
def rdcAdaptEqShift : Fld := ⟨0x200A001C, 12, 4, 65536, 2⟩
def rdcAdaptMraShift : Fld := ⟨0x200A001C, 8, 4, 65536, 2⟩
def rdcAdaptBaseShift : Fld := ⟨0x200A001C, 4, 4, 65536, 2⟩
def rdcAdaptGainShift : Fld := ⟨0x200A001C, 0, 4, 65536, 2⟩
def rdcLlrScale : Fld := ⟨0x200A0020, 0, 8, 65536, 2⟩
def rdcProfIdxWord : Fld := ⟨0x200A0024, 0, 10, 65536, 2⟩
def rdcProfDataData : Fld := ⟨0x200A0028, 0, 32, 65536, 2⟩
def rdcEqIdxTap : Fld := ⟨0x200A002C, 0, 8, 65536, 2⟩
def rdcEqDataCoef : Fld := ⟨0x200A0030, 0, 16, 65536, 2⟩
def rdcWprecompLate : Fld := ⟨0x200A0034, 8, 8, 65536, 2⟩
def rdcWprecompEarly : Fld := ⟨0x200A0034, 0, 8, 65536, 2⟩
def rdcRegionIdxEntry : Fld := ⟨0x200A0038, 0, 10, 65536, 2⟩
def rdcRegionClkBpt64 : Fld := ⟨0x200A003C, 0, 16, 65536, 2⟩
def rdcCounts0AMiss : Fld := ⟨0x200A0040, 16, 16, 65536, 2⟩
def rdcCounts0Slip : Fld := ⟨0x200A0040, 0, 16, 65536, 2⟩
def rdcCounts1SyncMiss : Fld := ⟨0x200A0044, 16, 16, 65536, 2⟩
def rdcCounts1Defect : Fld := ⟨0x200A0044, 0, 16, 65536, 2⟩
def rdcCounts2HdrMismatch : Fld := ⟨0x200A0048, 16, 16, 65536, 2⟩
def rdcCounts2Waits : Fld := ⟨0x200A0048, 0, 16, 65536, 2⟩
def rdcIrqStatusStagedApplied : Fld := ⟨0x200A0050, 2, 1, 65536, 2⟩
def rdcIrqStatusSyncMiss : Fld := ⟨0x200A0050, 1, 1, 65536, 2⟩
def rdcIrqStatusDefect : Fld := ⟨0x200A0050, 0, 1, 65536, 2⟩
def rdcIrqEnEn : Fld := ⟨0x200A0054, 0, 3, 65536, 2⟩

/-! `LDP`: spec/01_architecture.md, R29. -/
def ldpModeExpertWrIgnored : Fld := ⟨0x200C0000, 16, 16, 0, 1⟩
def ldpModeIdle : Fld := ⟨0x200C0000, 8, 1, 0, 1⟩
def ldpModeLevelPend : Fld := ⟨0x200C0000, 1, 1, 0, 1⟩
def ldpModeLevel : Fld := ⟨0x200C0000, 0, 1, 0, 1⟩

/-! `LDP`: spec/08_read_channel.md, R256. -/
def ldpStatusDeepPresent : Fld := ⟨0x200C0010, 18, 1, 0, 1⟩
def ldpStatusFast1Present : Fld := ⟨0x200C0010, 17, 1, 0, 1⟩
def ldpStatusFast0Present : Fld := ⟨0x200C0010, 16, 1, 0, 1⟩
def ldpStatusDeepBusy : Fld := ⟨0x200C0010, 8, 1, 0, 1⟩
def ldpStatusFast1Bufs : Fld := ⟨0x200C0010, 4, 4, 0, 1⟩
def ldpStatusFast0Bufs : Fld := ⟨0x200C0010, 0, 4, 0, 1⟩
def ldpFastCtlDeadline : Fld := ⟨0x200C0014, 16, 8, 0, 1⟩
def ldpFastCtlIter : Fld := ⟨0x200C0014, 0, 8, 0, 1⟩
def ldpDeepCtlMaxCaps : Fld := ⟨0x200C0018, 8, 4, 0, 1⟩
def ldpDeepCtlIter : Fld := ⟨0x200C0018, 0, 8, 0, 1⟩
def ldpSoftLoAddr : Fld := ⟨0x200C0020, 12, 20, 8, 2⟩
def ldpSoftLoEn : Fld := ⟨0x200C0020, 0, 1, 8, 2⟩
def ldpSoftHiAddr : Fld := ⟨0x200C0024, 0, 4, 8, 2⟩
def ldpCounts0BufCuts : Fld := ⟨0x200C0030, 16, 16, 0, 1⟩
def ldpCounts0DeadlineCuts : Fld := ⟨0x200C0030, 0, 16, 0, 1⟩
def ldpCounts1DeepOk : Fld := ⟨0x200C0034, 16, 16, 0, 1⟩
def ldpCounts1DeepFail : Fld := ⟨0x200C0034, 0, 16, 0, 1⟩
def ldpIrqStatusCut : Fld := ⟨0x200C0040, 2, 1, 0, 1⟩
def ldpIrqStatusDeepFail : Fld := ⟨0x200C0040, 1, 1, 0, 1⟩
def ldpIrqStatusJobDone : Fld := ⟨0x200C0040, 0, 1, 0, 1⟩
def ldpIrqEnEn : Fld := ⟨0x200C0044, 0, 3, 0, 1⟩

/-! `OCE`: spec/01_architecture.md, R29. -/
def oceModeExpertWrIgnored : Fld := ⟨0x200D0000, 16, 16, 0, 1⟩
def oceModeIdle : Fld := ⟨0x200D0000, 8, 1, 0, 1⟩
def oceModeLevelPend : Fld := ⟨0x200D0000, 1, 1, 0, 1⟩
def oceModeLevel : Fld := ⟨0x200D0000, 0, 1, 0, 1⟩

/-! `OCE`: spec/08_read_channel.md, R257. -/
def oceStatusBusy : Fld := ⟨0x200D0010, 0, 1, 0, 1⟩
def oceAccOrderErr : Fld := ⟨0x200D0018, 31, 1, 4, 2⟩
def oceAccK : Fld := ⟨0x200D0018, 8, 8, 4, 2⟩
def oceAccJ : Fld := ⟨0x200D0018, 0, 3, 4, 2⟩
def oceAccClrClr : Fld := ⟨0x200D0020, 0, 2, 0, 1⟩
def oceCountsSeals : Fld := ⟨0x200D0024, 16, 16, 0, 1⟩
def oceCountsRebuilds : Fld := ⟨0x200D0024, 0, 16, 0, 1⟩
def oceIrqStatusOrderErr : Fld := ⟨0x200D0030, 2, 1, 0, 1⟩
def oceIrqStatusJobFail : Fld := ⟨0x200D0030, 1, 1, 0, 1⟩
def oceIrqStatusJobDone : Fld := ⟨0x200D0030, 0, 1, 0, 1⟩
def oceIrqEnEn : Fld := ⟨0x200D0034, 0, 3, 0, 1⟩

/-! `JNL`: spec/01_architecture.md, R29. -/
def jnlModeExpertWrIgnored : Fld := ⟨0x200E0000, 16, 16, 0, 1⟩
def jnlModeIdle : Fld := ⟨0x200E0000, 8, 1, 0, 1⟩
def jnlModeLevelPend : Fld := ⟨0x200E0000, 1, 1, 0, 1⟩
def jnlModeLevel : Fld := ⟨0x200E0000, 0, 1, 0, 1⟩

/-! `JNL`: spec/09_journal.md, R283. -/
def jnlStatusIdxFull : Fld := ⟨0x200E0010, 11, 1, 0, 1⟩
def jnlStatusSpaceLow : Fld := ⟨0x200E0010, 10, 1, 0, 1⟩
def jnlStatusTwinDegraded : Fld := ⟨0x200E0010, 9, 1, 0, 1⟩
def jnlStatusHoldupLow : Fld := ⟨0x200E0010, 8, 1, 0, 1⟩
def jnlStatusReplay : Fld := ⟨0x200E0010, 4, 2, 0, 1⟩
def jnlStatusFold : Fld := ⟨0x200E0010, 0, 3, 0, 1⟩
def jnlCtlFoldEn : Fld := ⟨0x200E0014, 1, 1, 0, 1⟩
def jnlCtlTwin : Fld := ⟨0x200E0014, 0, 1, 0, 1⟩
def jnlRouteTwinWaitUs : Fld := ⟨0x200E0018, 16, 16, 0, 1⟩
def jnlRouteSmallMax : Fld := ⟨0x200E0018, 0, 8, 0, 1⟩
def jnlFoldHighWm : Fld := ⟨0x200E001C, 16, 8, 0, 1⟩
def jnlFoldIdleMs : Fld := ⟨0x200E001C, 0, 8, 0, 1⟩
def jnlWfSqueeze : Fld := ⟨0x200E0020, 16, 16, 0, 1⟩
def jnlWfRetries : Fld := ⟨0x200E0020, 0, 8, 0, 1⟩
def jnlIdxBaseAddr : Fld := ⟨0x200E0024, 0, 32, 0, 1⟩
def jnlIdxSizeBytes : Fld := ⟨0x200E0028, 0, 32, 0, 1⟩
def jnlSeqLoSeq : Fld := ⟨0x200E0030, 0, 32, 0, 1⟩
def jnlSeqHiSeq : Fld := ⟨0x200E0034, 0, 32, 0, 1⟩
def jnlOccAct1 : Fld := ⟨0x200E0038, 8, 8, 0, 1⟩
def jnlOccAct0 : Fld := ⟨0x200E0038, 0, 8, 0, 1⟩
def jnlCounts0WfRestarts : Fld := ⟨0x200E003C, 16, 16, 0, 1⟩
def jnlCounts0Twins : Fld := ⟨0x200E003C, 0, 16, 0, 1⟩
def jnlCounts1Folds : Fld := ⟨0x200E0040, 0, 32, 0, 1⟩
def jnlReplayLogTrimmed : Fld := ⟨0x200E0044, 16, 16, 0, 1⟩
def jnlReplayLogRefolded : Fld := ⟨0x200E0044, 8, 8, 0, 1⟩
def jnlReplayLogLost : Fld := ⟨0x200E0044, 0, 8, 0, 1⟩
def jnlIrqStatusTwinDegraded : Fld := ⟨0x200E0050, 5, 1, 0, 1⟩
def jnlIrqStatusAckLoss : Fld := ⟨0x200E0050, 4, 1, 0, 1⟩
def jnlIrqStatusWriteFail : Fld := ⟨0x200E0050, 3, 1, 0, 1⟩
def jnlIrqStatusFoldHeld : Fld := ⟨0x200E0050, 2, 1, 0, 1⟩
def jnlIrqStatusSpaceLow : Fld := ⟨0x200E0050, 1, 1, 0, 1⟩
def jnlIrqStatusReplayDone : Fld := ⟨0x200E0050, 0, 1, 0, 1⟩
def jnlIrqEnEn : Fld := ⟨0x200E0054, 0, 6, 0, 1⟩

/-! `HST`: spec/01_architecture.md, R29. -/
def hstModeExpertWrIgnored : Fld := ⟨0x200F0000, 16, 16, 0, 1⟩
def hstModeIdle : Fld := ⟨0x200F0000, 8, 1, 0, 1⟩
def hstModeLevelPend : Fld := ⟨0x200F0000, 1, 1, 0, 1⟩
def hstModeLevel : Fld := ⟨0x200F0000, 0, 1, 0, 1⟩

/-! `HST`: spec/10_host_interface.md, R319. -/
def hstStatusP1Up : Fld := ⟨0x200F0010, 23, 1, 0, 1⟩
def hstStatusP1Width : Fld := ⟨0x200F0010, 20, 3, 0, 1⟩
def hstStatusP1Speed : Fld := ⟨0x200F0010, 17, 3, 0, 1⟩
def hstStatusP0Up : Fld := ⟨0x200F0010, 15, 1, 0, 1⟩
def hstStatusP0Width : Fld := ⟨0x200F0010, 12, 3, 0, 1⟩
def hstStatusP0Speed : Fld := ⟨0x200F0010, 9, 3, 0, 1⟩
def hstStatusLanesDown : Fld := ⟨0x200F0010, 4, 4, 0, 1⟩
def hstStatusLanesEff : Fld := ⟨0x200F0010, 0, 4, 0, 1⟩
def hstDiagBar2En : Fld := ⟨0x200F0014, 0, 1, 0, 1⟩
def hstTagsInUse : Fld := ⟨0x200F0018, 0, 17, 0, 1⟩
def hstTagHwmHwm : Fld := ⟨0x200F001C, 0, 17, 0, 1⟩
def hstPendEntries : Fld := ⟨0x200F0020, 0, 17, 0, 1⟩
def hstPendCqsCqs : Fld := ⟨0x200F0024, 0, 15, 0, 1⟩
def hstFuncIdxFunc : Fld := ⟨0x200F0028, 0, 8, 0, 1⟩
def hstQuotaDataCq : Fld := ⟨0x200F002C, 16, 15, 0, 1⟩
def hstQuotaDataSq : Fld := ⟨0x200F002C, 0, 15, 0, 1⟩
def hstWeightDataWeight : Fld := ⟨0x200F0030, 0, 8, 0, 1⟩
def hstCounts0Aborted : Fld := ⟨0x200F0034, 16, 16, 0, 1⟩
def hstCounts0NotAborted : Fld := ⟨0x200F0034, 0, 16, 0, 1⟩
def hstCounts1Retrains : Fld := ⟨0x200F0038, 16, 16, 0, 1⟩
def hstCounts1CqPauses : Fld := ⟨0x200F0038, 0, 16, 0, 1⟩
def hstCounts2Commands : Fld := ⟨0x200F003C, 0, 32, 0, 1⟩
def hstAdmBaseAddr : Fld := ⟨0x200F0040, 0, 32, 0, 1⟩
def hstAdmRingEntries : Fld := ⟨0x200F0044, 0, 11, 0, 1⟩
def hstAdmProdIdx : Fld := ⟨0x200F0048, 0, 10, 0, 1⟩
def hstAdmConsIdx : Fld := ⟨0x200F004C, 0, 10, 0, 1⟩
def hstIrqStatusHrst : Fld := ⟨0x200F0050, 5, 1, 0, 1⟩
def hstIrqStatusTagsOut : Fld := ⟨0x200F0050, 4, 1, 0, 1⟩
def hstIrqStatusCqFull : Fld := ⟨0x200F0050, 3, 1, 0, 1⟩
def hstIrqStatusLaneLost : Fld := ⟨0x200F0050, 2, 1, 0, 1⟩
def hstIrqStatusLinkChg : Fld := ⟨0x200F0050, 1, 1, 0, 1⟩
def hstIrqStatusAdmin : Fld := ⟨0x200F0050, 0, 1, 0, 1⟩
def hstIrqEnEn : Fld := ⟨0x200F0054, 0, 6, 0, 1⟩
def hstAdmCpl0Dw0 : Fld := ⟨0x200F0060, 0, 32, 0, 1⟩
def hstAdmCpl1Cid : Fld := ⟨0x200F0064, 16, 16, 0, 1⟩
def hstAdmCpl1Func : Fld := ⟨0x200F0064, 8, 8, 0, 1⟩
def hstAdmCpl2Go : Fld := ⟨0x200F0068, 31, 1, 0, 1⟩
def hstAdmCpl2Status : Fld := ⟨0x200F0068, 0, 15, 0, 1⟩

/-! `RNG`: spec/11_work_rings.md, R340. -/
def rngIrqStatusRefused : Fld := ⟨0x20100010, 24, 7, 0, 1⟩
def rngIrqStatusDrained : Fld := ⟨0x20100010, 16, 7, 0, 1⟩
def rngIrqStatusOvf : Fld := ⟨0x20100010, 8, 7, 0, 1⟩
def rngIrqStatusResult : Fld := ⟨0x20100010, 0, 7, 0, 1⟩
def rngIrqEnEn : Fld := ⟨0x20100014, 0, 32, 0, 1⟩
def rngCtlEnable : Fld := ⟨0x20100100, 0, 1, 64, 7⟩
def rngStatusLost : Fld := ⟨0x20100104, 24, 8, 64, 7⟩
def rngStatusHeld : Fld := ⟨0x20100104, 16, 5, 64, 7⟩
def rngStatusRefuse : Fld := ⟨0x20100104, 8, 4, 64, 7⟩
def rngStatusStoppedFull : Fld := ⟨0x20100104, 3, 1, 64, 7⟩
def rngStatusResultOvf : Fld := ⟨0x20100104, 2, 1, 64, 7⟩
def rngStatusDraining : Fld := ⟨0x20100104, 1, 1, 64, 7⟩
def rngStatusIdle : Fld := ⟨0x20100104, 0, 1, 64, 7⟩
def rngReqBaseLoAddr : Fld := ⟨0x20100108, 6, 26, 64, 7⟩
def rngResBaseLoAddr : Fld := ⟨0x20100120, 6, 26, 64, 7⟩
def rngReqBaseHiAddr : Fld := ⟨0x2010010C, 0, 4, 64, 7⟩
def rngResBaseHiAddr : Fld := ⟨0x20100124, 0, 4, 64, 7⟩
def rngReqSizeEntries : Fld := ⟨0x20100110, 0, 17, 64, 7⟩
def rngResSizeEntries : Fld := ⟨0x20100128, 0, 17, 64, 7⟩
def rngReqProdIdx : Fld := ⟨0x20100114, 0, 16, 64, 7⟩
def rngReqConsIdx : Fld := ⟨0x20100118, 0, 16, 64, 7⟩
def rngResProdIdx : Fld := ⟨0x2010012C, 0, 16, 64, 7⟩
def rngResConsIdx : Fld := ⟨0x20100130, 0, 16, 64, 7⟩

/-! `BCM`: spec/01_architecture.md, R29. -/
def bcmModeExpertWrIgnored : Fld := ⟨0x20110000, 16, 16, 0, 1⟩
def bcmModeIdle : Fld := ⟨0x20110000, 8, 1, 0, 1⟩
def bcmModeLevelPend : Fld := ⟨0x20110000, 1, 1, 0, 1⟩
def bcmModeLevel : Fld := ⟨0x20110000, 0, 1, 0, 1⟩

/-! `BCM`: spec/12_cache_memory.md, R363. -/
def bcmStatusState : Fld := ⟨0x20110010, 30, 2, 0, 1⟩
def bcmStatusEvb : Fld := ⟨0x20110010, 29, 1, 0, 1⟩
def bcmStatusSets : Fld := ⟨0x20110010, 0, 13, 0, 1⟩
def bcmCtlEn : Fld := ⟨0x20110014, 0, 1, 0, 1⟩
def bcmWaysPend : Fld := ⟨0x20110018, 16, 16, 0, 1⟩
def bcmWaysOn : Fld := ⟨0x20110018, 0, 16, 0, 1⟩
def bcmRaLines : Fld := ⟨0x2011001C, 0, 7, 0, 1⟩
def bcmReq0Valid : Fld := ⟨0x20110020, 31, 1, 0, 1⟩
def bcmReq0Kind : Fld := ⟨0x20110020, 30, 1, 0, 1⟩
def bcmReq0Ns : Fld := ⟨0x20110020, 24, 4, 0, 1⟩
def bcmReq0Pop : Fld := ⟨0x20110020, 16, 1, 0, 1⟩
def bcmReq0Mask : Fld := ⟨0x20110020, 0, 16, 0, 1⟩
def bcmReq1Line : Fld := ⟨0x20110024, 0, 32, 0, 1⟩
def bcmReq2Frame : Fld := ⟨0x20110028, 0, 20, 0, 1⟩
def bcmReqCntEntries : Fld := ⟨0x2011002C, 0, 7, 0, 1⟩
def bcmCounts0Hits : Fld := ⟨0x20110030, 0, 32, 0, 1⟩
def bcmCounts1Misses : Fld := ⟨0x20110034, 0, 32, 0, 1⟩
def bcmCounts2Recalls : Fld := ⟨0x20110038, 16, 16, 0, 1⟩
def bcmCounts2Remaps : Fld := ⟨0x20110038, 0, 16, 0, 1⟩
def bcmCounts3NoWay : Fld := ⟨0x2011003C, 16, 16, 0, 1⟩
def bcmCounts3Transient : Fld := ⟨0x2011003C, 0, 16, 0, 1⟩
def bcmDirtyLines : Fld := ⟨0x20110040, 0, 17, 0, 1⟩
def bcmIrqStatusNoWay : Fld := ⟨0x20110050, 4, 1, 0, 1⟩
def bcmIrqStatusWaysDone : Fld := ⟨0x20110050, 3, 1, 0, 1⟩
def bcmIrqStatusOff : Fld := ⟨0x20110050, 2, 1, 0, 1⟩
def bcmIrqStatusOpDone : Fld := ⟨0x20110050, 1, 1, 0, 1⟩
def bcmIrqStatusReq : Fld := ⟨0x20110050, 0, 1, 0, 1⟩
def bcmIrqEnEn : Fld := ⟨0x20110054, 0, 5, 0, 1⟩
def bcmOpLineLine : Fld := ⟨0x20110100, 0, 32, 16, 4⟩
def bcmOpCtlGo : Fld := ⟨0x20110104, 31, 1, 16, 4⟩
def bcmOpCtlOp : Fld := ⟨0x20110104, 24, 4, 16, 4⟩
def bcmOpCtlNs : Fld := ⟨0x20110104, 20, 4, 16, 4⟩
def bcmOpCtlMask : Fld := ⟨0x20110104, 0, 16, 16, 4⟩
def bcmOpResBusy : Fld := ⟨0x20110108, 31, 1, 16, 4⟩
def bcmOpResStatus : Fld := ⟨0x20110108, 16, 8, 16, 4⟩
def bcmOpResMask : Fld := ⟨0x20110108, 0, 16, 16, 4⟩
def bcmOpFrameFrame : Fld := ⟨0x2011010C, 0, 20, 16, 4⟩

/-! `MEM`: spec/01_architecture.md, R29. -/
def memModeExpertWrIgnored : Fld := ⟨0x20120000, 16, 16, 0, 1⟩
def memModeIdle : Fld := ⟨0x20120000, 8, 1, 0, 1⟩
def memModeLevelPend : Fld := ⟨0x20120000, 1, 1, 0, 1⟩
def memModeLevel : Fld := ⟨0x20120000, 0, 1, 0, 1⟩

/-! `MEM`: spec/12_cache_memory.md, R364. -/
def memStatusFillDone : Fld := ⟨0x20120010, 31, 1, 0, 1⟩
def memStatusHardOvf : Fld := ⟨0x20120010, 30, 1, 0, 1⟩
def memStatusStFail : Fld := ⟨0x20120010, 24, 4, 0, 1⟩
def memStatusPinned : Fld := ⟨0x20120010, 16, 8, 0, 1⟩
def memStatusTrkUsed : Fld := ⟨0x20120010, 8, 6, 0, 1⟩
def memStatusCand : Fld := ⟨0x20120010, 0, 6, 0, 1⟩
def memRepeatLimitValue : Fld := ⟨0x20120014, 0, 8, 0, 1⟩
def memScrubRateSramMin : Fld := ⟨0x20120018, 24, 8, 0, 1⟩
def memScrubRateMramDays : Fld := ⟨0x20120018, 16, 8, 0, 1⟩
def memScrubRateDramHours : Fld := ⟨0x20120018, 0, 16, 0, 1⟩
def memScrubPosSramPct : Fld := ⟨0x2012001C, 16, 8, 0, 1⟩
def memScrubPosMramPct : Fld := ⟨0x2012001C, 8, 8, 0, 1⟩
def memScrubPosDramPct : Fld := ⟨0x2012001C, 0, 8, 0, 1⟩
def memCounts0CorrDram : Fld := ⟨0x20120020, 16, 16, 0, 1⟩
def memCounts0CorrSram : Fld := ⟨0x20120020, 0, 16, 0, 1⟩
def memCounts1CorrMram : Fld := ⟨0x20120024, 16, 16, 0, 1⟩
def memCounts1UncDram : Fld := ⟨0x20120024, 8, 8, 0, 1⟩
def memCounts1UncSram : Fld := ⟨0x20120024, 0, 8, 0, 1⟩
def memCounts2PoisonWr : Fld := ⟨0x20120028, 16, 16, 0, 1⟩
def memCounts2Hard : Fld := ⟨0x20120028, 8, 8, 0, 1⟩
def memCounts2UncMram : Fld := ⟨0x20120028, 0, 8, 0, 1⟩
def memLastErrValid : Fld := ⟨0x20120030, 31, 1, 0, 1⟩
def memLastErrKind : Fld := ⟨0x20120030, 28, 3, 0, 1⟩
def memLastErrArray : Fld := ⟨0x20120030, 26, 2, 0, 1⟩
def memLastErrMaster : Fld := ⟨0x20120030, 16, 8, 0, 1⟩
def memLastErrPosition : Fld := ⟨0x20120030, 8, 8, 0, 1⟩
def memLastAddrLoAddr : Fld := ⟨0x20120034, 0, 32, 0, 1⟩
def memLastAddrHiAddr : Fld := ⟨0x20120038, 0, 4, 0, 1⟩
def memTrkIdxIndex : Fld := ⟨0x20120040, 0, 5, 0, 1⟩
def memTrkData0Addr : Fld := ⟨0x20120044, 0, 32, 0, 1⟩
def memTrkData1Valid : Fld := ⟨0x20120048, 31, 1, 0, 1⟩
def memTrkData1Wb : Fld := ⟨0x20120048, 30, 1, 0, 1⟩
def memTrkData1Array : Fld := ⟨0x20120048, 28, 2, 0, 1⟩
def memTrkData1Count : Fld := ⟨0x20120048, 20, 8, 0, 1⟩
def memTrkData1Addr : Fld := ⟨0x20120048, 0, 4, 0, 1⟩
def memCandIdxIndex : Fld := ⟨0x20120050, 0, 5, 0, 1⟩
def memCandData0Addr : Fld := ⟨0x20120054, 0, 32, 0, 1⟩
def memCandData1Valid : Fld := ⟨0x20120058, 31, 1, 0, 1⟩
def memCandData1State : Fld := ⟨0x20120058, 29, 2, 0, 1⟩
def memCandData1Array : Fld := ⟨0x20120058, 28, 1, 0, 1⟩
def memCandData1Addr : Fld := ⟨0x20120058, 0, 4, 0, 1⟩
def memInjectLoAddr : Fld := ⟨0x20120060, 0, 32, 0, 1⟩
def memInjectHiAddr : Fld := ⟨0x20120064, 0, 4, 0, 1⟩
def memInjectArm : Fld := ⟨0x20120068, 31, 1, 0, 1⟩
def memInjectKind : Fld := ⟨0x20120068, 0, 2, 0, 1⟩
def memIrqStatusSelftest : Fld := ⟨0x20120070, 5, 1, 0, 1⟩
def memIrqStatusRepairFail : Fld := ⟨0x20120070, 4, 1, 0, 1⟩
def memIrqStatusHard : Fld := ⟨0x20120070, 3, 1, 0, 1⟩
def memIrqStatusPoison : Fld := ⟨0x20120070, 2, 1, 0, 1⟩
def memIrqStatusUncorr : Fld := ⟨0x20120070, 1, 1, 0, 1⟩
def memIrqStatusCorr : Fld := ⟨0x20120070, 0, 1, 0, 1⟩
def memIrqEnEn : Fld := ⟨0x20120074, 0, 6, 0, 1⟩

/-! `FLT`: spec/13_faults.md, R383. -/
def fltStatusCause : Fld := ⟨0x20130010, 16, 16, 0, 1⟩
def fltStatusSafePend : Fld := ⟨0x20130010, 1, 1, 0, 1⟩
def fltStatusRecovering : Fld := ⟨0x20130010, 0, 1, 0, 1⟩
def fltCounts0Corrected : Fld := ⟨0x20130014, 0, 32, 0, 1⟩
def fltCounts1Contained : Fld := ⟨0x20130018, 16, 16, 0, 1⟩
def fltCounts1UnitFatal : Fld := ⟨0x20130018, 0, 16, 0, 1⟩
def fltIntMax : Fld := ⟨0x2013001C, 16, 16, 0, 1⟩
def fltIntLast : Fld := ⟨0x2013001C, 0, 16, 0, 1⟩
def fltMcrIdxNewest : Fld := ⟨0x20130020, 4, 4, 0, 1⟩
def fltMcrIdxEntry : Fld := ⟨0x20130020, 0, 4, 0, 1⟩
def fltMcrWordWord : Fld := ⟨0x20130024, 0, 3, 0, 1⟩
def fltMcrDataData : Fld := ⟨0x20130028, 0, 32, 0, 1⟩
def fltDownMask : Fld := ⟨0x20130030, 0, 32, 4, 4⟩
def fltCoreOnline : Fld := ⟨0x20130040, 24, 4, 0, 1⟩
def fltCoreRejoin : Fld := ⟨0x20130040, 16, 4, 0, 1⟩
def fltCoreHeld : Fld := ⟨0x20130040, 8, 4, 0, 1⟩
def fltCoreFaults : Fld := ⟨0x20130040, 0, 4, 0, 1⟩
def fltOwnerIdxWord : Fld := ⟨0x20130044, 0, 12, 0, 1⟩
def fltOwnerDataOwner : Fld := ⟨0x20130048, 0, 32, 0, 1⟩
def fltWdogKick : Fld := ⟨0x20130050, 31, 1, 4, 4⟩
def fltWdogUs : Fld := ⟨0x20130050, 0, 24, 4, 4⟩
def fltDeclareClass : Fld := ⟨0x20130060, 30, 2, 0, 1⟩
def fltDeclareHartV : Fld := ⟨0x20130060, 7, 1, 0, 1⟩
def fltDeclareHart : Fld := ⟨0x20130060, 4, 3, 0, 1⟩
def fltDeclareSub : Fld := ⟨0x20130060, 0, 4, 0, 1⟩
def fltPolicyAutoRetire : Fld := ⟨0x20130064, 0, 1, 0, 1⟩
def fltHistCount : Fld := ⟨0x20130070, 0, 32, 4, 32⟩
def fltIrqStatusRetired : Fld := ⟨0x20130100, 4, 1, 0, 1⟩
def fltIrqStatusUnitDown : Fld := ⟨0x20130100, 3, 1, 0, 1⟩
def fltIrqStatusTakeover : Fld := ⟨0x20130100, 2, 1, 0, 1⟩
def fltIrqStatusIntDone : Fld := ⟨0x20130100, 1, 1, 0, 1⟩
def fltIrqStatusMchk : Fld := ⟨0x20130100, 0, 1, 0, 1⟩
def fltIrqEnEn : Fld := ⟨0x20130104, 0, 5, 0, 1⟩

/-! `CAL`: spec/01_architecture.md, R29. -/
def calModeExpertWrIgnored : Fld := ⟨0x20140000, 16, 16, 0, 1⟩
def calModeIdle : Fld := ⟨0x20140000, 8, 1, 0, 1⟩
def calModeLevelPend : Fld := ⟨0x20140000, 1, 1, 0, 1⟩
def calModeLevel : Fld := ⟨0x20140000, 0, 1, 0, 1⟩

/-! `CAL`: spec/14_calibration_ageing.md, R413. -/
def calStatusDue : Fld := ⟨0x20140010, 16, 8, 0, 1⟩
def calStatusRunning : Fld := ⟨0x20140010, 8, 8, 0, 1⟩
def calStatusOvlPend : Fld := ⟨0x20140010, 0, 8, 0, 1⟩
def calCtlTrigEn : Fld := ⟨0x20140014, 8, 8, 0, 1⟩
def calCtlDt : Fld := ⟨0x20140014, 0, 8, 0, 1⟩
def calCmdGo : Fld := ⟨0x20140018, 31, 1, 0, 1⟩
def calCmdOp : Fld := ⟨0x20140018, 28, 3, 0, 1⟩
def calCmdInstance : Fld := ⟨0x20140018, 8, 8, 0, 1⟩
def calCmdGroup : Fld := ⟨0x20140018, 0, 3, 0, 1⟩
def calCmdResStatus : Fld := ⟨0x2014001C, 0, 2, 0, 1⟩
def calQIdxQid : Fld := ⟨0x20140020, 0, 16, 0, 1⟩
def calQFactoryF : Fld := ⟨0x20140024, 0, 32, 0, 1⟩
def calQRunM : Fld := ⟨0x20140028, 0, 32, 0, 1⟩
def calQOverlayO : Fld := ⟨0x2014002C, 0, 32, 0, 1⟩
def calQEffE : Fld := ⟨0x20140030, 0, 32, 0, 1⟩
def calQStatusValid : Fld := ⟨0x20140034, 31, 1, 0, 1⟩
def calQStatusRunValid : Fld := ⟨0x20140034, 30, 1, 0, 1⟩
def calQStatusSat : Fld := ⟨0x20140034, 29, 1, 0, 1⟩
def calQStatusClamped : Fld := ⟨0x20140034, 28, 1, 0, 1⟩
def calQStatusOvlPend : Fld := ⟨0x20140034, 27, 1, 0, 1⟩
def calProxyMinRise : Fld := ⟨0x20140038, 16, 16, 0, 1⟩
def calProxyOffLevel : Fld := ⟨0x20140038, 0, 16, 0, 1⟩
def calWwMinAmp : Fld := ⟨0x2014003C, 16, 8, 0, 1⟩
def calWwMaxW : Fld := ⟨0x2014003C, 0, 16, 0, 1⟩
def calPaImonAddr : Fld := ⟨0x20140040, 0, 7, 0, 1⟩
def calIrqStatusOvlApplied : Fld := ⟨0x20140050, 3, 1, 0, 1⟩
def calIrqStatusFail : Fld := ⟨0x20140050, 2, 1, 0, 1⟩
def calIrqStatusDone : Fld := ⟨0x20140050, 1, 1, 0, 1⟩
def calIrqStatusDue : Fld := ⟨0x20140050, 0, 1, 0, 1⟩
def calIrqEnEn : Fld := ⟨0x20140054, 0, 4, 0, 1⟩
def calGrpStatFails : Fld := ⟨0x20140100, 24, 8, 32, 8⟩
def calGrpStatLast : Fld := ⟨0x20140100, 20, 4, 32, 8⟩
def calGrpStatTempLast : Fld := ⟨0x20140100, 0, 16, 32, 8⟩
def calGrpRunsCount : Fld := ⟨0x20140104, 0, 32, 32, 8⟩
def calGrpOpsecLoOpsec : Fld := ⟨0x20140108, 0, 32, 32, 8⟩
def calGrpOpsecHiOpsec : Fld := ⟨0x2014010C, 0, 32, 32, 8⟩
def calGrpRevLoRev : Fld := ⟨0x20140110, 0, 32, 32, 8⟩
def calGrpRevHiRev : Fld := ⟨0x20140114, 0, 32, 32, 8⟩
def calGrpInstInst : Fld := ⟨0x20140118, 0, 8, 32, 8⟩

/-! `AGE`: spec/01_architecture.md, R29. -/
def ageModeExpertWrIgnored : Fld := ⟨0x20150000, 16, 16, 0, 1⟩
def ageModeIdle : Fld := ⟨0x20150000, 8, 1, 0, 1⟩
def ageModeLevelPend : Fld := ⟨0x20150000, 1, 1, 0, 1⟩
def ageModeLevel : Fld := ⟨0x20150000, 0, 1, 0, 1⟩

/-! `AGE`: spec/14_calibration_ageing.md, R414. -/
def ageStatusPend : Fld := ⟨0x20150010, 16, 8, 0, 1⟩
def ageStatusHoldupLow : Fld := ⟨0x20150010, 15, 1, 0, 1⟩
def ageStatusVguard : Fld := ⟨0x20150010, 8, 4, 0, 1⟩
def ageStatusVguardNext : Fld := ⟨0x20150010, 4, 4, 0, 1⟩
def ageStatusBusy : Fld := ⟨0x20150010, 0, 1, 0, 1⟩
def ageCtlMinSect : Fld := ⟨0x20150014, 16, 16, 0, 1⟩
def ageCtlEvalH : Fld := ⟨0x20150014, 8, 8, 0, 1⟩
def ageCtlEval : Fld := ⟨0x20150014, 0, 1, 0, 1⟩
def ageThrPlanUp : Fld := ⟨0x20150018, 8, 8, 0, 1⟩
def ageThrRetire : Fld := ⟨0x20150018, 0, 8, 0, 1⟩
def ageRatio0Decode : Fld := ⟨0x2015001C, 16, 16, 0, 1⟩
def ageRatio0Reader : Fld := ⟨0x2015001C, 0, 16, 0, 1⟩
def ageRatio1Burst : Fld := ⟨0x20150020, 16, 16, 0, 1⟩
def ageRatio1Ceil : Fld := ⟨0x20150020, 0, 16, 0, 1⟩
def ageHoldup0BudgetMs : Fld := ⟨0x20150024, 16, 16, 0, 1⟩
def ageHoldup0ParkMinMs : Fld := ⟨0x20150024, 0, 16, 0, 1⟩
def ageHoldup1CapUf : Fld := ⟨0x20150028, 16, 16, 0, 1⟩
def ageHoldup1EsrMohm : Fld := ⟨0x20150028, 0, 16, 0, 1⟩
def ageHoldup2VstartMv : Fld := ⟨0x2015002C, 16, 16, 0, 1⟩
def ageHoldup2VminMv : Fld := ⟨0x2015002C, 0, 16, 0, 1⟩
def ageSiliconDriftPpm : Fld := ⟨0x20150030, 16, 16, 0, 1⟩
def ageSiliconStepPpm : Fld := ⟨0x20150030, 0, 16, 0, 1⟩
def agePaRmrAddr : Fld := ⟨0x20150034, 0, 7, 0, 1⟩
def agePropCmdGo : Fld := ⟨0x20150038, 31, 1, 0, 1⟩
def agePropCmdOp : Fld := ⟨0x20150038, 28, 3, 0, 1⟩
def agePropCmdEntry : Fld := ⟨0x20150038, 0, 6, 0, 1⟩
def ageEvalsCount : Fld := ⟨0x20150040, 0, 32, 0, 1⟩
def ageIrqStatusHoldupLow : Fld := ⟨0x20150050, 4, 1, 0, 1⟩
def ageIrqStatusRetire : Fld := ⟨0x20150050, 3, 1, 0, 1⟩
def ageIrqStatusPlan : Fld := ⟨0x20150050, 2, 1, 0, 1⟩
def ageIrqStatusProposal : Fld := ⟨0x20150050, 1, 1, 0, 1⟩
def ageIrqStatusEvalDone : Fld := ⟨0x20150050, 0, 1, 0, 1⟩
def ageIrqEnEn : Fld := ⟨0x20150054, 0, 5, 0, 1⟩

/-! `PWR`: spec/15_power_thermal.md, R444. -/
def pwrStatusLoss : Fld := ⟨0x20160010, 31, 1, 0, 1⟩
def pwrStatusCause : Fld := ⟨0x20160010, 28, 3, 0, 1⟩
def pwrStatusHoldupLow : Fld := ⟨0x20160010, 15, 1, 0, 1⟩
def pwrStatusHoldupFail : Fld := ⟨0x20160010, 14, 1, 0, 1⟩
def pwrStatusHoldupReady : Fld := ⟨0x20160010, 13, 1, 0, 1⟩
def pwrStatusVmOk : Fld := ⟨0x20160010, 12, 1, 0, 1⟩
def pwrStatusVlOk : Fld := ⟨0x20160010, 11, 1, 0, 1⟩
def pwrStatusRailsOk : Fld := ⟨0x20160010, 0, 7, 0, 1⟩
def pwrVinVmMv : Fld := ⟨0x20160014, 16, 16, 0, 1⟩
def pwrVinVlMv : Fld := ⟨0x20160014, 0, 16, 0, 1⟩
def pwrVholdMv : Fld := ⟨0x20160018, 0, 16, 0, 1⟩
def pwrVcoreVguard : Fld := ⟨0x2016001C, 16, 4, 0, 1⟩
def pwrVcoreSetpointMv : Fld := ⟨0x2016001C, 0, 16, 0, 1⟩
def pwrLossCfgCoreUs : Fld := ⟨0x20160020, 0, 16, 0, 1⟩
def pwrCountsLosses : Fld := ⟨0x20160024, 16, 16, 0, 1⟩
def pwrCountsGlitches : Fld := ⟨0x20160024, 0, 16, 0, 1⟩
def pwrIrqStatusLinkDown : Fld := ⟨0x20160030, 5, 1, 0, 1⟩
def pwrIrqStatusHvFault : Fld := ⟨0x20160030, 4, 1, 0, 1⟩
def pwrIrqStatusHoldupLow : Fld := ⟨0x20160030, 3, 1, 0, 1⟩
def pwrIrqStatusHoldupReady : Fld := ⟨0x20160030, 2, 1, 0, 1⟩
def pwrIrqStatusRail : Fld := ⟨0x20160030, 1, 1, 0, 1⟩
def pwrIrqStatusLoss : Fld := ⟨0x20160030, 0, 1, 0, 1⟩
def pwrIrqEnEn : Fld := ⟨0x20160034, 0, 6, 0, 1⟩

/-! `THM`: spec/01_architecture.md, R29. -/
def thmModeExpertWrIgnored : Fld := ⟨0x20170000, 16, 16, 0, 1⟩
def thmModeIdle : Fld := ⟨0x20170000, 8, 1, 0, 1⟩
def thmModeLevelPend : Fld := ⟨0x20170000, 1, 1, 0, 1⟩
def thmModeLevel : Fld := ⟨0x20170000, 0, 1, 0, 1⟩

/-! `THM`: spec/15_power_thermal.md, R445. -/
def thmStatusSluice : Fld := ⟨0x20170010, 30, 2, 0, 1⟩
def thmStatusStep : Fld := ⟨0x20170010, 26, 4, 0, 1⟩
def thmStatusStepDue : Fld := ⟨0x20170010, 25, 1, 0, 1⟩
def thmStatusTmt2Act : Fld := ⟨0x20170010, 24, 1, 0, 1⟩
def thmStatusTmt1Act : Fld := ⟨0x20170010, 23, 1, 0, 1⟩
def thmStatusRise : Fld := ⟨0x20170010, 16, 4, 0, 1⟩
def thmStatusFast : Fld := ⟨0x20170010, 12, 4, 0, 1⟩
def thmStatusLevel : Fld := ⟨0x20170010, 0, 8, 0, 1⟩
def thmCompositeKelvin : Fld := ⟨0x20170014, 0, 16, 0, 1⟩
def thmSluiceReleaseS : Fld := ⟨0x20170018, 24, 8, 0, 1⟩
def thmSluiceStepS : Fld := ⟨0x20170018, 16, 8, 0, 1⟩
def thmSluiceGraceS : Fld := ⟨0x20170018, 0, 16, 0, 1⟩
def thmCapIops : Fld := ⟨0x2017001C, 0, 20, 0, 1⟩
def thmCmdOp : Fld := ⟨0x20170020, 0, 2, 0, 1⟩
def thmXbetaBeta : Fld := ⟨0x20170024, 0, 16, 0, 1⟩
def thmHctmTmt2 : Fld := ⟨0x20170028, 16, 16, 0, 1⟩
def thmHctmTmt1 : Fld := ⟨0x20170028, 0, 16, 0, 1⟩
def thmCountsEnforces : Fld := ⟨0x2017002C, 16, 16, 0, 1⟩
def thmCountsAsks : Fld := ⟨0x2017002C, 0, 16, 0, 1⟩
def thmTripLogCount : Fld := ⟨0x20170030, 24, 8, 0, 1⟩
def thmTripLogGroup : Fld := ⟨0x20170030, 20, 4, 0, 1⟩
def thmTripLogSensor : Fld := ⟨0x20170030, 16, 4, 0, 1⟩
def thmTripLogPeak : Fld := ⟨0x20170030, 0, 16, 0, 1⟩
def thmThrShut : Fld := ⟨0x20170040, 24, 8, 4, 4⟩
def thmThrHyst : Fld := ⟨0x20170040, 16, 8, 4, 4⟩
def thmThrThrot : Fld := ⟨0x20170040, 8, 8, 4, 4⟩
def thmThrWarn : Fld := ⟨0x20170040, 0, 8, 4, 4⟩
def thmIrqStatusTripRestart : Fld := ⟨0x20170050, 5, 1, 0, 1⟩
def thmIrqStatusStepDue : Fld := ⟨0x20170050, 4, 1, 0, 1⟩
def thmIrqStatusSluiceChg : Fld := ⟨0x20170050, 3, 1, 0, 1⟩
def thmIrqStatusRise : Fld := ⟨0x20170050, 2, 1, 0, 1⟩
def thmIrqStatusLevel : Fld := ⟨0x20170050, 1, 1, 0, 1⟩
def thmIrqStatusThresh : Fld := ⟨0x20170050, 0, 1, 0, 1⟩
def thmIrqEnEn : Fld := ⟨0x20170054, 0, 6, 0, 1⟩
def thmTempValid : Fld := ⟨0x20170100, 31, 1, 4, 14⟩
def thmTempTemp : Fld := ⟨0x20170100, 0, 16, 4, 14⟩

/-! `RST`: spec/16_resets.md, R462. -/
def rstCauseMerged : Fld := ⟨0x20180010, 11, 1, 0, 1⟩
def rstCauseAfterLoss : Fld := ⟨0x20180010, 10, 1, 0, 1⟩
def rstCauseStopped : Fld := ⟨0x20180010, 9, 1, 0, 1⟩
def rstCauseKind : Fld := ⟨0x20180010, 8, 1, 0, 1⟩
def rstCauseSource : Fld := ⟨0x20180010, 0, 3, 0, 1⟩
def rstStatusPerst : Fld := ⟨0x20180014, 5, 1, 0, 1⟩
def rstStatusP1Hrst : Fld := ⟨0x20180014, 4, 1, 0, 1⟩
def rstStatusP0Hrst : Fld := ⟨0x20180014, 3, 1, 0, 1⟩
def rstStatusPhase : Fld := ⟨0x20180014, 0, 2, 0, 1⟩
def rstPcycleCount : Fld := ⟨0x20180018, 0, 24, 0, 1⟩
def rstDrstsCount : Fld := ⟨0x2018001C, 0, 32, 0, 1⟩
def rstHrstP1 : Fld := ⟨0x20180020, 16, 16, 0, 1⟩
def rstHrstP0 : Fld := ⟨0x20180020, 0, 16, 0, 1⟩
def rstFuncFlrs : Fld := ⟨0x20180024, 16, 16, 0, 1⟩
def rstFuncCrstFunc : Fld := ⟨0x20180024, 8, 8, 0, 1⟩
def rstFuncFlrFunc : Fld := ⟨0x20180024, 0, 8, 0, 1⟩
def rstDrstReqGuard : Fld := ⟨0x20180028, 16, 16, 0, 1⟩
def rstDrstReqGo : Fld := ⟨0x20180028, 0, 1, 0, 1⟩
def rstOpsecLoOpsec : Fld := ⟨0x20180030, 0, 32, 0, 1⟩
def rstOpsecHiOpsec : Fld := ⟨0x20180034, 0, 8, 0, 1⟩
def rstIrqStatusHrst1 : Fld := ⟨0x20180040, 3, 1, 0, 1⟩
def rstIrqStatusHrst0 : Fld := ⟨0x20180040, 2, 1, 0, 1⟩
def rstIrqStatusFlr : Fld := ⟨0x20180040, 1, 1, 0, 1⟩
def rstIrqStatusCrst : Fld := ⟨0x20180040, 0, 1, 0, 1⟩
def rstIrqEnEn : Fld := ⟨0x20180044, 0, 4, 0, 1⟩

/-! `DOM`: spec/01_architecture.md, R29. -/
def domModeExpertWrIgnored : Fld := ⟨0x20190000, 16, 16, 0, 1⟩
def domModeIdle : Fld := ⟨0x20190000, 8, 1, 0, 1⟩
def domModeLevelPend : Fld := ⟨0x20190000, 1, 1, 0, 1⟩
def domModeLevel : Fld := ⟨0x20190000, 0, 1, 0, 1⟩

/-! `DOM`: spec/17_domain.md, R485. -/
def domStatusPort : Fld := ⟨0x20190010, 24, 5, 0, 1⟩
def domStatusPosition : Fld := ⟨0x20190010, 16, 8, 0, 1⟩
def domStatusSafeSeen : Fld := ⟨0x20190010, 10, 1, 0, 1⟩
def domStatusTimeLocked : Fld := ⟨0x20190010, 9, 1, 0, 1⟩
def domStatusTimeValid : Fld := ⟨0x20190010, 8, 1, 0, 1⟩
def domStatusRole : Fld := ⟨0x20190010, 4, 2, 0, 1⟩
def domStatusState : Fld := ⟨0x20190010, 0, 3, 0, 1⟩
def domCtlOrphanS : Fld := ⟨0x20190014, 24, 8, 0, 1⟩
def domCtlMgrWaitMs : Fld := ⟨0x20190014, 0, 16, 0, 1⟩
def domTimeLoUs : Fld := ⟨0x20190018, 0, 32, 0, 1⟩
def domTimeHiUs : Fld := ⟨0x2019001C, 0, 32, 0, 1⟩
def domTimeSetLoUs : Fld := ⟨0x20190020, 0, 32, 0, 1⟩
def domTimeSetHiUs : Fld := ⟨0x20190024, 0, 32, 0, 1⟩
def domSyncErrNs : Fld := ⟨0x20190028, 16, 16, 0, 1⟩
def domSyncMissed : Fld := ⟨0x20190028, 8, 8, 0, 1⟩
def domSyncLinkdly : Fld := ⟨0x20190028, 0, 8, 0, 1⟩
def domNbrSendEn : Fld := ⟨0x2019002C, 24, 1, 0, 1⟩
def domNbrMinTracks : Fld := ⟨0x2019002C, 8, 16, 0, 1⟩
def domNbrMask : Fld := ⟨0x2019002C, 0, 8, 0, 1⟩
def domNbrCountsSent : Fld := ⟨0x20190030, 16, 16, 0, 1⟩
def domNbrCountsTaken : Fld := ⟨0x20190030, 0, 16, 0, 1⟩
def domTokenOut : Fld := ⟨0x20190034, 24, 8, 0, 1⟩
def domTokenHoldS : Fld := ⟨0x20190034, 16, 8, 0, 1⟩
def domTokenPerPort : Fld := ⟨0x20190034, 8, 8, 0, 1⟩
def domTokenMax : Fld := ⟨0x20190034, 0, 8, 0, 1⟩
def domStaggerLastPos : Fld := ⟨0x20190038, 16, 8, 0, 1⟩
def domStaggerMs : Fld := ⟨0x20190038, 0, 16, 0, 1⟩
def domGroupGroup : Fld := ⟨0x2019003C, 0, 8, 0, 1⟩
def domHealthMs : Fld := ⟨0x20190040, 0, 16, 0, 1⟩
def domHtblLoAddr : Fld := ⟨0x20190044, 17, 15, 0, 1⟩
def domHtblHiAddr : Fld := ⟨0x20190048, 0, 4, 0, 1⟩
def domSafeGuard : Fld := ⟨0x2019004C, 16, 16, 0, 1⟩
def domSafeGo : Fld := ⟨0x2019004C, 0, 1, 0, 1⟩
def domIrqStatusBulk : Fld := ⟨0x20190050, 5, 1, 0, 1⟩
def domIrqStatusRx : Fld := ⟨0x20190050, 4, 1, 0, 1⟩
def domIrqStatusToken : Fld := ⟨0x20190050, 3, 1, 0, 1⟩
def domIrqStatusRing : Fld := ⟨0x20190050, 2, 1, 0, 1⟩
def domIrqStatusPosChg : Fld := ⟨0x20190050, 1, 1, 0, 1⟩
def domIrqStatusStateChg : Fld := ⟨0x20190050, 0, 1, 0, 1⟩
def domIrqEnEn : Fld := ⟨0x20190054, 0, 6, 0, 1⟩
def domTxBytes : Fld := ⟨0x20190060, 0, 32, 4, 5⟩
def domTxCtlGo : Fld := ⟨0x20190074, 31, 1, 0, 1⟩
def domTxCtlPort : Fld := ⟨0x20190074, 0, 5, 0, 1⟩
def domRxBytes : Fld := ⟨0x20190080, 0, 32, 4, 5⟩
def domRxCtlPop : Fld := ⟨0x20190094, 31, 1, 0, 1⟩
def domRxCtlDropped : Fld := ⟨0x20190094, 8, 8, 0, 1⟩
def domRxCtlCount : Fld := ⟨0x20190094, 0, 8, 0, 1⟩
def domPortStatusUp : Fld := ⟨0x20190100, 31, 1, 8, 32⟩
def domPortStatusFailed : Fld := ⟨0x20190100, 30, 1, 8, 32⟩
def domPortStatusBroken : Fld := ⟨0x20190100, 29, 1, 8, 32⟩
def domPortStatusLastHeard : Fld := ⟨0x20190100, 16, 8, 8, 32⟩
def domPortStatusWorkers : Fld := ⟨0x20190100, 8, 8, 8, 32⟩
def domPortStatusLinkdly : Fld := ⟨0x20190100, 0, 8, 8, 32⟩
def domPortErrsCrc : Fld := ⟨0x20190104, 16, 16, 8, 32⟩
def domPortErrsCode : Fld := ⟨0x20190104, 8, 8, 8, 32⟩
def domPortErrsDowns : Fld := ⟨0x20190104, 0, 8, 8, 32⟩

/-! `UPD`: spec/18_update.md, R506. -/
def updStatusLock : Fld := ⟨0x201A0010, 30, 2, 0, 1⟩
def updStatusPendSlot : Fld := ⟨0x201A0010, 28, 2, 0, 1⟩
def updStatusPendState : Fld := ⟨0x201A0010, 25, 3, 0, 1⟩
def updStatusTrial : Fld := ⟨0x201A0010, 24, 1, 0, 1⟩
def updStatusActiveSlot : Fld := ⟨0x201A0010, 22, 2, 0, 1⟩
def updStatusReject : Fld := ⟨0x201A0010, 8, 8, 0, 1⟩
def updStatusSimErr : Fld := ⟨0x201A0010, 0, 8, 0, 1⟩
def updSlotState : Fld := ⟨0x201A0014, 29, 3, 4, 2⟩
def updSlotSecVer : Fld := ⟨0x201A0014, 16, 8, 4, 2⟩
def updSlotSetVer : Fld := ⟨0x201A0014, 0, 16, 4, 2⟩
def updTrialBoots : Fld := ⟨0x201A001C, 24, 8, 0, 1⟩
def updTrialMaxBoots : Fld := ⟨0x201A001C, 20, 4, 0, 1⟩
def updTrialElapsed : Fld := ⟨0x201A001C, 0, 20, 0, 1⟩
def updTrialWinS : Fld := ⟨0x201A0020, 0, 32, 0, 1⟩
def updConfirmGuard : Fld := ⟨0x201A0024, 16, 16, 0, 1⟩
def updConfirmGo : Fld := ⟨0x201A0024, 0, 1, 0, 1⟩
def updActAtLoUs : Fld := ⟨0x201A0028, 0, 32, 0, 1⟩
def updActAtHiUs : Fld := ⟨0x201A002C, 0, 32, 0, 1⟩
def updActCtlLateMs : Fld := ⟨0x201A0030, 16, 16, 0, 1⟩
def updActCtlResult : Fld := ⟨0x201A0030, 12, 4, 0, 1⟩
def updActCtlLockIdleS : Fld := ⟨0x201A0030, 0, 12, 0, 1⟩
def updActTagTag : Fld := ⟨0x201A0034, 0, 16, 0, 1⟩
def updSetAddrLoAddr : Fld := ⟨0x201A0038, 0, 32, 0, 1⟩
def updSetAddrHiAddr : Fld := ⟨0x201A003C, 0, 4, 0, 1⟩
def updSetCmdGo : Fld := ⟨0x201A0040, 31, 1, 0, 1⟩
def updSetStatusFormat : Fld := ⟨0x201A0044, 16, 16, 0, 1⟩
def updSetStatusDefaulted : Fld := ⟨0x201A0044, 15, 1, 0, 1⟩
def updSetStatusRestored : Fld := ⟨0x201A0044, 14, 1, 0, 1⟩
def updSetStatusMirrorPend : Fld := ⟨0x201A0044, 13, 1, 0, 1⟩
def updSetStatusResult : Fld := ⟨0x201A0044, 10, 3, 0, 1⟩
def updSetGenGen : Fld := ⟨0x201A0048, 0, 32, 0, 1⟩
def updWaveCtlEn : Fld := ⟨0x201A0060, 31, 1, 0, 1⟩
def updWaveCtlState : Fld := ⟨0x201A0060, 29, 2, 0, 1⟩
def updWaveCtlGroup : Fld := ⟨0x201A0060, 21, 8, 0, 1⟩
def updWaveCtlTargetVer : Fld := ⟨0x201A0060, 0, 16, 0, 1⟩
def updWaveTimeTimeoutS : Fld := ⟨0x201A0064, 16, 16, 0, 1⟩
def updWaveTimeSpacingS : Fld := ⟨0x201A0064, 0, 16, 0, 1⟩
def updWaveAtLoUs : Fld := ⟨0x201A0068, 0, 32, 0, 1⟩
def updWaveAtHiUs : Fld := ⟨0x201A006C, 0, 32, 0, 1⟩
def updDevidLoId : Fld := ⟨0x201A0070, 0, 32, 0, 1⟩
def updDevidHiId : Fld := ⟨0x201A0074, 0, 32, 0, 1⟩
def updIrqStatusWave : Fld := ⟨0x201A0080, 6, 1, 0, 1⟩
def updIrqStatusFallback : Fld := ⟨0x201A0080, 5, 1, 0, 1⟩
def updIrqStatusTrial : Fld := ⟨0x201A0080, 4, 1, 0, 1⟩
def updIrqStatusScheduled : Fld := ⟨0x201A0080, 3, 1, 0, 1⟩
def updIrqStatusRejected : Fld := ⟨0x201A0080, 2, 1, 0, 1⟩
def updIrqStatusDisplaced : Fld := ⟨0x201A0080, 1, 1, 0, 1⟩
def updIrqStatusStaged : Fld := ⟨0x201A0080, 0, 1, 0, 1⟩
def updIrqEnEn : Fld := ⟨0x201A0084, 0, 7, 0, 1⟩

/-! `REC`: spec/19_recorder_counters.md, R520. -/
def recHeadSeqSeq : Fld := ⟨0x201B0010, 0, 32, 0, 1⟩
def recStatusDropped : Fld := ⟨0x201B0014, 16, 16, 0, 1⟩
def recStatusWriting : Fld := ⟨0x201B0014, 7, 1, 0, 1⟩
def recStatusQueued : Fld := ⟨0x201B0014, 0, 7, 0, 1⟩
def recSevMin : Fld := ⟨0x201B0018, 0, 3, 0, 1⟩
def recPostHdrSeverity : Fld := ⟨0x201B0020, 16, 3, 0, 1⟩
def recPostHdrCode : Fld := ⟨0x201B0020, 0, 16, 0, 1⟩
def recPostDataData : Fld := ⟨0x201B0024, 0, 32, 4, 10⟩
def recPostCtlGo : Fld := ⟨0x201B004C, 31, 1, 0, 1⟩
def recIrqStatusDrop : Fld := ⟨0x201B0060, 1, 1, 0, 1⟩
def recIrqStatusSev : Fld := ⟨0x201B0060, 0, 1, 0, 1⟩
def recIrqEnEn : Fld := ⟨0x201B0064, 0, 2, 0, 1⟩

/-! `PMU`: spec/19_recorder_counters.md, R521. -/
def pmuCtlClrAll : Fld := ⟨0x201C0010, 1, 1, 0, 1⟩
def pmuCtlUserEn : Fld := ⟨0x201C0010, 0, 1, 0, 1⟩
def pmuCycleLoCyc : Fld := ⟨0x201C0018, 0, 32, 0, 1⟩
def pmuCycleHiCyc : Fld := ⟨0x201C001C, 0, 32, 0, 1⟩
def pmuOvfOvf : Fld := ⟨0x201C0020, 0, 8, 0, 1⟩
def pmuIrqEnEn : Fld := ⟨0x201C0024, 0, 8, 0, 1⟩
def pmuRangeBaseLoAddr : Fld := ⟨0x201C0030, 0, 32, 16, 2⟩
def pmuRangeBaseHiAddr : Fld := ⟨0x201C0034, 0, 4, 16, 2⟩
def pmuRangeLimLoAddr : Fld := ⟨0x201C0038, 0, 32, 16, 2⟩
def pmuRangeLimHiAddr : Fld := ⟨0x201C003C, 0, 4, 16, 2⟩
def pmuEvselEn : Fld := ⟨0x201C0100, 31, 1, 16, 8⟩
def pmuEvselOvfIrq : Fld := ⟨0x201C0100, 30, 1, 16, 8⟩
def pmuEvselRange : Fld := ⟨0x201C0100, 28, 2, 16, 8⟩
def pmuEvselMode : Fld := ⟨0x201C0100, 24, 4, 16, 8⟩
def pmuEvselMaster : Fld := ⟨0x201C0100, 16, 8, 16, 8⟩
def pmuEvselClass : Fld := ⟨0x201C0100, 12, 4, 16, 8⟩
def pmuEvselEvent : Fld := ⟨0x201C0100, 0, 8, 16, 8⟩
def pmuCntLoCount : Fld := ⟨0x201C0104, 0, 32, 16, 8⟩
def pmuCntHiCount : Fld := ⟨0x201C0108, 0, 16, 16, 8⟩

/-! `HVB`: spec/15_power_thermal.md, R446. -/
def hvbStatusErrs : Fld := ⟨0x201D0010, 16, 16, 0, 1⟩
def hvbStatusLinkUp : Fld := ⟨0x201D0010, 7, 1, 0, 1⟩
def hvbStatusHb : Fld := ⟨0x201D0010, 6, 1, 0, 1⟩
def hvbStatusRetractLine : Fld := ⟨0x201D0010, 5, 1, 0, 1⟩
def hvbStatusHvFaultLine : Fld := ⟨0x201D0010, 4, 1, 0, 1⟩
def hvbStatusTripIn : Fld := ⟨0x201D0010, 3, 1, 0, 1⟩
def hvbStatusTripOut : Fld := ⟨0x201D0010, 2, 1, 0, 1⟩
def hvbCtlRetract : Fld := ⟨0x201D0014, 0, 1, 0, 1⟩
def hvbRetrainsCount : Fld := ⟨0x201D0018, 0, 16, 0, 1⟩
def hvIdDevice : Fld := ⟨0x201D1000, 8, 8, 0, 1⟩
def hvIdRev : Fld := ⟨0x201D1000, 0, 8, 0, 1⟩
def hvSupplyCharging : Fld := ⟨0x201D1004, 11, 1, 0, 1⟩
def hvSupplyBoostOn : Fld := ⟨0x201D1004, 10, 1, 0, 1⟩
def hvSupplyRectifying : Fld := ⟨0x201D1004, 9, 1, 0, 1⟩
def hvSupplyVmIsolated : Fld := ⟨0x201D1004, 8, 1, 0, 1⟩
def hvSupplyRailsOk : Fld := ⟨0x201D1004, 0, 7, 0, 1⟩
def hvFaultCauseCause : Fld := ⟨0x201D1008, 0, 10, 0, 1⟩
def hvRetractActive : Fld := ⟨0x201D100C, 15, 1, 4, 2⟩
def hvRetractDone : Fld := ⟨0x201D100C, 14, 1, 4, 2⟩
def hvRetractTimeout : Fld := ⟨0x201D100C, 13, 1, 4, 2⟩
def hvRetractCause : Fld := ⟨0x201D100C, 4, 4, 4, 2⟩
def hvRetractPhase : Fld := ⟨0x201D100C, 0, 3, 4, 2⟩

/-! `PRE`: spec/01_architecture.md, R29. -/
def preModeExpertWrIgnored : Fld := ⟨0x201E0000, 16, 16, 0, 1⟩
def preModeIdle : Fld := ⟨0x201E0000, 8, 1, 0, 1⟩
def preModeLevelPend : Fld := ⟨0x201E0000, 1, 1, 0, 1⟩
def preModeLevel : Fld := ⟨0x201E0000, 0, 1, 0, 1⟩

/-! `PRE`: spec/07_assist_write.md, R225. -/
def preStatusPa1Fault : Fld := ⟨0x201E0010, 17, 1, 0, 1⟩
def preStatusPa0Fault : Fld := ⟨0x201E0010, 16, 1, 0, 1⟩
def preStatusPa1Head : Fld := ⟨0x201E0010, 12, 4, 0, 1⟩
def preStatusPa0Head : Fld := ⟨0x201E0010, 8, 4, 0, 1⟩
def preStatusPa1Mode : Fld := ⟨0x201E0010, 2, 2, 0, 1⟩
def preStatusPa0Mode : Fld := ⟨0x201E0010, 0, 2, 0, 1⟩
def preXferGo : Fld := ⟨0x201E0014, 31, 1, 0, 1⟩
def preXferPa : Fld := ⟨0x201E0014, 30, 1, 0, 1⟩
def preXferRd : Fld := ⟨0x201E0014, 29, 1, 0, 1⟩
def preXferAddr : Fld := ⟨0x201E0014, 16, 7, 0, 1⟩
def preXferData : Fld := ⟨0x201E0014, 0, 16, 0, 1⟩
def preRdataValid : Fld := ⟨0x201E0018, 31, 1, 0, 1⟩
def preRdataErr : Fld := ⟨0x201E0018, 30, 1, 0, 1⟩
def preRdataData : Fld := ⟨0x201E0018, 0, 16, 0, 1⟩
def preHselModeAddr : Fld := ⟨0x201E001C, 8, 7, 0, 1⟩
def preHselHselAddr : Fld := ⟨0x201E001C, 0, 7, 0, 1⟩
def preClkDiv : Fld := ⟨0x201E0020, 0, 8, 0, 1⟩
def preFaultLogPa1 : Fld := ⟨0x201E0024, 16, 16, 0, 1⟩
def preFaultLogPa0 : Fld := ⟨0x201E0024, 0, 16, 0, 1⟩
def preSetupIdxIndex : Fld := ⟨0x201E0028, 0, 7, 0, 1⟩
def preSetupDataValid : Fld := ⟨0x201E002C, 31, 1, 0, 1⟩
def preSetupDataAddr : Fld := ⟨0x201E002C, 16, 7, 0, 1⟩
def preSetupDataData : Fld := ⟨0x201E002C, 0, 16, 0, 1⟩
def preIrqStatusXferErr : Fld := ⟨0x201E0030, 3, 1, 0, 1⟩
def preIrqStatusPa1Fault : Fld := ⟨0x201E0030, 2, 1, 0, 1⟩
def preIrqStatusPa0Fault : Fld := ⟨0x201E0030, 1, 1, 0, 1⟩
def preIrqStatusXferDone : Fld := ⟨0x201E0030, 0, 1, 0, 1⟩
def preIrqEnEn : Fld := ⟨0x201E0034, 0, 4, 0, 1⟩

/-! `CRY`: spec/01_architecture.md, R29. -/
def cryModeExpertWrIgnored : Fld := ⟨0x201F0000, 16, 16, 0, 1⟩
def cryModeIdle : Fld := ⟨0x201F0000, 8, 1, 0, 1⟩
def cryModeLevelPend : Fld := ⟨0x201F0000, 1, 1, 0, 1⟩
def cryModeLevel : Fld := ⟨0x201F0000, 0, 1, 0, 1⟩

/-! `CRY`: spec/11_work_rings.md, R336. -/
def cryStatusSlots : Fld := ⟨0x201F0010, 8, 8, 0, 1⟩
def cryStatusKeyWait : Fld := ⟨0x201F0010, 1, 1, 0, 1⟩
def cryStatusBusy : Fld := ⟨0x201F0010, 0, 1, 0, 1⟩
def crySlotIdxSlot : Fld := ⟨0x201F0014, 0, 6, 0, 1⟩
def crySlotStatusLoaded : Fld := ⟨0x201F0018, 31, 1, 0, 1⟩
def crySlotStatusSettings : Fld := ⟨0x201F0018, 30, 1, 0, 1⟩
def crySlotStatusUses : Fld := ⟨0x201F0018, 0, 24, 0, 1⟩
def cryNsKey0Ns4 : Fld := ⟨0x201F0020, 24, 8, 0, 1⟩
def cryNsKey0Ns3 : Fld := ⟨0x201F0020, 16, 8, 0, 1⟩
def cryNsKey0Ns2 : Fld := ⟨0x201F0020, 8, 8, 0, 1⟩
def cryNsKey0Ns1 : Fld := ⟨0x201F0020, 0, 8, 0, 1⟩
def cryNsKey1Ns8Ns5 : Fld := ⟨0x201F0024, 0, 32, 0, 1⟩
def cryCounts0Units : Fld := ⟨0x201F0028, 0, 32, 0, 1⟩
def cryCounts1KeyEmpty : Fld := ⟨0x201F002C, 16, 16, 0, 1⟩
def cryCounts1Poison : Fld := ⟨0x201F002C, 0, 16, 0, 1⟩
def cryIrqStatusKeyEmpty : Fld := ⟨0x201F0030, 2, 1, 0, 1⟩
def cryIrqStatusKeyDone : Fld := ⟨0x201F0030, 1, 1, 0, 1⟩
def cryIrqStatusErr : Fld := ⟨0x201F0030, 0, 1, 0, 1⟩
def cryIrqEnEn : Fld := ⟨0x201F0034, 0, 3, 0, 1⟩

end Reg

/-- The rows of the SYS window. -/
def sysRows : List RegRow := [
  ⟨Reg.sysOpmodeCause, 1, .ro, .val 0x0, .d, .none⟩,
  ⟨Reg.sysOpmodePrevMode, 1, .ro, .val 0x0, .d, .none⟩,
  ⟨Reg.sysOpmodeMode, 1, .ro, .val 0x0, .d, .none⟩,
  ⟨Reg.sysIdLogicRev, 1, .ro, .undefined, .p, .none⟩,
  ⟨Reg.sysIdDram, 1, .ro, .undefined, .p, .none⟩,
  ⟨Reg.sysIdDevice, 1, .ro, .val 0x909, .p, .none⟩,
  ⟨Reg.sysRomVerVer, 1, .ro, .undefined, .p, .none⟩,
  ⟨Reg.sysWardenPatchVerRomVer, 1, .ro, .val 0x0, .d, .none⟩,
  ⟨Reg.sysWardenPatchVerPatchLevel, 1, .ro, .val 0x0, .d, .none⟩,
  ⟨Reg.sysWardenPatchVerSkipped, 1, .ro, .val 0, .d, .none⟩,
  ⟨Reg.sysCoreRelRun, 1, .ro, .val 0x0, .d, .none⟩,
  ⟨Reg.sysBootLoAddr, 1, .ro, .undefined, .d, .none⟩,
  ⟨Reg.sysBootHiAddr, 1, .ro, .undefined, .d, .none⟩,
  ⟨Reg.sysFwRevLoChars, 1, .ro, .undefined, .d, .none⟩,
  ⟨Reg.sysFwRevHiChars, 1, .ro, .undefined, .d, .none⟩]

/-- The rows of the SIM window. -/
def simRows : List RegRow := [
  ⟨Reg.simStatusRewired, 1, .ro, .val 0, .d, .none⟩,
  ⟨Reg.simStatusMinFail, 1, .ro, .val 0, .d, .none⟩,
  ⟨Reg.simStatusSlot, 1, .ro, .val 0x3, .d, .none⟩,
  ⟨Reg.simStatusState, 1, .ro, .val 0x0, .d, .none⟩,
  ⟨Reg.simRejectErr, 1, .ro, .val 0x0, .d, .none⟩,
  ⟨Reg.simRejectErrSect, 1, .ro, .val 0x0, .d, .none⟩,
  ⟨Reg.simRejectSlot, 1, .ro, .val 0x0, .d, .none⟩,
  ⟨Reg.simRejectCount, 1, .ro, .val 0x0, .d, .none⟩,
  ⟨Reg.simRejectOffOffset, 1, .ro, .val 0x0, .d, .none⟩,
  ⟨Reg.simImgVerImageVer, 1, .ro, .image, .d, .none⟩,
  ⟨Reg.simSecFuseArb, 1, .ro, .undefined, .d, .none⟩,
  ⟨Reg.simSecSecVer, 1, .ro, .image, .d, .none⟩,
  ⟨Reg.simKeysRevoked, 1, .ro, .undefined, .d, .none⟩,
  ⟨Reg.simKeysProgrammed, 1, .ro, .undefined, .d, .none⟩,
  ⟨Reg.simKeysKeyId, 1, .ro, .image, .d, .none⟩,
  ⟨Reg.simRoleRole, 1, .ro, .image, .d, .none⟩,
  ⟨Reg.simRosterMask, 4, .ro, .image, .d, .none⟩,
  ⟨Reg.simRetireMask, 4, .ro, .undefined, .n, .none⟩,
  ⟨Reg.simEffMask, 4, .ro, .image, .d, .none⟩,
  ⟨Reg.simRetireAddGuard, 1, .wo, .val 0x0, .c, .none⟩,
  ⟨Reg.simRetireAddIndex, 1, .wo, .val 0x0, .c, .none⟩]

/-- The rows of the ANG window. -/
def angRows : List RegRow := [
  ⟨Reg.angModeExpertWrIgnored, 1, .rw, .val 0x0, .d, .none⟩,
  ⟨Reg.angModeIdle, 1, .ro, .val 1, .c, .none⟩,
  ⟨Reg.angModeLevelPend, 1, .ro, .val 0, .d, .none⟩,
  ⟨Reg.angModeLevel, 1, .rw, .val 0, .d, .none⟩,
  ⟨Reg.angStatusGapCount, 1, .ro, .val 0x0, .p, .none⟩,
  ⟨Reg.angStatusIndexKnown, 1, .ro, .val 0, .d, .none⟩,
  ⟨Reg.angStatusSrc, 1, .ro, .val 0x3, .d, .none⟩,
  ⟨Reg.angStatusState, 1, .ro, .val 0x0, .d, .none⟩,
  ⟨Reg.angCtlXchkLim, 1, .xrw, .val 0x10, .d, .none⟩,
  ⟨Reg.angCtlSrcSel, 1, .xrw, .val 0x0, .d, .none⟩,
  ⟨Reg.angPosValid, 1, .ro, .val 0, .d, .none⟩,
  ⟨Reg.angPosWedge, 1, .ro, .undefined, .d, .none⟩,
  ⟨Reg.angPosTick, 1, .ro, .undefined, .d, .none⟩,
  ⟨Reg.angRevLoRev, 1, .ro, .undefined, .n, .none⟩,
  ⟨Reg.angRevHiRev, 1, .ro, .undefined, .n, .none⟩,
  ⟨Reg.angRevPeriodCycles, 1, .ro, .val 0x0, .d, .none⟩,
  ⟨Reg.angCoastAcqMarks, 1, .xrw, .val 0x4, .d, .none⟩,
  ⟨Reg.angCoastCoastWedges, 1, .xrw, .val 0x40, .d, .none⟩,
  ⟨Reg.angRungCeilExceeded, 1, .w1c, .val 0, .d, .none⟩,
  ⟨Reg.angRungResult, 1, .ro, .val 0x0, .d, .none⟩,
  ⟨Reg.angRungPhase, 1, .ro, .val 0x0, .d, .none⟩,
  ⟨Reg.angRungPend, 1, .ro, .val 0, .d, .none⟩,
  ⟨Reg.angRungPendTarget, 1, .ro, .val 0x0, .d, .none⟩,
  ⟨Reg.angRungSchedRung, 1, .ro, .image, .d, .none⟩,
  ⟨Reg.angRungCeilAge, 1, .ro, .val 0x0, .p, .none⟩,
  ⟨Reg.angRungCeilThm, 1, .ro, .val 0x0, .d, .none⟩,
  ⟨Reg.angRungCeiling, 1, .ro, .val 0x0, .d, .none⟩,
  ⟨Reg.angRungTarget, 1, .rw, .image, .d, .none⟩,
  ⟨Reg.angRungCurrent, 1, .ro, .image, .d, .none⟩,
  ⟨Reg.angRampRampMs, 1, .xrw, .val 0xBB8, .d, .none⟩,
  ⟨Reg.angCmdOp, 1, .wo, .val 0x0, .c, .none⟩,
  ⟨Reg.angAlarmPosEn, 1, .rw, .val 0, .d, .none⟩,
  ⟨Reg.angAlarmPosWedge, 1, .rw, .val 0x0, .d, .none⟩,
  ⟨Reg.angAlarmPosTick, 1, .rw, .val 0x0, .d, .none⟩,
  ⟨Reg.angAlarmRevLoRev, 1, .rw, .val 0x0, .d, .none⟩,
  ⟨Reg.angAlarmRevHiRev, 1, .rw, .val 0x0, .d, .none⟩,
  ⟨Reg.angIrqStatusGap, 1, .w1c, .val 0, .d, .none⟩,
  ⟨Reg.angIrqStatusXchk, 1, .w1c, .val 0, .d, .none⟩,
  ⟨Reg.angIrqStatusRungDone, 1, .w1c, .val 0, .d, .none⟩,
  ⟨Reg.angIrqStatusAlarm, 1, .w1c, .val 0, .d, .none⟩,
  ⟨Reg.angIrqStatusStateChg, 1, .w1c, .val 0, .d, .none⟩,
  ⟨Reg.angIrqEnEn, 1, .rw, .val 0x0, .d, .none⟩,
  ⟨Reg.angSnapTake, 1, .w1s, .val 0, .c, .none⟩,
  ⟨Reg.angSnapPos, 1, .ro, .val 0x0, .d, .none⟩,
  ⟨Reg.angSnapRevRev, 2, .ro, .val 0x0, .d, .none⟩,
  ⟨Reg.angSnapCycCyc, 2, .ro, .val 0x0, .d, .none⟩,
  ⟨Reg.angSnapDtimeDtime, 2, .ro, .val 0x0, .d, .none⟩,
  ⟨Reg.angSnapOpsecOpsec, 2, .ro, .val 0x0, .d, .none⟩,
  ⟨Reg.angOpsecOpsec, 2, .ro, .undefined, .n, .none⟩,
  ⟨Reg.angSkewSkew, 32, .ro, .calibration, .d, .none⟩]

/-- The rows of the BWK window. -/
def bwkRows : List RegRow := [
  ⟨Reg.bwkModeExpertWrIgnored, 2, .rw, .val 0x0, .d, .s⟩,
  ⟨Reg.bwkModeIdle, 2, .ro, .val 1, .c, .none⟩,
  ⟨Reg.bwkModeLevelPend, 2, .ro, .val 0, .d, .none⟩,
  ⟨Reg.bwkModeLevel, 2, .rw, .val 0, .d, .s⟩,
  ⟨Reg.bwkStatusCurIdx, 2, .ro, .val 0x0, .d, .g⟩,
  ⟨Reg.bwkStatusCurHead, 2, .ro, .val 0x0, .d, .g⟩,
  ⟨Reg.bwkStatusCurAction, 2, .ro, .val 0x0, .d, .g⟩,
  ⟨Reg.bwkStatusInband, 2, .ro, .val 0, .d, .g⟩,
  ⟨Reg.bwkStatusOntrack, 2, .ro, .val 0, .d, .g⟩,
  ⟨Reg.bwkStatusWreq, 2, .ro, .val 0, .d, .g⟩,
  ⟨Reg.bwkStatusGate, 2, .ro, .val 0, .d, .g⟩,
  ⟨Reg.bwkStatusState, 2, .ro, .val 0x0, .d, .g⟩,
  ⟨Reg.bwkCtlResume, 2, .w1s, .val 0, .c, .none⟩,
  ⟨Reg.bwkCtlAbort, 2, .w1s, .val 0, .c, .none⟩,
  ⟨Reg.bwkNolockToUs, 2, .rw, .val 0x2710, .d, .s⟩,
  ⟨Reg.bwkUcodeVerBase, 2, .ro, .image, .d, .s⟩,
  ⟨Reg.bwkUcodeVerPatch, 2, .ro, .image, .d, .s⟩,
  ⟨Reg.bwkUcodeVerModified, 2, .ro, .val 0, .d, .s⟩,
  ⟨Reg.bwkUcodeVerPatchSkipped, 2, .ro, .val 0, .d, .s⟩,
  ⟨Reg.bwkParCount, 2, .ro, .val 0x0, .p, .s⟩,
  ⟨Reg.bwkParAddr, 2, .ro, .val 0x0, .p, .s⟩,
  ⟨Reg.bwkMarkParam, 2, .ro, .val 0x0, .d, .g⟩,
  ⟨Reg.bwkPlanksCount, 2, .ro, .val 0x0, .d, .g⟩,
  ⟨Reg.bwkSlipsCount, 2, .ro, .val 0x0, .d, .g⟩,
  ⟨Reg.bwkIrqStatusRevSlip, 2, .w1c, .val 0, .d, .g⟩,
  ⟨Reg.bwkIrqStatusMark, 2, .w1c, .val 0, .d, .g⟩,
  ⟨Reg.bwkIrqStatusHalt, 2, .w1c, .val 0, .d, .g⟩,
  ⟨Reg.bwkIrqStatusNoAngle, 2, .w1c, .val 0, .d, .g⟩,
  ⟨Reg.bwkIrqStatusParity, 2, .w1c, .val 0, .d, .g⟩,
  ⟨Reg.bwkIrqStatusWriteFault, 2, .w1c, .val 0, .d, .g⟩,
  ⟨Reg.bwkIrqStatusResult, 2, .w1c, .val 0, .d, .g⟩,
  ⟨Reg.bwkIrqEnEn, 2, .rw, .val 0x0, .d, .s⟩]

/-- The rows of the SRV window. -/
def srvRows : List RegRow := [
  ⟨Reg.srvModeExpertWrIgnored, 2, .rw, .val 0x0, .d, .s⟩,
  ⟨Reg.srvModeIdle, 2, .ro, .val 1, .c, .none⟩,
  ⟨Reg.srvModeLevelPend, 2, .ro, .val 0, .d, .none⟩,
  ⟨Reg.srvModeLevel, 2, .rw, .val 0, .d, .s⟩,
  ⟨Reg.srvStatusHead, 2, .ro, .val 0x0, .d, .g⟩,
  ⟨Reg.srvStatusGset, 2, .ro, .val 0x0, .d, .g⟩,
  ⟨Reg.srvStatusBand, 2, .ro, .val 0x0, .d, .g⟩,
  ⟨Reg.srvStatusHold, 2, .ro, .val 0, .d, .g⟩,
  ⟨Reg.srvStatusSat, 2, .ro, .val 0, .d, .g⟩,
  ⟨Reg.srvStatusSatHi, 2, .ro, .val 0, .d, .g⟩,
  ⟨Reg.srvStatusCoastCnt, 2, .ro, .val 0x0, .d, .g⟩,
  ⟨Reg.srvStatusQual, 2, .ro, .val 0, .d, .g⟩,
  ⟨Reg.srvStatusOntrack, 2, .ro, .val 0, .d, .g⟩,
  ⟨Reg.srvStatusDecision, 2, .ro, .val 0, .d, .g⟩,
  ⟨Reg.srvStatusState, 2, .ro, .val 0x0, .d, .g⟩,
  ⟨Reg.srvCmdTrack, 2, .wo, .val 0x0, .c, .none⟩,
  ⟨Reg.srvCmdHead, 2, .wo, .val 0x0, .c, .none⟩,
  ⟨Reg.srvCmdOp, 2, .wo, .val 0x0, .c, .none⟩,
  ⟨Reg.srvPosValid, 2, .ro, .val 0, .d, .g⟩,
  ⟨Reg.srvPosPos, 2, .ro, .undefined, .d, .g⟩,
  ⟨Reg.srvTargetTarget, 2, .ro, .val 0x0, .d, .g⟩,
  ⟨Reg.srvVelVel, 2, .ro, .val 0x0, .d, .g⟩,
  ⟨Reg.srvFeLimitValue, 2, .rw, .val 0x40, .d, .s⟩,
  ⟨Reg.srvFeTimeValue, 2, .rw, .val 0x3, .d, .s⟩,
  ⟨Reg.srvFbCoastValue, 2, .rw, .val 0x4, .d, .s⟩,
  ⟨Reg.srvFbFreezeValue, 2, .rw, .val 0x8, .d, .s⟩,
  ⟨Reg.srvReacqTimeValue, 2, .rw, .val 0x400, .d, .s⟩,
  ⟨Reg.srvReacqMarks, 2, .xrw, .val 0x4, .d, .s⟩,
  ⟨Reg.srvFbIIret, 2, .xrw, .val 0x666, .d, .s⟩,
  ⟨Reg.srvFbIImax, 2, .xrw, .val 0x1999, .d, .s⟩,
  ⟨Reg.srvFbVKv, 2, .xrw, .val 0x100, .d, .s⟩,
  ⟨Reg.srvFbVVmax, 2, .xrw, .val 0x200, .d, .s⟩,
  ⟨Reg.srvOntrackSettleRun, 2, .xrw, .val 0x8, .d, .s⟩,
  ⟨Reg.srvOntrackWriteLim, 2, .xrw, .val 0x1A, .d, .s⟩,
  ⟨Reg.srvDemodTidWin, 2, .xrw, .val 0x4, .d, .s⟩,
  ⟨Reg.srvDemodSumMax, 2, .xrw, .val 0xF00, .d, .s⟩,
  ⟨Reg.srvDemodSumMin, 2, .xrw, .val 0x200, .d, .s⟩,
  ⟨Reg.srvLawBudget, 2, .xrw, .val 0x400, .d, .s⟩,
  ⟨Reg.srvLawProg, 2, .xrw, .val 0x0, .d, .s⟩,
  ⟨Reg.srvFfCtlMuNbr, 2, .xrw, .val 0x10, .d, .s⟩,
  ⟨Reg.srvFfCtlMuAcc, 2, .xrw, .val 0x10, .d, .s⟩,
  ⟨Reg.srvFfCtlAdaptFreeze, 2, .rw, .val 0, .d, .s⟩,
  ⟨Reg.srvFfCtlNbrEn, 2, .xrw, .val 1, .d, .s⟩,
  ⟨Reg.srvFfCtlAccEn, 2, .xrw, .val 0x3, .d, .s⟩,
  ⟨Reg.srvTapIdxIndex, 2, .rw, .val 0x0, .c, .none⟩,
  ⟨Reg.srvTapDataTap, 2, .xrw, .undefined, .d, .s⟩,
  ⟨Reg.srvIntegS, 2, .ro, .val 0x0, .d, .g⟩,
  ⟨Reg.srvOutMa, 2, .ro, .val 0x0, .d, .g⟩,
  ⟨Reg.srvOutVcm, 2, .ro, .val 0x0, .d, .g⟩,
  ⟨Reg.srvLastFaultWedge, 2, .ro, .val 0x0, .d, .s⟩,
  ⟨Reg.srvLastFaultCause, 2, .ro, .val 0x0, .d, .s⟩,
  ⟨Reg.srvCountsFallbacks, 2, .ro, .val 0x0, .p, .s⟩,
  ⟨Reg.srvCountsRroErr, 2, .ro, .val 0x0, .d, .g⟩,
  ⟨Reg.srvCountsMissing, 2, .ro, .val 0x0, .d, .g⟩,
  ⟨Reg.srvIrqStatusNbrDrop, 2, .w1c, .val 0, .d, .g⟩,
  ⟨Reg.srvIrqStatusLawEvent, 2, .w1c, .val 0, .d, .g⟩,
  ⟨Reg.srvIrqStatusParked, 2, .w1c, .val 0, .d, .g⟩,
  ⟨Reg.srvIrqStatusLoaded, 2, .w1c, .val 0, .d, .g⟩,
  ⟨Reg.srvIrqStatusRetract, 2, .w1c, .val 0, .d, .g⟩,
  ⟨Reg.srvIrqStatusReacq, 2, .w1c, .val 0, .d, .g⟩,
  ⟨Reg.srvIrqStatusFallback, 2, .w1c, .val 0, .d, .g⟩,
  ⟨Reg.srvIrqStatusCoast, 2, .w1c, .val 0, .d, .g⟩,
  ⟨Reg.srvIrqStatusSettled, 2, .w1c, .val 0, .d, .g⟩,
  ⟨Reg.srvIrqStatusArrive, 2, .w1c, .val 0, .d, .g⟩,
  ⟨Reg.srvIrqEnEn, 2, .rw, .val 0x0, .d, .s⟩]

/-- The rows of the SPN window. -/
def spnRows : List RegRow := [
  ⟨Reg.spnModeExpertWrIgnored, 1, .rw, .val 0x0, .d, .s⟩,
  ⟨Reg.spnModeIdle, 1, .ro, .val 1, .c, .none⟩,
  ⟨Reg.spnModeLevelPend, 1, .ro, .val 0, .d, .none⟩,
  ⟨Reg.spnModeLevel, 1, .rw, .val 0, .d, .s⟩,
  ⟨Reg.spnStatusRpm, 1, .ro, .val 0x0, .d, .g⟩,
  ⟨Reg.spnStatusOffspeed, 1, .ro, .val 0, .d, .g⟩,
  ⟨Reg.spnStatusTokenWait, 1, .ro, .val 0, .d, .g⟩,
  ⟨Reg.spnStatusState, 1, .ro, .val 0x0, .d, .g⟩,
  ⟨Reg.spnCmdRung, 1, .wo, .val 0x0, .c, .none⟩,
  ⟨Reg.spnCmdOp, 1, .wo, .val 0x0, .c, .none⟩,
  ⟨Reg.spnIlimMa, 1, .xrw, .image, .d, .s⟩,
  ⟨Reg.spnZcCoastValue, 1, .xrw, .val 0x6, .d, .s⟩,
  ⟨Reg.spnTolRevs, 1, .xrw, .val 0x2, .d, .s⟩,
  ⟨Reg.spnTolPpm, 1, .xrw, .val 0x1F4, .d, .s⟩,
  ⟨Reg.spnFaultCause, 1, .ro, .val 0x0, .d, .s⟩,
  ⟨Reg.spnCountsStarts, 1, .ro, .val 0x0, .p, .s⟩,
  ⟨Reg.spnCountsZcMissed, 1, .ro, .val 0x0, .d, .g⟩,
  ⟨Reg.spnIrqStatusToken, 1, .w1c, .val 0, .d, .g⟩,
  ⟨Reg.spnIrqStatusStopped, 1, .w1c, .val 0, .d, .g⟩,
  ⟨Reg.spnIrqStatusFault, 1, .w1c, .val 0, .d, .g⟩,
  ⟨Reg.spnIrqStatusOffspeed, 1, .w1c, .val 0, .d, .g⟩,
  ⟨Reg.spnIrqStatusLocked, 1, .w1c, .val 0, .d, .g⟩,
  ⟨Reg.spnIrqEnEn, 1, .rw, .val 0x0, .d, .s⟩]

/-- The rows of the AST window. -/
def astRows : List RegRow := [
  ⟨Reg.astModeExpertWrIgnored, 2, .rw, .val 0x0, .d, .s⟩,
  ⟨Reg.astModeIdle, 2, .ro, .val 1, .c, .none⟩,
  ⟨Reg.astModeLevelPend, 2, .ro, .val 0, .d, .none⟩,
  ⟨Reg.astModeLevel, 2, .rw, .val 0, .d, .s⟩,
  ⟨Reg.astStatusHead, 2, .ro, .val 0x0, .d, .g⟩,
  ⟨Reg.astStatusGset, 2, .ro, .val 0x0, .d, .g⟩,
  ⟨Reg.astStatusLimiter, 2, .ro, .val 0x7, .d, .g⟩,
  ⟨Reg.astStatusHoldCnt, 2, .ro, .val 0x0, .d, .g⟩,
  ⟨Reg.astStatusPrefault, 2, .ro, .val 0, .d, .g⟩,
  ⟨Reg.astStatusInband, 2, .ro, .val 0, .d, .g⟩,
  ⟨Reg.astStatusState, 2, .ro, .val 0x0, .d, .g⟩,
  ⟨Reg.astProxyValid, 2, .ro, .val 0, .d, .g⟩,
  ⟨Reg.astProxyTarget, 2, .ro, .val 0x0, .d, .g⟩,
  ⟨Reg.astProxyProxy, 2, .ro, .undefined, .d, .g⟩,
  ⟨Reg.astSetpointIset, 2, .ro, .val 0x0, .d, .g⟩,
  ⟨Reg.astSetpointHeld, 2, .ro, .val 0x0, .d, .g⟩,
  ⟨Reg.astHoldSamples, 2, .xrw, .val 0x4, .d, .s⟩,
  ⟨Reg.astFreezeSamples, 2, .xrw, .val 0x10, .d, .s⟩,
  ⟨Reg.astSuspectHeads, 2, .ro, .val 0x0, .n, .none⟩,
  ⟨Reg.astTblIdxIndex, 2, .rw, .val 0x0, .c, .none⟩,
  ⟨Reg.astTblDataWwCeil, 2, .xrw, .val 0xFFF, .d, .s⟩,
  ⟨Reg.astTblDataAgeCeil, 2, .xrw, .val 0xFFF, .d, .s⟩,
  ⟨Reg.astStagedPend, 2, .ro, .val 0, .d, .g⟩,
  ⟨Reg.astSetIdxWord, 2, .rw, .val 0x0, .c, .none⟩,
  ⟨Reg.astSetDataData, 2, .xrw, .image, .d, .s⟩,
  ⟨Reg.astChanCrcErr, 2, .ro, .val 0x0, .d, .g⟩,
  ⟨Reg.astChanEchoErr, 2, .ro, .val 0x0, .d, .g⟩,
  ⟨Reg.astLossHead, 2, .ro, .val 0x0, .p, .s⟩,
  ⟨Reg.astLossCause, 2, .ro, .val 0x0, .p, .s⟩,
  ⟨Reg.astLossCount, 2, .ro, .val 0x0, .p, .s⟩,
  ⟨Reg.astWfSnap0PosErr, 2, .ro, .val 0x0, .d, .g⟩,
  ⟨Reg.astWfSnap0Proxy, 2, .ro, .val 0x0, .d, .g⟩,
  ⟨Reg.astWfSnap1GateCause, 2, .ro, .val 0x0, .d, .g⟩,
  ⟨Reg.astWfSnap1Head, 2, .ro, .val 0x0, .d, .g⟩,
  ⟨Reg.astWfSnap1Iset, 2, .ro, .val 0x0, .d, .g⟩,
  ⟨Reg.astWfAngleAngle, 2, .ro, .val 0x0, .d, .g⟩,
  ⟨Reg.astIrqStatusStagedApplied, 2, .w1c, .val 0, .d, .g⟩,
  ⟨Reg.astIrqStatusCeilHit, 2, .w1c, .val 0, .d, .g⟩,
  ⟨Reg.astIrqStatusPreampFault, 2, .w1c, .val 0, .d, .g⟩,
  ⟨Reg.astIrqStatusSuspect, 2, .w1c, .val 0, .d, .g⟩,
  ⟨Reg.astIrqStatusLoss, 2, .w1c, .val 0, .d, .g⟩,
  ⟨Reg.astIrqEnEn, 2, .rw, .val 0x0, .d, .s⟩]

/-- The rows of the RDC window. -/
def rdcRows : List RegRow := [
  ⟨Reg.rdcModeExpertWrIgnored, 2, .rw, .val 0x0, .d, .s⟩,
  ⟨Reg.rdcModeIdle, 2, .ro, .val 1, .c, .none⟩,
  ⟨Reg.rdcModeLevelPend, 2, .ro, .val 0, .d, .none⟩,
  ⟨Reg.rdcModeLevel, 2, .rw, .val 0, .d, .s⟩,
  ⟨Reg.rdcStatusEnvelope, 2, .ro, .val 0x0, .d, .g⟩,
  ⟨Reg.rdcStatusStaged, 2, .ro, .val 0, .d, .g⟩,
  ⟨Reg.rdcStatusFrozen, 2, .ro, .val 0, .d, .g⟩,
  ⟨Reg.rdcStatusGrant, 2, .ro, .val 0, .d, .g⟩,
  ⟨Reg.rdcStatusShared, 2, .ro, .val 0, .d, .none⟩,
  ⟨Reg.rdcStatusPa, 2, .ro, .image, .d, .none⟩,
  ⟨Reg.rdcStatusPhase, 2, .ro, .val 0x0, .d, .g⟩,
  ⟨Reg.rdcSyncHdrTol, 2, .xrw, .val 0x2, .d, .s⟩,
  ⟨Reg.rdcSyncBTol, 2, .xrw, .val 0x2, .d, .s⟩,
  ⟨Reg.rdcSyncATol, 2, .xrw, .val 0x3, .d, .s⟩,
  ⟨Reg.rdcSyncWinB, 2, .xrw, .val 0x10, .d, .s⟩,
  ⟨Reg.rdcSyncWinA, 2, .xrw, .val 0x10, .d, .s⟩,
  ⟨Reg.rdcDefectRecoverBits, 2, .xrw, .val 0x10, .d, .s⟩,
  ⟨Reg.rdcDefectRecoverPct, 2, .xrw, .val 0x14, .d, .s⟩,
  ⟨Reg.rdcDefectDropBits, 2, .xrw, .val 0x20, .d, .s⟩,
  ⟨Reg.rdcDefectDropPct, 2, .xrw, .val 0x28, .d, .s⟩,
  ⟨Reg.rdcAdaptTrkBw, 2, .xrw, .val 0x6, .d, .s⟩,
  ⟨Reg.rdcAdaptEqShift, 2, .xrw, .val 0x8, .d, .s⟩,
  ⟨Reg.rdcAdaptMraShift, 2, .xrw, .val 0x7, .d, .s⟩,
  ⟨Reg.rdcAdaptBaseShift, 2, .xrw, .val 0x6, .d, .s⟩,
  ⟨Reg.rdcAdaptGainShift, 2, .xrw, .val 0x5, .d, .s⟩,
  ⟨Reg.rdcLlrScale, 2, .xrw, .val 0x4, .d, .s⟩,
  ⟨Reg.rdcProfIdxWord, 2, .rw, .val 0x0, .c, .none⟩,
  ⟨Reg.rdcProfDataData, 2, .xrw, .val 0x0, .d, .s⟩,
  ⟨Reg.rdcEqIdxTap, 2, .rw, .val 0x0, .c, .none⟩,
  ⟨Reg.rdcEqDataCoef, 2, .xrw, .val 0, .d, .s⟩,
  ⟨Reg.rdcWprecompLate, 2, .xrw, .val 0x0, .d, .s⟩,
  ⟨Reg.rdcWprecompEarly, 2, .xrw, .val 0x6, .d, .s⟩,
  ⟨Reg.rdcRegionIdxEntry, 2, .rw, .val 0x0, .c, .none⟩,
  ⟨Reg.rdcRegionClkBpt64, 2, .ro, .image, .d, .none⟩,
  ⟨Reg.rdcCounts0AMiss, 2, .ro, .val 0x0, .d, .g⟩,
  ⟨Reg.rdcCounts0Slip, 2, .ro, .val 0x0, .d, .g⟩,
  ⟨Reg.rdcCounts1SyncMiss, 2, .ro, .val 0x0, .d, .g⟩,
  ⟨Reg.rdcCounts1Defect, 2, .ro, .val 0x0, .d, .g⟩,
  ⟨Reg.rdcCounts2HdrMismatch, 2, .ro, .val 0x0, .d, .g⟩,
  ⟨Reg.rdcCounts2Waits, 2, .ro, .val 0x0, .d, .g⟩,
  ⟨Reg.rdcIrqStatusStagedApplied, 2, .w1c, .val 0, .d, .g⟩,
  ⟨Reg.rdcIrqStatusSyncMiss, 2, .w1c, .val 0, .d, .g⟩,
  ⟨Reg.rdcIrqStatusDefect, 2, .w1c, .val 0, .d, .g⟩,
  ⟨Reg.rdcIrqEnEn, 2, .rw, .val 0x0, .d, .s⟩]

/-- The rows of the LDP window. -/
def ldpRows : List RegRow := [
  ⟨Reg.ldpModeExpertWrIgnored, 1, .rw, .val 0x0, .d, .none⟩,
  ⟨Reg.ldpModeIdle, 1, .ro, .val 1, .c, .none⟩,
  ⟨Reg.ldpModeLevelPend, 1, .ro, .val 0, .d, .none⟩,
  ⟨Reg.ldpModeLevel, 1, .rw, .val 0, .d, .none⟩,
  ⟨Reg.ldpStatusDeepPresent, 1, .ro, .image, .d, .none⟩,
  ⟨Reg.ldpStatusFast1Present, 1, .ro, .image, .d, .none⟩,
  ⟨Reg.ldpStatusFast0Present, 1, .ro, .image, .d, .none⟩,
  ⟨Reg.ldpStatusDeepBusy, 1, .ro, .val 0, .c, .none⟩,
  ⟨Reg.ldpStatusFast1Bufs, 1, .ro, .val 0x0, .c, .none⟩,
  ⟨Reg.ldpStatusFast0Bufs, 1, .ro, .val 0x0, .c, .none⟩,
  ⟨Reg.ldpFastCtlDeadline, 1, .xrw, .val 0x20, .d, .none⟩,
  ⟨Reg.ldpFastCtlIter, 1, .xrw, .image, .d, .none⟩,
  ⟨Reg.ldpDeepCtlMaxCaps, 1, .xrw, .image, .d, .none⟩,
  ⟨Reg.ldpDeepCtlIter, 1, .xrw, .image, .d, .none⟩,
  ⟨Reg.ldpSoftLoAddr, 2, .rw, .val 0x0, .d, .none⟩,
  ⟨Reg.ldpSoftLoEn, 2, .rw, .val 0, .d, .none⟩,
  ⟨Reg.ldpSoftHiAddr, 2, .rw, .val 0x0, .d, .none⟩,
  ⟨Reg.ldpCounts0BufCuts, 1, .ro, .val 0x0, .d, .none⟩,
  ⟨Reg.ldpCounts0DeadlineCuts, 1, .ro, .val 0x0, .d, .none⟩,
  ⟨Reg.ldpCounts1DeepOk, 1, .ro, .val 0x0, .p, .none⟩,
  ⟨Reg.ldpCounts1DeepFail, 1, .ro, .val 0x0, .p, .none⟩,
  ⟨Reg.ldpIrqStatusCut, 1, .w1c, .val 0, .d, .none⟩,
  ⟨Reg.ldpIrqStatusDeepFail, 1, .w1c, .val 0, .d, .none⟩,
  ⟨Reg.ldpIrqStatusJobDone, 1, .w1c, .val 0, .d, .none⟩,
  ⟨Reg.ldpIrqEnEn, 1, .rw, .val 0x0, .d, .none⟩]

/-- The rows of the OCE window. -/
def oceRows : List RegRow := [
  ⟨Reg.oceModeExpertWrIgnored, 1, .rw, .val 0x0, .d, .none⟩,
  ⟨Reg.oceModeIdle, 1, .ro, .val 1, .c, .none⟩,
  ⟨Reg.oceModeLevelPend, 1, .ro, .val 0, .d, .none⟩,
  ⟨Reg.oceModeLevel, 1, .rw, .val 0, .d, .none⟩,
  ⟨Reg.oceStatusBusy, 1, .ro, .val 0, .c, .none⟩,
  ⟨Reg.oceAccOrderErr, 2, .w1c, .val 0, .d, .none⟩,
  ⟨Reg.oceAccK, 2, .ro, .val 0x0, .d, .none⟩,
  ⟨Reg.oceAccJ, 2, .ro, .val 0x0, .d, .none⟩,
  ⟨Reg.oceAccClrClr, 1, .w1s, .val 0x0, .c, .none⟩,
  ⟨Reg.oceCountsSeals, 1, .ro, .val 0x0, .d, .none⟩,
  ⟨Reg.oceCountsRebuilds, 1, .ro, .val 0x0, .p, .none⟩,
  ⟨Reg.oceIrqStatusOrderErr, 1, .w1c, .val 0, .d, .none⟩,
  ⟨Reg.oceIrqStatusJobFail, 1, .w1c, .val 0, .d, .none⟩,
  ⟨Reg.oceIrqStatusJobDone, 1, .w1c, .val 0, .d, .none⟩,
  ⟨Reg.oceIrqEnEn, 1, .rw, .val 0x0, .d, .none⟩]

/-- The rows of the JNL window. -/
def jnlRows : List RegRow := [
  ⟨Reg.jnlModeExpertWrIgnored, 1, .rw, .val 0x0, .d, .none⟩,
  ⟨Reg.jnlModeIdle, 1, .ro, .val 1, .c, .none⟩,
  ⟨Reg.jnlModeLevelPend, 1, .ro, .val 0, .d, .none⟩,
  ⟨Reg.jnlModeLevel, 1, .rw, .val 0, .d, .none⟩,
  ⟨Reg.jnlStatusIdxFull, 1, .ro, .val 0, .d, .none⟩,
  ⟨Reg.jnlStatusSpaceLow, 1, .ro, .val 0, .d, .none⟩,
  ⟨Reg.jnlStatusTwinDegraded, 1, .ro, .val 0, .d, .none⟩,
  ⟨Reg.jnlStatusHoldupLow, 1, .ro, .val 0, .d, .none⟩,
  ⟨Reg.jnlStatusReplay, 1, .ro, .val 0x0, .d, .none⟩,
  ⟨Reg.jnlStatusFold, 1, .ro, .val 0x0, .d, .none⟩,
  ⟨Reg.jnlCtlFoldEn, 1, .xrw, .val 1, .d, .none⟩,
  ⟨Reg.jnlCtlTwin, 1, .rw, .val 0, .p, .none⟩,
  ⟨Reg.jnlRouteTwinWaitUs, 1, .xrw, .val 0x0, .d, .none⟩,
  ⟨Reg.jnlRouteSmallMax, 1, .xrw, .val 0x10, .d, .none⟩,
  ⟨Reg.jnlFoldHighWm, 1, .xrw, .val 0x50, .d, .none⟩,
  ⟨Reg.jnlFoldIdleMs, 1, .xrw, .val 0x64, .d, .none⟩,
  ⟨Reg.jnlWfSqueeze, 1, .xrw, .val 0x10, .d, .none⟩,
  ⟨Reg.jnlWfRetries, 1, .xrw, .val 0x3, .d, .none⟩,
  ⟨Reg.jnlIdxBaseAddr, 1, .rw, .val 0x10F00000, .n, .none⟩,
  ⟨Reg.jnlIdxSizeBytes, 1, .rw, .val 0x100000, .n, .none⟩,
  ⟨Reg.jnlSeqLoSeq, 1, .ro, .undefined, .n, .none⟩,
  ⟨Reg.jnlSeqHiSeq, 1, .ro, .undefined, .n, .none⟩,
  ⟨Reg.jnlOccAct1, 1, .ro, .val 0x0, .d, .none⟩,
  ⟨Reg.jnlOccAct0, 1, .ro, .val 0x0, .d, .none⟩,
  ⟨Reg.jnlCounts0WfRestarts, 1, .ro, .val 0x0, .d, .none⟩,
  ⟨Reg.jnlCounts0Twins, 1, .ro, .val 0x0, .d, .none⟩,
  ⟨Reg.jnlCounts1Folds, 1, .ro, .val 0x0, .d, .none⟩,
  ⟨Reg.jnlReplayLogTrimmed, 1, .ro, .val 0x0, .p, .none⟩,
  ⟨Reg.jnlReplayLogRefolded, 1, .ro, .val 0x0, .p, .none⟩,
  ⟨Reg.jnlReplayLogLost, 1, .ro, .val 0x0, .p, .none⟩,
  ⟨Reg.jnlIrqStatusTwinDegraded, 1, .w1c, .val 0, .d, .none⟩,
  ⟨Reg.jnlIrqStatusAckLoss, 1, .w1c, .val 0, .d, .none⟩,
  ⟨Reg.jnlIrqStatusWriteFail, 1, .w1c, .val 0, .d, .none⟩,
  ⟨Reg.jnlIrqStatusFoldHeld, 1, .w1c, .val 0, .d, .none⟩,
  ⟨Reg.jnlIrqStatusSpaceLow, 1, .w1c, .val 0, .d, .none⟩,
  ⟨Reg.jnlIrqStatusReplayDone, 1, .w1c, .val 0, .d, .none⟩,
  ⟨Reg.jnlIrqEnEn, 1, .rw, .val 0x0, .d, .none⟩]

/-- The rows of the HST window. -/
def hstRows : List RegRow := [
  ⟨Reg.hstModeExpertWrIgnored, 1, .rw, .val 0x0, .d, .none⟩,
  ⟨Reg.hstModeIdle, 1, .ro, .val 1, .c, .none⟩,
  ⟨Reg.hstModeLevelPend, 1, .ro, .val 0, .d, .none⟩,
  ⟨Reg.hstModeLevel, 1, .rw, .val 0, .d, .none⟩,
  ⟨Reg.hstStatusP1Up, 1, .ro, .val 0, .h, .none⟩,
  ⟨Reg.hstStatusP1Width, 1, .ro, .val 0x0, .h, .none⟩,
  ⟨Reg.hstStatusP1Speed, 1, .ro, .val 0x0, .h, .none⟩,
  ⟨Reg.hstStatusP0Up, 1, .ro, .val 0, .h, .none⟩,
  ⟨Reg.hstStatusP0Width, 1, .ro, .val 0x0, .h, .none⟩,
  ⟨Reg.hstStatusP0Speed, 1, .ro, .val 0x0, .h, .none⟩,
  ⟨Reg.hstStatusLanesDown, 1, .ro, .val 0x0, .h, .none⟩,
  ⟨Reg.hstStatusLanesEff, 1, .ro, .image, .d, .none⟩,
  ⟨Reg.hstDiagBar2En, 1, .rw, .val 0, .p, .none⟩,
  ⟨Reg.hstTagsInUse, 1, .ro, .val 0x0, .d, .none⟩,
  ⟨Reg.hstTagHwmHwm, 1, .rw, .val 0x0, .d, .none⟩,
  ⟨Reg.hstPendEntries, 1, .ro, .val 0x0, .d, .none⟩,
  ⟨Reg.hstPendCqsCqs, 1, .ro, .val 0x0, .d, .none⟩,
  ⟨Reg.hstFuncIdxFunc, 1, .rw, .val 0x0, .c, .none⟩,
  ⟨Reg.hstQuotaDataCq, 1, .xrw, .image, .d, .none⟩,
  ⟨Reg.hstQuotaDataSq, 1, .xrw, .image, .d, .none⟩,
  ⟨Reg.hstWeightDataWeight, 1, .xrw, .val 0x1, .d, .none⟩,
  ⟨Reg.hstCounts0Aborted, 1, .ro, .val 0x0, .d, .none⟩,
  ⟨Reg.hstCounts0NotAborted, 1, .ro, .val 0x0, .d, .none⟩,
  ⟨Reg.hstCounts1Retrains, 1, .ro, .val 0x0, .p, .none⟩,
  ⟨Reg.hstCounts1CqPauses, 1, .ro, .val 0x0, .d, .none⟩,
  ⟨Reg.hstCounts2Commands, 1, .ro, .val 0x0, .d, .none⟩,
  ⟨Reg.hstAdmBaseAddr, 1, .rw, .val 0x0, .d, .none⟩,
  ⟨Reg.hstAdmRingEntries, 1, .rw, .val 0x0, .d, .none⟩,
  ⟨Reg.hstAdmProdIdx, 1, .ro, .val 0x0, .d, .none⟩,
  ⟨Reg.hstAdmConsIdx, 1, .rw, .val 0x0, .d, .none⟩,
  ⟨Reg.hstIrqStatusHrst, 1, .w1c, .val 0, .d, .none⟩,
  ⟨Reg.hstIrqStatusTagsOut, 1, .w1c, .val 0, .d, .none⟩,
  ⟨Reg.hstIrqStatusCqFull, 1, .w1c, .val 0, .d, .none⟩,
  ⟨Reg.hstIrqStatusLaneLost, 1, .w1c, .val 0, .d, .none⟩,
  ⟨Reg.hstIrqStatusLinkChg, 1, .w1c, .val 0, .d, .none⟩,
  ⟨Reg.hstIrqStatusAdmin, 1, .w1c, .val 0, .d, .none⟩,
  ⟨Reg.hstIrqEnEn, 1, .rw, .val 0x0, .d, .none⟩,
  ⟨Reg.hstAdmCpl0Dw0, 1, .rw, .val 0x0, .c, .none⟩,
  ⟨Reg.hstAdmCpl1Cid, 1, .rw, .val 0x0, .c, .none⟩,
  ⟨Reg.hstAdmCpl1Func, 1, .rw, .val 0x0, .c, .none⟩,
  ⟨Reg.hstAdmCpl2Go, 1, .w1s, .val 0, .c, .none⟩,
  ⟨Reg.hstAdmCpl2Status, 1, .rw, .val 0x0, .c, .none⟩]

/-- The rows of the RNG window. -/
def rngRows : List RegRow := [
  ⟨Reg.rngIrqStatusRefused, 1, .w1c, .val 0x0, .d, .none⟩,
  ⟨Reg.rngIrqStatusDrained, 1, .w1c, .val 0x0, .d, .none⟩,
  ⟨Reg.rngIrqStatusOvf, 1, .w1c, .val 0x0, .d, .none⟩,
  ⟨Reg.rngIrqStatusResult, 1, .w1c, .val 0x0, .d, .none⟩,
  ⟨Reg.rngIrqEnEn, 1, .rw, .val 0x0, .d, .none⟩,
  ⟨Reg.rngCtlEnable, 7, .rw, .val 0, .d, .none⟩,
  ⟨Reg.rngStatusLost, 7, .ro, .val 0x0, .d, .none⟩,
  ⟨Reg.rngStatusHeld, 7, .ro, .val 0x0, .d, .none⟩,
  ⟨Reg.rngStatusRefuse, 7, .ro, .val 0x0, .d, .none⟩,
  ⟨Reg.rngStatusStoppedFull, 7, .ro, .val 0, .d, .none⟩,
  ⟨Reg.rngStatusResultOvf, 7, .ro, .val 0, .d, .none⟩,
  ⟨Reg.rngStatusDraining, 7, .ro, .val 0, .d, .none⟩,
  ⟨Reg.rngStatusIdle, 7, .ro, .val 1, .d, .none⟩,
  ⟨Reg.rngReqBaseLoAddr, 7, .rw, .val 0x0, .d, .none⟩,
  ⟨Reg.rngResBaseLoAddr, 7, .rw, .val 0x0, .d, .none⟩,
  ⟨Reg.rngReqBaseHiAddr, 7, .rw, .val 0x0, .d, .none⟩,
  ⟨Reg.rngResBaseHiAddr, 7, .rw, .val 0x0, .d, .none⟩,
  ⟨Reg.rngReqSizeEntries, 7, .rw, .val 0x0, .d, .none⟩,
  ⟨Reg.rngResSizeEntries, 7, .rw, .val 0x0, .d, .none⟩,
  ⟨Reg.rngReqProdIdx, 7, .rw, .val 0x0, .d, .none⟩,
  ⟨Reg.rngReqConsIdx, 7, .ro, .val 0x0, .d, .none⟩,
  ⟨Reg.rngResProdIdx, 7, .ro, .val 0x0, .d, .none⟩,
  ⟨Reg.rngResConsIdx, 7, .rw, .val 0x0, .d, .none⟩]

/-- The rows of the BCM window. -/
def bcmRows : List RegRow := [
  ⟨Reg.bcmModeExpertWrIgnored, 1, .rw, .val 0x0, .d, .none⟩,
  ⟨Reg.bcmModeIdle, 1, .ro, .val 1, .c, .none⟩,
  ⟨Reg.bcmModeLevelPend, 1, .ro, .val 0, .d, .none⟩,
  ⟨Reg.bcmModeLevel, 1, .rw, .val 0, .d, .none⟩,
  ⟨Reg.bcmStatusState, 1, .ro, .val 0x1, .d, .none⟩,
  ⟨Reg.bcmStatusEvb, 1, .ro, .image, .d, .none⟩,
  ⟨Reg.bcmStatusSets, 1, .ro, .image, .d, .none⟩,
  ⟨Reg.bcmCtlEn, 1, .rw, .val 1, .d, .none⟩,
  ⟨Reg.bcmWaysPend, 1, .ro, .val 0x0, .d, .none⟩,
  ⟨Reg.bcmWaysOn, 1, .xrw, .val 0xFFFF, .d, .none⟩,
  ⟨Reg.bcmRaLines, 1, .xrw, .val 0x8, .d, .none⟩,
  ⟨Reg.bcmReq0Valid, 1, .ro, .val 0, .d, .none⟩,
  ⟨Reg.bcmReq0Kind, 1, .ro, .val 0, .d, .none⟩,
  ⟨Reg.bcmReq0Ns, 1, .ro, .val 0x0, .d, .none⟩,
  ⟨Reg.bcmReq0Pop, 1, .w1s, .val 0, .c, .none⟩,
  ⟨Reg.bcmReq0Mask, 1, .ro, .val 0x0, .d, .none⟩,
  ⟨Reg.bcmReq1Line, 1, .ro, .val 0x0, .d, .none⟩,
  ⟨Reg.bcmReq2Frame, 1, .ro, .val 0x0, .d, .none⟩,
  ⟨Reg.bcmReqCntEntries, 1, .ro, .val 0x0, .d, .none⟩,
  ⟨Reg.bcmCounts0Hits, 1, .ro, .val 0x0, .d, .none⟩,
  ⟨Reg.bcmCounts1Misses, 1, .ro, .val 0x0, .d, .none⟩,
  ⟨Reg.bcmCounts2Recalls, 1, .ro, .val 0x0, .d, .none⟩,
  ⟨Reg.bcmCounts2Remaps, 1, .ro, .val 0x0, .d, .none⟩,
  ⟨Reg.bcmCounts3NoWay, 1, .ro, .val 0x0, .d, .none⟩,
  ⟨Reg.bcmCounts3Transient, 1, .ro, .val 0x0, .d, .none⟩,
  ⟨Reg.bcmDirtyLines, 1, .ro, .val 0x0, .d, .none⟩,
  ⟨Reg.bcmIrqStatusNoWay, 1, .w1c, .val 0, .d, .none⟩,
  ⟨Reg.bcmIrqStatusWaysDone, 1, .w1c, .val 0, .d, .none⟩,
  ⟨Reg.bcmIrqStatusOff, 1, .w1c, .val 0, .d, .none⟩,
  ⟨Reg.bcmIrqStatusOpDone, 1, .w1c, .val 0, .d, .none⟩,
  ⟨Reg.bcmIrqStatusReq, 1, .w1c, .val 0, .d, .none⟩,
  ⟨Reg.bcmIrqEnEn, 1, .rw, .val 0x0, .d, .none⟩,
  ⟨Reg.bcmOpLineLine, 4, .rw, .val 0x0, .d, .none⟩,
  ⟨Reg.bcmOpCtlGo, 4, .w1s, .val 0, .c, .none⟩,
  ⟨Reg.bcmOpCtlOp, 4, .rw, .val 0x0, .d, .none⟩,
  ⟨Reg.bcmOpCtlNs, 4, .rw, .val 0x0, .d, .none⟩,
  ⟨Reg.bcmOpCtlMask, 4, .rw, .val 0x0, .d, .none⟩,
  ⟨Reg.bcmOpResBusy, 4, .ro, .val 0, .d, .none⟩,
  ⟨Reg.bcmOpResStatus, 4, .ro, .val 0x0, .d, .none⟩,
  ⟨Reg.bcmOpResMask, 4, .ro, .val 0x0, .d, .none⟩,
  ⟨Reg.bcmOpFrameFrame, 4, .ro, .val 0x0, .d, .none⟩]

/-- The rows of the MEM window. -/
def memRows : List RegRow := [
  ⟨Reg.memModeExpertWrIgnored, 1, .rw, .val 0x0, .d, .none⟩,
  ⟨Reg.memModeIdle, 1, .ro, .val 1, .c, .none⟩,
  ⟨Reg.memModeLevelPend, 1, .ro, .val 0, .d, .none⟩,
  ⟨Reg.memModeLevel, 1, .rw, .val 0, .d, .none⟩,
  ⟨Reg.memStatusFillDone, 1, .ro, .val 0, .d, .none⟩,
  ⟨Reg.memStatusHardOvf, 1, .ro, .val 0, .d, .none⟩,
  ⟨Reg.memStatusStFail, 1, .ro, .val 0x0, .d, .none⟩,
  ⟨Reg.memStatusPinned, 1, .ro, .val 0x0, .d, .none⟩,
  ⟨Reg.memStatusTrkUsed, 1, .ro, .val 0x0, .d, .none⟩,
  ⟨Reg.memStatusCand, 1, .ro, .undefined, .n, .none⟩,
  ⟨Reg.memRepeatLimitValue, 1, .xrw, .val 0x4, .d, .none⟩,
  ⟨Reg.memScrubRateSramMin, 1, .xrw, .val 0x3C, .d, .none⟩,
  ⟨Reg.memScrubRateMramDays, 1, .xrw, .val 0x7, .d, .none⟩,
  ⟨Reg.memScrubRateDramHours, 1, .xrw, .val 0x18, .d, .none⟩,
  ⟨Reg.memScrubPosSramPct, 1, .ro, .val 0x0, .d, .none⟩,
  ⟨Reg.memScrubPosMramPct, 1, .ro, .val 0x0, .d, .none⟩,
  ⟨Reg.memScrubPosDramPct, 1, .ro, .val 0x0, .d, .none⟩,
  ⟨Reg.memCounts0CorrDram, 1, .ro, .val 0x0, .p, .none⟩,
  ⟨Reg.memCounts0CorrSram, 1, .ro, .val 0x0, .p, .none⟩,
  ⟨Reg.memCounts1CorrMram, 1, .ro, .val 0x0, .p, .none⟩,
  ⟨Reg.memCounts1UncDram, 1, .ro, .val 0x0, .p, .none⟩,
  ⟨Reg.memCounts1UncSram, 1, .ro, .val 0x0, .p, .none⟩,
  ⟨Reg.memCounts2PoisonWr, 1, .ro, .val 0x0, .p, .none⟩,
  ⟨Reg.memCounts2Hard, 1, .ro, .val 0x0, .p, .none⟩,
  ⟨Reg.memCounts2UncMram, 1, .ro, .val 0x0, .p, .none⟩,
  ⟨Reg.memLastErrValid, 1, .ro, .val 0, .d, .none⟩,
  ⟨Reg.memLastErrKind, 1, .ro, .val 0x0, .d, .none⟩,
  ⟨Reg.memLastErrArray, 1, .ro, .val 0x0, .d, .none⟩,
  ⟨Reg.memLastErrMaster, 1, .ro, .val 0x0, .d, .none⟩,
  ⟨Reg.memLastErrPosition, 1, .ro, .val 0x0, .d, .none⟩,
  ⟨Reg.memLastAddrLoAddr, 1, .ro, .val 0x0, .d, .none⟩,
  ⟨Reg.memLastAddrHiAddr, 1, .ro, .val 0x0, .d, .none⟩,
  ⟨Reg.memTrkIdxIndex, 1, .rw, .val 0x0, .c, .none⟩,
  ⟨Reg.memTrkData0Addr, 1, .ro, .val 0x0, .d, .none⟩,
  ⟨Reg.memTrkData1Valid, 1, .ro, .val 0, .d, .none⟩,
  ⟨Reg.memTrkData1Wb, 1, .ro, .val 0, .d, .none⟩,
  ⟨Reg.memTrkData1Array, 1, .ro, .val 0x0, .d, .none⟩,
  ⟨Reg.memTrkData1Count, 1, .ro, .val 0x0, .d, .none⟩,
  ⟨Reg.memTrkData1Addr, 1, .ro, .val 0x0, .d, .none⟩,
  ⟨Reg.memCandIdxIndex, 1, .rw, .val 0x0, .c, .none⟩,
  ⟨Reg.memCandData0Addr, 1, .ro, .undefined, .n, .none⟩,
  ⟨Reg.memCandData1Valid, 1, .ro, .undefined, .n, .none⟩,
  ⟨Reg.memCandData1State, 1, .ro, .undefined, .n, .none⟩,
  ⟨Reg.memCandData1Array, 1, .ro, .undefined, .n, .none⟩,
  ⟨Reg.memCandData1Addr, 1, .ro, .undefined, .n, .none⟩,
  ⟨Reg.memInjectLoAddr, 1, .xrw, .val 0x0, .c, .none⟩,
  ⟨Reg.memInjectHiAddr, 1, .xrw, .val 0x0, .c, .none⟩,
  ⟨Reg.memInjectArm, 1, .w1s, .val 0, .c, .none⟩,
  ⟨Reg.memInjectKind, 1, .xrw, .val 0x0, .c, .none⟩,
  ⟨Reg.memIrqStatusSelftest, 1, .w1c, .val 0, .d, .none⟩,
  ⟨Reg.memIrqStatusRepairFail, 1, .w1c, .val 0, .d, .none⟩,
  ⟨Reg.memIrqStatusHard, 1, .w1c, .val 0, .d, .none⟩,
  ⟨Reg.memIrqStatusPoison, 1, .w1c, .val 0, .d, .none⟩,
  ⟨Reg.memIrqStatusUncorr, 1, .w1c, .val 0, .d, .none⟩,
  ⟨Reg.memIrqStatusCorr, 1, .w1c, .val 0, .d, .none⟩,
  ⟨Reg.memIrqEnEn, 1, .rw, .val 0x0, .d, .none⟩]

/-- The rows of the FLT window. -/
def fltRows : List RegRow := [
  ⟨Reg.fltStatusCause, 1, .ro, .val 0x0, .d, .none⟩,
  ⟨Reg.fltStatusSafePend, 1, .ro, .val 0, .d, .none⟩,
  ⟨Reg.fltStatusRecovering, 1, .ro, .val 0, .d, .none⟩,
  ⟨Reg.fltCounts0Corrected, 1, .ro, .val 0x0, .p, .none⟩,
  ⟨Reg.fltCounts1Contained, 1, .ro, .val 0x0, .p, .none⟩,
  ⟨Reg.fltCounts1UnitFatal, 1, .ro, .val 0x0, .p, .none⟩,
  ⟨Reg.fltIntMax, 1, .rw, .val 0x0, .p, .none⟩,
  ⟨Reg.fltIntLast, 1, .ro, .val 0x0, .d, .none⟩,
  ⟨Reg.fltMcrIdxNewest, 1, .ro, .val 0x0, .d, .none⟩,
  ⟨Reg.fltMcrIdxEntry, 1, .rw, .val 0x0, .c, .none⟩,
  ⟨Reg.fltMcrWordWord, 1, .rw, .val 0x0, .c, .none⟩,
  ⟨Reg.fltMcrDataData, 1, .ro, .val 0x0, .d, .none⟩,
  ⟨Reg.fltDownMask, 4, .ro, .val 0x0, .d, .none⟩,
  ⟨Reg.fltCoreOnline, 1, .w1s, .val 0x0, .d, .none⟩,
  ⟨Reg.fltCoreRejoin, 1, .w1c, .val 0x0, .d, .none⟩,
  ⟨Reg.fltCoreHeld, 1, .ro, .val 0x0, .d, .none⟩,
  ⟨Reg.fltCoreFaults, 1, .ro, .val 0x0, .d, .none⟩,
  ⟨Reg.fltOwnerIdxWord, 1, .rw, .val 0x0, .c, .none⟩,
  ⟨Reg.fltOwnerDataOwner, 1, .ro, .val 0x0, .d, .none⟩,
  ⟨Reg.fltWdogKick, 4, .w1s, .val 0, .c, .none⟩,
  ⟨Reg.fltWdogUs, 4, .rw, .val 0x0, .d, .none⟩,
  ⟨Reg.fltDeclareClass, 1, .wo, .val 0x0, .c, .none⟩,
  ⟨Reg.fltDeclareHartV, 1, .wo, .val 0, .c, .none⟩,
  ⟨Reg.fltDeclareHart, 1, .wo, .val 0x0, .c, .none⟩,
  ⟨Reg.fltDeclareSub, 1, .wo, .val 0x0, .c, .none⟩,
  ⟨Reg.fltPolicyAutoRetire, 1, .rw, .val 0, .n, .none⟩,
  ⟨Reg.fltHistCount, 32, .ro, .undefined, .n, .none⟩,
  ⟨Reg.fltIrqStatusRetired, 1, .w1c, .val 0, .d, .none⟩,
  ⟨Reg.fltIrqStatusUnitDown, 1, .w1c, .val 0, .d, .none⟩,
  ⟨Reg.fltIrqStatusTakeover, 1, .w1c, .val 0, .d, .none⟩,
  ⟨Reg.fltIrqStatusIntDone, 1, .w1c, .val 0, .d, .none⟩,
  ⟨Reg.fltIrqStatusMchk, 1, .w1c, .val 0, .d, .none⟩,
  ⟨Reg.fltIrqEnEn, 1, .rw, .val 0x0, .d, .none⟩]

/-- The rows of the CAL window. -/
def calRows : List RegRow := [
  ⟨Reg.calModeExpertWrIgnored, 1, .rw, .val 0x0, .d, .none⟩,
  ⟨Reg.calModeIdle, 1, .ro, .val 1, .c, .none⟩,
  ⟨Reg.calModeLevelPend, 1, .ro, .val 0, .d, .none⟩,
  ⟨Reg.calModeLevel, 1, .rw, .val 0, .d, .none⟩,
  ⟨Reg.calStatusDue, 1, .ro, .val 0x0, .d, .none⟩,
  ⟨Reg.calStatusRunning, 1, .ro, .val 0x0, .d, .none⟩,
  ⟨Reg.calStatusOvlPend, 1, .ro, .val 0x0, .d, .none⟩,
  ⟨Reg.calCtlTrigEn, 1, .xrw, .val 0xFF, .d, .none⟩,
  ⟨Reg.calCtlDt, 1, .xrw, .val 0x6, .d, .none⟩,
  ⟨Reg.calCmdGo, 1, .w1s, .val 0, .c, .none⟩,
  ⟨Reg.calCmdOp, 1, .rw, .val 0x0, .c, .none⟩,
  ⟨Reg.calCmdInstance, 1, .rw, .val 0x0, .c, .none⟩,
  ⟨Reg.calCmdGroup, 1, .rw, .val 0x0, .c, .none⟩,
  ⟨Reg.calCmdResStatus, 1, .ro, .val 0x0, .c, .none⟩,
  ⟨Reg.calQIdxQid, 1, .rw, .val 0x0, .c, .none⟩,
  ⟨Reg.calQFactoryF, 1, .ro, .undefined, .n, .none⟩,
  ⟨Reg.calQRunM, 1, .ro, .undefined, .n, .none⟩,
  ⟨Reg.calQOverlayO, 1, .rw, .undefined, .d, .none⟩,
  ⟨Reg.calQEffE, 1, .ro, .calibration, .d, .none⟩,
  ⟨Reg.calQStatusValid, 1, .ro, .val 0, .c, .none⟩,
  ⟨Reg.calQStatusRunValid, 1, .ro, .undefined, .n, .none⟩,
  ⟨Reg.calQStatusSat, 1, .ro, .val 0, .d, .none⟩,
  ⟨Reg.calQStatusClamped, 1, .ro, .val 0, .d, .none⟩,
  ⟨Reg.calQStatusOvlPend, 1, .ro, .val 0, .d, .none⟩,
  ⟨Reg.calProxyMinRise, 1, .xrw, .val 0x3E8, .d, .none⟩,
  ⟨Reg.calProxyOffLevel, 1, .xrw, .val 0xC8, .d, .none⟩,
  ⟨Reg.calWwMinAmp, 1, .xrw, .val 0x1E, .d, .none⟩,
  ⟨Reg.calWwMaxW, 1, .xrw, .val 0x1C0, .d, .none⟩,
  ⟨Reg.calPaImonAddr, 1, .xrw, .val 0x20, .d, .none⟩,
  ⟨Reg.calIrqStatusOvlApplied, 1, .w1c, .val 0, .d, .none⟩,
  ⟨Reg.calIrqStatusFail, 1, .w1c, .val 0, .d, .none⟩,
  ⟨Reg.calIrqStatusDone, 1, .w1c, .val 0, .d, .none⟩,
  ⟨Reg.calIrqStatusDue, 1, .w1c, .val 0, .d, .none⟩,
  ⟨Reg.calIrqEnEn, 1, .rw, .val 0x0, .d, .none⟩,
  ⟨Reg.calGrpStatFails, 8, .ro, .val 0x0, .p, .none⟩,
  ⟨Reg.calGrpStatLast, 8, .ro, .undefined, .n, .none⟩,
  ⟨Reg.calGrpStatTempLast, 8, .ro, .undefined, .n, .none⟩,
  ⟨Reg.calGrpRunsCount, 8, .ro, .undefined, .n, .none⟩,
  ⟨Reg.calGrpOpsecLoOpsec, 8, .ro, .undefined, .n, .none⟩,
  ⟨Reg.calGrpOpsecHiOpsec, 8, .ro, .undefined, .n, .none⟩,
  ⟨Reg.calGrpRevLoRev, 8, .ro, .undefined, .n, .none⟩,
  ⟨Reg.calGrpRevHiRev, 8, .ro, .undefined, .n, .none⟩,
  ⟨Reg.calGrpInstInst, 8, .ro, .undefined, .n, .none⟩]

/-- The rows of the AGE window. -/
def ageRows : List RegRow := [
  ⟨Reg.ageModeExpertWrIgnored, 1, .rw, .val 0x0, .d, .none⟩,
  ⟨Reg.ageModeIdle, 1, .ro, .val 1, .c, .none⟩,
  ⟨Reg.ageModeLevelPend, 1, .ro, .val 0, .d, .none⟩,
  ⟨Reg.ageModeLevel, 1, .rw, .val 0, .d, .none⟩,
  ⟨Reg.ageStatusPend, 1, .ro, .val 0x0, .d, .none⟩,
  ⟨Reg.ageStatusHoldupLow, 1, .ro, .val 0, .d, .none⟩,
  ⟨Reg.ageStatusVguard, 1, .ro, .undefined, .n, .none⟩,
  ⟨Reg.ageStatusVguardNext, 1, .ro, .undefined, .n, .none⟩,
  ⟨Reg.ageStatusBusy, 1, .ro, .val 0, .c, .none⟩,
  ⟨Reg.ageCtlMinSect, 1, .xrw, .val 0x10, .d, .none⟩,
  ⟨Reg.ageCtlEvalH, 1, .xrw, .val 0x18, .d, .none⟩,
  ⟨Reg.ageCtlEval, 1, .w1s, .val 0, .c, .none⟩,
  ⟨Reg.ageThrPlanUp, 1, .xrw, .val 0x40, .d, .none⟩,
  ⟨Reg.ageThrRetire, 1, .xrw, .val 0x10, .d, .none⟩,
  ⟨Reg.ageRatio0Decode, 1, .xrw, .val 0x280, .d, .none⟩,
  ⟨Reg.ageRatio0Reader, 1, .xrw, .val 0x133, .d, .none⟩,
  ⟨Reg.ageRatio1Burst, 1, .xrw, .val 0xB3, .d, .none⟩,
  ⟨Reg.ageRatio1Ceil, 1, .xrw, .val 0x140, .d, .none⟩,
  ⟨Reg.ageHoldup0BudgetMs, 1, .ro, .undefined, .n, .none⟩,
  ⟨Reg.ageHoldup0ParkMinMs, 1, .xrw, .val 0xF0, .d, .none⟩,
  ⟨Reg.ageHoldup1CapUf, 1, .ro, .undefined, .n, .none⟩,
  ⟨Reg.ageHoldup1EsrMohm, 1, .ro, .undefined, .n, .none⟩,
  ⟨Reg.ageHoldup2VstartMv, 1, .xrw, .val 0x80E8, .d, .none⟩,
  ⟨Reg.ageHoldup2VminMv, 1, .xrw, .val 0x1770, .d, .none⟩,
  ⟨Reg.ageSiliconDriftPpm, 1, .ro, .val 0x0, .d, .none⟩,
  ⟨Reg.ageSiliconStepPpm, 1, .xrw, .val 0x7D0, .d, .none⟩,
  ⟨Reg.agePaRmrAddr, 1, .xrw, .val 0x10, .d, .none⟩,
  ⟨Reg.agePropCmdGo, 1, .w1s, .val 0, .c, .none⟩,
  ⟨Reg.agePropCmdOp, 1, .xrw, .val 0x0, .c, .none⟩,
  ⟨Reg.agePropCmdEntry, 1, .xrw, .val 0x0, .c, .none⟩,
  ⟨Reg.ageEvalsCount, 1, .ro, .undefined, .n, .none⟩,
  ⟨Reg.ageIrqStatusHoldupLow, 1, .w1c, .val 0, .d, .none⟩,
  ⟨Reg.ageIrqStatusRetire, 1, .w1c, .val 0, .d, .none⟩,
  ⟨Reg.ageIrqStatusPlan, 1, .w1c, .val 0, .d, .none⟩,
  ⟨Reg.ageIrqStatusProposal, 1, .w1c, .val 0, .d, .none⟩,
  ⟨Reg.ageIrqStatusEvalDone, 1, .w1c, .val 0, .d, .none⟩,
  ⟨Reg.ageIrqEnEn, 1, .rw, .val 0x0, .d, .none⟩]

/-- The rows of the PWR window. -/
def pwrRows : List RegRow := [
  ⟨Reg.pwrStatusLoss, 1, .ro, .val 0, .d, .none⟩,
  ⟨Reg.pwrStatusCause, 1, .ro, .val 0x0, .d, .none⟩,
  ⟨Reg.pwrStatusHoldupLow, 1, .ro, .val 0, .d, .none⟩,
  ⟨Reg.pwrStatusHoldupFail, 1, .ro, .val 0, .d, .none⟩,
  ⟨Reg.pwrStatusHoldupReady, 1, .ro, .val 0, .d, .none⟩,
  ⟨Reg.pwrStatusVmOk, 1, .ro, .undefined, .d, .none⟩,
  ⟨Reg.pwrStatusVlOk, 1, .ro, .undefined, .d, .none⟩,
  ⟨Reg.pwrStatusRailsOk, 1, .ro, .undefined, .d, .none⟩,
  ⟨Reg.pwrVinVmMv, 1, .ro, .undefined, .d, .none⟩,
  ⟨Reg.pwrVinVlMv, 1, .ro, .undefined, .d, .none⟩,
  ⟨Reg.pwrVholdMv, 1, .ro, .undefined, .d, .none⟩,
  ⟨Reg.pwrVcoreVguard, 1, .ro, .undefined, .d, .none⟩,
  ⟨Reg.pwrVcoreSetpointMv, 1, .ro, .val 0x2EE, .d, .none⟩,
  ⟨Reg.pwrLossCfgCoreUs, 1, .rw, .val 0x3E8, .d, .none⟩,
  ⟨Reg.pwrCountsLosses, 1, .ro, .undefined, .n, .none⟩,
  ⟨Reg.pwrCountsGlitches, 1, .ro, .undefined, .n, .none⟩,
  ⟨Reg.pwrIrqStatusLinkDown, 1, .w1c, .val 0, .d, .none⟩,
  ⟨Reg.pwrIrqStatusHvFault, 1, .w1c, .val 0, .d, .none⟩,
  ⟨Reg.pwrIrqStatusHoldupLow, 1, .w1c, .val 0, .d, .none⟩,
  ⟨Reg.pwrIrqStatusHoldupReady, 1, .w1c, .val 0, .d, .none⟩,
  ⟨Reg.pwrIrqStatusRail, 1, .w1c, .val 0, .d, .none⟩,
  ⟨Reg.pwrIrqStatusLoss, 1, .w1c, .val 0, .d, .none⟩,
  ⟨Reg.pwrIrqEnEn, 1, .rw, .val 0x0, .d, .none⟩]

/-- The rows of the THM window. -/
def thmRows : List RegRow := [
  ⟨Reg.thmModeExpertWrIgnored, 1, .rw, .val 0x0, .d, .none⟩,
  ⟨Reg.thmModeIdle, 1, .ro, .val 1, .c, .none⟩,
  ⟨Reg.thmModeLevelPend, 1, .ro, .val 0, .d, .none⟩,
  ⟨Reg.thmModeLevel, 1, .rw, .val 0, .d, .none⟩,
  ⟨Reg.thmStatusSluice, 1, .ro, .val 0x0, .d, .none⟩,
  ⟨Reg.thmStatusStep, 1, .ro, .val 0x0, .d, .none⟩,
  ⟨Reg.thmStatusStepDue, 1, .ro, .val 0, .d, .none⟩,
  ⟨Reg.thmStatusTmt2Act, 1, .ro, .val 0, .d, .none⟩,
  ⟨Reg.thmStatusTmt1Act, 1, .ro, .val 0, .d, .none⟩,
  ⟨Reg.thmStatusRise, 1, .ro, .val 0x0, .d, .none⟩,
  ⟨Reg.thmStatusFast, 1, .ro, .val 0x0, .d, .none⟩,
  ⟨Reg.thmStatusLevel, 1, .ro, .val 0x0, .d, .none⟩,
  ⟨Reg.thmCompositeKelvin, 1, .ro, .undefined, .d, .none⟩,
  ⟨Reg.thmSluiceReleaseS, 1, .xrw, .val 0x3C, .d, .none⟩,
  ⟨Reg.thmSluiceStepS, 1, .xrw, .val 0xA, .d, .none⟩,
  ⟨Reg.thmSluiceGraceS, 1, .xrw, .val 0x1E, .d, .none⟩,
  ⟨Reg.thmCapIops, 1, .xrw, .val 0x7D0, .d, .none⟩,
  ⟨Reg.thmCmdOp, 1, .wo, .val 0x0, .c, .none⟩,
  ⟨Reg.thmXbetaBeta, 1, .xrw, .val 0xD6B, .d, .none⟩,
  ⟨Reg.thmHctmTmt2, 1, .ro, .val 0x0, .d, .none⟩,
  ⟨Reg.thmHctmTmt1, 1, .ro, .val 0x0, .d, .none⟩,
  ⟨Reg.thmCountsEnforces, 1, .ro, .val 0x0, .p, .none⟩,
  ⟨Reg.thmCountsAsks, 1, .ro, .val 0x0, .p, .none⟩,
  ⟨Reg.thmTripLogCount, 1, .ro, .undefined, .n, .none⟩,
  ⟨Reg.thmTripLogGroup, 1, .ro, .undefined, .n, .none⟩,
  ⟨Reg.thmTripLogSensor, 1, .ro, .undefined, .n, .none⟩,
  ⟨Reg.thmTripLogPeak, 1, .ro, .undefined, .n, .none⟩,
  ⟨Reg.thmThrShut.elem 0, 1, .ro, .val 0x7D, .d, .none⟩,
  ⟨Reg.thmThrShut.elem 1, 1, .ro, .val 0xA5, .d, .none⟩,
  ⟨Reg.thmThrShut.elem 2, 1, .ro, .val 0x69, .d, .none⟩,
  ⟨Reg.thmThrShut.elem 3, 1, .ro, .val 0xFF, .d, .none⟩,
  ⟨Reg.thmThrHyst, 4, .ro, .val 0x5, .d, .none⟩,
  ⟨Reg.thmThrThrot.elem 0, 1, .xrw, .val 0x6E, .d, .none⟩,
  ⟨Reg.thmThrThrot.elem 1, 1, .xrw, .val 0x8C, .d, .none⟩,
  ⟨Reg.thmThrThrot.elem 2, 1, .xrw, .val 0x5F, .d, .none⟩,
  ⟨Reg.thmThrThrot.elem 3, 1, .xrw, .val 0x41, .d, .none⟩,
  ⟨Reg.thmThrWarn.elem 0, 1, .xrw, .val 0x64, .d, .none⟩,
  ⟨Reg.thmThrWarn.elem 1, 1, .xrw, .val 0x7D, .d, .none⟩,
  ⟨Reg.thmThrWarn.elem 2, 1, .xrw, .val 0x55, .d, .none⟩,
  ⟨Reg.thmThrWarn.elem 3, 1, .xrw, .val 0x3C, .d, .none⟩,
  ⟨Reg.thmIrqStatusTripRestart, 1, .w1c, .val 0, .d, .none⟩,
  ⟨Reg.thmIrqStatusStepDue, 1, .w1c, .val 0, .d, .none⟩,
  ⟨Reg.thmIrqStatusSluiceChg, 1, .w1c, .val 0, .d, .none⟩,
  ⟨Reg.thmIrqStatusRise, 1, .w1c, .val 0, .d, .none⟩,
  ⟨Reg.thmIrqStatusLevel, 1, .w1c, .val 0, .d, .none⟩,
  ⟨Reg.thmIrqStatusThresh, 1, .w1c, .val 0, .d, .none⟩,
  ⟨Reg.thmIrqEnEn, 1, .rw, .val 0x0, .d, .none⟩,
  ⟨Reg.thmTempValid, 14, .ro, .val 0, .d, .none⟩,
  ⟨Reg.thmTempTemp, 14, .ro, .undefined, .d, .none⟩]

/-- The rows of the RST window. -/
def rstRows : List RegRow := [
  ⟨Reg.rstCauseMerged, 1, .ro, .val 0, .p, .none⟩,
  ⟨Reg.rstCauseAfterLoss, 1, .ro, .val 0, .p, .none⟩,
  ⟨Reg.rstCauseStopped, 1, .ro, .val 0, .p, .none⟩,
  ⟨Reg.rstCauseKind, 1, .ro, .val 0, .p, .none⟩,
  ⟨Reg.rstCauseSource, 1, .ro, .val 0x0, .p, .none⟩,
  ⟨Reg.rstStatusPerst, 1, .ro, .undefined, .c, .none⟩,
  ⟨Reg.rstStatusP1Hrst, 1, .ro, .val 0, .c, .none⟩,
  ⟨Reg.rstStatusP0Hrst, 1, .ro, .val 0, .c, .none⟩,
  ⟨Reg.rstStatusPhase, 1, .ro, .val 0x0, .c, .none⟩,
  ⟨Reg.rstPcycleCount, 1, .ro, .undefined, .n, .none⟩,
  ⟨Reg.rstDrstsCount, 1, .ro, .val 0x0, .p, .none⟩,
  ⟨Reg.rstHrstP1, 1, .ro, .val 0x0, .d, .none⟩,
  ⟨Reg.rstHrstP0, 1, .ro, .val 0x0, .d, .none⟩,
  ⟨Reg.rstFuncFlrs, 1, .ro, .val 0x0, .d, .none⟩,
  ⟨Reg.rstFuncCrstFunc, 1, .ro, .val 0x0, .d, .none⟩,
  ⟨Reg.rstFuncFlrFunc, 1, .ro, .val 0x0, .d, .none⟩,
  ⟨Reg.rstDrstReqGuard, 1, .wo, .val 0x0, .c, .none⟩,
  ⟨Reg.rstDrstReqGo, 1, .wo, .val 0, .c, .none⟩,
  ⟨Reg.rstOpsecLoOpsec, 1, .ro, .undefined, .p, .none⟩,
  ⟨Reg.rstOpsecHiOpsec, 1, .ro, .undefined, .p, .none⟩,
  ⟨Reg.rstIrqStatusHrst1, 1, .w1c, .val 0, .d, .none⟩,
  ⟨Reg.rstIrqStatusHrst0, 1, .w1c, .val 0, .d, .none⟩,
  ⟨Reg.rstIrqStatusFlr, 1, .w1c, .val 0, .d, .none⟩,
  ⟨Reg.rstIrqStatusCrst, 1, .w1c, .val 0, .d, .none⟩,
  ⟨Reg.rstIrqEnEn, 1, .rw, .val 0x0, .d, .none⟩]

/-- The rows of the DOM window. -/
def domRows : List RegRow := [
  ⟨Reg.domModeExpertWrIgnored, 1, .rw, .val 0x0, .d, .none⟩,
  ⟨Reg.domModeIdle, 1, .ro, .val 1, .c, .none⟩,
  ⟨Reg.domModeLevelPend, 1, .ro, .val 0, .d, .none⟩,
  ⟨Reg.domModeLevel, 1, .rw, .val 0, .d, .none⟩,
  ⟨Reg.domStatusPort, 1, .ro, .val 0x0, .d, .none⟩,
  ⟨Reg.domStatusPosition, 1, .ro, .val 0x0, .d, .none⟩,
  ⟨Reg.domStatusSafeSeen, 1, .ro, .val 0, .d, .none⟩,
  ⟨Reg.domStatusTimeLocked, 1, .ro, .val 0, .d, .none⟩,
  ⟨Reg.domStatusTimeValid, 1, .ro, .val 0, .d, .none⟩,
  ⟨Reg.domStatusRole, 1, .ro, .image, .d, .none⟩,
  ⟨Reg.domStatusState, 1, .ro, .val 0x0, .d, .none⟩,
  ⟨Reg.domCtlOrphanS, 1, .xrw, .val 0x3C, .d, .none⟩,
  ⟨Reg.domCtlMgrWaitMs, 1, .xrw, .val 0x7D0, .d, .none⟩,
  ⟨Reg.domTimeLoUs, 1, .ro, .val 0x0, .d, .none⟩,
  ⟨Reg.domTimeHiUs, 1, .ro, .val 0x0, .d, .none⟩,
  ⟨Reg.domTimeSetLoUs, 1, .wo, .val 0x0, .c, .none⟩,
  ⟨Reg.domTimeSetHiUs, 1, .wo, .val 0x0, .c, .none⟩,
  ⟨Reg.domSyncErrNs, 1, .ro, .val 0x0, .d, .none⟩,
  ⟨Reg.domSyncMissed, 1, .ro, .val 0x0, .d, .none⟩,
  ⟨Reg.domSyncLinkdly, 1, .ro, .val 0x0, .d, .none⟩,
  ⟨Reg.domNbrSendEn, 1, .xrw, .val 1, .d, .none⟩,
  ⟨Reg.domNbrMinTracks, 1, .xrw, .image, .d, .none⟩,
  ⟨Reg.domNbrMask, 1, .xrw, .image, .d, .none⟩,
  ⟨Reg.domNbrCountsSent, 1, .ro, .val 0x0, .d, .none⟩,
  ⟨Reg.domNbrCountsTaken, 1, .ro, .val 0x0, .d, .none⟩,
  ⟨Reg.domTokenOut, 1, .ro, .val 0x0, .d, .none⟩,
  ⟨Reg.domTokenHoldS, 1, .xrw, .val 0x1E, .d, .none⟩,
  ⟨Reg.domTokenPerPort, 1, .xrw, .val 0x2, .d, .none⟩,
  ⟨Reg.domTokenMax, 1, .xrw, .val 0x10, .d, .none⟩,
  ⟨Reg.domStaggerLastPos, 1, .ro, .undefined, .n, .none⟩,
  ⟨Reg.domStaggerMs, 1, .xrw, .image, .d, .none⟩,
  ⟨Reg.domGroupGroup, 1, .ro, .undefined, .d, .none⟩,
  ⟨Reg.domHealthMs, 1, .xrw, .val 0x3E8, .d, .none⟩,
  ⟨Reg.domHtblLoAddr, 1, .rw, .val 0x0, .d, .none⟩,
  ⟨Reg.domHtblHiAddr, 1, .rw, .val 0x0, .d, .none⟩,
  ⟨Reg.domSafeGuard, 1, .wo, .val 0x0, .c, .none⟩,
  ⟨Reg.domSafeGo, 1, .wo, .val 0, .c, .none⟩,
  ⟨Reg.domIrqStatusBulk, 1, .w1c, .val 0, .d, .none⟩,
  ⟨Reg.domIrqStatusRx, 1, .w1c, .val 0, .d, .none⟩,
  ⟨Reg.domIrqStatusToken, 1, .w1c, .val 0, .d, .none⟩,
  ⟨Reg.domIrqStatusRing, 1, .w1c, .val 0, .d, .none⟩,
  ⟨Reg.domIrqStatusPosChg, 1, .w1c, .val 0, .d, .none⟩,
  ⟨Reg.domIrqStatusStateChg, 1, .w1c, .val 0, .d, .none⟩,
  ⟨Reg.domIrqEnEn, 1, .rw, .val 0x0, .d, .none⟩,
  ⟨Reg.domTxBytes, 5, .rw, .val 0x0, .c, .none⟩,
  ⟨Reg.domTxCtlGo, 1, .w1s, .val 0, .c, .none⟩,
  ⟨Reg.domTxCtlPort, 1, .rw, .val 0x0, .c, .none⟩,
  ⟨Reg.domRxBytes, 5, .ro, .val 0x0, .c, .none⟩,
  ⟨Reg.domRxCtlPop, 1, .w1s, .val 0, .c, .none⟩,
  ⟨Reg.domRxCtlDropped, 1, .ro, .val 0x0, .d, .none⟩,
  ⟨Reg.domRxCtlCount, 1, .ro, .val 0x0, .c, .none⟩,
  ⟨Reg.domPortStatusUp, 32, .ro, .val 0, .d, .none⟩,
  ⟨Reg.domPortStatusFailed, 32, .ro, .val 0, .d, .none⟩,
  ⟨Reg.domPortStatusBroken, 32, .ro, .val 0, .d, .none⟩,
  ⟨Reg.domPortStatusLastHeard, 32, .ro, .val 0x0, .d, .none⟩,
  ⟨Reg.domPortStatusWorkers, 32, .ro, .val 0x0, .d, .none⟩,
  ⟨Reg.domPortStatusLinkdly, 32, .ro, .val 0x0, .d, .none⟩,
  ⟨Reg.domPortErrsCrc, 32, .ro, .val 0x0, .d, .none⟩,
  ⟨Reg.domPortErrsCode, 32, .ro, .val 0x0, .d, .none⟩,
  ⟨Reg.domPortErrsDowns, 32, .ro, .val 0x0, .p, .none⟩]

/-- The rows of the UPD window. -/
def updRows : List RegRow := [
  ⟨Reg.updStatusLock, 1, .ro, .undefined, .n, .none⟩,
  ⟨Reg.updStatusPendSlot, 1, .ro, .undefined, .n, .none⟩,
  ⟨Reg.updStatusPendState, 1, .ro, .undefined, .n, .none⟩,
  ⟨Reg.updStatusTrial, 1, .ro, .undefined, .n, .none⟩,
  ⟨Reg.updStatusActiveSlot, 1, .ro, .undefined, .n, .none⟩,
  ⟨Reg.updStatusReject, 1, .ro, .val 0x0, .d, .none⟩,
  ⟨Reg.updStatusSimErr, 1, .ro, .val 0x0, .d, .none⟩,
  ⟨Reg.updSlotState, 2, .ro, .undefined, .n, .none⟩,
  ⟨Reg.updSlotSecVer, 2, .ro, .undefined, .n, .none⟩,
  ⟨Reg.updSlotSetVer, 2, .ro, .undefined, .n, .none⟩,
  ⟨Reg.updTrialBoots, 1, .ro, .undefined, .n, .none⟩,
  ⟨Reg.updTrialMaxBoots, 1, .rw, .val 0x3, .n, .none⟩,
  ⟨Reg.updTrialElapsed, 1, .ro, .undefined, .n, .none⟩,
  ⟨Reg.updTrialWinS, 1, .rw, .val 0x258, .n, .none⟩,
  ⟨Reg.updConfirmGuard, 1, .wo, .val 0x0, .c, .none⟩,
  ⟨Reg.updConfirmGo, 1, .wo, .val 0, .c, .none⟩,
  ⟨Reg.updActAtLoUs, 1, .ro, .val 0x0, .d, .none⟩,
  ⟨Reg.updActAtHiUs, 1, .ro, .val 0x0, .d, .none⟩,
  ⟨Reg.updActCtlLateMs, 1, .rw, .val 0x1388, .d, .none⟩,
  ⟨Reg.updActCtlResult, 1, .ro, .val 0x0, .d, .none⟩,
  ⟨Reg.updActCtlLockIdleS, 1, .rw, .val 0x258, .d, .none⟩,
  ⟨Reg.updActTagTag, 1, .ro, .val 0x0, .d, .none⟩,
  ⟨Reg.updSetAddrLoAddr, 1, .rw, .val 0x0, .c, .none⟩,
  ⟨Reg.updSetAddrHiAddr, 1, .rw, .val 0x0, .c, .none⟩,
  ⟨Reg.updSetCmdGo, 1, .w1s, .val 0, .c, .none⟩,
  ⟨Reg.updSetStatusFormat, 1, .ro, .undefined, .n, .none⟩,
  ⟨Reg.updSetStatusDefaulted, 1, .ro, .undefined, .n, .none⟩,
  ⟨Reg.updSetStatusRestored, 1, .ro, .undefined, .n, .none⟩,
  ⟨Reg.updSetStatusMirrorPend, 1, .ro, .val 0, .d, .none⟩,
  ⟨Reg.updSetStatusResult, 1, .ro, .val 0x0, .c, .none⟩,
  ⟨Reg.updSetGenGen, 1, .ro, .undefined, .n, .none⟩,
  ⟨Reg.updWaveCtlEn, 1, .rw, .val 0, .d, .none⟩,
  ⟨Reg.updWaveCtlState, 1, .ro, .val 0x0, .d, .none⟩,
  ⟨Reg.updWaveCtlGroup, 1, .ro, .val 0x0, .d, .none⟩,
  ⟨Reg.updWaveCtlTargetVer, 1, .rw, .val 0x0, .d, .none⟩,
  ⟨Reg.updWaveTimeTimeoutS, 1, .rw, .val 0x708, .d, .none⟩,
  ⟨Reg.updWaveTimeSpacingS, 1, .rw, .val 0x12C, .d, .none⟩,
  ⟨Reg.updWaveAtLoUs, 1, .rw, .val 0x0, .d, .none⟩,
  ⟨Reg.updWaveAtHiUs, 1, .rw, .val 0x0, .d, .none⟩,
  ⟨Reg.updDevidLoId, 1, .ro, .undefined, .n, .none⟩,
  ⟨Reg.updDevidHiId, 1, .ro, .undefined, .n, .none⟩,
  ⟨Reg.updIrqStatusWave, 1, .w1c, .val 0, .d, .none⟩,
  ⟨Reg.updIrqStatusFallback, 1, .w1c, .val 0, .d, .none⟩,
  ⟨Reg.updIrqStatusTrial, 1, .w1c, .val 0, .d, .none⟩,
  ⟨Reg.updIrqStatusScheduled, 1, .w1c, .val 0, .d, .none⟩,
  ⟨Reg.updIrqStatusRejected, 1, .w1c, .val 0, .d, .none⟩,
  ⟨Reg.updIrqStatusDisplaced, 1, .w1c, .val 0, .d, .none⟩,
  ⟨Reg.updIrqStatusStaged, 1, .w1c, .val 0, .d, .none⟩,
  ⟨Reg.updIrqEnEn, 1, .rw, .val 0x0, .d, .none⟩]

/-- The rows of the REC window. -/
def recRows : List RegRow := [
  ⟨Reg.recHeadSeqSeq, 1, .ro, .undefined, .n, .none⟩,
  ⟨Reg.recStatusDropped, 1, .ro, .val 0x0, .p, .none⟩,
  ⟨Reg.recStatusWriting, 1, .ro, .val 0, .d, .none⟩,
  ⟨Reg.recStatusQueued, 1, .ro, .val 0x0, .d, .none⟩,
  ⟨Reg.recSevMin, 1, .rw, .val 0x2, .d, .none⟩,
  ⟨Reg.recPostHdrSeverity, 1, .rw, .val 0x0, .c, .none⟩,
  ⟨Reg.recPostHdrCode, 1, .rw, .val 0x0, .c, .none⟩,
  ⟨Reg.recPostDataData, 10, .rw, .val 0x0, .c, .none⟩,
  ⟨Reg.recPostCtlGo, 1, .w1s, .val 0, .c, .none⟩,
  ⟨Reg.recIrqStatusDrop, 1, .w1c, .val 0, .d, .none⟩,
  ⟨Reg.recIrqStatusSev, 1, .w1c, .val 0, .d, .none⟩,
  ⟨Reg.recIrqEnEn, 1, .rw, .val 0x0, .d, .none⟩]

/-- The rows of the PMU window. -/
def pmuRows : List RegRow := [
  ⟨Reg.pmuCtlClrAll, 1, .w1s, .val 0, .c, .none⟩,
  ⟨Reg.pmuCtlUserEn, 1, .rw, .val 0, .d, .none⟩,
  ⟨Reg.pmuCycleLoCyc, 1, .ro, .val 0x0, .p, .none⟩,
  ⟨Reg.pmuCycleHiCyc, 1, .ro, .val 0x0, .p, .none⟩,
  ⟨Reg.pmuOvfOvf, 1, .w1c, .val 0x0, .d, .none⟩,
  ⟨Reg.pmuIrqEnEn, 1, .rw, .val 0x0, .d, .none⟩,
  ⟨Reg.pmuRangeBaseLoAddr, 2, .rw, .val 0x0, .d, .none⟩,
  ⟨Reg.pmuRangeBaseHiAddr, 2, .rw, .val 0x0, .d, .none⟩,
  ⟨Reg.pmuRangeLimLoAddr, 2, .rw, .val 0x0, .d, .none⟩,
  ⟨Reg.pmuRangeLimHiAddr, 2, .rw, .val 0x0, .d, .none⟩,
  ⟨Reg.pmuEvselEn, 8, .rw, .val 0, .d, .none⟩,
  ⟨Reg.pmuEvselOvfIrq, 8, .rw, .val 0, .d, .none⟩,
  ⟨Reg.pmuEvselRange, 8, .rw, .val 0x0, .d, .none⟩,
  ⟨Reg.pmuEvselMode, 8, .rw, .val 0xF, .d, .none⟩,
  ⟨Reg.pmuEvselMaster, 8, .rw, .val 0xFF, .d, .none⟩,
  ⟨Reg.pmuEvselClass, 8, .rw, .val 0x0, .d, .none⟩,
  ⟨Reg.pmuEvselEvent, 8, .rw, .val 0x0, .d, .none⟩,
  ⟨Reg.pmuCntLoCount, 8, .rw, .val 0x0, .d, .none⟩,
  ⟨Reg.pmuCntHiCount, 8, .rw, .val 0x0, .d, .none⟩]

/-- The rows of the HVB window. -/
def hvbRows : List RegRow := [
  ⟨Reg.hvbStatusErrs, 1, .ro, .val 0x0, .d, .none⟩,
  ⟨Reg.hvbStatusLinkUp, 1, .ro, .val 0, .d, .none⟩,
  ⟨Reg.hvbStatusHb, 1, .ro, .val 0, .d, .none⟩,
  ⟨Reg.hvbStatusRetractLine, 1, .ro, .val 0, .d, .none⟩,
  ⟨Reg.hvbStatusHvFaultLine, 1, .ro, .val 0, .d, .none⟩,
  ⟨Reg.hvbStatusTripIn, 1, .ro, .val 0, .d, .none⟩,
  ⟨Reg.hvbStatusTripOut, 1, .ro, .val 0, .d, .none⟩,
  ⟨Reg.hvbCtlRetract, 1, .w1s, .val 0, .c, .none⟩,
  ⟨Reg.hvbRetrainsCount, 1, .ro, .val 0x0, .p, .none⟩,
  ⟨Reg.hvIdDevice, 1, .ro, .val 0x9A, .p, .none⟩,
  ⟨Reg.hvIdRev, 1, .ro, .undefined, .p, .none⟩,
  ⟨Reg.hvSupplyCharging, 1, .ro, .val 0, .p, .none⟩,
  ⟨Reg.hvSupplyBoostOn, 1, .ro, .val 0, .p, .none⟩,
  ⟨Reg.hvSupplyRectifying, 1, .ro, .val 0, .p, .none⟩,
  ⟨Reg.hvSupplyVmIsolated, 1, .ro, .val 0, .p, .none⟩,
  ⟨Reg.hvSupplyRailsOk, 1, .ro, .undefined, .p, .none⟩,
  ⟨Reg.hvFaultCauseCause, 1, .w1c, .val 0x0, .p, .none⟩,
  ⟨Reg.hvRetractActive, 2, .ro, .val 0, .p, .none⟩,
  ⟨Reg.hvRetractDone, 2, .ro, .val 0, .p, .none⟩,
  ⟨Reg.hvRetractTimeout, 2, .ro, .val 0, .p, .none⟩,
  ⟨Reg.hvRetractCause, 2, .ro, .val 0x0, .p, .none⟩,
  ⟨Reg.hvRetractPhase, 2, .ro, .val 0x0, .p, .none⟩]

/-- The rows of the PRE window. -/
def preRows : List RegRow := [
  ⟨Reg.preModeExpertWrIgnored, 1, .rw, .val 0x0, .d, .none⟩,
  ⟨Reg.preModeIdle, 1, .ro, .val 1, .c, .none⟩,
  ⟨Reg.preModeLevelPend, 1, .ro, .val 0, .d, .none⟩,
  ⟨Reg.preModeLevel, 1, .rw, .val 0, .d, .none⟩,
  ⟨Reg.preStatusPa1Fault, 1, .ro, .val 0, .d, .none⟩,
  ⟨Reg.preStatusPa0Fault, 1, .ro, .val 0, .d, .none⟩,
  ⟨Reg.preStatusPa1Head, 1, .ro, .val 0x0, .d, .none⟩,
  ⟨Reg.preStatusPa0Head, 1, .ro, .val 0x0, .d, .none⟩,
  ⟨Reg.preStatusPa1Mode, 1, .ro, .val 0x0, .d, .none⟩,
  ⟨Reg.preStatusPa0Mode, 1, .ro, .val 0x0, .d, .none⟩,
  ⟨Reg.preXferGo, 1, .w1s, .val 0, .c, .none⟩,
  ⟨Reg.preXferPa, 1, .xrw, .val 0, .c, .none⟩,
  ⟨Reg.preXferRd, 1, .xrw, .val 0, .c, .none⟩,
  ⟨Reg.preXferAddr, 1, .xrw, .val 0x0, .c, .none⟩,
  ⟨Reg.preXferData, 1, .xrw, .val 0x0, .c, .none⟩,
  ⟨Reg.preRdataValid, 1, .ro, .val 0, .c, .none⟩,
  ⟨Reg.preRdataErr, 1, .ro, .val 0, .c, .none⟩,
  ⟨Reg.preRdataData, 1, .ro, .val 0x0, .c, .none⟩,
  ⟨Reg.preHselModeAddr, 1, .xrw, .val 0x2, .d, .none⟩,
  ⟨Reg.preHselHselAddr, 1, .xrw, .val 0x1, .d, .none⟩,
  ⟨Reg.preClkDiv, 1, .xrw, .val 0x4, .d, .none⟩,
  ⟨Reg.preFaultLogPa1, 1, .ro, .val 0x0, .p, .none⟩,
  ⟨Reg.preFaultLogPa0, 1, .ro, .val 0x0, .p, .none⟩,
  ⟨Reg.preSetupIdxIndex, 1, .rw, .val 0x0, .c, .none⟩,
  ⟨Reg.preSetupDataValid, 1, .rw, .val 0, .n, .none⟩,
  ⟨Reg.preSetupDataAddr, 1, .rw, .val 0x0, .n, .none⟩,
  ⟨Reg.preSetupDataData, 1, .rw, .val 0x0, .n, .none⟩,
  ⟨Reg.preIrqStatusXferErr, 1, .w1c, .val 0, .d, .none⟩,
  ⟨Reg.preIrqStatusPa1Fault, 1, .w1c, .val 0, .d, .none⟩,
  ⟨Reg.preIrqStatusPa0Fault, 1, .w1c, .val 0, .d, .none⟩,
  ⟨Reg.preIrqStatusXferDone, 1, .w1c, .val 0, .d, .none⟩,
  ⟨Reg.preIrqEnEn, 1, .rw, .val 0x0, .d, .none⟩]

/-- The rows of the CRY window. -/
def cryRows : List RegRow := [
  ⟨Reg.cryModeExpertWrIgnored, 1, .rw, .val 0x0, .d, .none⟩,
  ⟨Reg.cryModeIdle, 1, .ro, .val 1, .c, .none⟩,
  ⟨Reg.cryModeLevelPend, 1, .ro, .val 0, .d, .none⟩,
  ⟨Reg.cryModeLevel, 1, .rw, .val 0, .d, .none⟩,
  ⟨Reg.cryStatusSlots, 1, .ro, .val 0x0, .d, .none⟩,
  ⟨Reg.cryStatusKeyWait, 1, .ro, .val 0, .c, .none⟩,
  ⟨Reg.cryStatusBusy, 1, .ro, .val 0, .c, .none⟩,
  ⟨Reg.crySlotIdxSlot, 1, .rw, .val 0x0, .c, .none⟩,
  ⟨Reg.crySlotStatusLoaded, 1, .ro, .val 0, .d, .none⟩,
  ⟨Reg.crySlotStatusSettings, 1, .ro, .val 0, .d, .none⟩,
  ⟨Reg.crySlotStatusUses, 1, .ro, .val 0x0, .d, .none⟩,
  ⟨Reg.cryNsKey0Ns4, 1, .xrw, .val 0xFF, .d, .none⟩,
  ⟨Reg.cryNsKey0Ns3, 1, .xrw, .val 0xFF, .d, .none⟩,
  ⟨Reg.cryNsKey0Ns2, 1, .xrw, .val 0xFF, .d, .none⟩,
  ⟨Reg.cryNsKey0Ns1, 1, .xrw, .val 0xFF, .d, .none⟩,
  ⟨Reg.cryNsKey1Ns8Ns5, 1, .xrw, .val 0xFFFFFFFF, .d, .none⟩,
  ⟨Reg.cryCounts0Units, 1, .ro, .val 0x0, .d, .none⟩,
  ⟨Reg.cryCounts1KeyEmpty, 1, .ro, .val 0x0, .d, .none⟩,
  ⟨Reg.cryCounts1Poison, 1, .ro, .val 0x0, .d, .none⟩,
  ⟨Reg.cryIrqStatusKeyEmpty, 1, .w1c, .val 0, .d, .none⟩,
  ⟨Reg.cryIrqStatusKeyDone, 1, .w1c, .val 0, .d, .none⟩,
  ⟨Reg.cryIrqStatusErr, 1, .w1c, .val 0, .d, .none⟩,
  ⟨Reg.cryIrqEnEn, 1, .rw, .val 0x0, .d, .none⟩]

/-- Every row, unit by unit in window order. -/
def regRows : List (List RegRow) :=
  [sysRows, simRows, angRows, bwkRows, srvRows, spnRows, astRows, rdcRows, ldpRows, oceRows, jnlRows, hstRows, rngRows, bcmRows, memRows, fltRows, calRows, ageRows, pwrRows, thmRows, rstRows, domRows, updRows, recRows, pmuRows, hvbRows, preRows, cryRows]

end Sys2Proof.Machine
end

