-- ==== Sys2Proof/Machine/State.lean ====
section
/-!
DEFINITION. The state of the Q9X block as plain data: the register file, the memories, and for each unit the state that
the spec gives it beside its registers; the queue of commands that wait; the three outcomes' reasons; the state after
reset. Every default value below is the value after POR.
-/

namespace Sys2Proof.Machine

/-- Faults. No command of this block stops the machine with a fault: a refused access completes with a bus error (R25), a
check that fails is reported in a register, and the block goes on. `unreachable` is raised by nobody (safe). -/
inductive Fault where
  | unreachable
  deriving DecidableEq, Repr

/-- Refusals. `notModelled` is answered by `exec` for a command without a meaning, by its name (safe). -/
inductive Refusal where
  | notModelled (mnemonic : String)
  deriving DecidableEq, Repr

/-- What the requester of the last register or memory access got back (R12, R25): nothing yet, a completion with the data
read (0 for a write), or a bus error. -/
inductive BusResp where
  | none
  | done (data : Nat)
  | busError
  deriving DecidableEq, Repr

/-- A thing that stands twice, once for each actuator, channel or sequencer. -/
structure Pair (α : Type) where
  a0 : α
  a1 : α
  deriving DecidableEq, Repr

/-- Instance `n` of a pair: 0 for 0, 1 for any other number. -/
def Pair.get {α : Type} (p : Pair α) (n : Nat) : α := if n = 0 then p.a0 else p.a1

/-- The pair with instance `n` replaced. -/
def Pair.set {α : Type} (p : Pair α) (n : Nat) (v : α) : Pair α := if n = 0 then { p with a0 := v } else { p with a1 := v }

/-! ## Recorder, faults, resets (spec/13, 16, 19) -/

/-- An event posted to REC (R510). -/
structure RecPost where
  source   : Nat
  severity : Nat
  code     : Nat
  payload  : List Byte
  warden   : Bool
  deriving DecidableEq, Repr

/-- The event recorder (R509, R510): the post queue, and the `REC_POST` registers, which stand apart for each bus
master (R520; key master × 65,536 + window offset). -/
structure Recorder where
  queue    : List RecPost := []
  postRegs : Store Word := []
  deriving DecidableEq, Repr

/-- The content of a machine-check record (R367), SEQ apart. -/
structure McRecord where
  cls      : Nat
  source   : Nat
  instance_ : Nat
  flags    : Nat
  code     : Nat
  int      : Nat
  angle    : Nat
  addr     : Nat
  opsec    : Nat
  deriving DecidableEq, Repr

/-- The warden pair (R376): running, being restarted after its first lockstep mismatch, or left in reset. -/
inductive Warden where
  | running | restarting | inReset
  deriving DecidableEq, Repr

/-- How far the entry into SAFE has come (R375). -/
inductive SafeStep where
  | none | begun | recorded
  deriving DecidableEq, Repr

/-- FLT beside its registers (spec/13_faults.md). -/
structure Flt where
  /-- the machine-check bank, word `8 * entry + word` (R367) -/
  bank       : Store Word := []
  /-- SEQ of the last record since POR -/
  seq        : Nat := 0
  /-- the fields captured at the detection of a device-fatal fault, until the warden writes them (R367) -/
  captured   : Option McRecord := none
  /-- harts whose PLIC contexts are masked (R371 step 1) -/
  plicMasked : Nat := 0
  safe       : SafeStep := .none
  /-- the CAUSE that the SAFE entry under way will leave in SYS_OPMODE -/
  safeCause  : Nat := 0
  warden     : Warden := .running
  mismatches : Nat := 0
  /-- roster bits of the unit-fatal faults of this power-on (R380) -/
  fatalPor   : List Nat := []
  /-- hart watchdogs that have been enabled by a first write (R382) -/
  wdogOn     : Nat := 0
  deriving DecidableEq, Repr

/-- A requested DRST and how far its stop window has come (R449). -/
structure Rst where
  /-- the source of the DRST under way, while PHASE is STOP or HOLD -/
  request    : Option Nat := none
  /-- the DRST follows a completed power-loss or trip sequence (R449) -/
  afterLoss  : Bool := false
  /-- the stop window ran, so R450 applies at B3 in place of R279 -/
  cleanStop  : Bool := false
  /-- a further request has merged with the one under way (R452) -/
  merged     : Bool := false
  deriving DecidableEq, Repr

/-- The boot phase (R33). `b1` waits for the memory fill, `b2` runs the warden's slot choice and the structure loader. -/
inductive BootPhase where
  | por | b1 | b2 | b3 | b4 | done
  deriving DecidableEq, Repr

/-! ## Angle and cadence (spec/03) -/

/-- ANG beside its registers. -/
structure Ang where
  /-- good, agreeing marks since ACQUIRE was entered (R78) -/
  acq         : Nat := 0
  /-- consecutive disagreeing marks in LOCKED (R78) -/
  bad         : Nat := 0
  /-- the predicted wedge of the marks that follow while INDEX_KNOWN is 0 (R78) -/
  predWedge   : Option Nat := none
  /-- the source switches at the other actuator's next mark (R78) -/
  switching   : Bool := false
  /-- REV as stored in MRAM (R79), class N -/
  revStored   : Nat := 0
  /-- operating seconds as stored in MRAM and in the last-gasp record (R91), class N -/
  opsecStored : Nat := 0
  opsecGasp   : Option Nat := none
  /-- both sequencers are told to stop taking planks (R84) -/
  hold        : Bool := false
  /-- the rung a change leaves (R84) -/
  origin      : Nat := 0
  /-- the change in progress is a RETURN (R84, R89) -/
  returning   : Bool := false
  /-- the ramp of the RETURN is over -/
  returnDown  : Bool := false
  /-- how long the RETURN ramp lasts, ms (R84) -/
  returnMs    : Nat := 0
  /-- the SETTLE condition of an expert change holds (R89) -/
  settled     : Bool := false
  /-- an expert RETUNE has completed (R89) -/
  retuned     : Bool := false
  /-- a host power-state trigger waits for the end of the rung change (R37, R88) -/
  powerPend   : Option Nat := none
  deriving DecidableEq, Repr

/-! ## Structure image (spec/02) -/

/-- A HEADMAP entry (R51). -/
structure HeadEntry where
  actuator : Nat
  paSelect : Nat
  surface  : Nat
  assist   : Nat
  readers  : Nat
  deriving DecidableEq, Repr

/-- A REGIONS entry (R52). -/
structure RegionEntry where
  surface    : Nat
  region     : Nat
  sectors    : Nat
  firstTrack : Nat
  trackCount : Nat
  preamble   : Nat
  pitch      : Nat
  deriving DecidableEq, Repr

/-- A HOSTLAYOUT namespace (R52). -/
structure NsEntry where
  actMask   : Nat
  lbafMask  : Nat
  csi       : Nat
  convZones : Nat
  deriving DecidableEq, Repr

/-- A LIMITS entry (R56). -/
structure LimitEntry where
  id      : Nat
  floor   : Bool
  ceiling : Bool
  value   : Nat
  deriving DecidableEq, Repr

/-- An entry point of a microprogram (R54): its instance (0 BWK0, 1 BWK1, 2 CE0, 3 CE1, 4 CE2), code and address. -/
structure EntryPoint where
  inst : Nat
  code : Nat
  addr : Nat
  deriving DecidableEq, Repr

/-- A microprogram of the image (R54): its instance, version and words. -/
structure MicroProg where
  inst    : Nat
  baseVer : Nat
  words   : List (BitVec 128)
  deriving DecidableEq, Repr

/-- A section body that goes unchanged into its unit's tables (R55): type, instance and bytes. -/
structure Body where
  type  : Nat
  inst  : Nat
  bytes : List Byte
  deriving DecidableEq, Repr

/-- What the structure image fixes from one DRST to the next (R43 to R56). Before the first load everything is zero. -/
structure Structure where
  role        : Nat := 0
  imageVer    : Nat := 0
  secVer      : Nat := 0
  keyId       : Nat := 0
  variantMin  : Nat := 0
  roster      : Nat := 0
  rdcOfPa     : Pair Nat := ⟨0, 1⟩
  ceOfAct     : Pair Nat := ⟨0, 1⟩
  astOfPa     : Pair Nat := ⟨0, 1⟩
  linkMap     : List Nat := []
  heads       : List HeadEntry := []
  w           : Nat := 0
  rungCount   : Nat := 0
  peatRings   : Nat := 0
  rungRpm     : List Nat := []
  tracks      : Nat := 0
  convTracks  : Nat := 0
  laggMin     : Nat := 0
  regions     : List RegionEntry := []
  mediumPi    : Nat := 0
  stripeG     : Nat := 0
  stripeP     : Nat := 0
  ldpcCode    : Nat := 0
  syncA       : Nat := 0
  syncB       : Nat := 0
  aToB        : Nat := 0
  postamble   : Nat := 0
  zoneSectors : Nat := 0
  portMode    : Nat := 0
  vfPerPf     : Nat := 0
  sqPool      : Nat := 0
  cqPool      : Nat := 0
  maxQEntries : Nat := 0
  ns          : List NsEntry := []
  cacheMib    : Nat := 0
  sideMib     : Nat := 0
  pendMib     : Nat := 0
  entries     : List EntryPoint := []
  progs       : List MicroProg := []
  limits      : List LimitEntry := []
  bodies      : List Body := []
  deriving DecidableEq, Repr

/-- SIM beside its registers: the image bytes being loaded, the slot they come from, and the structure in force. -/
structure Sim where
  image   : List Byte := []
  slot    : Nat := 3
  cfg     : Structure := {}
  deriving DecidableEq, Repr

/-- A word of a control store as the sequencer reads it: 128 bits, with its stored parity byte (R28). -/
structure CsWord where
  bits   : BitVec 128
  parity : BitVec 8
  deriving DecidableEq, Repr

/-- The five control stores (0 BWK0, 1 BWK1, 2 CE0, 3 CE1, 4 CE2), keyed instance × 8,192 + word, and their MRAM copies;
the parts of a word written but not yet committed, keyed instance × 8,192 × 4 + part (R28). An unlisted word is zero with
zero parity, as the fill of B1 leaves it. -/
structure ControlStores where
  words   : Store CsWord := []
  mram    : Store CsWord := []
  partial_ : Store Word := []
  deriving DecidableEq, Repr

/-! ## Work rings (spec/11) -/

/-- A request entry an engine has admitted: its slot, its bytes as read, and whether a word of it was poisoned or
uncorrectable (R328). -/
structure RingEntry where
  slot  : Nat
  bytes : List Byte
  bad   : Bool
  deriving DecidableEq, Repr

/-- A result on its way to a result ring. `entry`: it answers a request entry (a mailbox notice does not); `last`: that
entry ends its chain. -/
structure RingResult where
  bytes : List Byte
  entry : Bool
  last  : Bool
  deriving DecidableEq, Repr

/-- One ring pair beside its registers: the bases and sizes latched at its last enable (R332), the next request slot to
admit, the entries in progress, the results written since the consumer index last moved (R326), the holding buffer
(R330), and whether a chain is open (R327). -/
structure Ring where
  reqBase   : Nat := 0
  reqSize   : Nat := 0
  resBase   : Nat := 0
  resSize   : Nat := 0
  next      : Nat := 0
  inProg    : List RingEntry := []
  written   : Nat := 0
  hold      : List RingResult := []
  chainOpen : Bool := false
  deriving DecidableEq, Repr

/-! ## Boardwalk sequencers (spec/05) -/

/-- A plank as fetched (R121), with its ring slot, its resolved start angle (R130), the revolutions its chain had added
when it was fetched, and the status its fetch checks gave it, if any (R123). -/
structure Plank where
  slot     : Nat
  start    : Nat
  action   : Nat
  variant  : Nat
  direct   : Bool
  first    : Bool
  last     : Bool
  fence    : Bool
  irq      : Bool
  sg       : Bool
  head     : Nat
  psa      : Nat
  count    : Nat
  slack    : Nat
  dataPage : Nat
  metaAddr : Nat
  param    : Nat
  uaddr    : Nat
  tag      : Nat
  target   : Nat
  bad      : Option Nat
  deriving DecidableEq, Repr

/-- What a plank's result entry gathers while the plank runs (R139). -/
structure PlankRun where
  begun     : Bool := false
  revSlip   : Bool := false
  late      : Bool := false
  fenceWait : Bool := false
  held      : Bool := false
  lateArr   : Bool := false
  inbandEnd : Bool := false
  beginAt   : Nat := 0
  done      : Nat := 0
  good      : Nat := 0
  failFirst : Option Nat := none
  gateCause : Nat := 0
  aMiss     : Nat := 0
  slips     : Nat := 0
  syncMiss  : Nat := 0
  defects   : Nat := 0
  hdr       : Nat := 0
  iterMax   : Nat := 0
  decFail   : Nat := 0
  slipRevs  : Nat := 0
  /-- a READ that has touched its track: its result waits until every outcome is final (R236) -/
  reading   : Bool := false
  /-- READ sectors whose outcome is not final (R236) -/
  openReads : Nat := 0
  /-- the status with which the plank ends at the next slot boundary (R134, R143, R150) -/
  endWith   : Option Nat := none
  deriving DecidableEq, Repr

/-- A plank whose media work has ended and whose result entry is not yet written (R236): the status it ends with, the
full angle of its END in its frame, and whether it ends its chain. -/
structure DonePlank where
  plank  : Plank
  run    : PlankRun
  status : Nat
  endAt  : Nat
  ends   : Bool
  deriving DecidableEq, Repr

/-- A sector being written (R245): the user bytes as they go to the medium, its KIND, its key slot, and whether OCE takes
it. -/
structure SectorOut where
  stored : List Byte
  kind   : Nat
  key    : Nat
  accum  : Bool
  deriving DecidableEq, Repr

/-- BWKn beside its registers. -/
structure Bwk where
  cur        : Option Plank := none
  next       : Option Plank := none
  run        : PlankRun := {}
  /-- planks whose result is still to be written, in ring order (R236) -/
  done       : List DonePlank := []
  /-- the sector being written (R142) -/
  out        : Option SectorOut := none
  chainOpen  : Bool := false
  /-- the open chain has ended early: its remaining planks get CHAIN_SKIP (R137) -/
  chainEnded : Bool := false
  /-- revolutions the open chain has added (R136) -/
  chainRevs  : Nat := 0
  cnt0       : Nat := 0
  cnt1       : Nat := 0
  upc        : Nat := 0
  /-- index within the plank of the sector the slot generator stands at (R133) -/
  sector     : Nat := 0
  /-- the gate has fallen in this plank and stays low (R141) -/
  gateDown   : Bool := false
  /-- the begin of the current plank has been delayed by a hold (R135) -/
  wasHeld    : Bool := false
  /-- the sequencer began no plank since power loss, SAFE or RECOVERY entry, or a DRST stop (R155, R449) -/
  stopped    : Bool := false
  /-- addresses that have failed parity since DRST (R151) -/
  parityAt   : List Nat := []
  /-- the line that RELOAD is rewriting (R150) -/
  reloadLine : Nat := 0
  /-- entry points in force: image and patches (R54, R153) -/
  entries    : List EntryPoint := []
  /-- an ABORT is waiting for the sector boundary (R154) -/
  aborting   : Bool := false
  /-- COUNT of PHEAT: the assist level is held until the next WRITE or PROBE of the chain ends (R122) -/
  preheated  : Bool := false
  deriving DecidableEq, Repr
/-! ## Servo and spindle (spec/06) -/

/-- A neighbour notice in SRVn's queue (R178): neighbour index, amplitude, and the sample index since the seek's start. -/
structure Notice where
  k   : Nat
  amp : Int
  j   : Nat
  deriving DecidableEq, Repr

/-- SRVn beside its registers. -/
structure Srv where
  /-- position of the last sample processed, in 1/256 track position: measured, or the prediction POS carried (R173) -/
  pos        : Int := 0
  /-- back-EMF velocity of the last sample (R159) -/
  emf        : Int := 0
  /-- the state held before COAST (R173) -/
  coastFrom  : Nat := 3
  /-- missing samples in a row that count toward FALLBACK (R184) -/
  missRun    : Nat := 0
  /-- missing samples still exempt after a head switch (R184) -/
  exempt     : Nat := 0
  /-- consecutive good samples beyond FE_LIMIT (R180) -/
  feCount    : Nat := 0
  /-- consecutive position decisions of 1 in SETTLE (R173) -/
  settleRun  : Nat := 0
  /-- the last sample's track ID and bursts, where it may continue a run of identical samples, and how many repeats the
  run holds (R163) -/
  frozenKey  : Option (List Nat) := none
  frozenRun  : Nat := 0
  /-- consecutive good samples whose track IDs agree, and the last of these IDs (R182) -/
  reacqRun   : Nat := 0
  reacqTid   : Nat := 0
  /-- wedges since FALLBACK or LOADING was entered (R182) -/
  sinceEntry : Nat := 0
  /-- the gain set applied, none while no set applies (R175) -/
  set        : Option Nat := none
  /-- the error's sign that HOLD recorded (R177) -/
  holdSign   : Int := 0
  /-- a seek in progress: begun at a full angle of the device, over `seekDist` track positions, under `profile` (R184) -/
  seeking    : Bool := false
  seekFrom   : Nat := 0
  seekDist   : Nat := 0
  profile    : Nat := 0
  /-- the arrival angle posted (R185), and whether the arrival waits for the next sample boundary -/
  arrive     : Option Nat := none
  arrived    : Bool := false
  /-- the SETTLE plank's own run of decisions and its wedges (R185) -/
  plankRun   : Nat := 0
  plankWedges : Nat := 0
  /-- target head and track of a LOAD in progress, until FOLLOW (R186) -/
  loading    : Option (Nat × Nat) := none
  /-- LOADs of this boot's phase B4 that have begun (R193) -/
  bootLoads  : Nat := 0
  /-- notices queued (R178) -/
  notices    : List Notice := []
  /-- the outputs of the run before, which an overrun or a HALT leaves applied (R171) -/
  prevVcm    : Nat := 0
  prevMa     : Nat := 0
  /-- an instance that R172 or R379 has made unit-fatal enters FAILED once its retract is done (R173) -/
  fatal      : Bool := false
  deriving DecidableEq, Repr

/-- The control engines (R165), keyed engine × 64 + register and engine × 4,096 + word, and their flag bits as a mask. The
addresses that have failed parity since DRST are engine × 8,192 + address (R172). -/
structure Engines where
  regs     : Store Word := []
  mem      : Store Word := []
  flags    : Nat := 0
  parityAt : List Nat := []
  deriving DecidableEq, Repr

/-- SPN beside its registers. -/
structure Spn where
  /-- the rung a START named -/
  rung      : Nat := 0
  /-- the state held before ZC_COAST (R189) -/
  coastFrom : Nat := 5
  /-- missing crossings in a row (R189) -/
  missed    : Nat := 0
  /-- revolutions in a row out of tolerance (R190) -/
  offRevs   : Nat := 0
  /-- a CLEAR has been accepted and waits for the speed to fall below 300 rpm (R188) -/
  clearing  : Bool := false
  /-- the spindle coasts after DRST, at this speed in rpm when it is known (R451) -/
  coasting  : Bool := false
  /-- a BRAKE that START began on a coasting spindle passes to ALIGN (R451) -/
  brakeToAlign : Bool := false
  /-- a START waits for its power token or its staggered delay (R188) -/
  waiting   : Bool := false
  deriving DecidableEq, Repr

/-! ## Assist, preamp, calibration, ageing (spec/07, spec/14) -/

/-- ASTn beside its registers. -/
structure Ast where
  /-- the setpoint computed in the last sample, and the one sent in the frame before (R200, R202) -/
  u         : Nat := 0
  sentPrev  : Nat := 0
  /-- the integral contribution KI × s in codes × 2²⁴ (R204) -/
  integral  : Nat := 0
  /-- the head (PA_SELECT) and band latched with the set (R208) -/
  head      : Nat := 0
  band      : Nat := 0
  /-- the last frame sent and its sequence number (R198) -/
  frame     : Nat := 0
  seq       : Nat := 0
  /-- the state held before HOLD, and a DOWN event that arrived during it (R203) -/
  holdFrom  : Nat := 0
  downPend  : Bool := false
  /-- invalid samples in a row, and the cause of the last one (R201, R211) -/
  invalid   : Nat := 0
  cause     : Nat := 0
  /-- consecutive valid samples in the band and out of it (R205) -/
  inRun     : Nat := 0
  outRun    : Nat := 0
  /-- the proxy of the run of identical samples, if one is open, and its repeats (R202) -/
  frozen    : Option Nat := none
  frozenRun : Nat := 0
  /-- the step of the open-loop table, and the samples it still lasts (R211) -/
  olStep    : Nat := 0
  olLeft    : Nat := 0
  /-- OFF of the PROBE plank in progress (R215) -/
  probeOff  : Int := 0
  /-- the write-fault snapshot of this plank has been taken (R216) -/
  snapped   : Bool := false
  /-- gain sets (words 0 to 4,095) and open-loop records (from 4,096 on) in force, and the values that wait (R209) -/
  table     : Store Word := []
  tablePend : Store (Option Word) := []
  /-- ceiling entries in force and waiting, in the layout of ASTn_TBL_DATA, as offsets from the reset value 0x0FFF_0FFF: an
  unlisted entry is 0x0FFF_0FFF (R209) -/
  ceil      : Store Word := []
  ceilPend  : Store (Option Word) := []
  deriving DecidableEq, Repr

/-- A preamp transaction queued in PRE (R220): a raw one of firmware, or a write of a strobe or the setup replay. -/
structure PreXfer where
  pa   : Nat
  read : Bool
  addr : Nat
  data : Nat
  raw  : Bool
  deriving DecidableEq, Repr

/-- PRE beside its registers: the queue of transactions, the setup tables (R221; preamp × 64 + entry, layout of
PRE_SETUP_DATA), and the preamps whose line is still low. -/
structure Pre where
  queue : List PreXfer := []
  setup : Store Word := []
  replaying : Nat := 0
  deriving DecidableEq, Repr

/-- A run request in CAL's queue of a group: the instance (R391, R392). -/
structure CalReq where
  group : Nat
  inst  : Nat
  deriving DecidableEq, Repr

/-- A media window in progress (R393): the group, the head, the surface or head index measured. -/
structure CalWindow where
  group : Nat
  head  : Nat
  deriving DecidableEq, Repr

/-- CAL beside its registers (R384 to R396), keyed by QID. -/
structure Cal where
  factory  : Store Int := []
  run      : Store Int := []
  runValid : Store Bool := []
  overlay  : Store Int := []
  staged   : Store (Option Int) := []
  eff      : Store Int := []
  satAt    : Store Bool := []
  clampAt  : Store Bool := []
  /-- groups whose new effective values wait for the boundary (R394) -/
  applyPend : Nat := 0
  queue    : List CalReq := []
  running  : List CalReq := []
  /-- the mean setpoint of the last PROBE plank on a head and band, index head × 8 + band (R396) -/
  probeU   : Store Nat := []
  /-- sum and count of the setpoints of the PROBE in progress, per actuator -/
  probeAcc : Pair (Nat × Nat) := ⟨(0, 0), (0, 0)⟩
  deriving DecidableEq, Repr

/-- What AGE has measured since the last evaluation and keeps outside the ledger (R397). -/
structure Age where
  /-- sum and count of LEVEL setpoints with LIMITER 0, index head × 8 + band -/
  level    : Store (Nat × Nat) := []
  /-- ITER histogram of GOOD sectors, index (head × 32 + region) × 16 + bin, and sectors read per cell -/
  iterHist : Store Nat := []
  sectors  : Store Nat := []
  /-- sum and count of the magnitudes of captured LLRs per cell -/
  soft     : Store (Nat × Nat) := []
  /-- sum and count of the burst means of good samples, times 4, index head × 32 + region -/
  burst    : Store (Nat × Nat) := []
  /-- the last evaluation's operating seconds -/
  lastEval : Nat := 0
  /-- next entry of the history ring -/
  history  : Nat := 0
  deriving DecidableEq, Repr


/-! ## Read channel, decoders, outer code (spec/08) -/

/-- RDCn beside its registers (R228 to R255). -/
structure Chan where
  /-- the sequencer that holds the channel, and the one granted last: a first grant goes to BWK0 (R249, R251) -/
  granted  : Option Nat := none
  last     : Nat := 1
  /-- the sequencers whose plank waits for the channel (R249) -/
  waiting  : List Nat := []
  /-- the bit clock has lost lock (R373) -/
  unlocked : Bool := false
  /-- profile words in force and staged: none is the basic table's word (R239, R252) -/
  prof     : Store (Option Word) := []
  profPend : Store (Option Word) := []
  /-- equalizer start taps in force and staged: none is the pass-through value (R253) -/
  eq       : Store (Option Word) := []
  eqPend   : Store (Option Word) := []
  /-- expert register writes that wait for the next plank gap, by address (R252) -/
  regPend  : Store (Option Word) := []
  /-- the frame emitted last: its bits, in the order of R102 -/
  frame    : List Bool := []
  deriving DecidableEq, Repr

/-- A codeword in a buffer of a fast decoder (R235): the plank it belongs to, with its index in the plank, what the channel
saw, the profile in force and its LLRs. -/
structure Codeword where
  bwk     : Nat
  plank   : Plank
  idx     : Nat
  angle   : Nat
  events  : Nat
  drop    : Nat
  decoder : Nat
  iterMax : Nat
  pass    : Nat
  llrs    : List Int
  deriving DecidableEq, Repr

/-- A deep job in progress (R242): the status it has been given, if any, the captures used, and their summed LLRs. -/
structure DeepJob where
  status : Option Nat
  used   : Nat
  llrs   : List Int
  deriving DecidableEq, Repr

/-- LDP beside its registers: codewords in progress, oldest first, and the deep job. -/
structure Ldp where
  words : List Codeword := []
  deep  : Option DeepJob := none
  deriving DecidableEq, Repr

/-- An OCE accumulator (R245): the stored user bytes of the data sectors taken so far, and the parity sectors written. -/
structure OceAcc where
  data : List (List Byte) := []
  j    : Nat := 0
  deriving DecidableEq, Repr

/-- OCE beside its registers: the accumulators, and the job in progress with the status and the outputs it will report. -/
structure Oce where
  acc : Pair OceAcc := ⟨{}, {}⟩
  job : Option (Nat × Nat) := none
  deriving DecidableEq, Repr

/-- A key operation that waits for its slot (R334): the slot, and the key bytes (none clears). -/
structure KeyOp where
  slot : Nat
  key  : List Byte
  deriving DecidableEq, Repr

/-- CRY beside its registers (R334 to R336): the key slots (an empty list is an empty slot), the slots loaded from settings,
data units processed per slot, the job whose result is due (status and DONE), the hash chain's bytes, whether a chain is
open, is a HASH chain, has failed, and the key operation that waits. -/
structure Cry where
  keys      : Store (List Byte) := []
  settings  : List Nat := []
  uses      : Store Nat := []
  job       : Option (Nat × Nat) := none
  hash      : List Byte := []
  chain     : Bool := false
  hashing   : Bool := false
  failed    : Bool := false
  wait      : Option KeyOp := none
  deriving DecidableEq, Repr

/-! ## Block cache and memory checks (spec/12) -/

/-- A cached line (R342): its tag, PINNED, the states of its 16 sectors (0 INVALID, 1 VALID, 2 DIRTY, 3 FILLING), its
frame, where it is held (0 in a way of its set, 1 in the eviction structure, 2 in a read-ahead frame, 3 in a transient
frame that no lookup finds), its way, when it was used last and when it entered the eviction structure. -/
structure Line where
  la     : Nat
  pinned : Bool
  sect   : List Nat
  frame  : Nat
  place  : Nat
  way    : Nat
  used   : Nat
  since  : Nat
  deriving DecidableEq, Repr

/-- A staged frame of a write (R346): the command's tag, the line, its frame, the sectors staged, and the state they are to
take once the write is DONE (0 while it is not). -/
structure Staged where
  tag   : Nat
  la    : Nat
  frame : Nat
  mask  : Nat
  ready : Nat
  deriving DecidableEq, Repr

/-- An entry of the request FIFO (R346). -/
structure BcmReq where
  ahead : Bool
  la    : Nat
  mask  : Nat
  frame : Nat
  deriving DecidableEq, Repr

/-- An operation of an op slot that is in progress (R343). -/
structure SlotOp where
  slot : Nat
  op   : Nat
  la   : Nat
  mask : Nat
  deriving DecidableEq, Repr

/-- BCM beside its registers. `wayFrame`: the frame of a free way where it is not the one of its place, keyed set × 16 +
way; `ops`: operations in GO order; `streams`: namespace and end LBA of the last reads. -/
structure Bcm where
  lines    : List Line := []
  wayFrame : Store (Option Nat) := []
  staged   : List Staged := []
  fifo     : List BcmReq := []
  ops      : List SlotOp := []
  clock    : Nat := 0
  streams  : List (Nat × Nat) := []
  deriving DecidableEq, Repr

/-- A tracker entry (R355). -/
structure Tracked where
  array : Nat
  addr  : Nat
  count : Nat
  wb    : Bool
  deriving DecidableEq, Repr

/-- A repair candidate (R356, R357): array, address, and state 0 PENDING, 1 REPAIRED, 2 FAILED. -/
structure Candidate where
  array : Nat
  addr  : Nat
  state : Nat
  deriving DecidableEq, Repr

/-- MEM beside its registers: words with an error stored (1 correctable, 2 uncorrectable) by base, the tracker in order of
entry, the pinned rows (array, row), the candidates (class N), and the word the scrubber visits next in each array. -/
structure Mem where
  err     : Store Nat := []
  tracker : List Tracked := []
  pinned  : List (Nat × Nat) := []
  cands   : List Candidate := []
  scrub   : List Nat := [0x08000000, 0x800000000, 0x10000000]
  deriving DecidableEq, Repr

/-! ## Host interface (spec/10) -/

/-- A completion that is ready (R308, R309): controller, submission queue, command identifier, status field, dwords 0 and 1,
and the tag of the intent record to be freed, where there is one. -/
structure Cqe where
  fn     : Nat
  sqid   : Nat
  cid    : Nat
  status : Nat
  dw0    : Nat
  dw1    : Nat
  tag    : Option Nat
  deriving DecidableEq, Repr

/-- The MRAM shadow of a submission queue (R290, R308); queue 0 is the admin queue. -/
structure SubQ where
  fn   : Nat
  qid  : Nat
  base : Nat
  size : Nat
  cq   : Nat
  prio : Nat
  head : Nat
  tail : Nat
  deriving DecidableEq, Repr

/-- The MRAM shadow of a completion queue (R308, R309), with the pending list and the completions that its vector has not
been signalled for. -/
structure CompQ where
  fn     : Nat
  qid    : Nat
  base   : Nat
  size   : Nat
  vector : Nat
  ien    : Bool
  head   : Nat
  tail   : Nat
  phase  : Bool
  pend   : List Cqe
  agg    : Nat
  deriving DecidableEq, Repr

/-- A controller that is enabled (R287): its arbitration (CC.AMS), the I/O queues granted, outstanding Asynchronous Event
Requests and Aborts, the events queued for report, and its features by identifier (vector features: FID + 256 × vector). -/
structure Ctrl where
  fn       : Nat
  ams      : Nat
  sqGrant  : Nat
  cqGrant  : Nat
  nsMask   : Nat
  aers     : List Nat
  events   : List Nat
  aborts   : Nat
  features : Store Nat
  deriving DecidableEq, Repr

/-- An I/O command in the overlap order (R304). `status`: the status it will complete with; `done`: its record is DONE;
`laid`: sectors counted under R266 condition 1; `safe`: sectors protected (R264); `given`: sectors given to the host;
`fetched`: the write's data is staged; `ended`: no completion is owed (R454); `target`:
where the next Peat record of the command goes, as (surface, ring, ring slot) (R261); `owner`: the hart HST
delivered it to (R371). -/
structure HostCmd where
  tag     : Nat
  fn      : Nat
  sqid    : Nat
  cid     : Nat
  opc     : Nat
  ns      : Nat
  slba    : Nat
  nlb     : Nat
  sqe     : List Byte
  seq     : Nat
  alba    : Nat
  status  : Option Nat
  done    : Bool
  begun   : Bool
  fetched : Bool
  direct  : Bool
  twin    : Bool
  laid    : List Nat
  safe    : List Nat
  given   : List Nat
  faults  : Nat
  ended   : Bool
  target  : Option (Nat × Nat × Nat)
  owner   : Nat
  deriving DecidableEq, Repr

/-- A post latch (R308): the queue, the slot, the phase and the completion. -/
structure Latch where
  cq    : Nat
  slot  : Nat
  phase : Bool
  cqe   : Cqe
  deriving DecidableEq, Repr

/-- A zone (R301): its state, coded as the command set codes it (1 Empty, 2 Implicitly Open, 3 Explicitly Open, 4 Closed,
13 Read Only, 14 Full, 15 Offline), its write pointer in sectors from the zone's start, and Reset Zone Recommended. -/
structure Zone where
  state  : Nat := 1
  wp     : Nat := 0
  resetRec : Bool := false
  deriving DecidableEq, Repr

/-- A namespace's format (R298): LBA format and protection type. -/
structure NsFormat where
  lbaf : Nat := 0
  pi   : Nat := 0
  deriving DecidableEq, Repr

/-- An Error Information entry (R311). -/
structure ErrEntry where
  sqid   : Nat
  cid    : Nat
  status : Nat
  lba    : Nat
  ns     : Nat
  deriving DecidableEq, Repr

/-- The outcome of the last admin or sideband command that firmware or the warden carried out: controller, status field,
dword 0, and the data it returns. -/
structure Reply where
  fn     : Nat := 0
  status : Nat := 0
  dw0    : Nat := 0
  data   : List Byte := []
  deriving DecidableEq, Repr

/-- HST beside its registers. `admin`: admin commands fetched and not posted, as (function, CID); `device`, `saved`: device-wide
features, current and saved by identifier; `apst`, `savedApst`: APST entries by power state; `quotas`, `weights`: by function, as stored words; `zones`: key namespace × 2²⁴ + zone; `changed`: Changed Zone
List as (namespace, zone); `blocked`: namespaces under Format NVM, and 0 for Sanitize; `ps`: the state the host selected,
`psOp`: the last operational one; `sent`: bytes the last command wrote to host memory, as (function, bytes);
`signalled`: the vector signalled last. -/
structure Hst where
  ctrls     : List Ctrl := []
  sqs       : List SubQ := []
  cqs       : List CompQ := []
  cmds      : List HostCmd := []
  latches   : List (Option Latch) := [none, none, none, none]
  admin     : List (Nat × Nat) := []
  paused    : Bool := false
  device    : Store Nat := []
  apst      : Store Nat := []
  saved     : Store (Option Nat) := []
  savedApst : Store Nat := []
  quotas    : Store (Option Word) := []
  weights   : Store Nat := []
  nsMasks   : Store (Option Nat) := []
  zones     : Store Zone := []
  changed   : List (Nat × Nat) := []
  formats   : Store NsFormat := []
  blocked   : List Nat := []
  sanitized : Nat := 0
  errors    : List ErrEntry := []
  errCount  : Nat := 0
  ps        : Nat := 0
  psOp      : Nat := 0
  idleStep  : Nat := 0
  reply     : Reply := {}
  mi        : Store Nat := []
  miStatus  : Nat := 0
  sent      : List Byte := []
  signalled : Option (Nat × Nat) := none
  deriving DecidableEq, Repr

/-! ## Journal (spec/09) -/

/-- A Peat ring entry of the index (R277): head and tail slots in the ring. -/
structure PeatRing where
  head : Nat := 0
  tail : Nat := 0
  deriving DecidableEq, Repr

/-- A record on the medium in ring order (R263): the surface and ring, the ring slot of its header, its length in slots, and
its extent (none once freed). -/
structure PeatRecord where
  surface : Nat
  ring    : Nat
  slot    : Nat
  len     : Nat
  live    : Bool
  deriving DecidableEq, Repr

/-- An index extent (R277): state 1 LIVE, 2 FOLDING, 3 TWIN (FREE ones are not listed). `home`: sectors of its fold that are
written. -/
structure Extent where
  idx     : Nat
  state   : Nat
  ns      : Nat
  slba    : Nat
  nlb     : Nat
  seq     : Nat
  head    : Nat
  surface : Nat
  ring    : Nat
  slot    : Nat
  len     : Nat
  zeroes  : Bool
  home    : List Nat
  deriving DecidableEq, Repr

/-- An active band of the index (R277): namespace and zone, WP and ACK_WP in band slots, state 1 active, 2 read-only. -/
structure Band where
  ns    : Nat
  zone  : Nat
  wp    : Nat
  ackWp : Nat
  state : Nat
  deriving DecidableEq, Repr

/-- A saved accumulator of the index (R277, R279): namespace, zone, group, and the sectors taken. -/
structure SavedAcc where
  ns    : Nat
  zone  : Nat
  group : Nat
  acc   : OceAcc
  deriving DecidableEq, Repr

/-- A Peat record whose payload is still being written (R261, R262): its header's place and fields, and the payload sectors
still to come. -/
structure OpenRecord where
  head    : Nat
  surface : Nat
  ring    : Nat
  slot    : Nat
  flags   : Nat
  ns      : Nat
  seq     : Nat
  slba    : Nat
  nlb     : Nat
  payload : Nat
  left    : Nat
  deriving DecidableEq, Repr

/-- The stripe group a sequencer is laying (R109, R266): its namespace, the WRITE_SEQ and LBA of each data sector laid, and
the parity sectors laid. -/
structure OpenGroup where
  ns     : Nat := 0
  data   : List (Nat × Nat) := []
  parity : Nat := 0
  deriving DecidableEq, Repr

/-- JNL beside its registers. `seqStored` and the index (rings, records, extents, bands, saved accumulators) are held in
MRAM, class N. `restart`: where the rewrite of a faulted band begins, per BWK: namespace, zone and band slot, and whether the
preceding track is to be read first (R269). `twins`: tags whose twin record has been issued (R264). -/
structure Jnl where
  seqStored  : Nat := 0
  rings      : Store PeatRing := []
  records    : List PeatRecord := []
  extents    : List Extent := []
  bands      : List Band := []
  saved      : Pair (Option SavedAcc) := ⟨none, none⟩
  open_      : Pair (Option OpenRecord) := ⟨none, none⟩
  group      : Pair OpenGroup := ⟨{}, {}⟩
  restart    : Pair (Option (Nat × Nat × Nat × Bool)) := ⟨none, none⟩
  twins      : List Nat := []
  needReplay : Bool := false
  deriving DecidableEq, Repr

/-! ## Modes and power (spec/01, spec/15, spec/16) -/

/-- A mode change under way (R34, R37): its target and CAUSE; `unloading`: the heads have begun to unload; `wake`: a media
command came after that, so the device leaves at once for SERVICE with CAUSE 0x13. -/
structure ModeChange where
  mode      : Nat
  cause     : Nat
  unloading : Bool := false
  wake      : Bool := false
  deriving DecidableEq, Repr

/-- The steps of a power loss (R425): none; detected; the gates low and the retracts begun; the cores held; the last-gasp record
written; the rails down. -/
inductive LossStep where
  | none | detected | retracting | held | recorded | down
  deriving DecidableEq, Repr

/-- PWR beside its registers: the step of a power loss, what the last-gasp record keeps of its detection (R429), whether the
supplies are back (R426); VM has reached 10.5 V since POR release (R539); a hold-up test is under way (R428); a thermal trip,
and the logic die held after it (R439). -/
structure Pwr where
  step      : LossStep := .none
  vm        : Nat := 0
  vl        : Nat := 0
  gates     : Nat := 0
  angle     : Nat := 0
  returned  : Bool := false
  vmArrived : Bool := false
  testing   : Bool := false
  tripped   : Bool := false
  dieHeld   : Bool := false
  deriving DecidableEq, Repr

/-- A group's temperature at a time in milliseconds (R433). -/
structure GroupTemp where
  group : Nat
  ms    : Nat
  temp  : Int
  deriving DecidableEq, Repr

/-- THM beside its registers: group temperatures of the last second, since when a group has risen too fast (R433), which
feature 04h thresholds are exceeded, as (function, key) (R434), what caused the last ENFORCE (1 TMT1, 2 TMT2), and the counts
and times of page 02h, in milliseconds (R438). -/
structure Thm where
  hist    : List GroupTemp := []
  rising  : Store (Option Nat) := []
  above   : List (Nat × Nat) := []
  cause   : Nat := 0
  counts  : Pair Nat := ⟨0, 0⟩
  times   : Pair Nat := ⟨0, 0⟩
  sampled : Nat := 0
  deriving DecidableEq, Repr

/-! ## Domain (spec/17) -/

/-- A frame given to a transmit lane (R467): logical port, reverse lane, CLASS, TYPE, HOPS, SRC, DST, payload. -/
structure DomOut where
  port    : Nat
  reverse : Bool
  cls     : Nat
  type    : Nat
  hops    : Nat
  src     : Nat
  dst     : Nat
  payload : List Byte
  deriving DecidableEq, Repr

/-- A bulk stream that this device sends (R480): stream, receiver, the range asked for, how far it has come, and how often the
block in flight has been resent. -/
structure Bulk where
  stream : Nat
  dst    : Nat
  offset : Nat
  len    : Nat
  done   : Nat
  tries  : Nat
  deriving DecidableEq, Repr

/-- DOM beside its registers. `sent`: frames given to the transmit lanes since the last domain command; `rx`: the receive FIFO
(R483), 20 bytes a frame; `missed`: SYNC frames missing in a row; `close`: SYNC frames within 1 µs in a row (R474);
`stepNext`: the next SYNC carries STEP (R473); `safeLeft`: copies of SAFE still to be sent (R481); `wait`, `held`: token
requests in order of arrival and tokens out, as (device ID, SEQ), the manager's own as ID 0 (R478); `asked`, `answered`, `fallback`,
`holding`: where this device's own request stands; `reqSeq`: its SEQ; `bulk`: the stream it sends; `block`: the bytes received of
the block of stream 2 in progress, and the offset of the block; `enumOut`, `syncOut`: masks of the manager's ports whose last ENUM
or SYNC has not come back. -/
structure Dom where
  sent     : List DomOut := []
  rx       : List (List Byte) := []
  missed   : Nat := 0
  close    : Nat := 0
  stepNext : Bool := false
  safeLeft : Nat := 0
  wait     : List (Nat × Nat) := []
  held     : List (Nat × Nat) := []
  asked    : Bool := false
  answered : Bool := false
  fallback : Bool := false
  holding  : Bool := false
  reqSeq   : Nat := 0
  bulk     : Option Bulk := none
  block    : List Byte := []
  blockAt  : Nat := 0
  enumOut  : Nat := 0
  syncOut  : Nat := 0
  deriving DecidableEq, Repr

/-! ## Update (spec/18) -/

/-- Fuses (R59, R60): masks of the customer key slots that are programmed and revoked (bit k − 1 for slot k), their key hashes by
slot, and the anti-rollback count. -/
structure Fuses where
  programmed : Nat := 0
  revoked    : Nat := 0
  hashes     : Store (List Byte) := []
  arb        : Nat := 0
  deriving DecidableEq, Repr

/-- Uandonak's task registers (R504): the command that runs, STATUS (state, error code, blocks done), the arguments, the buffers,
the slot open for staging, the baud selection, the last answer on the service port; `result`: the outcome of the command that runs,
as (OK, error code). -/
structure Uan where
  cmd    : Nat := 0
  state  : Nat := 0
  error  : Nat := 0
  blocks : Nat := 0
  args   : List Nat := [0, 0, 0, 0]
  input  : List Byte := []
  output : List Byte := []
  open_  : Option Nat := none
  baud   : Nat := 0
  reply  : List Byte := []
  result : Option (Bool × Nat) := none
  deriving DecidableEq, Repr

/-- An authentication at the end of staging (R489, R493, R494): the slot, the source, whether a pass arms the set, and the
function whose Commit it answers. -/
structure UpdAuth where
  slot   : Nat
  source : Nat
  arm    : Bool
  fn     : Nat
  deriving DecidableEq, Repr

/-- What the settings hold in records whose layout the spec does not give (R501): saved features, APST, namespace masks,
namespace keys by slot. -/
structure Held where
  saved     : Store (Option Nat) := []
  savedApst : Store Nat := []
  nsMasks   : Store (Option Nat) := []
  keys      : Store (List Byte) := []
  deriving DecidableEq, Repr

/-- UPD beside its registers. `nor`: the QSPI NOR's two slots as bytes by offset, an erased byte reading 0xFF; `mirror`: the
settings mirror; `fuses`: the fuses as read at B2, `blown`: as they stand; `pieces`: offsets and lengths that the host has staged; `blocks`: blocks of stream 2 acknowledged; `key`: the set on
the service key as found at B2; `begun`: B2 has begun its work; `source`: what B2 loads from (0 A, 1 B, 2 the key), `onTrial`, and the sources that have failed in
this boot; `keyRun`: the running set is the service key's; `event`: the host's notice waits to be read; `displaced`: a host displaced by Uandonak is
told at the next SERVICE (R505); `groups`, `workers`, `done`: what remains of the waves (R496), and whether the wave in
progress has succeeded, and the moment of the last success; `auth`: the authentication under way; `origin`: the source of the set
that was staged last; `fellBack`: a trial has failed since the last set was loaded; `keys`: the namespace keys that settings hold;
`sealed`: what settings held when the last trial boot sealed them (R502). -/
structure Upd where
  nor       : Store Byte := []
  mirror    : List Byte := []
  fuses     : Fuses := {}
  pieces    : List (Nat × Nat) := []
  blocks    : Nat := 0
  key       : List Byte := []
  source    : Option Nat := none
  begun     : Bool := false
  onTrial   : Bool := false
  keyRun    : Bool := false
  blown     : Fuses := {}
  tried     : List Nat := []
  event     : Bool := false
  displaced : Bool := false
  groups    : List Nat := []
  workers   : List Nat := []
  waveAt    : Nat := 0
  done      : Bool := false
  uan       : Uan := {}
  auth      : Option UpdAuth := none
  origin    : Nat := 0
  fellBack  : Bool := false
  keys      : Store (List Byte) := []
  sealed    : Held := {}
  deriving DecidableEq, Repr

/-! ## The whole state -/

/-- The state of the block. -/
structure State where
  /-- every register of the map, by address (RegMap.lean) -/
  regs     : Store Word := []
  /-- memory: boot ROM, SRAM, MRAM and DRAM bytes by address; an unlisted byte reads 0 (notes/assumptions/4.md) -/
  mem      : List Host.Cell := []
  /-- bases of the protected words whose check bits are the poison value (R352) -/
  poison   : List Nat := []
  /-- halves of register pairs written and not yet effective, per bus master (R13) -/
  loHalf   : Store (Option Word) := []
  /-- latched high halves of register pairs, per bus master (R13) -/
  hiLatch  : Store (Option Word) := []
  /-- what the last access returned to its requester -/
  resp     : BusResp := .none
  /-- the model's own counter of free values taken (notes/assumptions/2.md) -/
  free     : Nat := 0
  boot     : BootPhase := .b1
  recorder : Recorder := {}
  flt      : Flt := {}
  rst      : Rst := {}
  ang      : Ang := {}
  sim      : Sim := {}
  cs       : ControlStores := {}
  rings    : List Ring := [{}, {}, {}, {}, {}, {}, {}]
  bwk      : Pair Bwk := ⟨{}, {}⟩
  srv      : Pair Srv := ⟨{}, {}⟩
  ce       : Engines := {}
  spn      : Spn := {}
  ast      : Pair Ast := ⟨{}, {}⟩
  pre      : Pre := {}
  cal      : Cal := {}
  age      : Age := {}
  chan     : Pair Chan := ⟨{}, {}⟩
  ldp      : Ldp := {}
  oce      : Oce := {}
  cry      : Cry := {}
  bcm      : Bcm := {}
  memc     : Mem := {}
  hst      : Hst := {}
  jnl      : Jnl := {}
  /-- the mode change under way, if any (R34, R37) -/
  change   : Option ModeChange := none
  /-- units that STANDBY has power-gated (R457): 0 and 1 BWK, 2 and 3 SRV, 4 SPN, 5 and 6 AST, 7 and 8 RDC; and the register
  words shadowed for them (R458) -/
  gated    : List Nat := []
  shadow   : Store Word := []
  pwr      : Pwr := {}
  thm      : Thm := {}
  dom      : Dom := {}
  upd      : Upd := {}
  /-- the commands that wait, first in, first out -/
  pending  : List Instr := []
  deriving DecidableEq, Repr

/-- Register words after the reset that clears every class: the Reset column of each row, element by element. -/
def resetWords : Store Word :=
  regRows.foldl (fun m rows => rows.foldl (fun m r =>
    match r.reset with
    | .val v => if v = 0 then m else (List.range r.count).foldl (fun m i => Store.setFld m (r.fld.elem i) v) m
    | _ => m) m) []

/-- Registers whose value at POR the model names though the Reset column gives none (notes/assumptions/1.md): the fitted
DRAM of the reference stack (R5), and the rails that are good once POR is released (R417). -/
def resetOpen : List (Fld × Nat) := [(Reg.sysIdDram, 3), (Reg.pwrStatusRailsOk, 0x1F), (Reg.pwrStatusVlOk, 1)]

/-- The machine right after POR: every register at its reset value, memories empty, mode BOOT at the start of B1. -/
def State.reset : State := { regs := resetOpen.foldl (fun m e => Store.setFld m e.1 e.2) resetWords }

end Sys2Proof.Machine
end

