-- ==== Sys2Proof/Machine/Ops.lean ====
section
/-!
DEFINITION. The named operations over registers and memory, and the two records that every unit writes: the corrected
event and the recorder post. Register rules are R12 to R17 (spec/00_scope.md); recorder posts are R510 and R513
(spec/19_recorder_counters.md); performance events are R514 to R516.
-/

namespace Sys2Proof.Machine

/-! ## Registers -/

/-- The register word at an address. -/
def State.rdWord (s : State) (a : Nat) : Word := Store.read 0 s.regs a

/-- The state with a whole register word replaced. -/
def State.wrWord (s : State) (a : Nat) (w : Word) : State := { s with regs := Store.write 0 s.regs a w }

/-- The value of a register field. -/
def State.rd (s : State) (f : Fld) : Nat := Store.field s.regs f

/-- The state with a register field written by the hardware. -/
def State.wr (s : State) (f : Fld) (v : Nat) : State := { s with regs := Store.setFld s.regs f v }

/-- Whether a one-bit field is 1. -/
def State.flag (s : State) (f : Fld) : Bool := s.rd f != 0

/-- A one-bit field set: a status bit, an interrupt bit. -/
def State.set (s : State) (f : Fld) : State := s.wr f 1

/-- A field cleared. -/
def State.clr (s : State) (f : Fld) : State := s.wr f 0

/-- A counter field advanced by `n`, saturating at its width. -/
def State.addSat (s : State) (f : Fld) (n : Nat) : State := s.wr f (satAdd f.width (s.rd f) n)

/-- A counter field advanced by one, saturating. -/
def State.bump (s : State) (f : Fld) : State := s.addSat f 1

/-- A counter field advanced by `n`, wrapping at its width. -/
def State.addWrap (s : State) (f : Fld) (n : Nat) : State := s.wr f ((s.rd f + n) % 2 ^ f.width)

/-- The value of a register pair (R13): low half and high half. -/
def State.rdPair (s : State) (lo hi : Fld) : Nat := s.rd lo + 2 ^ 32 * s.rd hi

/-- The state with a register pair written. -/
def State.wrPair (s : State) (lo hi : Fld) (v : Nat) : State := (s.wr lo (v % 2 ^ 32)).wr hi (v / 2 ^ 32)

/-- `f` applied where `c` holds. -/
def State.when (s : State) (c : Bool) (f : State → State) : State := if c then f s else s

/-- A step applied for each element of a list, in order. -/
def State.each {α : Type} (s : State) (l : List α) (f : State → α → State) : State := l.foldl f s

/-- A free value (notes/assumptions/2.md), and the state with the counter advanced. -/
def State.takeFree (s : State) : Nat × State := (Config.freeValue s.free, { s with free := s.free + 1 })

/-! ## Parts of the state replaced -/

/-- The state with one part replaced. -/
def State.setRegs (s : State) (v : Store Word) : State := { s with regs := v }
def State.setPoison (s : State) (v : List Nat) : State := { s with poison := v }
def State.setLoHalf (s : State) (v : Store (Option Word)) : State := { s with loHalf := v }
def State.setHiLatch (s : State) (v : Store (Option Word)) : State := { s with hiLatch := v }
def State.setResp (s : State) (v : BusResp) : State := { s with resp := v }
def State.setBoot (s : State) (v : BootPhase) : State := { s with boot := v }
def State.setRecorder (s : State) (v : Recorder) : State := { s with recorder := v }
def State.setFlt (s : State) (v : Flt) : State := { s with flt := v }
def State.setRst (s : State) (v : Rst) : State := { s with rst := v }
def State.setAng (s : State) (v : Ang) : State := { s with ang := v }
def State.setSim (s : State) (v : Sim) : State := { s with sim := v }
def State.setCs (s : State) (v : ControlStores) : State := { s with cs := v }
def State.setCe (s : State) (v : Engines) : State := { s with ce := v }
def State.setSpn (s : State) (v : Spn) : State := { s with spn := v }
def State.setPre (s : State) (v : Pre) : State := { s with pre := v }
def State.setCal (s : State) (v : Cal) : State := { s with cal := v }
def State.setAge (s : State) (v : Age) : State := { s with age := v }
def State.setLdp (s : State) (v : Ldp) : State := { s with ldp := v }
def State.setOce (s : State) (v : Oce) : State := { s with oce := v }
def State.setCry (s : State) (v : Cry) : State := { s with cry := v }
def State.setBcm (s : State) (v : Bcm) : State := { s with bcm := v }
def State.setMemc (s : State) (v : Mem) : State := { s with memc := v }
def State.setHst (s : State) (v : Hst) : State := { s with hst := v }
def State.setJnl (s : State) (v : Jnl) : State := { s with jnl := v }
def State.setChange (s : State) (v : Option ModeChange) : State := { s with change := v }
def State.setGated (s : State) (v : List Nat) : State := { s with gated := v }
def State.setShadow (s : State) (v : Store Word) : State := { s with shadow := v }
def State.setPwr (s : State) (v : Pwr) : State := { s with pwr := v }
def State.setThm (s : State) (v : Thm) : State := { s with thm := v }
def State.setDom (s : State) (v : Dom) : State := { s with dom := v }
def State.setUpd (s : State) (v : Upd) : State := { s with upd := v }

/-- The state with instance `n` of BWK, SRV, AST or RDC beside its registers replaced. -/
def State.setBwk (s : State) (n : Nat) (v : Bwk) : State := { s with bwk := s.bwk.set n v }
def State.setSrv (s : State) (n : Nat) (v : Srv) : State := { s with srv := s.srv.set n v }
def State.setAst (s : State) (n : Nat) (v : Ast) : State := { s with ast := s.ast.set n v }
def State.setChan (s : State) (n : Nat) (v : Chan) : State := { s with chan := s.chan.set n v }

/-! ## Memory: little-endian bytes (R9) -/

/-- A byte of memory. -/
def State.byte (s : State) (a : Nat) : Byte := Store.read 0 s.mem a

/-- `n` bytes of memory from `a` on. -/
def State.bytes (s : State) (a n : Nat) : List Byte := Store.readRun 0 s.mem a n

/-- The size in bytes of the protected word an address lies in (R351): SRAM 8, DRAM 32, MRAM 64. -/
def memWordSize (a : Nat) : Nat :=
  if 0x800000000 ≤ a then 32 else if 0x10000000 ≤ a ∧ a < 0x20000000 then 64 else 8

/-- The base of the protected word an address lies in. -/
def memWordBase (a : Nat) : Nat := a / memWordSize a * memWordSize a

/-- The bases of the protected words that `n` bytes from `a` on touch. -/
def memWords (a n : Nat) : List Nat :=
  if n = 0 then [] else
  (List.range ((memWordBase (a + n - 1) - memWordBase a) / memWordSize a + 1)).map fun i =>
    memWordBase a + i * memWordSize a

/-- Whether a read of `n` bytes from `a` on reports UNCORRECTABLE or POISONED (R352). -/
def State.poisoned (s : State) (a n : Nat) : Bool :=
  (memWords a n).any fun b => s.poison.contains b || Store.read 0 s.memc.err b == 2

/-- The word whose next full-word write stores altered check bits (R364). -/
def State.injectTarget (s : State) : Option Nat :=
  if s.flag Reg.memInjectArm then some (memWordBase (s.rd Reg.memInjectLoAddr + 2 ^ 32 * s.rd Reg.memInjectHiAddr)) else none

/-- The effect of a write of `n` bytes from `a` on on the check bits of one word (R354): a write of the whole word stores
fresh ones, altered where injection is armed on it; a partial write heals a correctable word, and leaves a word that reads
UNCORRECTABLE or POISONED poisoned and reports POISON_WR. -/
def checkWrite (s : State) (a n base : Nat) : State :=
  let whole := decide (a ≤ base) && decide (base + memWordSize base ≤ a + n)
  if whole then
    let s := (s.setPoison (s.poison.filter fun b => b != base)).setMemc { s.memc with err := Store.write 0 s.memc.err base 0 }
    if s.injectTarget = some base then
      let k := s.rd Reg.memInjectKind
      let s := s.clr Reg.memInjectArm
      if k = 3 then s.setPoison (base :: s.poison)
      else s.setMemc { s.memc with err := Store.write 0 s.memc.err base k }
    else s
  else if s.poison.contains base || Store.read 0 s.memc.err base == 2 then
    let s := (s.setPoison (base :: s.poison.filter fun b => b != base)).setMemc
      { s.memc with err := Store.write 0 s.memc.err base 0 }
    (s.bump Reg.memCounts2PoisonWr).set Reg.memIrqStatusPoison
  else s.setMemc { s.memc with err := Store.write 0 s.memc.err base 0 }

/-- Memory with a run of bytes stored from `a` on, and the poison of the words it touches (R354). -/
def State.store (s : State) (a : Nat) (bs : List Byte) : State :=
  let s := s.each (memWords a bs.length) fun s b => checkWrite s a bs.length b
  { s with mem := Store.writeRun 0 s.mem a bs }

/-- A little-endian number of `n` bytes in memory. -/
def State.loadNat (s : State) (a n : Nat) : Nat := leValue (s.bytes a n)

/-! ## Answers to the requester -/

/-- The access completed and returned `v`. -/
def State.answer (s : State) (v : Nat) : State := s.setResp (.done v)

/-- A corrected event: counted in `FLT_COUNTS0` and nothing else (R365, R367). -/
def corrected (s : State) : State := s.bump Reg.fltCounts0Corrected

/-- A refused access: a bus error to the requester, recorded by FLT as a corrected event (R12, R25). -/
def busError (s : State) : State := (corrected s).setResp .busError

/-- An access to a window of a unit that STANDBY has gated completes with a bus error (R458); `u` as in `State.gated`. -/
def gatedAccess (s : State) (u : Nat) (o : Host.Outcome State Fault Refusal) : Host.Outcome State Fault Refusal :=
  if s.gated.contains u then .next (busError s) else o

/-! ## Recorder posts (R510, R513) -/

/-- Entries of the post queue, and those reserved for the warden (R510). -/
def recQueueSize : Nat := 64
def recWardenReserved : Nat := 4

/-- Whether the post queue has an entry open to this poster. -/
def recHasRoom (s : State) (warden : Bool) : Bool :=
  if warden then decide (s.recorder.queue.length < recQueueSize)
  else decide (s.recorder.queue.length < recQueueSize)
    && decide ((s.recorder.queue.filter fun p => !p.warden).length < recQueueSize - recWardenReserved)

/-- Post an event to REC: it joins the queue, or it is discarded, counted in DROPPED, and raises DROP (R510). -/
def recPost (s : State) (p : RecPost) : State :=
  if recHasRoom s p.warden then
    let s := s.setRecorder { s.recorder with queue := s.recorder.queue ++ [p] }
    s.wr Reg.recStatusQueued s.recorder.queue.length
  else (s.bump Reg.recStatusDropped).set Reg.recIrqStatusDrop

/-- A unit's recorder post. -/
def record (s : State) (source severity code : Nat) (payload : List Byte) : State :=
  recPost s { source, severity, code, payload, warden := false }

/-- A recorder post of the warden, which has four entries of its own. -/
def recordWarden (s : State) (source severity code : Nat) (payload : List Byte) : State :=
  recPost s { source, severity, code, payload, warden := true }

/-- A warden post that goes before every other in the queue: the last-gasp record (R519). -/
def recordFirst (s : State) (source severity code : Nat) (payload : List Byte) : State :=
  let n := s.recorder.queue.length
  let s := recordWarden s source severity code payload
  let q := s.recorder.queue
  s.setRecorder { s.recorder with queue := q.drop n ++ q.take n }

/-- SOURCE numbers of R367: unit windows 0 to 31, then harts, warden and HV die. -/
def srcSys : Nat := 0
def srcSim : Nat := 1
def srcAng : Nat := 2
def srcBwk (n : Nat) : Nat := 3 + n
def srcSrv (n : Nat) : Nat := 5 + n
def srcSpn : Nat := 7
def srcAst (n : Nat) : Nat := 8 + n
def srcRdc (n : Nat) : Nat := 10 + n
def srcLdp : Nat := 12
def srcOce : Nat := 13
def srcJnl : Nat := 14
def srcHst : Nat := 15
def srcRng : Nat := 16
def srcBcm : Nat := 17
def srcMem : Nat := 18
def srcFlt : Nat := 19
def srcCal : Nat := 20
def srcAge : Nat := 21
def srcPwr : Nat := 22
def srcThm : Nat := 23
def srcDom : Nat := 25
def srcUpd : Nat := 26
def srcPre : Nat := 30
def srcCry : Nat := 31
def srcHart (h : Nat) : Nat := 32 + h
def srcWarden : Nat := 36

/-! ## Performance events (R514 to R516) -/

/-- Whether counter `k` counts an event of the class and number made in `mode` (0 U, 1 S, 2 M by a hart, 3 by no hart). `inst`
is the instance or bus master the class carries, `addr` the address it carries, if any (R516). -/
def pmuPasses (s : State) (k mode cls ev : Nat) (inst : Option Nat) (addr : Option Nat) : Bool :=
  let master := s.rd (Reg.pmuEvselMaster.elem k)
  let range := s.rd (Reg.pmuEvselRange.elem k)
  let base (r : Nat) := s.rdPair (Reg.pmuRangeBaseLoAddr.elem r) (Reg.pmuRangeBaseHiAddr.elem r)
  let lim (r : Nat) := s.rdPair (Reg.pmuRangeLimLoAddr.elem r) (Reg.pmuRangeLimHiAddr.elem r)
  let inside (r a : Nat) : Bool := decide (base r ≤ a) && decide (a ≤ lim r)
  s.flag (Reg.pmuEvselEn.elem k)
  && s.rd (Reg.pmuEvselClass.elem k) == cls
  && s.rd (Reg.pmuEvselEvent.elem k) == ev
  && (s.rd (Reg.pmuEvselMode.elem k)).testBit mode
  && (master == 0xFF || inst == some master)
  && (match addr with
      | none => range == 0
      | some a => range == 0 || (range == 1 && inside 0 a) || (range == 2 && inside 1 a)
          || (range == 3 && !inside 0 a && !inside 1 a))

/-- Counter `k` wraps from 2⁴⁸ − 1 to 0: bit `k` of PMU_OVF is set (R514). -/
def pmuOverflow (s : State) (k : Nat) : State := s.wr Reg.pmuOvfOvf (maskSet (s.rd Reg.pmuOvfOvf) k)

/-- Counter `k` advanced by `n`, wrapping at 48 bits. -/
def pmuAdd (s : State) (k n : Nat) : State :=
  let v := s.rdPair (Reg.pmuCntLoCount.elem k) (Reg.pmuCntHiCount.elem k) + n
  let s := s.wrPair (Reg.pmuCntLoCount.elem k) (Reg.pmuCntHiCount.elem k) (v % 2 ^ 48)
  if 2 ^ 48 ≤ v then pmuOverflow s k else s

/-- `n` events of a class and number made in `mode`: every counter whose filters they pass counts them. -/
def pmuEventIn (s : State) (mode cls ev : Nat) (inst : Option Nat) (addr : Option Nat) (n : Nat) : State :=
  s.each (List.range 8) fun s k => if pmuPasses s k mode cls ev inst addr then pmuAdd s k n else s

/-- `n` events that no hart makes. -/
def pmuEvent (s : State) (cls ev : Nat) (inst : Option Nat) (addr : Option Nat) (n : Nat) : State :=
  pmuEventIn s 3 cls ev inst addr n

/-! ## Device angle (R73, R74) and operating seconds (R91) -/

/-- The device revolution count as ANG holds it. -/
def State.rev (s : State) : Nat := s.rdPair Reg.angRevLoRev Reg.angRevHiRev % 2 ^ 44

/-- The device full angle as ANG holds it (R73). -/
def State.fullAngle (s : State) : Nat := s.rev * 2 ^ 21 + s.rd Reg.angPosWedge * 2 ^ 10 + s.rd Reg.angPosTick

/-- ANG's position registers at a full angle. -/
def setAngle (s : State) (full : Nat) : State :=
  let s := s.wrPair Reg.angRevLoRev Reg.angRevHiRev (full / 2 ^ 21 % 2 ^ 44)
  (s.wr Reg.angPosWedge (full / 2 ^ 10 % 2 ^ 11)).wr Reg.angPosTick (full % 2 ^ 10)

/-- The 32-bit angle word of a full angle (R74). -/
def angleWord (full : Nat) : Nat := full % 2 ^ 32

/-- The angle word a record carries: 0 when ANG is not LOCKED or COAST (R367). -/
def State.recordAngle (s : State) : Nat :=
  if s.rd Reg.angStatusState = 3 ∨ s.rd Reg.angStatusState = 4 then angleWord s.fullAngle else 0

/-- Operating seconds (R91). -/
def State.opsec (s : State) : Nat := s.rd Reg.angOpsecOpsec + 2 ^ 32 * (s.rd (Reg.angOpsecOpsec.elem 1) % 2 ^ 8)

/-! ## Operating mode (R33) -/

def modeBoot : Nat := 0
def modeRecovery : Nat := 1
def modeService : Nat := 2
def modeRest : Nat := 3
def modeStandby : Nat := 4
def modeSafe : Nat := 5

/-- The operating mode in force. -/
def State.opMode (s : State) : Nat := s.rd Reg.sysOpmodeMode

/-- A mode transition: PREV_MODE, MODE and CAUSE change, and a SYS record carries old mode, new mode and cause (R33, R513). -/
def enterMode (s : State) (mode cause : Nat) : State :=
  let old := s.opMode
  let s := ((s.wr Reg.sysOpmodePrevMode old).wr Reg.sysOpmodeMode mode).wr Reg.sysOpmodeCause cause
  record s srcSys 1 1 [BitVec.ofNat 8 old, BitVec.ofNat 8 mode, BitVec.ofNat 8 cause]

/-! ## The effective roster (R49, R68) -/

/-- Whether a roster bit is set in the effective roster. -/
def State.present (s : State) (i : Nat) : Bool := (s.rd (Reg.simEffMask.elem (i / 32))).testBit (i % 32)

/-- Whether an instance of the roster is out of service (`FLT_DOWNn`, R379). -/
def State.down (s : State) (i : Nat) : Bool := (s.rd (Reg.fltDownMask.elem (i / 32))).testBit (i % 32)

/-- Present and in service. -/
def State.serving (s : State) (i : Nat) : Bool := s.present i && !s.down i

/-- Roster bits (R49). -/
def bitHart (h : Nat) : Nat := h
def bitBwk (n : Nat) : Nat := 4 + n
def bitSrv (n : Nat) : Nat := 6 + n
def bitSpn : Nat := 8
def bitAst (n : Nat) : Nat := 9 + n
def bitRdc (n : Nat) : Nat := 11 + n
def bitFast (n : Nat) : Nat := 13 + n
def bitDeep : Nat := 15
def bitOce : Nat := 16
def bitJnl : Nat := 17
def bitCry : Nat := 18
def bitPort (p : Nat) : Nat := 19 + p
def bitDom : Nat := 21
def bitLane (l : Nat) : Nat := 24 + l
def bitLink (p : Nat) : Nat := 32 + p
def bitHead (h : Nat) : Nat := 64 + h

/-- The heads of an actuator that are present and in service. -/
def State.headsOf (s : State) (act : Nat) : List Nat :=
  (List.range s.sim.cfg.heads.length).filter fun h =>
    (nth ⟨2, 0, 0, 0, 0⟩ s.sim.cfg.heads h).actuator == act && s.serving (bitHead h)

/-- Whether an actuator is present and complete (R68). -/
def State.actuatorServing (s : State) (n : Nat) : Bool :=
  s.serving (bitBwk n) && s.serving (bitSrv n) && s.serving (bitAst n)

/-- The actuators present. -/
def State.actuators (s : State) : List Nat := [0, 1].filter fun n => s.present (bitSrv n)

end Sys2Proof.Machine
end

