-- ==== Sys2Proof/Machine/FaultOps.lean ====
section
/-!
DEFINITION. Machine-check records (spec/13_faults.md, R365 to R368): how a fault of class contained or above is recorded.
-/

namespace Sys2Proof.Machine

/-- The 32 bytes of a machine-check record (R367). -/
def McRecord.bytes (r : McRecord) (seq : Nat) : List Byte :=
  leBytes 4 seq ++ [BitVec.ofNat 8 r.cls, BitVec.ofNat 8 r.source, BitVec.ofNat 8 r.instance_, BitVec.ofNat 8 r.flags]
  ++ leBytes 2 r.code ++ leBytes 2 r.int ++ leBytes 4 r.angle ++ leBytes 8 (r.addr % 2 ^ 36)
  ++ leBytes 5 r.opsec ++ [0, 0, 0]

/-- The record's fields as they stand at detection (R367): SECOND when a covered fault is already being handled. -/
def mcCapture (s : State) (cls source inst code addr : Nat) (declared : Bool) (int : Nat) : McRecord :=
  { cls, source, instance_ := inst
    flags := bit (s.flag Reg.fltStatusRecovering) + 4 * bit declared
    code, int := min int 0xFFFF, angle := s.recordAngle, addr, opsec := s.opsec }

/-- A machine-check record written to the 16-entry bank and, with the same bytes, to the recorder; MCHK is raised
(R367, R513). The device-fatal record is the warden's to write, so its post may use the warden's entries (R510). -/
def mcWrite (s : State) (r : McRecord) : State :=
  let seq := (s.flt.seq + 1) % 2 ^ 32
  let entry := s.flt.seq % 16
  let bytes := r.bytes seq
  let bank := (List.range 8).foldl
    (fun b i => Store.write 0 b (8 * entry + i) (BitVec.ofNat 32 (leValue ((bytes.drop (4 * i)).take 4)))) s.flt.bank
  let s := s.setFlt { s.flt with seq := seq, bank := bank }
  let s := (s.wr Reg.fltMcrIdxNewest entry).set Reg.fltIrqStatusMchk
  recPost s { source := srcFlt, severity := r.cls + 1, code := r.code, payload := bytes, warden := r.cls == 3 }

/-- A contained fault: counted, recorded, and MCHK raised (R365). -/
def contained (s : State) (source inst code addr : Nat) : State :=
  mcWrite (s.bump Reg.fltCounts1Contained) (mcCapture s 1 source inst code addr false 0)

/-- A contained fault that carries a measured interruption in units of 10 ns (R370): FLT_INT takes it. -/
def containedInt (s : State) (source inst code addr int : Nat) : State :=
  let s := mcWrite (s.bump Reg.fltCounts1Contained) (mcCapture s 1 source inst code addr false int)
  let v := min int 0xFFFF
  let s := (s.wr Reg.fltIntLast v).set Reg.fltIrqStatusIntDone
  if s.rd Reg.fltIntMax < v then s.wr Reg.fltIntMax v else s

/-- The record of a unit-fatal fault: counted and written at detection (R365, R367). -/
def unitFatalRecord (s : State) (source inst code addr : Nat) (retired : Bool) : State :=
  let r := mcCapture s 2 source inst code addr false 0
  mcWrite (s.bump Reg.fltCounts1UnitFatal) { r with flags := r.flags + 2 * bit retired }

end Sys2Proof.Machine
end

