-- ==== Sys2Proof/Machine/Rings.lean ====
section
/-!
DEFINITION. Work rings (spec/11_work_rings.md, R320 to R333, R337 to R340): the index arithmetic, enable and drain,
admission of request entries, and the way of a result through the holding buffer into the result ring.
-/

namespace Sys2Proof.Machine

/-! ## Shapes and placement (R320 to R322) -/

/-- Bytes of a request entry of engine `n` (R320). -/
def ringReqBytes (n : Nat) : Nat := if n = 6 then 64 else 32

/-- Bytes of a result entry of engine `n` (R320). -/
def ringResBytes (n : Nat) : Nat :=
  if n ≤ 1 then 32 else if n = 4 then 8 else if n = 6 then 64 else 16

/-- Holding-buffer entries of an engine (R330). -/
def ringHoldSize : Nat := 16

/-- A valid ring size: a power of two from 16 to 65,536 (R322). -/
def ringSizeValid (v : Nat) : Bool := (List.range 13).any fun i => v == 2 ^ (i + 4)

/-- A size field as taken: any other value counts as 0 (R322). -/
def ringSizeTaken (v : Nat) : Nat := if ringSizeValid v then v else 0

/-- The ring pair `n`. -/
def State.ring (s : State) (n : Nat) : Ring := nth {} s.rings n

/-- The state with ring pair `n` replaced. -/
def State.setRing (s : State) (n : Nat) (r : Ring) : State := { s with rings := setNth s.rings n r }

/-- Bytes of fitted DRAM (R4, SYS_ID.DRAM). -/
def State.dramBytes (s : State) : Nat := 2 ^ s.rd Reg.sysIdDram * 2 ^ 30

/-- Bytes that BCM reserves at the top of DRAM (R53). -/
def State.dramReserved (s : State) : Nat := (s.sim.cfg.pendMib + s.sim.cfg.sideMib + s.sim.cfg.cacheMib) * 2 ^ 20

/-- Whether `n` bytes from `a` on lie in SRAM. -/
def inSram (a n : Nat) : Bool := decide (0x08000000 ≤ a) && decide (a + n ≤ 0x09000000)

/-- Whether `n` bytes from `a` on lie in fitted DRAM. -/
def State.inDram (s : State) (a n : Nat) : Bool :=
  decide (0x800000000 ≤ a) && decide (a + n ≤ 0x800000000 + s.dramBytes)

/-- Whether `n` bytes from `a` on lie in fitted DRAM outside every area BCM reserves (R53, R321). -/
def State.inFreeDram (s : State) (a n : Nat) : Bool :=
  decide (0x800000000 ≤ a) && decide (a + n + s.dramReserved ≤ 0x800000000 + s.dramBytes)

/-- A ring may stand at `base` with `len` bytes (R320, R321). -/
def ringPlaced (s : State) (n base len : Nat) : Bool :=
  base % 64 == 0 && (inSram base len || (n != 6 && s.inFreeDram base len))

/-- Two ranges overlap. -/
def overlaps (a la b lb : Nat) : Bool := decide (a < b + lb) && decide (b < a + la)

/-- Whether pair `n` is enabled or still draining. -/
def ringLive (s : State) (n : Nat) : Bool :=
  s.flag (Reg.rngCtlEnable.elem n) || s.flag (Reg.rngStatusDraining.elem n)

/-- Whether engine `n` is present in the effective roster (R332). -/
def ringEnginePresent (s : State) (n : Nat) : Bool :=
  if n ≤ 1 then s.serving (bitBwk n)
  else if n = 2 then [0, 1].any (fun d => s.present (bitFast d)) || s.present bitDeep
  else if n = 3 then s.present bitOce
  else if n = 4 then s.present bitJnl
  else if n = 5 then s.present bitCry
  else true

/-- The base and length of the rings another live pair is using. -/
def ringSpans (s : State) (n : Nat) : List (Nat × Nat) :=
  let r := s.ring n
  [(r.reqBase, r.reqSize * ringReqBytes n), (r.resBase, r.resSize * ringResBytes n)]

/-- Why an enable of pair `n` is refused, if it is: the first failing condition in the order of R332. -/
def ringRefusal (s : State) (n : Nat) : Option Nat :=
  let reqBase := (s.rd (Reg.rngReqBaseLoAddr.elem n)) * 64 + 2 ^ 32 * s.rd (Reg.rngReqBaseHiAddr.elem n)
  let resBase := (s.rd (Reg.rngResBaseLoAddr.elem n)) * 64 + 2 ^ 32 * s.rd (Reg.rngResBaseHiAddr.elem n)
  let reqSize := ringSizeTaken (s.rd (Reg.rngReqSizeEntries.elem n))
  let resSize := ringSizeTaken (s.rd (Reg.rngResSizeEntries.elem n))
  let reqLen := reqSize * ringReqBytes n
  let resLen := resSize * ringResBytes n
  let others := ((List.range 7).filter fun j => j != n && ringLive s j).flatMap (ringSpans s)
  if !ringEnginePresent s n then some 7
  else if reqSize = 0 then some 1
  else if resSize = 0 then some 2
  else if !ringPlaced s n reqBase reqLen then some 3
  else if !ringPlaced s n resBase resLen then some 4
  else if overlaps reqBase reqLen resBase resLen
      || others.any (fun o => overlaps reqBase reqLen o.1 o.2 || overlaps resBase resLen o.1 o.2) then some 5
  else if s.flag (Reg.rngStatusDraining.elem n) then some 6
  else none

/-! ## Indices (R323, R324) -/

/-- Free slots of a ring of size `S` (R323). -/
def ringFree (S prod cons : Nat) : Nat := (cons + S - prod + S - 1) % S

/-- Whether a ring is full (R323). -/
def ringFull (S prod cons : Nat) : Bool := (prod + 1) % S == cons

/-- Forward distance from `a` to `b` in a ring of size `S`. -/
def ringDist (S a b : Nat) : Nat := (b + S - a) % S

/-- Whether the result ring of pair `n` is full. -/
def resultRingFull (s : State) (n : Nat) : Bool :=
  ringFull (s.ring n).resSize (s.rd (Reg.rngResProdIdx.elem n)) (s.rd (Reg.rngResConsIdx.elem n))

/-- Whether pair `n` holds a published entry that its engine has not admitted. -/
def ringHasEntry (s : State) (n : Nat) : Bool := (s.ring n).next != s.rd (Reg.rngReqProdIdx.elem n)

/-- IDLE, HELD and STOPPED_FULL as they follow from the pair's state (R330, R333). A pair that is draining keeps IDLE at
0 until its drain is done. -/
def ringRefresh (s : State) (n : Nat) : State :=
  let r := s.ring n
  let quiet := r.inProg.isEmpty && r.hold.isEmpty && !ringHasEntry s n
  let s := s.wr (Reg.rngStatusHeld.elem n) r.hold.length
  let s := s.wr (Reg.rngStatusStoppedFull.elem n) (bit (ringLive s n && (resultRingFull s n || !r.hold.isEmpty)))
  if s.flag (Reg.rngStatusDraining.elem n) then s
  else s.wr (Reg.rngStatusIdle.elem n) (bit (quiet || !s.flag (Reg.rngCtlEnable.elem n)))

/-! ## Results (R326, R329 to R331) -/

/-- A result written to the result ring: the entry becomes visible, RES_PROD advances, and the request consumer moves
past the whole chain once its last entry's result stands (R325, R326). -/
def ringWrite (s : State) (n : Nat) (x : RingResult) : State :=
  let r := s.ring n
  let prod := s.rd (Reg.rngResProdIdx.elem n)
  let s := s.store (r.resBase + prod * ringResBytes n) x.bytes
  let s := s.wr (Reg.rngResProdIdx.elem n) ((prod + 1) % r.resSize)
  let s := s.wr Reg.rngIrqStatusResult (maskSet (s.rd Reg.rngIrqStatusResult) n)
  if x.entry then
    if x.last then
      let cons := s.rd (Reg.rngReqConsIdx.elem n)
      (s.wr (Reg.rngReqConsIdx.elem n) ((cons + r.written + 1) % r.reqSize)).setRing n { r with written := 0 }
    else s.setRing n { r with written := r.written + 1 }
  else s

/-- A result lost because it finds the holding buffer full (R331): counted, RESULT_OVF set, which halts the engine, a
contained machine check and a recorder record. -/
def ringLose (s : State) (n : Nat) : State :=
  let s := s.bump (Reg.rngStatusLost.elem n)
  let s := s.set (Reg.rngStatusResultOvf.elem n)
  let s := s.wr Reg.rngIrqStatusOvf (maskSet (s.rd Reg.rngIrqStatusOvf) n)
  let s := contained s srcRng n 0x0022 n
  record s srcRng 2 1 [BitVec.ofNat 8 n, BitVec.ofNat 8 (s.rd (Reg.rngStatusLost.elem n))]

/-- A result of engine `n` on its way: straight to the result ring, or into the holding buffer while the ring is full or
results are held, or lost where the buffer is full (R330, R331). -/
def ringPost (s : State) (n : Nat) (x : RingResult) : State :=
  let r := s.ring n
  let s :=
    if r.hold.isEmpty && !resultRingFull s n then ringWrite s n x
    else if r.hold.length < ringHoldSize then s.setRing n { r with hold := r.hold ++ [x] }
    else ringLose s n
  ringRefresh s n

/-- Held results written, in order, while result slots are free (R330). `fuel` bounds the count. -/
def ringDrainHold (s : State) (n : Nat) : Nat → State
  | 0 => s
  | fuel + 1 =>
    let r := s.ring n
    match r.hold with
    | [] => s
    | x :: rest =>
      if resultRingFull s n then s
      else ringDrainHold (ringWrite (s.setRing n { r with hold := rest }) n x) n fuel

/-- The result of the oldest entry in progress of engine `n`: it leaves the entries in progress and its bytes are posted. -/
def ringAnswer (s : State) (n : Nat) (bytes : List Byte) (last : Bool) : State :=
  let r := s.ring n
  ringPost (s.setRing n { r with inProg := r.inProg.drop 1 }) n { bytes, entry := true, last }

/-- A mailbox notice (R329, R337): a result with no request entry; where the pair is not enabled it is not queued and
reaches only the recorder. -/
def mailboxNotice (s : State) (code : Nat) (data : List Byte) : State :=
  if s.flag (Reg.rngCtlEnable.elem 6) then
    ringPost s 6 { bytes := [0, 1, 0, 0] ++ leBytes 2 code ++ [0, 0] ++ (data ++ List.replicate 56 0).take 56,
                   entry := false, last := false }
  else recordWarden s srcWarden 1 1 (leBytes 2 code ++ data)

/-! ## Admission (R325, R327, R328, R330) -/

/-- Whether engine `n` may admit a published entry: it has room, its result ring is not full, it is not halted, and the
device is not in SAFE or RECOVERY or on the way there (R330, R331, R338). -/
def ringMayAdmit (s : State) (n : Nat) : Bool :=
  let r := s.ring n
  ringLive s n && ringHasEntry s n
  && decide (r.inProg.length + r.hold.length < ringHoldSize)
  && !resultRingFull s n && r.hold.isEmpty
  && !s.flag (Reg.rngStatusResultOvf.elem n)
  && s.opMode != modeSafe && s.opMode != modeRecovery && s.flt.safe == .none

/-- The next published entry of engine `n`, read from memory (R325, R328). -/
def ringNextEntry (s : State) (n : Nat) : RingEntry :=
  let r := s.ring n
  let a := r.reqBase + r.next * ringReqBytes n
  { slot := r.next, bytes := s.bytes a (ringReqBytes n), bad := s.poisoned a (ringReqBytes n) }

/-- Byte offset of FLAGS in a request entry: 0x05 in a plank, 0x01 in the others. -/
def ringFlagsAt (n : Nat) : Nat := if n ≤ 1 then 5 else 1

/-- FIRST and LAST of an entry. -/
def entryFirst (n : Nat) (e : RingEntry) : Bool := (nth 0 e.bytes (ringFlagsAt n)).toNat.testBit 0
def entryLast (n : Nat) (e : RingEntry) : Bool := (nth 0 e.bytes (ringFlagsAt n)).toNat.testBit 1

/-- Whether an entry ends its chain: LAST, or outside a chain with FIRST clear, or in an engine that takes only chains of
one (R327). -/
def entryEndsChain (s : State) (n : Nat) (e : RingEntry) : Bool :=
  entryLast n e || (!(s.ring n).chainOpen && !entryFirst n e) || (n != 0 && n != 1 && n != 5)

/-- Admission of the next published entry: it joins the entries in progress. FIRST inside an open chain is ignored and
recorded (R327); a poisoned entry records a contained fault that carries the slot (R328). -/
def ringAdmit (s : State) (n : Nat) : State :=
  let r := s.ring n
  let e := ringNextEntry s n
  let ends := entryEndsChain s n e
  let s := s.when (r.chainOpen && entryFirst n e) corrected
  let s := s.when e.bad fun s => contained s srcRng n 0x0021 e.slot
  let s := s.setRing n { r with next := (r.next + 1) % r.reqSize, inProg := r.inProg ++ [e], chainOpen := !ends }
  ringRefresh s n

/-! ## The commands -/

/-- RING_REQ_PROD_WRITE (R324): a request producer index, accepted only when it moves forward and does not pass the
consumer, while ENABLE is 1; otherwise ignored and recorded. -/
def execRingReqProdWrite (n : Nat) (data : Word) (s : State) : Host.Outcome State Fault Refusal :=
  let r := s.ring n
  let old := s.rd (Reg.rngReqProdIdx.elem n)
  let cons := s.rd (Reg.rngReqConsIdx.elem n)
  let v := data.toNat
  let ok := s.flag (Reg.rngCtlEnable.elem n) && decide (v < r.reqSize)
    && decide (ringDist r.reqSize cons old ≤ ringDist r.reqSize cons v)
  .next ((if ok then ringRefresh (s.wr (Reg.rngReqProdIdx.elem n) v) n else corrected s).answer 0)

/-- RING_RES_CONS_WRITE (R324): a result consumer index, accepted while the pair is enabled or draining and it does not
pass the producer. -/
def execRingResConsWrite (n : Nat) (data : Word) (s : State) : Host.Outcome State Fault Refusal :=
  let r := s.ring n
  let old := s.rd (Reg.rngResConsIdx.elem n)
  let prod := s.rd (Reg.rngResProdIdx.elem n)
  let v := data.toNat
  let ok := ringLive s n && decide (v < r.resSize)
    && decide (ringDist r.resSize old v ≤ ringDist r.resSize old prod)
  .next ((if ok then ringRefresh (s.wr (Reg.rngResConsIdx.elem n) v) n else corrected s).answer 0)

/-- RING_ENABLE (R332): ENABLE written from 0 to 1. The pair is enabled with the indices at 0 and its bases and sizes
latched, or refused with the reason; writing 1 while enabled has no effect. -/
def execRingEnable (n : Nat) (s : State) : Host.Outcome State Fault Refusal :=
  if s.flag (Reg.rngCtlEnable.elem n) then .next (s.answer 0) else
  match ringRefusal s n with
  | some why =>
    let s := s.wr (Reg.rngStatusRefuse.elem n) why
    .next ((s.wr Reg.rngIrqStatusRefused (maskSet (s.rd Reg.rngIrqStatusRefused) n)).answer 0)
  | none =>
    let r : Ring :=
      { reqBase := (s.rd (Reg.rngReqBaseLoAddr.elem n)) * 64 + 2 ^ 32 * s.rd (Reg.rngReqBaseHiAddr.elem n)
        reqSize := ringSizeTaken (s.rd (Reg.rngReqSizeEntries.elem n))
        resBase := (s.rd (Reg.rngResBaseLoAddr.elem n)) * 64 + 2 ^ 32 * s.rd (Reg.rngResBaseHiAddr.elem n)
        resSize := ringSizeTaken (s.rd (Reg.rngResSizeEntries.elem n)) }
    let s := s.setRing n r
    let s := s.each [Reg.rngReqProdIdx, Reg.rngReqConsIdx, Reg.rngResProdIdx, Reg.rngResConsIdx,
      Reg.rngStatusResultOvf, Reg.rngStatusLost, Reg.rngStatusStoppedFull] fun s f => s.clr (f.elem n)
    let s := s.set (Reg.rngCtlEnable.elem n)
    let s := if n ≤ 1 && s.rd (Reg.bwkStatusState.elem n) == 0 then s.wr (Reg.bwkStatusState.elem n) 1 else s
    .next ((ringRefresh s n).answer 0)

/-- RING_DISABLE (R333): ENABLE written from 1 to 0 starts a drain. -/
def execRingDisable (n : Nat) (s : State) : Host.Outcome State Fault Refusal :=
  if s.flag (Reg.rngCtlEnable.elem n) then
    let s := (s.clr (Reg.rngCtlEnable.elem n)).set (Reg.rngStatusDraining.elem n)
    .next ((s.clr (Reg.rngStatusIdle.elem n)).answer 0)
  else .next (s.answer 0)

/-- Whether the drain of pair `n` is over (R333): nothing in progress, nothing held, and, except after R331, every
published entry has its result. -/
def ringDrained (s : State) (n : Nat) : Bool :=
  let r := s.ring n
  s.flag (Reg.rngStatusDraining.elem n) && r.inProg.isEmpty && r.hold.isEmpty
  && (!ringHasEntry s n || s.flag (Reg.rngStatusResultOvf.elem n))

/-- RING_DRAIN_DONE (R333): the drain ends, IDLE rises, DRAINING falls and DRAINED is raised; a sequencer goes to OFF. -/
def execRingDrainDone (n : Nat) (s : State) : Host.Outcome State Fault Refusal :=
  if ringDrained s n then
    let s := (s.clr (Reg.rngStatusDraining.elem n)).set (Reg.rngStatusIdle.elem n)
    let s := s.wr Reg.rngIrqStatusDrained (maskSet (s.rd Reg.rngIrqStatusDrained) n)
    let s := if n ≤ 1 then s.wr (Reg.bwkStatusState.elem n) 0 else s
    .next s
  else .next s

/-- HELD_RESULT_WRITE (R330): held results are written, in order, as result slots are free. -/
def execHeldResultWrite (n : Nat) (s : State) : Host.Outcome State Fault Refusal :=
  .next (ringRefresh (ringDrainHold s n ringHoldSize) n)

end Sys2Proof.Machine
end

