-- ==== Sys2Proof/Machine/Rung.lean ====
section
/-!
DEFINITION. Cadence rungs (spec/03_angle_time.md, R82 to R89): the operations that start, carry and abandon a rung change.
-/

namespace Sys2Proof.Machine

/-! ## Codes -/

/-- ANG_STATUS.STATE (R77). -/
def angStopped : Nat := 0
def angCoarse : Nat := 1
def angAcquire : Nat := 2
def angLocked : Nat := 3
def angCoast : Nat := 4

/-- ANG_RUNG.PHASE (R84). -/
def phaseIdle : Nat := 0
def phaseHolding : Nat := 1
def phaseHeld : Nat := 2
def phaseRamp : Nat := 3
def phaseSettle : Nat := 4
def phaseRetune : Nat := 5
def phaseRelease : Nat := 6
def phaseReturn : Nat := 7

/-- ANG_RUNG.RESULT. -/
def rungDone : Nat := 1
def rungRefusedRange : Nat := 2
def rungRefusedCeiling : Nat := 3
def rungRefusedState : Nat := 4
def rungAbandoned : Nat := 5
def rungSpindle : Nat := 6
def rungBadStep : Nat := 7

/-- SRVn_STATUS.STATE (R173). -/
def srvParked : Nat := 0
def srvLoading : Nat := 1
def srvSeek : Nat := 2
def srvSettle : Nat := 3
def srvFollow : Nat := 4
def srvCoast : Nat := 5
def srvFallback : Nat := 6
def srvUnloading : Nat := 7
def srvRetracting : Nat := 8
def srvFailed : Nat := 9

/-- RESULT written, which raises RUNG_DONE (R94). -/
def rungResult (s : State) (r : Nat) : State := (s.wr Reg.angRungResult r).set Reg.angIrqStatusRungDone

/-- Whether a unit is at expert level (R20, R29). -/
def expert (s : State) (level : Fld) : Bool := s.flag level

/-- A sequencer released from a hold: HELD goes back to waiting, with R131 judging its plank (R135). -/
def bwkUnhold (s : State) (n : Nat) : State :=
  if s.rd (Reg.bwkStatusState.elem n) = 5 then
    s.wr (Reg.bwkStatusState.elem n) (if (s.bwk.get n).cur.isSome then 3 else 1)
  else s

/-- Both sequencers released from a rung hold (R84). -/
def rungReleaseHold (s : State) : State :=
  let s := s.setAng { s.ang with hold := false }
  bwkUnhold (bwkUnhold s 0) 1

/-- A rung change starts: HOLDING, both sequencers told to stop taking planks (R84, R87 step 5). -/
def rungStart (s : State) (target : Nat) : State :=
  let s := (s.wr Reg.angRungTarget target).wr Reg.angRungPhase phaseHolding
  s.setAng { s.ang with hold := true, origin := s.rd Reg.angRungCurrent, returning := false, returnDown := false,
                        settled := false, retuned := false }

/-- Steps 1 to 4 of R87 for a target: the RESULT they give, or none where the change may start. -/
def rungJudge (s : State) (target : Nat) : Option Nat :=
  if target = s.rd Reg.angRungCurrent then some rungDone
  else if s.sim.cfg.rungCount ≤ target then some rungRefusedRange
  else if target < s.rd Reg.angRungCeiling then some rungRefusedCeiling
  else if s.opMode ≠ modeService ∨ s.rd Reg.angStatusState ≠ angLocked then some rungRefusedState
  else none

/-- A target written at basic level while PHASE is IDLE (R87). -/
def rungRequest (s : State) (target : Nat) : State :=
  match rungJudge s target with
  | some r => rungResult s r
  | none => rungStart s target

/-- A target held while a change is in progress; a later one replaces it (R88). -/
def rungPend (s : State) (target : Nat) : State :=
  (s.wr Reg.angRungPendTarget target).set Reg.angRungPend

/-- A target of the built-in automation or of a host power state: judged now, or held (R83, R87, R88). -/
def rungAsk (s : State) (target : Nat) : State :=
  if s.rd Reg.angRungPhase = phaseIdle then rungRequest s target else rungPend s target

/-- The change is over: PHASE IDLE, sequencers released, and a pending target that differs from CURRENT starts as a new
change (R88). -/
def rungFinish (s : State) (result : Nat) : State :=
  let s := rungReleaseHold (rungResult (s.wr Reg.angRungPhase phaseIdle) result)
  let s := s.setAng { s.ang with returning := false, returnDown := false, settled := false, retuned := false }
  if s.flag Reg.angRungPend then
    let s := s.clr Reg.angRungPend
    if s.rd Reg.angRungPendTarget = s.rd Reg.angRungCurrent then s else rungRequest s (s.rd Reg.angRungPendTarget)
  else s

/-- Entry into RETURN (R84): the ramp back lasts RAMP_MS from SETTLE, and from RAMP as long as the setpoint had moved,
which the spec ties to a moment that no command carries, so that one length is a free value up to RAMP_MS. -/
def rungReturn (s : State) : State :=
  let full := s.rd Reg.angRampRampMs
  let s := if s.rd Reg.angRungPhase = phaseRamp then
      let (v, s) := s.takeFree
      s.setAng { s.ang with returnMs := v % (full + 1) }
    else s.setAng { s.ang with returnMs := full }
  (s.wr Reg.angRungPhase phaseReturn).setAng { s.ang with returning := true, returnDown := false }

/-- ANG has left LOCKED during a change (R88): from HOLDING or HELD the change is abandoned at once, from RAMP or SETTLE
it returns. -/
def rungLostLock (s : State) : State :=
  let p := s.rd Reg.angRungPhase
  if p = phaseHolding ∨ p = phaseHeld then rungFinish s rungAbandoned
  else if (p = phaseRamp ∨ p = phaseSettle) ∧ !s.ang.returning then rungReturn s
  else s

/-- A spindle fault ends a change with RESULT SPINDLE: no RETURN, any hold released, PEND cleared (R88). -/
def rungSpindleFault (s : State) : State :=
  if s.rd Reg.angRungPhase = phaseIdle then s else
  let s := (rungResult (s.wr Reg.angRungPhase phaseIdle) rungSpindle).clr Reg.angRungPend
  rungReleaseHold (s.setAng { s.ang with returning := false, returnDown := false })

/-- Power loss, a device-fatal fault, a safe-state broadcast or SVC_MODE meets a change (R88): RESULT ABANDONED, PHASE
IDLE, PEND cleared; the sequencers stay held. -/
def rungPreempt (s : State) : State :=
  if s.rd Reg.angRungPhase = phaseIdle then s else
  let s := (rungResult (s.wr Reg.angRungPhase phaseIdle) rungAbandoned).clr Reg.angRungPend
  s.setAng { s.ang with returning := false, returnDown := false }

/-- CEILING is the slower of CEIL_AGE and CEIL_THM; if it becomes slower than CURRENT, basic level requests a change down
to it and expert level only sets CEIL_EXCEEDED (R83). -/
def rungCeiling (s : State) : State :=
  let c := max (s.rd Reg.angRungCeilAge) (s.rd Reg.angRungCeilThm)
  let s := s.wr Reg.angRungCeiling c
  if s.rd Reg.angRungCurrent < c then
    if expert s Reg.angModeLevel then s.set Reg.angRungCeilExceeded else rungAsk s c
  else s

end Sys2Proof.Machine
end

