-- ==== Sys2Proof/Machine/AngleTime.lean ====
section
/-!
DEFINITION. Angle time and cadence (spec/03_angle_time.md, R73 to R95): the lock states of ANG, the revolution count, the
steps of a rung change at both levels, operating seconds, the snapshot and the alarm.
-/

namespace Sys2Proof.Machine

/-! ## Lock states (R77 to R79) -/

/-- VALID as the state and INDEX_KNOWN give it (R77). -/
def angValid (s : State) : Bool :=
  let st := s.rd Reg.angStatusState
  st == angLocked || st == angCoast || ((st == angCoarse || st == angAcquire) && s.flag Reg.angStatusIndexKnown)

/-- ANG enters a state with a phase source: STATE_CHG when it changes, VALID as R77 gives it, the counts of the state
entered at zero. -/
def angEnter (s : State) (st src : Nat) : State :=
  let s := s.when (s.rd Reg.angStatusState != st) fun s => s.set Reg.angIrqStatusStateChg
  let s := (s.wr Reg.angStatusState st).wr Reg.angStatusSrc src
  let s := s.setAng { s.ang with acq := 0, bad := 0, switching := false }
  s.wr Reg.angPosValid (bit (angValid s))

/-- ANG leaves LOCKED: a rung change in progress is abandoned or returns (R88). -/
def angUnlock (s : State) (st src : Nat) : State :=
  let was := s.rd Reg.angStatusState
  let s := angEnter s st src
  if was = angLocked then rungLostLock s else s

/-- Whether SRC_SEL allows an actuator as source (R78, R80). -/
def angAllowed (s : State) (act : Nat) : Bool :=
  let sel := s.rd Reg.angCtlSrcSel
  sel == 0 || sel == act + 1

/-- Whether an actuator follows a head: one PARKED, RETRACTING or FAILED delivers no usable mark (R78). -/
def angFollows (s : State) (act : Nat) : Bool :=
  let st := s.rd (Reg.srvStatusState.elem act)
  st != srvParked && st != srvRetracting && st != srvFailed

/-- The effective skew of a surface in ticks (R75). -/
def surfaceSkew (s : State) (surface : Nat) : Int := signedOf 21 (s.rd (Reg.angSkewSkew.elem surface))

/-- The surface full angle of a device full angle, as a revolution count and a tick index (R75): the sum wraps modulo
W × 1,024 with a carry into REV. -/
def surfaceAngle (s : State) (surface full : Nat) : Nat :=
  let rev := s.sim.cfg.w * 1024
  let lin : Int := (full / 2 ^ 21 * rev + full % 2 ^ 21 : Nat) + surfaceSkew s surface
  let lin := lin.toNat
  if rev = 0 then full else lin / rev * 2 ^ 21 + lin % rev

/-- The wedge number a head on `surface` should see at a device full angle (R78). -/
def predictedWedge (s : State) (surface dev : Nat) : Nat := surfaceAngle s surface dev / 1024 % 2 ^ 11

/-- LOCKED is reached (R79): with INDEX_KNOWN 0 the wedge comes from the mark, REV rises by one, GAP_COUNT counts and GAP
is raised; INDEX_KNOWN is 1 from here on. -/
def angLock (s : State) (act decoded dev : Nat) : State :=
  let s :=
    if s.flag Reg.angStatusIndexKnown then setAngle s dev
    else
      let s := setAngle s ((s.rev + 1) % 2 ^ 44 * 2 ^ 21 + decoded * 2 ^ 10)
      (s.bump Reg.angStatusGapCount).set Reg.angIrqStatusGap
  angEnter (s.set Reg.angStatusIndexKnown) angLocked act

/-- GOOD_WEDGE_MARK (R78, R79): a good mark from an allowed actuator that follows a head. It takes COARSE or COAST into
ACQUIRE, is compared with the predicted wedge in ACQUIRE and LOCKED, and moves the source where a switch waits. -/
def execGoodWedgeMark (act surface dev decoded : Nat) (s : State) : Host.Outcome State Fault Refusal :=
  if !angAllowed s act || !angFollows s act then .next s else
  let st := s.rd Reg.angStatusState
  let known := s.flag Reg.angStatusIndexKnown
  let pred := if known then some (predictedWedge s surface dev) else s.ang.predWedge
  let agrees := pred == some decoded
  let nextPred := if s.sim.cfg.w = 0 then some (decoded + 1) else some ((decoded + 1) % s.sim.cfg.w)
  let remember (s : State) : State := s.setAng { s.ang with predWedge := nextPred }
  if st = angCoarse ∨ st = angCoast then .next (remember (angEnter s angAcquire act))
  else if st = angAcquire then
    if agrees then
      let s := s.setAng { s.ang with acq := s.ang.acq + 1 }
      .next (remember (if s.rd Reg.angCoastAcqMarks ≤ s.ang.acq then angLock s act decoded dev else s))
    else .next (remember (s.setAng { s.ang with acq := 0 }))
  else if st = angLocked then
    let src := s.rd Reg.angStatusSrc
    if act = src then
      if agrees then .next (remember (setAngle (s.setAng { s.ang with bad := 0 }) dev))
      else if s.ang.bad = 0 then .next (remember (s.setAng { s.ang with bad := 1 }))
      else .next (remember (angUnlock s angAcquire act))
    else if s.ang.switching || (s.rd Reg.angCtlSrcSel == 0 && act == 0) then
      .next (remember ((s.setAng { s.ang with switching := false, bad := 0 }).wr Reg.angStatusSrc act))
    else .next s
  else .next s

/-- The write gate of an actuator falls: its on-track flag and gate go low (R32, R78, R141). -/
def gateLow (s : State) (n : Nat) : State :=
  (s.clr (Reg.bwkStatusOntrack.elem n)).clr (Reg.bwkStatusGate.elem n)

/-- MISSING_WEDGE_MARK (R78): an expected mark is missing. The affected actuator's write gate falls at once; on the source
ANG switches at the other allowed actuator's next mark, or coasts, or with COAST_WEDGES 0 falls straight to COARSE. -/
def execMissingWedgeMark (act : Nat) (otherGood : Bool) (s : State) : Host.Outcome State Fault Refusal :=
  let s := (gateLow s act).clr (Reg.srvStatusOntrack.elem act)
  if s.rd Reg.angStatusState = angLocked ∧ s.rd Reg.angStatusSrc = act then
    if otherGood && angAllowed s (1 - act) && angFollows s (1 - act) then
      .next (s.setAng { s.ang with switching := true })
    else if s.rd Reg.angCoastCoastWedges = 0 then .next (angUnlock s angCoarse 2)
    else .next (angUnlock s angCoast 3)
  else .next s

/-- COAST_WEDGES_EXPIRY (R78): COAST falls to COARSE. -/
def execCoastWedgesExpiry (s : State) : Host.Outcome State Fault Refusal :=
  .next (if s.rd Reg.angStatusState = angCoast then angEnter s angCoarse 2 else s)

/-- SPINDLE_ABOVE_300 (R78): STOPPED passes to COARSE with commutation running. -/
def execSpindleAbove300 (commutating : Bool) (s : State) : Host.Outcome State Fault Refusal :=
  .next (if s.rd Reg.angStatusState = angStopped ∧ commutating then angEnter s angCoarse 2 else s)

/-- ANG stops (R78, R79): STOPPED, no source, INDEX_KNOWN clear, REV_PERIOD 0. -/
def angStop (s : State) : State :=
  let s := (s.clr Reg.angStatusIndexKnown).clr Reg.angRevPeriodCycles
  let s := s.setAng { s.ang with predWedge := none }
  angUnlock s angStopped 3

/-- SPINDLE_BELOW_300 (R78). -/
def execSpindleBelow300 (s : State) : Host.Outcome State Fault Refusal :=
  .next (if s.rd Reg.angStatusState = angStopped then s else angStop s)

/-- REV_STORE (R79): REV is stored in MRAM as its low 20 bits pass through 0. -/
def execRevStore (s : State) : Host.Outcome State Fault Refusal :=
  .next (s.setAng { s.ang with revStored := s.rev / 2 ^ 20 * 2 ^ 20 })

/-! ## Rung changes (R83 to R89) -/

/-- CEILING_CHANGE (R83): AGE or Sluice moves its ceiling. -/
def execCeilingChange (age : Bool) (rung : Nat) (s : State) : Host.Outcome State Fault Refusal :=
  .next (rungCeiling (if age then s.wr Reg.angRungCeilAge rung else s.wr Reg.angRungCeilThm rung))

/-- RUNG_TARGET_WRITE (R87, R88, R89): a write of ANG_RUNG. CEIL_EXCEEDED clears where 1 is written. At expert level TARGET
only records the destination; at basic level it is judged, or held while a change runs. -/
def execRungTargetWrite (data : Word) (s : State) : Host.Outcome State Fault Refusal :=
  let target := fieldOf data 8 2
  let s := s.when (fieldOf data 31 1 == 1) fun s => s.clr Reg.angRungCeilExceeded
  let s := if expert s Reg.angModeLevel then s.wr Reg.angRungTarget target else rungAsk s target
  .next (s.answer 0)

/-- Whether a sequencer stands at a plank boundary with its write gate low. -/
def bwkAtBoundary (s : State) (n : Nat) : Bool :=
  !(s.bwk.get n).run.begun && !s.flag (Reg.bwkStatusGate.elem n) && !s.flag (Reg.bwkStatusWreq.elem n)

/-- Whether a loop is no obstacle to HELD: following on track, PARKED or FAILED (R84). -/
def srvHeldReady (s : State) (n : Nat) : Bool :=
  let st := s.rd (Reg.srvStatusState.elem n)
  (st == srvFollow && s.flag (Reg.srvStatusOntrack.elem n)) || st == srvParked || st == srvFailed

/-- The condition of HELD on both present actuators (R84). -/
def rungHeldReady (s : State) : Bool :=
  s.actuators.all fun n => bwkAtBoundary s n && srvHeldReady s n

/-- RUNG_HELD (R84): HOLDING passes to HELD; at basic level the ramp starts with it. -/
def execRungHeld (s : State) : Host.Outcome State Fault Refusal :=
  if s.rd Reg.angRungPhase = phaseHolding ∧ rungHeldReady s then
    .next (s.wr Reg.angRungPhase (if expert s Reg.angModeLevel then phaseHeld else phaseRamp))
  else .next s

/-- The rung a ramp heads for. -/
def rungHeading (s : State) : Nat := if s.ang.returning then s.ang.origin else s.rd Reg.angRungTarget

/-- SCHED_RUNG_SWITCH (R85): in RAMP or RETURN the gain schedule's rung becomes the one the ramp heads for, unless it
already is. -/
def execSchedRungSwitch (s : State) : Host.Outcome State Fault Refusal :=
  let p := s.rd Reg.angRungPhase
  .next (if p = phaseRamp ∨ p = phaseReturn then s.wr Reg.angRungSchedRung (rungHeading s) else s)

/-- RUNG_RAMP_END (R84, R85): the ramp, or the RETURN's ramp, is over; the phase is SETTLE and SCHED_RUNG names the rung
headed for. -/
def execRungRampEnd (s : State) : Host.Outcome State Fault Refusal :=
  let p := s.rd Reg.angRungPhase
  if p = phaseRamp ∨ p = phaseReturn then
    let s := (s.wr Reg.angRungSchedRung (rungHeading s)).wr Reg.angRungPhase phaseSettle
    .next (s.setAng { s.ang with returnDown := s.ang.returning, settled := false })
  else .next s

/-- RUNG_SETTLED (R84): eight revolutions within the band. The basic automation and every RETURN go to RETUNE; an expert
change waits for its RETUNE. -/
def execRungSettled (s : State) : Host.Outcome State Fault Refusal :=
  if s.rd Reg.angRungPhase = phaseSettle then
    if expert s Reg.angModeLevel && !s.ang.returning then .next (s.setAng { s.ang with settled := true })
    else .next (s.wr Reg.angRungPhase phaseRetune)
  else .next s

/-- RUNG_SETTLE_TIMEOUT (R86): SETTLE not met 3.9 s after HELD; the change is abandoned into RETURN. -/
def execRungSettleTimeout (s : State) : Host.Outcome State Fault Refusal :=
  let p := s.rd Reg.angRungPhase
  .next (if (p = phaseRamp ∨ p = phaseSettle) ∧ !s.ang.returning then rungReturn s else s)

/-- An ANG_CMD write at basic level is ignored and counted (R14, R94). -/
def angCmdIgnored (s : State) : State := s.bump Reg.angModeExpertWrIgnored

/-- An expert OP that its phase does not allow: ignored, RESULT BAD_STEP (R89). -/
def angBadStep (s : State) : State := rungResult s rungBadStep

/-- ANG_CMD_HOLD (R89): from IDLE, judged against TARGET by steps 1 to 4 of R87. -/
def execAngCmdHold (s : State) : Host.Outcome State Fault Refusal :=
  if !expert s Reg.angModeLevel then .next ((angCmdIgnored s).answer 0)
  else if s.rd Reg.angRungPhase = phaseIdle then .next ((rungRequest s (s.rd Reg.angRungTarget)).answer 0)
  else .next ((angBadStep s).answer 0)

/-- ANG_CMD_RAMP (R89): from HELD, refused with BAD_STEP while either write gate is high. -/
def execAngCmdRamp (s : State) : Host.Outcome State Fault Refusal :=
  if !expert s Reg.angModeLevel then .next ((angCmdIgnored s).answer 0)
  else if s.rd Reg.angRungPhase = phaseHeld ∧ !s.flag (Reg.bwkStatusGate.elem 0) ∧ !s.flag (Reg.bwkStatusGate.elem 1) then
    .next ((s.wr Reg.angRungPhase phaseRamp).answer 0)
  else .next ((angBadStep s).answer 0)

/-- ANG_CMD_RETUNE (R89): from SETTLE once the SETTLE condition holds. -/
def execAngCmdRetune (s : State) : Host.Outcome State Fault Refusal :=
  if !expert s Reg.angModeLevel then .next ((angCmdIgnored s).answer 0)
  else if s.rd Reg.angRungPhase = phaseSettle ∧ s.ang.settled ∧ !s.ang.returning then
    .next ((s.wr Reg.angRungPhase phaseRetune).answer 0)
  else .next ((angBadStep s).answer 0)

/-- ANG_CMD_RELEASE (R89): from RETUNE complete, the sequencers are released and RESULT is DONE. -/
def execAngCmdRelease (s : State) : Host.Outcome State Fault Refusal :=
  if !expert s Reg.angModeLevel then .next ((angCmdIgnored s).answer 0)
  else if s.rd Reg.angRungPhase = phaseRetune ∧ s.ang.retuned ∧ !s.ang.returning then
    .next ((rungFinish s rungDone).answer 0)
  else .next ((angBadStep s).answer 0)

/-- ANG_CMD_ABORT (R89): from HOLDING or HELD the sequencers are released at once; from RAMP or SETTLE the change enters
RETURN. -/
def execAngCmdAbort (s : State) : Host.Outcome State Fault Refusal :=
  if !expert s Reg.angModeLevel then .next ((angCmdIgnored s).answer 0) else
  let p := s.rd Reg.angRungPhase
  if s.ang.returning then .next ((angBadStep s).answer 0)
  else if p = phaseHolding ∨ p = phaseHeld then .next ((rungFinish s rungAbandoned).answer 0)
  else if p = phaseRamp ∨ p = phaseSettle then .next ((rungReturn s).answer 0)
  else .next ((angBadStep s).answer 0)

/-! ## Seconds, snapshot and alarm (R91 to R95) -/

/-- OPSEC_STORE (R91): operating seconds are stored in MRAM every 64 s. The count itself is advanced by 64 here, since no
other command carries the passing of seconds (notes/assumptions/9.md). -/
def execOpsecStore (s : State) : Host.Outcome State Fault Refusal :=
  let v := (s.opsec + 64) % 2 ^ 40
  let s := (s.wr Reg.angOpsecOpsec (v % 2 ^ 32)).wr (Reg.angOpsecOpsec.elem 1) (v / 2 ^ 32)
  .next (s.setAng { s.ang with opsecStored := v })

/-- SNAPSHOT_TAKE (R93): the full angle and STATE, the cycle count, domain time with its validity, and operating seconds
at one edge. -/
def execSnapshotTake (full cycles : Nat) (s : State) : Host.Outcome State Fault Refusal :=
  let valid := s.rd Reg.angPosValid
  let pos := valid * 2 ^ 31 + s.rd Reg.angStatusState * 2 ^ 28 + s.rd Reg.domStatusTimeValid * 2 ^ 27
    + full / 2 ^ 10 % 2 ^ 11 * 2 ^ 16 + full % 2 ^ 10
  let rev := full / 2 ^ 21 % 2 ^ 44
  let s := s.wr Reg.angSnapPos pos
  let s := (s.wr Reg.angSnapRevRev (rev % 2 ^ 32)).wr (Reg.angSnapRevRev.elem 1) (rev / 2 ^ 32)
  let s := (s.wr Reg.angSnapCycCyc (cycles % 2 ^ 32)).wr (Reg.angSnapCycCyc.elem 1) (cycles / 2 ^ 32)
  let s := (s.wr Reg.angSnapDtimeDtime (s.rd Reg.domTimeLoUs)).wr (Reg.angSnapDtimeDtime.elem 1) (s.rd Reg.domTimeHiUs)
  let s := (s.wr Reg.angSnapOpsecOpsec (s.opsec % 2 ^ 32)).wr (Reg.angSnapOpsecOpsec.elem 1) (s.opsec / 2 ^ 32)
  .next ((s.clr Reg.angSnapTake).answer 0)

/-- The half of a register pair that master `m` has written and not yet made effective (R13). -/
def stagedHalf (s : State) (m addr : Nat) : Option Word := Store.read none s.loHalf (m * 2 ^ 40 + addr)

/-- A half staged by master `m`. -/
def stageHalf (s : State) (m addr : Nat) (w : Option Word) : State :=
  s.setLoHalf (Store.write none s.loHalf (m * 2 ^ 40 + addr) w)

/-- ALARM_ARM (R95, R13): the revolution halves this master wrote take effect with the position; a wedge at or above W is
taken as 0 and recorded. -/
def execAlarmArm (m : Nat) (data : Word) (s : State) : Host.Outcome State Fault Refusal :=
  let lo := Reg.angAlarmRevLoRev.addr
  let hi := Reg.angAlarmRevHiRev.addr
  let s := match stagedHalf s m lo with | some w => stageHalf (s.wrWord lo w) m lo none | none => s
  let s := match stagedHalf s m hi with
    | some w => stageHalf (s.wr Reg.angAlarmRevHiRev (fieldOf w 0 12)) m hi none | none => s
  let wedge := fieldOf data 16 11
  let bad := decide (s.sim.cfg.w ≤ wedge)
  let s := s.when bad corrected
  let s := s.wr Reg.angAlarmPosWedge (if bad then 0 else wedge)
  .next (((s.wr Reg.angAlarmPosTick (fieldOf data 0 10)).wr Reg.angAlarmPosEn (fieldOf data 31 1)).answer 0)

/-- The alarm's full angle. -/
def alarmAngle (s : State) : Nat :=
  s.rdPair Reg.angAlarmRevLoRev Reg.angAlarmRevHiRev * 2 ^ 21 + s.rd Reg.angAlarmPosWedge * 2 ^ 10
  + s.rd Reg.angAlarmPosTick

/-- ALARM_FIRE (R95): armed, VALID, and the device full angle at or past the alarm's: ALARM is raised and EN clears. -/
def execAlarmFire (full : Nat) (s : State) : Host.Outcome State Fault Refusal :=
  if s.flag Reg.angAlarmPosEn && s.flag Reg.angPosValid && decide (alarmAngle s ≤ full) then
    .next (((setAngle s full).set Reg.angIrqStatusAlarm).clr Reg.angAlarmPosEn)
  else .next s

end Sys2Proof.Machine
end

