-- ==== Sys2Proof/Machine/AssistOps.lean ====
section
/-!
DEFINITION. Assist operations (spec/07_assist_write.md, R197 to R211): frames and sensor words, the gain and open-loop tables,
the loop states and their entries.
-/

namespace Sys2Proof.Machine

/-! ## Codes (R203, R204) -/

def astIdle : Nat := 0
def astRamp : Nat := 1
def astLevel : Nat := 2
def astHold : Nat := 3
def astDown : Nat := 4
def astOpen : Nat := 5
def astFault : Nat := 6

/-- ASTn's state code. -/
def astState (s : State) (n : Nat) : Nat := s.rd (Reg.astStatusState.elem n)

/-- PA_SELECT of a head (R51). -/
def paSelect (s : State) (h : Nat) : Nat := (nth ⟨2, 0, 0, 0, 0⟩ s.sim.cfg.heads h).paSelect

/-- The head of actuator `n` that a PA_SELECT names, 255 where none does. -/
def headOfPa (s : State) (n pa : Nat) : Nat :=
  ((List.range s.sim.cfg.heads.length).find? fun h =>
    (nth ⟨2, 0, 0, 0, 0⟩ s.sim.cfg.heads h).actuator == n && (nth ⟨2, 0, 0, 0, 0⟩ s.sim.cfg.heads h).paSelect == pa).getD 255

/-- The effective value of a calibrated quantity (R385). -/
def calEff (s : State) (qid : Nat) : Int := Store.read 0 s.cal.eff qid

/-- QID of index `i` in group `g` (R386). -/
def qidOf (g i : Nat) : Nat := g * 4096 + i

/-! ## Bounds of LIMITS entries (R56) -/

/-- A value held to the LIMITS entries of an identifier: floors raise it, ceilings lower it. -/
def limitValue (s : State) (id v : Nat) : Nat :=
  s.sim.cfg.limits.foldl (fun v e =>
    if e.id ≠ id then v
    else
      let v := if e.floor then max v e.value else v
      if e.ceiling then min v e.value else v) v

/-! ## Frames and sensor words (R198, R199) -/

/-- A CRC over the bits `hi` to `lo` of a number, most significant first, initial value 0. -/
def crcBits (width poly v hi lo : Nat) : Nat :=
  (List.range (hi + 1 - lo)).foldl (fun r i =>
    let top := r.testBit (width - 1) != v.testBit (hi - i)
    let sh := r * 2 % 2 ^ width
    if top then sh ^^^ poly else sh) 0

/-- An assist frame: HEAD, setpoint code, sequence; OFF carries setpoint 0 (R198). -/
def assistFrame (head code seq : Nat) : Nat :=
  let cmd := if code = 0 then 0 else 1
  let v := 2 * 2 ^ 30 + head % 16 * 2 ^ 26 + cmd * 2 ^ 24 + code % 4096 * 2 ^ 12 + seq % 16 * 2 ^ 8
  v + crcBits 8 0x07 v 29 8

/-- SYNC and CRC of a sensor word are correct (R199, R201). -/
def sensorGood (w : Nat) : Bool := bitsOf w 30 2 == 2 && crcBits 6 0x03 w 29 6 == bitsOf w 0 6

/-- PROXY of a sensor word. -/
def sensorProxy (w : Nat) : Nat := bitsOf w 16 14

/-! ## Tables (R206 to R209) -/

/-- Bytes of a gain set or open-loop record: `size` bytes at byte `off` of the tables in force. -/
def astTable (s : State) (n off size : Nat) : Nat :=
  let w := (Store.read 0 (s.ast.get n).table (off / 4)).toNat
  w / 2 ^ (8 * (off % 4)) % 2 ^ (8 * size)

/-- A field of the latched gain set (R206, R208). -/
def astSet (s : State) (n off size : Nat) : Nat := astTable s n (32 * s.rd (Reg.astStatusGset.elem n) + off) size

/-- The fields of the latched set that are taken at a bound (R208). -/
def astIMax (s : State) (n : Nat) : Nat := min 4095 (astSet s n 0x0E 2)
def astRampDn (s : State) (n : Nat) : Nat := max 1 (astSet s n 0x12 2)
def astIbRun (s : State) (n : Nat) : Nat := max 1 (astSet s n 0x16 1)
def astOobRun (s : State) (n : Nat) : Nat := max 1 (astSet s n 0x17 1)

/-- OL_SET of a head and band in force (R207). -/
def olSet (s : State) (n pa band : Nat) : Nat := astTable s n (4 * 4096 + 64 * pa + 2 * band) 2

/-- DOWN step `i` of a head: fraction and samples (R207). -/
def olDown (s : State) (n pa i : Nat) : Nat × Nat :=
  let v := astTable s n (4 * 4096 + 64 * pa + 0x10 + 2 * i) 2
  if i < 16 then (v / 256, v % 256) else (0, 0)

/-- The ceiling entry in force: an unlisted entry is at its reset value (R209, R224). -/
def ceilWord (s : State) (n i : Nat) : Word := Store.read 0x0FFF0FFF (s.ast.get n).ceil i
def wwCeil (s : State) (n : Nat) : Nat :=
  bitsOf (ceilWord s n ((s.ast.get n).head * 8 + (s.ast.get n).band)).toNat 16 12
def ageCeil (s : State) (n : Nat) : Nat :=
  bitsOf (ceilWord s n ((s.ast.get n).head * 8 + (s.ast.get n).band)).toNat 0 12

/-- A ceiling entry staged until the assist boundary (R209). -/
def stageCeil (s : State) (n i : Nat) (w : Word) : State :=
  let a := s.ast.get n
  (s.setAst n { a with ceilPend := Store.write none a.ceilPend i (some w) }).set (Reg.astStagedPend.elem n)

/-- A word of the gain or open-loop tables staged until the assist boundary (R209). -/
def stageTable (s : State) (n i : Nat) (w : Word) : State :=
  let a := s.ast.get n
  (s.setAst n { a with tablePend := Store.write none a.tablePend i (some w) }).set (Reg.astStagedPend.elem n)

/-- The ceiling entry last written, staged or not (R209). -/
def ceilLast (s : State) (n i : Nat) : Word := (Store.read none (s.ast.get n).ceilPend i).getD (ceilWord s n i)

/-- Staged values take effect (R209). -/
def astApplyStaged (s : State) (n : Nat) : State :=
  let a := s.ast.get n
  if a.tablePend.isEmpty ∧ a.ceilPend.isEmpty then s else
  let put (d : Word) (m : Store Word) (l : Store (Option Word)) : Store Word :=
    l.foldl (fun m e => match e.2 with | some w => Store.write d m e.1 w | none => m) m
  let s := s.setAst n { a with table := put 0 a.table a.tablePend, tablePend := []
                               ceil := put 0x0FFF0FFF a.ceil a.ceilPend, ceilPend := [] }
  (s.clr (Reg.astStagedPend.elem n)).set (Reg.astIrqStatusStagedApplied.elem n)

/-! ## The in-band flag (R205, R141) -/

/-- The in-band flag takes a value, at ASTn and at the gate. A gate that falls stays low until its plank ends, and the flag
is noted in GATE_CAUSE. -/
def setInBand (s : State) (n : Nat) (v : Bool) : State :=
  let gate := s.flag (Reg.bwkStatusGate.elem n)
  let s := (s.wr (Reg.astStatusInband.elem n) (bit v)).wr (Reg.bwkStatusInband.elem n) (bit v)
  let b := s.bwk.get n
  let s := if gate && !v then
      s.setBwk n { b with gateDown := true, run := { b.run with gateCause := b.run.gateCause ||| 2 } }
    else s
  s.wr (Reg.bwkStatusGate.elem n)
    (bit (s.flag (Reg.bwkStatusWreq.elem n) && s.flag (Reg.bwkStatusOntrack.elem n) && v && !(s.bwk.get n).gateDown))

/-! ## States (R203) -/

/-- ASTn enters a state; the in-band flag falls on entry to DOWN, OPEN, FAULT and IDLE (R205). -/
def astEnter (s : State) (n st : Nat) : State :=
  let s := s.wr (Reg.astStatusState.elem n) st
  let a := s.ast.get n
  if st = astIdle ∨ st = astFault then
    let s := s.setAst n { a with u := 0, downPend := false, invalid := 0, inRun := 0, outRun := 0, frozen := none
                                 frozenRun := 0, probeOff := 0 }
    setInBand ((s.wr (Reg.astStatusLimiter.elem n) 7).clr (Reg.astStatusHoldCnt.elem n)) n false
  else if st = astDown ∨ st = astOpen then setInBand (s.setAst n { a with downPend := false }) n false
  else s

/-- A DOWN event (R203): from RAMP or LEVEL to DOWN, recorded in HOLD, without effect elsewhere. -/
def astDownEvent (s : State) (n : Nat) : State :=
  let st := astState s n
  if st = astRamp ∨ st = astLevel then astEnter s n astDown
  else if st = astHold then s.setAst n { s.ast.get n with downPend := true }
  else s

/-- The chain that holds the assist ends (R122, R203). -/
def astChainEnd (s : State) (n : Nat) : State := astDownEvent s n

/-- Strobe 8.0, 8.1 or 8.3 (R203, R208): from IDLE the set is latched for the followed head, the rung and the radial band,
fields out of range are taken at their bounds and recorded, the integrator is preset from OL_SET, and RAMP begins with no
run of identical samples. -/
def astRampStart (s : State) (n : Nat) : State :=
  if astState s n ≠ astIdle then s else
  let pa := paSelect s (s.rd (Reg.srvStatusHead.elem n))
  let band := s.rd (Reg.srvStatusBand.elem n)
  let s := (s.wr (Reg.astStatusGset.elem n) (pa * 32 + s.rd Reg.angRungCurrent * 8 + band)).wr (Reg.astStatusHead.elem n) pa
  let bad := [astSet s n 0x16 1 == 0, astSet s n 0x17 1 == 0, astSet s n 0x12 2 == 0, decide (4095 < astSet s n 0x0E 2)]
  let s := s.each (bad.filter id) fun s _ => corrected s
  let s := s.setAst n { s.ast.get n with
    u := 0, sentPrev := 0, head := pa, band
    integral := if astSet s n 0x04 4 = 0 then 0 else olSet s n pa band * 2 ^ 24
    inRun := 0, outRun := 0, frozen := none, frozenRun := 0, invalid := 0, downPend := false }
  astEnter s n astRamp

/-- ASTn at once in IDLE with OFF frames: entry into SAFE or RECOVERY, DRST (R203). -/
def astStop (s : State) (n : Nat) : State := astEnter s n astIdle

/-- The followed head of actuator `n` changes (R203, R217). -/
def astHeadChange (s : State) (n : Nat) : State := astDownEvent s n

end Sys2Proof.Machine
end

