-- ==== Sys2Proof/Machine/CalOps.lean ====
section
/-!
DEFINITION. What CAL does at the end of any run (spec/14_calibration_ageing.md, R389, R394, R410): stamps, outcome, record.
-/

namespace Sys2Proof.Machine

/-- A sensor's reading as a number of 1/8 °C. -/
def sensorTemp (s : State) (k : Nat) : Int := signedOf 16 (s.rd (Reg.thmTempTemp.elem k))

/-- The temperature of a group (R389): the sensor of its RDC for groups 0 and 1, the hottest sensor of the HV die for group 2,
the external thermistor for the others. `inst` counts RDC lanes. -/
def calTemp (s : State) (g inst : Nat) : Int :=
  if g ≤ 1 then sensorTemp s (2 + inst / 2 % 2)
  else if g = 2 then
    max (max (sensorTemp s 8) (sensorTemp s 9)) (max (sensorTemp s 10) (sensorTemp s 11))
  else sensorTemp s 13

/-- Outcomes of LAST. -/
def calPass : Nat := 1
def calFailRange : Nat := 2
def calFailCheck : Nat := 3
def calNoRef : Nat := 4
def calAbort : Nat := 5

/-- A run of a group leaves the list of those in progress. -/
def calLeave (s : State) (g inst : Nat) : State :=
  let l := s.cal.running.filter fun r => !(r.group == g && r.inst == inst)
  let s := s.setCal { s.cal with running := l }
  if l.any fun r => r.group == g then s
  else s.wr Reg.calStatusRunning (maskClear (s.rd Reg.calStatusRunning) g)

/-- A run joins them. -/
def calEnter (s : State) (g inst : Nat) : State :=
  let s := s.setCal { s.cal with running := s.cal.running ++ [{ group := g, inst }] }
  s.wr Reg.calStatusRunning (maskSet (s.rd Reg.calStatusRunning) g)

/-- A run has ended (R394): RUNS, the stamps, LAST, FAILS unless it passed, the record, DONE or FAIL. -/
def calStamp (s : State) (g inst outcome : Nat) : State :=
  let s := calLeave s g inst
  let s := s.bump (Reg.calGrpRunsCount.elem g)
  let s := (s.wr (Reg.calGrpOpsecLoOpsec.elem g) (s.opsec % 2 ^ 32)).wr (Reg.calGrpOpsecHiOpsec.elem g) (s.opsec / 2 ^ 32)
  let s := (s.wr (Reg.calGrpRevLoRev.elem g) (s.rev % 2 ^ 32)).wr (Reg.calGrpRevHiRev.elem g) (s.rev / 2 ^ 32)
  let s := (s.wr (Reg.calGrpInstInst.elem g) (inst % 256)).wr (Reg.calGrpStatLast.elem g) outcome
  let s := if outcome = calPass then s else s.bump (Reg.calGrpStatFails.elem g)
  let s := record s srcCal 0 1
    ([BitVec.ofNat 8 g, BitVec.ofNat 8 outcome, BitVec.ofNat 8 inst] ++ leBytes 2 (s.rd (Reg.calGrpStatTempLast.elem g)))
  s.set (if outcome = calPass then Reg.calIrqStatusDone else Reg.calIrqStatusFail)

/-- A run that ends ABORTED (R410): it counts, no value changes, DUE is kept. -/
def calAborted (s : State) (g inst : Nat) : State :=
  if s.cal.running.any fun r => r.group == g && r.inst == inst then calStamp s g inst calAbort else s

/-- The number under which CAL holds a channel (R392). -/
def calHolder : Nat := 2

/-- Every internal run ends ABORTED, requests and channels with them: entry into SAFE or RECOVERY (R410). -/
def calStop (s : State) : State :=
  let s := s.each (s.cal.running.filter fun r => decide (r.group ≤ 2)) fun s r => calAborted s r.group r.inst
  let free (c : Chan) : Chan := if c.granted = some calHolder then { c with granted := none } else c
  ((s.setCal { s.cal with queue := [] }).setChan 0 (free s.chan.a0)).setChan 1 (free s.chan.a1)

end Sys2Proof.Machine
end

