-- ==== Sys2Proof/Machine/Geometry.lean ====
section
/-!
DEFINITION. Media geometry (spec/04_media_format.md, R96 to R117): pure functions of the structure image. Track positions,
slots and their angles, sector fields, bands and laggs, Peat rings, stripe groups, density plans and the conventional region.
-/

namespace Sys2Proof.Machine

/-! ## Positions and regions (R96 to R98) -/

/-- Track position and slot of a physical sector address (R97). -/
def psaTrack (psa : Nat) : Nat := psa / 2 ^ 12
def psaSlot (psa : Nat) : Nat := psa % 2 ^ 12

/-- The regions of a surface in ascending order. -/
def surfaceRegions (c : Structure) (surface : Nat) : List RegionEntry := c.regions.filter fun r => r.surface == surface

/-- F₀: where the recording regions of a surface begin (R96). -/
def surfaceFirst (c : Structure) (surface : Nat) : Nat :=
  match surfaceRegions c surface with
  | [] => 0
  | r :: _ => r.firstTrack

/-- E: where the recording regions of a surface end (R96). -/
def surfaceEnd (c : Structure) (surface : Nat) : Nat :=
  match (surfaceRegions c surface).getLast? with
  | none => 0
  | some r => r.firstTrack + r.trackCount

/-- The region that contains a position. -/
def regionAt (c : Structure) (surface pos : Nat) : Option RegionEntry :=
  (surfaceRegions c surface).find? fun r => decide (r.firstTrack ≤ pos) && decide (pos < r.firstTrack + r.trackCount)

/-- The first position of the conventional region (R96). -/
def convFirst (c : Structure) : Nat := c.tracks - c.convTracks

/-- The region whose SECTORS_PER_TRACK and PREAMBLE_BITS a track takes (R98): its own; the lowest for the system area; the
highest for the conventional region. -/
def formatRegion (c : Structure) (surface pos : Nat) : Option RegionEntry :=
  if pos < surfaceFirst c surface then (surfaceRegions c surface).head?
  else if convFirst c ≤ pos then (surfaceRegions c surface).getLast?
  else regionAt c surface pos

/-- SECTORS_PER_TRACK of a track; 0 where the surface has no such track. -/
def sectorsPerTrack (c : Structure) (surface pos : Nat) : Nat :=
  match formatRegion c surface pos with
  | none => 0
  | some r => r.sectors

/-- PREAMBLE_BITS of a track. -/
def preambleBits (c : Structure) (surface pos : Nat) : Nat :=
  match formatRegion c surface pos with
  | none => 0
  | some r => r.preamble

/-- Whether `pos` is a conventional track of an area from `first` of `len` positions: an even offset whose partner also
lies in the area (R98). -/
def conventionalTrack (first len pos : Nat) : Bool :=
  decide (first ≤ pos) && (pos - first) % 2 == 0 && decide (pos + 1 < first + len)

/-! ## Data ticks and slots (R99 to R101) -/

/-- Data ticks of a track. -/
def dataTicks (c : Structure) : Nat := c.w * 928

/-- The tick index in the revolution of data tick `q` (R100): wedge q div 928, tick 96 + q mod 928. -/
def dataTickAt (q : Nat) : Nat := q / 928 * 1024 + 96 + q % 928

/-- Where slot `j` of a track at position `k` begins, in data ticks (R100). -/
def slotDataTick (c : Structure) (spt k j : Nat) : Nat :=
  (j * c.w * 928 / spt + k % 16 * c.w * 58) % dataTicks c

/-- The tick index in the revolution at which a slot begins. -/
def slotStart (c : Structure) (spt k j : Nat) : Nat := dataTickAt (slotDataTick c spt k j)

/-- Whether a slot contains a servo field, so that its sector is split (R101). -/
def slotSplit (c : Structure) (spt k j : Nat) : Bool :=
  slotDataTick c spt k j / 928 != slotDataTick c spt k (j + 1) / 928 && slotDataTick c spt k (j + 1) % 928 != 0

/-- A tick lies in a servo field (R99). -/
def inServoField (tick : Nat) : Bool := decide (tick % 1024 < 96)

/-! ## The servo field (R99) -/

/-- Gray code of a track ID. -/
def grayCode (n : Nat) : Nat := n ^^^ (n / 2)

/-- Wedge parity: the XOR of the wedge number's three nibbles, its top 3 bits zero-extended. -/
def wedgeParity (w : Nat) : Nat := (w % 16) ^^^ (w / 16 % 16) ^^^ (w / 256 % 8)

/-! ## The frame header (R103) -/

/-- One bit into a CRC of `width` bits, most significant first. -/
def crcStep (width poly reg : Nat) (b : Bool) : Nat :=
  let top := reg.testBit (width - 1) != b
  let sh := reg * 2 % 2 ^ width
  if top then sh ^^^ poly else sh

/-- The bits of a number, most significant first. -/
def bitsMsb (width v : Nat) : List Bool := (List.range width).map fun i => v.testBit (width - 1 - i)

/-- CRC-8 of the frame header: x⁸ + x² + x + 1, initial value 0, over bits 31:8 in order. -/
def headerCrc (v : Nat) : Nat := (bitsMsb 24 v).foldl (crcStep 8 0x07) 0

/-- The frame header of a slot on a track (R103). -/
def frameHeader (slot track : Nat) : Nat :=
  let v := slot % 2 ^ 12 * 2 ^ 12 + track % 2 ^ 12
  v * 2 ^ 8 + headerCrc v

/-- Whether a received header is consistent. -/
def headerGood (h : Nat) : Bool := headerCrc (h / 2 ^ 8) == h % 2 ^ 8

/-! ## CRCs over bytes -/

/-- CRC32C of a byte string (reflected Castagnoli polynomial, all ones in, inverted out). -/
def crc32cByte (reg : Nat) (b : Byte) : Nat :=
  (List.range 8).foldl (fun r _ => if r.testBit 0 then (r / 2) ^^^ 0x82F63B78 else r / 2) (reg ^^^ b.toNat)

/-- CRC32C (R45, R46, R104). -/
def crc32c (bs : List Byte) : Nat := (bs.foldl crc32cByte 0xFFFFFFFF) ^^^ 0xFFFFFFFF

/-- CRC-16 of a byte string, most significant bit first, with a polynomial and an initial value. -/
def crc16 (poly init : Nat) (bs : List Byte) : Nat :=
  bs.foldl (fun r b => (bitsMsb 8 b.toNat).foldl (crcStep 16 poly) r) init

/-! ## Stripe groups and density plans (R109 to R113) -/

/-- D: the data capacity of S usable slots (R110). -/
def dataCapacity (g p S : Nat) : Nat :=
  let full := S / (g + p)
  full * g + (S - full * (g + p) - p)

/-- The fewest slots whose data capacity is Z: whole groups, then the rest with its parity (R110). -/
def slotsFor (g p Z : Nat) : Nat := Z / g * (g + p) + (if Z % g = 0 then 0 else Z % g + p)

/-- F: the band footprint of a region (R107). -/
def bandFootprint (c : Structure) (r : RegionEntry) : Nat :=
  (slotsFor c.stripeG c.stripeP c.zoneSectors + r.sectors - 1) / r.sectors

/-- The band slot of data sector `m`, the last group apart (R109). -/
def bandSlot (g p m : Nat) : Nat := m / g * (g + p) + m % g

/-- Group of a band slot, and whether it is a parity slot (R109). -/
def slotGroup (g p b : Nat) : Nat := b / (g + p)
def parityAtSlot (g p b : Nat) : Bool := decide (g ≤ b % (g + p))

/-- The tracks a band has under plan `d` (R111). -/
def planTracks (F d : Nat) : Nat := F * 64 / (64 + 4 * d)

/-- The centre of track `i` under plan `d`, in 1/256 position from the band's first position (R111). -/
def planCentre (d i : Nat) : Nat := i * (256 + 16 * d)

/-- The track position assigned to track `i` of a band (R111). -/
def planPosition (first d i : Nat) : Nat := first + planCentre d i / 256

/-- Zone capacity under plan `d` with `defects` defect slots (R110, R111). -/
def zoneCapacity (c : Structure) (r : RegionEntry) (d defects : Nat) : Nat :=
  min c.zoneSectors
    (dataCapacity c.stripeG c.stripeP (planTracks (bandFootprint c r) d * r.sectors - defects))

/-- The group, and the slot within it, from which a band is sealed for a short last group: its data slots then P parity
slots (R112). -/
def lastGroupData (g capacity : Nat) : Nat := if capacity % g = 0 then g else capacity % g

/-! ## Peat rings (R106) -/

/-- Footprint of a Peat ring. -/
def peatFootprint (c : Structure) : Nat := 512 + 2 * c.laggMin

/-- Centre of ring `k` of a surface. -/
def peatCentre (c : Structure) (surface k : Nat) : Nat :=
  surfaceFirst c surface + (2 * k + 1) * (surfaceEnd c surface - surfaceFirst c surface) / (2 * c.peatRings)

/-- First position of the footprint of ring `k`, moved to the boundary of the region that holds its centre. -/
def peatStart (c : Structure) (surface k : Nat) : Nat :=
  let at_ := peatCentre c surface k
  let start := at_ - 256 - c.laggMin
  match regionAt c surface at_ with
  | none => start
  | some r =>
    if start < r.firstTrack then r.firstTrack
    else if r.firstTrack + r.trackCount < start + peatFootprint c then r.firstTrack + r.trackCount - peatFootprint c
    else start

/-- The Peat footprints of a surface, as (first, length). -/
def peatSpans (c : Structure) (surface : Nat) : List (Nat × Nat) :=
  (List.range c.peatRings).map fun k => (peatStart c surface k, peatFootprint c)

/-- The Peat rings of a surface are valid: each lies in the region that holds its centre, and no two overlap (R106). -/
def peatValid (c : Structure) (surface : Nat) : Bool :=
  let ks := List.range c.peatRings
  ks.all (fun k => match regionAt c surface (peatCentre c surface k) with
    | none => false
    | some r => decide (peatFootprint c ≤ r.trackCount))
  && ks.all (fun k => ks.all fun j => decide (j ≤ k)
      || decide (peatStart c surface k + peatFootprint c ≤ peatStart c surface j))

/-! ## Bands and laggs (R107, R108) -/

/-- The runs of a region outside Peat footprints, from `lo` up, as (first, end). `spans` rise. -/
def freeRuns (hi : Nat) : Nat → List (Nat × Nat) → List (Nat × Nat)
  | lo, [] => if lo < hi then [(lo, hi)] else []
  | lo, (a, n) :: rest =>
    if a + n ≤ lo then freeRuns hi lo rest
    else if hi ≤ a then (if lo < hi then [(lo, hi)] else [])
    else if lo < a then (lo, a) :: freeRuns hi (a + n) rest
    else freeRuns hi (a + n) rest

/-- A run of bands: the region, the first position, and how many bands the run holds. -/
structure BandRun where
  region : RegionEntry
  first  : Nat
  pitch  : Nat
  count  : Nat
  deriving DecidableEq, Repr

/-- The band runs of a surface in ascending position (R107). -/
def bandRuns (c : Structure) (surface : Nat) : List BandRun :=
  (surfaceRegions c surface).flatMap fun r =>
    let pitch := bandFootprint c r + c.laggMin
    (freeRuns (r.firstTrack + r.trackCount) r.firstTrack (peatSpans c surface)).map fun run =>
      { region := r, first := run.1, pitch, count := (run.2 - run.1) / pitch }

/-- Bands of a surface. -/
def bandCount (c : Structure) (surface : Nat) : Nat := (bandRuns c surface).foldl (fun n r => n + r.count) 0

/-- Band `b` of a surface: its region and first position (R107). -/
def bandAt : List BandRun → Nat → Option (RegionEntry × Nat)
  | [], _ => none
  | r :: rest, b => if b < r.count then some (r.region, r.first + b * r.pitch) else bandAt rest (b - r.count)

/-- What a position of a surface is. -/
inductive Area where
  | system | band (index track : Nat) | lagg | probe | peat | conventional | unused
  deriving DecidableEq, Repr

/-- The band area of a position, counting bands from `base`. -/
def bandArea (c : Structure) (pos base : Nat) : List BandRun → Option Area
  | [] => none
  | r :: rest =>
    if r.first ≤ pos ∧ pos < r.first + r.count * r.pitch then
      let off := (pos - r.first) % r.pitch
      let F := bandFootprint c r.region
      some (if off < F then .band (base + (pos - r.first) / r.pitch) off
        else if off - F = c.laggMin / 2 then .probe else .lagg)
    else bandArea c pos (base + r.count) rest

/-- What a position is (R96, R98, R106 to R108). -/
def areaOf (c : Structure) (surface pos : Nat) : Area :=
  if pos < surfaceFirst c surface then
    if conventionalTrack 0 (surfaceFirst c surface) pos then .system else .unused
  else if convFirst c ≤ pos then
    if pos < c.tracks ∧ conventionalTrack (convFirst c) c.convTracks pos then .conventional else .unused
  else
    match (peatSpans c surface).find? fun sp => decide (sp.1 ≤ pos) && decide (pos < sp.1 + sp.2) with
    | some sp =>
      if conventionalTrack (sp.1 + c.laggMin) 512 pos then .peat
      else if pos < sp.1 + c.laggMin ∨ sp.1 + c.laggMin + 512 ≤ pos then .lagg else .unused
    | none => (bandArea c pos 0 (bandRuns c surface)).getD .unused

/-- A lagg position: no WRITE plank may name it (R108, R123). -/
def isLagg (c : Structure) (surface pos : Nat) : Bool :=
  match areaOf c surface pos with
  | .lagg => true
  | .probe => true
  | _ => false

/-- A probe position (R108). -/
def isProbe (c : Structure) (surface pos : Nat) : Bool := areaOf c surface pos == .probe

/-! ## The conventional region (R114, R116, R117) -/

/-- Conventional tracks of the conventional region of a surface (R98). -/
def convTrackCount (c : Structure) : Nat := c.convTracks / 2

/-- The innermost tracks set aside as spares, and the usable ones (R114). -/
def convSpares (c : Structure) : Nat := (convTrackCount c + 63) / 64
def convUsable (c : Structure) : Nat := convTrackCount c - convSpares c

/-- SECTORS_PER_TRACK of the conventional region of a surface (R98). -/
def convSectors (c : Structure) (surface : Nat) : Nat := sectorsPerTrack c surface (convFirst c)

/-- The surfaces of a namespace's actuators in HEADMAP order (R114). -/
def nsSurfaces (c : Structure) (n : NsEntry) : List Nat :=
  (c.heads.filter fun h => n.actMask.testBit h.actuator).map fun h => h.surface

/-- Tracks already taken on each surface, keyed by surface. -/
abbrev ConvTaken := Store Nat

/-- Take tracks for `need` sectors from a list of surfaces: what each gives, and what is still needed. -/
def convTake (c : Structure) : List Nat → ConvTaken → Nat → ConvTaken × Nat
  | [], t, need => (t, need)
  | su :: rest, t, need =>
    let spt := convSectors c su
    let free := convUsable c - Store.read 0 t su
    let want := if spt = 0 then 0 else (need + spt - 1) / spt
    let n := min free want
    convTake c rest (Store.write 0 t su (Store.read 0 t su + n)) (need - n * spt)

/-- Whether every CSI 0 namespace gets its conventional zones, namespaces in HOSTLAYOUT order (R114). -/
def convFits (c : Structure) : List NsEntry → ConvTaken → Bool
  | [], _ => true
  | n :: rest, t =>
    if n.csi = 0 then
      let r := convTake c (nsSurfaces c n) t (n.convZones * c.zoneSectors)
      r.2 == 0 && convFits c rest r.1
    else convFits c rest t

/-- A defect-map entry (R115). -/
structure DefectEntry where
  psa    : Nat
  length : Nat
  origin : Nat
  deriving DecidableEq, Repr

/-- Whether a defect map covers a slot (R115): an entry of LENGTH 0 removes no slot. -/
def defectCovers (m : List DefectEntry) (psa : Nat) : Bool :=
  m.any fun e => decide (e.psa ≤ psa) && decide (psa < e.psa + e.length)

/-- The first free spare slot among candidates in ascending PSA: none that a spare-table entry names or the defect map
covers (R117). -/
def firstSpare (m : List DefectEntry) (spares : List (Nat × Nat)) (cands : List Nat) : Option Nat :=
  cands.find? fun p => !defectCovers m p && !spares.any fun e => e.2 == p

end Sys2Proof.Machine
end

