-- ==== Sys2Proof/Machine/Boardwalk.lean ====
section
/-!
DEFINITION. Boardwalk sequencers (spec/05_boardwalk.md, R118 to R143, R154, R155): planks, how a start angle becomes a
moment, chains and fences, the result entry, the write gate. What each action does when it begins is in the files of the
units it drives; the microword interpreter is in Microcode.lean.
-/

namespace Sys2Proof.Machine

/-! ## Codes -/

/-- Plank actions (R122). -/
def actSeek : Nat := 0
def actSettle : Nat := 1
def actRead : Nat := 2
def actWrite : Nat := 3
def actPreheat : Nat := 4
def actProbe : Nat := 5
def actCal : Nat := 6
def actMark : Nat := 7

/-- Plank statuses (R140). -/
def stOk : Nat := 0x00
def stSectorErr : Nat := 0x01
def stWriteFault : Nat := 0x02
def stSeekFault : Nat := 0x03
def stSettleTimeout : Nat := 0x04
def stParity : Nat := 0x05
def stNoAngle : Nat := 0x06
def stBadPlank : Nat := 0x07
def stBadEntry : Nat := 0x08
def stSuspectHead : Nat := 0x09
def stChainSkip : Nat := 0x0A
def stAborted : Nat := 0x0B
def stMarker : Nat := 0x0C
def stBufPoison : Nat := 0x0D
def stHalt : Nat := 0x0E

/-- The statuses that end a chain (R137). -/
def endsChainStatus (st : Nat) : Bool :=
  [stWriteFault, stSeekFault, stSettleTimeout, stParity, stNoAngle, stBadPlank, stBadEntry, stSuspectHead, stBufPoison,
   stHalt, stAborted].contains st

/-- BWKn_STATUS.STATE. -/
def bwkOff : Nat := 0
def bwkEmpty : Nat := 1
def bwkFence : Nat := 2
def bwkWait : Nat := 3
def bwkRun : Nat := 4
def bwkHeld : Nat := 5
def bwkStalled : Nat := 6
def bwkHalted : Nat := 7
def bwkReload : Nat := 8

/-- SSTAT values (R127). -/
def ssNotReached : Nat := 0
def ssGood : Nat := 1
def ssDecodeFail : Nat := 2
def ssSyncMiss : Nat := 3
def ssHdrMismatch : Nat := 4
def ssCrcFail : Nat := 5
def ssTagFail : Nat := 6
def ssWritten : Nat := 7
def ssWriteFault : Nat := 8
def ssBufPoison : Nat := 9

/-- BWKn's state code, and the state with it replaced. -/
def bwkState (s : State) (n : Nat) : Nat := s.rd (Reg.bwkStatusState.elem n)
def setBwkState (s : State) (n v : Nat) : State := s.wr (Reg.bwkStatusState.elem n) v

/-! ## Heads (R51) -/

/-- HEADMAP entry of a head. -/
def State.head (s : State) (h : Nat) : Option HeadEntry := s.sim.cfg.heads[h]?

/-- The surface a head reads. -/
def headSurface (s : State) (h : Nat) : Nat := match s.head h with | some e => e.surface | none => 0

/-- A head is present, in service, and on actuator `n`. -/
def headOn (s : State) (h n : Nat) : Bool :=
  match s.head h with
  | some e => e.actuator == n && s.serving (bitHead h)
  | none => false

/-! ## The plank (R121) -/

/-- A plank's fields from its 32 bytes; angle and checks are filled in by the fetch. -/
def plankOf (slot : Nat) (b : List Byte) : Plank :=
  let at_ (i n : Nat) : Nat := leValue ((b.drop i).take n)
  let op := at_ 4 1
  let fl := at_ 5 1
  let bd := at_ 0x10 8
  { slot, start := at_ 0 4, action := op % 8, variant := op / 8 % 8, direct := op.testBit 6
    first := fl.testBit 0, last := fl.testBit 1, fence := fl.testBit 2, irq := fl.testBit 3, sg := fl.testBit 4
    head := at_ 6 1, psa := at_ 8 4, count := at_ 0x0C 2, slack := at_ 0x0E 2
    dataPage := bd % 2 ^ 24, metaAddr := bd / 2 ^ 24 % 2 ^ 30, param := at_ 0x18 4, uaddr := at_ 0x1C 2, tag := at_ 0x1E 2
    target := 0, bad := none }

/-- Reserved bits and fields of a plank are zero (R121, R123). -/
def plankReservedZero (b : List Byte) : Bool :=
  let at_ (i n : Nat) : Nat := leValue ((b.drop i).take n)
  !(at_ 4 1).testBit 7 && at_ 5 1 / 32 == 0 && at_ 7 1 == 0 && at_ 0x10 8 / 2 ^ 54 == 0

/-- PSA, UADDR and PARAM meet the action table (R122, R123). -/
def plankTableOk (p : Plank) : Bool :=
  (p.direct || p.uaddr == 0)
  && (if p.action = actSeek then psaSlot p.psa == 0
      else if p.action = actSettle then p.psa == 0 && p.param / 2 ^ 24 == 0
      else if p.action = actRead then p.param / 2 ^ 11 == 0 && p.param / 2 ^ 9 % 4 != 3
      else if p.action = actWrite then p.param / 2 == 0
      else if p.action = actPreheat then p.psa == 0 && p.param / 2 ^ 16 == 0
      else if p.action = actProbe then p.param / 2 ^ 8 == 0 && decide (p.param % 16 ≤ 4)
      else if p.action = actCal then p.param / 2 ^ 8 == 0 && decide (p.param < 8)
      else p.psa == 0)

/-- Bytes lie in SRAM or fitted DRAM. -/
def inBuffer (s : State) (a n : Nat) : Bool := inSram a n || s.inDram a n

/-- What an SG list supplies (R125): the list address, the entries read so far, and whether the list is good. `need` is the
number of sectors still to be supplied. -/
def sgScan (s : State) (base : Nat) : Nat → Nat → Nat → Bool × Nat
  | 0, i, need => (need == 0, i)
  | fuel + 1, i, need =>
    if need = 0 then (true, i) else
    let a := base + 8 * i
    if !inBuffer s a 8 then (false, i)
    else if s.poisoned a 8 then (false, i)
    else
      let e := s.loadNat a 8
      let page := e % 2 ^ 24
      let cnt := e / 2 ^ 24 % 2 ^ 16
      let use_ := min cnt need
      if e / 2 ^ 40 != 0 then (false, i)
      else if !(inBuffer s (page * 4096) (use_ * 4096) || use_ == 0) then (false, i)
      else sgScan s base fuel (i + 1) (need - use_)

/-- The user-byte address of sector `i` of a plank (R124, R125). -/
def sgAddress (s : State) (base : Nat) : Nat → Nat → Nat → Nat
  | 0, _, _ => 0
  | fuel + 1, j, i =>
    let e := s.loadNat (base + 8 * j) 8
    let cnt := e / 2 ^ 24 % 2 ^ 16
    if i < cnt then e % 2 ^ 24 * 4096 + 4096 * i else sgAddress s base fuel (j + 1) (i - cnt)

/-- The user-byte address of sector `i` of a plank. -/
def plankData (s : State) (p : Plank) (i : Nat) : Nat :=
  if p.sg then sgAddress s (p.dataPage * 4096) 65536 0 i else p.dataPage * 4096 + 4096 * i

/-- The metadata entry of sector `i` of a plank (R124). -/
def plankMeta (p : Plank) (i : Nat) : Nat := p.metaAddr * 64 + 64 * i

/-- Both BUFDESC addresses lie in SRAM or fitted DRAM, and an SG list meets R125 (R123). -/
def plankBuffersOk (s : State) (p : Plank) : Bool :=
  inBuffer s (p.metaAddr * 64) (64 * p.count)
  && (if p.sg then (sgScan s (p.dataPage * 4096) (min 65536 (65536 : Nat)) 0 p.count).1
      else inBuffer s (p.dataPage * 4096) (4096 * p.count))

/-- Whether reading the SG list met a poisoned word (R125). -/
def plankListPoison (s : State) (p : Plank) : Bool :=
  p.sg && (let r := sgScan s (p.dataPage * 4096) 65536 0 p.count
           !r.1 && inBuffer s (p.dataPage * 4096 + 8 * r.2) 8 && s.poisoned (p.dataPage * 4096 + 8 * r.2) 8)

/-- The actions that touch sectors of a track. -/
def actsOnSectors (a : Nat) : Bool := a == actRead || a == actWrite || a == actProbe

/-- The entry address of a plank with DIRECT 0: its entry code is VARIANT × 8 + ACTION (R123). -/
def plankEntry (s : State) (n : Nat) (p : Plank) : Option Nat :=
  if p.direct then some p.uaddr
  else ((s.bwk.get n).entries.find? fun e => e.code == p.variant * 8 + p.action).map fun e => e.addr

/-- COUNT and PSA of a CAL plank with a non-zero COUNT meet the table of R393; the groups without a media window have no
place in it. -/
def calPlankOk (s : State) (p : Plank) (surface pos : Nat) : Bool :=
  let g := p.param % 256
  if g = 3 ∨ g = 4 then isProbe s.sim.cfg surface pos && psaSlot p.psa == 0 && p.count == 1
  else if g = 5 then psaSlot p.psa == 0 && decide (pos < s.sim.cfg.tracks) && decide (p.count ≤ 16)
  else if g = 6 then psaSlot p.psa == 0 && decide (pos < s.sim.cfg.tracks) && p.count == 16
  else if g = 7 then isProbe s.sim.cfg surface pos && decide (p.count ≤ 64)
    && decide (psaSlot p.psa + p.count ≤ sectorsPerTrack s.sim.cfg surface pos)
  else false

/-- The status that the fetch checks of R123 give a plank, if one fails. -/
def plankFetchStatus (s : State) (n : Nat) (e : RingEntry) (p : Plank) : Option Nat :=
  let surface := headSurface s p.head
  let pos := psaTrack p.psa
  if e.bad then some stBadPlank
  else if !plankReservedZero e.bytes || !plankTableOk p then some stBadPlank
  else if !(if p.head = 0xFF then p.action == actMark else p.action != actMark && headOn s p.head n) then some stBadPlank
  else if actsOnSectors p.action && decide (sectorsPerTrack s.sim.cfg surface pos < psaSlot p.psa + p.count) then
    some stBadPlank
  else if p.action = actWrite ∧ isLagg s.sim.cfg surface pos then some stBadPlank
  else if p.action = actProbe ∧ !isProbe s.sim.cfg surface pos then some stBadPlank
  else if p.action == actCal && p.count != 0 && !calPlankOk s p surface pos then some stBadPlank
  else if actsOnSectors p.action && p.count != 0 && !plankBuffersOk s p then some stBadPlank
  else if p.direct && decide (8192 ≤ p.uaddr) then some stBadPlank
  else if p.direct && !expert s (Reg.bwkModeLevel.elem n) then some stBadEntry
  else if (plankEntry s n p).isNone then some stBadEntry
  else none

/-! ## Angles (R74, R130) -/

/-- The full angle an angle word names: the value nearest to `cur` with its low 11 revolution bits; of two equally near
candidates the earlier (R74). -/
def resolveAngle (word cur : Nat) : Nat :=
  let rev := cur / 2 ^ 21
  let low := word / 2 ^ 21
  let base := rev / 2 ^ 11 * 2 ^ 11 + low
  -- candidates one period apart; the nearest lies from 1,024 revolutions before to 1,024 after, exclusive
  let cand := if base * 2 ^ 21 + word % 2 ^ 21 + 2 ^ 31 < cur then base + 2 ^ 11
    else if cur + 2 ^ 31 ≤ base * 2 ^ 21 + word % 2 ^ 21 ∧ 2 ^ 11 ≤ base then base - 2 ^ 11 else base
  cand * 2 ^ 21 + word % 2 ^ 21

/-- A device full angle in a plank's frame: the surface frame of HEAD, or the device frame for 0xFF (R75, R121). -/
def frameAngle (s : State) (head full : Nat) : Nat :=
  if head = 0xFF then full else surfaceAngle s (headSurface s head) full

/-- Ticks from full angle `a` to full angle `b`, `a ≤ b`. -/
def ticksBetween (s : State) (a b : Nat) : Nat :=
  (b / 2 ^ 21 * (s.sim.cfg.w * 1024) + b % 2 ^ 21) - (a / 2 ^ 21 * (s.sim.cfg.w * 1024) + a % 2 ^ 21)

/-- A span of ticks added to a full angle (R11). -/
def angleAdd (s : State) (a ticks : Nat) : Nat :=
  let rev := s.sim.cfg.w * 1024
  if rev = 0 then a + ticks else
  let t := a % 2 ^ 21 + ticks
  (a / 2 ^ 21 + t / rev) * 2 ^ 21 + t % rev

/-- Revolutions to add so that `target` is not before `now` (R131). -/
def slipRevs (target now : Nat) : Nat :=
  if now ≤ target then 0
  else if target % 2 ^ 21 < now % 2 ^ 21 then now / 2 ^ 21 - target / 2 ^ 21 + 1
  else now / 2 ^ 21 - target / 2 ^ 21

/-! ## The write gate (R141, R143) -/

/-- The gate as its three inputs give it, once low in a plank low until the plank ends (R141). -/
def gateRefresh (s : State) (n : Nat) : State :=
  s.wr (Reg.bwkStatusGate.elem n)
    (bit (s.flag (Reg.bwkStatusWreq.elem n) && s.flag (Reg.bwkStatusOntrack.elem n)
      && s.flag (Reg.bwkStatusInband.elem n) && !(s.bwk.get n).gateDown))

/-- The flags that are low, as GATE_CAUSE bits OFF_TRACK and OUT_OF_BAND. -/
def lowFlags (s : State) (n : Nat) : Nat :=
  bit (!s.flag (Reg.bwkStatusOntrack.elem n)) + 2 * bit (!s.flag (Reg.bwkStatusInband.elem n))

/-- The write request and the gate low. -/
def wreqLow (s : State) (n : Nat) : State := (s.clr (Reg.bwkStatusWreq.elem n)).clr (Reg.bwkStatusGate.elem n)

/-! ## Results and chains (R136, R137, R139) -/

/-- The result entry of a plank (R139). -/
def resultBytes (p : Plank) (r : PlankRun) (status endAt : Nat) : List Byte :=
  let sat (v : Nat) : Byte := BitVec.ofNat 8 (min v 255)
  let flags := bit r.revSlip + 2 * bit r.late + 4 * bit r.fenceWait + 8 * bit r.held + 16 * bit r.lateArr
    + 32 * bit r.inbandEnd
  [BitVec.ofNat 8 status, BitVec.ofNat 8 flags] ++ leBytes 2 p.tag ++ leBytes 4 (angleWord r.beginAt)
  ++ leBytes 4 (angleWord endAt) ++ leBytes 2 r.done ++ leBytes 2 r.good ++ leBytes 2 (r.failFirst.getD 0xFFFF)
  ++ [BitVec.ofNat 8 r.gateCause, sat r.aMiss, sat r.slips, sat r.syncMiss, sat r.defects, sat r.hdr]
  ++ leBytes 2 r.iterMax ++ leBytes 2 r.decFail ++ leBytes 2 p.slot ++ [sat r.slipRevs, 0]

/-- Whether a plank, with the chain that is open when it is taken, ends its chain (R136): LAST, or no chain open and FIRST
clear. -/
def plankEndsChain (b : Bwk) (p : Plank) : Bool := p.last || (!b.chainOpen && !p.first)

/-- The sequencer's registers and state once no plank is current. -/
def bwkNoPlank (s : State) (n : Nat) : State :=
  let s := (s.clr (Reg.bwkStatusCurIdx.elem n)).clr (Reg.bwkStatusCurHead.elem n)
  let s := s.clr (Reg.bwkStatusCurAction.elem n)
  let st := bwkState s n
  if st = bwkStalled ∨ st = bwkHalted ∨ st = bwkReload ∨ st = bwkOff then s else setBwkState s n bwkEmpty

/-- A plank becomes current: its registers show it, and it waits (R158). -/
def bwkShow (s : State) (n : Nat) (p : Plank) : State :=
  let s := s.wr (Reg.bwkStatusCurIdx.elem n) p.slot
  let s := (s.wr (Reg.bwkStatusCurHead.elem n) (p.head % 32)).wr (Reg.bwkStatusCurAction.elem n) p.action
  let st := bwkState s n
  if st = bwkStalled ∨ st = bwkHalted ∨ st = bwkReload then s
  else setBwkState s n (if s.ang.hold then bwkHeld else bwkWait)

/-- A result entry written: posted in ring order, with the counters and interrupt bits that follow it (R137, R139, R158). A
READ that ended its work OK reports SECTOR_ERR where a sector is not GOOD (R140). -/
def doneWrite (s : State) (n : Nat) (d : DonePlank) : State :=
  let status := if d.run.reading && d.status == stOk && d.run.good < d.plank.count then stSectorErr else d.status
  let s := ringAnswer s n (resultBytes d.plank d.run status d.endAt) d.ends
  let s := s.addWrap (Reg.bwkPlanksCount.elem n) 1
  let s := s.when d.plank.irq fun s => s.set (Reg.bwkIrqStatusResult.elem n)
  let s := s.when d.run.revSlip fun s => (s.bump (Reg.bwkSlipsCount.elem n)).set (Reg.bwkIrqStatusRevSlip.elem n)
  let s := s.when d.run.revSlip fun s => pmuEvent s 1 4 (some n) none 1
  s.when (status == stWriteFault) fun s =>
    pmuEvent (s.set (Reg.bwkIrqStatusWriteFault.elem n)) 1 5 (some n) none 1

/-- The results of ended planks written in ring order, as far as none waits for outcomes (R236). -/
def doneFlush (s : State) (n : Nat) : Nat → State
  | 0 => s
  | fuel + 1 =>
    match (s.bwk.get n).done with
    | [] => s
    | d :: rest =>
      if d.run.reading then s
      else doneFlush (doneWrite (s.setBwk n { s.bwk.get n with done := rest }) n d) n fuel

/-- The channel that serves actuator `n`'s preamp in the wiring now in force (R50, R249). -/
def chanOf (s : State) (n : Nat) : Nat := s.sim.cfg.rdcOfPa.get n

/-- The channel that a sequencer holds is released (R249). -/
def chanRelease (s : State) (n : Nat) : State :=
  let c := chanOf s n
  let v := s.chan.get c
  if v.granted = some n then
    (s.setChan c { v with granted := none, waiting := v.waiting.filter fun m => m != n }).clr (Reg.rdcStatusPhase.elem c)
  else s.setChan c { v with waiting := v.waiting.filter fun m => m != n }

/-- The instance that a CAL plank measures (R394): the head, the surface of groups 5 and 6, or the head and band of group 7. -/
def calInst (s : State) (n : Nat) (p : Plank) : Nat :=
  let g := p.param % 256
  if g = 5 ∨ g = 6 then headSurface s p.head
  else if g = 7 then 8 * p.head + s.rd (Reg.srvStatusBand.elem n)
  else p.head

/-- The current plank leaves the sequencer with a status at a full angle of its frame: the chain rules apply, the channel is
released, the next plank becomes current, and its result joins those to be written (R137, R139, R158, R236). -/
def plankLeave (s : State) (n : Nat) (p : Plank) (status endAt : Nat) : State :=
  let b := s.bwk.get n
  let ends := plankEndsChain b p
  let s := s.when (ends && b.preheated) fun s => astChainEnd s n
  let s := s.when (p.action == actCal && b.run.begun) fun s => calAborted s (p.param % 256) (calInst s n p)
  let s := chanRelease (wreqLow s n) n
  let d : DonePlank := { plank := p, run := b.run, status, endAt, ends }
  let s := s.setBwk n { s.bwk.get n with
    cur := b.next, next := none, run := {}, gateDown := false, wasHeld := false, cnt0 := 0, cnt1 := 0, sector := 0
    out := none
    done := b.done ++ [d]
    chainOpen := !ends, chainRevs := if ends then 0 else b.chainRevs
    chainEnded := if ends then false else b.chainEnded || endsChainStatus status
    preheated := b.preheated && !ends && status != stAborted }
  let s := match b.next with
    | none => bwkNoPlank s n
    | some q => bwkShow s n q
  doneFlush s n 19

/-- Planks at the front that are not to run get their results at once: CHAIN_SKIP in a chain that has ended (R137), and
the status their fetch checks gave them (R123). Two planks at most are held (R119). -/
def bwkSettleFront (s : State) (n : Nat) : Nat → State
  | 0 => s
  | fuel + 1 =>
    let b := s.bwk.get n
    match b.cur with
    | none => s
    | some p =>
      if b.run.begun then s
      else if b.chainEnded then bwkSettleFront (plankLeave s n p stChainSkip 0) n fuel
      else match p.bad with
        | some st => bwkSettleFront (plankLeave s n p st 0) n fuel
        | none => s

/-- The current plank ends with a status at a full angle of its frame (R122, R139). -/
def plankEnd (s : State) (n status endAt : Nat) : State :=
  match (s.bwk.get n).cur with
  | none => s
  | some p => bwkSettleFront (plankLeave s n p status endAt) n 3

/-! ## Fetch and start (R119, R130 to R132, R135, R138) -/

/-- Whether BWKn may fetch (R119, R134, R149, R150, R155). -/
def bwkMayFetch (s : State) (n : Nat) : Bool :=
  let b := s.bwk.get n
  let st := bwkState s n
  (b.cur.isNone || (b.run.begun && b.next.isNone))
  && st != bwkStalled && st != bwkHalted && st != bwkReload && !b.stopped
  && s.serving (bitBwk n) && ringMayAdmit s n

/-- A published plank fetched: read once, checked, its start resolved against the current angle in its frame, and the
revolutions its chain has added (R119, R123, R130, R136). -/
def bwkFetch (s : State) (n full : Nat) : State :=
  if !bwkMayFetch s n then s else
  let e := ringNextEntry s n
  let p := plankOf e.slot e.bytes
  let b := s.bwk.get n
  let s := ringAdmit s n
  let s := s.when (!e.bad && actsOnSectors p.action && p.count != 0 && plankListPoison s p)
    fun s => contained s (srcBwk n) n 0x0021 e.slot
  let revs := if b.chainOpen then b.chainRevs else 0
  let p := { p with target := resolveAngle p.start (frameAngle s p.head full) + revs * 2 ^ 21
                    bad := plankFetchStatus s n e p }
  if b.cur.isNone then
    let s := bwkShow (s.setBwk n { s.bwk.get n with cur := some p, run := {}, wasHeld := false }) n p
    bwkSettleFront s n 3
  else s.setBwk n { s.bwk.get n with next := some p }

/-- The current plank judged late by R131 at a full angle of its frame: within SLACK it may begin, beyond it the plank
slips to the next occurrence of its start, and so does its chain (R131, R136). -/
def bwkJudge (s : State) (n now : Nat) : State :=
  let b := s.bwk.get n
  match b.cur with
  | none => s
  | some p =>
    if b.run.begun || decide (now ≤ p.target) || p.slack == 0xFFFF
        || decide (ticksBetween s p.target now ≤ p.slack) then s
    else
      let k := slipRevs p.target now
      let chained := !plankEndsChain b p
      let next := if chained then b.next.map fun q => { q with target := q.target + k * 2 ^ 21 } else b.next
      s.setBwk n { b with
        cur := some { p with target := p.target + k * 2 ^ 21 }, next
        chainRevs := b.chainRevs + k
        run := { b.run with revSlip := true, slipRevs := b.run.slipRevs + k } }

/-- Whether a hold keeps BWKn from beginning a plank (R135): a rung change, REST or another mode without media, a full
result ring, or a stop under R155. -/
def bwkHoldOff (s : State) (n : Nat) : Bool :=
  s.ang.hold || s.opMode == modeRest || s.opMode == modeStandby || s.change.any (fun c => c.mode != modeService)
  || resultRingFull s n || (s.bwk.get n).stopped

/-- The fence condition of R138: every earlier plank has its result entry written. -/
def fenceMet (s : State) (n : Nat) : Bool := (s.ring n).hold.isEmpty && (s.bwk.get n).done.isEmpty

/-- The followed head of actuator `n` (R122). -/
def followedHead (s : State) (n : Nat) : Nat := s.rd (Reg.srvStatusHead.elem n)

/-- The head's place in ASTn's suspect mask: its PA_SELECT (R217, R224). -/
def suspectHead (s : State) (n h : Nat) : Bool :=
  match s.head h with
  | some e => (s.rd (Reg.astSuspectHeads.elem n)).testBit e.paSelect
  | none => false

/-- The status that the begin checks of R123 give a plank, if one fails. -/
def plankBeginStatus (s : State) (n : Nat) (p : Plank) : Option Nat :=
  let a := p.action
  if (a = actRead ∨ a = actWrite ∨ a = actPreheat ∨ a = actProbe ∨ a = actCal) ∧ p.head ≠ followedHead s n then
    some stBadPlank
  else if (a = actWrite ∨ a = actPreheat ∨ a = actProbe) ∧ suspectHead s n p.head then some stSuspectHead
  else none

/-- A transfer plank needs the read channel (R249). -/
def isTransfer (a : Nat) : Bool := a == actRead || a == actWrite || a == actProbe || a == actCal

/-- Whether the channel takes sequencer `n` now: locked, and granted to it or to nobody while no other waits (R249, R373). -/
def chanTakes (s : State) (n : Nat) : Bool :=
  let v := s.chan.get (chanOf s n)
  !v.unlocked && (v.granted == some n || (v.granted == none && v.waiting.all fun m => m == n))

/-- A plank held because the channel is not to be had: it waits for the grant, counted once (R249). -/
def chanWait (s : State) (n : Nat) : State :=
  let c := chanOf s n
  let v := s.chan.get c
  if v.waiting.contains n then s
  else (s.setChan c { v with waiting := v.waiting ++ [n] }).bump (Reg.rdcCounts2Waits.elem c)

/-- The channel granted to sequencer `n` (R249). -/
def chanGrant (s : State) (n : Nat) : State :=
  let c := chanOf s n
  let v := s.chan.get c
  (s.setChan c { v with granted := some n, last := n, waiting := v.waiting.filter fun m => m != n }).wr
    (Reg.rdcStatusGrant.elem c) n

/-- What became of an attempt to begin the current plank. -/
inductive Begin where
  | notYet (s : State)
  | ended (s : State)
  | begun (s : State) (p : Plank)

/-- BWKn tries to begin its current plank, which must be of `action`, at device full angle `full`: holds, the fence, the
lock and the start angle stand before the begin (R131, R134, R135, R138), then the checks of R123, then the marker rule
(R132); a plank that begins clears CNT0 and CNT1 and starts at its entry (R145). -/
def bwkBegin (s : State) (n action full : Nat) : Begin :=
  let b := s.bwk.get n
  match b.cur with
  | none => .notYet s
  | some p =>
    let st := bwkState s n
    if p.action ≠ action ∨ b.run.begun ∨ st = bwkStalled ∨ st = bwkHalted ∨ st = bwkReload ∨ st = bwkOff then .notYet s
    else if bwkHoldOff s n then .notYet (setBwkState (s.setBwk n { b with wasHeld := true }) n bwkHeld)
    else if p.fence && !fenceMet s n then
      .notYet (setBwkState (s.setBwk n { b with run := { b.run with fenceWait := true } }) n bwkFence)
    else if s.rd Reg.angStatusState ≠ angLocked ∧ s.rd Reg.angStatusState ≠ angCoast then .notYet (setBwkState s n bwkWait)
    else if p.count ≠ 0 ∧ isTransfer action ∧ p.target ≤ frameAngle s p.head full ∧ !chanTakes s n then
      .notYet (setBwkState (chanWait (s.setBwk n { b with wasHeld := true }) n) n bwkHeld)
    else
      let now := frameAngle s p.head full
      let s := setBwkState (bwkJudge s n now) n bwkWait
      let b := s.bwk.get n
      match b.cur with
      | none => .notYet s
      | some p =>
        if now < p.target then .notYet s
        else
          let late := decide (p.target < now)
          let s := s.setBwk n { b with
            run := { b.run with begun := true, late := late, held := b.wasHeld, beginAt := now }
            cnt0 := 0, cnt1 := 0, sector := 0, gateDown := false, upc := (plankEntry s n p).getD 0 }
          let s := setBwkState s n bwkRun
          if p.count = 0 then .ended (plankEnd s n stMarker now)
          else match plankBeginStatus s n p with
            | some st => .ended (plankEnd s n st now)
            | none => .begun (pmuEvent (if isTransfer action then chanGrant s n else s) 1 1 (some n) none 1) p

/-- The plank currently running on BWKn with a given action, if any. -/
def runningPlank (s : State) (n action : Nat) : Option Plank :=
  let b := s.bwk.get n
  match b.cur with
  | some p => if p.action = action ∧ b.run.begun then some p else none
  | none => none

/-! ## OUTCOME of a sector (R127) -/

/-- The OUTCOME of sector `i` of a plank written to its metadata entry. -/
def writeOutcome (s : State) (p : Plank) (i sstat events iter detail : Nat) : State :=
  s.store (plankMeta p i + 0x28)
    ([BitVec.ofNat 8 sstat, BitVec.ofNat 8 events, BitVec.ofNat 8 (min iter 255), 0] ++ leBytes 4 detail)

/-! ## Commands of the sequencer itself -/

/-- PLANK_FETCH (R119): the sequencer fetches a published plank at device full angle `full`. -/
def execPlankFetch (n full : Nat) (s : State) : Host.Outcome State Fault Refusal :=
  let s := bwkFetch s n full
  match (s.bwk.get n).cur with
  | none => .next s
  | some p => .next (if bwkHoldOff s n then s else bwkJudge s n (frameAngle s p.head full))

/-- RING_ENTRY_ADMIT (R330): an engine admits a published entry when it has room; for a sequencer this is the fetch of a
plank at the angle ANG holds. -/
def execRingEntryAdmit (n : Nat) (s : State) : Host.Outcome State Fault Refusal :=
  if n ≤ 1 then .next (bwkFetch s n s.fullAngle)
  else .next (if ringMayAdmit s n then ringAdmit s n else s)

/-- PLANK_MARK (R122): a MARK plank copies PARAM at its start angle, and with a non-zero COUNT sets MARK. -/
def execPlankMark (n full : Nat) (s : State) : Host.Outcome State Fault Refusal :=
  match bwkBegin s n actMark full with
  | .notYet s => .next s
  | .ended s => .next s
  | .begun s p =>
    let s := (s.wr (Reg.bwkMarkParam.elem n) p.param).set (Reg.bwkIrqStatusMark.elem n)
    .next (plankEnd s n stOk (frameAngle s p.head full))

/-- MARKER_PLANK (R132): a plank with COUNT 0 waits for its angle and ends with MARKER. A MARK plank with COUNT 0 still
copies PARAM (notes/assumptions/10.md). -/
def execMarkerPlank (n full : Nat) (s : State) : Host.Outcome State Fault Refusal :=
  match (s.bwk.get n).cur with
  | none => .next s
  | some p =>
    if p.count ≠ 0 then .next s else
    match bwkBegin s n p.action full with
    | .notYet s => .next s
    | .ended s => .next (if p.action = actMark then s.wr (Reg.bwkMarkParam.elem n) p.param else s)
    | .begun s _ => .next s

/-- NOLOCK_TIMEOUT (R134): a plank waiting, or transferring, without lock ends NO_ANGLE, and the sequencer stalls until
RESUME. -/
def execNolockTimeout (n full : Nat) (s : State) : Host.Outcome State Fault Refusal :=
  let lock := s.rd Reg.angStatusState
  let st := bwkState s n
  match (s.bwk.get n).cur with
  | none => .next s
  | some p =>
    if lock = angLocked ∨ lock = angCoast ∨ st = bwkStalled ∨ st = bwkHalted ∨ st = bwkOff then .next s
    else
      let s := s.set (Reg.bwkIrqStatusNoAngle.elem n)
      let s := plankEnd s n stNoAngle (frameAngle s p.head full)
      .next (setBwkState s n bwkStalled)

/-- Every published plank that has not run gets ABORTED, in ring order: the current one where it has not begun, the
prefetched one, and every other published entry (R154). Their results are written as slots free and do not pass the
holding buffer's admission rule (R330). -/
def bwkAbortRest (s : State) (n : Nat) : Nat → State
  | 0 => s
  | fuel + 1 =>
    let b := s.bwk.get n
    match b.cur with
    | some p =>
      if b.run.begun then s else bwkAbortRest (plankLeave s n p stAborted 0) n fuel
    | none =>
      if ringLive s n && ringHasEntry s n then
        let e := ringNextEntry s n
        let s := ringAdmit s n
        let p := plankOf e.slot e.bytes
        bwkAbortRest (bwkShow (s.setBwk n { s.bwk.get n with cur := some p, run := {} }) n p) n fuel
      else s

/-- The number of entries that are published and without a result. -/
def bwkOutstanding (s : State) (n : Nat) : Nat :=
  let r := s.ring n
  r.inProg.length + ringDist r.reqSize r.next (s.rd (Reg.rngReqProdIdx.elem n)) + 2

/-- The current plank ends at once with a status, its gate low (R154, R155). -/
def bwkEndCurrent (s : State) (n status full : Nat) : State :=
  match (s.bwk.get n).cur with
  | none => s
  | some p =>
    if (s.bwk.get n).run.begun then plankEnd (wreqLow s n) n status (frameAngle s p.head full) else s

/-- BWK_ABORT (R154): the current plank ends ABORTED (at its next sector boundary, which `full` names where it is
transferring), the other published planks get ABORTED without running; ABORT clears. -/
def bwkAbort (s : State) (n full : Nat) : State :=
  let s := bwkEndCurrent s n stAborted full
  let s := bwkAbortRest s n (bwkOutstanding s n)
  let s := s.setBwk n { s.bwk.get n with chainEnded := false, chainOpen := false, aborting := false, preheated := false }
  s.clr (Reg.bwkCtlAbort.elem n)

/-- BWK_ABORT (R154). -/
def execBwkAbort (n full : Nat) (s : State) : Host.Outcome State Fault Refusal :=
  gatedAccess s n (.next ((bwkAbort s n full).answer 0))

/-- BWK_RESUME (R154): leaves STALLED or HALTED, and nothing else. An instance that R151 has made unit-fatal stays HALTED
until DRST. -/
def execBwkResume (n : Nat) (s : State) : Host.Outcome State Fault Refusal :=
  gatedAccess s n <|
  let st := bwkState s n
  if (st = bwkStalled ∨ st = bwkHalted) ∧ !s.down (bitBwk n) then
    .next ((setBwkState s n (if (s.bwk.get n).cur.isSome then bwkWait else bwkEmpty)).answer 0)
  else .next (s.answer 0)

/-- Power loss, DRST, and entry into SAFE or RECOVERY on the sequencers (R155, R449): the gates fall, each plank in
progress ends ABORTED with the given GATE_CAUSE bits, and no further plank begins. -/
def bwkStop (s : State) (n cause full : Nat) : State :=
  let s := wreqLow s n
  let b := s.bwk.get n
  let s := s.setBwk n { b with stopped := true, run := { b.run with gateCause := b.run.gateCause ||| cause } }
  if b.run.begun then bwkEndCurrent s n stAborted full else s

/-- Both sequencers stopped. -/
def bwkStopAll (s : State) (cause : Nat) : State := bwkStop (bwkStop s 0 cause s.fullAngle) 1 cause s.fullAngle

end Sys2Proof.Machine
end

