-- ==== Sys2Proof/Machine/DomOps.lean ====
section
/-!
DEFINITION. Shared operations of DOM (spec/17_domain.md, R463 to R478): frames given to the transmit lanes, the own ID, neighbour
notices sent, power tokens.
-/

namespace Sys2Proof.Machine

/-- Worker states of DOM_STATUS.STATE (R471, R485). -/
def domDown : Nat := 0
def domListen : Nat := 1
def domMember : Nat := 2
def domOrphan : Nat := 3
def domAlone : Nat := 4
def domManager : Nat := 5

/-- DOM's state, whether the device is a worker (R463), and its device ID (R465). -/
def domState (s : State) : Nat := s.rd Reg.domStatusState
def domWorker (s : State) : Bool := s.rd Reg.domStatusRole == 0
def ownId (s : State) : Nat := s.rd Reg.domStatusPort * 256 + s.rd Reg.domStatusPosition

/-- Domain time in microseconds as DOM counts it. -/
def State.domClock (s : State) : Nat := s.rdPair Reg.domTimeLoUs Reg.domTimeHiUs

/-- Domain time set. -/
def setDomClock (s : State) (us : Nat) : State := s.wrPair Reg.domTimeLoUs Reg.domTimeHiUs (us % 2 ^ 64)

/-- The broadcast bit of DST (R467). -/
def domBcast : Nat := 0x2000

/-- A frame given to a transmit lane: payloads are 12 bytes, unused ones zero. -/
def domSend (s : State) (f : DomOut) : State :=
  let f := { f with payload := f.payload.take 12 ++ List.replicate (12 - f.payload.length) 0 }
  pmuEvent (s.setDom { s.dom with sent := s.dom.sent ++ [f] }) 8 1 none none 1

/-- A frame of this worker to its manager, on the forward path (R464, R470). -/
def domToManager (s : State) (cls type : Nat) (payload : List Byte) : State :=
  domSend s { port := 1, reverse := false, cls, type, hops := 0, src := ownId s, dst := s.rd Reg.domStatusPort * 256, payload }

/-- A frame of the manager to one device, on the ring of its port. -/
def domToDevice (s : State) (id cls type : Nat) (payload : List Byte) : State :=
  domSend s { port := id / 256, reverse := false, cls, type, hops := 0, src := id / 256 * 256, dst := id, payload }

/-- Logical ports that are up. -/
def portsUp (s : State) : List Nat := (List.range 32).filter fun p => s.flag (Reg.domPortStatusUp.elem p)

/-- A broadcast of the manager on every port that is up. -/
def domBroadcast (s : State) (cls type : Nat) (payload : Nat → List Byte) : State :=
  s.each (portsUp s) fun s p =>
    domSend s { port := p, reverse := false, cls, type, hops := 0, src := p * 256, dst := domBcast, payload := payload p }

/-! ## Power tokens (R478) -/

/-- DOM_TOKEN.OUT shows the tokens held out. -/
def tokenShow (s : State) : State := s.wr Reg.domTokenOut s.dom.held.length

/-- Whether a token may go to a requester: MAX in the domain, PER_PORT on its ring. -/
def tokenRoom (s : State) (id : Nat) : Bool :=
  decide (s.dom.held.length < s.rd Reg.domTokenMax)
  && (id == 0 || decide ((s.dom.held.filter fun h => h.1 != 0 && h.1 / 256 == id / 256).length < s.rd Reg.domTokenPerPort))

/-- A token given to a waiting requester; TOKEN_GRANT answers a worker. -/
def tokenGive (s : State) (r : Nat × Nat) : State :=
  let s := s.setDom { s.dom with wait := s.dom.wait.filter fun w => w.1 != r.1, held := s.dom.held ++ [r] }
  let s := (tokenShow s).set Reg.domIrqStatusToken
  if r.1 = 0 then s else domToDevice s r.1 4 0x31 (leBytes 2 r.2)

/-- Tokens granted in order of request arrival, up to the manager's own request. -/
def tokenPump (s : State) : Nat → State
  | 0 => s
  | n + 1 => match s.dom.wait.find? fun w => tokenRoom s w.1 with
    | some r => if r.1 = 0 then s else tokenPump (tokenGive s r) n
    | none => s

/-- A token comes back to the manager. -/
def tokenBack (s : State) (id : Nat) : State :=
  let s := s.setDom { s.dom with held := s.dom.held.filter fun h => h.1 != id, wait := s.dom.wait.filter fun w => w.1 != id }
  let s := tokenShow s
  tokenPump s s.dom.wait.length

/-- SPN has reached LOCKED, FAULT or STOPPED: its request is over, and a token it holds goes back. -/
def tokenReturn (s : State) : State :=
  let held := s.dom.holding
  let s := s.setDom { s.dom with asked := false, answered := false, fallback := false, holding := false }
  if domWorker s then
    if held ∧ domState s ≠ domAlone then domToManager s 4 0x32 (leBytes 2 s.dom.reqSeq) else s
  else tokenBack s 0

/-- SPN enters TOKEN: a worker that is MEMBER asks its manager; a device in a manager role stands ahead of every request that
waits; any other waits for its stagger. -/
def tokenAsk (s : State) : State :=
  if !domWorker s then
    s.setDom { s.dom with asked := true, wait := (0, 0) :: s.dom.wait.filter fun w => w.1 != 0 }
  else
    let s := s.setDom { s.dom with asked := true, answered := false, fallback := false, reqSeq := (s.dom.reqSeq + 1) % 65536 }
    if domState s = domMember then domToManager s 4 0x30 (leBytes 2 s.dom.reqSeq) else s

/-! ## Neighbour notices sent (R475) -/

/-- A SEEK plank begins: one NOTICE forward and one on the reverse lane. `dist`: track positions; `amp`: I_ACC, signed. -/
def noticeSend (s : State) (act dist : Nat) (amp : Int) : State :=
  if domState s ≠ domMember ∨ !s.flag Reg.domStatusTimeLocked ∨ !s.flag Reg.domNbrSendEn ∨ s.flag Reg.domModeLevel
      ∨ dist < s.rd Reg.domNbrMinTracks then s
  else
    let payload := leBytes 4 (s.domClock * 16 % 2 ^ 32) ++ leBytes 2 (toBits 16 amp) ++ [BitVec.ofNat 8 act]
    let f : DomOut := { port := 1, reverse := false, cls := 2, type := 0x10, hops := 4, src := ownId s, dst := domBcast, payload }
    (domSend (domSend s f) { f with port := 0, reverse := true }).addWrap Reg.domNbrCountsSent 2

end Sys2Proof.Machine
end

