-- ==== Sys2Proof/Machine/Engine.lean ====
section
/-!
DEFINITION. The control engines (spec/06_servo.md, R165 to R172): the word format, one fabric cycle of a run, a whole run of
a program, and the control store with its parity (R28).
-/

namespace Sys2Proof.Machine

/-! ## Control stores (R28) -/

/-- Key of word `addr` of control store `inst` (0 BWK0, 1 BWK1, 2 CE0, 3 CE1, 4 CE2). -/
def csKey (inst addr : Nat) : Nat := inst * 8192 + addr

/-- The eight parity bits of a word: bit k is the parity of its 16-bit part k. -/
def csParity (w : BitVec 128) : BitVec 8 :=
  (List.range 8).foldl (fun p k =>
    if ((List.range 16).filter fun i => w.getLsbD (16 * k + i)).length % 2 = 1 then p ||| (1#8 <<< k) else p) 0

/-- An unlisted control-store word: zero, with zero parity. -/
def csZero : CsWord := ⟨0, 0⟩

/-- Word `addr` of a control store. -/
def State.csWord (s : State) (inst addr : Nat) : CsWord := Store.read csZero s.cs.words (csKey inst addr)

/-- A committed word: the word with fresh parity, in the control store and in its MRAM copy (R28). -/
def csCommit (s : State) (inst addr : Nat) (w : BitVec 128) : State :=
  let v : CsWord := ⟨w, csParity w⟩
  s.setCs { s.cs with words := Store.write csZero s.cs.words (csKey inst addr) v
                      mram := Store.write csZero s.cs.mram (csKey inst addr) v }

/-- The line of eight words that holds an address, rewritten from the MRAM copies (R150, R172). -/
def csReload (s : State) (inst addr : Nat) : State :=
  s.each (List.range 8) fun s i =>
    let k := csKey inst (addr / 8 * 8 + i)
    s.setCs { s.cs with words := Store.write csZero s.cs.words k (Store.read csZero s.cs.mram k) }

/-! ## One word (R166, R167) -/

/-- How a run stands. -/
inductive CeEnd where
  | running | yielded | halted | parity
  deriving DecidableEq, Repr

/-- A run of a control engine: its registers and data memory, the outputs in the order written, and the counter of free
values. -/
structure CeRun where
  pc    : Nat
  regs  : Store Word
  mem   : Store Word
  flag  : Bool
  outs  : List (Nat × Word)
  free  : Nat
  state : CeEnd
  deriving DecidableEq, Repr

/-- A 32-bit word read as a two's-complement integer. -/
def sval (w : Word) : Int := signedOf 32 w.toNat

/-- An integer as a 32-bit word, wrapping. -/
def wrapW (x : Int) : Word := BitVec.ofNat 32 (toBits 32 x)

/-- An integer as a 32-bit word, saturating. -/
def satW (x : Int) : Word := wrapW (satInt 32 x)

/-- A register of the run; x0 reads as 0 (R165). -/
def CeRun.reg (c : CeRun) (i : Nat) : Word := if i = 0 then 0 else Store.read 0 c.regs i

/-- The run with a register written; a write of x0 is discarded. -/
def CeRun.setReg (c : CeRun) (i : Nat) (v : Word) : CeRun :=
  if i = 0 then c else { c with regs := Store.write 0 c.regs i v }

/-- The run with a register written where the operation gives a value. -/
def CeRun.put (c : CeRun) (i : Nat) (v : Option Word) : CeRun :=
  match v with
  | some v => c.setReg i v
  | none => c

/-- The run after the branch field of a word (R167): `kind` 0 to 5, `target` the branch target. -/
def CeRun.branch (c : CeRun) (kind target : Nat) : CeRun :=
  match kind with
  | 0 => { c with pc := (c.pc + 1) % 8192 }
  | 1 => { c with pc := target }
  | 2 => { c with pc := if c.flag then target else (c.pc + 1) % 8192 }
  | 3 => { c with pc := if c.flag then (c.pc + 1) % 8192 else target }
  | 4 => { c with state := .yielded }
  | _ => { c with state := .halted }

/-- The product of MUL, MAC and MSU: the 64-bit product shifted right by 24, rounded to nearest. -/
def ceProduct (x y : Word) : Int := (sval x * sval y + 2 ^ 23) / 2 ^ 24

/-- The number of IN ports and of OUT ports of CE0 and CE1 (R168). -/
def ceInPorts : Nat := 11
def ceOutPorts : Nat := 7

/-- Whether a word must be executed as BR 5: a reserved code, a reserved bit set or a reserved port (R167). -/
def ceReserved (w : Nat) : Bool :=
  let aop := bitsOf w 122 6
  let imm := bitsOf w 48 32
  decide (22 < aop) || decide (3 < bitsOf w 100 4) || decide (5 < bitsOf w 45 3)
  || bitsOf w 80 2 != 0 || bitsOf w 0 32 != 0
  || (aop == 20 && decide (ceInPorts ≤ imm)) || (aop == 21 && decide (ceOutPorts ≤ imm))

/-- The value an ALU operation gives its destination, if it gives one; LD and IN stand in `ceExec`. -/
def ceAlu (aop : Nat) (x y : Word) (imm : Nat) : Option Word :=
  let sh := imm % 32
  match aop with
  | 1 => some (BitVec.ofNat 32 imm)
  | 2 => some (x + y)
  | 3 => some (x - y)
  | 4 => some (satW (sval x + sval y))
  | 5 => some (satW (sval x - sval y))
  | 6 => some (if sval x ≤ sval y then x else y)
  | 7 => some (if sval x ≤ sval y then y else x)
  | 8 => some (if sval x < 0 then -x else x)
  | 9 => some (-x)
  | 10 => some (wrapW (sval x / 2 ^ sh))
  | 11 => some (satW (sval x * 2 ^ sh))
  | 12 => some (x &&& y)
  | 13 => some (x ||| y)
  | 14 => some (x ^^^ y)
  | 22 => some (wrapW (min (max (sval x) (-(sval y))) (sval y)))
  | _ => none

/-- The flag after an operation. -/
def ceFlag (aop : Nat) (x y : Word) (old : Bool) : Bool :=
  match aop with
  | 15 => decide (sval x < sval y)
  | 16 => decide (sval x ≤ sval y)
  | 17 => x == y
  | _ => old

/-- A word executed: both operations read their sources before either writes, and where AD equals MD the ALU result is
kept (R167). `ports` holds the IN values latched at the start of the run; CE2, whose ports the spec does not list, reads
free values. A data-memory address beyond the 4,096 words reads a free value and stores nothing
(notes/assumptions/12.md). -/
def ceExec (ports : Option (List Word)) (w : Nat) (c : CeRun) : CeRun :=
  if ceReserved w then { c with state := .halted } else
  let aop := bitsOf w 122 6
  let ad := bitsOf w 116 6
  let x := c.reg (bitsOf w 110 6)
  let y := c.reg (bitsOf w 104 6)
  let mop := bitsOf w 100 4
  let md := bitsOf w 94 6
  let p := ceProduct (c.reg (bitsOf w 88 6)) (c.reg (bitsOf w 82 6))
  let acc := sval (c.reg md)
  let imm := bitsOf w 48 32
  let addr := (BitVec.ofNat 32 imm + x).toNat
  let mulv : Option Word := match mop with
    | 1 => some (satW p)
    | 2 => some (satW (acc + p))
    | 3 => some (satW (acc - p))
    | _ => none
  let freeW : Word := BitVec.ofNat 32 (Config.freeValue c.free)
  let takesFree := (aop == 18 && decide (4096 ≤ addr)) || (aop == 20 && ports.isNone)
  let aluv : Option Word :=
    if aop = 18 then some (if addr < 4096 then Store.read 0 c.mem addr else freeW)
    else if aop = 20 then some (match ports with | some l => nth 0 l imm | none => freeW)
    else ceAlu aop x y imm
  let c := if takesFree then { c with free := c.free + 1 } else c
  let c := (c.put md mulv).put ad aluv
  let c := if aop = 19 ∧ addr < 4096 then { c with mem := Store.write 0 c.mem addr y } else c
  let c := if aop = 21 then { c with outs := c.outs ++ [(imm, x)] } else c
  { c with flag := ceFlag aop x y c.flag }.branch (bitsOf w 45 3) (bitsOf w 32 13)

/-- A run of at most `fuel` cycles: one word a cycle, each checked for parity as it is fetched. -/
def ceRun (fetch : Nat → CsWord) (upset : Option Upset) (ports : Option (List Word)) : Nat → CeRun → CeRun
  | 0, c => c
  | fuel + 1, c =>
    if c.state ≠ .running then c
    else if (upset.map fun u => u.addr) = some c.pc ∨ (fetch c.pc).parity ≠ csParity (fetch c.pc).bits then { c with state := .parity }
    else ceRun fetch upset ports fuel (ceExec ports (fetch c.pc).bits.toNat c)

/-- The registers and the data memory of engine `e`, as a run sees them. -/
def engineSlice (m : Store Word) (size e : Nat) : Store Word :=
  (m.filter fun x => decide (e * size ≤ x.1) && decide (x.1 < (e + 1) * size)).map fun x => (x.1 - e * size, x.2)

/-- The store with the slice of engine `e` replaced. -/
def engineMerge (m : Store Word) (size e : Nat) (sl : Store Word) : Store Word :=
  (m.filter fun x => decide (x.1 < e * size)) ++ (sl.map fun x => (x.1 + e * size, x.2))
    ++ (m.filter fun x => decide ((e + 1) * size ≤ x.1))

/-- The entry address of a program in the loaded image (R54, R170). -/
def ceEntry (s : State) (e code : Nat) : Option Nat :=
  (s.sim.cfg.entries.find? fun p => p.inst == e + 2 && p.code == code).map fun p => p.addr

/-- A run of program `code` on engine `e` for at most `budget` cycles. A program that is not in the image is treated as
BR 5 (R170). Registers, flag and data memory keep what the run left in them. -/
def ceProgram (s : State) (e code budget : Nat) (upset : Option Upset) (ports : Option (List Word)) : CeRun × State :=
  let start : CeRun :=
    { pc := (ceEntry s e code).getD 0, regs := engineSlice s.ce.regs 64 e, mem := engineSlice s.ce.mem 4096 e
      flag := s.ce.flags.testBit e, outs := [], free := s.free
      state := if (ceEntry s e code).isSome then .running else .halted }
  let c := ceRun (s.csWord (e + 2)) upset ports budget start
  let flags := if c.flag then maskSet s.ce.flags e else maskClear s.ce.flags e
  (c, { s with free := c.free
               ce := { s.ce with regs := engineMerge s.ce.regs 64 e c.regs
                                 mem := engineMerge s.ce.mem 4096 e c.mem, flags := flags } })

/-- A word of engine `e`'s data memory. -/
def State.ceMem (s : State) (e a : Nat) : Word := Store.read 0 s.ce.mem (e * 4096 + a)

/-- The state with a data-memory word of engine `e` written. -/
def setCeMem (s : State) (e a : Nat) (v : Word) : State :=
  s.setCe { s.ce with mem := Store.write 0 s.ce.mem (e * 4096 + a) v }

/-- Whether a parity error at this address of engine `e` is a repeat, or its MRAM copy is uncorrectable (R172). -/
def ceParityFatal (s : State) (e addr : Nat) (upset : Option Upset) : Bool :=
  s.ce.parityAt.contains (csKey e addr)
  || (match upset with | some u => u.addr == addr && u.copyBad | none => false)

/-- The address remembered, and the line reloaded from MRAM (R172). -/
def ceParityNote (s : State) (e addr : Nat) : State :=
  csReload (s.setCe { s.ce with parityAt := csKey e addr :: s.ce.parityAt }) (e + 2) addr

end Sys2Proof.Machine
end

