-- ==== Sys2Proof/Machine/ServoOps.lean ====
section
/-!
DEFINITION. Servo operations (spec/06_servo.md): loop states and their entries, the HV retract engine, the gain schedule and
the integrator, the seek tables, spindle states.
-/

namespace Sys2Proof.Machine

/-! ## Access -/

/-- A loop's state code. -/
def srvState (s : State) (n : Nat) : Nat := s.rd (Reg.srvStatusState.elem n)

/-- The section body of a type and instance (R55). -/
def bodyOf (s : State) (type inst : Nat) : List Byte :=
  match s.sim.cfg.bodies.find? fun b => b.type == type && b.inst == inst with
  | some b => b.bytes
  | none => []

/-- A little-endian field of a body, and the same as a signed number. -/
def bodyNat (b : List Byte) (off size : Nat) : Nat := leValue ((b.drop off).take size)
def bodyInt (b : List Byte) (off size : Nat) : Int := signedOf (8 * size) (bodyNat b off size)

/-- A quotient that the spec does not say how to round: exact where it is whole, else one of its two neighbours, by a free
value (notes/assumptions/2.md). -/
def roundFree (s : State) (num : Int) (den : Nat) : Int × State :=
  if num % (den : Int) = 0 then (num / den, s)
  else let (v, s) := s.takeFree
       (num / den + (v % 2 : Nat), s)

/-- TARGET of a loop, in 1/256 track position. -/
def srvTarget (s : State) (n : Nat) : Int := (s.rd (Reg.srvTargetTarget.elem n) : Nat)

/-- The state with TARGET written. -/
def setTarget (s : State) (n : Nat) (v : Nat) : State := s.wr (Reg.srvTargetTarget.elem n) (v % 2 ^ 28)

/-! ## The on-track flag (R164, R141) -/

/-- The on-track flag takes a value, at SRVn and at the gate (R141, R164). A gate that falls stays low until its plank
ends, and the flag is noted in GATE_CAUSE (R143). -/
def setOnTrack (s : State) (n : Nat) (v : Bool) : State :=
  let gate := s.flag (Reg.bwkStatusGate.elem n)
  let s := (s.wr (Reg.srvStatusOntrack.elem n) (bit v)).wr (Reg.bwkStatusOntrack.elem n) (bit v)
  let s := if gate && !v then
      let b := s.bwk.get n
      s.setBwk n { b with gateDown := true, run := { b.run with gateCause := b.run.gateCause ||| 1 } }
    else s
  gateRefresh s n

/-! ## State entries (R173, R195) -/

/-- The wedge number ANG holds. -/
def nowWedge (s : State) : Nat := s.rd Reg.angPosWedge

/-- SRVn_LAST_FAULT. -/
def srvLastFault (s : State) (n cause : Nat) : State :=
  (s.wr (Reg.srvLastFaultCause.elem n) cause).wr (Reg.srvLastFaultWedge.elem n) (nowWedge s)

/-- The interrupt bit of a state entered: PARKED, RETRACTING, FALLBACK, COAST and FOLLOW have one (R195). -/
def srvEnterIrq (s : State) (n st : Nat) : State :=
  if st = srvParked then s.set (Reg.srvIrqStatusParked.elem n)
  else if st = srvRetracting then s.set (Reg.srvIrqStatusRetract.elem n)
  else if st = srvFallback then s.set (Reg.srvIrqStatusFallback.elem n)
  else if st = srvCoast then s.set (Reg.srvIrqStatusCoast.elem n)
  else if st = srvFollow then s.set (Reg.srvIrqStatusSettled.elem n)
  else s

/-- A loop is in a state in which no set applies (R175). -/
def srvNoSet (st : Nat) : Bool :=
  st == srvLoading || st == srvFallback || st == srvRetracting || st == srvParked || st == srvFailed

/-- SRVn enters a state: its code, its interrupt bit, the counts that start afresh; the flag is low in every state but
SETTLE and FOLLOW, and no set stays applied where none applies. -/
def srvEnter (s : State) (n st : Nat) : State :=
  let s := srvEnterIrq (s.wr (Reg.srvStatusState.elem n) st) n st
  let v := s.srv.get n
  let s := s.setSrv n { v with settleRun := 0
                               set := if srvNoSet st then none else v.set
                               sinceEntry := 0
                               reacqRun := if srvNoSet st then 0 else v.reacqRun }
  if st = srvSettle ∨ st = srvFollow then s else setOnTrack s n false

/-- The outputs applied (R159, R195): −32,768 is applied as −32,767. -/
def srvOut (s : State) (n : Nat) (vcm ma : Int) : State :=
  let lim := clampInt (-32767) 32767
  (s.wr (Reg.srvOutVcm.elem n) (toBits 16 (lim vcm))).wr (Reg.srvOutMa.elem n) (toBits 16 (lim ma))

/-- A seek is over: nothing is supervised and no arrival is posted. -/
def seekClear (s : State) (n : Nat) : State :=
  s.setSrv n { s.srv.get n with seeking := false, arrive := none, arrived := false }

/-- The running SEEK or SETTLE plank of the actuator ends with SEEK_FAULT (R184, R185). -/
def servoPlankFault (s : State) (n : Nat) : State :=
  let b := s.bwk.get n
  match b.cur with
  | some p =>
    if b.run.begun && (p.action == actSeek || p.action == actSettle) then
      plankEnd s n stSeekFault (frameAngle s p.head s.fullAngle)
    else s
  | none => s

/-- A running SEEK plank ends with SEEK_FAULT. -/
def seekPlankFault (s : State) (n : Nat) : State :=
  match runningPlank s n actSeek with
  | some p => plankEnd s n stSeekFault (frameAngle s p.head s.fullAngle)
  | none => s

/-- Entry into FALLBACK (R173, R181, R195): the cause, the count, a contained fault, the milliactuator at 0, and the end of
a SEEK or SETTLE plank. -/
def srvFallbackEnter (s : State) (n cause : Nat) : State :=
  let s := srvLastFault s n cause
  let s := s.bump (Reg.srvCountsFallbacks.elem n)
  let s := pmuEvent s 2 3 (some n) none 1
  let s := srvEnter s n srvFallback
  let s := s.clr (Reg.srvOutMa.elem n)
  let s := contained s (srcSrv n) n 0x0030 0
  servoPlankFault (seekClear s n) n

/-- A law fault (R171, R173): the outputs of the previous run stay applied, and a loop in SEEK, SETTLE, FOLLOW or COAST
enters FALLBACK. -/
def srvLawFault (s : State) (n cause : Nat) : State :=
  let v := s.srv.get n
  let s := (s.wr (Reg.srvOutVcm.elem n) v.prevVcm).wr (Reg.srvOutMa.elem n) v.prevMa
  let s := s.set (Reg.srvIrqStatusLawEvent.elem n)
  let st := srvState s n
  if st = srvSeek ∨ st = srvSettle ∨ st = srvFollow ∨ st = srvCoast then srvFallbackEnter s n cause else s

/-- The nearest track position of a position in 1/256. -/
def nearestTrack (pos : Int) : Nat := ((pos + 128) / 256).toNat

/-- SETTLE on the nearest track (R173): TARGET from the position of the last sample processed, and the integrator
cleared. -/
def settleNearest (s : State) (n : Nat) : State :=
  let s := setTarget s n (256 * nearestTrack (s.srv.get n).pos)
  let s := s.clr (Reg.srvIntegS.elem n)
  let s := (s.clr (Reg.srvStatusSat.elem n)).clr (Reg.srvStatusHold.elem n)
  let v := s.srv.get n
  let s := s.setSrv n { v with feCount := 0, missRun := 0 }
  srvEnter (s.clr (Reg.srvStatusCoastCnt.elem n)) n srvSettle

/-! ## The HV retract engine (R191) -/

/-- Retract phases of HV_RETRACTn. -/
def hvIdle : Nat := 0
def hvBrake : Nat := 1
def hvMove : Nat := 2
def hvClimb : Nat := 3
def hvLatch : Nat := 4
def hvDone : Nat := 5

/-- SRVn follows the start of its actuator's retract: RETRACTING from every state but PARKED and FAILED (R173), with the
cause of the fault. -/
def srvRetracting_ (s : State) (n cause : Nat) : State :=
  let st := srvState s n
  if st = srvParked ∨ st = srvFailed ∨ st = srvRetracting then s else
  let s := srvLastFault s n cause
  let s := (srvEnter s n srvRetracting).clr (Reg.srvOutMa.elem n)
  seekPlankFault (seekClear s n) n

/-- The HV engine of actuator `n` starts (R191): the milliactuator goes to 0 V and BRAKE begins. A further trigger during a
run has no effect. While the dyke link is down SRVn does not learn of it (R192). -/
def hvRetract (s : State) (n hvCause srvCause : Nat) : State :=
  let s := if s.flag (Reg.hvRetractActive.elem n) then s else
    let s := ((s.set (Reg.hvRetractActive.elem n)).clr (Reg.hvRetractDone.elem n)).clr (Reg.hvRetractTimeout.elem n)
    (s.wr (Reg.hvRetractCause.elem n) hvCause).wr (Reg.hvRetractPhase.elem n) hvBrake
  if s.flag Reg.hvbStatusLinkUp then srvRetracting_ s n srvCause else s

/-- A retract of both actuators for a cause of the HV die. -/
def hvRetractBoth (s : State) (hvCause srvCause : Nat) : State := hvRetract (hvRetract s 0 hvCause srvCause) 1 hvCause srvCause

/-- The RETRACT line asserted (R191, R192). -/
def retractLine (s : State) : State := hvRetractBoth (s.set Reg.hvbStatusRetractLine) 2 10

/-- A fault cause of the HV die (R422): its bits set, the line asserted, the interrupt, the notice. -/
def hvFault (s : State) (bits : Nat) : State :=
  let v := s.rd Reg.hvFaultCauseCause ||| (bits % 1024)
  if v = 0 then s else
  let rises := !s.flag Reg.hvbStatusHvFaultLine
  let s := (s.wr Reg.hvFaultCauseCause v).set Reg.hvbStatusHvFaultLine
  if rises then mailboxNotice (s.set Reg.pwrIrqStatusHvFault) 0x0111 (leBytes 2 v) else s

/-! ## Gain schedule and integrator (R174 to R177) -/

/-- The 64 bytes of gain set `i` of SRVn (R174). -/
def gainSet (s : State) (n i : Nat) : List Byte := ((bodyOf s 0x0011 n).drop (32 + 64 * i)).take 64

/-- KI, I_MIN, I_MAX of a set; a disabled integrator or crossed limits hold the contribution at 0 (R174). -/
def setKi (b : List Byte) : Nat := bodyNat b 0x04 4
def setIntEn (b : List Byte) : Bool := (bodyNat b 0x36 2).testBit 0
def setOff (b : List Byte) : Bool := decide (bodyInt b 0x14 4 < bodyInt b 0x10 4) || !setIntEn b
def setIMin (b : List Byte) : Int := if setOff b then 0 else bodyInt b 0x10 4
def setIMax (b : List Byte) : Int := if setOff b then 0 else bodyInt b 0x14 4

/-- First track position of radial band `k` (R174); band 0 begins at 0. -/
def bandEdge (s : State) (n k : Nat) : Nat := if k = 0 then 0 else bodyNat (bodyOf s 0x0011 n) (4 * k) 4

/-- The radial band of a position with the hysteresis of R175: an edge is crossed once the position lies 16 track positions
beyond it. -/
def bandNext (s : State) (n band : Nat) (pos : Int) : Nat :=
  let ks := (List.range 8).drop 1
  let up := (ks.filter fun k => decide (band < k) && decide (((bandEdge s n k + 16) * 256 : Nat) ≤ pos)).length
  let down := (ks.filter fun k => decide (k ≤ band) && decide (pos + 4096 ≤ ((bandEdge s n k * 256 : Nat) : Int))).length
  band + up - down

/-- The radial band of a position when a set is selected afresh. -/
def bandFresh (s : State) (n : Nat) (pos : Int) : Nat :=
  (((List.range 8).drop 1).filter fun k => decide (((bandEdge s n k * 256 : Nat) : Int) ≤ pos)).length

/-- The mode of a state: 0 SEEK, 1 SETTLE, 2 FOLLOW; UNLOADING applies the SEEK-mode set, COAST keeps the mode of the state
it came from (R174, R175). -/
def srvMode (s : State) (n : Nat) : Nat :=
  let st := srvState s n
  let st := if st = srvCoast then (s.srv.get n).coastFrom else st
  if st = srvSettle then 1 else if st = srvFollow then 2 else 0

/-- The set index that the three inputs select (R174, R175). -/
def setIndex (s : State) (n : Nat) : Nat :=
  s.rd Reg.angRungSchedRung * 24 + s.rd (Reg.srvStatusBand.elem n) * 3 + srvMode s n

/-- A quotient rounded to the nearest integer, halves away from zero. -/
def roundAway (num : Int) (den : Nat) : Int :=
  if 0 ≤ num then (2 * num + den) / (2 * den) else -((2 * (-num) + den) / (2 * den))

/-- The integrator state written: a value outside the 32 bits of SRVn_INTEG is one the spec does not state. -/
def setInteg (s : State) (n : Nat) (v : Int) : State :=
  if satInt 32 v = v then s.wr (Reg.srvIntegS.elem n) (toBits 32 v)
  else let (f, s) := s.takeFree
       s.wr (Reg.srvIntegS.elem n) (f % 2 ^ 32)

/-- The integrator state. -/
def integ (s : State) (n : Nat) : Int := signedOf 32 (s.rd (Reg.srvIntegS.elem n))

/-- KI as a fraction of 2²⁴: the integral contribution of `v` times 2²⁴. -/
def contribution (b : List Byte) (v : Int) : Int := (setKi b : Int) * v

/-- HOLD set with the sign of the error (R176, R177). -/
def setHold (s : State) (n : Nat) (err : Int) : State :=
  (s.set (Reg.srvStatusHold.elem n)).setSrv n { s.srv.get n with holdSign := Int.sign err }

/-- The integrator at a swap from set `o` (none where no set was applied) to set `b` (R176). -/
def swapInteg (s : State) (n : Nat) (o : Option (List Byte)) (b : List Byte) (err : Int) : State :=
  if setKi b = 0 ∨ setOff b then
    ((s.clr (Reg.srvIntegS.elem n)).clr (Reg.srvStatusSat.elem n)).clr (Reg.srvStatusHold.elem n)
  else match o with
  | none => s
  | some ob =>
    if setKi ob = 0 then s else
    let ki := setKi b
    let lim (hi : Bool) : Int := Int.tdiv ((if hi then setIMax b else setIMin b) * 2 ^ 24) ki
    let v := roundAway (integ s n * setKi ob) ki
    if s.flag (Reg.srvStatusSat.elem n) then setInteg s n (lim (s.flag (Reg.srvStatusSatHi.elem n)))
    else if setIMax b * 2 ^ 24 < contribution b v ∨ contribution b v < setIMin b * 2 ^ 24 then
      let hi := decide (setIMax b * 2 ^ 24 < contribution b v)
      let s := setInteg s n (lim hi)
      setHold ((s.set (Reg.srvStatusSat.elem n)).wr (Reg.srvStatusSatHi.elem n) (bit hi)) n err
    else setInteg s n v

/-- Which control engine drives actuator `n` (R50). -/
def engineOf (s : State) (n : Nat) : Nat := s.sim.cfg.ceOfAct.get n

/-- A swap to set `i` at a sample boundary: the integrator first, then the set copied to data memory 0x000 to 0x00F
(R169, R176). -/
def gainSwap (s : State) (n i : Nat) (err : Int) : State :=
  let b := gainSet s n i
  let s := swapInteg s n (((s.srv.get n).set).map (gainSet s n)) b err
  let s := s.each (List.range 16) fun s k => setCeMem s (engineOf s n) k (BitVec.ofNat 32 (bodyNat b (4 * k) 4))
  (s.wr (Reg.srvStatusGset.elem n) i).setSrv n { s.srv.get n with set := some i }

/-- OUT INTEG (R177): ignored while HOLD is set or no set applies; clamped to the limits, which sets SAT, SAT_HI and HOLD;
else SAT clears. -/
def outInteg (s : State) (n : Nat) (v err : Int) : State :=
  match (s.srv.get n).set with
  | none => s
  | some i =>
    if s.flag (Reg.srvStatusHold.elem n) then s else
    let b := gainSet s n i
    let ki := setKi b
    let c := contribution b v
    if ki ≠ 0 ∧ (setIMax b * 2 ^ 24 < c ∨ c < setIMin b * 2 ^ 24) then
      let hi := decide (setIMax b * 2 ^ 24 < c)
      let s := setInteg s n (Int.tdiv ((if hi then setIMax b else setIMin b) * 2 ^ 24) ki)
      setHold ((s.set (Reg.srvStatusSat.elem n)).wr (Reg.srvStatusSatHi.elem n) (bit hi)) n err
    else (setInteg s n v).clr (Reg.srvStatusSat.elem n)

/-! ## Seek tables (R183) -/

/-- PROFILE_COUNT, DIST and DUR of a SEEKPROF body. -/
def profileCount (s : State) (n : Nat) : Nat := bodyNat (bodyOf s 0x0012 n) 0 2
def seekDistAt (s : State) (n i : Nat) : Nat := bodyNat (bodyOf s 0x0012 n) (0x10 + 4 * i) 4
def profileNat (s : State) (n p off size : Nat) : Nat := bodyNat (bodyOf s 0x0012 n) (256 + 1024 * p + off) size
def seekDurAt (s : State) (n p i : Nat) : Nat := profileNat s n p (4 * i) 4
def seekGrace (s : State) (n p : Nat) : Nat := profileNat s n p 0x88 4

/-- The index of the DIST entry below which the two entries used for `d` begin. -/
def distIndex (s : State) (n d : Nat) : Nat :=
  min 30 (((List.range 32).filter fun i => decide (seekDistAt s n i ≤ d)).length - 1)

/-- DUR(d) as an exact fraction of ticks: interpolated between DIST entries, DUR[0] below the first, extrapolated above the
last (R183). -/
def seekDur (s : State) (n p d : Nat) : Int × Nat :=
  if d < seekDistAt s n 0 then (seekDurAt s n p 0, 1) else
  let i := distIndex s n d
  let x0 := seekDistAt s n i
  let x1 := seekDistAt s n (i + 1)
  let y0 : Int := (seekDurAt s n p i : Nat)
  let y1 : Int := (seekDurAt s n p (i + 1) : Nat)
  if x1 ≤ x0 then (y0, 1) else (y0 * ((x1 - x0 : Nat) : Int) + (y1 - y0) * ((d - x0 : Nat) : Int), x1 - x0)

/-- Whether DUR(d) of a profile does not exceed a span of ticks. -/
def durWithin (s : State) (n p d span : Nat) : Bool :=
  let q := seekDur s n p d
  decide (q.1 ≤ (span * q.2 : Nat))

/-- The gentlest profile whose DUR(d) does not exceed the span, else profile 0 (R184). -/
def chooseProfile (s : State) (n d span : Nat) : Nat :=
  (((List.range (min 8 (profileCount s n))).filter fun p => durWithin s n p d span).getLast?).getD 0

/-- The profile a program named, as the hardware supervises it: profile 0 for an index at or above PROFILE_COUNT (R184). -/
def profileTaken (s : State) (n p : Nat) : Nat := if p < min 8 (profileCount s n) then p else 0

/-- Whether the span since the seek's begin has passed DUR(d) + GRACE wedges at full angle `full` (R184). -/
def seekExpired (s : State) (n full : Nat) : Bool :=
  let v := s.srv.get n
  let q := seekDur s n v.profile v.seekDist
  decide (q.1 + (1024 * seekGrace s n v.profile * q.2 : Nat) < (ticksBetween s v.seekFrom full * q.2 : Nat))

/-- Integer square root by search from above, `fuel` at least the root. -/
def isqrt (x : Nat) : Nat → Nat
  | 0 => 0
  | k + 1 => if (k + 1) * (k + 1) ≤ x then k + 1 else isqrt x k

/-- VREF of the remaining distance in 1/256 track position (R183): entry min(219, isqrt(r div 16)). -/
def seekVref (s : State) (n p r : Nat) : Nat := profileNat s n p (0x90 + 4 * isqrt (r / 16) 219) 4

/-- A seek begins toward a track on a head (R173, R184): distance from the current position, head switch with two exempt
samples, SEEK; from COAST the loop keeps coasting with SEEK as the state to return to. -/
def seekBegin (s : State) (n head track profile full : Nat) : State :=
  let v := s.srv.get n
  let target := 256 * track
  let d := ((target : Int) - v.pos).natAbs / 256
  let switch := decide (head ≠ followedHead s n)
  let s := (setTarget s n target).wr (Reg.srvStatusHead.elem n) head
  let s := s.when switch fun s => astHeadChange s n
  let s := pmuEvent s 2 4 (some n) none 1
  let coasting := decide (srvState s n = srvCoast)
  let s := if coasting then s else srvEnter s n srvSeek
  s.setSrv n { s.srv.get n with
    seeking := true, seekFrom := full, seekDist := d, profile := profileTaken s n profile, arrive := none
    arrived := false, feCount := 0, coastFrom := if coasting then srvSeek else (s.srv.get n).coastFrom
    exempt := if switch then 2 else (s.srv.get n).exempt }

/-! ## Spindle (R187 to R190) -/

/-- SPN_STATUS.STATE (R188). -/
def spnStopped : Nat := 0
def spnToken : Nat := 1
def spnAlign : Nat := 2
def spnOpenloop : Nat := 3
def spnAccel : Nat := 4
def spnLocked : Nat := 5
def spnZcCoast : Nat := 6
def spnBrake : Nat := 7
def spnFault : Nat := 8

/-- SPN's state code, and the state with another entered, with its interrupt bit (R196). -/
def spnState (s : State) : Nat := s.rd Reg.spnStatusState
def spnEnter (s : State) (st : Nat) : State :=
  let s := s.wr Reg.spnStatusState st
  let s := s.wr Reg.spnStatusTokenWait (bit (st == spnToken))
  let s := s.when (st != spnLocked) fun s => (s.clr Reg.spnStatusOffspeed).setSpn { s.spn with offRevs := 0 }
  if st = spnLocked then (tokenReturn s).set Reg.spnIrqStatusLocked
  else if st = spnFault then (tokenReturn s).set Reg.spnIrqStatusFault
  else if st = spnStopped then (tokenReturn s).set Reg.spnIrqStatusStopped
  else s

/-- SPINDLE section fields (R187). -/
def spindleNat (s : State) (off size : Nat) : Nat := bodyNat (bodyOf s 0x0013 0) off size

/-- SPN enters FAULT (R189): the cause, both actuators retracted, ANG reports SPINDLE (R88). -/
def spnFaultEnter (s : State) (cause : Nat) : State :=
  let s := s.wr Reg.spnFaultCause cause
  let s := spnEnter s spnFault
  rungSpindleFault (hvRetractBoth s 1 11)

/-- The speed of a rung (R82). -/
def rungRpmOf (s : State) (r : Nat) : Nat := nth 0 s.sim.cfg.rungRpm r

/-- The lowest rung: the one of highest index. -/
def lowestRung (s : State) : Nat := s.sim.cfg.rungCount - 1

end Sys2Proof.Machine
end

