-- ==== Sys2Proof/Machine/CacheOps.lean ====
section
/-!
DEFINITION. Shared operations of the block cache (spec/12_cache_memory.md, R341 to R350): frames, lines, allocation and
eviction, the request FIFO, and what the end of a fill, a write or a fold does to a line.
-/

namespace Sys2Proof.Machine

/-! ## Frames and metadata (R53, R341) -/

/-- First address of the cache area and of the side buffer. -/
def cacheBase (s : State) : Nat := 0x800000000 + s.dramBytes - s.dramReserved
def sideBase (s : State) : Nat := cacheBase s + s.sim.cfg.cacheMib * 2 ^ 20

/-- MB: mebibytes of metadata blocks. -/
def metaMib (s : State) : Nat := (s.sim.cfg.cacheMib + s.sim.cfg.sideMib + 63) / 64

/-- SETS. -/
def bcmSets (s : State) : Nat := s.sim.cfg.cacheMib - metaMib s

/-- Frames of the side buffer. -/
def sideFrames (s : State) : Nat := s.sim.cfg.sideMib * 16

/-- The place of a frame in frame order: cache frames, then side-buffer frames. -/
def frameIndex (s : State) (frame : Nat) : Nat :=
  if sideBase s ≤ frame * 65536 then bcmSets s * 16 + (frame - sideBase s / 65536) else frame - cacheBase s / 65536

/-- User-byte address and metadata-entry address of sector `i` of a frame. -/
def frameData (frame i : Nat) : Nat := frame * 65536 + 4096 * i
def frameMeta (s : State) (frame i : Nat) : Nat :=
  cacheBase s + bcmSets s * 2 ^ 20 + 1024 * frameIndex s frame + 64 * i

/-- The line address of an LBA, and its set. -/
def lineOf (ns lba : Nat) : Nat := (ns - 1) * 2 ^ 32 + lba / 16
def setOf (s : State) (la : Nat) : Nat := la % bcmSets s

/-- The frame of a free way (R345): the one of its place, unless it has taken another. -/
def wayFrame (s : State) (set way : Nat) : Nat :=
  (Store.read none s.bcm.wayFrame (set * 16 + way)).getD (cacheBase s / 65536 + set * 16 + way)

/-! ## Lines (R342) -/

/-- The state of a sector of a line. -/
def Line.state (l : Line) (i : Nat) : Nat := nth 0 l.sect i

/-- Whether a line has a sector in a state. -/
def Line.has (l : Line) (v : Nat) : Bool := l.sect.any fun x => x == v

/-- The sectors of a line in a state, as a mask. -/
def Line.maskOf (l : Line) (v : Nat) : Nat := (l.sect.zipIdx).foldl (fun m e => if e.1 = v then maskSet m e.2 else m) 0

/-- A line that a lookup finds. -/
def bcmFind (s : State) (la : Nat) : Option Line := s.bcm.lines.find? fun l => l.la == la && l.place != 3

/-- A line that a fill or its reader finds: a transient one counts. -/
def bcmFillLine (s : State) (la : Nat) : Option Line :=
  (s.bcm.lines.find? fun l => l.la == la && l.has 3).or (s.bcm.lines.find? fun l => l.la == la)

/-- LINES of BCM_DIRTY. -/
def bcmDirtyShow (s : State) : State := s.wr Reg.bcmDirtyLines (s.bcm.lines.filter fun l => l.has 2).length

/-- A line taken away; the way it held keeps its frame. -/
def bcmDrop (s : State) (l : Line) : State :=
  let b := s.bcm
  let wf := if l.place = 0 then Store.write none b.wayFrame (setOf s l.la * 16 + l.way) (some l.frame) else b.wayFrame
  s.setBcm { b with lines := b.lines.filter fun x => x != l, wayFrame := wf }

/-- A line replaced; one whose sectors are all INVALID is free (R342). -/
def bcmPut (s : State) (l new : Line) : State :=
  if new.sect.all fun v => v == 0 then bcmDirtyShow (bcmDrop s l)
  else bcmDirtyShow (s.setBcm { s.bcm with lines := s.bcm.lines.map fun x => if x = l then new else x })

/-- A new line. -/
def bcmAdd (s : State) (l : Line) : State := bcmDirtyShow (s.setBcm { s.bcm with lines := s.bcm.lines ++ [l] })

/-- The cache's use counter advanced: least recently used is the lowest stamp. -/
def bcmTick (s : State) : State := s.setBcm { s.bcm with clock := s.bcm.clock + 1 }

/-- A line used now. -/
def bcmTouch (s : State) (l : Line) : State := bcmTick (bcmPut s l { l with used := s.bcm.clock })

/-- Masked sectors of a line set to a value where they hold another. -/
def Line.setMask (l : Line) (mask from_ to_ : Nat) : Line :=
  { l with sect := (l.sect.zipIdx).map fun e => if mask.testBit e.2 && e.1 == from_ then to_ else e.1 }

/-! ## The free pool and the eviction structure (R345) -/

/-- Frames owned by a way, a line, a staged write. -/
def framesOwned (s : State) : List Nat :=
  (s.bcm.lines.map fun l => l.frame) ++ (s.bcm.staged.map fun t => t.frame)
  ++ (List.range (bcmSets s * 16)).filterMap fun k =>
      if s.bcm.lines.any (fun l => l.place == 0 && setOf s l.la * 16 + l.way == k) then none
      else some (wayFrame s (k / 16) (k % 16))

/-- Frames of the free pool. -/
def framesFree (s : State) : List Nat :=
  let own := framesOwned s
  ((List.range (bcmSets s * 16)).map (fun i => cacheBase s / 65536 + i)
    ++ (List.range (sideFrames s)).map fun i => sideBase s / 65536 + i).filter fun f => !own.contains f

/-- The oldest line of the eviction structure. -/
def evictOldest (s : State) : Option Line :=
  (s.bcm.lines.filter fun l => l.place == 1).foldl (fun o l => match o with
    | none => some l
    | some m => if l.since < m.since then some l else o) none

/-- Entries the eviction structure holds at most: 64 lines of a victim cache, 512 of an eviction buffer. -/
def evictCapacity (s : State) : Nat := if s.flag Reg.bcmStatusEvb then 512 else 64

/-- A frame from the free pool, or else from the oldest entry of the eviction structure. Which free frame is taken is not
stated: the choice is a free value. `keep`: an entry that gives up nothing. -/
def takeFrame (s : State) (keep : Option Line) : Option (Nat × State) :=
  let pool := framesFree s
  if pool.isEmpty then
    match evictOldest s with
    | none => none
    | some l => if some l = keep then none else some (l.frame, bcmDrop s l)
  else
    let (v, s) := s.takeFree
    some (nth 0 pool (v % pool.length), s)

/-- A line passes to the eviction structure with its frame (R345 steps 1 and 2). -/
def evictIn (s : State) (l : Line) : State × Line :=
  let held := (s.bcm.lines.filter fun x => x.place == 1).length
  let s := if held < evictCapacity s then s else match evictOldest s with | some o => bcmDirtyShow (bcmDrop s o) | none => s
  let new := { l with place := 1, since := s.bcm.clock }
  let s := pmuEvent s 5 3 none none 1
  (bcmTick (s.setBcm { s.bcm with lines := s.bcm.lines.map fun x => if x = l then new else x }), new)

/-! ## Allocation (R344) -/

/-- Whether a way takes lines: powered, and not on its way to being gated. -/
def wayOn (s : State) (w : Nat) : Bool := (s.rd Reg.bcmWaysOn).testBit w && !(s.rd Reg.bcmWaysPend).testBit w

/-- The least recently used of a list of lines. -/
def leastUsed : List Line → Option Line
  | [] => none
  | l :: rest => match leastUsed rest with
    | none => some l
    | some m => if m.used < l.used then some m else some l

/-- The way R344 takes in a set: a free one, or the line to be evicted. -/
def wayChoice (s : State) (set : Nat) : Option (Nat ⊕ Line) :=
  let held := s.bcm.lines.filter fun l => l.place == 0 && setOf s l.la == set
  match (List.range 16).find? fun w => wayOn s w && !held.any fun l => l.way == w with
  | some w => some (.inl w)
  | none =>
    let can := held.filter fun l => wayOn s l.way && !l.pinned && !l.has 3
    match leastUsed (can.filter fun l => !l.has 2) with
    | some l => some (.inr l)
    | none => (leastUsed can).map .inr

/-- A way of the line's set with a frame for a new line, by eviction where needed; none is NO_WAY (R344, R345). -/
def wayTake (s : State) (la : Nat) : Option (Nat × Nat × State) :=
  if s.rd Reg.bcmStatusState ≠ 1 ∨ bcmSets s = 0 then none else
  match wayChoice s (setOf s la) with
  | none => none
  | some (.inl w) => some (w, wayFrame s (setOf s la) w, s)
  | some (.inr l) =>
    let (t, new) := evictIn s l
    match takeFrame t (some new) with
    | none => none
    | some (f, t) => some (l.way, f, bcmDirtyShow t)

/-- A held line moves into its set (a recall, or the remap of a read-ahead frame): the way that makes room passes to the
eviction structure with its own frame; where no way qualifies it stays where it is. -/
def lineToSet (s : State) (l : Line) : State :=
  if s.rd Reg.bcmStatusState ≠ 1 ∨ bcmSets s = 0 then s else
  match wayChoice s (setOf s l.la) with
  | none => s
  | some (.inl w) => bcmPut s l { l with place := 0, way := w }
  | some (.inr v) =>
    let s := bcmPut s l { l with place := 0, way := v.way }
    bcmDirtyShow (evictIn s v).1

/-- A line found by a host lookup or a merge: recalled from the eviction structure, remapped from a read-ahead frame, used
now (R345, R346). -/
def lineHit (s : State) (l : Line) : State :=
  let s := if l.place = 1 then pmuEvent ((lineToSet s l).bump Reg.bcmCounts2Recalls) 5 4 none none 1
    else if l.place = 2 then (lineToSet s l).bump Reg.bcmCounts2Remaps else s
  match bcmFind s l.la with
  | some m => bcmTouch s m
  | none => s

/-- An empty line. -/
def lineNew (la frame place way clock mask : Nat) : Line :=
  { la, pinned := false, sect := (List.range 16).map fun i => if mask.testBit i then 3 else 0
    frame, place, way, used := clock, since := clock }

/-- What ALLOC gives (R343, R344, R350): its STATUS, the frame, the sectors made FILLING, and the state. A line that is held
makes its INVALID sectors FILLING; else it is allocated; where no way is to be had a transient frame serves. -/
def bcmAlloc (s : State) (la mask : Nat) : Nat × Nat × Nat × State :=
  match bcmFind s la with
  | some l =>
    let s := lineHit s l
    match bcmFind s la with
    | some l =>
      let m := l.maskOf 0 &&& mask
      (0, l.frame, m, bcmPut s l (l.setMask m 0 3))
    | none => (0, 0, 0, s)
  | none =>
    match wayTake s la with
    | some (w, f, s) => (0, f, mask, bcmTick (bcmAdd s (lineNew la f 0 w s.bcm.clock mask)))
    | none =>
      let s := s.when (s.rd Reg.bcmStatusState == 1) fun s =>
        pmuEvent ((s.bump Reg.bcmCounts3NoWay).set Reg.bcmIrqStatusNoWay) 5 5 none none 1
      match takeFrame s none with
      | some (f, s) => (4, f, mask, bcmTick (bcmAdd (s.bump Reg.bcmCounts3Transient) (lineNew la f 3 0 s.bcm.clock mask)))
      | none => (1, 0, 0, s)

/-! ## The request FIFO (R346) -/

/-- The FIFO's head shown in BCM_REQ0 to BCM_REQ2 (R363). -/
def fifoShow (s : State) : State :=
  let s := s.wr Reg.bcmReqCntEntries s.bcm.fifo.length
  match s.bcm.fifo with
  | [] => s.clr Reg.bcmReq0Valid
  | r :: _ =>
    let s := (s.set Reg.bcmReq0Valid).wr Reg.bcmReq0Kind (bit r.ahead)
    let s := (s.wr Reg.bcmReq0Ns (r.la / 2 ^ 32 + 1)).wr Reg.bcmReq0Mask r.mask
    (s.wr Reg.bcmReq1Line (r.la % 2 ^ 32)).wr Reg.bcmReq2Frame r.frame

/-- An entry posted. -/
def fifoPost (s : State) (r : BcmReq) : State :=
  fifoShow ((s.setBcm { s.bcm with fifo := s.bcm.fifo ++ [r] }).set Reg.bcmIrqStatusReq)

/-- A host miss posted: its sectors become FILLING (R346). Nothing is posted while the FIFO is full, or where no frame is to
be had. -/
def missPost (s : State) (la mask : Nat) : State :=
  if 64 ≤ s.bcm.fifo.length then s else
  let (st, frame, m, t) := bcmAlloc s la mask
  if st = 1 ∨ m = 0 then t
  else fifoPost (pmuEvent (t.addWrap Reg.bcmCounts1Misses (bitList 16 m).length) 5 2 none none (bitList 16 m).length)
    { ahead := false, la, mask := m, frame }

/-- A read-ahead line posted: a side-buffer frame takes it (R346). -/
def aheadPost (s : State) (la : Nat) : State :=
  if 64 ≤ s.bcm.fifo.length ∨ (bcmFind s la).isSome ∨ s.rd Reg.bcmStatusState ≠ 1 then s else
  match takeFrame s none with
  | none => s
  | some (f, s) =>
    let s := bcmTick (bcmAdd s (lineNew la f 2 0 s.bcm.clock 0xFFFF))
    fifoPost s { ahead := true, la, mask := 0xFFFF, frame := f }

/-- A host read's stream (R346): a read that starts at the end of one of its namespace's last 16 reads opens one, and up to
LINES lines beyond it are requested. -/
def readStream (s : State) (ns slba nlb : Nat) : State :=
  let mine := s.bcm.streams.filter fun e => e.1 == ns
  let opens := mine.any fun e => e.2 == slba
  let others := s.bcm.streams.filter fun e => e.1 != ns
  let s := s.setBcm { s.bcm with streams := others ++ ((ns, slba + nlb) :: mine).take 16 }
  if !opens then s else
  s.each (List.range (s.rd Reg.bcmRaLines)) fun s i => aheadPost s (lineOf ns (slba + nlb + 15) + i)

/-! ## Staging and merging of writes (R346, R347) -/

/-- Sectors of a line as they stand in a staged frame copied into the line's frame, with their metadata entries. -/
def mergeCopy (s : State) (t : Staged) (frame : Nat) : State :=
  s.each (bitList 16 t.mask) fun s i =>
    let s := s.store (frameData frame i) (s.bytes (frameData t.frame i) 4096)
    s.store (frameMeta s frame i) (s.bytes (frameMeta s t.frame i) 64)

/-- One staged frame merged into its line with the sectors in state `v` (1 VALID, 2 DIRTY): remapped where it covers the
line, copied otherwise. A merge that meets NO_WAY leaves the data uncached. It waits for no fill here: a caller merges a
frame only when no sector it covers is FILLING. -/
def mergeOne (s : State) (t : Staged) (v : Nat) : State :=
  let s := s.setBcm { s.bcm with staged := s.bcm.staged.filter fun x => x != t }
  let put (l : Line) : Line :=
    { l with sect := (l.sect.zipIdx).map fun e => if t.mask.testBit e.2 then v else e.1 }
  match bcmFind s t.la with
  | some l =>
    let s := lineHit s l
    match bcmFind s t.la with
    | some l => bcmPut (mergeCopy s t l.frame) l (put l)
    | none => s
  | none =>
    match wayTake s t.la with
    | none => s
    | some (w, f, s) =>
      if t.mask = 0xFFFF then
        -- the staged frame becomes the line's; the way's frame joins the pool
        bcmTick (bcmAdd (s.bump Reg.bcmCounts2Remaps) (put (lineNew t.la t.frame 0 w s.bcm.clock 0)))
      else bcmTick (bcmAdd (mergeCopy s t f) (put (lineNew t.la f 0 w s.bcm.clock 0)))

/-- Whether a staged frame's merge would meet a FILLING sector (R347). -/
def mergeBlocked (s : State) (t : Staged) : Bool :=
  match bcmFind s t.la with
  | some l => (l.maskOf 3 &&& t.mask) != 0
  | none => false

/-- Every staged frame of a write that is DONE merged, as far as no fill stands in its way (R347). -/
def mergePump (s : State) : State :=
  s.each (s.bcm.staged.filter fun t => t.ready != 0) fun s t => if mergeBlocked s t then s else mergeOne s t t.ready

/-- A write reaches DONE: its staged sectors are to merge, as DIRTY where the journaled route laid them (R347). -/
def mergeWrite (s : State) (tag : Nat) (dirty : Bool) : State :=
  mergePump (s.setBcm { s.bcm with
    staged := s.bcm.staged.map fun t => if t.tag = tag then { t with ready := if dirty then 2 else 1 } else t })

/-- DIRTY sectors of an LBA range become VALID or INVALID: their extent is freed after or without its fold (R347). -/
def dirtyEnd (s : State) (ns slba n to_ : Nat) : State :=
  s.each (List.range n) fun s i =>
    match bcmFind s (lineOf ns (slba + i)) with
    | some l => bcmPut s l (l.setMask (2 ^ ((slba + i) % 16)) 2 to_)
    | none => s

/-! ## Op slots (R343, R348) -/

/-- A slot's operation ends (R343, R363). -/
def slotEnd (s : State) (slot status mask frame : Nat) : State :=
  let s := (s.clr (Reg.bcmOpResBusy.elem slot)).wr (Reg.bcmOpResStatus.elem slot) status
  let s := (s.wr (Reg.bcmOpResMask.elem slot) mask).wr (Reg.bcmOpFrameFrame.elem slot) frame
  s.set Reg.bcmIrqStatusOpDone

/-- Whether a set would have all its ways pinned once one more line of it is (R344). -/
def pinRefused (s : State) (la : Nat) : Bool :=
  decide (15 ≤ (s.bcm.lines.filter fun l => l.place == 0 && setOf s l.la == setOf s la && l.pinned && l.la != la).length)

/-- An operation of a slot carried out, or none where it must wait: for a fill of its line, or for a DIRTY sector. -/
def slotTry (s : State) (o : SlotOp) : Option State :=
  match o.op, bcmFind s o.la with
  | 1, some l => some (slotEnd s o.slot 0 ((l.maskOf 1 ||| l.maskOf 2) &&& o.mask) l.frame)
  | 1, none => some (slotEnd s o.slot 0 0 0)
  | 2, l =>
    if l.any fun l => l.has 3 then none else
    let (st, f, m, t) := bcmAlloc s o.la o.mask
    some (slotEnd t o.slot st m f)
  | _, none => some (slotEnd s o.slot 0 0 0)
  | op, some l =>
    if l.has 3 then none
    else if op = 5 then
      if l.maskOf 2 &&& o.mask != 0 then none else some (slotEnd s o.slot 0 o.mask l.frame)
    else if op = 6 then
      if l.maskOf 2 &&& o.mask != 0 then none
      else some (slotEnd (bcmPut s l (l.setMask o.mask 1 0)) o.slot 0 o.mask l.frame)
    else if op = 7 then
      if !l.pinned && pinRefused s o.la then some (slotEnd s o.slot 3 0 l.frame)
      else some (slotEnd (bcmPut s l { l with pinned := true }) o.slot 0 o.mask l.frame)
    else some (slotEnd (bcmPut s l { l with pinned := false }) o.slot 0 o.mask l.frame)

/-- Waiting operations carried out in GO order, as far as each can be; one waits while an earlier one of its line does. -/
def slotPump (s : State) : List SlotOp → List SlotOp → State
  | [], waiting => s.setBcm { s.bcm with ops := waiting }
  | o :: rest, waiting =>
    if waiting.any fun w => w.la == o.la then slotPump s rest (waiting ++ [o])
    else match slotTry s o with
      | some t => slotPump t rest waiting
      | none => slotPump s rest (waiting ++ [o])

/-- Every waiting operation tried again. -/
def bcmPump (s : State) : State := slotPump s s.bcm.ops []

end Sys2Proof.Machine
end

