-- ==== Sys2Proof/Machine/Assist.lean ====
section
/-!
DEFINITION. Assist and preamp commands (spec/07_assist_write.md, R200 to R205, R209, R211, R220 to R225; PREHEAT of R210).
-/

namespace Sys2Proof.Machine

/-! ## The frame sent -/

/-- A quotient rounded to the nearest integer; which way a half goes is not stated, so it is a free value. -/
def roundNear (s : State) (num : Int) (den : Nat) : Int × State :=
  let q := num / den
  let r := (num % den).toNat
  if 2 * r < den then (q, s) else if den < 2 * r then (q + 1, s)
  else let (v, s) := s.takeFree
       (q + (v % 2 : Nat), s)

/-- The code sent for a setpoint (R197): min(4,095, round(u × G)) with G the head's effective DAC gain (Q2.14), held to the
LIMITS entries 0x0202 for a laser head and 0x0203 for an oscillator head (R219); a clamp is a corrected event (R56). -/
def sentCode (s : State) (n u : Nat) : Nat × State :=
  let h := headOfPa s n (s.ast.get n).head
  let (c, s) := roundNear s ((u : Int) * calEff s (qidOf 3 h)) (2 ^ 14)
  let c := min 4095 c.toNat
  let c' := limitValue s (if (nth ⟨2, 0, 0, 0, 0⟩ s.sim.cfg.heads h).assist = 0 then 0x0202 else 0x0203) c
  (c', s.when (c' != c) corrected)

/-- The test code of a CAL plank of group 3 or 4 in an IDLE frame at full angle `full` (R203, R393): group 3 sends 1/8, 2/8,
3/8 and 4/8 of OL_SET for two wedges each; group 4 sends 1/4 of it from the third to the sixth wedge. -/
def calTestCode (s : State) (n full : Nat) : Nat × State :=
  match runningPlank s n actCal with
  | none => (0, s)
  | some p =>
    let g := p.param % 256
    let w := ticksBetween s (s.bwk.get n).run.beginAt (frameAngle s p.head full) / 1024
    let ol := olSet s n (paSelect s p.head) (s.rd (Reg.srvStatusBand.elem n))
    if g = 3 ∧ w < 8 then
      let (c, s) := roundFree s ((ol * (w / 2 + 1) : Nat) : Int) 8
      (min 4095 c.toNat, s)
    else if g = 4 ∧ 2 ≤ w ∧ w < 6 then
      let (c, s) := roundFree s (ol : Nat) 4
      (min 4095 c.toNat, s)
    else (0, s)

/-- Frame k starts (R198, R200): the code of the setpoint computed in the sample before, OFF in IDLE and FAULT but for the
test codes; the head latched, or in IDLE and FAULT the followed head. -/
def astSend (s : State) (n full : Nat) : State :=
  let st := astState s n
  let a := s.ast.get n
  let quiet := st == astIdle || st == astFault
  let (code, s) :=
    if st = astIdle then calTestCode s n full
    else if st = astFault ∨ a.u = 0 then (0, s)
    else sentCode s n a.u
  let pa := if quiet then paSelect s (followedHead s n) else a.head
  let seq := (a.seq + 1) % 16
  let s := s.setAst n { s.ast.get n with frame := assistFrame pa code seq, seq, sentPrev := code }
  (s.wr (Reg.astStatusHead.elem n) pa).wr (Reg.astSetpointIset.elem n) code

/-! ## The word checked (R201, R202) -/

/-- The cause of an invalid sample other than FROZEN, if the word fails one of the other checks. `seq0` and `seq1` are the
sequence numbers of frames k − 1 and k. -/
def sensorFault (word : Option Nat) (seq0 seq1 : Nat) : Option Nat :=
  match word with
  | none => some 5
  | some w =>
    let echo := bitsOf w 10 4
    if w.testBit 15 ∨ sensorProxy w = 0x3FFF then some 1
    else if w.testBit 14 ∨ sensorProxy w = 0 then some 2
    else if sensorGood w then (if echo ≠ seq0 ∧ echo ≠ seq1 then some 3 else none)
    else some 5

/-- The errors a word adds to ASTn_CHAN (R224). -/
def chanCount (s : State) (n : Nat) (word : Option Nat) (seq0 seq1 : Nat) : State :=
  match word with
  | none => s
  | some w =>
    let s := s.when (!sensorGood w) fun s => s.bump (Reg.astChanCrcErr.elem n)
    s.when (sensorGood w && bitsOf w 10 4 != seq0 && bitsOf w 10 4 != seq1) fun s => s.bump (Reg.astChanEchoErr.elem n)

/-- The run of identical samples after a word (R202): `sent0` is the code of frame k − 1. -/
def astFrozen (s : State) (n : Nat) (fault : Option Nat) (proxy sent0 : Nat) : State :=
  let a := s.ast.get n
  if fault.isSome ∨ sent0 = 0 then s.setAst n { a with frozen := none, frozenRun := 0 }
  else if a.frozen = some proxy then s.setAst n { a with frozenRun := a.frozenRun + 1 }
  else s.setAst n { a with frozen := some proxy, frozenRun := 0 }

/-! ## The setpoint (R204, R205) -/

/-- The probe target in force (R215): floor(T_TGT × (32 + OFF) / 32), which is T_TGT outside a probe. -/
def astTarget (s : State) (n : Nat) : Int := ((astSet s n 0x08 2 : Nat) : Int) * (32 + (s.ast.get n).probeOff) / 32

/-- The lowest of the competing terms, with its LIMITER code; of equal terms the lower code (R204). -/
def lowest : List (Nat × Int) → Nat × Int
  | [] => (7, 0)
  | [x] => x
  | x :: y :: rest =>
    let m := lowest (y :: rest)
    if x.2 ≤ m.2 then x else m

/-- The in-band flag after a valid sample (R205), and LEVEL when it rises in RAMP (R203). -/
def astBand (s : State) (n : Nat) (err : Int) : State :=
  let inside := decide (err.natAbs ≤ astSet s n 0x0A 2)
  let a := s.ast.get n
  let a := if inside then { a with inRun := a.inRun + 1, outRun := 0 } else { a with outRun := a.outRun + 1, inRun := 0 }
  let s := s.setAst n a
  let st := astState s n
  if st ≠ astRamp ∧ st ≠ astLevel then s
  else if inside && decide (astIbRun s n ≤ a.inRun) && !s.flag (Reg.astStatusInband.elem n) then
    let s := setInBand s n true
    if st = astRamp then astEnter s n astLevel else s
  else if !inside && decide (astOobRun s n ≤ a.outRun) then setInBand s n false
  else s

/-- Mean setpoints that AGE and CAL collect (R396, R397): a LEVEL sample with LIMITER 0 counts toward its head and band, a
sample of a PROBE plank toward the probe. -/
def astMeasure (s : State) (n u limiter : Nat) : State :=
  let a := s.ast.get n
  let h := headOfPa s n a.head
  let k := h * 8 + a.band
  let s := if astState s n = astLevel ∧ limiter = 0 then
      let old := Store.read (0, 0) s.age.level k
      s.setAge { s.age with level := Store.write (0, 0) s.age.level k (old.1 + u, old.2 + 1) }
    else s
  match runningPlank s n actProbe with
  | none => s
  | some _ =>
    let old := s.cal.probeAcc.get n
    s.setCal { s.cal with probeAcc := s.cal.probeAcc.set n (old.1 + u, old.2 + 1) }

/-- A setpoint and the integral that stands beside it, as ASTn holds and shows them. -/
def astPut (s : State) (n u limiter integral : Nat) : State :=
  let s := (s.setAst n { s.ast.get n with u, integral }).wr (Reg.astStatusLimiter.elem n) limiter
  s.wr (Reg.astSetpointHeld.elem n) u

/-- CEIL_HIT raised. -/
def astCeilHit (s : State) (n : Nat) (hit : Bool) : State := s.when hit fun s => s.set (Reg.astIrqStatusCeilHit.elem n)

/-- The lowest term in DOWN (R204), with its LIMITER code; every term in codes × 2²⁴. -/
def astDownLow (s : State) (n : Nat) (p : Int) : Nat × Int :=
  let one : Int := 2 ^ 24
  let prev : Int := ((s.ast.get n).u : Nat) * one
  let nat (f sz : Nat) : Int := (astSet s n f sz : Nat)
  lowest [(1, prev + nat 0x14 2 * 2 ^ 10 * (nat 0x0C 2 - p)), (2, (wwCeil s n : Nat) * one), (3, (ageCeil s n : Nat) * one),
    (4, prev - (astRampDn s n : Nat) * one)]

/-- The proportional and integral term of RAMP and LEVEL (R204), in codes × 2²⁴. -/
def astPi (s : State) (n : Nat) (p : Int) : Int :=
  (astSet s n 0 4 : Nat) * (astTarget s n - p) + ((s.ast.get n).integral : Nat)

/-- The lowest term in RAMP and LEVEL (R204), with its LIMITER code. -/
def astLow (s : State) (n : Nat) (p : Int) : Nat × Int :=
  let one : Int := 2 ^ 24
  let prev : Int := ((s.ast.get n).u : Nat) * one
  let nat (f sz : Nat) : Int := (astSet s n f sz : Nat)
  lowest [(0, astPi s n p), (1, prev + nat 0x14 2 * 2 ^ 10 * (nat 0x0C 2 - p)), (2, (wwCeil s n : Nat) * one),
    (3, (ageCeil s n : Nat) * one), (4, prev + nat 0x10 2 * one), (5, (astIMax s n : Nat) * one)]

/-- The integral after a sample in RAMP or LEVEL (R204): it moves where the proportional and integral term is the lowest, or
the error is negative, and stays within 0 and I_MAX. -/
def astIntegral (s : State) (n : Nat) (p : Int) : Nat :=
  let e := astTarget s n - p
  let old : Int := ((s.ast.get n).integral : Nat)
  (clampInt 0 ((astIMax s n : Nat) * 2 ^ 24)
    (if (astLow s n p).2 = astPi s n p ∨ e < 0 then old + (astSet s n 4 4 : Nat) * e else old)).toNat

/-- The end of a sample in DOWN: the setpoint rounded to a code, and IDLE at 0. -/
def astDownEnd (s : State) (n u limiter integral : Nat) : State :=
  let s := astPut s n u limiter integral
  if u = 0 then astEnter s n astIdle else s

/-- The end of a sample in RAMP or LEVEL: CEIL_HIT where a ceiling limits LEVEL, the band, and the means collected. -/
def astLevelEnd (s : State) (n u limiter integral : Nat) (level : Bool) (e : Int) : State :=
  let s := astCeilHit (astPut s n u limiter integral) n (level && (limiter == 1 || limiter == 2 || limiter == 3))
  astMeasure (astBand s n e) n u limiter

/-- The setpoint computed from a valid proxy in RAMP, LEVEL or DOWN (R204). -/
def astCompute (s : State) (n : Nat) (p : Int) : State :=
  if astState s n = astDown then
    let r := roundNear s (astDownLow s n p).2 (2 ^ 24)
    astDownEnd r.2 n r.1.toNat (astDownLow s n p).1 (s.ast.get n).integral
  else
    let r := roundNear s (astLow s n p).2 (2 ^ 24)
    astLevelEnd r.2 n r.1.toNat (astLow s n p).1 (astIntegral s n p) (astState s n == astLevel) (astTarget s n - p)

/-- The next open-loop step (R211): floor(h × F / 256) for its count of samples, then OFF and IDLE. -/
def olAdvance (s : State) (n : Nat) : State :=
  let a := s.ast.get n
  if 1 < a.olLeft then s.setAst n { a with olLeft := a.olLeft - 1 }
  else
    let d := olDown s n a.head (a.olStep + 1)
    if d.2 = 0 then astEnter s n astIdle
    else s.setAst n { a with olStep := a.olStep + 1, olLeft := d.2, u := s.rd (Reg.astSetpointHeld.elem n) * d.1 / 256 }

/-- AST_SAMPLE (R200 to R205): frame k is sent, word k is checked, and the setpoint, the state and the in-band flag
follow. -/
def execAstSample (n full : Nat) (word : Option Nat) (s : State) : Host.Outcome State Fault Refusal :=
  let seq0 := (s.ast.get n).seq
  let sent0 := (s.ast.get n).sentPrev
  let s := astSend s n full
  let seq1 := (s.ast.get n).seq
  let st := astState s n
  let fault := sensorFault word seq0 seq1
  let proxy := sensorProxy (word.getD 0)
  let s := chanCount s n word seq0 seq1
  let s := if st = astIdle then s else astFrozen s n fault proxy sent0
  let cause := if fault = none ∧ st ≠ astIdle ∧ s.rd (Reg.astFreezeSamples.elem n) ≤ (s.ast.get n).frozenRun
    then some 4 else fault
  let s := s.wr (Reg.astProxyValid.elem n) (bit cause.isNone)
  if st = astIdle ∨ st = astFault then
    .next (s.when cause.isNone fun s => s.wr (Reg.astProxyProxy.elem n) proxy)
  else if st = astOpen then .next (olAdvance (s.wr (Reg.astStatusLimiter.elem n) 6) n)
  else match cause with
  | some c =>
    let a := s.ast.get n
    let s := s.setAst n { a with invalid := a.invalid + 1, cause := c, inRun := 0, outRun := 0
                                 holdFrom := if st = astHold then a.holdFrom else st
                                 u := s.rd (Reg.astSetpointHeld.elem n) }
    let s := s.wr (Reg.astStatusHoldCnt.elem n) (min (a.invalid + 1) 15)
    .next (if st = astHold then s else astEnter s n astHold)
  | none =>
    let s := s.wr (Reg.astProxyProxy.elem n) proxy
    let a := s.ast.get n
    let down := a.downPend
    let s := s.setAst n { a with invalid := 0 }
    let s := s.clr (Reg.astStatusHoldCnt.elem n)
    let s := if st = astHold then astEnter s n (if down then astDown else a.holdFrom) else s
    let s := s.wr (Reg.astProxyTarget.elem n) (toBits 14 (astTarget s n))
    .next (astCompute s n ((proxy : Int) - calEff s (qidOf 4 (headOfPa s n a.head))))

/-- PROXY_LOSS (R211): invalid samples have passed HOLD_SAMPLES. The in-band flag falls, the open-loop table begins from the
held setpoint, the head becomes suspect, a contained fault and a record are written, LOSS and SUSPECT are raised. -/
def execProxyLoss (n full : Nat) (s : State) : Host.Outcome State Fault Refusal :=
  let a := s.ast.get n
  if astState s n ≠ astHold ∨ a.invalid ≤ s.rd (Reg.astHoldSamples.elem n) then .next s else
  let _ := full
  let s := astEnter s n astOpen
  let d := olDown s n a.head 0
  let s := s.setAst n { s.ast.get n with olStep := 0, olLeft := d.2, u := s.rd (Reg.astSetpointHeld.elem n) * d.1 / 256 }
  let s := s.wr (Reg.astSuspectHeads.elem n) (maskSet (s.rd (Reg.astSuspectHeads.elem n)) a.head)
  let s := (s.wr (Reg.astLossHead.elem n) a.head).wr (Reg.astLossCause.elem n) a.cause
  let s := s.bump (Reg.astLossCount.elem n)
  let s := contained s (srcAst n) n 0x0031 0
  let s := record s (srcAst n) 2 1 (leBytes 4 (s.rdWord (Reg.astLossHead.elem n).addr).toNat
    ++ leBytes 4 (s.rdWord (Reg.astWfSnap0PosErr.elem n).addr).toNat)
  let s := (s.set (Reg.astIrqStatusLoss.elem n)).set (Reg.astIrqStatusSuspect.elem n)
  .next (if d.2 = 0 then astEnter s n astIdle else s)

/-! ## Staged tables (R209) -/

/-- AST_STAGED_APPLY (R209): the first sample boundary in IDLE. -/
def execAstStagedApply (n : Nat) (s : State) : Host.Outcome State Fault Refusal :=
  .next (if astState s n = astIdle then astApplyStaged s n else s)

/-- An expert-only write at basic level that would change something: ignored and counted (R14). -/
def expertIgnored (s : State) (count : Fld) (changes : Bool) : State := s.when changes fun s => s.bump count

/-- AST_TBL_DATA_ACCESS (R209, R224): a ceiling entry read or, at expert level, staged; INDEX steps. AGE_CEIL is held to
LIMITS entry 0x0204 (R219). -/
def execAstTblDataAccess (n : Nat) (write : Option Word) (s : State) : Host.Outcome State Fault Refusal :=
  gatedAccess s (5 + n) <|
  let i := s.rd (Reg.astTblIdxIndex.elem n)
  let old := ceilLast s n i
  let step (s : State) : State := s.wr (Reg.astTblIdxIndex.elem n) ((i + 1) % 128)
  match write with
  | none => .next ((step s).answer (old.toNat &&& 0x0FFF0FFF))
  | some w =>
    let w := w &&& 0x0FFF0FFF
    if expert s (Reg.astModeLevel.elem n) then
      let age := limitValue s 0x0204 (fieldOf w 0 12)
      let s := s.when (age != fieldOf w 0 12) corrected
      .next ((step (stageCeil s n i (setField w 0 12 age))).answer 0)
    else .next ((step (expertIgnored s (Reg.astModeExpertWrIgnored.elem n) (w != old))).answer 0)

/-- AST_SET_DATA_ACCESS (R209, R224): a word of the gain sets or open-loop records read or, at expert level, staged; WORD
steps. -/
def execAstSetDataAccess (n : Nat) (write : Option Word) (s : State) : Host.Outcome State Fault Refusal :=
  gatedAccess s (5 + n) <|
  let i := s.rd (Reg.astSetIdxWord.elem n)
  let a := s.ast.get n
  let old := (Store.read none a.tablePend i).getD (Store.read 0 a.table i)
  let step (s : State) : State := s.wr (Reg.astSetIdxWord.elem n) ((i + 1) % 4352)
  match write with
  | none => .next ((step s).answer old.toNat)
  | some w =>
    if expert s (Reg.astModeLevel.elem n) then .next ((step (stageTable s n i w)).answer 0)
    else .next ((step (expertIgnored s (Reg.astModeExpertWrIgnored.elem n) (w != old))).answer 0)

/-! ## Preamp (R220 to R225) -/

/-- The AST wired to a preamp group (R50). -/
def astOfPreamp (s : State) (pa : Nat) : Nat := s.sim.cfg.astOfPa.get pa

/-- Status fields of a preamp group. -/
def paFault (pa : Nat) : Fld := if pa = 0 then Reg.preStatusPa0Fault else Reg.preStatusPa1Fault
def paHead (pa : Nat) : Fld := if pa = 0 then Reg.preStatusPa0Head else Reg.preStatusPa1Head
def paMode (pa : Nat) : Fld := if pa = 0 then Reg.preStatusPa0Mode else Reg.preStatusPa1Mode
def paLog (pa : Nat) : Fld := if pa = 0 then Reg.preFaultLogPa0 else Reg.preFaultLogPa1
def paIrq (pa : Nat) : Fld := if pa = 0 then Reg.preIrqStatusPa0Fault else Reg.preIrqStatusPa1Fault

/-- A transaction queued: those of sequencers and of the replay stand before the raw ones (R222). -/
def preQueue (s : State) (x : PreXfer) : State :=
  let q := s.pre.queue
  let q := if x.raw then q ++ [x] else (q.filter fun y => !y.raw) ++ [x] ++ (q.filter fun y => y.raw)
  s.setPre { s.pre with queue := q }

/-- Strobes 9.0, 9.1 and 9.2 (R221): head select, write-mode code, read-mode code. -/
def preStrobe (s : State) (pa head : Nat) (which : Nat) : State :=
  if which = 0 then
    let s := s.wr (paHead pa) (paSelect s head)
    preQueue s ⟨pa, false, s.rd Reg.preHselHselAddr, paSelect s head, false⟩
  else
    let s := s.wr (paMode pa) (if which = 1 then 2 else 1)
    preQueue s ⟨pa, false, s.rd Reg.preHselModeAddr, if which = 1 then 2 else 1, false⟩

/-- The setup table of a preamp replayed (R221): every entry with VALID 1 is written, in order. -/
def preReplay (s : State) (pa : Nat) : State :=
  let s := s.each (List.range 64) fun s i =>
    let e := (Store.read 0 s.pre.setup (pa * 64 + i)).toNat
    if e.testBit 31 then preQueue s ⟨pa, false, bitsOf e 16 7, bitsOf e 0 16, false⟩ else s
  s.setPre { s.pre with replaying := maskSet s.pre.replaying pa }

/-- SETUP_REPLAY (R221). -/
def execSetupReplay (pa : Nat) (s : State) : Host.Outcome State Fault Refusal := .next (preReplay s pa)

/-- PREAMP_FAULT (R223): the fault registers; the wired ASTn goes to FAULT, a record is written and the count rises. -/
def execPreampFault (pa full : Nat) (s : State) : Host.Outcome State Fault Refusal :=
  let _ := full
  let n := astOfPreamp s pa
  let s := ((s.set (paFault pa)).set (paIrq pa)).bump (paLog pa)
  let s := s.set (Reg.astStatusPrefault.elem n)
  let s := record s srcPre 2 1 ([BitVec.ofNat 8 pa] ++ leBytes 2 (s.rd (paLog pa)))
  if astState s n = astFault then .next s
  else .next ((astEnter s n astFault).set (Reg.astIrqStatusPreampFault.elem n))

/-- PREAMP_FAULT_CLEAR (R203, R223): the line has been released for 10 µs and the replay is done; ASTn leaves FAULT. -/
def execPreampFaultClear (pa : Nat) (s : State) : Host.Outcome State Fault Refusal :=
  if !s.flag (paFault pa) then .next s else
  let n := astOfPreamp s pa
  let s := (s.clr (paFault pa)).clr (Reg.astStatusPrefault.elem n)
  .next (if astState s n = astFault then astEnter s n astIdle else s)

/-- PRE_XFER_GO (R222): at expert level a raw transaction joins the queue; at basic level the write is ignored and
counted. -/
def execPreXferGo (data : Word) (s : State) : Host.Outcome State Fault Refusal :=
  if !expert s Reg.preModeLevel then .next ((s.bump Reg.preModeExpertWrIgnored).answer 0) else
  let s := (s.clr Reg.preRdataValid).clr Reg.preRdataErr
  let s := ((s.wr Reg.preXferPa (fieldOf data 30 1)).wr Reg.preXferRd (fieldOf data 29 1))
  let s := (s.wr Reg.preXferAddr (fieldOf data 16 7)).wr Reg.preXferData (fieldOf data 0 16)
  .next ((preQueue s ⟨fieldOf data 30 1, fieldOf data 29 1 == 1, fieldOf data 16 7, fieldOf data 0 16, true⟩).answer 0)

/-- Whether a raw transaction must wait: its preamp's sequencer has a plank running (R222). -/
def preWaits (s : State) (x : PreXfer) : Bool :=
  x.raw && (s.bwk.get x.pa).run.begun

/-- PRE_TRANSACTION_DONE (R220, R221): the transaction at the front ends. A raw one sets VALID and XFER_DONE, with the data
a read drove. -/
def execPreTransactionDone (data : Nat) (s : State) : Host.Outcome State Fault Refusal :=
  match s.pre.queue with
  | [] => .next s
  | x :: rest =>
    if preWaits s x then .next s else
    let s := s.setPre { s.pre with
      queue := rest
      replaying := if (rest.filter fun y => !y.raw && y.pa == x.pa).isEmpty then maskClear s.pre.replaying x.pa
        else s.pre.replaying }
    if x.raw then
      let s := if x.read then s.wr Reg.preRdataData data else s
      .next ((s.set Reg.preRdataValid).set Reg.preIrqStatusXferDone)
    else .next s

/-- PRE_READ_TIMEOUT (R220): the read at the front gets no response and completes with ERR. -/
def execPreReadTimeout (s : State) : Host.Outcome State Fault Refusal :=
  match s.pre.queue with
  | [] => .next s
  | x :: rest =>
    if !x.read || preWaits s x then .next s else
    let s := s.setPre { s.pre with queue := rest }
    if x.raw then
      let s := ((s.set Reg.preRdataValid).set Reg.preRdataErr).set Reg.preIrqStatusXferDone
      .next (s.set Reg.preIrqStatusXferErr)
    else .next s

/-- PRE_SETUP_DATA_ACCESS (R225): a setup entry read or written; INDEX steps, wrapping at 128. -/
def execPreSetupDataAccess (write : Option Word) (s : State) : Host.Outcome State Fault Refusal :=
  let i := s.rd Reg.preSetupIdxIndex
  let old := Store.read 0 s.pre.setup i
  let step (s : State) : State := s.wr Reg.preSetupIdxIndex ((i + 1) % 128)
  match write with
  | none => .next ((step s).answer old.toNat)
  | some w =>
    let w := w &&& 0x807FFFFF
    .next ((step (s.setPre { s.pre with setup := Store.write 0 s.pre.setup i w })).answer 0)

/-! ## PREHEAT (R210) -/

/-- PLANK_PREHEAT (R210, R122): at its begin the assist ramps; the plank ends at its start angle plus the span, carries
the in-band flag as it stands, and its chain holds the assist. The end is part of the plank: `full` is the angle at which
the command comes, the begin when the plank has not begun, its end afterwards. -/
def execPlankPreheat (n full : Nat) (s : State) : Host.Outcome State Fault Refusal :=
  match runningPlank s n actPreheat with
  | some p =>
    let endAt := angleAdd s p.target (p.param % 2 ^ 16)
    if frameAngle s p.head full < endAt then .next s else
    let b := s.bwk.get n
    let s := s.setBwk n { b with run := { b.run with inbandEnd := s.flag (Reg.astStatusInband.elem n) } }
    .next (plankEnd s n stOk endAt)
  | none =>
    match bwkBegin s n actPreheat full with
    | .notYet s => .next s
    | .ended s => .next s
    | .begun s _ => .next (astRampStart (s.setBwk n { s.bwk.get n with preheated := true }) n)

end Sys2Proof.Machine
end

