-- ==== Sys2Proof/Machine/Codes.lean ====
section
/-!
DEFINITION. The codes of a sector as pure functions: the payload and its CRC (R104), the LDPC encoder (R234), the frame on
the medium (R102), the bit clock (R226), and the Reed–Solomon outer code (R244, R247).
-/

namespace Sys2Proof.Machine

/-! ## The payload (R104) -/

/-- Bytes zero-filled or cut to a length. -/
def padBytes (n : Nat) (bs : List Byte) : List Byte := (bs ++ List.replicate n 0).take n

/-- The CRC of R104 over the plaintext user bytes, the protection bytes and internal bytes 0x00 to 0x1B. -/
def payloadCrc (user pi internal : List Byte) : Nat := crc32c (user ++ pi ++ internal.take 0x1C)

/-- Internal bytes with a fresh CRC. -/
def withCrc (user pi internal : List Byte) : List Byte := internal.take 0x1C ++ leBytes 4 (payloadCrc user pi internal)

/-- The 4,136-byte information block: user bytes, protection bytes (zero with MEDIUM_PI 0), internal bytes (R234). -/
def infoBlock (stored pi internal : List Byte) : List Byte := padBytes 4096 stored ++ padBytes 8 pi ++ padBytes 32 internal

/-! ## LDPC (R234) -/

/-- Circulant rows of a code. -/
def ldpcRows (code : Nat) : Nat := 56 + 8 * code

/-- Codeword bits of a code at a MEDIUM_PI. -/
def ldpcBits (code pi : Nat) : Nat := 64 * (516 + (if pi = 8 then 1 else 0) + ldpcRows code)

/-- A 64-bit column of the block as a number whose bit `i` is column bit `i`: column bits come most significant bit of each
byte first. -/
def columnOf (bs : List Byte) : Nat :=
  (bs.flatMap fun b => bitsMsb 8 b.toNat).reverse.foldl (fun n b => 2 * n + bit b) 0

/-- A circulant with shift `a` applied to a column: bit `i` of the result is bit `(i + a) mod 64` of the column. -/
def circulant (a v : Nat) : Nat := v / 2 ^ (a % 64) + v % 2 ^ (a % 64) * 2 ^ (64 - a % 64)

/-- The syndrome contributions of information column `j`, added into the rows. -/
def ldpcColumn (m j v : Nat) (rows : List Nat) : List Nat :=
  (List.range 4).foldl (fun r k =>
    let i := (j + k * (m / 4)) % m
    setNth r i (nth 0 r i ^^^ circulant (j * (2 * k + 1) + 7 * k) v)) rows

/-- The information columns of a block. -/
def infoColumns (block : List Byte) : List Nat := (List.range 517).map fun j => columnOf ((block.drop (8 * j)).take 8)

/-- The information syndrome of every row. -/
def ldpcSyndrome (m : Nat) (cols : List Nat) : List Nat :=
  (cols.zipIdx).foldl (fun r c => ldpcColumn m c.2 c.1 r) (List.replicate m 0)

/-- Parity columns: p₀ = s₀, pᵢ = sᵢ + pᵢ₋₁. -/
def ldpcParity (prev : Nat) : List Nat → List Nat
  | [] => []
  | v :: rest => (v ^^^ prev) :: ldpcParity (v ^^^ prev) rest

/-- The bits of a column, bit 0 first. -/
def columnBits (v : Nat) : List Bool := (List.range 64).map fun i => v.testBit i

/-- The codeword of a block in transmission order. -/
def ldpcEncode (code pi : Nat) (block : List Byte) : List Bool :=
  let cols := infoColumns block
  let sent := if pi = 8 then cols else cols.take 512 ++ cols.drop 513
  (sent ++ ldpcParity 0 (ldpcSyndrome (ldpcRows code) cols)).flatMap columnBits

/-! ## The frame (R102) -/

/-- The preamble and postamble pattern 1, 1, 0, 0. -/
def preambleOf (n : Nat) : List Bool := (List.range n).map fun i => decide (i % 4 < 2)

/-- The fill between header and mark B: 1, 0, starting with 1. -/
def fillOf (n : Nat) : List Bool := (List.range n).map fun i => i % 2 == 0

/-- The sector on the medium (R102), with `body` in the codeword field. -/
def sectorFrame (c : Structure) (surface slot track : Nat) (body : List Bool) : List Bool :=
  preambleOf (preambleBits c surface track) ++ bitsMsb 24 c.syncA ++ bitsMsb 32 (frameHeader slot track)
  ++ fillOf (c.aToB - 32) ++ bitsMsb 16 c.syncB ++ body ++ preambleOf c.postamble

/-- One step of the PRBS-15 generator, x¹⁵ + x¹⁴ + 1. -/
def prbsNext (r : Nat) : Nat := r * 2 % 2 ^ 15 + bit (r.testBit 14 != r.testBit 13)

/-- The PRBS-15 sequence from a register value on. -/
def prbsBits (r : Nat) : Nat → List Bool
  | 0 => []
  | n + 1 => (prbsNext r).testBit 0 :: prbsBits (prbsNext r) n

/-- The pattern of a PROBE sector that is not DATA (R215): a 2T and an 8T tone, PRBS-15 and no transitions. -/
def probePattern (pattern n : Nat) : List Bool :=
  if pattern = 1 then (List.range n).map fun i => decide (i % 4 < 2)
  else if pattern = 2 then (List.range n).map fun i => decide (i % 16 < 8)
  else if pattern = 3 then prbsBits (2 ^ 15 - 1) n
  else List.replicate n false

/-! ## The bit clock (R226) -/

/-- Length of a sector on the medium in a region. -/
def sectorBits (c : Structure) (preamble : Nat) : Nat :=
  preamble + 24 + c.aToB + 16 + ldpcBits c.ldpcCode c.mediumPi + c.postamble

/-- BPT64 of a region; 0 for an absent region. -/
def bpt64 (c : Structure) (surface region : Nat) : Nat :=
  match c.regions.find? fun r => r.surface == surface && r.region == region with
  | none => 0
  | some r =>
    let l := if r.sectors = 0 then 0 else c.w * 928 / r.sectors
    if l = 0 then 0 else (64 * (sectorBits c r.preamble + 48) + l - 1) / l

/-! ## The outer code (R244) -/

/-- One doubling in GF(2¹⁶) with x¹⁶ + x¹² + x³ + x + 1. -/
def gfDouble (a : Nat) : Nat := if a.testBit 15 then (2 * a % 2 ^ 16) ^^^ 0x100B else 2 * a

/-- Product in GF(2¹⁶), over the bits of `b` from bit `i` up. -/
def gfMulFrom (b : Nat) : Nat → Nat → Nat → Nat
  | 0, _, _ => 0
  | fuel + 1, a, i => (if b.testBit i then a else 0) ^^^ gfMulFrom b fuel (gfDouble a) (i + 1)

/-- Product in GF(2¹⁶). -/
def gfMul (a b : Nat) : Nat := gfMulFrom b 16 a 0

/-- Power in GF(2¹⁶). -/
def gfPow (a : Nat) : Nat → Nat
  | 0 => 1
  | n + 1 => gfMul a (gfPow a n)

/-- α to the power `n`: α is the class of x. -/
def gfAlpha : Nat → Nat
  | 0 => 1
  | n + 1 => gfDouble (gfAlpha n)

/-- Inverse in GF(2¹⁶): the product of the squares a², a⁴, …, a^(2¹⁵). -/
def gfInv (a : Nat) : Nat :=
  ((List.range 15).foldl (fun (x : Nat × Nat) _ => let q := gfMul x.1 x.1; (q, gfMul x.2 q)) (a, 1)).2

/-- Symbols of a sector's stored user bytes: byte 2t + 256 × byte 2t + 1. -/
def symbolsOf : List Byte → List Nat
  | a :: b :: rest => (a.toNat + 256 * b.toNat) :: symbolsOf rest
  | _ => []

/-- Bytes of a list of symbols. -/
def symbolBytes (l : List Nat) : List Byte := l.flatMap fun v => leBytes 2 v

/-- The value of a codeword at `x`, its symbols from the highest power down. -/
def gfEval (x : Nat) (l : List Nat) : Nat := l.foldl (fun v c => gfMul v x ^^^ c) 0

/-- The coefficients, lowest power first, of the product of (x − r) over a list of roots. -/
def gfPoly : List Nat → List Nat
  | [] => [1]
  | r :: rest =>
    let p := gfPoly rest
    ((0 :: p).zip (p.map (gfMul r) ++ [0])).map fun e => e.1 ^^^ e.2

/-- The symbols at the erased places of one column that make all the first syndromes zero: for erasure j with locator xⱼ, the
sum of the syndromes under the coefficients of ∏ (x − xₗ) over the other erasures, over that product at xⱼ. -/
def gfErasures (locs syn : List Nat) : List Nat :=
  locs.map fun x =>
    let others := locs.filter fun y => y != x
    let p := gfPoly others
    let num := (p.zip syn).foldl (fun v e => v ^^^ gfMul e.1 e.2) 0
    let den := others.foldl (fun v y => gfMul v (x ^^^ y)) 1
    gfMul num (gfInv den)

/-- One column of an outer codeword of `len` symbols, highest power first, with its erased places (as indices) solved from
the syndromes at α⁰ to α^(P−1): the completed column, and whether every syndrome of it is zero. -/
def gfSolve (p : Nat) (col erased : List Nat) : List Nat × Bool :=
  let len := col.length
  let known := (col.zipIdx).map fun e => if erased.contains e.2 then 0 else e.1
  let syn := (List.range p).map fun i => gfEval (gfAlpha i) known
  let locs := erased.map fun e => gfAlpha (len - 1 - e)
  let vals := gfErasures locs syn
  let full := (erased.zip vals).foldl (fun c e => setNth c e.1 e.2) known
  (full, (List.range p).all fun i => gfEval (gfAlpha i) full == 0)

/-- The columns of a list of sectors: column t holds symbol t of every sector. -/
def symbolColumns (sectors : List (List Byte)) : List (List Nat) :=
  let syms := sectors.map symbolsOf
  (List.range 2048).map fun t => syms.map fun l => nth 0 l t

/-- The completed sectors of a group: every erased place solved, and whether every column's syndromes are zero (R247). -/
def groupSolve (p : Nat) (sectors : List (List Byte)) (erased : List Nat) : List (List Byte) × Bool :=
  let cols := (symbolColumns sectors).map fun c => gfSolve p c erased
  ((List.range sectors.length).map fun k => symbolBytes (cols.map fun c => nth 0 c.1 k), cols.all fun c => c.2)

/-- Parity sectors of a group of `g` data positions and `p` parities, the positions not held being zero (R112, R244). -/
def groupParity (g p : Nat) (data : List (List Byte)) : List (List Byte) :=
  let zero := List.replicate 4096 (0 : Byte)
  let sectors := (data ++ List.replicate g zero).take g ++ List.replicate p zero
  ((groupSolve p sectors ((List.range p).map fun j => g + j)).1).drop g

end Sys2Proof.Machine
end

