-- ==== Sys2Proof/Machine/ChannelOps.lean ====
section
/-!
DEFINITION. Shared operations of the data path: the key slots (R334), what a sector stores (R104, R105, R128), the jobs of
LDP and OCE (R241 to R248), and the end of every job at power loss and on entry into SAFE or RECOVERY (R251).
-/

namespace Sys2Proof.Machine

/-! ## Key slots (R334) -/

/-- The key of a slot; an empty slot has no bytes. -/
def cryKey (s : State) (slot : Nat) : List Byte := Store.read [] s.cry.keys slot

/-- Data units counted: UNITS, and the slot's own count (R336). -/
def cryCount (s : State) (slot n : Nat) : State :=
  (s.addWrap Reg.cryCounts0Units n).setCry
    { s.cry with uses := Store.write 0 s.cry.uses slot (satAdd 24 (Store.read 0 s.cry.uses slot) n) }

/-- User bytes encrypted with a key slot, 0xFF leaving them in clear (R104, R105). What an empty slot does to a sector is not
stated: the function of the empty key is open (notes/assumptions/3.md). -/
def sectorEncrypt (s : State) (slot tweak : Nat) (bs : List Byte) : List Byte :=
  if slot = 0xFF then bs else padBytes 4096 (Config.xtsEncrypt (cryKey s slot) tweak bs)

/-- User bytes decrypted with a key slot. -/
def sectorDecrypt (s : State) (slot tweak : Nat) (bs : List Byte) : List Byte :=
  if slot = 0xFF then bs else padBytes 4096 (Config.xtsDecrypt (cryKey s slot) tweak bs)

/-- A sector counted by CRY where it is encrypted. -/
def sectorCount (s : State) (slot : Nat) : State := if slot = 0xFF then s else cryCount s slot 1

/-! ## Memory whose content is undefined -/

/-- `n` bytes of undefined content from `a` on: free values (R128, R251). -/
def scribble (s : State) (a n : Nat) : State :=
  let (v, s) := s.takeFree
  s.store a (leBytes n v)

/-! ## Sector fields (R104, R124, R126) -/

/-- Fields of 32 internal bytes. -/
def lbaTag (internal : List Byte) : Nat := leValue (internal.take 5)
def internalNs (internal : List Byte) : Nat := (nth 0 internal 5).toNat
def internalKind (internal : List Byte) : Nat := (nth 0 internal 6).toNat
def internalKey (internal : List Byte) : Nat := (nth 0 internal 7).toNat
def internalCrc (internal : List Byte) : Nat := leValue ((internal.drop 0x1C).take 4)

/-- User-byte address and metadata address of a one-sector BUFDESC (R124). -/
def bufData (d : Nat) : Nat := d % 2 ^ 24 * 4096
def bufMeta (d : Nat) : Nat := d / 2 ^ 24 % 2 ^ 30 * 64

/-- A one-sector BUFDESC lies in SRAM or fitted DRAM, its reserved bits zero. -/
def bufOk (s : State) (d : Nat) : Bool :=
  d / 2 ^ 54 == 0 && inBuffer s (bufData d) 4096 && inBuffer s (bufMeta d) 64

/-- An OUTCOME written at a metadata entry. -/
def outcomeAt (s : State) (m sstat events iter detail : Nat) : State :=
  s.store (m + 0x28)
    ([BitVec.ofNat 8 sstat, BitVec.ofNat 8 events, BitVec.ofNat 8 (min iter 255), 0] ++ leBytes 4 detail)

/-- What a decoded block is (R128, R236): decrypted, checked against its CRC, and where asked against a tag. Result: the
SSTAT and the plaintext user bytes. -/
def blockCheck (s : State) (block : List Byte) (check : Bool) (lba ns : Nat) : Nat × List Byte :=
  let b := padBytes 4136 block
  let internal := b.drop 4104
  let pi := if s.sim.cfg.mediumPi = 8 then (b.drop 4096).take 8 else []
  let user := sectorDecrypt s (internalKey internal) (lbaTag internal) (b.take 4096)
  let st :=
    if payloadCrc user pi internal ≠ internalCrc internal then ssCrcFail
    else if check && !(lbaTag internal == lba && internalNs internal == ns) then ssTagFail
    else ssGood
  (st, user)

/-- A decoded sector stored at its user bytes `a` and metadata entry `m` (R126 to R128): INTERNAL and the protection bytes as
read; the user bytes of a sector that is not GOOD are undefined. -/
def sectorStore (s : State) (a m sstat : Nat) (user block : List Byte) : State :=
  let b := padBytes 4136 block
  let s := if sstat = ssGood then s.store a user else scribble s a 4096
  let s := s.store m (b.drop 4104)
  if s.sim.cfg.mediumPi = 8 then s.store (m + 0x20) ((b.drop 4096).take 8) else s

/-! ## Jobs of LDP and OCE (R241 to R248) -/

/-- The oldest entry in progress of engine `n`. -/
def ringFront (s : State) (n : Nat) : Option RingEntry := (s.ring n).inProg.head?

/-- A field of an entry. -/
def RingEntry.at (e : RingEntry) (i n : Nat) : Nat := leValue ((e.bytes.drop i).take n)

/-- A deep result (R243): it is written, DEEP_BUSY falls, JOB_DONE rises, and OK or FAIL is counted. -/
def deepResult (s : State) (e : RingEntry) (status sstat used iter unsat : Nat) : State :=
  let s := ringAnswer s 2 ([BitVec.ofNat 8 status, BitVec.ofNat 8 sstat, BitVec.ofNat 8 used, 0] ++ leBytes 2 (min iter 65535)
    ++ leBytes 2 (min unsat 65535) ++ leBytes 2 (e.at 6 2) ++ List.replicate 6 0) true
  let s := ((s.setLdp { s.ldp with deep := none }).clr Reg.ldpStatusDeepBusy).set Reg.ldpIrqStatusJobDone
  let s := s.when (status == 0) fun s => s.bump Reg.ldpCounts1DeepOk
  s.when (status == 1) fun s => (s.bump Reg.ldpCounts1DeepFail).set Reg.ldpIrqStatusDeepFail

/-- An OCE result (R248). -/
def oceResult (s : State) (e : RingEntry) (status outs : Nat) : State :=
  let s := ringAnswer s 3 ([BitVec.ofNat 8 status, BitVec.ofNat 8 outs] ++ leBytes 2 (e.at 6 2) ++ List.replicate 12 0) true
  let s := ((s.setOce { s.oce with job := none }).clr Reg.oceStatusBusy).set Reg.oceIrqStatusJobDone
  let s := s.when (status != 0) fun s => s.set Reg.oceIrqStatusJobFail
  s.when (status == 0 && e.at 0 1 == 2) fun s => s.bump Reg.oceCountsRebuilds

/-- The address of list entry `k` of an OCE job, and its fields (R246). -/
def oceEntry (e : RingEntry) (k : Nat) : Nat := e.at 8 8 % 2 ^ 36 + 16 * k
def oceBuf (s : State) (e : RingEntry) (k : Nat) : Nat := s.loadNat (oceEntry e k) 8
def oceRole (s : State) (e : RingEntry) (k : Nat) : Nat := s.loadNat (oceEntry e k + 8) 1
def oceForm (s : State) (e : RingEntry) (k : Nat) : Nat := s.loadNat (oceEntry e k + 9) 1

/-- The positions of an OCE job with a role. -/
def oceWith (s : State) (e : RingEntry) (role : Nat) : List Nat :=
  (List.range (e.at 2 1 + e.at 3 1)).filter fun k => oceRole s e k == role

/-- A CRY result (R335): the entry ends; a status other than OK fails the rest of its chain. -/
def cryResult (s : State) (e : RingEntry) (status done : Nat) : State :=
  let ends := entryLast 5 e || (!entryFirst 5 e && !s.cry.chain)
  let s := ringAnswer s 5 ([BitVec.ofNat 8 status, 0] ++ leBytes 2 (e.at 4 2) ++ leBytes 4 (done % 2 ^ 32)
    ++ List.replicate 8 0) ends
  let s := s.when (status != 0) fun s => s.set Reg.cryIrqStatusErr
  let s := s.when (status == 2) fun s => s.bump Reg.cryCounts1Poison
  let s := s.when (status == 3) fun s => (s.bump Reg.cryCounts1KeyEmpty).set Reg.cryIrqStatusKeyEmpty
  let s := s.setCry { s.cry with
    job := none
    hash := if ends || status != 0 then [] else s.cry.hash
    chain := !ends
    hashing := s.cry.hashing && !ends
    failed := !ends && (s.cry.failed || status != 0) }
  s.wr Reg.cryStatusBusy (bit !(s.ring 5).inProg.isEmpty)

/-- Every job in progress ends with ABORTED, the outputs of one that has begun undefined: power loss, entry into SAFE or
RECOVERY (R251, R335). -/
def jobsAbort (s : State) : State :=
  let s := s.each (s.ring 2).inProg fun s e =>
    let s := if s.ldp.deep.isSome then scribble (scribble s (bufData (e.at 8 8)) 4096) (bufMeta (e.at 8 8)) 64 else s
    deepResult s e 5 0 0 0 0
  let s := s.each (s.ring 3).inProg fun s e =>
    let s := if s.oce.job.isSome then
        s.each (oceWith s e 2) fun s k => scribble (scribble s (bufData (oceBuf s e k)) 4096) (bufMeta (oceBuf s e k)) 64
      else s
    oceResult s e 5 0
  s.each (s.ring 5).inProg fun s e => cryResult s e 5 0

end Sys2Proof.Machine
end

