-- ==== Sys2Proof/Machine/HostOps.lean ====
section
/-!
DEFINITION. Shared operations of the host interface (spec/10_host_interface.md, R284 to R319): queues and completions,
intent records, the overlap order, namespaces and zones, the staging of write data, and what other units cause in HST.
-/

namespace Sys2Proof.Machine

/-! ## Status fields (R294, R298, R301, R303, R307, R310, R311): SCT × 256 + SC, DNR as bit 14 -/

def stSuccess : Nat := 0x000
def stInvalidOpcode : Nat := 0x001
def stInvalidField : Nat := 0x002
def stDataTransfer : Nat := 0x004
def stInternalDnr : Nat := 0x4006
def stAbortRequested : Nat := 0x007
def stSqDeleted : Nat := 0x008
def stInvalidNamespace : Nat := 0x00B
def stSanitizeBusy : Nat := 0x01D
def stLbaRange : Nat := 0x080
def stNsNotReady : Nat := 0x4082
def stFormatBusy : Nat := 0x084
def stAbortLimit : Nat := 0x103
def stZoneBoundary : Nat := 0x1B8
def stZoneFull : Nat := 0x1B9
def stZoneReadOnly : Nat := 0x1BA
def stZoneOffline : Nat := 0x1BB
def stZoneInvalidWrite : Nat := 0x1BC
def stTooManyActive : Nat := 0x1BD
def stTooManyOpen : Nat := 0x1BE
def stZoneTransition : Nat := 0x1BF
def stHostWriteFault : Nat := 0x280
def stUnrecovered : Nat := 0x281
def stGuard : Nat := 0x282
def stAppTag : Nat := 0x283
def stRefTag : Nat := 0x284

/-! ## Controllers and queues (R287, R290, R308) -/

/-- The controller of a function, if it is enabled. -/
def ctrlOf (s : State) (fn : Nat) : Option Ctrl := s.hst.ctrls.find? fun c => c.fn == fn

/-- A controller replaced. -/
def setCtrl (s : State) (c : Ctrl) : State :=
  s.setHst { s.hst with ctrls := s.hst.ctrls.map fun x => if x.fn = c.fn then c else x }

/-- The port of a device function index, and whether the function is a PF (R287). -/
def portOf (fn : Nat) : Nat := fn / 128
def isPf (fn : Nat) : Bool := fn == 0 || fn == 128

/-- Whether a port's link is up. -/
def portUp (s : State) (p : Nat) : Bool := if p = 0 then s.flag Reg.hstStatusP0Up else s.flag Reg.hstStatusP1Up

/-- A submission queue and a completion queue by function and ID. -/
def sqFind (s : State) (fn qid : Nat) : Option SubQ := s.hst.sqs.find? fun q => q.fn == fn && q.qid == qid
def cqFind (s : State) (fn qid : Nat) : Option CompQ := s.hst.cqs.find? fun q => q.fn == fn && q.qid == qid

/-- A queue's shadow replaced. -/
def sqPut (s : State) (q : SubQ) : State :=
  s.setHst { s.hst with sqs := s.hst.sqs.map fun x => if x.fn = q.fn ∧ x.qid = q.qid then q else x }
def cqPut (s : State) (q : CompQ) : State :=
  s.setHst { s.hst with cqs := s.hst.cqs.map fun x => if x.fn = q.fn ∧ x.qid = q.qid then q else x }

/-- A completion queue is full (R309). -/
def CompQ.full (q : CompQ) : Bool := (q.tail + 1) % q.size == q.head

/-- HST_PEND and HST_PEND_CQS. -/
def pendShow (s : State) : State :=
  let s := s.wr Reg.hstPendEntries (s.hst.cqs.foldl (fun n q => n + q.pend.length) 0)
  s.wr Reg.hstPendCqsCqs (s.hst.cqs.filter fun q => !q.pend.isEmpty).length

/-- The 16 bytes of a completion entry (R293, R308): SQHD is the submission queue's head. -/
def cqeBytes (s : State) (e : Cqe) (phase : Bool) : List Byte :=
  let sqhd := match sqFind s e.fn e.sqid with | some q => q.head | none => 0
  leBytes 4 e.dw0 ++ leBytes 4 e.dw1 ++ leBytes 2 sqhd ++ leBytes 2 e.sqid ++ leBytes 2 e.cid
  ++ leBytes 2 (e.status * 2 + bit phase)

/-- Interrupt coalescing of a vector (R295, R308): entries to wait for, 0's based, and none where it is off. The admin queue
is not coalesced. -/
def coalesceThreshold (s : State) (q : CompQ) : Nat :=
  match ctrlOf s q.fn with
  | none => 0
  | some c =>
    let f := Store.read 0 c.features 0x08
    if q.qid = 0 ∨ f / 256 % 256 = 0 ∨ (Store.read 0 c.features (0x09 + 256 * q.vector)).testBit 16 then 0 else f % 256

/-- A completion entry written to its slot and its vector signalled under the coalescing rules (R308 step 3). -/
def cqWrite (s : State) (q : CompQ) (e : Cqe) : State :=
  let bytes := cqeBytes s e q.phase
  let next := (q.tail + 1) % q.size
  let wait := q.agg + 1 ≤ coalesceThreshold s q
  let q := { q with tail := next, phase := if next = 0 then !q.phase else q.phase, agg := if wait then q.agg + 1 else 0 }
  let s := cqPut s q
  let s := s.setHst { s.hst with
    sent := bytes
    signalled := if q.ien && !decide wait then some (q.fn, q.vector) else s.hst.signalled }
  pmuEvent s 0 2 none none 1

/-! ## Intent records (R274, R275) -/

/-- The address of a tag's record. -/
def intentAt (tag : Nat) : Nat := 0x10400000 + 64 * tag

/-- The record of a command with a STATE. -/
def intentBytes (s : State) (c : HostCmd) (state : Nat) : List Byte :=
  let at_ (i n : Nat) : List Byte := padBytes n ((c.sqe.drop i).take n)
  let b := [BitVec.ofNat 8 state, BitVec.ofNat 8 c.opc, BitVec.ofNat 8 c.fn, BitVec.ofNat 8 c.ns]
    ++ leBytes 2 c.sqid ++ leBytes 2 c.cid ++ at_ 40 8 ++ at_ 48 4 ++ at_ 52 4 ++ at_ 24 16 ++ leBytes 8 c.seq
    ++ leBytes 5 c.alba ++ leBytes 3 (s.rd Reg.rstPcycleCount) ++ leBytes 4 c.laid.length
  b ++ leBytes 4 (crc32c b)

/-- The record written: one MRAM line, whole. -/
def intentWrite (s : State) (c : HostCmd) (state : Nat) : State := s.store (intentAt c.tag) (intentBytes s c state)

/-- IN_USE and its high-water mark. -/
def tagsShow (s : State) : State :=
  let n := s.hst.cmds.length
  let s := s.wr Reg.hstTagsInUse n
  if s.rd Reg.hstTagHwmHwm < n then s.wr Reg.hstTagHwmHwm n else s

/-! ## The overlap order (R304 to R306) -/

/-- The command that holds a tag, and its replacement. -/
def cmdOf (s : State) (tag : Nat) : Option HostCmd := s.hst.cmds.find? fun c => c.tag == tag
def setCmd (s : State) (c : HostCmd) : State :=
  s.setHst { s.hst with cmds := s.hst.cmds.map fun x => if x.tag = c.tag then c else x }

/-- The command leaves the overlap order: its record becomes FREE and its tag with it. -/
def cmdFree (s : State) (c : HostCmd) : State :=
  let s := intentWrite s c 0
  tagsShow (s.setHst { s.hst with cmds := s.hst.cmds.filter fun x => x.tag != c.tag })

/-- Command dwords of a submission entry. -/
def HostCmd.cdw (c : HostCmd) (i : Nat) : Nat := leValue ((c.sqe.drop (4 * i)).take 4)

/-- Write, Write Zeroes and Zone Append: the commands that have a WRITE_SEQ (R258). -/
def HostCmd.isWrite (c : HostCmd) : Bool := c.opc == 0x01 || c.opc == 0x08 || c.opc == 0x7D

/-- The zone action of a Zone Management Send, and Select All. -/
def HostCmd.zoneAction (c : HostCmd) : Nat := c.cdw 13 % 256
def HostCmd.selectAll (c : HostCmd) : Bool := (c.cdw 13).testBit 8

/-- Whether a command modifies (R304). -/
def HostCmd.modifies (c : HostCmd) : Bool :=
  c.isWrite || (c.opc == 0x79 && (c.zoneAction == 2 || c.zoneAction == 4 || c.zoneAction == 5))

/-- The LBAs a command covers, as (first, count): a zone action covers its whole zone, or with Select All every zone. -/
def cmdRange (s : State) (c : HostCmd) : Nat × Nat :=
  let z := max s.sim.cfg.zoneSectors 1
  if c.opc = 0x79 then (if c.selectAll then (0, 2 ^ 40) else (c.slba / z * z, z)) else (c.slba, c.nlb)

/-- A later command conflicts with an earlier one (R304). -/
def conflicts (s : State) (early late : HostCmd) : Bool :=
  early.ns == late.ns && (early.modifies || late.modifies)
  && (if late.opc = 0 then early.modifies else if early.opc = 0 then false
      else let a := cmdRange s early; let b := cmdRange s late
           overlaps a.1 a.2 b.1 b.2)

/-- The commands placed before a tag. -/
def earlier : List HostCmd → Nat → List HostCmd
  | [], _ => []
  | c :: rest, tag => if c.tag = tag then [] else c :: earlier rest tag

/-- Whether every earlier conflicting command is DONE (R305). -/
def mayBegin (s : State) (c : HostCmd) : Bool :=
  !((earlier s.hst.cmds c.tag).any fun e => !e.done && conflicts s e c)

/-- An Error Information entry (R311): newest first, 64 kept. -/
def errorAdd (s : State) (c : HostCmd) (lba : Nat) : State :=
  s.setHst { s.hst with
    errors := ({ sqid := c.sqid, cid := c.cid, status := c.status.getD 0, lba, ns := c.ns } :: s.hst.errors).take 64
    errCount := s.hst.errCount + 1 }

/-- A command is DONE with a status: its record is written (R266, R306). One whose completion is not owed goes FREE (R454). -/
def cmdDone (s : State) (c : HostCmd) (status : Nat) : State :=
  let c := { c with status := some status, done := true }
  let s := setCmd s c
  if c.ended then cmdFree s c else intentWrite s c 2

/-- A command fails with a media or transfer status, the first failing LBA noted (R311). Its staged frames return. -/
def cmdFail (s : State) (c : HostCmd) (status lba : Nat) : State :=
  let s := errorAdd s { c with status := some status } lba
  let s := s.setBcm { s.bcm with staged := s.bcm.staged.filter fun t => t.tag != c.tag }
  cmdDone s c status

/-! ## Namespaces, zones and capacities (R297 to R301) -/

/-- A namespace of the layout. -/
def nsOf (s : State) (ns : Nat) : Option NsEntry := if ns = 0 then none else s.sim.cfg.ns[ns - 1]?

/-- Whether a namespace is zoned. -/
def nsZoned (s : State) (ns : Nat) : Bool := match nsOf s ns with | some e => e.csi == 2 | none => false

/-- The surfaces of a namespace, region by region, as (region, surface) in zone order (R299). -/
def zoneGroups (s : State) (e : NsEntry) : List (Nat × Nat) :=
  (List.range 32).flatMap fun r => (nsSurfaces s.sim.cfg e).map fun su => (r, su)

/-- The band runs of a surface in a region, and the bands below them. -/
def regionRuns (c : Structure) (su r : Nat) : List BandRun := (bandRuns c su).filter fun b => b.region.region == r
def runBands (l : List BandRun) : Nat := l.foldl (fun n r => n + r.count) 0
def bandsBelow (c : Structure) (su r : Nat) : Nat := runBands ((bandRuns c su).takeWhile fun b => b.region.region != r)

/-- Zones of a namespace. -/
def zoneCount (s : State) (e : NsEntry) : Nat :=
  (zoneGroups s e).foldl (fun n g => n + runBands (regionRuns s.sim.cfg g.2 g.1)) 0

/-- Where zone `z` lies: surface, band number on the surface, region and first position. -/
def zonePlaceIn (c : Structure) : List (Nat × Nat) → Nat → Option (Nat × Nat × RegionEntry × Nat)
  | [], _ => none
  | (r, su) :: rest, z =>
    let runs := regionRuns c su r
    if z < runBands runs then
      (bandAt runs z).map fun p => (su, bandsBelow c su r + z, p.1, p.2)
    else zonePlaceIn c rest (z - runBands runs)

/-- The place of a zone of a namespace (R299). -/
def zonePlace (s : State) (ns z : Nat) : Option (Nat × Nat × RegionEntry × Nat) :=
  match nsOf s ns with | some e => zonePlaceIn s.sim.cfg (zoneGroups s e) z | none => none

/-- The byte of a band in the plan table of the ledger (R398). -/
def bandPlanAt (s : State) (su band : Nat) : Nat :=
  0x10B80000 + ((s.sim.cfg.heads.filter fun h => decide (h.surface < su)).foldl
    (fun n h => n + bandCount s.sim.cfg h.surface) 0) + band

/-- The plan in force of a band (R111, R399). -/
def bandPlan (s : State) (su band : Nat) : Nat := (s.byte (bandPlanAt s su band)).toNat % 16

/-- ZCAP of a zone under its band's plan (R110, R300). -/
def zoneCap (s : State) (ns z : Nat) : Nat :=
  match zonePlace s ns z with
  | some (su, b, r, _) => zoneCapacity s.sim.cfg r (bandPlan s su b) (Config.bandDefects su b)
  | none => 0

/-- NSZE in sectors (R297, R299). -/
def nsze (s : State) (ns : Nat) : Nat :=
  match nsOf s ns with
  | some e => (if e.csi = 2 then zoneCount s e else e.convZones) * s.sim.cfg.zoneSectors
  | none => 0

/-- The stored zone record. -/
def zoneKey (ns z : Nat) : Nat := ns * 2 ^ 24 + z
def zoneRec (s : State) (ns z : Nat) : Zone := Store.read {} s.hst.zones (zoneKey ns z)
def setZone (s : State) (ns z : Nat) (v : Zone) : State :=
  s.setHst { s.hst with zones := Store.write {} s.hst.zones (zoneKey ns z) v }

/-- Whether a surface's head is in service. -/
def surfaceServing (s : State) (su : Nat) : Bool :=
  match s.sim.cfg.heads.findIdx? fun h => h.surface == su with
  | some h => s.serving (bitHead h)
  | none => false

/-- A zone's state: Offline where its head or its actuator is lost (R299, R301). -/
def zoneState (s : State) (ns z : Nat) : Nat :=
  match zonePlace s ns z with
  | some (su, _, _, _) => if surfaceServing s su then (zoneRec s ns z).state else 15
  | none => 15

/-- An active zone: open or closed. An open one. -/
def zoneActive (st : Nat) : Bool := st == 2 || st == 3 || st == 4
def zoneOpen (st : Nat) : Bool := st == 2 || st == 3

/-- The active-zone and open-zone limit of a namespace (R300). -/
def zoneLimit (s : State) : Nat := 1024 / max 1 (s.sim.cfg.ns.filter fun e => e.csi == 2).length

/-- Zones of a namespace whose stored state meets `p`. -/
def zonesWith (s : State) (ns : Nat) (p : Nat → Bool) : Nat :=
  (s.hst.zones.filter fun e => e.1 / 2 ^ 24 == ns && p e.2.state).length

/-- Why a zone may not be opened from its state: the active limit, then the open limit (R301). -/
def openRefusal (s : State) (ns st : Nat) : Option Nat :=
  if zoneOpen st then none
  else if !zoneActive st && decide (zoneLimit s ≤ zonesWith s ns zoneActive) then some stTooManyActive
  else if zoneLimit s ≤ zonesWith s ns zoneOpen then some stTooManyOpen
  else none

/-- Why a write of `n` sectors at `slba` (an append where `append`) may not be placed (R301). The checks follow the order of
the rule after the zone's state. -/
def zoneWriteRefusal (s : State) (ns slba n : Nat) (append : Bool) : Option Nat :=
  let zs := max s.sim.cfg.zoneSectors 1
  let z := slba / zs
  let off := slba % zs
  let st := zoneState s ns z
  let wp := (zoneRec s ns z).wp
  if st = 14 then some stZoneFull
  else if st = 13 then some stZoneReadOnly
  else if st = 15 then some stZoneOffline
  else if append && off != 0 then some stInvalidField
  else if !append && off != wp then some stZoneInvalidWrite
  else if zoneCap s ns z < wp + n then some stZoneBoundary
  else openRefusal s ns st

/-- The write pointer advances at placement: the zone opens implicitly, and is Full at its capacity (R301). -/
def zoneAdvance (s : State) (ns z n : Nat) : State :=
  let r := zoneRec s ns z
  let wp := r.wp + n
  setZone s ns z { r with wp, state := if wp = zoneCap s ns z then 14 else if r.state = 3 then 3 else 2 }

/-- A zone is reported changed (R302): the Changed Zone List and the Zone Descriptor Changed notice on each controller that
sees the namespace. -/
def zoneChanged (s : State) (ns z : Nat) : State :=
  let s := s.setHst { s.hst with changed := if s.hst.changed.contains (ns, z) then s.hst.changed else s.hst.changed ++ [(ns, z)] }
  s.setHst { s.hst with
    ctrls := s.hst.ctrls.map fun c =>
      if c.nsMask.testBit (ns - 1) then { c with events := c.events ++ [0xEF0002 + ns * 2 ^ 32] } else c }

/-- An asynchronous event on one controller: type, information and log page as dword 0. -/
def asyncEvent (s : State) (fn dw0 : Nat) : State :=
  match ctrlOf s fn with
  | some c => setCtrl s { c with events := c.events ++ [dw0] }
  | none => s

/-! ## Completions (R308, R309) -/

/-- A completion that is ready: written to its queue, or put at the end of the pending list of a full one. -/
def cqReady (s : State) (cq : Nat) (e : Cqe) : State :=
  match cqFind s e.fn cq with
  | none => s
  | some q =>
    if q.pend.isEmpty && !q.full then
      let s := cqWrite s q e
      match e.tag with
      | some t => match cmdOf s t with | some c => cmdFree s c | none => s
      | none => s
    else
      let s := if q.pend.isEmpty then (s.bump Reg.hstCounts1CqPauses).set Reg.hstIrqStatusCqFull else s
      pendShow (cqPut s { q with pend := q.pend ++ [e] })

/-- The completion queue of a submission queue. -/
def cqOfSq (s : State) (fn sqid : Nat) : Nat := match sqFind s fn sqid with | some q => q.cq | none => 0

/-- Pending completions written as slots are free, in ready order (R309). -/
def cqDrain (s : State) (fn cq : Nat) : Nat → State
  | 0 => s
  | fuel + 1 =>
    match cqFind s fn cq with
    | none => s
    | some q =>
      match q.pend with
      | [] => s
      | e :: rest =>
        if q.full then s else
        let s := cqWrite (cqPut s { q with pend := rest }) { q with pend := rest } e
        let s := match e.tag with
          | some t => match cmdOf s t with | some c => cmdFree s c | none => s
          | none => s.setHst { s.hst with admin := s.hst.admin.filter fun a => a != (e.fn, e.cid) }
        cqDrain s fn cq fuel

/-- Queued events answered by outstanding Asynchronous Event Requests. -/
def aerPump (s : State) (fn : Nat) : Nat → State
  | 0 => s
  | fuel + 1 =>
    match ctrlOf s fn with
    | none => s
    | some c =>
      match c.aers, c.events with
      | cid :: aers, ev :: events =>
        let s := setCtrl s { c with aers, events }
        let full := (cqFind s fn 0).any fun q => q.full || !q.pend.isEmpty
        let s := cqReady s 0 { fn, sqid := 0, cid, status := 0, dw0 := ev % 2 ^ 32, dw1 := ev / 2 ^ 32, tag := none }
        let s := if full then s else s.setHst { s.hst with admin := s.hst.admin.filter fun a => a != (fn, cid) }
        aerPump s fn fuel
      | _, _ => s

/-! ## Protection information (R298) -/

/-- A big-endian field of protection bytes. -/
def beValue (bs : List Byte) : Nat := bs.foldl (fun n b => n * 256 + b.toNat) 0
def beBytes (n v : Nat) : List Byte := (leBytes n v).reverse

/-- The 8 protection bytes of a sector: guard, application tag, reference tag. -/
def piBytes (user : List Byte) (app ref : Nat) : List Byte :=
  beBytes 2 (crc16 0x8BB7 0 user) ++ beBytes 2 app ++ beBytes 4 ref

/-- What a check of protection bytes finds, by PRCHK (bit 2 guard, bit 1 application tag, bit 0 reference tag). `kind` 0 is
no protection. A tag of all ones escapes the checks as the protection types define it. -/
def piCheck (kind prchk : Nat) (user pi : List Byte) (lbat lbatm ref : Nat) : Option Nat :=
  let app := beValue ((pi.drop 2).take 2)
  let rt := beValue ((pi.drop 4).take 4)
  if kind = 0 ∨ (app = 0xFFFF ∧ (kind = 1 ∨ rt = 0xFFFFFFFF)) then none
  else if prchk.testBit 2 && beValue (pi.take 2) != crc16 0x8BB7 0 user then some stGuard
  else if prchk.testBit 1 && (app &&& lbatm) != (lbat &&& lbatm) then some stAppTag
  else if prchk.testBit 0 && kind == 1 && rt != ref % 2 ^ 32 then some stRefTag
  else none

/-- The format of a namespace, whether a command checks or generates protection, and its fields. -/
def formatOf (s : State) (ns : Nat) : NsFormat := Store.read {} s.hst.formats ns
def HostCmd.pract (c : HostCmd) : Bool := (c.cdw 12).testBit 29
def HostCmd.prchk (c : HostCmd) : Nat := c.cdw 12 / 2 ^ 26 % 8
def HostCmd.refBase (c : HostCmd) : Nat := if c.opc = 0x7D then c.alba else c.cdw 14

/-! ## Sectors as the host sees them -/

/-- KEY_SLOT of a namespace (R336). -/
def nsKey (s : State) (ns : Nat) : Nat := bitsOf (s.rdWord (0x201F0020 + 4 * ((ns - 1) / 4))).toNat (8 * ((ns - 1) % 4)) 8

/-- The internal bytes of a data sector (R104). -/
def dataInternal (s : State) (ns lba kind seq : Nat) (user pi : List Byte) : List Byte :=
  withCrc user (if s.sim.cfg.mediumPi = 8 then pi else [])
    (leBytes 5 lba ++ [BitVec.ofNat 8 ns, BitVec.ofNat 8 kind, BitVec.ofNat 8 (nsKey s ns)] ++ leBytes 8 seq
      ++ List.replicate 12 0)

/-- One sector of a write staged in a frame: its user bytes and its metadata entry. -/
def stageSector (s : State) (frame : Nat) (c : HostCmd) (lba : Nat) (user pi : List Byte) : State :=
  let kind := if nsZoned s c.ns then 0 else 4
  let s := s.store (frameData frame (lba % 16)) (padBytes 4096 user)
  s.store (frameMeta s frame (lba % 16)) (dataInternal s c.ns lba kind c.seq (padBytes 4096 user) pi ++ padBytes 8 pi)

/-- The lines that a range of LBAs touches, each with the mask of its sectors. -/
def rangeLines (ns lba n : Nat) : List (Nat × Nat) :=
  if n = 0 then [] else
  (List.range ((lba + n - 1) / 16 - lba / 16 + 1)).map fun k =>
    let first := (lba / 16 + k) * 16
    (lineOf ns first, (List.range 16).foldl (fun m i => if lba ≤ first + i ∧ first + i < lba + n then maskSet m i else m) 0)

/-- Side-buffer frames granted to a write, one for each line it touches; none where they cannot all be had. -/
def stageFrames (s : State) (tag : Nat) : List (Nat × Nat) → Option State
  | [] => some s
  | (la, mask) :: rest =>
    match takeFrame s none with
    | none => none
    | some (f, s) => stageFrames (s.setBcm { s.bcm with staged := s.bcm.staged ++ [{ tag, la, frame := f, mask, ready := 0 }] })
        tag rest

/-- The frame a write has staged a sector in. -/
def stagedFrame (s : State) (tag ns lba : Nat) : Option Nat :=
  (s.bcm.staged.find? fun t => t.tag == tag && t.la == lineOf ns lba).map fun t => t.frame

/-! ## What other units cause -/

/-- Whether an LBA of a zoned namespace lies on an actuator that is out of service, or a conventional namespace has lost one. -/
def onLostActuator (s : State) (ns lba : Nat) : Bool :=
  match nsOf s ns with
  | none => false
  | some e =>
    if e.csi = 2 then zoneState s ns (lba / max s.sim.cfg.zoneSectors 1) == 15
    else [0, 1].any fun a => e.actMask.testBit a && !s.actuatorServing a

/-- An actuator is lost (R299, R301, R302, R379): its zones are Offline and reported, its outstanding commands complete with
the statuses of R379, twin extents that hold its data are freed without folding, and twin protection is degraded. -/
def hostActuatorLost (s : State) (n : Nat) : State :=
  let s := s.each (List.range s.sim.cfg.ns.length) fun s i =>
    match nsOf s (i + 1) with
    | some e =>
      if e.csi = 2 ∧ e.actMask.testBit n then
        s.each (s.hst.zones.filter fun z => z.1 / 2 ^ 24 == i + 1 && zoneState s (i + 1) (z.1 % 2 ^ 24) == 15)
          fun s z => zoneChanged s (i + 1) (z.1 % 2 ^ 24)
      else s
    | none => s
  let s := s.each (s.hst.cmds.filter fun c => !c.done && c.opc != 0x00 && onLostActuator s c.ns c.slba) fun s c =>
    cmdFail s c (if nsZoned s c.ns then stZoneOffline else stNsNotReady) c.slba
  let gone := s.jnl.extents.filter fun e => e.state == 3 && onLostActuator s e.ns e.slba
  let dead (r : PeatRecord) : Bool := gone.any fun e => e.surface == r.surface && e.ring == r.ring && e.slot == r.slot
  let j : Jnl := { s.jnl with
    extents := s.jnl.extents.filter fun e => !gone.contains e
    records := s.jnl.records.map fun r => if dead r then { r with live := false } else r }
  let s := s.setJnl j
  (s.set Reg.jnlStatusTwinDegraded).set Reg.jnlIrqStatusTwinDegraded

/-- A port's link fields, the code of its width, and LINK_CHG. -/
def linkSet (s : State) (p width speed : Nat) : State :=
  let code := if width = 4 then 4 else if width = 2 then 2 else if width = 1 then 1 else 0
  let up := bit (code != 0)
  let speed := if code = 0 then 0 else speed
  let s := if p = 0 then ((s.wr Reg.hstStatusP0Up up).wr Reg.hstStatusP0Width code).wr Reg.hstStatusP0Speed speed
    else ((s.wr Reg.hstStatusP1Up up).wr Reg.hstStatusP1Width code).wr Reg.hstStatusP1Speed speed
  s.set Reg.hstIrqStatusLinkChg

/-- The front end stops for SAFE or RECOVERY (R35, R318): no fetch, the pending lists discarded, the jobs ended. -/
def hostStop (s : State) : State :=
  let s := jobsAbort s
  let s := s.setHst { s.hst with paused := true, cqs := s.hst.cqs.map fun q => { q with pend := [] } }
  pendShow s

/-- Reads that wait for sectors of a line whose fill has failed complete with Unrecovered Read Error (R311). -/
def hostReadFailed (s : State) (la mask : Nat) : State :=
  s.each (s.hst.cmds.filter fun c => c.opc == 0x02 && c.begun && !c.done) fun s c =>
    match ((List.range c.nlb).map fun i => c.slba + i).find? fun lba =>
        lineOf c.ns lba == la && mask.testBit (lba % 16) && !c.given.contains lba with
    | some lba => cmdFail s c stUnrecovered lba
    | none => s

end Sys2Proof.Machine
end

