-- ==== Sys2Proof/Machine/Units.lean ====
section
/-!
DEFINITION. Degraded operation and entry into SAFE (spec/13_faults.md, R365, R366, R375, R379, R380): what follows a
unit-fatal and a device-fatal fault.
-/

namespace Sys2Proof.Machine

/-! ## SAFE (R375) -/

/-- Whether a device-fatal fault or a safe-state broadcast changes the mode (R34): BOOT from B3, SERVICE, REST and STANDBY,
and no entry under way. -/
def mayEnterSafe (s : State) : Bool :=
  s.flt.safe == .none && s.opMode != modeSafe && s.opMode != modeRecovery
  && (s.opMode != modeBoot || s.boot == .b3 || s.boot == .b4)

/-- Steps 1 and 2 of R375: RETRACT asserted, both write gates low, planks in progress ABORTED, assist at IDLE, fetching
stopped, the cores held in reset; a rung change ends ABANDONED (R88). -/
def safeStop (s : State) : State :=
  let s := retractLine s
  let s := bwkStopAll s 0
  let s := astStop (astStop s 0) 1
  let s := rungPreempt s
  let s := calStop (hostStop s)
  let s := s.wr Reg.fltCoreHeld 15
  (s.clr Reg.sysCoreRelRun).clr Reg.fltStatusRecovering

/-- Step 3 of R375: the record, and SAFE_PEND. -/
def safeRecord (s : State) : State :=
  let s := match s.flt.captured with
    | some r => (mcWrite s r).wr Reg.fltStatusCause r.code
    | none => if s.flt.safeCause = 0x22 then recordWarden s srcWarden 2 1 [0x22] else s
  (s.set Reg.fltStatusSafePend).setFlt { s.flt with captured := none, safe := .recorded }

/-- Entry into SAFE for a CAUSE (R34, R375), up to the end of step 3. -/
def safeEnter (s : State) (cause : Nat) (captured : Option McRecord) : State :=
  if mayEnterSafe s then
    let s := s.setFlt { s.flt with safe := .begun, safeCause := cause, captured }
    safeRecord (safeStop s)
  else s

/-- A device-fatal fault (R365, R366). -/
def deviceFatal (s : State) (source inst code addr : Nat) (declared : Bool) : State :=
  safeEnter s 0x20 (some (mcCapture s 3 source inst code addr declared 0))

/-! ## Units set down (R379, R380) -/

/-- A bit of FLT_DOWNn set, with UNIT_DOWN. -/
def setDown (s : State) (i : Nat) : State :=
  let f := Reg.fltDownMask.elem (i / 32)
  (s.wr f (maskSet (s.rd f) (i % 32))).set Reg.fltIrqStatusUnitDown

/-- The retire bit of a unit written (R67, R72): the stored mask, its MRAM bytes, and its SIM record. -/
def retireWrite (s : State) (i : Nat) : State :=
  let f := Reg.simRetireMask.elem (i / 32)
  let v := maskSet (s.rd f) (i % 32)
  record ((s.wr f v).store (0x10AFFF00 + 4 * (i / 32)) (leBytes 4 v)) srcSim 1 1 [BitVec.ofNat 8 i]

/-- FLT_HISTk's count of a roster bit. -/
def histCount (s : State) (i : Nat) : Nat := bitsOf (s.rd (Reg.fltHistCount.elem (i / 4))) (8 * (i % 4)) 8

/-- A unit-fatal fault counted against its instance, and its retire bit where R380 asks for it. -/
def histNote (s : State) (i : Nat) : State :=
  let old := histCount s i
  let now := (s.flt.fatalPor.filter fun j => j == i).length
  let f := Reg.fltHistCount.elem (i / 4)
  let w := s.rd f - old * 2 ^ (8 * (i % 4)) + min (old + 1) 255 * 2 ^ (8 * (i % 4))
  let s := (s.wr f w).setFlt { s.flt with fatalPor := i :: s.flt.fatalPor }
  if s.flag Reg.fltPolicyAutoRetire ∧ now < old then (retireWrite s i).set Reg.fltIrqStatusRetired else s

/-- Whether the retire bit of an instance is going to be written (R380), which its record's flags say (R367). -/
def willRetire (s : State) (i : Nat) : Bool :=
  s.flag Reg.fltPolicyAutoRetire && decide ((s.flt.fatalPor.filter fun j => j == i).length < histCount s i)

/-- The actuator a roster bit belongs to as BWKn, SRVn or ASTn. -/
def actuatorOfBit (i : Nat) : Option Nat :=
  if i = 4 ∨ i = 6 ∨ i = 9 then some 0 else if i = 5 ∨ i = 7 ∨ i = 10 then some 1 else none

/-- Whether an HST port is in service with a usable lane. -/
def portUsable (s : State) (p : Nat) : Bool :=
  s.serving (bitPort p) && (List.range 4).any fun l =>
    s.serving (bitLane l) && (s.sim.cfg.portMode == 0 || l / 2 == p)

/-- Whether a unit that R366 names has no instance in service left. -/
def kindLost (s : State) : Bool :=
  !((List.range 4).any fun h => s.serving (bitHart h))
  || !s.serving bitSpn || !s.serving bitJnl || !s.serving bitOce || !s.serving bitCry
  || !([0, 1].any fun n => s.serving (bitRdc n))
  || !([0, 1].any fun n => s.serving (bitFast n))
  || !([0, 1].any fun n => s.actuatorServing n)
  || !([0, 1].any fun p => portUsable s p)

/-- An actuator lost (R379): the other two units and every head set down, the HV retract, the rings drained with ABORTED
results, the host told. -/
def actuatorLost (s : State) (n : Nat) : State :=
  let bits := [bitBwk n, bitSrv n, bitAst n] ++ (s.headsOf n).map bitHead
  let s := s.each bits setDown
  let s := hvRetract s n 1 10
  let s := astStop s n
  let s := bwkAbort s n s.fullAngle
  let s := s.setBwk n { s.bwk.get n with stopped := true }
  let s := if s.flag (Reg.rngCtlEnable.elem n) then
      ((s.clr (Reg.rngCtlEnable.elem n)).set (Reg.rngStatusDraining.elem n)).clr (Reg.rngStatusIdle.elem n)
    else s
  hostActuatorLost s n

/-- A read channel lost (R379): the crossover points both preamps at the survivor. -/
def channelLost (s : State) (n : Nat) : State :=
  let m := 1 - n
  let s := s.setSim { s.sim with cfg := { s.sim.cfg with rdcOfPa := ⟨m, m⟩ } }
  let s := s.set Reg.simStatusRewired
  (s.wr (Reg.rdcStatusPa.elem m) 3).set (Reg.rdcStatusShared.elem m)

/-- A unit instance becomes unit-fatal (R379, R380): set down, its dependants released, the retire policy applied, its record
written; device-fatal instead where it is the last of a kind that R366 names. `i` is its roster bit. -/
def unitFatal (s : State) (i source inst code addr : Nat) : State :=
  if s.down i then s else
  let retired := willRetire s i
  let t := setDown s i
  let t := match actuatorOfBit i with | some n => s.each ([bitBwk n, bitSrv n, bitAst n] ++ (s.headsOf n).map bitHead) setDown
                                      | none => t
  if kindLost t && !kindLost s then deviceFatal (histNote s i) source inst 0x0063 addr false
  else
    let s := unitFatalRecord (setDown s i) source inst code addr retired
    let s := match actuatorOfBit i with
      | some n => actuatorLost s n
      | none => if i = bitRdc 0 then channelLost s 0 else if i = bitRdc 1 then channelLost s 1 else s
    let s := if i = bitSrv 0 ∨ i = bitSrv 1 then
        s.setSrv (i - 6) { s.srv.get (i - 6) with fatal := true } else s
    histNote s i

end Sys2Proof.Machine
end

