-- ==== Sys2Proof/Machine/Cache.lean ====
section
/-!
DEFINITION. Cache and memory commands (spec/12_cache_memory.md, R343 to R364): the op slots, the request FIFO, ways and
disabling, and the checks, tracker, scrubber and injection of MEM.
-/

namespace Sys2Proof.Machine

/-! ## Op slots (R343) -/

/-- A write of BCM_OPn_CTL with GO: ignored while the slot is BUSY; otherwise the fields are taken and `run` acts on the line
they name. -/
def slotGo (s : State) (slot : Nat) (data : Word) (run : State → SlotOp → State) : State :=
  if s.flag (Reg.bcmOpResBusy.elem slot) then s else
  let ns := fieldOf data 20 4
  let mask := fieldOf data 0 16
  let s := (s.wr (Reg.bcmOpCtlOp.elem slot) (fieldOf data 24 4)).wr (Reg.bcmOpCtlNs.elem slot) ns
  let s := (s.wr (Reg.bcmOpCtlMask.elem slot) mask).set (Reg.bcmOpResBusy.elem slot)
  run s { slot, op := fieldOf data 24 4, la := (ns - 1) * 2 ^ 32 + s.rd (Reg.bcmOpLineLine.elem slot), mask }

/-- An operation that joins the others of its line in GO order. -/
def slotQueue (s : State) (o : SlotOp) : State := bcmPump (s.setBcm { s.bcm with ops := s.bcm.ops ++ [o] })

/-- LOOKUP (R343). -/
def execLookup (slot : Nat) (data : Word) (s : State) : Host.Outcome State Fault Refusal :=
  .next ((slotGo s slot data fun s o => slotQueue s { o with op := 1 }).answer 0)

/-- ALLOC (R343, R344, R350). -/
def execAlloc (slot : Nat) (data : Word) (s : State) : Host.Outcome State Fault Refusal :=
  .next ((slotGo s slot data fun s o => slotQueue s { o with op := 2 }).answer 0)

/-- The end of a fill (R343): the FILLING sectors in MASK take a value; what waited for them goes on. A transient frame is
freed at FILL_FAIL (R350). -/
def fillEnd (s : State) (o : SlotOp) (to_ : Nat) : State :=
  match bcmFillLine s o.la with
  | none => slotEnd s o.slot 2 0 0
  | some l =>
    let m := l.maskOf 3 &&& o.mask
    if m = 0 then slotEnd s o.slot 2 0 l.frame
    else
      let s := if l.place = 3 ∧ to_ = 0 then bcmDrop s l else bcmPut s l (l.setMask o.mask 3 to_)
      bcmPump (mergePump (slotEnd s o.slot 0 m l.frame))

/-- FILL_OK (R343). -/
def execFillOk (slot : Nat) (data : Word) (s : State) : Host.Outcome State Fault Refusal :=
  .next ((slotGo s slot data fun s o => fillEnd s o 1).answer 0)

/-- FILL_FAIL (R343): the reads that wait for a failed sector end as R311 states. -/
def execFillFail (slot : Nat) (data : Word) (s : State) : Host.Outcome State Fault Refusal :=
  .next ((slotGo s slot data fun s o =>
    let m := match bcmFillLine s o.la with | some l => l.maskOf 3 &&& o.mask | none => 0
    hostReadFailed (fillEnd s o 0) o.la m).answer 0)

/-- CLEAN (R348): JNL folds every extent that holds a DIRTY sector of the mask ahead of others, and the operation ends when
none is left. -/
def execClean (slot : Nat) (data : Word) (s : State) : Host.Outcome State Fault Refusal :=
  .next ((slotGo s slot data fun s o => slotQueue s { o with op := 5 }).answer 0)

/-- INVALIDATE (R348). -/
def execInvalidate (slot : Nat) (data : Word) (s : State) : Host.Outcome State Fault Refusal :=
  .next ((slotGo s slot data fun s o => slotQueue s { o with op := 6 }).answer 0)

/-- PIN (R343, R344): at expert level only; at basic level it is refused. -/
def execPin (slot : Nat) (data : Word) (s : State) : Host.Outcome State Fault Refusal :=
  .next ((slotGo s slot data fun s o =>
    if expert s Reg.bcmModeLevel then slotQueue s { o with op := 7 } else slotEnd s o.slot 3 0 0).answer 0)

/-- UNPIN (R343). -/
def execUnpin (slot : Nat) (data : Word) (s : State) : Host.Outcome State Fault Refusal :=
  .next ((slotGo s slot data fun s o =>
    if expert s Reg.bcmModeLevel then slotQueue s { o with op := 8 } else slotEnd s o.slot 3 0 0).answer 0)

/-- BCM_REQ_POP (R346, R363): the head entry of the request FIFO is removed. -/
def execBcmReqPop (s : State) : Host.Outcome State Fault Refusal :=
  .next ((fifoShow (s.setBcm { s.bcm with fifo := s.bcm.fifo.drop 1 })).answer 0)

/-! ## Ways and disabling (R349, R350) -/

/-- The lines of a way that may leave it: not pinned, nothing DIRTY, nothing FILLING. -/
def wayClean (l : Line) : Bool := !l.pinned && !l.has 2 && !l.has 3

/-- The clean lines of a way pass to the eviction structure. -/
def wayEmpty (s : State) (w : Nat) : State :=
  s.each (s.bcm.lines.filter fun l => l.place == 0 && l.way == w && wayClean l) fun s l => (evictIn s l).1

/-- BCM_WAYS_WRITE (R349): at expert level, bits cleared power their ways down, bits set power them up with every line free. -/
def execBcmWaysWrite (data : Word) (s : State) : Host.Outcome State Fault Refusal :=
  let on := s.rd Reg.bcmWaysOn
  let want := fieldOf data 0 16
  if !expert s Reg.bcmModeLevel then .next ((expertIgnored s Reg.bcmModeExpertWrIgnored (want != on)).answer 0)
  else if s.flag Reg.bcmCtlEn && !want.testBit 0 then .next ((corrected s).answer 0)
  else
    let down := (List.range 16).filter fun w => on.testBit w && !want.testBit w
    let up := (List.range 16).filter fun w => !on.testBit w && want.testBit w
    let s := s.wr Reg.bcmWaysOn want
    let s := s.each down fun s w => wayEmpty (s.wr Reg.bcmWaysPend (maskSet (s.rd Reg.bcmWaysPend) w)) w
    .next ((s.each up fun s w => s.wr Reg.bcmWaysPend (maskClear (s.rd Reg.bcmWaysPend) w)).answer 0)

/-- WAY_GATED (R349): the way holds no pinned line, no DIRTY and no FILLING sector; its lines have left, and PEND clears. -/
def execWayGated (w : Nat) (s : State) : Host.Outcome State Fault Refusal :=
  if !(s.rd Reg.bcmWaysPend).testBit w then .next s
  else if (s.bcm.lines.filter fun l => l.place == 0 && l.way == w).all wayClean then
    let s := wayEmpty s w
    .next ((s.wr Reg.bcmWaysPend (maskClear (s.rd Reg.bcmWaysPend) w)).set Reg.bcmIrqStatusWaysDone)
  else .next s

/-- BCM_EN_WRITE (R350): 0 in ON enters DRAINING; 1 in OFF powers on the ways set in ON, with every line free; 1 in DRAINING
is ignored. -/
def execBcmEnWrite (data : Word) (s : State) : Host.Outcome State Fault Refusal :=
  let st := s.rd Reg.bcmStatusState
  let en := data.getLsbD 0
  if !en ∧ st = 1 then
    let s := ((s.clr Reg.bcmCtlEn).wr Reg.bcmStatusState 2).wr Reg.jnlStatusFold 3
    .next (s.answer 0)
  else if en ∧ st = 0 then .next (((s.set Reg.bcmCtlEn).wr Reg.bcmStatusState 1).answer 0)
  else .next (s.answer 0)

/-- BCM_DRAIN_DONE (R350): no DIRTY sector is left: every line is freed, every way powered down, OFF entered. -/
def execBcmDrainDone (s : State) : Host.Outcome State Fault Refusal :=
  if s.rd Reg.bcmStatusState ≠ 2 ∨ s.bcm.lines.any (fun l => l.has 2) then .next s else
  let s := s.setBcm { s.bcm with lines := s.bcm.lines.filter fun l => l.place == 3, wayFrame := [] }
  let s := ((s.wr Reg.bcmStatusState 0).set Reg.bcmIrqStatusOff).wr Reg.jnlStatusFold 0
  .next (bcmDirtyShow s)

/-! ## Checks and the tracker (R352, R355, R356) -/

/-- The state with MEM beside its registers replaced; TRK_USED, PINNED and CAND follow (R364). -/
def State.setMem (s : State) (v : Mem) : State :=
  let s := s.setMemc v
  let s := (s.wr Reg.memStatusTrkUsed v.tracker.length).wr Reg.memStatusPinned v.pinned.length
  s.wr Reg.memStatusCand v.cands.length

/-- Array of an address: 0 SRAM, 1 DRAM, 2 MRAM. -/
def memArray (a : Nat) : Nat := if 0x800000000 ≤ a then 1 else if 0x10000000 ≤ a ∧ a < 0x20000000 then 2 else 0

/-- The last error report (R364). -/
def memReport (s : State) (kind array m position addr : Nat) : State :=
  let s := ((s.set Reg.memLastErrValid).wr Reg.memLastErrKind kind).wr Reg.memLastErrArray array
  let s := (s.wr Reg.memLastErrMaster m).wr Reg.memLastErrPosition position
  s.wrPair Reg.memLastAddrLoAddr Reg.memLastAddrHiAddr addr

/-- A counter of one of the three arrays. -/
def memCount (s : State) (array : Nat) (sram dram mram : Fld) : State :=
  s.bump (if array = 0 then sram else if array = 1 then dram else mram)

/-- A hard word (R356): its entry freed, its row pinned, a repair candidate entered, HARD raised and recorded; where a table is
full the row is only recorded, and HARD_OVF is set. -/
def hardWord (s : State) (array addr : Nat) : State :=
  let row := Config.memRow array addr
  let m := s.memc
  let m := { m with tracker := m.tracker.filter fun t => !(t.array == array && t.addr == addr) }
  let known := m.pinned.contains (array, row)
  let candKnown := m.cands.any fun c => c.array == array && Config.memRow c.array c.addr == row
  let full := (!known && decide (64 ≤ m.pinned.length)) || (!candKnown && decide (32 ≤ m.cands.length))
  let m := if full then m else { m with
    pinned := if known then m.pinned else m.pinned ++ [(array, row)]
    cands := if candKnown then m.cands else m.cands ++ [⟨array, addr, 0⟩] }
  let s := (s.setMem m).set Reg.memIrqStatusHard
  let s := (s.bump Reg.memCounts2Hard).when full fun s => s.set Reg.memStatusHardOvf
  record s srcMem 1 1 ([BitVec.ofNat 8 array] ++ leBytes 5 addr)

/-- The entry that a full tracker gives up: the lowest count, the oldest on a tie. -/
def trackerLowest : List Tracked → Option Tracked
  | [] => none
  | t :: rest => match trackerLowest rest with
    | none => some t
    | some u => if u.count < t.count then some u else some t

/-- A correction counted by the tracker (R355, R356). -/
def trackCorrection (s : State) (array addr : Nat) : State :=
  if array = 2 then s else
  let m := s.memc
  match m.tracker.find? fun t => t.array == array && t.addr == addr with
  | some t =>
    if t.wb then hardWord s array addr
    else s.setMem { m with tracker := m.tracker.map fun u => if u = t then { t with count := min (t.count + 1) 255 } else u }
  | none =>
    let l := if m.tracker.length < 32 then m.tracker else
      match trackerLowest m.tracker with | some o => m.tracker.filter fun u => u != o | none => []
    s.setMem { m with tracker := l ++ [⟨array, addr, 1, false⟩] }

/-- MEM_CORRECTED_READ (R352, R355): the reader gets corrected data; the word keeps its stored value. -/
def execMemCorrectedRead (m addr position : Nat) (s : State) : Host.Outcome State Fault Refusal :=
  let base := memWordBase addr
  let a := memArray base
  let s := memCount s a Reg.memCounts0CorrSram Reg.memCounts0CorrDram Reg.memCounts1CorrMram
  let s := memReport (s.set Reg.memIrqStatusCorr) 1 a m position base
  .next (trackCorrection (corrected (pmuEvent s 6 5 (some m) (some addr) 1)) a base)

/-- What an UNCORRECTABLE or POISONED read leaves (R352): reported, and the word's check bits are the poison value. -/
def uncorrectable (s : State) (m addr : Nat) : State :=
  let base := memWordBase addr
  let a := memArray base
  let known := s.poison.contains base
  let s := if known then s.set Reg.memIrqStatusPoison else
    let s := memCount s a Reg.memCounts1UncSram Reg.memCounts1UncDram Reg.memCounts2UncMram
    ((s.set Reg.memIrqStatusUncorr).setPoison (base :: s.poison)).setMemc
      { s.memc with err := Store.write 0 s.memc.err base 0 }
  memReport s (if known then 3 else 2) a m 0 base

/-- MEM_UNCORRECTABLE_READ (R352, R353): the word is poisoned, and a control core's access ends with a bus error and a
contained fault; the scrubber counts it; the other readers' rules are those of their own commands. -/
def execMemUncorrectableRead (m addr : Nat) (s : State) : Host.Outcome State Fault Refusal :=
  let s := uncorrectable s m addr
  .next (if m ≤ 3 then (contained s srcMem m 0x0020 addr).setResp .busError else s)

/-- TRACKER_WRITEBACK (R355): the scrubber writes a tracked word back; WB is set and the count cleared. -/
def execTrackerWriteback (k : Nat) (s : State) : Host.Outcome State Fault Refusal :=
  match s.memc.tracker[k]? with
  | none => .next s
  | some t =>
    if t.wb ∨ t.count < s.rd Reg.memRepeatLimitValue then .next s else
    .next (s.setMem { s.memc with
      tracker := s.memc.tracker.map fun u => if u = t then { t with wb := true, count := 0 } else u
      err := Store.write 0 s.memc.err t.addr 0 })

/-- First address and size in bytes of an array. -/
def arraySpan (s : State) (array : Nat) : Nat × Nat :=
  if array = 0 then (0x08000000, 0x1000000) else if array = 1 then (0x800000000, s.dramBytes) else (0x10000000, 0x1000000)

/-- Whether scrubbing of an array is running (R358, R362): a rate of 0 pauses it, and DRAM waits in STANDBY. -/
def scrubbing (s : State) (array : Nat) : Bool :=
  if array = 0 then s.rd Reg.memScrubRateSramMin != 0
  else if array = 1 then s.rd Reg.memScrubRateDramHours != 0 && s.opMode != modeStandby
  else array == 2 && s.rd Reg.memScrubRateMramDays != 0

/-- SCRUB_STEP (R358): the scrubber visits the next word of an array, writes it back where it reads CORRECTED, and leaves it
poisoned where it reads UNCORRECTABLE; the pass goes on, and the percentage follows. -/
def execScrubStep (array flaw : Nat) (s : State) : Host.Outcome State Fault Refusal :=
  if !scrubbing s array then .next s else
  let a := nth 0 s.memc.scrub array
  let span := arraySpan s array
  let step := memWordSize a
  let next := if span.1 + span.2 ≤ a + step then span.1 else a + step
  let s :=
    if flaw = 1 then
      let s := memCount s array Reg.memCounts0CorrSram Reg.memCounts0CorrDram Reg.memCounts1CorrMram
      let s := memReport (s.set Reg.memIrqStatusCorr) 1 array 12 0 a
      let s := trackCorrection (corrected (pmuEvent s 6 5 (some 12) (some a) 1)) array a
      s.setMem { s.memc with err := Store.write 0 s.memc.err a 0 }
    else if flaw = 2 then uncorrectable s 12 a
    else s
  let s := s.setMem { s.memc with scrub := setNth s.memc.scrub array next }
  let f := if array = 0 then Reg.memScrubPosSramPct else if array = 1 then Reg.memScrubPosDramPct else Reg.memScrubPosMramPct
  .next (s.wr f ((next - span.1) * 100 / span.2))

/-- MEM_INJECT_ARM (R364): at expert level, the next full-word write to the target stores altered check bits. KIND 0 is a
reserved encoding (R16): it reads back the reset value, and no injection follows it. -/
def execMemInjectArm (data : Word) (s : State) : Host.Outcome State Fault Refusal :=
  if !expert s Reg.memModeLevel then
    .next ((expertIgnored s Reg.memModeExpertWrIgnored (fieldOf data 0 2 != s.rd Reg.memInjectKind)).answer 0)
  else
    let s := s.wr Reg.memInjectKind (fieldOf data 0 2)
    .next ((if data.getLsbD 31 ∧ fieldOf data 0 2 ≠ 0 then s.set Reg.memInjectArm
      else if fieldOf data 0 2 = 0 then corrected s else s).answer 0)

end Sys2Proof.Machine
end

