-- ==== Sys2Proof/Machine/JournalOps.lean ====
section
/-!
DEFINITION. Shared operations of the journal (spec/09_journal.md, R258 to R282): the write sequence, the choice of route,
Peat rings and records, the credit of written sectors, the completion rule, folds, and the saving of accumulators.
-/

namespace Sys2Proof.Machine

/-! ## WRITE_SEQ (R258) -/

/-- The next WRITE_SEQ. -/
def nextSeq (s : State) : Nat := s.rdPair Reg.jnlSeqLoSeq Reg.jnlSeqHiSeq

/-- WRITE_SEQ assigned: the counter rises, and its stored value follows in steps of 65,536. -/
def seqTake (s : State) : Nat × State :=
  let v := nextSeq s
  let s := s.wrPair Reg.jnlSeqLoSeq Reg.jnlSeqHiSeq ((v + 1) % 2 ^ 64)
  (v, s.setJnl { s.jnl with seqStored := if s.jnl.seqStored + 65536 ≤ v + 1 then s.jnl.seqStored + 65536 else s.jnl.seqStored })

/-! ## Peat rings (R106, R261, R263) -/

/-- Slots of ring `k` of a surface: 256 tracks. -/
def peatSlots (c : Structure) (su k : Nat) : Nat := 256 * sectorsPerTrack c su (peatCentre c su k)

/-- The ring of a surface that a PSA lies in, and its ring slot. -/
def peatPlace (c : Structure) (su psa : Nat) : Option (Nat × Nat) :=
  let pos := psaTrack psa
  ((List.range c.peatRings).find? fun k =>
    decide (peatStart c su k + c.laggMin ≤ pos) && decide (pos < peatStart c su k + c.laggMin + 512)).map fun k =>
      (k, (pos - peatStart c su k - c.laggMin) / 2 * sectorsPerTrack c su pos + psaSlot psa)

/-- The index entry of a ring. -/
def peatRing (s : State) (su k : Nat) : PeatRing := Store.read {} s.jnl.rings (su * 64 + k)
def setPeatRing (s : State) (su k : Nat) (r : PeatRing) : State :=
  s.setJnl { s.jnl with rings := Store.write {} s.jnl.rings (su * 64 + k) r }

/-- Slots in use of a ring: from its tail to its head. -/
def peatUsed (s : State) (su k : Nat) : Nat :=
  let n := max 1 (peatSlots s.sim.cfg su k)
  ((peatRing s su k).head + n - (peatRing s su k).tail) % n

/-- Whether a ring has room for a record of `len` slots; a slot stays free between head and tail. -/
def peatRoom (s : State) (su k len : Nat) : Bool := decide (peatUsed s su k + len < peatSlots s.sim.cfg su k)

/-- Surfaces of an actuator. -/
def actSurfaces (s : State) (act : Nat) : List Nat := (s.headsOf act).map fun h => headSurface s h

/-- JNL_OCC, SPACE_LOW and its interrupt (R271). -/
def occShow (s : State) : State :=
  let occ (act : Nat) : Nat :=
    let rings := (actSurfaces s act).flatMap fun su => (List.range s.sim.cfg.peatRings).map fun k => (su, k)
    let all := rings.foldl (fun n r => n + peatSlots s.sim.cfg r.1 r.2) 0
    if all = 0 then 0 else rings.foldl (fun n r => n + peatUsed s r.1 r.2) 0 * 100 / all
  let low := decide (s.rd Reg.jnlFoldHighWm ≤ occ 0) || decide (s.rd Reg.jnlFoldHighWm ≤ occ 1)
  let rise := low && !s.flag Reg.jnlStatusSpaceLow
  let s := (s.wr Reg.jnlOccAct0 (occ 0)).wr Reg.jnlOccAct1 (occ 1)
  (s.wr Reg.jnlStatusSpaceLow (bit low)).when rise fun s => s.set Reg.jnlIrqStatusSpaceLow

/-- The distance of a ring's centre from a position. -/
def peatDist (c : Structure) (su k pos : Nat) : Nat :=
  let a := peatCentre c su k
  if a < pos then pos - a else a - pos

/-- The nearest ring of a surface with room, lower numbers first among equals (R261). -/
def peatNearest (s : State) (su pos len : Nat) : List Nat → Option Nat
  | [] => none
  | k :: rest =>
    match peatNearest s su pos len rest with
    | none => if peatRoom s su k len then some k else none
    | some j => if peatRoom s su k len && decide (peatDist s.sim.cfg su k pos ≤ peatDist s.sim.cfg su j pos) then some k else some j

/-- Where a record of `len` slots of an actuator goes: the nearest ring of its followed head with room, at its head (R261). -/
def recordTarget (s : State) (act len : Nat) : Option (Nat × Nat × Nat) :=
  let su := headSurface s (followedHead s act)
  let pos := (s.srv.get act).pos / 256
  (peatNearest s su pos.toNat len (List.range s.sim.cfg.peatRings)).map fun k => (su, k, (peatRing s su k).head)

/-- Where the twin of a record on actuator `act` goes (R264, R265): the other actuator; or another surface of this one; or
another ring of its only surface. The flag says whether a substitution is in force. -/
def twinTarget (s : State) (act len avoid : Nat) : Option (Nat × Nat × Nat) × Bool :=
  if s.actuatorServing (1 - act) then (recordTarget s (1 - act) len, false) else
  let su := headSurface s (followedHead s act)
  match (actSurfaces s act).find? fun x => x != su with
  | some x =>
    ((peatNearest s x ((s.srv.get act).pos / 256).toNat len (List.range s.sim.cfg.peatRings)).map fun k =>
      (x, k, (peatRing s x k).head), true)
  | none =>
    ((peatNearest s su ((s.srv.get act).pos / 256).toNat len
      ((List.range s.sim.cfg.peatRings).filter fun k => k != avoid)).map fun k => (su, k, (peatRing s su k).head), true)

/-- TWIN_DEGRADED follows the substitution in force. -/
def twinDegraded (s : State) (v : Bool) : State :=
  let rise := v && !s.flag Reg.jnlStatusTwinDegraded
  (s.wr Reg.jnlStatusTwinDegraded (bit v)).when rise fun s => s.set Reg.jnlIrqStatusTwinDegraded

/-- Dead records at a ring's tail are passed (R263). -/
def tailAdvance (s : State) (su k : Nat) : Nat → State
  | 0 => s
  | fuel + 1 =>
    match s.jnl.records.find? fun r => r.surface == su && r.ring == k with
    | none => let r := peatRing s su k; setPeatRing s su k { r with tail := r.head }
    | some r =>
      if r.live then setPeatRing s su k { peatRing s su k with tail := r.slot }
      else tailAdvance (s.setJnl { s.jnl with records := s.jnl.records.erase r }) su k fuel

/-! ## Extents (R271, R277) -/

/-- Extents the index holds. -/
def extentLimit (s : State) : Nat := (s.rd Reg.jnlIdxSizeBytes - 0x12800) / 32

/-- The lowest free extent index. -/
def extentFree (s : State) : Option Nat :=
  (List.range (min (extentLimit s) (s.jnl.extents.length + 1))).find? fun i => !s.jnl.extents.any fun e => e.idx == i

/-- An extent replaced. -/
def setExtent (s : State) (e : Extent) : State :=
  s.setJnl { s.jnl with extents := s.jnl.extents.map fun x => if x.idx = e.idx then e else x }

/-- An extent freed: its DIRTY sectors take `to_`, its record dies, and its ring's tail moves on (R263, R271, R347). What
waits for DIRTY sectors goes on. -/
def extentDrop (s : State) (e : Extent) (to_ : Nat) : State :=
  let s := s.setJnl { s.jnl with
    extents := s.jnl.extents.filter fun x => x.idx != e.idx
    records := s.jnl.records.map fun r =>
      if r.surface = e.surface ∧ r.ring = e.ring ∧ r.slot = e.slot then { r with live := false } else r }
  let s := tailAdvance s e.surface e.ring (s.jnl.records.length + 1)
  let s := if e.state = 3 then s else dirtyEnd s e.ns e.slba e.nlb to_
  let s := s.clr Reg.jnlStatusIdxFull
  let s := if s.jnl.extents.any (fun x => x.state == 2) ∨ s.rd Reg.jnlStatusFold ≠ 1 then s else s.wr Reg.jnlStatusFold 0
  bcmPump (occShow s)

/-- The LBAs of an extent that no newer extent covers (R271). -/
def extentOwn (s : State) (e : Extent) : List Nat :=
  ((List.range e.nlb).map fun i => e.slba + i).filter fun lba =>
    !s.jnl.extents.any fun x => x.state != 3 && x.ns == e.ns && decide (e.seq < x.seq) && decide (x.slba ≤ lba)
      && decide (lba < x.slba + x.nlb)

/-- A fold whose target sectors are all written, and in a band sealed: the extent becomes free, with its twin (R264, R271). -/
def foldJudge (s : State) (e : Extent) : State :=
  let need := if nsZoned s e.ns then (List.range e.nlb).map fun i => e.slba + i else extentOwn s e
  let open_ (lba : Nat) : Bool := nsZoned s e.ns && [0, 1].any fun n =>
    (s.jnl.group.get n).ns == e.ns && (s.jnl.group.get n).data.any fun d => d.2 == lba
  if e.state = 2 ∧ need.all (fun lba => e.home.contains lba && !open_ lba) then
    let s := extentDrop (s.addWrap Reg.jnlCounts1Folds 1) e 1
    s.each (s.jnl.extents.filter fun x => x.state == 3 && x.ns == e.ns && x.seq == e.seq && x.slba == e.slba)
      fun s x => extentDrop s x 1
  else s

/-- Every fold judged. -/
def foldPump (s : State) : State := s.each (s.jnl.extents.filter fun e => e.state == 2) foldJudge

/-! ## Bands (R109, R277) -/

/-- The band slot of a sector of a zone, and the data sectors below a band slot. -/
def zoneSlot (s : State) (m : Nat) : Nat := bandSlot s.sim.cfg.stripeG s.sim.cfg.stripeP m
def slotSector (s : State) (b : Nat) : Nat :=
  let g := s.sim.cfg.stripeG
  let w := max 1 (g + s.sim.cfg.stripeP)
  b / w * g + min (b % w) g

/-- A band's index entry changed; one is made active where the zone has none. -/
def bandUpdate (s : State) (ns zone : Nat) (f : Band → Band) : State :=
  if s.jnl.bands.any fun b => b.ns == ns && b.zone == zone then
    s.setJnl { s.jnl with bands := s.jnl.bands.map fun b => if b.ns = ns ∧ b.zone = zone then f b else b }
  else s.setJnl { s.jnl with bands := s.jnl.bands ++ [f { ns, zone, wp := 0, ackWp := 0, state := 1 }] }

/-! ## The completion rule (R266) -/

/-- Every sector of a command is counted, and protected where twin mode applies (R266 conditions 1 and 2). -/
def writeLaid (c : HostCmd) : Bool :=
  ((List.range c.nlb).map fun i => (if c.opc = 0x7D then c.alba else c.slba) + i).all fun lba =>
    c.laid.contains lba && (!c.twin || c.safe.contains lba)

/-- The first LBA of a write. -/
def writeFirst (c : HostCmd) : Nat := if c.opc = 0x7D then c.alba else c.slba

/-- Condition 3: no earlier write to the zone is short of conditions 1 and 2. -/
def zoneOrder (s : State) (c : HostCmd) : Bool :=
  let zs := max s.sim.cfg.zoneSectors 1
  !c.direct || !(earlier s.hst.cmds c.tag).any fun e =>
    e.isWrite && !e.done && e.ns == c.ns && writeFirst e / zs == writeFirst c / zs && !writeLaid e

/-- A write's media work is complete: its record becomes DONE and its staged sectors merge; the band's acknowledged pointer
moves behind it (R266, R280, R347). Nothing is written DONE in SAFE or RECOVERY or on the way there (R281). -/
def writeJudge (s : State) (c : HostCmd) : State :=
  if !c.isWrite || c.done || !c.begun || !writeLaid c || !zoneOrder s c then s
  else if s.opMode == modeSafe || s.opMode == modeRecovery || s.flt.safe != .none then s
  else
    let zs := max s.sim.cfg.zoneSectors 1
    let s := if c.direct && nsZoned s c.ns then
        bandUpdate s c.ns (writeFirst c / zs) fun b =>
          { b with ackWp := max b.ackWp (zoneSlot s (writeFirst c % zs + c.nlb - 1) + 1) }
      else s
    mergeWrite (cmdDone s c 0) c.tag (!c.direct)

/-- Every write judged, in overlap order: one that completes may let the next complete. -/
def writePump (s : State) : State :=
  s.each (s.hst.cmds.map fun c => c.tag) fun s t => match cmdOf s t with | some c => writeJudge s c | none => s

/-! ## Credit of written sectors -/

/-- Sectors of the write with a WRITE_SEQ become counted, or protected. -/
def creditLaid (s : State) (ns seq : Nat) (lbas : List Nat) : State :=
  s.setHst { s.hst with
    cmds := s.hst.cmds.map fun c =>
      if c.isWrite && c.seq == seq && c.ns == ns then
        { c with laid := c.laid ++ lbas.filter (fun l => !c.laid.contains l), faults := 0 } else c }
def creditSafe (s : State) (ns seq : Nat) (lbas : List Nat) : State :=
  s.setHst { s.hst with
    cmds := s.hst.cmds.map fun c =>
      if c.isWrite && c.seq == seq && c.ns == ns then
        { c with safe := c.safe ++ lbas.filter fun l => !c.safe.contains l } else c }

/-- A sector of a fold is home. -/
def creditHome (s : State) (ns seq lba : Nat) : State :=
  s.setJnl { s.jnl with
    extents := s.jnl.extents.map fun e =>
      if e.state = 2 ∧ e.ns = ns ∧ e.seq = seq ∧ e.slba ≤ lba ∧ lba < e.slba + e.nlb then { e with home := lba :: e.home } else e }

/-- A stripe group is sealed: its sectors are protected, and twin extents of direct writes whose sectors are all protected
are released (R264). -/
def groupSeal (s : State) (n : Nat) : State :=
  let g := s.jnl.group.get n
  let s := s.setJnl { s.jnl with group := s.jnl.group.set n {} }
  let s := s.each g.data fun s d => creditSafe s g.ns d.1 [d.2]
  s.each (s.jnl.extents.filter fun e =>
      e.state == 3 && e.ns == g.ns && !s.jnl.extents.any (fun x => x.state != 3 && x.ns == e.ns && x.seq == e.seq)
      && ((List.range e.nlb).map fun i => e.slba + i).all fun lba =>
          !(s.jnl.group.get (1 - n)).data.any (fun d => d.2 == lba)
          && (g.data.any (fun d => d.2 == lba)
            || s.hst.cmds.all (fun c => c.seq != e.seq || c.safe.contains lba)))
    fun s e => extentDrop s e 1

/-- A data sector laid by BWKn at band or conventional slots (R266, R271). -/
def creditData (s : State) (n : Nat) (internal : List Byte) (accum : Bool) : State :=
  let ns := internalNs internal
  let seq := leValue ((internal.drop 8).take 8)
  let lba := lbaTag internal
  let s := creditHome (creditLaid s ns seq [lba]) ns seq lba
  if internalKind internal = 4 then creditSafe s ns seq [lba]
  else
    let zs := max s.sim.cfg.zoneSectors 1
    let s := bandUpdate s ns (lba / zs) fun b => { b with wp := max b.wp (zoneSlot s (lba % zs) + 1) }
    let g := s.jnl.group.get n
    if accum then s.setJnl { s.jnl with group := s.jnl.group.set n { ns, data := g.data ++ [(seq, lba)], parity := 0 } } else s

/-- A parity sector laid by BWKn: the group is sealed at the last (R245, R266). -/
def creditParity (s : State) (n : Nat) (internal : List Byte) : State :=
  let g := s.jnl.group.get n
  let zs := max s.sim.cfg.zoneSectors 1
  let first := lbaTag internal
  let w := s.sim.cfg.stripeG + s.sim.cfg.stripeP
  let s := if g.data.isEmpty then s else
    bandUpdate s g.ns (first / zs) fun b =>
      { b with wp := max b.wp (slotGroup s.sim.cfg.stripeG s.sim.cfg.stripeP (zoneSlot s (first % zs)) * w
                                + s.sim.cfg.stripeG + g.parity + 1) }
  if s.sim.cfg.stripeP ≤ g.parity + 1 then groupSeal s n
  else s.setJnl { s.jnl with group := s.jnl.group.set n { g with parity := g.parity + 1 } }

/-- The extent of a record as the index takes it. -/
def recordExtent (r : OpenRecord) (idx : Nat) : Extent where
  idx := idx
  state := if r.flags.testBit 0 then 3 else 1
  ns := r.ns
  slba := r.slba
  nlb := r.nlb
  seq := r.seq
  head := r.head
  surface := r.surface
  ring := r.ring
  slot := r.slot
  len := r.payload + 1
  zeroes := r.flags.testBit 2
  home := []

/-- A record entered in the index as extent `idx`, and the head of its ring moved behind it (R264, R277). -/
def recordEnter (s : State) (r : OpenRecord) (idx : Nat) : State :=
  let slots := max 1 (peatSlots s.sim.cfg r.surface r.ring)
  let s := s.setJnl { s.jnl with
    extents := s.jnl.extents ++ [recordExtent r idx]
    records := s.jnl.records ++ [{ surface := r.surface, ring := r.ring, slot := r.slot, len := r.payload + 1, live := true }] }
  occShow (setPeatRing s r.surface r.ring
    { peatRing s r.surface r.ring with head := (r.slot + (r.payload + 1)) % slots })

/-- A record whose last sector is laid: its extent is written, LIVE or TWIN, the ring's head moves behind it, and its
sectors count for its command (R261, R264, R266, R277). With no free extent IDX_FULL is set, and the write waits. -/
def recordLaid (s : State) (r : OpenRecord) : State :=
  let lbas := (List.range r.nlb).map fun i => r.slba + i
  match extentFree s with
  | none => s.set Reg.jnlStatusIdxFull
  | some idx =>
    let s := recordEnter s r idx
    if r.flags.testBit 0 then creditSafe (s.addWrap Reg.jnlCounts0Twins 1) r.ns r.seq lbas else creditLaid s r.ns r.seq lbas

/-- A header sector laid: its fields (R262), and the payload that follows. -/
def creditHeader (s : State) (n : Nat) (p : Plank) (i : Nat) : State :=
  let su := headSurface s p.head
  let h := s.bytes (plankData s p i) 4096
  let at_ (o k : Nat) : Nat := leValue ((h.drop o).take k)
  match peatPlace s.sim.cfg su (p.psa + i) with
  | none => s
  | some (ring, slot) =>
    let r : OpenRecord := { head := p.head, surface := su, ring, slot, flags := at_ 6 1, ns := at_ 7 1, seq := at_ 8 8,
                            slba := at_ 0x10 5, nlb := at_ 0x18 4, payload := at_ 0x1C 2, left := at_ 0x1C 2 }
    if at_ 0 4 ≠ 0x48525051 ∨ crc32c (h.take 0xFFC) ≠ at_ 0xFFC 4 then s
    else if r.left = 0 then recordLaid s r
    else s.setJnl { s.jnl with open_ := s.jnl.open_.set n (some r) }

/-- A payload sector laid. -/
def creditPayload (s : State) (n : Nat) : State :=
  match s.jnl.open_.get n with
  | none => s
  | some r =>
    if r.left ≤ 1 then recordLaid (s.setJnl { s.jnl with open_ := s.jnl.open_.set n none }) r
    else s.setJnl { s.jnl with open_ := s.jnl.open_.set n (some { r with left := r.left - 1 }) }

/-- Sector `i` of a plank counted by what its metadata says it is. -/
def creditSector (s : State) (n : Nat) (p : Plank) (i : Nat) : State :=
  let internal := s.bytes (plankMeta p i) 32
  let k := internalKind internal
  if k = 0 ∨ k = 4 then creditData s n internal (p.param % 2 == 1)
  else if k = 1 then creditParity s n internal
  else if k = 2 then creditHeader s n p i
  else if k = 3 then creditPayload s n
  else s

/-! ## Write faults (R269, R270) -/

/-- A WRITE_FAULT counted against the write whose sector faulted: at basic level RETRIES faults in a row send it by the
journaled route, and RETRIES more end it with Write Fault. A twin record's fault leaves the primary alone (R281). -/
def faultCount (s : State) (act ns seq lba : Nat) : State :=
  match s.hst.cmds.find? fun c => c.isWrite && !c.done && c.seq == seq && c.ns == ns with
  | none => s
  | some c =>
    if expert s Reg.jnlModeLevel then s else
    let c := { c with faults := c.faults + 1 }
    if c.faults < s.rd Reg.jnlWfRetries then setCmd s c
    else if c.direct then
      setCmd s { c with direct := false, faults := 0, target := recordTarget s act (c.nlb + 1) }
    else
      let s := s.set Reg.jnlIrqStatusWriteFail
      cmdFail (setCmd s c) c stHostWriteFault lba

/-- A WRITE or PROBE plank ended with WRITE_FAULT at sector `i` (R269): on a band the restart is the first data slot of the
fault sector's group, after the preceding track has been read where the head squeezed it; the sectors of earlier groups of
the plank keep their credit. At basic level JNL clears the accumulator itself. -/
def faultRestart (s : State) (n : Nat) (p : Plank) (i : Nat) : State :=
  let internal := s.bytes (plankMeta p i) 32
  let k := internalKind internal
  let seq := leValue ((internal.drop 8).take 8)
  if k = 0 ∨ k = 1 then
    let zs := max s.sim.cfg.zoneSectors 1
    let lba := lbaTag internal
    let w := max 1 (s.sim.cfg.stripeG + s.sim.cfg.stripeP)
    let group := zoneSlot s (lba % zs) / w
    let squeezed := decide (signedOf 16 (s.rd (Reg.astWfSnap0PosErr.elem n)) ≤ -((s.rd Reg.jnlWfSqueeze : Nat) : Int))
    let s := if squeezed then s else
      s.each ((List.range i).filter fun j =>
        let m := s.bytes (plankMeta p j) 32
        internalKind m ≤ 1 && decide (zoneSlot s (lbaTag m % zs) / w < group)) fun s j => creditSector s n p j
    let ns := if k = 0 then internalNs internal else (s.jnl.group.get n).ns
    let s := s.bump Reg.jnlCounts0WfRestarts
    let s := s.setJnl { s.jnl with
      restart := s.jnl.restart.set n (some (ns, lba / zs, group * w, squeezed)), group := s.jnl.group.set n {} }
    let s := if expert s Reg.jnlModeLevel then s else
      ((s.setOce { s.oce with acc := s.oce.acc.set n {} }).clr (Reg.oceAccK.elem n)).clr (Reg.oceAccJ.elem n)
    faultCount s n ns seq lba
  else
    let r := s.jnl.open_.get n
    let s := s.setJnl { s.jnl with open_ := s.jnl.open_.set n none }
    let twin := match r with | some r => r.flags.testBit 0 | none => k == 2 && (nth 0 (s.bytes (plankData s p i) 7) 6).toNat.testBit 0
    if twin then s else faultCount s n (internalNs internal) seq (lbaTag internal)

/-- The end of a WRITE or PROBE plank as JNL sees it (R266, R269 to R271). -/
def jnlPlank (s : State) (n : Nat) (p : Plank) (status : Nat) (failFirst : Option Nat) : State :=
  if p.action ≠ actWrite then s else
  let s := if status = stOk then
      let s := s.setJnl { s.jnl with restart := s.jnl.restart.set n none }
      s.each (List.range p.count) fun s i => creditSector s n p i
    else if status = stWriteFault then faultRestart s n p (failFirst.getD 0)
    else s.setJnl { s.jnl with open_ := s.jnl.open_.set n none }
  writePump (foldPump s)

/-! ## Routes (R259) -/

/-- Whether the journal of an actuator is full for a record. -/
def journalFull (s : State) (act len : Nat) : Bool := (recordTarget s act len).isNone || (extentFree s).isNone

/-- The actuator that carries an LBA of a namespace: the one of its zone's surface, or the lowest of the namespace's. -/
def actOfLba (s : State) (ns lba : Nat) : Nat :=
  match zonePlace s ns (lba / max s.sim.cfg.zoneSectors 1) with
  | some (su, _, _, _) => if (s.headsOf 1).any fun h => headSurface s h == su then 1 else 0
  | none => match nsOf s ns with | some e => if e.actMask.testBit 0 then 0 else 1 | none => 0

/-- Peat slots of a write's record: its header and payload, at most 64 sectors in one record; zeros have none. -/
def recordLen (c : HostCmd) : Nat := if c.opc = 0x08 then 1 else min c.nlb 64 + 1

/-- The route JNL chooses at basic level: direct, journaled, or none while a conventional write waits for space. -/
def routeOf (s : State) (c : HostCmd) : Option Bool :=
  let full := journalFull s (actOfLba s c.ns (writeFirst c)) (recordLen c)
  if nsZoned s c.ns then
    some (c.opc == 0x7D || decide (s.rd Reg.jnlRouteSmallMax < c.nlb) || full)
  else if !c.twin then some true
  else if full then none
  else some false

/-! ## Power loss (R279) -/

/-- Each open group's accumulator saved. -/
def accSave (s : State) (n : Nat) : State :=
  let a := s.oce.acc.get n
  let g := s.jnl.group.get n
  let zs := max s.sim.cfg.zoneSectors 1
  let v : Option SavedAcc := match g.data with
    | d :: _ => if a.data.isEmpty then none else
        some { ns := g.ns, zone := d.2 / zs,
               group := zoneSlot s (d.2 % zs) / max 1 (s.sim.cfg.stripeG + s.sim.cfg.stripeP), acc := a }
    | [] => none
  s.setJnl { s.jnl with saved := s.jnl.saved.set n v }

/-- A zone is reset: its extents are freed without folding, and its band entry with them (R281, R302). -/
def jnlZoneReset (s : State) (ns zone : Nat) : State :=
  let zs := max s.sim.cfg.zoneSectors 1
  let s := s.each (s.jnl.extents.filter fun e => e.ns == ns && e.slba / zs == zone) fun s e => extentDrop s e 0
  s.setJnl { s.jnl with bands := s.jnl.bands.filter fun b => !(b.ns == ns && b.zone == zone) }

end Sys2Proof.Machine
end

