-- ==== Sys2Proof/Machine/Channel.lean ====
section
/-!
DEFINITION. Read channel and write path (spec/08_read_channel.md, R226 to R257; spec/05_boardwalk.md, R122, R127 to R129,
R133, R141 to R143; spec/07_assist_write.md, R214 to R216): the READ, WRITE and PROBE planks, sectors, decoding, soft
capture, and the crossover.
-/

namespace Sys2Proof.Machine

/-! ## Slots of a plank (R133) -/

/-- The first full angle at or after `a` whose tick index in the revolution is `t`. -/
def nextAt (a t : Nat) : Nat := if a % 2 ^ 21 ≤ t then a / 2 ^ 21 * 2 ^ 21 + t else (a / 2 ^ 21 + 1) * 2 ^ 21 + t

/-- The tick index in the revolution at which slot `i` of a plank begins. -/
def plankSlotTick (s : State) (p : Plank) (i : Nat) : Nat :=
  let pos := psaTrack p.psa
  slotStart s.sim.cfg (sectorsPerTrack s.sim.cfg (headSurface s p.head) pos) pos (psaSlot p.psa + i)

/-- The full angle at which sector `i` of a plank begun at `a` begins; `i` = COUNT names the boundary after the last. -/
def sectorStart (s : State) (p : Plank) (a : Nat) : Nat → Nat
  | 0 => nextAt a (plankSlotTick s p 0)
  | i + 1 => nextAt (sectorStart s p a i) (plankSlotTick s p (i + 1))

/-- The full angle of the boundary the sequencer of the running plank comes to next. -/
def nextBoundary (s : State) (n : Nat) (p : Plank) : Nat :=
  sectorStart s p (s.bwk.get n).run.beginAt (s.bwk.get n).sector

/-- Whether sector `i` of a plank is split by a servo field (R101). -/
def plankSplit (s : State) (p : Plank) (i : Nat) : Bool :=
  let pos := psaTrack p.psa
  slotSplit s.sim.cfg (sectorsPerTrack s.sim.cfg (headSurface s p.head) pos) pos (psaSlot p.psa + i)

/-- The run of the plank with ring slot `slot` on BWKn changed: the current one, or one that has ended. -/
def runUpdate (s : State) (n slot : Nat) (f : PlankRun → PlankRun) : State :=
  let b := s.bwk.get n
  if b.cur.any (fun p => p.slot == slot) && b.run.begun then s.setBwk n { b with run := f b.run }
  else s.setBwk n { b with done := b.done.map fun d => if d.plank.slot = slot then { d with run := f d.run } else d }

/-- The lowest failing index. -/
def failAt (r : PlankRun) (i : Nat) : PlankRun := { r with failFirst := some (min i (r.failFirst.getD i)) }

/-- A sector whose outcome is neither GOOD nor WRITTEN is noted in the current plank's run. -/
def runFail (s : State) (n i : Nat) : State :=
  let b := s.bwk.get n
  s.setBwk n { b with run := failAt b.run i }

/-! ## Profiles (R239) -/

/-- The basic profile table: PASS, WEIGHT, ADAPT, TIMING; VGA_OFS, MRA_OFS, EQ_SET, FAST_ITER; SYNC_TOL, as words. -/
def profileBasic (entry word : Nat) : Nat :=
  let w (a b : Nat) : Nat := if word = 0 then a else if word = 1 then b else if word = 2 then 0xFF else 0
  if entry = 1 then w 0x00112001 0x00FF0000
  else if entry = 2 then w 0x00001002 0x00FF0000
  else if entry = 3 then w 0x00003003 0x00FF0000
  else if entry = 4 then (if word = 2 then 0x34 else w 0x00002004 0x20000004)
  else if entry = 5 then w 0x01222005 0x20FF0000
  else if entry = 6 then w 0x00000006 0x20FF0000
  else if entry = 7 then w 0x00004007 0x20FF0000
  else w 0x00002000 0x00000000

/-- A word of the profile table in force: the basic table at basic level and where nothing else has been written. -/
def profileWord (s : State) (c i : Nat) : Word :=
  match Store.read none (s.chan.get c).prof i with
  | some w => if expert s (Reg.rdcModeLevel.elem c) then w else BitVec.ofNat 32 (profileBasic (i / 4) (i % 4))
  | none => BitVec.ofNat 32 (profileBasic (i / 4) (i % 4))

/-- A byte of a retry profile. -/
def profileByte (s : State) (c profile i : Nat) : Nat := fieldOf (profileWord s c (4 * profile + i / 4)) (8 * (i % 4)) 8

/-- A_TOL and B_TOL in force for a profile, A_TOL under LIMITS 0x0303 (R232, R239, R254). -/
def syncTols (s : State) (c profile : Nat) : Nat × Nat :=
  let t := profileByte s c profile 8
  if t = 0xFF then (s.rd (Reg.rdcSyncATol.elem c), s.rd (Reg.rdcSyncBTol.elem c))
  else (limitValue s 0x0303 (t % 16), t / 16)

/-- Iteration limit of a fast decode (R235, R239). -/
def fastIterLimit (s : State) (c profile : Nat) : Nat :=
  let i := profileByte s c profile 7
  if i = 0 then s.rd Reg.ldpFastCtlIter else min i 64

/-! ## Framing (R228 to R232) -/

/-- A looked-up count with a default. -/
def assocRead (d : Nat) : List (Nat × Nat) → Nat → Nat
  | [], _ => d
  | (k, v) :: rest, i => if k = i then v else assocRead d rest i

/-- The number of differing bits of two headers. -/
def headerDiff (a b : Nat) : Nat := (List.range 32).foldl (fun n i => n + bit (a.testBit i != b.testBit i)) 0

/-- How a slot is framed: not at all, or at a position with SLIP and A_MISS. -/
inductive Framing where
  | miss
  | at (a : Nat) (slip aMiss : Bool)
  deriving DecidableEq, Repr

/-- The frame of a slot by the rules of R232. -/
def frameOf (c : Structure) (pre winA winB aTol bTol hdrTol expected : Nat) (det : Detection) : Framing :=
  let aAt (i : Nat) : Bool := decide (assocRead 24 det.aDiff i ≤ aTol)
  let bAt (i : Nat) : Bool := decide (assocRead 16 det.bDiff i ≤ bTol)
  let dist := 24 + c.aToB
  let accepted (i : Nat) : Bool := decide (headerDiff (assocRead 0 det.headers i) expected ≤ hdrTol)
  let lo := max 96 (pre - winA)
  let window := (List.range (pre + winA + 1 - lo)).map fun i => lo + i
  match window.find? aAt with
  | some a =>
    if bAt (a + dist) then .at a false false
    else match ((List.range 13).map fun i => a + i).find?
        fun x => decide (6 ≤ x) && aAt (x - 6) && accepted (x - 6) && bAt (x - 6 + dist) with
      | some x => .at (x - 6) (decide (x - 6 ≠ a)) false
      | none => if accepted a then .at a false false
        else match ((List.range (2 * winB + 1)).map fun i => pre + dist + i).find? fun x => decide (winB ≤ x) && bAt (x - winB) with
          | some x => .at (x - winB - dist) false true
          | none => .miss
  | none =>
    match ((List.range (2 * winB + 1)).map fun i => pre + dist + i).find? fun x => decide (winB ≤ x) && bAt (x - winB) with
    | some x => .at (x - winB - dist) false true
    | none => .miss

/-- The longest defect of a slot in bits (R228): a drop of more than DROP_PCT percent over DROP_BITS consecutive bits begins
one, and it lasts until the envelope has been within RECOVER_PCT percent for RECOVER_BITS consecutive bits. It is counted
from the first bit of the drop to the last before that recovery (notes/assumptions/14.md). `low`: bits of the drop so far;
`up`: bits recovered so far. -/
def defectLength (dropPct dropBits recPct recBits : Nat) : List (Nat × Nat) → Nat → Nat → Bool → Nat → Nat
  | [], low, _, inDefect, best => if inDefect then max best low else best
  | (pct, bits) :: rest, low, up, inDefect, best =>
    if inDefect then
      if 100 ≤ pct + recPct then
        if recBits ≤ up + bits then defectLength dropPct dropBits recPct recBits rest 0 0 false (max best low)
        else defectLength dropPct dropBits recPct recBits rest low (up + bits) true best
      else defectLength dropPct dropBits recPct recBits rest (low + up + bits) 0 true best
    else if pct + dropPct < 100 then
      let low := low + bits
      defectLength dropPct dropBits recPct recBits rest low 0 (decide (dropBits ≤ low)) best
    else defectLength dropPct dropBits recPct recBits rest 0 0 false best

/-! ## Soft capture (R237, R238) -/

/-- The address of a capture slot of BWKn. -/
def captureAt (s : State) (n slot pass : Nat) : Nat :=
  s.rd (Reg.ldpSoftLoAddr.elem n) * 4096 + 2 ^ 32 * s.rd (Reg.ldpSoftHiAddr.elem n) + (slot % 64 * 8 + pass) * 20480

/-- Whether a sector of a READ plank is captured. -/
def capturing (s : State) (n : Nat) (p : Plank) : Bool :=
  s.flag (Reg.ldpSoftLoEn.elem n) && p.param.testBit 8

/-- The 4-bit code of an LLR: clamp(round(LLR / SCALE), −7, +7); which way a half rounds is not stated, so it is free. -/
def llrCode (s : State) (scale : Nat) (x : Int) : Int × State :=
  let (q, s) := roundNear s x (max scale 1)
  (clampInt (-7) 7 q, s)

/-- The codes of a codeword, and the state after their roundings. -/
def llrCodes (s : State) (scale : Nat) : List Int → List Int × State
  | [] => ([], s)
  | x :: xs =>
    let (q, s) := llrCode s scale x
    let (qs, s) := llrCodes s scale xs
    (q :: qs, s)

/-- Two 4-bit codes in each byte, the even-numbered bit low. -/
def nibbles : List Int → List Byte
  | [] => []
  | [a] => [BitVec.ofNat 8 (toBits 4 a)]
  | a :: b :: rest => BitVec.ofNat 8 (toBits 4 a + 16 * toBits 4 b) :: nibbles rest

/-- A capture header (R238). -/
def captureHeader (s : State) (valid sstat : Nat) (p : Plank) (slot angle : Nat) : List Byte :=
  let c := s.sim.cfg
  [BitVec.ofNat 8 valid, BitVec.ofNat 8 c.ldpcCode, BitVec.ofNat 8 c.mediumPi, BitVec.ofNat 8 sstat]
  ++ leBytes 4 (psaTrack p.psa * 2 ^ 12 + slot) ++ [BitVec.ofNat 8 p.head, BitVec.ofNat 8 (p.param % 256), 0, 0]
  ++ leBytes 4 (angleWord angle) ++ leBytes 4 (ldpcBits c.ldpcCode c.mediumPi) ++ List.replicate 44 0

/-- The mean of captured magnitudes that AGE collects per cell (R397). -/
def ageSoft (s : State) (head slotPos : Nat) (codes : List Int) : State :=
  match regionAt s.sim.cfg (headSurface s head) slotPos with
  | none => s
  | some r =>
    let k := head * 32 + r.region
    let old := Store.read (0, 0) s.age.soft k
    let new := (old.1 + codes.foldl (fun n q => n + q.natAbs) 0, old.2 + codes.length)
    s.setAge { s.age with soft := Store.write (0, 0) s.age.soft k new }

/-- A codeword's capture written, VALID last (R237, R238). -/
def captureWord (s : State) (w : Codeword) (sstat : Nat) : State :=
  if !capturing s w.bwk w.plank then s else
  let slot := psaSlot w.plank.psa + w.idx
  let a := captureAt s w.bwk slot w.pass
  let (codes, s) := llrCodes s (s.rd (Reg.rdcLlrScale.elem (chanOf s w.bwk))) w.llrs
  let s := ageSoft s w.plank.head (psaTrack w.plank.psa) codes
  s.store a (captureHeader s 1 sstat w.plank slot w.angle ++ nibbles codes)

/-! ## Outcomes of decoding (R235, R236) -/

/-- Occupied buffers of the fast decoders shown (R256). -/
def bufsShow (s : State) : State :=
  let use_ (d : Nat) : Nat := (s.ldp.words.filter fun w => w.decoder == d).length
  (s.wr Reg.ldpStatusFast0Bufs (use_ 0)).wr Reg.ldpStatusFast1Bufs (use_ 1)

/-- What AGE counts per cell of each outcome (R397): a sector read, and the ITER bin of a GOOD one, all bins halved together
when one would pass 65,535. -/
def ageSector (s : State) (p : Plank) (iter : Nat) (good : Bool) : State :=
  match regionAt s.sim.cfg (headSurface s p.head) (psaTrack p.psa) with
  | none => s
  | some r =>
    let k := p.head * 32 + r.region
    let a := { s.age with sectors := Store.write 0 s.age.sectors k (Store.read 0 s.age.sectors k + 1) }
    if !good then s.setAge a else
    let b := k * 16 + min (iter / 4) 15
    let full := decide (65535 ≤ Store.read 0 a.iterHist b)
    let halve (h : Store Nat) (i : Nat) : Store Nat := Store.write 0 h (k * 16 + i) (Store.read 0 h (k * 16 + i) / 2)
    let h := if full then (List.range 16).foldl halve a.iterHist else a.iterHist
    s.setAge { a with iterHist := Store.write 0 h b (Store.read 0 h b + 1) }

/-- The outcome of a codeword is final: its buffer frees, the sector is stored and its OUTCOME written, the capture is made,
and the plank's result counts it. -/
def wordFinal (s : State) (w : Codeword) (sstat iter unsat : Nat) (user block : List Byte) : State :=
  let p := w.plank
  let s := sectorStore s (plankData s p w.idx) (plankMeta p w.idx) sstat user block
  let s := writeOutcome s p w.idx sstat w.events iter (min unsat 65535 + 2 ^ 16 * min w.drop 65535)
  let s := captureWord s w sstat
  let s := ageSector s p iter (sstat == ssGood)
  let s := runUpdate s w.bwk p.slot fun r =>
    let r := { r with openReads := r.openReads - 1, iterMax := max r.iterMax iter
                      good := r.good + bit (sstat == ssGood), decFail := r.decFail + bit (sstat == ssDecodeFail) }
    if sstat = ssGood then r else failAt r w.idx
  let s := pmuEvent (pmuEvent s 4 1 none none 1) 4 2 none none iter
  let s := s.when (sstat == ssDecodeFail) fun s => pmuEvent s 4 3 none none 1
  bufsShow (s.when (sstat == ssGood) fun s => pmuEvent s 1 3 (some w.bwk) none 1)

/-- Codeword `k` leaves its buffer. -/
def wordTake (s : State) (k : Nat) : Option (Codeword × State) :=
  match s.ldp.words[k]? with
  | none => none
  | some w => some (w, s.setLdp { s.ldp with words := s.ldp.words.eraseIdx k })

/-- A codeword ends DECODE_FAIL. -/
def wordFail (s : State) (w : Codeword) (iter unsat : Nat) (block : List Byte) : State :=
  wordFinal s w ssDecodeFail iter unsat [] block

/-- A codeword cut by the hardware at a time of its own: how far decoding had come is not stated, so it is free. -/
def wordCutFree (s : State) (w : Codeword) : State :=
  let (i, s) := s.takeFree
  let (u, s) := s.takeFree
  let (v, s) := s.takeFree
  pmuEvent (wordFail s w (i % (w.iterMax + 1)) (u % 65536) (leBytes 4136 v)) 4 5 none none 1

/-- FAST_DECODE_DONE (R235, R236): decoding stops on a zero syndrome or at the iteration limit. -/
def execFastDecodeDone (k iter unsat : Nat) (block : List Byte) (s : State) : Host.Outcome State Fault Refusal :=
  match wordTake s k with
  | none => .next s
  | some (w, s') =>
    if w.iterMax < iter ∨ (unsat ≠ 0 ∧ iter ≠ w.iterMax) then .next s
    else if unsat ≠ 0 then .next (wordFail s' w iter unsat block)
    else
      let m := plankMeta w.plank w.idx
      let (st, user) := blockCheck s' block (s'.loadNat (m + 0x36) 1 % 2 == 1) (s'.loadNat (m + 0x30) 5) (s'.loadNat (m + 0x35) 1)
      let s' := sectorCount s' (internalKey ((padBytes 4136 block).drop 4104))
      .next (wordFinal s' w st iter 0 user block)

/-- DECODE_DEADLINE_CUT (R235): a codeword unconverged at its deadline is cut. -/
def execDecodeDeadlineCut (k iter unsat : Nat) (block : List Byte) (s : State) : Host.Outcome State Fault Refusal :=
  match wordTake s k with
  | none => .next s
  | some (w, s') =>
    if unsat = 0 ∨ w.iterMax < iter then .next s else
    let s' := (s'.bump Reg.ldpCounts0DeadlineCuts).set Reg.ldpIrqStatusCut
    .next (pmuEvent (wordFail s' w iter unsat block) 4 5 none none 1)

/-- Every codeword of a decoder ends DECODE_FAIL. -/
def decoderDrop (s : State) (d : Nat) : Nat → State
  | 0 => s
  | fuel + 1 =>
    match s.ldp.words.findIdx? fun w => w.decoder == d with
    | none => s
    | some k => match wordTake s k with
      | none => s
      | some (w, s) => decoderDrop (wordCutFree s w) d fuel

/-- FAST_DECODER_CHECK_FAIL (R251, R368): the decoder is unit-fatal, its codewords end DECODE_FAIL, and the survivor is home
for both channels. -/
def execFastDecoderCheckFail (d : Nat) (s : State) : Host.Outcome State Fault Refusal :=
  if 2 ≤ d ∨ !s.serving (bitFast d) then .next s else
  let s := decoderDrop s d s.ldp.words.length
  .next (unitFatal s (bitFast d) srcLdp d 0x0054 0)

/-- READ_RESULT_WRITE (R236): the result of the oldest ended READ, once every outcome is final, and those behind it. -/
def execReadResultWrite (n : Nat) (s : State) : Host.Outcome State Fault Refusal :=
  match (s.bwk.get n).done with
  | [] => .next s
  | d :: rest =>
    if !d.run.reading || d.run.openReads != 0 then .next s
    else .next (doneFlush (doneWrite (s.setBwk n { s.bwk.get n with done := rest }) n d) n 19)

/-! ## READ (R122, R229) -/

/-- Every sector of a plank has SSTAT NOT_REACHED until it is reached (R143, notes/assumptions/15.md). -/
def outcomesClear (s : State) (p : Plank) : State :=
  s.each (List.range p.count) fun s i => writeOutcome s p i ssNotReached 0 0 0

/-- PLANK_READ (R122, R133): the read gate opens at the begin. -/
def execPlankRead (n full : Nat) (s : State) : Host.Outcome State Fault Refusal :=
  match bwkBegin s n actRead full with
  | .notYet s => .next s
  | .ended s => .next s
  | .begun s p =>
    let b := s.bwk.get n
    let s := s.setBwk n { b with run := { b.run with reading := true } }
    .next ((outcomesClear s p).wr (Reg.rdcStatusPhase.elem (chanOf s n)) 1)

/-- The plank moves to its next sector, and ends where that was the last, or where a status waits for the boundary. -/
def sectorNext (s : State) (n : Nat) (p : Plank) : State :=
  let b := s.bwk.get n
  let b := { b with sector := b.sector + 1, run := { b.run with done := b.run.done + 1 } }
  let s := s.setBwk n b
  if p.count ≤ b.sector then plankEnd s n (b.run.endWith.getD stOk) (nextBoundary s n p)
  else match b.run.endWith with
    | some st => plankEnd s n st (nextBoundary s n p)
    | none => s

/-- A READ sector whose outcome is final without a codeword: SYNC_MISS or HDR_MISMATCH (R231, R232, R237). -/
def sectorNoWord (s : State) (n : Nat) (p : Plank) (i pass sstat events drop angle : Nat) : State :=
  let s := writeOutcome s p i sstat events 0 (2 ^ 16 * min drop 65535)
  let s := if capturing s n p then
      s.store (captureAt s n (psaSlot p.psa + i) pass) (captureHeader s 0 sstat p (psaSlot p.psa + i) angle) else s
  runFail s n i

/-- The decoder that takes a codeword of channel `c`: its home, or the other where the home has no free buffer (R235); none
where neither has one. -/
def decoderFor (s : State) (c : Nat) : Nat × Option Nat :=
  let home := if s.serving (bitFast c) then c else 1 - c
  let free (d : Nat) : Bool := s.serving (bitFast d) && decide ((s.ldp.words.filter fun w => w.decoder == d).length < 4)
  (home, if free home then some home else if free (1 - home) then some (1 - home) else none)

/-- A codeword joins a decoder's buffers; with no buffer free the oldest of the home decoder is cut (R235). -/
def wordJoin (s : State) (c : Nat) (w : Codeword) : State :=
  let (home, d) := decoderFor s c
  let (s, d) := match d with
    | some d => (s, d)
    | none =>
      let s := (s.bump Reg.ldpCounts0BufCuts).set Reg.ldpIrqStatusCut
      match s.ldp.words.findIdx? fun (v : Codeword) => v.decoder == home with
      | none => (s, home)
      | some k => match wordTake s k with
        | none => (s, home)
        | some (v, s) => (wordCutFree s v, home)
  let s := s.setLdp { s.ldp with words := s.ldp.words ++ [{ w with decoder := d }] }
  bufsShow (runUpdate s w.bwk w.plank.slot fun r => { r with openReads := r.openReads + 1 })

/-- READ_SECTOR (R229 to R233): one slot of the running READ plank from its start to its end boundary. -/
def execReadSector (n full : Nat) (det : Detection) (s : State) : Host.Outcome State Fault Refusal :=
  match runningPlank s n actRead with
  | none => .next s
  | some p =>
    let i := (s.bwk.get n).sector
    let at_ := nextBoundary s n p
    if frameAngle s p.head full < at_ ∨ p.count ≤ i then .next s else
    let c := chanOf s n
    let cfg := s.sim.cfg
    let surface := headSurface s p.head
    let pos := psaTrack p.psa
    let profile := p.param % 256
    let pass := profileByte s c profile 0 % 8
    let drop := defectLength (s.rd (Reg.rdcDefectDropPct.elem c)) (s.rd (Reg.rdcDefectDropBits.elem c))
      (s.rd (Reg.rdcDefectRecoverPct.elem c)) (s.rd (Reg.rdcDefectRecoverBits.elem c)) det.envelope 0 0 false 0
    let defect := drop != 0
    let split := plankSplit s p i
    let tols := syncTols s c profile
    let expected := frameHeader (psaSlot p.psa + i) pos
    let hdrTol := s.rd (Reg.rdcSyncHdrTol.elem c)
    let fr := frameOf cfg (preambleBits cfg surface pos) (s.rd (Reg.rdcSyncWinA.elem c)) (s.rd (Reg.rdcSyncWinB.elem c))
      tols.1 tols.2 hdrTol expected det
    let s := s.when defect fun s =>
      let s := (s.bump (Reg.rdcCounts1Defect.elem c)).set (Reg.rdcIrqStatusDefect.elem c)
      runUpdate (pmuEvent s 3 5 (some c) none 1) n p.slot fun r => { r with defects := r.defects + 1 }
    let s := match det.envelope.getLast? with
      | some e => s.wr (Reg.rdcStatusEnvelope.elem c) (min e.1 255)
      | none => s
    let s := s.wr (Reg.rdcStatusPhase.elem c) 6
    let base := 4 * bit defect + 8 * bit split
    match fr with
    | .miss =>
      let s := (s.bump (Reg.rdcCounts1SyncMiss.elem c)).set (Reg.rdcIrqStatusSyncMiss.elem c)
      let s := runUpdate (pmuEvent s 3 4 (some c) none 1) n p.slot fun r => { r with syncMiss := r.syncMiss + 1 }
      .next (sectorNext (sectorNoWord s n p i pass ssSyncMiss base drop at_) n p)
    | .at a slip aMiss =>
      let events := base + bit aMiss + 2 * bit slip
      let s := s.when slip fun s => pmuEvent (s.bump (Reg.rdcCounts0Slip.elem c)) 3 3 (some c) none 1
      let s := s.when aMiss fun s => pmuEvent (s.bump (Reg.rdcCounts0AMiss.elem c)) 3 2 (some c) none 1
      let s := runUpdate (pmuEvent s 3 1 (some c) none 1) n p.slot fun r =>
        { r with slips := r.slips + bit slip, aMiss := r.aMiss + bit aMiss }
      if hdrTol < headerDiff (assocRead 0 det.headers a) expected then
        let s := s.bump (Reg.rdcCounts2HdrMismatch.elem c)
        let s := runUpdate s n p.slot fun r => { r with hdr := r.hdr + 1 }
        .next (sectorNext (sectorNoWord s n p i pass ssHdrMismatch events drop at_) n p)
      else
        let w : Codeword := { bwk := n, plank := p, idx := i, angle := at_, events, drop, decoder := c,
                              iterMax := fastIterLimit s c profile, pass, llrs := det.llrs }
        .next (sectorNext (wordJoin s c w) n p)

/-! ## WRITE and PROBE (R129, R141 to R143, R245) -/

/-- PLANK_WRITE (R122, R210): at basic level the assist ramps at the begin unless a PREHEAT of the chain holds it. -/
def execPlankWrite (n full : Nat) (s : State) : Host.Outcome State Fault Refusal :=
  match bwkBegin s n actWrite full with
  | .notYet s => .next s
  | .ended s => .next s
  | .begun s p =>
    let s := outcomesClear s p
    let s := s.setAst n { s.ast.get n with snapped := false }
    .next (if expert s (Reg.bwkModeLevel.elem n) then s else astRampStart s n)

/-- PLANK_PROBE (R215): a WRITE with the target offset OFF; CAL collects its setpoints (R396). -/
def execPlankProbe (n full : Nat) (s : State) : Host.Outcome State Fault Refusal :=
  match bwkBegin s n actProbe full with
  | .notYet s => .next s
  | .ended s => .next s
  | .begun s p =>
    let s := outcomesClear s p
    let s := s.setAst n { s.ast.get n with snapped := false, probeOff := signedOf 4 (p.param / 16) }
    let s := s.setCal { s.cal with probeAcc := s.cal.probeAcc.set n (0, 0) }
    .next (if expert s (Reg.bwkModeLevel.elem n) then s else astRampStart s n)

/-- The K and J of accumulator `n` shown, and their values after a sector. -/
def accShow (s : State) (n : Nat) (a : OceAcc) : State :=
  ((s.setOce { s.oce with acc := s.oce.acc.set n a }).wr (Reg.oceAccK.elem n) a.data.length).wr (Reg.oceAccJ.elem n) a.j

/-- An ACCUM sector ends WRITTEN (R245): K or J advances, and the group is sealed when J reaches P. -/
def accAdvance (s : State) (n : Nat) (o : SectorOut) : State :=
  let a := s.oce.acc.get n
  if !o.accum then s
  else if o.kind = 0 then accShow s n { a with data := a.data ++ [o.stored] }
  else if s.sim.cfg.stripeP ≤ a.j + 1 then (accShow s n {}).addWrap Reg.oceCountsSeals 1
  else accShow s n { a with j := a.j + 1 }

/-- The sector in progress ends WRITTEN at its end boundary. -/
def sectorWritten (s : State) (n : Nat) (p : Plank) (i : Nat) : State :=
  let b := s.bwk.get n
  match b.out with
  | none => s
  | some o =>
    let s := writeOutcome s p i ssWritten 0 0 0
    let s := accAdvance s n o
    let s := wreqLow s n
    let b := s.bwk.get n
    pmuEvent (s.setBwk n { b with out := none, run := { b.run with done := b.run.done + 1, good := b.run.good + 1 } })
      1 2 (some n) none 1

/-- The media work of a WRITE or PROBE plank is over: the assist ramps down at basic level, the chain's preheat ends, and
CAL takes the probe's mean setpoint (R122, R210, R396), and JNL counts what is laid (R266). -/
def writeEnd (s : State) (n : Nat) (p : Plank) (status at_ : Nat) : State :=
  let s := if p.action = actProbe then
      let acc := s.cal.probeAcc.get n
      let s := s.setAst n { s.ast.get n with probeOff := 0 }
      if acc.2 = 0 ∨ status ≠ stOk then s else
      s.setCal { s.cal with
          probeU := Store.write 0 s.cal.probeU (p.head * 8 + (s.ast.get n).band) (acc.1 / acc.2) }
    else s
  let s := if expert s (Reg.bwkModeLevel.elem n) && !(s.bwk.get n).preheated then s else astDownEvent s n
  let fail := (s.bwk.get n).run.failFirst
  jnlPlank (plankEnd (s.setBwk n { s.bwk.get n with preheated := false }) n status at_) n p status fail

/-- Whether any word of the user bytes or the metadata of a sector is poisoned (R129). -/
def sectorPoisoned (s : State) (p : Plank) (i : Nat) : Bool :=
  s.poisoned (plankData s p i) 4096 || s.poisoned (plankMeta p i) 64

/-- The sector a WRITE or PROBE plank is about to write (R104, R105, R245): what goes to the medium, whether OCE takes it,
and its codeword. A parity sector of an ACCUM plank carries parity J of the data taken so far, with a fresh CRC. -/
def sectorOut (s : State) (n : Nat) (p : Plank) (i : Nat) : SectorOut × List Bool × Bool :=
  let cfg := s.sim.cfg
  let user := s.bytes (plankData s p i) 4096
  let internal := s.bytes (plankMeta p i) 32
  let pi := if cfg.mediumPi = 8 then s.bytes (plankMeta p i + 0x20) 8 else []
  let kind := internalKind internal
  let a := s.oce.acc.get n
  let acc := p.action == actWrite && p.param % 2 == 1
  let order := acc && kind == 0 && !(a.j == 0 && decide (a.data.length < cfg.stripeG))
  let parity := acc && kind == 1
  let stored := if parity then nth (List.replicate 4096 0) (groupParity cfg.stripeG cfg.stripeP a.data) a.j
    else sectorEncrypt s (internalKey internal) (lbaTag internal) user
  let internal := if parity then withCrc stored pi internal else internal
  let body := if p.action = actProbe ∧ p.param % 16 ≠ 0 then
      probePattern (p.param % 16) (ldpcBits cfg.ldpcCode cfg.mediumPi)
    else ldpcEncode cfg.ldpcCode cfg.mediumPi (infoBlock stored pi internal)
  ({ stored, kind, key := internalKey internal, accum := acc && ((kind == 0 && !order) || kind == 1) }, body, order)

/-- The next sector of a WRITE or PROBE plank begins at its slot start (R129, R142, R143): a poisoned buffer ends the plank
there, a low flag makes it the fault sector, and otherwise the write request rises and the frame is emitted. -/
def sectorBegin (s : State) (n : Nat) (p : Plank) (i at_ : Nat) : State :=
  if sectorPoisoned s p i then
    let s := (writeOutcome s p i ssBufPoison 0 0 0).bump Reg.cryCounts1Poison
    writeEnd (runFail s n i) n p stBufPoison at_
  else if lowFlags s n ≠ 0 ∨ (s.bwk.get n).gateDown then
    let s := writeOutcome s p i ssWriteFault 0 0 0
    let b := (runFail s n i).bwk.get n
    s.setBwk n { b with run := { b.run with gateCause := b.run.gateCause ||| lowFlags s n, endWith := some stWriteFault } }
  else
    let (o, body, order) := sectorOut s n p i
    let s := s.when order fun s => (s.set (Reg.oceAccOrderErr.elem n)).set Reg.oceIrqStatusOrderErr
    let s := if p.action = actProbe ∧ p.param % 16 ≠ 0 ∨ o.kind = 1 then s
      else sectorCount s (internalKey (s.bytes (plankMeta p i) 32))
    let c := chanOf s n
    let frame := sectorFrame s.sim.cfg (headSurface s p.head) (psaSlot p.psa + i) (psaTrack p.psa) body
    let s := s.setChan c { s.chan.get c with frame }
    let s := s.setBwk n { s.bwk.get n with out := some o }
    gateRefresh (s.set (Reg.bwkStatusWreq.elem n)) n

/-- WRITE_SECTOR (R133, R142): at a slot boundary of a running WRITE or PROBE plank the sector in progress ends WRITTEN, and
the next one begins, or the plank ends. -/
def execWriteSector (n full : Nat) (s : State) : Host.Outcome State Fault Refusal :=
  match (runningPlank s n actWrite).or (runningPlank s n actProbe) with
  | none => .next s
  | some p =>
    let b := s.bwk.get n
    let at_ := nextBoundary s n p
    if frameAngle s p.head full < at_ then .next s else
    let s := if b.sector = 0 then s else sectorWritten s n p (b.sector - 1)
    match b.run.endWith with
    | some st => .next (writeEnd s n p st at_)
    | none =>
      if p.count ≤ b.sector then .next (writeEnd s n p stOk at_)
      else .next (sectorBegin (s.setBwk n { s.bwk.get n with sector := b.sector + 1 }) n p b.sector at_)

/-- The write-fault snapshot at the first gate fall of a plank (R216). -/
def faultSnapshot (s : State) (n : Nat) (p : Plank) (full : Nat) : State :=
  if (s.ast.get n).snapped then s else
  let s := s.setAst n { s.ast.get n with snapped := true }
  let s := s.wr (Reg.astWfAngleAngle.elem n) (angleWord (frameAngle s p.head full))
  let s := s.wr (Reg.astWfSnap0PosErr.elem n) (toBits 16 (satInt 16 ((s.srv.get n).pos - srvTarget s n)))
  let s := s.wr (Reg.astWfSnap0Proxy.elem n) (s.rd (Reg.astProxyProxy.elem n))
  let s := s.wr (Reg.astWfSnap1GateCause.elem n) (s.bwk.get n).run.gateCause
  let s := s.wr (Reg.astWfSnap1Head.elem n) (paSelect s p.head)
  s.wr (Reg.astWfSnap1Iset.elem n) (s.rd (Reg.astSetpointIset.elem n))

/-- The sector being written becomes the fault sector (R143): its codeword bits are noted, and the plank ends WRITE_FAULT at
the boundary after it, or with another status where one is given. -/
def faultSector (s : State) (n : Nat) (p : Plank) (full bits status : Nat) : State :=
  let b := s.bwk.get n
  match b.out with
  | none => s
  | some _ =>
    let s := faultSnapshot s n p full
    let s := writeOutcome s p (b.sector - 1) ssWriteFault 0 0 bits
    let s := runFail s n (b.sector - 1)
    let b := s.bwk.get n
    wreqLow (s.setBwk n { b with out := none, gateDown := true, run := { b.run with endWith := some status } }) n

/-- WRITE_GATE_FALL (R141, R143, R216): a flag has fallen while a sector is being written. -/
def execWriteGateFall (n full bits : Nat) (s : State) : Host.Outcome State Fault Refusal :=
  match (runningPlank s n actWrite).or (runningPlank s n actProbe) with
  | none => .next s
  | some p =>
    if lowFlags s n = 0 ∧ !(s.bwk.get n).gateDown then .next s else
    let b := s.bwk.get n
    let s := s.setBwk n { b with run := { b.run with gateCause := b.run.gateCause ||| lowFlags s n } }
    .next (faultSector s n p full bits stWriteFault)

/-! ## The crossover and the channel's own faults (R249, R373) -/

/-- CHANNEL_GRANT (R249, R251): a free channel is granted to a waiting sequencer, the one not granted last where both wait;
R131 judges its plank, which gives the channel back where it slips. -/
def execChannelGrant (c full : Nat) (s : State) : Host.Outcome State Fault Refusal :=
  let v := s.chan.get c
  if v.unlocked ∨ v.granted ≠ none then .next s else
  match (v.waiting.find? fun m => m != v.last).or v.waiting.head? with
  | none => .next s
  | some n =>
    let s := chanGrant s n
    match (s.bwk.get n).cur with
    | none => .next (chanRelease s n)
    | some p =>
      let now := frameAngle s p.head full
      let s := bwkJudge s n now
      .next (match (s.bwk.get n).cur with
        | some q => if now < q.target then chanRelease s n else s
        | none => s)

/-- The later sectors of a READ plank whose frame has not been taken end SYNC_MISS (R373). -/
def readSyncMissRest (s : State) (n : Nat) (p : Plank) (from_ : Nat) : State :=
  s.each ((List.range p.count).filter fun i => decide (from_ ≤ i)) fun s i =>
    let s := sectorNoWord s n p i (profileByte s (chanOf s n) (p.param % 256) 0 % 8) ssSyncMiss 0 0
      (sectorStart s p (s.bwk.get n).run.beginAt i)
    runUpdate s n p.slot fun r => { r with done := r.done + 1, syncMiss := r.syncMiss + 1 }

/-- CHANNEL_LOCK_LOSS (R373): the write request falls and the sectors in progress end. -/
def execChannelLockLoss (c bits : Nat) (inDet : Bool) (s : State) : Host.Outcome State Fault Refusal :=
  let s := contained s (srcRdc c) c 0x0052 0
  let s := s.setChan c { s.chan.get c with unlocked := true }
  match (s.chan.get c).granted with
  | none => .next s
  | some n =>
    match (runningPlank s n actWrite).or (runningPlank s n actProbe) with
    | some p =>
      let s := if (s.bwk.get n).out.isSome then faultSector s n p s.fullAngle bits stWriteFault else wreqLow s n
      .next s
    | none =>
      match runningPlank s n actRead with
      | none => .next s
      | some p =>
        let i := (s.bwk.get n).sector
        let hit := inDet && decide (i < p.count)
        let s := if hit then
            let s := scribble (writeOutcome s p i ssDecodeFail 0 0 0) (plankData s p i) 4096
            runUpdate (runFail s n i) n p.slot fun r => { r with done := r.done + 1, decFail := r.decFail + 1 }
          else s
        let s := readSyncMissRest s n p (i + bit hit)
        .next (plankEnd s n stOk (sectorStart s p (s.bwk.get n).run.beginAt p.count))

/-- CHANNEL_RELOCK (R373). -/
def execChannelRelock (c : Nat) (s : State) : Host.Outcome State Fault Refusal :=
  .next (s.setChan c { s.chan.get c with unlocked := false })

/-- CHANNEL_RELOCK_TIMEOUT (R373): the channel has not relocked, or has lost lock too often. -/
def execChannelRelockTimeout (c : Nat) (s : State) : Host.Outcome State Fault Refusal :=
  .next (if (s.chan.get c).unlocked ∧ c < 2 then unitFatal s (bitRdc c) (srcRdc c) c 0x0053 0 else s)

/-! ## Staged expert writes (R252, R255) -/

/-- A channel is at a plank gap: it holds no transfer plank. -/
def chanGap (s : State) (c : Nat) : Bool := (s.chan.get c).granted.isNone

/-- RDC_STAGED_APPLY (R252): staged values take effect at the plank gap. -/
def execRdcStagedApply (c : Nat) (s : State) : Host.Outcome State Fault Refusal :=
  let v := s.chan.get c
  if !chanGap s c || (v.profPend.isEmpty && v.eqPend.isEmpty && v.regPend.isEmpty) then .next s else
  let put (m l : Store (Option Word)) : Store (Option Word) := l.foldl (fun m e => Store.write none m e.1 e.2) m
  let s := v.regPend.foldl (fun s e => match e.2 with | some w => s.wrWord e.1 w | none => s) s
  let s := s.setChan c { v with prof := put v.prof v.profPend, profPend := [], eq := put v.eq v.eqPend, eqPend := []
                                regPend := [] }
  .next ((s.clr (Reg.rdcStatusStaged.elem c)).set (Reg.rdcIrqStatusStagedApplied.elem c))

/-- RDC_PROF_DATA_ACCESS (R255): the profile word at WORD read, or staged at expert level and ignored at basic level; each
access increments WORD. -/
def execRdcProfDataAccess (c : Nat) (write : Option Word) (s : State) : Host.Outcome State Fault Refusal :=
  gatedAccess s (7 + c) <|
  let i := s.rd (Reg.rdcProfIdxWord.elem c)
  let step (s : State) : State := s.wr (Reg.rdcProfIdxWord.elem c) ((i + 1) % 1024)
  match write with
  | none => .next ((step s).answer (profileWord s c i).toNat)
  | some w =>
    if expert s (Reg.rdcModeLevel.elem c) then
      let v := s.chan.get c
      let s := (s.setChan c { v with profPend := Store.write none v.profPend i (some w) }).set (Reg.rdcStatusStaged.elem c)
      .next ((step s).answer 0)
    else
      let s := expertIgnored s (Reg.rdcModeExpertWrIgnored.elem c) (w != profileWord s c i)
      .next ((step s).answer 0)

/-- The equalizer start tap in force: tap 7 is 0x4000 and the others 0 where none has been written (R253). -/
def eqTap (s : State) (c i : Nat) : Word := (Store.read none (s.chan.get c).eq i).getD (if i % 16 = 7 then 0x4000 else 0)

/-- RDC_EQ_DATA_ACCESS (R255). -/
def execRdcEqDataAccess (c : Nat) (write : Option Word) (s : State) : Host.Outcome State Fault Refusal :=
  gatedAccess s (7 + c) <|
  let i := s.rd (Reg.rdcEqIdxTap.elem c)
  let step (s : State) : State := s.wr (Reg.rdcEqIdxTap.elem c) ((i + 1) % 256)
  match write with
  | none => .next ((step s).answer (eqTap s c i).toNat)
  | some w =>
    let w := BitVec.ofNat 32 (fieldOf w 0 16)
    if expert s (Reg.rdcModeLevel.elem c) then
      let v := s.chan.get c
      let s := (s.setChan c { v with eqPend := Store.write none v.eqPend i (some w) }).set (Reg.rdcStatusStaged.elem c)
      .next ((step s).answer 0)
    else
      let s := expertIgnored s (Reg.rdcModeExpertWrIgnored.elem c) (w != eqTap s c i)
      .next ((step s).answer 0)

end Sys2Proof.Machine
end

