-- ==== Sys2Proof/Machine/Outer.lean ====
section
/-!
DEFINITION. Deep jobs and the outer code (spec/08_read_channel.md, R241 to R248): the jobs of the LDP and OCE rings and the
clearing of an accumulator.
-/

namespace Sys2Proof.Machine

/-! ## Deep jobs (R241 to R243) -/

/-- Whether an entry of an engine that takes only chains of one has both FIRST and LAST (R327). -/
def chainOfOne (n : Nat) (e : RingEntry) : Bool := entryFirst n e && entryLast n e

/-- A deep job is well formed (R241, R328): its operation, its reserved fields, its buffer. -/
def deepOk (s : State) (e : RingEntry) : Bool :=
  !e.bad && e.at 0 1 == 1 && chainOfOne 2 e && e.at 1 1 / 8 == 0 && decide (e.at 2 1 < 2) && decide (e.at 3 1 < 64)
  && e.at 0x16 8 == 0 && e.at 0x1E 2 == 0 && bufOk s (e.at 8 8) && s.serving bitDeep

/-- The address of the capture of pass `k` that a job names. -/
def deepCapture (s : State) (e : RingEntry) (k : Nat) : Nat := captureAt s (e.at 2 1 % 2) (e.at 3 1) k

/-- PSA, CODE and PI of a capture. -/
def captureKey (s : State) (a : Nat) : Nat × Nat × Nat := (s.loadNat (a + 4) 4, s.loadNat (a + 1) 1, s.loadNat (a + 2) 1)

/-- The captures that a job combines (R242): VALID and alike the first VALID one, at basic level at most MAX_CAPS. -/
def deepUsed (s : State) (e : RingEntry) : List Nat :=
  let valid := (bitList 8 (e.at 4 1)).filter fun k => s.loadNat (deepCapture s e k) 1 == 1
  match valid with
  | [] => []
  | k :: _ =>
    let same := valid.filter fun j => captureKey s (deepCapture s e j) == captureKey s (deepCapture s e k)
    if expert s Reg.ldpModeLevel then same else same.take (s.rd Reg.ldpDeepCtlMaxCaps)

/-- The LLRs of a capture as stored. -/
def captureLlrs (s : State) (a n : Nat) : List Int :=
  ((s.bytes (a + 0x40) ((n + 1) / 2)).flatMap fun b => [signedOf 4 (b.toNat % 16), signedOf 4 (b.toNat / 16)]).take n

/-- LLRs summed with saturation at ±63. -/
def llrSum (a b : List Int) : List Int := (a.zip b).map fun e => clampInt (-63) 63 (e.1 + e.2)

/-- The iteration limit of a deep job (R241, R252). -/
def deepIterLimit (s : State) (e : RingEntry) : Nat :=
  let own := e.at 5 1
  if expert s Reg.ldpModeLevel && own != 0 then own else s.rd Reg.ldpDeepCtlIter

/-- DEEP (R242): the job at the front of LDP's ring begins: its captures are chosen and summed, or it has a status at
once. A poisoned word of a capture it reads gives BUF_POISON. -/
def execDeep (s : State) : Host.Outcome State Fault Refusal :=
  match ringFront s 2 with
  | none => .next s
  | some e =>
    if s.ldp.deep.isSome then .next s else
    let s := s.set Reg.ldpStatusDeepBusy
    if !deepOk s e then .next (s.setLdp { s.ldp with deep := some ⟨some 3, 0, []⟩ })
    else
      let used := deepUsed s e
      let named := bitList 8 (e.at 4 1)
      let n := ldpcBits s.sim.cfg.ldpcCode s.sim.cfg.mediumPi
      if named.any (fun k => s.poisoned (deepCapture s e k) 64)
          || used.any (fun k => s.poisoned (deepCapture s e k) (64 + (n + 1) / 2)) then
        .next (s.setLdp { s.ldp with deep := some ⟨some 4, 0, []⟩ })
      else if used.isEmpty then .next (s.setLdp { s.ldp with deep := some ⟨some 2, 0, []⟩ })
      else
        let sum := used.foldl (fun l k => llrSum l (captureLlrs s (deepCapture s e k) n)) (List.replicate n 0)
        .next (s.setLdp { s.ldp with deep := some ⟨none, used.foldl maskSet 0, sum⟩ })

/-- DEEP_JOB_DONE (R242, R243): decoding ends, the sector is decrypted, checked and stored, and the result is written. -/
def execDeepJobDone (iter unsat : Nat) (block : List Byte) (s : State) : Host.Outcome State Fault Refusal :=
  match s.ldp.deep, ringFront s 2 with
  | some j, some e =>
    match j.status with
    | some st => .next (deepResult s e st 0 0 0 0)
    | none =>
      if deepIterLimit s e < iter ∨ (unsat ≠ 0 ∧ iter ≠ deepIterLimit s e) then .next s else
      let d := e.at 8 8
      let (sstat, user) := if unsat ≠ 0 then (ssDecodeFail, [])
        else blockCheck s block ((e.at 1 1).testBit 2) (e.at 0x10 5) (e.at 0x15 1)
      let s := if unsat ≠ 0 then s else sectorCount s (internalKey ((padBytes 4136 block).drop 4104))
      let s := sectorStore s (bufData d) (bufMeta d) sstat user block
      let s := outcomeAt s (bufMeta d) sstat 0 iter (min unsat 65535)
      let s := pmuEvent s 4 4 none none iter
      .next (deepResult s e (bit (sstat != ssGood)) sstat j.used iter unsat)
  | _, _ => .next s

/-! ## OCE jobs (R246 to R248) -/

/-- A list entry is well formed: its reserved bytes, role and form, and its buffer where it names one. -/
def oceEntryOk (s : State) (e : RingEntry) (k : Nat) : Bool :=
  let a := oceEntry e k
  let role := oceRole s e k
  inBuffer s a 16 && decide (role ≤ 3) && decide (oceForm s e k ≤ 1) && s.loadNat (a + 10) 6 == 0
  && (role == 1 || role == 3 || bufOk s (oceBuf s e k))

/-- An OCE job is well formed (R246, R328): G and P in range, and at basic level those of the structure image; an ENCODE
holds erasures only at parity positions. -/
def oceOk (s : State) (e : RingEntry) : Bool :=
  let g := e.at 2 1
  let p := e.at 3 1
  !e.bad && (e.at 0 1 == 1 || e.at 0 1 == 2) && chainOfOne 3 e && e.at 1 1 / 4 == 0
  && decide (1 ≤ g) && decide (g ≤ 254) && decide (1 ≤ p) && decide (p ≤ 4)
  && (e.at 5 1 == 0xFF || decide (e.at 5 1 < 64))
  && e.at 8 8 % 16 == 0 && decide (e.at 8 8 < 2 ^ 36) && e.at 0x15 3 == 0
  && (expert s Reg.oceModeLevel || (g == s.sim.cfg.stripeG && p == s.sim.cfg.stripeP))
  && (List.range (g + p)).all (oceEntryOk s e)
  && (e.at 0 1 != 1 || ((List.range g).all fun k => oceRole s e k != 2 && oceRole s e k != 3))

/-- The stored form of position `k`'s user bytes: ciphered where a data entry is PLAIN (R246). -/
def oceInput (s : State) (e : RingEntry) (k : Nat) : List Byte :=
  if oceRole s e k ≠ 0 then List.replicate 4096 0 else
  let bs := s.bytes (bufData (oceBuf s e k)) 4096
  if k < e.at 2 1 ∧ oceForm s e k = 1 then sectorEncrypt s (e.at 5 1) (e.at 0x10 5 + k) bs else bs

/-- The synthesized INTERNAL of an output (R247), its CRC over the plaintext user bytes. -/
def oceInternal (e : RingEntry) (k : Nat) (plain pi : List Byte) : List Byte :=
  let data := decide (k < e.at 2 1)
  withCrc plain pi (leBytes 5 (e.at 0x10 5 + (if data then k else 0))
    ++ [BitVec.ofNat 8 (if data then e.at 4 1 else 0), BitVec.ofNat 8 (bit !data),
        BitVec.ofNat 8 (if data then e.at 5 1 else 0xFF)]
    ++ leBytes 8 (e.at 0x18 8) ++ List.replicate 16 0)

/-- Output `k` of a job written (R247): a PLAIN data output decrypted; the CRC is over the plaintext in either form. -/
def oceOutput (s : State) (e : RingEntry) (sectors : List (List Byte)) (k : Nat) : State :=
  let stored := nth [] sectors k
  let data := decide (k < e.at 2 1)
  let plain := if data then sectorDecrypt s (e.at 5 1) (e.at 0x10 5 + k) stored else stored
  let out := if data && oceForm s e k == 1 then plain else stored
  let d := oceBuf s e k
  let pi := if s.sim.cfg.mediumPi = 8 then s.bytes (bufMeta d + 0x20) 8 else []
  let s := s.store (bufData d) out
  let s := s.store (bufMeta d) (oceInternal e k plain pi)
  let s := s.when (data && oceForm s e k == 1) fun s => sectorCount s (e.at 5 1)
  outcomeAt s (bufMeta d) ssGood 0 0 0

/-- An OCE job of operation `op` begins (R247): checked, its inputs read and ciphered, its syndromes checked, its outputs
written; the result follows with OCE_JOB_DONE. -/
def oceBegin (s : State) (op : Nat) : State :=
  match ringFront s 3 with
  | none => s
  | some e =>
    if s.oce.job.isSome ∨ (e.at 0 1 ≠ op ∧ !e.bad) then s else
    let s := s.set Reg.oceStatusBusy
    let give (s : State) (st outs : Nat) : State := s.setOce { s.oce with job := some (st, outs) }
    if !oceOk s e then give s 3 0 else
    let n := e.at 2 1 + e.at 3 1
    let p := e.at 3 1
    let erased := (List.range n).filter fun k => oceRole s e k == 2 || oceRole s e k == 3
    if p < erased.length then give s 1 0
    else if (oceWith s e 0).any fun k => s.poisoned (bufData (oceBuf s e k)) 4096 then give s 4 0
    else
      let plain := (oceWith s e 0).filter fun k => decide (k < e.at 2 1) && oceForm s e k == 1
      let s := s.each plain fun s _ => sectorCount s (e.at 5 1)
      let (sectors, ok) := groupSolve p ((List.range n).map (oceInput s e)) erased
      if erased.length < p && !ok then give s 2 0
      else
        let outs := oceWith s e 2
        give (s.each outs fun s k => oceOutput s e sectors k) 0 outs.length

/-- ENCODE (R247). -/
def execEncode (s : State) : Host.Outcome State Fault Refusal := .next (oceBegin s 1)

/-- REBUILD (R247). -/
def execRebuild (s : State) : Host.Outcome State Fault Refusal := .next (oceBegin s 2)

/-- OCE_JOB_DONE (R248): the result of the running job; an entry with an undefined operation ends with BAD_JOB. -/
def execOceJobDone (s : State) : Host.Outcome State Fault Refusal :=
  match ringFront s 3 with
  | none => .next s
  | some e =>
    match s.oce.job with
    | some (st, outs) => .next (oceResult s e st outs)
    | none => .next (if e.bad ∨ (e.at 0 1 ≠ 1 ∧ e.at 0 1 ≠ 2) then oceResult s e 3 0 else s)

/-! ## Clearing an accumulator (R245) -/

/-- Whether an ACCUM sector of BWKn streams. -/
def accStreaming (s : State) (n : Nat) : Bool := match (s.bwk.get n).out with | some o => o.accum | none => false

/-- OCE_ACC_CLR_WRITE (R245, R257): a bit written 1 clears its accumulator at once, or is held, reading 1, while a sector
of it streams. -/
def execOceAccClrWrite (data : Word) (s : State) : Host.Outcome State Fault Refusal :=
  let s := s.each (bitList 2 data.toNat) fun s n =>
    if accStreaming s n then s.wr Reg.oceAccClrClr (maskSet (s.rd Reg.oceAccClrClr) n) else accShow s n {}
  .next (s.answer 0)

/-- OCE_ACC_CLR_APPLY (R245): a held clear applies once no sector of its accumulator streams. -/
def execOceAccClrApply (s : State) : Host.Outcome State Fault Refusal :=
  .next (s.each (bitList 2 (s.rd Reg.oceAccClrClr)) fun s n =>
    if accStreaming s n then s else (accShow s n {}).wr Reg.oceAccClrClr (maskClear (s.rd Reg.oceAccClrClr) n))

end Sys2Proof.Machine
end

