-- ==== Sys2Proof/Machine/Crypto.lean ====
section
/-!
DEFINITION. CRY's request ring (spec/11_work_rings.md, R334 to R336) and the mailbox's NOP (R337).
-/

namespace Sys2Proof.Machine

/-! ## Entries (R334) -/

/-- Fields of a CRY entry. -/
def cryOp (e : RingEntry) : Nat := e.at 0 1
def crySlot (e : RingEntry) : Nat := e.at 2 1
def cryCountOf (e : RingEntry) : Nat := e.at 6 2
def crySrc (e : RingEntry) : Nat := e.at 8 8
def cryDst (e : RingEntry) : Nat := e.at 0x10 8
def cryArg (e : RingEntry) : Nat := e.at 0x18 5

/-- Bytes of a CRY segment: data units, a HASH segment, or a key. -/
def cryLen (e : RingEntry) : Nat :=
  if cryOp e ≤ 2 then 4096 * cryCountOf e else if cryOp e = 3 then cryArg e else if cryOp e = 4 then 64 else 0

/-- A CRY entry is well formed (R328, R334): reserved bits zero, its fields as its operation has them, its addresses in SRAM
or fitted DRAM (notes/assumptions/16.md), ranges that are equal or apart, and only HASH in a HASH chain. -/
def cryOk (s : State) (e : RingEntry) : Bool :=
  let op := cryOp e
  let last := entryLast 5 e || (!entryFirst 5 e && !s.cry.chain)
  !e.bad && decide (1 ≤ op) && decide (op ≤ 5) && e.at 1 1 / 4 == 0 && e.at 3 1 == 0 && e.at 0x1D 3 == 0
  && decide (crySrc e < 2 ^ 36) && decide (cryDst e < 2 ^ 36)
  && (if op = 3 then crySlot e == 0 else decide (crySlot e < 64))
  && (op ≤ 2 || cryCountOf e == 0)
  && (if op = 3 then decide (cryArg e < 2 ^ 32) else op ≤ 2 || cryArg e == 0)
  && (op == 5 || cryLen e == 0 || inBuffer s (crySrc e) (cryLen e))
  && (2 < op || cryLen e == 0 || inBuffer s (cryDst e) (cryLen e))
  && (2 < op || crySrc e == cryDst e || !overlaps (crySrc e) (cryLen e) (cryDst e) (cryLen e))
  && (op != 3 || last || cryArg e % 64 == 0)
  && (op != 3 || !last || inBuffer s (cryDst e) 48)
  && (!s.cry.hashing || op == 3)

/-- Whether a key slot is in use by a sector or a job (R334). Which slot a sector read from the medium uses is known only
once it is decoded, so a codeword in progress counts for every slot. -/
def cryInUse (s : State) (slot : Nat) : Bool :=
  !s.ldp.words.isEmpty || s.ldp.deep.isSome
  || (s.oce.job.isSome && (ringFront s 3).any fun e => e.at 5 1 == slot)
  || [0, 1].any fun n => ((s.bwk.get n).out.any fun o => o.key == slot)

/-- A slot loaded or emptied: its count starts again, SLOTS follows, KEY_DONE is raised (R334, R336). -/
def keySet (s : State) (slot : Nat) (key : List Byte) (fromSettings : Bool) : State :=
  let settings := s.cry.settings.filter fun k => k != slot
  let s := s.setCry { s.cry with
    keys := Store.write [] s.cry.keys slot key, uses := Store.write 0 s.cry.uses slot 0
    settings := if fromSettings then settings ++ [slot] else settings }
  s.wr Reg.cryStatusSlots s.cry.keys.length

/-- The entry's status and DONE are decided; the result follows with CRY_ENTRY_DONE. -/
def cryGive (s : State) (status done : Nat) : State := s.setCry { s.cry with job := some (status, done) }

/-- The entry at the front of CRY's ring begins, if its operation is `op`: not at all in a chain that has failed (R335), with
BAD_JOB where it is malformed, and otherwise as `run` says. -/
def cryBegin (s : State) (op : Nat) (run : State → RingEntry → State) : State :=
  match ringFront s 5 with
  | none => s
  | some e =>
    if s.cry.job.isSome ∨ s.cry.wait.isSome ∨ cryOp e ≠ op then s else
    let s := s.set Reg.cryStatusBusy
    if s.cry.failed then cryGive s 5 0
    else if !cryOk s e then cryGive s 1 0
    else run s e

/-- Data units transformed one by one; a poisoned unit ends the entry with DONE units written (R335). -/
def cryUnits (s : State) (e : RingEntry) (f : Nat → List Byte → List Byte) : Nat → Nat → State
  | 0, i => cryGive s 0 i
  | fuel + 1, i =>
    let a := crySrc e + 4096 * i
    if s.poisoned a 4096 then cryGive s 2 i
    else
      let s := s.store (cryDst e + 4096 * i) (padBytes 4096 (f (cryArg e + i) (s.bytes a 4096)))
      cryUnits (cryCount s (crySlot e) 1) e f fuel (i + 1)

/-- ENCRYPT (R334). -/
def execEncrypt (s : State) : Host.Outcome State Fault Refusal :=
  .next (cryBegin s 1 fun s e =>
    if (cryKey s (crySlot e)).isEmpty then cryGive s 3 0
    else cryUnits s e (Config.xtsEncrypt (cryKey s (crySlot e))) (cryCountOf e) 0)

/-- DECRYPT (R334). -/
def execDecrypt (s : State) : Host.Outcome State Fault Refusal :=
  .next (cryBegin s 2 fun s e =>
    if (cryKey s (crySlot e)).isEmpty then cryGive s 3 0
    else cryUnits s e (Config.xtsDecrypt (cryKey s (crySlot e))) (cryCountOf e) 0)

/-- HASH (R334): a segment joins the chain's bytes; the LAST entry writes the digest to its own DST. -/
def execHash (s : State) : Host.Outcome State Fault Refusal :=
  .next (cryBegin s 3 fun s e =>
    if cryArg e ≠ 0 ∧ s.poisoned (crySrc e) (cryArg e) then cryGive s 2 0
    else
      let all := s.cry.hash ++ s.bytes (crySrc e) (cryArg e)
      let s := s.setCry { s.cry with hash := all, hashing := true }
      let last := entryLast 5 e || (!entryFirst 5 e && !s.cry.chain)
      let s := if last then s.store (cryDst e) (padBytes 48 (Config.sha384 all)) else s
      cryGive s 0 (cryArg e))

/-- A key operation of the ring: at once, or waiting for its slot (R334). -/
def keyOp (s : State) (slot : Nat) (key : List Byte) : State :=
  if cryInUse s slot then (s.setCry { s.cry with wait := some ⟨slot, key⟩ }).set Reg.cryStatusKeyWait
  else cryGive ((keySet s slot key false).set Reg.cryIrqStatusKeyDone) 0 key.length

/-- KEY_LOAD (R334, R335): refused at basic level. -/
def execKeyLoad (s : State) : Host.Outcome State Fault Refusal :=
  .next (cryBegin s 4 fun s e =>
    if !expert s Reg.cryModeLevel then cryGive s 4 0
    else if s.poisoned (crySrc e) 64 then cryGive s 2 0
    else keyOp s (crySlot e) (s.bytes (crySrc e) 64))

/-- KEY_CLEAR (R334, R335): refused at basic level. -/
def execKeyClear (s : State) : Host.Outcome State Fault Refusal :=
  .next (cryBegin s 5 fun s e => if !expert s Reg.cryModeLevel then cryGive s 4 0 else keyOp s (crySlot e) [])

/-- KEY_OP_APPLY (R334): the waiting key operation takes effect once no work uses its slot. -/
def execKeyOpApply (s : State) : Host.Outcome State Fault Refusal :=
  match s.cry.wait with
  | none => .next s
  | some k =>
    if cryInUse s k.slot then .next s else
    let s := (keySet (s.setCry { s.cry with wait := none }) k.slot k.key false).set Reg.cryIrqStatusKeyDone
    .next (cryGive (s.clr Reg.cryStatusKeyWait) 0 k.key.length)

/-- CRY_ENTRY_DONE (R335): the result of the entry that has run; an entry with an undefined operation, or a poisoned one,
ends with BAD_JOB, and one of a failed chain with ABORTED. -/
def execCryEntryDone (s : State) : Host.Outcome State Fault Refusal :=
  match ringFront s 5 with
  | none => .next s
  | some e =>
    match s.cry.job with
    | some (st, done) => .next (cryResult s e st done)
    | none =>
      if s.cry.wait.isSome then .next s
      else if s.cry.failed then .next (cryResult s e 5 0)
      else if e.bad ∨ cryOp e = 0 ∨ 5 < cryOp e then .next (cryResult s e 1 0)
      else .next s

/-! ## The mailbox (R337) -/

/-- A mailbox reply: STATUS, KIND 0, TAG, CODE = OP, DATA. -/
def mailReply (s : State) (e : RingEntry) (status : Nat) (data : List Byte) : State :=
  ringAnswer s 6 ([BitVec.ofNat 8 status, 0] ++ leBytes 2 (e.at 2 2) ++ leBytes 2 (e.at 0 1) ++ [0, 0] ++ padBytes 56 data) true

/-- A mailbox entry that is poisoned, or breaks the format of R337: reserved bits, and FIRST and LAST both set (R327). Its
malformed-entry status is BAD_OP (R320). -/
def mailMalformed (e : RingEntry) : Bool := e.bad || !chainOfOne 6 e || e.at 1 1 / 4 != 0 || e.at 4 4 != 0

/-- NOP (R337): the reply returns ARGS in DATA. An entry with an undefined operation gets BAD_OP. -/
def execNop (s : State) : Host.Outcome State Fault Refusal :=
  match ringFront s 6 with
  | none => .next s
  | some e =>
    if mailMalformed e then .next (mailReply s e 1 [])
    else if e.at 0 1 = 0 then .next (mailReply s e 0 (e.bytes.drop 8))
    else if e.at 0 1 = 0x10 then .next s
    else .next (mailReply s e 1 [])

end Sys2Proof.Machine
end

