-- ==== Sys2Proof/Machine/Servo.lean ====
section
/-!
DEFINITION. Servo commands (spec/06_servo.md, R160 to R186, R193): the servo sample with its program run, the events of the
loop states, SEEK and SETTLE planks, load and unload, feedforward taps.
-/

namespace Sys2Proof.Machine

/-! ## The sample as demodulated (R160 to R163) -/

/-- A 24-bit Gray code decoded (R99, R161). -/
def grayDecode (g : Nat) : Nat :=
  g ^^^ (g >>> 1) ^^^ (g >>> 2) ^^^ (g >>> 3) ^^^ (g >>> 4) ^^^ (g >>> 5) ^^^ (g >>> 6) ^^^ (g >>> 7)
    ^^^ (g >>> 8) ^^^ (g >>> 9) ^^^ (g >>> 10) ^^^ (g >>> 11) ^^^ (g >>> 12) ^^^ (g >>> 13) ^^^ (g >>> 14) ^^^ (g >>> 15)
    ^^^ (g >>> 16) ^^^ (g >>> 17) ^^^ (g >>> 18) ^^^ (g >>> 19) ^^^ (g >>> 20) ^^^ (g >>> 21) ^^^ (g >>> 22)
    ^^^ (g >>> 23)

/-- The address mark is found and the wedge parity passes (R160). -/
def sampleSeen (x : Sample) : Bool := x.mark && wedgeParity x.wedge == x.wpar

/-- The runout field's even parity holds (R99, R161). -/
def rroGood (x : Sample) : Bool := ((bitList 8 x.rro).length + x.rroPar) % 2 == 0

/-- A position measured (R161): 256 × n, the offset that the burst linearisation gives, which the spec leaves to the
calibration (a free value from −128 to +127), and the field's runout times the surface's runout scale. -/
def measure (s : State) (n : Nat) (x : Sample) : Int × Int × State :=
  let (f, s) := s.takeFree
  let surface := headSurface s (followedHead s n)
  let (rro, s) :=
    if rroGood x then roundFree s (signedOf 8 x.rro * calEff s (qidOf 6 (4 * surface))) (2 ^ 14)
    else ((0 : Int), s.bump (Reg.srvCountsRroErr.elem n))
  (256 * (grayDecode x.gray : Nat) + ((f % 256 : Nat) : Int) - 128 + rro, rro, s)

/-- The run of identical samples after a sample (R163). -/
def freezeStep (s : State) (n : Nat) (x : Sample) : State :=
  let v := s.srv.get n
  let key := [grayDecode x.gray, x.a, x.b, x.c, x.d]
  if sampleSeen x && s.rd (Reg.srvOutVcm.elem n) != 0 then
    if v.frozenKey = some key then s.setSrv n { v with frozenRun := v.frozenRun + 1 }
    else s.setSrv n { v with frozenKey := some key, frozenRun := 0 }
  else s.setSrv n { v with frozenKey := none, frozenRun := 0 }

/-- The frozen flag of the sample just counted (R163). -/
def sampleFrozen (s : State) (n : Nat) : Bool :=
  (s.srv.get n).frozenKey.isSome && decide (s.rd (Reg.srvFbFreezeValue.elem n) ≤ (s.srv.get n).frozenRun)

/-- LOADING and FALLBACK replace the prediction check by the reacquisition rule (R162, R182). -/
def reacquiring (s : State) (n : Nat) : Bool := srvState s n == srvLoading || srvState s n == srvFallback

/-- The quality flag (R162). -/
def sampleGood (s : State) (n : Nat) (x : Sample) : Bool :=
  let tid : Int := (grayDecode x.gray : Nat)
  let sum := x.a + x.b + x.c + x.d
  sampleSeen x
  && (reacquiring s n || decide ((256 * tid - (x.pred : Nat)).natAbs ≤ 256 * s.rd (Reg.srvDemodTidWin.elem n)))
  && decide (4 * s.rd (Reg.srvDemodSumMin.elem n) ≤ sum) && decide (sum ≤ 4 * s.rd (Reg.srvDemodSumMax.elem n))

/-- The reacquisition run after a good sample (R182): the track ID agrees with the last one, after allowing for the
velocity, or the run starts afresh. -/
def reacqStep (s : State) (n : Nat) (x : Sample) : State :=
  let v := s.srv.get n
  let tid := grayDecode x.gray
  let d : Int := 256 * ((tid : Nat) - (v.reacqTid : Nat) : Int) - x.emf
  let agree := v.reacqRun == 0 || decide (d.natAbs ≤ 256 * s.rd (Reg.srvDemodTidWin.elem n))
  s.setSrv n { v with reacqRun := if agree then v.reacqRun + 1 else 1, reacqTid := tid }

/-! ## Neighbours and taps (R178, R179) -/

/-- Notices age by a sample and leave after 32 (R178). -/
def noticeStep (s : State) (n : Nat) : State :=
  let v := s.srv.get n
  s.setSrv n { v with notices := (v.notices.map fun x => { x with j := x.j + 1 }).filter fun x => decide (x.j < 32) }

/-- A tap of SRVn (R178): data-memory words 0x100 to 0x21F. -/
def tapWord (s : State) (n i : Nat) : Word := s.ceMem (engineOf s n) (0x100 + i)
def setTap (s : State) (n i : Nat) (w : Word) : State := setCeMem s (engineOf s n) (0x100 + i) w

/-- Adaptation of the taps (R179): at basic level, in FOLLOW, with ADAPT_FREEZE 0. The spec names the method and not the
step, so each adapted tap takes a free value. -/
def adaptTaps (s : State) (n : Nat) : State :=
  if expert s (Reg.srvModeLevel.elem n) || s.flag (Reg.srvFfCtlAdaptFreeze.elem n) || srvState s n != srvFollow then s else
  let acc := s.rd (Reg.srvFfCtlAccEn.elem n)
  let on (i : Nat) : Bool :=
    if i < 16 then acc.testBit 0 && s.rd (Reg.srvFfCtlMuAcc.elem n) != 0
    else if i < 32 then acc.testBit 1 && s.rd (Reg.srvFfCtlMuAcc.elem n) != 0
    else s.flag (Reg.srvFfCtlNbrEn.elem n) && s.rd (Reg.srvFfCtlMuNbr.elem n) != 0
  s.each ((List.range 288).filter on) fun s i =>
    let (f, s) := s.takeFree
    setTap s n i (BitVec.ofNat 32 f)

/-! ## The program run (R168 to R172) -/

/-- Address of a control-store word in its window (R28), as records carry it. -/
def csAddress (inst addr : Nat) : Nat := 0x40000000 + inst * 0x40000 + addr * 16

/-- The IN ports latched at the start of a run (R168). A neighbour notice's form on its port is not stated: a free value
while one is queued, 0 when none is. -/
def srvPorts (s : State) (n full : Nat) (pos : Int) (x : Sample) (rro : Int) (qual : Nat) : List Word × State :=
  let v := s.srv.get n
  let (nbr, s) := if v.notices.isEmpty then (0, s) else s.takeFree
  let vref := if v.seeking then seekVref s n v.profile (srvTarget s n - pos).natAbs else 0
  ([wrapW pos, wrapW (srvTarget s n), BitVec.ofNat 32 (qual + 4 * srvState s n), wrapW x.emf, BitVec.ofNat 32 x.acc0,
    BitVec.ofNat 32 x.acc1, wrapW (integ s n), BitVec.ofNat 32 nbr, BitVec.ofNat 32 vref,
    BitVec.ofNat 32 (full % 2 ^ 21), wrapW rro], s)

/-- One output of a run issued (R168). VCM and MA take effect unless the loop is in FALLBACK (R170). -/
def srvOutput (s : State) (n full : Nat) (err : Int) (o : Nat × Word) : State :=
  let port := o.1
  let v := o.2
  if port = 0 then
    if srvState s n = srvFallback then s
    else s.wr (Reg.srvOutVcm.elem n) (toBits 16 (clampInt (-32767) 32767 (sval v)))
  else if port = 1 then
    if srvState s n = srvFallback then s
    else s.wr (Reg.srvOutMa.elem n) (toBits 16 (clampInt (-32767) 32767 (sval v)))
  else if port = 2 then outInteg s n (sval v) err
  else if port = 3 then
    if (s.srv.get n).seeking then
      s.setSrv n { s.srv.get n with arrive := some (resolveAngle v.toNat (frameAngle s (followedHead s n) full)) }
    else s
  else if port = 6 then s
  else if v.toNat.testBit 0 then s.set (Reg.srvIrqStatusLawEvent.elem n) else s

/-- A parity error of the law program's control store (R172): a contained fault and a reload, or unit-fatal on a repeat or
where the MRAM copy is uncorrectable. -/
def srvParity (s : State) (n addr : Nat) (upset : Option Upset) : State :=
  let e := engineOf s n
  let at_ := csAddress (e + 2) addr
  if ceParityFatal s e addr upset then
    unitFatal (srvLastFault s n 5) (bitSrv n) (srcSrv n) n 0x0011 at_
  else contained (ceParityNote s e addr) (srcSrv n) n 0x0010 at_

/-- A program of SRVn that runs once (R170): SEEK_PLAN, LOAD, UNLOAD. The profile it names, if any, and the state after its
outputs; a HALT, an overrun or a parity error has its own consequence (R171, R172). -/
def srvProgramOnce (s : State) (n code full : Nat) : Option Nat × State :=
  let x : Sample := ⟨true, 0, 0, 0, 0, 0, 0, 0, 0, 0, (s.srv.get n).emf, 0, 0, 0, 0, none⟩
  let (ports, s) := srvPorts s n full (s.srv.get n).pos x 0 1
  let (c, s) := ceProgram s (engineOf s n) code (s.rd (Reg.srvLawBudget.elem n)) none (some ports)
  let err := (s.srv.get n).pos - srvTarget s n
  match c.state with
  | .yielded =>
    ((c.outs.filter fun o => o.1 == 6).getLast?.map fun o => o.2.toNat, s.each c.outs fun s o => srvOutput s n full err o)
  | .halted => (none, srvLawFault s n 4)
  | .running => (none, srvLawFault s n 3)
  | .parity => (none, srvParity s n c.pc none)

/-! ## FALLBACK (R181) -/

/-- The hardware loops of FALLBACK: c = max(min(c_r, c_v, c_i), −IMAX), the voice coil at −c, the milliactuator at 0. -/
def fallbackDrive (s : State) (n : Nat) (emf : Int) : State :=
  let imax : Int := (s.rd (Reg.srvFbIImax.elem n) : Nat)
  let iret : Int := (s.rd (Reg.srvFbIIret.elem n) : Nat)
  let vmax : Int := (s.rd (Reg.srvFbVVmax.elem n) : Nat)
  let (cv, s) := roundFree s ((s.rd (Reg.srvFbVKv.elem n) : Nat) * (vmax + emf)) 256
  let c := max (min (min iret cv) imax) (-imax)
  srvOut s n (-c) 0

/-! ## The sample's effect on the loop (R164, R173, R180) -/

/-- A missing or frozen sample: the flag falls, the loop coasts, and the counts follow (R173, R180, R184). -/
def sampleMissing (s : State) (n : Nat) : State :=
  let s := setOnTrack (s.bump (Reg.srvCountsMissing.elem n)) n false
  let s := pmuEvent s 2 2 (some n) none 1
  let st := srvState s n
  let v := s.srv.get n
  if st = srvSeek ∨ st = srvSettle ∨ st = srvFollow ∨ st = srvCoast then
    let s := if st = srvCoast then s else (srvEnter s n srvCoast).clr (Reg.srvStatusCoastCnt.elem n)
    let s := s.bump (Reg.srvStatusCoastCnt.elem n)
    s.setSrv n { s.srv.get n with
      coastFrom := if st = srvCoast then v.coastFrom else st
      exempt := v.exempt - 1
      missRun := if 0 < v.exempt then v.missRun else v.missRun + 1
      plankRun := 0, plankWedges := v.plankWedges + 1, reacqRun := 0 }
  else s.setSrv n { v with reacqRun := 0, plankRun := 0, plankWedges := v.plankWedges + 1 }

/-- A good sample: COAST ends, and the runs of the following-error rule, of SETTLE and of a SETTLE plank go on
(R173, R180, R185). -/
def sampleCounted (s : State) (n : Nat) (err : Int) (decision : Bool) : State :=
  let s := if srvState s n = srvCoast then
      (srvEnter s n (s.srv.get n).coastFrom).clr (Reg.srvStatusCoastCnt.elem n)
    else s
  let st := srvState s n
  let v := s.srv.get n
  let tracking := st == srvSettle || st == srvFollow
  let beyond := decide (s.rd (Reg.srvFeLimitValue.elem n) < err.natAbs)
  let s := s.setSrv n { v with
    missRun := 0
    feCount := if tracking && beyond then v.feCount + 1 else 0
    settleRun := if st = srvSettle ∧ decision then v.settleRun + 1 else 0
    plankRun := if decision then v.plankRun + 1 else 0
    plankWedges := v.plankWedges + 1 }
  let s := s.when (s.flag (Reg.srvStatusHold.elem n) && (err == 0 || decide (Int.sign err ≠ v.holdSign))) fun s =>
    s.clr (Reg.srvStatusHold.elem n)
  setOnTrack s n (tracking && decision && !s.flag Reg.spnStatusOffspeed)

/-- The burst mean of a good sample counts toward its cell (R397). -/
def ageBurst (s : State) (n : Nat) (x : Sample) : State :=
  let h := followedHead s n
  match (surfaceRegions s.sim.cfg (headSurface s h)).find? fun r =>
      decide (r.firstTrack ≤ grayDecode x.gray) && decide (grayDecode x.gray < r.firstTrack + r.trackCount) with
  | none => s
  | some r =>
    let k := h * 32 + r.region
    let old := Store.read (0, 0) s.age.burst k
    s.setAge { s.age with burst := Store.write (0, 0) s.age.burst k (old.1 + (x.a + x.b + x.c + x.d), old.2 + 1) }

/-- A gain swap that is due at this boundary (R175, R176, R192): not on a sample that is going to enter FALLBACK. -/
def swapDue (s : State) (n : Nat) (pos err : Int) (lost : Bool) : State :=
  let v := s.srv.get n
  if srvNoSet (srvState s n) then s
  else if lost && decide (s.rd (Reg.srvFbCoastValue.elem n) < v.missRun + 1) && v.exempt == 0 then s
  else
    let s := if v.set.isNone then s.wr (Reg.srvStatusBand.elem n) (bandFresh s n pos) else s
    let i := setIndex s n
    if v.set = some i then s else gainSwap s n i err

/-- SERVO_SAMPLE (R160 to R173): one wedge of the followed head. -/
def execServoSample (n full : Nat) (smp : Sample) (s : State) : Host.Outcome State Fault Refusal :=
  let st0 := srvState s n
  if st0 = srvParked ∨ st0 = srvRetracting ∨ st0 = srvFailed then .next s else
  let s := pmuEvent s 2 1 (some n) none 1
  let s := freezeStep s n smp
  let frozen := sampleFrozen s n
  let good := sampleGood s n smp
  let ok := good && !frozen
  let (mpos, rro, s) := if sampleSeen smp then measure s n smp else ((smp.pred : Nat), (0 : Int), s)
  let pos : Int := if ok then mpos else (smp.pred : Nat)
  let err := pos - srvTarget s n
  let s := swapDue s n pos err (!ok)
  let s := if (s.srv.get n).arrived then
      let s := s.setSrv n { s.srv.get n with arrived := false, seeking := false }
      if srvState s n = srvCoast then s.setSrv n { s.srv.get n with coastFrom := srvSettle } else srvEnter s n srvSettle
    else s
  let decision := ok && decide (err.natAbs ≤ s.rd (Reg.srvOntrackWriteLim.elem n))
  let s := (s.wr (Reg.srvStatusQual.elem n) (bit good)).wr (Reg.srvStatusDecision.elem n) (bit decision)
  let s := s.wr (Reg.srvPosValid.elem n) (bit good)
  let s := s.when (sampleSeen smp) fun s => s.wr (Reg.srvPosPos.elem n) (toBits 28 mpos)
  let s := s.wr (Reg.srvVelVel.elem n) (toBits 32 smp.vel)
  let (ports, s) := srvPorts s n full pos smp rro (bit good + 2 * bit frozen)
  let s := s.setSrv n { s.srv.get n with
    pos, emf := smp.emf, sinceEntry := (s.srv.get n).sinceEntry + 1
    prevVcm := s.rd (Reg.srvOutVcm.elem n), prevMa := s.rd (Reg.srvOutMa.elem n) }
  let s := noticeStep s n
  let (c, s) := ceProgram s (engineOf s n) (s.rd (Reg.srvLawProg.elem n)) (s.rd (Reg.srvLawBudget.elem n)) smp.upset
    (some ports)
  let counted := ok && c.state != .parity
  let s := if counted then
      let s := s.when (reacquiring s n) fun s => reacqStep s n smp
      let s := sampleCounted s n err decision
      ageBurst (adaptTaps (s.wr (Reg.srvStatusBand.elem n) (bandNext s n (s.rd (Reg.srvStatusBand.elem n)) pos)) n) n smp
    else sampleMissing s n
  let s := match c.state with
    | .yielded => s.each c.outs fun s o => srvOutput s n full err o
    | .halted => if srvState s n = srvUnloading then hvRetract s n 1 4 else srvLawFault s n 4
    | .running => if srvState s n = srvUnloading then hvRetract s n 1 3 else srvLawFault s n 3
    | .parity => srvParity s n c.pc smp.upset
  .next (if srvState s n = srvFallback then fallbackDrive s n smp.emf else s)

/-! ## Events of the loop (R171, R173, R180, R182) -/

/-- LAW_OVERRUN (R171): the run does not yield in time; its outputs are taken back and the loop enters FALLBACK. -/
def execLawOverrun (n : Nat) (s : State) : Host.Outcome State Fault Refusal :=
  .next (if srvState s n = srvUnloading then hvRetract s n 1 3 else srvLawFault s n 3)

/-- COAST_EXHAUSTED (R173): missing sample number FB_COAST + 1 in a row, exempt ones apart. -/
def execCoastExhausted (n : Nat) (s : State) : Host.Outcome State Fault Refusal :=
  .next (if srvState s n = srvCoast ∧ s.rd (Reg.srvFbCoastValue.elem n) < (s.srv.get n).missRun
    then srvFallbackEnter s n 1 else s)

/-- FE_LIMIT_FAULT (R180). -/
def execFeLimitFault (n : Nat) (s : State) : Host.Outcome State Fault Refusal :=
  let st := srvState s n
  .next (if (st = srvSettle ∨ st = srvFollow) ∧ s.rd (Reg.srvFeTimeValue.elem n) ≤ (s.srv.get n).feCount
    then srvFallbackEnter s n 2 else s)

/-- SETTLE_RUN_MET (R173): SETTLE passes to FOLLOW; a LOAD in progress is over (R186). -/
def settleRunMet (n : Nat) (s : State) : Host.Outcome State Fault Refusal :=
  if srvState s n = srvSettle ∧ s.rd (Reg.srvOntrackSettleRun.elem n) ≤ (s.srv.get n).settleRun then
    let s := srvEnter s n srvFollow
    if (s.srv.get n).loading.isSome then
      .next ((s.setSrv n { s.srv.get n with loading := none }).set (Reg.srvIrqStatusLoaded.elem n))
    else .next s
  else .next s

/-- REACQUIRED (R182): MARKS consecutive good, agreeing samples at no more than VMAX. LOADING passes to SEEK toward the LOAD
target, FALLBACK to SETTLE on the nearest track. -/
def reacquired (n full : Nat) (s : State) : Host.Outcome State Fault Refusal :=
  let v := s.srv.get n
  if reacquiring s n && decide (s.rd (Reg.srvReacqMarks.elem n) ≤ v.reacqRun)
      && decide (v.emf.natAbs ≤ s.rd (Reg.srvFbVVmax.elem n)) then
    let s := s.set (Reg.srvIrqStatusReacq.elem n)
    match v.loading with
    | some t => .next (if srvState s n = srvLoading then seekBegin s n t.1 t.2 v.profile full else settleNearest s n)
    | none => .next (settleNearest s n)
  else .next s

/-- REACQ_TIMEOUT (R182): REACQ_TIME wedges since the entry; a retract is requested and the loop retracts. -/
def execReacqTimeout (n : Nat) (s : State) : Host.Outcome State Fault Refusal :=
  .next (if reacquiring s n && decide (s.rd (Reg.srvReacqTimeValue.elem n) ≤ (s.srv.get n).sinceEntry)
    then hvRetract s n 1 6 else s)

/-! ## SEEK and SETTLE (R122, R184, R185) -/

/-- States in which a SEEK plank that begins ends at once (R184). -/
def seekRefused (st : Nat) : Bool :=
  st == srvParked || st == srvLoading || st == srvFallback || st == srvUnloading || st == srvRetracting || st == srvFailed

/-- PLANK_SEEK (R122, R184): the seek begins with its head switch; SEEK_PLAN runs; at basic level the gentlest profile that
fits the span to PARAM is taken, at expert level the one the program names. -/
def execPlankSeek (n full : Nat) (s : State) : Host.Outcome State Fault Refusal :=
  match bwkBegin s n actSeek full with
  | .notYet s => .next s
  | .ended s => .next s
  | .begun s p =>
    let now := frameAngle s p.head full
    if seekRefused (srvState s n) then .next (plankEnd s n stSeekFault now) else
    let track := psaTrack p.psa
    let s := s.when (p.head != followedHead s n) fun s => preStrobe s n p.head 0
    let s := seekBegin s n p.head track 0 full
    let arrival := resolveAngle p.param now
    let span := if now ≤ arrival then ticksBetween s now arrival else 0
    let (named, s) := srvProgramOnce s n 1 full
    let v := s.srv.get n
    let profile := if expert s (Reg.srvModeLevel.elem n) then profileTaken s n (named.getD 0)
      else chooseProfile s n v.seekDist span
    let amp : Int := profileNat s n profile 0x80 2
    let s := s.setSrv n { v with profile }
    .next (noticeSend s n v.seekDist (if (256 * track : Int) < v.pos then -amp else amp))

/-- PLANK_SETTLE (R122, R185): RUN 0 ends OK at once; TIMEOUT 0 with RUN not 0 ends SETTLE_TIMEOUT at once; else the plank's
own counts begin. -/
def execPlankSettle (n full : Nat) (s : State) : Host.Outcome State Fault Refusal :=
  match bwkBegin s n actSettle full with
  | .notYet s => .next s
  | .ended s => .next s
  | .begun s p =>
    let now := frameAngle s p.head full
    if p.param % 256 = 0 then .next (plankEnd s n stOk now)
    else if p.param / 256 % 2 ^ 16 = 0 then .next (plankEnd s n stSettleTimeout now)
    else .next (s.setSrv n { s.srv.get n with plankRun := 0, plankWedges := 0 })

/-- SETTLE_PLANK_RUN (R185): RUN consecutive decisions since the plank began. -/
def execSettlePlankRun (n full : Nat) (s : State) : Host.Outcome State Fault Refusal :=
  match runningPlank s n actSettle with
  | none => .next s
  | some p =>
    .next (if p.param % 256 ≤ (s.srv.get n).plankRun then plankEnd s n stOk (frameAngle s p.head full) else s)

/-- SETTLE_TIMEOUT (R185): TIMEOUT wedges pass with the run not met. -/
def execSettleTimeout (n full : Nat) (s : State) : Host.Outcome State Fault Refusal :=
  match runningPlank s n actSettle with
  | none => .next s
  | some p =>
    let v := s.srv.get n
    .next (if p.param / 256 % 2 ^ 16 ≤ v.plankWedges ∧ v.plankRun < p.param % 256
      then plankEnd s n stSettleTimeout (frameAngle s p.head full) else s)

/-- SEEK_ARRIVAL (R185): the current angle has reached the arrival posted; the SEEK plank ends there, and SETTLE follows at
the next sample boundary. -/
def execSeekArrival (n full : Nat) (s : State) : Host.Outcome State Fault Refusal :=
  let v := s.srv.get n
  match v.arrive with
  | none => .next s
  | some a =>
    if !v.seeking || decide (frameAngle s (followedHead s n) full < a) then .next s else
    let s := (s.setSrv n { v with arrive := none, arrived := true }).set (Reg.srvIrqStatusArrive.elem n)
    .next (match runningPlank s n actSeek with
      | some p =>
        let b := s.bwk.get n
        let late := decide (resolveAngle p.param b.run.beginAt < a)
        plankEnd (s.setBwk n { b with run := { b.run with lateArr := late } }) n stOk a
      | none => s)

/-- A seek faults (R173, R184): the loop settles on the nearest track and a SEEK plank ends with SEEK_FAULT. -/
def seekFault (s : State) (n cause full : Nat) : State :=
  let s := settleNearest (seekClear (srvLastFault s n cause) n) n
  match runningPlank s n actSeek with
  | some p => plankEnd s n stSeekFault (frameAngle s p.head full)
  | none => s

/-- SEEK_TIMEOUT (R184): the span has passed DUR(d) + GRACE wedges of the supervised profile. -/
def execSeekTimeout (n full : Nat) (s : State) : Host.Outcome State Fault Refusal :=
  .next (if srvState s n = srvSeek ∧ (s.srv.get n).seeking ∧ !(s.srv.get n).arrived ∧ seekExpired s n full
    then seekFault s n 7 full else s)

/-- SEEK_VERR_FAULT (R184): the velocity error has exceeded VERR_LIM on FE_TIME consecutive samples. -/
def execSeekVerrFault (n full : Nat) (s : State) : Host.Outcome State Fault Refusal :=
  .next (if srvState s n = srvSeek ∧ (s.srv.get n).seeking ∧ !(s.srv.get n).arrived then seekFault s n 8 full else s)

/-! ## Load, unload, retract (R186, R193) -/

/-- A LOAD begins (R186): LOADING with the LOAD program run once. -/
def loadBegin (s : State) (n head track full : Nat) : State :=
  let s := srvEnter (s.wr (Reg.srvStatusHead.elem n) head) n srvLoading
  let s := s.setSrv n { s.srv.get n with loading := some (head, track), profile := 0, reacqRun := 0 }
  let (named, s) := srvProgramOnce s n 2 full
  s.setSrv n { s.srv.get n with profile := named.getD 0 }

/-- Whether a LOAD is accepted (R186). -/
def loadAccepted (s : State) (n head track : Nat) : Bool :=
  srvState s n == srvParked && spnState s == spnLocked && headOn s head n && decide (track < s.sim.cfg.tracks)

/-- SRV_CMD_LOAD (R186). -/
def execSrvCmdLoad (n head track full : Nat) (s : State) : Host.Outcome State Fault Refusal :=
  gatedAccess s (2 + n) <|
  .next ((if loadAccepted s n head track then loadBegin s n head track full else corrected s).answer 0)

/-- SRV_CMD_UNLOAD (R186): only in SETTLE or FOLLOW with no plank running. -/
def execSrvCmdUnload (n : Nat) (s : State) : Host.Outcome State Fault Refusal :=
  gatedAccess s (2 + n) <|
  let st := srvState s n
  if (st = srvSettle ∨ st = srvFollow) ∧ !(s.bwk.get n).run.begun then
    let s := srvEnter s n srvUnloading
    .next ((srvProgramOnce s n 3 s.fullAngle).2.answer 0)
  else .next ((corrected s).answer 0)

/-- SRV_CMD_RETRACT (R186): the HV die is asked to retract the actuator. -/
def execSrvCmdRetract (n : Nat) (s : State) : Host.Outcome State Fault Refusal :=
  gatedAccess s (2 + n) <|
  .next ((hvRetract s n 1 10).answer 0)

/-- UNLOAD_RAMP_REACHED (R173). -/
def unloadRampReached (n : Nat) (s : State) : Host.Outcome State Fault Refusal :=
  .next (if srvState s n = srvUnloading then srvEnter s n srvParked else s)

/-- The head and track of B4's load (R193): the actuator's lowest-numbered head, at the centre of its Peat ring 0. -/
def bootLoad (s : State) (n full : Nat) : State :=
  match s.headsOf n with
  | [] => s
  | h :: _ =>
    let s := loadBegin s n h (peatCentre s.sim.cfg (headSurface s h) 0) full
    s.setSrv n { s.srv.get n with bootLoads := (s.srv.get n).bootLoads + 1 }

/-- A LOAD of B4 or of a wake ended without FOLLOW (R193): once more, or fault 0x0033 against the SRVn; SAFE with CAUSE 0x22 where no other
actuator is in service. -/
def bootLoadFailed (s : State) (n full : Nat) : State :=
  let automatic := s.boot == .b4 || s.change.any fun c => c.mode == modeService
  if !automatic || (s.srv.get n).loading.isNone then s.setSrv n { s.srv.get n with loading := none }
  else if (s.srv.get n).bootLoads < 2 then bootLoad s n full
  else
    let s := srvLastFault (s.setSrv n { s.srv.get n with loading := none }) n 9
    if s.boot ≠ .b4 ∨ s.actuatorServing (1 - n) then unitFatal s (bitSrv n) (srcSrv n) n 0x0033 0
    else safeEnter s 0x22 none

/-- RETRACT_DONE (R173, R193): the HV die reports DONE; the loop is PARKED, or FAILED after a unit-fatal fault. -/
def retractDone (n full : Nat) (s : State) : Host.Outcome State Fault Refusal :=
  if !s.flag (Reg.hvRetractDone.elem n) then .next s
  else if (s.srv.get n).fatal then .next (srvEnter s n srvFailed)
  else if srvState s n = srvRetracting then .next (bootLoadFailed (srvEnter s n srvParked) n full)
  else .next s

/-- TAP_DATA_ACCESS (R179, R195): a tap read or, at expert level, written; INDEX steps, wrapping at 288. -/
def execTapDataAccess (n : Nat) (write : Option Word) (s : State) : Host.Outcome State Fault Refusal :=
  gatedAccess s (2 + n) <|
  let i := s.rd (Reg.srvTapIdxIndex.elem n)
  let step (s : State) : State := s.wr (Reg.srvTapIdxIndex.elem n) ((i + 1) % 288)
  match write with
  | none => .next ((step s).answer (tapWord s n i).toNat)
  | some w =>
    if expert s (Reg.srvModeLevel.elem n) then .next ((step (setTap s n i w)).answer 0)
    else .next ((step (expertIgnored s (Reg.srvModeExpertWrIgnored.elem n) (w != tapWord s n i))).answer 0)

end Sys2Proof.Machine
end

