-- ==== Sys2Proof/Machine/Spindle.lean ====
section
/-!
DEFINITION. Spindle and retract commands (spec/06_servo.md, R188 to R191; spec/16_resets.md, R451; the end of a RETURN that does
not settle, R86).
-/

namespace Sys2Proof.Machine

/-- SPN enters FAULT; in phase B4 that is a failed spin-up, and the controller enters SAFE with CAUSE 0x22 (R193). -/
def spnFails (s : State) (cause : Nat) : State :=
  let s := spnFaultEnter s cause
  if s.boot = .b4 then safeEnter s 0x22 none else s

/-- SPN leaves TOKEN (R188, R451): to ALIGN, or on a spindle that still coasts to ACCEL at or above HANDOVER_RPM and to BRAKE
from 300 rpm up to it. -/
def spnLeaveToken (s : State) : State :=
  if spnState s ≠ spnToken then s else
  let rpm := s.rd Reg.spnStatusRpm
  let s := s.setSpn { s.spn with waiting := false }
  if s.spn.coasting ∧ spindleNat s 0x0A 2 ≤ rpm then spnEnter s spnAccel
  else if s.spn.coasting then spnEnter (s.setSpn { s.spn with brakeToAlign := true }) spnBrake
  else spnEnter s spnAlign

/-- The manager function grants its own SPN a token where its request is the first that may have one (R478). -/
def tokenOwn (s : State) : State :=
  match s.dom.wait.find? fun w => tokenRoom s w.1 with
  | some (0, q) =>
    let s := tokenGive s (0, q)
    spnLeaveToken ((s.setDom { s.dom with holding := true }).set Reg.spnIrqStatusToken)
  | _ => s

/-- SPN_CMD_START (R188): accepted only in STOPPED with a rung below RUNG_COUNT; SPN waits in TOKEN. `rpm` is the speed a
coasting spindle still has (R451). -/
def spnStart (s : State) (rung rpm : Nat) : State :=
  let s := (spnEnter s spnToken).bump Reg.spnCountsStarts
  let s := (s.wr Reg.spnStatusRpm rpm).setSpn { s.spn with
    rung, waiting := true, coasting := decide (300 ≤ rpm), brakeToAlign := false, missed := 0 }
  tokenOwn (tokenAsk s)

/-- SPN_CMD_START (R188). -/
def execSpnCmdStart (rung rpm : Nat) (s : State) : Host.Outcome State Fault Refusal :=
  gatedAccess s 4 <|
  if spnState s = spnStopped ∧ rung < s.sim.cfg.rungCount then .next ((spnStart s rung rpm).answer 0)
  else .next ((corrected s).answer 0)

/-- SPN_CMD_STOP (R188): accepted in every state but STOPPED, BRAKE and FAULT. -/
def execSpnCmdStop (s : State) : Host.Outcome State Fault Refusal :=
  gatedAccess s 4 <|
  let st := spnState s
  if st = spnStopped ∨ st = spnBrake ∨ st = spnFault then .next ((corrected s).answer 0)
  else .next ((spnEnter (s.setSpn { s.spn with brakeToAlign := false, waiting := false }) spnBrake).answer 0)

/-- SPN_CMD_CLEAR (R188): accepted only in FAULT; it takes effect once the spindle is below 300 rpm. -/
def execSpnCmdClear (rpm : Nat) (s : State) : Host.Outcome State Fault Refusal :=
  gatedAccess s 4 <|
  if spnState s ≠ spnFault then .next ((corrected s).answer 0)
  else if rpm < 300 then .next (((spnEnter s spnStopped).clr Reg.spnFaultCause).answer 0)
  else .next ((s.setSpn { s.spn with clearing := true }).answer 0)

/-- ALIGN_TIME_EXPIRY (R188). -/
def execAlignTimeExpiry (s : State) : Host.Outcome State Fault Refusal :=
  .next (if spnState s = spnAlign then spnEnter s spnOpenloop else s)

/-- HANDOVER_REACHED (R188). -/
def execHandoverReached (s : State) : Host.Outcome State Fault Refusal :=
  .next (if spnState s = spnOpenloop then spnEnter s spnAccel else s)

/-- A spin-up is in progress. -/
def spinningUp (st : Nat) : Bool := st == spnToken || st == spnAlign || st == spnOpenloop || st == spnAccel

/-- SPINUP_TIMEOUT (R188): LOCKED not reached within SPINUP_S of the START, a BRAKE before ALIGN included (R451). -/
def execSpinupTimeout (s : State) : Host.Outcome State Fault Refusal :=
  .next (if spinningUp (spnState s) || (spnState s == spnBrake && s.spn.brakeToAlign) then spnFails s 1 else s)

/-- A parity error of CE2 (R172): contained with a reload, device-fatal on a repeat or an uncorrectable copy. -/
def spnParity (s : State) (addr : Nat) (upset : Option Upset) : State :=
  let at_ := csAddress 4 addr
  if ceParityFatal s 2 addr upset then deviceFatal (spnFaultEnter s 4) srcSpn 0 0x0011 at_ false
  else contained (ceParityNote s 2 addr) srcSpn 0 0x0010 at_

/-- The cycles a CE2 run may take in the model; the spec gives it no budget (notes/assumptions/12.md). -/
def spnBudget : Nat := 65536

/-- SPEED, the CE2 program of a zero crossing (R170, R188). -/
def spnSpeed (s : State) (upset : Option Upset) : State :=
  let (c, s) := ceProgram s 2 0 spnBudget upset none
  if c.state = .parity then spnParity s c.pc upset else s

/-- Whether OFFSPEED is judged (R190): SPN LOCKED and no rung change between HOLDING and RELEASE. -/
def offspeedJudged (s : State) : Bool := spnState s == spnLocked && s.rd Reg.angRungPhase == phaseIdle

/-- Whether a revolution period in fabric cycles lies within `SPN_TOL.PPM` of the rung's (R190): the rung period is 3 × 10¹⁰
cycles divided by its rpm. -/
def periodInTolerance (s : State) (period : Nat) : Bool :=
  let rpm := rungRpmOf s (s.rd Reg.angRungCurrent)
  let d := ((period * rpm : Nat) : Int) - 30000000000
  decide (d.natAbs * 1000000 ≤ s.rd Reg.spnTolPpm * 30000000000)

/-- A revolution judged (R190). -/
def offspeedStep (s : State) (period : Nat) : State :=
  if !offspeedJudged s then s.setSpn { s.spn with offRevs := 0 }
  else if periodInTolerance s period then (s.clr Reg.spnStatusOffspeed).setSpn { s.spn with offRevs := 0 }
  else s.setSpn { s.spn with offRevs := s.spn.offRevs + 1 }

/-- ZERO_CROSSING (R188 to R190): the speed is measured; ZC_COAST ends; ACCEL passes to LOCKED within 1 % of the target rung;
in LOCKED SPEED runs; a crossing that ends a revolution gives REV_PERIOD and is judged for OFFSPEED. -/
def zeroCrossing (rpm period : Nat) (upset : Option Upset) (s : State) : Host.Outcome State Fault Refusal :=
  let s := s.wr Reg.spnStatusRpm rpm
  let s := s.setSpn { s.spn with missed := 0 }
  let s := if spnState s = spnZcCoast then spnEnter s s.spn.coastFrom else s
  let target := rungRpmOf s s.spn.rung
  let s := if spnState s = spnAccel ∧ ((rpm : Int) - target).natAbs * 100 ≤ target then
      ((spnEnter s spnLocked).wr Reg.angRungCurrent s.spn.rung).wr Reg.angRungSchedRung s.spn.rung
    else s
  let s := if spnState s = spnLocked then spnSpeed s upset else s
  .next (if period = 0 then s else offspeedStep (s.wr Reg.angRevPeriodCycles period) period)

/-- ZC_WINDOW_MISS (R189, R79): a crossing absent from its window; commutation goes on by the timer; outside LOCKED the
revolution index is lost. -/
def execZcWindowMiss (s : State) : Host.Outcome State Fault Refusal :=
  let st := spnState s
  if st = spnAccel ∨ st = spnLocked ∨ st = spnZcCoast then
    let s := s.bump Reg.spnCountsZcMissed
    let s := if s.rd Reg.angStatusState = angLocked then s else
      let s := s.clr Reg.angStatusIndexKnown
      s.wr Reg.angPosValid (bit (angValid s))
    let s := s.setSpn { s.spn with missed := s.spn.missed + 1, coastFrom := if st = spnZcCoast then s.spn.coastFrom else st }
    .next (if st = spnZcCoast then s else spnEnter s spnZcCoast)
  else .next s

/-- ZC_LOST (R189): missing crossing number ZC_COAST + 1 in a row. -/
def execZcLost (s : State) : Host.Outcome State Fault Refusal :=
  .next (if spnState s = spnZcCoast ∧ s.rd Reg.spnZcCoastValue < s.spn.missed then spnFails s 2 else s)

/-- OFFSPEED_SET (R190): REVS revolutions in a row out of tolerance; both on-track flags are held low. -/
def execOffspeedSet (s : State) : Host.Outcome State Fault Refusal :=
  if offspeedJudged s && decide (s.rd Reg.spnTolRevs ≤ s.spn.offRevs) && !s.flag Reg.spnStatusOffspeed then
    let s := (s.set Reg.spnStatusOffspeed).set Reg.spnIrqStatusOffspeed
    .next (setOnTrack (setOnTrack s 0 false) 1 false)
  else .next s

/-- SPEED_BELOW_FLY_MIN (R190): below FLY_MIN_PCT of the lowest rung while a loop is in a state other than PARKED, RETRACTING
and FAILED. -/
def execSpeedBelowFlyMin (rpm : Nat) (s : State) : Host.Outcome State Fault Refusal :=
  let live (n : Nat) : Bool :=
    let st := srvState s n
    st != srvParked && st != srvRetracting && st != srvFailed
  .next (if rpm * 100 < spindleNat s 0x18 2 * rungRpmOf s (lowestRung s) ∧ (live 0 || live 1)
    then hvRetractBoth s 1 11 else s)

/-- SPINDLE_BRAKE_DONE (R188, R451): braking has brought the spindle below 300 rpm: STOPPED, or ALIGN where START brakes a
coasting spindle. An accepted CLEAR takes effect below 300 rpm too. -/
def spindleBrakeDone (rpm : Nat) (s : State) : Host.Outcome State Fault Refusal :=
  if 300 ≤ rpm then .next s else
  let s := s.wr Reg.spnStatusRpm rpm
  if spnState s = spnBrake then
    if s.spn.brakeToAlign then .next (spnEnter (s.setSpn { s.spn with brakeToAlign := false }) spnAlign)
    else .next (spnEnter s spnStopped)
  else if spnState s = spnFault ∧ s.spn.clearing then
    .next ((spnEnter (s.setSpn { s.spn with clearing := false }) spnStopped).clr Reg.spnFaultCause)
  else .next s

/-- RETURN_SETTLE_TIMEOUT (R86): a RETURN does not settle within 3.9 s: the change ends with SPINDLE and SPN faults with
RUNG_SETTLE. -/
def execReturnSettleTimeout (s : State) : Host.Outcome State Fault Refusal :=
  .next (if s.ang.returning then spnFails s 5 else s)

/-! ## The HV retract engine (R191) -/

/-- RETRACT_START (R191): a trigger for the actuators of a mask, with its CAUSE code. -/
def execRetractStart (mask cause : Nat) (s : State) : Host.Outcome State Fault Refusal :=
  let s := s.when (mask.testBit 0) fun s => hvRetract s 0 cause 10
  .next (s.when (mask.testBit 1) fun s => hvRetract s 1 cause 10)

/-- The engine passes to its next phase, or from LATCH to DONE. -/
def hvAdvance (s : State) (n : Nat) : State :=
  let p := s.rd (Reg.hvRetractPhase.elem n)
  if !s.flag (Reg.hvRetractActive.elem n) then s
  else if p = hvLatch then
    let s := ((s.wr (Reg.hvRetractPhase.elem n) hvDone).clr (Reg.hvRetractActive.elem n)).set (Reg.hvRetractDone.elem n)
    if s.flag (Reg.hvRetractDone.elem 0) && s.flag (Reg.hvRetractDone.elem 1) then
      (s.clr Reg.hvbStatusRetractLine).clr Reg.hvbCtlRetract
    else s
  else s.wr (Reg.hvRetractPhase.elem n) (p + 1)

/-- RETRACT_PHASE_END (R191). -/
def execRetractPhaseEnd (n : Nat) (s : State) : Host.Outcome State Fault Refusal := .next (hvAdvance s n)

/-- RETRACT_PHASE_TIMEOUT (R191): BRAKE or MOVE reaches its time limit: TIMEOUT, the fault cause, and the next phase. CLIMB and
LATCH end at theirs by design. -/
def execRetractPhaseTimeout (n : Nat) (s : State) : Host.Outcome State Fault Refusal :=
  let p := s.rd (Reg.hvRetractPhase.elem n)
  if p = hvBrake ∨ p = hvMove then
    .next (hvAdvance (hvFault (s.set (Reg.hvRetractTimeout.elem n)) 128) n)
  else .next (hvAdvance s n)

end Sys2Proof.Machine
end

