-- ==== Sys2Proof/Machine/Modes.lean ====
section
/-!
DEFINITION. Operating modes (spec/01_architecture.md, R33 to R41; spec/16_resets.md, R457 to R460; spec/10_host_interface.md,
R313 to R315): entry into REST, STANDBY and SERVICE, the loads and unloads that belong to them, the wake by a media command,
and the rows whose events carry a mode change on.
-/

namespace Sys2Proof.Machine

/-- A state applied after a meaning that goes on. -/
def afterNext (o : Host.Outcome State Fault Refusal) (f : State → State) : Host.Outcome State Fault Refusal :=
  match o with
  | .next s => .next (f s)
  | o => o

/-! ## Rungs of power states (R312, R313) -/

/-- The rung of an operational power state, or CEILING if that is slower, or what R315 calls for. -/
def psRung (s : State) (ps : Nat) : Nat :=
  max (min (ps + s.hst.idleStep) (lowestRung s)) (s.rd Reg.angRungCeiling)

/-- A rung change to a target: started at basic level; at expert level TARGET alone is written (R313). -/
def rungSelect (s : State) (rung : Nat) : State :=
  if expert s Reg.angModeLevel then s.wr Reg.angRungTarget rung else rungAsk s rung

/-! ## Mode changes (R34, R37, R460) -/

/-- The loops that carry heads: present actuators in a state other than PARKED and FAILED. -/
def loadedActs (s : State) : List Nat :=
  s.actuators.filter fun n => srvState s n != srvParked && srvState s n != srvFailed

/-- Every present actuator in service follows. -/
def allFollow (s : State) : Bool :=
  s.actuators.all fun n => !s.serving (bitSrv n) || srvState s n == srvFollow

/-- An actuator unloads through UNLOAD (R186, R193). -/
def unloadBegin (s : State) (n : Nat) : State := (srvProgramOnce (srvEnter s n srvUnloading) n 3 s.fullAngle).2

/-- Whether the heads may begin to unload: no rung change, and each loaded loop in SETTLE or FOLLOW with no plank. -/
def mayUnload (s : State) : Bool :=
  s.rd Reg.angRungPhase == phaseIdle && (loadedActs s).all fun n =>
    (srvState s n == srvSettle || srvState s n == srvFollow) && !(s.bwk.get n).run.begun

/-- Automatic loads on a locked spindle, each present actuator once (R193). -/
def autoLoad (s : State) : State :=
  if spnState s ≠ spnLocked then s else
  s.each (s.actuators.filter fun n =>
      s.serving (bitSrv n) && srvState s n == srvParked && (s.srv.get n).bootLoads == 0) fun s n => bootLoad s n s.fullAngle

/-- SERVICE is entered: sequencers released from the hold of the mode, and the rung of the selected state asked for (R313). -/
def serviceEnter (s : State) (cause : Nat) : State :=
  let s := enterMode (s.setChange none) modeService cause
  let s := bwkUnhold (bwkUnhold s 0) 1
  let r := psRung s s.hst.psOp
  if r = s.rd Reg.angRungCurrent then s else rungSelect s r

/-- A return to SERVICE begins: the spindle starts at the lowest rung where it stands, and the loads follow (R313, R460). -/
def wakeBegin (s : State) (mode cause : Nat) : State :=
  let s := s.setSrv 0 { s.srv.get 0 with bootLoads := 0 }
  let s := s.setSrv 1 { s.srv.get 1 with bootLoads := 0 }
  let s := s.setChange (some { mode, cause })
  let s := if s.gated.isEmpty && spnState s == spnStopped then spnStart s (lowestRung s) 0 else s
  if mode = modeService ∧ s.gated.isEmpty then autoLoad s else s

/-- RECOVERY entered: the host stopped, the control cores held, PCIe not enabled, the spindle stopped (R35, R39). -/
def recoveryEnter (s : State) (cause : Nat) : State :=
  let s := calStop (hostStop s)
  let s := (s.wr Reg.fltCoreHeld 15).clr Reg.sysCoreRelRun
  let s := linkSet (linkSet s 0 0 0) 1 0 0
  let s := if spnState s = spnStopped ∨ spnState s = spnBrake ∨ spnState s = spnFault then s
    else spnEnter (s.setSpn { s.spn with brakeToAlign := false, waiting := false }) spnBrake
  { enterMode (s.setChange none) modeRecovery cause with boot := .done }

/-- The change under way carried on as far as the state allows. -/
def changeStep (s : State) (c : ModeChange) : State :=
  if c.mode = modeRecovery then
    if s.flt.safe = .none ∧ (loadedActs s).isEmpty then recoveryEnter s c.cause else s
  else if c.mode = modeService then
    let s := if s.gated.isEmpty && spnState s == spnStopped then spnStart s (lowestRung s) 0 else s
    if !s.gated.isEmpty then s
    else if spnState s == spnLocked && allFollow s then serviceEnter s c.cause
    else autoLoad s
  else if s.opMode = modeStandby then
    -- PS3 selected in STANDBY
    if !s.gated.isEmpty then s
    else if spnState s = spnStopped then spnStart s (lowestRung s) 0
    else if spnState s = spnLocked then
      let s := enterMode (s.setChange none) modeRest c.cause
      if c.wake then wakeBegin s modeService 0x13 else s
    else s
  else if !c.unloading then
    if c.mode == modeRest && s.rd Reg.angRungPhase == phaseIdle && (rungJudge s (lowestRung s)).isNone
        && !expert s Reg.angModeLevel && !(loadedActs s).isEmpty then
      rungStart s (lowestRung s)
    else if mayUnload s then
      s.each (loadedActs s) (fun s n => unloadBegin s n) |>.setChange (some { c with unloading := true })
    else s
  else if !(loadedActs s).isEmpty then s
  else if c.mode = modeRest then
    let s := enterMode (s.setChange none) modeRest c.cause
    if c.wake then wakeBegin s modeService 0x13 else s
  else
    let s := if spnState s = spnStopped ∨ spnState s = spnBrake ∨ spnState s = spnFault then s
      else spnEnter (s.setSpn { s.spn with brakeToAlign := false, waiting := false }) spnBrake
    let s := enterMode (s.setChange none) modeStandby c.cause
    if c.wake then wakeBegin s modeService 0x13 else s

/-- The head load of B4 may begin: HOLDUP_READY, or the hold-up test has failed (R428); after a DRST both retracts are DONE (R451). -/
def bootLoadReady (s : State) : Bool :=
  (s.flag Reg.pwrStatusHoldupReady || s.flag Reg.pwrStatusHoldupFail)
  && (s.rd Reg.rstCauseKind == 0 || [0, 1].all fun n => s.flag (Reg.hvRetractDone.elem n))

/-- The automation's next step: the loads of B4 on a locked spindle, or the mode change under way; a change whose heads need
no unloading passes through both of its steps. -/
def modeAdvance (s : State) : State :=
  if s.boot = .b4 then (if bootLoadReady s then autoLoad s else s)
  else match s.change with
    | none => s
    | some c =>
      let s := changeStep s c
      match s.change with
      | some d => if d.unloading && !c.unloading && (loadedActs s).isEmpty then changeStep s d else s
      | none => s

/-- A transition whose heads have not begun to unload is abandoned (R37): the sequencers go on, and the rung of the selected
state is asked for where a change towards the lowest is under way. -/
def changeAbandon (s : State) : State :=
  let s := bwkUnhold (bwkUnhold (s.setChange none) 0) 1
  if s.rd Reg.angRungPhase = phaseIdle then s else rungSelect s (psRung s s.hst.psOp)

/-- A transition asked for by a power state, APST or a media command (R34, R36, R37): one that the table does not list for the
current mode leaves the mode as it is; one that meets a rung change takes effect when that ends. -/
def modeRequest (s : State) (mode cause : Nat) : State :=
  let from_ := s.opMode
  if s.flt.safe ≠ .none ∨ from_ = modeBoot ∨ from_ = modeRecovery ∨ from_ = modeSafe then s
  else if s.change.any (fun c => c.unloading) then
    if mode = modeService then s.setChange (s.change.map fun c => { c with wake := true }) else s
  else if from_ = modeService then
    if mode = modeService then (if s.change.isSome then changeAbandon s else s)
    else if s.rd Reg.angRungPhase ≠ phaseIdle then s.setAng { s.ang with powerPend := some (mode * 256 + cause) }
    else modeAdvance (s.setChange (some { mode, cause }))
  else if mode = modeService then wakeBegin s mode cause
  else if from_ = modeRest then
    if mode = modeStandby then modeAdvance (s.setChange (some { mode, cause, unloading := true })) else s
  else if mode = modeRest then modeAdvance (s.setChange (some { mode, cause }))
  else s

/-- A command that requires media (R37): a transition whose heads have not begun to unload is abandoned, one further on is
completed and left at once, and REST and STANDBY are left for SERVICE. -/
def mediaWake (s : State) : State :=
  match s.change with
  | some c =>
    if c.mode = modeService then s
    else if c.unloading ∨ s.opMode ≠ modeService then s.setChange (some { c with wake := true })
    else changeAbandon s
  | none => if s.opMode = modeRest ∨ s.opMode = modeStandby then modeRequest s modeService 0x13 else s

/-- A host power-state trigger that waited for the end of a rung change takes effect (R37, R88). -/
def powerPendApply (s : State) : State :=
  match s.ang.powerPend with
  | some v =>
    if s.rd Reg.angRungPhase = phaseIdle then
      modeRequest (s.setAng { s.ang with powerPend := none }) (v / 256) (v % 256)
    else s
  | none => s

/-! ## Rows that carry a mode change on -/

/-- UNLOAD_RAMP_REACHED (R173, R193). -/
def execUnloadRampReached (n : Nat) (s : State) : Host.Outcome State Fault Refusal :=
  afterNext (unloadRampReached n s) modeAdvance

/-- RETRACT_DONE (R173, R193). -/
def execRetractDone (n full : Nat) (s : State) : Host.Outcome State Fault Refusal :=
  afterNext (retractDone n full s) modeAdvance

/-- SETTLE_RUN_MET (R173). -/
def execSettleRunMet (n : Nat) (s : State) : Host.Outcome State Fault Refusal :=
  afterNext (settleRunMet n s) modeAdvance

/-- REACQUIRED (R182). -/
def execReacquired (n full : Nat) (s : State) : Host.Outcome State Fault Refusal :=
  afterNext (reacquired n full s) modeAdvance

/-- ZERO_CROSSING (R188 to R190). -/
def execZeroCrossing (rpm period : Nat) (upset : Option Upset) (s : State) : Host.Outcome State Fault Refusal :=
  afterNext (zeroCrossing rpm period upset s) modeAdvance

/-- SPINDLE_BRAKE_DONE (R188, R451). -/
def execSpindleBrakeDone (rpm : Nat) (s : State) : Host.Outcome State Fault Refusal :=
  afterNext (spindleBrakeDone rpm s) modeAdvance

/-- RUNG_RETUNE_DONE (R84, R89): CURRENT and the schedule switch to the rung reached, the sequencers are released, RESULT is
written, and a power-state trigger or a mode change that waited goes on. An expert change waits for its RELEASE. -/
def execRungRetuneDone (s : State) : Host.Outcome State Fault Refusal :=
  if s.rd Reg.angRungPhase ≠ phaseRetune then .next s else
  let r := rungHeading s
  let s := (s.wr Reg.angRungCurrent r).wr Reg.angRungSchedRung r
  let s := s.setSpn { s.spn with rung := r }
  if s.ang.returning then .next (modeAdvance (powerPendApply (rungFinish s rungAbandoned)))
  else if expert s Reg.angModeLevel then .next (s.setAng { s.ang with retuned := true })
  else .next (modeAdvance (powerPendApply (rungFinish s rungDone)))

end Sys2Proof.Machine
end

