-- ==== Sys2Proof/Machine/HostQueue.lean ====
section
/-!
DEFINITION. Queues of the host interface (spec/10_host_interface.md, R286 to R293, R304 to R310): doorbells, fetch and
placement, the begin of a command, Abort, posting, the admin inbox, and the links.
-/

namespace Sys2Proof.Machine

/-! ## Links (R284, R286) -/

/-- The port a lane belongs to (R284). -/
def lanePort (s : State) (lane : Nat) : Nat := if s.sim.cfg.portMode = 0 then 0 else lane / 2

/-- Lanes of a port that the roster holds and that have not failed. -/
def lanesUp (s : State) (p : Nat) : List Nat :=
  (List.range 4).filter fun l =>
    lanePort s l == p && s.present (bitLane l) && !(s.rd Reg.hstStatusLanesDown).testBit l

/-- The widest width that the remaining lanes of a port support under lane reversal (R286), as a lane count. -/
def widestWidth (s : State) (p : Nat) : Nat :=
  let up := lanesUp s p
  if s.sim.cfg.portMode = 0 then
    if up.length = 4 then 4
    else if (up.contains 0 && up.contains 1) || (up.contains 3 && up.contains 2) then 2
    else if up.contains 0 || up.contains 3 then 1 else 0
  else if up.length = 2 then 2 else if up.isEmpty then 0 else 1

/-- PCIE_LINK_UP (R284, R286): a port has trained, at a width its lanes support and a speed from 1 to 4. -/
def execPcieLinkUp (port width speed : Nat) (s : State) : Host.Outcome State Fault Refusal :=
  if 1 < port + bit (port == 1 && s.sim.cfg.portMode == 0) ∨ width = 0 ∨ widestWidth s port < width ∨ width = 3 ∨ speed = 0
      ∨ 4 < speed ∨ s.opMode = modeRecovery ∨ s.flag Reg.rstStatusPerst ∨ s.boot = .por then .next s
  else .next (linkSet s port width speed)

/-- PCIE_LANE_FAIL (R286): the lane is excluded, and the port retrains at the widest width that is left, or goes down.
`int`: the interruption in units of 10 ns. -/
def execPcieLaneFail (lane int : Nat) (s : State) : Host.Outcome State Fault Refusal :=
  if 4 ≤ lane ∨ !s.present (bitLane lane) ∨ (s.rd Reg.hstStatusLanesDown).testBit lane then .next s else
  let s := (s.wr Reg.hstStatusLanesDown (maskSet (s.rd Reg.hstStatusLanesDown) lane)).set Reg.hstIrqStatusLaneLost
  let p := lanePort s lane
  let s := containedInt s srcHst p 0x0051 lane int
  if !portUp s p then .next s else
  let s := s.bump Reg.hstCounts1Retrains
  .next (linkSet s p (widestWidth s p) (if p = 0 then s.rd Reg.hstStatusP0Speed else s.rd Reg.hstStatusP1Speed))

/-! ## Doorbells (R288, R309) -/

/-- An Invalid Doorbell Register event (type Error, information 0), or Invalid Doorbell Write Value (information 1). -/
def badDoorbell (s : State) (fn info : Nat) : State := aerPump (asyncEvent s fn (info * 2 ^ 8 + 0x10000)) fn 8

/-- SQ_TAIL_DOORBELL (R288): a tail of an existing queue; one of an absent queue is ignored and raises the event. -/
def execSqTailDoorbell (fn qid value : Nat) (s : State) : Host.Outcome State Fault Refusal :=
  match sqFind s fn qid with
  | none => .next (badDoorbell s fn 0)
  | some q => if value < q.size then .next (sqPut s { q with tail := value }) else .next (badDoorbell s fn 1)

/-- CQ_HEAD_DOORBELL (R309): slots are freed, and the pending list drains in ready order. -/
def execCqHeadDoorbell (fn qid value : Nat) (s : State) : Host.Outcome State Fault Refusal :=
  match cqFind s fn qid with
  | none => .next (badDoorbell s fn 0)
  | some q =>
    if value < q.size then .next (pendShow (cqDrain (cqPut s { q with head := value }) fn qid q.pend.length))
    else .next (badDoorbell s fn 1)

/-! ## Media need and wake (R37, R38, R315) -/

/-- A read whose every sector is held by the cache or the side buffer, or reads as zeros. -/
def servedByCache (s : State) (c : HostCmd) : Bool :=
  c.opc == 0x02 && ((List.range c.nlb).map fun i => c.slba + i).all fun lba =>
    c.safe.contains lba || match bcmFind s (lineOf c.ns lba) with
      | some l => l.state (lba % 16) == 1 || l.state (lba % 16) == 2
      | none => false

/-- Whether a command requires media (R38). -/
def needsMedia (s : State) (c : HostCmd) : Bool :=
  s.opMode == modeStandby
  || (c.status.isNone
      && !(s.opMode == modeRest && servedByCache s c)
      && !(c.opc == 0x00 && !(earlier s.hst.cmds c.tag).any fun e => e.isWrite && e.ns == c.ns))

/-- What a placed command that requires media starts: the wake, or the way back from an idle cadence step (R37, R315). -/
def mediaNeed (s : State) (c : HostCmd) : State :=
  if !needsMedia s c then s else
  let s := mediaWake s
  if s.hst.idleStep = 0 ∨ s.opMode ≠ modeService then s else
  let s := s.setHst { s.hst with idleStep := 0 }
  rungSelect s (psRung s s.hst.psOp)

/-! ## Placement (R294, R301, R303, R304, R311) -/

/-- An actuator of a namespace is lost (R311). -/
def nsActLost (s : State) (e : NsEntry) : Bool := [0, 1].any fun a => e.actMask.testBit a && !s.actuatorServing a

/-- Sectors that a read returns as zeros: those at or above their zone's write pointer as it stands at placement (R301). -/
def zeroSectors (s : State) (ns slba n : Nat) : List Nat :=
  if !nsZoned s ns then [] else
  let zs := max s.sim.cfg.zoneSectors 1
  ((List.range n).map fun i => slba + i).filter fun lba => decide ((zoneRec s ns (lba / zs)).wp ≤ lba % zs)

/-- The status that placement gives a command, if it ends there (R294, R298, R301, R303, R311). -/
def placeStatus (s : State) (c : HostCmd) : Option Nat :=
  match nsOf s c.ns with
  | none => some stInvalidNamespace
  | some e =>
    let zoned := e.csi == 2
    let sees := (ctrlOf s c.fn).any fun k => k.nsMask.testBit (c.ns - 1)
    let io := c.opc == 0x01 || c.opc == 0x02 || c.opc == 0x08 || c.opc == 0x7D
    let known := c.opc == 0x00 || c.opc == 0x01 || c.opc == 0x02 || c.opc == 0x08
      || (zoned && (c.opc == 0x79 || c.opc == 0x7A || c.opc == 0x7D))
    let zs := max s.sim.cfg.zoneSectors 1
    if !sees then some stInvalidNamespace
    else if !known then some stInvalidOpcode
    else if s.hst.blocked.contains 0 then some stSanitizeBusy
    else if s.hst.blocked.contains c.ns then some stFormatBusy
    else if !zoned && nsActLost s e && c.opc != 0x00 then some stNsNotReady
    else if (c.opc == 0x01 || c.opc == 0x02) && decide (512 < c.nlb) then some stInvalidField
    else if c.opc == 0x7D && decide (256 < c.nlb) then some stInvalidField
    else if io && decide (nsze s c.ns < c.slba + c.nlb) then some stLbaRange
    else if c.opc == 0x79 && decide (nsze s c.ns ≤ c.slba) && !c.selectAll then some stLbaRange
    else if c.isWrite && zoned then zoneWriteRefusal s c.ns c.slba c.nlb (c.opc == 0x7D)
    else if c.isWrite && zoneRec s c.ns (c.slba / zs) == { state := 13 } then some stHostWriteFault
    else if c.opc == 0x02 && zoned
        && ((List.range ((c.slba + c.nlb - 1) / zs - c.slba / zs + 1)).any fun k => zoneState s c.ns (c.slba / zs + k) == 15) then
      some stZoneOffline
    else none

/-- The command that a submission entry is. -/
def cmdFromSqe (fn sqid tag hart : Nat) (sqe : List Byte) : HostCmd :=
  let at_ (i n : Nat) : Nat := leValue ((sqe.drop i).take n)
  let opc := at_ 0 1
  let n := if opc = 0x00 then 0 else if opc = 0x79 ∨ opc = 0x7A then 1 else at_ 48 2 + 1
  { tag, fn, sqid, cid := at_ 2 2, opc, ns := at_ 4 4, slba := at_ 40 8, nlb := n, sqe := padBytes 64 sqe, seq := 0, alba := 0
    status := none, done := false, begun := false, fetched := false, direct := true, twin := false, laid := [], safe := []
    given := [], faults := 0, ended := false, target := none, owner := hart }

/-- An I/O command placed in the overlap order (R258, R274, R291, R301, R304): its tag, its WRITE_SEQ, the write pointer's
check and advance, its record. A command that ends at placement is DONE with its status. -/
def placeCommand (s : State) (c : HostCmd) : State :=
  let zs := max s.sim.cfg.zoneSectors 1
  let st := placeStatus s c
  let z := c.slba / zs
  let c := { c with
    twin := s.flag Reg.jnlCtlTwin
    alba := if c.opc = 0x7D ∧ st = none then z * zs + (zoneRec s c.ns z).wp else 0
    safe := if c.opc = 0x02 then zeroSectors s c.ns c.slba c.nlb else [] }
  let (seq, s) := if c.isWrite then seqTake s else (0, s)
  let c := { c with seq }
  let s := if c.isWrite ∧ st = none ∧ nsZoned s c.ns then zoneAdvance s c.ns z c.nlb else s
  let s := s.setHst { s.hst with cmds := s.hst.cmds ++ [c] }
  let s := pmuEvent ((tagsShow s).addWrap Reg.hstCounts2Commands 1) 0 1 none none 1
  let s := intentWrite s c 1
  let s := match st with
    | none => s
    | some v => cmdDone (if v = stNsNotReady ∨ v = stHostWriteFault ∨ v = stLbaRange then errorAdd s { c with status := st } c.slba else s) c v
  mediaNeed s { c with status := st }

/-! ## Abort (R307) -/

/-- Whether Abort removes a command: LIVE, nothing begun, and neither a Write or Zone Append to a CSI 2 namespace nor a Zone
Management Send. -/
def abortable (s : State) (c : HostCmd) : Bool :=
  !c.done && !c.begun && !((c.opc == 0x01 || c.opc == 0x7D) && nsZoned s c.ns) && c.opc != 0x79

/-- An Abort matched once, as it is fetched. Its completion carries bit 0 of dword 0; with four outstanding, a fifth completes
with Abort Command Limit Exceeded. HST carries Aborts out at once, so none stays outstanding here. -/
def abortMatch (s : State) (fn cid sqid target : Nat) : State :=
  let tooMany := (ctrlOf s fn).any fun c => decide (4 ≤ c.aborts)
  let reply (s : State) (status dw0 : Nat) : State :=
    cqReady s 0 { fn, sqid := 0, cid, status, dw0, dw1 := 0, tag := none }
  if tooMany then reply s stAbortLimit 0 else
  match s.hst.cmds.find? fun c => c.fn == fn && c.sqid == sqid && c.cid == target && sqid != 0 with
  | some c =>
    if abortable s c then
      let s := (s.bump Reg.hstCounts0Aborted).setBcm { s.bcm with staged := s.bcm.staged.filter fun t => t.tag != c.tag }
      let s := cmdFree s c
      let s := cqReady s (cqOfSq s fn sqid)
        { fn, sqid, cid := c.cid, status := stAbortRequested, dw0 := 0, dw1 := 0, tag := none }
      reply s 0 0
    else reply (s.bump Reg.hstCounts0NotAborted) 0 1
  | none => reply (s.bump Reg.hstCounts0NotAborted) 0 1

/-- ABORT (R307). -/
def execAbort (fn cid sqid target : Nat) (s : State) : Host.Outcome State Fault Refusal :=
  if (ctrlOf s fn).isNone then .next s else .next (abortMatch s fn cid sqid target)

/-! ## Fetch (R291 to R293, R309) -/

/-- Entries in the admin inbox ring. -/
def inboxSize (s : State) : Nat := s.rd Reg.hstAdmRingEntries

/-- Whether the admin inbox has room (R293). -/
def inboxRoom (s : State) : Bool :=
  inboxSize s != 0 && (s.rd Reg.hstAdmProdIdx + 1) % inboxSize s != s.rd Reg.hstAdmConsIdx

/-- Whether a submission queue has an entry to fetch, and its completion queue no pending list (R309). -/
def sqReady (s : State) (q : SubQ) : Bool :=
  q.head != q.tail && (cqFind s q.fn q.cq).any fun c => c.pend.isEmpty

/-- The mode lets HST fetch: from B3 on, not in RECOVERY, not while the front end is paused; in SAFE only to be answered
(R39 to R41). -/
def mayFetch (s : State) : Bool :=
  if s.opMode = modeSafe then true
  else !s.hst.paused && s.opMode != modeRecovery
    && (s.opMode != modeBoot || s.boot == .b3 || s.boot == .b4)

/-- Queues of the same controller that are served ahead of one (R292): its admin queue, and under weighted round robin with
urgent class the urgent queues. -/
def aheadWaits (s : State) (c : Ctrl) (q : SubQ) : Bool :=
  q.qid != 0 && s.hst.sqs.any fun x => x.fn == q.fn && sqReady s x
    && (x.qid == 0 && inboxRoom s && decide (s.hst.admin.length < 1024)
        || (c.ams == 1 && x.qid != 0 && x.prio == 0 && q.prio != 0))

/-- An admin command placed in the inbox (R293): its SQE, the function index, zeros. -/
def inboxPut (s : State) (fn : Nat) (sqe : List Byte) : State :=
  let i := s.rd Reg.hstAdmProdIdx
  let s := s.store (s.rd Reg.hstAdmBaseAddr + 128 * i) (padBytes 64 sqe ++ [BitVec.ofNat 8 fn] ++ List.replicate 63 0)
  let s := s.wr Reg.hstAdmProdIdx ((i + 1) % max 1 (inboxSize s))
  let s := s.setHst { s.hst with admin := s.hst.admin ++ [(fn, leValue ((sqe.drop 2).take 2))] }
  s.set Reg.hstIrqStatusAdmin

/-- The admin commands that SAFE serves: Get Log Page, Identify, Get Features (R39). -/
def safeServes (opc : Nat) : Bool := opc == 0x02 || opc == 0x06 || opc == 0x0A

/-- COMMAND_FETCH (R291 to R293, R304, R309): the entry at the head of a queue is fetched. An admin command goes to the inbox,
an Abort is matched; an I/O command takes a free tag, is delivered to a hart that is online (R371), and is placed. In SAFE what is not served completes at once (R40). -/
def execCommandFetch (fn sqid tag hart : Nat) (sqe : List Byte) (s : State) : Host.Outcome State Fault Refusal :=
  match sqFind s fn sqid, ctrlOf s fn with
  | some q, some c =>
    let opc := leValue (sqe.take 1)
    let cid := leValue ((sqe.drop 2).take 2)
    if !mayFetch s || !sqReady s q || !portUp s (portOf fn) || aheadWaits s c q then .next s
    else
      let t := sqPut s { q with head := (q.head + 1) % q.size }
      if s.opMode = modeSafe ∧ !(sqid == 0 && safeServes opc) then
        .next (cqReady t q.cq { fn, sqid, cid, status := stInternalDnr, dw0 := 0, dw1 := 0, tag := none })
      else if sqid = 0 then
        if opc = 0x08 then .next (abortMatch t fn cid (leValue ((sqe.drop 40).take 2)) (leValue ((sqe.drop 42).take 2)))
        else if inboxRoom s && decide (s.hst.admin.length < 1024) then .next (inboxPut t fn sqe)
        else .next s
      else if 65536 ≤ s.hst.cmds.length then .next (s.set Reg.hstIrqStatusTagsOut)
      else if 65536 ≤ tag ∨ (cmdOf s tag).isSome ∨ !(s.rd Reg.fltCoreOnline).testBit hart then .next s
      else .next (placeCommand t (cmdFromSqe fn sqid tag hart sqe))
  | _, _ => .next s

/-- COMMAND_BEGIN (R305, R306, R38, R41): a command begins its media work and its transfer to the host once every earlier
conflicting one is DONE; in REST only one served without media. -/
def execCommandBegin (tag : Nat) (s : State) : Host.Outcome State Fault Refusal :=
  match cmdOf s tag with
  | none => .next s
  | some c =>
    let modeOk := s.opMode == modeService || (s.opMode == modeRest && !needsMedia s c)
    if c.begun || c.done || !mayBegin s c || !modeOk || s.hst.paused then .next s
    else
      let c := { c with begun := true }
      .next (writePump (intentWrite (setCmd s c) c 1))

/-! ## Posting (R308) -/

/-- The completion of a command: dwords 0 and 1 of a Zone Append carry ALBA. -/
def cmdCqe (c : HostCmd) : Cqe :=
  { fn := c.fn, sqid := c.sqid, cid := c.cid, status := c.status.getD 0
    dw0 := if c.opc = 0x7D then c.alba % 2 ^ 32 else 0, dw1 := if c.opc = 0x7D then c.alba / 2 ^ 32 else 0, tag := some c.tag }

/-- Steps 3 and 4 of a lane: the entry written, the vector signalled, the latch cleared. -/
def latchFinish (s : State) (lane : Nat) (l : Latch) : State :=
  let s := match cqFind s l.cqe.fn l.cq with
    | some q => if q.tail = l.slot then cqWrite s q l.cqe else s
    | none => s
  s.setHst { s.hst with latches := setNth s.hst.latches lane none }

/-- Whether a command's completion waits already: in a latch, or in a pending list. -/
def postWaits (s : State) (tag : Nat) : Bool :=
  s.hst.latches.any (fun l => l.any fun l => l.cqe.tag == some tag)
  || s.hst.cqs.any fun q => q.pend.any fun e => e.tag == some tag

/-- COMPLETION_POST (R308, R309): a lane posts a DONE record: latch, record FREE, entry and vector, latch clear; or the entry
joins the pending list of a full queue. While the link is down the lane waits with its latch set (R286). In SAFE and RECOVERY
nothing is posted (R35). -/
def execCompletionPost (lane tag : Nat) (s : State) : Host.Outcome State Fault Refusal :=
  match cmdOf s tag with
  | none =>
    -- a lane that waited for its link goes on
    match nth none s.hst.latches lane with
    | some l => .next (if portUp s (portOf l.cqe.fn) then latchFinish s lane l else s)
    | none => .next s
  | some c =>
    match cqFind s c.fn (cqOfSq s c.fn c.sqid) with
    | none => .next s
    | some q =>
      if !c.done || postWaits s tag || decide (4 ≤ lane) || (nth none s.hst.latches lane).isSome || s.hst.paused then .next s
      else if q.full || !q.pend.isEmpty then .next (cqReady s q.qid (cmdCqe c))
      else
        let l : Latch := { cq := q.qid, slot := q.tail, phase := q.phase, cqe := { cmdCqe c with tag := none } }
        let s := s.setHst { s.hst with latches := setNth s.hst.latches lane (some l) }
        let s := cmdFree s c
        .next (if portUp s (portOf c.fn) then latchFinish s lane l else s)

/-- AGGREGATION_TIME_EXPIRY (R295, R308): completions that coalescing held back are signalled. -/
def execAggregationTimeExpiry (fn vector : Nat) (s : State) : Host.Outcome State Fault Refusal :=
  let held := s.hst.cqs.filter fun q => q.fn == fn && q.vector == vector && q.agg != 0
  if held.isEmpty then .next s else
  let s := s.setHst { s.hst with
    cqs := s.hst.cqs.map fun q => if q.fn = fn ∧ q.vector = vector then { q with agg := 0 } else q
    signalled := if held.any fun q => q.ien then some (fn, vector) else s.hst.signalled }
  .next s

/-- LIVE commands that meet `p` are to be carried out again from the beginning of their unfinished work (R278): the data of a
write is fetched again, a read gives every sector again; sectors already counted stay counted. -/
def reexecute (s : State) (p : HostCmd → Bool) : State :=
  let again := s.hst.cmds.filter fun c => !c.done && p c
  let s := s.setBcm { s.bcm with staged := s.bcm.staged.filter fun t => !again.any fun c => c.tag == t.tag }
  s.setHst { s.hst with
    cmds := s.hst.cmds.map fun c => if !c.done && p c then { c with begun := false, fetched := false, given := [] } else c }

/-- FRONTEND_RESTART (R308, R372): after an uncorrectable read of HST state the front end starts again from the MRAM shadows:
every latch that is set is re-run from step 2, fetching and posting go on, and R278 applies to the LIVE records. `int`: the
interruption in units of 10 ns; `again`: a second such fault within 1 s, which loses HST and is device-fatal. -/
def execFrontendRestart (int : Nat) (again : Bool) (s : State) : Host.Outcome State Fault Refusal :=
  if again then .next (deviceFatal s srcHst 0 0x0063 0 false) else
  let s := containedInt s srcHst 0 0x0050 0 int
  let s := s.each [0, 1, 2, 3] fun s lane => match nth none s.hst.latches lane with
    | some l => if portUp s (portOf l.cqe.fn) then latchFinish s lane l else s
    | none => s
  .next (reexecute s fun _ => true)

/-! ## The admin inbox (R293) -/

/-- ADMIN_INBOX_CONSUME (R293): a consumer index that moves forward and does not pass the producer. -/
def execAdminInboxConsume (data : Word) (s : State) : Host.Outcome State Fault Refusal :=
  let n := inboxSize s
  let v := fieldOf data 0 10
  let old := s.rd Reg.hstAdmConsIdx
  let ok := n != 0 && decide (v < n) && decide (ringDist n old v ≤ ringDist n old (s.rd Reg.hstAdmProdIdx))
  .next ((if ok then s.wr Reg.hstAdmConsIdx v else corrected s).answer 0)

/-- ADMIN_COMPLETION_GO (R293, R309): the completion held in HST_ADM_CPL0 to HST_ADM_CPL2 is posted to the admin queue of its
function, or queued; GO clears. -/
def execAdminCompletionGo (data : Word) (s : State) : Host.Outcome State Fault Refusal :=
  let s := s.wr Reg.hstAdmCpl2Status (fieldOf data 0 15)
  if !data.getLsbD 31 then .next (s.answer 0) else
  let fn := s.rd Reg.hstAdmCpl1Func
  let cid := s.rd Reg.hstAdmCpl1Cid
  let e : Cqe := { fn, sqid := 0, cid, status := s.rd Reg.hstAdmCpl2Status, dw0 := s.rd Reg.hstAdmCpl0Dw0, dw1 := 0, tag := none }
  let full := (cqFind s fn 0).any fun q => q.full || !q.pend.isEmpty
  let s := cqReady s 0 e
  let s := if full then s else s.setHst { s.hst with admin := s.hst.admin.filter fun a => a != (fn, cid) }
  .next (s.answer 0)

end Sys2Proof.Machine
end

