-- ==== Sys2Proof/Machine/Ledger.lean ====
section
/-!
DEFINITION. The margin ledger and the retirement of a head (spec/14_calibration_ageing.md, R398, R399, R403): where its
records stand in MRAM, how one is written, which zones a surface carries.
-/

namespace Sys2Proof.Machine

/-- Places of the ledger's records (R398). -/
def ledgerBase : Nat := 0x10B00000
def deviceRec : Nat := 0x10B00040
def headBandRec (head band : Nat) : Nat := 0x10B01000 + 64 * (head * 8 + band)
def cellRec (head region : Nat) : Nat := 0x10B08000 + 64 * (head * 32 + region)
def proposalRec (i : Nat) : Nat := 0x10B20000 + 32 * i
def historyRec (i : Nat) : Nat := 0x10C80000 + 64 * i

/-- The CRC-16 of R277. -/
def crc277 (bs : List Byte) : Nat := crc16 0x1021 0xFFFF bs

/-- Fields of a record replaced, as (offset, size, value); the record is written whole, with its CRC-16 last (R398, R399). -/
def recPut (s : State) (a size : Nat) (l : List (Nat × Nat × Nat)) : State :=
  let old := s.bytes a (size - 2)
  let bs := l.foldl (fun b e => b.take e.1 ++ leBytes e.2.1 e.2.2 ++ b.drop (e.1 + e.2.1)) old
  s.store a (bs ++ leBytes 2 (crc277 bs))

/-- A record's CRC-16 stands. -/
def recOk (s : State) (a size : Nat) : Bool :=
  !s.poisoned a size && crc277 (s.bytes a (size - 2)) == s.loadNat (a + size - 2) 2

/-- A field of a record. -/
def recGet (s : State) (a off size : Nat) : Nat := s.loadNat (a + off) size

/-- The head of a surface. -/
def headOfSurface (s : State) (su : Nat) : Nat := (s.sim.cfg.heads.findIdx? fun h => h.surface == su).getD 0

/-- Zones of one namespace that lie on a surface, walking its groups in zone order from zone `base` on. -/
def surfaceZonesIn (c : Structure) (su : Nat) : List (Nat × Nat) → Nat → List Nat
  | [], _ => []
  | (r, x) :: rest, base =>
    let n := runBands (regionRuns c x r)
    (if x = su then (List.range n).map fun i => base + i else []) ++ surfaceZonesIn c su rest (base + n)

/-- Zones of the zoned namespaces that lie on a surface, as (namespace, zone). -/
def surfaceZones (s : State) (su : Nat) : List (Nat × Nat) :=
  (List.range s.sim.cfg.ns.length).flatMap fun i =>
    match nsOf s (i + 1) with
    | some e => if e.csi = 2 then (surfaceZonesIn s.sim.cfg su (zoneGroups s e) 0).map fun z => (i + 1, z) else []
    | none => []

/-- Tracks that the CSI 0 namespaces take on each surface (R114). -/
def convTaken (c : Structure) : ConvTaken :=
  c.ns.foldl (fun t n => if n.csi = 0 then (convTake c (nsSurfaces c n) t (n.convZones * c.zoneSectors)).1 else t) []

/-- A head carries conventional zones. -/
def carriesConv (s : State) (su : Nat) : Bool := Store.read 0 (convTaken s.sim.cfg) su != 0

/-- The STATE of a head's records written (R399, R403). -/
def headStatePut (s : State) (head v : Nat) : State :=
  s.each (List.range 8) fun s b => recPut s (headBandRec head b) 64 [(0, 1, head), (1, 1, b), (0x12, 1, v)]

/-- Whether a proposed retirement goes on: at basic level, or once its proposal has been applied (R403, R407). -/
def retireGoes (s : State) (head : Nat) : Bool :=
  recGet s (headBandRec head 0) 0x12 1 == 1 && !carriesConv s (headSurface s head)
  && (!expert s Reg.ageModeLevel
      || (List.range 64).any fun i => recGet s (proposalRec i) 0 1 == 3 && recGet s (proposalRec i) 1 1 == 2
          && recGet s (proposalRec i) 2 1 == head)

/-- A head proposed for retirement none of whose zones is left in service, and that carries no conventional zone, is retired:
its retire bit is written and its STATE is 2 (R403). -/
def headRetireDone (s : State) (head : Nat) : State :=
  if retireGoes s head ∧ (surfaceZones s (headSurface s head)).all fun z => (zoneRec s z.1 z.2).state == 15 then
    headStatePut (retireWrite s (bitHead head)) head 2
  else s

end Sys2Proof.Machine
end

