-- ==== Sys2Proof/Machine/HostData.lean ====
section
/-!
DEFINITION. I/O commands of the host interface (spec/10_host_interface.md, R298 to R306; spec/09_journal.md, R259, R264, R268;
spec/12_cache_memory.md, R346): the data transfer of reads and writes, flush, and the zone commands.
-/

namespace Sys2Proof.Machine

/-- The command with a tag and an opcode that has not ended. -/
def liveCmd (s : State) (tag opc : Nat) : Option HostCmd :=
  match cmdOf s tag with
  | some c => if c.opc = opc ∧ !c.done then some c else none
  | none => none

/-! ## Writes (R259, R264, R298, R346) -/

/-- The protection bytes that sector `i` of a write is stored with: generated by PRACT, or as fetched. -/
def writePi (s : State) (c : HostCmd) (i : Nat) (user info : List Byte) : List Byte :=
  let f := formatOf s c.ns
  if f.lbaf = 0 then []
  else if f.pi ≠ 0 ∧ c.pract then piBytes user (c.cdw 15 % 65536) (if f.pi = 3 then c.refBase else c.refBase + i)
  else padBytes 8 ((info.drop (8 * i)).take 8)

/-- The first protection check that fails over the sectors of a write, as status and LBA (R298). -/
def writePiFail (s : State) (c : HostCmd) (data info : List Byte) : Option (Nat × Nat) :=
  let f := formatOf s c.ns
  if f.lbaf = 0 ∨ f.pi = 0 ∨ c.pract then none else
  ((List.range c.nlb).map fun i =>
    (piCheck f.pi c.prchk (padBytes 4096 ((data.drop (4096 * i)).take 4096)) (padBytes 8 ((info.drop (8 * i)).take 8))
      (c.cdw 15 % 65536) (c.cdw 15 / 65536) (c.refBase + i)).map fun st => (st, writeFirst c + i)).findSome? id

/-- The twin record of a direct write issued (R264, R265): its place on the other actuator, or a substitution. -/
def twinIssue (s : State) (c : HostCmd) : State :=
  let act := actOfLba s c.ns (writeFirst c)
  let (target, degraded) := twinTarget s act (min c.nlb 64 + 1) s.sim.cfg.peatRings
  let s := setCmd s { c with target }
  twinDegraded (s.setJnl { s.jnl with twins := c.tag :: s.jnl.twins }) degraded

/-- A write whose data is staged: its route at basic level, the place of its record, and the twin that goes with it (R259,
R261, R264). -/
def writeRoute (s : State) (c : HostCmd) (direct : Bool) : State :=
  let act := actOfLba s c.ns (writeFirst c)
  let c := { c with fetched := true, direct, target := if direct then none else recordTarget s act (recordLen c) }
  let s := setCmd s c
  let s := if c.twin && !direct then twinDegraded s (twinTarget s act (recordLen c) s.sim.cfg.peatRings).2 else s
  if c.twin && direct && s.rd Reg.jnlRouteTwinWaitUs == 0 && !expert s Reg.jnlModeLevel then twinIssue s c else s

/-- The sectors of a write staged in its frames. -/
def stageData (s : State) (c : HostCmd) (data info : List Byte) : State :=
  s.each (List.range c.nlb) fun s i =>
    let lba := writeFirst c + i
    let user := padBytes 4096 ((data.drop (4096 * i)).take 4096)
    match stagedFrame s c.tag c.ns lba with
    | some f => stageSector s f c lba user (writePi s c i user info)
    | none => s

/-- A write takes its data into the side buffer and its route; it waits while frames or journal space are wanting. -/
def writeTake (s : State) (c : HostCmd) (data info : List Byte) : State :=
  let route := if expert s Reg.jnlModeLevel then some c.direct else routeOf s c
  match route, stageFrames s c.tag (rangeLines c.ns (writeFirst c) c.nlb) with
  | some direct, some t => pmuEvent (writeRoute (stageData t c data info) c direct) 0 5 none none c.nlb
  | _, _ => s

/-- The data transfer of a Write or Zone Append: a failed host read, a failed protection check, or the data staged. -/
def writeRun (s : State) (c : HostCmd) (ok : Bool) (data info : List Byte) : State :=
  if c.fetched then s
  else if !ok then cmdFail s c stDataTransfer (writeFirst c)
  else match writePiFail s c data info with
    | some (st, lba) => cmdFail s c st lba
    | none => writeTake s c data info

/-- WRITE (R259, R298, R311, R346). -/
def execWrite (tag : Nat) (ok : Bool) (data info : List Byte) (s : State) : Host.Outcome State Fault Refusal :=
  match liveCmd s tag 0x01 with
  | none => .next s
  | some c => .next (writeRun s c ok data info)

/-- ZONE_APPEND (R298, R301): as a Write to ALBA. -/
def execZoneAppend (tag : Nat) (ok : Bool) (data info : List Byte) (s : State) : Host.Outcome State Fault Refusal :=
  match liveCmd s tag 0x7D with
  | none => .next s
  | some c => .next (writeRun s c ok data info)

/-- WRITE_ZEROES (R259): as a Write of zeros over its range, without data from the host. -/
def execWriteZeroes (tag : Nat) (s : State) : Host.Outcome State Fault Refusal :=
  match liveCmd s tag 0x08 with
  | none => .next s
  | some c => .next (if c.fetched then s else writeTake s c [] [])

/-! ## Reads (R24, R305, R311, R342, R346) -/

/-- What a read finds of a sector: zeros, the bytes of a good hit, a hit that fails R24, or nothing in the cache. -/
inductive Found where
  | zeros
  | good (user pi : List Byte)
  | bad
  | fill
  | absent
  deriving DecidableEq, Repr

/-- A sector looked up: R24 recomputes the CRC over the cached bytes and compares it and the tag with the metadata entry; a
poisoned word means another read from the medium (R311). -/
def readFind (s : State) (c : HostCmd) (lba : Nat) : Found :=
  if c.safe.contains lba then .zeros else
  match bcmFind s (lineOf c.ns lba) with
  | none => .absent
  | some l =>
    let i := lba % 16
    if l.state i = 3 then .fill
    else if l.state i = 0 then .absent
    else
      let user := s.bytes (frameData l.frame i) 4096
      let m := s.bytes (frameMeta s l.frame i) 64
      let internal := m.take 32
      let pi := (m.drop 32).take 8
      if s.poisoned (frameData l.frame i) 4096 ∨ s.poisoned (frameMeta s l.frame i) 64 then .absent
      else if payloadCrc user (if s.sim.cfg.mediumPi = 8 then pi else []) internal ≠ internalCrc internal
          ∨ lbaTag internal ≠ lba ∨ internalNs internal ≠ c.ns then .bad
      else .good user pi

/-- A hit counted and its line used. -/
def readHit (s : State) (ns lba : Nat) : State :=
  match bcmFind s (lineOf ns lba) with
  | some l => pmuEvent ((lineHit s l).addWrap Reg.bcmCounts0Hits 1) 5 1 none none 1
  | none => s

/-- A poisoned sector of a line leaves the cache before it is read again. -/
def readForget (s : State) (ns lba : Nat) : State :=
  match bcmFind s (lineOf ns lba) with
  | some l => if l.pinned then s else bcmPut s l (l.setMask (2 ^ (lba % 16)) 1 0)
  | none => s

/-- One sector of a read: given to the host, failed, waited for, or posted as a miss. -/
def readSector (s : State) (tag lba : Nat) : State :=
  match cmdOf s tag with
  | none => s
  | some c =>
    if c.done ∨ c.given.contains lba then s else
    let give (s : State) (user pi : List Byte) : State :=
      let f := formatOf s c.ns
      match (if f.lbaf = 0 then none else
          piCheck f.pi c.prchk user pi (c.cdw 15 % 65536) (c.cdw 15 / 65536) (c.refBase + (lba - c.slba))) with
      | some st => cmdFail s c st lba
      | none =>
        let s := setCmd s { c with given := c.given ++ [lba] }
        let info := if f.lbaf = 0 ∨ (f.pi ≠ 0 ∧ c.pract) then [] else padBytes 8 pi
        pmuEvent (s.setHst { s.hst with sent := s.hst.sent ++ user ++ info }) 0 4 none none 1
    match readFind s c lba with
    | .zeros => give s (List.replicate 4096 0) (List.replicate 8 0xFF)
    | .good user pi => give (readHit s c.ns lba) user pi
    | .bad => cmdFail s c stUnrecovered lba
    | .fill => s
    | .absent => readForget s c.ns lba

/-- The misses of a read posted, line by line (R346). -/
def readMisses (s : State) (c : HostCmd) : State :=
  s.each (rangeLines c.ns c.slba c.nlb) fun s lm =>
    let mask := (List.range 16).foldl (fun m i =>
      let lba := (lm.1 % 2 ^ 32) * 16 + i
      if lm.2.testBit i && !c.given.contains lba && readFind s c lba == .absent then maskSet m i else m) 0
    if mask = 0 then s else missPost s lm.1 mask

/-- READ (R305, R306, R311, R346): the sectors that are to be had are given to the host, misses are posted, and the read is
DONE once every sector is given. -/
def execRead (tag : Nat) (ok : Bool) (s : State) : Host.Outcome State Fault Refusal :=
  match liveCmd s tag 0x02 with
  | none => .next s
  | some c =>
    if !c.begun then .next s
    else if !ok then .next (cmdFail s c stDataTransfer c.slba)
    else
      let s := if c.fetched then s else readStream (setCmd s { c with fetched := true }) c.ns c.slba c.nlb
      let s := s.setHst { s.hst with sent := [] }
      let s := s.each ((List.range c.nlb).map fun i => c.slba + i) fun s lba => readSector s tag lba
      match liveCmd s tag 0x02 with
      | none => .next s
      | some c => .next (if c.nlb ≤ c.given.length then cmdDone s c 0 else readMisses s c)

/-! ## Flush (R268) -/

/-- FLUSH (R268): completes once every write fetched before it on its namespace has a posted completion. -/
def execFlush (tag : Nat) (s : State) : Host.Outcome State Fault Refusal :=
  match liveCmd s tag 0x00 with
  | none => .next s
  | some c =>
    if !c.begun || (earlier s.hst.cmds tag).any fun e => e.isWrite && e.ns == c.ns then .next s
    else .next (cmdDone s c 0)

/-! ## Zone Management Send (R301, R302) -/

/-- Zones of a namespace that are not Empty with nothing written, and every zone where asked for. -/
def zonesListed (s : State) (ns : Nat) : List Nat :=
  (s.hst.zones.filter fun e => e.1 / 2 ^ 24 == ns).map fun e => e.1 % 2 ^ 24

/-- Why an action may not be done on a zone, and the zone state with it done (R301, R302). -/
def zoneClose (s : State) (ns z : Nat) : Option Nat × State :=
  let r := zoneRec s ns z
  let st := zoneState s ns z
  if zoneOpen st then (none, setZone s ns z { r with state := if r.wp = 0 then 1 else 4 })
  else if st = 4 then (none, s) else (some stZoneTransition, s)

/-- Finish: the zone is Full; its last group is still to be sealed under R112. -/
def zoneFinish (s : State) (ns z : Nat) : Option Nat × State :=
  let st := zoneState s ns z
  if st = 1 ∨ zoneActive st then
    match openRefusal s ns st with
    | some e => (some e, s)
    | none => (none, setZone s ns z { zoneRec s ns z with state := 14 })
  else if st = 14 then (none, s) else (some stZoneTransition, s)

/-- Open. -/
def zoneOpenSet (s : State) (ns z : Nat) : Option Nat × State :=
  let st := zoneState s ns z
  if st = 1 ∨ zoneActive st then
    match openRefusal s ns st with
    | some e => (some e, s)
    | none => (none, setZone s ns z { zoneRec s ns z with state := 3 })
  else (some stZoneTransition, s)

/-- A plan change held for a zone is applied as the zone becomes empty (R113, R402): the band takes its cell's PT, and goes
offline where its capacity would fall below G. -/
def heldPlanApply (s : State) (ns z : Nat) : State :=
  match zonePlace s ns z with
  | none => s
  | some (su, b, r, _) =>
    let a := bandPlanAt s su b
    let v := (s.byte a).toNat
    if !v.testBit 4 then s else
    let head := (s.sim.cfg.heads.findIdx? fun h => h.surface == su).getD 0
    let pt := (s.byte (0x10B08000 + 64 * (head * 32 + r.region) + 0x23)).toNat % 16
    let cap := zoneCapacity s.sim.cfg r pt (Config.bandDefects su b)
    let s := if cap < s.sim.cfg.stripeG then
        let s := s.store a [BitVec.ofNat 8 (v % 16 + 32)]
        setZone s ns z { zoneRec s ns z with state := 15 }
      else s.store a [BitVec.ofNat 8 pt]
    zoneChanged s ns z

/-- An empty zone of a head that is proposed for retirement goes Offline, and the head is retired with its last zone; a head
that carries conventional zones stays proposed (R403). -/
def retiredZoneOffline (s : State) (ns z : Nat) : State :=
  match zonePlace s ns z with
  | none => s
  | some (su, _, _, _) =>
    let head := headOfSurface s su
    let r := zoneRec s ns z
    if retireGoes s head ∧ r.state = 1 then
      headRetireDone (zoneChanged (setZone s ns z { r with state := 15, resetRec := false }) ns z) head
    else s

/-- Reset: the zone is Empty, its extents are freed without folding, and a held plan change is applied (R281, R302). -/
def zoneReset (s : State) (ns z : Nat) : Option Nat × State :=
  let st := zoneState s ns z
  if st = 1 ∨ zoneActive st ∨ st = 14 then
    let s := jnlZoneReset (setZone s ns z {}) ns z
    (none, retiredZoneOffline (heldPlanApply s ns z) ns z)
  else (some stZoneTransition, s)

/-- Offline: accepted only from Read Only. -/
def zoneOffline (s : State) (ns z : Nat) : Option Nat × State :=
  if zoneState s ns z = 13 then (none, zoneChanged (setZone s ns z { zoneRec s ns z with state := 15 }) ns z)
  else (some stZoneTransition, s)

/-- A zone action of a command carried out: on its zone, or with Select All on every zone whose state the action names. -/
def zoneAct (s : State) (tag action : Nat) (states : Nat → Bool) (act : State → Nat → Nat → Option Nat × State) : State :=
  match liveCmd s tag 0x79 with
  | none => s
  | some c =>
    if !c.begun || c.zoneAction != action then s
    else if c.selectAll then
      let s := s.each ((zonesListed s c.ns).filter fun z => states (zoneState s c.ns z)) fun s z => (act s c.ns z).2
      cmdDone s c 0
    else
      let (st, s) := act s c.ns (c.slba / max s.sim.cfg.zoneSectors 1)
      cmdDone s c (st.getD 0)

/-- ZONE_CLOSE (R302). -/
def execZoneClose (tag : Nat) (s : State) : Host.Outcome State Fault Refusal :=
  .next (zoneAct s tag 1 zoneOpen zoneClose)

/-- Whether a stripe group of a zone is open, so that Finish has still to see it sealed (R112). -/
def zoneGroupOpen (s : State) (ns z : Nat) : Bool :=
  [0, 1].any fun n =>
    let g := s.jnl.group.get n
    g.ns == ns && g.data.any fun d => d.2 / max s.sim.cfg.zoneSectors 1 == z

/-- ZONE_FINISH (R112, R302): the zone is Full at once; the command is DONE once its last group is sealed. -/
def execZoneFinish (tag : Nat) (s : State) : Host.Outcome State Fault Refusal :=
  match liveCmd s tag 0x79 with
  | none => .next s
  | some c =>
    let z := c.slba / max s.sim.cfg.zoneSectors 1
    if !c.begun || c.zoneAction != 2 then .next s
    else if !c.selectAll && zoneGroupOpen s c.ns z && (zoneFinish s c.ns z).1.isNone then .next (zoneFinish s c.ns z).2
    else .next (zoneAct s tag 2 zoneActive zoneFinish)

/-- ZONE_OPEN (R302). -/
def execZoneOpen (tag : Nat) (s : State) : Host.Outcome State Fault Refusal :=
  .next (zoneAct s tag 3 (fun st => st == 4) zoneOpenSet)

/-- ZONE_RESET (R281, R302). -/
def execZoneReset (tag : Nat) (s : State) : Host.Outcome State Fault Refusal :=
  .next (zoneAct s tag 4 (fun st => zoneActive st || st == 14) zoneReset)

/-- ZONE_OFFLINE (R302). -/
def execZoneOffline (tag : Nat) (s : State) : Host.Outcome State Fault Refusal :=
  .next (zoneAct s tag 5 (fun st => st == 13) zoneOffline)

/-- SET_ZONE_DESC_EXT (R302): completes with Invalid Field in Command. -/
def execSetZoneDescExt (tag : Nat) (s : State) : Host.Outcome State Fault Refusal :=
  match liveCmd s tag 0x79 with
  | none => .next s
  | some c => .next (if c.begun && c.zoneAction == 0x10 then cmdDone s c stInvalidField else s)

/-! ## Zone Management Receive (R300, R302) -/

/-- A zone descriptor of Report Zones: type, state, attributes (Reset Zone Recommended in bit 2), ZCAP, start and write
pointer. -/
def zoneDescriptor (s : State) (ns z : Nat) : List Byte :=
  let r := zoneRec s ns z
  let start := z * s.sim.cfg.zoneSectors
  let st := zoneState s ns z
  let wp := if st = 14 ∨ st = 13 ∨ st = 15 then 2 ^ 64 - 1 else start + r.wp
  [2, BitVec.ofNat 8 (16 * st), BitVec.ofNat 8 (4 * bit r.resetRec), 0, 0, 0, 0, 0] ++ leBytes 8 (zoneCap s ns z)
  ++ leBytes 8 start ++ leBytes 8 wp ++ List.replicate 32 0

/-- Whether a reporting option 0h to 7h takes a zone state. -/
def reportTakes (option st : Nat) : Bool :=
  option == 0 || (option == 1 && st == 1) || (option == 2 && st == 2) || (option == 3 && st == 3) || (option == 4 && st == 4)
  || (option == 5 && st == 14) || (option == 6 && st == 13) || (option == 7 && st == 15)

/-- REPORT_ZONES (R302): the header with the number of zones, then descriptors from the zone of SLBA on, cut to the length
asked for; with Partial Report the number is that of the descriptors returned. -/
def execReportZones (tag : Nat) (s : State) : Host.Outcome State Fault Refusal :=
  match liveCmd s tag 0x7A with
  | none => .next s
  | some c =>
    if !c.begun || c.zoneAction != 0 then .next s
    else if 7 < c.cdw 13 / 256 % 256 then .next (cmdDone s c stInvalidField)
    else
      let total := match nsOf s c.ns with | some e => zoneCount s e | none => 0
      let from_ := c.slba / max s.sim.cfg.zoneSectors 1
      let zones := ((List.range (total - from_)).map fun i => from_ + i).filter fun z =>
        reportTakes (c.cdw 13 / 256 % 256) (zoneState s c.ns z)
      let len := (c.cdw 12 + 1) * 4
      let room := (len - 64) / 64
      let n := if (c.cdw 13).testBit 16 then min zones.length room else zones.length
      let bytes := (leBytes 8 n ++ List.replicate 56 0 ++ (zones.take room).flatMap (zoneDescriptor s c.ns)).take len
      .next (cmdDone (s.setHst { s.hst with sent := bytes }) c 0)

/-- EXTENDED_REPORT_ZONES (R302): completes with Invalid Field in Command. -/
def execExtendedReportZones (tag : Nat) (s : State) : Host.Outcome State Fault Refusal :=
  match liveCmd s tag 0x7A with
  | none => .next s
  | some c => .next (if c.begun && c.zoneAction == 1 then cmdDone s c stInvalidField else s)

end Sys2Proof.Machine
end

