-- ==== Sys2Proof/Machine/HostAdmin.lean ====
section
/-!
DEFINITION. Admin commands of the host interface (spec/10_host_interface.md, R290, R294 to R303, R310 to R315): queue
creation and deletion, features, Identify, Format NVM and Sanitize, and the idle transitions. What firmware answers stands
in `hst.reply`; it reaches the host's queue with ADMIN_COMPLETION_GO.
-/

namespace Sys2Proof.Machine

def stBadFormat : Nat := 0x10A
def stCommandSequence : Nat := 0x00C
def stCqInvalid : Nat := 0x100
def stQidInvalid : Nat := 0x101
def stQSizeInvalid : Nat := 0x102
def stAerLimit : Nat := 0x105
def stVectorInvalid : Nat := 0x108
def stQDeletion : Nat := 0x10C
def stNotSaveable : Nat := 0x10D
def stNotChangeable : Nat := 0x10E

/-! ## Frame of an admin command -/

/-- The answer of an admin command. -/
def adminReply (s : State) (fn status dw0 : Nat) (data : List Byte) : State :=
  s.setHst { s.hst with reply := { fn, status, dw0, data } }

/-- Whether the control cores serve admin commands: from B3 on, and not in RECOVERY (R39). -/
def adminOpen (s : State) : Bool :=
  s.opMode != modeRecovery && (s.opMode != modeBoot || s.boot == .b3 || s.boot == .b4)

/-- An admin command of an enabled controller: in SAFE only Identify, Get Log Page and Get Features are served, any other
completes with Internal Error, DNR set (R39, R40); one marked PF issued on a VF is an invalid opcode (R294). -/
def adminRun (s : State) (fn : Nat) (inSafe pfOnly : Bool) (run : Ctrl → State) : State :=
  match ctrlOf s fn with
  | none => s
  | some c =>
    if !adminOpen s then s
    else if s.opMode == modeSafe && !inSafe then adminReply s fn stInternalDnr 0 []
    else if pfOnly && !isPf fn then adminReply s fn stInvalidOpcode 0 []
    else run c

/-- `n` bytes that the spec does not state (notes/assumptions/2.md). -/
def freeBytes (s : State) (n : Nat) : List Byte × State :=
  let (v, s) := s.takeFree
  (leBytes n v, s)

/-- Bytes laid over a structure at an offset. -/
def overlay (base : List Byte) (off : Nat) (bs : List Byte) : List Byte :=
  base.take off ++ bs ++ base.drop (off + bs.length)

/-- Several fields laid over a structure, as (offset, size, value). -/
def overlayAll (base : List Byte) (l : List (Nat × Nat × Nat)) : List Byte :=
  l.foldl (fun b e => overlay b e.1 (leBytes e.2.1 e.2.2)) base

/-! ## Queues (R290, R310) -/

/-- PFs, and functions of a PF. -/
def pfCount (s : State) : Nat := if s.sim.cfg.portMode = 0 then 1 else 2
def pfFunctions (s : State) : Nat := 1 + s.sim.cfg.vfPerPf

/-- Quota of a function from a pool at basic level (R290). -/
def basicQuota (s : State) (fn pool : Nat) : Nat :=
  let part := pool / pfCount s
  part / pfFunctions s + (if isPf fn then part % pfFunctions s else 0)

/-- Quotas of a function: submission and completion queues. Firmware sets them at expert level. -/
def quotaOf (s : State) (fn : Nat) : Nat × Nat :=
  match Store.read none s.hst.quotas fn with
  | some w => (fieldOf w 0 15, fieldOf w 16 15)
  | none => (basicQuota s fn s.sim.cfg.sqPool, basicQuota s fn s.sim.cfg.cqPool)

/-- The highest queue ID with a doorbell (R288), and the interrupt vectors of a function. -/
def qidLimit (fn : Nat) : Nat := if isPf fn then 16384 else 4096
def vectorLimit (fn : Nat) : Nat := if isPf fn then 2048 else 256

/-- CREATE_IO_CQ (R290, R294). -/
def execCreateIoCq (fn qid base entries vector : Nat) (ien : Bool) (s : State) : Host.Outcome State Fault Refusal :=
  .next (adminRun s fn false false fun c =>
    if qid = 0 ∨ min c.cqGrant (qidLimit fn) < qid ∨ (cqFind s fn qid).isSome then adminReply s fn stQidInvalid 0 []
    else if entries < 2 ∨ s.sim.cfg.maxQEntries < entries then adminReply s fn stQSizeInvalid 0 []
    else if vectorLimit fn ≤ vector then adminReply s fn stVectorInvalid 0 []
    else
      let q : CompQ := { fn, qid, base, size := entries, vector, ien, head := 0, tail := 0, phase := true, pend := [], agg := 0 }
      adminReply (s.setHst { s.hst with cqs := s.hst.cqs ++ [q] }) fn 0 0 [])

/-- CREATE_IO_SQ (R290, R294). -/
def execCreateIoSq (fn qid base entries cq prio : Nat) (s : State) : Host.Outcome State Fault Refusal :=
  .next (adminRun s fn false false fun c =>
    if qid = 0 ∨ min c.sqGrant (qidLimit fn) < qid ∨ (sqFind s fn qid).isSome then adminReply s fn stQidInvalid 0 []
    else if entries < 2 ∨ s.sim.cfg.maxQEntries < entries then adminReply s fn stQSizeInvalid 0 []
    else if cq = 0 ∨ (cqFind s fn cq).isNone then adminReply s fn stCqInvalid 0 []
    else
      let q : SubQ := { fn, qid, base, size := entries, cq, prio, head := 0, tail := 0 }
      adminReply (s.setHst { s.hst with sqs := s.hst.sqs ++ [q] }) fn 0 0 [])

/-- A queue's commands that have not begun end as the queue is deleted (R310); what they have staged returns. -/
def sqDrop (s : State) (fn qid : Nat) : State :=
  s.each (s.hst.cmds.filter fun c => c.fn == fn && c.sqid == qid && !c.begun && !c.done) fun s c =>
    cmdDone (s.setBcm { s.bcm with staged := s.bcm.staged.filter fun t => t.tag != c.tag }) c stSqDeleted

/-- DELETE_IO_SQ (R310): nothing more is fetched from the queue, and the Delete completes once every command of the queue is
posted; until then it waits. -/
def execDeleteIoSq (fn qid : Nat) (s : State) : Host.Outcome State Fault Refusal :=
  .next (adminRun s fn false false fun _ =>
    match sqFind s fn qid with
    | none => adminReply s fn stQidInvalid 0 []
    | some q =>
      if qid = 0 then adminReply s fn stQidInvalid 0 [] else
      let s := sqDrop (sqPut s { q with tail := q.head }) fn qid
      if s.hst.cmds.any fun c => c.fn == fn && c.sqid == qid then s
      else adminReply (s.setHst { s.hst with sqs := s.hst.sqs.filter fun x => !(x.fn == fn && x.qid == qid) }) fn 0 0 [])

/-- DELETE_IO_CQ (R294): refused while a submission queue uses it. -/
def execDeleteIoCq (fn qid : Nat) (s : State) : Host.Outcome State Fault Refusal :=
  .next (adminRun s fn false false fun _ =>
    if qid = 0 ∨ (cqFind s fn qid).isNone then adminReply s fn stQidInvalid 0 []
    else if s.hst.sqs.any fun x => x.fn == fn && x.cq == qid then adminReply s fn stQDeletion 0 []
    else
      let s := s.setHst { s.hst with cqs := s.hst.cqs.filter fun x => !(x.fn == fn && x.qid == qid) }
      adminReply (pendShow s) fn 0 0 [])

/-- ASYNCHRONOUS_EVENT_REQUEST (R294): eight may be outstanding; a queued event answers at once. -/
def execAsynchronousEventRequest (fn cid : Nat) (s : State) : Host.Outcome State Fault Refusal :=
  .next (adminRun s fn false false fun c =>
    if 8 ≤ c.aers.length then adminReply s fn stAerLimit 0 []
    else aerPump (setCtrl s { c with aers := c.aers ++ [cid] }) fn 8)

/-! ## Features (R295, R312 to R315, R438) -/

/-- Device-wide features, and those with a saved value (R295). -/
def deviceFeature (fid : Nat) : Bool := fid == 0x02 || fid == 0x0C || fid == 0x10 || fid == 0xC0 || fid == 0xC1
def saveable (fid : Nat) : Bool := fid == 0x0C || fid == 0x10 || fid == 0xC0 || fid == 0xC1

/-- A device-wide feature set: only by a PF. -/
def deviceSet (s : State) (fn fid : Nat) (save : Bool) (run : State) : State :=
  adminRun s fn false false fun _ =>
    if !isPf fn then adminReply s fn stNotChangeable 0 []
    else if save && !saveable fid then adminReply s fn stNotSaveable 0 []
    else run

/-- A device-wide feature's value stored, and in settings where it is saved. -/
def deviceStore (s : State) (fid value : Nat) (save : Bool) : State :=
  let s := s.setHst { s.hst with device := Store.write 0 s.hst.device fid value }
  if save then s.setHst { s.hst with saved := Store.write none s.hst.saved fid (some value) } else s

/-- SET_FEATURES_POWER_MGMT (R313): a state that is not advertised is an invalid field. The operational states ask for their
rung, or for SERVICE; the others for REST and STANDBY. -/
def execSetFeaturesPowerMgmt (fn ps : Nat) (s : State) : Host.Outcome State Fault Refusal :=
  .next (deviceSet s fn 0x02 false (
    if 4 < ps then adminReply s fn stInvalidField 0 [] else
    let s := deviceStore (adminReply s fn 0 0 []) 0x02 ps false
    let s := s.setHst { s.hst with ps, psOp := if ps ≤ 2 then ps else s.hst.psOp }
    if ps = 3 then modeRequest s modeRest 0x11
    else if ps = 4 then modeRequest s modeStandby 0x11
    else if s.opMode = modeService ∧ s.change.isNone then rungSelect s (psRung s ps)
    else modeRequest s modeService 0x11))

/-- An APST entry: its target and its idle time in milliseconds (R314). -/
def apstTarget (e : Nat) : Nat := bitsOf e 3 5
def apstTime (e : Nat) : Nat := bitsOf e 8 24

/-- SET_FEATURES_APST (R314): an entry whose target is operational, or not advertised, is an invalid field. -/
def execSetFeaturesApst (fn : Nat) (enable : Bool) (table : List Nat) (save : Bool) (s : State) :
    Host.Outcome State Fault Refusal :=
  .next (deviceSet s fn 0x0C save (
    if table.any fun e => e != 0 && (decide (apstTarget e ≤ 2) || decide (4 < apstTarget e)) then
      adminReply s fn stInvalidField 0 []
    else
      let t : Store Nat := Store.writeRun 0 [] 0 (table.take 32)
      let s := deviceStore (adminReply s fn 0 0 []) 0x0C (bit enable) save
      s.setHst { s.hst with apst := t, savedApst := if save then t else s.hst.savedApst }))

/-- SET_FEATURES_HCTM (R438): each threshold 0 or from 273 K to 388 K, TMT1 below TMT2 when both are set. -/
def execSetFeaturesHctm (fn value : Nat) (save : Bool) (s : State) : Host.Outcome State Fault Refusal :=
  .next (deviceSet s fn 0x10 save (
    let t1 := bitsOf value 16 16
    let t2 := bitsOf value 0 16
    let ok (t : Nat) : Bool := t == 0 || (decide (273 ≤ t) && decide (t ≤ 388))
    if !ok t1 || !ok t2 || (t1 != 0 && t2 != 0 && decide (t2 ≤ t1)) then adminReply s fn stInvalidField 0 []
    else
      let s := (s.wr Reg.thmHctmTmt1 t1).wr Reg.thmHctmTmt2 t2
      deviceStore (adminReply s fn 0 0 []) 0x10 value save))

/-- SET_FEATURES_TWIN (R265, R295): bit 0 is written to JNL_CTL.TWIN. -/
def execSetFeaturesTwin (fn value : Nat) (save : Bool) (s : State) : Host.Outcome State Fault Refusal :=
  .next (deviceSet s fn 0xC0 save (
    deviceStore (adminReply (s.wr Reg.jnlCtlTwin (value % 2)) fn 0 0 []) 0xC0 value save))

/-- SET_FEATURES_IDLE_CADENCE (R315). -/
def execSetFeaturesIdleCadence (fn value : Nat) (save : Bool) (s : State) : Host.Outcome State Fault Refusal :=
  .next (deviceSet s fn 0xC1 save (deviceStore (adminReply s fn 0 0 []) 0xC1 (value % 2 ^ 32) save))

/-- The namespace mask held in settings for a function (R295, R297): by default PFs see all namespaces and VFs none. -/
def nsMaskOf (s : State) (fn : Nat) : Nat :=
  (Store.read none s.hst.nsMasks fn).getD (if isPf fn then 2 ^ s.sim.cfg.ns.length - 1 else 0)

/-- SET_FEATURES_NS_MASK (R295): a VF of this PF, or the PF itself; it takes effect at the target's next CC.EN 0 to 1. -/
def execSetFeaturesNsMask (fn value : Nat) (s : State) : Host.Outcome State Fault Refusal :=
  .next (adminRun s fn false false fun _ =>
    if !isPf fn then adminReply s fn stNotChangeable 0 []
    else if s.sim.cfg.vfPerPf < bitsOf value 0 8 then adminReply s fn stInvalidField 0 []
    else adminReply (s.setHst { s.hst with
        nsMasks := Store.write none s.hst.nsMasks (fn + bitsOf value 0 8) (some (bitsOf value 16 8)) }) fn 0 0 [])

/-- Where a controller keeps a feature (R295): one value per interrupt vector, one per temperature threshold selected. -/
def featureKey (fid value : Nat) : Nat :=
  if fid = 0x09 then 0x09 + 256 * (value % 2 ^ 16) else if fid = 0x04 then 0x04 + 256 * (value / 2 ^ 16 % 64) else fid

/-- SET_FEATURES (R290, R295): the features of one controller. Number of Queues grants the smaller of what is asked for and
the quota; a grant of no queue has no spelling in dword 0, which is then a free value. -/
def execSetFeatures (fn fid value : Nat) (save : Bool) (s : State) : Host.Outcome State Fault Refusal :=
  if deviceFeature fid ∨ fid = 0xC2 then .next s else
  .next (adminRun s fn false false fun c =>
    let per := fid == 0x01 || fid == 0x04 || fid == 0x08 || fid == 0x09 || fid == 0x0B
    if save && (per || fid == 0x07) then adminReply s fn stNotSaveable 0 []
    else if fid = 0x07 then
      if s.hst.sqs.any (fun q => q.fn == fn && q.qid != 0) || s.hst.cqs.any (fun q => q.fn == fn && q.qid != 0) then
        adminReply s fn stCommandSequence 0 []
      else
        let sq := min (value % 2 ^ 16 + 1) (quotaOf s fn).1
        let cq := min (value / 2 ^ 16 % 2 ^ 16 + 1) (quotaOf s fn).2
        let s := setCtrl s { c with sqGrant := sq, cqGrant := cq }
        let (v, s) := if sq = 0 ∨ cq = 0 then s.takeFree else ((cq - 1) * 2 ^ 16 + (sq - 1), s)
        adminReply s fn 0 v []
    else if per then
      let v := if fid = 0x01 ∨ fid = 0x04 then value % 2 ^ 32 + 1 else value % 2 ^ 32
      adminReply (setCtrl s { c with features := Store.write 0 c.features (featureKey fid value) v }) fn 0 0 []
    else adminReply s fn stInvalidField 0 [])

/-- A value of an optional source, or a free one. -/
def orFree (s : State) (v : Option Nat) : Nat × State := match v with | some v => (v, s) | none => s.takeFree

/-- The current value of a feature; the arbitration burst and the thresholds that were never set have a value that the spec
does not state. -/
def featureNow (s : State) (c : Ctrl) (fid value : Nat) : Option Nat :=
  if fid = 0x02 then some s.hst.ps
  else if fid = 0xC0 then some (s.rd Reg.jnlCtlTwin)
  else if deviceFeature fid then some (Store.read 0 s.hst.device fid)
  else if fid = 0xC2 then some (nsMaskOf s (c.fn + bitsOf value 0 8) * 2 ^ 16)
  else if fid = 0x07 then (if c.sqGrant = 0 ∨ c.cqGrant = 0 then none else some ((c.cqGrant - 1) * 2 ^ 16 + (c.sqGrant - 1)))
  else
    let v := Store.read 0 c.features (featureKey fid value)
    if fid = 0x01 ∨ fid = 0x04 then (if v = 0 then none else some (v - 1)) else some v

/-- The default value of a feature. -/
def featureDefault (s : State) (c : Ctrl) (fid : Nat) : Option Nat :=
  let q := quotaOf s c.fn
  if fid = 0x07 then (if q.1 = 0 ∨ q.2 = 0 then none else some ((q.2 - 1) * 2 ^ 16 + (q.1 - 1)))
  else if fid = 0x01 ∨ fid = 0x04 then none
  else if fid = 0xC2 then some ((if isPf c.fn then 2 ^ s.sim.cfg.ns.length - 1 else 0) * 2 ^ 16)
  else some 0

/-- Get Features (R295): current, default and saved values, and the capabilities (saveable bit 0, changeable bit 2). -/
def getFeatures (s : State) (c : Ctrl) (fid sel value : Nat) : State :=
  let known := deviceFeature fid || fid == 0xC2 || fid == 0x01 || fid == 0x04 || fid == 0x07 || fid == 0x08
    || fid == 0x09 || fid == 0x0B
  if !known || decide (3 < sel) || (fid == 0xC2 && !isPf c.fn) then adminReply s c.fn stInvalidField 0 []
  else if sel = 3 then
    adminReply s c.fn 0 (bit (saveable fid) + 4 * bit (isPf c.fn || !deviceFeature fid)) []
  else
    let (v, s) := orFree s (if sel = 1 then featureDefault s c fid
      else if sel = 2 ∧ saveable fid then some ((Store.read none s.hst.saved fid).getD 0)
      else featureNow s c fid value)
    let t := if sel = 0 then s.hst.apst else if sel = 2 then s.hst.savedApst else []
    let data := if fid = 0x0C then (List.range 32).flatMap fun i => leBytes 8 (Store.read 0 t i) else []
    adminReply s c.fn 0 v data

/-- GET_FEATURES (R295). -/
def execGetFeatures (fn fid sel value : Nat) (s : State) : Host.Outcome State Fault Refusal :=
  .next (adminRun s fn true false fun c => getFeatures s c fid sel value)

/-! ## Identify (R287, R294, R298, R300, R312) -/

/-- A power state descriptor (R312): MP, non-operational state, ENLAT, EXLAT, relative throughput and latency. -/
def powerDescriptor (ps mp enlat exlat : Nat) : List Byte :=
  overlayAll (List.replicate 32 0)
    [(0, 2, mp), (3, 1, if 2 < ps then 2 else 0), (4, 4, enlat), (8, 4, exlat), (12, 1, ps), (13, 1, ps), (14, 1, ps), (15, 1, ps)]

/-- The Identify Controller structure: the fields that the spec gives, over bytes it does not. -/
def identifyController (s : State) (fn : Nat) (base : List Byte) : List Byte :=
  let b := overlayAll base [(64, 4, s.rd Reg.sysFwRevLoChars), (68, 4, s.rd Reg.sysFwRevHiChars),
    (77, 1, 9), (78, 2, fn + 1), (80, 4, 0x20000), (258, 1, 3), (259, 1, 7), (260, 1, 4), (262, 1, 63), (263, 1, 4),
    (265, 1, 1), (319, 1, 1), (322, 2, 1), (324, 2, 273), (326, 2, 388), (328, 4, 1), (516, 4, 8), (520, 2, 8), (525, 1, 0)]
  overlay b 2048 (powerDescriptor 0 1200 4000000 4000000 ++ powerDescriptor 1 850 4000000 4000000
    ++ powerDescriptor 2 650 4000000 4000000 ++ powerDescriptor 3 300 1500000 900000 ++ powerDescriptor 4 100 2000000 20000000)

/-- The Identify Namespace structure of a visible namespace: NSZE, NCAP and NUSE, the formats offered. -/
def identifyNamespace (s : State) (ns : Nat) (base : List Byte) : List Byte :=
  let f := formatOf s ns
  overlayAll base [(0, 8, nsze s ns), (25, 1, 1), (26, 1, f.lbaf), (28, 1, 0x15), (29, 1, f.pi), (128, 4, 12 * 2 ^ 16),
    (132, 4, 12 * 2 ^ 16 + 8)]

/-- The namespaces of a mask above an ID, as a list of IDs in a 4 KiB structure. -/
def identifyList (s : State) (c : Ctrl) (above : Nat) (p : NsEntry → Bool) : List Byte :=
  let ids := (List.range s.sim.cfg.ns.length).filter fun i =>
    decide (above < i + 1) && c.nsMask.testBit i && (nsOf s (i + 1)).any p
  padBytes 4096 (ids.flatMap fun i => leBytes 4 (i + 1))

/-- Identify (R287, R294): an unsupported CNS is an invalid field; a namespace that the controller does not see reads as
zeros. -/
def identify (s : State) (c : Ctrl) (cns ns csi : Nat) : State :=
  let sees := (nsOf s ns).isSome && c.nsMask.testBit (ns - 1)
  let zoned := nsZoned s ns
  if cns = 0x02 then adminReply s c.fn 0 0 (identifyList s c ns fun _ => true)
  else if cns = 0x01 then
    let (b, s) := freeBytes s 4096
    adminReply s c.fn 0 0 (identifyController s c.fn b)
  else if cns = 0x00 ∨ cns = 0x03 ∨ cns = 0x05 ∨ cns = 0x08 then
    if nsOf s ns = none then adminReply s c.fn stInvalidNamespace 0 []
    else if !sees then adminReply s c.fn 0 0 (List.replicate 4096 0)
    else
      let (b, s) := freeBytes s 4096
      if cns = 0x00 then adminReply s c.fn 0 0 (identifyNamespace s ns b)
      else if cns = 0x03 then adminReply s c.fn 0 0 (overlayAll b [(0, 1, 4), (1, 1, 1), (4, 1, (nsOf s ns).elim 0 (·.csi))])
      else if cns = 0x05 ∧ csi = 2 ∧ zoned then
        let m := 1024 / max 1 (s.sim.cfg.ns.filter fun e => e.csi == 2).length - 1
        adminReply s c.fn 0 0 (overlayAll b [(0, 2, 1), (2, 2, 1), (4, 4, m), (8, 4, m), (2816, 8, s.sim.cfg.zoneSectors),
          (2824, 1, 0)])
      else adminReply s c.fn 0 0 b
  else if cns = 0x06 then
    let (b, s) := freeBytes s 4096
    adminReply s c.fn 0 0 (if csi = 2 then overlayAll b [(0, 1, 8)] else b)
  else if cns = 0x1C then
    let (b, s) := freeBytes s 4096
    adminReply s c.fn 0 0 b
  else adminReply s c.fn stInvalidField 0 []

/-- IDENTIFY (R294). -/
def execIdentify (fn cns ns csi : Nat) (s : State) : Host.Outcome State Fault Refusal :=
  .next (adminRun s fn true false fun c => identify s c cns ns csi)

/-! ## Format NVM and Sanitize (R303) -/

/-- Whether a command of a namespace is still in the overlap order. -/
def nsBusy (s : State) (ns : Nat) : Bool := s.hst.cmds.any fun c => c.ns == ns

/-- A namespace takes a new key and a format; its zones are Empty, its extents freed, and nothing cached of it stays. -/
def nsErase (s : State) (ns lbaf pi : Nat) (key : List Byte) : State :=
  let slot := nsKey s ns
  let s := if slot < 64 then
      let s := keySet s slot key true
      s.setUpd { s.upd with keys := Store.write [] s.upd.keys slot key }
    else s
  let s := s.each (s.jnl.extents.filter fun e => e.ns == ns) fun s e => extentDrop s e 0
  let s := s.setJnl { s.jnl with bands := s.jnl.bands.filter fun b => b.ns != ns }
  let s := s.setBcm { s.bcm with lines := s.bcm.lines.filter fun l => l.la / 2 ^ 32 + 1 != ns }
  let zones := zonesListed s ns
  let s := bcmDirtyShow (s.setHst { s.hst with
    zones := s.hst.zones.filter fun e => e.1 / 2 ^ 24 != ns
    formats := Store.write {} s.hst.formats ns { lbaf, pi } })
  s.each zones fun s z => retiredZoneOffline (heldPlanApply s ns z) ns z

/-- FORMAT_NVM (R303): on a PF, with a format the namespace offers, once every command placed on the namespace has completed
and the media is in service; I/O fetched meanwhile is turned away. It waits until then. -/
def execFormatNvm (fn ns lbaf pi ses : Nat) (key : List Byte) (s : State) : Host.Outcome State Fault Refusal :=
  .next (adminRun s fn false true fun _ =>
    match nsOf s ns with
    | none => adminReply s fn stInvalidNamespace 0 []
    | some e =>
      if 2 < ses then adminReply s fn stInvalidField 0 []
      else if 1 < lbaf ∨ !e.lbafMask.testBit lbaf ∨ (pi ≠ 0 ∧ (lbaf = 0 ∨ (pi ≠ 1 ∧ pi ≠ 3))) then
        adminReply s fn stBadFormat 0 []
      else
        let s := if s.hst.blocked.contains ns then s else s.setHst { s.hst with blocked := s.hst.blocked ++ [ns] }
        if s.opMode ≠ modeService then mediaWake s
        else if nsBusy s ns ∨ cryInUse s (nsKey s ns) then s
        else
          let s := nsErase s ns lbaf pi key
          adminReply (s.setHst { s.hst with blocked := s.hst.blocked.filter fun b => b != ns }) fn 0 0 [])

/-- SANITIZE (R303): crypto erase only. It is accepted, and I/O fetched meanwhile turned away; once every command placed has
completed, every namespace is erased, keeping its format. -/
def execSanitize (fn action : Nat) (keys : List (List Byte)) (s : State) : Host.Outcome State Fault Refusal :=
  .next (adminRun s fn false true fun _ =>
    if action ≠ 4 then adminReply s fn stInvalidField 0 [] else
    let s := adminReply s fn 0 0 []
    let s := if s.hst.blocked.contains 0 then s else s.setHst { s.hst with blocked := s.hst.blocked ++ [0], sanitized := 2 }
    if s.opMode ≠ modeService then mediaWake s
    else if !s.hst.cmds.isEmpty || (List.range s.sim.cfg.ns.length).any (fun i => cryInUse s (nsKey s (i + 1))) then s
    else
      let s := s.each (List.range s.sim.cfg.ns.length) fun s i =>
        nsErase s (i + 1) (formatOf s (i + 1)).lbaf (formatOf s (i + 1)).pi (nth [] keys i)
      s.setHst { s.hst with blocked := s.hst.blocked.filter fun b => b != 0, sanitized := 1 })

/-! ## Idle transitions (R314, R315) -/

/-- No I/O command is outstanding device-wide. -/
def ioIdle (s : State) : Bool := s.hst.cmds.isEmpty

/-- IDLE_CADENCE_STEP (R315): T1 or T2 seconds idle move the spindle one or two rungs slower than the selected state, at basic
level of ANG. -/
def execIdleCadenceStep (step : Nat) (s : State) : Host.Outcome State Fault Refusal :=
  let v := Store.read 0 s.hst.device 0xC1
  let t := if step = 1 then bitsOf v 0 16 else bitsOf v 16 16
  if step = 0 ∨ 2 < step ∨ t = 0 ∨ !ioIdle s ∨ s.opMode ≠ modeService ∨ s.change.isSome ∨ expert s Reg.angModeLevel
      ∨ step ≤ s.hst.idleStep then .next s
  else
    let s := s.setHst { s.hst with idleStep := step }
    .next (rungSelect s (psRung s s.hst.psOp))

/-- The power state in force. -/
def psNow (s : State) : Nat := if s.opMode = modeRest then 3 else if s.opMode = modeStandby then 4 else s.hst.psOp

/-- APST_IDLE_EXPIRY (R314): the idle time of the entry of the power state in force has passed with no I/O outstanding. -/
def execApstIdleExpiry (idle : Nat) (s : State) : Host.Outcome State Fault Refusal :=
  let e := Store.read 0 s.hst.apst (psNow s)
  if Store.read 0 s.hst.device 0x0C % 2 = 0 ∨ apstTime e = 0 ∨ idle < apstTime e ∨ !ioIdle s then .next s
  else if apstTarget e = 3 then .next (modeRequest s modeRest 0x12)
  else if apstTarget e = 4 then .next (modeRequest s modeStandby 0x12)
  else .next s

end Sys2Proof.Machine
end

