-- ==== Sys2Proof/Machine/Ageing.lean ====
section
/-!
DEFINITION. Ageing (spec/14_calibration_ageing.md, R397 to R407): measurements, headrooms and evaluations, and the actions that
follow from them.
-/

namespace Sys2Proof.Machine

/-! ## Proposals (R399, R407) -/

def kindAssist : Nat := 1
def kindPlan : Nat := 2
def kindRetire : Nat := 3
def kindCadence : Nat := 4
def kindVguard : Nat := 5
def kindHoldup : Nat := 6

/-- STATE of a proposal entry: 0 free, 1 pending, 2 applied, 3 discarded. -/
def propState (s : State) (i : Nat) : Nat := recGet s (proposalRec i) 1 1

/-- PEND of AGE_STATUS. -/
def propShow (s : State) : State := s.wr Reg.ageStatusPend ((List.range 64).filter fun i => propState s i == 1).length

/-- The first of a list of entries with the least value. -/
def leastBy (f : Nat → Nat) : List Nat → Option Nat
  | [] => none
  | i :: rest => match leastBy f rest with
    | some j => if f j < f i then some j else some i
    | none => some i

/-- Where a proposal is written: over a pending one with its KIND and target, else in a free entry, else over the oldest
that is not pending. -/
def propPlace (s : State) (kind head rb : Nat) : Option Nat :=
  let l := List.range 64
  let field (i off : Nat) : Nat := recGet s (proposalRec i) off 1
  match l.find? fun i => propState s i == 1 && field i 0 == kind && field i 2 == head && field i 3 == rb with
  | some i => some i
  | none => match l.find? fun i => propState s i == 0 with
    | some i => some i
    | none => leastBy (fun i => recGet s (proposalRec i) 8 5) (l.filter fun i => propState s i != 1)

/-- A proposal written with a STATE, or dropped and recorded when all entries are pending (R407). -/
def propWrite (s : State) (kind state head rb value : Nat) : State :=
  match propPlace s kind head rb with
  | some i =>
    let s := recPut s (proposalRec i) 32 [(0, 1, kind), (1, 1, state), (2, 1, head), (3, 1, rb), (4, 4, value), (8, 5, s.opsec)]
    propShow (s.set Reg.ageIrqStatusProposal)
  | none => record s srcAge 1 1 [BitVec.ofNat 8 kind, BitVec.ofNat 8 head, BitVec.ofNat 8 rb]

/-! ## Effects of the actions (R401 to R406) -/

/-- The last word of an assist table, staged or in force. -/
def tableLast (s : State) (n i : Nat) : Word :=
  (Store.read none (s.ast.get n).tablePend i).getD (Store.read 0 (s.ast.get n).table i)

/-- The assist schedule of a head and band: OL_SET takes U_MEAN, and AGE_CEIL a value, in the record and staged at the AST
that serves the head (R209, R401). -/
def assistApply (s : State) (h b ceil : Nat) : State :=
  let u := recGet s (headBandRec h b) 0x02 2
  let s := recPut s (headBandRec h b) 64 [(0, 1, h), (1, 1, b), (0x06, 2, ceil), (0x08, 2, u)]
  match s.head h with
  | none => s
  | some e =>
    let n := e.actuator % 2
    let off := 4 * 4096 + 64 * e.paSelect + 2 * b
    let w := setField (tableLast s n (off / 4)) (8 * (off % 4)) 16 u
    let s := stageTable s n (off / 4) w
    let i := e.paSelect * 8 + b
    stageCeil s n i (setField (ceilLast s n i) 0 12 (min ceil 4095))

/-- The zones of a surface's region: the namespace and the zone of its first band. -/
def regionZones (s : State) (su region : Nat) : Option (Nat × Nat) :=
  (List.range s.sim.cfg.ns.length).findSome? fun i =>
    match nsOf s (i + 1) with
    | some e =>
      if e.csi = 2 ∧ (zoneGroups s e).contains (region, su) then
        some (i + 1, ((zoneGroups s e).takeWhile fun g => g != (region, su)).foldl
          (fun n g => n + runBands (regionRuns s.sim.cfg g.2 g.1)) 0)
      else none
    | none => none

/-- One band of a density step (R113, R402): an empty band takes the plan at once, or goes OFFLINE where its capacity would
fall below G; any other is HELD. -/
def planBand (s : State) (su region pt i : Nat) : State :=
  let c := s.sim.cfg
  let b := bandsBelow c su region + i
  let a := bandPlanAt s su b
  let v := (s.byte a).toNat
  let zone := (regionZones s su region).map fun z => (z.1, z.2 + i)
  let empty := match zone with | some z => (zoneRec s z.1 z.2).state == 1 | none => true
  let changed (s : State) : State := match zone with | some z => zoneChanged s z.1 z.2 | none => s
  match bandAt (regionRuns c su region) i with
  | none => s
  | some (r, _) =>
    if !empty then s.store a [BitVec.ofNat 8 (v % 16 + 16 + (v / 32 * 32))]
    else if zoneCapacity c r pt (Config.bandDefects su b) < c.stripeG then
      let s := s.store a [BitVec.ofNat 8 (v % 16 + 32)]
      changed (match zone with | some z => setZone s z.1 z.2 { zoneRec s z.1 z.2 with state := 15 } | none => s)
    else changed (s.store a [BitVec.ofNat 8 (pt % 16)])

/-- The radial band that holds a cell's first track (R397). -/
def cellBand (s : State) (h region : Nat) : Nat :=
  match s.head h with
  | none => 0
  | some e =>
    match (surfaceRegions s.sim.cfg e.surface).find? fun r => r.region == region with
    | some r => bandFresh s (e.actuator % 2) ((r.firstTrack * 256 : Nat) : Int)
    | none => 0

/-- A density step of a cell (R402). -/
def planApply (s : State) (h region pt : Nat) : State :=
  let su := headSurface s h
  let b := cellBand s h region
  let i99 := recGet s (cellRec h region) 0x20 1
  let s := recPut s (cellRec h region) 64 [(0x21, 1, i99), (0x23, 1, pt)]
  let s := recPut s (headBandRec h b) 64 [(0x0C, 2, recGet s (headBandRec h b) 0x0A 2)]
  let s := s.each (List.range (runBands (regionRuns s.sim.cfg su region))) fun s i => planBand s su region pt i
  s.set Reg.ageIrqStatusPlan

/-- The steps that follow a retirement proposal on a head without conventional zones (R403). -/
def retireSteps (s : State) (h : Nat) : State :=
  if !retireGoes s h then s else
  let s := s.each (surfaceZones s (headSurface s h)) fun s z =>
    let r := zoneRec s z.1 z.2
    if r.state = 15 then s
    else if r.state = 1 then zoneChanged (setZone s z.1 z.2 { r with state := 15, resetRec := false }) z.1 z.2
    else zoneChanged (setZone s z.1 z.2 { r with resetRec := true }) z.1 z.2
  headRetireDone s h

/-- HOLDUP_LOW set or cleared where PWR, AGE and JNL show it (R272, R406). -/
def holdupSet (s : State) (low : Bool) : State :=
  let was := s.flag Reg.pwrStatusHoldupLow
  let s := ((s.wr Reg.pwrStatusHoldupLow (bit low)).wr Reg.ageStatusHoldupLow (bit low)).wr Reg.jnlStatusHoldupLow (bit low)
  if low && !was then (s.set Reg.pwrIrqStatusHoldupLow).set Reg.ageIrqStatusHoldupLow else s

/-- CEIL_AGE raised by AGE (R401, R404), with its effect under R83 in SERVICE. -/
def cadenceApply (s : State) (v : Nat) : State :=
  let s := recPut s deviceRec 64 [(0x12, 1, v)]
  let s := s.wr Reg.angRungCeilAge v
  if s.opMode = modeService then rungCeiling s
  else s.wr Reg.angRungCeiling (max (s.rd Reg.angRungCeilAge) (s.rd Reg.angRungCeilThm))

/-- VGUARD_NEXT raised, and the silicon base with it (R401). -/
def vguardApply (s : State) (v : Nat) : State :=
  let s := recPut s deviceRec 64 [(0x04, 4, recGet s deviceRec 0 4), (0x08, 1, s.rd Reg.ageStatusVguard), (0x09, 1, v)]
  s.wr Reg.ageStatusVguardNext v

/-- The effect of an action. -/
def ageEffect (s : State) (kind head rb value : Nat) : State :=
  if kind = kindAssist then assistApply s head rb value
  else if kind = kindPlan then planApply s head rb value
  else if kind = kindRetire then retireSteps s head
  else if kind = kindCadence then cadenceApply s value
  else if kind = kindVguard then vguardApply s value
  else if kind = kindHoldup then holdupSet s (decide (s.rd Reg.ageHoldup0BudgetMs < s.rd Reg.ageHoldup0ParkMinMs))
  else s

/-- An action (R407): applied at once at basic level, its proposal written as applied; at expert level only proposed. A
retirement sets STATE 1 and raises RETIRE as it is proposed (R403). -/
def ageAction (s : State) (kind head rb value : Nat) : State :=
  let s := if kind = kindRetire then (headStatePut s head 1).set Reg.ageIrqStatusRetire else s
  if expert s Reg.ageModeLevel then propWrite s kind 1 head rb value
  else ageEffect (propWrite s kind 2 head rb value) kind head rb value

/-! ## Headrooms (R397, R400) -/

/-- A headroom. -/
def headroom (lim x x0 : Int) : Nat :=
  if lim = x0 then 0 else (clampInt 0 255 (Int.fdiv (256 * (lim - x)) (lim - x0))).toNat

/-- A field of a record as an integer. -/
def recInt (s : State) (a off size : Nat) : Int := (recGet s a off size : Nat)

/-- The headroom of a kind that has a birth value; one that has none yet leaves the margin alone. -/
def headroomIf (born : Bool) (h : Nat) : Nat := if born then h else 255

def decodeRoom (s : State) (h r : Nat) : Nat :=
  let x0 := recInt s (cellRec h r) 0x21 1
  let lim := min ((s.rd Reg.ageRatio0Decode : Nat) * x0) (256 * (s.rd Reg.ldpFastCtlIter : Nat))
  headroomIf (x0 != 0) (headroom lim (256 * recInt s (cellRec h r) 0x20 1) (256 * x0))
def assistRoom (s : State) (h b : Nat) : Nat :=
  let a := headBandRec h b
  headroomIf (recGet s a 0x04 2 != 0) (headroom (recInt s a 0x06 2) (recInt s a 0x02 2) (recInt s a 0x04 2))
def widthRoom (s : State) (h b : Nat) : Nat :=
  let a := headBandRec h b
  headroomIf (recGet s a 0x0C 2 != 0) (headroom (s.rd Reg.calWwMaxW : Nat) (recInt s a 0x0A 2) (recInt s a 0x0C 2))
def readerRoom (s : State) (h : Nat) : Nat :=
  let a := headBandRec h 0
  let x0 := recInt s a 0x10 2
  headroomIf (x0 != 0) (headroom ((s.rd Reg.ageRatio0Reader : Nat) * x0) (256 * recInt s a 0x0E 2) (256 * x0))
def burstRoom (s : State) (h r : Nat) : Nat :=
  let a := cellRec h r
  let x0 := recInt s a 0x26 2
  headroomIf (x0 != 0) (headroom ((s.rd Reg.ageRatio1Burst : Nat) * x0) (256 * recInt s a 0x24 2) (256 * x0))

/-- MARGIN of a cell: the least of its decode, assist and width headrooms. -/
def cellMargin (s : State) (h r : Nat) : Nat :=
  min (decodeRoom s h r) (min (assistRoom s h (cellBand s h r)) (widthRoom s h (cellBand s h r)))

/-! ## Evaluation (R397, R399, R401) -/

/-- The bin that holds the 99th percentile of a histogram. -/
def percentileBin (h : Nat → Nat) (total : Nat) : Nat :=
  ((List.range 16).find? fun k => decide (99 * total ≤ 100 * ((List.range (k + 1)).map h).sum)).getD 15

/-- I99 of a cell: the histogram fixes its bin, and within a bin of four the spec states no value. -/
def cellI99 (s : State) (h r : Nat) : Nat × State :=
  let k := (h * 32 + r) * 16
  let hist (i : Nat) : Nat := Store.read 0 s.age.iterHist (k + i)
  let total := ((List.range 16).map hist).sum
  if total = 0 then (recGet s (cellRec h r) 0x20 1, s) else
  let (v, s) := s.takeFree
  (4 * percentileBin hist total + v % 4, s)

/-- A mean, floored; the earlier value where nothing was measured. -/
def meanOr (p : Nat × Nat) (scale old : Nat) : Nat := if p.2 = 0 then old else min 65535 (p.1 * scale / p.2)

/-- The measurements of a cell written to its record (R399). -/
def cellMeasure (s : State) (h r : Nat) : State :=
  let k := h * 32 + r
  let a := cellRec h r
  let (i99, s) := cellI99 s h r
  let hist := (List.range 16).map fun i => (2 * i, 2, Store.read 0 s.age.iterHist (k * 16 + i))
  let burst := meanOr ((Store.read (0, 0) s.age.burst k).1, 4 * (Store.read (0, 0) s.age.burst k).2) 1 (recGet s a 0x24 2)
  let soft := meanOr (Store.read (0, 0) s.age.soft k) 4096 (recGet s a 0x28 2)
  let born (off size v : Nat) : Nat := if recGet s a off size = 0 then v else recGet s a off size
  let s := recPut s a 64 (hist ++ [(0x20, 1, i99), (0x21, 1, born 0x21 1 i99), (0x24, 2, burst), (0x26, 2, born 0x26 2 burst),
    (0x28, 2, soft), (0x2A, 4, 0), (0x2E, 5, s.opsec)])
  s.setAge { s.age with
    sectors := Store.write 0 s.age.sectors k 0
    burst := Store.write (0, 0) s.age.burst k (0, 0), soft := Store.write (0, 0) s.age.soft k (0, 0) }

/-- The measurements of a head and band written to its record; births once a cell of it has read enough. -/
def bandMeasure (s : State) (h b : Nat) (born : Bool) : State :=
  let a := headBandRec h b
  let u := meanOr (Store.read (0, 0) s.age.level (h * 8 + b)) 1 (recGet s a 0x02 2)
  let w := (calEff s (qidOf 7 (8 * h + b))).toNat
  let first (off v : Nat) : Nat := if recGet s a off 2 = 0 ∧ born then v else recGet s a off 2
  let s := recPut s a 64 [(0, 1, h), (1, 1, b), (0x02, 2, u), (0x04, 2, first 0x04 u), (0x0A, 2, w), (0x0C, 2, first 0x0C w)]
  s.setAge { s.age with level := Store.write (0, 0) s.age.level (h * 8 + b) (0, 0) }

/-- A cell has read enough sectors since its last evaluation. -/
def cellReady (s : State) (h r : Nat) : Bool :=
  decide (0 < Store.read 0 s.age.sectors (h * 32 + r))
  && decide (s.rd Reg.ageCtlMinSect * 4096 ≤ Store.read 0 s.age.sectors (h * 32 + r))

/-- The heads and the cells that exist. -/
def ageHeads (s : State) : List Nat := (List.range s.sim.cfg.heads.length).filter fun h => s.present (bitHead h)
def ageRegions (s : State) (h : Nat) : List Nat :=
  ((surfaceRegions s.sim.cfg (headSurface s h)).map fun r => r.region).eraseDups
def ageCells (s : State) : List (Nat × Nat) := (ageHeads s).flatMap fun h => (ageRegions s h).map fun r => (h, r)

/-- A head's measurements. -/
def headMeasure (s : State) (h reader : Nat) : State :=
  let ready := (ageRegions s h).filter fun r => cellReady s h r
  let s := s.each ready fun s r => cellMeasure s h r
  let s := s.each (List.range 8) fun s b => bandMeasure s h b (ready.any fun r => cellBand s h r == b)
  let a := headBandRec h 0
  if reader = 0 then s
  else recPut s a 64 [(0x0E, 2, reader), (0x10, 2, if recGet s a 0x10 2 = 0 then reader else recGet s a 0x10 2)]

/-- AGE_CEIL of a head and band after an evaluation. -/
def nextCeil (s : State) (h b : Nat) : Nat :=
  let v := recGet s (headBandRec h b) 0x04 2 * s.rd Reg.ageRatio1Ceil / 256
  let old := recGet s (headBandRec h b) 0x06 2
  if old = 0 then v else min old v

/-- The actions of one head: its assist schedule, density steps, retirement (R401). -/
def headActions (s : State) (h : Nat) (ready : List Nat) : State :=
  let s := s.each ((List.range 8).filter fun b => recGet s (headBandRec h b) 0x04 2 != 0) fun s b =>
    ageAction s kindAssist h b (nextCeil s h b)
  let s := s.each ready fun s r =>
    let m := cellMargin s h r
    let s := recPut s (cellRec h r) 64 [(0x22, 1, m)]
    let pt := recGet s (cellRec h r) 0x23 1 % 16
    if m < s.rd Reg.ageThrPlanUp ∧ pt < limitValue s 0x0402 15 then ageAction s kindPlan h r (pt + 1) else s
  let worn := ready.any fun r => decide (recGet s (cellRec h r) 0x22 1 < s.rd Reg.ageThrRetire)
    && recGet s (cellRec h r) 0x23 1 % 16 == 15
  if (worn || readerRoom s h == 0) && recGet s (headBandRec h 0) 0x12 1 == 0 then ageAction s kindRetire h 0 0 else s

/-- The history record of a head (R399). -/
def historyWrite (s : State) (h : Nat) : State :=
  let rs := ageRegions s h
  let worst (f : Nat → Nat) (l : List Nat) : Nat := l.foldl (fun m x => min m (f x)) 255
  let most (f : Nat → Nat) : Nat := rs.foldl (fun m x => max m (f x)) 0
  let bands := rs.map fun r => cellBand s h r
  let s := recPut s (historyRec s.age.history) 64 [(0, 5, s.opsec), (5, 1, h), (6, 1, worst (fun r => recGet s (cellRec h r) 0x22 1) rs),
    (7, 1, most fun r => recGet s (cellRec h r) 0x23 1 % 16), (8, 1, most fun r => recGet s (cellRec h r) 0x20 1),
    (9, 1, worst (assistRoom s h) bands), (10, 1, worst (widthRoom s h) bands), (11, 1, readerRoom s h),
    (12, 1, worst (burstRoom s h) rs)]
  s.setAge { s.age with history := (s.age.history + 1) % 8192 }

/-- Silicon drift in ppm (R405). -/
def siliconDrift (s : State) : Nat :=
  let d := recGet s deviceRec 0 4
  let b := recGet s deviceRec 4 4
  if b = 0 then 0 else (d - b) * 1000000 / b

/-- The silicon actions: the voltage guard, then the cadence (R401, R404). -/
def siliconActions (s : State) : State :=
  let drift := siliconDrift s
  let s := s.wr Reg.ageSiliconDriftPpm (min drift 65535)
  let top := limitValue s 0x0401 8
  let due := decide (s.rd Reg.ageSiliconStepPpm ≤ drift) && drift != 0
  let v := s.rd Reg.ageStatusVguardNext
  let s := if due && decide (v < top) then ageAction s kindVguard 0 0 (v + 1) else s
  let cells := ageCells s
  let weak := (cells.filter fun c => decide (burstRoom s c.1 c.2 < s.rd Reg.ageThrPlanUp)).length
  let ceil := s.rd Reg.angRungCeilAge
  if ((due && decide (top ≤ v)) || decide (cells.length < 4 * weak)) && decide (ceil + 1 < s.sim.cfg.rungCount) then
    ageAction s kindCadence 0 0 (ceil + 1)
  else s

/-- Whether an evaluation may run (R401, R410): in SERVICE, REST and STANDBY, and not during a power loss or an entry into SAFE. -/
def mayEvaluate (s : State) : Bool :=
  (s.opMode == modeService || s.opMode == modeRest || s.opMode == modeStandby)
  && !s.flag Reg.pwrStatusLoss && s.flt.safe == .none

/-- An evaluation (R401): measurements, actions, history, and the ledger's header. -/
def ageEvaluate (s : State) (delay : Nat) (readers : List Nat) : State :=
  if !mayEvaluate s then s else
  let heads := ageHeads s
  let ready (h : Nat) : List Nat := (ageRegions s h).filter fun r => cellReady s h r
  let lists := heads.map fun h => (h, ready h)
  let s := s.each heads fun s h => headMeasure s h (nth 0 readers h)
  let base := recGet s deviceRec 4 4
  let s := if delay = 0 then s else recPut s deviceRec 64 [(0, 4, delay), (4, 4, if base = 0 then delay else base)]
  let s := s.each lists fun s e => headActions s e.1 e.2
  let s := siliconActions s
  let s := s.each heads historyWrite
  let s := s.addWrap Reg.ageEvalsCount 1
  let birth := if s.loadNat ledgerBase 4 = 0x474C4D51 then s.loadNat (ledgerBase + 6) 5 else s.opsec
  let b := leBytes 4 0x474C4D51 ++ leBytes 2 1 ++ leBytes 5 birth ++ leBytes 4 (s.rd Reg.ageEvalsCount) ++ List.replicate 45 0
  let s := s.store ledgerBase (b ++ leBytes 4 (crc32c b))
  let s := s.setAge { s.age with lastEval := s.opsec }
  s.set Reg.ageIrqStatusEvalDone

/-- AGE_EVAL_TIMER (R401): EVAL_H hours of operating seconds since the last evaluation. -/
def execAgeEvalTimer (delay : Nat) (readers : List Nat) (s : State) : Host.Outcome State Fault Refusal :=
  .next (if s.age.lastEval + 3600 * s.rd Reg.ageCtlEvalH ≤ s.opsec then ageEvaluate s delay readers else s)

/-- EVAL (R401): AGE_CTL.EVAL. -/
def execEval (delay : Nat) (readers : List Nat) (s : State) : Host.Outcome State Fault Refusal :=
  .next ((ageEvaluate s delay readers).answer 0)

/-- A pending proposal taken out of the queue with a STATE, and what follows; at basic level the command is ignored and
counted (R14, R407). -/
def propCommand (s : State) (entry state : Nat) (run : State → State) : State :=
  if !expert s Reg.ageModeLevel then expertIgnored s Reg.ageModeExpertWrIgnored true
  else if 64 ≤ entry ∨ propState s entry ≠ 1 then s
  else run (propShow (recPut s (proposalRec entry) 32 [(1, 1, state)]))

/-- APPLY (R407). -/
def execApply (entry : Nat) (s : State) : Host.Outcome State Fault Refusal :=
  .next ((propCommand s entry 2 fun s =>
    let f (off size : Nat) : Nat := recGet s (proposalRec entry) off size
    ageEffect s (f 0 1) (f 2 1) (f 3 1) (f 4 4)).answer 0)

/-- DISCARD (R407). -/
def execDiscard (entry : Nat) (s : State) : Host.Outcome State Fault Refusal :=
  .next ((propCommand s entry 3 fun s => s).answer 0)

end Sys2Proof.Machine
end

