-- ==== Sys2Proof/Machine/Calib.lean ====
section
/-!
DEFINITION. Calibration (spec/14_calibration_ageing.md, R384 to R396, R410; spec/03_angle_time.md, R80): quantities and their
effective values, triggers, internal runs, CAL planks.
-/

namespace Sys2Proof.Machine

/-! ## Quantities (R385, R386, R389) -/

/-- A surface is served by a head that is present. -/
def surfacePresent (s : State) (su : Nat) : Bool :=
  match s.sim.cfg.heads.findIdx? fun h => h.surface == su with
  | some h => s.present (bitHead h)
  | none => false

/-- A head is present. -/
def headPresent (s : State) (h : Nat) : Bool := decide (h < s.sim.cfg.heads.length) && s.present (bitHead h)

/-- A QID is valid (R386): its group and index are in the effective roster. -/
def qidValid (s : State) (qid : Nat) : Bool :=
  let g := qid / 4096
  let i := qid % 4096
  if g ≤ 1 then decide (i < 16) && decide (i % 4 < 3) && s.present (bitRdc (i / 8))
  else if g = 2 then decide (i < 10)
  else if g = 3 ∨ g = 4 then headPresent s i
  else if g = 5 then surfacePresent s i
  else if g = 6 then decide (i % 4 < 3) && surfacePresent s (i / 4)
  else if g = 7 then headPresent s (i / 8)
  else false

/-- The range of a quantity (R389). The table states none for the Q2.14 gains of groups 1 and 2: they are held to what Q2.14
in 16 bits unsigned spells (notes/assumptions/18.md). -/
def qidRange (qid : Nat) : Int × Int :=
  let g := qid / 4096
  let i := qid % 4096
  if g = 0 then (if i % 4 = 0 then (0x2000, 0x8000) else (-127, 127))
  else if g = 1 then (if i % 4 = 1 then (0, 0xFFFF) else (-31, 31))
  else if g = 2 then (if i % 2 = 0 then (-200, 200) else (0, 0xFFFF))
  else if g = 3 then (0x2000, 0x8000)
  else if g = 4 then (-4095, 4095)
  else if g = 5 then (-1048576, 1048575)
  else if g = 6 then (if i % 4 = 0 then (0, 0x8000) else (-0x8000, 0x8000))
  else (0, 1023)

/-- The indices that a group may have. -/
def groupIndices (g : Nat) : List Nat :=
  if g ≤ 1 then List.range 16 else if g = 2 then List.range 10 else if g ≤ 5 then List.range 32
  else if g = 6 then List.range 128 else List.range 256

/-- Valid QIDs of a group, ascending. -/
def groupQids (s : State) (g : Nat) : List Nat := ((groupIndices g).map fun i => qidOf g i).filter fun q => qidValid s q

/-- A value held to the LIMITS entries of its QID (R56, R385). -/
def qidLimit_ (s : State) (qid : Nat) (v : Int) : Int :=
  s.sim.cfg.limits.foldl (fun v e =>
    if e.id ≠ 0x8000 + qid then v
    else
      let v := if e.floor then max v (signedOf 32 e.value) else v
      if e.ceiling then min v (signedOf 32 e.value) else v) v

/-- The base of a quantity. -/
def qidBase (s : State) (qid : Nat) : Int :=
  if Store.read false s.cal.runValid qid then Store.read 0 s.cal.run qid else Store.read 0 s.cal.factory qid

/-- The effective value formed (R385): saturated, then bounded, with SAT and CLAMPED; a clamp is a corrected event. Skews show
in ANG_SKEWs. -/
def qidForm (s : State) (qid : Nat) : State :=
  let sum := qidBase s qid + Store.read 0 s.cal.overlay qid
  let sat := clampInt (qidRange qid).1 (qidRange qid).2 sum
  let e := qidLimit_ s qid sat
  let s := s.setCal { s.cal with
    eff := Store.write 0 s.cal.eff qid e
    satAt := Store.write false s.cal.satAt qid (sat != sum), clampAt := Store.write false s.cal.clampAt qid (e != sat) }
  let s := if e = sat then s else corrected s
  if qid / 4096 = 5 then s.wr (Reg.angSkewSkew.elem (qid % 4096)) (toBits 21 e) else s

/-- Every effective value of a group formed. -/
def groupForm (s : State) (g : Nat) : State := s.each (groupQids s g) qidForm

/-- The boundary of a group (R389) as far as the state tells it: a plank gap for groups 0 and 1, assist boundaries for groups 3,
4 and 7; groups 2, 5 and 6 wait for the device angle ∠0.0, which the event is. -/
def groupBoundary (s : State) (g : Nat) : Bool :=
  if g ≤ 1 then (s.chan.get 0).granted.isNone && (s.chan.get 1).granted.isNone
  else if g = 3 ∨ g = 4 ∨ g = 7 then [0, 1].all fun n => astState s n == astIdle || !s.present (bitAst n)
  else true

/-- CAL_OVERLAY_APPLY (R385, R387, R394): the group's boundary: staged overlays and the values of a passing run take effect. -/
def execCalOverlayApply (group : Nat) (s : State) : Host.Outcome State Fault Refusal :=
  let staged := s.cal.staged.filter fun e => e.1 / 4096 == group
  if 8 ≤ group ∨ !groupBoundary s group ∨ (staged.isEmpty ∧ !s.cal.applyPend.testBit group) then .next s else
  let overlay := staged.foldl (fun m e => match e.2 with | some v => Store.write 0 m e.1 v | none => m) s.cal.overlay
  let s := s.setCal { s.cal with
    overlay, staged := s.cal.staged.filter fun e => e.1 / 4096 != group, applyPend := maskClear s.cal.applyPend group }
  let s := s.wr Reg.calStatusOvlPend (maskClear (s.rd Reg.calStatusOvlPend) group)
  let s := groupForm s group
  .next (if staged.isEmpty then s else s.set Reg.calIrqStatusOvlApplied)

/-- CAL_OVERLAY_WRITE (R387): the overlay of the QID in CAL_Q_IDX is staged; an invalid QID takes none. -/
def execCalOverlayWrite (data : Word) (s : State) : Host.Outcome State Fault Refusal :=
  let qid := s.rd Reg.calQIdxQid
  if !qidValid s qid then .next (s.answer 0) else
  let s := s.setCal { s.cal with staged := Store.write none s.cal.staged qid (some (signedOf 32 data.toNat)) }
  .next ((s.wr Reg.calStatusOvlPend (maskSet (s.rd Reg.calStatusOvlPend) (qid / 4096))).answer 0)

/-! ## Internal runs (R391, R392) -/

/-- The quantities that an instance of an internal group has: RDC n × 2 + l, or the current-sense pair. -/
def instQids (g inst : Nat) : List Nat :=
  if g ≤ 1 then (List.range 3).map fun i => qidOf g (4 * inst + i) else [qidOf g (2 * inst), qidOf g (2 * inst + 1)]

/-- Whether an instance of an internal group exists: its quantities are valid, and its unit is present. -/
def instPresent (s : State) (g inst : Nat) : Bool :=
  if g ≤ 1 then decide (inst < 4) && s.present (bitRdc (inst / 2))
  else decide (inst < 5) && (if inst < 2 then s.present (bitSrv inst) else s.present bitSpn)

/-- Whether a request may start now: no run of its group, and for groups 0 and 1 a free channel. -/
def runFree (s : State) (r : CalReq) : Bool :=
  !(s.cal.running.any fun x => x.group == r.group)
  && (1 < r.group || ((s.chan.get (r.inst / 2)).granted.isNone && !(s.gated.contains (7 + r.inst / 2))))

/-- A run starts, holding its channel where it needs one. -/
def runStart (s : State) (r : CalReq) : State :=
  let s := calEnter s r.group r.inst
  if r.group ≤ 1 then s.setChan (r.inst / 2) { s.chan.get (r.inst / 2) with granted := some calHolder } else s

/-- Requests that wait, in group order, started as far as they may be. -/
def calPump (s : State) : State :=
  if s.opMode = modeSafe ∨ s.opMode = modeRecovery ∨ s.flt.safe ≠ .none then s else
  s.each ((List.range 3).flatMap fun g => s.cal.queue.filter fun r => r.group == g) fun s r =>
    if runFree s r then
      let s := runStart s r
      s.setCal { s.cal with queue := s.cal.queue.erase r }
    else s

/-- A request for an internal run. -/
def calRequest (s : State) (g inst : Nat) : State :=
  let r : CalReq := { group := g, inst }
  if s.cal.queue.contains r then s else calPump (s.setCal { s.cal with queue := s.cal.queue ++ [r] })

/-- RUN (R391, R392): groups 0 to 2 only; an absent instance is ABSENT; a request for a busy group waits and shows BUSY. -/
def execRun (group inst : Nat) (s : State) : Host.Outcome State Fault Refusal :=
  let give (s : State) (v : Nat) : Host.Outcome State Fault Refusal := .next ((s.wr Reg.calCmdResStatus v).answer 0)
  if 2 < group ∨ s.opMode = modeSafe ∨ s.opMode = modeRecovery ∨ s.flt.safe ≠ .none then give s 2
  else if !instPresent s group inst then give s 3
  else if runFree s { group, inst } then give (calRequest s group inst) 0
  else give (calRequest s group inst) 1

/-- FACTORY (R387): RUN_VALID of the group clears, and the factory values become the base at its boundary. -/
def execFactory (group : Nat) (s : State) : Host.Outcome State Fault Refusal :=
  if 8 ≤ group then .next ((s.wr Reg.calCmdResStatus 2).answer 0) else
  let s := s.setCal { s.cal with
    runValid := s.cal.runValid.filter fun e => e.1 / 4096 != group, applyPend := maskSet s.cal.applyPend group }
  .next ((s.wr Reg.calCmdResStatus 0).answer 0)

/-- Values of a passing run stored (R394): M, RUN_VALID, TEMP_LAST, DUE cleared, the effective values due at the boundary. -/
def runStore (s : State) (g inst : Nat) (l : List (Nat × Int)) : State :=
  let s := s.setCal { s.cal with
    run := l.foldl (fun m e => Store.write 0 m e.1 e.2) s.cal.run
    runValid := l.foldl (fun m e => Store.write false m e.1 true) s.cal.runValid
    applyPend := maskSet s.cal.applyPend g }
  let s := s.wr (Reg.calGrpStatTempLast.elem g) (toBits 16 (calTemp s g inst))
  s.wr Reg.calStatusDue (maskClear (s.rd Reg.calStatusDue) g)

/-- How a run ends: values out of range, its check failed, or a pass. -/
def runOutcome (l : List (Nat × Int)) (check : Bool) : Nat :=
  if !check then calFailCheck
  else if l.any fun e => decide (e.2 < (qidRange e.1).1) || decide ((qidRange e.1).2 < e.2) then calFailRange
  else calPass

/-- The end of a run with its values (R394). -/
def runEnd (s : State) (g inst outcome : Nat) (l : List (Nat × Int)) : State :=
  let s := if outcome = calPass then runStore s g inst l else s
  calStamp s g inst outcome

/-- CAL_INTERNAL_RUN_END (R392, R394): the channel is released, and the next request starts. -/
def execCalInternalRunEnd (group : Nat) (values : List Int) (check : Bool) (s : State) : Host.Outcome State Fault Refusal :=
  match s.cal.running.find? fun r => r.group == group && decide (group ≤ 2) with
  | none => .next s
  | some r =>
    let l := (instQids group r.inst).zip values
    let s := runEnd s group r.inst (runOutcome l (check && l.length == (instQids group r.inst).length)) l
    let s := if group ≤ 1 then s.setChan (r.inst / 2) { s.chan.get (r.inst / 2) with granted := none } else s
    .next (calPump s)

/-! ## Triggers (R390, R391) -/

/-- A group's temperature lies more than DT from TEMP_LAST. -/
def groupDrifted (s : State) (g : Nat) : Bool :=
  let insts := if g ≤ 1 then [0, 2].filter fun i => s.present (bitRdc (i / 2)) else [0]
  insts.any fun i =>
    decide (8 * s.rd Reg.calCtlDt < (calTemp s g i - signedOf 16 (s.rd (Reg.calGrpStatTempLast.elem g))).natAbs)

/-- A DUE bit set. -/
def dueSet (s : State) (g : Nat) : State :=
  if (s.rd Reg.calStatusDue).testBit g then s
  else (s.wr Reg.calStatusDue (maskSet (s.rd Reg.calStatusDue) g)).set Reg.calIrqStatusDue

/-- Triggers evaluated (R390), and at basic level in SERVICE the due internal groups requested (R391, R411). -/
def calTriggers (s : State) : State :=
  let s := if s.rd Reg.calCtlDt = 0 then s else
    s.each ((List.range 8).filter fun g => (s.rd Reg.calCtlTrigEn).testBit g && groupDrifted s g) dueSet
  if expert s Reg.calModeLevel ∨ s.opMode ≠ modeService then s else
  s.each ((List.range 3).filter fun g =>
      (s.rd Reg.calStatusDue).testBit g && !(s.cal.running.any fun r => r.group == g)
      && !(s.cal.queue.any fun r => r.group == g)) fun s g =>
    s.each ((List.range 5).filter fun i => instPresent s g i) fun s i => calRequest s g i

/-- XCHK_DETECT (R80): in AUTO mode, a difference beyond XCHK_LIM for 16 wedges: XCHK, a record, and DUE of group 5. -/
def execXchkDetect (src diff : Nat) (s : State) : Host.Outcome State Fault Refusal :=
  let lim := s.rd Reg.angCtlXchkLim
  if lim = 0 ∨ diff ≤ lim ∨ s.rd Reg.angCtlSrcSel ≠ 0 then .next s else
  let s := record (s.set Reg.angIrqStatusXchk) srcAng 1 1 ([BitVec.ofNat 8 src] ++ leBytes 4 diff)
  .next (dueSet s 5)

/-! ## CAL planks (R393 to R396) -/

/-- PLANK_CAL (R122, R393): the plank begins: its window opens, and a run of its group is in progress. -/
def execPlankCal (n full : Nat) (s : State) : Host.Outcome State Fault Refusal :=
  match bwkBegin s n actCal full with
  | .notYet s => .next s
  | .ended s => .next s
  | .begun s p => .next (calEnter s (p.param % 256) (calInst s n p))

/-- The length of a plank's window in ticks (R393). -/
def calWindow (s : State) (p : Plank) : Nat :=
  let g := p.param % 256
  let rev := s.sim.cfg.w * 1024
  if g = 3 ∨ g = 4 then 8 * 1024 else if g = 5 then p.count * rev else if g = 6 then 16 * rev else 17 * rev

/-- The quantities that a plank measures, with the values derived from what its window measured (R393). -/
def calMeasured (s : State) (p : Plank) (inst : Nat) (values : List Int) : List (Nat × Int) :=
  let g := p.param % 256
  if g = 4 then [(qidOf 4 p.head, nth 0 values 0 - (s.rd Reg.calProxyOffLevel : Nat))]
  else if g = 6 then ((List.range 3).map fun i => qidOf 6 (4 * inst + i)).zip values
  else [(qidOf g inst, nth 0 values 0)]

/-- Group 5 has its reference: the other actuator is present, not PARKED, and the source in use (R393, R410). -/
def calReference (s : State) (n : Nat) : Bool :=
  s.present (bitSrv (1 - n)) && srvState s (1 - n) != srvParked && s.rd Reg.angStatusSrc == 1 - n

/-- How the window of a plank is judged (R393). -/
def calJudge (s : State) (n : Nat) (p : Plank) (inst : Nat) (values : List Int) (check : Bool) : Nat :=
  let g := p.param % 256
  if g = 5 ∧ !calReference s n then calNoRef
  else
    let rise := decide ((s.rd Reg.calProxyMinRise : Nat) ≤ nth 0 values 1 - nth 0 values 0)
    runOutcome (calMeasured s p inst values) (check && (g != 4 || rise)
      && (if g = 6 then decide (3 ≤ values.length) else !values.isEmpty))

/-- WW_CEIL of a head and band after a passing run of group 7 (R396): staged at basic level. A width of 0 has no quotient: it is
a free value. -/
def wwStage (s : State) (n : Nat) (p : Plank) (inst : Nat) : State :=
  if expert s Reg.calModeLevel then s else
  let qid := qidOf 7 inst
  let w := (qidLimit_ s qid (clampInt 0 1023 (qidBase s qid + Store.read 0 s.cal.overlay qid))).toNat
  let u := Store.read 0 s.cal.probeU inst
  let (v, s) := if w = 0 then (s.takeFree.1 % 4096, s.takeFree.2) else (min 4095 (u * s.rd Reg.calWwMaxW / w), s)
  let i := paSelect s p.head * 8 + inst % 8
  stageCeil s n i (setField (ceilLast s n i) 16 12 v)

/-- CAL_WINDOW_CLOSE (R393 to R396): the window closes, the run is judged, and the plank ends OK. -/
def execCalWindowClose (n full : Nat) (values : List Int) (check : Bool) (s : State) : Host.Outcome State Fault Refusal :=
  match runningPlank s n actCal with
  | none => .next s
  | some p =>
    let g := p.param % 256
    let inst := calInst s n p
    let now := frameAngle s p.head full
    let running := s.cal.running.any fun r => r.group == g && r.inst == inst
    if !running ∨ ticksBetween s (s.bwk.get n).run.beginAt now < calWindow s p then .next s else
    let o := calJudge s n p inst values check
    let s := runEnd s g inst o (calMeasured s p inst values)
    let s := if o = calPass ∧ g = 4 then
        let f := Reg.astSuspectHeads.elem n
        s.wr f (maskClear (s.rd f) (paSelect s p.head))
      else s
    let s := if o = calPass ∧ g = 7 then wwStage s n p inst else s
    .next (calPump (plankEnd s n stOk now))

end Sys2Proof.Machine
end

