-- ==== Sys2Proof/Machine/Recorder.lean ====
section
/-!
DEFINITION. The event recorder and the performance counters (spec/19_recorder_counters.md, R507 to R521).
-/

namespace Sys2Proof.Machine

/-! ## Records (R507 to R512) -/

/-- The slot of a record sequence. -/
def recSlot (seq : Nat) : Nat := 0x10000000 + 64 * (seq % 65536)

/-- Bytes 0x00 to 0x37 of a record. -/
def recBody (s : State) (seq : Nat) (p : RecPost) : List Byte :=
  leBytes 4 seq ++ leBytes 5 s.opsec ++ leBytes 3 (s.rd Reg.rstPcycleCount)
  ++ [BitVec.ofNat 8 p.source, BitVec.ofNat 8 p.severity] ++ leBytes 2 p.code ++ padBytes 40 p.payload

/-- Bytes 0x38 to 0x3F. -/
def recTail (seq : Nat) (body : List Byte) : List Byte :=
  let b := [0xA5, 0] ++ leBytes 4 seq
  b ++ leBytes 2 (crc277 (body ++ b))

/-- One record claimed, written and sealed (R509), with SEV where its severity is at or above MIN. -/
def recWrite (s : State) (p : RecPost) : State :=
  let seq := s.rd Reg.recHeadSeqSeq
  let body := recBody s seq p
  let s := s.addWrap Reg.recHeadSeqSeq 1
  let s := s.store (recSlot seq) body
  let s := s.store (recSlot seq + 0x38) (recTail seq body)
  if s.rd Reg.recSevMin ≤ p.severity then s.set Reg.recIrqStatusSev else s

/-- Whether REC can write: the logic die is out of POR and its rails are up. -/
def recAlive (s : State) : Bool := s.boot != .por && s.pwr.step != .down

/-- RECORD_WRITE (R509, R510): the oldest post becomes a record. -/
def execRecordWrite (s : State) : Host.Outcome State Fault Refusal :=
  match s.recorder.queue with
  | [] => .next s
  | p :: rest =>
    if !recAlive s then .next s else
    let s := s.setRecorder { s.recorder with queue := rest }
    .next ((recWrite s p).wr Reg.recStatusQueued rest.length)

/-- RECORD_POST (R510). -/
def execRecordPost (source severity code : Nat) (payload : List Byte) (warden : Bool) (s : State) :
    Host.Outcome State Fault Refusal :=
  .next (if recAlive s then recPost s { source, severity, code, payload, warden } else s)

/-- A REC_POST register of a bus master (R520), by window offset. -/
def postReg (s : State) (m off : Nat) : Word := Store.read 0 s.recorder.postRegs (m * 65536 + off)

/-- REC_POST_GO (R510, R520): a control core's or the warden's post, SOURCE from the master. -/
def execRecPostGo (m : Nat) (priv : Priv) (data : Word) (s : State) : Host.Outcome State Fault Refusal :=
  if priv ≠ .m then .next (busError s)
  else if !data.getLsbD 31 then .next (s.answer 0)
  else
    let hdr := postReg s m 0x20
    let payload := (List.range 10).flatMap fun i => leBytes 4 (postReg s m (0x24 + 4 * i)).toNat
    .next ((recPost s { source := srcHart m, severity := fieldOf hdr 16 3, code := fieldOf hdr 0 16, payload
                        warden := m == 4 }).answer 0)

/-! ## Reading (R511, R512) -/

/-- The 64 bytes of the record with a sequence, or zeros where R511 rejects its slot. -/
def recordBytes (s : State) (seq : Nat) : List Byte :=
  let a := recSlot seq
  let b := s.bytes a 64
  let age := (s.rd Reg.recHeadSeqSeq + 2 ^ 32 - seq % 2 ^ 32) % 2 ^ 32
  let ok := decide (1 ≤ age) && decide (age ≤ 65536) && !s.poisoned a 64 && nth 0 b 0x38 == 0xA5
    && leValue (b.take 4) == seq % 2 ^ 32 && leValue ((b.drop 0x3A).take 4) == seq % 2 ^ 32
    && leValue (b.drop 0x3E) == crc277 (b.take 0x3E)
  if ok then b else List.replicate 64 0

/-- Chunk `i` of page C0h: the header, then the slots in slot order, each the record that its slot should hold. -/
def recPageChunk (s : State) (i : Nat) : List Byte :=
  let head := s.rd Reg.recHeadSeqSeq
  if i = 0 then
    padBytes 64 (leBytes 4 head ++ leBytes 4 head ++ leBytes 4 65536 ++ leBytes 3 (s.rd Reg.rstPcycleCount) ++ [0]
      ++ leBytes 5 s.opsec)
  else if 65536 < i then []
  else
    let j := i - 1
    recordBytes s ((head + 2 ^ 32 - 1 - (head + 65535 - j) % 65536) % 2 ^ 32)

/-- `n` bytes of page C0h from an offset. -/
def recPage (s : State) (off n : Nat) : List Byte :=
  if n = 0 then [] else
  let first := off / 64
  let chunks := (List.range ((off + n - 1) / 64 - first + 1)).flatMap fun i => recPageChunk s (first + i)
  (chunks.drop (off % 64)).take n

/-! ## Performance counters (R514, R517, R521) -/

/-- COUNTER_WRAP (R514): a counter that counts wraps to 0; its OVF bit is set. -/
def execCounterWrap (k : Nat) (s : State) : Host.Outcome State Fault Refusal :=
  if 8 ≤ k ∨ !s.flag (Reg.pmuEvselEn.elem k) then .next s
  else .next (pmuOverflow (s.wrPair (Reg.pmuCntLoCount.elem k) (Reg.pmuCntHiCount.elem k) 0) k)

/-- CLR_ALL (R517, R521): a write of PMU_CTL with CLR_ALL set. -/
def execClrAll (priv : Priv) (data : Word) (s : State) : Host.Outcome State Fault Refusal :=
  if priv = .u then .next (busError s) else
  let s := s.wr Reg.pmuCtlUserEn (fieldOf data 0 1)
  let s := if data.getLsbD 1 then
      s.each (List.range 8) fun s k => s.wrPair (Reg.pmuCntLoCount.elem k) (Reg.pmuCntHiCount.elem k) 0
    else s
  .next (s.answer 0)

/-- PMU_COUNTER_WRITE (R517, R521): a write of a counter's _HI register takes effect with the _LO half that the same master has
staged (R13). -/
def execPmuCounterWrite (m k : Nat) (priv : Priv) (data : Word) (s : State) : Host.Outcome State Fault Refusal :=
  if priv = .u ∨ 8 ≤ k then .next (busError s) else
  let lo := Reg.pmuCntLoCount.elem k
  let hi := Reg.pmuCntHiCount.elem k
  let v := (stagedHalf s m lo.addr).getD (s.rdWord lo.addr)
  let s := stageHalf s m lo.addr none
  .next (((s.wr lo v.toNat).wr hi (fieldOf data 0 16)).answer 0)

end Sys2Proof.Machine
end

