-- ==== Sys2Proof/Machine/Journal.lean ====
section
/-!
DEFINITION. Commands of the journal (spec/09_journal.md, R260, R264, R271, R272, R279 to R282): the expert ring, twin records,
folds and replay.
-/

namespace Sys2Proof.Machine

/-! ## The request ring (R260) -/

/-- A JNL result. -/
def jnlResult (s : State) (e : RingEntry) (status : Nat) : State :=
  ringAnswer s 4 ([BitVec.ofNat 8 status, 0] ++ leBytes 2 (e.at 2 2) ++ leBytes 4 (e.at 4 4)) true

/-- An entry breaks the format: poisoned, FIRST and LAST not both set, or a reserved bit set. -/
def jnlMalformed (e : RingEntry) : Bool :=
  let flags := e.at 1 1
  e.bad || flags % 4 != 3 || flags / 8 != 0 || (flags.testBit 2 && e.at 0 1 != 1) || leValue (e.bytes.drop 8) != 0

/-- The oldest entry of the ring with an OP run; at basic level it ends with BAD_OP. -/
def jnlEntry (s : State) (op : Nat) (run : State → RingEntry → State) : State :=
  match ringFront s 4 with
  | none => s
  | some e =>
    if e.at 0 1 ≠ op then s
    else if !expert s Reg.jnlModeLevel || jnlMalformed e then jnlResult s e 1
    else run s e

/-- ROUTE (R260): the route of a write that has laid nothing; an entry with an undefined OP ends with BAD_OP here. -/
def execRoute (s : State) : Host.Outcome State Fault Refusal :=
  match ringFront s 4 with
  | none => .next s
  | some e =>
    if e.at 0 1 = 2 ∨ e.at 0 1 = 3 then .next s
    else if e.at 0 1 ≠ 1 then .next (jnlResult s e 1)
    else .next (jnlEntry s 1 fun s e =>
      match s.hst.cmds.find? fun c => c.tag == e.at 2 2 && c.isWrite && !c.done with
      | none => jnlResult s e 1
      | some c =>
        let journal := (e.at 1 1).testBit 2
        if !c.laid.isEmpty then jnlResult s e 2
        else if journal && journalFull s (actOfLba s c.ns (writeFirst c)) (recordLen c) then jnlResult s e 3
        else
          let c := { c with
            direct := !journal
            target := if journal then recordTarget s (actOfLba s c.ns (writeFirst c)) (recordLen c) else none }
          jnlResult (setCmd s c) e 0)

/-- Whether a fold of an extent would write a band while HOLDUP_LOW stands (R272). -/
def foldHeld (s : State) (e : Extent) : Bool := s.flag Reg.jnlStatusHoldupLow && nsZoned s e.ns

/-- An extent marked FOLDING (R271), with what is already home counted. -/
def foldStart (s : State) (e : Extent) : State :=
  let s := setExtent s { e with state := 2, home := [] }
  if s.rd Reg.jnlStatusFold = 3 then s else s.wr Reg.jnlStatusFold 1

/-- FOLD (R260, R271). -/
def execFold (s : State) : Host.Outcome State Fault Refusal :=
  .next (jnlEntry s 2 fun s e =>
    match s.jnl.extents.find? fun x => x.idx == e.at 4 4 with
    | none => jnlResult s e 1
    | some x =>
      if x.state = 2 ∨ foldHeld s x then jnlResult s e 2
      else if x.state = 3 then jnlResult s e 1
      else jnlResult (foldStart s x) e 0)

/-- RELEASE (R260, R263): an extent is freed without folding. -/
def execRelease (s : State) : Host.Outcome State Fault Refusal :=
  .next (jnlEntry s 3 fun s e =>
    match s.jnl.extents.find? fun x => x.idx == e.at 4 4 with
    | none => jnlResult s e 1
    | some x => if x.state = 2 then jnlResult s e 2 else jnlResult (extentDrop s x 0) e 0)

/-! ## Twin and folds of the automation (R264, R271, R272) -/

/-- TWIN_WAIT_EXPIRY (R264): a direct write that is laid and not yet protected gets its twin record. -/
def execTwinWaitExpiry (tag : Nat) (s : State) : Host.Outcome State Fault Refusal :=
  match s.hst.cmds.find? fun c => c.tag == tag && c.isWrite && !c.done with
  | none => .next s
  | some c =>
    if c.twin && c.direct && c.fetched && !writeLaid c && !s.jnl.twins.contains tag && !expert s Reg.jnlModeLevel then
      .next (twinIssue s c)
    else .next s

/-- The extents a fold takes first: in each zone the one with the lowest WRITE_SEQ, where none of the zone is being folded
(R271). An extent of a line that is draining goes first by the same order. -/
def foldCandidates (s : State) : List Extent :=
  let zs := max s.sim.cfg.zoneSectors 1
  let same (a b : Extent) : Bool := a.ns == b.ns && (!nsZoned s a.ns || a.slba / zs == b.slba / zs)
  s.jnl.extents.filter fun e =>
    e.state == 1 && !s.jnl.extents.any fun x => same x e && (x.state == 2 || (x.state == 1 && decide (x.seq < e.seq)))

/-- FOLD_IDLE_START (R271, R272, R282): in SERVICE, after IDLE_MS without host work or at HIGH_WM, folds begin; band folds
wait while HOLDUP_LOW stands. At expert level firmware schedules folds. -/
def execFoldIdleStart (s : State) : Host.Outcome State Fault Refusal :=
  let due := s.hst.cmds.isEmpty || s.flag Reg.jnlStatusSpaceLow || s.rd Reg.jnlStatusFold == 3
  if expert s Reg.jnlModeLevel || !due || s.opMode != modeService then .next s else
  let all := foldCandidates s
  let go := all.filter fun e => !foldHeld s e
  let s := s.each go foldStart
  if go.length < all.length then
    let s := s.set Reg.jnlIrqStatusFoldHeld
    .next (if go.isEmpty ∧ s.rd Reg.jnlStatusFold ≠ 3 ∧ s.rd Reg.jnlStatusFold ≠ 1 then s.wr Reg.jnlStatusFold 2 else s)
  else .next s

/-! ## Replay (R279, R280) -/

/-- Step 4 for one band: the trim point, the lost slots, and the accumulator, restored or re-laid (R280). `n`: the actuator
whose sequencer lays the band. -/
def bandTrim (s : State) (r : BandRead) : State :=
  match s.jnl.bands.find? fun b => b.ns == r.ns && b.zone == r.zone && b.state == 1 with
  | none => s
  | some b =>
    let g := s.sim.cfg.stripeG
    let w := max 1 (g + s.sim.cfg.stripeP)
    let trim := max b.ackWp (min r.good b.wp)
    let s := bandUpdate s r.ns r.zone fun b => { b with wp := trim, state := if r.lost = 0 then 1 else 2 }
    let s := if trim < b.wp then s.bump Reg.jnlReplayLogTrimmed else s
    let z := zoneRec s r.ns r.zone
    let s := if z.state = 14 ∧ trim = b.wp then s else setZone s r.ns r.zone { z with wp := slotSector s trim }
    let s := if r.lost = 0 then s else
      let s := (s.addSat Reg.jnlReplayLogLost r.lost).set Reg.jnlIrqStatusAckLoss
      zoneChanged (setZone s r.ns r.zone { zoneRec s r.ns r.zone with state := 13 }) r.ns r.zone
    let n := actOfLba s r.ns (r.zone * s.sim.cfg.zoneSectors)
    let restored : Option OceAcc := match s.jnl.saved.get n with
      | some a =>
        if a.ns = r.ns ∧ a.zone = r.zone ∧ a.group * w + a.acc.data.length + a.acc.j = trim then some a.acc else none
      | none => none
    let acc : OceAcc := restored.getD { data := r.group.take (min (trim % w) g), j := 0 }
    let first := slotSector s (trim / w * w)
    let s := s.setJnl { s.jnl with
      saved := s.jnl.saved.set n none
      group := s.jnl.group.set n (if acc.data.isEmpty then {} else
        { ns := r.ns, data := (List.range acc.data.length).map fun i => (0, r.zone * s.sim.cfg.zoneSectors + first + i), parity := acc.j }) }
    let s := s.setOce { s.oce with acc := s.oce.acc.set n acc }
    (s.wr (Reg.oceAccK.elem n) acc.data.length).wr (Reg.oceAccJ.elem n) acc.j

/-- Step 2: every record that is not FREE and belongs to no command placed since becomes FREE (R279). -/
def intentsFree (s : State) : State :=
  let tags := (s.mem.filter fun e =>
    decide (0x10400000 ≤ e.1) && decide (e.1 < 0x10800000) && e.1 % 64 == 0 && e.2 != 0).map fun e => (e.1 - 0x10400000) / 64
  s.each (tags.filter fun t => (cmdOf s t).isNone) fun s t =>
    let b := 0 :: (s.bytes (intentAt t + 1) 59)
    s.store (intentAt t) (b ++ leBytes 4 (crc32c b))

/-- JOURNAL_REPLAY (R279, R280, R282): after POR, or a DRST that followed power loss, in SERVICE and before any I/O command
works on media: the header is checked, every intent record is FREE, FOLDING extents are re-run, active bands trimmed, and
ring heads set behind their last indexed records. -/
def execJournalReplay (reads : List BandRead) (s : State) : Host.Outcome State Fault Refusal :=
  if !s.jnl.needReplay || s.opMode != modeService || s.hst.cmds.any (fun c => c.begun) then .next s
  else if s.poisoned (s.rd Reg.jnlIdxBaseAddr) 64 then .next (deviceFatal s srcJnl 0 0x0062 (s.rd Reg.jnlIdxBaseAddr) false)
  else
    let s := intentsFree (s.setJnl { s.jnl with needReplay := false })
    let folding := s.jnl.extents.filter fun e => e.state == 2
    let s := s.addSat Reg.jnlReplayLogRefolded folding.length
    let s := s.each folding fun s e => setExtent s { e with home := [] }
    let s := s.each reads bandTrim
    let s := s.each (s.jnl.rings.map fun r => r.1) fun s k =>
      let su := k / 64
      let ring := k % 64
      match (s.jnl.records.filter fun r => r.surface == su && r.ring == ring && r.live).getLast? with
      | some r => setPeatRing s su ring { peatRing s su ring with head := (r.slot + r.len) % max 1 (peatSlots s.sim.cfg su ring) }
      | none => s
    let lost := reads.any fun r => r.lost != 0
    .next (((occShow s).wr Reg.jnlStatusReplay (if lost then 3 else 2)).set Reg.jnlIrqStatusReplayDone)

end Sys2Proof.Machine
end

