-- ==== Sys2Proof/Machine/Faults.lean ====
section
/-!
DEFINITION. Fault commands (spec/13_faults.md, R369 to R383; spec/01_architecture.md, R34): control-core takeover, declared
faults, the hart watchdogs, the warden's own faults, and the end of the entry into SAFE.
-/

namespace Sys2Proof.Machine

/-- A hart runs: in service, released, and not held. -/
def hartRuns (s : State) (h : Nat) : Bool :=
  s.serving (bitHart h) && (s.rd Reg.sysCoreRelRun).testBit h && !(s.rd Reg.fltCoreHeld).testBit h

/-- The harts that survive a fault of `h`. -/
def survivors (s : State) (h : Nat) : List Nat := (List.range 4).filter fun j => j != h && hartRuns s j

/-- LIVE tags of a hart passed to others in turn, in ascending tag order (R371 step 3). -/
def tagsPass (s : State) (h : Nat) (to_ : List Nat) : State :=
  let mine := ((List.range 65536).filter fun t => s.hst.cmds.any fun c => c.tag == t && c.owner == h && !c.done)
  let owner (t : Nat) : Nat := nth h to_ ((mine.takeWhile fun x => x != t).length % max 1 to_.length)
  s.setHst { s.hst with
    cmds := s.hst.cmds.map fun c => if c.owner = h ∧ !c.done then { c with owner := owner c.tag } else c }

/-- A hart held in CORE reset, its PLIC contexts masked, its tags with the survivors, who re-execute them (R371). -/
def takeover (s : State) (h : Nat) : State :=
  let to_ := survivors s h
  let s := s.setFlt { s.flt with plicMasked := maskSet s.flt.plicMasked h }
  let s := s.wr Reg.fltCoreHeld (maskSet (s.rd Reg.fltCoreHeld) h)
  let s := s.wr Reg.sysCoreRelRun (maskClear (s.rd Reg.sysCoreRelRun) h)
  let s := s.wr Reg.fltCoreOnline (maskClear (s.rd Reg.fltCoreOnline) h)
  let s := s.wr Reg.fltCoreFaults (maskSet (s.rd Reg.fltCoreFaults) h)
  let live := s.hst.cmds.filter fun c => c.owner == h && !c.done
  let s := reexecute s fun c => c.owner == h
  let s := tagsPass s h to_
  if live.isEmpty ∧ to_.isEmpty then s else s.set Reg.fltIrqStatusTakeover

/-- A control-core fault (R366, R369, R371): the first on a hart is contained, with a takeover; a second before the next DRST
is unit-fatal, and the loss of the last hart device-fatal. A fault of a hart that does not run changes nothing. -/
def coreFault (s : State) (h int : Nat) : State :=
  if 4 ≤ h ∨ !hartRuns s h then s
  else if (survivors s h).isEmpty then deviceFatal s (srcHart h) 0 0x0063 0 false
  else if (s.rd Reg.fltCoreFaults).testBit h then takeover (unitFatal s (bitHart h) (srcHart h) 0 0x0041 0) h
  else containedInt (takeover s h) (srcHart h) 0 0x0040 0 int

/-- HART_WATCHDOG_EXPIRY (R369, R382): a watchdog that has been enabled, with a period. -/
def execHartWatchdogExpiry (h int : Nat) (s : State) : Host.Outcome State Fault Refusal :=
  .next (if s.flt.wdogOn.testBit h ∧ s.rd (Reg.fltWdogUs.elem h) ≠ 0 then coreFault s h int else s)

/-- CORE_FAULT (R369): an uncorrectable error in a hart, or a lockup of its bus port. -/
def execCoreFault (h int : Nat) (s : State) : Host.Outcome State Fault Refusal := .next (coreFault s h int)

/-- CORE_REJOIN (R371): the warden releases the hart at its reset vector with REJOIN set. -/
def execCoreRejoin (h : Nat) (s : State) : Host.Outcome State Fault Refusal :=
  if 4 ≤ h ∨ !(s.rd Reg.fltCoreHeld).testBit h ∨ !s.serving (bitHart h) ∨ s.flt.safe ≠ .none ∨ s.opMode = modeSafe
      ∨ s.opMode = modeRecovery then .next s
  else
    let s := s.wr Reg.fltCoreHeld (maskClear (s.rd Reg.fltCoreHeld) h)
    let s := s.wr Reg.sysCoreRelRun (maskSet (s.rd Reg.sysCoreRelRun) h)
    let s := s.setFlt { s.flt with plicMasked := maskClear s.flt.plicMasked h }
    .next (s.wr Reg.fltCoreRejoin (maskSet (s.rd Reg.fltCoreRejoin) h))

/-- FLT_CORE_ONLINE (R371, R383): a write of FLT_CORE: a hart that runs sets its own ONLINE bit; REJOIN bits written 1 clear. -/
def execFltCoreOnline (h : Nat) (data : Word) (s : State) : Host.Outcome State Fault Refusal :=
  let s := s.wr Reg.fltCoreRejoin (s.rd Reg.fltCoreRejoin &&& (15 ^^^ fieldOf data 16 4))
  let s := if h < 4 ∧ data.getLsbD (24 + h) ∧ hartRuns s h then
      s.wr Reg.fltCoreOnline (maskSet (s.rd Reg.fltCoreOnline) h)
    else s
  .next (s.answer 0)

/-- FLT_WDOG_KICK (R382, R383): a write of FLT_WDOGn takes the period, enables the watchdog the first time, and with KICK
restarts its count. One by a hart in CORE reset is ignored (R381). -/
def execFltWdogKick (m n : Nat) (data : Word) (s : State) : Host.Outcome State Fault Refusal :=
  if 4 ≤ n ∨ (m < 4 ∧ (s.rd Reg.fltCoreHeld).testBit m) then .next (s.answer 0)
  else
    let s := s.wr (Reg.fltWdogUs.elem n) (fieldOf data 0 24)
    .next ((s.setFlt { s.flt with wdogOn := maskSet s.flt.wdogOn n }).answer 0)

/-- A write of FLT_DECLARE from machine mode; from another mode it is refused with a bus error (R378). -/
def declare (s : State) (priv : Priv) (f : State → State) : Host.Outcome State Fault Refusal :=
  if priv = .m then .next ((f s).answer 0) else .next (busError s)

/-- FLT_DECLARE_CONTAINED (R378): CLASS 1 writes a contained record with CODE 0x0070 + SUB. -/
def execFltDeclareContained (m : Nat) (priv : Priv) (data : Word) (s : State) : Host.Outcome State Fault Refusal :=
  declare s priv fun s =>
    if fieldOf data 30 2 = 1 ∧ !data.getLsbD 7 then
      mcWrite (s.bump Reg.fltCounts1Contained) (mcCapture s 1 (srcHart (m % 4)) 0 (0x0070 + fieldOf data 0 4) 0 true 0)
    else s

/-- FLT_DECLARE_DEVICE_FATAL (R378): CLASS 3 enters SAFE. -/
def execFltDeclareDeviceFatal (m : Nat) (priv : Priv) (data : Word) (s : State) : Host.Outcome State Fault Refusal :=
  declare s priv fun s =>
    if fieldOf data 30 2 = 3 ∧ !data.getLsbD 7 then deviceFatal s (srcHart (m % 4)) 0 (0x0070 + fieldOf data 0 4) 0 true
    else s

/-- FLT_DECLARE_HART (R378): HART valid declares a control-core fault on a hart; refused on the last one in service. -/
def execFltDeclareHart (m : Nat) (priv : Priv) (data : Word) (int : Nat) (s : State) : Host.Outcome State Fault Refusal :=
  let _ := m
  declare s priv fun s =>
    let h := fieldOf data 4 3
    if !data.getLsbD 7 then s
    else if 4 ≤ h ∨ (survivors s h).isEmpty then corrected s
    else coreFault s h int

/-- LOCKSTEP_MISMATCH (R23, R376): RETRACT is asserted and the warden pair is reset; the first mismatch restarts it, with the
fault captured and steps 1 and 2 of R375 done, and any further one leaves it in reset. -/
def execLockstepMismatch (s : State) : Host.Outcome State Fault Refusal :=
  let again := s.flt.mismatches != 0
  let s := retractLine s
  let s := s.setFlt { s.flt with mismatches := s.flt.mismatches + 1, warden := if again then .inReset else .restarting }
  if again then .next s else
  let r := mcCapture s 3 srcWarden 0 0x0060 0 false 0
  let s := s.wr Reg.fltStatusCause 0x0060
  if mayEnterSafe s then
    .next (safeStop (s.setFlt { s.flt with safe := .begun, safeCause := 0x20, captured := some r }))
  else .next s

/-- WARDEN_RESTART_DONE (R376): the restarted warden carries out R375 from step 3. -/
def execWardenRestartDone (s : State) : Host.Outcome State Fault Refusal :=
  if s.flt.warden ≠ .restarting then .next s else
  let s := s.setFlt { s.flt with warden := .running }
  .next (if s.flt.safe = .begun then safeRecord s else s)

/-- The end of the entry into SAFE (R34, R375 steps 4 and 5): both actuators are parked: the mode is SAFE, SAFE_PEND falls, and the warden
answers the host under R40. -/
def safeParkDone (s : State) : State :=
  let parked (n : Nat) : Bool :=
    s.flag (Reg.hvRetractDone.elem n) || srvState s n == srvParked || srvState s n == srvFailed
  if s.flt.safe ≠ .recorded ∨ !s.actuators.all parked then s
  else
    let s := enterMode (s.setChange none) modeSafe s.flt.safeCause
    (s.clr Reg.fltStatusSafePend).setFlt { s.flt with safe := .none }

end Sys2Proof.Machine
end

