-- ==== Sys2Proof/Machine/Image.lean ====
section
/-!
DEFINITION. The structure image as bytes (spec/02_structure_image.md, R44 to R62; spec/17_domain.md, R463, R484; the body rules of
spec/04, spec/06, spec/07, spec/08, spec/10): its sections, the checks of R61 in their order, and the structure that it describes.
-/

namespace Sys2Proof.Machine

/-! ## Fuses (R59, R60) -/

/-- The usable customer slots: programmed and not revoked. -/
def Fuses.usable (f : Fuses) (slot : Nat) : Bool := f.programmed.testBit (slot - 1) && !f.revoked.testBit (slot - 1)

/-- A key is accepted (R59): the vendor root key while no customer slot is programmed, or the key of a usable slot. -/
def keyAccepted (f : Fuses) (keyId : Nat) (pub : List Byte) : Bool :=
  let h := Config.sha384 pub
  if keyId = 0 then f.programmed == 0 && h == Config.vendorKeyHash
  else decide (keyId ≤ 4) && f.usable keyId && h == Store.read [] f.hashes keyId

/-! ## Fields of a byte string -/

/-- `n` bytes from an offset. -/
def slice (b : List Byte) (off n : Nat) : List Byte := (b.drop off).take n

/-- Every byte of a range is zero. -/
def zeroes (b : List Byte) (off n : Nat) : Bool := (slice b off n).all fun x => x == 0

/-- The signature block of R57: its fixed fields, as (good, offset). -/
def sigForm (b : List Byte) (at_ : Nat) : List (Bool × Nat) :=
  [(bodyNat b at_ 4 == 0x47495351, at_), (bodyNat b (at_ + 5) 1 == 1, at_ + 5), (zeroes b (at_ + 6) 10, at_ + 6),
   (zeroes b (at_ + 0x71) 15, at_ + 0x71), (zeroes b (at_ + 0xE0) 32, at_ + 0xE0)]

/-- The public key of a signature block, and whether its signature over a message stands (R58). -/
def sigKey (b : List Byte) (at_ : Nat) : List Byte := slice b (at_ + 0x10) 97
def sigGood (b : List Byte) (at_ : Nat) (message : List Byte) : Bool :=
  Config.ecdsaVerify (sigKey b at_) (Config.sha384 message) (slice b (at_ + 0x80) 48) (slice b (at_ + 0xB0) 48)

/-! ## Sections (R46) -/

/-- A section-table entry, with its index. -/
structure Sect where
  idx   : Nat
  type  : Nat
  flags : Nat
  inst  : Nat
  off   : Nat
  len   : Nat
  crc   : Nat
  deriving DecidableEq, Repr

/-- The section table. -/
def imageSects (b : List Byte) : List Sect :=
  (List.range (bodyNat b 0x0C 2)).map fun i =>
    let a := 0x40 + 16 * i
    { idx := i, type := bodyNat b a 2, flags := bodyNat b (a + 2) 1, inst := bodyNat b (a + 3) 1, off := bodyNat b (a + 4) 4
      len := bodyNat b (a + 8) 4, crc := bodyNat b (a + 12) 4 }

/-- The body of a section. -/
def sectBody (b : List Byte) (x : Sect) : List Byte := slice b x.off x.len

/-- The section of a type and instance. -/
def sectFind (b : List Byte) (type inst : Nat) : Option Sect := (imageSects b).find? fun x => x.type == type && x.inst == inst

/-- Its body, empty where the image has none. -/
def sectOf (b : List Byte) (type inst : Nat) : List Byte := match sectFind b type inst with | some x => sectBody b x | none => []

/-- Section types of R47, with the instances that each may have. -/
def knownTypes : List (Nat × Nat) :=
  [(0x0001, 1), (0x0002, 1), (0x0003, 1), (0x0004, 1), (0x0005, 1), (0x0006, 1), (0x0007, 1), (0x0008, 1), (0x0010, 5),
   (0x0011, 2), (0x0012, 2), (0x0013, 1), (0x0014, 2), (0x0015, 2), (0x0018, 1), (0x0020, 1), (0x00F0, 1)]

/-! ## The structure an image describes -/

/-- The roster mask of the image (R49). -/
def imageRoster (b : List Byte) : Nat := bodyNat (sectOf b 0x0001 0) 0 16

/-- MICROPROG: where the words begin, and the entries (R54). -/
def progWords (entries : Nat) : Nat := (8 + 4 * entries + 15) / 16 * 16
def progEntries (inst : Nat) (m : List Byte) : List EntryPoint :=
  (List.range (bodyNat m 4 2)).map fun i => { inst, code := bodyNat m (8 + 4 * i + 2) 1, addr := bodyNat m (8 + 4 * i) 2 }

/-- The microprogram of an instance. -/
def imageProg (b : List Byte) (inst : Nat) : List MicroProg :=
  match sectFind b 0x0010 inst with
  | none => []
  | some x =>
    let m := sectBody b x
    [{ inst, baseVer := bodyNat m 2 2
       words := (List.range (bodyNat m 0 2)).map fun i => BitVec.ofNat 128 (bodyNat m (progWords (bodyNat m 4 2) + 16 * i) 16) }]

/-- HEADMAP, REGIONS, the namespaces of HOSTLAYOUT, and LIMITS as lists. -/
def imageHeads (b : List Byte) : List HeadEntry :=
  let m := sectOf b 0x0003 0
  (List.range (bodyNat m 0 1)).map fun i =>
    let f (o : Nat) := bodyNat m (8 + 8 * i + o) 1
    { actuator := f 0, paSelect := f 1, surface := f 2, assist := f 3, readers := f 4 }
def imageRegions (b : List Byte) : List RegionEntry :=
  let m := sectOf b 0x0005 0
  (List.range (bodyNat m 0 2)).map fun i =>
    let f (o n : Nat) := bodyNat m (8 + 16 * i + o) n
    { surface := f 0 1, region := f 1 1, sectors := f 2 2, firstTrack := f 4 4, trackCount := f 8 4, preamble := f 12 2
      pitch := f 14 2 }
def imageNs (b : List Byte) : List NsEntry :=
  let m := sectOf b 0x0007 0
  (List.range (bodyNat m 8 1)).map fun i =>
    let f (o n : Nat) := bodyNat m (16 + 16 * i + o) n
    { actMask := f 0 1, lbafMask := f 1 1, csi := f 2 1, convZones := f 4 4 }
def imageLimits (b : List Byte) : List LimitEntry :=
  let m := sectOf b 0x0018 0
  (List.range (bodyNat m 0 2)).map fun i =>
    let fl := bodyNat m (8 + 8 * i + 2) 2
    { id := bodyNat m (8 + 8 * i) 2, floor := fl.testBit 0, ceiling := fl.testBit 1, value := bodyNat m (8 + 8 * i + 4) 4 }

/-- The structure that an image describes (R43 to R56). -/
def imageStructure (b : List Byte) : Structure :=
  let w := sectOf b 0x0002 0
  let g := sectOf b 0x0004 0
  let f := sectOf b 0x0006 0
  let h := sectOf b 0x0007 0
  let c := sectOf b 0x0008 0
  let sig := bodyNat b 8 4 - 256
  { role := bodyNat b 0x0E 1, imageVer := bodyNat b 0x10 4, secVer := bodyNat b 0x14 4, keyId := bodyNat b (sig + 4) 1
    variantMin := bodyNat b 0x0F 1, roster := imageRoster b
    rdcOfPa := ⟨bodyNat w 0 1, bodyNat w 1 1⟩, ceOfAct := ⟨bodyNat w 2 1, bodyNat w 3 1⟩
    astOfPa := ⟨bodyNat w 4 1, bodyNat w 5 1⟩, linkMap := (List.range 32).map fun i => bodyNat w (16 + i) 1
    heads := imageHeads b, w := bodyNat g 0 2, rungCount := bodyNat g 2 1, peatRings := bodyNat g 3 1
    rungRpm := (List.range 4).map fun i => bodyNat g (4 + 2 * i) 2, tracks := bodyNat g 0x0C 4
    convTracks := bodyNat g 0x10 4, laggMin := bodyNat g 0x14 1, regions := imageRegions b
    mediumPi := bodyNat f 0 1, stripeG := bodyNat f 1 1, stripeP := bodyNat f 2 1, ldpcCode := bodyNat f 3 1
    syncA := bodyNat f 4 4, syncB := bodyNat f 8 2, aToB := bodyNat f 0x0A 2, postamble := bodyNat f 0x0C 2
    zoneSectors := bodyNat f 0x10 4
    portMode := bodyNat h 0 1, vfPerPf := bodyNat h 1 1, sqPool := bodyNat h 2 2, cqPool := bodyNat h 4 2
    maxQEntries := bodyNat h 6 2, ns := imageNs b
    cacheMib := bodyNat c 0 4, sideMib := bodyNat c 4 2, pendMib := bodyNat c 6 2
    entries := (List.range 5).flatMap fun i => progEntries i (sectOf b 0x0010 i)
    progs := (List.range 5).flatMap fun i => imageProg b i
    limits := imageLimits b
    bodies := ((imageSects b).filter fun x => (0x0011 ≤ x.type && x.type ≤ 0x0015) || x.type == 0x0020).map fun x =>
      { type := x.type, inst := x.inst, bytes := sectBody b x } }

/-! ## Checks 0x01 to 0x09 (R61) -/

/-- A failed check: its code, the section-table index, the image offset of the failing field. -/
structure ImageFail where
  err  : Nat
  sect : Nat
  off  : Nat
  deriving DecidableEq, Repr

/-- The first field of a check that fails. -/
def failAmong (err sect base : Nat) (l : List (Bool × Nat)) : Option ImageFail :=
  (l.find? fun e => !e.1).map fun e => ⟨err, sect, base + e.2⟩

/-- The first result of a list of checks. -/
def firstFail (l : List (Option ImageFail)) : Option ImageFail := l.findSome? id

/-- A number lies in a range. -/
def within (v lo hi : Nat) : Bool := decide (lo ≤ v) && decide (v ≤ hi)

/-- Checks 0x01 to 0x06. `gib`: fitted DRAM. -/
def imageHeaderCheck (b : List Byte) (gib : Nat) : Option ImageFail :=
  let total := bodyNat b 8 4
  let sig := total - 256
  firstFail [
    failAmong 0x01 0xFF 0 [(decide (0x40 ≤ b.length) && bodyNat b 0 4 == 0x4D495351, 0)],
    failAmong 0x02 0xFF 0 [(bodyNat b 5 1 == 1, 4)],
    failAmong 0x03 0xFF 0 [(bodyNat b 6 2 == 0x0909, 6)],
    failAmong 0x04 0xFF 0 [(bodyNat b 0x2C 4 == crc32c (slice b 0 0x2C), 0x2C),
      (within total 0x200 0x400000 && total % 16 == 0 && decide (total ≤ b.length), 8),
      (within (bodyNat b 0x0C 2) 1 64, 0x0C), (decide (bodyNat b 0x0E 1 ≤ 2), 0x0E), (zeroes b 0x30 16, 0x30)],
    failAmong 0x05 0xFF 0 [(let v := bodyNat b 0x0F 1; (v == 2 || v == 4 || v == 8) && decide (v ≤ gib), 0x0F)],
    failAmong 0x06 0xFF 0 (sigForm b sig)]

/-- Checks 0x07 to 0x09. -/
def imageAuthCheck (b : List Byte) (f : Fuses) : Option ImageFail :=
  let sig := bodyNat b 8 4 - 256
  firstFail [
    failAmong 0x07 0xFF sig [(keyAccepted f (bodyNat b (sig + 4) 1) (sigKey b sig), 4)],
    failAmong 0x08 0xFF sig [(sigGood b sig (slice b 0 (sig + 0x80)), 0x80)],
    failAmong 0x09 0xFF 0 [(within (bodyNat b 0x14 4) f.arb 64, 0x14)]]

/-! ## Checks 0x0A to 0x0D -/

/-- Bodies in ascending order, aligned, non-empty, within bounds, without overlap. -/
def tableCheck (b : List Byte) : Option ImageFail :=
  let l := imageSects b
  let endAt := bodyNat b 8 4 - 256
  let lo (i : Nat) : Nat := if i = 0 then 0x40 + 16 * l.length else
    match l[i - 1]? with | some x => x.off + x.len | none => 0
  l.findSome? fun x => failAmong 0x0A x.idx (0x40 + 16 * x.idx)
    [(x.off % 16 == 0 && decide (lo x.idx ≤ x.off), 4), (x.len != 0 && decide (x.off + x.len ≤ endAt), 8)]

/-- BODY_CRC of every entry. -/
def crcCheck (b : List Byte) : Option ImageFail :=
  (imageSects b).findSome? fun x => failAmong 0x0B x.idx (0x40 + 16 * x.idx) [(x.crc == crc32c (sectBody b x), 12)]

/-- No unknown TYPE without OPTIONAL. -/
def typeCheck (b : List Byte) : Option ImageFail :=
  (imageSects b).findSome? fun x => failAmong 0x0C x.idx (0x40 + 16 * x.idx)
    [((knownTypes.any fun t => t.1 == x.type) || x.flags.testBit 0, 0)]

/-- Sections required by role and roster (R47), those of check 0x0F apart. -/
def requiredSects (b : List Byte) : List (Nat × Nat) :=
  let role := bodyNat b 0x0E 1
  let r := imageRoster b
  [(0x0001, 0), (0x0002, 0), (0x0007, 0), (0x0018, 0)]
  ++ (if role = 1 then [] else [(0x0003, 0), (0x0004, 0), (0x0005, 0), (0x0006, 0), (0x0008, 0)])
  ++ ([0, 1].filter fun n => r.testBit (bitSrv n)).flatMap (fun n => [(0x0011, n), (0x0012, n)])
  ++ (if r.testBit bitSpn then [(0x0013, 0)] else [])
  ++ ([0, 1].filter fun n => r.testBit (bitAst n)).flatMap fun n => [(0x0014, n), (0x0015, n)]

/-- Required sections present, none duplicated. -/
def presenceCheck (b : List Byte) : Option ImageFail :=
  let l := imageSects b
  let known (x : Sect) : Bool := knownTypes.any fun t => t.1 == x.type
  firstFail [
    failAmong 0x0D 0xFF 0 ((requiredSects b).map fun t => ((sectFind b t.1 t.2).isSome, 0x40)),
    l.findSome? fun x => failAmong 0x0D x.idx (0x40 + 16 * x.idx)
      [(!(known x && l.any fun y => decide (y.idx < x.idx) && y.type == x.type && y.inst == x.inst), 0)]]

/-! ## Check 0x0E: fields in range, reserved fields zero, lengths (R52, R55) -/

/-- A list of numbers rises. -/
def rising : List Nat → Bool
  | a :: b :: rest => decide (a < b) && rising (b :: rest)
  | _ => true

/-- The rules of one body by its type, as (good, offset in the body). Offsets at or above 2³² stand for the LENGTH field of the
section-table entry. -/
def lenAt : Nat := 2 ^ 32

def rosterForm (m : List Byte) : List (Bool × Nat) :=
  [(m.length == 32, lenAt), (bodyNat m 2 1 / 64 == 0, 2), (bodyNat m 3 1 / 16 == 0, 3), (zeroes m 12 4, 12),
   (decide (bodyNat m 16 1 ≤ 2), 16), (zeroes m 17 15, 17)]

def wiringForm (m : List Byte) : List (Bool × Nat) :=
  [(m.length == 48, lenAt)] ++ (List.range 6).map (fun i => (decide (bodyNat m i 1 ≤ 1), i)) ++ [(zeroes m 6 10, 6)]
  ++ (List.range 32).map fun i => (decide (bodyNat m (16 + i) 1 ≤ 31), 16 + i)

def headmapForm (m : List Byte) : List (Bool × Nat) :=
  let n := bodyNat m 0 1
  [(within n 1 32, 0), (m.length == 8 + 8 * n, lenAt), (zeroes m 1 7, 1)]
  ++ (List.range n).flatMap fun i =>
    let a := 8 + 8 * i
    [(decide (bodyNat m a 1 ≤ 1), a), (decide (bodyNat m (a + 1) 1 ≤ 15), a + 1), (decide (bodyNat m (a + 2) 1 ≤ 31), a + 2),
     (decide (bodyNat m (a + 3) 1 ≤ 1), a + 3), (within (bodyNat m (a + 4) 1) 1 2, a + 4), (zeroes m (a + 5) 3, a + 5)]

def geometryForm (m : List Byte) : List (Bool × Nat) :=
  let n := bodyNat m 2 1
  let rpm (i : Nat) := bodyNat m (4 + 2 * i) 2
  [(m.length == 32, lenAt), (within (bodyNat m 0 2) 256 2048, 0), (within n 1 4, 2), (within (bodyNat m 3 1) 4 16, 3)]
  ++ (List.range 4).map (fun i => (if i < n then within (rpm i) 1 10000 && (i == 0 || decide (rpm i < rpm (i - 1)))
      else rpm i == 0, 4 + 2 * i))
  ++ [(within (bodyNat m 0x0C 4) 1 1048576, 0x0C), (decide (bodyNat m 0x10 4 ≤ bodyNat m 0x0C 4), 0x10),
      (within (bodyNat m 0x14 1) 3 15, 0x14), (zeroes m 0x15 11, 0x15)]

/-- The entries of one surface number at most 32, rise in REGION, are contiguous, and end at or before TRACKS − CONV_TRACKS. -/
def regionOrder (l : List RegionEntry) (i limit : Nat) : Bool :=
  match l[i]? with
  | none => true
  | some r =>
    let mine := (l.take i).filter fun x => x.surface == r.surface
    decide (mine.length < 32) && decide (r.firstTrack + r.trackCount ≤ limit)
    && match mine.getLast? with
      | none => true
      | some p => decide (p.region < r.region) && p.firstTrack + p.trackCount == r.firstTrack

def regionsForm (m : List Byte) (l : List RegionEntry) (limit : Nat) : List (Bool × Nat) :=
  let n := bodyNat m 0 2
  [(within n 1 1024, 0), (m.length == 8 + 16 * n, lenAt), (zeroes m 2 6, 2)]
  ++ (List.range n).flatMap fun i =>
    let a := 8 + 16 * i
    [(decide (bodyNat m a 1 ≤ 31), a), (decide (bodyNat m (a + 1) 1 ≤ 31), a + 1), (within (bodyNat m (a + 2) 2) 1 4095, a + 2),
     (regionOrder l i limit, a + 4), (bodyNat m (a + 8) 4 != 0, a + 8), (within (bodyNat m (a + 12) 2) 96 256, a + 12),
     (bodyNat m (a + 14) 2 != 0, a + 14)]

def formatForm (m : List Byte) : List (Bool × Nat) :=
  [(m.length == 32, lenAt), (bodyNat m 0 1 == 0 || bodyNat m 0 1 == 8, 0), (within (bodyNat m 1 1) 16 254, 1),
   (within (bodyNat m 2 1) 1 4, 2), (decide (bodyNat m 3 1 ≤ 3), 3), (within (bodyNat m 4 4) 1 0xFFFFFE, 4),
   (within (bodyNat m 8 2) 1 0xFFFE, 8), (within (bodyNat m 0x0A 2) 32 64, 0x0A), (within (bodyNat m 0x0C 2) 8 64, 0x0C),
   (zeroes m 0x0E 2, 0x0E), (bodyNat m 0x10 4 != 0, 0x10), (zeroes m 0x14 12, 0x14)]

def hostForm (m : List Byte) : List (Bool × Nat) :=
  let n := bodyNat m 8 1
  [(decide (bodyNat m 0 1 ≤ 1), 0), (decide (bodyNat m 1 1 ≤ if bodyNat m 0 1 = 0 then 255 else 127), 1),
   (within (bodyNat m 2 2) 1 16384, 2), (within (bodyNat m 4 2) 1 16384, 4), (within (bodyNat m 6 2) 2 4096, 6),
   (decide (n ≤ 8), 8), (m.length == 16 + 16 * n, lenAt), (zeroes m 9 7, 9)]
  ++ (List.range n).flatMap fun i =>
    let a := 16 + 16 * i
    [(within (bodyNat m a 1) 1 3, a), (within (bodyNat m (a + 1) 1) 1 3, a + 1),
     (bodyNat m (a + 2) 1 == 0 || bodyNat m (a + 2) 1 == 2, a + 2), (zeroes m (a + 3) 1, a + 3), (zeroes m (a + 8) 8, a + 8)]

/-- The block cache of the variant, in MiB (R4). -/
def variantCache (gib : Nat) : Nat := if gib = 2 then 1024 else if gib = 4 then 2560 else 6144

def cacheForm (m : List Byte) (gib : Nat) : List (Bool × Nat) :=
  let c := bodyNat m 0 4
  [(m.length == 16, lenAt), (c != 0 && c % 64 == 0 && decide (c ≤ variantCache gib), 0), (within (bodyNat m 4 2) 32 256, 4),
   (within (bodyNat m 6 2) 2 64, 6), (zeroes m 8 8, 8)]

def progForm (m : List Byte) : List (Bool × Nat) :=
  let n := bodyNat m 4 2
  [(within (bodyNat m 0 2) 1 8192, 0), (within n 1 64, 4), (zeroes m 6 2, 6),
   (m.length == progWords n + 16 * bodyNat m 0 2, lenAt)]
  ++ (List.range n).map fun i => (zeroes m (8 + 4 * i + 3) 1, 8 + 4 * i + 3)

def srvgainsForm (m : List Byte) : List (Bool × Nat) :=
  [(m.length == 6176, lenAt), (zeroes m 0 4, 0), (rising ((List.range 7).map fun i => bodyNat m (4 + 4 * i) 4), 4)]
  ++ (List.range 96).flatMap fun i =>
    let a := 32 + 64 * i
    [(decide (bodyNat m (a + 0x36) 2 ≤ 15), a + 0x36), (zeroes m (a + 0x38) 8, a + 0x38)]

def seekprofForm (m : List Byte) : List (Bool × Nat) :=
  let n := bodyNat m 0 2
  [(m.length == 8448, lenAt), (within n 1 8, 0), (zeroes m 2 14, 2),
   (bodyNat m 0x10 4 != 0 && rising ((List.range 32).map fun i => bodyNat m (0x10 + 4 * i) 4), 0x10), (zeroes m 0x90 0x70, 0x90)]
  ++ (List.range 8).map fun p =>
    let a := 256 + 1024 * p
    if p < n then (zeroes m (a + 0x8C) 4, a + 0x8C) else (zeroes m a 1024, a)

def spindleForm (m : List Byte) : List (Bool × Nat) :=
  [(m.length == 32, lenAt), (within (bodyNat m 0 1) 1 16, 0), (decide (bodyNat m 1 1 ≤ 60), 1),
   (decide (300 ≤ bodyNat m 0x0A 2), 0x0A), (decide (bodyNat m 0x0C 2 ≤ 3000), 0x0C), (zeroes m 0x1C 4, 0x1C)]

def astgainsForm (m : List Byte) : List (Bool × Nat) :=
  [(m.length == 16416, lenAt), (zeroes m 0 32, 0)]
  ++ (List.range 512).map fun i => (zeroes m (32 + 32 * i + 0x18) 8, 32 + 32 * i + 0x18)

def astopenForm (m : List Byte) : List (Bool × Nat) :=
  [(m.length == 1040, lenAt), (zeroes m 0 16, 0)]
  ++ (List.range 16).map fun i => (zeroes m (16 + 64 * i + 0x30) 16, 16 + 64 * i + 0x30)

def limitsForm (m : List Byte) : List (Bool × Nat) :=
  let n := bodyNat m 0 2
  let ids := (List.range n).map fun i => bodyNat m (8 + 8 * i) 2
  [(within n 1 512, 0), (m.length == 8 + 8 * n, lenAt), (zeroes m 2 6, 2)]
  ++ (List.range n).flatMap fun i =>
    [(!(ids.take i).contains (nth 0 ids i), 8 + 8 * i), (decide (bodyNat m (8 + 8 * i + 2) 2 ≤ 3), 8 + 8 * i + 2)]

def domainForm (m : List Byte) : List (Bool × Nat) :=
  [(m.length == 2320, lenAt), (zeroes m 1 1, 1), (zeroes m 6 10, 6)]

/-- The rules of a section's body. -/
def bodyForm (b : List Byte) (gib : Nat) (x : Sect) : List (Bool × Nat) :=
  let m := sectBody b x
  let g := sectOf b 0x0004 0
  if x.type = 0x0001 then rosterForm m
  else if x.type = 0x0002 then wiringForm m
  else if x.type = 0x0003 then headmapForm m
  else if x.type = 0x0004 then geometryForm m
  else if x.type = 0x0005 then regionsForm m (imageRegions b) (bodyNat g 0x0C 4 - bodyNat g 0x10 4)
  else if x.type = 0x0006 then formatForm m
  else if x.type = 0x0007 then hostForm m
  else if x.type = 0x0008 then cacheForm m gib
  else if x.type = 0x0010 then progForm m
  else if x.type = 0x0011 then srvgainsForm m
  else if x.type = 0x0012 then seekprofForm m
  else if x.type = 0x0013 then spindleForm m
  else if x.type = 0x0014 then astgainsForm m
  else if x.type = 0x0015 then astopenForm m
  else if x.type = 0x0018 then limitsForm m
  else if x.type = 0x0020 then domainForm m
  else []

/-- Check 0x0E, section by section in table order. -/
def rangeCheck (b : List Byte) (gib : Nat) : Option ImageFail :=
  (imageSects b).findSome? fun x =>
    let at_ := 0x40 + 16 * x.idx
    let instances := (knownTypes.find? fun t => t.1 == x.type).map fun t => t.2
    firstFail [
      failAmong 0x0E x.idx at_ [(decide (x.flags ≤ 1), 2), (match instances with | some n => decide (x.inst < n) | none => true, 3)],
      ((bodyForm b gib x).find? fun e => !e.1).map fun e =>
        ⟨0x0E, x.idx, if e.2 = lenAt then at_ + 8 else x.off + e.2⟩]

/-! ## Checks 0x0F and 0x10 -/

/-- An actuator is absent from the image roster (R52). -/
def actuatorRostered (c : Structure) (n : Nat) : Bool :=
  c.roster.testBit (bitBwk n) && c.roster.testBit (bitSrv n) && c.roster.testBit (bitAst n)
  && c.heads.any fun h => h.actuator == n

/-- No two elements of a list are equal. -/
def distinct (l : List Nat) : Bool := match l with
  | [] => true
  | a :: rest => !rest.contains a && distinct rest

/-- The regions' clocks can be run (R101, R226): SECTORS_PER_TRACK is not below W, and the rung 0 bit clock is at most 4,500 MHz. -/
def regionRuns_ (c : Structure) (r : RegionEntry) : Bool :=
  decide (c.w ≤ r.sectors) && decide (bpt64 c r.surface r.region * nth 0 c.rungRpm 0 * c.w * 1024 ≤ 4500000000 * 64 * 60)

/-- Cross-section rules (R50, R51, R52, R54, R106, R114, R297, R463), each with the section type it is laid to. -/
def crossRules (b : List Byte) : List (Bool × Nat × Nat) :=
  let c := imageStructure b
  let role := bodyNat b 0x0E 1
  let ports := (List.range 32).filter fun p => c.roster.testBit (bitLink p)
  let prog (i : Nat) : Bool := (sectFind b 0x0010 i).isSome
  let surfaces := c.heads.map fun h => h.surface
  [(bodyNat (sectOf b 0x0001 0) 16 1 == role, 0x0001, 16),
   (role != 0 || ports == [0, 1], 0x0001, 4),
   (c.rdcOfPa.a0 != c.rdcOfPa.a1, 0x0002, 0), (c.ceOfAct.a0 != c.ceOfAct.a1, 0x0002, 2), (c.astOfPa.a0 != c.astOfPa.a1, 0x0002, 4),
   (distinct (ports.map fun p => nth 0 c.linkMap p), 0x0002, 16),
   (c.roster / 2 ^ 64 % 2 ^ 32 == 2 ^ c.heads.length - 1, 0x0001, 8),
   ([0, 1].all (fun n => decide ((c.heads.filter fun h => h.actuator == n).length ≤ 16)), 0x0003, 8),
   (distinct surfaces, 0x0003, 8),
   (distinct (c.heads.map fun h => h.actuator * 16 + h.paSelect), 0x0003, 8)]
  ++ ((List.range 5).map fun i =>
      let es := c.entries.filter fun e => e.inst == i
      let words := bodyNat (sectOf b 0x0010 i) 0 2
      (es.all (fun e => decide (e.addr < words)) && distinct (es.map fun e => e.code), 0x0010, 8))
  ++ [(c.ns.all (fun n => n.convZones == 0 || n.csi == 0), 0x0007, 16),
      (c.ns.all (fun n => n.csi == 2 || n.convZones != 0), 0x0007, 16),
      (c.ns.all (fun n => !n.lbafMask.testBit 1 || c.mediumPi == 8), 0x0007, 17),
      (c.ns.all (fun n => [0, 1].all fun a => !n.actMask.testBit a || actuatorRostered c a), 0x0007, 16),
      ([0, 1].all (fun a => decide ((c.ns.filter fun n => n.csi == 2 && n.actMask.testBit a).length ≤ 1)), 0x0007, 16),
      (role == 1 || convFits c c.ns [], 0x0007, 20),
      (role == 1 || c.regions.all (regionRuns_ c), 0x0005, 8),
      (role == 1 || surfaces.all (peatValid c), 0x0004, 3),
      ([0, 1].all (fun n => (!c.roster.testBit (bitBwk n) || prog n) && (!c.roster.testBit (bitSrv n) || prog (2 + n)))
        && (!c.roster.testBit bitSpn || prog 4), 0x0010, 0)]

/-- Check 0x0F. -/
def crossCheck (b : List Byte) : Option ImageFail :=
  ((crossRules b).find? fun e => !e.1).map fun e => match sectFind b e.2.1 0 with
    | some x => ⟨0x0F, x.idx, x.off + e.2.2⟩
    | none => ⟨0x0F, 0xFF, 0⟩

/-- Check 0x10: the DRAM plan (R53), in MiB. -/
def planCheck (b : List Byte) (gib : Nat) : Option ImageFail :=
  let c := imageStructure b
  match sectFind b 0x0008 0 with
  | none => none
  | some x => failAmong 0x10 x.idx x.off [(decide (c.pendMib + c.sideMib + c.cacheMib + 512 ≤ 1024 * gib), 0)]

/-- Checks 0x0A to 0x10. -/
def imageBodyCheck (b : List Byte) (gib : Nat) : Option ImageFail :=
  match tableCheck b with
  | some e => some e
  | none => firstFail [crcCheck b, typeCheck b, presenceCheck b, rangeCheck b gib, crossCheck b, planCheck b gib]

/-- Every check of R61. -/
def imageCheck (b : List Byte) (gib : Nat) (f : Fuses) : Option ImageFail :=
  match imageHeaderCheck b gib with
  | some e => some e
  | none => match imageAuthCheck b f with
    | some e => some e
    | none => imageBodyCheck b gib

end Sys2Proof.Machine
end

