-- ==== Sys2Proof/Machine/Power.lean ====
section
/-!
DEFINITION. Supplies and power loss (spec/15_power_thermal.md, R415 to R429, R441, R444, R446; spec/20_pins_electrical.md,
R539): the power-loss sequence, the hold-up test, the rails, and the dyke link with its lines.
-/

namespace Sys2Proof.Machine

/-- PGOOD (R418, R449): every bucked rail in range, POR released, no power loss; high in a DRST's HOLD. -/
def State.pgood (s : State) : Bool :=
  s.rd Reg.pwrStatusRailsOk % 32 == 31 && (s.boot != .por || s.rd Reg.rstStatusPhase == 2) && !s.flag Reg.pwrStatusLoss

/-- Domain time as the controller holds it: 0 while it is not valid (R429, R473). -/
def State.domainTime (s : State) : Nat := if s.flag Reg.domStatusTimeValid then s.rdPair Reg.domTimeLoUs Reg.domTimeHiUs else 0

/-- VM and VL within range (R415). -/
def supplyRange (vm vl : Nat) : Bool := decide (10800 ≤ vm) && decide (vm ≤ 13200) && decide (4750 ≤ vl) && decide (vl ≤ 5250)

/-- VM and VL as measured. -/
def supplyShow (s : State) (vm vl : Nat) : State :=
  let s := (s.wr Reg.pwrVinVmMv vm).wr Reg.pwrVinVlMv vl
  let s := s.wr Reg.pwrStatusVmOk (bit (decide (10800 ≤ vm) && decide (vm ≤ 13200)))
  s.wr Reg.pwrStatusVlOk (bit (decide (4750 ≤ vl) && decide (vl ≤ 5250)))

/-- The first 16 bytes of the last-gasp payload (R429). -/
def gaspHead (s : State) : List Byte :=
  leBytes 2 s.pwr.vm ++ leBytes 2 s.pwr.vl ++ leBytes 2 (s.rd Reg.pwrVholdMv)
  ++ [BitVec.ofNat 8 (s.rd Reg.pwrStatusCause),
      BitVec.ofNat 8 (s.pwr.gates + 4 * bit (s.jnl.saved.get 0).isSome + 8 * bit (s.jnl.saved.get 1).isSome)]

/-- Power loss detected (R424, R425 step 1): LOSS and its CAUSE; the HV die isolates VM and rectifies, unless a trip is the
cause; fetching stops; a DRST in its stop window is dropped (R452), a rung change ends ABANDONED. -/
def lossBegin (s : State) (cause vm vl : Nat) : State :=
  if s.flag Reg.pwrStatusLoss then s else
  let s := (supplyShow s vm vl).setPwr { s.pwr with
    step := .detected, vm, vl, gates := bit (s.flag (Reg.bwkStatusGate.elem 0)) + 2 * bit (s.flag (Reg.bwkStatusGate.elem 1))
    angle := s.recordAngle, returned := false }
  let s := ((s.set Reg.pwrStatusLoss).wr Reg.pwrStatusCause cause).bump Reg.pwrCountsLosses
  let s := if cause = 3 then s else (s.set Reg.hvSupplyVmIsolated).set Reg.hvSupplyRectifying
  let s := s.setRst { s.rst with request := none }
  let s := (s.wr Reg.rstStatusPhase 0).setHst { s.hst with paused := true }
  let s := (rungPreempt s).setChange none
  let s := s.set Reg.pwrIrqStatusLoss
  mailboxNotice s 0x0100 (gaspHead s)

/-- POWER_LOSS_DETECT (R424, R539): VL below 4.50 V, or VM below 9.5 V once it has reached 10.5 V. Which CAUSE is shown when both
are low is a free choice. -/
def execPowerLossDetect (vm vl : Nat) (s : State) : Host.Outcome State Fault Refusal :=
  let vmLow := decide (vm < 9500) && s.pwr.vmArrived
  let vlLow := decide (vl < 4500)
  if s.boot = .por ∨ s.flag Reg.pwrStatusLoss then .next s
  else if vmLow && vlLow then
    let (v, s) := s.takeFree
    .next (lossBegin s (1 + v % 2) vm vl)
  else if vmLow then .next (lossBegin s 1 vm vl)
  else if vlLow then .next (lossBegin s 2 vm vl)
  else .next s

/-- LOSS_SECTOR_BOUNDARY (R425 steps 2 to 4): the write requests fall, planks in progress end ABORTED with POWER, the retracts
start, JNL saves the accumulators; the jobs of the rings end. -/
def execLossSectorBoundary (s : State) : Host.Outcome State Fault Refusal :=
  if s.pwr.step ≠ .detected then .next s else
  let s := bwkStopAll s 4
  let s := hvRetractBoth s 5 10
  let s := accSave (accSave s 0) 1
  .next (s.setPwr { s.pwr with step := .retracting })

/-- LOSS_CORE_HOLD (R425 step 5): the control cores in reset, the jobs ended with the units gated. -/
def execLossCoreHold (s : State) : Host.Outcome State Fault Refusal :=
  if s.pwr.step ≠ .retracting then .next s else
  let s := jobsAbort s
  let s := (s.wr Reg.fltCoreHeld 15).clr Reg.sysCoreRelRun
  .next (s.setPwr { s.pwr with step := .held })

/-- The last-gasp payload (R429). -/
def gaspBytes (s : State) : List Byte :=
  let live := s.hst.cmds.filter fun c => !c.done
  let retract (n : Nat) : Byte := BitVec.ofNat 8 (s.rd (Reg.hvRetractCause.elem n) * 16 + s.rd (Reg.hvRetractPhase.elem n))
  gaspHead s ++ leBytes 4 s.pwr.angle ++ leBytes 8 (nextSeq s) ++ leBytes 2 (min live.length 0xFFFF)
  ++ [retract 0, retract 1] ++ leBytes 8 s.domainTime ++ List.replicate 8 0

/-- LAST_GASP_RECORD (R425 step 6, R429, R91): the warden's record, which carries operating seconds; a logic die that has tripped
is held from here on (R439). -/
def execLastGaspRecord (vhold : Nat) (s : State) : Host.Outcome State Fault Refusal :=
  if s.pwr.step ≠ .held then .next s else
  let s := s.wr Reg.pwrVholdMv vhold
  let s := recordFirst s srcPwr 1 1 (gaspBytes s)
  let s := s.setAng { s.ang with opsecGasp := some s.opsec }
  let s := s.setPwr { s.pwr with step := .recorded }
  .next (if s.pwr.tripped then
      let s := linkSet (linkSet s 0 0 0) 1 0 0
      (s.setPwr { s.pwr with dieHeld := true }).setFlt { s.flt with warden := .inReset }
    else s)

/-- VHOLD_BELOW_VMIN (R425 step 8, R418): the logic die held in POR, and the rails down. Not after a thermal trip alone, nor once
the supplies are back. -/
def execVholdBelowVmin (vhold : Nat) (s : State) : Host.Outcome State Fault Refusal :=
  if !s.flag Reg.pwrStatusLoss ∨ s.rd Reg.pwrStatusCause = 3 ∨ s.pwr.returned ∨ s.rd Reg.ageHoldup2VminMv ≤ vhold then .next s
  else
    let s := (s.wr Reg.pwrVholdMv vhold).wr Reg.pwrStatusRailsOk 0
    let s := (s.wr Reg.hvSupplyRailsOk 0).clr Reg.hvbStatusHb
    .next ((s.setBoot .por).setPwr { s.pwr with step := .down })

/-! ## Hold-up (R406, R428, R539) -/

/-- The hold-up budget in milliseconds: `cap` in µF, `esr` in mΩ, voltages in mV. The formula of R406 over a common denominator:
v_eff = (vmin² + 3000 × esr) / vmin mV. -/
def holdupBudget (cap esr vstart vmin : Nat) : Nat :=
  let e : Int := (vmin : Int) * vmin + 3000 * esr
  let num : Int := 425 * cap * ((vstart : Int) * vstart * vmin * vmin - e * e)
  if vmin = 0 then 0 else (num / (3 * 10 ^ 12 * vmin * vmin)).toNat

/-- HOLDUP_READY rises with VHOLD within 1 V of its setting and the test complete (R428). -/
def holdupReady (s : State) : State :=
  if s.rd Reg.ageHoldup2VstartMv ≤ s.rd Reg.pwrVholdMv + 1000 ∧ !s.flag Reg.pwrStatusHoldupReady then
    (s.set Reg.pwrStatusHoldupReady).set Reg.pwrIrqStatusHoldupReady
  else s

/-- HOLDUP_TEST_DONE (R406, R428): capacitance 0.25 A × Δt / 25 V and ESR step / 1.0 A; AGE computes the budget and acts on it. A
vmin of 0 leaves the budget a free value. -/
def execHoldupTestDone (rise step vhold : Nat) (s : State) : Host.Outcome State Fault Refusal :=
  if !s.pwr.testing then .next s else
  let cap := min (rise / 100) 65535
  let s := ((s.wr Reg.ageHoldup1CapUf cap).wr Reg.ageHoldup1EsrMohm (min step 65535)).wr Reg.pwrVholdMv vhold
  let vmin := s.rd Reg.ageHoldup2VminMv
  let (b, s) := if vmin = 0 then s.takeFree else (holdupBudget cap (min step 65535) (s.rd Reg.ageHoldup2VstartMv) vmin, s)
  let s := s.wr Reg.ageHoldup0BudgetMs (min b 65535)
  let s := recPut s deviceRec 64 [(0x0A, 2, cap), (0x0C, 2, min step 65535), (0x0E, 2, min b 65535),
    (0x10, 2, s.rd Reg.ageHoldup0ParkMinMs)]
  let s := ageAction s kindHoldup 0 0 (min b 65535)
  let s := (holdupReady s).clr Reg.hvSupplyCharging
  .next (modeAdvance (s.setPwr { s.pwr with testing := false }))

/-- HOLDUP_READY_TIMEOUT (R428): 5 s after the test began: HOLDUP_FAIL, HOLDUP_LOW, a record, and B4 proceeds. -/
def execHoldupReadyTimeout (s : State) : Host.Outcome State Fault Refusal :=
  if s.flag Reg.pwrStatusHoldupReady ∨ s.flag Reg.pwrStatusHoldupFail ∨ !s.pwr.vmArrived then .next s else
  let s := holdupSet (s.set Reg.pwrStatusHoldupFail) true
  .next (modeAdvance (record s srcPwr 2 2 (leBytes 4 (s.rdWord Reg.ageHoldup1CapUf.addr).toNat)))

/-- VM_ARRIVAL (R417, R539): VM reaches 10.5 V after POR release: the detector watches it, and the hold-up test begins. -/
def execVmArrival (vm : Nat) (s : State) : Host.Outcome State Fault Refusal :=
  if vm < 10500 ∨ s.boot = .por ∨ s.pwr.vmArrived then .next s else
  let s := (supplyShow s vm (s.rd Reg.pwrVinVlMv)).setPwr { s.pwr with vmArrived := true, testing := true }
  let s := s.wr Reg.pwrStatusVlOk 1
  .next (modeAdvance ((s.set Reg.hvSupplyCharging).set Reg.hvSupplyBoostOn))

/-- RAIL_OUT_OF_RANGE (R418, R444): the rail's RAILS_OK bit falls, PGOOD with it where it is a bucked rail, and RAIL is raised. -/
def execRailOutOfRange (rail : Nat) (s : State) : Host.Outcome State Fault Refusal :=
  if 7 ≤ rail ∨ !(s.rd Reg.pwrStatusRailsOk).testBit rail then .next s else
  let v := maskClear (s.rd Reg.pwrStatusRailsOk) rail
  .next (((s.wr Reg.pwrStatusRailsOk v).wr Reg.hvSupplyRailsOk v).set Reg.pwrIrqStatusRail)

/-! ## The dyke link and its lines (R419 to R423) -/

/-- DYKE_LINK_DOWN (R420): three bad frames in a row, or 2 µs without a good one. -/
def execDykeLinkDown (s : State) : Host.Outcome State Fault Refusal :=
  if !s.flag Reg.hvbStatusLinkUp then .next s
  else .next (((s.clr Reg.hvbStatusLinkUp).set Reg.pwrIrqStatusLinkDown).bump Reg.hvbRetrainsCount)

/-- DYKE_LINK_RETRAINED (R420): the link is up again; a loop whose actuator has been retracted meanwhile learns of it (R192). -/
def execDykeLinkRetrained (s : State) : Host.Outcome State Fault Refusal :=
  if s.flag Reg.hvbStatusLinkUp ∨ s.boot = .por then .next s else
  .next ((s.set Reg.hvbStatusLinkUp).each [0, 1] fun s n =>
    if s.flag (Reg.hvRetractActive.elem n) then srvRetracting_ s n 10 else s)

/-- DYKE_SILENCE_RETRACT (R420): 50 µs with no good frame: the HV die retracts both actuators, cause link. -/
def execDykeSilenceRetract (s : State) : Host.Outcome State Fault Refusal :=
  if s.flag Reg.hvbStatusLinkUp then .next s else .next (hvFault (hvRetractBoth s 4 10) 256)

/-- HEARTBEAT_LOSS (R421, R422): 50 µs without an edge. -/
def execHeartbeatLoss (s : State) : Host.Outcome State Fault Refusal :=
  .next (hvFault (hvRetractBoth (s.clr Reg.hvbStatusHb) 3 10) 512)

/-- HV_FAULT_ASSERT (R422, R441). -/
def execHvFaultAssert (cause : Nat) (s : State) : Host.Outcome State Fault Refusal := .next (hvFault s cause)

/-- HVB_CTL_RETRACT (R422, R446): a write of HVB_CTL. RETRACT asserts the line until both actuators are DONE; a mode other than
machine mode gets a bus error. -/
def execHvbCtlRetract (priv : Priv) (data : Word) (s : State) : Host.Outcome State Fault Refusal :=
  if priv ≠ .m then .next (busError s)
  else .next ((if data.getLsbD 0 then retractLine (s.set Reg.hvbCtlRetract) else s).answer 0)

end Sys2Proof.Machine
end

