-- ==== Sys2Proof/Machine/Thermal.lean ====
section
/-!
DEFINITION. Temperature sensing, Sluice and thermal shutdown (spec/15_power_thermal.md, R430 to R443).
-/

namespace Sys2Proof.Machine

/-! ## Sensors and levels (R430 to R434) -/

/-- The group of a sensor, and the sensors of a group (R430). -/
def sensorGroup (k : Nat) : Nat := if k < 8 then 0 else if k < 12 then 1 else if k = 12 then 2 else 3
def groupSensors (g : Nat) : List Nat := (List.range 14).filter fun k => sensorGroup k == g

/-- The greatest of a list of readings, if there is one. -/
def highest : List Int → Option Int
  | [] => none
  | x :: xs => match highest xs with
    | some y => some (max x y)
    | none => some x

/-- A group's temperature: the highest reading among its sensors that have been sampled. -/
def groupTemp (s : State) (g : Nat) : Option Int :=
  highest (((groupSensors g).filter fun k => s.flag (Reg.thmTempValid.elem k)).map fun k => sensorTemp s k)

/-- A threshold in 1/8 °C. -/
def deg (c : Nat) : Int := 8 * (c : Int)

/-- The level of a group: 0 NORMAL, 1 WARNING, 2 THROTTLE. -/
def groupLevel (s : State) (g : Nat) : Nat := bitsOf (s.rd Reg.thmStatusLevel) (2 * g) 2

/-- The level that follows a sample (R432): up where a threshold is reached, down by one below its own less the hysteresis. -/
def nextLevel (s : State) (g : Nat) (t : Int) : Nat :=
  let old := groupLevel s g
  let warn := s.rd (Reg.thmThrWarn.elem g)
  let throt := s.rd (Reg.thmThrThrot.elem g)
  let hyst := deg (s.rd (Reg.thmThrHyst.elem g))
  if deg throt ≤ t then 2
  else if old = 2 then (if t < deg throt - hyst then 1 else 2)
  else if deg warn ≤ t then 1
  else if old = 1 then (if t < deg warn - hyst then 0 else 1)
  else 0

/-- Fast sampling (R431): at or above 5 °C below the lowest threshold not yet reached. -/
def groupFast (s : State) (g : Nat) (t : Int) : Bool :=
  let shut := s.rd (Reg.thmThrShut.elem g)
  let l := [s.rd (Reg.thmThrWarn.elem g), s.rd (Reg.thmThrThrot.elem g)] ++ (if shut = 0xFF then [] else [shut])
  match l.find? fun c => decide (t < deg c) with
  | some c => decide (deg c - 40 ≤ t)
  | none => false

/-- A field of bits with bit `i` put to a value. -/
def putBit (mask i : Nat) (b : Bool) : Nat := if b then maskSet mask i else maskClear mask i

/-- The rate of rise of a group at a sample (R433): over 3 °C/s against the newest temperature at least one second old, at every
sample over one second. -/
def riseStep (s : State) (g ms : Nat) (t : Int) : State :=
  let ago := (s.thm.hist.filter fun e => e.group == g && decide (e.ms + 1000 ≤ ms)).getLast?
  let fast := match ago with | some e => decide (24 < t - e.temp) | none => false
  let from_ := if fast then some ((Store.read none s.thm.rising g).getD ms) else none
  let keep := s.thm.hist.filter fun e => e.group != g || decide (ms < e.ms + 2000)
  let s := s.setThm { s.thm with
    hist := keep ++ [{ group := g, ms, temp := t }], rising := Store.write none s.thm.rising g from_ }
  match from_ with
  | some m =>
    if m + 1000 ≤ ms then (s.wr Reg.thmStatusRise (maskSet (s.rd Reg.thmStatusRise) g)).set Reg.thmIrqStatusRise else s
  | none => s

/-- One group after a sample: level, sampling rate, rise. -/
def groupStep (s : State) (ms g : Nat) : State :=
  match groupTemp s g with
  | none => s
  | some t =>
    let lv := nextLevel s g t
    let old := groupLevel s g
    let s := s.wr Reg.thmStatusLevel (s.rd Reg.thmStatusLevel - old * 4 ^ g + lv * 4 ^ g)
    let s := if lv = old then s else s.set Reg.thmIrqStatusLevel
    let s := s.wr Reg.thmStatusFast (putBit (s.rd Reg.thmStatusFast) g (groupFast s g t))
    riseStep s g ms t

/-- The composite temperature in kelvin (R434): max(T₀, T₁ − 25, T₂ + 15) of the groups sampled, converted and rounded. In units of
1/160 K: 273.15 K is 43,704. -/
def compositeOf (s : State) : Option Nat :=
  (highest (((groupTemp s 0).toList) ++ ((groupTemp s 1).map fun t => t - 200).toList
    ++ ((groupTemp s 2).map fun t => t + 120).toList)).map fun t => ((t * 20 + 43704 + 80) / 160).toNat

/-- A temperature in 1/8 °C in kelvin, rounded. -/
def kelvinOf (t : Int) : Nat := ((t * 20 + 43704 + 80) / 160).toNat

/-! ## Thresholds of feature 04h (R434) -/

/-- The temperature that TMPSEL names, in kelvin. -/
def selTemp (s : State) (sel : Nat) : Option Nat :=
  if sel = 0 then compositeOf s else if sel ≤ 4 then (groupTemp s (sel - 1)).map kelvinOf else none

/-- The thresholds that a controller has set and that are exceeded now, as (function, key): THSEL 0 over, 1 under. -/
def exceeded (s : State) : List (Nat × Nat) :=
  s.hst.ctrls.flatMap fun c => (c.features.filter fun e => e.1 % 256 == 0x04).filterMap fun e =>
    let sel := e.1 / 256 % 16
    let under := e.1 / 4096 % 4 == 1
    match selTemp s sel with
    | some k =>
      if e.2 != 0 && (if under then decide (k ≤ (e.2 - 1) % 65536) else decide ((e.2 - 1) % 65536 ≤ k)) then some (c.fn, e.1)
      else none
    | none => none

/-- The Temperature Threshold asynchronous event on a controller that has it enabled. -/
def tempEvent (s : State) (fn : Nat) : State :=
  if (ctrlOf s fn).any fun c => (Store.read 0 c.features 0x0B).testBit 1 then aerPump (asyncEvent s fn 0x020101) fn 8 else s

/-- Feature 04h compared at a sample: THRESH, and the event of each controller whose threshold has been crossed. -/
def threshStep (s : State) : State :=
  let now := exceeded s
  let rise := now.filter fun e => !s.thm.above.contains e
  let fall := s.thm.above.filter fun e => !now.contains e
  let s := if rise.isEmpty ∧ fall.isEmpty then s else s.set Reg.thmIrqStatusThresh
  let s := s.each (rise.map fun e => e.1).eraseDups tempEvent
  s.setThm { s.thm with above := now }

/-! ## Sluice (R435 to R437, R441) -/

def sluiceClear : Nat := 0
def sluiceAsk : Nat := 1
def sluiceEnforce : Nat := 2

/-- The composite is at or above a threshold of Host Controlled Thermal Management that is set. -/
def tmtActive (s : State) (f : Fld) : Bool := s.rd f != 0 && decide (s.rd f ≤ s.rd Reg.thmCompositeKelvin)

/-- The throttle condition. -/
def throttling (s : State) : Bool :=
  ((List.range 4).any fun g => groupLevel s g == 2) || s.rd Reg.thmStatusRise != 0 || tmtActive s Reg.thmHctmTmt1

/-- CEIL_THM written, with its effect under R83 in SERVICE (R442). -/
def ceilThm (s : State) (v : Nat) : State :=
  let s := s.wr Reg.angRungCeilThm v
  if s.opMode = modeService then rungCeiling s
  else s.wr Reg.angRungCeiling (max (s.rd Reg.angRungCeilAge) (s.rd Reg.angRungCeilThm))

/-- Sluice takes a state and a step: CEIL_THM, the interrupt, the counts, the notice. -/
def sluiceSet (s : State) (state step : Nat) : State :=
  let old := s.rd Reg.thmStatusSluice
  if old = state ∧ s.rd Reg.thmStatusStep = step then s else
  let s := ((s.wr Reg.thmStatusSluice state).wr Reg.thmStatusStep step).set Reg.thmIrqStatusSluiceChg
  let s := if state = sluiceEnforce ∧ old ≠ sluiceEnforce then s.bump Reg.thmCountsEnforces else s
  let s := if state = sluiceAsk ∧ old ≠ sluiceAsk then s.bump Reg.thmCountsAsks else s
  let s := ceilThm s (if state = sluiceEnforce then min step (s.sim.cfg.rungCount - 1) else 0)
  mailboxNotice s 0x0110 [BitVec.ofNat 8 state, BitVec.ofNat 8 step, BitVec.ofNat 8 (s.rd Reg.thmStatusLevel)]

/-- STEP_DUE at expert level (R437). -/
def stepDue (s : State) : State := (s.set Reg.thmStatusStepDue).set Reg.thmIrqStatusStepDue

/-- ENFORCE entered, or its step raised, because of TMT1 or TMT2 (R435, R438). -/
def tmtEnforce (s : State) (which step : Nat) : State :=
  let s := if s.rd Reg.thmStatusSluice = sluiceEnforce then s else
    s.setThm { s.thm with cause := which, counts := s.thm.counts.set (which - 1) (s.thm.counts.get (which - 1) + 1) }
  sluiceSet s sluiceEnforce step

/-- The IOPS cap in force, if one is (R436). -/
def iopsCap (s : State) : Option Nat :=
  if s.rd Reg.thmStatusSluice = sluiceEnforce then
    some (max 64 (s.rd Reg.thmCapIops / 2 ^ (s.rd Reg.thmStatusStep + 1 - s.sim.cfg.rungCount)))
  else none

/-- Sluice after a sample (R435, R437): TMT2, then TMT1, then the condition. -/
def sluiceStep (s : State) : State :=
  let was1 := s.flag Reg.thmStatusTmt1Act
  let was2 := s.flag Reg.thmStatusTmt2Act
  let t1 := tmtActive s Reg.thmHctmTmt1
  let t2 := tmtActive s Reg.thmHctmTmt2
  let s := (s.wr Reg.thmStatusTmt1Act (bit t1)).wr Reg.thmStatusTmt2Act (bit t2)
  let x := expert s Reg.thmModeLevel
  let st := s.rd Reg.thmStatusSluice
  let s := if x && ((t1 && !was1) || (t2 && !was2)) then stepDue s else s
  if t2 && !x then tmtEnforce s 2 (max 2 (if st = sluiceEnforce then s.rd Reg.thmStatusStep else 0))
  else if t1 && !x && st != sluiceEnforce then tmtEnforce s 1 1
  else if st = sluiceClear ∧ throttling s then
    s.each (s.hst.ctrls.map fun c => c.fn) (fun s fn => tempEvent s fn) |> fun s => sluiceSet s sluiceAsk 0
  else if st = sluiceAsk ∧ !throttling s then sluiceSet s sluiceClear 0
  else s

/-- The time in ENFORCE since the last sample counted to the threshold that caused it (R438). -/
def tmtTime (s : State) (ms : Nat) : State :=
  let d := ms - s.thm.sampled
  let s := if s.rd Reg.thmStatusSluice = sluiceEnforce ∧ s.thm.cause ≠ 0 then
      s.setThm { s.thm with times := s.thm.times.set (s.thm.cause - 1) (s.thm.times.get (s.thm.cause - 1) + d) }
    else s
  s.setThm { s.thm with sampled := ms }

/-- THM_SAMPLE (R431 to R435, R390): readings taken, levels and rates of their groups, the composite, the thresholds, Sluice, and
the triggers of CAL. -/
def execThmSample (ms : Nat) (temps : List (Nat × Nat)) (s : State) : Host.Outcome State Fault Refusal :=
  let temps := temps.filter fun e => decide (e.1 < 14)
  let s := s.each temps fun s e => (s.wr (Reg.thmTempTemp.elem e.1) e.2).set (Reg.thmTempValid.elem e.1)
  let s := tmtTime s ms
  let s := s.each ((List.range 4).filter fun g => temps.any fun e => sensorGroup e.1 == g) fun s g => groupStep s ms g
  let s := match compositeOf s with | some k => s.wr Reg.thmCompositeKelvin k | none => s
  .next (calTriggers (sluiceStep (threshStep s)))

/-- RISE_CLEAR_EXPIRY (R433): 30 s after the last detection; not while the group still rises too fast. -/
def execRiseClearExpiry (g : Nat) (s : State) : Host.Outcome State Fault Refusal :=
  if 4 ≤ g ∨ (Store.read none s.thm.rising g).isSome then .next s
  else .next (sluiceStep (s.wr Reg.thmStatusRise (maskClear (s.rd Reg.thmStatusRise) g)))

/-- SLUICE_GRACE_EXPIRY (R435, R437). -/
def execSluiceGraceExpiry (s : State) : Host.Outcome State Fault Refusal :=
  if s.rd Reg.thmStatusSluice ≠ sluiceAsk ∨ !throttling s then .next s
  else if expert s Reg.thmModeLevel then .next (stepDue s)
  else .next (sluiceSet (s.setThm { s.thm with cause := 0 }) sluiceEnforce 1)

/-- SLUICE_STEP_EXPIRY (R435, R437). -/
def execSluiceStepExpiry (s : State) : Host.Outcome State Fault Refusal :=
  if s.rd Reg.thmStatusSluice ≠ sluiceEnforce ∨ !throttling s then .next s
  else if expert s Reg.thmModeLevel then .next (stepDue s)
  else .next (sluiceSet s sluiceEnforce (min 15 (s.rd Reg.thmStatusStep + 1)))

/-- SLUICE_RELEASE_EXPIRY (R435): at expert level firmware releases (R437). -/
def execSluiceReleaseExpiry (s : State) : Host.Outcome State Fault Refusal :=
  if s.rd Reg.thmStatusSluice ≠ sluiceEnforce ∨ throttling s ∨ expert s Reg.thmModeLevel then .next s
  else .next (sluiceSet s sluiceClear 0)

/-- STEP (R437, R445): THM_CMD STEP, ignored and counted at basic level. -/
def execStep (s : State) : Host.Outcome State Fault Refusal :=
  if !expert s Reg.thmModeLevel then .next ((expertIgnored s Reg.thmModeExpertWrIgnored true).answer 0)
  else
    let n := if s.rd Reg.thmStatusSluice = sluiceEnforce then min 15 (s.rd Reg.thmStatusStep + 1) else 1
    .next ((sluiceSet (s.clr Reg.thmStatusStepDue) sluiceEnforce n).answer 0)

/-- THM_CMD_RELEASE (R437, R445). -/
def execThmCmdRelease (s : State) : Host.Outcome State Fault Refusal :=
  if !expert s Reg.thmModeLevel then .next ((expertIgnored s Reg.thmModeExpertWrIgnored true).answer 0)
  else .next ((sluiceSet (s.clr Reg.thmStatusStepDue) sluiceClear 0).answer 0)

/-! ## Thermal shutdown (R439, R440) -/

/-- THERMAL_TRIP (R432, R439, R442): a shutdown comparator of groups 0 to 2: THERM_TRIP, the retracts, and power loss with CAUSE
THERMAL unless one is under way. -/
def execThermalTrip (k reading : Nat) (s : State) : Host.Outcome State Fault Refusal :=
  let g := sensorGroup k
  if 13 ≤ k ∨ signedOf 16 reading < deg (s.rd (Reg.thmThrShut.elem g)) ∨ s.boot = .por then .next s else
  let s := s.wr Reg.thmTripLogPeak (if s.pwr.tripped ∧ signedOf 16 reading < signedOf 16 (s.rd Reg.thmTripLogPeak)
    then s.rd Reg.thmTripLogPeak else reading)
  if s.pwr.tripped then .next s else
  let s := ((s.bump Reg.thmTripLogCount).wr Reg.thmTripLogGroup g).wr Reg.thmTripLogSensor k
  let s := s.set (if g = 1 then Reg.hvbStatusTripIn else Reg.hvbStatusTripOut)
  let s := hvRetractBoth (s.setPwr { s.pwr with tripped := true }) 6 10
  .next (lossBegin s 3 (s.rd Reg.pwrVinVmMv) (s.rd Reg.pwrVinVlMv))

/-- TRIP_LOGIC_HOLD (R439 step 4): 5 ms after a trip: the logic die held in reset, the warden included; the PCIe link down. -/
def execTripLogicHold (s : State) : Host.Outcome State Fault Refusal :=
  if !s.pwr.tripped ∨ s.pwr.dieHeld then .next s else
  let s := (jobsAbort s).wr Reg.fltCoreHeld 15
  let s := (s.clr Reg.sysCoreRelRun).setFlt { s.flt with warden := .inReset }
  let s := linkSet (linkSet s 0 0 0) 1 0 0
  .next (s.setPwr { s.pwr with dieHeld := true })

/-- Every sensor of groups 0 to 2 is at least 20 °C below its group's shutdown threshold (R440). -/
def tripCool (s : State) (readings : List Nat) : Bool :=
  decide (13 ≤ readings.length) && (List.range 13).all fun k =>
    decide (signedOf 16 (nth 0 readings k) + 160 ≤ deg (s.rd (Reg.thmThrShut.elem (sensorGroup k))))

end Sys2Proof.Machine
end

