-- ==== Sys2Proof/Machine/Resets.lean ====
section
/-!
DEFINITION. Resets and retention (spec/16_resets.md, R447 to R462; spec/01_architecture.md, R33 to R35): POR and DRST with the
stop window, the host-side resets, the retention classes, STANDBY's shadows, and entry into RECOVERY.
-/

namespace Sys2Proof.Machine

/-! ## Retention of registers (R17, R448, R456) -/

/-- One element of a register row copied from one register file into another. -/
def copyElem (src m : Store Word) (f : Fld) : Store Word := Store.setFld m f (Store.field src f)

/-- The register file after a reset: reset values, and every row that is kept as it was. -/
def regsAfter (s : State) (keeps : RegRow → Bool) : Store Word :=
  regRows.foldl (fun m rows => rows.foldl (fun m r =>
    if keeps r then (List.range r.count).foldl (fun m i => copyElem s.regs m (r.fld.elem i)) m else m) m) State.reset.regs

/-- A row of the HV die, which only the HV die's own POR clears (R448). -/
def hvRow (r : RegRow) : Bool := decide (0x201D1000 ≤ r.fld.addr) && decide (r.fld.addr < 0x201E0000)

/-- Rows kept by a POR, with the HV die in it or not, and by a DRST. -/
def keptByPor (hv : Bool) (r : RegRow) : Bool := if hvRow r then !hv else r.keep == .n
def keptByDrst (r : RegRow) : Bool := hvRow r || r.keep == .n || r.keep == .p

/-- The reset value of a register element. -/
def resetElem (m : Store Word) (r : RegRow) (i : Nat) : Store Word := Store.setFld m (r.fld.elem i) r.reset.toNat

/-! ## What a reset of the logic die leaves of the rest (R456, R459) -/

/-- Settings and data that lie in MRAM, NOR or fuses stay; what the units hold beside is gone. `por`: a POR. -/
def logicReset (s : State) (por : Bool) (keeps : RegRow → Bool) : State :=
  let hst : Hst := {
    saved := s.hst.saved, savedApst := s.hst.savedApst, nsMasks := s.hst.nsMasks, zones := s.hst.zones
    changed := s.hst.changed, formats := s.hst.formats, sanitized := s.hst.sanitized, mi := s.hst.mi
    errCount := s.hst.errCount, apst := s.hst.savedApst
    device := s.hst.saved.filterMap fun e => e.2.map fun v => (e.1, v) }
  { s with
    regs := regsAfter s keeps
    loHalf := [], hiLatch := [], resp := .none
    boot := .por
    recorder := {}
    flt := if por then {} else { seq := s.flt.seq, fatalPor := s.flt.fatalPor }
    rst := {}
    ang := { revStored := s.ang.revStored, opsecStored := s.ang.opsecStored, opsecGasp := s.ang.opsecGasp }
    sim := {}
    cs := { mram := s.cs.mram }
    rings := [{}, {}, {}, {}, {}, {}, {}]
    bwk := ⟨{}, {}⟩, srv := ⟨{}, {}⟩, ce := {}
    spn := { coasting := !por && decide (300 ≤ s.rd Reg.spnStatusRpm) }
    ast := ⟨{}, {}⟩
    pre := { setup := s.pre.setup }
    cal := { factory := s.cal.factory, run := s.cal.run, runValid := s.cal.runValid }
    age := { iterHist := s.age.iterHist, sectors := s.age.sectors, lastEval := s.age.lastEval, history := s.age.history }
    chan := ⟨{}, {}⟩, ldp := {}, oce := {}, cry := {}, bcm := {}
    memc := { s.memc with tracker := [] }
    hst
    jnl := { seqStored := s.jnl.seqStored, rings := s.jnl.rings, records := s.jnl.records, extents := s.jnl.extents
             bands := s.jnl.bands, saved := s.jnl.saved, needReplay := s.jnl.needReplay }
    change := none, gated := [], shadow := [], dom := {}
    upd := { nor := s.upd.nor, mirror := s.upd.mirror, fuses := s.upd.fuses, blown := s.upd.blown, keyRun := s.upd.keyRun
             pieces := s.upd.pieces, event := s.upd.event, displaced := s.upd.displaced, origin := s.upd.origin
             fellBack := s.upd.fellBack, keys := s.upd.keys, sealed := s.upd.sealed }
    pwr := { vmArrived := !por && s.pwr.vmArrived }
    thm := { counts := s.thm.counts, times := s.thm.times } }

/-- BOOT entered by a reset, with its record (R33, R34). -/
def bootEnter (s : State) (old : Nat) : State := enterMode (s.wr Reg.sysOpmodeMode old) modeBoot 0x00

/-- The guard that PWR takes from AGE before B1, bounded by LIMITS entry 0x0401 and by 8 (R416), and its setpoint. -/
def vguardTake (s : State) (limit : Nat) : State :=
  let v := min 8 limit
  (s.wr Reg.pwrVcoreVguard v).wr Reg.pwrVcoreSetpointMv (750 + 5 * v)

/-- RST_OPSEC: operating seconds at the last POR or DRST (R462). -/
def opsecStamp (s : State) : State :=
  (s.wr Reg.rstOpsecLoOpsec (s.opsec % 2 ^ 32)).wr Reg.rstOpsecHiOpsec (s.opsec / 2 ^ 32)

/-- RST_CAUSE of a DRST. -/
def causeSet (s : State) (source : Nat) (stopped afterLoss merged : Bool) : State :=
  let s := ((s.set Reg.rstCauseKind).wr Reg.rstCauseSource source).wr Reg.rstCauseStopped (bit stopped)
  (s.wr Reg.rstCauseAfterLoss (bit afterLoss)).wr Reg.rstCauseMerged (bit merged)

/-! ## DRST (R449 to R452, R461) -/

/-- Step 4, and a DRST that begins after it: the logic die and the DRAM controller in reset, the heartbeat stopped, PCIe links
down, PHASE HOLD. The HV die goes on (R448), the spindle coasts (R451), the journal index stays as the stop window left it or
is replayed (R450, R282). -/
def drstHold (s : State) (source : Nat) (stopped afterLoss merged : Bool) : State :=
  let old := s.opMode
  let guard := limitValue s 0x0401 (s.rd Reg.ageStatusVguardNext)
  let line := s.rd Reg.hvbStatusRetractLine
  let faultLine := s.rd Reg.hvbStatusHvFaultLine
  let perst := s.rd Reg.rstStatusPerst
  let s := logicReset s false keptByDrst
  let s := s.setJnl { s.jnl with needReplay := s.jnl.needReplay || afterLoss }
  let s := (causeSet s source stopped afterLoss merged).bump Reg.rstDrstsCount
  let s := opsecStamp (vguardTake s guard)
  let s := ((s.wr Reg.hvbStatusRetractLine line).wr Reg.hvbStatusHvFaultLine faultLine).clr Reg.hvbStatusHb
  bootEnter ((s.wr Reg.rstStatusPerst perst).wr Reg.rstStatusPhase 2) old

/-- A request for DRST (R449, R452): it merges with one in STOP or HOLD; it is dropped while a power loss is handled, and
nothing hears it in POR; else the stop window begins. In STANDBY no plank runs, so the device goes straight to step 4 (R461). -/
def drstRequest (s : State) (source : Nat) : State :=
  if s.rd Reg.rstStatusPhase = 1 then s.setRst { s.rst with merged := true }
  else if s.rd Reg.rstStatusPhase = 2 then s.set Reg.rstCauseMerged
  else if s.boot = .por ∨ s.flag Reg.pwrStatusLoss then s
  else if s.opMode = modeStandby then drstHold (retractLine s) source false false false
  else
    let s := s.setRst { request := some source }
    let s := (s.wr Reg.rstStatusPhase 1).setHst { s.hst with paused := true }
    let s := s.setBwk 0 { s.bwk.get 0 with stopped := true }
    s.setBwk 1 { s.bwk.get 1 with stopped := true }

/-- DRST_WRITE_STOP (R449 steps 2 and 3): write requests fall at the sector boundary, planks in progress end ABORTED, and JNL saves each
accumulator that holds an open group. -/
def execDrstWriteStop (s : State) : Host.Outcome State Fault Refusal :=
  if s.rst.request.isNone ∨ s.rst.cleanStop then .next s else
  let s := bwkStopAll s 0
  let s := accSave (accSave s 0) 1
  .next (s.setRst { s.rst with cleanStop := true })

/-- The HV die has parked both actuators. -/
def bothParked (s : State) : Bool := [0, 1].all fun n => s.flag (Reg.hvRetractDone.elem n)

/-- A power-glitch DRST may begin (R426): the supplies are back, the last-gasp record is written, the heads are parked. -/
def glitchReady (s : State) : Bool := s.pwr.returned && s.pwr.step == .recorded && bothParked s

/-- The power-glitch DRST (R426, R449): after steps 6 and 7 of the loss, without a stop window. -/
def glitchDrst (s : State) : State := drstHold (s.bump Reg.pwrCountsGlitches) 6 false true false

/-- DRST_HOLD (R449 step 4): after the stop window, or after a power loss whose supplies have come back. -/
def execDrstHold (s : State) : Host.Outcome State Fault Refusal :=
  match s.rst.request with
  | some source => .next (if s.rst.cleanStop then drstHold (retractLine s) source true false s.rst.merged else s)
  | none => .next (if glitchReady s then glitchDrst s else s)

/-! ## Repair and B1 (R357, R359, R360) -/

/-- PENDING candidates repaired, or FAILED where no spare is left; the pinned list is rebuilt from the FAILED ones (R357). -/
def repairApply (s : State) (noSpare : List Nat) : State :=
  let judge (i : Nat) (c : Candidate) : Candidate :=
    if c.state ≠ 0 then c else if noSpare.contains i then { c with state := 2 } else { c with state := 1 }
  let cands := (List.range s.memc.cands.length).map fun i => judge i (nth ⟨0, 0, 1⟩ s.memc.cands i)
  let failed := (List.range s.memc.cands.length).filter fun i =>
    (nth ⟨0, 0, 1⟩ s.memc.cands i).state == 0 && noSpare.contains i
  let pinned := (cands.filter fun c => c.state == 2).map fun c => (c.array, Config.memRow c.array c.addr)
  let s := s.setMemc { s.memc with cands, pinned }
  let s := (s.wr Reg.memStatusPinned pinned.length).wr Reg.memStatusCand cands.length
  s.each failed fun s i =>
    let c := nth ⟨0, 0, 1⟩ s.memc.cands i
    record (s.set Reg.memIrqStatusRepairFail) srcMem 2 2 ([BitVec.ofNat 8 c.array] ++ leBytes 5 c.addr)

/-- B1 begins: the logic die is out of reset, its heartbeat runs (R421), and MEM repairs. -/
def bootStart (s : State) (noSpare : List Nat) : State :=
  repairApply { s.set Reg.hvbStatusHb with boot := .b1 } noSpare

/-- DRST_RELEASE (R449 steps 5 and 6): PHASE reads RUN; the hold-up test begins again where VM stands (R428). -/
def execDrstRelease (noSpare : List Nat) (s : State) : Host.Outcome State Fault Refusal :=
  if s.rd Reg.rstStatusPhase ≠ 2 then .next s else
  let s := bootStart (s.wr Reg.rstStatusPhase 0) noSpare
  .next (s.setPwr { s.pwr with testing := s.pwr.vmArrived })

/-- POR (R447, R448, R79, R91, R258): every register of the logic die but those of class N; the HV die where VL had fallen below
4.50 V. REV resumes 2²⁰ above the stored value, operating seconds at the last-gasp value or 64 above the stored one, WRITE_SEQ at the
stored value plus 65,536; the journal is replayed. -/
def execPor (hv : Bool) (s : State) : Host.Outcome State Fault Refusal :=
  let old := s.opMode
  let rev := s.ang.revStored + 2 ^ 20
  let opsec := s.ang.opsecGasp.getD (s.ang.opsecStored + 64)
  let guard := min 8 (s.rd Reg.ageStatusVguardNext)
  let s := logicReset s true (keptByPor hv)
  let s := s.setJnl { s.jnl with needReplay := true }
  let s := s.wrPair Reg.angRevLoRev Reg.angRevHiRev (rev % 2 ^ 44)
  let s := s.wrPair Reg.angOpsecOpsec (Reg.angOpsecOpsec.elem 1) (opsec % 2 ^ 40)
  let s := s.setAng { s.ang with opsecGasp := none }
  let s := s.addWrap Reg.rstPcycleCount 1
  .next (bootEnter (opsecStamp (vguardTake s guard)) old)

/-- POR_RELEASE (R417 step 8): every rail good, PGOOD high, B1 begins. -/
def execPorRelease (noSpare : List Nat) (s : State) : Host.Outcome State Fault Refusal :=
  if s.boot ≠ .por ∨ s.rd Reg.rstStatusPhase = 2 then .next s else
  let s := ((s.wr Reg.pwrStatusRailsOk 0x1F).set Reg.pwrStatusVlOk).wr Reg.hvSupplyRailsOk 0x1F
  .next (bootStart s noSpare)

/-- Addresses that the fill of B1 leaves alone: boot ROM and MRAM. -/
def notFilled (a : Nat) : Bool := decide (a < 0x08000000) || (decide (0x10000000 ≤ a) && decide (a < 0x20000000))

/-- SRAM and DRAM read as zeros with valid check bits; boot ROM and MRAM stay. -/
def memoryFill (s : State) : State :=
  { s with mem := s.mem.filter fun e => notFilled e.1, poison := s.poison.filter fun a => notFilled a }

/-- B1_FILL_DONE (R359, R360): SRAM, control stores, CE data memory and DRAM hold zeros with valid check bits; a checker that misreports sets its
ST_FAIL bit and is recorded; B2 begins. -/
def execB1FillDone (fails : Nat) (s : State) : Host.Outcome State Fault Refusal :=
  if s.boot ≠ .b1 then .next s else
  let s := (memoryFill s).setMemc { s.memc with err := s.memc.err.filter fun e => notFilled e.1 }
  let s := ((s.setCs { s.cs with words := [], partial_ := [] }).setCe { s.ce with mem := [] }).setBoot .b2
  let s := (s.set Reg.memStatusFillDone).wr Reg.memStatusStFail (fails % 16)
  .next (if fails % 16 = 0 then s
    else (s.set Reg.memIrqStatusSelftest).each (bitList 4 fails) fun s i => recordWarden s srcMem 4 3 ([BitVec.ofNat 8 i] ++ leBytes 5 0))

/-! ## The rows that request a DRST (R447) -/

/-- RESET_N_LOW (R449): shorter than 1 µs is ignored; from 1 µs to 10 µs it may or may not be taken, which is a free choice. -/
def execResetNLow (us : Nat) (s : State) : Host.Outcome State Fault Refusal :=
  if us < 1 then .next s
  else if us < 10 then
    let (v, s) := s.takeFree
    .next (if v % 2 = 1 then drstRequest s 1 else s)
  else .next (drstRequest s 1)

/-- NVM_SUBSYSTEM_RESET (R447): a PF's write of 0x4E56_4D65 to NSSR; on a VF it is ignored. -/
def execNvmSubsystemReset (fn value : Nat) (s : State) : Host.Outcome State Fault Refusal :=
  .next (if isPf fn ∧ value = 0x4E564D65 then drstRequest s 4 else s)

/-- RST_DRST_REQ_WRITE (R462). -/
def execRstDrstReqWrite (priv : Priv) (data : Word) (s : State) : Host.Outcome State Fault Refusal :=
  if priv ≠ .m then .next (busError s)
  else if fieldOf data 16 16 ≠ 0xFE25 then .next ((corrected s).answer 0)
  else .next ((if data.getLsbD 0 then drstRequest s 7 else s).answer 0)

/-- SUPPLY_RETURN (R426): VM and VL in range for 10 ms before step 8: a DRST follows once steps 6 and 7 are over. -/
def execSupplyReturn (vm vl : Nat) (s : State) : Host.Outcome State Fault Refusal :=
  if !s.flag Reg.pwrStatusLoss ∨ s.rd Reg.pwrStatusCause = 3 ∨ s.pwr.step = .down ∨ !supplyRange vm vl then .next s else
  let s := (supplyShow s vm vl).setPwr { s.pwr with returned := true }
  .next (if glitchReady s then glitchDrst s else s)

/-- THERMAL_RESTART (R440): a die held after a trip, every sensor cool. -/
def execThermalRestart (readings : List Nat) (s : State) : Host.Outcome State Fault Refusal :=
  .next (if s.pwr.dieHeld ∧ tripCool s readings then drstHold s 5 false true false else s)

/-! ## Modes (R33 to R35) -/

/-- The end of B4 (R33, R193): every actuator in service follows. -/
def b4Done (s : State) : State :=
  if s.boot = .b4 ∧ s.flt.safe = .none ∧ spnState s = spnLocked ∧ allFollow s then
    serviceEnter (s.setBoot .done) 0x10
  else s

/-- SVC_MODE_ASSERT (R34, R65): during B2, the load is ABANDONED. -/
def execSvcModeAssert (s : State) : Host.Outcome State Fault Refusal :=
  if s.boot ≠ .b2 ∨ s.opMode ≠ modeBoot then .next s
  else .next (recoveryEnter (s.wr Reg.simStatusState 7) 0x01)

/-- SVC_MODE_HOLD_EXPIRY (R34, R35): from SERVICE, REST and STANDBY: both write gates low, both actuators parked, fetching stopped;
then RECOVERY. A SAFE entry or a DRST under way prevails (R36). -/
def execSvcModeHoldExpiry (s : State) : Host.Outcome State Fault Refusal :=
  if s.opMode ≠ modeService ∧ s.opMode ≠ modeRest ∧ s.opMode ≠ modeStandby then .next s
  else if s.flt.safe ≠ .none ∨ s.rst.request.isSome ∨ s.flag Reg.pwrStatusLoss then .next s
  else
    let s := rungPreempt (bwkStopAll s 0)
    let s := calStop (hostStop (astStop (astStop s 0) 1))
    if (loadedActs s).isEmpty then .next (recoveryEnter s 0x01)
    else .next ((retractLine s).setChange (some { mode := modeRecovery, cause := 0x01, unloading := true }))

/-! ## Host-side resets (R447, R453, R454) -/

/-- A command of a function that is reset ends as R454 says. -/
def cmdReset (s : State) (c : HostCmd) : State :=
  let drop (s : State) : State := s.setBcm { s.bcm with staged := s.bcm.staged.filter fun t => t.tag != c.tag }
  if c.done then cmdFree s c
  else if c.opc = 0x79 then setCmd s { c with ended := true }
  else if !c.isWrite then cmdFree s c
  else if c.fetched then setCmd s { c with ended := true }
  else if nsZoned s c.ns then
    let z := { c with ended := true, opc := 0x08, slba := writeFirst c }
    writeTake (setCmd (drop s) z) z [] []
  else cmdFree (drop s) c

/-- A function is reset (R318, R454): nothing more is fetched from its queues, its pending entries and set latches are
discarded, its commands end, its controller is disabled. -/
def functionReset (s : State) (fn : Nat) : State :=
  let s := s.setHst { s.hst with
    ctrls := s.hst.ctrls.filter fun c => c.fn != fn
    sqs := s.hst.sqs.filter fun q => q.fn != fn
    cqs := s.hst.cqs.filter fun q => q.fn != fn
    latches := s.hst.latches.map fun l => if l.any fun l => l.cqe.fn == fn then none else l
    admin := s.hst.admin.filter fun a => a.1 != fn }
  let s := s.each (s.hst.cmds.filter fun c => c.fn == fn && !c.ended) cmdReset
  pendShow s

/-- A PF and its VFs, or one VF. -/
def functionsOf (s : State) (fn : Nat) : List Nat :=
  if isPf fn then (List.range (pfFunctions s)).map fun i => fn + i else [fn]

/-- A function of the layout. -/
def functionExists (s : State) (fn : Nat) : Bool := decide (portOf fn < pfCount s) && decide (fn % 128 < pfFunctions s)

/-- A DRST in its stop window or hold prevails over host-side resets (R461). -/
def drstUnderWay (s : State) : Bool := s.rd Reg.rstStatusPhase != 0

/-- A port enters HRST (R448, R453): its link is down, its functions are reset, the fields of class H and C of the port
return to their reset values; its lanes are no longer excluded (R286). -/
def portReset (s : State) (p : Nat) : State :=
  let s := s.each (functionsOf s (128 * p)) functionReset
  let s := linkSet s p 0 0
  let lanes := (List.range 4).filter fun l => lanePort s l == p
  s.wr Reg.hstStatusLanesDown (lanes.foldl maskClear (s.rd Reg.hstStatusLanesDown))

/-- A port leaves HRST: counted, and reported by RST and HST. -/
def portLeft (s : State) (p : Nat) : State :=
  let s := s.set Reg.hstIrqStatusHrst
  if p = 0 then (s.bump Reg.rstHrstP0).set Reg.rstIrqStatusHrst0 else (s.bump Reg.rstHrstP1).set Reg.rstIrqStatusHrst1

/-- PERST_N_ASSERT (R453): both ports leave L0, and every function is reset; BOOT is not affected. -/
def execPerstNAssert (s : State) : Host.Outcome State Fault Refusal :=
  if s.flag Reg.rstStatusPerst then .next s
  else
    let s := s.set Reg.rstStatusPerst
    if drstUnderWay s ∨ s.boot = .por then .next s else
    .next (((s.set Reg.rstStatusP0Hrst).set Reg.rstStatusP1Hrst).each [0, 1] portReset)

/-- PERST_N_DEASSERT (R453): the ports enter Detect; both have left HRST. -/
def execPerstNDeassert (s : State) : Host.Outcome State Fault Refusal :=
  if !s.flag Reg.rstStatusPerst then .next s else
  let s := s.clr Reg.rstStatusPerst
  if !s.flag Reg.rstStatusP0Hrst then .next s
  else .next (((s.clr Reg.rstStatusP0Hrst).clr Reg.rstStatusP1Hrst).each [0, 1] portLeft)

/-- HOT_RESET (R453): a hot reset or a link down resets one port, which retrains. -/
def execHotReset (port : Nat) (s : State) : Host.Outcome State Fault Refusal :=
  if pfCount s ≤ port ∨ s.flag Reg.rstStatusPerst ∨ drstUnderWay s ∨ s.boot = .por then .next s
  else .next (portLeft (portReset s port) port)

/-- FLR (R447, R453): one function; on a PF VF Enable is cleared, so its VFs are reset too. -/
def execFlr (fn : Nat) (s : State) : Host.Outcome State Fault Refusal :=
  if !functionExists s fn ∨ drstUnderWay s ∨ s.boot = .por then .next s
  else
    let s := s.each (functionsOf s fn) functionReset
    .next (((s.bump Reg.rstFuncFlrs).wr Reg.rstFuncFlrFunc fn).set Reg.rstIrqStatusFlr)

/-- CC_EN_CLEAR (R447, R453): CC.EN of an enabled controller from 1 to 0. -/
def execCcEnClear (fn : Nat) (s : State) : Host.Outcome State Fault Refusal :=
  if (ctrlOf s fn).isNone ∨ drstUnderWay s then .next s
  else .next (((functionReset s fn).wr Reg.rstFuncCrstFunc fn).set Reg.rstIrqStatusCrst)

/-- CC_EN_SET (R287, R290, R453): the controller becomes ready from B3 on, with its admin queues, its quotas and its
namespaces, and its features at their saved or default values. -/
def execCcEnSet (fn ams sqBase sqSize cqBase cqSize : Nat) (s : State) : Host.Outcome State Fault Refusal :=
  if !functionExists s fn ∨ (ctrlOf s fn).isSome ∨ !portUp s (portOf fn) ∨ drstUnderWay s ∨ s.boot = .por ∨ s.boot = .b1
      ∨ s.boot = .b2 ∨ s.opMode = modeRecovery ∨ sqSize < 2 ∨ cqSize < 2 then .next s
  else
    let c : Ctrl := { fn, ams, sqGrant := (quotaOf s fn).1, cqGrant := (quotaOf s fn).2, nsMask := nsMaskOf s fn
                      aers := [], events := [], aborts := 0, features := [] }
    let q : SubQ := { fn, qid := 0, base := sqBase, size := sqSize, cq := 0, prio := 0, head := 0, tail := 0 }
    let r : CompQ := { fn, qid := 0, base := cqBase, size := cqSize, vector := 0, ien := true, head := 0, tail := 0
                       phase := true, pend := [], agg := 0 }
    .next (s.setHst { s.hst with ctrls := s.hst.ctrls ++ [c], sqs := s.hst.sqs ++ [q], cqs := s.hst.cqs ++ [r] })

/-! ## STANDBY (R456 to R460) -/

/-- Whether a row's element `i` lies in the window of gated unit `u`; SPN's window is followed by those of AST. -/
def inGatedWindow (u : Nat) (f : Fld) : Bool := f.addr / 65536 == 0x2003 + u

/-- A gated unit is idle under its own chapter's rule. -/
def gateIdle (s : State) (u : Nat) : Bool :=
  if u < 2 then (s.bwk.get u).cur.isNone && (s.bwk.get u).done.isEmpty
  else if u < 4 then srvState s (u - 2) == srvParked || srvState s (u - 2) == srvFailed
  else if u = 4 then spnState s == spnStopped
  else if u < 7 then astState s (u - 5) == astIdle
  else (s.chan.get (u - 7)).granted.isNone

/-- The elements of the register rows in the window of a gated unit that meet `p`. -/
def gatedElems (u : Nat) (p : RegRow → Bool) : List (RegRow × Nat) :=
  regRows.foldl (fun l rows => rows.foldl (fun l r => if p r then
    l ++ ((List.range r.count).filter fun i => inGatedWindow u (r.fld.elem i)).map fun i => (r, i) else l) l) []

/-- What a gated unit loses beside its registers: everything but what its tables in MRAM and its always-on part hold. -/
def unitLose (s : State) (u : Nat) : State :=
  if u < 2 then
    let b := s.bwk.get u
    s.setBwk u { entries := b.entries, parityAt := b.parityAt, stopped := b.stopped }
  else if u < 4 then s.setSrv (u - 2) { fatal := (s.srv.get (u - 2)).fatal }
  else if u = 4 then s.setSpn {}
  else if u < 7 then
    let a := s.ast.get (u - 5)
    s.setAst (u - 5) { table := a.table, tablePend := a.tablePend, ceil := a.ceil, ceilPend := a.ceilPend }
  else
    let c := s.chan.get (u - 7)
    s.setChan (u - 7) { prof := c.prof, profPend := c.profPend, eq := c.eq, eqPend := c.eqPend }

/-- STANDBY_UNIT_GATE (R458): in STANDBY, once the unit is idle, its s registers are shadowed, and it is gated: s, g and class C
registers go to their reset values, the others stay. -/
def execStandbyUnitGate (u : Nat) (s : State) : Host.Outcome State Fault Refusal :=
  if s.opMode ≠ modeStandby ∨ 9 ≤ u ∨ s.gated.contains u ∨ s.change.isSome ∨ !gateIdle s u then .next s else
  let kept := gatedElems u fun r => r.gate == .s
  let lost := gatedElems u fun r => r.gate == .s || r.gate == .g || r.keep == .c
  let shadow := kept.foldl (fun m e => copyElem s.regs m (e.1.fld.elem e.2)) s.shadow
  let regs := lost.foldl (fun m e => resetElem m e.1 e.2) s.regs
  .next ((unitLose ((s.setRegs regs).setShadow shadow) u).setGated (u :: s.gated))

/-- STANDBY_WAKE_RESTORE (R457 to R460): every shadow and control store restored; CE words from 0x220 up are zero; then the way
to SERVICE or REST goes on. -/
def execStandbyWakeRestore (s : State) : Host.Outcome State Fault Refusal :=
  if s.gated.isEmpty ∨ s.change.isNone then .next s else
  let regs := s.gated.foldl (fun m u =>
    (gatedElems u fun r => r.gate == .s).foldl (fun m e => copyElem s.shadow m (e.1.fld.elem e.2)) m) s.regs
  let s := ((s.setRegs regs).setShadow []).setGated []
  let s := s.setCs { s.cs with words := s.cs.mram, partial_ := [] }
  .next (modeAdvance (s.setCe { s.ce with mem := s.ce.mem.filter (fun e => decide (e.1 % 4096 < 0x220)), regs := [], flags := 0 }))

end Sys2Proof.Machine
end

