-- ==== Sys2Proof/Machine/UpdOps.lean ====
section
/-!
DEFINITION. Shared operations of UPD (spec/18_update.md, R486 to R503): image sets in the NOR and on the service key, the checks of
R489, the update lock and its notices, settings blocks, the trial and its failure, key commands.
-/

namespace Sys2Proof.Machine

/-! ## Sets as bytes (R486, R487) -/

/-- Bytes of a set: slot A, slot B, or the service key. An erased NOR byte, and one beyond the key's set, reads 0xFF. -/
def srcBytes (s : State) (src off n : Nat) : List Byte :=
  if src = 2 then (List.range n).map fun i => nth 0xFF s.upd.key (off + i)
  else Store.readRun 0xFF s.upd.nor (src * 0x1800000 + off) n

/-- A little-endian field of a set. -/
def srcNat (s : State) (src off n : Nat) : Nat := leValue (srcBytes s src off n)

/-- A piece programmed into a slot. -/
def norWrite (s : State) (slot off : Nat) (bs : List Byte) : State :=
  s.setUpd { s.upd with nor := Store.writeRun 0xFF s.upd.nor (slot * 0x1800000 + off) bs }

/-- A slot erased. -/
def norErase (s : State) (slot : Nat) : State :=
  s.setUpd { s.upd with nor := s.upd.nor.filter fun e => e.1 / 0x1800000 != slot }

/-- Fields of the manifest. -/
def setLen (s : State) (src : Nat) : Nat := srcNat s src 8 4
def setSecVer (s : State) (src : Nat) : Nat := srcNat s src 0x0C 4
def setFlags (s : State) (src : Nat) : Nat := srcNat s src 0x18 2
def setMin (s : State) (src : Nat) : Nat := srcNat s src 0x1A 2
def setMax (s : State) (src : Nat) : Nat := srcNat s src 0x1C 2
def setVer (s : State) (src : Nat) : Nat := srcNat s src 0x1E 2

/-- A member of a set. -/
structure Member where
  type   : Nat
  offset : Nat
  length : Nat
  load   : Nat
  hash   : List Byte
  spare  : Bool
  deriving DecidableEq, Repr

/-- The member table, up to MEMBER_COUNT; `spare`: its reserved bytes are zero. -/
def members (s : State) (src : Nat) : List Member :=
  (List.range (min 16 (srcNat s src 6 2))).map fun i =>
    let f (o n : Nat) := srcNat s src (0x40 + 64 * i + o) n
    { type := f 0 1, offset := f 4 4, length := f 8 4, load := f 0x0C 4, hash := srcBytes s src (0x40 + 64 * i + 0x10) 48
      spare := f 1 3 == 0 }

/-- The bytes of a member; the members of a type. -/
def memberBytes (s : State) (src : Nat) (m : Member) : List Byte := srcBytes s src m.offset m.length
def membersOf (s : State) (src type : Nat) : List Member := (members s src).filter fun m => m.type == type

/-- The bytes of the first member of a type, empty where the set has none. -/
def memberOf (s : State) (src type : Nat) : List Byte :=
  match membersOf s src type with | m :: _ => memberBytes s src m | [] => []

/-! ## The checks of R489 -/

/-- Check 0x01: MAGIC, FORMAT, reserved fields, SET_MIN and SET_MAX. -/
def manifestForm (s : State) (src : Nat) : Bool :=
  let n := srcNat s src 6 2
  srcNat s src 0 4 == 0x4E414D51 && srcNat s src 4 2 == 0x0100 && setFlags s src / 4 == 0
  && (srcBytes s src 0x20 32).all (fun b => b == 0)
  && (srcBytes s src (0x40 + 64 * min 16 n) (64 * (16 - min 16 n))).all (fun b => b == 0)
  && (members s src).all (fun m => m.spare) && decide (setMin s src ≤ setMax s src)

/-- Whether two members share a byte. -/
def membersOverlap : List Member → Bool
  | [] => false
  | m :: rest => (rest.any fun x => overlaps m.offset m.length x.offset x.length) || membersOverlap rest

/-- A FIRMWARE member's load address (R487): 4 KiB aligned, in SRAM below 0x08C0_0000 or in DRAM that BCM does not reserve under the
set's own structure image. -/
def loadOk (s : State) (cfg : Structure) (m : Member) : Bool :=
  if m.type ≠ 1 then m.load == 0
  else
    let reserved := (cfg.pendMib + cfg.sideMib + cfg.cacheMib) * 2 ^ 20
    m.load % 4096 == 0
    && ((decide (0x08000000 ≤ m.load) && decide (m.load + m.length ≤ 0x08C00000))
      || (decide (0x800000000 ≤ m.load) && decide (m.load + m.length + reserved ≤ 0x800000000 + s.dramBytes)))

/-- Check 0x02: SET_LEN and member bounds, alignment and overlap. -/
def memberBounds (s : State) (src : Nat) : Bool :=
  let l := members s src
  let cfg := imageStructure (memberOf s src 2)
  decide (setLen s src ≤ 0x1800000)
  && l.all (fun m => m.offset % 4096 == 0 && decide (0x1000 ≤ m.offset) && m.length != 0
    && decide (m.offset + m.length ≤ setLen s src) && loadOk s cfg m)
  && (l.any fun m => m.offset + m.length == setLen s src)
  && !membersOverlap l

/-- Check 0x07: member types and counts. -/
def memberCounts (s : State) (src : Nat) : Bool :=
  let n (t : Nat) := (membersOf s src t).length
  within (srcNat s src 6 2) 2 16 && n 1 == 1 && n 2 == 1 && decide (n 3 ≤ 2) && decide (n 4 ≤ 1) && decide (n 6 ≤ 1)
  && (members s src).all fun m => m.type == 1 || m.type == 2 || m.type == 3 || m.type == 4 || m.type == 6

/-- Check 0x0A (R488): the warden patch carries a header, and its signature, with KEY_ID 0 and the vendor key. -/
def wardenPatchGood (s : State) (src : Nat) : Bool :=
  (membersOf s src 4).all fun m =>
    let b := memberBytes s src m
    let len := bodyNat b 8 4
    let at_ := (16 + len + 15) / 16 * 16
    bodyNat b 0 4 == 0x50445751 && bodyNat b 4 1 != 0 && zeroes b 5 1 && zeroes b 12 4 && decide (at_ + 256 ≤ b.length)
    && (sigForm b at_).all (fun e => e.1) && bodyNat b (at_ + 4) 1 == 0
    && Config.sha384 (sigKey b at_) == Config.vendorKeyHash
    && sigGood b at_ (slice b 0 (16 + len) ++ slice b at_ 0x80)

/-- Fitted DRAM in GiB (R42). -/
def State.gib (s : State) : Nat := s.dramBytes / 2 ^ 30

/-- The checks of R489 in their order: REJECT, and SIM_ERR with code 0x08. -/
def setCheck (s : State) (src : Nat) : Option (Nat × Nat) :=
  let sig := srcBytes s src 0x440 256
  let f := s.upd.fuses
  let img := memberOf s src 2
  let keyId := bodyNat sig 4 1
  if !manifestForm s src then some (0x01, 0)
  else if !memberBounds s src then some (0x02, 0)
  else if !keyAccepted f keyId (sigKey sig 0) then some (0x03, 0)
  else if !((sigForm sig 0).all (fun e => e.1) && sigGood sig 0 (srcBytes s src 0 0x440 ++ slice sig 0 0x80)) then some (0x04, 0)
  else if setSecVer s src < f.arb ∨ 64 < setSecVer s src ∨ setSecVer s src ≠ bodyNat img 0x14 4 then some (0x05, 0)
  else if !(members s src).all (fun m => Config.sha384 (memberBytes s src m) == m.hash) then some (0x06, 0)
  else if !memberCounts s src then some (0x07, 0)
  else match imageCheck img s.gib f with
    | some e => some (0x08, e.err)
    | none =>
      if (imageStructure img).keyId ≠ keyId then some (0x09, 0)
      else if !wardenPatchGood s src then some (0x0A, 0)
      else none

/-! ## Slots and the lock (R490, R491) -/

/-- Slot states and PEND_STATE. -/
def slotEmpty : Nat := 0
def slotStaging : Nat := 1
def slotValid : Nat := 2
def slotActive : Nat := 3
def slotTrial : Nat := 4
def slotFailed : Nat := 5
def pendEmpty : Nat := 0
def pendStaging : Nat := 1
def pendStaged : Nat := 2
def pendArmed : Nat := 3
def pendScheduled : Nat := 4

/-- Sources, as LOCK has them. -/
def srcHost : Nat := 1
def srcManager : Nat := 2
def srcService : Nat := 3

/-- A slot's STATE, and its change. -/
def slotState (s : State) (k : Nat) : Nat := s.rd (Reg.updSlotState.elem k)
def setSlot (s : State) (k v : Nat) : State := s.wr (Reg.updSlotState.elem k) v

/-- The slot that is ACTIVE, and the one that is not (R490). -/
def activeSlot (s : State) : Option Nat := [0, 1].find? fun k => slotState s k == slotActive
def otherSlot (s : State) : Nat := if slotState s 0 = slotActive then 1 else 0

def updLock (s : State) : Nat := s.rd Reg.updStatusLock
def pendState (s : State) : Nat := s.rd Reg.updStatusPendState
def pendSlot (s : State) : Nat := s.rd Reg.updStatusPendSlot
def updTrial (s : State) : Bool := s.flag Reg.updStatusTrial

/-- PEND_SLOT and PEND_STATE. -/
def pendPut (s : State) (slot st : Nat) : State := (s.wr Reg.updStatusPendSlot slot).wr Reg.updStatusPendState st

/-- The pending slot returns to EMPTY; what was staged is forgotten. -/
def pendDrop (s : State) : State :=
  let k := pendSlot s
  let s := s.setUpd { s.upd with pieces := [], blocks := 0, auth := none }
  let s := if k < 2 then ((setSlot s k slotEmpty).wr (Reg.updSlotSecVer.elem k) 0).wr (Reg.updSlotSetVer.elem k) 0 else s
  pendPut s 3 pendEmpty

/-! ## Notices (R492) -/

/-- The notice to firmware: event and source. -/
def updNotice (s : State) (event source : Nat) : State :=
  mailboxNotice s 0x0130 [BitVec.ofNat 8 event, BitVec.ofNat 8 source]

/-- The event to the host, on the PF controllers that are enabled. -/
def updHostEvent (s : State) : State :=
  let s := s.setUpd { s.upd with event := true }
  s.each ((s.hst.ctrls.filter fun c => isPf c.fn).map fun c => c.fn) fun s fn => aerPump (asyncEvent s fn 0x030107) fn 8

/-- A worker may send frames (R471): it has a position. -/
def domMaySend (s : State) : Bool := domWorker s && (domState s == domMember || domState s == domOrphan)

/-- The NAK to the manager on stream 2, with its reason. -/
def nakBusy : Nat := 0x10
def nakDisplaced : Nat := 0x11
def nakRejected : Nat := 0x12
def nakTrial : Nat := 0x13
def updNak (s : State) (reason : Nat) : State :=
  if domMaySend s then domToManager s 6 0x55 [2, BitVec.ofNat 8 reason] else s

/-- Status values of R493. -/
def stFwProhibited : Nat := 0x113
def stFwSlot : Nat := 0x106
def stFwImage : Nat := 0x107
def stFwOverlap : Nat := 0x114

/-- The holder of the lock is displaced (R490, R492, R505): its Commit under way is answered; in RECOVERY the host learns of it at
the next SERVICE. -/
def displaced (s : State) : State :=
  let old := updLock s
  let s := match s.upd.auth with
    | some a => if a.source = srcHost then adminReply s a.fn stFwProhibited 0 [] else s
    | none => s
  let s := (pendDrop s).set Reg.updIrqStatusDisplaced
  let s := if old = srcHost then
      (if s.opMode = modeRecovery then s.setUpd { s.upd with displaced := true } else updHostEvent s)
    else if old = srcManager then updNak s nakDisplaced else s
  updNotice s 2 old

/-- Why a staging action is refused. -/
inductive Refuse where
  | busy | trial
  deriving DecidableEq, Repr

/-- A staging action of a source is judged (R490): a trial refuses it, and so does a holder of higher priority, or a STAGED set of its own. -/
def stageRefuse (s : State) (src : Nat) : Option Refuse :=
  if updTrial s || s.upd.keyRun then some .trial
  else if src < updLock s then some .busy
  else if src = updLock s ∧ (pendStaged ≤ pendState s ∨ s.upd.auth.isSome) then some .busy
  else none

/-- Staging begins (R490): a lower holder is displaced, the lock taken, the pending slot erased and STAGING. -/
def stageBegin (s : State) (src slot : Nat) : State :=
  let s := if updLock s ≠ 0 ∧ updLock s < src then displaced s else s
  let s := s.setUpd { s.upd with pieces := [], blocks := 0, auth := none, origin := src }
  let s := norErase s slot
  let s := (s.wr Reg.updStatusLock src).wr (Reg.updSlotSecVer.elem slot) 0
  pendPut (setSlot (s.wr (Reg.updSlotSetVer.elem slot) 0) slot slotStaging) slot pendStaging

/-- The lock released (R491). -/
def lockFree (s : State) : State := s.wr Reg.updStatusLock 0

/-- A slot authenticates (R489): VALID with its versions, or EMPTY with REJECT; whether it passed. -/
def slotAuth (s : State) (slot : Nat) : Bool × State :=
  match setCheck s slot with
  | none =>
    let s := (setSlot s slot slotValid).wr (Reg.updSlotSecVer.elem slot) (setSecVer s slot)
    (true, s.wr (Reg.updSlotSetVer.elem slot) (setVer s slot))
  | some (code, sim) =>
    let s := ((setSlot s slot slotEmpty).wr Reg.updStatusReject code).wr Reg.updStatusSimErr sim
    (false, s.set Reg.updIrqStatusRejected)

/-- The pending set passes: STAGED, or armed at once. -/
def stagePass (s : State) (slot src : Nat) (arm : Bool) : State :=
  let s := pendPut s slot (if arm then pendArmed else pendStaged)
  updNotice (s.set Reg.updIrqStatusStaged) 1 src

/-- The pending set is rejected: its slot is EMPTY, the lock released (R491). -/
def stageFail (s : State) (src : Nat) : State := updNotice (lockFree (pendDrop s)) 3 src

/-! ## Settings (R501, R502) -/

/-- The four blocks. -/
def live0 : Nat := 0x10800000
def live1 : Nat := 0x10880000
def sealedAt : Nat := 0x10900000
def quarantineAt : Nat := 0x10980000

/-- The longest body. -/
def setMaxBody : Nat := 0x80000 - 32

/-- Header fields of a block at an address. -/
def blkFormat (s : State) (a : Nat) : Nat := s.loadNat (a + 4) 2
def blkGen (s : State) (a : Nat) : Nat := s.loadNat (a + 8) 4
def blkLen (s : State) (a : Nat) : Nat := s.loadNat (a + 12) 4
def blkBody (s : State) (a : Nat) : List Byte := s.bytes (a + 32) (blkLen s a)

/-- A block in MRAM is valid: its header, a GEN that is not 0, and the CRC32C of its body. -/
def blkValid (s : State) (a : Nat) : Bool :=
  s.loadNat a 4 == 0x47545351 && blkGen s a != 0 && decide (blkLen s a ≤ setMaxBody)
  && !s.poisoned a (32 + blkLen s a) && s.loadNat (a + 16) 4 == crc32c (blkBody s a)

/-- The live copy: the valid one of higher GEN. -/
def liveCopy (s : State) : Option Nat :=
  match blkValid s live0, blkValid s live1 with
  | true, true => if blkGen s live0 < blkGen s live1 then some live1 else some live0
  | true, false => some live0
  | false, true => some live1
  | false, false => none

/-- The bytes of a block. -/
def blkBytes (format gen : Nat) (body : List Byte) : List Byte :=
  leBytes 4 0x47545351 ++ leBytes 2 format ++ leBytes 2 0 ++ leBytes 4 gen ++ leBytes 4 body.length ++ leBytes 4 (crc32c body)
  ++ List.replicate 12 0 ++ body

/-- The live block of settings: FORMAT, GEN, body; none before settings were ever written. -/
def liveGen (s : State) : Nat := match liveCopy s with | some a => blkGen s a | none => 0
def liveFormat (s : State) : Nat := match liveCopy s with | some a => blkFormat s a | none => 0
def liveBody (s : State) : List Byte := match liveCopy s with | some a => blkBody s a | none => []

/-- What UPD_SET_STATUS and UPD_SET_GEN show. -/
def setShow (s : State) : State :=
  (s.wr Reg.updSetStatusFormat (liveFormat s)).wr Reg.updSetGenGen (liveGen s)

/-- A body written into the older LIVE copy with GEN incremented; the NOR mirror follows (R501). -/
def liveWrite (s : State) (format : Nat) (body : List Byte) : State :=
  let a := if liveCopy s = some live0 then live1 else live0
  let s := s.store a (blkBytes format (liveGen s + 1) body)
  setShow (s.set Reg.updSetStatusMirrorPend)

/-- Records of a body, as (tag, data). -/
def setRecords : Nat → List Byte → List (Nat × List Byte)
  | 0, _ => []
  | fuel + 1, b =>
    let tag := bodyNat b 0 2
    let len := bodyNat b 2 2
    if b.length < 4 ∨ tag = 0 then [] else (tag, slice b 4 len) :: setRecords fuel (b.drop (4 + (len + 3) / 4 * 4))

/-- The data of a tag in a body. -/
def setRecord (body : List Byte) (tag : Nat) : Option (List Byte) :=
  ((setRecords body.length body).find? fun r => r.1 == tag).map fun r => r.2

/-- A record's bytes. -/
def recordBytes_ (tag : Nat) (data : List Byte) : List Byte :=
  leBytes 2 tag ++ leBytes 2 data.length ++ padBytes ((data.length + 3) / 4 * 4) data

/-- A body with the record of a tag replaced, and its end. -/
def setPut (body : List Byte) (tag : Nat) (data : List Byte) : List Byte :=
  ((setRecords body.length body).filter fun r => r.1 != tag).flatMap (fun r => recordBytes_ r.1 r.2)
  ++ recordBytes_ tag data ++ [0, 0, 0, 0]

/-- Records that the state holds apart, since their layout is not stated (notes/assumptions/19.md). -/
def heldNow (s : State) : Held :=
  { saved := s.hst.saved, savedApst := s.hst.savedApst, nsMasks := s.hst.nsMasks, keys := s.upd.keys }
def heldPut (s : State) (h : Held) : State :=
  let s := s.setHst { s.hst with saved := h.saved, savedApst := h.savedApst, nsMasks := h.nsMasks }
  s.setUpd { s.upd with keys := h.keys }

/-- SEALED := live, at B2 of a trial boot; and the live settings replaced where the set cannot read them (R502). -/
def settingsSeal (s : State) (src : Nat) : State :=
  let s := s.store sealedAt (blkBytes (liveFormat s) (liveGen s) (liveBody s))
  let s := s.setUpd { s.upd with sealed := heldNow s }
  if setMin s src ≤ liveFormat s ∧ liveFormat s ≤ setMax s src then s
  else
    let d := memberOf s src 6
    let s := heldPut s {}
    (liveWrite s (setMax s src) d).set Reg.updSetStatusDefaulted

/-- Live to QUARANTINE (R500 step 2). -/
def settingsQuarantine (s : State) : State :=
  s.store quarantineAt (blkBytes (liveFormat s) (liveGen s) (liveBody s))

/-- SEALED back to live unchanged (R502). -/
def settingsRestore (s : State) : State :=
  if s.loadNat sealedAt 4 ≠ 0x47545351 then s else
  let a := if liveCopy s = some live0 then live1 else live0
  let format := blkFormat s sealedAt
  let body := blkBody s sealedAt
  let gen := liveGen s + 1
  let s := (s.store a (blkBytes format gen body)).set Reg.updSetStatusMirrorPend
  (setShow (heldPut s s.upd.sealed)).set Reg.updSetStatusRestored

/-! ## Activation and trial (R495, R498, R500) -/

/-- Whether the pending set is armed. -/
def updArmed (s : State) : Bool := decide (pendArmed ≤ pendState s) && decide (pendSlot s < 2)

/-- RESULT of an activation order (R495). -/
def actResult (s : State) (at_ : Nat) : Nat :=
  if !updArmed s then 2
  else if !s.flag Reg.domStatusTimeValid then 3
  else if at_ + 1000 * s.rd Reg.updActCtlLateMs < s.domClock then 4
  else if updTrial s || s.upd.keyRun then 5
  else 1

/-- An activation order is taken or refused (R495). -/
def updActivate (s : State) (at_ tag : Nat) : State :=
  let r := actResult s at_
  let s := s.wr Reg.updActCtlResult r
  if r = 1 then
    let s := (s.wrPair Reg.updActAtLoUs Reg.updActAtHiUs at_).wr Reg.updActTagTag tag
    updNotice ((s.wr Reg.updStatusPendState pendScheduled).set Reg.updIrqStatusScheduled) 4 srcManager
  else updNotice s 5 srcManager

/-- The slot on trial. -/
def trialSlot (s : State) : Option Nat := [0, 1].find? fun k => slotState s k == slotTrial

/-- A trial has failed, up to the request for DRST (R500 steps 1 to 3): a run from the service key marks no slot (R497). -/
def trialLose (s : State) : State :=
  let slot := match trialSlot s with | some k => k | none => 2
  let s := if slot < 2 then setSlot s slot slotFailed else s
  let s := settingsRestore (settingsQuarantine s)
  let s := ((s.clr Reg.updStatusTrial).wr Reg.updTrialBoots 0).set Reg.updIrqStatusFallback
  let s := s.setUpd { s.upd with keyRun := false, fellBack := true }
  let s := recordWarden s srcUpd 2 2 [BitVec.ofNat 8 slot, BitVec.ofNat 8 (s.rd Reg.updStatusReject)]
  updNotice s 8 s.upd.origin

/-- A failed trial (R500): the fallback, and the warden's DRST. -/
def trialFail (s : State) : State := drstRequest (trialLose s) 7

/-! ## Key commands (R503) -/

/-- Customer slots that are usable. -/
def usableSlots (f : Fuses) : List Nat := [1, 2, 3, 4].filter f.usable

/-- The fuses after an accepted key command; none where it is refused. -/
def keyCommand (s : State) (b : List Byte) : Option Fuses :=
  let f := s.upd.blown
  let op := bodyNat b 4 1
  let slot := bodyNat b 5 1
  let id := bodyNat b 0x104 1
  let signer := if f.programmed = 0 then id == 0 && keyAccepted f 0 (sigKey b 0x100)
    else id != 0 && keyAccepted f id (sigKey b 0x100)
  let setKey := match activeSlot s with | some k => srcNat s k 0x444 1 | none => 0
  let good := b.length == 512 && bodyNat b 0 4 == 0x59454B51 && (op == 1 || op == 2) && within slot 1 4 && zeroes b 6 2
    && bodyNat b 8 8 == s.rdPair Reg.updDevidLoId Reg.updDevidHiId && zeroes b 0x40 192
    && (sigForm b 0x100).all (fun e => e.1) && signer && sigGood b 0x100 (slice b 0 0x180)
  if !good then none
  else if op = 1 then
    if f.programmed.testBit (slot - 1) then none
    else some { f with programmed := maskSet f.programmed (slot - 1), hashes := Store.write [] f.hashes slot (slice b 0x10 48) }
  else
    let g := { f with revoked := maskSet f.revoked (slot - 1) }
    if (usableSlots g).isEmpty ∨ setKey = slot then none else some g

/-- A key command applied: whether it was accepted. The fuses blown take effect at the next B2. -/
def keyApply (s : State) (b : List Byte) : Bool × State :=
  match keyCommand s b with
  | some f => (true, s.setUpd { s.upd with blown := f })
  | none => (false, s)

end Sys2Proof.Machine
end

