-- ==== Sys2Proof/Machine/Update.lean ====
section
/-!
DEFINITION. UPD's rows (spec/18_update.md, R486 to R506): staging by the host, activation, waves, the trial and its confirmation,
settings, key commands through the mailbox; and the rows of spec/13 and spec/16 that end a trial.
-/

namespace Sys2Proof.Machine

/-! ## Staging by the host (R490, R493) -/

/-- The modes in which the host and the manager stage (R490). -/
def stageMode (s : State) : Bool := s.opMode == modeService || s.opMode == modeRest || s.opMode == modeStandby

/-- Whether the manifest has been staged, so that SET_LEN is known. -/
def manifestStaged (s : State) : Bool := s.upd.pieces.any fun p => p.1 == 0 && decide (0x18 ≤ p.2)

/-- A piece breaks the rules of R493: offset or length not a multiple of 1,024 dwords, the piece that ends the set apart, or bytes
beyond 24 MiB. -/
def pieceBad (s : State) (offset n : Nat) : Bool :=
  n == 0 || n % 4 != 0 || offset % 4096 != 0 || decide (0x1800000 < offset + n)
  || (n % 4096 != 0 && manifestStaged s && decide (offset + n < setLen s (pendSlot s)))

/-- FIRMWARE_IMAGE_DOWNLOAD (R490, R493): on a PF. -/
def execFirmwareImageDownload (fn offset : Nat) (data : List Byte) (s : State) : Host.Outcome State Fault Refusal :=
  .next (adminRun s fn false true fun _ =>
    if !stageMode s ∨ (stageRefuse s srcHost).isSome then adminReply s fn stFwProhibited 0 []
    else if pieceBad s offset data.length then adminReply s fn stInvalidField 0 []
    else
      let s := if updLock s = srcHost ∧ pendState s = pendStaging then s else stageBegin s srcHost (otherSlot s)
      if s.upd.pieces.any fun p => overlaps offset data.length p.1 p.2 then adminReply s fn stFwOverlap 0 []
      else
        let s := norWrite s (pendSlot s) offset data
        adminReply (s.setUpd { s.upd with pieces := s.upd.pieces ++ [(offset, data.length)] }) fn 0 0 [])

/-- The slot a Commit names: 1 A, 2 B, 0 the pending one. -/
def commitSlot (s : State) (slot : Nat) : Nat := if slot = 0 then otherSlot s else slot - 1

/-- A Commit that is refused with BUSY, or issued during a trial (R493, R505). -/
def commitRefused (s : State) : Bool :=
  !stageMode s || updTrial s || s.upd.keyRun || decide (srcHost < updLock s) || s.upd.auth.isSome

/-- CA 0 and CA 1 (R493): staging ends and the set is authenticated, which UPD_STAGE_AUTH_DONE answers; a set already STAGED is
armed by CA 1. -/
def commitStage (s : State) (fn slot : Nat) (arm : Bool) : State :=
  adminRun s fn false true fun _ =>
    let k := commitSlot s slot
    if commitRefused s then adminReply s fn stFwProhibited 0 []
    else if 2 < slot ∨ slotState s k = slotActive then adminReply s fn stFwSlot 0 []
    else if updLock s = srcHost ∧ pendSlot s = k ∧ pendStaged ≤ pendState s then
      adminReply (if arm && pendState s == pendStaged then s.wr Reg.updStatusPendState pendArmed else s) fn 0 0 []
    else if updLock s ≠ srcHost ∨ pendSlot s ≠ k ∨ s.upd.pieces.isEmpty then
      adminReply (if pendSlot s = k ∧ pendState s = pendStaging then lockFree (pendDrop s) else s) fn stFwImage 0 []
    else s.setUpd { s.upd with auth := some { slot := k, source := srcHost, arm, fn } }

/-- FIRMWARE_COMMIT_CA0 (R493). -/
def execFirmwareCommitCa0 (fn slot : Nat) (s : State) : Host.Outcome State Fault Refusal := .next (commitStage s fn slot false)

/-- FIRMWARE_COMMIT_CA1 (R493). -/
def execFirmwareCommitCa1 (fn slot : Nat) (s : State) : Host.Outcome State Fault Refusal := .next (commitStage s fn slot true)

/-- FIRMWARE_COMMIT_CA2 (R493): arms a VALID set; the ACTIVE slot is left as it is. -/
def execFirmwareCommitCa2 (fn slot : Nat) (s : State) : Host.Outcome State Fault Refusal :=
  .next (adminRun s fn false true fun _ =>
    let k := commitSlot s slot
    if commitRefused s then adminReply s fn stFwProhibited 0 []
    else if 2 < slot then adminReply s fn stFwSlot 0 []
    else if slotState s k = slotActive then adminReply s fn 0 0 []
    else if slotState s k ≠ slotValid then adminReply s fn stFwImage 0 []
    else
      let st := max (pendState s) pendArmed
      adminReply ((pendPut s k st).wr Reg.updStatusLock srcHost) fn 0 0 [])

/-- UPD_STAGE_AUTH_DONE (R489, R491 to R494). -/
def execUpdStageAuthDone (s : State) : Host.Outcome State Fault Refusal :=
  match s.upd.auth with
  | none => .next s
  | some a =>
    let s := s.setUpd { s.upd with auth := none }
    let answer (s : State) (st : Nat) : State := if a.source = srcHost then adminReply s a.fn st 0 [] else s
    match slotAuth s a.slot with
    | (true, s) => .next (answer (stagePass s a.slot a.source a.arm) 0)
    | (false, s) =>
      let s := stageFail s a.source
      .next (if a.source = srcManager then updNak s nakRejected else answer s stFwImage)

/-- LOCK_IDLE_EXPIRY (R491): the host's lock, with the set still STAGING. -/
def execLockIdleExpiry (s : State) : Host.Outcome State Fault Refusal :=
  if updLock s ≠ srcHost ∨ pendState s ≠ pendStaging ∨ s.upd.auth.isSome then .next s
  else .next (lockFree (s.setUpd { s.upd with pieces := [] }))

/-! ## Activation (R495, R496) -/

/-- ACTIVATE_AT_REACHED (R449, R495): domain time has come to AT: DRST with source manager. -/
def execActivateAtReached (s : State) : Host.Outcome State Fault Refusal :=
  if pendState s ≠ pendScheduled then .next s
  else .next (drstRequest (setDomClock s (max s.domClock (s.rdPair Reg.updActAtLoUs Reg.updActAtHiUs))) 3)

/-- The health table's base; 0 disables it (R485). -/
def htblBase (s : State) : Nat := s.rd Reg.domHtblLoAddr * 2 ^ 17 + s.rd Reg.domHtblHiAddr * 2 ^ 32

/-- Entries of the health table: whether one was ever written, its payload. -/
def htblPayload (s : State) (id : Nat) : List Byte := s.bytes (htblBase s + 16 * id) 12

/-- Device IDs of workers whose HEALTH shows an update staged (bit 3 of byte 7), and their groups (byte 0xA). -/
def stagedWorkers (s : State) : List (Nat × Nat) :=
  if htblBase s = 0 then [] else
  ((List.range 8192).filter fun id => id % 256 != 0 && (bodyNat (htblPayload s id) 7 1).testBit 3).map fun id =>
    (id, bodyNat (htblPayload s id) 0xA 1)

/-- Groups in ascending order (R496 step 1). -/
def stagedGroups (s : State) : List Nat := (List.range 256).filter fun g => (stagedWorkers s).any fun w => w.2 == g

/-- STATE of UPD_WAVE_CTL changed. -/
def waveState (s : State) (v : Nat) : State := (s.wr Reg.updWaveCtlState v).set Reg.updIrqStatusWave

/-- The waves are over: DONE; a combined device orders its own activation now (R496). -/
def wavesDone (s : State) (at_ : Nat) : State :=
  let s := waveState s 2
  if s.rd Reg.domStatusRole = 2 then updActivate s at_ 0 else s

/-- ACTIVATE for one group. -/
def waveSend (s : State) (g at_ : Nat) : State :=
  let s := s.setUpd { s.upd with
    groups := s.upd.groups.drop 1, done := false, waveAt := at_
    workers := ((stagedWorkers s).filter fun w => w.2 == g).map fun w => w.1 }
  let s := (waveState s 1).wr Reg.updWaveCtlGroup g
  domBroadcast s 5 0x40 fun _ => [BitVec.ofNat 8 g, 0] ++ leBytes 8 at_ ++ leBytes 2 0

/-- WAVE_AT_REACHED (R496): the first wave takes the staged groups and UPD_WAVE_AT; a later one follows the success of the one
before it by SPACING_S. -/
def execWaveAtReached (s : State) : Host.Outcome State Fault Refusal :=
  if domWorker s ∨ !s.flag Reg.updWaveCtlEn then .next s
  else if s.rd Reg.updWaveCtlState = 0 then
    let at_ := s.rdPair Reg.updWaveAtLoUs Reg.updWaveAtHiUs
    let s := s.setUpd { s.upd with groups := stagedGroups s }
    match s.upd.groups with
    | [] => .next (wavesDone s at_)
    | g :: _ => .next (waveSend s g at_)
  else if s.rd Reg.updWaveCtlState = 1 ∧ s.upd.done then
    match s.upd.groups with
    | [] => .next s
    | g :: _ => .next (waveSend s g (s.upd.waveAt + 1000000 * s.rd Reg.updWaveTimeSpacingS))
  else .next s

/-- A HEALTH of a worker of the wave is judged (R496 steps 3 and 4) once it no longer shows the update staged: trial boot clear and
TARGET_VER counts it as done; trial boot clear with another version halts the sequence. `waveAt` becomes the moment of success. -/
def waveJudge (s : State) (id : Nat) (payload : List Byte) : State :=
  let flags := bodyNat payload 7 1
  if s.rd Reg.updWaveCtlState ≠ 1 ∨ s.upd.done ∨ !s.upd.workers.contains id ∨ flags.testBit 3 ∨ flags.testBit 4 then s
  else if bodyNat payload 8 2 ≠ s.rd Reg.updWaveCtlTargetVer then waveState s 3
  else
    let s := s.setUpd { s.upd with workers := s.upd.workers.filter fun w => w != id }
    if s.upd.workers.isEmpty then
      let s := s.setUpd { s.upd with done := true, waveAt := s.domClock }
      if s.upd.groups.isEmpty then wavesDone s s.domClock else s
    else s

/-- WAVE_TIMEOUT (R496): TIMEOUT_S from a wave's AT without its success. -/
def execWaveTimeout (s : State) : Host.Outcome State Fault Refusal :=
  .next (if s.rd Reg.updWaveCtlState = 1 ∧ !s.upd.done then waveState s 3 else s)

/-! ## The trial (R498 to R500) -/

/-- Fuse bits blown until the count equals SEC_VER, and slots that now lie below it FAILED (R499). -/
def fuseAdvance (s : State) (slot : Nat) : State :=
  let v := setSecVer s slot
  if !(setFlags s slot).testBit 0 ∨ v ≤ s.upd.blown.arb then s else
  let s := s.setUpd { s.upd with blown := { s.upd.blown with arb := v }, fuses := { s.upd.fuses with arb := v } }
  s.each [0, 1] fun s k =>
    if slotState s k ≠ slotEmpty ∧ slotState s k ≠ slotStaging ∧ s.rd (Reg.updSlotSecVer.elem k) < v then setSlot s k slotFailed
    else s

/-- The trial is confirmed (R499). -/
def trialConfirm (s : State) (slot : Nat) : State :=
  let s := match activeSlot s with | some k => setSlot s k slotValid | none => s
  let s := ((setSlot s slot slotActive).wr Reg.updStatusActiveSlot slot).clr Reg.updStatusTrial
  let s := lockFree ((s.wr Reg.updTrialBoots 0).wr Reg.updTrialElapsed 0)
  updNotice (fuseAdvance s slot) 7 s.upd.origin

/-- UPD_CONFIRM_WRITE (R499): machine mode only; without a trial, in a run from the service key, or with a wrong GUARD it is
ignored and recorded as a corrected event. -/
def execUpdConfirmWrite (priv : Priv) (data : Word) (s : State) : Host.Outcome State Fault Refusal :=
  if priv ≠ .m then .next (busError s) else
  match trialSlot s with
  | none => .next ((corrected s).answer 0)
  | some k =>
    if fieldOf data 16 16 ≠ 0xC0F1 ∨ !updTrial s then .next ((corrected s).answer 0)
    else if data.getLsbD 0 then .next ((trialConfirm s k).answer 0)
    else .next (s.answer 0)

/-- TRIAL_WINDOW_EXPIRY (R498). -/
def execTrialWindowExpiry (s : State) : Host.Outcome State Fault Refusal :=
  if !updTrial s then .next s
  else .next (trialFail (s.wr Reg.updTrialElapsed (s.rd Reg.updTrialWinS)))

/-- SAFE_PARK_DONE (R34, R375, R498): the mode is SAFE; a trial fails with it. -/
def execSafeParkDone (s : State) : Host.Outcome State Fault Refusal :=
  let t := safeParkDone s
  .next (if s.opMode ≠ modeSafe ∧ t.opMode = modeSafe ∧ updTrial t then trialFail t else t)

/-- WARDEN_WATCHDOG_EXPIRY (R374, R498): a DRST with source warden watchdog, which a trial does not survive. -/
def execWardenWatchdogExpiry (s : State) : Host.Outcome State Fault Refusal :=
  .next (drstRequest (if updTrial s then trialLose s else s) 2)

/-! ## Settings (R501) -/

/-- What UPD finds of the block at UPD_SET_ADDR. -/
def setBlockResult (s : State) (a : Nat) : Nat :=
  let n := s.loadNat (a + 12) 4
  if a % 64 ≠ 0 ∨ !inBuffer s a 32 ∨ s.loadNat a 4 ≠ 0x47545351 ∨ s.loadNat (a + 6) 2 ≠ 0 ∨ s.loadNat (a + 20) 4 ≠ 0
      ∨ s.loadNat (a + 24) 8 ≠ 0 then 1
  else if setMaxBody < n then 3
  else if !inBuffer s a (32 + n) ∨ s.poisoned a (32 + n) ∨ s.loadNat (a + 16) 4 ≠ crc32c (s.bytes (a + 32) n) then 2
  else 0

/-- UPD_SET_CMD (R501): GO writes the block firmware has built into the older LIVE copy. -/
def execUpdSetCmd (data : Word) (s : State) : Host.Outcome State Fault Refusal :=
  if !data.getLsbD 31 then .next (s.answer 0) else
  let a := s.rd Reg.updSetAddrLoAddr + 2 ^ 32 * s.rd Reg.updSetAddrHiAddr
  let r := setBlockResult s a
  let format := blkFormat s a
  let body := blkBody s a
  let s := s.wr Reg.updSetStatusResult r
  .next ((if r = 0 then liveWrite s format body else s).answer 0)

/-- SETTINGS_MIRROR_DONE (R501): the NOR mirror holds the live block. -/
def execSettingsMirrorDone (s : State) : Host.Outcome State Fault Refusal :=
  if !s.flag Reg.updSetStatusMirrorPend then .next s else
  let s := s.setUpd { s.upd with mirror := blkBytes (liveFormat s) (liveGen s) (liveBody s) }
  .next (s.clr Reg.updSetStatusMirrorPend)

/-- The overlays as the data of tag 0x0001: QID, two reserved bytes, O (notes/assumptions/19.md). -/
def overlayRecord (l : Store Int) : List Byte :=
  l.flatMap fun e => leBytes 2 e.1 ++ [0, 0] ++ leBytes 4 (toBits 32 e.2)

/-- SAVE (R387): every overlay goes to settings. -/
def execSave (s : State) : Host.Outcome State Fault Refusal :=
  let s := liveWrite s (liveFormat s) (setPut (liveBody s) 1 (overlayRecord s.cal.overlay))
  .next ((s.wr Reg.calCmdResStatus 0).answer 0)

/-! ## Key commands (R503) -/

/-- KEYCMD: mailbox service 0x10. A block that cannot be read FAILS. -/
def execKeycmd (s : State) : Host.Outcome State Fault Refusal :=
  match ringFront s 6 with
  | none => .next s
  | some e =>
    if e.at 0 1 ≠ 0x10 then .next s
    else if mailMalformed e then .next (mailReply s e 1 [])
    else
      let a := e.at 8 8
      if !inBuffer s a 512 ∨ s.poisoned a 512 then .next (mailReply s e 3 [])
      else
        match keyApply s (s.bytes a 512) with
        | (true, s) => .next (mailReply s e 0 [])
        | (false, s) => .next (mailReply s e 2 [])

end Sys2Proof.Machine
end

