-- ==== Sys2Proof/Machine/Domain.lean ====
section
/-!
DEFINITION. DOM's rows (spec/17_domain.md, R463 to R485): frames as they arrive, at a worker and at a manager, the worker's states,
domain time, power tokens, health, bulk streams, the safe-state broadcast, and firmware's frames.
-/

namespace Sys2Proof.Machine

/-! ## States and notices of DOM (R471, R484) -/

/-- The mailbox notice 0x0120. -/
def domNotice (s : State) (event : Nat) : State := mailboxNotice s 0x0120 [BitVec.ofNat 8 event]

/-- DOM_STATUS.STATE changed: STATE_CHG; LOCKED falls in ORPHAN and ALONE, VALID in ALONE (R474). -/
def domEnter (s : State) (st : Nat) : State :=
  if domState s = st then s else
  let s := (s.wr Reg.domStatusState st).set Reg.domIrqStatusStateChg
  if st = domMember then domNotice s 1
  else if st = domOrphan then
    domNotice ((s.clr Reg.domStatusTimeLocked).setDom { s.dom with close := 0 }) 2
  else if st = domAlone then
    domNotice (((s.clr Reg.domStatusTimeLocked).clr Reg.domStatusTimeValid).setDom { s.dom with close := 0 }) 3
  else s

/-- A ring's count, up state or break has changed. -/
def ringChanged (s : State) : State := s.set Reg.domIrqStatusRing

/-! ## Frames (R467, R468, R470) -/

/-- The 18 bytes of a frame before its CRC. -/
def frameHead (f : Frame) (cls type : Nat) : List Byte :=
  [BitVec.ofNat 8 (cls + 8 * bit f.reverse + 16 * f.hops), BitVec.ofNat 8 type] ++ leBytes 2 f.src ++ leBytes 2 f.dst
  ++ padBytes 12 f.payload

/-- The 20 bytes of a frame. -/
def frameBytes (f : Frame) (cls type : Nat) : List Byte :=
  let b := frameHead f cls type
  b ++ leBytes 2 (crc277 b)

/-- The receive FIFO's head and count as its registers show them (R483). -/
def rxShow (s : State) : State :=
  let head := match s.dom.rx with | b :: _ => b | [] => []
  let s := s.each (List.range 5) fun s i => s.wr (Reg.domRxBytes.elem i) (bodyNat head (4 * i) 4)
  s.wr Reg.domRxCtlCount s.dom.rx.length

/-- A frame enters the receive FIFO, or is dropped and counted. -/
def rxPush (s : State) (b : List Byte) : State :=
  if 64 ≤ s.dom.rx.length then s.bump Reg.domRxCtlDropped
  else rxShow ((s.setDom { s.dom with rx := s.dom.rx ++ [b] }).set Reg.domIrqStatusRx)

/-- Whether a worker has a position, and its ID. -/
def hasPosition (s : State) : Bool := s.rd Reg.domStatusPosition != 0
def ownFrame (s : State) (w : Nat) : Bool := hasPosition s && w % 8192 == ownId s

/-- Broadcast, and unicast to this worker. -/
def isBcast (f : Frame) : Bool := f.dst.testBit 13
def forUs (s : State) (f : Frame) : Bool := isBcast f || ownFrame s f.dst

/-- The frame as a worker passes it on, with a payload. -/
def passOn (s : State) (f : Frame) (cls type : Nat) (payload : List Byte) : State :=
  if f.reverse ∨ f.port ≠ 0 ∨ (!isBcast f ∧ ownFrame s f.dst) ∨ ownFrame s f.src then s
  else domSend s { port := 1, reverse := false, cls, type, hops := f.hops, src := f.src, dst := f.dst, payload }

/-- A worker acts on a frame: one it takes, in a state that acts on it (R470, R471). -/
def workerActs (s : State) (f : Frame) (cls type : Nat) : Bool :=
  forUs s f && !f.reverse && f.port == 0 && domState s != domDown
  && (domState s != domAlone || (cls == 3 && type == 0x21))
  && (cls == 4 || cls == 6 || cls == 2 || f.src % 256 == 0)

/-- A frame arrives: discarded and counted where its CRC fails (R467); at a worker passed on, with the payload `pass` gives it, and
acted on by `worker`; at a manager port consumed, by `manager`. -/
def domFrame (s : State) (f : Frame) (cls type : Nat) (pass : State → List Byte) (worker manager : State → State) : State :=
  if s.boot = .por then s else
  let s := s.setDom { s.dom with sent := [] }
  if 32 ≤ f.port then s
  else if f.bad then pmuEvent (s.bump (Reg.domPortErrsCrc.elem f.port)) 8 3 none none 1
  else
    let s := pmuEvent s 8 2 none none 1
    if domWorker s then
      let s := passOn s f cls type (pass s)
      if workerActs s f cls type then worker s else s
    else
      let last := s.rd (Reg.domPortStatusLastHeard.elem f.port)
      manager (s.wr (Reg.domPortStatusLastHeard.elem f.port) (max last (f.src % 256)))

/-- The payload passed on unchanged. -/
def samePay (f : Frame) (_ : State) : List Byte := f.payload

/-- A frame addressed to the device that nothing else takes goes to the receive FIFO (R470). -/
def toFifo (f : Frame) (cls type : Nat) (s : State) : State := rxPush s (frameBytes f cls type)

/-- The sender's device ID. -/
def frameFrom (f : Frame) : Nat := f.src % 8192

/-- At basic level the manager automation runs (R483). -/
def domAuto (s : State) : Bool := !expert s Reg.domModeLevel

/-! ## CLASS 1 and 5: SAFE, ACTIVATE, RESET (R481, R470, R495) -/

/-- SAFE (R34, R481): a worker in SERVICE, REST or STANDBY enters SAFE; in BOOT and RECOVERY the frame is recorded only. -/
def execSafe (f : Frame) (s : State) : Host.Outcome State Fault Refusal :=
  .next (domFrame s f 1 0x01 (samePay f)
    (fun s =>
      if s.opMode = modeBoot ∨ s.opMode = modeRecovery then s.set Reg.domStatusSafeSeen
      else safeEnter s 0x21 none) id)

/-- ACTIVATE (R470, R495): for this worker's group, or for all. -/
def execActivate (f : Frame) (s : State) : Host.Outcome State Fault Refusal :=
  .next (domFrame s f 5 0x40 (samePay f)
    (fun s =>
      if bodyNat f.payload 0 1 = s.rd Reg.domGroupGroup ∨ (bodyNat f.payload 1 1).testBit 0 then
        updActivate s (bodyNat f.payload 2 8) (bodyNat f.payload 10 2)
      else s) (toFifo f 5 0x40))

/-- RESET (R449, R470): to this worker alone, with GUARD 0xD5E7. A wrong GUARD is counted as a corrected event. -/
def execReset (f : Frame) (s : State) : Host.Outcome State Fault Refusal :=
  .next (domFrame s f 5 0x41 (samePay f)
    (fun s =>
      if isBcast f then s
      else if bodyNat f.payload 0 2 = 0xD5E7 then drstRequest s 3 else corrected s) (toFifo f 5 0x41))

/-! ## CLASS 2: neighbour notices (R476, R178) -/

/-- A notice joins SRVn's queue of four; on overflow the oldest is dropped. -/
def noticeQueue (s : State) (n : Nat) (x : Notice) : State :=
  let s := pmuEvent s 2 5 (some n) none 1
  let l := (s.srv.get n).notices ++ [x]
  if 4 < l.length then (s.setSrv n { s.srv.get n with notices := l.drop 1 }).set (Reg.srvIrqStatusNbrDrop.elem n)
  else s.setSrv n { s.srv.get n with notices := l }

/-- The neighbour index of an offset (R476). -/
def neighbour (d : Int) : Option Nat :=
  if -4 ≤ d ∧ d ≤ -1 then some (d + 4).toNat else if 1 ≤ d ∧ d ≤ 4 then some (d + 3).toNat else none

/-- Samples since a seek's start, `now` and START in 1/16 µs, resolved to the nearest time with those low bits; one that lies ahead
counts as the present sample. -/
def noticeIndex (s : State) (start now : Nat) : Nat :=
  let dt := signedOf 32 ((now + (2 ^ 32 - start % 2 ^ 32)) % 2 ^ 32)
  let rpm := nth 0 s.sim.cfg.rungRpm s.spn.rung
  dt.toNat * rpm * s.sim.cfg.w / 960000000

/-- A worker takes a notice into both queues. -/
def noticeTake (s : State) (f : Frame) (now : Nat) : State :=
  let d : Int := (f.src % 256 : Nat) - (s.rd Reg.domStatusPosition : Nat)
  if !s.flag Reg.domStatusTimeLocked ∨ f.src % 8192 / 256 ≠ s.rd Reg.domStatusPort then s else
  match neighbour d with
  | none => s
  | some k =>
    if !(s.rd Reg.domNbrMask).testBit k then s else
    let x : Notice := { k, amp := bodyInt f.payload 4 2, j := noticeIndex s (bodyNat f.payload 0 4) now }
    (noticeQueue (noticeQueue s 0 x) 1 x).addWrap Reg.domNbrCountsTaken 1

/-- NOTICE (R476): forwarded in its direction while HOPS is non-zero, and queued. Manager ports discard it. -/
def execNotice (f : Frame) (now : Nat) (s : State) : Host.Outcome State Fault Refusal :=
  if s.boot = .por then .next s else
  let s := s.setDom { s.dom with sent := [] }
  if 32 ≤ f.port then .next s
  else if f.bad then .next (pmuEvent (s.bump (Reg.domPortErrsCrc.elem f.port)) 8 3 none none 1)
  else
    let s := pmuEvent s 8 2 none none 1
    if !domWorker s ∨ f.port ≠ bit f.reverse then .next s else
    let s := if f.hops ≤ 1 ∨ ownFrame s f.src then s else
      domSend s { port := if f.reverse then 0 else 1, reverse := f.reverse, cls := 2, type := 0x10, hops := f.hops - 1
                  src := f.src, dst := f.dst, payload := f.payload }
    .next (if domState s = domDown ∨ domState s = domAlone then s else noticeTake s f now)

/-! ## CLASS 3: enumeration and time (R472 to R474) -/

/-- The tap seeds of the DOMAIN body (R484), 0 without it. -/
def tapSeed (s : State) (n i : Nat) : Nat :=
  let b := (s.sim.cfg.bodies.find? fun x => x.type == 0x0020).map fun x => x.bytes
  bodyNat (b.getD []) (16 + 1152 * n + 4 * i) 4

/-- Taps 32 to 287 of both instances loaded from the seeds. -/
def tapsReload (s : State) : State :=
  s.each [0, 1] fun s n => s.each (List.range 256) fun s i => setTap s n (32 + i) (BitVec.ofNat 32 (tapSeed s n (32 + i)))

/-- A worker's position set (R465, R472). -/
def positionSet (s : State) (port pos : Nat) : State :=
  let changed := s.rd Reg.domStatusPosition ≠ pos ∨ s.rd Reg.domStatusPort ≠ port
  let s := ((s.wr Reg.domStatusPort port).wr Reg.domStatusPosition pos).wr Reg.domStaggerLastPos pos
  if changed then
    let s := domNotice (s.set Reg.domIrqStatusPosChg) 4
    if domAuto s then tapsReload s else s
  else s

/-- A returned ENUM at a manager port: the ring's worker count. -/
def enumBack (s : State) (p count : Nat) : State :=
  let s := s.setDom { s.dom with enumOut := maskClear s.dom.enumOut p }
  let changed := s.rd (Reg.domPortStatusWorkers.elem p) ≠ count
  let broken := s.flag (Reg.domPortStatusBroken.elem p)
  let s := (s.wr (Reg.domPortStatusWorkers.elem p) count).clr (Reg.domPortStatusBroken.elem p)
  let s := if changed ∨ broken then ringChanged s else s
  if changed then domNotice s 5 else s

/-- ENUM (R471, R472). -/
def execEnum (f : Frame) (s : State) : Host.Outcome State Fault Refusal :=
  let n := (bodyNat f.payload 0 1 + 1) % 256
  let own (s : State) : Bool := workerActs s f 3 0x21
  .next (domFrame s f 3 0x21
    (fun s => if own s then BitVec.ofNat 8 n :: f.payload.drop 1 else f.payload)
    (fun s => domEnter (positionSet s (f.src % 8192 / 256) n) domMember)
    (fun s => enumBack s f.port (bodyNat f.payload 0 1)))

/-- A worker takes SYNC (R474): the error `e` against its own clock of `own` ns, the step or the slew, LOCKED and VALID. -/
def syncTake (s : State) (f : Frame) (own : Nat) : State :=
  let t := 1000 * bodyNat f.payload 0 8 + bodyNat f.payload 8 2 + s.rd Reg.domStatusPosition * bodyNat f.payload 10 1
  let e : Int := (t : Int) - (own : Int)
  let step := (bodyNat f.payload 11 1).testBit 0 || decide (10000 < e.natAbs)
  let s := (s.wr Reg.domSyncErrNs (toBits 16 (satInt 16 e))).wr Reg.domSyncLinkdly (bodyNat f.payload 10 1)
  let s := setDomClock s ((if step then t else own) / 1000)
  let close := if e.natAbs ≤ 1000 then s.dom.close + 1 else 0
  let s := (s.setDom { s.dom with close, missed := 0 }).set Reg.domStatusTimeValid
  let s := if 8 ≤ close then s.set Reg.domStatusTimeLocked else s
  if domState s = domOrphan then domEnter s domMember else s

/-- A returned SYNC at a manager port: LINKDLY from its round trip. -/
def syncBack (s : State) (f : Frame) (rtt : Nat) : State :=
  let p := f.port
  let n := s.rd (Reg.domPortStatusWorkers.elem p)
  let v := min 255 ((rtt - bodyNat f.payload 8 2) / (n + 1))
  let s := s.setDom { s.dom with syncOut := maskClear s.dom.syncOut p }
  let s := if s.flag (Reg.domPortStatusBroken.elem p) ∧ !s.dom.enumOut.testBit p then
    ringChanged (s.clr (Reg.domPortStatusBroken.elem p)) else s
  s.wr (Reg.domPortStatusLinkdly.elem p) v

/-- SYNC (R473, R474): a forwarder adds its residence to CORR. -/
def execSync (f : Frame) (ns resid : Nat) (s : State) : Host.Outcome State Fault Refusal :=
  .next (domFrame s f 3 0x20
    (fun _ => f.payload.take 8 ++ leBytes 2 (bodyNat f.payload 8 2 + resid) ++ f.payload.drop 10)
    (fun s => syncTake s f ns) (fun s => syncBack s f ns))

/-- Ports on which a frame is still out when the next one leaves are broken. -/
def breakPorts (s : State) (out : Nat) : State :=
  s.each (portsUp s) fun s p =>
    if out.testBit p ∧ !s.flag (Reg.domPortStatusBroken.elem p) then ringChanged (s.set (Reg.domPortStatusBroken.elem p)) else s

/-- The mask of the ports that are up. -/
def upMask (s : State) : Nat := (portsUp s).foldl maskSet 0

/-- ENUM_SEND (R472): the manager's automation, on every up port. -/
def execEnumSend (s : State) : Host.Outcome State Fault Refusal :=
  let s := s.setDom { s.dom with sent := [] }
  if domState s ≠ domManager ∨ !domAuto s then .next s else
  let s := breakPorts s s.dom.enumOut
  let s := s.setDom { s.dom with enumOut := upMask s }
  .next (domBroadcast s 3 0x21 fun _ => [0])

/-- SYNC_SEND (R473): TIME, CORR 0, the port's LINKDLY, STEP after a forward set, LONG at 255. -/
def execSyncSend (now : Nat) (s : State) : Host.Outcome State Fault Refusal :=
  let s := s.setDom { s.dom with sent := [] }
  if domState s ≠ domManager ∨ !domAuto s then .next s else
  let s := setDomClock s (max now s.domClock)
  let t := s.domClock
  let step := s.dom.stepNext
  let dly := (List.range 32).map fun p => s.rd (Reg.domPortStatusLinkdly.elem p)
  let s := breakPorts s s.dom.syncOut
  let s := s.setDom { s.dom with syncOut := upMask s, stepNext := false }
  .next (domBroadcast s 3 0x20 fun p =>
    leBytes 8 t ++ [0, 0, BitVec.ofNat 8 (nth 0 dly p), BitVec.ofNat 8 (bit step + 2 * bit (nth 0 dly p == 255))])

/-- DOM_TIME_SET_WRITE (R13, R473): manager roles only, forward only; the low half is the one staged by the same master. -/
def execDomTimeSetWrite (m : Nat) (data : Word) (s : State) : Host.Outcome State Fault Refusal :=
  let lo := Reg.domTimeSetLoUs.addr
  let v := ((stagedHalf s m lo).getD 0).toNat + 2 ^ 32 * data.toNat
  let s := stageHalf s m lo none
  if domWorker s then .next (s.answer 0)
  else if v < s.domClock then .next ((corrected s).answer 0)
  else
    let s := setDomClock s v
    .next ((s.setDom { s.dom with stepNext := true }).answer 0)

/-! ## The worker's states (R466, R471) -/

/-- WX_LANE_UP (R466, R471). -/
def execWxLaneUp (port : Nat) (s : State) : Host.Outcome State Fault Refusal :=
  if 32 ≤ port ∨ s.flag (Reg.domPortStatusUp.elem port) ∨ s.flag (Reg.domPortStatusFailed.elem port) ∨ s.boot = .por then .next s
  else
    let s := ringChanged (s.set (Reg.domPortStatusUp.elem port))
    .next (if port = 0 ∧ domWorker s ∧ domState s = domDown then domEnter s domListen else s)

/-- WX_LANE_DOWN (R379, R466, R482): at the eighth down within a second the port fails, and a worker's DOM is ALONE. -/
def execWxLaneDown (port n : Nat) (s : State) : Host.Outcome State Fault Refusal :=
  if 32 ≤ port ∨ !s.flag (Reg.domPortStatusUp.elem port) then .next s
  else
    let s := ringChanged ((s.clr (Reg.domPortStatusUp.elem port)).bump (Reg.domPortErrsDowns.elem port))
    if n < 8 then .next s else
    let s := unitFatal (s.set (Reg.domPortStatusFailed.elem port)) (bitLink port) srcDom port 0x0055 0
    .next (if domWorker s then domEnter s domAlone else s)

/-- LISTEN_TIMEOUT (R471). -/
def execListenTimeout (s : State) : Host.Outcome State Fault Refusal :=
  .next (if domWorker s ∧ domState s = domListen then domEnter s domAlone else s)

/-- SYNC_MISSING (R471): one SYNC that did not come; the tenth in a row takes a MEMBER to ORPHAN. -/
def execSyncMissing (s : State) : Host.Outcome State Fault Refusal :=
  if !domWorker s ∨ (domState s ≠ domMember ∧ domState s ≠ domOrphan) then .next s
  else
    let s := (s.bump Reg.domSyncMissed).setDom { s.dom with missed := s.dom.missed + 1, close := 0 }
    .next (if domState s = domMember ∧ 10 ≤ s.dom.missed then domEnter s domOrphan else s)

/-- ORPHAN_TIMEOUT (R471). -/
def execOrphanTimeout (s : State) : Host.Outcome State Fault Refusal :=
  .next (if domWorker s ∧ domState s = domOrphan then domEnter s domAlone else s)

/-! ## CLASS 4: power tokens (R478) -/

/-- TOKEN_REQ: the manager's automation queues a request that is not a duplicate, grants in order, and answers a request that has
to wait. -/
def execTokenReq (f : Frame) (s : State) : Host.Outcome State Fault Refusal :=
  .next (domFrame s f 4 0x30 (samePay f) (toFifo f 4 0x30) fun s =>
    let id := frameFrom f
    if !domAuto s then toFifo f 4 0x30 s
    else if s.dom.wait.any (fun w => w.1 == id) || s.dom.held.any (fun w => w.1 == id) then s
    else
      let q := bodyNat f.payload 0 2
      let s := s.setDom { s.dom with wait := s.dom.wait ++ [(id, q)] }
      let s := tokenOwn (tokenPump s s.dom.wait.length)
      if s.dom.wait.any fun w => w.1 == id then domToDevice s id 4 0x33 (leBytes 2 q) else s)

/-- TOKEN_GRANT: SPN leaves TOKEN; a grant that comes after the fallback, or that nothing waits for, goes back. -/
def execTokenGrant (f : Frame) (s : State) : Host.Outcome State Fault Refusal :=
  .next (domFrame s f 4 0x31 (samePay f)
    (fun s =>
      if s.dom.holding then s
      else if spnState s = spnToken ∧ s.dom.asked ∧ !s.dom.fallback then
        let s := s.setDom { s.dom with answered := true, holding := true }
        spnLeaveToken (s.set Reg.spnIrqStatusToken)
      else domToManager s 4 0x32 (f.payload.take 2)) (toFifo f 4 0x31))

/-- TOKEN_RETURN: the next requests in order are granted. -/
def execTokenReturn (f : Frame) (s : State) : Host.Outcome State Fault Refusal :=
  .next (domFrame s f 4 0x32 (samePay f) (toFifo f 4 0x32) fun s =>
    if domAuto s then tokenOwn (tokenBack s (frameFrom f)) else toFifo f 4 0x32 s)

/-- TOKEN_QUEUED: the request need not be repeated. -/
def execTokenQueued (f : Frame) (s : State) : Host.Outcome State Fault Refusal :=
  .next (domFrame s f 4 0x33 (samePay f)
    (fun s => if s.dom.asked then s.setDom { s.dom with answered := true } else s) (toFifo f 4 0x33))

/-- A worker's request that waits for an answer. -/
def tokenWaits (s : State) : Bool :=
  domWorker s && domState s == domMember && spnState s == spnToken && s.dom.asked && !s.dom.answered && !s.dom.fallback

/-- TOKEN_REQ_REPEAT. -/
def execTokenReqRepeat (s : State) : Host.Outcome State Fault Refusal :=
  let s := s.setDom { s.dom with sent := [] }
  .next (if tokenWaits s then domToManager s 4 0x30 (leBytes 2 s.dom.reqSeq) else s)

/-- TOKEN_FALLBACK. -/
def execTokenFallback (s : State) : Host.Outcome State Fault Refusal :=
  .next (if tokenWaits s then s.setDom { s.dom with fallback := true } else s)

/-- STAGGER_EXPIRY: the staggered delay of a worker that is not MEMBER, or has fallen back, ends. -/
def execStaggerExpiry (s : State) : Host.Outcome State Fault Refusal :=
  .next (if domWorker s ∧ spnState s = spnToken ∧ s.dom.asked ∧ (domState s ≠ domMember ∨ s.dom.fallback) then
    spnLeaveToken (s.setDom { s.dom with fallback := true }) else s)

/-- TOKEN_RECLAIM: a token held for HOLD_S. -/
def execTokenReclaim (id : Nat) (s : State) : Host.Outcome State Fault Refusal :=
  let s := s.setDom { s.dom with sent := [] }
  if domWorker s ∨ !domAuto s ∨ !s.dom.held.any (fun h => h.1 == id) then .next s
  else
    let s := if id = 0 then s.setDom { s.dom with holding := false } else s
    .next (tokenOwn ((tokenBack s id).set Reg.domIrqStatusToken))

/-! ## Health (R479) -/

/-- Critical warning: bit 1, while a group is at THROTTLE or an over-threshold of feature 04h is exceeded (R434). -/
def criticalWarning (s : State) : Nat :=
  2 * bit (((List.range 4).any fun g => groupLevel s g == 2) || (exceeded s).any fun e => e.2 / 4096 % 4 != 1)

/-- Bits of byte 0x7 of HEALTH. -/
def healthFlags (s : State) : Nat :=
  bit (s.rd Reg.jnlReplayLogLost != 0) + 2 * bit (s.flag Reg.pwrStatusHoldupLow)
  + 4 * bit (s.rd Reg.astSuspectHeads != 0 || s.rd (Reg.astSuspectHeads.elem 1) != 0)
  + 8 * bit (pendState s ≥ pendStaged) + 16 * bit (updTrial s || s.upd.keyRun)

/-- Heads retired: in the image roster, and not in the stored retire mask's complement. -/
def headsRetired (s : State) : Nat :=
  ((List.range s.sim.cfg.heads.length).filter fun h =>
    (s.rd (Reg.simRetireMask.elem (bitHead h / 32))).testBit (bitHead h % 32)).length

/-- The payload of HEALTH. -/
def healthPayload (s : State) : List Byte :=
  [BitVec.ofNat 8 s.opMode, BitVec.ofNat 8 (criticalWarning s),
   BitVec.ofNat 8 (toBits 8 ((s.rd Reg.thmCompositeKelvin : Int) - 273)),
   BitVec.ofNat 8 (s.rd Reg.thmStatusSluice + 4 * s.rd Reg.thmStatusStep)]
  ++ leBytes 2 (s.rd Reg.fltDownMask / 16 % 4096) ++ [BitVec.ofNat 8 (headsRetired s), BitVec.ofNat 8 (healthFlags s)]
  ++ leBytes 2 (s.rd Reg.simImgVerImageVer % 65536) ++ [BitVec.ofNat 8 (s.rd Reg.domGroupGroup), 0]

/-- HEALTH_SEND (R479): a MEMBER, in every mode except RECOVERY. -/
def execHealthSend (s : State) : Host.Outcome State Fault Refusal :=
  let s := s.setDom { s.dom with sent := [] }
  .next (if domWorker s ∧ domState s = domMember ∧ s.opMode ≠ modeRecovery then domToManager s 6 0x50 (healthPayload s) else s)

/-- HEALTH (R479, R496): the manager's health table, and the wave in progress. -/
def execHealth (f : Frame) (s : State) : Host.Outcome State Fault Refusal :=
  .next (domFrame s f 6 0x50 (samePay f) (toFifo f 6 0x50) fun s =>
    let a := htblBase s + 16 * frameFrom f
    if !domAuto s then toFifo f 6 0x50 s
    else
      let s := if htblBase s = 0 ∨ !inBuffer s a 16 then s
        else s.store a (padBytes 12 f.payload ++ leBytes 4 (s.domClock / 1000))
      waveJudge s (frameFrom f) f.payload)

/-! ## Bulk streams (R480) -/

/-- A frame on the bulk class to the peer. -/
def bulkSend (s : State) (dst type : Nat) (payload : List Byte) : State :=
  if domWorker s then (if domMaySend s then domToManager s 6 type payload else s) else domToDevice s dst 6 type payload

/-- Bytes of a stream that this device serves: the recorder, the margin ledger. -/
def streamBytes (s : State) (stream off n : Nat) : List Byte :=
  if stream = 0 then recPage s off n else if stream = 1 then s.bytes (ledgerBase + off) n else []

/-- The block in flight of a stream: its DATA frames, then BLOCK_END with the CRC32C. -/
def blockSend (s : State) (b : Bulk) : State :=
  let n := min 4096 (b.len - b.done)
  let at_ := b.offset + b.done
  let data := streamBytes s b.stream at_ n
  let s := s.each (List.range ((n + 7) / 8)) fun s i =>
    bulkSend s b.dst 0x52 ([BitVec.ofNat 8 b.stream] ++ leBytes 3 (at_ / 8 + i) ++ padBytes 8 (slice data (8 * i) 8))
  bulkSend s b.dst 0x53 ([BitVec.ofNat 8 b.stream, 0, 0, 0] ++ leBytes 4 (crc32c data))

/-- The stream ends. -/
def bulkEnd (s : State) : State := (s.setDom { s.dom with bulk := none }).set Reg.domIrqStatusBulk

/-- PULL: streams 0 and 1 are served; stream 0 in every mode except RECOVERY. Any other goes to firmware. -/
def pullTake (f : Frame) (s : State) : State :=
  let stream := bodyNat f.payload 0 1
  if 1 < stream then toFifo f 6 0x51 s
  else if stream = 0 ∧ s.opMode = modeRecovery then s
  else
    let b : Bulk := { stream, dst := frameFrom f, offset := bodyNat f.payload 4 4, len := bodyNat f.payload 8 4, done := 0, tries := 0 }
    let s := s.setDom { s.dom with bulk := some b }
    if b.len = 0 then bulkEnd s else blockSend s b

/-- PULL (R480). -/
def execPull (f : Frame) (s : State) : Host.Outcome State Fault Refusal :=
  .next (domFrame s f 6 0x51 (samePay f) (pullTake f) (pullTake f))

/-- A DATA frame of stream 2 at a worker joins the block in progress; one out of sequence spoils it. -/
def dataTake (f : Frame) (s : State) : State :=
  if bodyNat f.payload 0 1 ≠ 2 then toFifo f 6 0x52 s else
  let off := 8 * bodyNat f.payload 1 3
  let b := slice f.payload 4 8
  if off % 4096 = 0 then s.setDom { s.dom with block := b, blockAt := off }
  else if off = s.dom.blockAt + s.dom.block.length ∧ !s.dom.block.isEmpty then
    s.setDom { s.dom with block := s.dom.block ++ b }
  else s.setDom { s.dom with block := [] }

/-- DATA (R480). -/
def execData (f : Frame) (s : State) : Host.Outcome State Fault Refusal :=
  .next (domFrame s f 6 0x52 (samePay f) (dataTake f) (toFifo f 6 0x52))

/-- A good block of stream 2 staged by the manager (R490, R492, R494). Block 0 takes the lock or restarts staging; after the last
block the set is authenticated, to be armed at once. -/
def stageBlock (s : State) (idx : Nat) (b : List Byte) : State :=
  let ack (s : State) : State := bulkSend s 0 0x54 [2]
  if idx ≠ 0 ∧ updLock s = srcManager ∧ pendState s = pendStaging ∧ idx < s.upd.blocks then ack s else
  match stageRefuse s srcManager with
  | some .trial => updNak s nakTrial
  | some .busy => updNak s nakBusy
  | none =>
    if !stageMode s then updNak s nakBusy
    else if idx ≠ 0 ∧ (updLock s ≠ srcManager ∨ pendState s ≠ pendStaging ∨ s.upd.blocks < idx ∨ 6144 ≤ idx) then
      bulkSend s 0 0x55 [2, 0]
    else
      let s := if idx = 0 then stageBegin s srcManager (otherSlot s) else s
      let k := pendSlot s
      let s := norWrite s k (4096 * idx) b
      let s := s.setUpd { s.upd with blocks := idx + 1 }
      let s := ack s
      if setLen s k ≤ 4096 * (idx + 1) then
        s.setUpd { s.upd with auth := some { slot := k, source := srcManager, arm := true, fn := 0 } }
      else s

/-- BLOCK_END of stream 2 at a worker: the block is good, or NAKed. -/
def blockTake (f : Frame) (s : State) : State :=
  if bodyNat f.payload 0 1 ≠ 2 then toFifo f 6 0x53 s else
  let b := s.dom.block
  let at_ := s.dom.blockAt
  let s := s.setDom { s.dom with block := [] }
  if b.isEmpty ∨ 4096 < b.length ∨ crc32c b ≠ bodyNat f.payload 4 4 then bulkSend s 0 0x55 [2, 0]
  else stageBlock s (at_ / 4096) b

/-- BLOCK_END (R480, R494). -/
def execBlockEnd (f : Frame) (s : State) : Host.Outcome State Fault Refusal :=
  .next (domFrame s f 6 0x53 (samePay f) (blockTake f) (toFifo f 6 0x53))

/-- The block in flight is resent, or after eight resends the stream is abandoned with FAILED. -/
def blockAgain (s : State) (b : Bulk) : State :=
  if 8 ≤ b.tries then bulkEnd s
  else
    let b := { b with tries := b.tries + 1 }
    blockSend (s.setDom { s.dom with bulk := some b }) b

/-- The stream this device sends, if a frame answers it. -/
def bulkOf (s : State) (f : Frame) : Option Bulk :=
  s.dom.bulk.filter fun b => b.stream == bodyNat f.payload 0 1 && (domWorker s || b.dst == frameFrom f)

/-- ACK: the next block, or the end of the stream. -/
def ackTake (f : Frame) (s : State) : State :=
  match bulkOf s f with
  | none => toFifo f 6 0x54 s
  | some b =>
    let b := { b with done := b.done + 4096, tries := 0 }
    if b.len ≤ b.done then bulkEnd s else blockSend (s.setDom { s.dom with bulk := some b }) b

/-- ACK (R480). -/
def execAck (f : Frame) (s : State) : Host.Outcome State Fault Refusal :=
  .next (domFrame s f 6 0x54 (samePay f) (ackTake f) (ackTake f))

/-- NAK: the block is resent; a NAK of UPD is firmware's to read. -/
def nakTake (f : Frame) (s : State) : State :=
  match bulkOf s f with
  | none => toFifo f 6 0x55 s
  | some b => blockAgain s b

/-- NAK (R480, R492). -/
def execNak (f : Frame) (s : State) : Host.Outcome State Fault Refusal :=
  .next (domFrame s f 6 0x55 (samePay f) (nakTake f) (nakTake f))

/-- BULK_RESEND_TIMEOUT (R480). -/
def execBulkResendTimeout (s : State) : Host.Outcome State Fault Refusal :=
  let s := s.setDom { s.dom with sent := [] }
  match s.dom.bulk with
  | none => .next s
  | some b => .next (blockAgain s b)

/-- USER (R470). -/
def execUser (f : Frame) (s : State) : Host.Outcome State Fault Refusal :=
  .next (domFrame s f 6 0x5F (samePay f) (toFifo f 6 0x5F) (toFifo f 6 0x5F))

/-! ## The safe-state broadcast (R481) -/

/-- One copy of SAFE on every up port. REASON is opaque: a free value. -/
def safeSend (s : State) (repeat_ : Nat) : State :=
  let (v, s) := s.takeFree
  domBroadcast s 1 0x01 fun _ => [BitVec.ofNat 8 v, BitVec.ofNat 8 repeat_]

/-- DOM_SAFE_WRITE (R481, R485): machine mode only, a manager only, GUARD 0x5AFE. -/
def execDomSafeWrite (priv : Priv) (data : Word) (s : State) : Host.Outcome State Fault Refusal :=
  if priv ≠ .m then .next (busError s)
  else if fieldOf data 16 16 ≠ 0x5AFE then .next ((corrected s).answer 0)
  else
    let s := s.setDom { s.dom with sent := [] }
    if !data.getLsbD 0 ∨ domWorker s then .next (s.answer 0)
    else .next (((safeSend s 0).setDom { (safeSend s 0).dom with safeLeft := 2 }).answer 0)

/-- SAFE_REPEAT (R481). -/
def execSafeRepeat (s : State) : Host.Outcome State Fault Refusal :=
  let s := s.setDom { s.dom with sent := [] }
  if s.dom.safeLeft = 0 then .next s
  else
    let k := 3 - s.dom.safeLeft
    .next (safeSend (s.setDom { s.dom with safeLeft := s.dom.safeLeft - 1 }) k)

/-! ## Firmware's frames (R483) -/

/-- DOM_TX_GO: the frame of CLASS 5 or 6 in DOM_TX0 to DOM_TX4 leaves on the port named; a worker that may send nothing sends
nothing (R471). -/
def execDomTxGo (data : Word) (s : State) : Host.Outcome State Fault Refusal :=
  let s := s.setDom { s.dom with sent := [] }
  let port := fieldOf data 0 5
  let s := s.wr Reg.domTxCtlPort port
  let b := (List.range 5).flatMap fun i => leBytes 4 (s.rd (Reg.domTxBytes.elem i))
  let ctrl := bodyNat b 0 1
  let cls := ctrl % 8
  if !data.getLsbD 31 ∨ (cls ≠ 5 ∧ cls ≠ 6) ∨ domState s = domAlone ∨ domState s = domDown then .next (s.answer 0)
  else .next ((domSend s { port, reverse := ctrl.testBit 3, cls, type := bodyNat b 1 1, hops := ctrl / 16 % 8, src := bodyNat b 2 2
                           dst := bodyNat b 4 2, payload := slice b 6 12 }).answer 0)

/-- DOM_RX_POP. -/
def execDomRxPop (data : Word) (s : State) : Host.Outcome State Fault Refusal :=
  if !data.getLsbD 31 then .next (s.answer 0)
  else .next ((rxShow (s.setDom { s.dom with rx := s.dom.rx.drop 1 })).answer 0)

end Sys2Proof.Machine
end

