-- ==== Sys2Proof/Machine/Uandonak.lean ====
section
/-!
DEFINITION. Uandonak, the ROM monitor (spec/18_update.md, R504): its task registers, its two transports, its commands. It runs in
RECOVERY alone.
-/

namespace Sys2Proof.Machine

/-- The state with the task registers replaced. -/
def State.setUan (s : State) (v : Uan) : State := s.setUpd { s.upd with uan := v }

/-- Uandonak runs. -/
def uanRuns (s : State) : Bool := s.opMode == modeRecovery

/-- Answers of a request (R504). -/
def uanOk : Nat := 0
def uanCrc : Nat := 1
def uanBusy : Nat := 2

/-- CRC-8 of a byte string (R103: x⁸ + x² + x + 1, initial value 0), bit 7 first. -/
def crc8 (bs : List Byte) : Nat :=
  (bs.foldl (fun (c : BitVec 8) b =>
    (List.range 8).foldl (fun (c : BitVec 8) _ => if c.getLsbD 7 then (c <<< 1) ^^^ 0x07#8 else c <<< 1) (c ^^^ b)) 0#8).toNat

/-- A task register written: STATUS of the answer. A write to CMD starts a command. -/
def taskWrite (s : State) (reg : Nat) (data : List Byte) : Nat × State :=
  let u := s.upd.uan
  if reg = 0 then
    if u.state = 1 then (uanBusy, s)
    else (uanOk, s.setUan { u with cmd := leValue data, state := 1, error := 0, result := none })
  else if 2 ≤ reg ∧ reg ≤ 5 then (uanOk, s.setUan { u with args := setNth u.args (reg - 2) (leValue data) })
  else if reg = 6 then
    (uanOk, if u.input.length + 4 ≤ 4096 then s.setUan { u with input := u.input ++ padBytes 4 data } else s)
  else (uanOk, s)

/-- A task register read. A read of DATA takes the next 4 bytes of the output buffer. -/
def taskRead (s : State) (reg : Nat) : Nat × State :=
  let u := s.upd.uan
  if reg = 1 then (u.state + 256 * (u.error % 256) + 65536 * (u.blocks % 65536), s)
  else if 2 ≤ reg ∧ reg ≤ 5 then (nth 0 u.args (reg - 2), s)
  else if reg = 6 then (bodyNat u.output 0 4, s.setUan { u with output := u.output.drop 4 })
  else if reg = 7 then (u.input.length, s)
  else if reg = 8 then (s.rd Reg.sysRomVerVer + 65536 * s.rd Reg.sysOpmodeCause, s)
  else if reg = 9 then ((s.rdWord Reg.updSlotState.addr).toNat / 65536 + (s.rdWord (Reg.updSlotState.elem 1).addr).toNat / 65536 * 65536, s)
  else (0, s)

/-- A request on either transport: OP 1 writes, OP 2 reads; STATUS and DATA of the answer. -/
def taskRequest (s : State) (op reg : Nat) (data : List Byte) : Nat × Nat × State :=
  if op = 1 then
    let (st, s) := taskWrite s reg data
    (st, leValue data, s)
  else
    let (v, s) := taskRead s reg
    (uanOk, v, s)

/-- SERVICE_PORT_REQUEST (R504): 0x7E, OP, REG, DATA, CRC-8; anything else that arrives gets no answer. -/
def execServicePortRequest (req : List Byte) (s : State) : Host.Outcome State Fault Refusal :=
  let op := bodyNat req 1 1
  let reg := bodyNat req 2 1
  if !uanRuns s ∨ req.length ≠ 8 ∨ bodyNat req 0 1 ≠ 0x7E ∨ (op ≠ 1 ∧ op ≠ 2) then .next s
  else
    let reply (s : State) (st v : Nat) : State :=
      let b : List Byte := [BitVec.ofNat 8 st, BitVec.ofNat 8 reg] ++ leBytes 4 v
      s.setUan { s.upd.uan with reply := [0x7E] ++ b ++ [BitVec.ofNat 8 (crc8 b)] }
    if crc8 (slice req 1 6) ≠ bodyNat req 7 1 then .next (reply s uanCrc 0)
    else
      let r := taskRequest s op reg (slice req 3 4)
      .next (reply r.2.2 r.1 r.2.1)

/-- TASK (R470, R504): in RECOVERY a TASK frame from position 0 to this device is Uandonak's, and the answer goes back; elsewhere the
frame goes to the receive FIFO. -/
def execTask (f : Frame) (s : State) : Host.Outcome State Fault Refusal :=
  .next (domFrame s f 6 0x56 (samePay f)
    (fun s =>
      let op := bodyNat f.payload 0 1
      if !uanRuns s ∨ isBcast f ∨ f.src % 256 ≠ 0 ∨ (op ≠ 1 ∧ op ≠ 2) then toFifo f 6 0x56 s
      else
        let reg := bodyNat f.payload 1 1
        let r := taskRequest s op reg (slice f.payload 4 4)
        domToManager r.2.2 6 0x56 ([BitVec.ofNat 8 op, BitVec.ofNat 8 reg, BitVec.ofNat 8 r.1, 0] ++ leBytes 4 r.2.1))
    (toFifo f 6 0x56))

/-! ## Commands -/

/-- The command that runs is `code`, and it has not run yet. -/
def uanPending (s : State) (code : Nat) : Bool := uanRuns s && s.upd.uan.state == 1 && s.upd.uan.cmd == code && s.upd.uan.result.isNone

/-- A command's outcome, which STATUS shows when it ends. -/
def uanGive (s : State) (ok : Bool) (error : Nat) : State := s.setUan { s.upd.uan with result := some (ok, error) }

/-- A command that fails for a reason whose code is not stated: a free one. -/
def uanFail (s : State) : State :=
  let (v, s) := s.takeFree
  uanGive s false (v % 256)

/-- An argument. -/
def uanArg (s : State) (i : Nat) : Nat := nth 0 s.upd.uan.args i

/-- Uandonak may open a slot (R490, R504). -/
def uanMayOpen (s : State) (k : Nat) : Bool :=
  decide (k < 2) && (stageRefuse s srcService).isNone
  && !(slotState s k == slotActive && (slotState s (1 - k) == slotEmpty || slotState s (1 - k) == slotFailed))

/-- Staging ends: the open slot is authenticated. -/
def uanClose (s : State) (k : Nat) : State :=
  let s := s.setUan { s.upd.uan with open_ := none }
  match slotAuth s k with
  | (true, s) => uanGive (stagePass s k srcService false) true 0
  | (false, s) => uanGive (stageFail s srcService) false (s.rd Reg.updStatusReject)

/-- UANDONAK_OPEN. -/
def execUandonakOpen (s : State) : Host.Outcome State Fault Refusal :=
  if !uanPending s 0x01 then .next s else
  let k := uanArg s 0
  if !uanMayOpen s k then .next (uanFail s)
  else
    let s := stageBegin s srcService k
    .next (uanGive (s.setUan { s.upd.uan with open_ := some k, blocks := 0 }) true 0)

/-- UANDONAK_BLOCK. -/
def execUandonakBlock (s : State) : Host.Outcome State Fault Refusal :=
  if !uanPending s 0x02 then .next s else
  let u := s.upd.uan
  match u.open_ with
  | none => .next (uanFail s)
  | some k =>
    if crc32c u.input ≠ uanArg s 1 ∨ 6144 ≤ uanArg s 0 then .next (uanFail s)
    else
      let s := norWrite s k (4096 * uanArg s 0) u.input
      .next (uanGive (s.setUan { s.upd.uan with input := [], blocks := u.blocks + 1 }) true 0)

/-- UANDONAK_CLOSE. -/
def execUandonakClose (s : State) : Host.Outcome State Fault Refusal :=
  if !uanPending s 0x03 then .next s else
  match s.upd.uan.open_ with
  | none => .next (uanFail s)
  | some k => .next (uanClose s k)

/-- UANDONAK_ARM. -/
def execUandonakArm (s : State) : Host.Outcome State Fault Refusal :=
  if !uanPending s 0x04 then .next s else
  let k := uanArg s 0
  if 2 ≤ k ∨ slotState s k ≠ slotValid then .next (uanFail s)
  else .next (uanGive ((pendPut s k pendArmed).wr Reg.updStatusLock srcService) true 0)

/-- UANDONAK_SVCKEY: OPEN, BLOCK and CLOSE from the set on the service key. -/
def execUandonakSvckey (key : List Byte) (s : State) : Host.Outcome State Fault Refusal :=
  if !uanPending s 0x05 then .next s else
  let k := uanArg s 0
  if !uanMayOpen s k ∨ key.isEmpty ∨ 0x1800000 < key.length then .next (uanFail s)
  else
    let s := norWrite (stageBegin s srcService k) k 0 key
    .next (uanClose (s.setUan { s.upd.uan with blocks := (key.length + 4095) / 4096 }) k)

/-- UANDONAK_KEYCMD. -/
def execUandonakKeycmd (s : State) : Host.Outcome State Fault Refusal :=
  if !uanPending s 0x06 then .next s else
  match keyApply s s.upd.uan.input with
  | (true, s) => .next (uanGive s true 0)
  | (false, s) => .next (uanFail s)

/-- UANDONAK_RECREAD. -/
def execUandonakRecread (s : State) : Host.Outcome State Fault Refusal :=
  if !uanPending s 0x07 then .next s
  else .next (uanGive (s.setUan { s.upd.uan with output := recordBytes s (uanArg s 0) }) true 0)

/-- UANDONAK_BAUD. -/
def execUandonakBaud (s : State) : Host.Outcome State Fault Refusal :=
  if !uanPending s 0x08 then .next s
  else if 2 ≤ uanArg s 0 then .next (uanFail s)
  else .next (uanGive (s.setUan { s.upd.uan with baud := uanArg s 0 }) true 0)

/-- UANDONAK_RESET. -/
def execUandonakReset (s : State) : Host.Outcome State Fault Refusal :=
  if !uanPending s 0x09 then .next s else .next (drstRequest (uanGive s true 0) 7)

/-- UANDONAK_CMD_DONE: STATUS shows OK or ERROR; a command that is not defined ends with ERROR. -/
def execUandonakCmdDone (s : State) : Host.Outcome State Fault Refusal :=
  let u := s.upd.uan
  if !uanRuns s ∨ u.state ≠ 1 then .next s else
  match u.result with
  | some (ok, error) =>
    .next (s.setUan { u with cmd := 0, result := none, state := if ok then 2 else 3, error })
  | none =>
    if 1 ≤ u.cmd ∧ u.cmd ≤ 9 then .next s
    else
      let (v, s) := s.takeFree
      .next (s.setUan { u with cmd := 0, state := 3, error := v % 256 })

end Sys2Proof.Machine
end

