-- ==== Sys2Proof/Machine/Loader.lean ====
section
/-!
DEFINITION. From B2 to B4 (spec/02_structure_image.md, R63 to R72; spec/18_update.md, R489, R491, R497, R498, R501, R502;
spec/05_boardwalk.md, R152, R153; spec/01_architecture.md, R33, R34): the choice of a set, the steps of the structure loader, the
effective roster, what the load writes into the units, the start of the cores, and the way into SERVICE.
-/

namespace Sys2Proof.Machine

/-! ## The start of B2 (R491, R495, R498, R501) -/

/-- The fuses read at B2 (R60, R503). -/
def fusesRead (s : State) : State :=
  let f := s.upd.blown
  let s := s.setUpd { s.upd with fuses := f }
  ((s.wr Reg.simSecFuseArb f.arb).wr Reg.simKeysProgrammed f.programmed).wr Reg.simKeysRevoked f.revoked

/-- Live settings restored from the NOR mirror where both copies fail (R501). -/
def mirrorRestore (s : State) : State :=
  if (liveCopy s).isSome ∨ s.upd.mirror.isEmpty then s else s.store live0 s.upd.mirror

/-- Where that fails too: the DEFAULTS member of the set, or an empty body, and a record. -/
def settingsDefault (s : State) (src : Nat) : State :=
  if (liveCopy s).isSome then s
  else record (liveWrite s (setMax s src) (memberOf s src 6)) srcUpd 1 1 []

/-- What B2 does before a set is chosen: a set left STAGING is EMPTY and its lock free; a schedule is over; after a run from the
service key the settings come back from SEALED; a trial that is not confirmed counts one boot, and fails at MAX_BOOTS. -/
def bootUpdate (s : State) (key : List Byte) : State :=
  let s := fusesRead s
  let s := s.setUpd { s.upd with key, begun := true, tried := [], source := none, onTrial := false }
  let s := if pendState s = pendStaging then lockFree (pendDrop s) else s
  let s := if pendState s = pendScheduled then s.wr Reg.updStatusPendState pendArmed else s
  let s := setShow (mirrorRestore s)
  let s := if s.upd.keyRun then
    (settingsRestore s).setUpd { (settingsRestore s).upd with keyRun := false } |>.clr Reg.updStatusTrial else s
  if updTrial s then
    let s := (s.bump Reg.updTrialBoots).wr Reg.updTrialElapsed 0
    if s.rd Reg.updTrialMaxBoots ≤ s.rd Reg.updTrialBoots then trialFail s else s
  else s

/-! ## The choice of a set (R497) -/

/-- The service key's manifest is authentic and has KEY_RUN set. -/
def keyRuns (s : State) : Bool :=
  let sig := srcBytes s 2 0x440 256
  !s.upd.key.isEmpty && (setFlags s 2).testBit 1 && manifestForm s 2 && keyAccepted s.upd.fuses (bodyNat sig 4 1) (sigKey sig 0)
  && (sigForm sig 0).all (fun e => e.1) && sigGood sig 0 (srcBytes s 2 0 0x440 ++ slice sig 0 0x80)

/-- What B2 loads next, and whether on trial: the service key, the set on trial, an armed set, the ACTIVE slot, a VALID one. -/
def bootChoice (s : State) : Option (Nat × Bool) :=
  let open_ (k : Nat) : Bool := !s.upd.tried.contains k
  if open_ 2 && keyRuns s then some (2, true)
  else match (trialSlot s).filter open_ with
    | some k => some (k, true)
    | none =>
      if updArmed s && open_ (pendSlot s) then some (pendSlot s, true)
      else match (activeSlot s).filter open_ with
        | some k => some (k, false)
        | none => ([0, 1].find? fun k => open_ k && slotState s k == slotValid).map fun k => (k, false)

/-- No set is left (R34, R62, R500). -/
def noSet (s : State) : State := recoveryEnter s (if s.upd.fellBack then 0x03 else 0x02)

/-- A source is rejected (R62, R497): a set on trial and any slot are FAILED, and the choice goes on. -/
def sourceReject (s : State) (src : Nat) : State :=
  let s := (s.wr Reg.simStatusState 6).set Reg.updIrqStatusRejected
  let s := if src < 2 ∧ slotState s src = slotTrial then trialLose s
    else if src < 2 then
      let s := setSlot s src slotFailed
      if pendSlot s = src ∧ pendState s ≠ pendEmpty then lockFree (pendPut s 3 pendEmpty) else s
    else s
  let s := s.setUpd { s.upd with tried := src :: s.upd.tried, source := none, onTrial := false }
  let s := s.setSim { s.sim with image := [] }
  if (bootChoice s).isSome then s else noSet s

/-- SIM_REJECT (R61, R71). -/
def simReject (s : State) (src : Nat) (e : ImageFail) : State :=
  let s := (s.wr Reg.simRejectErr e.err).wr Reg.simRejectErrSect e.sect
  let s := ((s.wr Reg.simRejectSlot src).bump Reg.simRejectCount).wr Reg.simRejectOffOffset e.off
  (s.wr Reg.updStatusReject 0x08).wr Reg.updStatusSimErr e.err

/-- The structure loader's result of a step. -/
def loaderCheck (s : State) (r : Option ImageFail) (go : State → State) : State :=
  match s.upd.source, r with
  | none, _ => s
  | some _, none => go s
  | some src, some e => sourceReject (simReject s src e) src

/-- The set has passed R489 and is loaded: settings are sealed on a trial boot; a VALID slot that takes an ACTIVE one's place is
ACTIVE; an interrupted fuse advance of an ACTIVE set is finished (R499); the loader reads the header (R63 steps 1 and 2). -/
def sourceTake (s : State) (src : Nat) (trial : Bool) : State :=
  let s := s.setUpd { s.upd with source := some src, onTrial := trial }
  let s := settingsDefault s src
  let s := if trial then settingsSeal s src
    else
      let s := (setSlot s src slotActive).wr Reg.updStatusActiveSlot src
      fuseAdvance s src
  let s := (s.wr Reg.simStatusState 1).setSim { s.sim with image := memberOf s src 2 }
  loaderCheck s (imageHeaderCheck s.sim.image s.gib) id

/-- SET_AUTH_DONE (R489, R497): the set chosen is authenticated, and the loader starts on it or the source is rejected. -/
def execSetAuthDone (key : List Byte) (s : State) : Host.Outcome State Fault Refusal :=
  if s.boot ≠ .b2 ∨ s.opMode ≠ modeBoot ∨ s.upd.source.isSome ∨ drstUnderWay s then .next s else
  let s := if s.upd.begun then s else bootUpdate s key
  if drstUnderWay s then .next s else
  match bootChoice s with
  | none => .next (noSet s)
  | some (src, trial) =>
    match setCheck s src with
    | none => .next (sourceTake s src trial)
    | some (code, sim) =>
      let s := match code, imageCheck (memberOf s src 2) s.gib s.upd.fuses with
        | 0x08, some e => simReject s src e
        | _, _ => (s.wr Reg.updStatusReject code).wr Reg.updStatusSimErr sim
      .next (sourceReject s src)

/-- A step of the loader in progress. -/
def loading (s : State) (state : Nat) : Bool :=
  s.boot == .b2 && s.opMode == modeBoot && s.upd.source.isSome && s.rd Reg.simStatusState == state && !drstUnderWay s

/-- IMAGE_STREAM_DONE (R63 steps 3 and 4): AUTH, with checks 0x07 to 0x09. -/
def execImageStreamDone (s : State) : Host.Outcome State Fault Refusal :=
  .next (if loading s 1 then
    loaderCheck (s.wr Reg.simStatusState 2) (imageAuthCheck s.sim.image s.upd.fuses) id else s)

/-- IMAGE_AUTH_DONE (R63 step 5): CHECK, with checks 0x0A to 0x10. -/
def execImageAuthDone (s : State) : Host.Outcome State Fault Refusal :=
  .next (if loading s 2 then
    loaderCheck (s.wr Reg.simStatusState 3) (imageBodyCheck s.sim.image s.gib) id else s)

/-! ## The effective roster (R67 to R70) -/

/-- The stored retire mask. -/
def retireMask (s : State) : Nat :=
  (List.range 4).foldl (fun m i => m + s.rd (Reg.simRetireMask.elem i) * 2 ^ (32 * i)) 0

/-- A mask with the bits of a list cleared. -/
def maskDrop (m : Nat) (l : List Nat) : Nat := l.foldl maskClear m

/-- The effective roster of a structure under a retire mask (R68). -/
def effRoster (c : Structure) (retired : Nat) : Nat :=
  let m := maskDrop c.roster (bitList 128 retired)
  let headsOn (n : Nat) : List Nat :=
    ((List.range c.heads.length).filter fun h => (nth ⟨2, 0, 0, 0, 0⟩ c.heads h).actuator == n).map bitHead
  let lame (n : Nat) : Bool :=
    !(m.testBit (bitBwk n) && m.testBit (bitSrv n) && m.testBit (bitAst n) && (headsOn n).any fun b => m.testBit b)
  let m := maskDrop m (([0, 1].filter lame).flatMap fun n => [bitBwk n, bitSrv n, bitAst n] ++ headsOn n)
  if c.portMode = 0 then maskClear m (bitPort 1) else m

/-- The effective roster is below the minimum (R69). -/
def belowMinimum (c : Structure) (m : Nat) : Bool :=
  let lane (p : Nat) : Bool := (List.range 4).any fun l => m.testBit (bitLane l) && (c.portMode == 0 || l / 2 == p)
  let actuator := c.role != 1
  !((List.range 4).any fun h => m.testBit (bitHart h))
  || !([0, 1].any fun p => m.testBit (bitPort p) && lane p)
  || (actuator && !(m.testBit bitSpn && m.testBit bitJnl && m.testBit bitOce && m.testBit bitCry
      && ([0, 1].any fun n => m.testBit (bitRdc n)) && ([0, 1].any fun n => m.testBit (bitFast n))
      && [0, 1].any fun n => m.testBit (bitSrv n)))
  || (c.role != 0 && !(m.testBit bitDom && (List.range 32).any fun p => m.testBit (bitLink p)))

/-- Both preamps at the surviving read channel, where the roster has one alone (R50). -/
def rewire (c : Structure) (m : Nat) : Structure × Bool :=
  match m.testBit (bitRdc 0), m.testBit (bitRdc 1) with
  | true, false => ({ c with rdcOfPa := ⟨0, 0⟩ }, true)
  | false, true => ({ c with rdcOfPa := ⟨1, 1⟩ }, true)
  | _, _ => (c, false)

/-! ## Control stores (R28, R54, R152, R153) -/

/-- The halt word (R149): all zero but for its branch. -/
def haltWord : BitVec 128 := 0x00E00000#128 <<< 96

/-- A word as the store holds it. -/
def csOf (w : BitVec 128) : CsWord := ⟨w, csParity w⟩

/-- The control store of an instance: the words of its microprogram, then the halt word. -/
def progStore (inst : Nat) (words : List (BitVec 128)) : Store CsWord :=
  ((words ++ List.replicate (8192 - words.length) haltWord).take 8192).zipIdx.filterMap fun e =>
    if csOf e.1 = csZero then none else some (csKey inst e.2, csOf e.1)

/-- The five stores of a structure, in instance order. -/
def allStores (c : Structure) : Store CsWord :=
  (List.range 5).flatMap fun i => match c.progs.find? fun p => p.inst == i with | some p => progStore i p.words | none => []

/-- Header fields and records of a Boardwalk patch (R152). -/
def patchEntries (b : List Byte) : List (Nat × Nat) :=
  (List.range (bodyNat b 0x0A 1)).map fun i => (bodyNat b (16 + 4 * i + 2) 1, bodyNat b (16 + 4 * i) 2)
def patchWords (b : List Byte) : List (Nat × BitVec 128) :=
  let at_ := 16 + 4 * bodyNat b 0x0A 1
  (List.range (bodyNat b 8 2)).map fun i => (bodyNat b (at_ + 20 * i) 2, BitVec.ofNat 128 (bodyNat b (at_ + 20 * i + 4) 16))

/-- A patch applies to an instance: its CRC, its BASE_VER, every address below 8,192 (R153). -/
def patchGood (c : Structure) (b : List Byte) (n : Nat) : Bool :=
  bodyNat b 0 4 == 0x50574251 && bodyNat b 0x0C 4 == crc32c (b.drop 16)
  && (c.progs.any fun p => p.inst == n && p.baseVer == bodyNat b 6 2)
  && (patchWords b).all (fun w => decide (w.1 < 8192)) && (patchEntries b).all fun e => decide (e.2 < 8192)

/-- An entry code added, or its address replaced. -/
def entryPut (l : List EntryPoint) (inst code addr : Nat) : List EntryPoint :=
  (l.filter fun e => !(e.inst == inst && e.code == code)) ++ [⟨inst, code, addr⟩]

/-- One patch on one instance. -/
def patchApply (s : State) (b : List Byte) (n : Nat) : State :=
  let level := bodyNat b 5 1
  if patchGood s.sim.cfg b n then
    let s := s.each (patchWords b) fun s w => csCommit s n w.1 w.2
    let entries := (patchEntries b).foldl (fun l e => entryPut l n e.1 e.2) s.sim.cfg.entries
    (s.setSim { s.sim with cfg := { s.sim.cfg with entries } }).wr (Reg.bwkUcodeVerPatch.elem n) level
  else
    record (s.set (Reg.bwkUcodeVerPatchSkipped.elem n)) (srcBwk n) 1 1 (leBytes 2 (bodyNat b 6 2) ++ [BitVec.ofNat 8 level])

/-- Every Boardwalk patch of the set on each of its targets that is in the roster. -/
def patchesApply (s : State) (src : Nat) : State :=
  s.each (membersOf s src 3) fun s m =>
    let b := memberBytes s src m
    s.each ([0, 1].filter fun n => (bodyNat b 4 1).testBit n && (s.sim.cfg.progs.any fun p => p.inst == n)) fun s n =>
      patchApply s b n

/-- The warden patch (R488): applied where ROM_VER matches, else skipped with a record. -/
def wardenPatch (s : State) (src : Nat) : State :=
  match membersOf s src 4 with
  | [] => s
  | m :: _ =>
    let b := memberBytes s src m
    if bodyNat b 6 2 = s.rd Reg.sysRomVerVer then
      (s.wr Reg.sysWardenPatchVerRomVer (bodyNat b 6 2)).wr Reg.sysWardenPatchVerPatchLevel (bodyNat b 4 1)
    else recordWarden (s.set Reg.sysWardenPatchVerSkipped) srcUpd 1 1 (leBytes 2 (bodyNat b 6 2))

/-! ## Registers and tables written by the load (R55, R66) -/

/-- The registers that LIMITS entries bound or seed (R56, R194, R219, R254, R412, R443). -/
def limitFields : List (Nat × List Fld) :=
  let two (f : Fld) : List Fld := [f, f.elem 1]
  [(0x0100, two Reg.srvFeLimitValue), (0x0101, two Reg.srvFeTimeValue), (0x0102, two Reg.srvFbCoastValue),
   (0x0103, two Reg.srvReacqTimeValue), (0x0104, two Reg.srvOntrackWriteLim), (0x0105, two Reg.srvFbIImax),
   (0x0106, [Reg.spnIlimMa]), (0x0107, [Reg.spnZcCoastValue]),
   (0x0200, two Reg.astHoldSamples), (0x0201, two Reg.astFreezeSamples),
   (0x0300, [Reg.ldpFastCtlIter]), (0x0301, [Reg.ldpDeepCtlIter]), (0x0302, [Reg.ldpDeepCtlMaxCaps]),
   (0x0303, two Reg.rdcSyncATol), (0x0304, two Reg.rdcSyncHdrTol),
   (0x0400, [Reg.ageHoldup0ParkMinMs]), (0x0403, [Reg.calCtlDt]),
   (0x0500, [Reg.thmThrWarn.elem 0]), (0x0501, [Reg.thmThrWarn.elem 1]), (0x0502, [Reg.thmThrWarn.elem 2]),
   (0x0503, [Reg.thmThrWarn.elem 3]), (0x0508, [Reg.thmThrThrot.elem 0]), (0x0509, [Reg.thmThrThrot.elem 1]),
   (0x050A, [Reg.thmThrThrot.elem 2]), (0x050B, [Reg.thmThrThrot.elem 3]),
   (0x0510, [Reg.thmSluiceGraceS]), (0x0511, [Reg.thmCapIops])]

/-- Every bounded register at its seed where LIMITS has one, and within its bounds. -/
def limitsApply (s : State) : State :=
  s.each limitFields fun s e => s.each e.2 fun s f =>
    let seed := (s.sim.cfg.limits.find? fun l => l.id == e.1 && !l.floor && !l.ceiling).map fun l => l.value
    s.wr f (limitValue s e.1 (seed.getD (s.rd f)))

/-- The words of an assist table body. -/
def tableWords (s : State) (n : Nat) : Store Word :=
  let g := (bodyOf s 0x0014 n).drop 32
  let o := (bodyOf s 0x0015 n).drop 16
  ((List.range 4352).map fun i => (i, if i < 4096 then bodyNat g (4 * i) 4 else bodyNat o (4 * (i - 4096)) 4)).filterMap fun e =>
    if BitVec.ofNat 32 e.2 = 0 then none else some (e.1, BitVec.ofNat 32 e.2)

/-- SIM's registers (R71). -/
def simShow (s : State) (src eff : Nat) : State :=
  let c := s.sim.cfg
  let s := ((s.wr Reg.simStatusSlot src).wr Reg.simImgVerImageVer c.imageVer).wr Reg.simSecSecVer c.secVer
  let s := (s.wr Reg.simKeysKeyId c.keyId).wr Reg.simRoleRole c.role
  s.each (List.range 4) fun s i =>
    (s.wr (Reg.simRosterMask.elem i) (c.roster / 2 ^ (32 * i))).wr (Reg.simEffMask.elem i) (eff / 2 ^ (32 * i))

/-- The registers whose Reset is I, unit by unit. -/
def imageRegs (s : State) : State :=
  let c := s.sim.cfg
  let low := lowestRung s
  let s := ((s.wr Reg.angRungTarget low).wr Reg.angRungCurrent low).wr Reg.angRungSchedRung low
  let s := s.setSpn { s.spn with rung := low }
  let s := s.each [0, 1] fun s n =>
    let base := match c.progs.find? fun p => p.inst == n with | some p => p.baseVer | none => 0
    let s := (s.wr (Reg.bwkUcodeVerBase.elem n) base).wr (Reg.bwkUcodeVerPatch.elem n) 0
    let s := s.wr (Reg.rdcStatusPa.elem n) (bit (c.rdcOfPa.get 0 == n) + 2 * bit (c.rdcOfPa.get 1 == n))
    let s := s.setAst n { s.ast.get n with table := tableWords s n }
    s.wr (Reg.astSetDataData.elem n) (Store.read 0 (s.ast.get n).table 0).toNat
  let s := s.wr Reg.spnIlimMa (spindleNat s 0x0C 2)
  let s := (s.wr Reg.ldpStatusFast0Present (bit (s.present (bitFast 0)))).wr Reg.ldpStatusFast1Present (bit (s.present (bitFast 1)))
  let s := s.wr Reg.ldpStatusDeepPresent (bit (s.present bitDeep))
  let s := ((s.wr Reg.ldpFastCtlIter 16).wr Reg.ldpDeepCtlIter 64).wr Reg.ldpDeepCtlMaxCaps 8
  let s := s.wr Reg.hstStatusLanesEff (((List.range 4).filter fun l => s.present (bitLane l)).foldl maskSet 0)
  let s := (s.wr Reg.hstQuotaDataSq (quotaOf s 0).1).wr Reg.hstQuotaDataCq (quotaOf s 0).2
  let s := (s.wr Reg.bcmStatusEvb (bit (s.gib == 8))).wr Reg.bcmStatusSets (bcmSets s)
  let d := bodyOf s 0x0020 0
  let s := s.wr Reg.domStatusRole c.role
  let s := (s.wr Reg.domNbrMask (if d.isEmpty then 0xFF else bodyNat d 0 1)).wr Reg.domNbrMinTracks
    (if d.isEmpty then 32 else bodyNat d 2 2)
  let s := s.wr Reg.domStaggerMs (if d.isEmpty then 500 else bodyNat d 4 2)
  limitsApply s

/-- Each BWK's entry points (R54, R153). -/
def entriesShow (s : State) : State :=
  s.each [0, 1] fun s n => s.setBwk n { s.bwk.get n with entries := s.sim.cfg.entries.filter fun e => e.inst == n }

/-- The structure takes force (R63 step 6): the effective roster, the control stores and their MRAM copies, the patches, the registers. -/
def imageApply (s : State) (src : Nat) : State :=
  let c := imageStructure s.sim.image
  let eff := effRoster c (retireMask s)
  let (c, rewired) := if c.role = 1 then (c, false) else rewire c eff
  let s := s.setSim { s.sim with cfg := c, slot := src }
  let s := s.wr Reg.simStatusRewired (bit rewired)
  let s := (simShow s src eff).wr Reg.simStatusMinFail (bit (belowMinimum c eff))
  let stores := allStores c
  let s := s.setCs { words := stores, mram := stores, partial_ := [] }
  let s := imageRegs s
  wardenPatch (entriesShow (patchesApply s src)) src

/-- IMAGE_CHECK_DONE (R63 step 6, R66 to R69). -/
def execImageCheckDone (s : State) : Host.Outcome State Fault Refusal :=
  match s.upd.source with
  | none => .next s
  | some src => .next (if loading s 3 then imageApply (s.wr Reg.simStatusState 4) src else s)

/-! ## B3 and B4 (R33, R34, R411, R440, R450, R498) -/

/-- The firmware in memory at its load address, where the control cores start (R42, R487); FW_REV. -/
def firmwareLoad (s : State) (src : Nat) : State :=
  match membersOf s src 1 with
  | [] => s
  | m :: _ =>
    let s := s.store m.load (memberBytes s src m)
    let s := (s.wr Reg.sysBootLoAddr (m.load % 2 ^ 32)).wr Reg.sysBootHiAddr (m.load / 2 ^ 32)
    (s.wr Reg.sysFwRevLoChars (srcNat s src 0x10 4)).wr Reg.sysFwRevHiChars (srcNat s src 0x14 4)

/-- A trial begins (R498); the pending set has been activated, and its lock is released (R491). A run from the service key is a
trial that cannot be confirmed. -/
def trialBegin (s : State) (src : Nat) : State :=
  if !s.upd.onTrial then s
  else if src = 2 then s.setUpd { s.upd with keyRun := true, fellBack := false }
  else if slotState s src = slotTrial then s
  else
    let s := lockFree (pendPut (setSlot s src slotTrial) 3 pendEmpty)
    let s := ((s.set Reg.updStatusTrial).wr Reg.updTrialBoots 0).wr Reg.updTrialElapsed 0
    let s := s.setUpd { s.upd with fellBack := false }
    updNotice (s.set Reg.updIrqStatusTrial) 6 s.upd.origin

/-- Entries of the settings record of namespace keys: NS, slot, six reserved bytes, the sealed key (notes/assumptions/19.md). -/
def keyEntries : Nat → List Byte → List (Nat × Nat × List Byte)
  | 0, _ => []
  | fuel + 1, b =>
    if b.length < 72 then [] else (bodyNat b 0 1, bodyNat b 1 1, slice b 8 64) :: keyEntries fuel (b.drop 72)

/-- KEY_SLOT of a namespace written: namespaces 1 to 4 in CRY_NS_KEY0, 5 to 8 in the bytes of CRY_NS_KEY1. -/
def nsKeySet (s : State) (ns slot : Nat) : State :=
  if ns = 1 then s.wr Reg.cryNsKey0Ns1 slot
  else if ns = 2 then s.wr Reg.cryNsKey0Ns2 slot
  else if ns = 3 then s.wr Reg.cryNsKey0Ns3 slot
  else if ns = 4 then s.wr Reg.cryNsKey0Ns4 slot
  else if ns ≤ 8 then
    let old := BitVec.ofNat 32 (s.rd Reg.cryNsKey1Ns8Ns5)
    s.wr Reg.cryNsKey1Ns8Ns5 (setField old (8 * (ns - 5)) 8 slot).toNat
  else s

/-- CRY's slots and namespaces from settings (R334, R336): a key that Format or Sanitize has put there since comes first. -/
def keysLoad (s : State) : State :=
  let l := match setRecord (liveBody s) 2 with | some b => keyEntries 8 b | none => []
  let s := s.each (l.filter fun e => decide (1 ≤ e.1) && decide (e.1 ≤ 8) && decide (e.2.1 < 64)) fun s e =>
    let own := Store.read [] s.upd.keys e.2.1
    keySet (nsKeySet s e.1 e.2.1) e.2.1 (if own.isEmpty then Config.unwrapKey e.2.2 else own) true
  s.each (s.upd.keys.filter fun e => !(l.any fun x => x.2.1 == e.1)) fun s e => keySet s e.1 e.2 true

/-- Overlays from settings, every effective value formed, triggers evaluated (R411). -/
def overlayEntries : Nat → List Byte → Store Int
  | 0, _ => []
  | fuel + 1, b =>
    if b.length < 8 then [] else Store.write 0 (overlayEntries fuel (b.drop 8)) (bodyNat b 0 2) (bodyInt b 4 4)
def overlaysLoad (s : State) : State :=
  let b := (setRecord (liveBody s) 1).getD []
  let s := s.setCal { s.cal with overlay := overlayEntries (b.length / 8) b }
  calTriggers (s.each (List.range 8) groupForm)

/-- A ledger record whose CRC fails is rebuilt from measurements, which are free values here, and recorded (R399). -/
def recRebuild (s : State) (a : Nat) (l : List (Nat × Nat × Nat)) : State :=
  if recOk s a 64 then s else
  let (v, s) := s.takeFree
  let s := s.store a (leBytes 62 v ++ [0, 0])
  record (recPut s a 64 l) srcAge 1 1 (leBytes 4 a)

/-- The ledger at DRST (R399, R404, R411): records checked, CEIL_AGE restored from the device record. -/
def ledgerLoad (s : State) : State :=
  let heads := (List.range s.sim.cfg.heads.length).filter fun h => s.present (bitHead h)
  let s := recRebuild s deviceRec []
  let s := s.each heads fun s h =>
    let s := s.each (List.range 8) fun s b => recRebuild s (headBandRec h b) [(0, 1, h), (1, 1, b)]
    s.each ((s.sim.cfg.regions.filter fun r => r.surface == headSurface s h).map fun r => r.region) fun s r =>
      recRebuild s (cellRec h r) []
  let c := min (recGet s deviceRec 0x12 1) (lowestRung s)
  (s.wr Reg.angRungCeilAge c).wr Reg.angRungCeiling (max c (s.rd Reg.angRungCeilThm))

/-- Saved features that show in registers (R265, R295, R438). -/
def featuresLoad (s : State) : State :=
  let v := Store.read 0 s.hst.device 0x10
  let s := (s.wr Reg.thmHctmTmt1 (bitsOf v 16 16)).wr Reg.thmHctmTmt2 (bitsOf v 0 16)
  s.wr Reg.jnlCtlTwin (Store.read 0 s.hst.device 0xC0 % 2)

/-- The domain at B3 (R463, R471, R485, R501): group and default position from settings, and a manager's state. -/
def domainLoad (s : State) : State :=
  let b := (setRecord (liveBody s) 3).getD []
  let s := s.wr Reg.domGroupGroup (bodyNat b 0 1)
  let s := if s.rd Reg.domStaggerLastPos = 0 then s.wr Reg.domStaggerLastPos (bodyNat b 1 1) else s
  if domWorker s then (if s.flag Reg.domPortStatusUp ∧ domState s = domDown then domEnter s domListen else s)
  else domEnter (s.set Reg.domStatusTimeValid) domManager

/-- After a thermal restart the warden records the trip (R440, R513). -/
def tripRecord (s : State) : State :=
  if s.flag Reg.rstCauseKind ∧ s.rd Reg.rstCauseSource = 5 then
    (recordWarden s srcThm 2 1 (leBytes 4 (s.rdWord Reg.thmTripLogCount.addr).toNat)).set Reg.thmIrqStatusTripRestart
  else s

/-- B3 (R33): the warden starts, loads what settings and MRAM hold, and releases the harts of the roster. -/
def b3Start (s : State) (src : Nat) : State :=
  let s := firmwareLoad ((s.setBoot .b3).wr Reg.simStatusState 5) src
  let s := featuresLoad (keysLoad (trialBegin s src))
  let s := ledgerLoad (overlaysLoad s)
  let s := tripRecord (domainLoad s)
  let s := if s.jnl.needReplay then s else intentsFree s
  let harts := ((List.range 4).filter fun h => s.present (bitHart h)).foldl maskSet 0
  (s.wr Reg.sysCoreRelRun harts).wr Reg.fltCoreHeld 0

/-- B4 begins (R33): spin-up to the lowest rung; a roster without an actuator goes to SERVICE. -/
def b4Start (s : State) (rpm : Nat) : State :=
  if s.actuators.isEmpty then serviceEnter (s.setBoot .done) 0x10
  else spnStart (s.setBoot .b4) (lowestRung s) rpm

/-- A host that Uandonak has displaced is told at SERVICE (R505). -/
def displacedTell (s : State) : State :=
  if s.upd.displaced ∧ s.opMode = modeService then updHostEvent (s.setUpd { s.upd with displaced := false }) else s

/-- IMAGE_APPLY_DONE (R33, R63 step 7, R69, R360): LOADED; with MIN_FAIL or a failed checker, a device-fatal fault; else B4. -/
def execImageApplyDone (rpm : Nat) (s : State) : Host.Outcome State Fault Refusal :=
  match s.upd.source with
  | none => .next s
  | some src =>
    if !loading s 4 then .next s else
    let s := b3Start s src
    if s.flag Reg.simStatusMinFail ∨ s.rd Reg.memStatusStFail ≠ 0 then
      .next (deviceFatal s srcWarden 0 0x0061 0 false)
    else .next (displacedTell (b4Start s rpm))

/-- B4_DONE (R33, R193, R505). -/
def execB4Done (s : State) : Host.Outcome State Fault Refusal := .next (displacedTell (b4Done s))

/-- SIM_RETIRE_ADD_WRITE (R72): machine mode and the warden only. A reserved roster bit is ignored, a wrong GUARD a corrected event. -/
def execSimRetireAddWrite (priv : Priv) (data : Word) (s : State) : Host.Outcome State Fault Refusal :=
  if priv ≠ .m then .next (busError s)
  else if fieldOf data 16 16 ≠ 0xB0C6 then .next ((corrected s).answer 0)
  else
    let i := fieldOf data 0 7
    if i = 22 ∨ i = 23 ∨ (28 ≤ i ∧ i < 32) ∨ 96 ≤ i then .next (s.answer 0)
    else .next ((retireWrite s i).answer 0)

end Sys2Proof.Machine
end

