-- ==== Sys2Proof/Machine/Access.lean ====
section
/-!
DEFINITION. Accesses from the bus: the address map (R25 to R28), register writes under their access codes (R12 to R15, R20),
levels (R20, R29, R30), the control stores (R28, R165), the HVB window (R423), and reads (R13, R30, the index registers).
-/

namespace Sys2Proof.Machine

/-! ## The address map (R25, R27) -/

/-- The range of the map that an address lies in: 0 boot ROM, 1 SRAM, 2 MRAM regions that are read only, 3 the MRAM firmware region,
4 unit windows, 5 control stores, 6 fitted DRAM. The read-only regions of MRAM are ranges of their own, told apart by their
first address. -/
def rangeOf (s : State) (a : Nat) : Option (Nat × Nat) :=
  if a < 0x20000 then some (0, 0)
  else if 0x08000000 ≤ a ∧ a < 0x09000000 then some (1, 0)
  else if 0x10000000 ≤ a ∧ a < 0x10400000 then some (2, 0)
  else if 0x10400000 ≤ a ∧ a < 0x10800000 then some (2, 1)
  else if 0x10800000 ≤ a ∧ a < 0x10A00000 then some (2, 2)
  else if 0x10A00000 ≤ a ∧ a < 0x10B00000 then some (2, 3)
  else if 0x10B00000 ≤ a ∧ a < 0x10D00000 then some (2, 4)
  else if 0x10D00000 ≤ a ∧ a < 0x11000000 then some (3, 0)
  else if 0x20000000 ≤ a ∧ a < 0x20200000 then some (4, 0)
  else if 0x40000000 ≤ a ∧ a < 0x40140000 then some (5, 0)
  else if 0x800000000 ≤ a ∧ a < 0x800000000 + s.dramBytes then some (6, 0)
  else none

/-- The range in which every byte of an access lies. -/
def accessRange (s : State) (a size : Nat) : Option Nat :=
  match rangeOf s a, rangeOf s (a + size - 1) with
  | some r, some t => if r = t then some r.1 else none
  | _, _ => none

/-- A unit of `State.gated` is gated: a window of the unit map, or a control store, is closed (R458). -/
def windowGated (s : State) (w : Nat) : Bool :=
  (3 ≤ w && w ≤ 11) && s.gated.contains (w - 3)

/-- The unit of `State.gated` that owns a control store: BWK0, BWK1, SRV0, SRV1, SPN. -/
def storeGated (s : State) (inst : Nat) : Bool := s.gated.contains inst

/-! ## Idle units (R20, R29, and the unit chapters) -/

/-- No published entry of a ring pair is without its result (R120). -/
def ringQuiet (s : State) (n : Nat) : Bool :=
  let r := s.ring n
  r.inProg.isEmpty && r.hold.isEmpty && (!s.flag (Reg.rngCtlEnable.elem n) || r.next == s.rd (Reg.rngReqProdIdx.elem n))

/-- BWKn (R120). -/
def bwkIdle (s : State) (n : Nat) : Bool :=
  let b := s.bwk.get n
  ringQuiet s n && b.cur.isNone && b.next.isNone && b.done.isEmpty

/-- A codeword, a sector being written or a job uses a key slot (R334). -/
def keyInUse (s : State) : Bool :=
  !s.ldp.words.isEmpty || [0, 1].any fun n => match (s.bwk.get n).out with | some o => o.key != 0xFF | none => false

/-- Whether the unit of a window is idle, as its chapter defines it; units without a MODE register are. -/
def unitIdle (s : State) (w : Nat) : Bool :=
  if w = 2 then s.rd Reg.angRungPhase == phaseIdle
  else if w = 3 ∨ w = 4 then bwkIdle s (w - 3)
  else if w = 5 ∨ w = 6 then
    let st := srvState s (w - 5)
    (st == srvParked || st == srvFollow || st == srvFailed) && (s.bwk.get (w - 5)).cur.isNone
  else if w = 7 then spnState s == spnStopped || spnState s == spnLocked || spnState s == spnFault
  else if w = 8 ∨ w = 9 then
    let a := s.ast.get (w - 8)
    astState s (w - 8) == astIdle && a.tablePend.isEmpty && a.ceilPend.isEmpty
  else if w = 10 ∨ w = 11 then
    let c := s.chan.get (w - 10)
    c.granted.isNone && c.profPend.isEmpty && c.eqPend.isEmpty && c.regPend.isEmpty
  else if w = 12 then s.ldp.words.isEmpty && s.ldp.deep.isNone
  else if w = 13 then s.oce.job.isNone && [0, 1].all fun n => match (s.bwk.get n).out with | some o => !o.accum | none => true
  else if w = 14 then
    !s.jnl.needReplay && s.jnl.extents.all (fun e => e.state != 2)
    && s.hst.cmds.all fun c => !(c.isWrite && c.direct && c.begun && !c.done)
  else if w = 15 then
    s.hst.cmds.isEmpty && s.rd Reg.hstAdmProdIdx == s.rd Reg.hstAdmConsIdx && s.hst.latches.all (·.isNone)
  else if w = 17 then s.bcm.ops.isEmpty && s.rd Reg.bcmStatusState != 2
  else if w = 18 then s.memc.tracker.all (fun t => !t.wb) && !s.flag Reg.memInjectArm
  else if w = 20 then s.cal.running.isEmpty && s.cal.staged.isEmpty
  else if w = 23 then s.rd Reg.thmStatusSluice == sluiceClear
  else if w = 25 then s.dom.bulk.isNone && !s.dom.asked && !s.dom.holding && s.dom.held.isEmpty
  else if w = 30 then s.pre.queue.isEmpty
  else if w = 31 then (s.ring 5).inProg.isEmpty && s.cry.job.isNone && s.cry.wait.isNone && !keyInUse s
  else true

/-! ## MODE registers (R20, R29) -/

/-- A window has a MODE register. -/
def hasMode (w : Nat) : Bool :=
  decide (w < 32) && ! [0, 1, 16, 19, 22, 24, 26, 27, 28, 29].contains w

/-- The fields of a window's MODE register. -/
def modeLevel (w : Nat) : Fld := ⟨0x20000000 + 65536 * w, 0, 1, 0, 1⟩
def modePend (w : Nat) : Fld := ⟨0x20000000 + 65536 * w, 1, 1, 0, 1⟩
def modeIgnored (w : Nat) : Fld := ⟨0x20000000 + 65536 * w, 16, 16, 0, 1⟩

/-- MODE_WRITE: EXPERT_WR_IGNORED is cleared by 0; LEVEL is taken while the unit is idle, else held; a later write replaces one held.
The level held is the opposite of the one in force: a held write of the level in force leaves nothing to hold. -/
def execModeWrite (unit : Nat) (data : Word) (s : State) : Host.Outcome State Fault Refusal :=
  if !hasMode unit then .next (s.answer 0)
  else if windowGated s unit then .next (busError s)
  else
    let s := if fieldOf data 16 16 = 0 then s.clr (modeIgnored unit) else s
    let v := fieldOf data 0 1
    .next ((if unitIdle s unit then (s.wr (modeLevel unit) v).clr (modePend unit)
      else s.wr (modePend unit) (bit (v != s.rd (modeLevel unit)))).answer 0)

/-- LEVEL_CHANGE_APPLY: the unit is idle, and a level held takes effect. -/
def execLevelChangeApply (unit : Nat) (s : State) : Host.Outcome State Fault Refusal :=
  if !hasMode unit ∨ !s.flag (modePend unit) ∨ !unitIdle s unit then .next s
  else .next ((s.wr (modeLevel unit) (1 - s.rd (modeLevel unit))).clr (modePend unit))

/-! ## Fields of a register -/

/-- The register rows of a window. -/
def windowRows (w : Nat) : List RegRow :=
  nth [] [sysRows, simRows, angRows, bwkRows, bwkRows, srvRows, srvRows, spnRows, astRows, astRows, rdcRows, rdcRows, ldpRows,
    oceRows, jnlRows, hstRows, rngRows, bcmRows, memRows, fltRows, calRows, ageRows, pwrRows, thmRows, rstRows, domRows, updRows,
    recRows, pmuRows, hvbRows, preRows, cryRows] w

/-- The element of a row that stands at an address. -/
def rowAt (a : Nat) (r : RegRow) : Option RegRow :=
  if a < r.fld.addr then none
  else if a = r.fld.addr then some { r with count := 1 }
  else if r.fld.stride ≠ 0 ∧ (a - r.fld.addr) % r.fld.stride = 0 ∧ (a - r.fld.addr) / r.fld.stride < r.count then
    some { r with fld := { r.fld with addr := a }, count := 1 }
  else none

/-- The fields of the register at an address. -/
def fieldsAt (a : Nat) : List RegRow := (windowRows ((a - 0x20000000) / 65536)).filterMap (rowAt a)

/-- The window of an address of the unit map. -/
def windowOf (a : Nat) : Nat := (a - 0x20000000) / 65536

/-- Two descriptors name the same bits. -/
def Fld.same (f g : Fld) : Bool := f.addr == g.addr && f.lo == g.lo

/-- Encodings of a field that are allowed, as inclusive bounds, for the fields that reserve some (R15, and the register tables). -/
def allowed : List (Fld × Nat × Nat × Nat) :=
  [(Reg.angCtlSrcSel, 1, 0, 2), (Reg.angCoastAcqMarks, 1, 1, 32),
   (Reg.srvFeTimeValue, 2, 1, 255), (Reg.srvFbFreezeValue, 2, 2, 255), (Reg.srvReacqMarks, 2, 1, 32),
   (Reg.srvLawBudget, 2, 64, 65535), (Reg.srvTapIdxIndex, 2, 0, 287),
   (Reg.spnIlimMa, 1, 0, 3000), (Reg.spnTolRevs, 1, 1, 255),
   (Reg.astFreezeSamples, 2, 2, 255), (Reg.astSetIdxWord, 2, 0, 4351),
   (Reg.preClkDiv, 1, 4, 255),
   (Reg.rdcSyncHdrTol, 2, 0, 4), (Reg.rdcSyncBTol, 2, 0, 4), (Reg.rdcSyncATol, 2, 0, 6), (Reg.rdcLlrScale, 2, 1, 255),
   (Reg.ldpFastCtlDeadline, 1, 1, 255), (Reg.ldpFastCtlIter, 1, 1, 64), (Reg.ldpDeepCtlMaxCaps, 1, 1, 8),
   (Reg.ldpDeepCtlIter, 1, 1, 255),
   (Reg.jnlRouteSmallMax, 1, 0, 64), (Reg.jnlWfRetries, 1, 1, 255),
   (Reg.hstWeightDataWeight, 1, 1, 255),
   (Reg.bcmRaLines, 1, 0, 64), (Reg.memRepeatLimitValue, 1, 1, 255), (Reg.memInjectKind, 1, 1, 3),
   (Reg.calCtlDt, 1, 0, 60), (Reg.ageCtlEvalH, 1, 1, 255),
   (Reg.pwrLossCfgCoreUs, 1, 200, 4000), (Reg.thmCapIops, 1, 64, 1048575),
   (Reg.domTokenPerPort, 1, 1, 255), (Reg.domTokenMax, 1, 1, 255), (Reg.domHealthMs, 1, 100, 65535),
   (Reg.updTrialMaxBoots, 1, 1, 15), (Reg.updTrialWinS, 1, 60, 86400),
   (Reg.recPostHdrSeverity, 1, 0, 4), (Reg.pmuEvselClass, 8, 0, 9)]

/-- Whether a value is a reserved encoding of a field. -/
def reservedEncoding (f : Fld) (v : Nat) : Bool :=
  if f.same Reg.hstAdmRingEntries then v != 0 && ! [16, 32, 64, 128, 256, 512, 1024].contains v
  else if (List.range 7).any (fun n => f.same (Reg.rngReqSizeEntries.elem n) || f.same (Reg.rngResSizeEntries.elem n)) then
    v != 0 && !ringSizeValid v
  else if f.same Reg.jnlIdxBaseAddr then v % 65536 != 0 || decide (v < 0x10D00000) || decide (0x11000000 ≤ v)
  else if f.same Reg.jnlIdxSizeBytes then decide (v < 0x20000) || decide (0x300000 < v)
  else allowed.any fun e => (List.range e.2.1).any (fun n => f.same (e.1.elem n)) && (decide (v < e.2.2.1) || decide (e.2.2.2 < v))

/-- The LIMITS entry that bounds a field, if there is one (R56). -/
def limitOf (f : Fld) : Option Nat := (limitFields.find? fun e => e.2.any (f.same ·)).map (·.1)

/-- The reset value of a field; where it comes from the image, the value of the load (R16, R254). -/
def resetField (s : State) (r : RegRow) : Nat :=
  let seed (id d : Nat) : Nat :=
    ((s.sim.cfg.limits.find? fun l => l.id == id && !l.floor && !l.ceiling).map (·.value)).getD d
  if r.fld.same Reg.ldpFastCtlIter then seed 0x0300 16
  else if r.fld.same Reg.ldpDeepCtlIter then seed 0x0301 64
  else if r.fld.same Reg.ldpDeepCtlMaxCaps then seed 0x0302 8
  else if r.fld.same Reg.spnIlimMa then seed 0x0106 (spindleNat s 0x0C 2)
  else r.reset.toNat

/-- A value as a field takes it, and whether it was changed on the way: a reserved encoding counts as the reset value (R15); RAMP_MS
and the thermal thresholds are held to their own bounds (R86, R432), and every field to its LIMITS entry (R56). -/
def takenValue (s : State) (r : RegRow) (v : Nat) : Nat × Bool :=
  let a := if reservedEncoding r.fld v then resetField s r else v
  let b := if r.fld.same Reg.angRampRampMs then min 3500 (max 500 a)
    else if (List.range 4).any (fun g => r.fld.same (Reg.thmThrWarn.elem g) || r.fld.same (Reg.thmThrThrot.elem g)) then
      min (resetField s r) a
    else a
  let c := match limitOf r.fld with | some id => limitValue s id b | none => b
  (c, c != v)

/-- Counters that a write of 0 clears and any other write leaves (R319, R383). -/
def zeroClears (f : Fld) : Bool := f.same Reg.fltIntMax || f.same Reg.hstTagHwmHwm

/-- One field under its access code (R14); the fields of a command word that start an action are the commands of their rows. -/
def writeField (s : State) (expert : Bool) (r : RegRow) (data : Word) : State :=
  let v := fieldOf data r.fld.lo r.fld.width
  match r.acc with
  | .rw => if zeroClears r.fld then (if v = 0 then s.clr r.fld else s) else s.wr r.fld (takenValue s r v).1
  | .xrw => if expert then s.wr r.fld (takenValue s r v).1 else s
  | .w1c => s.wr r.fld (s.rd r.fld &&& (s.rd r.fld ^^^ v))
  | .rwo => s
  | .w1s => s
  | .ro => s
  | .wo => s

/-- Whether a write takes a field's value. -/
def takesValue (expert : Bool) (r : RegRow) : Bool :=
  (r.acc == .rw && !zeroClears r.fld) || (r.acc == .xrw && expert)

/-- A whole register written: each field under its own code; one count in EXPERT_WR_IGNORED if an expert field would have changed at
basic level; one corrected event if a value was reserved or clamped. -/
def writeFields (s : State) (a : Nat) (data : Word) : State :=
  let rows := fieldsAt a
  let w := windowOf a
  let expert := hasMode w && s.flag (modeLevel w)
  let part (r : RegRow) : Nat := fieldOf data r.fld.lo r.fld.width
  let ignored := !expert && rows.any fun r => r.acc == .xrw && (takenValue s r (part r)).1 != s.rd r.fld
  let fixed := rows.any fun r => takesValue expert r && (takenValue s r (part r)).2
  let s := expertIgnored s (modeIgnored w) ignored
  let s := s.when fixed corrected
  s.each rows fun s r => writeField s expert r data

/-! ## Pairs (R13) -/

/-- The low halves of the register pairs, with how often each stands; the high half is 4 bytes on. -/
def pairLows : List (Fld × Nat) :=
  [(Reg.angAlarmRevLoRev, 1), (Reg.ldpSoftLoAddr, 2), (Reg.rngReqBaseLoAddr, 7), (Reg.rngResBaseLoAddr, 7), (Reg.memInjectLoAddr, 1),
   (Reg.domTimeSetLoUs, 1), (Reg.domHtblLoAddr, 1), (Reg.updSetAddrLoAddr, 1), (Reg.updWaveAtLoUs, 1), (Reg.pmuRangeBaseLoAddr, 2),
   (Reg.pmuRangeLimLoAddr, 2), (Reg.pmuCntLoCount, 8)]

/-- Whether a register is the low half of a pair. -/
def isPairLow (a : Nat) : Bool := pairLows.any fun e => (List.range e.2).any fun i => (e.1.elem i).addr == a

/-- Whether every field of a register is an expert field that basic level leaves alone. -/
def keptAtBasic (s : State) (a : Nat) : Bool :=
  let w := windowOf a
  !(hasMode w && s.flag (modeLevel w)) && (fieldsAt a).any fun r => r.acc == .xrw

/-- A write of a half: the low half waits for the high one of the same master. -/
def writePairLow (s : State) (m a : Nat) (data : Word) : State :=
  if keptAtBasic s a then writeFields s a data else stageHalf s m a (some data)

/-- The high half takes effect with the low half that this master wrote. -/
def writePairHigh (s : State) (m a : Nat) (data : Word) : State :=
  let s := match stagedHalf s m (a - 4) with
    | some w => stageHalf (writeFields s (a - 4) w) m (a - 4) none
    | none => s
  writeFields s a data

/-! ## Registers whose every write is a command of its own row -/

/-- Registers, and where they stand more than once how often, that have a row of the table for each write. -/
def ownRows : List (Fld × Nat) :=
  [(Reg.angRungTarget, 1), (Reg.angAlarmPosEn, 1), (Reg.srvTapDataTap, 2), (Reg.astTblDataWwCeil, 2), (Reg.astSetDataData, 2),
   (Reg.preSetupDataValid, 1), (Reg.rdcProfDataData, 2), (Reg.rdcEqDataCoef, 2), (Reg.rngCtlEnable, 7), (Reg.rngReqProdIdx, 7),
   (Reg.rngResConsIdx, 7), (Reg.bcmWaysOn, 1), (Reg.bcmCtlEn, 1), (Reg.hstAdmConsIdx, 1), (Reg.calQOverlayO, 1), (Reg.pmuCntHiCount, 8),
   (Reg.pmuCtlUserEn, 1), (Reg.fltWdogUs, 4), (Reg.simRetireAddGuard, 1), (Reg.rstDrstReqGuard, 1), (Reg.domSafeGuard, 1),
   (Reg.updConfirmGuard, 1), (Reg.domTimeSetHiUs, 1), (Reg.oceAccClrClr, 1), (Reg.hvbCtlRetract, 1)]

def hasOwnRow (a : Nat) : Bool :=
  (hasMode (windowOf a) && a % 65536 == 0) || ownRows.any fun e => (List.range e.2).any fun i => (e.1.elem i).addr == a

/-- What a write of a command register does that no row of the table covers: the codes that start nothing. `none`: the write is one
of a row, or the register is none of these. -/
def leftover (s : State) (a : Nat) (data : Word) : Option State :=
  let op := fieldOf data 0 3
  let go := data.getLsbD 31
  if a = Reg.angCmdOp.addr then
    some (if op = 0 ∨ 5 < op then expertIgnored s Reg.angModeExpertWrIgnored (!s.flag Reg.angModeLevel) else s)
  else if a = Reg.srvCmdOp.addr ∨ a = (Reg.srvCmdOp.elem 1).addr then some (if op = 0 ∨ 3 < op then corrected s else s)
  else if a = Reg.spnCmdOp.addr then some (if op = 0 ∨ 3 < op then corrected s else s)
  else if a = Reg.thmCmdOp.addr then
    let op := fieldOf data 0 2
    some (if op = 0 ∨ op = 3 then
      (if s.flag Reg.thmModeLevel then s.when (op == 3) corrected else expertIgnored s Reg.thmModeExpertWrIgnored true) else s)
  else if a = Reg.fltDeclareSub.addr then some s
  else match (List.range 4).find? fun k => (Reg.bcmOpCtlOp.elem k).addr == a with
    | some k =>
      if !go then none
      else
        let op := fieldOf data 24 4
        if (1 ≤ op ∧ op ≤ 8) ∨ s.flag (Reg.bcmOpResBusy.elem k) then some s
        else some (slotGo s k data fun s o => slotEnd s o.slot 5 0 0)
    | none =>
      if a = Reg.calCmdOp.addr ∧ go ∧ (fieldOf data 28 3 = 0 ∨ 3 < fieldOf data 28 3) then
        some ((writeFields s a data).wr Reg.calCmdResStatus 2)
      else none

/-! ## Registers with a rule of their own -/

/-- HST_QUOTA_DATA (R290): the function of HST_FUNC_IDX; refused for an enabled controller and beyond a pool. -/
def quotaWrite (s : State) (data : Word) : State :=
  let fn := s.rd Reg.hstFuncIdxFunc
  let sq := fieldOf data 0 15
  let cq := fieldOf data 16 15
  if !s.flag Reg.hstModeLevel then expertIgnored s Reg.hstModeExpertWrIgnored (decide ((sq, cq) ≠ quotaOf s fn))
  else
    let fns := (List.range (pfCount s)).flatMap fun p => (List.range (pfFunctions s)).map fun v => 128 * p + v
    let others := fns.filter (· != fn)
    let total (f : Nat × Nat → Nat) : Nat := others.foldl (fun n g => n + f (quotaOf s g)) 0
    if (ctrlOf s fn).isSome ∨ s.sim.cfg.sqPool < total (·.1) + sq ∨ s.sim.cfg.cqPool < total (·.2) + cq then corrected s
    else s.setHst { s.hst with quotas := Store.write none s.hst.quotas fn (some (BitVec.ofNat 32 (sq + 2 ^ 16 * cq))) }

/-- HST_WEIGHT_DATA (R292): the weight of the function of HST_FUNC_IDX; an unlisted function has weight 1, stored as 0. -/
def weightOf (s : State) (fn : Nat) : Nat := Store.read 0 s.hst.weights fn + 1

def weightWrite (s : State) (data : Word) : State :=
  let fn := s.rd Reg.hstFuncIdxFunc
  let v := fieldOf data 0 8
  let taken := if v = 0 then 1 else v
  if !s.flag Reg.hstModeLevel then expertIgnored s Reg.hstModeExpertWrIgnored (taken != weightOf s fn)
  else (s.setHst { s.hst with weights := Store.write 0 s.hst.weights fn (taken - 1) }).when (v == 0) corrected

/-- REC_POST registers stand apart for each bus master (R520). -/
def isRecPost (a : Nat) : Bool := decide (0x201B0020 ≤ a) && decide (a < 0x201B004C)

/-- Base and size registers of an enabled pair, or of one that drains, are fixed (R332). -/
def ringFixed (s : State) (a : Nat) : Bool :=
  (List.range 7).any fun n => ringLive s n && [Reg.rngReqBaseLoAddr, Reg.rngReqBaseHiAddr, Reg.rngResBaseLoAddr, Reg.rngResBaseHiAddr,
    Reg.rngReqSizeEntries, Reg.rngResSizeEntries].any fun f => (f.elem n).addr == a

/-- An extent of the journal index is in use (R276). -/
def indexInUse (s : State) : Bool := !s.jnl.extents.isEmpty

/-- A word written to a register of a unit window by bus master `m`. -/
def registerWord (s : State) (m a : Nat) (data : Word) : State :=
  match leftover s a data with
  | some s => s
  | none =>
    if hasOwnRow a then s
    else if a = Reg.hstQuotaDataSq.addr then quotaWrite s data
    else if a = Reg.hstWeightDataWeight.addr then weightWrite s data
    else if isRecPost a then
      let sev := if a = Reg.recPostHdrSeverity.addr ∧ reservedEncoding Reg.recPostHdrSeverity (fieldOf data 16 3) then setField data 16 3 0 else data
      let w := if a = Reg.recPostHdrSeverity.addr then sev &&& 0x7FFFF#32 else sev
      (s.when (sev != data) corrected).setRecorder
        { s.recorder with postRegs := Store.write 0 s.recorder.postRegs (m * 65536 + a % 65536) w }
    else if ringFixed s a then corrected s
    else if (a = Reg.jnlIdxBaseAddr.addr ∨ a = Reg.jnlIdxSizeBytes.addr) ∧ indexInUse s then corrected s
    else if a = Reg.angAlarmRevHiRev.addr then stageHalf s m a (some data)
    else if isPairLow a then writePairLow s m a data
    else if isPairLow (a - 4) then writePairHigh s m a data
    else if a = Reg.rngIrqEnEn.addr then writeFields s a (data &&& 0x7F7F7F7F#32)
    else if (windowOf a = 10 ∨ windowOf a = 11) ∧ s.flag (modeLevel (windowOf a)) ∧ (fieldsAt a).any (fun r => r.acc == .xrw) then
      let c := windowOf a - 10
      let word := (fieldsAt a).foldl (fun w r =>
        setField w r.fld.lo r.fld.width (takenValue s r (fieldOf data r.fld.lo r.fld.width)).1) (s.rdWord a)
      let fixed := (fieldsAt a).any fun r => (takenValue s r (fieldOf data r.fld.lo r.fld.width)).2
      let s := s.when fixed corrected
      let v := s.chan.get c
      (s.setChan c { v with regPend := Store.write none v.regPend a (some word) }).set (Reg.rdcStatusStaged.elem c)
    else if a = Reg.updWaveCtlEn.addr then
      if domWorker s then s
      else
        let s := writeFields s a data
        if data.getLsbD 31 then s else s.clr Reg.updWaveCtlState
    else writeFields s a data

/-- Whether the writer's privilege is refused at a register (R378, R446, R462, R481, R499, R517, R520, R72). -/
def privRefused (a : Nat) (priv : Priv) : Bool :=
  (windowOf a == 28 && priv == .u)
  || (priv != .m && (isRecPost a || a == 0x201B004C || a == Reg.hvbCtlRetract.addr || a == Reg.rstDrstReqGo.addr
      || a == Reg.domSafeGo.addr || a == Reg.updConfirmGo.addr || a == Reg.simRetireAddGuard.addr || a == Reg.fltDeclareSub.addr))

/-! ## Control stores (R28, R165) -/

/-- The unit window that owns a control store: BWK0, BWK1, SRV0, SRV1, SPN. -/
def storeUnit (inst : Nat) : Nat := inst + 3

/-- A part of a word, or a word of a CE data memory, written; a word commits with its highest part (R28). Offsets of the parity view
and reserved ones take no write. -/
def storePart (s : State) (inst off : Nat) (data : Word) : State :=
  if off < 0x20000 then
    let word := off / 16
    let part := off / 4 % 4
    let key (p : Nat) : Nat := csKey inst word * 4 + p
    let s := s.setCs { s.cs with partial_ := Store.write 0 s.cs.partial_ (key part) data }
    if part ≠ 3 then s
    else
      let p (i : Nat) : BitVec 128 := BitVec.ofNat 128 ((Store.read 0 s.cs.partial_ (key i)).toNat * 2 ^ (32 * i))
      csCommit s inst word (p 0 ||| p 1 ||| p 2 ||| p 3)
  else if 0x30000 ≤ off ∧ off < 0x34000 ∧ 2 ≤ inst then setCeMem s (inst - 2) (off / 4 % 4096) data
  else s

/-- A 32-bit store to a control-store window: ignored and counted at basic level, a bus error at expert level while the owner is busy. -/
def storeAccess (s : State) (inst off : Nat) (data : Word) : State :=
  let w := storeUnit inst
  if 5 ≤ inst ∨ off % 4 ≠ 0 ∨ 0x40000 ≤ off then busError s
  else if storeGated s inst then busError s
  else if !s.flag (modeLevel w) then (s.bump (modeIgnored w)).answer 0
  else if !unitIdle s w then busError s
  else (storePart s inst off data).answer 0

/-- CONTROL_STORE_WRITE (R28). -/
def execControlStoreWrite (store offset : Nat) (data : Word) (s : State) : Host.Outcome State Fault Refusal :=
  .next (storeAccess s store offset data)

/-! ## Memory (R26, R27, R276) -/

/-- Performance events of a store by a master (R515): a hart's stores, and the accesses of the arrays. -/
def storeEvents (s : State) (m : Nat) (priv : Priv) (a size : Nat) : State :=
  let mode := if m < 4 then (match priv with | .u => 0 | .s => 1 | .m => 2) else 3
  let lines := (a + size - 1) / 64 - a / 64 + 1
  let s := if m < 4 then pmuEventIn s mode 7 4 (some m) (some a) 1 else s
  match accessRange s a size with
  | some 1 => pmuEventIn s mode 6 3 (some m) (some a) 1
  | some 3 => pmuEventIn s mode 6 4 (some m) (some a) lines
  | some 6 => pmuEventIn s mode 6 2 (some m) (some a) lines
  | _ => s

/-- The journal index range, closed to control cores while JNL is enabled (R276). -/
def indexTouched (s : State) (a size : Nat) : Bool :=
  s.present bitJnl && overlaps a size (s.rd Reg.jnlIdxBaseAddr) (s.rd Reg.jnlIdxSizeBytes)

/-- A store to memory: boot ROM, the read-only MRAM regions, the journal index and DRAM that BCM reserves refuse it. -/
def memoryStore (s : State) (m : Nat) (priv : Priv) (a size data : Nat) : State :=
  let ok := match accessRange s a size with
    | some 1 => true
    | some 3 => !indexTouched s a size
    | some 6 => s.inFreeDram a size
    | _ => false
  if ok then ((storeEvents s m priv a size).store a (leBytes size data)).answer 0 else busError s

/-- REGISTER_WRITE (R12 to R15, R25): a store by bus master `m` in a privilege mode. -/
def execRegisterWrite (m : Nat) (priv : Priv) (addr size : Nat) (data : Nat) (s : State) : Host.Outcome State Fault Refusal :=
  .next (if size = 0 then s.answer 0 else
    match accessRange s addr size with
    | none => busError s
    | some 4 =>
      if size ≠ 4 ∨ addr % 4 ≠ 0 ∨ windowGated s (windowOf addr) ∨ privRefused addr priv then busError s
      else (registerWord s m addr (BitVec.ofNat 32 data)).answer 0
    | some 5 =>
      let inst := (addr - 0x40000000) / 0x40000
      let off := (addr - 0x40000000) % 0x40000
      if size = 4 then storeAccess s inst off (BitVec.ofNat 32 data)
      else if size = 8 ∧ off % 8 = 0 then
        storeAccess (storeAccess s inst off (BitVec.ofNat 32 data)) inst (off + 4) (BitVec.ofNat 32 (data / 2 ^ 32))
      else busError s
    | some _ => memoryStore s m priv addr size data)

/-! ## Reads -/

/-- What an index register shows through its data registers, and the IDLE bits, where they are views of other state. -/
def registerView (s : State) (m a : Nat) : Word :=
  let w := windowOf a
  let num (n : Nat) : Word := BitVec.ofNat 32 n
  let q := s.rd Reg.calQIdxQid
  let cal (x : Int) : Word := if qidValid s q then num (toBits 32 x) else 0
  let trk := s.memc.tracker[s.rd Reg.memTrkIdxIndex]?
  let cand := s.memc.cands[s.rd Reg.memCandIdxIndex]?
  if hasMode w && a % 65536 == 0 then setField (s.rdWord a) 8 1 (bit (unitIdle s w))
  else if isRecPost a then postReg s m (a % 65536)
  else if a = Reg.calQFactoryF.addr then cal (Store.read 0 s.cal.factory q)
  else if a = Reg.calQRunM.addr then cal (Store.read 0 s.cal.run q)
  else if a = Reg.calQOverlayO.addr then cal (Store.read 0 s.cal.overlay q)
  else if a = Reg.calQEffE.addr then cal (Store.read 0 s.cal.eff q)
  else if a = Reg.calQStatusValid.addr then
    if !qidValid s q then 0
    else num (2 ^ 31 + 2 ^ 30 * bit (Store.read false s.cal.runValid q) + 2 ^ 29 * bit (Store.read false s.cal.satAt q)
      + 2 ^ 28 * bit (Store.read false s.cal.clampAt q) + 2 ^ 27 * bit (Store.read none s.cal.staged q).isSome)
  else if a = Reg.rdcRegionClkBpt64.addr ∨ a = (Reg.rdcRegionClkBpt64.elem 1).addr then
    let e := s.rd (Reg.rdcRegionIdxEntry.elem (w - 10))
    num (bpt64 s.sim.cfg (e / 32) (e % 32))
  else if a = Reg.hstQuotaDataSq.addr then
    let v := quotaOf s (s.rd Reg.hstFuncIdxFunc)
    num (v.1 + 2 ^ 16 * v.2)
  else if a = Reg.hstWeightDataWeight.addr then num (weightOf s (s.rd Reg.hstFuncIdxFunc))
  else if a = Reg.memTrkData0Addr.addr then num (match trk with | some t => t.addr % 2 ^ 32 | none => 0)
  else if a = Reg.memTrkData1Valid.addr then
    num (match trk with
      | some t => 2 ^ 31 + 2 ^ 30 * bit t.wb + 2 ^ 28 * t.array + 2 ^ 20 * min 255 t.count + t.addr / 2 ^ 32
      | none => 0)
  else if a = Reg.memCandData0Addr.addr then num (match cand with | some c => c.addr % 2 ^ 32 | none => 0)
  else if a = Reg.memCandData1Valid.addr then
    num (match cand with
      | some c => 2 ^ 31 + 2 ^ 29 * c.state + 2 ^ 28 * c.array + c.addr / 2 ^ 32
      | none => 0)
  else if a = Reg.fltMcrDataData.addr then
    Store.read 0 s.flt.bank (8 * s.rd Reg.fltMcrIdxEntry + s.rd Reg.fltMcrWordWord)
  else if a = Reg.fltOwnerDataOwner.addr then
    num ((List.range 16).foldl (fun n k =>
      n + 4 ^ k * ((cmdOf s (16 * s.rd Reg.fltOwnerIdxWord + k)).elim 0 (·.owner))) 0)
  else if a = Reg.crySlotStatusLoaded.addr then
    let i := s.rd Reg.crySlotIdxSlot
    num (2 ^ 31 * bit (!(Store.read [] s.cry.keys i).isEmpty) + 2 ^ 30 * bit (s.cry.settings.contains i)
      + min (2 ^ 24 - 1) (Store.read 0 s.cry.uses i))
  else (fieldsAt a).foldl (fun x r => if r.acc == .wo then setField x r.fld.lo r.fld.width 0 else x) (s.rdWord a)

/-- A read of a register of a unit window: a low half latches its high half for the same master (R13), and the data registers of
the machine-check bank and the owner map step their word (R383). -/
def readRegister (s : State) (m a : Nat) : State :=
  let latch := Store.read none s.hiLatch (m * 2 ^ 40 + a)
  match latch with
  | some v => (s.setHiLatch (Store.write none s.hiLatch (m * 2 ^ 40 + a) none)).answer v.toNat
  | none =>
    let v := registerView s m a
    let s := if isPairLow a || [Reg.angRevLoRev, Reg.domTimeLoUs, Reg.pmuCycleLoCyc].any (fun f => f.addr == a) then
        s.setHiLatch (Store.write none s.hiLatch (m * 2 ^ 40 + a + 4) (some (registerView s m (a + 4))))
      else s
    let s := if a = Reg.fltMcrDataData.addr then s.wr Reg.fltMcrWordWord ((s.rd Reg.fltMcrWordWord + 1) % 8)
      else if a = Reg.fltOwnerDataOwner.addr then s.wr Reg.fltOwnerIdxWord ((s.rd Reg.fltOwnerIdxWord + 1) % 4096)
      else s
    s.answer v.toNat

/-! ## The HVB window (R423) -/

/-- HV_FAULT is asserted while a cause is set (R422). -/
def hvFaultLine (s : State) : State := s.wr Reg.hvbStatusHvFaultLine (bit (s.rd Reg.hvFaultCauseCause != 0))

/-- HVB_ACCESS: a register of the HV die across the dyke link; while the link is down, a bus error that ERRS counts. -/
def execHvbAccess (m : Nat) (priv : Priv) (write : Bool) (offset : Nat) (data : Word) (s : State) :
    Host.Outcome State Fault Refusal :=
  let a := 0x201D0000 + offset
  let mode := if m < 4 then (match priv with | .u => 0 | .s => 1 | .m => 2) else 3
  if offset % 4 ≠ 0 ∨ offset < 0x1000 ∨ 0x10000 ≤ offset then .next (busError s)
  else
    let s := pmuEventIn s mode 9 4 none none 1
    if !s.flag Reg.hvbStatusLinkUp then .next (busError (s.bump Reg.hvbStatusErrs))
    else if write then .next ((hvFaultLine (writeFields s a data)).answer 0)
    else .next (readRegister s m a)

end Sys2Proof.Machine
end

