-- ==== Sys2Proof/Machine/Logs.lean ====
section
/-!
DEFINITION. Log pages (spec/10_host_interface.md, R296; R409, R438, R512, the page C4h of spec/17, the page C5h of R502) and
the sideband management interface that the warden serves (R316, R317).
-/

namespace Sys2Proof.Machine

/-! ## Pages -/

/-- Status of an unsupported log page (NVMe, type 1, 09h). -/
def stInvalidLog : Nat := 0x109

/-- Vendor pages C0h to C5h, which only a PF reads. -/
def vendorPage (lid : Nat) : Bool := decide (0xC0 ≤ lid) && decide (lid ≤ 0xC5)

/-- Pages that a function reads (R296). -/
def pageSupported (fn lid : Nat) : Bool :=
  [0x01, 0x02, 0x03, 0x04, 0x05, 0x81, 0xBF].contains lid || (vendorPage lid && isPf fn)

/-- Page 01h: 64 entries, newest first. -/
def errorPage (s : State) : List Byte :=
  padBytes 4096 ((List.range s.hst.errors.length).flatMap fun i =>
    let e := nth ⟨0, 0, 0, 0, 0⟩ s.hst.errors i
    padBytes 64 (leBytes 8 (s.hst.errCount - i) ++ leBytes 2 e.sqid ++ leBytes 2 e.cid ++ leBytes 2 (2 * e.status) ++ [0, 0]
      ++ leBytes 8 e.lba ++ leBytes 4 e.ns))

/-- Fields of page 02h that the spec gives, over bytes it does not: the critical warning, the composite temperature, sensors 1
to 4, and the transitions and times of thermal management (R434, R438). -/
def smartPage (s : State) (base : List Byte) : List Byte :=
  let b := overlayAll base [(0, 1, criticalWarning s), (1, 2, s.rd Reg.thmCompositeKelvin),
    (216, 4, s.thm.counts.a0), (220, 4, s.thm.counts.a1),
    (224, 4, s.thm.times.a0 / 1000), (228, 4, s.thm.times.a1 / 1000)]
  overlayAll b ((List.range 4).filterMap fun g => (groupTemp s g).map fun t => (200 + 2 * g, 2, kelvinOf t))

/-- Page 03h (R493): the ACTIVE slot and the armed one as next, numbered from 1, and FW_REV of each slot that holds a valid set. -/
def slotPage (s : State) : List Byte :=
  let next := if pendState s = pendArmed then (if pendSlot s < 2 then pendSlot s + 1 else 0) else 0
  let rev (k : Nat) : List Byte :=
    if slotState s k = slotValid ∨ slotState s k = slotActive ∨ slotState s k = slotTrial then (srcBytes s k 0x10 8) else List.replicate 8 0
  padBytes 512 ([BitVec.ofNat 8 ((activeSlot s).elim 0 (· + 1) + 16 * next)] ++ List.replicate 7 0 ++ rev 0 ++ rev 1)

/-- Page BFh: zones of a namespace whose state has changed, by the LBA they begin at. -/
def zonesPage (s : State) (ns : Nat) : List Byte :=
  let l := s.hst.changed.filter fun e => e.1 == ns
  padBytes 4096 (leBytes 2 (min 511 l.length) ++ List.replicate 6 0
    ++ (l.take 511).flatMap fun e => leBytes 8 (e.2 * s.sim.cfg.zoneSectors))

/-- Page C3h (R409): the group blocks, then an entry for each valid QID in ascending order. -/
def calPage (s : State) : List Byte :=
  ((List.range 64).flatMap fun i => leBytes 4 (s.rdWord (Reg.calGrpStatFails.addr + 4 * i)).toNat)
  ++ ((List.range 8).flatMap fun g => (groupQids s g).flatMap fun q =>
    let num (x : Int) := leBytes 4 (toBits 32 x)
    leBytes 2 q
    ++ [BitVec.ofNat 8 (bit (Store.read false s.cal.runValid q) + 2 * bit (Store.read false s.cal.satAt q)
        + 4 * bit (Store.read false s.cal.clampAt q)), 0]
    ++ num (Store.read 0 s.cal.factory q) ++ num (Store.read 0 s.cal.run q) ++ num (Store.read 0 s.cal.overlay q)
    ++ num (Store.read 0 s.cal.eff q))

/-- Page C4h: the 256-byte block, then in manager roles the health table. -/
def domainPage (s : State) : List Byte :=
  let word (a : Nat) := leBytes 4 (s.rdWord a).toNat
  padBytes 256 (word Reg.domStatusState.addr
    ++ ((List.range 32).flatMap fun p => word (Reg.domPortStatusUp.addr + 8 * p))
    ++ ((List.range 32).flatMap fun p => word (Reg.domPortErrsCrc.addr + 8 * p)))
  ++ (if domWorker s then [] else s.bytes (htblBase s) (16 * 8192))

/-- Page C5h (R502): the QUARANTINE header and body. -/
def quarantinePage (s : State) : List Byte :=
  s.bytes quarantineAt (32 + min setMaxBody (blkLen s quarantineAt))

/-- Where a page lies in memory as it is returned. -/
def memoryPage (s : State) (a size off n : Nat) : List Byte := s.bytes (a + off) (min n (size - off))

/-- `n` bytes of a page from an offset; a page whose content the spec does not give reads as free bytes. -/
def pageBytes (s : State) (lid ns off n : Nat) : List Byte × State :=
  let cut (bs : List Byte) : List Byte := (bs.drop off).take n
  if lid = 0x01 then (cut (errorPage s), s)
  else if lid = 0x02 then
    let (b, s) := freeBytes s 512
    (cut (smartPage s b), s)
  else if lid = 0x03 then (cut (slotPage s), s)
  else if lid = 0xBF then (cut (zonesPage s ns), s)
  else if lid = 0xC0 then (recPage s off n, s)
  else if lid = 0xC1 then (memoryPage s ledgerBase 0x18000 off n, s)
  else if lid = 0xC2 then
    let queue := memoryPage s (proposalRec 0) 2048 off n
    (queue ++ memoryPage s (historyRec 0) 0x80000 (off - 2048) (n - queue.length), s)
  else if lid = 0xC3 then (cut (calPage s), s)
  else if lid = 0xC4 then (cut (domainPage s), s)
  else if lid = 0xC5 then (cut (quarantinePage s), s)
  else freeBytes s n

/-- What reading a page clears: the firmware event with page 03h (R493), the zones listed with page BFh (R302). -/
def pageRead (s : State) (lid ns : Nat) : State :=
  if lid = 0x03 then s.setUpd { s.upd with event := false }
  else if lid = 0xBF then s.setHst { s.hst with changed := s.hst.changed.filter fun e => e.1 != ns }
  else s

/-- Get Log Page (R296): LPO in multiples of 4 bytes, page 02h for NSID FFFFFFFFh, page BFh for a namespace of CSI 2. -/
def logPage (s : State) (fn lid ns off n : Nat) : State :=
  if !pageSupported fn lid then adminReply s fn stInvalidLog 0 []
  else if off % 4 ≠ 0 ∨ (lid = 0x02 ∧ ns ≠ 0xFFFFFFFF) ∨ (lid = 0xBF ∧ !nsZoned s ns) then adminReply s fn stInvalidField 0 []
  else
    let (b, s) := pageBytes s lid ns off n
    adminReply (pageRead s lid ns) fn 0 0 b

/-- GET_LOG_PAGE (R296). -/
def execGetLogPage (fn lid ns offset len : Nat) (s : State) : Host.Outcome State Fault Refusal :=
  .next (adminRun s fn true false fun _ => logPage s fn lid ns offset len)

/-! ## Sideband management (R316, R317) -/

/-- Response statuses of NVMe-MI. -/
def miSuccess : Nat := 0
def miInternalError : Nat := 2
def miInvalidOpcode : Nat := 3
def miInvalidParameter : Nat := 4

/-- The warden serves the interface from the end of B1 on (R39). -/
def miOpen (s : State) : Bool := s.boot != .por && s.boot != .b1

/-- The control cores run: from B3 on, not in RECOVERY, not in SAFE (R39). -/
def coresRun (s : State) : Bool := adminOpen s && s.opMode != modeSafe

/-- A response: its status and data. -/
def miReply (s : State) (status : Nat) (data : List Byte) : State :=
  s.setHst { s.hst with miStatus := status, reply := { s.hst.reply with data } }

/-- A command of the interface; `always`: served in RECOVERY as well. -/
def miRun (s : State) (always : Bool) (run : State → State) : State :=
  if !miOpen s then s
  else if s.opMode = modeRecovery ∧ !always then miReply s miInternalError []
  else run s

/-- MI_READ_DATA_STRUCTURE: the structures' contents are NVMe-MI's, their values not stated. -/
def execMiReadDataStructure (type : Nat) (s : State) : Host.Outcome State Fault Refusal :=
  .next (miRun s false fun s =>
    if 4 < type then miReply s miInvalidParameter []
    else
      let (b, s) := freeBytes s 32
      miReply s miSuccess b)

/-- The composite temperature in °C, as one signed byte. -/
def compositeByte (s : State) : Byte := BitVec.ofNat 8 (toBits 8 ((s.rd Reg.thmCompositeKelvin : Int) - 273))

/-- MI_SUBSYSTEM_HEALTH_POLL: 8 bytes: the status, the critical warning with its bits inverted, the composite temperature; the rest is
not stated. `clear` drops the composite controller status, which the model does not hold. -/
def execMiSubsystemHealthPoll (_clear : Bool) (s : State) : Host.Outcome State Fault Refusal :=
  .next (miRun s true fun s =>
    let (b, s) := freeBytes s 8
    miReply s miSuccess (overlay b 1 [BitVec.ofNat 8 (255 - criticalWarning s), compositeByte s]))

/-- MI_CONTROLLER_HEALTH_POLL: 16 bytes for each function from `first` on: controller ID, status, composite temperature,
wear and spare, critical warning; what the spec does not give is free. -/
def execMiControllerHealthPoll (first count : Nat) (s : State) : Host.Outcome State Fault Refusal :=
  .next (miRun s true fun s =>
    let fns := ((List.range count).map fun i => first + i).filter fun f => decide (f < 256)
    let (b, s) := freeBytes s (16 * fns.length)
    miReply s miSuccess (overlayAll b ((List.range fns.length).flatMap fun i =>
      [(16 * i, 2, nth 0 fns i + 1), (16 * i + 4, 2, s.rd Reg.thmCompositeKelvin), (16 * i + 8, 1, criticalWarning s)])))

/-- Configuration identifiers: SMBus/I2C Frequency, Health Status Change, MCTP Transmission Unit Size. -/
def miConfigKnown (id : Nat) : Bool := id == 1 || id == 2 || id == 3

/-- The value of a configuration: 100 kHz (1) or 400 kHz (2), the transmission unit in bytes. Health Status Change reads as 0. -/
def miConfig (s : State) (id : Nat) : Nat :=
  let v := Store.read 0 s.hst.mi id
  if v ≠ 0 then v else if id = 1 then 1 else if id = 3 then 64 else 0

/-- MI_CONFIG_GET. -/
def execMiConfigGet (id : Nat) (s : State) : Host.Outcome State Fault Refusal :=
  .next (miRun s false fun s =>
    if miConfigKnown id then miReply s miSuccess (leBytes 4 (miConfig s id)) else miReply s miInvalidParameter [])

/-- MI_CONFIG_SET: a frequency of 100 or 400 kHz, a unit of 64 to 250 bytes. -/
def execMiConfigSet (id value : Nat) (s : State) : Host.Outcome State Fault Refusal :=
  .next (miRun s false fun s =>
    let ok := (id == 1 && (value == 1 || value == 2)) || id == 2 || (id == 3 && decide (64 ≤ value) && decide (value ≤ 250))
    if ok then
      let s := s.setHst { s.hst with mi := if id = 2 then s.hst.mi else Store.write 0 s.hst.mi id value }
      miReply s miSuccess []
    else miReply s miInvalidParameter [])

/-- The controller that a tunnelled command names, enabled or not. -/
def miCtrl (s : State) (fn : Nat) : Ctrl :=
  (ctrlOf s fn).getD { fn, ams := 0, sqGrant := 0, cqGrant := 0, nsMask := nsMaskOf s fn, aers := [], events := [], aborts := 0
                       features := [] }

/-- MI_TUNNELED_ADMIN: Identify (06h), Get Features (0Ah) and Get Log Page (02h); pages 02h and C0h in every mode, the others only
while the control cores run. -/
def execMiTunneledAdmin (fn opc sel ns arg len : Nat) (s : State) : Host.Outcome State Fault Refusal :=
  let always := opc == 0x02 && (sel == 0x02 || sel == 0xC0)
  .next (miRun s true fun s =>
    if opc ≠ 0x02 ∧ opc ≠ 0x06 ∧ opc ≠ 0x0A then miReply s miInvalidOpcode []
    else if !always && !coresRun s then miReply s miInternalError []
    else
      let s := s.setHst { s.hst with miStatus := miSuccess }
      if opc = 0x02 then logPage s fn sel ns arg len
      else if opc = 0x06 then identify s (miCtrl s fn) sel ns arg
      else getFeatures s (miCtrl s fn) sel arg 0)

/-- MI_BASIC_MGMT_COMMAND (R316): answered at 0x6A on SMBus only; the status block carries the critical warning inverted and the
composite temperature, and what it carries beside is not stated. -/
def execMiBasicMgmtCommand (code : Nat) (s : State) : Host.Outcome State Fault Refusal :=
  if !miOpen s ∨ Store.read 0 s.hst.mi 0 ≠ 0 then .next s
  else
    let (b, s) := freeBytes s (if code = 0 then 8 else 24)
    .next (miReply s miSuccess
      (if code = 0 then overlay b 0 [6, b.getD 1 0, BitVec.ofNat 8 (255 - criticalWarning s), compositeByte s] else b))

end Sys2Proof.Machine
end

