-- ==== Sys2Proof/Machine/Microcode.lean ====
section
/-!
DEFINITION. The microword interpreter of the Boardwalk sequencers (spec/05_boardwalk.md, R144 to R151). The steps that a strobe
starts in another unit and that the table lists by themselves (a sector read or written, a seek, a settle watch, a calibration
window) are the commands of those rows; the interpreter carries out the rest (notes/assumptions/20.md).
-/

namespace Sys2Proof.Machine

/-! ## Fields (R144) -/

/-- Bits `lo` to `lo + width − 1` of a microword. -/
def mwField (w : BitVec 128) (lo width : Nat) : Nat := (w >>> lo).toNat % 2 ^ width

def mwCyc (w : BitVec 128) : Nat := mwField w 124 4
def mwWait (w : BitVec 128) : Nat := mwField w 120 4
def mwCond (w : BitVec 128) : Nat := mwField w 117 3
def mwNext (w : BitVec 128) : Nat := mwField w 104 13
def mwUsel (w : BitVec 128) : Nat := mwField w 99 5
def mwOsrc (w : BitVec 128) : Nat := mwField w 96 3
def mwStrobes (w : BitVec 128) : Nat := mwField w 80 16
def mwOperand (w : BitVec 128) : Nat := mwField w 16 64
def mwCnt1Op (w : BitVec 128) : Nat := mwField w 10 2
def mwCnt0Op (w : BitVec 128) : Nat := mwField w 8 2

/-- The strobe bits that each unit select defines (R148). -/
def mwStrobeBits (usel : Nat) : Nat :=
  if usel = 0 then 0
  else if usel = 1 ∨ usel = 2 ∨ usel = 3 ∨ usel = 7 ∨ usel = 9 ∨ usel = 10 then 3
  else if usel = 4 ∨ usel = 5 ∨ usel = 6 ∨ usel = 11 then 2
  else if usel = 8 then 4
  else 0

/-- A word with a reserved unit select, strobe bit or wait code. -/
def mwReserved (w : BitVec 128) : Bool :=
  decide (11 < mwUsel w) || decide (2 ^ mwStrobeBits (mwUsel w) ≤ mwStrobes w) || decide (6 < mwWait w)

/-! ## Operands, waits, counters (R144 to R147) -/

/-- The selected operand. -/
def mwSource (s : State) (n : Nat) (p : Plank) (w : BitVec 128) : Nat :=
  let b := s.bwk.get n
  match mwOsrc w with
  | 0 => mwOperand w
  | 1 => p.psa
  | 2 => p.count
  | 3 => p.param
  | 4 => psaSlot p.psa + b.sector
  | 5 => b.cnt0
  | 6 => b.cnt1
  | _ => p.head

/-- The angle that a span of OPERAND bits 20:0 ticks after the begin names. -/
def mwAngle (s : State) (n : Nat) (w : BitVec 128) : Nat := angleAdd s (s.bwk.get n).run.beginAt (mwOperand w % 2 ^ 21)

/-- The slot that the sequencer stands in: the one being written, or the next. -/
def mwSlot (s : State) (n : Nat) : Nat := if (s.bwk.get n).out.isSome then (s.bwk.get n).sector - 1 else (s.bwk.get n).sector

/-- Whether the wait of a word is satisfied at a full angle of the plank's frame. A unit's done is what the command stands for. -/
def mwWaited (s : State) (n : Nat) (p : Plank) (w : BitVec 128) (now : Nat) : Bool :=
  let start (i : Nat) : Nat := sectorStart s p (s.bwk.get n).run.beginAt i
  match mwWait w with
  | 2 => decide (start (mwSlot s n) ≤ now) && !inServoField (now % 2 ^ 21)
  | 3 => decide (start (mwSlot s n + 1) ≤ now)
  | 4 => !inServoField (now % 2 ^ 21)
  | 5 => decide (mwAngle s n w ≤ now)
  | _ => true

/-- A counter after its operation. -/
def mwCounter (op old operand count : Nat) : Nat :=
  match op with
  | 1 => operand % 2 ^ 16
  | 2 => count
  | 3 => old - 1
  | _ => old

/-- The address that COND chooses, from the updated counters; none where it ends the plank or halts. -/
def mwGoto (s : State) (n : Nat) (w : BitVec 128) (now : Nat) : Option Nat :=
  let b := s.bwk.get n
  let seq := (b.upc + 1) % 8192
  match mwCond w with
  | 0 => some seq
  | 1 => some (mwNext w)
  | 2 => some (if b.cnt0 ≠ 0 then mwNext w else seq)
  | 3 => some (if b.cnt1 ≠ 0 then mwNext w else seq)
  | 4 => some (if mwAngle s n w ≤ now then mwNext w else seq)
  | _ => none

/-! ## Strobes (R148) -/

/-- The strobes of a word that act by themselves: the slot generator where no sector row moves it, the interrupt, the write request
under R142, the assist ramp (R203, R208), head and mode select (R221). -/
def mwStrobe (s : State) (n : Nat) (p : Plank) (w : BitVec 128) (now : Nat) : State :=
  let on (i : Nat) : Bool := (mwStrobes w).testBit i
  match mwUsel w with
  | 1 =>
    let s := s.when (on 0 && !actsOnSectors p.action) fun s =>
      s.setBwk n { s.bwk.get n with sector := (s.bwk.get n).sector + 1 }
    s.when (on 2) fun s => s.set (Reg.bwkIrqStatusResult.elem n)
  | 3 =>
    let may := (p.action == actWrite || p.action == actProbe) && (s.bwk.get n).out.isSome && !inServoField (now % 2 ^ 21)
    s.when (on 0 && may) fun s => gateRefresh (s.set (Reg.bwkStatusWreq.elem n)) n
  | 8 =>
    let s := s.when (on 0 || on 1 || on 3) fun s => astRampStart s n
    s.when (on 2) fun s => astDownEvent s n
  | 9 =>
    let s := s.when (on 0) fun s => preStrobe s n p.head 0
    let s := s.when (on 1) fun s => preStrobe s n p.head 1
    s.when (on 2) fun s => preStrobe s n p.head 2
  | _ => s

/-! ## How a plank's program ends (R147, R149, R150, R151) -/

/-- The media work of a plank ends with a status: as its sector rows end it, where it writes. -/
def mwEnd (s : State) (n : Nat) (p : Plank) (status now : Nat) : State :=
  if p.action = actWrite ∨ p.action = actProbe then writeEnd s n p status now else plankEnd s n status now

/-- The sequencer halts: the plank ends HALT, the state is HALTED, a contained fault is recorded (R149). -/
def mwHalt (s : State) (n : Nat) (p : Plank) (now : Nat) : State :=
  let at_ := csAddress n (s.bwk.get n).upc
  let s := mwEnd s n p stHalt now
  contained ((setBwkState s n bwkHalted).set (Reg.bwkIrqStatusHalt.elem n)) (srcBwk n) n 0x0032 at_

/-- A parity error (R150, R151): the write request falls, the sector being written becomes the fault sector and the plank ends at the
boundary after it, or at once; the line is reloaded, or the instance is unit-fatal on a repeat or a bad copy. -/
def mwParity (s : State) (n : Nat) (p : Plank) (full addr : Nat) (copyBad : Bool) : State :=
  let b := s.bwk.get n
  let repeated := b.parityAt.contains addr || copyBad
  let at_ := csAddress n addr
  let s := s.setBwk n { b with
    run := { b.run with gateCause := b.run.gateCause ||| 8 ||| (if b.out.isSome then lowFlags s n else 0) }
    parityAt := if b.parityAt.contains addr then b.parityAt else addr :: b.parityAt
    reloadLine := addr }
  let s := (wreqLow s n).set (Reg.bwkIrqStatusParity.elem n)
  let s := if b.out.isSome then faultSector s n p full 0 stParity
    else mwEnd s n p stParity (frameAngle s p.head full)
  if repeated then unitFatal (setBwkState s n bwkHalted) (bitBwk n) (srcBwk n) n 0x0011 at_
  else contained (setBwkState s n bwkReload) (srcBwk n) n 0x0010 at_

/-- MICROWORD_EXECUTE (R145 to R151): the word at the sequencer's address is fetched and checked, waits, drives its strobes, updates the
counters and chooses the next address. -/
def execMicrowordExecute (n full : Nat) (upset : Option Upset) (s : State) : Host.Outcome State Fault Refusal :=
  let b := s.bwk.get n
  match b.cur with
  | none => .next s
  | some p =>
    if !b.run.begun ∨ bwkState s n ≠ bwkRun ∨ b.run.endWith ≠ none then .next s
    else
      let now := frameAngle s p.head full
      let w := s.csWord n b.upc
      let upsetHere : Option Bool := match upset with
        | some u => if u.addr = b.upc then some u.copyBad else none
        | none => none
      if w.parity ≠ csParity w.bits ∨ upsetHere ≠ none then .next (mwParity s n p full b.upc (upsetHere.getD false))
      else if mwReserved w.bits then .next (mwHalt s n p now)
      else if !mwWaited s n p w.bits now then .next s
      else
        let s := mwStrobe s n p w.bits now
        let b := s.bwk.get n
        let src := mwSource s n p w.bits
        let s := s.setBwk n { b with
          cnt0 := mwCounter (mwCnt0Op w.bits) b.cnt0 src p.count, cnt1 := mwCounter (mwCnt1Op w.bits) b.cnt1 src p.count }
        match mwGoto s n w.bits now with
        | some a => .next (s.setBwk n { s.bwk.get n with upc := a })
        | none => .next (if mwCond w.bits = 5 then mwEnd s n p stOk now else mwHalt s n p now)

/-- PARITY_RELOAD_DONE (R150): the line is rewritten from MRAM, and the sequencer goes on with the next plank. -/
def execParityReloadDone (n : Nat) (s : State) : Host.Outcome State Fault Refusal :=
  if bwkState s n ≠ bwkReload ∨ (s.bwk.get n).run.begun then .next s
  else
    let s := csReload s n (s.bwk.get n).reloadLine
    .next (setBwkState s n (if (s.bwk.get n).cur.isSome then bwkWait else bwkEmpty))

end Sys2Proof.Machine
end

