-- ==== Sys2Proof/Machine/Dispatch.lean ====
section
/-!
DEFINITION. The dispatch: one arm per command, each one direct call of that command's meaning.
-/

namespace Sys2Proof.Machine

/-- The effect of a command on everything but the queue. -/
def exec (i : Instr) (s : State) : Host.Outcome State Fault Refusal :=
  match i with
  | .registerWrite m priv addr size data => Sys2Proof.Machine.execRegisterWrite m priv addr size data s
  | .modeWrite unit data => Sys2Proof.Machine.execModeWrite unit data s
  | .levelChangeApply unit => Sys2Proof.Machine.execLevelChangeApply unit s
  | .controlStoreWrite store offset data => Sys2Proof.Machine.execControlStoreWrite store offset data s
  | .por hv => Sys2Proof.Machine.execPor hv s
  | .porRelease noSpare => Sys2Proof.Machine.execPorRelease noSpare s
  | .b1FillDone fails => Sys2Proof.Machine.execB1FillDone fails s
  | .setAuthDone key => Sys2Proof.Machine.execSetAuthDone key s
  | .imageStreamDone => Sys2Proof.Machine.execImageStreamDone s
  | .imageAuthDone => Sys2Proof.Machine.execImageAuthDone s
  | .imageCheckDone => Sys2Proof.Machine.execImageCheckDone s
  | .imageApplyDone rpm => Sys2Proof.Machine.execImageApplyDone rpm s
  | .b4Done => Sys2Proof.Machine.execB4Done s
  | .svcModeAssert => Sys2Proof.Machine.execSvcModeAssert s
  | .svcModeHoldExpiry => Sys2Proof.Machine.execSvcModeHoldExpiry s
  | .safeParkDone => Sys2Proof.Machine.execSafeParkDone s
  | .standbyUnitGate u => Sys2Proof.Machine.execStandbyUnitGate u s
  | .standbyWakeRestore => Sys2Proof.Machine.execStandbyWakeRestore s
  | .apstIdleExpiry idle => Sys2Proof.Machine.execApstIdleExpiry idle s
  | .simRetireAddWrite priv data => Sys2Proof.Machine.execSimRetireAddWrite priv data s
  | .spindleAbove300 commutating => Sys2Proof.Machine.execSpindleAbove300 commutating s
  | .spindleBelow300 => Sys2Proof.Machine.execSpindleBelow300 s
  | .goodWedgeMark act surface dev decoded => Sys2Proof.Machine.execGoodWedgeMark act surface dev decoded s
  | .missingWedgeMark act otherGood => Sys2Proof.Machine.execMissingWedgeMark act otherGood s
  | .coastWedgesExpiry => Sys2Proof.Machine.execCoastWedgesExpiry s
  | .revStore => Sys2Proof.Machine.execRevStore s
  | .xchkDetect src diff => Sys2Proof.Machine.execXchkDetect src diff s
  | .ceilingChange age rung => Sys2Proof.Machine.execCeilingChange age rung s
  | .rungTargetWrite data => Sys2Proof.Machine.execRungTargetWrite data s
  | .rungHeld => Sys2Proof.Machine.execRungHeld s
  | .schedRungSwitch => Sys2Proof.Machine.execSchedRungSwitch s
  | .rungRampEnd => Sys2Proof.Machine.execRungRampEnd s
  | .rungSettled => Sys2Proof.Machine.execRungSettled s
  | .rungRetuneDone => Sys2Proof.Machine.execRungRetuneDone s
  | .rungSettleTimeout => Sys2Proof.Machine.execRungSettleTimeout s
  | .returnSettleTimeout => Sys2Proof.Machine.execReturnSettleTimeout s
  | .angCmdHold => Sys2Proof.Machine.execAngCmdHold s
  | .angCmdRamp => Sys2Proof.Machine.execAngCmdRamp s
  | .angCmdRetune => Sys2Proof.Machine.execAngCmdRetune s
  | .angCmdRelease => Sys2Proof.Machine.execAngCmdRelease s
  | .angCmdAbort => Sys2Proof.Machine.execAngCmdAbort s
  | .opsecStore => Sys2Proof.Machine.execOpsecStore s
  | .snapshotTake full cycles => Sys2Proof.Machine.execSnapshotTake full cycles s
  | .alarmArm m data => Sys2Proof.Machine.execAlarmArm m data s
  | .alarmFire full => Sys2Proof.Machine.execAlarmFire full s
  | .plankFetch n full => Sys2Proof.Machine.execPlankFetch n full s
  | .plankSeek n full => Sys2Proof.Machine.execPlankSeek n full s
  | .plankSettle n full => Sys2Proof.Machine.execPlankSettle n full s
  | .plankRead n full => Sys2Proof.Machine.execPlankRead n full s
  | .plankWrite n full => Sys2Proof.Machine.execPlankWrite n full s
  | .plankPreheat n full => Sys2Proof.Machine.execPlankPreheat n full s
  | .plankProbe n full => Sys2Proof.Machine.execPlankProbe n full s
  | .plankCal n full => Sys2Proof.Machine.execPlankCal n full s
  | .plankMark n full => Sys2Proof.Machine.execPlankMark n full s
  | .markerPlank n full => Sys2Proof.Machine.execMarkerPlank n full s
  | .microwordExecute n full upset => Sys2Proof.Machine.execMicrowordExecute n full upset s
  | .parityReloadDone n => Sys2Proof.Machine.execParityReloadDone n s
  | .nolockTimeout n full => Sys2Proof.Machine.execNolockTimeout n full s
  | .writeGateFall n full bits => Sys2Proof.Machine.execWriteGateFall n full bits s
  | .bwkAbort n full => Sys2Proof.Machine.execBwkAbort n full s
  | .bwkResume n => Sys2Proof.Machine.execBwkResume n s
  | .servoSample n full smp => Sys2Proof.Machine.execServoSample n full smp s
  | .lawOverrun n => Sys2Proof.Machine.execLawOverrun n s
  | .coastExhausted n => Sys2Proof.Machine.execCoastExhausted n s
  | .feLimitFault n => Sys2Proof.Machine.execFeLimitFault n s
  | .settleRunMet n => Sys2Proof.Machine.execSettleRunMet n s
  | .settlePlankRun n full => Sys2Proof.Machine.execSettlePlankRun n full s
  | .settleTimeout n full => Sys2Proof.Machine.execSettleTimeout n full s
  | .reacquired n full => Sys2Proof.Machine.execReacquired n full s
  | .reacqTimeout n => Sys2Proof.Machine.execReacqTimeout n s
  | .seekArrival n full => Sys2Proof.Machine.execSeekArrival n full s
  | .seekTimeout n full => Sys2Proof.Machine.execSeekTimeout n full s
  | .seekVerrFault n full => Sys2Proof.Machine.execSeekVerrFault n full s
  | .srvCmdLoad n head track full => Sys2Proof.Machine.execSrvCmdLoad n head track full s
  | .srvCmdUnload n => Sys2Proof.Machine.execSrvCmdUnload n s
  | .srvCmdRetract n => Sys2Proof.Machine.execSrvCmdRetract n s
  | .unloadRampReached n => Sys2Proof.Machine.execUnloadRampReached n s
  | .retractDone n full => Sys2Proof.Machine.execRetractDone n full s
  | .setupReplay pa => Sys2Proof.Machine.execSetupReplay pa s
  | .tapDataAccess n write => Sys2Proof.Machine.execTapDataAccess n write s
  | .spnCmdStart rung rpm => Sys2Proof.Machine.execSpnCmdStart rung rpm s
  | .spnCmdStop => Sys2Proof.Machine.execSpnCmdStop s
  | .spnCmdClear rpm => Sys2Proof.Machine.execSpnCmdClear rpm s
  | .alignTimeExpiry => Sys2Proof.Machine.execAlignTimeExpiry s
  | .handoverReached => Sys2Proof.Machine.execHandoverReached s
  | .spinupTimeout => Sys2Proof.Machine.execSpinupTimeout s
  | .zeroCrossing rpm period upset => Sys2Proof.Machine.execZeroCrossing rpm period upset s
  | .zcWindowMiss => Sys2Proof.Machine.execZcWindowMiss s
  | .zcLost => Sys2Proof.Machine.execZcLost s
  | .offspeedSet => Sys2Proof.Machine.execOffspeedSet s
  | .speedBelowFlyMin rpm => Sys2Proof.Machine.execSpeedBelowFlyMin rpm s
  | .spindleBrakeDone rpm => Sys2Proof.Machine.execSpindleBrakeDone rpm s
  | .retractStart mask cause => Sys2Proof.Machine.execRetractStart mask cause s
  | .retractPhaseEnd n => Sys2Proof.Machine.execRetractPhaseEnd n s
  | .retractPhaseTimeout n => Sys2Proof.Machine.execRetractPhaseTimeout n s
  | .astSample n full word => Sys2Proof.Machine.execAstSample n full word s
  | .proxyLoss n full => Sys2Proof.Machine.execProxyLoss n full s
  | .astStagedApply n => Sys2Proof.Machine.execAstStagedApply n s
  | .astTblDataAccess n write => Sys2Proof.Machine.execAstTblDataAccess n write s
  | .astSetDataAccess n write => Sys2Proof.Machine.execAstSetDataAccess n write s
  | .preampFault pa full => Sys2Proof.Machine.execPreampFault pa full s
  | .preampFaultClear pa => Sys2Proof.Machine.execPreampFaultClear pa s
  | .preXferGo data => Sys2Proof.Machine.execPreXferGo data s
  | .preTransactionDone data => Sys2Proof.Machine.execPreTransactionDone data s
  | .preReadTimeout => Sys2Proof.Machine.execPreReadTimeout s
  | .preSetupDataAccess write => Sys2Proof.Machine.execPreSetupDataAccess write s
  | .readSector n full det => Sys2Proof.Machine.execReadSector n full det s
  | .writeSector n full => Sys2Proof.Machine.execWriteSector n full s
  | .fastDecodeDone k iter unsat block => Sys2Proof.Machine.execFastDecodeDone k iter unsat block s
  | .decodeDeadlineCut k iter unsat block => Sys2Proof.Machine.execDecodeDeadlineCut k iter unsat block s
  | .readResultWrite n => Sys2Proof.Machine.execReadResultWrite n s
  | .deep => Sys2Proof.Machine.execDeep s
  | .deepJobDone iter unsat block => Sys2Proof.Machine.execDeepJobDone iter unsat block s
  | .encode => Sys2Proof.Machine.execEncode s
  | .rebuild => Sys2Proof.Machine.execRebuild s
  | .oceJobDone => Sys2Proof.Machine.execOceJobDone s
  | .oceAccClrWrite data => Sys2Proof.Machine.execOceAccClrWrite data s
  | .oceAccClrApply => Sys2Proof.Machine.execOceAccClrApply s
  | .channelGrant c full => Sys2Proof.Machine.execChannelGrant c full s
  | .rdcStagedApply c => Sys2Proof.Machine.execRdcStagedApply c s
  | .rdcProfDataAccess c write => Sys2Proof.Machine.execRdcProfDataAccess c write s
  | .rdcEqDataAccess c write => Sys2Proof.Machine.execRdcEqDataAccess c write s
  | .channelLockLoss c bits inDet => Sys2Proof.Machine.execChannelLockLoss c bits inDet s
  | .channelRelock c => Sys2Proof.Machine.execChannelRelock c s
  | .channelRelockTimeout c => Sys2Proof.Machine.execChannelRelockTimeout c s
  | .route => Sys2Proof.Machine.execRoute s
  | .fold => Sys2Proof.Machine.execFold s
  | .release => Sys2Proof.Machine.execRelease s
  | .twinWaitExpiry tag => Sys2Proof.Machine.execTwinWaitExpiry tag s
  | .foldIdleStart => Sys2Proof.Machine.execFoldIdleStart s
  | .journalReplay reads => Sys2Proof.Machine.execJournalReplay reads s
  | .pcieLaneFail lane int => Sys2Proof.Machine.execPcieLaneFail lane int s
  | .sqTailDoorbell fn qid value => Sys2Proof.Machine.execSqTailDoorbell fn qid value s
  | .cqHeadDoorbell fn qid value => Sys2Proof.Machine.execCqHeadDoorbell fn qid value s
  | .commandFetch fn sqid tag hart sqe => Sys2Proof.Machine.execCommandFetch fn sqid tag hart sqe s
  | .commandBegin tag => Sys2Proof.Machine.execCommandBegin tag s
  | .completionPost lane tag => Sys2Proof.Machine.execCompletionPost lane tag s
  | .frontendRestart int again => Sys2Proof.Machine.execFrontendRestart int again s
  | .createIoSq fn qid base entries cq prio => Sys2Proof.Machine.execCreateIoSq fn qid base entries cq prio s
  | .createIoCq fn qid base entries vector ien => Sys2Proof.Machine.execCreateIoCq fn qid base entries vector ien s
  | .deleteIoSq fn qid => Sys2Proof.Machine.execDeleteIoSq fn qid s
  | .deleteIoCq fn qid => Sys2Proof.Machine.execDeleteIoCq fn qid s
  | .getLogPage fn lid ns offset len => Sys2Proof.Machine.execGetLogPage fn lid ns offset len s
  | .identify fn cns ns csi => Sys2Proof.Machine.execIdentify fn cns ns csi s
  | .abort fn cid sqid target => Sys2Proof.Machine.execAbort fn cid sqid target s
  | .setFeatures fn fid value save => Sys2Proof.Machine.execSetFeatures fn fid value save s
  | .setFeaturesPowerMgmt fn ps => Sys2Proof.Machine.execSetFeaturesPowerMgmt fn ps s
  | .setFeaturesApst fn enable table save => Sys2Proof.Machine.execSetFeaturesApst fn enable table save s
  | .setFeaturesHctm fn value save => Sys2Proof.Machine.execSetFeaturesHctm fn value save s
  | .setFeaturesTwin fn value save => Sys2Proof.Machine.execSetFeaturesTwin fn value save s
  | .setFeaturesIdleCadence fn value save => Sys2Proof.Machine.execSetFeaturesIdleCadence fn value save s
  | .setFeaturesNsMask fn value => Sys2Proof.Machine.execSetFeaturesNsMask fn value s
  | .getFeatures fn fid sel value => Sys2Proof.Machine.execGetFeatures fn fid sel value s
  | .asynchronousEventRequest fn cid => Sys2Proof.Machine.execAsynchronousEventRequest fn cid s
  | .firmwareImageDownload fn offset data => Sys2Proof.Machine.execFirmwareImageDownload fn offset data s
  | .firmwareCommitCa0 fn slot => Sys2Proof.Machine.execFirmwareCommitCa0 fn slot s
  | .firmwareCommitCa1 fn slot => Sys2Proof.Machine.execFirmwareCommitCa1 fn slot s
  | .firmwareCommitCa2 fn slot => Sys2Proof.Machine.execFirmwareCommitCa2 fn slot s
  | .formatNvm fn ns lbaf pi ses key => Sys2Proof.Machine.execFormatNvm fn ns lbaf pi ses key s
  | .sanitize fn action keys => Sys2Proof.Machine.execSanitize fn action keys s
  | .flush tag => Sys2Proof.Machine.execFlush tag s
  | .write tag ok data info => Sys2Proof.Machine.execWrite tag ok data info s
  | .read tag ok => Sys2Proof.Machine.execRead tag ok s
  | .writeZeroes tag => Sys2Proof.Machine.execWriteZeroes tag s
  | .zoneAppend tag ok data info => Sys2Proof.Machine.execZoneAppend tag ok data info s
  | .zoneClose tag => Sys2Proof.Machine.execZoneClose tag s
  | .zoneFinish tag => Sys2Proof.Machine.execZoneFinish tag s
  | .zoneOpen tag => Sys2Proof.Machine.execZoneOpen tag s
  | .zoneReset tag => Sys2Proof.Machine.execZoneReset tag s
  | .zoneOffline tag => Sys2Proof.Machine.execZoneOffline tag s
  | .setZoneDescExt tag => Sys2Proof.Machine.execSetZoneDescExt tag s
  | .reportZones tag => Sys2Proof.Machine.execReportZones tag s
  | .extendedReportZones tag => Sys2Proof.Machine.execExtendedReportZones tag s
  | .adminInboxConsume data => Sys2Proof.Machine.execAdminInboxConsume data s
  | .adminCompletionGo data => Sys2Proof.Machine.execAdminCompletionGo data s
  | .idleCadenceStep step => Sys2Proof.Machine.execIdleCadenceStep step s
  | .miReadDataStructure type => Sys2Proof.Machine.execMiReadDataStructure type s
  | .miSubsystemHealthPoll clear => Sys2Proof.Machine.execMiSubsystemHealthPoll clear s
  | .miControllerHealthPoll first count => Sys2Proof.Machine.execMiControllerHealthPoll first count s
  | .miConfigGet id => Sys2Proof.Machine.execMiConfigGet id s
  | .miConfigSet id value => Sys2Proof.Machine.execMiConfigSet id value s
  | .miTunneledAdmin fn opc sel ns arg len => Sys2Proof.Machine.execMiTunneledAdmin fn opc sel ns arg len s
  | .miBasicMgmtCommand code => Sys2Proof.Machine.execMiBasicMgmtCommand code s
  | .ringReqProdWrite n data => Sys2Proof.Machine.execRingReqProdWrite n data s
  | .ringResConsWrite n data => Sys2Proof.Machine.execRingResConsWrite n data s
  | .ringEnable n => Sys2Proof.Machine.execRingEnable n s
  | .ringDisable n => Sys2Proof.Machine.execRingDisable n s
  | .ringDrainDone n => Sys2Proof.Machine.execRingDrainDone n s
  | .ringEntryAdmit n => Sys2Proof.Machine.execRingEntryAdmit n s
  | .heldResultWrite n => Sys2Proof.Machine.execHeldResultWrite n s
  | .encrypt => Sys2Proof.Machine.execEncrypt s
  | .decrypt => Sys2Proof.Machine.execDecrypt s
  | .hash => Sys2Proof.Machine.execHash s
  | .keyLoad => Sys2Proof.Machine.execKeyLoad s
  | .keyClear => Sys2Proof.Machine.execKeyClear s
  | .keyOpApply => Sys2Proof.Machine.execKeyOpApply s
  | .cryEntryDone => Sys2Proof.Machine.execCryEntryDone s
  | .nop => Sys2Proof.Machine.execNop s
  | .keycmd => Sys2Proof.Machine.execKeycmd s
  | .lookup slot data => Sys2Proof.Machine.execLookup slot data s
  | .alloc slot data => Sys2Proof.Machine.execAlloc slot data s
  | .fillOk slot data => Sys2Proof.Machine.execFillOk slot data s
  | .fillFail slot data => Sys2Proof.Machine.execFillFail slot data s
  | .clean slot data => Sys2Proof.Machine.execClean slot data s
  | .invalidate slot data => Sys2Proof.Machine.execInvalidate slot data s
  | .pin slot data => Sys2Proof.Machine.execPin slot data s
  | .unpin slot data => Sys2Proof.Machine.execUnpin slot data s
  | .bcmReqPop => Sys2Proof.Machine.execBcmReqPop s
  | .bcmWaysWrite data => Sys2Proof.Machine.execBcmWaysWrite data s
  | .wayGated w => Sys2Proof.Machine.execWayGated w s
  | .bcmEnWrite data => Sys2Proof.Machine.execBcmEnWrite data s
  | .bcmDrainDone => Sys2Proof.Machine.execBcmDrainDone s
  | .memCorrectedRead m addr position => Sys2Proof.Machine.execMemCorrectedRead m addr position s
  | .memUncorrectableRead m addr => Sys2Proof.Machine.execMemUncorrectableRead m addr s
  | .trackerWriteback k => Sys2Proof.Machine.execTrackerWriteback k s
  | .scrubStep array flaw => Sys2Proof.Machine.execScrubStep array flaw s
  | .memInjectArm data => Sys2Proof.Machine.execMemInjectArm data s
  | .hartWatchdogExpiry h int => Sys2Proof.Machine.execHartWatchdogExpiry h int s
  | .coreFault h int => Sys2Proof.Machine.execCoreFault h int s
  | .coreRejoin h => Sys2Proof.Machine.execCoreRejoin h s
  | .fltCoreOnline h data => Sys2Proof.Machine.execFltCoreOnline h data s
  | .fltWdogKick m n data => Sys2Proof.Machine.execFltWdogKick m n data s
  | .fltDeclareContained m priv data => Sys2Proof.Machine.execFltDeclareContained m priv data s
  | .fltDeclareDeviceFatal m priv data => Sys2Proof.Machine.execFltDeclareDeviceFatal m priv data s
  | .fltDeclareHart m priv data int => Sys2Proof.Machine.execFltDeclareHart m priv data int s
  | .wardenWatchdogExpiry => Sys2Proof.Machine.execWardenWatchdogExpiry s
  | .lockstepMismatch => Sys2Proof.Machine.execLockstepMismatch s
  | .wardenRestartDone => Sys2Proof.Machine.execWardenRestartDone s
  | .run group inst => Sys2Proof.Machine.execRun group inst s
  | .save => Sys2Proof.Machine.execSave s
  | .factory group => Sys2Proof.Machine.execFactory group s
  | .calInternalRunEnd group values check => Sys2Proof.Machine.execCalInternalRunEnd group values check s
  | .calWindowClose n full values check => Sys2Proof.Machine.execCalWindowClose n full values check s
  | .calOverlayWrite data => Sys2Proof.Machine.execCalOverlayWrite data s
  | .calOverlayApply group => Sys2Proof.Machine.execCalOverlayApply group s
  | .ageEvalTimer delay readers => Sys2Proof.Machine.execAgeEvalTimer delay readers s
  | .eval delay readers => Sys2Proof.Machine.execEval delay readers s
  | .apply entry => Sys2Proof.Machine.execApply entry s
  | .discard entry => Sys2Proof.Machine.execDiscard entry s
  | .powerLossDetect vm vl => Sys2Proof.Machine.execPowerLossDetect vm vl s
  | .lossSectorBoundary => Sys2Proof.Machine.execLossSectorBoundary s
  | .lossCoreHold => Sys2Proof.Machine.execLossCoreHold s
  | .lastGaspRecord vhold => Sys2Proof.Machine.execLastGaspRecord vhold s
  | .vholdBelowVmin vhold => Sys2Proof.Machine.execVholdBelowVmin vhold s
  | .supplyReturn vm vl => Sys2Proof.Machine.execSupplyReturn vm vl s
  | .holdupTestDone rise step vhold => Sys2Proof.Machine.execHoldupTestDone rise step vhold s
  | .holdupReadyTimeout => Sys2Proof.Machine.execHoldupReadyTimeout s
  | .vmArrival vm => Sys2Proof.Machine.execVmArrival vm s
  | .dykeLinkDown => Sys2Proof.Machine.execDykeLinkDown s
  | .dykeLinkRetrained => Sys2Proof.Machine.execDykeLinkRetrained s
  | .dykeSilenceRetract => Sys2Proof.Machine.execDykeSilenceRetract s
  | .heartbeatLoss => Sys2Proof.Machine.execHeartbeatLoss s
  | .hvFaultAssert cause => Sys2Proof.Machine.execHvFaultAssert cause s
  | .hvbAccess m priv write offset data => Sys2Proof.Machine.execHvbAccess m priv write offset data s
  | .hvbCtlRetract priv data => Sys2Proof.Machine.execHvbCtlRetract priv data s
  | .thmSample ms temps => Sys2Proof.Machine.execThmSample ms temps s
  | .riseClearExpiry g => Sys2Proof.Machine.execRiseClearExpiry g s
  | .sluiceGraceExpiry => Sys2Proof.Machine.execSluiceGraceExpiry s
  | .sluiceStepExpiry => Sys2Proof.Machine.execSluiceStepExpiry s
  | .sluiceReleaseExpiry => Sys2Proof.Machine.execSluiceReleaseExpiry s
  | .step => Sys2Proof.Machine.execStep s
  | .thmCmdRelease => Sys2Proof.Machine.execThmCmdRelease s
  | .thermalTrip k reading => Sys2Proof.Machine.execThermalTrip k reading s
  | .tripLogicHold => Sys2Proof.Machine.execTripLogicHold s
  | .thermalRestart readings => Sys2Proof.Machine.execThermalRestart readings s
  | .resetNLow us => Sys2Proof.Machine.execResetNLow us s
  | .rstDrstReqWrite priv data => Sys2Proof.Machine.execRstDrstReqWrite priv data s
  | .nvmSubsystemReset fn value => Sys2Proof.Machine.execNvmSubsystemReset fn value s
  | .drstWriteStop => Sys2Proof.Machine.execDrstWriteStop s
  | .drstHold => Sys2Proof.Machine.execDrstHold s
  | .drstRelease noSpare => Sys2Proof.Machine.execDrstRelease noSpare s
  | .perstNAssert => Sys2Proof.Machine.execPerstNAssert s
  | .perstNDeassert => Sys2Proof.Machine.execPerstNDeassert s
  | .hotReset port => Sys2Proof.Machine.execHotReset port s
  | .flr fn => Sys2Proof.Machine.execFlr fn s
  | .ccEnClear fn => Sys2Proof.Machine.execCcEnClear fn s
  | .ccEnSet fn ams sqBase sqSize cqBase cqSize => Sys2Proof.Machine.execCcEnSet fn ams sqBase sqSize cqBase cqSize s
  | .safe f => Sys2Proof.Machine.execSafe f s
  | .notice f now => Sys2Proof.Machine.execNotice f now s
  | .sync f ns resid => Sys2Proof.Machine.execSync f ns resid s
  | .enum f => Sys2Proof.Machine.execEnum f s
  | .tokenReq f => Sys2Proof.Machine.execTokenReq f s
  | .tokenGrant f => Sys2Proof.Machine.execTokenGrant f s
  | .tokenReturn f => Sys2Proof.Machine.execTokenReturn f s
  | .tokenQueued f => Sys2Proof.Machine.execTokenQueued f s
  | .activate f => Sys2Proof.Machine.execActivate f s
  | .reset f => Sys2Proof.Machine.execReset f s
  | .health f => Sys2Proof.Machine.execHealth f s
  | .pull f => Sys2Proof.Machine.execPull f s
  | .data f => Sys2Proof.Machine.execData f s
  | .blockEnd f => Sys2Proof.Machine.execBlockEnd f s
  | .ack f => Sys2Proof.Machine.execAck f s
  | .nak f => Sys2Proof.Machine.execNak f s
  | .task f => Sys2Proof.Machine.execTask f s
  | .user f => Sys2Proof.Machine.execUser f s
  | .wxLaneUp port => Sys2Proof.Machine.execWxLaneUp port s
  | .wxLaneDown port n => Sys2Proof.Machine.execWxLaneDown port n s
  | .listenTimeout => Sys2Proof.Machine.execListenTimeout s
  | .syncMissing => Sys2Proof.Machine.execSyncMissing s
  | .orphanTimeout => Sys2Proof.Machine.execOrphanTimeout s
  | .enumSend => Sys2Proof.Machine.execEnumSend s
  | .syncSend now => Sys2Proof.Machine.execSyncSend now s
  | .domTimeSetWrite m data => Sys2Proof.Machine.execDomTimeSetWrite m data s
  | .tokenReqRepeat => Sys2Proof.Machine.execTokenReqRepeat s
  | .tokenFallback => Sys2Proof.Machine.execTokenFallback s
  | .staggerExpiry => Sys2Proof.Machine.execStaggerExpiry s
  | .tokenReclaim id => Sys2Proof.Machine.execTokenReclaim id s
  | .healthSend => Sys2Proof.Machine.execHealthSend s
  | .bulkResendTimeout => Sys2Proof.Machine.execBulkResendTimeout s
  | .domSafeWrite priv data => Sys2Proof.Machine.execDomSafeWrite priv data s
  | .safeRepeat => Sys2Proof.Machine.execSafeRepeat s
  | .domTxGo data => Sys2Proof.Machine.execDomTxGo data s
  | .domRxPop data => Sys2Proof.Machine.execDomRxPop data s
  | .updStageAuthDone => Sys2Proof.Machine.execUpdStageAuthDone s
  | .lockIdleExpiry => Sys2Proof.Machine.execLockIdleExpiry s
  | .activateAtReached => Sys2Proof.Machine.execActivateAtReached s
  | .waveAtReached => Sys2Proof.Machine.execWaveAtReached s
  | .waveTimeout => Sys2Proof.Machine.execWaveTimeout s
  | .updConfirmWrite priv data => Sys2Proof.Machine.execUpdConfirmWrite priv data s
  | .trialWindowExpiry => Sys2Proof.Machine.execTrialWindowExpiry s
  | .updSetCmd data => Sys2Proof.Machine.execUpdSetCmd data s
  | .settingsMirrorDone => Sys2Proof.Machine.execSettingsMirrorDone s
  | .servicePortRequest req => Sys2Proof.Machine.execServicePortRequest req s
  | .uandonakOpen => Sys2Proof.Machine.execUandonakOpen s
  | .uandonakBlock => Sys2Proof.Machine.execUandonakBlock s
  | .uandonakClose => Sys2Proof.Machine.execUandonakClose s
  | .uandonakArm => Sys2Proof.Machine.execUandonakArm s
  | .uandonakSvckey key => Sys2Proof.Machine.execUandonakSvckey key s
  | .uandonakKeycmd => Sys2Proof.Machine.execUandonakKeycmd s
  | .uandonakRecread => Sys2Proof.Machine.execUandonakRecread s
  | .uandonakBaud => Sys2Proof.Machine.execUandonakBaud s
  | .uandonakReset => Sys2Proof.Machine.execUandonakReset s
  | .uandonakCmdDone => Sys2Proof.Machine.execUandonakCmdDone s
  | .recordPost source severity code payload warden => Sys2Proof.Machine.execRecordPost source severity code payload warden s
  | .recPostGo m priv data => Sys2Proof.Machine.execRecPostGo m priv data s
  | .recordWrite => Sys2Proof.Machine.execRecordWrite s
  | .counterWrap k => Sys2Proof.Machine.execCounterWrap k s
  | .clrAll priv data => Sys2Proof.Machine.execClrAll priv data s
  | .pmuCounterWrite m k priv data => Sys2Proof.Machine.execPmuCounterWrite m k priv data s
  | .fastDecoderCheckFail d => Sys2Proof.Machine.execFastDecoderCheckFail d s
  | .pcieLinkUp port width speed => Sys2Proof.Machine.execPcieLinkUp port width speed s
  | .aggregationTimeExpiry fn vector => Sys2Proof.Machine.execAggregationTimeExpiry fn vector s
  | .railOutOfRange rail => Sys2Proof.Machine.execRailOutOfRange rail s

end Sys2Proof.Machine
end

