-- ==== Sys2Proof/Machine/Idle.lean ====
section
/-!
DEFINITION. What the block does while no command waits: one fabric cycle passes (PMU_CYCLE, R514), a mode change whose conditions
now hold goes on (R34, R193), and queued calibration runs start (R392). DESIGN CHOICE (notes/assumptions/5.md).
-/

namespace Sys2Proof.Machine

/-- The cycle counter of PMU advances by one; it is 64 bits wide and wraps. -/
def cycleAdvance (s : State) : State :=
  s.wrPair Reg.pmuCycleLoCyc Reg.pmuCycleHiCyc ((s.rdPair Reg.pmuCycleLoCyc Reg.pmuCycleHiCyc + 1) % 2 ^ 64)

/-- A step on an empty queue. -/
def tick (s : State) : State := calPump (modeAdvance (cycleAdvance s))

end Sys2Proof.Machine
end

