-- ==== Sys2Proof/Safety.lean ====
section
/-!
DEFINITION. What a command leaves unchanged, in the terms that the statements use: the parts of the state beside the register
file, a footprint (the register fields and the parts that may change), and the relation between the state before and after.
-/

namespace Sys2Proof.Machine

/-- The parts of the state beside the register file and the queue. -/
inductive Part where
  | mem | poison | loHalf | hiLatch | resp | free | boot | recorder | flt | rst | ang | sim | cs | rings | bwk | srv
  | ce | spn | ast | pre | cal | age | chan | ldp | oce | cry | bcm | memc | hst | jnl | change | gated | shadow | pwr
  | thm | dom | upd
  deriving DecidableEq, Repr

/-- A part holds in `t` what it holds in `s`. -/
def Part.same (s t : State) : Part → Prop
  | .mem => t.mem = s.mem
  | .poison => t.poison = s.poison
  | .loHalf => t.loHalf = s.loHalf
  | .hiLatch => t.hiLatch = s.hiLatch
  | .resp => t.resp = s.resp
  | .free => t.free = s.free
  | .boot => t.boot = s.boot
  | .recorder => t.recorder = s.recorder
  | .flt => t.flt = s.flt
  | .rst => t.rst = s.rst
  | .ang => t.ang = s.ang
  | .sim => t.sim = s.sim
  | .cs => t.cs = s.cs
  | .rings => t.rings = s.rings
  | .bwk => t.bwk = s.bwk
  | .srv => t.srv = s.srv
  | .ce => t.ce = s.ce
  | .spn => t.spn = s.spn
  | .ast => t.ast = s.ast
  | .pre => t.pre = s.pre
  | .cal => t.cal = s.cal
  | .age => t.age = s.age
  | .chan => t.chan = s.chan
  | .ldp => t.ldp = s.ldp
  | .oce => t.oce = s.oce
  | .cry => t.cry = s.cry
  | .bcm => t.bcm = s.bcm
  | .memc => t.memc = s.memc
  | .hst => t.hst = s.hst
  | .jnl => t.jnl = s.jnl
  | .change => t.change = s.change
  | .gated => t.gated = s.gated
  | .shadow => t.shadow = s.shadow
  | .pwr => t.pwr = s.pwr
  | .thm => t.thm = s.thm
  | .dom => t.dom = s.dom
  | .upd => t.upd = s.upd

/-- Memory in canonical form: addresses strictly rising, no listed byte equal to what an unlisted address reads as. -/
def Memory.wf (m : List Host.Cell) : Bool := Store.wf 0 m

/-- Bit `i` of the register word at `a` belongs to an instance of the field. -/
def Fld.covers (f : Fld) (a i : Nat) : Prop :=
  ∃ k, k < f.count ∧ a = f.addr + k * f.stride ∧ f.lo ≤ i ∧ i < f.lo + f.width

/-- A footprint: the fields (every instance of each) and the parts that may change; `any`: any register bit may. -/
structure Foot where
  regs  : List Fld
  parts : List Part
  any   : Bool := false
  deriving DecidableEq, Repr

/-- The footprint of several footprints together. -/
def Foot.union (l : List Foot) : Foot where
  regs := l.flatMap fun F => F.regs
  parts := l.flatMap fun F => F.parts
  any := l.any fun F => F.any

/-- From `s` to `t` nothing changes outside the footprint: no bit of a register outside the fields listed, no part that is not
listed, not the queue. The register file and memory keep their canonical form, and the counter of free values does not go
back. -/
structure Keeps (W : Foot) (s t : State) : Prop where
  regs    : W.any = false → ∀ a i, (∀ f ∈ W.regs, ¬ f.covers a i) → (t.rdWord a).getLsbD i = (s.rdWord a).getLsbD i
  parts   : ∀ p, p ∉ W.parts → p.same s t
  pending : t.pending = s.pending
  canon   : Store.wf 0 s.regs = true → Store.wf 0 t.regs = true
  memory  : Memory.wf s.mem = true → Memory.wf t.mem = true
  counter : s.free ≤ t.free

end Sys2Proof.Machine
end

