-- ==== Sys2Proof/Conditions.lean ====
section
/-!
DEFINITION. Conditions that claims name: when a plank may begin (R130 to R138, R249), what a device sees of a frame (R463 to R471), and the canonical form of a state.
-/

namespace Sys2Proof.Machine

/-- Plank `p`, current on BWKn, may begin at device full angle `full` with its start angle reached exactly: not begun, the
sequencer in WAIT and not held, no fence, ANG in LOCKED, the start checks passed, the channel to be had where the action transfers
(R130 to R135, R138, R249). -/
def plankMayBegin (s : State) (n full action : Nat) (p : Plank) : Bool :=
  decide ((s.bwk.get n).cur = some p) && p.action == action && !(s.bwk.get n).run.begun && bwkState s n == bwkWait
  && !bwkHoldOff s n && !p.fence && s.rd Reg.angStatusState == angLocked && p.target == frameAngle s p.head full
  && (!isTransfer action || chanTakes s n) && (plankBeginStatus s n p).isNone

/-- The state in which plank `p`, current on BWKn, has begun: RUN, the counters cleared, at its entry (R145). -/
def plankRuns (s : State) (n : Nat) (p : Plank) : State :=
  setBwkState ((setBwkState s n bwkWait).setBwk n { s.bwk.get n with
    run := { (s.bwk.get n).run with begun := true, late := false, held := (s.bwk.get n).wasHeld, beginAt := p.target }
    cnt0 := 0, cnt1 := 0, sector := 0, gateDown := false, upc := (plankEntry s n p).getD 0 }) n bwkRun

/-- The state in which plank `p` of an action has begun, with the channel granted where the action transfers (R249). -/
def plankBegun (s : State) (n action : Nat) (p : Plank) : State :=
  pmuEvent (if isTransfer action then chanGrant (plankRuns s n p) n else plankRuns s n p) 1 1 (some n) none 1

/-- Plank `p` of an action runs on BWKn, and no other is prefetched. -/
def runsAlone (s : State) (n action : Nat) (p : Plank) : Bool :=
  decide (runningPlank s n action = some p) && (s.bwk.get n).next.isNone

/-- The line that a write of BCM_OPn_CTL names: its NS, and the slot's LINE (R343). -/
def opLine (s : State) (slot : Nat) (data : Word) : Nat := (fieldOf data 20 4 - 1) * 2 ^ 32 + s.rd (Reg.bcmOpLineLine.elem slot)

/-- An op slot is free and no operation of another waits (R343). -/
def opFree (s : State) (slot : Nat) : Bool := s.rd (Reg.bcmOpResBusy.elem slot) == 0 && s.bcm.ops.isEmpty

/-- Frame `f` has arrived good: nothing has been sent for it yet, and the event is counted (R467). -/
def frameIn (s : State) : State := pmuEvent (s.setDom { s.dom with sent := [] }) 8 2 none none 1

/-- The state in which a worker acts on frame `f`: it has arrived, and has been passed on with a payload (R468, R470). -/
def workerSees (s : State) (f : Frame) (cls type : Nat) (payload : List Byte) : State := passOn (frameIn s) f cls type payload

/-- The state in which a manager port consumes frame `f`: it has arrived, and its sender was heard (R470, R471). -/
def managerSees (s : State) (f : Frame) : State :=
  (frameIn s).wr (Reg.domPortStatusLastHeard.elem f.port)
    (max ((frameIn s).rd (Reg.domPortStatusLastHeard.elem f.port)) (f.src % 256))

/-- Frame `f` arrives good at a worker that acts on it (R463, R467, R470, R471). -/
def frameActed (s : State) (f : Frame) (cls type : Nat) : Bool :=
  s.boot != .por && !f.bad && domWorker s && workerActs s f cls type

/-- Frame `f` arrives good at a port of a manager (R463, R467, R470). -/
def frameHeard (s : State) (f : Frame) : Bool := s.boot != .por && !f.bad && !domWorker s && decide (f.port < 32)

/-- The register file and memory are in canonical form: keys strictly rising, no entry equal to what an unlisted key reads as. -/
def Canonical (s : State) : Prop := Store.wf 0 s.regs = true ∧ Memory.wf s.mem = true

end Sys2Proof.Machine
end

