-- ==== Sys2Proof/Frames.lean ====
section
/-!
DEFINITION. The frame of every command: the register fields and the parts of the state it may change. Everything else it leaves
unchanged. What several commands may come to (ending a plank, a unit-fatal fault, SAFE, a mode change) is one footprint each.
-/

namespace Sys2Proof.Machine

/-! ## Footprints that several commands share -/

/-- A cause of a mode noted. -/
def causeSetFrame : Foot :=
  ⟨[Reg.rstCauseMerged, Reg.rstCauseAfterLoss, Reg.rstCauseStopped, Reg.rstCauseKind, Reg.rstCauseSource], [], false⟩

/-- The outcome of a sector noted in its plank. -/
def outcomeAtFrame : Foot :=
  ⟨[Reg.memCounts2PoisonWr, Reg.memInjectArm, Reg.memIrqStatusPoison], [.mem, .poison, .memc], false⟩

/-- A boot phase entered. -/
def bootEnterFrame : Foot :=
  ⟨[Reg.sysOpmodeCause, Reg.sysOpmodePrevMode, Reg.sysOpmodeMode, Reg.recStatusDropped, Reg.recStatusQueued,
    Reg.recIrqStatusDrop], [.recorder], false⟩

/-- An entry of a machine-check queue. -/
def mcWriteFrame : Foot :=
  ⟨[Reg.fltMcrIdxNewest, Reg.fltIrqStatusMchk, Reg.recStatusDropped, Reg.recStatusQueued, Reg.recIrqStatusDrop],
    [.recorder, .flt], false⟩

/-- The end of a rung change. -/
def rungFinishFrame : Foot :=
  ⟨[Reg.angRungResult, Reg.angRungPhase, Reg.angRungPend, Reg.angRungTarget, Reg.angIrqStatusRungDone,
    Reg.bwkStatusState], [.ang], false⟩

/-- The band of the assist path. -/
def astBandFrame : Foot :=
  ⟨[Reg.bwkStatusInband, Reg.bwkStatusGate, Reg.astStatusLimiter, Reg.astStatusHoldCnt, Reg.astStatusInband,
    Reg.astStatusState], [.bwk, .ast], false⟩

/-- A stage of a Firmware Commit. -/
def commitStageFrame : Foot :=
  ⟨[Reg.updStatusLock, Reg.updStatusPendSlot, Reg.updStatusPendState, Reg.updSlotState, Reg.updSlotSecVer,
    Reg.updSlotSetVer], [.hst, .upd], false⟩

/-- The arm on its ramp. -/
def unloadRampReachedFrame : Foot :=
  ⟨[Reg.bwkStatusOntrack, Reg.bwkStatusGate, Reg.srvStatusOntrack, Reg.srvStatusState, Reg.srvIrqStatusParked,
    Reg.srvIrqStatusRetract, Reg.srvIrqStatusFallback, Reg.srvIrqStatusCoast, Reg.srvIrqStatusSettled], [.bwk, .srv],
    false⟩

/-- The spindle leaving a state. -/
def spnLeaveTokenFrame : Foot :=
  ⟨[Reg.spnStatusOffspeed, Reg.spnStatusTokenWait, Reg.spnStatusState, Reg.spnIrqStatusStopped, Reg.spnIrqStatusFault,
    Reg.spnIrqStatusLocked, Reg.domTokenOut, Reg.domIrqStatusToken, Reg.pmuOvfOvf, Reg.pmuCntLoCount,
    Reg.pmuCntHiCount], [.spn, .dom], false⟩

/-- A word that reads UNCORRECTABLE. -/
def uncorrectableFrame : Foot :=
  ⟨[Reg.memCounts1UncDram, Reg.memCounts1UncSram, Reg.memCounts2UncMram, Reg.memLastErrValid, Reg.memLastErrKind,
    Reg.memLastErrArray, Reg.memLastErrMaster, Reg.memLastErrPosition, Reg.memLastAddrLoAddr, Reg.memLastAddrHiAddr,
    Reg.memIrqStatusPoison, Reg.memIrqStatusUncorr], [.poison, .memc], false⟩

/-- A calibration run aborted. -/
def calAbortedFrame : Foot :=
  ⟨[Reg.calStatusRunning, Reg.calIrqStatusFail, Reg.calIrqStatusDone, Reg.calGrpStatFails, Reg.calGrpStatLast,
    Reg.calGrpRunsCount, Reg.calGrpOpsecLoOpsec, Reg.calGrpOpsecHiOpsec, Reg.calGrpRevLoRev, Reg.calGrpRevHiRev,
    Reg.calGrpInstInst, Reg.recStatusDropped, Reg.recStatusQueued, Reg.recIrqStatusDrop], [.recorder, .cal], false⟩

/-- A completion put into the hands of the host. -/
def cqReadyFrame : Foot :=
  .union [⟨[Reg.hstTagsInUse, Reg.hstTagHwmHwm, Reg.hstPendEntries, Reg.hstPendCqsCqs, Reg.hstCounts1CqPauses,
    Reg.hstIrqStatusCqFull, Reg.pmuOvfOvf, Reg.pmuCntLoCount, Reg.pmuCntHiCount], [.hst], false⟩, outcomeAtFrame]

/-- A slot of the frontend whose turn comes. -/
def slotTryFrame : Foot :=
  ⟨[Reg.bcmCounts2Recalls, Reg.bcmCounts2Remaps, Reg.bcmCounts3NoWay, Reg.bcmCounts3Transient, Reg.bcmDirtyLines,
    Reg.bcmIrqStatusNoWay, Reg.bcmIrqStatusOpDone, Reg.bcmOpResBusy, Reg.bcmOpResStatus, Reg.bcmOpResMask,
    Reg.bcmOpFrameFrame, Reg.pmuOvfOvf, Reg.pmuCntLoCount, Reg.pmuCntHiCount], [.free, .bcm], false⟩

/-- A run of sectors written. -/
def writeRunFrame : Foot :=
  .union [⟨[Reg.jnlStatusTwinDegraded, Reg.jnlIrqStatusTwinDegraded, Reg.hstTagsInUse, Reg.hstTagHwmHwm,
    Reg.pmuOvfOvf, Reg.pmuCntLoCount, Reg.pmuCntHiCount], [.free, .bcm, .hst, .jnl], false⟩, outcomeAtFrame]

/-- The misses of a Read placed. -/
def readMissesFrame : Foot :=
  ⟨[Reg.bcmReq0Valid, Reg.bcmReq0Kind, Reg.bcmReq0Ns, Reg.bcmReq0Mask, Reg.bcmReq1Line, Reg.bcmReq2Frame,
    Reg.bcmReqCntEntries, Reg.bcmCounts1Misses, Reg.bcmCounts2Recalls, Reg.bcmCounts2Remaps, Reg.bcmCounts3NoWay,
    Reg.bcmCounts3Transient, Reg.bcmDirtyLines, Reg.bcmIrqStatusNoWay, Reg.bcmIrqStatusReq, Reg.pmuOvfOvf,
    Reg.pmuCntLoCount, Reg.pmuCntHiCount], [.free, .bcm], false⟩

/-- An extent of the journal dropped. -/
def extentDropFrame : Foot :=
  .union [⟨[Reg.jnlStatusIdxFull, Reg.jnlStatusSpaceLow, Reg.jnlStatusFold, Reg.jnlOccAct1, Reg.jnlOccAct0,
    Reg.jnlIrqStatusSpaceLow], [.jnl], false⟩, slotTryFrame]

/-- A result posted to a result ring. -/
def ringAnswerFrame : Foot :=
  .union [⟨[Reg.rngIrqStatusOvf, Reg.rngIrqStatusResult, Reg.rngStatusLost, Reg.rngStatusHeld,
    Reg.rngStatusStoppedFull, Reg.rngStatusResultOvf, Reg.rngStatusIdle, Reg.rngReqConsIdx, Reg.rngResProdIdx,
    Reg.fltCounts1Contained], [.rings], false⟩, mcWriteFrame, outcomeAtFrame]

/-- The effect of a proposal of AGE. -/
def ageEffectFrame : Foot :=
  .union [⟨[Reg.simRetireMask, Reg.angRungCeilExceeded, Reg.angRungResult, Reg.angRungPhase, Reg.angRungPend,
    Reg.angRungPendTarget, Reg.angRungCeilAge, Reg.angRungCeiling, Reg.angRungTarget, Reg.angIrqStatusRungDone,
    Reg.astStagedPend, Reg.jnlStatusHoldupLow, Reg.ageStatusHoldupLow, Reg.ageStatusVguardNext,
    Reg.ageIrqStatusHoldupLow, Reg.ageIrqStatusPlan, Reg.pwrStatusHoldupLow, Reg.pwrIrqStatusHoldupLow,
    Reg.recStatusDropped, Reg.recStatusQueued, Reg.recIrqStatusDrop], [.recorder, .ang, .ast, .hst], false⟩,
    outcomeAtFrame]

/-- A trial lost. -/
def trialLoseFrame : Foot :=
  .union [⟨[Reg.updStatusTrial, Reg.updSlotState, Reg.updTrialBoots, Reg.updSetStatusFormat, Reg.updSetStatusRestored,
    Reg.updSetStatusMirrorPend, Reg.updSetGenGen, Reg.updIrqStatusFallback], [.hst, .upd], false⟩, ringAnswerFrame]

/-- A restart of the frontend. -/
def faultRestartFrame : Foot :=
  .union [⟨[Reg.oceAccK, Reg.oceAccJ, Reg.jnlCounts0WfRestarts, Reg.jnlCounts0Twins, Reg.jnlIrqStatusWriteFail,
    Reg.hstTagsInUse, Reg.hstTagHwmHwm], [.oce, .hst], false⟩, extentDropFrame, outcomeAtFrame]

/-- A step of the sluice. -/
def sluiceSetFrame : Foot :=
  .union [⟨[Reg.angRungCeilExceeded, Reg.angRungResult, Reg.angRungPhase, Reg.angRungPend, Reg.angRungPendTarget,
    Reg.angRungCeilThm, Reg.angRungCeiling, Reg.angRungTarget, Reg.angIrqStatusRungDone, Reg.thmStatusSluice,
    Reg.thmStatusStep, Reg.thmCountsEnforces, Reg.thmCountsAsks, Reg.thmIrqStatusSluiceChg], [.ang], false⟩,
    ringAnswerFrame]

/-- The jobs of the channel and the crypto engine aborted. -/
def jobsAbortFrame : Foot :=
  .union [⟨[Reg.ldpStatusDeepBusy, Reg.ldpCounts1DeepOk, Reg.ldpCounts1DeepFail, Reg.ldpIrqStatusDeepFail,
    Reg.ldpIrqStatusJobDone, Reg.oceStatusBusy, Reg.oceCountsRebuilds, Reg.oceIrqStatusJobFail,
    Reg.oceIrqStatusJobDone, Reg.cryStatusBusy, Reg.cryCounts1KeyEmpty, Reg.cryCounts1Poison,
    Reg.cryIrqStatusKeyEmpty, Reg.cryIrqStatusErr], [.free, .ldp, .oce, .cry], false⟩, ringAnswerFrame]

/-- The begin of the power-loss sequence. -/
def lossBeginFrame : Foot :=
  .union [⟨[Reg.angRungResult, Reg.angRungPhase, Reg.angRungPend, Reg.angIrqStatusRungDone, Reg.pwrStatusLoss,
    Reg.pwrStatusCause, Reg.pwrStatusVmOk, Reg.pwrStatusVlOk, Reg.pwrVinVmMv, Reg.pwrVinVlMv, Reg.pwrCountsLosses,
    Reg.pwrIrqStatusLoss, Reg.rstStatusPhase, Reg.hvSupplyRectifying, Reg.hvSupplyVmIsolated], [.rst, .ang, .hst,
    .change, .pwr], false⟩, ringAnswerFrame]

/-- Stopping both sequencers: their chains, the planks in progress, the result rings. -/
def bwkStopAllFrame : Foot :=
  .union [⟨[Reg.bwkStatusCurIdx, Reg.bwkStatusCurHead, Reg.bwkStatusCurAction, Reg.bwkStatusWreq, Reg.bwkStatusState,
    Reg.bwkPlanksCount, Reg.bwkSlipsCount, Reg.bwkIrqStatusRevSlip, Reg.bwkIrqStatusWriteFault,
    Reg.bwkIrqStatusResult, Reg.rdcStatusPhase, Reg.pmuOvfOvf, Reg.pmuCntLoCount, Reg.pmuCntHiCount], [.chan], false⟩,
    ringAnswerFrame, calAbortedFrame, astBandFrame]

/-- An image applied. -/
def imageApplyFrame : Foot :=
  ⟨[Reg.sysWardenPatchVerRomVer, Reg.sysWardenPatchVerPatchLevel, Reg.sysWardenPatchVerSkipped, Reg.simStatusRewired,
    Reg.simStatusMinFail, Reg.simStatusSlot, Reg.simImgVerImageVer, Reg.simSecSecVer, Reg.simKeysKeyId,
    Reg.simRoleRole, Reg.simRosterMask, Reg.simEffMask, Reg.angRungSchedRung, Reg.angRungTarget, Reg.angRungCurrent,
    Reg.bwkUcodeVerBase, Reg.bwkUcodeVerPatch, Reg.bwkUcodeVerPatchSkipped, Reg.srvFeLimitValue, Reg.srvFeTimeValue,
    Reg.srvFbCoastValue, Reg.srvReacqTimeValue, Reg.srvFbIImax, Reg.srvOntrackWriteLim, Reg.spnIlimMa,
    Reg.spnZcCoastValue, Reg.astHoldSamples, Reg.astFreezeSamples, Reg.astSetDataData, Reg.rdcStatusPa,
    Reg.rdcSyncHdrTol, Reg.rdcSyncATol, Reg.ldpStatusDeepPresent, Reg.ldpStatusFast1Present,
    Reg.ldpStatusFast0Present, Reg.ldpFastCtlIter, Reg.ldpDeepCtlMaxCaps, Reg.ldpDeepCtlIter, Reg.hstStatusLanesEff,
    Reg.hstQuotaDataCq, Reg.hstQuotaDataSq, Reg.bcmStatusEvb, Reg.bcmStatusSets, Reg.calCtlDt,
    Reg.ageHoldup0ParkMinMs, Reg.thmSluiceGraceS, Reg.thmCapIops, Reg.thmThrThrot, Reg.thmThrWarn, Reg.domStatusRole,
    Reg.domNbrMinTracks, Reg.domNbrMask, Reg.domStaggerMs, Reg.recStatusDropped, Reg.recStatusQueued,
    Reg.recIrqStatusDrop], [.recorder, .sim, .cs, .bwk, .spn, .ast], false⟩

/-- The start of B3. -/
def b3StartFrame : Foot :=
  .union [⟨[Reg.sysCoreRelRun, Reg.sysBootLoAddr, Reg.sysBootHiAddr, Reg.sysFwRevLoChars, Reg.sysFwRevHiChars,
    Reg.simStatusState, Reg.angRungCeilAge, Reg.angRungCeiling, Reg.angSkewSkew, Reg.jnlCtlTwin,
    Reg.fltCounts0Corrected, Reg.fltCoreHeld, Reg.calStatusDue, Reg.calStatusRunning, Reg.calIrqStatusDue,
    Reg.thmHctmTmt2, Reg.thmHctmTmt1, Reg.thmIrqStatusTripRestart, Reg.domStatusTimeLocked, Reg.domStatusTimeValid,
    Reg.domStatusState, Reg.domStaggerLastPos, Reg.domGroupGroup, Reg.domIrqStatusStateChg, Reg.updStatusLock,
    Reg.updStatusPendSlot, Reg.updStatusPendState, Reg.updStatusTrial, Reg.updSlotState, Reg.updTrialBoots,
    Reg.updTrialElapsed, Reg.updIrqStatusTrial, Reg.cryStatusSlots, Reg.cryNsKey0Ns4, Reg.cryNsKey0Ns3,
    Reg.cryNsKey0Ns2, Reg.cryNsKey0Ns1, Reg.cryNsKey1Ns8Ns5], [.free, .boot, .cal, .chan, .cry, .dom, .upd], false⟩,
    ringAnswerFrame]

/-- A retraction of the arm. -/
def hvRetractFrame : Foot :=
  .union [⟨[Reg.srvOutMa, Reg.srvLastFaultWedge, Reg.srvLastFaultCause, Reg.hvRetractActive, Reg.hvRetractDone,
    Reg.hvRetractTimeout, Reg.hvRetractCause, Reg.hvRetractPhase], [], false⟩, bwkStopAllFrame,
    unloadRampReachedFrame]

/-- The entry of RECOVERY because no set is loadable. -/
def noSetFrame : Foot :=
  .union [⟨[Reg.sysOpmodeCause, Reg.sysOpmodePrevMode, Reg.sysOpmodeMode, Reg.sysCoreRelRun, Reg.hstStatusP1Up,
    Reg.hstStatusP1Width, Reg.hstStatusP1Speed, Reg.hstStatusP0Up, Reg.hstStatusP0Width, Reg.hstStatusP0Speed,
    Reg.hstPendEntries, Reg.hstPendCqsCqs, Reg.hstIrqStatusLinkChg, Reg.fltCoreHeld], [.boot, .chan, .hst, .change],
    false⟩, jobsAbortFrame, calAbortedFrame, spnLeaveTokenFrame]

/-- The entry of SAFE: motion, light and jobs stop. -/
def safeStopFrame : Foot :=
  .union [⟨[Reg.sysCoreRelRun, Reg.angRungResult, Reg.angRungPhase, Reg.angRungPend, Reg.angIrqStatusRungDone,
    Reg.hstPendEntries, Reg.hstPendCqsCqs, Reg.fltStatusRecovering, Reg.fltCoreHeld, Reg.hvbStatusRetractLine], [.ang,
    .hst], false⟩, hvRetractFrame, jobsAbortFrame]

/-- The checks of the loader. -/
def loaderCheckFrame : Foot :=
  .union [⟨[Reg.simStatusState, Reg.simRejectErr, Reg.simRejectErrSect, Reg.simRejectSlot, Reg.simRejectCount,
    Reg.simRejectOffOffset, Reg.updStatusLock, Reg.updStatusPendSlot, Reg.updStatusPendState, Reg.updStatusReject,
    Reg.updStatusSimErr, Reg.updIrqStatusRejected], [.sim], false⟩, noSetFrame, trialLoseFrame]

/-- A unit-fatal fault: the unit is declared down, recorded, and what hangs on it ends. -/
def unitFatalFrame : Foot :=
  .union [⟨[Reg.simStatusRewired, Reg.simRetireMask, Reg.bwkCtlAbort, Reg.rdcStatusShared, Reg.rdcStatusPa,
    Reg.rngCtlEnable, Reg.rngStatusDraining, Reg.fltStatusCause, Reg.fltStatusSafePend, Reg.fltCounts0Corrected,
    Reg.fltCounts1UnitFatal, Reg.fltDownMask, Reg.fltHistCount, Reg.fltIrqStatusRetired, Reg.fltIrqStatusUnitDown],
    [.sim], false⟩, safeStopFrame, writeRunFrame]

/-- A mode change taken as far as it goes. -/
def modeAdvanceFrame : Foot :=
  .union [⟨[Reg.angRungPendTarget, Reg.angRungTarget, Reg.srvStatusHead, Reg.srvStatusHold, Reg.srvStatusSat,
    Reg.srvStatusSatHi, Reg.srvIntegS, Reg.srvOutVcm, Reg.srvCountsFallbacks, Reg.srvIrqStatusLawEvent,
    Reg.spnStatusRpm, Reg.spnCountsStarts, Reg.spnIrqStatusToken], [.cs, .ce], false⟩, unitFatalFrame, noSetFrame]

/-! ## The frame of each command -/

def execRegisterWriteFrame : Foot :=
  .union [⟨[Reg.angModeExpertWrIgnored, Reg.rdcStatusStaged, Reg.hstModeExpertWrIgnored, Reg.bcmIrqStatusOpDone,
    Reg.bcmOpCtlOp, Reg.bcmOpCtlNs, Reg.bcmOpCtlMask, Reg.bcmOpResBusy, Reg.bcmOpResStatus, Reg.bcmOpResMask,
    Reg.bcmOpFrameFrame, Reg.fltCounts0Corrected, Reg.calCmdResStatus, Reg.thmModeExpertWrIgnored,
    Reg.updWaveCtlState, Reg.pmuOvfOvf, Reg.pmuCntLoCount, Reg.pmuCntHiCount], [.loHalf, .resp, .recorder, .cs, .ce,
    .chan, .hst], true⟩, outcomeAtFrame]

def execModeWriteFrame (u : Nat) : Foot :=
  ⟨[modeLevel u, modePend u, modeIgnored u, Reg.fltCounts0Corrected], [.resp], false⟩

def execLevelChangeApplyFrame (u : Nat) : Foot :=
  ⟨[modeLevel u, modePend u], [], false⟩

def execControlStoreWriteFrame : Foot :=
  ⟨[Reg.fltCounts0Corrected], [.resp, .cs, .ce], true⟩

def execPorFrame : Foot :=
  .union [⟨[Reg.angRevLoRev, Reg.angRevHiRev, Reg.angOpsecOpsec, Reg.pwrVcoreVguard, Reg.pwrVcoreSetpointMv,
    Reg.rstPcycleCount, Reg.rstOpsecLoOpsec, Reg.rstOpsecHiOpsec], [.loHalf, .hiLatch, .resp, .boot, .flt, .rst, .ang,
    .sim, .cs, .rings, .bwk, .srv, .ce, .spn, .ast, .pre, .cal, .age, .chan, .ldp, .oce, .cry, .bcm, .memc, .hst,
    .jnl, .change, .gated, .shadow, .pwr, .thm, .dom, .upd], true⟩, bootEnterFrame]

def execPorReleaseFrame : Foot :=
  ⟨[Reg.memStatusPinned, Reg.memStatusCand, Reg.memIrqStatusRepairFail, Reg.pwrStatusVlOk, Reg.pwrStatusRailsOk,
    Reg.recStatusDropped, Reg.recStatusQueued, Reg.recIrqStatusDrop, Reg.hvbStatusHb, Reg.hvSupplyRailsOk], [.boot,
    .recorder, .memc], false⟩

def execB1FillDoneFrame : Foot :=
  ⟨[Reg.memStatusFillDone, Reg.memStatusStFail, Reg.memIrqStatusSelftest, Reg.recStatusDropped, Reg.recStatusQueued,
    Reg.recIrqStatusDrop], [.mem, .poison, .boot, .recorder, .cs, .ce, .memc], false⟩

def execSetAuthDoneFrame : Foot :=
  .union [⟨[Reg.simSecFuseArb, Reg.simKeysRevoked, Reg.simKeysProgrammed, Reg.pwrVcoreVguard, Reg.pwrVcoreSetpointMv,
    Reg.rstStatusPerst, Reg.rstStatusPhase, Reg.rstDrstsCount, Reg.rstOpsecLoOpsec, Reg.rstOpsecHiOpsec,
    Reg.updStatusActiveSlot, Reg.updSlotSecVer, Reg.updSlotSetVer, Reg.updTrialElapsed, Reg.updSetStatusDefaulted,
    Reg.hvbStatusHb, Reg.hvbStatusRetractLine, Reg.hvbStatusHvFaultLine], [.loHalf, .hiLatch, .resp, .rst, .ang, .cs,
    .ce, .pre, .age, .bcm, .jnl, .gated, .shadow, .pwr, .thm], true⟩, loaderCheckFrame, hvRetractFrame, causeSetFrame]

def execImageStreamDoneFrame : Foot :=
  .union [loaderCheckFrame]

def execImageAuthDoneFrame : Foot :=
  .union [loaderCheckFrame]

def execImageCheckDoneFrame : Foot :=
  .union [⟨[Reg.simStatusState], [], false⟩, imageApplyFrame]

def execImageApplyDoneFrame : Foot :=
  .union [⟨[Reg.sysOpmodeCause, Reg.sysOpmodePrevMode, Reg.sysOpmodeMode, Reg.angRungPendTarget, Reg.angRungTarget,
    Reg.spnStatusRpm, Reg.spnCountsStarts, Reg.spnIrqStatusToken, Reg.fltStatusCause, Reg.fltStatusSafePend],
    [.change], false⟩, safeStopFrame, b3StartFrame, cqReadyFrame, spnLeaveTokenFrame]

def execB4DoneFrame : Foot :=
  .union [⟨[Reg.angRungPendTarget], [.boot, .change, .upd], false⟩, cqReadyFrame, bootEnterFrame, rungFinishFrame]

def execSvcModeAssertFrame : Foot :=
  .union [⟨[Reg.simStatusState], [], false⟩, noSetFrame]

def execSvcModeHoldExpiryFrame : Foot :=
  .union [⟨[Reg.angRungResult, Reg.angRungPhase, Reg.angRungPend, Reg.angIrqStatusRungDone, Reg.hvbStatusRetractLine],
    [.ang], false⟩, noSetFrame, hvRetractFrame]

def execSafeParkDoneFrame : Foot :=
  .union [⟨[Reg.sysOpmodeCause, Reg.sysOpmodePrevMode, Reg.sysOpmodeMode, Reg.fltStatusSafePend, Reg.pwrVcoreVguard,
    Reg.pwrVcoreSetpointMv, Reg.rstStatusPerst, Reg.rstStatusPhase, Reg.rstDrstsCount, Reg.rstOpsecLoOpsec,
    Reg.rstOpsecHiOpsec, Reg.hvbStatusHb, Reg.hvbStatusRetractLine, Reg.hvbStatusHvFaultLine], [.loHalf, .hiLatch,
    .resp, .boot, .rst, .ang, .sim, .cs, .ce, .spn, .pre, .age, .ldp, .oce, .cry, .bcm, .jnl, .change, .gated,
    .shadow, .pwr, .thm, .dom], true⟩, hvRetractFrame, trialLoseFrame, causeSetFrame]

def execStandbyUnitGateFrame : Foot :=
  ⟨[], [.bwk, .srv, .spn, .ast, .chan, .gated, .shadow], true⟩

def execStandbyWakeRestoreFrame : Foot :=
  .union [⟨[], [.gated, .shadow], true⟩, modeAdvanceFrame]

def execApstIdleExpiryFrame : Foot :=
  .union [modeAdvanceFrame]

def execSimRetireAddWriteFrame : Foot :=
  .union [⟨[Reg.simRetireMask, Reg.fltCounts0Corrected, Reg.recStatusDropped, Reg.recStatusQueued,
    Reg.recIrqStatusDrop], [.resp, .recorder], false⟩, outcomeAtFrame]

def execSpindleAbove300Frame : Foot :=
  ⟨[Reg.angStatusSrc, Reg.angStatusState, Reg.angPosValid, Reg.angIrqStatusStateChg], [.ang], false⟩

def execSpindleBelow300Frame : Foot :=
  .union [⟨[Reg.angStatusIndexKnown, Reg.angStatusSrc, Reg.angStatusState, Reg.angPosValid, Reg.angRevPeriodCycles,
    Reg.angIrqStatusStateChg], [.free], false⟩, rungFinishFrame]

def execGoodWedgeMarkFrame : Foot :=
  .union [⟨[Reg.angStatusGapCount, Reg.angStatusIndexKnown, Reg.angStatusSrc, Reg.angStatusState, Reg.angPosValid,
    Reg.angPosWedge, Reg.angPosTick, Reg.angRevLoRev, Reg.angRevHiRev, Reg.angIrqStatusGap, Reg.angIrqStatusStateChg],
    [.free], false⟩, rungFinishFrame]

def execMissingWedgeMarkFrame : Foot :=
  .union [⟨[Reg.angStatusSrc, Reg.angStatusState, Reg.angPosValid, Reg.angIrqStatusStateChg, Reg.bwkStatusOntrack,
    Reg.bwkStatusGate, Reg.srvStatusOntrack], [.free], false⟩, rungFinishFrame]

def execCoastWedgesExpiryFrame : Foot :=
  ⟨[Reg.angStatusSrc, Reg.angStatusState, Reg.angPosValid, Reg.angIrqStatusStateChg], [.ang], false⟩

def execRevStoreFrame : Foot :=
  ⟨[], [.ang], false⟩

def execXchkDetectFrame : Foot :=
  ⟨[Reg.angIrqStatusXchk, Reg.calStatusDue, Reg.calIrqStatusDue, Reg.recStatusDropped, Reg.recStatusQueued,
    Reg.recIrqStatusDrop], [.recorder], false⟩

def execCeilingChangeFrame : Foot :=
  ⟨[Reg.angRungCeilExceeded, Reg.angRungResult, Reg.angRungPhase, Reg.angRungPend, Reg.angRungPendTarget,
    Reg.angRungCeilAge, Reg.angRungCeilThm, Reg.angRungCeiling, Reg.angRungTarget, Reg.angIrqStatusRungDone], [.ang],
    false⟩

def execRungTargetWriteFrame : Foot :=
  ⟨[Reg.angRungCeilExceeded, Reg.angRungResult, Reg.angRungPhase, Reg.angRungPend, Reg.angRungPendTarget,
    Reg.angRungTarget, Reg.angIrqStatusRungDone], [.resp, .ang], false⟩

def execRungHeldFrame : Foot :=
  ⟨[Reg.angRungPhase], [], false⟩

def execSchedRungSwitchFrame : Foot :=
  ⟨[Reg.angRungSchedRung], [], false⟩

def execRungRampEndFrame : Foot :=
  ⟨[Reg.angRungPhase, Reg.angRungSchedRung], [.ang], false⟩

def execRungSettledFrame : Foot :=
  ⟨[Reg.angRungPhase], [.ang], false⟩

def execRungRetuneDoneFrame : Foot :=
  .union [⟨[Reg.angRungSchedRung, Reg.angRungCurrent], [], false⟩, modeAdvanceFrame]

def execRungSettleTimeoutFrame : Foot :=
  ⟨[Reg.angRungPhase], [.free, .ang], false⟩

def execReturnSettleTimeoutFrame : Foot :=
  .union [⟨[Reg.spnFaultCause, Reg.fltStatusCause, Reg.fltStatusSafePend], [], false⟩, safeStopFrame,
    spnLeaveTokenFrame]

def execAngCmdHoldFrame : Foot :=
  ⟨[Reg.angModeExpertWrIgnored, Reg.angRungResult, Reg.angRungPhase, Reg.angRungTarget, Reg.angIrqStatusRungDone],
    [.resp, .ang], false⟩

def execAngCmdRampFrame : Foot :=
  ⟨[Reg.angModeExpertWrIgnored, Reg.angRungResult, Reg.angRungPhase, Reg.angIrqStatusRungDone], [.resp], false⟩

def execAngCmdRetuneFrame : Foot :=
  ⟨[Reg.angModeExpertWrIgnored, Reg.angRungResult, Reg.angRungPhase, Reg.angIrqStatusRungDone], [.resp], false⟩

def execAngCmdReleaseFrame : Foot :=
  .union [⟨[Reg.angModeExpertWrIgnored], [.resp], false⟩, rungFinishFrame]

def execAngCmdAbortFrame : Foot :=
  .union [⟨[Reg.angModeExpertWrIgnored], [.resp, .free], false⟩, rungFinishFrame]

def execOpsecStoreFrame : Foot :=
  ⟨[Reg.angOpsecOpsec], [.ang], false⟩

def execSnapshotTakeFrame : Foot :=
  ⟨[Reg.angSnapTake, Reg.angSnapPos, Reg.angSnapRevRev, Reg.angSnapCycCyc, Reg.angSnapDtimeDtime,
    Reg.angSnapOpsecOpsec], [.resp], false⟩

def execAlarmArmFrame : Foot :=
  ⟨[Reg.angAlarmPosEn, Reg.angAlarmPosWedge, Reg.angAlarmPosTick, Reg.angAlarmRevHiRev, Reg.fltCounts0Corrected],
    [.loHalf, .resp], true⟩

def execAlarmFireFrame : Foot :=
  ⟨[Reg.angPosWedge, Reg.angPosTick, Reg.angRevLoRev, Reg.angRevHiRev, Reg.angAlarmPosEn, Reg.angIrqStatusAlarm], [],
    false⟩

def execPlankFetchFrame : Foot :=
  .union [⟨[Reg.fltCounts0Corrected], [], false⟩, bwkStopAllFrame]

def execPlankSeekFrame : Foot :=
  .union [⟨[Reg.srvStatusHead, Reg.srvStatusHold, Reg.srvStatusSat, Reg.srvStatusSatHi, Reg.srvTargetTarget,
    Reg.srvIntegS, Reg.srvOutVcm, Reg.srvCountsFallbacks, Reg.srvIrqStatusLawEvent, Reg.rdcStatusGrant,
    Reg.rdcCounts2Waits, Reg.domNbrCountsSent, Reg.preStatusPa1Head, Reg.preStatusPa0Head, Reg.preStatusPa1Mode,
    Reg.preStatusPa0Mode], [.cs, .ce, .pre, .dom], false⟩, unitFatalFrame]

def execPlankSettleFrame : Foot :=
  .union [⟨[Reg.rdcStatusGrant, Reg.rdcCounts2Waits], [.srv], false⟩, bwkStopAllFrame]

def execPlankReadFrame : Foot :=
  .union [⟨[Reg.rdcStatusGrant, Reg.rdcCounts2Waits], [], false⟩, bwkStopAllFrame]

def execPlankWriteFrame : Foot :=
  .union [⟨[Reg.astStatusHead, Reg.astStatusGset, Reg.rdcStatusGrant, Reg.rdcCounts2Waits, Reg.fltCounts0Corrected],
    [], false⟩, bwkStopAllFrame]

def execPlankPreheatFrame : Foot :=
  .union [⟨[Reg.astStatusHead, Reg.astStatusGset, Reg.rdcStatusGrant, Reg.rdcCounts2Waits, Reg.fltCounts0Corrected],
    [], false⟩, bwkStopAllFrame]

def execPlankProbeFrame : Foot :=
  .union [⟨[Reg.astStatusHead, Reg.astStatusGset, Reg.rdcStatusGrant, Reg.rdcCounts2Waits, Reg.fltCounts0Corrected],
    [], false⟩, bwkStopAllFrame]

def execPlankCalFrame : Foot :=
  .union [⟨[Reg.rdcStatusGrant, Reg.rdcCounts2Waits], [], false⟩, bwkStopAllFrame]

def execPlankMarkFrame : Foot :=
  .union [⟨[Reg.bwkMarkParam, Reg.bwkIrqStatusMark, Reg.rdcStatusGrant, Reg.rdcCounts2Waits], [], false⟩,
    bwkStopAllFrame]

def execMarkerPlankFrame : Foot :=
  .union [⟨[Reg.bwkMarkParam, Reg.rdcStatusGrant, Reg.rdcCounts2Waits], [], false⟩, bwkStopAllFrame]

def execMicrowordExecuteFrame : Foot :=
  .union [⟨[Reg.bwkIrqStatusHalt, Reg.bwkIrqStatusParity, Reg.astStatusHead, Reg.astStatusGset, Reg.astWfSnap0PosErr,
    Reg.astWfSnap0Proxy, Reg.astWfSnap1GateCause, Reg.astWfSnap1Head, Reg.astWfSnap1Iset, Reg.astWfAngleAngle,
    Reg.jnlCounts1Folds, Reg.preStatusPa1Head, Reg.preStatusPa0Head, Reg.preStatusPa1Mode, Reg.preStatusPa0Mode],
    [.pre], false⟩, unitFatalFrame, faultRestartFrame]

def execParityReloadDoneFrame : Foot :=
  ⟨[Reg.bwkStatusState], [.cs], false⟩

def execNolockTimeoutFrame : Foot :=
  .union [⟨[Reg.bwkIrqStatusNoAngle], [], false⟩, bwkStopAllFrame]

def execWriteGateFallFrame : Foot :=
  .union [⟨[Reg.bwkStatusWreq, Reg.bwkStatusGate, Reg.astWfSnap0PosErr, Reg.astWfSnap0Proxy, Reg.astWfSnap1GateCause,
    Reg.astWfSnap1Head, Reg.astWfSnap1Iset, Reg.astWfAngleAngle], [.bwk, .ast], false⟩, outcomeAtFrame]

def execBwkAbortFrame : Foot :=
  .union [⟨[Reg.bwkCtlAbort, Reg.fltCounts0Corrected], [.resp], false⟩, bwkStopAllFrame]

def execBwkResumeFrame : Foot :=
  ⟨[Reg.bwkStatusState, Reg.fltCounts0Corrected], [.resp], false⟩

def execServoSampleFrame : Foot :=
  .union [⟨[Reg.srvStatusGset, Reg.srvStatusBand, Reg.srvStatusHold, Reg.srvStatusSat, Reg.srvStatusSatHi,
    Reg.srvStatusCoastCnt, Reg.srvStatusQual, Reg.srvStatusDecision, Reg.srvPosValid, Reg.srvPosPos, Reg.srvVelVel,
    Reg.srvIntegS, Reg.srvOutVcm, Reg.srvCountsFallbacks, Reg.srvCountsRroErr, Reg.srvCountsMissing,
    Reg.srvIrqStatusLawEvent], [.cs, .ce, .age], false⟩, unitFatalFrame]

def execLawOverrunFrame : Foot :=
  .union [⟨[Reg.srvOutVcm, Reg.srvCountsFallbacks, Reg.srvIrqStatusLawEvent], [], false⟩, hvRetractFrame]

def execCoastExhaustedFrame : Foot :=
  .union [⟨[Reg.srvOutMa, Reg.srvLastFaultWedge, Reg.srvLastFaultCause, Reg.srvCountsFallbacks], [], false⟩,
    bwkStopAllFrame, unloadRampReachedFrame]

def execFeLimitFaultFrame : Foot :=
  .union [⟨[Reg.srvOutMa, Reg.srvLastFaultWedge, Reg.srvLastFaultCause, Reg.srvCountsFallbacks], [], false⟩,
    bwkStopAllFrame, unloadRampReachedFrame]

def execSettleRunMetFrame : Foot :=
  .union [⟨[Reg.srvIrqStatusLoaded], [], false⟩, modeAdvanceFrame]

def execSettlePlankRunFrame : Foot :=
  .union [bwkStopAllFrame]

def execSettleTimeoutFrame : Foot :=
  .union [bwkStopAllFrame]

def execReacquiredFrame : Foot :=
  .union [⟨[Reg.srvStatusCoastCnt, Reg.srvTargetTarget, Reg.srvIrqStatusReacq], [], false⟩, modeAdvanceFrame]

def execReacqTimeoutFrame : Foot :=
  .union [hvRetractFrame]

def execSeekArrivalFrame : Foot :=
  .union [⟨[Reg.srvIrqStatusArrive], [.srv], false⟩, bwkStopAllFrame]

def execSeekTimeoutFrame : Foot :=
  .union [⟨[Reg.srvStatusHold, Reg.srvStatusSat, Reg.srvStatusCoastCnt, Reg.srvTargetTarget, Reg.srvIntegS,
    Reg.srvLastFaultWedge, Reg.srvLastFaultCause], [], false⟩, bwkStopAllFrame, unloadRampReachedFrame]

def execSeekVerrFaultFrame : Foot :=
  .union [⟨[Reg.srvStatusHold, Reg.srvStatusSat, Reg.srvStatusCoastCnt, Reg.srvTargetTarget, Reg.srvIntegS,
    Reg.srvLastFaultWedge, Reg.srvLastFaultCause], [], false⟩, bwkStopAllFrame, unloadRampReachedFrame]

def execSrvCmdLoadFrame : Foot :=
  .union [⟨[Reg.srvStatusHead, Reg.srvStatusHold, Reg.srvStatusSat, Reg.srvStatusSatHi, Reg.srvIntegS, Reg.srvOutVcm,
    Reg.srvCountsFallbacks, Reg.srvIrqStatusLawEvent], [.resp, .cs, .ce], false⟩, unitFatalFrame]

def execSrvCmdUnloadFrame : Foot :=
  .union [⟨[Reg.srvStatusHold, Reg.srvStatusSat, Reg.srvStatusSatHi, Reg.srvIntegS, Reg.srvOutVcm,
    Reg.srvCountsFallbacks, Reg.srvIrqStatusLawEvent], [.resp, .cs, .ce], false⟩, unitFatalFrame]

def execSrvCmdRetractFrame : Foot :=
  .union [⟨[Reg.fltCounts0Corrected], [.resp], false⟩, hvRetractFrame]

def execUnloadRampReachedFrame : Foot :=
  .union [modeAdvanceFrame]

def execRetractDoneFrame : Foot :=
  .union [modeAdvanceFrame]

def execSetupReplayFrame : Foot :=
  ⟨[], [.pre], false⟩

def execTapDataAccessFrame : Foot :=
  ⟨[Reg.srvModeExpertWrIgnored, Reg.srvTapIdxIndex, Reg.fltCounts0Corrected], [.resp, .ce], false⟩

def execSpnCmdStartFrame : Foot :=
  .union [⟨[Reg.spnStatusRpm, Reg.spnCountsStarts, Reg.spnIrqStatusToken, Reg.fltCounts0Corrected], [.resp], false⟩,
    spnLeaveTokenFrame]

def execSpnCmdStopFrame : Foot :=
  .union [⟨[Reg.fltCounts0Corrected], [.resp], false⟩, spnLeaveTokenFrame]

def execSpnCmdClearFrame : Foot :=
  .union [⟨[Reg.spnFaultCause, Reg.fltCounts0Corrected], [.resp], false⟩, spnLeaveTokenFrame]

def execAlignTimeExpiryFrame : Foot :=
  .union [spnLeaveTokenFrame]

def execHandoverReachedFrame : Foot :=
  .union [spnLeaveTokenFrame]

def execSpinupTimeoutFrame : Foot :=
  .union [⟨[Reg.spnFaultCause, Reg.fltStatusCause, Reg.fltStatusSafePend], [], false⟩, safeStopFrame,
    spnLeaveTokenFrame]

def execZeroCrossingFrame : Foot :=
  .union [⟨[Reg.angRevPeriodCycles, Reg.angRungSchedRung, Reg.angRungCurrent, Reg.spnFaultCause], [], false⟩,
    modeAdvanceFrame]

def execZcWindowMissFrame : Foot :=
  .union [⟨[Reg.angStatusIndexKnown, Reg.angPosValid, Reg.spnCountsZcMissed], [], false⟩, spnLeaveTokenFrame]

def execZcLostFrame : Foot :=
  .union [⟨[Reg.spnFaultCause, Reg.fltStatusCause, Reg.fltStatusSafePend], [], false⟩, safeStopFrame,
    spnLeaveTokenFrame]

def execOffspeedSetFrame : Foot :=
  ⟨[Reg.bwkStatusOntrack, Reg.bwkStatusGate, Reg.srvStatusOntrack, Reg.spnStatusOffspeed, Reg.spnIrqStatusOffspeed],
    [.bwk], false⟩

def execSpeedBelowFlyMinFrame : Foot :=
  .union [hvRetractFrame]

def execSpindleBrakeDoneFrame : Foot :=
  .union [⟨[Reg.spnFaultCause], [], false⟩, modeAdvanceFrame]

def execRetractStartFrame : Foot :=
  .union [hvRetractFrame]

def execRetractPhaseEndFrame : Foot :=
  ⟨[Reg.hvbStatusRetractLine, Reg.hvbCtlRetract, Reg.hvRetractActive, Reg.hvRetractDone, Reg.hvRetractPhase], [],
    false⟩

def execRetractPhaseTimeoutFrame : Foot :=
  .union [⟨[Reg.pwrIrqStatusHvFault, Reg.hvbStatusRetractLine, Reg.hvbStatusHvFaultLine, Reg.hvbCtlRetract,
    Reg.hvFaultCauseCause, Reg.hvRetractActive, Reg.hvRetractDone, Reg.hvRetractTimeout, Reg.hvRetractPhase], [],
    false⟩, ringAnswerFrame]

def execAstSampleFrame : Foot :=
  .union [⟨[Reg.astStatusHead, Reg.astProxyValid, Reg.astProxyTarget, Reg.astProxyProxy, Reg.astSetpointIset,
    Reg.astSetpointHeld, Reg.astChanCrcErr, Reg.astChanEchoErr, Reg.astIrqStatusCeilHit, Reg.fltCounts0Corrected],
    [.free, .cal, .age], false⟩, astBandFrame]

def execProxyLossFrame : Foot :=
  .union [⟨[Reg.astSuspectHeads, Reg.astLossHead, Reg.astLossCause, Reg.astLossCount, Reg.astIrqStatusSuspect,
    Reg.astIrqStatusLoss, Reg.fltCounts1Contained], [], false⟩, astBandFrame, mcWriteFrame]

def execAstStagedApplyFrame : Foot :=
  ⟨[Reg.astStagedPend, Reg.astIrqStatusStagedApplied], [.ast], false⟩

def execAstTblDataAccessFrame : Foot :=
  ⟨[Reg.astModeExpertWrIgnored, Reg.astTblIdxIndex, Reg.astStagedPend, Reg.fltCounts0Corrected], [.resp, .ast], false⟩

def execAstSetDataAccessFrame : Foot :=
  ⟨[Reg.astModeExpertWrIgnored, Reg.astStagedPend, Reg.astSetIdxWord, Reg.fltCounts0Corrected], [.resp, .ast], false⟩

def execPreampFaultFrame : Foot :=
  .union [⟨[Reg.astStatusPrefault, Reg.astIrqStatusPreampFault, Reg.recStatusDropped, Reg.recStatusQueued,
    Reg.recIrqStatusDrop, Reg.preStatusPa1Fault, Reg.preStatusPa0Fault, Reg.preFaultLogPa1, Reg.preFaultLogPa0,
    Reg.preIrqStatusPa1Fault, Reg.preIrqStatusPa0Fault], [.recorder], false⟩, astBandFrame]

def execPreampFaultClearFrame : Foot :=
  .union [⟨[Reg.astStatusPrefault, Reg.preStatusPa1Fault, Reg.preStatusPa0Fault], [], false⟩, astBandFrame]

def execPreXferGoFrame : Foot :=
  ⟨[Reg.preModeExpertWrIgnored, Reg.preXferPa, Reg.preXferRd, Reg.preXferAddr, Reg.preXferData, Reg.preRdataValid,
    Reg.preRdataErr], [.resp, .pre], false⟩

def execPreTransactionDoneFrame : Foot :=
  ⟨[Reg.preRdataValid, Reg.preRdataData, Reg.preIrqStatusXferDone], [.pre], false⟩

def execPreReadTimeoutFrame : Foot :=
  ⟨[Reg.preRdataValid, Reg.preRdataErr, Reg.preIrqStatusXferErr, Reg.preIrqStatusXferDone], [.pre], false⟩

def execPreSetupDataAccessFrame : Foot :=
  ⟨[Reg.preSetupIdxIndex], [.resp, .pre], false⟩

def execReadSectorFrame : Foot :=
  .union [⟨[Reg.rdcStatusEnvelope, Reg.rdcCounts0AMiss, Reg.rdcCounts0Slip, Reg.rdcCounts1SyncMiss,
    Reg.rdcCounts1Defect, Reg.rdcCounts2HdrMismatch, Reg.rdcIrqStatusSyncMiss, Reg.rdcIrqStatusDefect,
    Reg.ldpStatusFast1Bufs, Reg.ldpStatusFast0Bufs, Reg.ldpCounts0BufCuts, Reg.ldpIrqStatusCut], [.free, .age, .ldp],
    false⟩, bwkStopAllFrame]

def execWriteSectorFrame : Foot :=
  .union [⟨[Reg.oceAccOrderErr, Reg.oceCountsSeals, Reg.oceIrqStatusOrderErr, Reg.jnlCounts1Folds,
    Reg.cryCounts0Units, Reg.cryCounts1Poison], [.cry], false⟩, bwkStopAllFrame, faultRestartFrame]

def execFastDecodeDoneFrame : Foot :=
  .union [⟨[Reg.ldpStatusFast1Bufs, Reg.ldpStatusFast0Bufs, Reg.pmuOvfOvf, Reg.pmuCntLoCount, Reg.pmuCntHiCount,
    Reg.cryCounts0Units], [.free, .bwk, .age, .ldp, .cry], false⟩, outcomeAtFrame]

def execDecodeDeadlineCutFrame : Foot :=
  .union [⟨[Reg.ldpStatusFast1Bufs, Reg.ldpStatusFast0Bufs, Reg.ldpCounts0DeadlineCuts, Reg.ldpIrqStatusCut,
    Reg.pmuOvfOvf, Reg.pmuCntLoCount, Reg.pmuCntHiCount], [.free, .bwk, .age, .ldp], false⟩, outcomeAtFrame]

def execReadResultWriteFrame : Foot :=
  .union [⟨[Reg.bwkPlanksCount, Reg.bwkSlipsCount, Reg.bwkIrqStatusRevSlip, Reg.bwkIrqStatusWriteFault,
    Reg.bwkIrqStatusResult, Reg.pmuOvfOvf, Reg.pmuCntLoCount, Reg.pmuCntHiCount], [.bwk], false⟩, ringAnswerFrame]

def execDeepFrame : Foot :=
  ⟨[Reg.ldpStatusDeepBusy], [.ldp], false⟩

def execDeepJobDoneFrame : Foot :=
  .union [⟨[Reg.ldpStatusDeepBusy, Reg.ldpCounts1DeepOk, Reg.ldpCounts1DeepFail, Reg.ldpIrqStatusDeepFail,
    Reg.ldpIrqStatusJobDone, Reg.pmuOvfOvf, Reg.pmuCntLoCount, Reg.pmuCntHiCount, Reg.cryCounts0Units], [.free, .ldp,
    .cry], false⟩, ringAnswerFrame]

def execEncodeFrame : Foot :=
  .union [⟨[Reg.oceStatusBusy, Reg.cryCounts0Units], [.oce, .cry], false⟩, outcomeAtFrame]

def execRebuildFrame : Foot :=
  .union [⟨[Reg.oceStatusBusy, Reg.cryCounts0Units], [.oce, .cry], false⟩, outcomeAtFrame]

def execOceJobDoneFrame : Foot :=
  .union [⟨[Reg.oceStatusBusy, Reg.oceCountsRebuilds, Reg.oceIrqStatusJobFail, Reg.oceIrqStatusJobDone], [.oce],
    false⟩, ringAnswerFrame]

def execOceAccClrWriteFrame : Foot :=
  ⟨[Reg.oceAccK, Reg.oceAccJ, Reg.oceAccClrClr], [.resp, .oce], false⟩

def execOceAccClrApplyFrame : Foot :=
  ⟨[Reg.oceAccK, Reg.oceAccJ, Reg.oceAccClrClr], [.oce], false⟩

def execChannelGrantFrame : Foot :=
  ⟨[Reg.rdcStatusGrant, Reg.rdcStatusPhase], [.bwk, .chan], false⟩

def execRdcStagedApplyFrame : Foot :=
  ⟨[Reg.rdcStatusStaged, Reg.rdcIrqStatusStagedApplied], [.chan], true⟩

def execRdcProfDataAccessFrame : Foot :=
  ⟨[Reg.rdcModeExpertWrIgnored, Reg.rdcStatusStaged, Reg.rdcProfIdxWord, Reg.fltCounts0Corrected], [.resp, .chan],
    false⟩

def execRdcEqDataAccessFrame : Foot :=
  ⟨[Reg.rdcModeExpertWrIgnored, Reg.rdcStatusStaged, Reg.rdcEqIdxTap, Reg.fltCounts0Corrected], [.resp, .chan], false⟩

def execChannelLockLossFrame : Foot :=
  .union [⟨[Reg.astWfSnap0PosErr, Reg.astWfSnap0Proxy, Reg.astWfSnap1GateCause, Reg.astWfSnap1Head,
    Reg.astWfSnap1Iset, Reg.astWfAngleAngle], [.free], false⟩, bwkStopAllFrame]

def execChannelRelockFrame : Foot :=
  ⟨[], [.chan], false⟩

def execChannelRelockTimeoutFrame : Foot :=
  .union [unitFatalFrame]

def execRouteFrame : Foot :=
  .union [⟨[], [.hst], false⟩, ringAnswerFrame]

def execFoldFrame : Foot :=
  .union [⟨[Reg.jnlStatusFold], [.jnl], false⟩, ringAnswerFrame]

def execReleaseFrame : Foot :=
  .union [ringAnswerFrame, extentDropFrame]

def execTwinWaitExpiryFrame : Foot :=
  ⟨[Reg.jnlStatusTwinDegraded, Reg.jnlIrqStatusTwinDegraded], [.hst, .jnl], false⟩

def execFoldIdleStartFrame : Foot :=
  ⟨[Reg.jnlStatusFold, Reg.jnlIrqStatusFoldHeld], [.jnl], false⟩

def execJournalReplayFrame : Foot :=
  .union [⟨[Reg.oceAccK, Reg.oceAccJ, Reg.jnlStatusSpaceLow, Reg.jnlStatusReplay, Reg.jnlOccAct1, Reg.jnlOccAct0,
    Reg.jnlReplayLogTrimmed, Reg.jnlReplayLogRefolded, Reg.jnlReplayLogLost, Reg.jnlIrqStatusAckLoss,
    Reg.jnlIrqStatusSpaceLow, Reg.jnlIrqStatusReplayDone, Reg.fltStatusCause, Reg.fltStatusSafePend], [.jnl], false⟩,
    safeStopFrame]

def execPcieLaneFailFrame : Foot :=
  .union [⟨[Reg.hstStatusP1Up, Reg.hstStatusP1Width, Reg.hstStatusP1Speed, Reg.hstStatusP0Up, Reg.hstStatusP0Width,
    Reg.hstStatusP0Speed, Reg.hstStatusLanesDown, Reg.hstCounts1Retrains, Reg.hstIrqStatusLaneLost,
    Reg.hstIrqStatusLinkChg, Reg.fltCounts1Contained, Reg.fltIntMax, Reg.fltIntLast, Reg.fltIrqStatusIntDone], [],
    false⟩, mcWriteFrame]

def execSqTailDoorbellFrame : Foot :=
  .union [cqReadyFrame]

def execCqHeadDoorbellFrame : Foot :=
  .union [cqReadyFrame]

def execCommandFetchFrame : Foot :=
  .union [⟨[Reg.jnlSeqLoSeq, Reg.jnlSeqHiSeq, Reg.hstCounts0Aborted, Reg.hstCounts0NotAborted, Reg.hstCounts1CqPauses,
    Reg.hstCounts2Commands, Reg.hstAdmProdIdx, Reg.hstIrqStatusTagsOut, Reg.hstIrqStatusCqFull,
    Reg.hstIrqStatusAdmin], [], false⟩, modeAdvanceFrame]

def execCommandBeginFrame : Foot :=
  .union [⟨[Reg.hstTagsInUse, Reg.hstTagHwmHwm, Reg.bcmCounts2Recalls, Reg.bcmCounts2Remaps, Reg.bcmDirtyLines,
    Reg.pmuOvfOvf, Reg.pmuCntLoCount, Reg.pmuCntHiCount], [.free, .bcm, .hst, .jnl], false⟩, outcomeAtFrame]

def execCompletionPostFrame : Foot :=
  .union [cqReadyFrame]

def execFrontendRestartFrame : Foot :=
  .union [⟨[Reg.fltStatusCause, Reg.fltStatusSafePend, Reg.fltIntMax, Reg.fltIntLast, Reg.fltIrqStatusIntDone],
    [.bcm], false⟩, safeStopFrame]

def execCreateIoSqFrame : Foot :=
  ⟨[], [.hst], false⟩

def execCreateIoCqFrame : Foot :=
  ⟨[], [.hst], false⟩

def execDeleteIoSqFrame : Foot :=
  .union [⟨[Reg.hstTagsInUse, Reg.hstTagHwmHwm], [.bcm, .hst], false⟩, outcomeAtFrame]

def execDeleteIoCqFrame : Foot :=
  ⟨[Reg.hstPendEntries, Reg.hstPendCqsCqs], [.hst], false⟩

def execGetLogPageFrame : Foot :=
  ⟨[], [.free, .hst, .upd], false⟩

def execIdentifyFrame : Foot :=
  ⟨[], [.free, .hst], false⟩

def execAbortFrame : Foot :=
  .union [⟨[Reg.hstCounts0Aborted, Reg.hstCounts0NotAborted], [.bcm], false⟩, cqReadyFrame]

def execSetFeaturesFrame : Foot :=
  ⟨[], [.free, .hst], false⟩

def execSetFeaturesPowerMgmtFrame : Foot :=
  .union [modeAdvanceFrame]

def execSetFeaturesApstFrame : Foot :=
  ⟨[], [.hst], false⟩

def execSetFeaturesHctmFrame : Foot :=
  ⟨[Reg.thmHctmTmt2, Reg.thmHctmTmt1], [.hst], false⟩

def execSetFeaturesTwinFrame : Foot :=
  ⟨[Reg.jnlCtlTwin], [.hst], false⟩

def execSetFeaturesIdleCadenceFrame : Foot :=
  ⟨[], [.hst], false⟩

def execSetFeaturesNsMaskFrame : Foot :=
  ⟨[], [.hst], false⟩

def execGetFeaturesFrame : Foot :=
  ⟨[], [.free, .hst], false⟩

def execAsynchronousEventRequestFrame : Foot :=
  .union [cqReadyFrame]

def execFirmwareImageDownloadFrame : Foot :=
  .union [⟨[Reg.updIrqStatusDisplaced], [.dom], false⟩, ringAnswerFrame, cqReadyFrame, commitStageFrame]

def execFirmwareCommitCa0Frame : Foot :=
  .union [commitStageFrame]

def execFirmwareCommitCa1Frame : Foot :=
  .union [commitStageFrame]

def execFirmwareCommitCa2Frame : Foot :=
  ⟨[Reg.updStatusLock, Reg.updStatusPendSlot, Reg.updStatusPendState], [.hst], false⟩

def execFormatNvmFrame : Foot :=
  .union [⟨[Reg.cryStatusSlots], [.upd], false⟩, modeAdvanceFrame, extentDropFrame]

def execSanitizeFrame : Foot :=
  .union [⟨[Reg.cryStatusSlots], [.upd], false⟩, modeAdvanceFrame, extentDropFrame]

def execFlushFrame : Foot :=
  .union [⟨[Reg.hstTagsInUse, Reg.hstTagHwmHwm], [.hst], false⟩, outcomeAtFrame]

def execWriteFrame : Foot :=
  .union [writeRunFrame]

def execReadFrame : Foot :=
  .union [⟨[Reg.hstTagsInUse, Reg.hstTagHwmHwm, Reg.bcmCounts0Hits], [.hst], false⟩, readMissesFrame, outcomeAtFrame]

def execWriteZeroesFrame : Foot :=
  .union [⟨[Reg.jnlStatusTwinDegraded, Reg.jnlIrqStatusTwinDegraded, Reg.pmuOvfOvf, Reg.pmuCntLoCount,
    Reg.pmuCntHiCount], [.free, .bcm, .hst, .jnl], false⟩, outcomeAtFrame]

def execZoneAppendFrame : Foot :=
  .union [writeRunFrame]

def execZoneCloseFrame : Foot :=
  .union [⟨[Reg.hstTagsInUse, Reg.hstTagHwmHwm], [.hst], false⟩, outcomeAtFrame]

def execZoneFinishFrame : Foot :=
  .union [⟨[Reg.hstTagsInUse, Reg.hstTagHwmHwm], [.hst], false⟩, outcomeAtFrame]

def execZoneOpenFrame : Foot :=
  .union [⟨[Reg.hstTagsInUse, Reg.hstTagHwmHwm], [.hst], false⟩, outcomeAtFrame]

def execZoneResetFrame : Foot :=
  .union [⟨[Reg.simRetireMask, Reg.hstTagsInUse, Reg.hstTagHwmHwm, Reg.recStatusDropped, Reg.recStatusQueued,
    Reg.recIrqStatusDrop], [.recorder, .hst], false⟩, extentDropFrame, outcomeAtFrame]

def execZoneOfflineFrame : Foot :=
  .union [⟨[Reg.hstTagsInUse, Reg.hstTagHwmHwm], [.hst], false⟩, outcomeAtFrame]

def execSetZoneDescExtFrame : Foot :=
  .union [⟨[Reg.hstTagsInUse, Reg.hstTagHwmHwm], [.hst], false⟩, outcomeAtFrame]

def execReportZonesFrame : Foot :=
  .union [⟨[Reg.hstTagsInUse, Reg.hstTagHwmHwm], [.hst], false⟩, outcomeAtFrame]

def execExtendedReportZonesFrame : Foot :=
  .union [⟨[Reg.hstTagsInUse, Reg.hstTagHwmHwm], [.hst], false⟩, outcomeAtFrame]

def execAdminInboxConsumeFrame : Foot :=
  ⟨[Reg.hstAdmConsIdx, Reg.fltCounts0Corrected], [.resp], false⟩

def execAdminCompletionGoFrame : Foot :=
  .union [⟨[Reg.hstAdmCpl2Status], [.resp], false⟩, cqReadyFrame]

def execIdleCadenceStepFrame : Foot :=
  ⟨[Reg.angRungResult, Reg.angRungPhase, Reg.angRungPend, Reg.angRungPendTarget, Reg.angRungTarget,
    Reg.angIrqStatusRungDone], [.ang, .hst], false⟩

def execMiReadDataStructureFrame : Foot :=
  ⟨[], [.free, .hst], false⟩

def execMiSubsystemHealthPollFrame : Foot :=
  ⟨[], [.free, .hst], false⟩

def execMiControllerHealthPollFrame : Foot :=
  ⟨[], [.free, .hst], false⟩

def execMiConfigGetFrame : Foot :=
  ⟨[], [.hst], false⟩

def execMiConfigSetFrame : Foot :=
  ⟨[], [.hst], false⟩

def execMiTunneledAdminFrame : Foot :=
  ⟨[], [.free, .hst, .upd], false⟩

def execMiBasicMgmtCommandFrame : Foot :=
  ⟨[], [.free, .hst], false⟩

def execRingReqProdWriteFrame : Foot :=
  ⟨[Reg.rngStatusHeld, Reg.rngStatusStoppedFull, Reg.rngStatusIdle, Reg.rngReqProdIdx, Reg.fltCounts0Corrected],
    [.resp], false⟩

def execRingResConsWriteFrame : Foot :=
  ⟨[Reg.rngStatusHeld, Reg.rngStatusStoppedFull, Reg.rngStatusIdle, Reg.rngResConsIdx, Reg.fltCounts0Corrected],
    [.resp], false⟩

def execRingEnableFrame : Foot :=
  ⟨[Reg.bwkStatusState, Reg.rngIrqStatusRefused, Reg.rngCtlEnable, Reg.rngStatusLost, Reg.rngStatusHeld,
    Reg.rngStatusRefuse, Reg.rngStatusStoppedFull, Reg.rngStatusResultOvf, Reg.rngStatusIdle, Reg.rngReqProdIdx,
    Reg.rngReqConsIdx, Reg.rngResProdIdx, Reg.rngResConsIdx], [.resp, .rings], false⟩

def execRingDisableFrame : Foot :=
  ⟨[Reg.rngCtlEnable, Reg.rngStatusDraining, Reg.rngStatusIdle], [.resp], false⟩

def execRingDrainDoneFrame : Foot :=
  ⟨[Reg.bwkStatusState, Reg.rngIrqStatusDrained, Reg.rngStatusDraining, Reg.rngStatusIdle], [], false⟩

def execRingEntryAdmitFrame : Foot :=
  .union [⟨[Reg.fltCounts0Corrected], [], false⟩, bwkStopAllFrame]

def execHeldResultWriteFrame : Foot :=
  .union [⟨[Reg.rngIrqStatusResult, Reg.rngStatusHeld, Reg.rngStatusStoppedFull, Reg.rngStatusIdle, Reg.rngReqConsIdx,
    Reg.rngResProdIdx], [.rings], false⟩, outcomeAtFrame]

def execEncryptFrame : Foot :=
  .union [⟨[Reg.cryStatusBusy, Reg.cryCounts0Units], [.cry], false⟩, outcomeAtFrame]

def execDecryptFrame : Foot :=
  .union [⟨[Reg.cryStatusBusy, Reg.cryCounts0Units], [.cry], false⟩, outcomeAtFrame]

def execHashFrame : Foot :=
  .union [⟨[Reg.cryStatusBusy], [.cry], false⟩, outcomeAtFrame]

def execKeyLoadFrame : Foot :=
  ⟨[Reg.cryStatusSlots, Reg.cryStatusKeyWait, Reg.cryStatusBusy, Reg.cryIrqStatusKeyDone], [.cry], false⟩

def execKeyClearFrame : Foot :=
  ⟨[Reg.cryStatusSlots, Reg.cryStatusKeyWait, Reg.cryStatusBusy, Reg.cryIrqStatusKeyDone], [.cry], false⟩

def execKeyOpApplyFrame : Foot :=
  ⟨[Reg.cryStatusSlots, Reg.cryStatusKeyWait, Reg.cryIrqStatusKeyDone], [.cry], false⟩

def execCryEntryDoneFrame : Foot :=
  .union [⟨[Reg.cryStatusBusy, Reg.cryCounts1KeyEmpty, Reg.cryCounts1Poison, Reg.cryIrqStatusKeyEmpty,
    Reg.cryIrqStatusErr], [.cry], false⟩, ringAnswerFrame]

def execNopFrame : Foot :=
  .union [ringAnswerFrame]

def execKeycmdFrame : Foot :=
  .union [⟨[], [.upd], false⟩, ringAnswerFrame]

def execLookupFrame : Foot :=
  .union [⟨[Reg.bcmOpCtlOp, Reg.bcmOpCtlNs, Reg.bcmOpCtlMask], [.resp], false⟩, slotTryFrame]

def execAllocFrame : Foot :=
  .union [⟨[Reg.bcmOpCtlOp, Reg.bcmOpCtlNs, Reg.bcmOpCtlMask], [.resp], false⟩, slotTryFrame]

def execFillOkFrame : Foot :=
  .union [⟨[Reg.bcmOpCtlOp, Reg.bcmOpCtlNs, Reg.bcmOpCtlMask], [.resp], false⟩, slotTryFrame, outcomeAtFrame]

def execFillFailFrame : Foot :=
  .union [⟨[Reg.hstTagsInUse, Reg.hstTagHwmHwm, Reg.bcmOpCtlOp, Reg.bcmOpCtlNs, Reg.bcmOpCtlMask], [.resp, .hst],
    false⟩, slotTryFrame, outcomeAtFrame]

def execCleanFrame : Foot :=
  .union [⟨[Reg.bcmOpCtlOp, Reg.bcmOpCtlNs, Reg.bcmOpCtlMask], [.resp], false⟩, slotTryFrame]

def execInvalidateFrame : Foot :=
  .union [⟨[Reg.bcmOpCtlOp, Reg.bcmOpCtlNs, Reg.bcmOpCtlMask], [.resp], false⟩, slotTryFrame]

def execPinFrame : Foot :=
  .union [⟨[Reg.bcmOpCtlOp, Reg.bcmOpCtlNs, Reg.bcmOpCtlMask], [.resp], false⟩, slotTryFrame]

def execUnpinFrame : Foot :=
  .union [⟨[Reg.bcmOpCtlOp, Reg.bcmOpCtlNs, Reg.bcmOpCtlMask], [.resp], false⟩, slotTryFrame]

def execBcmReqPopFrame : Foot :=
  ⟨[Reg.bcmReq0Valid, Reg.bcmReq0Kind, Reg.bcmReq0Ns, Reg.bcmReq0Mask, Reg.bcmReq1Line, Reg.bcmReq2Frame,
    Reg.bcmReqCntEntries], [.resp, .bcm], false⟩

def execBcmWaysWriteFrame : Foot :=
  ⟨[Reg.bcmModeExpertWrIgnored, Reg.bcmWaysPend, Reg.bcmWaysOn, Reg.bcmDirtyLines, Reg.fltCounts0Corrected,
    Reg.pmuOvfOvf, Reg.pmuCntLoCount, Reg.pmuCntHiCount], [.resp, .bcm], false⟩

def execWayGatedFrame : Foot :=
  ⟨[Reg.bcmWaysPend, Reg.bcmDirtyLines, Reg.bcmIrqStatusWaysDone, Reg.pmuOvfOvf, Reg.pmuCntLoCount,
    Reg.pmuCntHiCount], [.bcm], false⟩

def execBcmEnWriteFrame : Foot :=
  ⟨[Reg.jnlStatusFold, Reg.bcmStatusState, Reg.bcmCtlEn], [.resp], false⟩

def execBcmDrainDoneFrame : Foot :=
  ⟨[Reg.jnlStatusFold, Reg.bcmStatusState, Reg.bcmDirtyLines, Reg.bcmIrqStatusOff], [.bcm], false⟩

def execMemCorrectedReadFrame : Foot :=
  ⟨[Reg.memStatusHardOvf, Reg.memStatusPinned, Reg.memStatusTrkUsed, Reg.memStatusCand, Reg.memCounts0CorrDram,
    Reg.memCounts0CorrSram, Reg.memCounts1CorrMram, Reg.memCounts2Hard, Reg.memLastErrValid, Reg.memLastErrKind,
    Reg.memLastErrArray, Reg.memLastErrMaster, Reg.memLastErrPosition, Reg.memLastAddrLoAddr, Reg.memLastAddrHiAddr,
    Reg.memIrqStatusHard, Reg.memIrqStatusCorr, Reg.fltCounts0Corrected, Reg.recStatusDropped, Reg.recStatusQueued,
    Reg.recIrqStatusDrop, Reg.pmuOvfOvf, Reg.pmuCntLoCount, Reg.pmuCntHiCount], [.recorder, .memc], false⟩

def execMemUncorrectableReadFrame : Foot :=
  .union [⟨[Reg.fltCounts1Contained], [.resp], false⟩, uncorrectableFrame, mcWriteFrame]

def execTrackerWritebackFrame : Foot :=
  ⟨[Reg.memStatusPinned, Reg.memStatusTrkUsed, Reg.memStatusCand], [.memc], false⟩

def execScrubStepFrame : Foot :=
  .union [⟨[Reg.memStatusHardOvf, Reg.memStatusPinned, Reg.memStatusTrkUsed, Reg.memStatusCand,
    Reg.memScrubPosSramPct, Reg.memScrubPosMramPct, Reg.memScrubPosDramPct, Reg.memCounts0CorrDram,
    Reg.memCounts0CorrSram, Reg.memCounts1CorrMram, Reg.memCounts2Hard, Reg.memIrqStatusHard, Reg.memIrqStatusCorr,
    Reg.fltCounts0Corrected, Reg.recStatusDropped, Reg.recStatusQueued, Reg.recIrqStatusDrop, Reg.pmuOvfOvf,
    Reg.pmuCntLoCount, Reg.pmuCntHiCount], [.recorder], false⟩, uncorrectableFrame]

def execMemInjectArmFrame : Foot :=
  ⟨[Reg.memModeExpertWrIgnored, Reg.memInjectArm, Reg.memInjectKind, Reg.fltCounts0Corrected], [.resp], false⟩

def execHartWatchdogExpiryFrame : Foot :=
  .union [⟨[Reg.fltIntMax, Reg.fltIntLast, Reg.fltCoreOnline, Reg.fltCoreFaults, Reg.fltIrqStatusTakeover,
    Reg.fltIrqStatusIntDone], [], false⟩, unitFatalFrame]

def execCoreFaultFrame : Foot :=
  .union [⟨[Reg.fltIntMax, Reg.fltIntLast, Reg.fltCoreOnline, Reg.fltCoreFaults, Reg.fltIrqStatusTakeover,
    Reg.fltIrqStatusIntDone], [], false⟩, unitFatalFrame]

def execCoreRejoinFrame : Foot :=
  ⟨[Reg.sysCoreRelRun, Reg.fltCoreRejoin, Reg.fltCoreHeld], [.flt], false⟩

def execFltCoreOnlineFrame : Foot :=
  ⟨[Reg.fltCoreOnline, Reg.fltCoreRejoin], [.resp], false⟩

def execFltWdogKickFrame : Foot :=
  ⟨[Reg.fltWdogUs], [.resp, .flt], false⟩

def execFltDeclareContainedFrame : Foot :=
  .union [⟨[Reg.fltCounts0Corrected, Reg.fltCounts1Contained], [.resp], false⟩, mcWriteFrame]

def execFltDeclareDeviceFatalFrame : Foot :=
  .union [⟨[Reg.fltStatusCause, Reg.fltStatusSafePend, Reg.fltCounts0Corrected], [.resp], false⟩, safeStopFrame]

def execFltDeclareHartFrame : Foot :=
  .union [⟨[Reg.fltIntMax, Reg.fltIntLast, Reg.fltCoreOnline, Reg.fltCoreFaults, Reg.fltIrqStatusTakeover,
    Reg.fltIrqStatusIntDone], [.resp], false⟩, unitFatalFrame]

def execWardenWatchdogExpiryFrame : Foot :=
  .union [⟨[Reg.sysOpmodeCause, Reg.sysOpmodePrevMode, Reg.sysOpmodeMode, Reg.pwrVcoreVguard, Reg.pwrVcoreSetpointMv,
    Reg.rstStatusPerst, Reg.rstStatusPhase, Reg.rstDrstsCount, Reg.rstOpsecLoOpsec, Reg.rstOpsecHiOpsec,
    Reg.hvbStatusHb, Reg.hvbStatusRetractLine, Reg.hvbStatusHvFaultLine], [.loHalf, .hiLatch, .resp, .boot, .rst,
    .ang, .sim, .cs, .ce, .spn, .pre, .age, .ldp, .oce, .cry, .bcm, .jnl, .change, .gated, .shadow, .pwr, .thm, .dom],
    true⟩, hvRetractFrame, trialLoseFrame, causeSetFrame]

def execLockstepMismatchFrame : Foot :=
  .union [⟨[Reg.fltStatusCause], [], false⟩, safeStopFrame]

def execWardenRestartDoneFrame : Foot :=
  .union [⟨[Reg.fltStatusCause, Reg.fltStatusSafePend], [], false⟩, mcWriteFrame]

def execRunFrame : Foot :=
  ⟨[Reg.calStatusRunning, Reg.calCmdResStatus], [.resp, .cal, .chan], false⟩

def execSaveFrame : Foot :=
  .union [⟨[Reg.calCmdResStatus, Reg.updSetStatusFormat, Reg.updSetStatusMirrorPend, Reg.updSetGenGen], [.resp],
    false⟩, outcomeAtFrame]

def execFactoryFrame : Foot :=
  ⟨[Reg.calCmdResStatus], [.resp, .cal], false⟩

def execCalInternalRunEndFrame : Foot :=
  .union [⟨[Reg.calStatusDue, Reg.calGrpStatTempLast], [.chan], false⟩, calAbortedFrame]

def execCalWindowCloseFrame : Foot :=
  .union [⟨[Reg.astSuspectHeads, Reg.astStagedPend, Reg.calStatusDue, Reg.calGrpStatTempLast], [.free], false⟩,
    bwkStopAllFrame]

def execCalOverlayWriteFrame : Foot :=
  ⟨[Reg.calStatusOvlPend], [.resp, .cal], false⟩

def execCalOverlayApplyFrame : Foot :=
  ⟨[Reg.angSkewSkew, Reg.fltCounts0Corrected, Reg.calStatusOvlPend, Reg.calIrqStatusOvlApplied], [.cal], false⟩

def execAgeEvalTimerFrame : Foot :=
  .union [⟨[Reg.ageStatusPend, Reg.ageSiliconDriftPpm, Reg.ageEvalsCount, Reg.ageIrqStatusRetire,
    Reg.ageIrqStatusProposal, Reg.ageIrqStatusEvalDone], [.free, .age], false⟩, ageEffectFrame]

def execEvalFrame : Foot :=
  .union [⟨[Reg.ageStatusPend, Reg.ageSiliconDriftPpm, Reg.ageEvalsCount, Reg.ageIrqStatusRetire,
    Reg.ageIrqStatusProposal, Reg.ageIrqStatusEvalDone], [.resp, .free, .age], false⟩, ageEffectFrame]

def execApplyFrame : Foot :=
  .union [⟨[Reg.ageModeExpertWrIgnored, Reg.ageStatusPend], [.resp], false⟩, ageEffectFrame]

def execDiscardFrame : Foot :=
  .union [⟨[Reg.ageModeExpertWrIgnored, Reg.ageStatusPend], [.resp], false⟩, outcomeAtFrame]

def execPowerLossDetectFrame : Foot :=
  .union [⟨[], [.free], false⟩, lossBeginFrame]

def execLossSectorBoundaryFrame : Foot :=
  .union [⟨[], [.jnl, .pwr], false⟩, hvRetractFrame]

def execLossCoreHoldFrame : Foot :=
  .union [⟨[Reg.sysCoreRelRun, Reg.fltCoreHeld], [.pwr], false⟩, jobsAbortFrame]

def execLastGaspRecordFrame : Foot :=
  ⟨[Reg.hstStatusP1Up, Reg.hstStatusP1Width, Reg.hstStatusP1Speed, Reg.hstStatusP0Up, Reg.hstStatusP0Width,
    Reg.hstStatusP0Speed, Reg.hstIrqStatusLinkChg, Reg.pwrVholdMv, Reg.recStatusDropped, Reg.recStatusQueued,
    Reg.recIrqStatusDrop], [.recorder, .flt, .ang, .pwr], false⟩

def execVholdBelowVminFrame : Foot :=
  ⟨[Reg.pwrStatusRailsOk, Reg.pwrVholdMv, Reg.hvbStatusHb, Reg.hvSupplyRailsOk], [.boot, .pwr], false⟩

def execSupplyReturnFrame : Foot :=
  .union [⟨[Reg.pwrStatusVmOk, Reg.pwrStatusVlOk, Reg.pwrVinVmMv, Reg.pwrVinVlMv, Reg.pwrVcoreVguard,
    Reg.pwrVcoreSetpointMv, Reg.pwrCountsGlitches, Reg.rstStatusPerst, Reg.rstStatusPhase, Reg.rstDrstsCount,
    Reg.rstOpsecLoOpsec, Reg.rstOpsecHiOpsec, Reg.hvbStatusHb, Reg.hvbStatusRetractLine, Reg.hvbStatusHvFaultLine],
    [.loHalf, .hiLatch, .resp, .boot, .flt, .rst, .ang, .sim, .cs, .rings, .bwk, .srv, .ce, .spn, .ast, .pre, .cal,
    .age, .chan, .ldp, .oce, .cry, .bcm, .memc, .hst, .jnl, .change, .gated, .shadow, .pwr, .thm, .dom, .upd], true⟩,
    bootEnterFrame, causeSetFrame]

def execHoldupTestDoneFrame : Foot :=
  .union [⟨[Reg.ageStatusPend, Reg.ageHoldup0BudgetMs, Reg.ageHoldup1CapUf, Reg.ageHoldup1EsrMohm,
    Reg.ageIrqStatusRetire, Reg.ageIrqStatusProposal, Reg.pwrStatusHoldupReady, Reg.pwrVholdMv,
    Reg.pwrIrqStatusHoldupReady, Reg.hvSupplyCharging], [.pwr], false⟩, modeAdvanceFrame, ageEffectFrame]

def execHoldupReadyTimeoutFrame : Foot :=
  .union [⟨[Reg.jnlStatusHoldupLow, Reg.ageStatusHoldupLow, Reg.ageIrqStatusHoldupLow, Reg.pwrStatusHoldupLow,
    Reg.pwrStatusHoldupFail, Reg.pwrIrqStatusHoldupLow], [], false⟩, modeAdvanceFrame]

def execVmArrivalFrame : Foot :=
  .union [⟨[Reg.pwrStatusVmOk, Reg.pwrStatusVlOk, Reg.pwrVinVmMv, Reg.pwrVinVlMv, Reg.hvSupplyCharging,
    Reg.hvSupplyBoostOn], [.pwr], false⟩, modeAdvanceFrame]

def execDykeLinkDownFrame : Foot :=
  ⟨[Reg.pwrIrqStatusLinkDown, Reg.hvbStatusLinkUp, Reg.hvbRetrainsCount], [], false⟩

def execDykeLinkRetrainedFrame : Foot :=
  .union [⟨[Reg.srvOutMa, Reg.srvLastFaultWedge, Reg.srvLastFaultCause, Reg.hvbStatusLinkUp], [], false⟩,
    bwkStopAllFrame, unloadRampReachedFrame]

def execDykeSilenceRetractFrame : Foot :=
  .union [⟨[Reg.pwrIrqStatusHvFault, Reg.hvbStatusHvFaultLine, Reg.hvFaultCauseCause], [], false⟩, hvRetractFrame]

def execHeartbeatLossFrame : Foot :=
  .union [⟨[Reg.pwrIrqStatusHvFault, Reg.hvbStatusHb, Reg.hvbStatusHvFaultLine, Reg.hvFaultCauseCause], [], false⟩,
    hvRetractFrame]

def execHvFaultAssertFrame : Foot :=
  .union [⟨[Reg.pwrIrqStatusHvFault, Reg.hvbStatusHvFaultLine, Reg.hvFaultCauseCause], [], false⟩, ringAnswerFrame]

def execHvbAccessFrame : Foot :=
  ⟨[Reg.angRevLoRev, Reg.fltCounts0Corrected, Reg.fltMcrWordWord, Reg.fltOwnerIdxWord, Reg.domTimeLoUs,
    Reg.pmuCycleLoCyc, Reg.pmuOvfOvf, Reg.pmuCntLoCount, Reg.pmuCntHiCount, Reg.hvbStatusErrs,
    Reg.hvbStatusHvFaultLine], [.hiLatch, .resp], true⟩

def execHvbCtlRetractFrame : Foot :=
  .union [⟨[Reg.fltCounts0Corrected, Reg.hvbStatusRetractLine, Reg.hvbCtlRetract], [.resp], false⟩, hvRetractFrame]

def execThmSampleFrame : Foot :=
  .union [⟨[Reg.calStatusDue, Reg.calStatusRunning, Reg.calIrqStatusDue, Reg.thmStatusStepDue, Reg.thmStatusTmt2Act,
    Reg.thmStatusTmt1Act, Reg.thmStatusRise, Reg.thmStatusFast, Reg.thmStatusLevel, Reg.thmCompositeKelvin,
    Reg.thmIrqStatusStepDue, Reg.thmIrqStatusRise, Reg.thmIrqStatusLevel, Reg.thmIrqStatusThresh, Reg.thmTempValid,
    Reg.thmTempTemp], [.cal, .chan, .thm], false⟩, sluiceSetFrame, cqReadyFrame]

def execRiseClearExpiryFrame : Foot :=
  .union [⟨[Reg.thmStatusStepDue, Reg.thmStatusTmt2Act, Reg.thmStatusTmt1Act, Reg.thmStatusRise,
    Reg.thmIrqStatusStepDue], [.thm], false⟩, sluiceSetFrame, cqReadyFrame]

def execSluiceGraceExpiryFrame : Foot :=
  .union [⟨[Reg.thmStatusStepDue, Reg.thmIrqStatusStepDue], [.thm], false⟩, sluiceSetFrame]

def execSluiceStepExpiryFrame : Foot :=
  .union [⟨[Reg.thmStatusStepDue, Reg.thmIrqStatusStepDue], [], false⟩, sluiceSetFrame]

def execSluiceReleaseExpiryFrame : Foot :=
  .union [sluiceSetFrame]

def execStepFrame : Foot :=
  .union [⟨[Reg.thmModeExpertWrIgnored, Reg.thmStatusStepDue], [.resp], false⟩, sluiceSetFrame]

def execThmCmdReleaseFrame : Foot :=
  .union [⟨[Reg.thmModeExpertWrIgnored, Reg.thmStatusStepDue], [.resp], false⟩, sluiceSetFrame]

def execThermalTripFrame : Foot :=
  .union [⟨[Reg.thmTripLogCount, Reg.thmTripLogGroup, Reg.thmTripLogSensor, Reg.thmTripLogPeak, Reg.hvbStatusTripIn,
    Reg.hvbStatusTripOut], [], false⟩, hvRetractFrame, lossBeginFrame]

def execTripLogicHoldFrame : Foot :=
  .union [⟨[Reg.sysCoreRelRun, Reg.hstStatusP1Up, Reg.hstStatusP1Width, Reg.hstStatusP1Speed, Reg.hstStatusP0Up,
    Reg.hstStatusP0Width, Reg.hstStatusP0Speed, Reg.hstIrqStatusLinkChg, Reg.fltCoreHeld], [.pwr], false⟩,
    jobsAbortFrame]

def execThermalRestartFrame : Foot :=
  .union [⟨[Reg.pwrVcoreVguard, Reg.pwrVcoreSetpointMv, Reg.rstStatusPerst, Reg.rstStatusPhase, Reg.rstDrstsCount,
    Reg.rstOpsecLoOpsec, Reg.rstOpsecHiOpsec, Reg.hvbStatusHb, Reg.hvbStatusRetractLine, Reg.hvbStatusHvFaultLine],
    [.loHalf, .hiLatch, .resp, .boot, .flt, .rst, .ang, .sim, .cs, .rings, .bwk, .srv, .ce, .spn, .ast, .pre, .cal,
    .age, .chan, .ldp, .oce, .cry, .bcm, .memc, .hst, .jnl, .change, .gated, .shadow, .pwr, .thm, .dom, .upd], true⟩,
    bootEnterFrame, causeSetFrame]

def execResetNLowFrame : Foot :=
  .union [⟨[Reg.sysOpmodeCause, Reg.sysOpmodePrevMode, Reg.sysOpmodeMode, Reg.pwrVcoreVguard, Reg.pwrVcoreSetpointMv,
    Reg.rstStatusPerst, Reg.rstStatusPhase, Reg.rstDrstsCount, Reg.rstOpsecLoOpsec, Reg.rstOpsecHiOpsec,
    Reg.hvbStatusHb, Reg.hvbStatusRetractLine, Reg.hvbStatusHvFaultLine], [.loHalf, .hiLatch, .resp, .free, .boot,
    .rst, .ang, .sim, .cs, .ce, .spn, .pre, .age, .ldp, .oce, .cry, .bcm, .hst, .jnl, .change, .gated, .shadow, .pwr,
    .thm, .dom, .upd], true⟩, hvRetractFrame, causeSetFrame]

def execRstDrstReqWriteFrame : Foot :=
  .union [⟨[Reg.sysOpmodeCause, Reg.sysOpmodePrevMode, Reg.sysOpmodeMode, Reg.fltCounts0Corrected, Reg.pwrVcoreVguard,
    Reg.pwrVcoreSetpointMv, Reg.rstStatusPerst, Reg.rstStatusPhase, Reg.rstDrstsCount, Reg.rstOpsecLoOpsec,
    Reg.rstOpsecHiOpsec, Reg.hvbStatusHb, Reg.hvbStatusRetractLine, Reg.hvbStatusHvFaultLine], [.loHalf, .hiLatch,
    .resp, .boot, .rst, .ang, .sim, .cs, .ce, .spn, .pre, .age, .ldp, .oce, .cry, .bcm, .hst, .jnl, .change, .gated,
    .shadow, .pwr, .thm, .dom, .upd], true⟩, hvRetractFrame, causeSetFrame]

def execNvmSubsystemResetFrame : Foot :=
  .union [⟨[Reg.sysOpmodeCause, Reg.sysOpmodePrevMode, Reg.sysOpmodeMode, Reg.pwrVcoreVguard, Reg.pwrVcoreSetpointMv,
    Reg.rstStatusPerst, Reg.rstStatusPhase, Reg.rstDrstsCount, Reg.rstOpsecLoOpsec, Reg.rstOpsecHiOpsec,
    Reg.hvbStatusHb, Reg.hvbStatusRetractLine, Reg.hvbStatusHvFaultLine], [.loHalf, .hiLatch, .resp, .boot, .rst,
    .ang, .sim, .cs, .ce, .spn, .pre, .age, .ldp, .oce, .cry, .bcm, .hst, .jnl, .change, .gated, .shadow, .pwr, .thm,
    .dom, .upd], true⟩, hvRetractFrame, causeSetFrame]

def execDrstWriteStopFrame : Foot :=
  .union [⟨[], [.rst, .jnl], false⟩, bwkStopAllFrame]

def execDrstHoldFrame : Foot :=
  .union [⟨[Reg.sysOpmodeCause, Reg.sysOpmodePrevMode, Reg.sysOpmodeMode, Reg.pwrVcoreVguard, Reg.pwrVcoreSetpointMv,
    Reg.pwrCountsGlitches, Reg.rstStatusPerst, Reg.rstStatusPhase, Reg.rstDrstsCount, Reg.rstOpsecLoOpsec,
    Reg.rstOpsecHiOpsec, Reg.hvbStatusHb, Reg.hvbStatusRetractLine, Reg.hvbStatusHvFaultLine], [.loHalf, .hiLatch,
    .resp, .boot, .rst, .ang, .sim, .cs, .ce, .spn, .pre, .age, .ldp, .oce, .cry, .bcm, .hst, .jnl, .change, .gated,
    .shadow, .pwr, .thm, .dom, .upd], true⟩, hvRetractFrame, causeSetFrame]

def execDrstReleaseFrame : Foot :=
  ⟨[Reg.memStatusPinned, Reg.memStatusCand, Reg.memIrqStatusRepairFail, Reg.rstStatusPhase, Reg.recStatusDropped,
    Reg.recStatusQueued, Reg.recIrqStatusDrop, Reg.hvbStatusHb], [.boot, .recorder, .memc, .pwr], false⟩

def execPerstNAssertFrame : Foot :=
  .union [⟨[Reg.hstStatusP1Up, Reg.hstStatusP1Width, Reg.hstStatusP1Speed, Reg.hstStatusP0Up, Reg.hstStatusP0Width,
    Reg.hstStatusP0Speed, Reg.hstStatusLanesDown, Reg.hstPendEntries, Reg.hstPendCqsCqs, Reg.hstIrqStatusLinkChg,
    Reg.rstStatusPerst, Reg.rstStatusP1Hrst, Reg.rstStatusP0Hrst], [], false⟩, writeRunFrame]

def execPerstNDeassertFrame : Foot :=
  ⟨[Reg.hstIrqStatusHrst, Reg.rstStatusPerst, Reg.rstStatusP1Hrst, Reg.rstStatusP0Hrst, Reg.rstHrstP1, Reg.rstHrstP0,
    Reg.rstIrqStatusHrst1, Reg.rstIrqStatusHrst0], [], false⟩

def execHotResetFrame : Foot :=
  .union [⟨[Reg.hstStatusP1Up, Reg.hstStatusP1Width, Reg.hstStatusP1Speed, Reg.hstStatusP0Up, Reg.hstStatusP0Width,
    Reg.hstStatusP0Speed, Reg.hstStatusLanesDown, Reg.hstPendEntries, Reg.hstPendCqsCqs, Reg.hstIrqStatusHrst,
    Reg.hstIrqStatusLinkChg, Reg.rstHrstP1, Reg.rstHrstP0, Reg.rstIrqStatusHrst1, Reg.rstIrqStatusHrst0], [], false⟩,
    writeRunFrame]

def execFlrFrame : Foot :=
  .union [⟨[Reg.hstPendEntries, Reg.hstPendCqsCqs, Reg.rstFuncFlrs, Reg.rstFuncFlrFunc, Reg.rstIrqStatusFlr], [],
    false⟩, writeRunFrame]

def execCcEnClearFrame : Foot :=
  .union [⟨[Reg.hstPendEntries, Reg.hstPendCqsCqs, Reg.rstFuncCrstFunc, Reg.rstIrqStatusCrst], [], false⟩,
    writeRunFrame]

def execCcEnSetFrame : Foot :=
  ⟨[], [.hst], false⟩

def execSafeFrame : Foot :=
  .union [⟨[Reg.fltStatusCause, Reg.fltStatusSafePend, Reg.domStatusSafeSeen, Reg.domPortStatusLastHeard,
    Reg.domPortErrsCrc], [.dom], false⟩, safeStopFrame]

def execNoticeFrame : Foot :=
  ⟨[Reg.srvIrqStatusNbrDrop, Reg.domNbrCountsTaken, Reg.domPortErrsCrc, Reg.pmuOvfOvf, Reg.pmuCntLoCount,
    Reg.pmuCntHiCount], [.srv, .dom], false⟩

def execSyncFrame : Foot :=
  .union [⟨[Reg.domStatusTimeLocked, Reg.domStatusTimeValid, Reg.domStatusState, Reg.domTimeLoUs, Reg.domTimeHiUs,
    Reg.domSyncErrNs, Reg.domSyncLinkdly, Reg.domIrqStatusRing, Reg.domIrqStatusStateChg, Reg.domPortStatusBroken,
    Reg.domPortStatusLastHeard, Reg.domPortStatusLinkdly, Reg.domPortErrsCrc, Reg.pmuOvfOvf, Reg.pmuCntLoCount,
    Reg.pmuCntHiCount], [.dom], false⟩, ringAnswerFrame]

def execEnumFrame : Foot :=
  .union [⟨[Reg.domStatusPort, Reg.domStatusPosition, Reg.domStatusTimeLocked, Reg.domStatusTimeValid,
    Reg.domStatusState, Reg.domStaggerLastPos, Reg.domIrqStatusRing, Reg.domIrqStatusPosChg, Reg.domIrqStatusStateChg,
    Reg.domPortStatusBroken, Reg.domPortStatusLastHeard, Reg.domPortStatusWorkers, Reg.domPortErrsCrc, Reg.pmuOvfOvf,
    Reg.pmuCntLoCount, Reg.pmuCntHiCount], [.ce, .dom], false⟩, ringAnswerFrame]

def execTokenReqFrame : Foot :=
  .union [⟨[Reg.spnIrqStatusToken, Reg.domIrqStatusRx, Reg.domRxBytes, Reg.domRxCtlDropped, Reg.domRxCtlCount,
    Reg.domPortStatusLastHeard, Reg.domPortErrsCrc], [], false⟩, spnLeaveTokenFrame]

def execTokenGrantFrame : Foot :=
  .union [⟨[Reg.spnIrqStatusToken, Reg.domIrqStatusRx, Reg.domRxBytes, Reg.domRxCtlDropped, Reg.domRxCtlCount,
    Reg.domPortStatusLastHeard, Reg.domPortErrsCrc], [], false⟩, spnLeaveTokenFrame]

def execTokenReturnFrame : Foot :=
  .union [⟨[Reg.spnIrqStatusToken, Reg.domIrqStatusRx, Reg.domRxBytes, Reg.domRxCtlDropped, Reg.domRxCtlCount,
    Reg.domPortStatusLastHeard, Reg.domPortErrsCrc], [], false⟩, spnLeaveTokenFrame]

def execTokenQueuedFrame : Foot :=
  ⟨[Reg.domIrqStatusRx, Reg.domRxBytes, Reg.domRxCtlDropped, Reg.domRxCtlCount, Reg.domPortStatusLastHeard,
    Reg.domPortErrsCrc, Reg.pmuOvfOvf, Reg.pmuCntLoCount, Reg.pmuCntHiCount], [.dom], false⟩

def execActivateFrame : Foot :=
  .union [⟨[Reg.domIrqStatusRx, Reg.domRxBytes, Reg.domRxCtlDropped, Reg.domRxCtlCount, Reg.domPortStatusLastHeard,
    Reg.domPortErrsCrc, Reg.updStatusPendState, Reg.updActAtLoUs, Reg.updActAtHiUs, Reg.updActCtlResult,
    Reg.updActTagTag, Reg.updIrqStatusScheduled, Reg.pmuOvfOvf, Reg.pmuCntLoCount, Reg.pmuCntHiCount], [.dom], false⟩,
    ringAnswerFrame]

def execResetFrame : Foot :=
  .union [⟨[Reg.sysOpmodeCause, Reg.sysOpmodePrevMode, Reg.sysOpmodeMode, Reg.fltCounts0Corrected, Reg.pwrVcoreVguard,
    Reg.pwrVcoreSetpointMv, Reg.rstStatusPerst, Reg.rstStatusPhase, Reg.rstDrstsCount, Reg.rstOpsecLoOpsec,
    Reg.rstOpsecHiOpsec, Reg.domIrqStatusRx, Reg.domRxBytes, Reg.domRxCtlDropped, Reg.domRxCtlCount,
    Reg.domPortStatusLastHeard, Reg.domPortErrsCrc, Reg.hvbStatusHb, Reg.hvbStatusRetractLine,
    Reg.hvbStatusHvFaultLine], [.loHalf, .hiLatch, .resp, .boot, .rst, .ang, .sim, .cs, .ce, .spn, .pre, .age, .ldp,
    .oce, .cry, .bcm, .hst, .jnl, .change, .gated, .shadow, .pwr, .thm, .dom, .upd], true⟩, hvRetractFrame,
    causeSetFrame]

def execHealthFrame : Foot :=
  .union [⟨[Reg.domIrqStatusRx, Reg.domRxBytes, Reg.domRxCtlDropped, Reg.domRxCtlCount, Reg.domPortStatusLastHeard,
    Reg.domPortErrsCrc, Reg.updStatusPendState, Reg.updActAtLoUs, Reg.updActAtHiUs, Reg.updActCtlResult,
    Reg.updActTagTag, Reg.updWaveCtlState, Reg.updIrqStatusWave, Reg.updIrqStatusScheduled, Reg.pmuOvfOvf,
    Reg.pmuCntLoCount, Reg.pmuCntHiCount], [.dom, .upd], false⟩, ringAnswerFrame]

def execPullFrame : Foot :=
  ⟨[Reg.domIrqStatusBulk, Reg.domIrqStatusRx, Reg.domRxBytes, Reg.domRxCtlDropped, Reg.domRxCtlCount,
    Reg.domPortStatusLastHeard, Reg.domPortErrsCrc, Reg.pmuOvfOvf, Reg.pmuCntLoCount, Reg.pmuCntHiCount], [.dom],
    false⟩

def execDataFrame : Foot :=
  ⟨[Reg.domIrqStatusRx, Reg.domRxBytes, Reg.domRxCtlDropped, Reg.domRxCtlCount, Reg.domPortStatusLastHeard,
    Reg.domPortErrsCrc, Reg.pmuOvfOvf, Reg.pmuCntLoCount, Reg.pmuCntHiCount], [.dom], false⟩

def execBlockEndFrame : Foot :=
  .union [⟨[Reg.domIrqStatusRx, Reg.domRxBytes, Reg.domRxCtlDropped, Reg.domRxCtlCount, Reg.domPortStatusLastHeard,
    Reg.domPortErrsCrc, Reg.updIrqStatusDisplaced], [.dom], false⟩, ringAnswerFrame, cqReadyFrame, commitStageFrame]

def execAckFrame : Foot :=
  ⟨[Reg.domIrqStatusBulk, Reg.domIrqStatusRx, Reg.domRxBytes, Reg.domRxCtlDropped, Reg.domRxCtlCount,
    Reg.domPortStatusLastHeard, Reg.domPortErrsCrc, Reg.pmuOvfOvf, Reg.pmuCntLoCount, Reg.pmuCntHiCount], [.dom],
    false⟩

def execNakFrame : Foot :=
  ⟨[Reg.domIrqStatusBulk, Reg.domIrqStatusRx, Reg.domRxBytes, Reg.domRxCtlDropped, Reg.domRxCtlCount,
    Reg.domPortStatusLastHeard, Reg.domPortErrsCrc, Reg.pmuOvfOvf, Reg.pmuCntLoCount, Reg.pmuCntHiCount], [.dom],
    false⟩

def execTaskFrame : Foot :=
  ⟨[Reg.domIrqStatusRx, Reg.domRxBytes, Reg.domRxCtlDropped, Reg.domRxCtlCount, Reg.domPortStatusLastHeard,
    Reg.domPortErrsCrc, Reg.pmuOvfOvf, Reg.pmuCntLoCount, Reg.pmuCntHiCount], [.dom, .upd], false⟩

def execUserFrame : Foot :=
  ⟨[Reg.domIrqStatusRx, Reg.domRxBytes, Reg.domRxCtlDropped, Reg.domRxCtlCount, Reg.domPortStatusLastHeard,
    Reg.domPortErrsCrc, Reg.pmuOvfOvf, Reg.pmuCntLoCount, Reg.pmuCntHiCount], [.dom], false⟩

def execWxLaneUpFrame : Foot :=
  .union [⟨[Reg.domStatusTimeLocked, Reg.domStatusTimeValid, Reg.domStatusState, Reg.domIrqStatusRing,
    Reg.domIrqStatusStateChg, Reg.domPortStatusUp], [.dom], false⟩, ringAnswerFrame]

def execWxLaneDownFrame : Foot :=
  .union [⟨[Reg.domStatusTimeLocked, Reg.domStatusTimeValid, Reg.domStatusState, Reg.domIrqStatusRing,
    Reg.domIrqStatusStateChg, Reg.domPortStatusUp, Reg.domPortStatusFailed, Reg.domPortErrsDowns], [.dom], false⟩,
    unitFatalFrame]

def execListenTimeoutFrame : Foot :=
  .union [⟨[Reg.domStatusTimeLocked, Reg.domStatusTimeValid, Reg.domStatusState, Reg.domIrqStatusStateChg], [.dom],
    false⟩, ringAnswerFrame]

def execSyncMissingFrame : Foot :=
  .union [⟨[Reg.domStatusTimeLocked, Reg.domStatusTimeValid, Reg.domStatusState, Reg.domSyncMissed,
    Reg.domIrqStatusStateChg], [.dom], false⟩, ringAnswerFrame]

def execOrphanTimeoutFrame : Foot :=
  .union [⟨[Reg.domStatusTimeLocked, Reg.domStatusTimeValid, Reg.domStatusState, Reg.domIrqStatusStateChg], [.dom],
    false⟩, ringAnswerFrame]

def execEnumSendFrame : Foot :=
  ⟨[Reg.domIrqStatusRing, Reg.domPortStatusBroken, Reg.pmuOvfOvf, Reg.pmuCntLoCount, Reg.pmuCntHiCount], [.dom],
    false⟩

def execSyncSendFrame : Foot :=
  ⟨[Reg.domTimeLoUs, Reg.domTimeHiUs, Reg.domIrqStatusRing, Reg.domPortStatusBroken, Reg.pmuOvfOvf, Reg.pmuCntLoCount,
    Reg.pmuCntHiCount], [.dom], false⟩

def execDomTimeSetWriteFrame : Foot :=
  ⟨[Reg.fltCounts0Corrected, Reg.domTimeLoUs, Reg.domTimeHiUs], [.loHalf, .resp, .dom], false⟩

def execTokenReqRepeatFrame : Foot :=
  ⟨[Reg.pmuOvfOvf, Reg.pmuCntLoCount, Reg.pmuCntHiCount], [.dom], false⟩

def execTokenFallbackFrame : Foot :=
  ⟨[], [.dom], false⟩

def execStaggerExpiryFrame : Foot :=
  .union [spnLeaveTokenFrame]

def execTokenReclaimFrame : Foot :=
  .union [⟨[Reg.spnIrqStatusToken], [], false⟩, spnLeaveTokenFrame]

def execHealthSendFrame : Foot :=
  ⟨[Reg.pmuOvfOvf, Reg.pmuCntLoCount, Reg.pmuCntHiCount], [.dom], false⟩

def execBulkResendTimeoutFrame : Foot :=
  ⟨[Reg.domIrqStatusBulk, Reg.pmuOvfOvf, Reg.pmuCntLoCount, Reg.pmuCntHiCount], [.dom], false⟩

def execDomSafeWriteFrame : Foot :=
  ⟨[Reg.fltCounts0Corrected, Reg.pmuOvfOvf, Reg.pmuCntLoCount, Reg.pmuCntHiCount], [.resp, .free, .dom], false⟩

def execSafeRepeatFrame : Foot :=
  ⟨[Reg.pmuOvfOvf, Reg.pmuCntLoCount, Reg.pmuCntHiCount], [.free, .dom], false⟩

def execDomTxGoFrame : Foot :=
  ⟨[Reg.domTxCtlPort, Reg.pmuOvfOvf, Reg.pmuCntLoCount, Reg.pmuCntHiCount], [.resp, .dom], false⟩

def execDomRxPopFrame : Foot :=
  ⟨[Reg.domRxBytes, Reg.domRxCtlCount], [.resp, .dom], false⟩

def execUpdStageAuthDoneFrame : Foot :=
  .union [⟨[Reg.updStatusReject, Reg.updStatusSimErr, Reg.updIrqStatusRejected, Reg.updIrqStatusStaged, Reg.pmuOvfOvf,
    Reg.pmuCntLoCount, Reg.pmuCntHiCount], [.dom], false⟩, ringAnswerFrame, commitStageFrame]

def execLockIdleExpiryFrame : Foot :=
  ⟨[Reg.updStatusLock], [.upd], false⟩

def execActivateAtReachedFrame : Foot :=
  .union [⟨[Reg.sysOpmodeCause, Reg.sysOpmodePrevMode, Reg.sysOpmodeMode, Reg.pwrVcoreVguard, Reg.pwrVcoreSetpointMv,
    Reg.rstStatusPerst, Reg.rstStatusPhase, Reg.rstDrstsCount, Reg.rstOpsecLoOpsec, Reg.rstOpsecHiOpsec,
    Reg.domTimeLoUs, Reg.domTimeHiUs, Reg.hvbStatusHb, Reg.hvbStatusRetractLine, Reg.hvbStatusHvFaultLine], [.loHalf,
    .hiLatch, .resp, .boot, .rst, .ang, .sim, .cs, .ce, .spn, .pre, .age, .ldp, .oce, .cry, .bcm, .hst, .jnl, .change,
    .gated, .shadow, .pwr, .thm, .dom, .upd], true⟩, hvRetractFrame, causeSetFrame]

def execWaveAtReachedFrame : Foot :=
  .union [⟨[Reg.updStatusPendState, Reg.updActAtLoUs, Reg.updActAtHiUs, Reg.updActCtlResult, Reg.updActTagTag,
    Reg.updWaveCtlState, Reg.updWaveCtlGroup, Reg.updIrqStatusWave, Reg.updIrqStatusScheduled, Reg.pmuOvfOvf,
    Reg.pmuCntLoCount, Reg.pmuCntHiCount], [.dom, .upd], false⟩, ringAnswerFrame]

def execWaveTimeoutFrame : Foot :=
  ⟨[Reg.updWaveCtlState, Reg.updIrqStatusWave], [], false⟩

def execUpdConfirmWriteFrame : Foot :=
  .union [⟨[Reg.fltCounts0Corrected, Reg.updStatusLock, Reg.updStatusTrial, Reg.updStatusActiveSlot, Reg.updSlotState,
    Reg.updTrialBoots, Reg.updTrialElapsed], [.resp, .upd], false⟩, ringAnswerFrame]

def execTrialWindowExpiryFrame : Foot :=
  .union [⟨[Reg.sysOpmodeCause, Reg.sysOpmodePrevMode, Reg.sysOpmodeMode, Reg.pwrVcoreVguard, Reg.pwrVcoreSetpointMv,
    Reg.rstStatusPerst, Reg.rstStatusPhase, Reg.rstDrstsCount, Reg.rstOpsecLoOpsec, Reg.rstOpsecHiOpsec,
    Reg.updTrialElapsed, Reg.hvbStatusHb, Reg.hvbStatusRetractLine, Reg.hvbStatusHvFaultLine], [.loHalf, .hiLatch,
    .resp, .boot, .rst, .ang, .sim, .cs, .ce, .spn, .pre, .age, .ldp, .oce, .cry, .bcm, .jnl, .change, .gated,
    .shadow, .pwr, .thm, .dom], true⟩, hvRetractFrame, trialLoseFrame, causeSetFrame]

def execUpdSetCmdFrame : Foot :=
  .union [⟨[Reg.updSetStatusFormat, Reg.updSetStatusMirrorPend, Reg.updSetStatusResult, Reg.updSetGenGen], [.resp],
    false⟩, outcomeAtFrame]

def execSettingsMirrorDoneFrame : Foot :=
  ⟨[Reg.updSetStatusMirrorPend], [.upd], false⟩

def execServicePortRequestFrame : Foot :=
  ⟨[], [.upd], false⟩

def execUandonakOpenFrame : Foot :=
  .union [⟨[Reg.updIrqStatusDisplaced], [.free, .dom], false⟩, ringAnswerFrame, cqReadyFrame, commitStageFrame]

def execUandonakBlockFrame : Foot :=
  ⟨[], [.free, .upd], false⟩

def execUandonakCloseFrame : Foot :=
  .union [⟨[Reg.updStatusLock, Reg.updStatusPendSlot, Reg.updStatusPendState, Reg.updStatusReject,
    Reg.updStatusSimErr, Reg.updSlotState, Reg.updSlotSecVer, Reg.updSlotSetVer, Reg.updIrqStatusRejected,
    Reg.updIrqStatusStaged], [.free, .upd], false⟩, ringAnswerFrame]

def execUandonakArmFrame : Foot :=
  ⟨[Reg.updStatusLock, Reg.updStatusPendSlot, Reg.updStatusPendState], [.free, .upd], false⟩

def execUandonakSvckeyFrame : Foot :=
  .union [⟨[Reg.updStatusReject, Reg.updStatusSimErr, Reg.updIrqStatusRejected, Reg.updIrqStatusDisplaced,
    Reg.updIrqStatusStaged], [.free, .dom], false⟩, ringAnswerFrame, cqReadyFrame, commitStageFrame]

def execUandonakKeycmdFrame : Foot :=
  ⟨[], [.free, .upd], false⟩

def execUandonakRecreadFrame : Foot :=
  ⟨[], [.upd], false⟩

def execUandonakBaudFrame : Foot :=
  ⟨[], [.free, .upd], false⟩

def execUandonakResetFrame : Foot :=
  .union [⟨[Reg.sysOpmodeCause, Reg.sysOpmodePrevMode, Reg.sysOpmodeMode, Reg.pwrVcoreVguard, Reg.pwrVcoreSetpointMv,
    Reg.rstStatusPerst, Reg.rstStatusPhase, Reg.rstDrstsCount, Reg.rstOpsecLoOpsec, Reg.rstOpsecHiOpsec,
    Reg.hvbStatusHb, Reg.hvbStatusRetractLine, Reg.hvbStatusHvFaultLine], [.loHalf, .hiLatch, .resp, .boot, .rst,
    .ang, .sim, .cs, .ce, .spn, .pre, .age, .ldp, .oce, .cry, .bcm, .hst, .jnl, .change, .gated, .shadow, .pwr, .thm,
    .dom, .upd], true⟩, hvRetractFrame, causeSetFrame]

def execUandonakCmdDoneFrame : Foot :=
  ⟨[], [.free, .upd], false⟩

def execRecordPostFrame : Foot :=
  ⟨[Reg.recStatusDropped, Reg.recStatusQueued, Reg.recIrqStatusDrop], [.recorder], false⟩

def execRecPostGoFrame : Foot :=
  ⟨[Reg.fltCounts0Corrected, Reg.recStatusDropped, Reg.recStatusQueued, Reg.recIrqStatusDrop], [.resp, .recorder],
    false⟩

def execRecordWriteFrame : Foot :=
  .union [⟨[Reg.recHeadSeqSeq, Reg.recStatusQueued, Reg.recIrqStatusSev], [.recorder], false⟩, outcomeAtFrame]

def execCounterWrapFrame : Foot :=
  ⟨[Reg.pmuOvfOvf, Reg.pmuCntLoCount, Reg.pmuCntHiCount], [], false⟩

def execClrAllFrame : Foot :=
  ⟨[Reg.fltCounts0Corrected, Reg.pmuCtlUserEn, Reg.pmuCntLoCount, Reg.pmuCntHiCount], [.resp], false⟩

def execPmuCounterWriteFrame : Foot :=
  ⟨[Reg.fltCounts0Corrected, Reg.pmuCntLoCount, Reg.pmuCntHiCount], [.loHalf, .resp], false⟩

def execFastDecoderCheckFailFrame : Foot :=
  .union [⟨[Reg.ldpStatusFast1Bufs, Reg.ldpStatusFast0Bufs], [.age], false⟩, unitFatalFrame]

def execPcieLinkUpFrame : Foot :=
  ⟨[Reg.hstStatusP1Up, Reg.hstStatusP1Width, Reg.hstStatusP1Speed, Reg.hstStatusP0Up, Reg.hstStatusP0Width,
    Reg.hstStatusP0Speed, Reg.hstIrqStatusLinkChg], [], false⟩

def execAggregationTimeExpiryFrame : Foot :=
  ⟨[], [.hst], false⟩

def execRailOutOfRangeFrame : Foot :=
  ⟨[Reg.pwrStatusRailsOk, Reg.pwrIrqStatusRail, Reg.hvSupplyRailsOk], [], false⟩

/-- What a command may change. -/
def commandFrame : Instr → Foot
  | .registerWrite _ _ _ _ _ => execRegisterWriteFrame
  | .modeWrite u _ => execModeWriteFrame u
  | .levelChangeApply u => execLevelChangeApplyFrame u
  | .controlStoreWrite _ _ _ => execControlStoreWriteFrame
  | .por _ => execPorFrame
  | .porRelease _ => execPorReleaseFrame
  | .b1FillDone _ => execB1FillDoneFrame
  | .setAuthDone _ => execSetAuthDoneFrame
  | .imageStreamDone => execImageStreamDoneFrame
  | .imageAuthDone => execImageAuthDoneFrame
  | .imageCheckDone => execImageCheckDoneFrame
  | .imageApplyDone _ => execImageApplyDoneFrame
  | .b4Done => execB4DoneFrame
  | .svcModeAssert => execSvcModeAssertFrame
  | .svcModeHoldExpiry => execSvcModeHoldExpiryFrame
  | .safeParkDone => execSafeParkDoneFrame
  | .standbyUnitGate _ => execStandbyUnitGateFrame
  | .standbyWakeRestore => execStandbyWakeRestoreFrame
  | .apstIdleExpiry _ => execApstIdleExpiryFrame
  | .simRetireAddWrite _ _ => execSimRetireAddWriteFrame
  | .spindleAbove300 _ => execSpindleAbove300Frame
  | .spindleBelow300 => execSpindleBelow300Frame
  | .goodWedgeMark _ _ _ _ => execGoodWedgeMarkFrame
  | .missingWedgeMark _ _ => execMissingWedgeMarkFrame
  | .coastWedgesExpiry => execCoastWedgesExpiryFrame
  | .revStore => execRevStoreFrame
  | .xchkDetect _ _ => execXchkDetectFrame
  | .ceilingChange _ _ => execCeilingChangeFrame
  | .rungTargetWrite _ => execRungTargetWriteFrame
  | .rungHeld => execRungHeldFrame
  | .schedRungSwitch => execSchedRungSwitchFrame
  | .rungRampEnd => execRungRampEndFrame
  | .rungSettled => execRungSettledFrame
  | .rungRetuneDone => execRungRetuneDoneFrame
  | .rungSettleTimeout => execRungSettleTimeoutFrame
  | .returnSettleTimeout => execReturnSettleTimeoutFrame
  | .angCmdHold => execAngCmdHoldFrame
  | .angCmdRamp => execAngCmdRampFrame
  | .angCmdRetune => execAngCmdRetuneFrame
  | .angCmdRelease => execAngCmdReleaseFrame
  | .angCmdAbort => execAngCmdAbortFrame
  | .opsecStore => execOpsecStoreFrame
  | .snapshotTake _ _ => execSnapshotTakeFrame
  | .alarmArm _ _ => execAlarmArmFrame
  | .alarmFire _ => execAlarmFireFrame
  | .plankFetch _ _ => execPlankFetchFrame
  | .plankSeek _ _ => execPlankSeekFrame
  | .plankSettle _ _ => execPlankSettleFrame
  | .plankRead _ _ => execPlankReadFrame
  | .plankWrite _ _ => execPlankWriteFrame
  | .plankPreheat _ _ => execPlankPreheatFrame
  | .plankProbe _ _ => execPlankProbeFrame
  | .plankCal _ _ => execPlankCalFrame
  | .plankMark _ _ => execPlankMarkFrame
  | .markerPlank _ _ => execMarkerPlankFrame
  | .microwordExecute _ _ _ => execMicrowordExecuteFrame
  | .parityReloadDone _ => execParityReloadDoneFrame
  | .nolockTimeout _ _ => execNolockTimeoutFrame
  | .writeGateFall _ _ _ => execWriteGateFallFrame
  | .bwkAbort _ _ => execBwkAbortFrame
  | .bwkResume _ => execBwkResumeFrame
  | .servoSample _ _ _ => execServoSampleFrame
  | .lawOverrun _ => execLawOverrunFrame
  | .coastExhausted _ => execCoastExhaustedFrame
  | .feLimitFault _ => execFeLimitFaultFrame
  | .settleRunMet _ => execSettleRunMetFrame
  | .settlePlankRun _ _ => execSettlePlankRunFrame
  | .settleTimeout _ _ => execSettleTimeoutFrame
  | .reacquired _ _ => execReacquiredFrame
  | .reacqTimeout _ => execReacqTimeoutFrame
  | .seekArrival _ _ => execSeekArrivalFrame
  | .seekTimeout _ _ => execSeekTimeoutFrame
  | .seekVerrFault _ _ => execSeekVerrFaultFrame
  | .srvCmdLoad _ _ _ _ => execSrvCmdLoadFrame
  | .srvCmdUnload _ => execSrvCmdUnloadFrame
  | .srvCmdRetract _ => execSrvCmdRetractFrame
  | .unloadRampReached _ => execUnloadRampReachedFrame
  | .retractDone _ _ => execRetractDoneFrame
  | .setupReplay _ => execSetupReplayFrame
  | .tapDataAccess _ _ => execTapDataAccessFrame
  | .spnCmdStart _ _ => execSpnCmdStartFrame
  | .spnCmdStop => execSpnCmdStopFrame
  | .spnCmdClear _ => execSpnCmdClearFrame
  | .alignTimeExpiry => execAlignTimeExpiryFrame
  | .handoverReached => execHandoverReachedFrame
  | .spinupTimeout => execSpinupTimeoutFrame
  | .zeroCrossing _ _ _ => execZeroCrossingFrame
  | .zcWindowMiss => execZcWindowMissFrame
  | .zcLost => execZcLostFrame
  | .offspeedSet => execOffspeedSetFrame
  | .speedBelowFlyMin _ => execSpeedBelowFlyMinFrame
  | .spindleBrakeDone _ => execSpindleBrakeDoneFrame
  | .retractStart _ _ => execRetractStartFrame
  | .retractPhaseEnd _ => execRetractPhaseEndFrame
  | .retractPhaseTimeout _ => execRetractPhaseTimeoutFrame
  | .astSample _ _ _ => execAstSampleFrame
  | .proxyLoss _ _ => execProxyLossFrame
  | .astStagedApply _ => execAstStagedApplyFrame
  | .astTblDataAccess _ _ => execAstTblDataAccessFrame
  | .astSetDataAccess _ _ => execAstSetDataAccessFrame
  | .preampFault _ _ => execPreampFaultFrame
  | .preampFaultClear _ => execPreampFaultClearFrame
  | .preXferGo _ => execPreXferGoFrame
  | .preTransactionDone _ => execPreTransactionDoneFrame
  | .preReadTimeout => execPreReadTimeoutFrame
  | .preSetupDataAccess _ => execPreSetupDataAccessFrame
  | .readSector _ _ _ => execReadSectorFrame
  | .writeSector _ _ => execWriteSectorFrame
  | .fastDecodeDone _ _ _ _ => execFastDecodeDoneFrame
  | .decodeDeadlineCut _ _ _ _ => execDecodeDeadlineCutFrame
  | .readResultWrite _ => execReadResultWriteFrame
  | .deep => execDeepFrame
  | .deepJobDone _ _ _ => execDeepJobDoneFrame
  | .encode => execEncodeFrame
  | .rebuild => execRebuildFrame
  | .oceJobDone => execOceJobDoneFrame
  | .oceAccClrWrite _ => execOceAccClrWriteFrame
  | .oceAccClrApply => execOceAccClrApplyFrame
  | .channelGrant _ _ => execChannelGrantFrame
  | .rdcStagedApply _ => execRdcStagedApplyFrame
  | .rdcProfDataAccess _ _ => execRdcProfDataAccessFrame
  | .rdcEqDataAccess _ _ => execRdcEqDataAccessFrame
  | .channelLockLoss _ _ _ => execChannelLockLossFrame
  | .channelRelock _ => execChannelRelockFrame
  | .channelRelockTimeout _ => execChannelRelockTimeoutFrame
  | .route => execRouteFrame
  | .fold => execFoldFrame
  | .release => execReleaseFrame
  | .twinWaitExpiry _ => execTwinWaitExpiryFrame
  | .foldIdleStart => execFoldIdleStartFrame
  | .journalReplay _ => execJournalReplayFrame
  | .pcieLaneFail _ _ => execPcieLaneFailFrame
  | .sqTailDoorbell _ _ _ => execSqTailDoorbellFrame
  | .cqHeadDoorbell _ _ _ => execCqHeadDoorbellFrame
  | .commandFetch _ _ _ _ _ => execCommandFetchFrame
  | .commandBegin _ => execCommandBeginFrame
  | .completionPost _ _ => execCompletionPostFrame
  | .frontendRestart _ _ => execFrontendRestartFrame
  | .createIoSq _ _ _ _ _ _ => execCreateIoSqFrame
  | .createIoCq _ _ _ _ _ _ => execCreateIoCqFrame
  | .deleteIoSq _ _ => execDeleteIoSqFrame
  | .deleteIoCq _ _ => execDeleteIoCqFrame
  | .getLogPage _ _ _ _ _ => execGetLogPageFrame
  | .identify _ _ _ _ => execIdentifyFrame
  | .abort _ _ _ _ => execAbortFrame
  | .setFeatures _ _ _ _ => execSetFeaturesFrame
  | .setFeaturesPowerMgmt _ _ => execSetFeaturesPowerMgmtFrame
  | .setFeaturesApst _ _ _ _ => execSetFeaturesApstFrame
  | .setFeaturesHctm _ _ _ => execSetFeaturesHctmFrame
  | .setFeaturesTwin _ _ _ => execSetFeaturesTwinFrame
  | .setFeaturesIdleCadence _ _ _ => execSetFeaturesIdleCadenceFrame
  | .setFeaturesNsMask _ _ => execSetFeaturesNsMaskFrame
  | .getFeatures _ _ _ _ => execGetFeaturesFrame
  | .asynchronousEventRequest _ _ => execAsynchronousEventRequestFrame
  | .firmwareImageDownload _ _ _ => execFirmwareImageDownloadFrame
  | .firmwareCommitCa0 _ _ => execFirmwareCommitCa0Frame
  | .firmwareCommitCa1 _ _ => execFirmwareCommitCa1Frame
  | .firmwareCommitCa2 _ _ => execFirmwareCommitCa2Frame
  | .formatNvm _ _ _ _ _ _ => execFormatNvmFrame
  | .sanitize _ _ _ => execSanitizeFrame
  | .flush _ => execFlushFrame
  | .write _ _ _ _ => execWriteFrame
  | .read _ _ => execReadFrame
  | .writeZeroes _ => execWriteZeroesFrame
  | .zoneAppend _ _ _ _ => execZoneAppendFrame
  | .zoneClose _ => execZoneCloseFrame
  | .zoneFinish _ => execZoneFinishFrame
  | .zoneOpen _ => execZoneOpenFrame
  | .zoneReset _ => execZoneResetFrame
  | .zoneOffline _ => execZoneOfflineFrame
  | .setZoneDescExt _ => execSetZoneDescExtFrame
  | .reportZones _ => execReportZonesFrame
  | .extendedReportZones _ => execExtendedReportZonesFrame
  | .adminInboxConsume _ => execAdminInboxConsumeFrame
  | .adminCompletionGo _ => execAdminCompletionGoFrame
  | .idleCadenceStep _ => execIdleCadenceStepFrame
  | .miReadDataStructure _ => execMiReadDataStructureFrame
  | .miSubsystemHealthPoll _ => execMiSubsystemHealthPollFrame
  | .miControllerHealthPoll _ _ => execMiControllerHealthPollFrame
  | .miConfigGet _ => execMiConfigGetFrame
  | .miConfigSet _ _ => execMiConfigSetFrame
  | .miTunneledAdmin _ _ _ _ _ _ => execMiTunneledAdminFrame
  | .miBasicMgmtCommand _ => execMiBasicMgmtCommandFrame
  | .ringReqProdWrite _ _ => execRingReqProdWriteFrame
  | .ringResConsWrite _ _ => execRingResConsWriteFrame
  | .ringEnable _ => execRingEnableFrame
  | .ringDisable _ => execRingDisableFrame
  | .ringDrainDone _ => execRingDrainDoneFrame
  | .ringEntryAdmit _ => execRingEntryAdmitFrame
  | .heldResultWrite _ => execHeldResultWriteFrame
  | .encrypt => execEncryptFrame
  | .decrypt => execDecryptFrame
  | .hash => execHashFrame
  | .keyLoad => execKeyLoadFrame
  | .keyClear => execKeyClearFrame
  | .keyOpApply => execKeyOpApplyFrame
  | .cryEntryDone => execCryEntryDoneFrame
  | .nop => execNopFrame
  | .keycmd => execKeycmdFrame
  | .lookup _ _ => execLookupFrame
  | .alloc _ _ => execAllocFrame
  | .fillOk _ _ => execFillOkFrame
  | .fillFail _ _ => execFillFailFrame
  | .clean _ _ => execCleanFrame
  | .invalidate _ _ => execInvalidateFrame
  | .pin _ _ => execPinFrame
  | .unpin _ _ => execUnpinFrame
  | .bcmReqPop => execBcmReqPopFrame
  | .bcmWaysWrite _ => execBcmWaysWriteFrame
  | .wayGated _ => execWayGatedFrame
  | .bcmEnWrite _ => execBcmEnWriteFrame
  | .bcmDrainDone => execBcmDrainDoneFrame
  | .memCorrectedRead _ _ _ => execMemCorrectedReadFrame
  | .memUncorrectableRead _ _ => execMemUncorrectableReadFrame
  | .trackerWriteback _ => execTrackerWritebackFrame
  | .scrubStep _ _ => execScrubStepFrame
  | .memInjectArm _ => execMemInjectArmFrame
  | .hartWatchdogExpiry _ _ => execHartWatchdogExpiryFrame
  | .coreFault _ _ => execCoreFaultFrame
  | .coreRejoin _ => execCoreRejoinFrame
  | .fltCoreOnline _ _ => execFltCoreOnlineFrame
  | .fltWdogKick _ _ _ => execFltWdogKickFrame
  | .fltDeclareContained _ _ _ => execFltDeclareContainedFrame
  | .fltDeclareDeviceFatal _ _ _ => execFltDeclareDeviceFatalFrame
  | .fltDeclareHart _ _ _ _ => execFltDeclareHartFrame
  | .wardenWatchdogExpiry => execWardenWatchdogExpiryFrame
  | .lockstepMismatch => execLockstepMismatchFrame
  | .wardenRestartDone => execWardenRestartDoneFrame
  | .run _ _ => execRunFrame
  | .save => execSaveFrame
  | .factory _ => execFactoryFrame
  | .calInternalRunEnd _ _ _ => execCalInternalRunEndFrame
  | .calWindowClose _ _ _ _ => execCalWindowCloseFrame
  | .calOverlayWrite _ => execCalOverlayWriteFrame
  | .calOverlayApply _ => execCalOverlayApplyFrame
  | .ageEvalTimer _ _ => execAgeEvalTimerFrame
  | .eval _ _ => execEvalFrame
  | .apply _ => execApplyFrame
  | .discard _ => execDiscardFrame
  | .powerLossDetect _ _ => execPowerLossDetectFrame
  | .lossSectorBoundary => execLossSectorBoundaryFrame
  | .lossCoreHold => execLossCoreHoldFrame
  | .lastGaspRecord _ => execLastGaspRecordFrame
  | .vholdBelowVmin _ => execVholdBelowVminFrame
  | .supplyReturn _ _ => execSupplyReturnFrame
  | .holdupTestDone _ _ _ => execHoldupTestDoneFrame
  | .holdupReadyTimeout => execHoldupReadyTimeoutFrame
  | .vmArrival _ => execVmArrivalFrame
  | .dykeLinkDown => execDykeLinkDownFrame
  | .dykeLinkRetrained => execDykeLinkRetrainedFrame
  | .dykeSilenceRetract => execDykeSilenceRetractFrame
  | .heartbeatLoss => execHeartbeatLossFrame
  | .hvFaultAssert _ => execHvFaultAssertFrame
  | .hvbAccess _ _ _ _ _ => execHvbAccessFrame
  | .hvbCtlRetract _ _ => execHvbCtlRetractFrame
  | .thmSample _ _ => execThmSampleFrame
  | .riseClearExpiry _ => execRiseClearExpiryFrame
  | .sluiceGraceExpiry => execSluiceGraceExpiryFrame
  | .sluiceStepExpiry => execSluiceStepExpiryFrame
  | .sluiceReleaseExpiry => execSluiceReleaseExpiryFrame
  | .step => execStepFrame
  | .thmCmdRelease => execThmCmdReleaseFrame
  | .thermalTrip _ _ => execThermalTripFrame
  | .tripLogicHold => execTripLogicHoldFrame
  | .thermalRestart _ => execThermalRestartFrame
  | .resetNLow _ => execResetNLowFrame
  | .rstDrstReqWrite _ _ => execRstDrstReqWriteFrame
  | .nvmSubsystemReset _ _ => execNvmSubsystemResetFrame
  | .drstWriteStop => execDrstWriteStopFrame
  | .drstHold => execDrstHoldFrame
  | .drstRelease _ => execDrstReleaseFrame
  | .perstNAssert => execPerstNAssertFrame
  | .perstNDeassert => execPerstNDeassertFrame
  | .hotReset _ => execHotResetFrame
  | .flr _ => execFlrFrame
  | .ccEnClear _ => execCcEnClearFrame
  | .ccEnSet _ _ _ _ _ _ => execCcEnSetFrame
  | .safe _ => execSafeFrame
  | .notice _ _ => execNoticeFrame
  | .sync _ _ _ => execSyncFrame
  | .enum _ => execEnumFrame
  | .tokenReq _ => execTokenReqFrame
  | .tokenGrant _ => execTokenGrantFrame
  | .tokenReturn _ => execTokenReturnFrame
  | .tokenQueued _ => execTokenQueuedFrame
  | .activate _ => execActivateFrame
  | .reset _ => execResetFrame
  | .health _ => execHealthFrame
  | .pull _ => execPullFrame
  | .data _ => execDataFrame
  | .blockEnd _ => execBlockEndFrame
  | .ack _ => execAckFrame
  | .nak _ => execNakFrame
  | .task _ => execTaskFrame
  | .user _ => execUserFrame
  | .wxLaneUp _ => execWxLaneUpFrame
  | .wxLaneDown _ _ => execWxLaneDownFrame
  | .listenTimeout => execListenTimeoutFrame
  | .syncMissing => execSyncMissingFrame
  | .orphanTimeout => execOrphanTimeoutFrame
  | .enumSend => execEnumSendFrame
  | .syncSend _ => execSyncSendFrame
  | .domTimeSetWrite _ _ => execDomTimeSetWriteFrame
  | .tokenReqRepeat => execTokenReqRepeatFrame
  | .tokenFallback => execTokenFallbackFrame
  | .staggerExpiry => execStaggerExpiryFrame
  | .tokenReclaim _ => execTokenReclaimFrame
  | .healthSend => execHealthSendFrame
  | .bulkResendTimeout => execBulkResendTimeoutFrame
  | .domSafeWrite _ _ => execDomSafeWriteFrame
  | .safeRepeat => execSafeRepeatFrame
  | .domTxGo _ => execDomTxGoFrame
  | .domRxPop _ => execDomRxPopFrame
  | .updStageAuthDone => execUpdStageAuthDoneFrame
  | .lockIdleExpiry => execLockIdleExpiryFrame
  | .activateAtReached => execActivateAtReachedFrame
  | .waveAtReached => execWaveAtReachedFrame
  | .waveTimeout => execWaveTimeoutFrame
  | .updConfirmWrite _ _ => execUpdConfirmWriteFrame
  | .trialWindowExpiry => execTrialWindowExpiryFrame
  | .updSetCmd _ => execUpdSetCmdFrame
  | .settingsMirrorDone => execSettingsMirrorDoneFrame
  | .servicePortRequest _ => execServicePortRequestFrame
  | .uandonakOpen => execUandonakOpenFrame
  | .uandonakBlock => execUandonakBlockFrame
  | .uandonakClose => execUandonakCloseFrame
  | .uandonakArm => execUandonakArmFrame
  | .uandonakSvckey _ => execUandonakSvckeyFrame
  | .uandonakKeycmd => execUandonakKeycmdFrame
  | .uandonakRecread => execUandonakRecreadFrame
  | .uandonakBaud => execUandonakBaudFrame
  | .uandonakReset => execUandonakResetFrame
  | .uandonakCmdDone => execUandonakCmdDoneFrame
  | .recordPost _ _ _ _ _ => execRecordPostFrame
  | .recPostGo _ _ _ => execRecPostGoFrame
  | .recordWrite => execRecordWriteFrame
  | .counterWrap _ => execCounterWrapFrame
  | .clrAll _ _ => execClrAllFrame
  | .pmuCounterWrite _ _ _ _ => execPmuCounterWriteFrame
  | .fastDecoderCheckFail _ => execFastDecoderCheckFailFrame
  | .pcieLinkUp _ _ _ => execPcieLinkUpFrame
  | .aggregationTimeExpiry _ _ => execAggregationTimeExpiryFrame
  | .railOutOfRange _ => execRailOutOfRangeFrame

end Sys2Proof.Machine
end

