-- ==== Sys2Proof/Certificates/Slice0/Obligations.lean ====
section
/-!
DEFINITION. The statements for the provers. A Complete… statement has one part for each command, and each part concludes that `exec`
answers a next state with the command's own effect, under conditions on the state and the operands alone. The line before a
part says what it states.
-/

section
open Sys2Proof Sys2Proof.Machine

/-- A step takes the command at the front of the queue and executes it on the state whose queue is the rest (R14, R29: every
row of the command table is taken so; notes/assumptions/5.md). -/
def Obligations.StepRunsFront : Prop :=
  ∀ (s : State) (c : Instr) (rest : List Instr), s.pending = c :: rest → step s = exec c { s with pending := rest }

/-- A step on an empty queue is one idle fabric cycle: it answers, PMU_CYCLE counts one and wraps at 64 bits, and the queue stays
empty. What else an idle cycle carries on is the model's choice (notes/assumptions/5.md). -/
def Obligations.IdleStepCounts : Prop :=
  ∀ (s : State), s.pending = [] → ∃ t, step s = .next t ∧ t.pending = [] ∧
    t.rdPair Reg.pmuCycleLoCyc Reg.pmuCycleHiCyc = (s.rdPair Reg.pmuCycleLoCyc Reg.pmuCycleHiCyc + 1) % 2 ^ 64

/-- Every command is answered with a next state, in every state: none faults, none is refused. -/
def Obligations.EveryCommandAnswers : Prop :=
  ∀ (i : Instr) (s : State), ∃ t, exec i s = .next t

/-- After reset every element of every register field whose Reset column gives a number holds that number (R16). -/
def Obligations.ResetHoldsResetColumn : Prop :=
  ∀ rows ∈ regRows, ∀ r ∈ rows, ∀ v, r.reset = .val v → ∀ k, k < r.count → State.reset.rd (r.fld.elem k) = v

/-- Right after reset the register file and memory are in canonical form. -/
def Obligations.ResetIsCanonical : Prop :=
  Canonical State.reset

/-- Every step, a command or an idle cycle, keeps the register file and memory in canonical form, whatever state it begins in. -/
def Obligations.StepKeepsCanonical : Prop :=
  ∀ (s t : State), Canonical s → step s = .next t → Canonical t

/-- A step never puts a command into the queue: it takes the one at the front, if there is one, and leaves the rest as it stood. -/
def Obligations.StepTakesOnlyFront : Prop :=
  ∀ (s t : State), step s = .next t → t.pending = s.pending.drop 1 ∧ s.free ≤ t.free

/-- Every command keeps its frame: no bit of a register outside the fields of `commandFrame`, no part of the state that it does not
list, and not the queue, changes. -/
def Obligations.EveryCommandKeepsFrame : Prop :=
  ∀ (i : Instr) (s t : State), exec i s = .next t → Keeps (commandFrame i) s t

/-- A command whose frame does not list memory leaves every byte of memory as it was. -/
def Obligations.CommandsThatStoreNothing : Prop :=
  ∀ (i : Instr) (s t : State), Part.mem ∉ (commandFrame i).parts → exec i s = .next t → ∀ a, t.byte a = s.byte a

/-- A store to SRAM, to the MRAM firmware region outside the journal index, or to DRAM that BCM does not reserve completes; its
bytes, little-endian, stand at the address stored to, and every byte outside them reads as before (R9, R25, R27, R276). -/
def Obligations.StoreReachesItsBytesOnly : Prop :=
  ∀ (s : State) (m addr size data : Nat) (priv : Priv), 0 < size →
    (accessRange s addr size = some 1 ∨ (accessRange s addr size = some 3 ∧ indexTouched s addr size = false) ∨
      (accessRange s addr size = some 6 ∧ s.inFreeDram addr size = true)) →
    ∃ t, exec (.registerWrite m priv addr size data) s = .next t ∧ t.resp = .done 0 ∧ t.bytes addr size = leBytes size data ∧
      ∀ b, (b < addr ∨ addr + size ≤ b) → t.byte b = s.byte b

/-- A store that no range takes whole (R25), one to a read-only MRAM region (R26), and one to a unit window that is not an aligned
32-bit one (R12) ends with a bus error and is counted as a corrected event; no other register bit and no byte of memory changes. -/
def Obligations.RefusedStoreChangesNothing : Prop :=
  ∀ (s : State) (m addr size data : Nat) (priv : Priv), 0 < size →
    (accessRange s addr size = none ∨ accessRange s addr size = some 2 ∨
      (accessRange s addr size = some 4 ∧ (size ≠ 4 ∨ addr % 4 ≠ 0))) →
    ∃ t, exec (.registerWrite m priv addr size data) s = .next t ∧ t.resp = .busError ∧
      t.rd Reg.fltCounts0Corrected = min (s.rd Reg.fltCounts0Corrected + 1) 4294967295 ∧
      (∀ a, a ≠ Reg.fltCounts0Corrected.addr → t.rdWord a = s.rdWord a) ∧ t.mem = s.mem

/-- R378: FLT_DECLARE from machine mode. CLASS 1 (without HART valid) writes a contained record with CODE 0x0070 + SUB; CLASS 3
(without HART valid) is a device-fatal fault, which enters SAFE; HART valid declares a control-core fault on the hart, refused (a
corrected event and nothing else) where no other hart is in service. From any other mode each is a bus error. -/
def Obligations.FaultDeclaration : Prop :=
  ∀ (s : State) (m int : Nat) (priv : Priv) (data : Word),
    (priv ≠ .m → exec (.fltDeclareContained m priv data) s = .next (busError s) ∧
      exec (.fltDeclareDeviceFatal m priv data) s = .next (busError s) ∧
      exec (.fltDeclareHart m priv data int) s = .next (busError s)) ∧
    (fieldOf data 30 2 = 1 → data.getLsbD 7 = false → exec (.fltDeclareContained m .m data) s =
      .next ((mcWrite (s.bump Reg.fltCounts1Contained)
        (mcCapture s 1 (srcHart (m % 4)) 0 (0x0070 + fieldOf data 0 4) 0 true 0)).answer 0)) ∧
    (fieldOf data 30 2 = 3 → data.getLsbD 7 = false → mayEnterSafe s = true →
      ∃ t, exec (.fltDeclareDeviceFatal m .m data) s = .next t ∧ t.flt.safe = .recorded ∧ t.rd Reg.fltStatusSafePend = 1) ∧
    (data.getLsbD 7 = true → fieldOf data 4 3 < 4 → (survivors s (fieldOf data 4 3)).isEmpty = false →
      exec (.fltDeclareHart m .m data int) s = .next ((coreFault s (fieldOf data 4 3) int).answer 0)) ∧
    (data.getLsbD 7 = true → (survivors s (fieldOf data 4 3)).isEmpty = true →
      exec (.fltDeclareHart m .m data int) s = .next ((corrected s).answer 0))

/-- R507: RECORD_WRITE puts the oldest post, as the record with sequence s of REC_HEAD_SEQ, into slot s mod 65,536, with the layout
of R507 at each offset; the slot lies in the recorder's region, and no byte outside it changes. -/
def Obligations.RecordLayout : Prop :=
  ∀ (s : State) (p : RecPost) (rest : List RecPost) (seq slot : Nat), s.boot ≠ .por → s.pwr.step ≠ .down →
    s.recorder.queue = p :: rest → seq = s.rd Reg.recHeadSeqSeq → slot = 0x10000000 + 64 * (seq % 65536) →
    0x10000000 ≤ slot ∧ slot + 64 ≤ 0x10400000 ∧
    ∃ t, exec .recordWrite s = .next t ∧
      t.bytes slot 4 = leBytes 4 seq ∧ t.bytes (slot + 0x04) 5 = leBytes 5 s.opsec ∧
      t.bytes (slot + 0x09) 3 = leBytes 3 (s.rd Reg.rstPcycleCount) ∧ t.bytes (slot + 0x0C) 1 = [BitVec.ofNat 8 p.source] ∧
      t.bytes (slot + 0x0D) 1 = [BitVec.ofNat 8 p.severity] ∧ t.bytes (slot + 0x0E) 2 = leBytes 2 p.code ∧
      t.bytes (slot + 0x10) 40 = padBytes 40 p.payload ∧ t.bytes (slot + 0x38) 1 = [0xA5] ∧ t.bytes (slot + 0x39) 1 = [0] ∧
      t.bytes (slot + 0x3A) 4 = leBytes 4 seq ∧ t.bytes (slot + 0x3E) 2 = leBytes 2 (crc277 (t.bytes slot 0x3E)) ∧
      ∀ a, (a < slot ∨ slot + 64 ≤ a) → t.byte a = s.byte a

/-- R322: a ring size is a power of two from 16 to 65,536; any other value of a size field is taken as 0. RING_ENABLE of a disabled
pair with a size taken as 0 is refused, and the pair stays disabled as it was; one that nothing refuses takes both sizes as they
stand. -/
def Obligations.RingSizes : Prop :=
  ∀ (s : State) (n : Nat), n < 7 → n < s.rings.length → s.rd (Reg.rngCtlEnable.elem n) = 0 →
    (∀ k, 4 ≤ k → k ≤ 16 → ringSizeTaken (2 ^ k) = 2 ^ k) ∧
    (∀ v, (∀ k, 4 ≤ k → k ≤ 16 → v ≠ 2 ^ k) → ringSizeTaken v = 0) ∧
    ((ringSizeTaken (s.rd (Reg.rngReqSizeEntries.elem n)) = 0 ∨ ringSizeTaken (s.rd (Reg.rngResSizeEntries.elem n)) = 0) →
      ∃ t, exec (.ringEnable n) s = .next t ∧ t.rd (Reg.rngCtlEnable.elem n) = 0 ∧ t.rings = s.rings ∧
        t.rd (Reg.rngStatusRefuse.elem n) ≠ 0 ∧ (t.rd Reg.rngIrqStatusRefused).testBit n = true) ∧
    (ringRefusal s n = none →
      ∃ t, exec (.ringEnable n) s = .next t ∧ t.rd (Reg.rngCtlEnable.elem n) = 1 ∧
        (t.ring n).reqSize = s.rd (Reg.rngReqSizeEntries.elem n) ∧ (t.ring n).resSize = s.rd (Reg.rngResSizeEntries.elem n))

/-- Accesses complete: a store to SRAM, a MODE write, a held level, a control-store word, an HVB access (R12, R20, R28, R29,
R423). -/
def Obligations.CompleteAccess : Prop :=
  -- A store of a bus master to SRAM holds its bytes, little-endian, and completes.
  (∀ (s : State) (m addr size data : Nat) (priv : Priv), 0 < size → 0x08000000 ≤ addr → addr + size ≤ 0x09000000 → ∃ t, exec
    (.registerWrite m priv addr size data) s = .next t ∧ t.bytes addr size = leBytes size data ∧ t.resp = .done 0) ∧
  -- An aligned 32-bit store to a unit window that is not gated and that the privilege may write takes effect on its register
  -- and completes.
  (∀ (s : State) (m addr data : Nat) (priv : Priv), accessRange s addr 4 = some 4 → addr % 4 = 0 → windowGated s (windowOf
    addr) = false → privRefused addr priv = false → ∃ t, exec (.registerWrite m priv addr 4 data) s = .next t ∧ t =
    (registerWord s m addr (BitVec.ofNat 32 data)).answer 0) ∧
  -- A MODE write to an idle unit takes LEVEL at once.
  (∀ (s : State) (unit : Nat) (data : Word), hasMode unit = true → windowGated s unit = false → unitIdle (if fieldOf data 16 16
    = 0 then s.clr (modeIgnored unit) else s) unit = true → ∃ t, exec (.modeWrite unit data) s = .next t ∧ t.rd (modeLevel
    unit) = fieldOf data 0 1 ∧ t.rd (modePend unit) = 0 ∧ t.resp = .done 0) ∧
  -- A held level takes effect when the unit is idle.
  (∀ (s : State) (unit : Nat), hasMode unit = true → s.flag (modePend unit) = true → unitIdle s unit = true → ∃ t, exec
    (.levelChangeApply unit) s = .next t ∧ t.rd (modeLevel unit) = 1 - s.rd (modeLevel unit) ∧ t.rd (modePend unit) = 0) ∧
  -- The highest part of a control-store word commits the word, with its parity and its MRAM copy, at expert level while the
  -- owner is idle.
  (∀ (s : State) (store word : Nat) (data : Word), store < 5 → word < 8192 → store ∉ s.gated → s.flag (modeLevel (storeUnit
    store)) = true → unitIdle s (storeUnit store) = true → ∃ t, exec (.controlStoreWrite store (16 * word + 12) data) s =
    .next t ∧ t.resp = .done 0 ∧ Store.read csZero t.cs.words (csKey store word) = Store.read csZero t.cs.mram (csKey store
    word) ∧ (Store.read csZero t.cs.words (csKey store word)).parity = csParity (Store.read csZero t.cs.words (csKey store
    word)).bits) ∧
  -- HVB_ACCESS that writes a register of the HV die while the dyke link is up completes.
  (∀ (s : State) (m offset : Nat) (priv : Priv) (data : Word), offset % 4 = 0 → 0x1000 ≤ offset → offset < 0x10000 → s.rd
    Reg.hvbStatusLinkUp = 1 → ∃ t, exec (.hvbAccess m priv true offset data) s = .next t ∧ t.resp = .done 0)

/-- The way from B2 to SERVICE completes: the choice of a set, the loader's steps, B3, B4, and a retirement (R33, R63, R72,
R497). -/
def Obligations.CompleteLoad : Prop :=
  -- SET_AUTH_DONE takes the source chosen where the checks of R489 pass, and rejects it with the check's code where they do
  -- not.
  (∀ (s : State) (src : Nat) (trial : Bool), s.boot = .b2 → s.rd Reg.sysOpmodeMode = 0 → s.upd.source = none → s.upd.begun =
    true → s.rd Reg.rstStatusPhase = 0 → bootChoice s = some (src, trial) → ∃ t, exec (.setAuthDone []) s = .next t ∧
    (setCheck s src = none → t = sourceTake s src trial) ∧ (setCheck s src ≠ none → t.upd.source = none ∧ t.rd
    Reg.updIrqStatusRejected = 1)) ∧
  -- IMAGE_STREAM_DONE takes the loader to AUTH, and rejects the source where the checks of the step fail.
  (∀ (s : State) (src : Nat), s.boot = .b2 → s.rd Reg.sysOpmodeMode = 0 → s.upd.source = some src → s.rd Reg.rstStatusPhase = 0
    → s.rd Reg.simStatusState = 1 → ∃ t, exec (.imageStreamDone) s = .next t ∧ (imageAuthCheck s.sim.image s.upd.fuses = none
    → t.rd Reg.simStatusState = 2) ∧ (imageAuthCheck s.sim.image s.upd.fuses ≠ none → t.upd.source = none ∧ t.rd
    Reg.updIrqStatusRejected = 1)) ∧
  -- IMAGE_AUTH_DONE takes the loader to CHECK, and rejects the source where the checks of the step fail.
  (∀ (s : State) (src : Nat), s.boot = .b2 → s.rd Reg.sysOpmodeMode = 0 → s.upd.source = some src → s.rd Reg.rstStatusPhase = 0
    → s.rd Reg.simStatusState = 2 → ∃ t, exec (.imageAuthDone) s = .next t ∧ (imageBodyCheck s.sim.image s.gib = none → t.rd
    Reg.simStatusState = 3) ∧ (imageBodyCheck s.sim.image s.gib ≠ none → t.upd.source = none ∧ t.rd Reg.updIrqStatusRejected =
    1)) ∧
  -- IMAGE_CHECK_DONE takes the loader to APPLY; the structure is in force.
  (∀ (s : State) (src : Nat), s.boot = .b2 → s.rd Reg.sysOpmodeMode = 0 → s.upd.source = some src → s.rd Reg.rstStatusPhase = 0
    → s.rd Reg.simStatusState = 3 → ∃ t, exec (.imageCheckDone) s = .next t ∧ t.rd Reg.simStatusState = 4) ∧
  -- IMAGE_APPLY_DONE loads the image and begins B4 where the roster has an actuator, with no MIN_FAIL and no failed checker.
  (∀ (s : State) (src rpm : Nat), s.boot = .b2 → s.rd Reg.sysOpmodeMode = 0 → s.upd.source = some src → s.rd Reg.rstStatusPhase
    = 0 → s.rd Reg.simStatusState = 4 → s.rd Reg.simStatusMinFail = 0 → s.rd Reg.memStatusStFail = 0 → s.present (bitSrv 0) =
    true → ∃ t, exec (.imageApplyDone rpm) s = .next t ∧ t.rd Reg.simStatusState = 5 ∧ t.rd Reg.fltCoreHeld = 0 ∧ t.boot = .b4) ∧
  -- B4_DONE enters SERVICE once the spindle is LOCKED and every actuator in service follows.
  (∀ (s : State), s.boot = .b4 → s.flt.safe = .none → s.rd Reg.spnStatusState = 5 → allFollow s = true → s.upd.displaced =
    false → ∃ t, exec (.b4Done) s = .next t ∧ t.rd Reg.sysOpmodeMode = 2 ∧ t.rd Reg.sysOpmodeCause = 16 ∧ t.boot = .done) ∧
  -- A guarded write of a roster bit to SIM_RETIRE_ADD from M mode adds it to the stored mask.
  (∀ (s : State) (data : Word), fieldOf data 16 16 = 0xB0C6 → fieldOf data 0 7 < 22 → ∃ t, exec (.simRetireAddWrite .m data) s
    = .next t ∧ t.resp = .done 0 ∧ (t.rd (Reg.simRetireMask.elem 0)).testBit (fieldOf data 0 7) = true)

/-- Angle commands complete: lock states, revolution count, seconds, snapshot and alarm (R78, R79, R91, R93, R95). -/
def Obligations.CompleteAngle : Prop :=
  -- SPINDLE_ABOVE_300 with commutation running takes ANG from STOPPED to COARSE and raises STATE_CHG.
  (∀ (s : State), s.rd Reg.angStatusState = 0 → ∃ t, exec (.spindleAbove300 true) s = .next t ∧ t.rd Reg.angStatusState = 1 ∧
    t.rd Reg.angIrqStatusStateChg = 1) ∧
  -- SPINDLE_BELOW_300 takes ANG from any other state to STOPPED and clears INDEX_KNOWN and REV_PERIOD.
  (∀ (s : State), s.rd Reg.angStatusState ≠ 0 → ∃ t, exec (.spindleBelow300) s = .next t ∧ t.rd Reg.angStatusState = 0 ∧ t.rd
    Reg.angStatusIndexKnown = 0 ∧ t.rd Reg.angRevPeriodCycles = 0) ∧
  -- GOOD_WEDGE_MARK from an allowed actuator that follows a head takes COARSE into ACQUIRE with that actuator as the source,
  -- and in LOCKED, agreeing with the predicted wedge, sets the angle.
  (∀ (s : State) (act surface dev decoded : Nat), act < 2 → s.rd Reg.angCtlSrcSel = 0 → s.rd (Reg.srvStatusState.elem act) = 4
    → s.rd Reg.angStatusState = 1 → ∃ t, exec (.goodWedgeMark act surface dev decoded) s = .next t ∧ t.rd Reg.angStatusState =
    2 ∧ t.rd Reg.angStatusSrc = act) ∧
  --
  (∀ (s : State) (act surface dev decoded : Nat), act < 2 → s.rd Reg.angCtlSrcSel = 0 → s.rd (Reg.srvStatusState.elem act) = 4
    → s.rd Reg.angStatusState = 3 → s.rd Reg.angStatusSrc = act → s.rd Reg.angStatusIndexKnown = 1 → predictedWedge s surface
    dev = decoded → ∃ t, exec (.goodWedgeMark act surface dev decoded) s = .next t ∧ t.rd Reg.angStatusState = 3 ∧ t.rd
    Reg.angPosWedge = dev / 2 ^ 10 % 2 ^ 11 ∧ t.rd Reg.angPosTick = dev % 2 ^ 10 ∧ t.ang.bad = 0) ∧
  -- MISSING_WEDGE_MARK drops the actuator's gate and on-track flags; from LOCKED on that source, with no other actuator and
  -- COAST_WEDGES not 0, ANG coasts.
  (∀ (s : State) (act : Nat), act < 2 → s.rd Reg.angStatusState = 3 → s.rd Reg.angStatusSrc = act → s.rd
    Reg.angCoastCoastWedges ≠ 0 → ∃ t, exec (.missingWedgeMark act false) s = .next t ∧ t.rd Reg.angStatusState = 4 ∧ t.rd
    (Reg.bwkStatusGate.elem act) = 0 ∧ t.rd (Reg.srvStatusOntrack.elem act) = 0) ∧
  -- COAST_WEDGES_EXPIRY takes COAST to COARSE.
  (∀ (s : State), s.rd Reg.angStatusState = 4 → ∃ t, exec (.coastWedgesExpiry) s = .next t ∧ t.rd Reg.angStatusState = 1) ∧
  -- REV_STORE stores the revolution count with its low 20 bits cleared.
  (∀ (s : State), ∃ t, exec (.revStore) s = .next t ∧ t.ang.revStored = s.rev / 2 ^ 20 * 2 ^ 20) ∧
  -- XCHK_DETECT raises XCHK and the DUE bit of the skew group.
  (∀ (s : State) (src diff : Nat), s.rd Reg.angCtlXchkLim ≠ 0 → s.rd Reg.angCtlXchkLim < diff → s.rd Reg.angCtlSrcSel = 0 → ∃
    t, exec (.xchkDetect src diff) s = .next t ∧ t.rd Reg.angIrqStatusXchk = 1) ∧
  -- OPSEC_STORE stores the operating seconds in MRAM.
  (∀ (s : State), ∃ t, exec (.opsecStore) s = .next t ∧ t.ang.opsecStored = (s.opsec + 64) % 2 ^ 40) ∧
  -- SNAPSHOT_TAKE captures the full angle, STATE, the cycle count, domain time and operating seconds at one edge.
  (∀ (s : State) (full cycles : Nat), ∃ t, exec (.snapshotTake full cycles) s = .next t ∧ t.rd Reg.angSnapRevRev = full / 2 ^
    21 % 2 ^ 32 ∧ t.rd Reg.angSnapCycCyc = cycles % 2 ^ 32 ∧ t.rd Reg.angSnapDtimeDtime = s.rd Reg.domTimeLoUs % 2 ^ 32 ∧ t.rd
    Reg.angSnapTake = 0) ∧
  -- ALARM_ARM sets the alarm's position and EN.
  (∀ (s : State) (m : Nat) (data : Word), fieldOf data 16 11 < s.sim.cfg.w → ∃ t, exec (.alarmArm m data) s = .next t ∧ t.rd
    Reg.angAlarmPosWedge = fieldOf data 16 11 ∧ t.rd Reg.angAlarmPosTick = fieldOf data 0 10 ∧ t.rd Reg.angAlarmPosEn =
    fieldOf data 31 1) ∧
  -- ALARM_FIRE, armed and with a valid angle at or past the alarm's, raises ALARM and clears EN.
  (∀ (s : State) (full : Nat), s.rd Reg.angAlarmPosEn = 1 → s.rd Reg.angPosValid = 1 → alarmAngle s ≤ full → ∃ t, exec
    (.alarmFire full) s = .next t ∧ t.rd Reg.angIrqStatusAlarm = 1 ∧ t.rd Reg.angAlarmPosEn = 0)

/-- Rung-change commands complete: the phases of a cadence change and the expert commands (R83, R84, R85, R86, R87, R89). -/
def Obligations.CompleteRung : Prop :=
  -- CEILING_CHANGE sets the ceiling of AGE or Sluice, and CEILING to the slower of the two.
  (∀ (s : State) (rung : Nat), rung < 4 → s.rd Reg.angRungCeilThm ≤ rung → rung ≤ s.rd Reg.angRungCurrent → ∃ t, exec
    (.ceilingChange true rung) s = .next t ∧ t.rd Reg.angRungCeilAge = rung ∧ t.rd Reg.angRungCeiling = rung) ∧
  -- RUNG_TARGET_WRITE at basic level with PHASE IDLE starts HOLDING towards a TARGET that R87 accepts.
  (∀ (s : State) (data : Word), s.rd Reg.angModeLevel = 0 → s.rd Reg.angRungPhase = 0 → fieldOf data 31 1 = 0 → rungJudge s
    (fieldOf data 8 2) = none → ∃ t, exec (.rungTargetWrite data) s = .next t ∧ t.rd Reg.angRungTarget = fieldOf data 8 2 ∧
    t.rd Reg.angRungPhase = 1 ∧ t.ang.hold = true) ∧
  -- RUNG_HELD takes HOLDING to RAMP at basic level once both actuators are held.
  (∀ (s : State), s.rd Reg.angRungPhase = 1 → rungHeldReady s = true → s.rd Reg.angModeLevel = 0 → ∃ t, exec (.rungHeld) s =
    .next t ∧ t.rd Reg.angRungPhase = 3) ∧
  -- SCHED_RUNG_SWITCH in RAMP makes SCHED_RUNG the rung the ramp heads for.
  (∀ (s : State), s.rd Reg.angRungPhase = 3 → s.ang.returning = false → ∃ t, exec (.schedRungSwitch) s = .next t ∧ t.rd
    Reg.angRungSchedRung = s.rd Reg.angRungTarget % 4) ∧
  -- RUNG_RAMP_END takes RAMP to SETTLE with SCHED_RUNG at the rung headed for.
  (∀ (s : State), s.rd Reg.angRungPhase = 3 → s.ang.returning = false → ∃ t, exec (.rungRampEnd) s = .next t ∧ t.rd
    Reg.angRungPhase = 4 ∧ t.rd Reg.angRungSchedRung = s.rd Reg.angRungTarget % 4) ∧
  -- RUNG_SETTLED takes SETTLE to RETUNE at basic level.
  (∀ (s : State), s.rd Reg.angRungPhase = 4 → s.rd Reg.angModeLevel = 0 → ∃ t, exec (.rungSettled) s = .next t ∧ t.rd
    Reg.angRungPhase = 5) ∧
  -- RUNG_RETUNE_DONE at basic level makes the target CURRENT, releases the sequencers and gives RESULT DONE.
  (∀ (s : State), s.rd Reg.angRungPhase = 5 → s.ang.returning = false → s.rd Reg.angModeLevel = 0 → s.rd Reg.angRungPend = 0 →
    s.ang.powerPend = none → s.change = none → s.boot = .done → ∃ t, exec (.rungRetuneDone) s = .next t ∧ t.rd
    Reg.angRungPhase = 0 ∧ t.rd Reg.angRungCurrent = s.rd Reg.angRungTarget % 4 ∧ t.rd Reg.angRungResult = 1 ∧ t.ang.hold =
    false) ∧
  -- RUNG_SETTLE_TIMEOUT in SETTLE enters RETURN.
  (∀ (s : State), s.rd Reg.angRungPhase = 4 → s.ang.returning = false → ∃ t, exec (.rungSettleTimeout) s = .next t ∧ t.rd
    Reg.angRungPhase = 7 ∧ t.ang.returning = true) ∧
  -- RETURN_SETTLE_TIMEOUT puts SPN into FAULT with the cause RUNG_SETTLE and ends the change.
  (∀ (s : State), s.ang.returning = true → s.boot = .done → ∃ t, exec (.returnSettleTimeout) s = .next t ∧ t.rd
    Reg.spnStatusState = 8 ∧ t.rd Reg.spnFaultCause = 5 ∧ t.rd Reg.angRungPhase = 0) ∧
  -- ANG_CMD_HOLD at expert level starts HOLDING from IDLE towards a TARGET that R87 accepts.
  (∀ (s : State), s.rd Reg.angModeLevel = 1 → s.rd Reg.angRungPhase = 0 → rungJudge s (s.rd Reg.angRungTarget) = none → ∃ t,
    exec (.angCmdHold) s = .next t ∧ t.rd Reg.angRungPhase = 1 ∧ t.ang.hold = true) ∧
  -- ANG_CMD_RAMP at expert level takes HELD to RAMP with both write gates low.
  (∀ (s : State), s.rd Reg.angModeLevel = 1 → s.rd Reg.angRungPhase = 2 → s.rd (Reg.bwkStatusGate.elem 0) = 0 → s.rd
    (Reg.bwkStatusGate.elem 1) = 0 → ∃ t, exec (.angCmdRamp) s = .next t ∧ t.rd Reg.angRungPhase = 3) ∧
  -- ANG_CMD_RETUNE at expert level takes a settled SETTLE to RETUNE.
  (∀ (s : State), s.rd Reg.angModeLevel = 1 → s.rd Reg.angRungPhase = 4 → s.ang.settled = true → s.ang.returning = false → ∃ t,
    exec (.angCmdRetune) s = .next t ∧ t.rd Reg.angRungPhase = 5) ∧
  -- ANG_CMD_RELEASE at expert level ends a retuned change with RESULT DONE and releases the sequencers.
  (∀ (s : State), s.rd Reg.angModeLevel = 1 → s.rd Reg.angRungPhase = 5 → s.ang.retuned = true → s.ang.returning = false → s.rd
    Reg.angRungPend = 0 → ∃ t, exec (.angCmdRelease) s = .next t ∧ t.rd Reg.angRungPhase = 0 ∧ t.rd Reg.angRungResult = 1 ∧
    t.ang.hold = false) ∧
  -- ANG_CMD_ABORT at expert level abandons HOLDING at once, with RESULT ABANDONED.
  (∀ (s : State), s.rd Reg.angModeLevel = 1 → s.rd Reg.angRungPhase = 1 → s.ang.returning = false → s.rd Reg.angRungPend = 0 →
    ∃ t, exec (.angCmdAbort) s = .next t ∧ t.rd Reg.angRungPhase = 0 ∧ t.rd Reg.angRungResult = 5 ∧ t.ang.hold = false)

/-- Boardwalk's own commands complete: fetch, MARK, marker planks, NO_ANGLE, ABORT, RESUME, and SETTLE planks (R119, R122,
R132, R134, R154, R185, R330). -/
def Obligations.CompletePlank : Prop :=
  -- PLANK_FETCH on a sequencer that may fetch takes the next published plank, when its checks pass with the entry admitted,
  -- as the current one.
  (∀ (s : State) (n full : Nat), n < 2 → bwkMayFetch s n = true → (s.bwk.get n).cur = none → (s.bwk.get n).chainEnded = false →
    plankListPoison (ringAdmit s n) (plankOf (ringNextEntry s n).slot (ringNextEntry s n).bytes) = false → plankFetchStatus
    (ringAdmit s n) n (ringNextEntry s n) (plankOf (ringNextEntry s n).slot (ringNextEntry s n).bytes) = none → ∃ t, exec
    (.plankFetch n full) s = .next t ∧ (t.bwk.get n).cur.map (fun p => (p.slot, p.start, p.tag, p.bad)) = some ((plankOf
    (ringNextEntry s n).slot (ringNextEntry s n).bytes).slot, (plankOf (ringNextEntry s n).slot (ringNextEntry s
    n).bytes).start, (plankOf (ringNextEntry s n).slot (ringNextEntry s n).bytes).tag, none)) ∧
  -- PLANK_MARK at its start angle copies PARAM to MARK_PARAM, sets MARK, and leaves the sequencer without a plank where none
  -- follows.
  (∀ (s : State) (n full : Nat) (p : Plank), n < 2 → plankMayBegin s n full actMark p = true → p.count ≠ 0 → (s.bwk.get n).next
    = none → ∃ t, exec (.plankMark n full) s = .next t ∧ t.rd (Reg.bwkMarkParam.elem n) = p.param % 4294967296 ∧ t.rd
    (Reg.bwkIrqStatusMark.elem n) = 1 ∧ (t.bwk.get n).cur = none) ∧
  -- MARKER_PLANK at the start angle of a plank with COUNT 0 ends it, and leaves the sequencer without a plank where none
  -- follows.
  (∀ (s : State) (n full : Nat) (p : Plank), n < 2 → plankMayBegin s n full p.action p = true → p.count = 0 → (s.bwk.get
    n).next = none → ∃ t, exec (.markerPlank n full) s = .next t ∧ (t.bwk.get n).cur = none) ∧
  -- NOLOCK_TIMEOUT with a plank and no lock ends it, raises NO_ANGLE and stalls the sequencer.
  (∀ (s : State) (n full : Nat) (p : Plank), n < 2 → (s.bwk.get n).cur = some p → (s.bwk.get n).next = none → s.rd
    Reg.angStatusState ≠ 3 → s.rd Reg.angStatusState ≠ 4 → s.rd (Reg.bwkStatusState.elem n) = 3 → ∃ t, exec (.nolockTimeout n
    full) s = .next t ∧ t.rd (Reg.bwkIrqStatusNoAngle.elem n) = 1 ∧ t.rd (Reg.bwkStatusState.elem n) = 6 ∧ (t.bwk.get n).cur =
    none) ∧
  -- BWK_ABORT of a sequencer clears ABORT and closes its chain.
  (∀ (s : State) (n full : Nat), n < 2 → n ∉ s.gated → ∃ t, exec (.bwkAbort n full) s = .next t ∧ t.rd (Reg.bwkCtlAbort.elem n)
    = 0 ∧ (t.bwk.get n).chainEnded = false ∧ (t.bwk.get n).chainOpen = false) ∧
  -- BWK_RESUME takes a stalled sequencer in service with a plank to WAIT, without one to EMPTY.
  (∀ (s : State) (n : Nat), n < 2 → n ∉ s.gated → s.rd (Reg.bwkStatusState.elem n) = 6 → s.down (bitBwk n) = false → ∃ t, exec
    (.bwkResume n) s = .next t ∧ t.rd (Reg.bwkStatusState.elem n) = if (s.bwk.get n).cur.isSome then 3 else 1) ∧
  -- RING_ENTRY_ADMIT on a ring other than a sequencer's, which may admit, takes the entry in progress.
  (∀ (s : State) (n : Nat), 1 < n → n < s.rings.length → ringMayAdmit s n = true → ∃ t, exec (.ringEntryAdmit n) s = .next t ∧
    (t.ring n).inProg = (s.ring n).inProg ++ [ringNextEntry s n]) ∧
  -- PLANK_SETTLE with a RUN and a TIMEOUT begins the plank's own counts at 0, and with RUN 0 ends the plank.
  (∀ (s : State) (n full : Nat) (p : Plank), n < 2 → plankMayBegin s n full actSettle p = true → p.count ≠ 0 → p.param % 256 ≠
    0 → p.param / 256 % 65536 ≠ 0 → ∃ t, exec (.plankSettle n full) s = .next t ∧ (t.srv.get n).plankRun = 0 ∧ (t.srv.get
    n).plankWedges = 0 ∧ (t.bwk.get n).cur = some p ∧ (t.bwk.get n).run.begun = true) ∧
  -- SETTLE_PLANK_RUN with RUN decisions counted ends the plank.
  (∀ (s : State) (n full : Nat) (p : Plank), runsAlone s n actSettle p = true → p.param % 256 ≤ (s.srv.get n).plankRun → ∃ t,
    exec (.settlePlankRun n full) s = .next t ∧ (t.bwk.get n).cur = none) ∧
  -- SETTLE_TIMEOUT with TIMEOUT wedges passed and the run not met ends the plank.
  (∀ (s : State) (n full : Nat) (p : Plank), runsAlone s n actSettle p = true → p.param / 256 % 65536 ≤ (s.srv.get
    n).plankWedges → (s.srv.get n).plankRun < p.param % 256 → ∃ t, exec (.settleTimeout n full) s = .next t ∧ (t.bwk.get
    n).cur = none)

/-- Servo commands complete: the sample, the loop's events, SEEK, load and unload, the taps (R122, R160, R171, R173, R179,
R180, R182, R184, R185, R186). -/
def Obligations.CompleteServo : Prop :=
  -- SERVO_SAMPLE in a state that samples shows its velocity and its quality.
  (∀ (s : State) (n full : Nat) (smp : Sample), n < 2 → s.rd (Reg.srvStatusState.elem n) ≠ 0 → s.rd (Reg.srvStatusState.elem n)
    ≠ 8 → s.rd (Reg.srvStatusState.elem n) ≠ 9 → ∃ t, exec (.servoSample n full smp) s = .next t ∧ t.rd (Reg.srvVelVel.elem n)
    = toBits 32 smp.vel) ∧
  -- LAW_OVERRUN outside UNLOADING raises LAW_EVENT; in SEEK, SETTLE, FOLLOW or COAST the loop enters FALLBACK with that
  -- cause.
  (∀ (s : State) (n : Nat), n < 2 → s.rd (Reg.srvStatusState.elem n) = 4 → runningPlank s n actSeek = none → runningPlank s n
    actSettle = none → ∃ t, exec (.lawOverrun n) s = .next t ∧ t.rd (Reg.srvIrqStatusLawEvent.elem n) = 1 ∧ t.rd
    (Reg.srvStatusState.elem n) = 6 ∧ t.rd (Reg.srvLastFaultCause.elem n) = 3) ∧
  -- COAST_EXHAUSTED with more misses than FB_COAST takes the loop to FALLBACK with cause 1.
  (∀ (s : State) (n : Nat), n < 2 → s.rd (Reg.srvStatusState.elem n) = 5 → s.rd (Reg.srvFbCoastValue.elem n) < (s.srv.get
    n).missRun → ∃ t, exec (.coastExhausted n) s = .next t ∧ t.rd (Reg.srvStatusState.elem n) = 6 ∧ t.rd
    (Reg.srvLastFaultCause.elem n) = 1) ∧
  -- FE_LIMIT_FAULT in FOLLOW with the count reached takes the loop to FALLBACK with cause 2.
  (∀ (s : State) (n : Nat), n < 2 → s.rd (Reg.srvStatusState.elem n) = 4 → s.rd (Reg.srvFeTimeValue.elem n) ≤ (s.srv.get
    n).feCount → ∃ t, exec (.feLimitFault n) s = .next t ∧ t.rd (Reg.srvStatusState.elem n) = 6 ∧ t.rd
    (Reg.srvLastFaultCause.elem n) = 2) ∧
  -- REACQ_TIMEOUT in FALLBACK after REACQ_TIME wedges, with no run of the HV engine in progress, starts the retract with
  -- cause 1.
  (∀ (s : State) (n : Nat), n < 2 → s.rd (Reg.srvStatusState.elem n) = 6 → s.rd (Reg.srvReacqTimeValue.elem n) ≤ (s.srv.get
    n).sinceEntry → s.rd (Reg.hvRetractActive.elem n) = 0 → ∃ t, exec (.reacqTimeout n) s = .next t ∧ t.rd
    (Reg.hvRetractActive.elem n) = 1 ∧ t.rd (Reg.hvRetractCause.elem n) = 1 ∧ t.rd (Reg.hvRetractPhase.elem n) = 1) ∧
  -- PLANK_SEEK that begins in FOLLOW with the head it follows takes the loop to SEEK with the plank's track as the target.
  (∀ (s : State) (n full : Nat) (p : Plank), n < 2 → plankMayBegin s n full actSeek p = true → p.count ≠ 0 → s.rd
    (Reg.srvStatusState.elem n) = 4 → ∃ t, exec (.plankSeek n full) s = .next t ∧ t.rd (Reg.srvStatusHead.elem n) = p.head %
    32) ∧
  -- SEEK_ARRIVAL with the posted arrival reached raises ARRIVE, and the arrival waits for the next sample.
  (∀ (s : State) (n full a : Nat), n < 2 → (s.srv.get n).arrive = some a → (s.srv.get n).seeking = true → a ≤ frameAngle s
    (followedHead s n) full → runningPlank s n actSeek = none → ∃ t, exec (.seekArrival n full) s = .next t ∧ t.rd
    (Reg.srvIrqStatusArrive.elem n) = 1 ∧ (t.srv.get n).arrived = true ∧ (t.srv.get n).arrive = none) ∧
  -- SEEK_TIMEOUT of a supervised seek that has expired takes the loop to SETTLE with fault cause 7.
  (∀ (s : State) (n full : Nat), n < 2 → s.rd (Reg.srvStatusState.elem n) = 2 → (s.srv.get n).seeking = true → (s.srv.get
    n).arrived = false → seekExpired s n full = true → ∃ t, exec (.seekTimeout n full) s = .next t ∧ t.rd
    (Reg.srvStatusState.elem n) = 3 ∧ t.rd (Reg.srvLastFaultCause.elem n) = 7 ∧ (t.srv.get n).seeking = false) ∧
  -- SEEK_VERR_FAULT of a supervised seek takes the loop to SETTLE with fault cause 8.
  (∀ (s : State) (n full : Nat), n < 2 → s.rd (Reg.srvStatusState.elem n) = 2 → (s.srv.get n).seeking = true → (s.srv.get
    n).arrived = false → ∃ t, exec (.seekVerrFault n full) s = .next t ∧ t.rd (Reg.srvStatusState.elem n) = 3 ∧ t.rd
    (Reg.srvLastFaultCause.elem n) = 8 ∧ (t.srv.get n).seeking = false) ∧
  -- A LOAD accepted begins: LOADING is entered with its head, and the LOAD program runs once.
  (∀ (s : State) (n head track full : Nat), n < 2 → 2 + n ∉ s.gated → loadAccepted s n head track = true → ∃ t, exec
    (.srvCmdLoad n head track full) s = .next t ∧ t.resp = .done 0 ∧ t = (loadBegin s n head track full).answer 0) ∧
  -- An UNLOAD in FOLLOW with no plank running takes the loop to UNLOADING, and the UNLOAD program runs once.
  (∀ (s : State) (n : Nat), n < 2 → 2 + n ∉ s.gated → s.rd (Reg.srvStatusState.elem n) = 4 → (s.bwk.get n).run.begun = false →
    ∃ t, exec (.srvCmdUnload n) s = .next t ∧ t = ((srvProgramOnce (srvEnter s n 7) n 3 (srvEnter s n 7).fullAngle).2).answer
    0 ∧ t.resp = .done 0) ∧
  -- A RETRACT with the HV engine at rest starts it with cause 1.
  (∀ (s : State) (n : Nat), n < 2 → 2 + n ∉ s.gated → s.rd (Reg.hvRetractActive.elem n) = 0 → ∃ t, exec (.srvCmdRetract n) s =
    .next t ∧ t.rd (Reg.hvRetractActive.elem n) = 1 ∧ t.rd (Reg.hvRetractCause.elem n) = 1 ∧ t.rd (Reg.hvRetractPhase.elem n)
    = 1) ∧
  -- A read of TAP_DATA answers the tap at INDEX, and INDEX steps, wrapping at 288.
  (∀ (s : State) (n : Nat), n < 2 → 2 + n ∉ s.gated → ∃ t, exec (.tapDataAccess n none) s = .next t ∧ t.rd
    (Reg.srvTapIdxIndex.elem n) = (s.rd (Reg.srvTapIdxIndex.elem n) + 1) % 288) ∧
  -- SETTLE_RUN_MET in SETTLE with the run reached takes the loop to FOLLOW and raises SETTLED.
  (∀ (s : State) (n : Nat), n < 2 → s.rd (Reg.srvStatusState.elem n) = 3 → s.rd (Reg.srvOntrackSettleRun.elem n) ≤ (s.srv.get
    n).settleRun → s.change = none → s.boot = .done → ∃ t, exec (.settleRunMet n) s = .next t ∧ t.rd (Reg.srvStatusState.elem
    n) = 4 ∧ t.rd (Reg.srvIrqStatusSettled.elem n) = 1) ∧
  -- REACQUIRED in FALLBACK with the marks reached at a low velocity takes the loop to SETTLE and raises REACQ.
  (∀ (s : State) (n full : Nat), n < 2 → s.rd (Reg.srvStatusState.elem n) = 6 → s.rd (Reg.srvReacqMarks.elem n) ≤ (s.srv.get
    n).reacqRun → (s.srv.get n).emf.natAbs ≤ s.rd (Reg.srvFbVVmax.elem n) → s.change = none → s.boot = .done → ∃ t, exec
    (.reacquired n full) s = .next t ∧ t.rd (Reg.srvStatusState.elem n) = 3 ∧ t.rd (Reg.srvIrqStatusReacq.elem n) = 1) ∧
  -- UNLOAD_RAMP_REACHED in UNLOADING takes the loop to PARKED.
  (∀ (s : State) (n : Nat), n < 2 → s.rd (Reg.srvStatusState.elem n) = 7 → s.change = none → s.boot = .done → ∃ t, exec
    (.unloadRampReached n) s = .next t ∧ t.rd (Reg.srvStatusState.elem n) = 0 ∧ t.rd (Reg.srvIrqStatusParked.elem n) = 1) ∧
  -- RETRACT_DONE with DONE reported takes a RETRACTING loop whose fault is not unit-fatal, with no LOAD in progress, to
  -- PARKED.
  (∀ (s : State) (n full : Nat), n < 2 → s.rd (Reg.hvRetractDone.elem n) = 1 → (s.srv.get n).fatal = false → s.rd
    (Reg.srvStatusState.elem n) = 8 → (s.srv.get n).loading = none → s.change = none → s.boot = .done → ∃ t, exec
    (.retractDone n full) s = .next t ∧ t.rd (Reg.srvStatusState.elem n) = 0 ∧ t.rd (Reg.srvIrqStatusParked.elem n) = 1)

/-- Spindle and retract commands complete: start, stop, clear, spin-up, crossings, brake, and the retract engine (R188, R189,
R190, R191). -/
def Obligations.CompleteSpindle : Prop :=
  -- SPN_CMD_START in STOPPED with a rung below RUNG_COUNT, on a worker whose DOM is no member, puts SPN into TOKEN and counts
  -- a start.
  (∀ (s : State) (rung rpm : Nat), 4 ∉ s.gated → s.rd Reg.spnStatusState = 0 → s.rd Reg.domStatusRole = 0 → s.rd
    Reg.domStatusState ≠ 2 → s.dom.wait = [] → rung < s.sim.cfg.rungCount → ∃ t, exec (.spnCmdStart rung rpm) s = .next t ∧
    t.resp = .done 0 ∧ t.rd Reg.spnStatusState = 1 ∧ t.spn.rung = rung ∧ t.rd Reg.spnCountsStarts = min (s.rd
    Reg.spnCountsStarts + 1) 65535) ∧
  -- SPN_CMD_STOP in LOCKED puts SPN into BRAKE.
  (∀ (s : State), 4 ∉ s.gated → s.rd Reg.spnStatusState = 5 → ∃ t, exec (.spnCmdStop) s = .next t ∧ t.rd Reg.spnStatusState = 7
    ∧ t.resp = .done 0) ∧
  -- SPN_CMD_CLEAR in FAULT below 300 rpm takes SPN to STOPPED and clears its cause.
  (∀ (s : State) (rpm : Nat), 4 ∉ s.gated → s.rd Reg.spnStatusState = 8 → rpm < 300 → ∃ t, exec (.spnCmdClear rpm) s = .next t
    ∧ t.rd Reg.spnStatusState = 0 ∧ t.rd Reg.spnFaultCause = 0 ∧ t.rd Reg.spnIrqStatusStopped = 1) ∧
  -- ALIGN_TIME_EXPIRY takes ALIGN to OPENLOOP.
  (∀ (s : State), s.rd Reg.spnStatusState = 2 → ∃ t, exec (.alignTimeExpiry) s = .next t ∧ t.rd Reg.spnStatusState = 3) ∧
  -- HANDOVER_REACHED takes OPENLOOP to ACCEL.
  (∀ (s : State), s.rd Reg.spnStatusState = 3 → ∃ t, exec (.handoverReached) s = .next t ∧ t.rd Reg.spnStatusState = 4) ∧
  -- SPINUP_TIMEOUT during a spin-up puts SPN into FAULT with cause SPINUP and starts both retracts.
  (∀ (s : State), s.rd Reg.spnStatusState = 4 → s.boot = .done → s.rd (Reg.hvRetractActive.elem 0) = 0 → s.rd
    (Reg.hvRetractActive.elem 1) = 0 → ∃ t, exec (.spinupTimeout) s = .next t ∧ t.rd Reg.spnStatusState = 8 ∧ t.rd
    Reg.spnFaultCause = 1 ∧ t.rd Reg.spnIrqStatusFault = 1 ∧ t.rd (Reg.hvRetractActive.elem 0) = 1 ∧ t.rd
    (Reg.hvRetractActive.elem 1) = 1) ∧
  -- ZERO_CROSSING within 1 % of the target rung takes ACCEL to LOCKED, with CURRENT at that rung.
  (∀ (s : State) (rpm : Nat), s.rd Reg.spnStatusState = 4 → (((rpm : Int) - rungRpmOf s s.spn.rung).natAbs * 100 ≤ rungRpmOf s
    s.spn.rung) → s.change = none → s.boot = .done → ∃ t, exec (.zeroCrossing rpm 0 none) s = .next t ∧ t.rd
    Reg.angRungCurrent = s.spn.rung % 4 ∧ t.rd Reg.spnStatusRpm = rpm % 65536 ∧ t.rd Reg.spnIrqStatusLocked = 1) ∧
  -- ZC_WINDOW_MISS counts the crossing and, from LOCKED, enters ZC_COAST.
  (∀ (s : State), s.rd Reg.spnStatusState = 5 → ∃ t, exec (.zcWindowMiss) s = .next t ∧ t.rd Reg.spnStatusState = 6 ∧
    t.spn.missed = s.spn.missed + 1 ∧ t.spn.coastFrom = 5) ∧
  -- ZC_LOST with more crossings missed than ZC_COAST allows puts SPN into FAULT with cause ZC_LOST.
  (∀ (s : State), s.rd Reg.spnStatusState = 6 → s.rd Reg.spnZcCoastValue < s.spn.missed → s.boot = .done → ∃ t, exec (.zcLost)
    s = .next t ∧ t.rd Reg.spnStatusState = 8 ∧ t.rd Reg.spnFaultCause = 2) ∧
  -- OFFSPEED_SET in LOCKED with no rung change sets OFFSPEED and holds both on-track flags low.
  (∀ (s : State), s.rd Reg.spnStatusState = 5 → s.rd Reg.angRungPhase = 0 → s.rd Reg.spnTolRevs ≤ s.spn.offRevs → s.rd
    Reg.spnStatusOffspeed = 0 → ∃ t, exec (.offspeedSet) s = .next t ∧ t.rd Reg.spnStatusOffspeed = 1 ∧ t.rd
    Reg.spnIrqStatusOffspeed = 1 ∧ t.rd (Reg.srvStatusOntrack.elem 0) = 0 ∧ t.rd (Reg.srvStatusOntrack.elem 1) = 0) ∧
  -- SPEED_BELOW_FLY_MIN with a loop off its ramp starts both retracts with cause SPEED.
  (∀ (s : State) (rpm : Nat), rpm * 100 < spindleNat s 0x18 2 * rungRpmOf s (lowestRung s) → s.rd (Reg.srvStatusState.elem 0) =
    4 → s.rd (Reg.hvRetractActive.elem 0) = 0 → s.rd (Reg.hvRetractActive.elem 1) = 0 → ∃ t, exec (.speedBelowFlyMin rpm) s =
    .next t ∧ t.rd (Reg.hvRetractActive.elem 0) = 1 ∧ t.rd (Reg.hvRetractActive.elem 1) = 1) ∧
  -- SPINDLE_BRAKE_DONE below 300 rpm takes BRAKE to STOPPED.
  (∀ (s : State) (rpm : Nat), rpm < 300 → s.rd Reg.spnStatusState = 7 → s.spn.brakeToAlign = false → s.change = none → s.boot =
    .done → ∃ t, exec (.spindleBrakeDone rpm) s = .next t ∧ t.rd Reg.spnStatusState = 0 ∧ t.rd Reg.spnIrqStatusStopped = 1) ∧
  -- RETRACT_START for both actuators starts the retract engine of each in BRAKE with the cause given.
  (∀ (s : State) (cause : Nat), s.rd (Reg.hvRetractActive.elem 0) = 0 → s.rd (Reg.hvRetractActive.elem 1) = 0 → ∃ t, exec
    (.retractStart 3 cause) s = .next t ∧ t.rd (Reg.hvRetractActive.elem 0) = 1 ∧ t.rd (Reg.hvRetractActive.elem 1) = 1 ∧ t.rd
    (Reg.hvRetractPhase.elem 0) = 1 ∧ t.rd (Reg.hvRetractPhase.elem 1) = 1) ∧
  -- RETRACT_PHASE_END takes an active engine from LATCH to DONE, which ends the run.
  (∀ (s : State) (n : Nat), n < 2 → s.rd (Reg.hvRetractActive.elem n) = 1 → s.rd (Reg.hvRetractPhase.elem n) = 4 → ∃ t, exec
    (.retractPhaseEnd n) s = .next t ∧ t.rd (Reg.hvRetractPhase.elem n) = 5 ∧ t.rd (Reg.hvRetractActive.elem n) = 0 ∧ t.rd
    (Reg.hvRetractDone.elem n) = 1) ∧
  -- RETRACT_PHASE_TIMEOUT in BRAKE sets TIMEOUT and passes to MOVE.
  (∀ (s : State) (n : Nat), n < 2 → s.rd (Reg.hvRetractActive.elem n) = 1 → s.rd (Reg.hvRetractPhase.elem n) = 1 → ∃ t, exec
    (.retractPhaseTimeout n) s = .next t ∧ t.rd (Reg.hvRetractPhase.elem n) = 2 ∧ t.rd (Reg.hvRetractTimeout.elem n) = 1)

/-- Assist and preamp commands complete: PREHEAT, samples, loss, staged tables, transactions (R200, R201, R203, R209, R210,
R211, R220, R221, R222, R223, R225). -/
def Obligations.CompleteAssist : Prop :=
  -- PLANK_PREHEAT that begins with ASTn in IDLE takes ASTn to RAMP.
  (∀ (s : State) (n full : Nat) (p : Plank), n < 2 → plankMayBegin s n full actPreheat p = true → p.count ≠ 0 → s.rd
    (Reg.astStatusState.elem n) = 0 → ∃ t, exec (.plankPreheat n full) s = .next t ∧ t.rd (Reg.astStatusState.elem n) = 1 ∧
    (t.bwk.get n).preheated = true) ∧
  -- SETUP_REPLAY marks the preamp group as replaying, and queues its valid setup entries.
  (∀ (s : State) (pa : Nat), ∃ t, exec (.setupReplay pa) s = .next t ∧ t.pre.replaying = maskSet s.pre.replaying pa) ∧
  -- AST_SAMPLE in IDLE with a word that passes the checks shows its proxy as valid.
  (∀ (s : State) (n full w : Nat), n < 2 → s.rd (Reg.astStatusState.elem n) = 0 → sensorFault (some w) (s.ast.get n).seq
    (((s.ast.get n).seq + 1) % 16) = none → runningPlank s n actCal = none → ∃ t, exec (.astSample n full (some w)) s = .next
    t ∧ t.rd (Reg.astProxyProxy.elem n) = sensorProxy w ∧ t.rd (Reg.astProxyValid.elem n) = 1) ∧
  -- PROXY_LOSS in HOLD with more invalid samples than HOLD_SAMPLES names the head and the cause, and raises LOSS and SUSPECT.
  (∀ (s : State) (n full : Nat), n < 2 → s.rd (Reg.astStatusState.elem n) = 3 → s.rd (Reg.astHoldSamples.elem n) < (s.ast.get
    n).invalid → ∃ t, exec (.proxyLoss n full) s = .next t ∧ t.rd (Reg.astLossHead.elem n) = (s.ast.get n).head % 16 ∧ t.rd
    (Reg.astIrqStatusLoss.elem n) = 1 ∧ t.rd (Reg.astIrqStatusSuspect.elem n) = 1) ∧
  -- AST_STAGED_APPLY in IDLE with a table word staged puts it in force, clears STAGED and raises STAGED_APPLIED.
  (∀ (s : State) (n : Nat), n < 2 → s.rd (Reg.astStatusState.elem n) = 0 → (s.ast.get n).tablePend ≠ [] → ∃ t, exec
    (.astStagedApply n) s = .next t ∧ (t.ast.get n).tablePend = [] ∧ t.rd (Reg.astStagedPend.elem n) = 0 ∧ t.rd
    (Reg.astIrqStatusStagedApplied.elem n) = 1) ∧
  -- A read of TBL_DATA answers the ceiling entry at INDEX, and INDEX steps, wrapping at 128.
  (∀ (s : State) (n : Nat), n < 2 → 5 + n ∉ s.gated → ∃ t, exec (.astTblDataAccess n none) s = .next t ∧ t.rd
    (Reg.astTblIdxIndex.elem n) = (s.rd (Reg.astTblIdxIndex.elem n) + 1) % 128) ∧
  -- A read of SET_DATA answers the table word at WORD, and WORD steps, wrapping at 4,352.
  (∀ (s : State) (n : Nat), n < 2 → 5 + n ∉ s.gated → ∃ t, exec (.astSetDataAccess n none) s = .next t ∧ t.rd
    (Reg.astSetIdxWord.elem n) = (s.rd (Reg.astSetIdxWord.elem n) + 1) % 4352) ∧
  -- PREAMP_FAULT raises the group's fault, and takes the wired ASTn to FAULT.
  (∀ (s : State) (pa full : Nat), pa < 2 → astOfPreamp s pa < 2 → s.rd (Reg.astStatusState.elem (astOfPreamp s pa)) ≠ 6 → ∃ t,
    exec (.preampFault pa full) s = .next t ∧ t.rd (paFault pa) = 1 ∧ t.rd (paIrq pa) = 1 ∧ t.rd (Reg.astStatusState.elem
    (astOfPreamp s pa)) = 6) ∧
  -- PREAMP_FAULT_CLEAR with the fault standing clears it, and takes an ASTn in FAULT to IDLE.
  (∀ (s : State) (pa : Nat), pa < 2 → astOfPreamp s pa < 2 → s.rd (paFault pa) = 1 → s.rd (Reg.astStatusState.elem (astOfPreamp
    s pa)) = 6 → ∃ t, exec (.preampFaultClear pa) s = .next t ∧ t.rd (paFault pa) = 0 ∧ t.rd (Reg.astStatusState.elem
    (astOfPreamp s pa)) = 0) ∧
  -- PRE_XFER at expert level queues the raw transaction written, after all others, and clears the last data's VALID and ERR.
  (∀ (s : State) (data : Word), s.rd Reg.preModeLevel = 1 → ∃ t, exec (.preXferGo data) s = .next t ∧ t.pre.queue = s.pre.queue
    ++ [⟨fieldOf data 30 1, fieldOf data 29 1 == 1, fieldOf data 16 7, fieldOf data 0 16, true⟩] ∧ t.rd Reg.preRdataValid = 0
    ∧ t.rd Reg.preRdataErr = 0) ∧
  -- PRE_TRANSACTION_DONE of a raw read at the front takes it off the queue, with its data, VALID and XFER_DONE.
  (∀ (s : State) (data : Nat) (x : PreXfer) (rest : List PreXfer), s.pre.queue = x :: rest → preWaits s x = false → x.raw =
    true → x.read = true → ∃ t, exec (.preTransactionDone data) s = .next t ∧ t.pre.queue = rest ∧ t.rd Reg.preRdataData =
    data % 65536 ∧ t.rd Reg.preRdataValid = 1 ∧ t.rd Reg.preIrqStatusXferDone = 1) ∧
  -- PRE_READ_TIMEOUT of a raw read at the front takes it off the queue with VALID, ERR, XFER_DONE and XFER_ERR.
  (∀ (s : State) (x : PreXfer) (rest : List PreXfer), s.pre.queue = x :: rest → preWaits s x = false → x.raw = true → x.read =
    true → ∃ t, exec (.preReadTimeout) s = .next t ∧ t.pre.queue = rest ∧ t.rd Reg.preRdataErr = 1 ∧ t.rd
    Reg.preIrqStatusXferErr = 1) ∧
  -- A write of SETUP_DATA stores the entry at INDEX with its defined bits, and INDEX steps, wrapping at 128.
  (∀ (s : State) (w : Word), ∃ t, exec (.preSetupDataAccess (some w)) s = .next t ∧ t.pre.setup = Store.write 0 s.pre.setup
    (s.rd Reg.preSetupIdxIndex) (w &&& 0x807FFFFF) ∧ t.rd Reg.preSetupIdxIndex = (s.rd Reg.preSetupIdxIndex + 1) % 128)

/-- Journal commands complete: routes, folds, releases, twin records, replay (R259, R260, R263, R264, R271, R272, R279, R280,
R282). -/
def Obligations.CompleteJournal : Prop :=
  -- ROUTE of a write that has laid nothing, without JOURNAL, sends it by the direct route and answers OK.
  (∀ (s : State) (e : RingEntry) (c : HostCmd), 4 < s.rings.length → ringFront s 4 = some e → s.rd Reg.jnlModeLevel = 1 →
    jnlMalformed e = false → e.at 0 1 = 1 → e.at 1 1 = 3 → s.hst.cmds.find? (fun c => c.tag == e.at 2 2 && c.isWrite &&
    !c.done) = some c → c.laid = [] → ∃ t, exec (.route) s = .next t ∧ t = jnlResult (setCmd s
    { c with direct := true, target := none }) e 0 ∧ (t.ring 4).inProg = (s.ring 4).inProg.drop 1) ∧
  -- FOLD of a LIVE extent that is not held marks it FOLDING, shows the fold, and answers OK.
  (∀ (s : State) (e : RingEntry) (x : Extent), 4 < s.rings.length → ringFront s 4 = some e → s.rd Reg.jnlModeLevel = 1 →
    jnlMalformed e = false → e.at 0 1 = 2 → s.jnl.extents.find? (fun x => x.idx == e.at 4 4) = some x → x.state = 1 → foldHeld
    s x = false → s.rd Reg.jnlStatusFold = 0 → ∃ t, exec (.fold) s = .next t ∧ t = jnlResult ((setExtent s
    { x with state := 2, home := [] }).wr Reg.jnlStatusFold 1) e 0 ∧ t.rd Reg.jnlStatusFold = 1 ∧ (t.ring 4).inProg = (s.ring
    4).inProg.drop 1) ∧
  -- RELEASE of an extent that is not being folded frees it without folding and answers OK.
  (∀ (s : State) (e : RingEntry) (x : Extent), ringFront s 4 = some e → s.rd Reg.jnlModeLevel = 1 → jnlMalformed e = false →
    e.at 0 1 = 3 → s.jnl.extents.find? (fun x => x.idx == e.at 4 4) = some x → x.state ≠ 2 → ∃ t, exec (.release) s = .next t
    ∧ t = jnlResult (extentDrop s x 0) e 0) ∧
  -- TWIN_WAIT_EXPIRY of a direct write in twin mode that is not yet protected issues its twin record.
  (∀ (s : State) (tag : Nat) (c : HostCmd), s.hst.cmds.find? (fun c => c.tag == tag && c.isWrite && !c.done) = some c → c.twin
    = true → c.direct = true → c.fetched = true → writeLaid c = false → s.jnl.twins.contains tag = false → s.rd
    Reg.jnlModeLevel = 0 → ∃ t, exec (.twinWaitExpiry tag) s = .next t ∧ t = twinIssue s c ∧ t.jnl.twins = c.tag ::
    s.jnl.twins) ∧
  -- FOLD_IDLE_START in SERVICE at basic level, with no host work and one extent to fold that is not held, begins its fold.
  (∀ (s : State) (x : Extent), s.rd Reg.jnlModeLevel = 0 → s.rd Reg.sysOpmodeMode = 2 → s.hst.cmds = [] → foldCandidates s =
    [x] → foldHeld s x = false → s.rd Reg.jnlStatusFold = 0 → ∃ t, exec (.foldIdleStart) s = .next t ∧ t.jnl.extents =
    s.jnl.extents.map (fun y => if y.idx = x.idx then { x with state := 2, home := [] } else y) ∧ t.rd Reg.jnlStatusFold = 1) ∧
  -- JOURNAL_REPLAY that is due, in SERVICE, with no bands to trim, reports REPLAY done without loss.
  (∀ (s : State), s.jnl.needReplay = true → s.rd Reg.sysOpmodeMode = 2 → s.hst.cmds = [] → s.poisoned (s.rd Reg.jnlIdxBaseAddr)
    64 = false → ∃ t, exec (.journalReplay []) s = .next t ∧ t.rd Reg.jnlStatusReplay = 2 ∧ t.rd Reg.jnlIrqStatusReplayDone =
    1)

/-- Link, doorbell and inbox commands complete (R286, R288, R293, R308, R309, R372). -/
def Obligations.CompleteLink : Prop :=
  -- PCIE_LINK_UP of port 0 at a width its lanes support and a speed of 1 to 4 shows the link up.
  (∀ (s : State) (width speed : Nat), width = 1 ∨ width = 2 ∨ width = 4 → width ≤ widestWidth s 0 → 1 ≤ speed → speed ≤ 4 →
    s.rd Reg.sysOpmodeMode ≠ 1 → s.rd Reg.rstStatusPerst = 0 → s.boot ≠ .por → ∃ t, exec (.pcieLinkUp 0 width speed) s = .next
    t ∧ t.rd Reg.hstStatusP0Up = 1 ∧ t.rd Reg.hstStatusP0Width = width ∧ t.rd Reg.hstStatusP0Speed = speed ∧ t.rd
    Reg.hstIrqStatusLinkChg = 1) ∧
  -- PCIE_LANE_FAIL of a lane that is present and works excludes it and raises LANE_LOST.
  (∀ (s : State) (lane int : Nat), lane < 4 → s.present (bitLane lane) = true → (s.rd Reg.hstStatusLanesDown).testBit lane =
    false → ∃ t, exec (.pcieLaneFail lane int) s = .next t ∧ t.rd Reg.hstStatusLanesDown = maskSet (s.rd
    Reg.hstStatusLanesDown) lane % 16 ∧ t.rd Reg.hstIrqStatusLaneLost = 1) ∧
  -- SQ_TAIL_DOORBELL of an existing queue with a tail below its size sets the tail.
  (∀ (s : State) (fn qid value : Nat) (q : SubQ), sqFind s fn qid = some q → value < q.size → ∃ t, exec (.sqTailDoorbell fn qid
    value) s = .next t ∧ sqFind t fn qid = some { q with tail := value }) ∧
  -- CQ_HEAD_DOORBELL of an existing queue with nothing pending and a head below its size sets the head.
  (∀ (s : State) (fn qid value : Nat) (q : CompQ), cqFind s fn qid = some q → value < q.size → q.pend = [] → ∃ t, exec
    (.cqHeadDoorbell fn qid value) s = .next t ∧ cqFind t fn qid = some { q with head := value }) ∧
  -- ADMIN_INBOX_CONSUME moves the consumer forward to an index in the ring that does not pass the producer.
  (∀ (s : State) (data : Word), fieldOf data 0 10 < s.rd Reg.hstAdmRingEntries → ringDist (s.rd Reg.hstAdmRingEntries) (s.rd
    Reg.hstAdmConsIdx) (fieldOf data 0 10) ≤ ringDist (s.rd Reg.hstAdmRingEntries) (s.rd Reg.hstAdmConsIdx) (s.rd
    Reg.hstAdmProdIdx) → ∃ t, exec (.adminInboxConsume data) s = .next t ∧ t.rd Reg.hstAdmConsIdx = fieldOf data 0 10 % 1024 ∧
    t.resp = .done 0) ∧
  -- ADMIN_COMPLETION_GO with GO posts the held completion to the function's admin queue where it has room, and the command
  -- leaves the fetched ones.
  (∀ (s : State) (data : Word) (q : CompQ) (e : Cqe), data.getLsbD 31 = true → e =
    { fn := s.rd Reg.hstAdmCpl1Func, sqid := 0, cid := s.rd Reg.hstAdmCpl1Cid, status := fieldOf data 0 15,
      dw0 := s.rd Reg.hstAdmCpl0Dw0, dw1 := 0, tag := none } → cqFind s e.fn 0 = some q → q.full = false → q.pend = [] → ∃ t,
    exec (.adminCompletionGo data) s = .next t ∧ t.hst.sent = cqeBytes s e q.phase ∧ t.hst.admin = s.hst.admin.filter (fun a
    => a != (e.fn, e.cid)) ∧ t.resp = .done 0) ∧
  -- AGGREGATION_TIME_EXPIRY with completions held back on a vector that may interrupt signals it and holds none back any
  -- more.
  (∀ (s : State) (fn vector : Nat), (s.hst.cqs.any fun q => q.fn == fn && q.vector == vector && q.agg != 0 && q.ien) = true → ∃
    t, exec (.aggregationTimeExpiry fn vector) s = .next t ∧ t.hst.signalled = some (fn, vector) ∧ t.hst.cqs = s.hst.cqs.map
    (fun q => if q.fn = fn ∧ q.vector = vector then { q with agg := 0 } else q))

/-- Fetch, begin, abort, posting and the front end's restart complete (R278, R291, R293, R304, R305, R307, R308, R372). -/
def Obligations.CompleteFetch : Prop :=
  -- COMMAND_FETCH of an admin command other than Abort, in SERVICE with the link up and room in the inbox, puts it there.
  (∀ (s : State) (tag hart : Nat) (fn : Nat) (sqe : List Byte) (q : SubQ) (c : Ctrl), sqFind s fn 0 = some q → ctrlOf s fn =
    some c → s.rd Reg.sysOpmodeMode = 2 → s.hst.paused = false → sqReady s q = true → portUp s (portOf fn) = true → leValue
    (sqe.take 1) ≠ 8 → s.hst.admin.length < 1024 → inboxRoom s = true → ∃ t, exec (.commandFetch fn 0 tag hart sqe) s = .next
    t ∧ t = inboxPut (sqPut s { q with head := (q.head + 1) % q.size }) fn sqe ∧ t.rd Reg.hstIrqStatusAdmin = 1 ∧ t.hst.admin
    = s.hst.admin ++ [(fn, leValue ((sqe.drop 2).take 2))]) ∧
  -- COMMAND_FETCH of an I/O command at the head of a ready queue, in SERVICE with the link up, under a free tag, for a hart
  -- that is online, places it.
  (∀ (s : State) (fn sqid tag hart : Nat) (sqe : List Byte) (q : SubQ) (c : Ctrl), sqFind s fn sqid = some q → ctrlOf s fn =
    some c → s.rd Reg.sysOpmodeMode = 2 → s.hst.paused = false → sqReady s q = true → portUp s (portOf fn) = true → aheadWaits
    s c q = false → sqid ≠ 0 → s.hst.cmds.length < 65536 → tag < 65536 → cmdOf s tag = none → (s.rd Reg.fltCoreOnline).testBit
    hart = true → ∃ t, exec (.commandFetch fn sqid tag hart sqe) s = .next t ∧ t = placeCommand (sqPut s
    { q with head := (q.head + 1) % q.size }) (cmdFromSqe fn sqid tag hart sqe)) ∧
  -- COMMAND_BEGIN in SERVICE of a command that may begin begins it and writes its intent record.
  (∀ (s : State) (tag : Nat) (c : HostCmd), cmdOf s tag = some c → c.begun = false → c.done = false → mayBegin s c = true →
    s.rd Reg.sysOpmodeMode = 2 → s.hst.paused = false → ∃ t, exec (.commandBegin tag) s = .next t ∧ t = writePump (intentWrite
    (setCmd s { c with begun := true }) { c with begun := true } 1)) ∧
  -- COMPLETION_POST by a free lane of a command that is done, to a queue with room, with the link up, posts it: its record is
  -- FREE and the lane is free again.
  (∀ (s : State) (lane tag : Nat) (c : HostCmd) (q : CompQ), cmdOf s tag = some c → cqFind s c.fn (cqOfSq s c.fn c.sqid) = some
    q → c.done = true → postWaits s tag = false → lane < 4 → nth none s.hst.latches lane = none → s.hst.paused = false →
    q.full = false → q.pend = [] → portUp s (portOf c.fn) = true → ∃ t, exec (.completionPost lane tag) s = .next t ∧ cmdOf t
    tag = none ∧ t.hst.latches = setNth (setNth s.hst.latches lane (some ⟨q.qid, q.tail, q.phase,
    { cmdCqe c with tag := none }⟩)) lane none) ∧
  -- ABORT of a command that it may remove, by a controller with fewer than four outstanding, removes it and counts it.
  (∀ (s : State) (fn cid sqid target : Nat) (k : Ctrl) (c : HostCmd), ctrlOf s fn = some k → k.aborts < 4 → s.hst.cmds.find?
    (fun c => c.fn == fn && c.sqid == sqid && c.cid == target && sqid != 0) = some c → abortable s c = true → ∃ t, exec
    (.abort fn cid sqid target) s = .next t ∧ cmdOf t c.tag = none) ∧
  -- FRONTEND_RESTART for the first time, with no latch set, has every LIVE command carried out again from its start.
  (∀ (s : State) (int : Nat), s.hst.latches = [none, none, none, none] → ∃ t, exec (.frontendRestart int false) s = .next t ∧
    t.hst.cmds = s.hst.cmds.map (fun c => if c.done = false then { c with begun := false, fetched := false, given := [] } else
    c) ∧ t.rd Reg.fltIntLast = min int 65535)

/-- Read-channel commands complete: READ, WRITE and PROBE planks, decoding, grants, lock, staged values (R122, R142, R143,
R229, R235, R236, R249, R252, R255, R373). -/
def Obligations.CompleteChannel : Prop :=
  -- PLANK_READ that begins opens the read: its plank runs and is reading.
  (∀ (s : State) (n full : Nat) (p : Plank), n < 2 → plankMayBegin s n full actRead p = true → p.count ≠ 0 → ∃ t, exec
    (.plankRead n full) s = .next t ∧ (t.bwk.get n).run.begun = true ∧ (t.bwk.get n).run.reading = true) ∧
  -- PLANK_WRITE that begins at basic level with ASTn in IDLE takes ASTn to RAMP.
  (∀ (s : State) (n full : Nat) (p : Plank), n < 2 → plankMayBegin s n full actWrite p = true → p.count ≠ 0 → s.rd
    (Reg.astStatusState.elem n) = 0 → s.rd (Reg.bwkModeLevel.elem n) = 0 → ∃ t, exec (.plankWrite n full) s = .next t ∧ t.rd
    (Reg.astStatusState.elem n) = 1) ∧
  -- PLANK_PROBE that begins at basic level with ASTn in IDLE takes ASTn to RAMP.
  (∀ (s : State) (n full : Nat) (p : Plank), n < 2 → plankMayBegin s n full actProbe p = true → p.count ≠ 0 → s.rd
    (Reg.astStatusState.elem n) = 0 → s.rd (Reg.bwkModeLevel.elem n) = 0 → ∃ t, exec (.plankProbe n full) s = .next t ∧ t.rd
    (Reg.astStatusState.elem n) = 1) ∧
  -- WRITE_GATE_FALL while a WRITE plank writes a sector lowers the write request and the gate.
  (∀ (s : State) (n full bits : Nat) (p : Plank) (o : SectorOut), n < 2 → runningPlank s n actWrite = some p → lowFlags s n ≠ 0
    → (s.bwk.get n).out = some o → ∃ t, exec (.writeGateFall n full bits) s = .next t ∧ t.rd (Reg.bwkStatusWreq.elem n) = 0 ∧
    t.rd (Reg.bwkStatusGate.elem n) = 0 ∧ (t.bwk.get n).out = none) ∧
  -- READ_SECTOR of a running READ plank whose boundary is reached shows the envelope of the slot.
  (∀ (s : State) (n full : Nat) (det : Detection) (p : Plank) (e : Nat × Nat), n < 2 → runningPlank s n actRead = some p →
    nextBoundary s n p ≤ frameAngle s p.head full → (s.bwk.get n).sector < p.count → chanOf s n < 2 → det.envelope.getLast? =
    some e → ∃ t, exec (.readSector n full det) s = .next t ∧ t.rd (Reg.rdcStatusEnvelope.elem (chanOf s n)) = min e.1 255) ∧
  -- WRITE_SECTOR at the start of a running WRITE plank with both flags high and its buffer clean raises the write request for
  -- its first sector.
  (∀ (s : State) (n full : Nat) (p : Plank), n < 2 → runningPlank s n actWrite = some p → nextBoundary s n p ≤ frameAngle s
    p.head full → (s.bwk.get n).sector = 0 → (s.bwk.get n).run.endWith = none → (s.bwk.get n).gateDown = false → p.count ≠ 0 →
    p.sg = false → s.poisoned (p.dataPage * 4096) 4096 = false → s.poisoned (plankMeta p 0) 64 = false → lowFlags s n = 0 → ∃
    t, exec (.writeSector n full) s = .next t ∧ t.rd (Reg.bwkStatusWreq.elem n) = 1 ∧ (t.bwk.get n).sector = 1) ∧
  -- FAST_DECODE_DONE of a codeword that has converged, or has reached its limit, frees its buffer.
  (∀ (s : State) (k iter unsat : Nat) (block : List Byte) (w : Codeword), s.ldp.words[k]? = some w → iter ≤ w.iterMax → unsat =
    0 ∨ iter = w.iterMax → ∃ t, exec (.fastDecodeDone k iter unsat block) s = .next t ∧ t.ldp.words = s.ldp.words.eraseIdx k) ∧
  -- DECODE_DEADLINE_CUT of a codeword that has not converged frees its buffer and raises CUT.
  (∀ (s : State) (k iter unsat : Nat) (block : List Byte) (w : Codeword), s.ldp.words[k]? = some w → iter ≤ w.iterMax → unsat ≠
    0 → ∃ t, exec (.decodeDeadlineCut k iter unsat block) s = .next t ∧ t.ldp.words = s.ldp.words.eraseIdx k ∧ t.rd
    Reg.ldpIrqStatusCut = 1) ∧
  -- FAST_DECODER_CHECK_FAIL with another decoder in service takes the decoder out of service.
  (∀ (s : State) (d : Nat), d < 2 → s.serving (bitFast d) = true → kindLost (setDown (decoderDrop s d s.ldp.words.length)
    (bitFast d)) = false → ∃ t, exec (.fastDecoderCheckFail d) s = .next t ∧ t.down (bitFast d) = true) ∧
  -- READ_RESULT_WRITE of an ended READ with every outcome final, the only one waiting, writes its result.
  (∀ (s : State) (n : Nat) (d : DonePlank), n < 2 → (s.bwk.get n).done = [d] → d.run.reading = true → d.run.openReads = 0 → ∃
    t, exec (.readResultWrite n) s = .next t ∧ (t.bwk.get n).done = [] ∧ t.rd (Reg.bwkPlanksCount.elem n) = (s.rd
    (Reg.bwkPlanksCount.elem n) + 1) % 4294967296) ∧
  -- CHANNEL_GRANT of a free, locked channel with a sequencer waiting shows the sequencer the channel is granted to.
  (∀ (s : State) (c full n : Nat), c < 2 → (s.chan.get c).unlocked = false → (s.chan.get c).granted = none → ((s.chan.get
    c).waiting.find? fun m => m != (s.chan.get c).last).or (s.chan.get c).waiting.head? = some n → chanOf s n = c → ∃ t, exec
    (.channelGrant c full) s = .next t ∧ t.rd (Reg.rdcStatusGrant.elem c) = n % 2) ∧
  -- RDC_STAGED_APPLY at the plank gap puts a staged profile word in force, clears STAGED and raises STAGED_APPLIED.
  (∀ (s : State) (c : Nat), c < 2 → (s.chan.get c).granted = none → (s.chan.get c).profPend ≠ [] → ∃ t, exec (.rdcStagedApply
    c) s = .next t ∧ (t.chan.get c).profPend = [] ∧ t.rd (Reg.rdcStatusStaged.elem c) = 0 ∧ t.rd
    (Reg.rdcIrqStatusStagedApplied.elem c) = 1) ∧
  -- A read of PROF_DATA answers the profile word at WORD, and WORD steps, wrapping at 1,024.
  (∀ (s : State) (c : Nat), c < 2 → 7 + c ∉ s.gated → ∃ t, exec (.rdcProfDataAccess c none) s = .next t ∧ t.rd
    (Reg.rdcProfIdxWord.elem c) = (s.rd (Reg.rdcProfIdxWord.elem c) + 1) % 1024 ∧ t.resp = .done (profileWord s c (s.rd
    (Reg.rdcProfIdxWord.elem c))).toNat) ∧
  -- A read of EQ_DATA answers the tap at TAP, and TAP steps, wrapping at 256.
  (∀ (s : State) (c : Nat), c < 2 → 7 + c ∉ s.gated → ∃ t, exec (.rdcEqDataAccess c none) s = .next t ∧ t.rd
    (Reg.rdcEqIdxTap.elem c) = (s.rd (Reg.rdcEqIdxTap.elem c) + 1) % 256 ∧ t.resp = .done (eqTap s c (s.rd
    (Reg.rdcEqIdxTap.elem c))).toNat) ∧
  -- CHANNEL_LOCK_LOSS of a channel granted to nobody leaves it unlocked.
  (∀ (s : State) (c bits : Nat) (inDet : Bool), c < 2 → (s.chan.get c).granted = none → ∃ t, exec (.channelLockLoss c bits
    inDet) s = .next t ∧ (t.chan.get c).unlocked = true) ∧
  -- CHANNEL_RELOCK leaves the channel locked.
  (∀ (s : State) (c : Nat), c < 2 → ∃ t, exec (.channelRelock c) s = .next t ∧ (t.chan.get c).unlocked = false) ∧
  -- CHANNEL_RELOCK_TIMEOUT of an unlocked channel with another in service takes it out of service.
  (∀ (s : State) (c : Nat), c < 2 → (s.chan.get c).unlocked = true → s.down (bitRdc c) = false → kindLost (setDown s (bitRdc
    c)) = false → ∃ t, exec (.channelRelockTimeout c) s = .next t ∧ t.down (bitRdc c) = true)

/-- Queue administration, Identify and asynchronous events complete, each with its reply (R287, R290, R294, R298, R310). -/
def Obligations.CompleteQueueAdmin : Prop :=
  -- CREATE_IO_CQ with a free ID within the grant adds the queue and replies with success.
  (∀ (s : State) (c : Ctrl) (fn qid base entries vector : Nat) (ien : Bool), ctrlOf s fn = some c → s.rd Reg.sysOpmodeMode = 2
    → 1 ≤ qid → qid ≤ min c.cqGrant (qidLimit fn) → cqFind s fn qid = none → 2 ≤ entries → entries ≤ s.sim.cfg.maxQEntries →
    vector < vectorLimit fn → ∃ t, exec (.createIoCq fn qid base entries vector ien) s = .next t ∧ t.hst.reply =
    { fn, status := 0, dw0 := 0, data := [] } ∧ t.hst.cqs.map (fun q => (q.fn, q.qid, q.size)) = s.hst.cqs.map (fun q =>
    (q.fn, q.qid, q.size)) ++ [(fn, qid, entries)]) ∧
  -- CREATE_IO_SQ with a free ID within the grant, on a completion queue that exists, adds the queue and replies with success.
  (∀ (s : State) (c : Ctrl) (q : CompQ) (fn qid base entries cq prio : Nat), ctrlOf s fn = some c → s.rd Reg.sysOpmodeMode = 2
    → 1 ≤ qid → qid ≤ min c.sqGrant (qidLimit fn) → sqFind s fn qid = none → 2 ≤ entries → entries ≤ s.sim.cfg.maxQEntries →
    cq ≠ 0 → cqFind s fn cq = some q → ∃ t, exec (.createIoSq fn qid base entries cq prio) s = .next t ∧ t.hst.reply =
    { fn, status := 0, dw0 := 0, data := [] } ∧ t.hst.sqs = s.hst.sqs ++
    [{ fn, qid, base, size := entries, cq, prio, head := 0, tail := 0 }]) ∧
  -- DELETE_IO_SQ of a queue with no command outstanding removes it and replies with success.
  (∀ (s : State) (c : Ctrl) (q : SubQ) (fn qid : Nat), ctrlOf s fn = some c → s.rd Reg.sysOpmodeMode = 2 → sqFind s fn qid =
    some q → qid ≠ 0 → s.hst.cmds = [] → ∃ t, exec (.deleteIoSq fn qid) s = .next t ∧ t.hst.reply =
    { fn, status := 0, dw0 := 0, data := [] } ∧ sqFind t fn qid = none) ∧
  -- DELETE_IO_CQ of a queue that no submission queue uses removes it and replies with success.
  (∀ (s : State) (c : Ctrl) (q : CompQ) (fn qid : Nat), ctrlOf s fn = some c → s.rd Reg.sysOpmodeMode = 2 → qid ≠ 0 → cqFind s
    fn qid = some q → (s.hst.sqs.any fun x => x.fn == fn && x.cq == qid) = false → ∃ t, exec (.deleteIoCq fn qid) s = .next t
    ∧ t.hst.reply = { fn, status := 0, dw0 := 0, data := [] } ∧ cqFind t fn qid = none) ∧
  -- IDENTIFY of the active namespaces replies with the list of those above the ID given that the controller sees.
  (∀ (s : State) (c : Ctrl) (fn ns csi : Nat), ctrlOf s fn = some c → s.rd Reg.sysOpmodeMode = 2 → ∃ t, exec (.identify fn 0x02
    ns csi) s = .next t ∧ t.hst.reply = { fn := c.fn, status := 0, dw0 := 0, data := identifyList s c ns fun _ => true }) ∧
  -- GET_FEATURES of the power state replies with the one in force.
  (∀ (s : State) (c : Ctrl) (fn value : Nat), ctrlOf s fn = some c → s.rd Reg.sysOpmodeMode = 2 → ∃ t, exec (.getFeatures fn
    0x02 0 value) s = .next t ∧ t.hst.reply = { fn := c.fn, status := 0, dw0 := s.hst.ps, data := [] }) ∧
  -- ASYNCHRONOUS_EVENT_REQUEST with fewer than eight outstanding and no event queued is held by the controller.
  (∀ (s : State) (c : Ctrl) (fn cid : Nat), ctrlOf s fn = some c → s.rd Reg.sysOpmodeMode = 2 → c.aers.length < 8 → c.events =
    [] → ∃ t, exec (.asynchronousEventRequest fn cid) s = .next t ∧ ctrlOf t fn = some { c with aers := c.aers ++ [cid] })

/-- Features, Format, Sanitize and the idle transitions complete (R295, R303, R313, R314, R315, R438). -/
def Obligations.CompleteFeatures : Prop :=
  -- SET_FEATURES of a feature of one controller stores its value there and replies with success.
  (∀ (s : State) (c : Ctrl) (fn value : Nat), ctrlOf s fn = some c → s.rd Reg.sysOpmodeMode = 2 → ∃ t, exec (.setFeatures fn
    0x0B value false) s = .next t ∧ t.hst.reply = { fn, status := 0, dw0 := 0, data := [] } ∧ t.hst.ctrls = s.hst.ctrls.map
    fun k => if k.fn = c.fn then { c with features := Store.write 0 c.features 0x0B (value % 2 ^ 32) } else k) ∧
  -- SET_FEATURES_POWER_MGMT of the operational state of the current rung stores it and replies with success.
  (∀ (s : State) (c : Ctrl) (fn ps : Nat), ctrlOf s fn = some c → s.rd Reg.sysOpmodeMode = 2 → isPf fn = true → ps ≤ 2 →
    s.change = none → s.rd Reg.angModeLevel = 1 → ∃ t, exec (.setFeaturesPowerMgmt fn ps) s = .next t ∧ t.hst.reply =
    { fn, status := 0, dw0 := 0, data := [] } ∧ t.hst.ps = ps ∧ t.hst.psOp = ps) ∧
  -- SET_FEATURES_APST stores the table and replies with success where every entry names a non-operational state.
  (∀ (s : State) (c : Ctrl) (fn : Nat) (enable : Bool), ctrlOf s fn = some c → s.rd Reg.sysOpmodeMode = 2 → isPf fn = true → ∃
    t, exec (.setFeaturesApst fn enable [0x1F18] false) s = .next t ∧ t.hst.reply = { fn, status := 0, dw0 := 0, data := [] }
    ∧ t.hst.apst = Store.writeRun 0 [] 0 [0x1F18]) ∧
  -- SET_FEATURES_HCTM of legal thresholds shows them in THM_HCTM and replies with success.
  (∀ (s : State) (c : Ctrl) (fn t1 t2 : Nat), ctrlOf s fn = some c → s.rd Reg.sysOpmodeMode = 2 → isPf fn = true → 273 ≤ t1 →
    t1 < t2 → t2 ≤ 388 → ∃ t, exec (.setFeaturesHctm fn (t1 * 2 ^ 16 + t2) false) s = .next t ∧ t.hst.reply =
    { fn, status := 0, dw0 := 0, data := [] } ∧ t.rd Reg.thmHctmTmt1 = t1 ∧ t.rd Reg.thmHctmTmt2 = t2) ∧
  -- SET_FEATURES_TWIN writes JNL_CTL.TWIN and replies with success.
  (∀ (s : State) (c : Ctrl) (fn value : Nat) (save : Bool), ctrlOf s fn = some c → s.rd Reg.sysOpmodeMode = 2 → isPf fn = true
    → ∃ t, exec (.setFeaturesTwin fn value save) s = .next t ∧ t.hst.reply = { fn, status := 0, dw0 := 0, data := [] } ∧ t.rd
    Reg.jnlCtlTwin = value % 2) ∧
  -- SET_FEATURES_IDLE_CADENCE stores the value and replies with success.
  (∀ (s : State) (c : Ctrl) (fn value : Nat), ctrlOf s fn = some c → s.rd Reg.sysOpmodeMode = 2 → isPf fn = true → ∃ t, exec
    (.setFeaturesIdleCadence fn value false) s = .next t ∧ t.hst.reply = { fn, status := 0, dw0 := 0, data := [] } ∧
    Store.read 0 t.hst.device 0xC1 = value % 2 ^ 32) ∧
  -- SET_FEATURES_NS_MASK of a function of this PF stores its namespace mask and replies with success.
  (∀ (s : State) (c : Ctrl) (fn value : Nat), ctrlOf s fn = some c → s.rd Reg.sysOpmodeMode = 2 → isPf fn = true → bitsOf value
    0 8 ≤ s.sim.cfg.vfPerPf → ∃ t, exec (.setFeaturesNsMask fn value) s = .next t ∧ t.hst.reply =
    { fn, status := 0, dw0 := 0, data := [] } ∧ Store.read none t.hst.nsMasks (fn + bitsOf value 0 8) = some (bitsOf value 16
    8)) ∧
  -- FORMAT_NVM of a namespace at rest, with a format it offers, erases it and replies with success.
  (∀ (s : State) (c : Ctrl) (n : NsEntry) (fn ns ses : Nat) (key : List Byte), ctrlOf s fn = some c → s.rd Reg.sysOpmodeMode =
    2 → isPf fn = true → nsOf s ns = some n → n.lbafMask.testBit 0 = true → ses ≤ 2 → nsBusy s ns = false → cryInUse s (nsKey
    s ns) = false → ∃ t, exec (.formatNvm fn ns 0 0 ses key) s = .next t ∧ t.hst.reply =
    { fn, status := 0, dw0 := 0, data := [] } ∧ ns ∉ t.hst.blocked) ∧
  -- SANITIZE with the crypto-erase action at rest replies with success, and ends sanitized.
  (∀ (s : State) (c : Ctrl) (fn : Nat) (keys : List (List Byte)), ctrlOf s fn = some c → s.rd Reg.sysOpmodeMode = 2 → isPf fn =
    true → s.hst.blocked = [] → s.hst.cmds = [] → s.sim.cfg.ns = [] → ∃ t, exec (.sanitize fn 4 keys) s = .next t ∧
    t.hst.reply = { fn, status := 0, dw0 := 0, data := [] } ∧ t.hst.sanitized = 1 ∧ t.hst.blocked = []) ∧
  -- IDLE_CADENCE_STEP after T1 seconds idle takes the first step.
  (∀ (s : State), bitsOf (Store.read 0 s.hst.device 0xC1) 0 16 ≠ 0 → s.hst.cmds = [] → s.rd Reg.sysOpmodeMode = 2 → s.change =
    none → s.rd Reg.angModeLevel = 0 → s.hst.idleStep = 0 → ∃ t, exec (.idleCadenceStep 1) s = .next t ∧ t.hst.idleStep = 1) ∧
  -- APST_IDLE_EXPIRY of an entry that names REST asks for REST: with the rung change in progress, it waits for its end.
  (∀ (s : State) (idle : Nat), Store.read 0 s.hst.device 0x0C % 2 = 1 → apstTime (Store.read 0 s.hst.apst s.hst.psOp) ≠ 0 →
    apstTime (Store.read 0 s.hst.apst s.hst.psOp) ≤ idle → apstTarget (Store.read 0 s.hst.apst s.hst.psOp) = 3 → s.hst.cmds =
    [] → s.rd Reg.sysOpmodeMode = 2 → s.flt.safe = .none → s.change = none → s.rd Reg.angRungPhase ≠ 0 → ∃ t, exec
    (.apstIdleExpiry idle) s = .next t ∧ t.ang.powerPend = some (3 * 256 + 0x12))

/-- Get Log Page and the sideband management commands complete with their replies (R296, R316, R317, R409, R438, R493, R512).
-/
def Obligations.CompleteLogs : Prop :=
  -- GET_LOG_PAGE of a supported page with a good offset and namespace replies with the page's bytes from the offset and does
  -- what reading it does.
  (∀ (s : State) (c : Ctrl) (fn lid ns offset len : Nat), ctrlOf s fn = some c → s.rd Reg.sysOpmodeMode = 2 → pageSupported fn
    lid = true → offset % 4 = 0 → (lid = 2 → ns = 0xFFFFFFFF) → (lid = 0xBF → nsZoned s ns = true) → ∃ t, exec (.getLogPage fn
    lid ns offset len) s = .next t ∧ t.hst.reply = { fn, status := 0, dw0 := 0, data := (pageBytes s lid ns offset len).1 } ∧
    t = adminReply (pageRead (pageBytes s lid ns offset len).2 lid ns) fn 0 0 (pageBytes s lid ns offset len).1) ∧
  -- MI_READ_DATA_STRUCTURE of a type up to 4, while the warden serves the interface and not in RECOVERY, answers Success with
  -- 32 bytes.
  (∀ (s : State) (type : Nat), miOpen s = true → s.rd Reg.sysOpmodeMode ≠ 1 → type ≤ 4 → ∃ t, exec (.miReadDataStructure type)
    s = .next t ∧ t.hst.miStatus = 0 ∧ t.hst.reply.data = (freeBytes s 32).1) ∧
  -- MI_SUBSYSTEM_HEALTH_POLL answers Success with the critical warning inverted and the composite temperature.
  (∀ (s : State) (clear : Bool), miOpen s = true → ∃ t, exec (.miSubsystemHealthPoll clear) s = .next t ∧ t.hst.miStatus = 0 ∧
    t.hst.reply.data = overlay (freeBytes s 8).1 1 [BitVec.ofNat 8 (255 - criticalWarning (freeBytes s 8).2), compositeByte
    (freeBytes s 8).2]) ∧
  -- MI_CONTROLLER_HEALTH_POLL of one function answers Success with its controller ID, the composite temperature and the
  -- critical warning.
  (∀ (s : State) (first : Nat), miOpen s = true → first < 256 → ∃ t, exec (.miControllerHealthPoll first 1) s = .next t ∧
    t.hst.miStatus = 0 ∧ t.hst.reply.data = overlayAll (freeBytes s 16).1 [(0, 2, first + 1), (4, 2, s.rd
    Reg.thmCompositeKelvin), (8, 1, criticalWarning (freeBytes s 16).2)]) ∧
  -- MI_CONFIG_GET of a known configuration, not in RECOVERY, answers Success with its value.
  (∀ (s : State) (id : Nat), miOpen s = true → s.rd Reg.sysOpmodeMode ≠ 1 → miConfigKnown id = true → ∃ t, exec (.miConfigGet
    id) s = .next t ∧ t.hst.miStatus = 0 ∧ t.hst.reply.data = leBytes 4 (miConfig s id)) ∧
  -- MI_CONFIG_SET of a transmission unit of 64 to 250 bytes, not in RECOVERY, sets it.
  (∀ (s : State) (value : Nat), miOpen s = true → s.rd Reg.sysOpmodeMode ≠ 1 → 64 ≤ value → value ≤ 250 → ∃ t, exec
    (.miConfigSet 3 value) s = .next t ∧ t.hst.miStatus = 0 ∧ Store.read 0 t.hst.mi 3 = value) ∧
  -- MI_CONFIG_SET of a frequency of 100 kHz or 400 kHz, not in RECOVERY, sets it.
  (∀ (s : State) (value : Nat), miOpen s = true → s.rd Reg.sysOpmodeMode ≠ 1 → value = 1 ∨ value = 2 → ∃ t, exec (.miConfigSet
    1 value) s = .next t ∧ t.hst.miStatus = 0 ∧ Store.read 0 t.hst.mi 1 = value) ∧
  -- MI_TUNNELED_ADMIN Get Log Page, Identify or Get Features, while the control cores run, carries the command out.
  (∀ (s : State) (fn opc sel ns arg len : Nat), miOpen s = true → coresRun s = true → opc = 0x02 ∨ opc = 0x06 ∨ opc = 0x0A → ∃
    t, exec (.miTunneledAdmin fn opc sel ns arg len) s = .next t ∧ t = if opc = 0x02 then logPage (s.setHst
    { s.hst with miStatus := 0 }) fn sel ns arg len else if opc = 0x06 then identify (s.setHst { s.hst with miStatus := 0 })
    (miCtrl s fn) sel ns arg else getFeatures (s.setHst { s.hst with miStatus := 0 }) (miCtrl s fn) sel arg 0) ∧
  -- MI_BASIC_MGMT_COMMAND 0 on SMBus answers with the status block: its length, the critical warning inverted, the composite
  -- temperature.
  (∀ (s : State), miOpen s = true → Store.read 0 s.hst.mi 0 = 0 → ∃ t, exec (.miBasicMgmtCommand 0) s = .next t ∧
    t.hst.miStatus = 0 ∧ t.hst.reply.data = overlay (freeBytes s 8).1 0 [6, (freeBytes s 8).1.getD 1 0, BitVec.ofNat 8 (255 -
    criticalWarning (freeBytes s 8).2), compositeByte (freeBytes s 8).2])

/-- Reads, writes and Flush complete (R259, R268, R298, R301, R305, R306, R311, R342, R346). -/
def Obligations.CompleteData : Prop :=
  -- WRITE with good data, at basic level, with a route and frames to be had, stages it and takes its route.
  (∀ (s : State) (tag : Nat) (c : HostCmd) (data info : List Byte) (direct : Bool) (s0 : State), liveCmd s tag 0x01 = some c →
    c.fetched = false → writePiFail s c data info = none → s.rd Reg.jnlModeLevel = 0 → routeOf s c = some direct → stageFrames
    s c.tag (rangeLines c.ns (writeFirst c) c.nlb) = some s0 → ∃ t, exec (.write tag true data info) s = .next t ∧ t =
    pmuEvent (writeRoute (stageData s0 c data info) c direct) 0 5 none none c.nlb) ∧
  -- WRITE whose data the host did not deliver fails with Data Transfer Error.
  (∀ (s : State) (tag : Nat) (c : HostCmd) (data info : List Byte), liveCmd s tag 0x01 = some c → c.fetched = false → ∃ t, exec
    (.write tag false data info) s = .next t ∧ t = cmdFail s c 4 (writeFirst c)) ∧
  -- ZONE_APPEND with good data, at basic level, with a route and frames to be had, stages it and takes its route.
  (∀ (s : State) (tag : Nat) (c : HostCmd) (data info : List Byte) (direct : Bool) (s0 : State), liveCmd s tag 0x7D = some c →
    c.fetched = false → writePiFail s c data info = none → s.rd Reg.jnlModeLevel = 0 → routeOf s c = some direct → stageFrames
    s c.tag (rangeLines c.ns (writeFirst c) c.nlb) = some s0 → ∃ t, exec (.zoneAppend tag true data info) s = .next t ∧ t =
    pmuEvent (writeRoute (stageData s0 c data info) c direct) 0 5 none none c.nlb) ∧
  -- WRITE_ZEROES, at basic level, with a route and frames to be had, stages zeros and takes its route.
  (∀ (s : State) (tag : Nat) (c : HostCmd) (direct : Bool) (s0 : State), liveCmd s tag 0x08 = some c → c.fetched = false → s.rd
    Reg.jnlModeLevel = 0 → routeOf s c = some direct → stageFrames s c.tag (rangeLines c.ns (writeFirst c) c.nlb) = some s0 →
    ∃ t, exec (.writeZeroes tag) s = .next t ∧ t = pmuEvent (writeRoute (stageData s0 c [] []) c direct) 0 5 none none c.nlb) ∧
  -- READ of one sector without metadata, that the cache holds good or that reads as zeros, gives it to the host and is DONE
  -- with success.
  (∀ (s : State) (tag : Nat) (c : HostCmd) (user pi : List Byte), liveCmd s tag 0x02 = some c → c.begun = true → c.fetched =
    true → c.ended = false → c.nlb = 1 → c.given = [] → readFind s c c.slba = .good user pi ∨ (readFind s c c.slba = .zeros ∧
    user = List.replicate 4096 0) → (formatOf s c.ns).lbaf = 0 → ∃ t, exec (.read tag true) s = .next t ∧ t.hst.sent = user ∧
    cmdOf t tag = some { c with given := [c.slba], status := some 0, done := true }) ∧
  -- READ whose transfer to the host failed fails with Data Transfer Error.
  (∀ (s : State) (tag : Nat) (c : HostCmd), liveCmd s tag 0x02 = some c → c.begun = true → ∃ t, exec (.read tag false) s =
    .next t ∧ t = cmdFail s c 4 c.slba) ∧
  -- FLUSH that has begun and has no earlier write on its namespace in the overlap order is DONE with success.
  (∀ (s : State) (tag : Nat) (c : HostCmd), liveCmd s tag 0x00 = some c → c.begun = true → c.ended = false → (earlier
    s.hst.cmds tag).any (fun e => e.isWrite && e.ns == c.ns) = false → ∃ t, exec (.flush tag) s = .next t ∧ cmdOf t tag = some
    { c with status := some 0, done := true })

/-- Zone commands complete (R112, R281, R301, R302). -/
def Obligations.CompleteZones : Prop :=
  -- ZONE_CLOSE of an open zone with sectors written closes it and is DONE with success.
  (∀ (s : State) (tag : Nat) (c : HostCmd) (z : Nat), liveCmd s tag 0x79 = some c → c.begun = true → c.ended = false →
    c.zoneAction = 1 → c.selectAll = false → c.slba / max s.sim.cfg.zoneSectors 1 = z → zoneOpen (zoneState s c.ns z) = true →
    (zoneRec s c.ns z).wp ≠ 0 → ∃ t, exec (.zoneClose tag) s = .next t ∧ cmdOf t tag = some
    { c with status := some 0, done := true } ∧ zoneRec t c.ns z = { zoneRec s c.ns z with state := 4 }) ∧
  -- ZONE_FINISH of an empty or active zone that may be opened and has no group open makes it Full and is DONE with success.
  (∀ (s : State) (tag : Nat) (c : HostCmd) (z : Nat), liveCmd s tag 0x79 = some c → c.begun = true → c.ended = false →
    c.zoneAction = 2 → c.selectAll = false → c.slba / max s.sim.cfg.zoneSectors 1 = z → zoneState s c.ns z = 1 ∨ zoneActive
    (zoneState s c.ns z) = true → openRefusal s c.ns (zoneState s c.ns z) = none → zoneGroupOpen s c.ns z = false → ∃ t, exec
    (.zoneFinish tag) s = .next t ∧ cmdOf t tag = some { c with status := some 0, done := true } ∧ zoneRec t c.ns z =
    { zoneRec s c.ns z with state := 14 }) ∧
  -- ZONE_OPEN of an empty or active zone that may be opened opens it explicitly and is DONE with success.
  (∀ (s : State) (tag : Nat) (c : HostCmd) (z : Nat), liveCmd s tag 0x79 = some c → c.begun = true → c.ended = false →
    c.zoneAction = 3 → c.selectAll = false → c.slba / max s.sim.cfg.zoneSectors 1 = z → zoneState s c.ns z = 1 ∨ zoneActive
    (zoneState s c.ns z) = true → openRefusal s c.ns (zoneState s c.ns z) = none → ∃ t, exec (.zoneOpen tag) s = .next t ∧
    cmdOf t tag = some { c with status := some 0, done := true } ∧ zoneRec t c.ns z = { zoneRec s c.ns z with state := 3 }) ∧
  -- ZONE_RESET of an empty, active or full zone resets it, with its extents and held plan, and is DONE with success.
  (∀ (s : State) (tag : Nat) (c : HostCmd) (z : Nat), liveCmd s tag 0x79 = some c → c.begun = true → c.zoneAction = 4 →
    c.selectAll = false → c.slba / max s.sim.cfg.zoneSectors 1 = z → zoneState s c.ns z = 1 ∨ zoneActive (zoneState s c.ns z)
    = true ∨ zoneState s c.ns z = 14 → ∃ t, exec (.zoneReset tag) s = .next t ∧ t = cmdDone (retiredZoneOffline (heldPlanApply
    (jnlZoneReset (setZone s c.ns z {}) c.ns z) c.ns z) c.ns z) c 0) ∧
  -- ZONE_OFFLINE of a read-only zone takes it offline and is DONE with success.
  (∀ (s : State) (tag : Nat) (c : HostCmd) (z : Nat), liveCmd s tag 0x79 = some c → c.begun = true → c.zoneAction = 5 →
    c.selectAll = false → c.slba / max s.sim.cfg.zoneSectors 1 = z → zoneState s c.ns z = 13 → ∃ t, exec (.zoneOffline tag) s
    = .next t ∧ t = cmdDone (zoneChanged (setZone s c.ns z { zoneRec s c.ns z with state := 15 }) c.ns z) c 0) ∧
  -- SET_ZONE_DESC_EXT is DONE with Invalid Field in Command.
  (∀ (s : State) (tag : Nat) (c : HostCmd), liveCmd s tag 0x79 = some c → c.begun = true → c.ended = false → c.zoneAction = 16
    → ∃ t, exec (.setZoneDescExt tag) s = .next t ∧ cmdOf t tag = some { c with status := some 2, done := true }) ∧
  -- REPORT_ZONES with a reporting option of 0h to 7h is DONE with success.
  (∀ (s : State) (tag : Nat) (c : HostCmd), liveCmd s tag 0x7A = some c → c.begun = true → c.ended = false → c.zoneAction = 0 →
    c.cdw 13 / 256 % 256 ≤ 7 → ∃ t, exec (.reportZones tag) s = .next t ∧ cmdOf t tag = some
    { c with status := some 0, done := true }) ∧
  -- EXTENDED_REPORT_ZONES is DONE with Invalid Field in Command.
  (∀ (s : State) (tag : Nat) (c : HostCmd), liveCmd s tag 0x7A = some c → c.begun = true → c.ended = false → c.zoneAction = 1 →
    ∃ t, exec (.extendedReportZones tag) s = .next t ∧ cmdOf t tag = some { c with status := some 2, done := true })

/-- Zone commands with Select All complete (R301, R302). -/
def Obligations.CompleteZonesAll : Prop :=
  -- With Select All, zoneClose acts on every listed zone whose state the action names, and the command is DONE with success.
  (∀ (s : State) (tag : Nat) (c : HostCmd), liveCmd s tag 0x79 = some c → c.begun = true → c.zoneAction = 1 → c.selectAll =
    true → ∃ t, exec (.zoneClose tag) s = .next t ∧ t = cmdDone (s.each ((zonesListed s c.ns).filter (fun z => zoneOpen
    (zoneState s c.ns z))) (fun s z => (zoneClose s c.ns z).2)) c 0) ∧
  -- With Select All, zoneFinish acts on every listed zone whose state the action names, and the command is DONE with success.
  (∀ (s : State) (tag : Nat) (c : HostCmd), liveCmd s tag 0x79 = some c → c.begun = true → c.zoneAction = 2 → c.selectAll =
    true → ∃ t, exec (.zoneFinish tag) s = .next t ∧ t = cmdDone (s.each ((zonesListed s c.ns).filter (fun z => zoneActive
    (zoneState s c.ns z))) (fun s z => (zoneFinish s c.ns z).2)) c 0) ∧
  -- With Select All, zoneOpen acts on every listed zone whose state the action names, and the command is DONE with success.
  (∀ (s : State) (tag : Nat) (c : HostCmd), liveCmd s tag 0x79 = some c → c.begun = true → c.zoneAction = 3 → c.selectAll =
    true → ∃ t, exec (.zoneOpen tag) s = .next t ∧ t = cmdDone (s.each ((zonesListed s c.ns).filter (fun z => (fun st => st ==
    4) (zoneState s c.ns z))) (fun s z => (zoneOpenSet s c.ns z).2)) c 0) ∧
  -- With Select All, zoneReset acts on every listed zone whose state the action names, and the command is DONE with success.
  (∀ (s : State) (tag : Nat) (c : HostCmd), liveCmd s tag 0x79 = some c → c.begun = true → c.zoneAction = 4 → c.selectAll =
    true → ∃ t, exec (.zoneReset tag) s = .next t ∧ t = cmdDone (s.each ((zonesListed s c.ns).filter (fun z => (fun st =>
    zoneActive st || st == 14) (zoneState s c.ns z))) (fun s z => (zoneReset s c.ns z).2)) c 0) ∧
  -- With Select All, zoneOffline acts on every listed zone whose state the action names, and the command is DONE with
  -- success.
  (∀ (s : State) (tag : Nat) (c : HostCmd), liveCmd s tag 0x79 = some c → c.begun = true → c.zoneAction = 5 → c.selectAll =
    true → ∃ t, exec (.zoneOffline tag) s = .next t ∧ t = cmdDone (s.each ((zonesListed s c.ns).filter (fun z => (fun st => st
    == 13) (zoneState s c.ns z))) (fun s z => (zoneOffline s c.ns z).2)) c 0)

/-- Work-ring commands complete: indices, enable, disable, drain, held results, NOP (R323, R324, R330, R332, R333, R337). -/
def Obligations.CompleteRings : Prop :=
  -- REQ_PROD written forward, within the ring and not past the consumer, while enabled, is taken.
  (∀ (s : State) (n : Nat) (data : Word), n < 7 → s.rd (Reg.rngCtlEnable.elem n) = 1 → data.toNat < (s.ring n).reqSize →
    ringDist (s.ring n).reqSize (s.rd (Reg.rngReqConsIdx.elem n)) (s.rd (Reg.rngReqProdIdx.elem n)) ≤ ringDist (s.ring
    n).reqSize (s.rd (Reg.rngReqConsIdx.elem n)) data.toNat → ∃ t, exec (.ringReqProdWrite n data) s = .next t ∧ t.rd
    (Reg.rngReqProdIdx.elem n) = data.toNat % 65536 ∧ t.resp = .done 0) ∧
  -- RES_CONS written within the ring and not past the producer, while the pair is live, is taken.
  (∀ (s : State) (n : Nat) (data : Word), n < 7 → ringLive s n = true → data.toNat < (s.ring n).resSize → ringDist (s.ring
    n).resSize (s.rd (Reg.rngResConsIdx.elem n)) data.toNat ≤ ringDist (s.ring n).resSize (s.rd (Reg.rngResConsIdx.elem n))
    (s.rd (Reg.rngResProdIdx.elem n)) → ∃ t, exec (.ringResConsWrite n data) s = .next t ∧ t.rd (Reg.rngResConsIdx.elem n) =
    data.toNat % 65536 ∧ t.resp = .done 0) ∧
  -- RING_ENABLE of a disabled pair that nothing refuses enables it with its indices at 0.
  (∀ (s : State) (n : Nat), n < 7 → s.rd (Reg.rngCtlEnable.elem n) = 0 → ringRefusal s n = none → ∃ t, exec (.ringEnable n) s =
    .next t ∧ t.rd (Reg.rngCtlEnable.elem n) = 1 ∧ t.rd (Reg.rngReqProdIdx.elem n) = 0 ∧ t.rd (Reg.rngResConsIdx.elem n) = 0) ∧
  -- A pair that is refused shows why and raises REFUSED.
  (∀ (s : State) (n why : Nat), n < 7 → s.rd (Reg.rngCtlEnable.elem n) = 0 → ringRefusal s n = some why → ∃ t, exec
    (.ringEnable n) s = .next t ∧ t.rd (Reg.rngStatusRefuse.elem n) = why % 16 ∧ t.rd Reg.rngIrqStatusRefused = maskSet (s.rd
    Reg.rngIrqStatusRefused) n % 128) ∧
  -- RING_DISABLE of an enabled pair clears ENABLE and sets DRAINING.
  (∀ (s : State) (n : Nat), n < 7 → s.rd (Reg.rngCtlEnable.elem n) = 1 → ∃ t, exec (.ringDisable n) s = .next t ∧ t.rd
    (Reg.rngCtlEnable.elem n) = 0 ∧ t.rd (Reg.rngStatusDraining.elem n) = 1 ∧ t.rd (Reg.rngStatusIdle.elem n) = 0) ∧
  -- RING_DRAIN_DONE of a drained pair clears DRAINING, sets IDLE and raises DRAINED.
  (∀ (s : State) (n : Nat), n < 7 → ringDrained s n = true → ∃ t, exec (.ringDrainDone n) s = .next t ∧ t.rd
    (Reg.rngStatusDraining.elem n) = 0 ∧ t.rd (Reg.rngStatusIdle.elem n) = 1 ∧ t.rd Reg.rngIrqStatusDrained = maskSet (s.rd
    Reg.rngIrqStatusDrained) n % 128) ∧
  -- HELD_RESULT_WRITE with one result held and a free slot writes it: the producer index moves on.
  (∀ (s : State) (n : Nat) (x : RingResult), n < 7 → n < s.rings.length → (s.ring n).hold = [x] → resultRingFull s n = false →
    ∃ t, exec (.heldResultWrite n) s = .next t ∧ t.rd (Reg.rngResProdIdx.elem n) = (s.rd (Reg.rngResProdIdx.elem n) + 1) %
    (s.ring n).resSize % 65536 ∧ (t.ring n).hold = []) ∧
  -- NOP on the mailbox's front entry, well formed, answers it: the entry leaves the entries in progress.
  (∀ (s : State) (e : RingEntry), 6 < s.rings.length → ringFront s 6 = some e → mailMalformed e = false → e.at 0 1 = 0 → ∃ t,
    exec (.nop) s = .next t ∧ t = mailReply s e 0 (e.bytes.drop 8) ∧ (t.ring 6).inProg = (s.ring 6).inProg.drop 1)

/-- Commands of CRY's ring complete (R334, R335, R336). -/
def Obligations.CompleteCrypto : Prop :=
  -- ENCRYPT of one data unit with a loaded key, well formed and not poisoned, writes the ciphertext at DST and ends OK with
  -- DONE 1.
  (∀ (s : State) (e : RingEntry), ringFront s 5 = some e → s.cry.job = none → s.cry.wait = none → s.cry.failed = false → cryOp
    e = 1 → cryOk (s.set Reg.cryStatusBusy) e = true → (cryKey s (crySlot e)).isEmpty = false → cryCountOf e = 1 → s.poisoned
    (crySrc e) 4096 = false → ∃ t, exec (.encrypt) s = .next t ∧ t.cry.job = some (0, 1) ∧ t.bytes (cryDst e) 4096 = padBytes
    4096 (Config.xtsEncrypt (cryKey s (crySlot e)) (cryArg e) (s.bytes (crySrc e) 4096))) ∧
  -- DECRYPT of one data unit with a loaded key, well formed and not poisoned, writes the plaintext at DST and ends OK with
  -- DONE 1.
  (∀ (s : State) (e : RingEntry), ringFront s 5 = some e → s.cry.job = none → s.cry.wait = none → s.cry.failed = false → cryOp
    e = 2 → cryOk (s.set Reg.cryStatusBusy) e = true → (cryKey s (crySlot e)).isEmpty = false → cryCountOf e = 1 → s.poisoned
    (crySrc e) 4096 = false → ∃ t, exec (.decrypt) s = .next t ∧ t.cry.job = some (0, 1) ∧ t.bytes (cryDst e) 4096 = padBytes
    4096 (Config.xtsDecrypt (cryKey s (crySlot e)) (cryArg e) (s.bytes (crySrc e) 4096))) ∧
  -- HASH of a segment that is not poisoned adds its bytes to the chain's and ends OK with DONE at its length.
  (∀ (s : State) (e : RingEntry), ringFront s 5 = some e → s.cry.job = none → s.cry.wait = none → s.cry.failed = false → cryOp
    e = 3 → cryOk (s.set Reg.cryStatusBusy) e = true → s.poisoned (crySrc e) (cryArg e) = false → ∃ t, exec (.hash) s = .next
    t ∧ t.cry.job = some (0, cryArg e) ∧ t.cry.hash = s.cry.hash ++ s.bytes (crySrc e) (cryArg e)) ∧
  -- KEY_LOAD at expert level of a free slot loads the 64 bytes at SRC into it and raises KEY_DONE.
  (∀ (s : State) (e : RingEntry), ringFront s 5 = some e → s.cry.job = none → s.cry.wait = none → s.cry.failed = false → cryOp
    e = 4 → cryOk (s.set Reg.cryStatusBusy) e = true → s.rd Reg.cryModeLevel = 1 → s.poisoned (crySrc e) 64 = false → cryInUse
    s (crySlot e) = false → ∃ t, exec (.keyLoad) s = .next t ∧ t.cry.keys = Store.write [] s.cry.keys (crySlot e) (s.bytes
    (crySrc e) 64) ∧ t.rd Reg.cryIrqStatusKeyDone = 1) ∧
  -- KEY_CLEAR at expert level of a free slot empties it and raises KEY_DONE.
  (∀ (s : State) (e : RingEntry), ringFront s 5 = some e → s.cry.job = none → s.cry.wait = none → s.cry.failed = false → cryOp
    e = 5 → cryOk (s.set Reg.cryStatusBusy) e = true → s.rd Reg.cryModeLevel = 1 → cryInUse s (crySlot e) = false → ∃ t, exec
    (.keyClear) s = .next t ∧ t.cry.keys = Store.write [] s.cry.keys (crySlot e) [] ∧ t.rd Reg.cryIrqStatusKeyDone = 1) ∧
  -- KEY_OP_APPLY of a waiting key operation whose slot is free sets the slot, clears KEY_WAIT and raises KEY_DONE.
  (∀ (s : State) (k : KeyOp), s.cry.wait = some k → cryInUse s k.slot = false → ∃ t, exec (.keyOpApply) s = .next t ∧
    t.cry.keys = Store.write [] s.cry.keys k.slot k.key ∧ t.cry.wait = none ∧ t.rd Reg.cryStatusKeyWait = 0 ∧ t.rd
    Reg.cryIrqStatusKeyDone = 1) ∧
  -- CRY_ENTRY_DONE of an entry that has run writes its result: the entry leaves the entries in progress.
  (∀ (s : State) (e : RingEntry) (r done : Nat), 5 < s.rings.length → ringFront s 5 = some e → s.cry.job = some (r, done) → ∃
    t, exec (.cryEntryDone) s = .next t ∧ t = cryResult s e r done ∧ t.cry.job = none ∧ (t.ring 5).inProg = (s.ring
    5).inProg.drop 1)

/-- Deep decoding, outer code and microword commands complete (R145, R147, R150, R241, R242, R243, R245, R247, R248). -/
def Obligations.CompleteOuter : Prop :=
  -- DEEP of the front entry with no deep job running begins it and shows DEEP_BUSY.
  (∀ (s : State) (e : RingEntry), ringFront s 2 = some e → s.ldp.deep = none → ∃ t, exec (.deep) s = .next t ∧
    t.ldp.deep.isSome = true ∧ t.rd Reg.ldpStatusDeepBusy = 1) ∧
  -- DEEP_JOB_DONE of a job that is decoding, converged or at its limit, ends it with JOB_DONE and writes its result.
  (∀ (s : State) (iter unsat : Nat) (block : List Byte) (e : RingEntry) (j : DeepJob), 2 < s.rings.length → ringFront s 2 =
    some e → s.ldp.deep = some j → j.status = none → iter ≤ deepIterLimit s e → unsat = 0 ∨ iter = deepIterLimit s e → ∃ t,
    exec (.deepJobDone iter unsat block) s = .next t ∧ t.ldp.deep = none ∧ t.rd Reg.ldpStatusDeepBusy = 0 ∧ t.rd
    Reg.ldpIrqStatusJobDone = 1) ∧
  -- ENCODE of the front entry with no OCE job running begins it, with BUSY.
  (∀ (s : State) (e : RingEntry), ringFront s 3 = some e → s.oce.job = none → e.at 0 1 = 1 → ∃ t, exec (.encode) s = .next t ∧
    t.oce.job.isSome = true ∧ t.rd Reg.oceStatusBusy = 1) ∧
  -- REBUILD of the front entry with no OCE job running begins it, with BUSY.
  (∀ (s : State) (e : RingEntry), ringFront s 3 = some e → s.oce.job = none → e.at 0 1 = 2 → ∃ t, exec (.rebuild) s = .next t ∧
    t.oce.job.isSome = true ∧ t.rd Reg.oceStatusBusy = 1) ∧
  -- OCE_JOB_DONE of a running job ends it with JOB_DONE, clears BUSY and writes its result.
  (∀ (s : State) (e : RingEntry) (r outs : Nat), 3 < s.rings.length → ringFront s 3 = some e → s.oce.job = some (r, outs) → ∃
    t, exec (.oceJobDone) s = .next t ∧ t.oce.job = none ∧ t.rd Reg.oceStatusBusy = 0 ∧ t.rd Reg.oceIrqStatusJobDone = 1 ∧
    (t.ring 3).inProg = (s.ring 3).inProg.drop 1) ∧
  -- OCE_ACC_CLR written 1 for accumulator 0, which no sector streams into, clears it.
  (∀ (s : State), accStreaming s 0 = false → ∃ t, exec (.oceAccClrWrite 1) s = .next t ∧ t.oce.acc.get 0 = {} ∧ t.rd
    (Reg.oceAccK.elem 0) = 0) ∧
  -- OCE_ACC_CLR_APPLY of a held clear of accumulator 0, which no sector streams into, clears it.
  (∀ (s : State), s.rd Reg.oceAccClrClr = 1 → accStreaming s 0 = false → ∃ t, exec (.oceAccClrApply) s = .next t ∧
    t.oce.acc.get 0 = {} ∧ t.rd Reg.oceAccClrClr = 0) ∧
  -- MICROWORD_EXECUTE of a good word without unit strobes, with COND 1, whose wait is met, takes NEXT as the address.
  (∀ (s : State) (n full : Nat) (p : Plank), n < 2 → (s.bwk.get n).cur = some p → (s.bwk.get n).run.begun = true → (s.bwk.get
    n).run.endWith = none → s.rd (Reg.bwkStatusState.elem n) = 4 → (s.csWord n (s.bwk.get n).upc).parity = csParity (s.csWord
    n (s.bwk.get n).upc).bits → mwReserved (s.csWord n (s.bwk.get n).upc).bits = false → mwWaited s n p (s.csWord n (s.bwk.get
    n).upc).bits (frameAngle s p.head full) = true → mwUsel (s.csWord n (s.bwk.get n).upc).bits = 0 → mwCond (s.csWord n
    (s.bwk.get n).upc).bits = 1 → ∃ t, exec (.microwordExecute n full none) s = .next t ∧ (t.bwk.get n).upc = mwNext (s.csWord
    n (s.bwk.get n).upc).bits) ∧
  -- PARITY_RELOAD_DONE in RELOAD takes the sequencer to WAIT with a plank, to EMPTY without one.
  (∀ (s : State) (n : Nat), n < 2 → s.rd (Reg.bwkStatusState.elem n) = 8 → (s.bwk.get n).run.begun = false → ∃ t, exec
    (.parityReloadDone n) s = .next t ∧ t.rd (Reg.bwkStatusState.elem n) = if (s.bwk.get n).cur.isSome then 3 else 1)

/-- Op slots and the request FIFO of the cache complete (R343, R344, R346, R348, R349, R350). -/
def Obligations.CompleteCache : Prop :=
  -- LOOKUP of a line that the cache holds ends OK with the line's VALID and DIRTY sectors of the mask.
  (∀ (s : State) (slot : Nat) (data : Word) (l : Line), slot < 4 → opFree s slot = true → bcmFind s (opLine s slot data) = some
    l → ∃ t, exec (.lookup slot data) s = .next t ∧ t.rd (Reg.bcmOpResBusy.elem slot) = 0 ∧ t.rd (Reg.bcmOpResStatus.elem
    slot) = 0 ∧ t.rd (Reg.bcmOpResMask.elem slot) = ((l.maskOf 1 ||| l.maskOf 2) &&& fieldOf data 0 16) % 65536 ∧ t.rd
    Reg.bcmIrqStatusOpDone = 1) ∧
  -- ALLOC of a line that the cache does not hold ends, with OpDone, whatever place it finds.
  (∀ (s : State) (slot : Nat) (data : Word), slot < 4 → opFree s slot = true → bcmFind s (opLine s slot data) = none → ∃ t,
    exec (.alloc slot data) s = .next t ∧ t.rd (Reg.bcmOpResBusy.elem slot) = 0 ∧ t.rd Reg.bcmIrqStatusOpDone = 1) ∧
  -- CLEAN of a line with no FILLING sector and none DIRTY in the mask ends OK with the mask.
  (∀ (s : State) (slot : Nat) (data : Word) (l : Line), slot < 4 → opFree s slot = true → bcmFind s (opLine s slot data) = some
    l → l.has 3 = false → l.maskOf 2 &&& fieldOf data 0 16 = 0 → ∃ t, exec (.clean slot data) s = .next t ∧ t.rd
    (Reg.bcmOpResBusy.elem slot) = 0 ∧ t.rd (Reg.bcmOpResStatus.elem slot) = 0 ∧ t.rd (Reg.bcmOpResMask.elem slot) = fieldOf
    data 0 16 % 65536 ∧ t.rd Reg.bcmIrqStatusOpDone = 1) ∧
  -- INVALIDATE of a line with no FILLING sector and none DIRTY in the mask ends OK with the mask.
  (∀ (s : State) (slot : Nat) (data : Word) (l : Line), slot < 4 → opFree s slot = true → bcmFind s (opLine s slot data) = some
    l → l.has 3 = false → l.maskOf 2 &&& fieldOf data 0 16 = 0 → ∃ t, exec (.invalidate slot data) s = .next t ∧ t.rd
    (Reg.bcmOpResBusy.elem slot) = 0 ∧ t.rd (Reg.bcmOpResStatus.elem slot) = 0 ∧ t.rd (Reg.bcmOpResMask.elem slot) = fieldOf
    data 0 16 % 65536 ∧ t.rd Reg.bcmIrqStatusOpDone = 1) ∧
  -- PIN at expert level of a pinned line with no FILLING sector ends OK.
  (∀ (s : State) (slot : Nat) (data : Word) (l : Line), slot < 4 → opFree s slot = true → bcmFind s (opLine s slot data) = some
    l → l.has 3 = false → l.pinned = true ∨ pinRefused s (opLine s slot data) = false → s.rd Reg.bcmModeLevel = 1 → ∃ t, exec
    (.pin slot data) s = .next t ∧ t.rd (Reg.bcmOpResBusy.elem slot) = 0 ∧ t.rd (Reg.bcmOpResStatus.elem slot) = 0 ∧ t.rd
    Reg.bcmIrqStatusOpDone = 1) ∧
  -- UNPIN at expert level of a line with no FILLING sector ends OK.
  (∀ (s : State) (slot : Nat) (data : Word) (l : Line), slot < 4 → opFree s slot = true → bcmFind s (opLine s slot data) = some
    l → l.has 3 = false → s.rd Reg.bcmModeLevel = 1 → ∃ t, exec (.unpin slot data) s = .next t ∧ t.rd (Reg.bcmOpResBusy.elem
    slot) = 0 ∧ t.rd (Reg.bcmOpResStatus.elem slot) = 0 ∧ t.rd Reg.bcmIrqStatusOpDone = 1) ∧
  -- FILL_OK of FILLING sectors of a line ends OK with those sectors, where no operation and no staged write waits.
  (∀ (s : State) (slot : Nat) (data : Word) (l : Line), slot < 4 → opFree s slot = true → bcmFillLine s (opLine s slot data) =
    some l → l.maskOf 3 &&& fieldOf data 0 16 ≠ 0 → s.bcm.staged = [] → ∃ t, exec (.fillOk slot data) s = .next t ∧ t.rd
    (Reg.bcmOpResBusy.elem slot) = 0 ∧ t.rd (Reg.bcmOpResStatus.elem slot) = 0 ∧ t.rd (Reg.bcmOpResMask.elem slot) = (l.maskOf
    3 &&& fieldOf data 0 16) % 65536 ∧ t.rd Reg.bcmIrqStatusOpDone = 1) ∧
  -- FILL_FAIL of FILLING sectors of a line ends OK with those sectors, where no operation, staged write and host command
  -- waits.
  (∀ (s : State) (slot : Nat) (data : Word) (l : Line), slot < 4 → opFree s slot = true → bcmFillLine s (opLine s slot data) =
    some l → l.maskOf 3 &&& fieldOf data 0 16 ≠ 0 → s.bcm.staged = [] → s.hst.cmds = [] → ∃ t, exec (.fillFail slot data) s =
    .next t ∧ t.rd (Reg.bcmOpResBusy.elem slot) = 0 ∧ t.rd (Reg.bcmOpResStatus.elem slot) = 0 ∧ t.rd (Reg.bcmOpResMask.elem
    slot) = (l.maskOf 3 &&& fieldOf data 0 16) % 65536 ∧ t.rd Reg.bcmIrqStatusOpDone = 1) ∧
  -- BCM_REQ's POP removes the head entry of the request FIFO, and shows the count left.
  (∀ (s : State), ∃ t, exec (.bcmReqPop) s = .next t ∧ t.bcm.fifo = s.bcm.fifo.drop 1 ∧ t.rd Reg.bcmReqCntEntries =
    (s.bcm.fifo.drop 1).length % 128) ∧
  -- BCM_WAYS at expert level, with BCM off, takes the ways written.
  (∀ (s : State) (data : Word), s.rd Reg.bcmModeLevel = 1 → s.rd Reg.bcmCtlEn = 0 → ∃ t, exec (.bcmWaysWrite data) s = .next t
    ∧ t.rd Reg.bcmWaysOn = fieldOf data 0 16) ∧
  -- WAY_GATED of a pending way whose lines are all clean clears its PEND bit and raises WAYS_DONE.
  (∀ (s : State) (w : Nat), w < 16 → (s.rd Reg.bcmWaysPend).testBit w = true → ((s.bcm.lines.filter fun l => l.place == 0 &&
    l.way == w).all wayClean) = true → ∃ t, exec (.wayGated w) s = .next t ∧ t.rd Reg.bcmIrqStatusWaysDone = 1 ∧ t.rd
    Reg.bcmWaysPend = maskClear (s.rd Reg.bcmWaysPend) w % 65536) ∧
  -- BCM_EN written 1 in OFF enters ON; written 0 in ON enters DRAINING.
  (∀ (s : State) (data : Word), data.getLsbD 0 = true → s.rd Reg.bcmStatusState = 0 → ∃ t, exec (.bcmEnWrite data) s = .next t
    ∧ t.rd Reg.bcmCtlEn = 1 ∧ t.rd Reg.bcmStatusState = 1) ∧
  --
  (∀ (s : State) (data : Word), data.getLsbD 0 = false → s.rd Reg.bcmStatusState = 1 → ∃ t, exec (.bcmEnWrite data) s = .next t
    ∧ t.rd Reg.bcmCtlEn = 0 ∧ t.rd Reg.bcmStatusState = 2) ∧
  -- BCM_DRAIN_DONE with no DIRTY sector left enters OFF and frees every line but the transient ones.
  (∀ (s : State), s.rd Reg.bcmStatusState = 2 → s.bcm.lines.any (fun l => l.has 2) = false → ∃ t, exec (.bcmDrainDone) s =
    .next t ∧ t.rd Reg.bcmStatusState = 0 ∧ t.rd Reg.bcmIrqStatusOff = 1 ∧ t.bcm.lines = s.bcm.lines.filter (fun l => l.place
    == 3))

/-- Checks, tracker, scrubber and injection of the memory controller complete (R352, R353, R355, R358, R364). -/
def Obligations.CompleteMemory : Prop :=
  -- MEM_CORRECTED_READ counts a corrected event, raises CORR and reports the word's address.
  (∀ (s : State) (m addr position : Nat), ∃ t, exec (.memCorrectedRead m addr position) s = .next t ∧ t.rd Reg.memIrqStatusCorr
    = 1 ∧ t.rd Reg.memLastErrKind = 1 ∧ t.rd Reg.memLastErrMaster = m % 256) ∧
  -- MEM_UNCORRECTABLE_READ by a control core of a word not poisoned yet raises UNCORR, poisons the word, and answers with a
  -- bus error.
  (∀ (s : State) (m addr : Nat), m ≤ 3 → memWordBase addr ∉ s.poison → ∃ t, exec (.memUncorrectableRead m addr) s = .next t ∧
    t.rd Reg.memIrqStatusUncorr = 1 ∧ t.rd Reg.memLastErrKind = 2 ∧ t.poison = memWordBase addr :: s.poison ∧ t.resp =
    .busError) ∧
  -- TRACKER_WRITEBACK of a tracked word at REPEAT_LIMIT clears the word's stored error.
  (∀ (s : State) (k : Nat) (u : Tracked), s.memc.tracker[k]? = some u → u.wb = false → s.rd Reg.memRepeatLimitValue ≤ u.count →
    ∃ t, exec (.trackerWriteback k) s = .next t ∧ t.memc.err = Store.write 0 s.memc.err u.addr 0 ∧ t.memc.tracker[k]? = some
    { u with wb := true, count := 0 }) ∧
  -- SCRUB_STEP of an array being scrubbed, on a word without a flaw, moves the scrubber to the next word.
  (∀ (s : State) (array : Nat), array < s.memc.scrub.length → scrubbing s array = true → ∃ t, exec (.scrubStep array 0) s =
    .next t ∧ nth 0 t.memc.scrub array = if (arraySpan s array).1 + (arraySpan s array).2 ≤ nth 0 s.memc.scrub array +
    memWordSize (nth 0 s.memc.scrub array) then (arraySpan s array).1 else nth 0 s.memc.scrub array + memWordSize (nth 0
    s.memc.scrub array)) ∧
  -- MEM_INJECT at expert level with ARM and a KIND other than 0 takes the KIND and arms.
  (∀ (s : State) (data : Word), s.rd Reg.memModeLevel = 1 → data.getLsbD 31 = true → fieldOf data 0 2 ≠ 0 → ∃ t, exec
    (.memInjectArm data) s = .next t ∧ t.rd Reg.memInjectKind = fieldOf data 0 2 ∧ t.rd Reg.memInjectArm = 1)

/-- Fault commands complete: takeover, rejoin, watchdogs, declared faults, the warden's own (R366, R369, R371, R375, R376,
R378, R381, R382, R383). -/
def Obligations.CompleteFault : Prop :=
  -- HART_WATCHDOG_EXPIRY of an enabled watchdog on a running hart with a survivor, its first fault, is contained with a
  -- takeover.
  (∀ (s : State) (h int : Nat), s.flt.wdogOn.testBit h = true → s.rd (Reg.fltWdogUs.elem h) ≠ 0 → h < 4 → hartRuns s h = true →
    (survivors s h).isEmpty = false → (s.rd Reg.fltCoreFaults).testBit h = false → ∃ t, exec (.hartWatchdogExpiry h int) s =
    .next t ∧ t = containedInt (takeover s h) (srcHart h) 0 64 0 int ∧ t.rd Reg.fltCoreHeld = maskSet (s.rd Reg.fltCoreHeld) h
    % 16 ∧ t.rd Reg.fltIntLast = min int 65535) ∧
  -- CORE_FAULT of a running hart with a survivor, its first, is contained with a takeover.
  (∀ (s : State) (h int : Nat), h < 4 → hartRuns s h = true → (survivors s h).isEmpty = false → (s.rd
    Reg.fltCoreFaults).testBit h = false → ∃ t, exec (.coreFault h int) s = .next t ∧ t = containedInt (takeover s h) (srcHart
    h) 0 64 0 int ∧ t.rd Reg.fltCoreHeld = maskSet (s.rd Reg.fltCoreHeld) h % 16 ∧ t.rd Reg.fltIntLast = min int 65535) ∧
  -- CORE_REJOIN of a held hart in service, outside SAFE and RECOVERY, releases it with REJOIN set.
  (∀ (s : State) (h : Nat), h < 4 → (s.rd Reg.fltCoreHeld).testBit h = true → s.serving (bitHart h) = true → s.flt.safe = .none
    → s.rd Reg.sysOpmodeMode ≠ 5 → s.rd Reg.sysOpmodeMode ≠ 1 → ∃ t, exec (.coreRejoin h) s = .next t ∧ t.rd Reg.fltCoreHeld =
    maskClear (s.rd Reg.fltCoreHeld) h % 16 ∧ t.rd Reg.sysCoreRelRun = maskSet (s.rd Reg.sysCoreRelRun) h % 16 ∧ t.rd
    Reg.fltCoreRejoin = maskSet (s.rd Reg.fltCoreRejoin) h % 16) ∧
  -- FLT_CORE_ONLINE by a running hart that writes its own ONLINE bit sets it.
  (∀ (s : State) (h : Nat) (data : Word), h < 4 → data.getLsbD (24 + h) = true → hartRuns (s.wr Reg.fltCoreRejoin (s.rd
    Reg.fltCoreRejoin &&& (15 ^^^ fieldOf data 16 4))) h = true → ∃ t, exec (.fltCoreOnline h data) s = .next t ∧ t.rd
    Reg.fltCoreOnline = maskSet (s.rd Reg.fltCoreOnline) h % 16 ∧ t.resp = .done 0) ∧
  -- FLT_WDOG_KICK by a hart that is not held takes the period and enables the watchdog.
  (∀ (s : State) (m n : Nat) (data : Word), n < 4 → (s.rd Reg.fltCoreHeld).testBit m = false → ∃ t, exec (.fltWdogKick m n
    data) s = .next t ∧ t.rd (Reg.fltWdogUs.elem n) = fieldOf data 0 24 % 16777216 ∧ t.flt.wdogOn = maskSet s.flt.wdogOn n ∧
    t.resp = .done 0) ∧
  -- FLT_DECLARE of CLASS 1 without HART valid, from machine mode, writes a contained record.
  (∀ (s : State) (m : Nat) (data : Word), fieldOf data 30 2 = 1 → data.getLsbD 7 = false → ∃ t, exec (.fltDeclareContained m .m
    data) s = .next t ∧ t = (mcWrite (s.bump Reg.fltCounts1Contained) (mcCapture s 1 (srcHart (m % 4)) 0 (112 + fieldOf data 0
    4) 0 true 0)).answer 0 ∧ t.rd Reg.fltIrqStatusMchk = 1) ∧
  -- FLT_DECLARE of CLASS 3 without HART valid, from machine mode, where SAFE may be entered, begins the entry with SAFE_PEND.
  (∀ (s : State) (m : Nat) (data : Word), fieldOf data 30 2 = 3 → data.getLsbD 7 = false → mayEnterSafe s = true → ∃ t, exec
    (.fltDeclareDeviceFatal m .m data) s = .next t ∧ t.flt.safe = .recorded ∧ t.rd Reg.fltStatusSafePend = 1) ∧
  -- FLT_DECLARE with HART valid, from machine mode, of a running hart with a survivor, its first fault, is a control-core
  -- fault on it.
  (∀ (s : State) (m : Nat) (data : Word) (int : Nat), data.getLsbD 7 = true → fieldOf data 4 3 < 4 → hartRuns s (fieldOf data 4
    3) = true → (survivors s (fieldOf data 4 3)).isEmpty = false → (s.rd Reg.fltCoreFaults).testBit (fieldOf data 4 3) = false
    → ∃ t, exec (.fltDeclareHart m .m data int) s = .next t ∧ t = (containedInt (takeover s (fieldOf data 4 3)) (srcHart
    (fieldOf data 4 3)) 0 64 0 int).answer 0) ∧
  -- LOCKSTEP_MISMATCH, the first, asserts RETRACT and shows its code; in RECOVERY the warden is restarted and nothing else
  -- follows.
  (∀ (s : State), s.flt.mismatches = 0 → ∃ t, exec (.lockstepMismatch) s = .next t ∧ t.rd Reg.fltStatusCause = 96 ∧ t.rd
    Reg.hvbStatusRetractLine = 1 ∧ (s.rd Reg.sysOpmodeMode = 1 → t.flt.warden = .restarting)) ∧
  -- LOCKSTEP_MISMATCH, a further one, asserts RETRACT and leaves the warden in reset.
  (∀ (s : State), s.flt.mismatches ≠ 0 → ∃ t, exec (.lockstepMismatch) s = .next t ∧ t.flt.warden = .inReset ∧ t.rd
    Reg.hvbStatusRetractLine = 1) ∧
  -- WARDEN_RESTART_DONE of a restarted warden with an entry into SAFE begun writes its record and SAFE_PEND.
  (∀ (s : State), s.flt.warden = .restarting → s.flt.safe = .begun → ∃ t, exec (.wardenRestartDone) s = .next t ∧ t.flt.safe =
    .recorded ∧ t.rd Reg.fltStatusSafePend = 1)

/-- Calibration and ageing commands complete (R122, R385, R387, R391, R392, R393, R394). -/
def Obligations.CompleteCalib : Prop :=
  -- PLANK_CAL that begins puts a run of its group in progress.
  (∀ (s : State) (n full : Nat) (p : Plank), n < 2 → plankMayBegin s n full actCal p = true → p.count ≠ 0 → ∃ t, exec
    (.plankCal n full) s = .next t ∧ t.cal.running = s.cal.running ++
    [{ group := p.param % 256, inst := calInst (plankBegun s n actCal p) n p }]) ∧
  -- RUN in SERVICE of a free internal group and a present instance starts a run and answers success.
  (∀ (s : State) (group inst : Nat), group ≤ 2 → s.rd Reg.sysOpmodeMode = 2 → s.flt.safe = .none → instPresent s group inst =
    true → runFree s (CalReq.mk group inst) = true → s.cal.queue = [] → ∃ t, exec (.run group inst) s = .next t ∧ t.cal.queue
    = [] ∧ t.cal.running = s.cal.running ++ [CalReq.mk group inst] ∧ t.rd Reg.calCmdResStatus = 0) ∧
  -- FACTORY clears RUN_VALID of the group and has its factory values applied at the group's boundary.
  (∀ (s : State) (group : Nat), group < 8 → ∃ t, exec (.factory group) s = .next t ∧ t.cal.runValid = s.cal.runValid.filter
    (fun e => e.1 / 4096 != group) ∧ t.cal.applyPend = maskSet s.cal.applyPend group ∧ t.rd Reg.calCmdResStatus = 0) ∧
  -- CAL_INTERNAL_RUN_END of a run whose check failed ends it with that outcome and raises FAIL.
  (∀ (s : State) (values : List Int) (r : CalReq), s.cal.running = [r] → r.group = 2 → s.cal.queue = [] → ∃ t, exec
    (.calInternalRunEnd 2 values false) s = .next t ∧ t.cal.running = [] ∧ t.rd Reg.calIrqStatusFail = 1 ∧ t.rd
    (Reg.calGrpStatLast.elem 2) = 3) ∧
  -- CAL_WINDOW_CLOSE of a running CAL plank whose window has passed ends its run and the plank.
  (∀ (s : State) (n full : Nat) (p : Plank) (values : List Int) (check : Bool), n < 2 → runsAlone s n actCal p = true →
    s.cal.running = [{ group := p.param % 256, inst := calInst s n p }] → calWindow s p ≤ ticksBetween s (s.bwk.get
    n).run.beginAt (frameAngle s p.head full) → ∃ t, exec (.calWindowClose n full values check) s = .next t ∧ (t.bwk.get
    n).cur = none) ∧
  -- CAL_OVERLAY_WRITE of a valid QID stages the value and shows its group in OVL_PEND.
  (∀ (s : State) (data : Word), qidValid s (s.rd Reg.calQIdxQid) = true → ∃ t, exec (.calOverlayWrite data) s = .next t ∧
    t.cal.staged = Store.write none s.cal.staged (s.rd Reg.calQIdxQid) (some (signedOf 32 data.toNat)) ∧ t.rd
    Reg.calStatusOvlPend = maskSet (s.rd Reg.calStatusOvlPend) (s.rd Reg.calQIdxQid / 4096) % 256) ∧
  -- CAL_OVERLAY_APPLY at the boundary of a group with an overlay staged puts it in force and raises OVL_APPLIED.
  (∀ (s : State) (group : Nat), group < 8 → groupBoundary s group = true → s.cal.staged.filter (fun e => e.1 / 4096 == group) ≠
    [] → ∃ t, exec (.calOverlayApply group) s = .next t ∧ t.rd Reg.calIrqStatusOvlApplied = 1) ∧
  -- AGE_EVAL_TIMER after EVAL_H hours of operation, in a mode that evaluates, raises EVAL_DONE.
  (∀ (s : State) (delay : Nat) (readers : List Nat), s.age.lastEval + 3600 * s.rd Reg.ageCtlEvalH ≤ s.opsec → mayEvaluate s =
    true → ∃ t, exec (.ageEvalTimer delay readers) s = .next t ∧ t.rd Reg.ageIrqStatusEvalDone = 1) ∧
  -- EVAL in a mode that evaluates raises EVAL_DONE and answers.
  (∀ (s : State) (delay : Nat) (readers : List Nat), mayEvaluate s = true → ∃ t, exec (.eval delay readers) s = .next t ∧ t.rd
    Reg.ageIrqStatusEvalDone = 1 ∧ t.resp = .done 0) ∧
  -- APPLY at expert level of a pending proposal writes its STATE as applied and takes its effect.
  (∀ (s : State) (entry : Nat), s.rd Reg.ageModeLevel = 1 → entry < 64 → propState s entry = 1 → ∃ t, exec (.apply entry) s =
    .next t ∧ t = (ageEffect (propShow (recPut s (proposalRec entry) 32 [(1, 1, 2)])) (recGet (propShow (recPut s (proposalRec
    entry) 32 [(1, 1, 2)])) (proposalRec entry) 0 1) (recGet (propShow (recPut s (proposalRec entry) 32 [(1, 1, 2)]))
    (proposalRec entry) 2 1) (recGet (propShow (recPut s (proposalRec entry) 32 [(1, 1, 2)])) (proposalRec entry) 3 1) (recGet
    (propShow (recPut s (proposalRec entry) 32 [(1, 1, 2)])) (proposalRec entry) 4 4)).answer 0) ∧
  -- DISCARD at expert level of a pending proposal writes its STATE as discarded.
  (∀ (s : State) (entry : Nat), s.rd Reg.ageModeLevel = 1 → entry < 64 → propState s entry = 1 → ∃ t, exec (.discard entry) s =
    .next t ∧ t = (propShow (recPut s (proposalRec entry) 32 [(1, 1, 3)])).answer 0)

/-- Power loss, the hold-up test, the rails and the dyke link complete (R406, R417, R418, R420, R422, R424, R425, R428, R429,
R439, R444, R446). -/
def Obligations.CompletePower : Prop :=
  -- POWER_LOSS_DETECT with VM below 9.5 V alone, once VM has reached 10.5 V, begins a power loss with CAUSE 1.
  (∀ (s : State) (vm vl : Nat), s.boot ≠ .por → s.rd Reg.pwrStatusLoss = 0 → vm < 9500 → s.pwr.vmArrived = true → 4500 ≤ vl → ∃
    t, exec (.powerLossDetect vm vl) s = .next t ∧ t.rd Reg.pwrStatusLoss = 1 ∧ t.rd Reg.pwrStatusCause = 1 ∧ t.pwr.step =
    .detected) ∧
  -- POWER_LOSS_DETECT with VL below 4.5 V alone begins a power loss with CAUSE 2.
  (∀ (s : State) (vm vl : Nat), s.boot ≠ .por → s.rd Reg.pwrStatusLoss = 0 → (vm < 9500 → s.pwr.vmArrived = false) → vl < 4500
    → ∃ t, exec (.powerLossDetect vm vl) s = .next t ∧ t.rd Reg.pwrStatusLoss = 1 ∧ t.rd Reg.pwrStatusCause = 2 ∧ t.pwr.step =
    .detected) ∧
  -- LOSS_SECTOR_BOUNDARY of a power loss that has been detected begins the retracts.
  (∀ (s : State), s.pwr.step = .detected → ∃ t, exec (.lossSectorBoundary) s = .next t ∧ t.pwr.step = .retracting) ∧
  -- LOSS_CORE_HOLD after the sector boundary holds the control cores in reset.
  (∀ (s : State), s.pwr.step = .retracting → ∃ t, exec (.lossCoreHold) s = .next t ∧ t.rd Reg.fltCoreHeld = 15 ∧ t.rd
    Reg.sysCoreRelRun = 0 ∧ t.pwr.step = .held) ∧
  -- LAST_GASP_RECORD with the cores held takes VHOLD and keeps the operating seconds.
  (∀ (s : State) (vhold : Nat), s.pwr.step = .held → s.pwr.tripped = false → ∃ t, exec (.lastGaspRecord vhold) s = .next t ∧
    t.rd Reg.pwrVholdMv = vhold % 65536 ∧ t.pwr.step = .recorded ∧ t.ang.opsecGasp.isSome = true) ∧
  -- VHOLD_BELOW_VMIN in a power loss other than a thermal trip, with the supplies gone, holds the logic die in POR with the
  -- rails down.
  (∀ (s : State) (vhold : Nat), s.rd Reg.pwrStatusLoss = 1 → s.rd Reg.pwrStatusCause ≠ 3 → s.pwr.returned = false → vhold <
    s.rd Reg.ageHoldup2VminMv → ∃ t, exec (.vholdBelowVmin vhold) s = .next t ∧ t.boot = .por ∧ t.pwr.step = .down ∧ t.rd
    Reg.pwrStatusRailsOk = 0) ∧
  -- HOLDUP_TEST_DONE of a test under way reports the capacitance and ends the test.
  (∀ (s : State) (rise step vhold : Nat), s.pwr.testing = true → s.change = none → s.boot = .done → s.rd Reg.ageHoldup2VminMv ≠
    0 → ∃ t, exec (.holdupTestDone rise step vhold) s = .next t ∧ t.rd Reg.ageHoldup1CapUf = min (rise / 100) 65535 ∧
    t.pwr.testing = false) ∧
  -- HOLDUP_READY_TIMEOUT before readiness, once VM has arrived, sets HOLDUP_FAIL.
  (∀ (s : State), s.rd Reg.pwrStatusHoldupReady = 0 → s.rd Reg.pwrStatusHoldupFail = 0 → s.pwr.vmArrived = true → s.change =
    none → s.boot = .done → ∃ t, exec (.holdupReadyTimeout) s = .next t ∧ t.rd Reg.pwrStatusHoldupFail = 1) ∧
  -- VM_ARRIVAL at 10.5 V or more after POR release, the first, begins the hold-up test.
  (∀ (s : State) (vm : Nat), 10500 ≤ vm → s.boot = .done → s.pwr.vmArrived = false → s.change = none → ∃ t, exec (.vmArrival
    vm) s = .next t ∧ t.pwr.vmArrived = true ∧ t.pwr.testing = true ∧ t.rd Reg.hvSupplyCharging = 1) ∧
  -- RAIL_OUT_OF_RANGE of a rail that was in range clears its RAILS_OK bit and raises RAIL.
  (∀ (s : State) (rail : Nat), rail < 7 → (s.rd Reg.pwrStatusRailsOk).testBit rail = true → ∃ t, exec (.railOutOfRange rail) s
    = .next t ∧ t.rd Reg.pwrStatusRailsOk = maskClear (s.rd Reg.pwrStatusRailsOk) rail % 128 ∧ t.rd Reg.pwrIrqStatusRail = 1) ∧
  -- DYKE_LINK_DOWN of a link that is up shows it down and raises LINK_DOWN.
  (∀ (s : State), s.rd Reg.hvbStatusLinkUp = 1 → ∃ t, exec (.dykeLinkDown) s = .next t ∧ t.rd Reg.hvbStatusLinkUp = 0 ∧ t.rd
    Reg.pwrIrqStatusLinkDown = 1) ∧
  -- DYKE_LINK_RETRAINED of a link that is down, after POR, with no retract active, shows it up.
  (∀ (s : State), s.rd Reg.hvbStatusLinkUp = 0 → s.boot ≠ .por → s.rd (Reg.hvRetractActive.elem 0) = 0 → s.rd
    (Reg.hvRetractActive.elem 1) = 0 → ∃ t, exec (.dykeLinkRetrained) s = .next t ∧ t.rd Reg.hvbStatusLinkUp = 1) ∧
  -- DYKE_SILENCE_RETRACT with the link down retracts both actuators and shows its cause.
  (∀ (s : State), s.rd Reg.hvbStatusLinkUp = 0 → ∃ t, exec (.dykeSilenceRetract) s = .next t ∧ t.rd Reg.hvFaultCauseCause =
    s.rd Reg.hvFaultCauseCause ||| 256 ∧ t.rd Reg.hvbStatusHvFaultLine = 1) ∧
  -- HEARTBEAT_LOSS clears HB, retracts both actuators and shows its cause.
  (∀ (s : State), ∃ t, exec (.heartbeatLoss) s = .next t ∧ t.rd Reg.hvFaultCauseCause = s.rd Reg.hvFaultCauseCause ||| 512 ∧
    t.rd Reg.hvbStatusHb = 0) ∧
  -- HV_FAULT_ASSERT of a cause in range sets its bits and the line.
  (∀ (s : State) (cause : Nat), cause % 1024 ≠ 0 → ∃ t, exec (.hvFaultAssert cause) s = .next t ∧ t.rd Reg.hvFaultCauseCause =
    s.rd Reg.hvFaultCauseCause ||| cause % 1024 ∧ t.rd Reg.hvbStatusHvFaultLine = 1) ∧
  -- HVB_CTL with RETRACT from machine mode asserts the RETRACT line.
  (∀ (s : State) (data : Word), data.getLsbD 0 = true → ∃ t, exec (.hvbCtlRetract .m data) s = .next t ∧ t.rd
    Reg.hvbStatusRetractLine = 1 ∧ t.resp = .done 0)

/-- Thermal commands complete: samples, Sluice, release, trips (R431, R432, R433, R434, R435, R436, R437, R439, R440, R442,
R445). -/
def Obligations.CompleteThermal : Prop :=
  -- THM_SAMPLE of one sensor shows its reading as valid.
  (∀ (s : State) (ms k temp : Nat), k < 14 → ∃ t, exec (.thmSample ms [(k, temp)]) s = .next t ∧ t.rd (Reg.thmTempValid.elem k)
    = 1 ∧ t.rd (Reg.thmTempTemp.elem k) = temp % 65536) ∧
  -- RISE_CLEAR_EXPIRY of a group that no longer rises too fast clears its RISE bit.
  (∀ (s : State) (g : Nat), g < 4 → Store.read none s.thm.rising g = none → ∃ t, exec (.riseClearExpiry g) s = .next t ∧ t.rd
    Reg.thmStatusRise = maskClear (s.rd Reg.thmStatusRise) g % 16) ∧
  -- SLUICE_GRACE_EXPIRY in ASK at basic level, with the condition still there, enters ENFORCE at step 1.
  (∀ (s : State), s.rd Reg.thmStatusSluice = 1 → throttling s = true → s.rd Reg.thmModeLevel = 0 → ∃ t, exec
    (.sluiceGraceExpiry) s = .next t ∧ t.rd Reg.thmStatusSluice = 2 ∧ t.rd Reg.thmStatusStep = 1 ∧ t.rd
    Reg.thmIrqStatusSluiceChg = 1) ∧
  -- SLUICE_STEP_EXPIRY in ENFORCE at basic level, with the condition still there, below step 15 goes one step on.
  (∀ (s : State), s.rd Reg.thmStatusSluice = 2 → throttling s = true → s.rd Reg.thmModeLevel = 0 → s.rd Reg.thmStatusStep < 15
    → ∃ t, exec (.sluiceStepExpiry) s = .next t ∧ t.rd Reg.thmStatusSluice = 2 ∧ t.rd Reg.thmStatusStep = s.rd
    Reg.thmStatusStep + 1 ∧ t.rd Reg.thmIrqStatusSluiceChg = 1) ∧
  -- SLUICE_RELEASE_EXPIRY in ENFORCE at basic level, with the condition gone, clears Sluice.
  (∀ (s : State), s.rd Reg.thmStatusSluice = 2 → throttling s = false → s.rd Reg.thmModeLevel = 0 → ∃ t, exec
    (.sluiceReleaseExpiry) s = .next t ∧ t.rd Reg.thmStatusSluice = 0 ∧ t.rd Reg.thmStatusStep = 0 ∧ t.rd
    Reg.thmIrqStatusSluiceChg = 1) ∧
  -- STEP at expert level outside ENFORCE enters it at step 1.
  (∀ (s : State), s.rd Reg.thmModeLevel = 1 → s.rd Reg.thmStatusSluice ≠ 2 → ∃ t, exec (.step) s = .next t ∧ t.rd
    Reg.thmStatusSluice = 2 ∧ t.rd Reg.thmStatusStep = 1 ∧ t.rd Reg.thmStatusStepDue = 0 ∧ t.resp = .done 0) ∧
  -- THM_CMD RELEASE at expert level in ENFORCE clears Sluice.
  (∀ (s : State), s.rd Reg.thmModeLevel = 1 → s.rd Reg.thmStatusSluice = 2 → ∃ t, exec (.thmCmdRelease) s = .next t ∧ t.rd
    Reg.thmStatusSluice = 0 ∧ t.rd Reg.thmStatusStep = 0 ∧ t.rd Reg.thmStatusStepDue = 0 ∧ t.resp = .done 0) ∧
  -- THERMAL_TRIP of a sensor at its shutdown threshold, with no loss under way, logs it and begins a power loss with CAUSE
  -- THERMAL.
  (∀ (s : State) (k reading : Nat), k < 13 → deg (s.rd (Reg.thmThrShut.elem (sensorGroup k))) ≤ signedOf 16 reading → s.boot ≠
    .por → s.pwr.tripped = false → s.rd Reg.pwrStatusLoss = 0 → ∃ t, exec (.thermalTrip k reading) s = .next t ∧ t.rd
    Reg.thmTripLogSensor = k ∧ t.rd Reg.pwrStatusCause = 3 ∧ t.rd Reg.pwrStatusLoss = 1 ∧ t.pwr.tripped = true) ∧
  -- TRIP_LOGIC_HOLD after a trip holds the logic die in reset, the warden included.
  (∀ (s : State), s.pwr.tripped = true → s.pwr.dieHeld = false → ∃ t, exec (.tripLogicHold) s = .next t ∧ t.pwr.dieHeld = true
    ∧ t.flt.warden = .inReset ∧ t.rd Reg.fltCoreHeld = 15)

/-- Resets of the logic die complete: POR and its release, the stop window, the hold and release of a DRST, and its requests
(R447, R448, R449, R452, R462). -/
def Obligations.CompleteReset : Prop :=
  -- POR puts the device in mode BOOT, with the journal to be replayed.
  (∀ (s : State) (hv : Bool), ∃ t, exec (.por hv) s = .next t ∧ t.boot = .por ∧ t.rd Reg.sysOpmodeMode = 0 ∧ t.jnl.needReplay =
    true) ∧
  -- POR_RELEASE outside HOLD shows every rail good and begins B1 with the heartbeat running.
  (∀ (s : State) (noSpare : List Nat), s.boot = .por → s.rd Reg.rstStatusPhase ≠ 2 → ∃ t, exec (.porRelease noSpare) s = .next
    t ∧ t.boot = .b1 ∧ t.rd Reg.pwrStatusRailsOk = 31 ∧ t.rd Reg.hvbStatusHb = 1) ∧
  -- B1_FILL_DONE reports the fill and ends B1.
  (∀ (s : State) (fails : Nat), s.boot = .b1 → ∃ t, exec (.b1FillDone fails) s = .next t ∧ t.boot = .b2 ∧ t.rd
    Reg.memStatusFillDone = 1 ∧ t.rd Reg.memStatusStFail = fails % 16) ∧
  -- A guarded write of GO to RST_DRST_REQ from M mode begins the stop window of a DRST with source 7.
  (∀ (s : State) (data : Word), fieldOf data 16 16 = 0xFE25 → data.getLsbD 0 = true → s.rd Reg.rstStatusPhase = 0 → s.boot =
    .done → s.rd Reg.pwrStatusLoss = 0 → s.rd Reg.sysOpmodeMode = 2 → ∃ t, exec (.rstDrstReqWrite .m data) s = .next t ∧ t.rd
    Reg.rstStatusPhase = 1 ∧ t.rst.request = some 7 ∧ t.resp = .done 0) ∧
  -- The value 0x4E56_4D65 to NSSR of a PF begins the stop window of a DRST with source 4.
  (∀ (s : State) (fn : Nat), isPf fn = true → s.rd Reg.rstStatusPhase = 0 → s.boot = .done → s.rd Reg.pwrStatusLoss = 0 → s.rd
    Reg.sysOpmodeMode = 2 → ∃ t, exec (.nvmSubsystemReset fn 0x4E564D65) s = .next t ∧ t.rd Reg.rstStatusPhase = 1 ∧
    t.rst.request = some 4) ∧
  -- RESET_N low for 10 microseconds or more begins the stop window of a DRST with source 1.
  (∀ (s : State) (us : Nat), 10 ≤ us → s.rd Reg.rstStatusPhase = 0 → s.boot = .done → s.rd Reg.pwrStatusLoss = 0 → s.rd
    Reg.sysOpmodeMode = 2 → ∃ t, exec (.resetNLow us) s = .next t ∧ t.rd Reg.rstStatusPhase = 1 ∧ t.rst.request = some 1) ∧
  -- DRST_WRITE_STOP in the stop window ends it.
  (∀ (s : State), s.rst.request = some 7 → s.rst.cleanStop = false → ∃ t, exec (.drstWriteStop) s = .next t ∧ t.rst =
    { s.rst with cleanStop := true }) ∧
  -- DRST_HOLD after the stop window puts the logic die in reset: PHASE reads HOLD, the mode is BOOT, and the cause names its
  -- source.
  (∀ (s : State) (source : Nat), s.rst.request = some source → s.rst.cleanStop = true → ∃ t, exec (.drstHold) s = .next t ∧
    t.boot = .por ∧ t.rd Reg.rstStatusPhase = 2 ∧ t.rd Reg.rstCauseKind = 1 ∧ t.rd Reg.rstCauseStopped = 1 ∧ t.rd
    Reg.rstCauseSource = source % 8 ∧ t.rd Reg.sysOpmodeMode = 0) ∧
  -- DRST_RELEASE in HOLD returns PHASE to RUN and begins B1.
  (∀ (s : State) (noSpare : List Nat), s.rd Reg.rstStatusPhase = 2 → ∃ t, exec (.drstRelease noSpare) s = .next t ∧ t.rd
    Reg.rstStatusPhase = 0 ∧ t.boot = .b1 ∧ t.pwr.testing = s.pwr.vmArrived) ∧
  -- SUPPLY_RETURN during a loss notes the return of the supplies before the heads are parked.
  (∀ (s : State) (vm vl : Nat), s.rd Reg.pwrStatusLoss = 1 → s.rd Reg.pwrStatusCause ≠ 3 → s.pwr.step = .none → supplyRange vm
    vl = true → ∃ t, exec (.supplyReturn vm vl) s = .next t ∧ t.pwr = { s.pwr with returned := true } ∧ t.rd Reg.pwrStatusVmOk
    = 1 ∧ t.rd Reg.pwrStatusVlOk = 1) ∧
  -- THERMAL_RESTART with every sensor cool puts a die held after a trip through a DRST with source 5.
  (∀ (s : State) (readings : List Nat), s.pwr.dieHeld = true → tripCool s readings = true → ∃ t, exec (.thermalRestart
    readings) s = .next t ∧ t.boot = .por ∧ t.rd Reg.rstStatusPhase = 2 ∧ t.rd Reg.rstCauseSource = 5 ∧ t.rd
    Reg.rstCauseAfterLoss = 1)

/-- Host-side resets, service entry and STANDBY gating complete (R34, R453, R454, R458, R459). -/
def Obligations.CompleteHostReset : Prop :=
  -- SVC_MODE asserted in B2 abandons the load and enters RECOVERY.
  (∀ (s : State), s.boot = .b2 → s.rd Reg.sysOpmodeMode = 0 → ∃ t, exec (.svcModeAssert) s = .next t ∧ t.rd Reg.sysOpmodeMode =
    1 ∧ t.rd Reg.sysOpmodeCause = 1 ∧ t.rd Reg.simStatusState = 7 ∧ t.boot = .done) ∧
  -- SVC_MODE held in SERVICE with a loop loaded asserts the RETRACT line and takes the way to RECOVERY.
  (∀ (s : State), s.rd Reg.sysOpmodeMode = 2 → s.flt.safe = .none → s.rst.request = none → s.rd Reg.pwrStatusLoss = 0 →
    (loadedActs (calStop (hostStop (astStop (astStop (rungPreempt (bwkStopAll s 0)) 0) 1)))).isEmpty = false → ∃ t, exec
    (.svcModeHoldExpiry) s = .next t ∧ t.change = some { mode := 1, cause := 1, unloading := true } ∧ t.rd
    Reg.hvbStatusRetractLine = 1) ∧
  -- PERST_N asserted outside a DRST puts both ports into HRST.
  (∀ (s : State), s.rd Reg.rstStatusPerst = 0 → s.rd Reg.rstStatusPhase = 0 → s.boot = .done → ∃ t, exec (.perstNAssert) s =
    .next t ∧ t.rd Reg.rstStatusPerst = 1 ∧ t.rd Reg.rstStatusP0Hrst = 1 ∧ t.rd Reg.rstStatusP1Hrst = 1 ∧ t.boot = .done) ∧
  -- PERST_N deasserted ends HRST on both ports.
  (∀ (s : State), s.rd Reg.rstStatusPerst = 1 → s.rd Reg.rstStatusP0Hrst = 1 → ∃ t, exec (.perstNDeassert) s = .next t ∧ t.rd
    Reg.rstStatusPerst = 0 ∧ t.rd Reg.rstStatusP0Hrst = 0 ∧ t.rd Reg.rstStatusP1Hrst = 0 ∧ t.rd Reg.rstIrqStatusHrst0 = 1 ∧
    t.rd Reg.rstIrqStatusHrst1 = 1 ∧ t.rd Reg.rstHrstP0 = min (s.rd Reg.rstHrstP0 + 1) 65535) ∧
  -- HOT_RESET resets a port and is counted.
  (∀ (s : State), s.rd Reg.rstStatusPerst = 0 → s.rd Reg.rstStatusPhase = 0 → s.boot = .done → ∃ t, exec (.hotReset 0) s =
    .next t ∧ t.rd Reg.rstIrqStatusHrst0 = 1 ∧ t.rd Reg.hstIrqStatusHrst = 1 ∧ t.rd Reg.rstHrstP0 = min (s.rd Reg.rstHrstP0 +
    1) 65535) ∧
  -- FLR of a function that exists counts it and names it.
  (∀ (s : State) (fn : Nat), functionExists s fn = true → s.rd Reg.rstStatusPhase = 0 → s.boot = .done → ∃ t, exec (.flr fn) s
    = .next t ∧ t.rd Reg.rstFuncFlrFunc = fn % 256 ∧ t.rd Reg.rstIrqStatusFlr = 1 ∧ t.rd Reg.rstFuncFlrs = min (s.rd
    Reg.rstFuncFlrs + 1) 65535) ∧
  -- CC.EN cleared resets an enabled controller and names it.
  (∀ (s : State) (fn : Nat) (k : Ctrl), ctrlOf s fn = some k → s.rd Reg.rstStatusPhase = 0 → ∃ t, exec (.ccEnClear fn) s =
    .next t ∧ t.rd Reg.rstFuncCrstFunc = fn % 256 ∧ t.rd Reg.rstIrqStatusCrst = 1) ∧
  -- CC.EN set on a function whose port is up gives it a controller and its admin queues.
  (∀ (s : State) (fn ams sqBase sqSize cqBase cqSize : Nat), functionExists s fn = true → ctrlOf s fn = none → portUp s (portOf
    fn) = true → s.rd Reg.rstStatusPhase = 0 → s.boot = .done → s.rd Reg.sysOpmodeMode = 2 → 2 ≤ sqSize → 2 ≤ cqSize → ∃ t,
    exec (.ccEnSet fn ams sqBase sqSize cqBase cqSize) s = .next t ∧ (t.hst.ctrls.map (·.fn)) = (s.hst.ctrls.map (·.fn)) ++
    [fn] ∧ (sqFind t fn 0).isSome = true ∧ (cqFind t fn 0).isSome = true) ∧
  -- In STANDBY an idle unit is gated.
  (∀ (s : State) (u : Nat), s.rd Reg.sysOpmodeMode = 4 → u < 9 → u ∉ s.gated → s.change = none → gateIdle s u = true → ∃ t,
    exec (.standbyUnitGate u) s = .next t ∧ t.gated = u :: s.gated) ∧
  -- On the way out of STANDBY every gated unit is restored, and the control stores with them.
  (∀ (s : State), s.gated ≠ [] → s.change = some { mode := 2, cause := 0x15, unloading := true } → s.boot = .done → ∃ t, exec
    (.standbyWakeRestore) s = .next t ∧ t.gated = [] ∧ t.shadow = [])

/-- Frames of classes 1 to 5 complete at the device that takes them (R34, R449, R470, R471, R472, R473, R474, R476, R478,
R481, R495). -/
def Obligations.CompleteFrames : Prop :=
  -- SAFE at a worker in SERVICE, with no entry into SAFE under way, begins it with SAFE_PEND.
  (∀ (s : State) (f : Frame), frameActed s f 1 1 = true → s.rd Reg.sysOpmodeMode = 2 → s.flt.safe = .none → ∃ t, exec (.safe f)
    s = .next t ∧ t.flt.safe = .recorded ∧ t.rd Reg.fltStatusSafePend = 1) ∧
  -- ACTIVATE for this worker's group, or for all, schedules the activation its payload asks for.
  (∀ (s : State) (f : Frame), frameActed s f 5 0x40 = true → bodyNat f.payload 0 1 = s.rd Reg.domGroupGroup ∨ (bodyNat
    f.payload 1 1).testBit 0 = true → ∃ t, exec (.activate f) s = .next t ∧ t = updActivate (workerSees s f 5 0x40 f.payload)
    (bodyNat f.payload 2 8) (bodyNat f.payload 10 2)) ∧
  -- RESET to this worker alone with GUARD 0xD5E7, in SERVICE with no reset or power loss under way, asks for DRST with source
  -- 3.
  (∀ (s : State) (f : Frame), frameActed s f 5 0x41 = true → isBcast f = false → bodyNat f.payload 0 2 = 0xD5E7 → s.rd
    Reg.rstStatusPhase = 0 → s.boot = .done → s.rd Reg.pwrStatusLoss = 0 → s.rd Reg.sysOpmodeMode = 2 → ∃ t, exec (.reset f) s
    = .next t ∧ t.rd Reg.rstStatusPhase = 1 ∧ t.rst.request = some 3) ∧
  -- NOTICE of a neighbour of this worker that its mask lets in, with the domain time locked, is counted as taken and queued
  -- at both loops.
  (∀ (s : State) (f : Frame) (now k : Nat), s.boot ≠ .por → f.bad = false → f.port = bit f.reverse → s.rd Reg.domStatusRole = 0
    → s.rd Reg.domStatusState = 2 → s.rd Reg.domStatusTimeLocked = 1 → f.src % 8192 / 256 = s.rd Reg.domStatusPort → neighbour
    ((f.src % 256 : Nat) - (s.rd Reg.domStatusPosition : Nat)) = some k → (s.rd Reg.domNbrMask).testBit k = true → (s.srv.get
    0).notices = [] → ∃ t, exec (.notice f now) s = .next t ∧ t.rd Reg.domNbrCountsTaken = (s.rd Reg.domNbrCountsTaken + 1) %
    65536 ∧ (t.srv.get 0).notices.map (fun x => (x.k, x.amp)) = [(k, bodyInt f.payload 4 2)]) ∧
  -- ENUM at a worker gives it the port of the sender and the position after the payload's, and makes it MEMBER.
  (∀ (s : State) (f : Frame), frameActed s f 3 0x21 = true → bodyNat f.payload 0 1 < 255 → ∃ t, exec (.enum f) s = .next t ∧
    t.rd Reg.domStatusPosition = bodyNat f.payload 0 1 + 1 ∧ t.rd Reg.domStatusPort = f.src % 8192 / 256 ∧ t.rd
    Reg.domStatusState = 2) ∧
  -- SYNC at a worker makes its domain time valid and ends the run of missing SYNCs.
  (∀ (s : State) (f : Frame) (ns resid : Nat), frameActed s f 3 0x20 = true → ∃ t, exec (.sync f ns resid) s = .next t ∧ t.rd
    Reg.domStatusTimeValid = 1 ∧ t.dom.missed = 0) ∧
  -- TOKEN_REQ at a manager's automation with nothing waiting and a token to be had grants it.
  (∀ (s : State) (f : Frame), frameHeard s f = true → s.rd Reg.domModeLevel = 0 → frameFrom f ≠ 0 → s.dom.wait = [] →
    s.dom.held.any (fun w => w.1 == frameFrom f) = false → tokenRoom s (frameFrom f) = true → ∃ t, exec (.tokenReq f) s =
    .next t ∧ t.dom.held = s.dom.held ++ [(frameFrom f, bodyNat f.payload 0 2)] ∧ t.dom.wait = []) ∧
  -- TOKEN_GRANT at a worker whose SPN waits in TOKEN for an answer gives it the token.
  (∀ (s : State) (f : Frame), frameActed s f 4 0x31 = true → s.dom.holding = false → s.rd Reg.spnStatusState = 1 → s.dom.asked
    = true → s.dom.fallback = false → ∃ t, exec (.tokenGrant f) s = .next t ∧ t.dom.holding = true ∧ t.dom.answered = true ∧
    t.rd Reg.spnStatusState ≠ 1) ∧
  -- TOKEN_RETURN at a manager's automation with nothing waiting takes the sender's token back.
  (∀ (s : State) (f : Frame), frameHeard s f = true → s.rd Reg.domModeLevel = 0 → s.dom.wait = [] → ∃ t, exec (.tokenReturn f)
    s = .next t ∧ t.dom.held = s.dom.held.filter (fun h => h.1 != frameFrom f) ∧ t.dom.wait = []) ∧
  -- TOKEN_QUEUED at a worker that has asked answers its request.
  (∀ (s : State) (f : Frame), frameActed s f 4 0x33 = true → s.dom.asked = true → ∃ t, exec (.tokenQueued f) s = .next t ∧
    t.dom.answered = true)

/-- Health and bulk frames complete at the device that takes them (R470, R479, R480, R492, R494, R496). -/
def Obligations.CompleteBulk : Prop :=
  -- HEALTH at a manager's automation with a health table in memory writes the sender's entry and judges the wave by it.
  (∀ (s : State) (f : Frame), frameHeard s f = true → s.rd Reg.domModeLevel = 0 → htblBase s ≠ 0 → inBuffer s (htblBase s + 16
    * frameFrom f) 16 = true → ∃ t, exec (.health f) s = .next t ∧ t = waveJudge ((managerSees s f).store (htblBase s + 16 *
    frameFrom f) (padBytes 12 f.payload ++ leBytes 4 (s.domClock / 1000))) (frameFrom f) f.payload) ∧
  -- PULL of the recorder or the margin ledger, of a length other than 0, outside RECOVERY, begins the stream with its first
  -- block.
  (∀ (s : State) (f : Frame), frameActed s f 6 0x51 = true ∨ frameHeard s f = true → bodyNat f.payload 0 1 ≤ 1 → s.rd
    Reg.sysOpmodeMode ≠ 1 → bodyNat f.payload 8 4 ≠ 0 → ∃ t, exec (.pull f) s = .next t ∧ (∃ X, t = blockSend X
    { stream := bodyNat f.payload 0 1, dst := frameFrom f, offset := bodyNat f.payload 4 4, len := bodyNat f.payload 8 4,
      done := 0, tries := 0 } ∧ X.dom.bulk = some
    { stream := bodyNat f.payload 0 1, dst := frameFrom f, offset := bodyNat f.payload 4 4, len := bodyNat f.payload 8 4,
      done := 0, tries := 0 })) ∧
  -- DATA of stream 2 at a worker, at the start of a block, begins the block.
  (∀ (s : State) (f : Frame), frameActed s f 6 0x52 = true → bodyNat f.payload 0 1 = 2 → 8 * bodyNat f.payload 1 3 % 4096 = 0 →
    ∃ t, exec (.data f) s = .next t ∧ t.dom.block = slice f.payload 4 8 ∧ t.dom.blockAt = 8 * bodyNat f.payload 1 3) ∧
  -- BLOCK_END of stream 2 at a worker, whose block is whole and has the CRC it names, stages the block.
  (∀ (s : State) (f : Frame), frameActed s f 6 0x53 = true → bodyNat f.payload 0 1 = 2 → s.dom.block ≠ [] → s.dom.block.length
    ≤ 4096 → crc32c s.dom.block = bodyNat f.payload 4 4 → ∃ t, exec (.blockEnd f) s = .next t ∧ (∃ X, t = stageBlock X
    (s.dom.blockAt / 4096) s.dom.block ∧ X.dom.block = [])) ∧
  -- ACK of the last block of the stream this device sends ends the stream with BULK.
  (∀ (s : State) (f : Frame) (b : Bulk), frameActed s f 6 0x54 = true ∨ frameHeard s f = true → bulkOf s f = some b → b.len ≤
    b.done + 4096 → ∃ t, exec (.ack f) s = .next t ∧ t.dom.bulk = none ∧ t.rd Reg.domIrqStatusBulk = 1) ∧
  -- ACK of a block of the stream this device sends, with more to come, sends the next block.
  (∀ (s : State) (f : Frame) (b : Bulk), frameActed s f 6 0x54 = true ∨ frameHeard s f = true → bulkOf s f = some b → b.done +
    4096 < b.len → ∃ t, exec (.ack f) s = .next t ∧ (∃ X, t = blockSend X { b with done := b.done + 4096, tries := 0 } ∧
    X.dom.bulk = some { b with done := b.done + 4096, tries := 0 })) ∧
  -- NAK of a block of the stream this device sends, resent fewer than eight times, resends it.
  (∀ (s : State) (f : Frame) (b : Bulk), frameActed s f 6 0x55 = true ∨ frameHeard s f = true → bulkOf s f = some b → b.tries <
    8 → ∃ t, exec (.nak f) s = .next t ∧ (∃ X, t = blockSend X { b with tries := b.tries + 1 } ∧ X.dom.bulk = some
    { b with tries := b.tries + 1 })) ∧
  -- USER at a worker or a manager goes to the receive FIFO, which has room.
  (∀ (s : State) (f : Frame), frameActed s f 6 0x5F = true ∨ frameHeard s f = true → s.dom.rx.length < 64 → ∃ t, exec (.user f)
    s = .next t ∧ t.dom.rx = s.dom.rx ++ [frameBytes f 6 0x5F] ∧ t.rd Reg.domIrqStatusRx = 1)

/-- The lanes, the worker's states, the manager's sends, the tokens and the safe-state broadcast complete (R466, R471, R472,
R473, R474, R478, R479, R480, R481, R482, R483, R485). -/
def Obligations.CompleteDomain : Prop :=
  -- WX_LANE_UP of a port that is down and has not failed shows it up, with RING.
  (∀ (s : State) (port : Nat), port < 32 → s.rd (Reg.domPortStatusUp.elem port) = 0 → s.rd (Reg.domPortStatusFailed.elem port)
    = 0 → s.boot ≠ .por → ∃ t, exec (.wxLaneUp port) s = .next t ∧ t.rd (Reg.domPortStatusUp.elem port) = 1 ∧ t.rd
    Reg.domIrqStatusRing = 1) ∧
  -- WX_LANE_DOWN of a port that is up, not its eighth in a second, shows it down and counts it.
  (∀ (s : State) (port n : Nat), port < 32 → n < 8 → s.rd (Reg.domPortStatusUp.elem port) = 1 → ∃ t, exec (.wxLaneDown port n)
    s = .next t ∧ t.rd (Reg.domPortStatusUp.elem port) = 0 ∧ t.rd (Reg.domPortErrsDowns.elem port) = min (s.rd
    (Reg.domPortErrsDowns.elem port) + 1) 255 ∧ t.rd Reg.domIrqStatusRing = 1) ∧
  -- LISTEN_TIMEOUT at a worker in LISTEN leaves it ALONE.
  (∀ (s : State), s.rd Reg.domStatusRole = 0 → s.rd Reg.domStatusState = 1 → ∃ t, exec (.listenTimeout) s = .next t ∧ t.rd
    Reg.domStatusState = 4 ∧ t.rd Reg.domIrqStatusStateChg = 1) ∧
  -- SYNC_MISSING at a MEMBER with fewer than nine missed counts it, and the worker stays MEMBER.
  (∀ (s : State), s.rd Reg.domStatusRole = 0 → s.rd Reg.domStatusState = 2 → s.dom.missed < 9 → ∃ t, exec (.syncMissing) s =
    .next t ∧ t.dom.missed = s.dom.missed + 1 ∧ t.dom.close = 0 ∧ t.rd Reg.domStatusState = 2) ∧
  -- SYNC_MISSING at a MEMBER, the tenth in a row, takes it to ORPHAN, its domain time no longer locked.
  (∀ (s : State), s.rd Reg.domStatusRole = 0 → s.rd Reg.domStatusState = 2 → s.dom.missed = 9 → ∃ t, exec (.syncMissing) s =
    .next t ∧ t.rd Reg.domStatusState = 3 ∧ t.rd Reg.domStatusTimeLocked = 0) ∧
  -- ORPHAN_TIMEOUT at a worker in ORPHAN leaves it ALONE.
  (∀ (s : State), s.rd Reg.domStatusRole = 0 → s.rd Reg.domStatusState = 3 → ∃ t, exec (.orphanTimeout) s = .next t ∧ t.rd
    Reg.domStatusState = 4 ∧ t.rd Reg.domIrqStatusStateChg = 1) ∧
  -- ENUM_SEND at a manager's automation sends ENUM on every port that is up, and those are the ports on which one is out.
  (∀ (s : State), s.rd Reg.domStatusState = 5 → s.rd Reg.domModeLevel = 0 → ∃ t, exec (.enumSend) s = .next t ∧ (∃ X, t =
    domBroadcast X 3 0x21 (fun _ => [0])) ∧ t.dom.enumOut = upMask s) ∧
  -- SYNC_SEND at a manager's automation sends SYNC on every port that is up, its time not before the last, and those are the
  -- ports on which one is out.
  (∀ (s : State) (now : Nat), s.rd Reg.domStatusState = 5 → s.rd Reg.domModeLevel = 0 → now < 2 ^ 64 → ∃ t, exec (.syncSend
    now) s = .next t ∧ t.dom.syncOut = upMask s ∧ t.dom.stepNext = false ∧ t.domClock = max now s.domClock) ∧
  -- DOM_TIME_SET_WRITE at a manager, to a time not before the domain time, sets the domain time, and the next SYNC says so.
  (∀ (s : State) (m : Nat) (data : Word), s.rd Reg.domStatusRole ≠ 0 → s.domClock ≤ ((stagedHalf s m
    Reg.domTimeSetLoUs.addr).getD 0).toNat + 2 ^ 32 * data.toNat → ∃ t, exec (.domTimeSetWrite m data) s = .next t ∧
    t.domClock = ((stagedHalf s m Reg.domTimeSetLoUs.addr).getD 0).toNat + 2 ^ 32 * data.toNat ∧ t.dom.stepNext = true ∧
    t.resp = .done 0) ∧
  -- TOKEN_REQ_REPEAT at a worker whose request waits for an answer sends the request again.
  (∀ (s : State), tokenWaits s = true → ∃ t, exec (.tokenReqRepeat) s = .next t ∧ t = domToManager (s.setDom
    { s.dom with sent := [] }) 4 0x30 (leBytes 2 s.dom.reqSeq)) ∧
  -- TOKEN_FALLBACK at a worker whose request waits for an answer takes it to the stagger.
  (∀ (s : State), tokenWaits s = true → ∃ t, exec (.tokenFallback) s = .next t ∧ t.dom.fallback = true) ∧
  -- STAGGER_EXPIRY at a worker in TOKEN, not MEMBER or fallen back, ends the wait.
  (∀ (s : State), s.rd Reg.domStatusRole = 0 → s.rd Reg.spnStatusState = 1 → s.dom.asked = true → s.rd Reg.domStatusState ≠ 2 ∨
    s.dom.fallback = true → ∃ t, exec (.staggerExpiry) s = .next t ∧ t.dom.fallback = true ∧ t.rd Reg.spnStatusState ≠ 1) ∧
  -- TOKEN_RECLAIM at a manager's automation with nothing waiting takes back a token that is held.
  (∀ (s : State) (id : Nat), s.rd Reg.domStatusRole ≠ 0 → s.rd Reg.domModeLevel = 0 → s.dom.held.any (fun h => h.1 == id) =
    true → s.dom.wait = [] → ∃ t, exec (.tokenReclaim id) s = .next t ∧ t.dom.held = s.dom.held.filter (fun h => h.1 != id) ∧
    t.dom.wait = [] ∧ t.rd Reg.domIrqStatusToken = 1) ∧
  -- HEALTH_SEND at a MEMBER outside RECOVERY sends its health to the manager.
  (∀ (s : State), s.rd Reg.domStatusRole = 0 → s.rd Reg.domStatusState = 2 → s.rd Reg.sysOpmodeMode ≠ 1 → ∃ t, exec
    (.healthSend) s = .next t ∧ t = domToManager (s.setDom { s.dom with sent := [] }) 6 0x50 (healthPayload (s.setDom
    { s.dom with sent := [] }))) ∧
  -- BULK_RESEND_TIMEOUT of a block of the stream this device sends, resent fewer than eight times, resends it.
  (∀ (s : State) (b : Bulk), s.dom.bulk = some b → b.tries < 8 → ∃ t, exec (.bulkResendTimeout) s = .next t ∧ (∃ X, t =
    blockSend X { b with tries := b.tries + 1 } ∧ X.dom.bulk = some { b with tries := b.tries + 1 })) ∧
  -- BULK_RESEND_TIMEOUT of a block resent eight times ends the stream.
  (∀ (s : State) (b : Bulk), s.dom.bulk = some b → 8 ≤ b.tries → ∃ t, exec (.bulkResendTimeout) s = .next t ∧ t.dom.bulk = none
    ∧ t.rd Reg.domIrqStatusBulk = 1) ∧
  -- DOM_SAFE_WRITE in machine mode at a manager, with GUARD and SEND, broadcasts SAFE and leaves two repeats.
  (∀ (s : State) (data : Word), fieldOf data 16 16 = 0x5AFE → data.getLsbD 0 = true → s.rd Reg.domStatusRole ≠ 0 → ∃ t, exec
    (.domSafeWrite .m data) s = .next t ∧ (∃ l, t.dom = { s.dom with sent := l, safeLeft := 2 }) ∧ t.resp = .done 0) ∧
  -- SAFE_REPEAT with repeats left broadcasts SAFE again and counts one off.
  (∀ (s : State), s.dom.safeLeft ≠ 0 → ∃ t, exec (.safeRepeat) s = .next t ∧ (∃ l, t.dom =
    { s.dom with sent := l, safeLeft := s.dom.safeLeft - 1 })) ∧
  -- DOM_TX_GO with GO, of a frame of CLASS 5 or 6, at a device that may send, sends the frame on the port it names.
  (∀ (s : State) (data : Word), data.getLsbD 31 = true → s.rd Reg.domTxBytes % 8 = 5 ∨ s.rd Reg.domTxBytes % 8 = 6 → s.rd
    Reg.domStatusState ≠ 0 → s.rd Reg.domStatusState ≠ 4 → ∃ t, exec (.domTxGo data) s = .next t ∧ (t.dom.sent.map fun f =>
    (f.port, f.cls)) = [(fieldOf data 0 5, s.rd Reg.domTxBytes % 8)] ∧ t.resp = .done 0) ∧
  -- DOM_RX_POP with POP takes the head of the receive FIFO.
  (∀ (s : State) (data : Word), data.getLsbD 31 = true → ∃ t, exec (.domRxPop data) s = .next t ∧ t.dom.rx = s.dom.rx.drop 1 ∧
    t.resp = .done 0)

/-- Staging, activation, waves and the trial complete (R490, R491, R493, R495, R496, R498, R499). -/
def Obligations.CompleteUpdate : Prop :=
  -- FIRMWARE_IMAGE_DOWNLOAD of a good first piece on a PF takes the lock for the host, and stages the piece in the slot that
  -- is not ACTIVE.
  (∀ (s : State) (c : Ctrl) (fn : Nat) (data : List Byte), ctrlOf s fn = some c → s.rd Reg.sysOpmodeMode = 2 → isPf fn = true →
    s.rd Reg.updStatusTrial = 0 → s.upd.keyRun = false → s.rd Reg.updStatusLock = 0 → pieceBad s 0 data.length = false → ∃ t,
    exec (.firmwareImageDownload fn 0 data) s = .next t ∧ t.hst.reply = { fn, status := 0, dw0 := 0, data := [] } ∧ t.rd
    Reg.updStatusLock = 1 ∧ t.rd Reg.updStatusPendState = 1 ∧ t.upd.pieces = [(0, data.length)]) ∧
  -- FIRMWARE_COMMIT with action 0 on the set the host is staging starts its authentication.
  (∀ (s : State) (c : Ctrl) (fn : Nat), ctrlOf s fn = some c → s.rd Reg.sysOpmodeMode = 2 → isPf fn = true → s.rd
    Reg.updStatusTrial = 0 → s.upd.keyRun = false → s.upd.auth = none → s.rd Reg.updStatusLock = 1 → s.rd
    Reg.updStatusPendState = 1 → pendSlot s = otherSlot s → slotState s (otherSlot s) ≠ 3 → s.upd.pieces ≠ [] → ∃ t, exec
    (.firmwareCommitCa0 fn 0) s = .next t ∧ t.upd.auth = some { slot := otherSlot s, source := 1, arm := false, fn }) ∧
  -- FIRMWARE_COMMIT with action 1 on the set the host is staging starts its authentication, to be armed.
  (∀ (s : State) (c : Ctrl) (fn : Nat), ctrlOf s fn = some c → s.rd Reg.sysOpmodeMode = 2 → isPf fn = true → s.rd
    Reg.updStatusTrial = 0 → s.upd.keyRun = false → s.upd.auth = none → s.rd Reg.updStatusLock = 1 → s.rd
    Reg.updStatusPendState = 1 → pendSlot s = otherSlot s → slotState s (otherSlot s) ≠ 3 → s.upd.pieces ≠ [] → ∃ t, exec
    (.firmwareCommitCa1 fn 0) s = .next t ∧ t.upd.auth = some { slot := otherSlot s, source := 1, arm := true, fn }) ∧
  -- FIRMWARE_COMMIT with action 2 arms a VALID set.
  (∀ (s : State) (c : Ctrl) (fn : Nat), ctrlOf s fn = some c → s.rd Reg.sysOpmodeMode = 2 → isPf fn = true → s.rd
    Reg.updStatusTrial = 0 → s.upd.keyRun = false → s.upd.auth = none → s.rd Reg.updStatusLock = 0 → s.rd
    Reg.updStatusPendState = 0 → slotState s 1 = 2 → ∃ t, exec (.firmwareCommitCa2 fn 2) s = .next t ∧ t.rd
    Reg.updStatusPendState = 3 ∧ t.rd Reg.updStatusPendSlot = 1 ∧ t.rd Reg.updStatusLock = 1 ∧ t.hst.reply =
    { fn, status := 0, dw0 := 0, data := [] }) ∧
  -- UPD_STAGE_AUTH_DONE makes a set of the host that passes R489 STAGED and VALID, and rejects one that does not.
  (∀ (s : State) (slot fn : Nat), slot < 2 → s.upd.auth = some { slot, source := 1, arm := false, fn } → ∃ t, exec
    (.updStageAuthDone) s = .next t ∧ (setCheck s slot = none → t.rd Reg.updStatusPendState = 2 ∧ t.rd (Reg.updSlotState.elem
    slot) = 2 ∧ t.rd Reg.updIrqStatusStaged = 1) ∧ (setCheck s slot ≠ none → t.rd Reg.updStatusLock = 0 ∧ t.rd
    Reg.updIrqStatusRejected = 1)) ∧
  -- LOCK_IDLE_EXPIRY frees the host's lock while its set is STAGING.
  (∀ (s : State), s.rd Reg.updStatusLock = 1 → s.rd Reg.updStatusPendState = 1 → s.upd.auth = none → ∃ t, exec
    (.lockIdleExpiry) s = .next t ∧ t.rd Reg.updStatusLock = 0 ∧ t.upd.pieces = []) ∧
  -- ACTIVATE_AT_REACHED of a scheduled activation begins the stop window of a DRST with source 3.
  (∀ (s : State), s.rd Reg.updStatusPendState = 4 → s.rd Reg.rstStatusPhase = 0 → s.boot = .done → s.rd Reg.pwrStatusLoss = 0 →
    s.rd Reg.sysOpmodeMode = 2 → ∃ t, exec (.activateAtReached) s = .next t ∧ t.rd Reg.rstStatusPhase = 1 ∧ t.rst.request =
    some 3) ∧
  -- WAVE_AT_REACHED on a manager with no worker staged ends the waves at once.
  (∀ (s : State), s.rd Reg.domStatusRole = 1 → s.rd Reg.updWaveCtlEn = 1 → s.rd Reg.updWaveCtlState = 0 → stagedGroups s = [] →
    ∃ t, exec (.waveAtReached) s = .next t ∧ t.rd Reg.updWaveCtlState = 2 ∧ t.rd Reg.updIrqStatusWave = 1) ∧
  -- WAVE_TIMEOUT during a wave without its success halts the waves.
  (∀ (s : State), s.rd Reg.updWaveCtlState = 1 → s.upd.done = false → ∃ t, exec (.waveTimeout) s = .next t ∧ t.rd
    Reg.updWaveCtlState = 3 ∧ t.rd Reg.updIrqStatusWave = 1) ∧
  -- A guarded write of GO to UPD_CONFIRM from M mode confirms the trial.
  (∀ (s : State) (data : Word), fieldOf data 16 16 = 0xC0F1 → data.getLsbD 0 = true → s.rd Reg.updStatusTrial = 1 → trialSlot s
    = some 1 → setVer s 1 = 0 → ∃ t, exec (.updConfirmWrite .m data) s = .next t ∧ t.resp = .done 0 ∧ t.rd Reg.updStatusTrial
    = 0 ∧ t.rd Reg.updStatusActiveSlot = 1 ∧ t.rd Reg.updStatusLock = 0) ∧
  -- TRIAL_WINDOW_EXPIRY fails the trial: the fallback is noted, and a DRST with source 7 begins its stop window.
  (∀ (s : State), s.rd Reg.updStatusTrial = 1 → s.rd Reg.rstStatusPhase = 0 → s.boot = .done → s.rd Reg.pwrStatusLoss = 0 →
    s.rd Reg.sysOpmodeMode = 2 → ∃ t, exec (.trialWindowExpiry) s = .next t ∧ t.rd Reg.updStatusTrial = 0 ∧ t.rd
    Reg.updIrqStatusFallback = 1 ∧ t.rd Reg.rstStatusPhase = 1 ∧ t.rst.request = some 7)

/-- The end of a park, the watchdog of the warden, settings and key commands complete (R374, R375, R387, R498, R501, R503). -/
def Obligations.CompleteSettings : Prop :=
  -- SAFE_PARK_DONE enters SAFE once the record of the entry is written and the heads are parked.
  (∀ (s : State), s.flt.safe = .recorded → s.rd (Reg.hvRetractDone.elem 0) = 1 → s.rd (Reg.hvRetractDone.elem 1) = 1 → s.rd
    Reg.updStatusTrial = 0 → ∃ t, exec (.safeParkDone) s = .next t ∧ t.rd Reg.sysOpmodeMode = 5 ∧ t.rd Reg.sysOpmodeCause =
    s.flt.safeCause % 256 ∧ t.rd Reg.fltStatusSafePend = 0 ∧ t.flt.safe = .none) ∧
  -- WARDEN_WATCHDOG_EXPIRY begins the stop window of a DRST with source 2.
  (∀ (s : State), s.rd Reg.updStatusTrial = 0 → s.rd Reg.rstStatusPhase = 0 → s.boot = .done → s.rd Reg.pwrStatusLoss = 0 →
    s.rd Reg.sysOpmodeMode = 2 → ∃ t, exec (.wardenWatchdogExpiry) s = .next t ∧ t.rd Reg.rstStatusPhase = 1 ∧ t.rst.request =
    some 2) ∧
  -- UPD_SET_CMD with GO reports what it finds of the block, and writes a good one to the older LIVE copy.
  (∀ (s : State) (data : Word), data.getLsbD 31 = true → ∃ t, exec (.updSetCmd data) s = .next t ∧ t.resp = .done 0 ∧ t.rd
    Reg.updSetStatusResult = setBlockResult s (s.rd Reg.updSetAddrLoAddr + 2 ^ 32 * s.rd Reg.updSetAddrHiAddr) ∧
    (setBlockResult s (s.rd Reg.updSetAddrLoAddr + 2 ^ 32 * s.rd Reg.updSetAddrHiAddr) = 0 → t.rd Reg.updSetStatusMirrorPend =
    1)) ∧
  -- SETTINGS_MIRROR_DONE ends the mirroring, and the mirror holds the live block.
  (∀ (s : State), s.rd Reg.updSetStatusMirrorPend = 1 → ∃ t, exec (.settingsMirrorDone) s = .next t ∧ t.rd
    Reg.updSetStatusMirrorPend = 0 ∧ t.upd.mirror = blkBytes (liveFormat s) (liveGen s) (liveBody s)) ∧
  -- SAVE writes the overlays to settings, which the mirror follows.
  (∀ (s : State), ∃ t, exec (.save) s = .next t ∧ t.resp = .done 0 ∧ t.rd Reg.calCmdResStatus = 0 ∧ t.rd
    Reg.updSetStatusMirrorPend = 1) ∧
  -- KEYCMD is taken from the mailbox ring and answered there.
  (∀ (s : State) (e : RingEntry), ringFront s 6 = some e → e.at 0 1 = 0x10 → mailMalformed e = true → ∃ t, exec (.keycmd) s =
    .next t ∧ t = mailReply s e 1 [])

/-- Uandonak's transports and commands complete in RECOVERY (R103, R449, R489, R490, R503, R504, R512). -/
def Obligations.CompleteUandonak : Prop :=
  -- SERVICE_PORT_REQUEST in RECOVERY, of 8 bytes with the CRC-8 R504 asks for, is served and answered.
  (∀ (s : State) (op reg : Byte) (data : List Byte), s.rd Reg.sysOpmodeMode = 1 → data.length = 4 → op = 1 ∨ op = 2 → ∃ t, exec
    (.servicePortRequest ([0x7E, op, reg] ++ data ++ [BitVec.ofNat 8 (crc8 ([op, reg] ++ data))])) s = .next t ∧
    t.upd.uan.reply = [0x7E] ++ ([BitVec.ofNat 8 (taskRequest s op.toNat reg.toNat data).1, reg] ++ leBytes 4 (taskRequest s
    op.toNat reg.toNat data).2.1) ++ [BitVec.ofNat 8 (crc8 ([BitVec.ofNat 8 (taskRequest s op.toNat reg.toNat data).1, reg] ++
    leBytes 4 (taskRequest s op.toNat reg.toNat data).2.1))]) ∧
  -- TASK in RECOVERY from position 0 to this device alone is served, and the answer goes back in a TASK frame.
  (∀ (s : State) (f : Frame), frameActed s f 6 0x56 = true → s.rd Reg.sysOpmodeMode = 1 → isBcast f = false → f.src % 256 = 0 →
    bodyNat f.payload 0 1 = 1 ∨ bodyNat f.payload 0 1 = 2 → ∃ t, exec (.task f) s = .next t ∧ (∃ r, r = taskRequest
    (workerSees s f 6 0x56 f.payload) (bodyNat f.payload 0 1) (bodyNat f.payload 1 1) (slice f.payload 4 4) ∧ t = domToManager
    r.2.2 6 0x56 ([BitVec.ofNat 8 (bodyNat f.payload 0 1), BitVec.ofNat 8 (bodyNat f.payload 1 1), BitVec.ofNat 8 r.1, 0] ++
    leBytes 4 r.2.1))) ∧
  -- UANDONAK_OPEN of a slot it may open takes the lock as service and opens the slot for staging.
  (∀ (s : State), uanPending s 0x01 = true → uanMayOpen s (uanArg s 0) = true → ∃ t, exec (.uandonakOpen) s = .next t ∧
    t.upd.uan.result = some (true, 0) ∧ t.upd.uan.open_ = some (uanArg s 0) ∧ t.rd Reg.updStatusLock = 3 ∧ t.rd
    Reg.updStatusPendState = 1) ∧
  -- UANDONAK_BLOCK of a block of the open slot with the CRC32C it names programs it and clears the input buffer.
  (∀ (s : State) (k : Nat), uanPending s 0x02 = true → s.upd.uan.open_ = some k → crc32c s.upd.uan.input = uanArg s 1 → uanArg
    s 0 < 6144 → ∃ t, exec (.uandonakBlock) s = .next t ∧ t.upd.uan.result = some (true, 0) ∧ t.upd.uan.input = [] ∧
    t.upd.uan.blocks = s.upd.uan.blocks + 1 ∧ t.upd.nor = Store.writeRun 0xFF s.upd.nor (k * 0x1800000 + 4096 * uanArg s 0)
    s.upd.uan.input) ∧
  -- UANDONAK_CLOSE of the open slot authenticates it; the outcome is that, or REJECT.
  (∀ (s : State) (k : Nat), uanPending s 0x03 = true → s.upd.uan.open_ = some k → ∃ t, exec (.uandonakClose) s = .next t ∧
    t.upd.uan.open_ = none ∧ (∃ a, a = slotAuth (s.setUan { s.upd.uan with open_ := none }) k ∧ t.upd.uan.result = some (a.1,
    if a.1 then 0 else a.2.rd Reg.updStatusReject))) ∧
  -- UANDONAK_ARM of a VALID slot arms it, the lock the service's.
  (∀ (s : State), uanPending s 0x04 = true → uanArg s 0 < 2 → slotState s (uanArg s 0) = slotValid → ∃ t, exec (.uandonakArm) s
    = .next t ∧ t.upd.uan.result = some (true, 0) ∧ t.rd Reg.updStatusPendState = 3 ∧ t.rd Reg.updStatusPendSlot = uanArg s 0
    ∧ t.rd Reg.updStatusLock = 3) ∧
  -- UANDONAK_SVCKEY of a slot it may open, with a set on the service key that fits, stages it and authenticates the slot.
  (∀ (s : State) (key : List Byte), uanPending s 0x05 = true → uanMayOpen s (uanArg s 0) = true → key ≠ [] → key.length ≤
    0x1800000 → ∃ t, exec (.uandonakSvckey key) s = .next t ∧ t.upd.uan.open_ = none ∧ (∃ X a, X.upd.nor = Store.writeRun 0xFF
    (stageBegin s 3 (uanArg s 0)).upd.nor (uanArg s 0 * 0x1800000) key ∧ a = slotAuth X (uanArg s 0) ∧ t.upd.uan.result = some
    (a.1, if a.1 then 0 else a.2.rd Reg.updStatusReject))) ∧
  -- UANDONAK_KEYCMD applies the key command in the input buffer where it is good, and ends with its outcome.
  (∀ (s : State), uanPending s 0x06 = true → ∃ t, exec (.uandonakKeycmd) s = .next t ∧ (∃ k, t.upd.uan.result = some k ∧ k.1 =
    (keyCommand s s.upd.uan.input).isSome) ∧ (∀ f, keyCommand s s.upd.uan.input = some f → t.upd.blown = f ∧ t.upd.uan.result
    = some (true, 0))) ∧
  -- UANDONAK_RECREAD puts record ARG0, or 64 zero bytes, in the output buffer.
  (∀ (s : State), uanPending s 0x07 = true → ∃ t, exec (.uandonakRecread) s = .next t ∧ t.upd.uan.result = some (true, 0) ∧
    t.upd.uan.output = recordBytes s (uanArg s 0)) ∧
  -- UANDONAK_BAUD with ARG0 0 or 1 selects the baud rate.
  (∀ (s : State), uanPending s 0x08 = true → uanArg s 0 < 2 → ∃ t, exec (.uandonakBaud) s = .next t ∧ t.upd.uan.result = some
    (true, 0) ∧ t.upd.uan.baud = uanArg s 0) ∧
  -- UANDONAK_RESET with no reset or power loss under way asks for DRST from the service port.
  (∀ (s : State), uanPending s 0x09 = true → s.rd Reg.rstStatusPhase = 0 → s.boot = .done → s.rd Reg.pwrStatusLoss = 0 → ∃ t,
    exec (.uandonakReset) s = .next t ∧ t.rst.request = some 7 ∧ t.upd.uan.result = some (true, 0)) ∧
  -- UANDONAK_CMD_DONE of a command with its outcome shows OK, or ERROR with its code.
  (∀ (s : State) (ok : Bool) (error : Nat), s.rd Reg.sysOpmodeMode = 1 → s.upd.uan.state = 1 → s.upd.uan.result = some (ok,
    error) → ∃ t, exec (.uandonakCmdDone) s = .next t ∧ t.upd.uan.cmd = 0 ∧ t.upd.uan.state = (if ok then 2 else 3) ∧
    t.upd.uan.error = error ∧ t.upd.uan.result = none)

/-- Recorder posts and records, and the writes of the performance counters, complete (R12, R13, R509, R510, R514, R517, R520,
R521). -/
def Obligations.CompleteRecorder : Prop :=
  -- RECORD_POST while REC is alive and has room for it joins the post queue.
  (∀ (s : State) (source severity code : Nat) (payload : List Byte) (warden : Bool), s.boot ≠ .por → s.pwr.step ≠ .down →
    recHasRoom s warden = true → ∃ t, exec (.recordPost source severity code payload warden) s = .next t ∧ t.recorder.queue =
    s.recorder.queue ++ [RecPost.mk source severity code payload warden]) ∧
  -- RECORD_POST with no entry open to it is counted as dropped, and raises DROP.
  (∀ (s : State) (source severity code : Nat) (payload : List Byte) (warden : Bool), s.boot ≠ .por → s.pwr.step ≠ .down →
    recHasRoom s warden = false → ∃ t, exec (.recordPost source severity code payload warden) s = .next t ∧ t.recorder =
    s.recorder ∧ t.rd Reg.recIrqStatusDrop = 1 ∧ t.rd Reg.recStatusDropped = min (s.rd Reg.recStatusDropped + 1) 65535) ∧
  -- REC_POST_GO in machine mode with GO posts the fields in the master's REC_POST registers, its SOURCE the hart's.
  (∀ (s : State) (m : Nat) (data : Word), data.getLsbD 31 = true → ∃ t, exec (.recPostGo m .m data) s = .next t ∧ t = (recPost
    s
    { source := 32 + m, severity := fieldOf (postReg s m 0x20) 16 3, code := fieldOf (postReg s m 0x20) 0 16,
      payload := (List.range 10).flatMap fun i => leBytes 4 (postReg s m (0x24 + 4 * i)).toNat, warden := m == 4 }).answer 0) ∧
  -- RECORD_WRITE while REC is alive claims the next sequence and writes the oldest post as a record.
  (∀ (s : State) (p : RecPost) (rest : List RecPost), s.boot ≠ .por → s.pwr.step ≠ .down → s.recorder.queue = p :: rest → ∃ t,
    exec (.recordWrite) s = .next t ∧ t.recorder.queue = rest ∧ t.rd Reg.recHeadSeqSeq = (s.rd Reg.recHeadSeqSeq + 1) %
    4294967296 ∧ t.mem = ((s.store (recSlot (s.rd Reg.recHeadSeqSeq)) (recBody s (s.rd Reg.recHeadSeqSeq) p)).store (recSlot
    (s.rd Reg.recHeadSeqSeq) + 0x38) (recTail (s.rd Reg.recHeadSeqSeq) (recBody s (s.rd Reg.recHeadSeqSeq) p))).mem) ∧
  -- COUNTER_WRAP of a counter that counts wraps it to 0 and sets its OVF bit.
  (∀ (s : State) (k : Nat), k < 8 → s.rd (Reg.pmuEvselEn.elem k) = 1 → ∃ t, exec (.counterWrap k) s = .next t ∧ t.rd
    (Reg.pmuCntLoCount.elem k) = 0 ∧ t.rd (Reg.pmuCntHiCount.elem k) = 0 ∧ t.rd Reg.pmuOvfOvf = s.rd Reg.pmuOvfOvf ||| 2 ^ k) ∧
  -- CLR_ALL outside user mode with CLR_ALL set clears all eight counters.
  (∀ (s : State) (priv : Priv) (data : Word) (k : Nat), priv ≠ .u → data.getLsbD 1 = true → k < 8 → ∃ t, exec (.clrAll priv
    data) s = .next t ∧ t.rd (Reg.pmuCntLoCount.elem k) = 0 ∧ t.rd (Reg.pmuCntHiCount.elem k) = 0 ∧ t.rd Reg.pmuCtlUserEn =
    fieldOf data 0 1 ∧ t.resp = .done 0) ∧
  -- PMU_COUNTER_WRITE outside user mode writes the counter's high half and the low half the master has staged.
  (∀ (s : State) (m k : Nat) (priv : Priv) (data w : Word), priv ≠ .u → k < 8 → stagedHalf s m (Reg.pmuCntLoCount.elem k).addr
    = some w → ∃ t, exec (.pmuCounterWrite m k priv data) s = .next t ∧ t.rd (Reg.pmuCntLoCount.elem k) = w.toNat ∧ t.rd
    (Reg.pmuCntHiCount.elem k) = fieldOf data 0 16 ∧ stagedHalf t m (Reg.pmuCntLoCount.elem k).addr = none ∧ t.resp = .done 0)

end
end

