-- ==== Sys2Proof/Laws/Store.lean ====
section
/-!
SUPPORT. Laws of sparse stores and of bit fields: a read after a write, the canonical form, a field after a field write.
-/

namespace Sys2Proof.Machine

section
variable {α : Type}

theorem Store.read_put_self (d : α) (m : Store α) (k : Nat) (v : α) : Store.read d (Store.put m k v) k = v := by
  induction m with
  | nil => simp [Store.put, Store.read]
  | cons e m ih =>
    obtain ⟨j, w⟩ := e
    simp only [Store.put]
    split
    · simp [Store.read]
    · split
      · simp [Store.read]
      · simp [Store.read, *]

theorem Store.read_put_other (d : α) (m : Store α) {j k : Nat} (v : α) (h : j ≠ k) :
    Store.read d (Store.put m k v) j = Store.read d m j := by
  induction m with
  | nil => simp [Store.put, Store.read, Ne.symm h]
  | cons e m ih =>
    obtain ⟨i, w⟩ := e
    simp only [Store.put]
    split
    · simp [Store.read, Ne.symm h]
    · split
      · subst_vars; simp [Store.read, Ne.symm h]
      · simp [Store.read, ih]

theorem Store.read_erase_self (d : α) (m : Store α) (k : Nat) : Store.read d (Store.erase m k) k = d := by
  induction m with
  | nil => rfl
  | cons e m ih =>
    obtain ⟨j, w⟩ := e
    simp only [Store.erase]
    split
    · exact ih
    · simp [Store.read, *]

theorem Store.read_erase_other (d : α) (m : Store α) {j k : Nat} (h : j ≠ k) :
    Store.read d (Store.erase m k) j = Store.read d m j := by
  induction m with
  | nil => rfl
  | cons e m ih =>
    obtain ⟨i, w⟩ := e
    simp only [Store.erase]
    split
    · rename_i hi
      subst hi
      simp [Store.read, ih, Ne.symm h]
    · simp [Store.read, ih]

/-- Read after write: the key written gives the value, every other key what it gave before. -/
theorem Store.read_write [DecidableEq α] (d : α) (m : Store α) (j k : Nat) (v : α) :
    Store.read d (Store.write d m k v) j = if j = k then v else Store.read d m j := by
  unfold Store.write
  by_cases hv : v = d
  · by_cases hj : j = k
    · subst hj; simp [hv, Store.read_erase_self]
    · simp [hv, hj, Store.read_erase_other d m hj]
  · by_cases hj : j = k
    · subst hj; simp [hv, Store.read_put_self]
    · simp [hv, hj, Store.read_put_other d m v hj]

@[simp] theorem Store.read_write_self [DecidableEq α] (d : α) (m : Store α) (k : Nat) (v : α) :
    Store.read d (Store.write d m k v) k = v := by simp [Store.read_write]

theorem Store.read_write_other [DecidableEq α] (d : α) (m : Store α) {j k : Nat} (v : α) (h : j ≠ k) :
    Store.read d (Store.write d m k v) j = Store.read d m j := by simp [Store.read_write, h]

/-- A run of values written leaves every other key as it was. -/
theorem Store.read_writeRun_other [DecidableEq α] (d : α) (vs : List α) (m : Store α) (k j : Nat) (h : j < k ∨ k + vs.length ≤ j) :
    Store.read d (Store.writeRun d m k vs) j = Store.read d m j := by
  induction vs generalizing m k with
  | nil => rfl
  | cons v vs ih =>
    simp only [Store.writeRun]
    simp only [List.length_cons] at h
    rw [ih _ _ (by omega), Store.read_write_other d m v (by omega)]

/-- A run of values written is what its keys read as. -/
theorem Store.readRun_writeRun [DecidableEq α] (d : α) (vs : List α) (m : Store α) (k : Nat) :
    Store.readRun d (Store.writeRun d m k vs) k vs.length = vs := by
  induction vs generalizing m k with
  | nil => rfl
  | cons v vs ih =>
    simp only [List.length_cons, Store.readRun, Store.writeRun]
    rw [Store.read_writeRun_other d vs _ _ _ (by omega), Store.read_write_self, ih]

/-! ## The canonical form -/

theorem Store.risingAbove_mono {lo lo' : Nat} (h : lo' ≤ lo) :
    ∀ {m : Store α}, Store.risingAbove lo m = true → Store.risingAbove lo' m = true
  | [], _ => rfl
  | (j, w) :: m, hm => by
    simp only [Store.risingAbove, Bool.and_eq_true, decide_eq_true_eq] at hm ⊢
    exact ⟨by omega, hm.2⟩

theorem Store.risingAbove_erase {lo : Nat} (k : Nat) :
    ∀ {m : Store α}, Store.risingAbove lo m = true → Store.risingAbove lo (Store.erase m k) = true
  | [], _ => rfl
  | (j, w) :: m, hm => by
    simp only [Store.risingAbove, Bool.and_eq_true, decide_eq_true_eq] at hm
    have hj := Store.risingAbove_erase k hm.2
    simp only [Store.erase]
    split
    · exact Store.risingAbove_mono (by omega) hj
    · simp [Store.risingAbove, hm.1, hj]

theorem Store.risingAbove_put {lo k : Nat} (v : α) (hk : lo < k) :
    ∀ {m : Store α}, Store.risingAbove lo m = true → Store.risingAbove lo (Store.put m k v) = true
  | [], _ => by simp [Store.put, Store.risingAbove, hk]
  | (j, w) :: m, hm => by
    simp only [Store.risingAbove, Bool.and_eq_true, decide_eq_true_eq] at hm
    simp only [Store.put]
    split
    · simp [Store.risingAbove, *]
    · split
      · subst_vars; simp [Store.risingAbove, hm.1, hm.2]
      · have := Store.risingAbove_put (lo := j) (k := k) v (by omega) hm.2
        simp [Store.risingAbove, hm.1, this]

/-- The canonical form, as a statement about every entry: keys strictly rising, no entry with the unlisted value. -/
def Store.Rising : Store α → Bool
  | [] => true
  | (j, _) :: m => Store.risingAbove j m

theorem Store.wf_iff [DecidableEq α] (d : α) (m : Store α) :
    Store.wf d m = true ↔ Store.Rising m = true ∧ ∀ e ∈ m, e.2 ≠ d := by
  cases m with
  | nil => simp [Store.wf, Store.Rising]
  | cons e m =>
    obtain ⟨j, w⟩ := e
    simp [Store.wf, Store.Rising, and_assoc]
    exact fun _ => ⟨fun h => ⟨h.2, h.1⟩, fun h => ⟨h.2, h.1⟩⟩

theorem Store.mem_erase {m : Store α} {k : Nat} {e : Nat × α} (h : e ∈ Store.erase m k) : e ∈ m := by
  induction m with
  | nil => exact h
  | cons f m ih =>
    obtain ⟨j, w⟩ := f
    simp only [Store.erase] at h
    split at h
    · exact List.mem_cons_of_mem _ (ih h)
    · rcases List.mem_cons.mp h with h | h
      · exact h ▸ List.mem_cons_self
      · exact List.mem_cons_of_mem _ (ih h)

theorem Store.mem_put {m : Store α} {k : Nat} {v : α} {e : Nat × α} (h : e ∈ Store.put m k v) :
    e = (k, v) ∨ e ∈ m := by
  induction m with
  | nil => simp only [Store.put, List.mem_singleton] at h; exact .inl h
  | cons f m ih =>
    obtain ⟨j, w⟩ := f
    simp only [Store.put] at h
    split at h
    · rcases List.mem_cons.mp h with h | h
      · exact .inl h
      · exact .inr h
    · split at h
      · rcases List.mem_cons.mp h with h | h
        · exact .inl h
        · exact .inr (List.mem_cons_of_mem _ h)
      · rcases List.mem_cons.mp h with h | h
        · exact .inr (h ▸ List.mem_cons_self)
        · rcases ih h with h | h
          · exact .inl h
          · exact .inr (List.mem_cons_of_mem _ h)

theorem Store.rising_erase {m : Store α} (k : Nat) (h : Store.Rising m = true) : Store.Rising (Store.erase m k) = true := by
  cases m with
  | nil => rfl
  | cons e m =>
    obtain ⟨j, w⟩ := e
    have hj := Store.risingAbove_erase k (m := m) (lo := j) h
    simp only [Store.erase]
    split
    · revert hj
      cases hm : Store.erase m k with
      | nil => exact fun _ => rfl
      | cons e' m' =>
        obtain ⟨j', w'⟩ := e'
        intro hj
        simp only [Store.risingAbove, Bool.and_eq_true] at hj
        exact hj.2
    · exact hj

theorem Store.rising_put {m : Store α} (k : Nat) (v : α) (h : Store.Rising m = true) : Store.Rising (Store.put m k v) = true := by
  cases m with
  | nil => rfl
  | cons e m =>
    obtain ⟨j, w⟩ := e
    simp only [Store.put]
    split
    · simp only [Store.Rising, Store.risingAbove, Bool.and_eq_true, decide_eq_true_eq] at h ⊢
      exact ⟨by assumption, h⟩
    · split
      · subst_vars; exact h
      · exact Store.risingAbove_put v (by omega) h

/-- Every write keeps the canonical form. -/
theorem Store.wf_write [DecidableEq α] (d : α) (m : Store α) (k : Nat) (v : α) (h : Store.wf d m = true) :
    Store.wf d (Store.write d m k v) = true := by
  rw [Store.wf_iff] at h ⊢
  unfold Store.write
  split
  · exact ⟨Store.rising_erase k h.1, fun e he => h.2 e (Store.mem_erase he)⟩
  · refine ⟨Store.rising_put k v h.1, fun e he => ?_⟩
    rcases Store.mem_put he with rfl | he
    · assumption
    · exact h.2 e he

theorem Store.wf_writeRun [DecidableEq α] (d : α) (vs : List α) (m : Store α) (k : Nat) (h : Store.wf d m = true) :
    Store.wf d (Store.writeRun d m k vs) = true := by
  induction vs generalizing m k with
  | nil => exact h
  | cons v vs ih => exact ih _ _ (Store.wf_write d m k v h)

theorem Store.risingAbove_filter {lo : Nat} (p : Nat × α → Bool) :
    ∀ {m : Store α}, Store.risingAbove lo m = true → Store.risingAbove lo (m.filter p) = true
  | [], _ => rfl
  | (j, w) :: m, hm => by
    simp only [Store.risingAbove, Bool.and_eq_true, decide_eq_true_eq] at hm
    have hj := Store.risingAbove_filter p hm.2
    simp only [List.filter_cons]
    split
    · simp [Store.risingAbove, hm.1, hj]
    · exact Store.risingAbove_mono (by omega) hj

/-- Dropping entries keeps the canonical form. -/
theorem Store.wf_filter [DecidableEq α] (d : α) (m : Store α) (p : Nat × α → Bool) (h : Store.wf d m = true) :
    Store.wf d (m.filter p) = true := by
  rw [Store.wf_iff] at h ⊢
  refine ⟨?_, fun e he => h.2 e ((List.mem_filter.mp he).1)⟩
  cases m with
  | nil => rfl
  | cons e m =>
    obtain ⟨j, w⟩ := e
    have hj := Store.risingAbove_filter p (m := m) (lo := j) h.1
    simp only [List.filter_cons]
    split
    · exact hj
    · revert hj
      cases m.filter p with
      | nil => exact fun _ => rfl
      | cons e' m' =>
        obtain ⟨j', w'⟩ := e'
        intro hj
        simp only [Store.risingAbove, Bool.and_eq_true] at hj
        exact hj.2

end

/-! ## Fields of a register word -/

theorem testBit_fieldOf (w : Word) (lo width j : Nat) :
    (fieldOf w lo width).testBit j = (decide (j < width) && w.getLsbD (lo + j)) := by
  simp [fieldOf, Nat.testBit_mod_two_pow, BitVec.getLsbD, Nat.testBit_shiftRight]

theorem getLsbD_setField (w : Word) (lo width v i : Nat) :
    (setField w lo width v).getLsbD i
      = if lo ≤ i ∧ i < lo + width ∧ i < 32 then v.testBit (i - lo) else w.getLsbD i := by
  simp only [setField, fieldMask, BitVec.getLsbD_or, BitVec.getLsbD_and, BitVec.getLsbD_not, BitVec.getLsbD_shiftLeft,
    BitVec.getLsbD_ofNat, Nat.testBit_mod_two_pow, Nat.testBit_two_pow_sub_one]
  by_cases hi : i < 32
  · by_cases hl : lo ≤ i
    · have hn : ¬ i < lo := by omega
      have h2 : i - lo < 32 := by omega
      by_cases hw : i < lo + width
      · have : i - lo < width := by omega
        simp [hi, hl, hw, hn, this, h2]
      · have : ¬ i - lo < width := by omega
        simp [hi, hw, hn, this]
    · have : i < lo := by omega
      simp [hi, hl, this]
  · have hge : 32 ≤ i := by omega
    simp [hi, BitVec.getLsbD_of_ge _ _ hge]

/-- A field that has been written reads as the value, cut to its width. -/
theorem fieldOf_setField_self (w : Word) (lo width v : Nat) (h : lo + width ≤ 32) :
    fieldOf (setField w lo width v) lo width = v % 2 ^ width := by
  apply Nat.eq_of_testBit_eq
  intro j
  rw [testBit_fieldOf, getLsbD_setField, Nat.testBit_mod_two_pow]
  by_cases hj : j < width
  · have h2 : lo + j < 32 := by omega
    have h3 : lo + j - lo = j := by omega
    simp [hj, h2]
  · simp [hj]

/-- Writing a field leaves every field that shares no bit with it. -/
theorem fieldOf_setField_other (w : Word) (lo width lo' width' v : Nat) (h : lo + width ≤ lo' ∨ lo' + width' ≤ lo) :
    fieldOf (setField w lo width v) lo' width' = fieldOf w lo' width' := by
  apply Nat.eq_of_testBit_eq
  intro j
  rw [testBit_fieldOf, testBit_fieldOf, getLsbD_setField]
  by_cases hj : j < width'
  · have : ¬ (lo ≤ lo' + j ∧ lo' + j < lo + width ∧ lo' + j < 32) := by omega
    simp only [this, if_false]
  · simp [hj]

theorem fieldOf_lt (w : Word) (lo width : Nat) : fieldOf w lo width < 2 ^ width := Nat.mod_lt _ (Nat.two_pow_pos width)

end Sys2Proof.Machine
end

