-- ==== Sys2Proof/Laws/Keeps.lean ====
section
/-!
SUPPORT. Laws of `Keeps`: what a footprint relation says of the plainest operations, and how it passes through a sequence, a
choice and a loop. The lemmas of the operations (Laws/Foot*.lean) are chained with these.
-/

namespace Sys2Proof.Machine

/-! ## Footprints -/

/-- One footprint lies within another. -/
def Foot.Le (A B : Foot) : Prop :=
  (∀ f ∈ A.regs, f ∈ B.regs) ∧ (∀ p ∈ A.parts, p ∈ B.parts) ∧ (A.any = true → B.any = true)

theorem Foot.Le.refl (A : Foot) : A.Le A := ⟨fun _ h => h, fun _ h => h, fun h => h⟩

theorem Foot.Le.trans {A B C : Foot} (h : B.Le C) (g : A.Le B) : A.Le C :=
  ⟨fun f hf => h.1 f (g.1 f hf), fun p hp => h.2.1 p (g.2.1 p hp), fun ha => h.2.2 (g.2.2 ha)⟩

/-- Equality of fields, address first. -/
def Fld.eqb (f g : Fld) : Bool :=
  Nat.beq f.addr g.addr && Nat.beq f.lo g.lo && Nat.beq f.width g.width && Nat.beq f.stride g.stride && Nat.beq f.count g.count

theorem Fld.eq_of_eqb {f g : Fld} (h : f.eqb g = true) : f = g := by
  obtain ⟨a, b, c, d, e⟩ := f
  obtain ⟨a', b', c', d', e'⟩ := g
  simp only [Fld.eqb, Bool.and_eq_true, Nat.beq_eq] at h
  obtain ⟨⟨⟨⟨rfl, rfl⟩, rfl⟩, rfl⟩, rfl⟩ := h
  rfl

/-- The decision of `Foot.Le`. -/
def Foot.sub (A B : Foot) : Bool :=
  (A.regs.all fun f => B.regs.any fun g => f.eqb g) && (A.parts.all fun p => B.parts.any fun q => decide (p = q))
    && (!A.any || B.any)

theorem Foot.le_of {A B : Foot} (h : A.sub B = true) : A.Le B := by
  simp only [Foot.sub, Bool.and_eq_true, List.all_eq_true, List.any_eq_true, decide_eq_true_eq, Bool.or_eq_true,
    Bool.not_eq_true'] at h
  obtain ⟨⟨h1, h2⟩, h3⟩ := h
  refine ⟨fun f hf => ?_, fun p hp => ?_, fun ha => ?_⟩
  · obtain ⟨g, hg, e⟩ := h1 f hf
    exact Fld.eq_of_eqb e ▸ hg
  · obtain ⟨q, hq, e⟩ := h2 p hp
    exact e ▸ hq
  · rcases h3 with h3 | h3
    · simp [ha] at h3
    · exact h3

/-- A field of the footprint, as its decision. -/
theorem Foot.Le.fld {A B : Foot} (h : A.Le B) {f : Fld} (hf : (A.regs.any fun g => f.eqb g) = true) : f ∈ B.regs := by
  obtain ⟨g, hg, e⟩ := List.any_eq_true.mp hf
  exact h.1 f (Fld.eq_of_eqb e ▸ hg)

/-- A part of the footprint, as its decision. -/
theorem Foot.Le.part {A B : Foot} (h : A.Le B) {p : Part} (hp : (A.parts.any fun q => decide (p = q)) = true) :
    p ∈ B.parts := by
  obtain ⟨q, hq, e⟩ := List.any_eq_true.mp hp
  exact h.2.1 p (decide_eq_true_eq.mp e ▸ hq)

/-! ## Register writes -/

theorem State.rdWord_wrWord (s : State) (a b : Nat) (w : Word) :
    (s.wrWord a w).rdWord b = if b = a then w else s.rdWord b := Store.read_write 0 s.regs b a w

theorem State.rdWord_wr (s : State) (f : Fld) (v b : Nat) :
    (s.wr f v).rdWord b = if b = f.addr then setField (s.rdWord b) f.lo f.width v else s.rdWord b := by
  simp only [State.rdWord, State.wr, Store.setFld, Store.read_write]
  split
  · subst_vars; rfl
  · rfl

/-- A field write changes no bit outside the field. -/
theorem State.bit_wr (s : State) (f : Fld) (v a i : Nat) (h : ¬ (a = f.addr ∧ f.lo ≤ i ∧ i < f.lo + f.width)) :
    ((s.wr f v).rdWord a).getLsbD i = (s.rdWord a).getLsbD i := by
  rw [State.rdWord_wr]
  split
  · rename_i ha
    rw [getLsbD_setField, if_neg (fun hh => h ⟨ha, hh.1, hh.2.1⟩)]
  · rfl

/-! ## Sequences -/

section
variable {W : Foot} {s0 x : State}

theorem Keeps.refl (W : Foot) (s : State) : Keeps W s s :=
  ⟨fun _ _ _ _ => rfl, fun p _ => by cases p <;> rfl, rfl, id, id, Nat.le_refl _⟩

theorem Part.same_trans {s t u : State} {p : Part} (h : p.same s t) (g : p.same t u) : p.same s u := by
  cases p <;> exact Eq.trans g h

theorem Keeps.trans {t : State} (h : Keeps W s0 x) (g : Keeps W x t) : Keeps W s0 t :=
  ⟨fun ha a i hc => (g.regs ha a i hc).trans (h.regs ha a i hc), fun p hp => Part.same_trans (h.parts p hp) (g.parts p hp),
    g.pending.trans h.pending, fun hc => g.canon (h.canon hc), fun hm => g.memory (h.memory hm),
    Nat.le_trans h.counter g.counter⟩

/-- A wider footprint. -/
theorem Keeps.mono {V : Foot} {t : State} (hV : V.Le W) (h : Keeps V s0 t) : Keeps W s0 t :=
  ⟨fun ha a i hc => h.regs (by cases hv : V.any with
      | false => rfl
      | true => exact absurd (hV.2.2 hv) (by simp [ha])) a i fun f hf => hc f (hV.1 f hf),
    fun p hp => h.parts p fun hq => hp (hV.2.1 p hq), h.pending, h.canon, h.memory, h.counter⟩

theorem Keeps.ite {c : Prop} [Decidable c] {a b : State} (ha : Keeps W s0 a) (hb : Keeps W s0 b) :
    Keeps W s0 (if c then a else b) := by split <;> assumption

theorem Keeps.cond {c : Bool} {a b : State} (ha : Keeps W s0 a) (hb : Keeps W s0 b) :
    Keeps W s0 (bif c then a else b) := by cases c <;> assumption

theorem Keeps.each {α : Type} {l : List α} {f : State → α → State} (h : Keeps W s0 x)
    (hf : ∀ y a, Keeps W s0 y → Keeps W s0 (f y a)) : Keeps W s0 (x.each l f) := by
  unfold State.each
  induction l generalizing x with
  | nil => exact h
  | cons a l ih => exact ih (hf x a h)

theorem Keeps.foldl {α : Type} {l : List α} {f : State → α → State} (h : Keeps W s0 x)
    (hf : ∀ y a, Keeps W s0 y → Keeps W s0 (f y a)) : Keeps W s0 (l.foldl f x) := Keeps.each h hf

theorem Keeps.when {c : Bool} {f : State → State} (h : Keeps W s0 x) (hf : ∀ y, Keeps W s0 y → Keeps W s0 (f y)) :
    Keeps W s0 (x.when c f) := by
  unfold State.when
  split
  · exact hf x h
  · exact h

/-! ## The plainest operations -/

theorem State.wrWord_keeps {a : Nat} {w : Word} (ha : W.any = true) (h : Keeps W s0 x) : Keeps W s0 (x.wrWord a w) :=
  h.trans ⟨fun hn => absurd ha (by simp [hn]), fun p _ => by cases p <;> rfl, rfl, Store.wf_write 0 _ _ _, id, Nat.le_refl _⟩

theorem State.wr_keeps_any {f : Fld} {v : Nat} (ha : W.any = true) (h : Keeps W s0 x) : Keeps W s0 (x.wr f v) :=
  h.trans ⟨fun hn => absurd ha (by simp [hn]), fun p _ => by cases p <;> rfl, rfl, Store.wf_write 0 _ _ _, id, Nat.le_refl _⟩

theorem State.wr_elem_keeps {f : Fld} {n v : Nat} (hf : f ∈ W.regs) (h : Keeps W s0 x) : Keeps W s0 (x.wr (f.elem n) v) :=
  h.trans ⟨fun _ a i hc => State.bit_wr x (f.elem n) v a i fun hh => hc f hf (by
      obtain ⟨h1, h2, h3⟩ := hh
      simp only [Fld.elem] at h1 h2 h3
      by_cases hn : n < f.count
      · rw [if_pos hn] at h3
        exact ⟨n, hn, h1, h2, h3⟩
      · rw [if_neg hn] at h3
        omega),
    fun p _ => by cases p <;> rfl, rfl, Store.wf_write 0 _ _ _, id, Nat.le_refl _⟩

theorem Fld.elem_zero_eq (f : Fld) (h : 0 < f.count) : (f.elem 0).addr = f.addr ∧ (f.elem 0).lo = f.lo ∧ (f.elem 0).width = f.width := by
  simp [Fld.elem, h]

theorem State.wr_keeps {f : Fld} {v : Nat} (hc : Nat.blt 0 f.count = true) (hf : f ∈ W.regs) (h : Keeps W s0 x) :
    Keeps W s0 (x.wr f v) :=
  h.trans ⟨fun _ a i hn => State.bit_wr x f v a i fun hh => hn f hf
      ⟨0, Nat.le_of_ble_eq_true hc, by simpa using hh.1, hh.2⟩,
    fun p _ => by cases p <;> rfl, rfl, Store.wf_write 0 _ _ _, id, Nat.le_refl _⟩

/-- A record update of the state that leaves the register file, memory and the queue. -/
theorem Keeps.upd
    {a_regs a_mem a_poison a_loHalf a_hiLatch a_resp a_free a_boot a_recorder a_flt a_rst a_ang a_sim a_cs a_rings a_bwk
     a_srv a_ce a_spn a_ast a_pre a_cal a_age a_chan a_ldp a_oce a_cry a_bcm a_memc a_hst a_jnl a_change a_gated
     a_shadow a_pwr a_thm a_dom a_upd a_pending}
    (hr : a_regs = x.regs) (hq : a_pending = x.pending) (hm : a_mem = x.mem) (hf : x.free ≤ a_free) (h : Keeps W s0 x)
    (hp : ∀ p, p ∉ W.parts → p.same x (State.mk a_regs a_mem a_poison a_loHalf a_hiLatch a_resp a_free a_boot a_recorder a_flt a_rst a_ang a_sim a_cs a_rings
      a_bwk a_srv a_ce a_spn a_ast a_pre a_cal a_age a_chan a_ldp a_oce a_cry a_bcm a_memc a_hst a_jnl a_change a_gated
      a_shadow a_pwr a_thm a_dom a_upd a_pending)) :
    Keeps W s0 (State.mk a_regs a_mem a_poison a_loHalf a_hiLatch a_resp a_free a_boot a_recorder a_flt a_rst a_ang a_sim a_cs a_rings
      a_bwk a_srv a_ce a_spn a_ast a_pre a_cal a_age a_chan a_ldp a_oce a_cry a_bcm a_memc a_hst a_jnl a_change a_gated
      a_shadow a_pwr a_thm a_dom a_upd a_pending) :=
  h.trans ⟨fun _ a i _ => by simp [State.rdWord, hr], hp, hq, fun hc => by simpa [hr] using hc,
    fun hc => by simpa [hm] using hc, hf⟩

theorem Keeps.set_poison {v : List Nat} (hp : Part.poison ∈ W.parts) (h : Keeps W s0 x) : Keeps W s0 { x with poison := v } :=
  h.trans ⟨fun _ _ _ _ => rfl, fun p hn => by cases p <;> first | rfl | exact absurd hp hn, rfl, id, id, Nat.le_refl _⟩

theorem Keeps.set_loHalf {v : Store (Option Word)} (hp : Part.loHalf ∈ W.parts) (h : Keeps W s0 x) : Keeps W s0 { x with loHalf := v } :=
  h.trans ⟨fun _ _ _ _ => rfl, fun p hn => by cases p <;> first | rfl | exact absurd hp hn, rfl, id, id, Nat.le_refl _⟩

theorem Keeps.set_hiLatch {v : Store (Option Word)} (hp : Part.hiLatch ∈ W.parts) (h : Keeps W s0 x) : Keeps W s0 { x with hiLatch := v } :=
  h.trans ⟨fun _ _ _ _ => rfl, fun p hn => by cases p <;> first | rfl | exact absurd hp hn, rfl, id, id, Nat.le_refl _⟩

theorem Keeps.set_resp {v : BusResp} (hp : Part.resp ∈ W.parts) (h : Keeps W s0 x) : Keeps W s0 { x with resp := v } :=
  h.trans ⟨fun _ _ _ _ => rfl, fun p hn => by cases p <;> first | rfl | exact absurd hp hn, rfl, id, id, Nat.le_refl _⟩

theorem Keeps.set_boot {v : BootPhase} (hp : Part.boot ∈ W.parts) (h : Keeps W s0 x) : Keeps W s0 { x with boot := v } :=
  h.trans ⟨fun _ _ _ _ => rfl, fun p hn => by cases p <;> first | rfl | exact absurd hp hn, rfl, id, id, Nat.le_refl _⟩

theorem Keeps.set_recorder {v : Recorder} (hp : Part.recorder ∈ W.parts) (h : Keeps W s0 x) : Keeps W s0 { x with recorder := v } :=
  h.trans ⟨fun _ _ _ _ => rfl, fun p hn => by cases p <;> first | rfl | exact absurd hp hn, rfl, id, id, Nat.le_refl _⟩

theorem Keeps.set_flt {v : Flt} (hp : Part.flt ∈ W.parts) (h : Keeps W s0 x) : Keeps W s0 { x with flt := v } :=
  h.trans ⟨fun _ _ _ _ => rfl, fun p hn => by cases p <;> first | rfl | exact absurd hp hn, rfl, id, id, Nat.le_refl _⟩

theorem Keeps.set_rst {v : Rst} (hp : Part.rst ∈ W.parts) (h : Keeps W s0 x) : Keeps W s0 { x with rst := v } :=
  h.trans ⟨fun _ _ _ _ => rfl, fun p hn => by cases p <;> first | rfl | exact absurd hp hn, rfl, id, id, Nat.le_refl _⟩

theorem Keeps.set_ang {v : Ang} (hp : Part.ang ∈ W.parts) (h : Keeps W s0 x) : Keeps W s0 { x with ang := v } :=
  h.trans ⟨fun _ _ _ _ => rfl, fun p hn => by cases p <;> first | rfl | exact absurd hp hn, rfl, id, id, Nat.le_refl _⟩

theorem Keeps.set_sim {v : Sim} (hp : Part.sim ∈ W.parts) (h : Keeps W s0 x) : Keeps W s0 { x with sim := v } :=
  h.trans ⟨fun _ _ _ _ => rfl, fun p hn => by cases p <;> first | rfl | exact absurd hp hn, rfl, id, id, Nat.le_refl _⟩

theorem Keeps.set_cs {v : ControlStores} (hp : Part.cs ∈ W.parts) (h : Keeps W s0 x) : Keeps W s0 { x with cs := v } :=
  h.trans ⟨fun _ _ _ _ => rfl, fun p hn => by cases p <;> first | rfl | exact absurd hp hn, rfl, id, id, Nat.le_refl _⟩

theorem Keeps.set_rings {v : List Ring} (hp : Part.rings ∈ W.parts) (h : Keeps W s0 x) : Keeps W s0 { x with rings := v } :=
  h.trans ⟨fun _ _ _ _ => rfl, fun p hn => by cases p <;> first | rfl | exact absurd hp hn, rfl, id, id, Nat.le_refl _⟩

theorem Keeps.set_bwk {v : Pair Bwk} (hp : Part.bwk ∈ W.parts) (h : Keeps W s0 x) : Keeps W s0 { x with bwk := v } :=
  h.trans ⟨fun _ _ _ _ => rfl, fun p hn => by cases p <;> first | rfl | exact absurd hp hn, rfl, id, id, Nat.le_refl _⟩

theorem Keeps.set_srv {v : Pair Srv} (hp : Part.srv ∈ W.parts) (h : Keeps W s0 x) : Keeps W s0 { x with srv := v } :=
  h.trans ⟨fun _ _ _ _ => rfl, fun p hn => by cases p <;> first | rfl | exact absurd hp hn, rfl, id, id, Nat.le_refl _⟩

theorem Keeps.set_ce {v : Engines} (hp : Part.ce ∈ W.parts) (h : Keeps W s0 x) : Keeps W s0 { x with ce := v } :=
  h.trans ⟨fun _ _ _ _ => rfl, fun p hn => by cases p <;> first | rfl | exact absurd hp hn, rfl, id, id, Nat.le_refl _⟩

theorem Keeps.set_spn {v : Spn} (hp : Part.spn ∈ W.parts) (h : Keeps W s0 x) : Keeps W s0 { x with spn := v } :=
  h.trans ⟨fun _ _ _ _ => rfl, fun p hn => by cases p <;> first | rfl | exact absurd hp hn, rfl, id, id, Nat.le_refl _⟩

theorem Keeps.set_ast {v : Pair Ast} (hp : Part.ast ∈ W.parts) (h : Keeps W s0 x) : Keeps W s0 { x with ast := v } :=
  h.trans ⟨fun _ _ _ _ => rfl, fun p hn => by cases p <;> first | rfl | exact absurd hp hn, rfl, id, id, Nat.le_refl _⟩

theorem Keeps.set_pre {v : Pre} (hp : Part.pre ∈ W.parts) (h : Keeps W s0 x) : Keeps W s0 { x with pre := v } :=
  h.trans ⟨fun _ _ _ _ => rfl, fun p hn => by cases p <;> first | rfl | exact absurd hp hn, rfl, id, id, Nat.le_refl _⟩

theorem Keeps.set_cal {v : Cal} (hp : Part.cal ∈ W.parts) (h : Keeps W s0 x) : Keeps W s0 { x with cal := v } :=
  h.trans ⟨fun _ _ _ _ => rfl, fun p hn => by cases p <;> first | rfl | exact absurd hp hn, rfl, id, id, Nat.le_refl _⟩

theorem Keeps.set_age {v : Age} (hp : Part.age ∈ W.parts) (h : Keeps W s0 x) : Keeps W s0 { x with age := v } :=
  h.trans ⟨fun _ _ _ _ => rfl, fun p hn => by cases p <;> first | rfl | exact absurd hp hn, rfl, id, id, Nat.le_refl _⟩

theorem Keeps.set_chan {v : Pair Chan} (hp : Part.chan ∈ W.parts) (h : Keeps W s0 x) : Keeps W s0 { x with chan := v } :=
  h.trans ⟨fun _ _ _ _ => rfl, fun p hn => by cases p <;> first | rfl | exact absurd hp hn, rfl, id, id, Nat.le_refl _⟩

theorem Keeps.set_ldp {v : Ldp} (hp : Part.ldp ∈ W.parts) (h : Keeps W s0 x) : Keeps W s0 { x with ldp := v } :=
  h.trans ⟨fun _ _ _ _ => rfl, fun p hn => by cases p <;> first | rfl | exact absurd hp hn, rfl, id, id, Nat.le_refl _⟩

theorem Keeps.set_oce {v : Oce} (hp : Part.oce ∈ W.parts) (h : Keeps W s0 x) : Keeps W s0 { x with oce := v } :=
  h.trans ⟨fun _ _ _ _ => rfl, fun p hn => by cases p <;> first | rfl | exact absurd hp hn, rfl, id, id, Nat.le_refl _⟩

theorem Keeps.set_cry {v : Cry} (hp : Part.cry ∈ W.parts) (h : Keeps W s0 x) : Keeps W s0 { x with cry := v } :=
  h.trans ⟨fun _ _ _ _ => rfl, fun p hn => by cases p <;> first | rfl | exact absurd hp hn, rfl, id, id, Nat.le_refl _⟩

theorem Keeps.set_bcm {v : Bcm} (hp : Part.bcm ∈ W.parts) (h : Keeps W s0 x) : Keeps W s0 { x with bcm := v } :=
  h.trans ⟨fun _ _ _ _ => rfl, fun p hn => by cases p <;> first | rfl | exact absurd hp hn, rfl, id, id, Nat.le_refl _⟩

theorem Keeps.set_memc {v : Mem} (hp : Part.memc ∈ W.parts) (h : Keeps W s0 x) : Keeps W s0 { x with memc := v } :=
  h.trans ⟨fun _ _ _ _ => rfl, fun p hn => by cases p <;> first | rfl | exact absurd hp hn, rfl, id, id, Nat.le_refl _⟩

theorem Keeps.set_hst {v : Hst} (hp : Part.hst ∈ W.parts) (h : Keeps W s0 x) : Keeps W s0 { x with hst := v } :=
  h.trans ⟨fun _ _ _ _ => rfl, fun p hn => by cases p <;> first | rfl | exact absurd hp hn, rfl, id, id, Nat.le_refl _⟩

theorem Keeps.set_jnl {v : Jnl} (hp : Part.jnl ∈ W.parts) (h : Keeps W s0 x) : Keeps W s0 { x with jnl := v } :=
  h.trans ⟨fun _ _ _ _ => rfl, fun p hn => by cases p <;> first | rfl | exact absurd hp hn, rfl, id, id, Nat.le_refl _⟩

theorem Keeps.set_change {v : Option ModeChange} (hp : Part.change ∈ W.parts) (h : Keeps W s0 x) : Keeps W s0 { x with change := v } :=
  h.trans ⟨fun _ _ _ _ => rfl, fun p hn => by cases p <;> first | rfl | exact absurd hp hn, rfl, id, id, Nat.le_refl _⟩

theorem Keeps.set_gated {v : List Nat} (hp : Part.gated ∈ W.parts) (h : Keeps W s0 x) : Keeps W s0 { x with gated := v } :=
  h.trans ⟨fun _ _ _ _ => rfl, fun p hn => by cases p <;> first | rfl | exact absurd hp hn, rfl, id, id, Nat.le_refl _⟩

theorem Keeps.set_shadow {v : Store Word} (hp : Part.shadow ∈ W.parts) (h : Keeps W s0 x) : Keeps W s0 { x with shadow := v } :=
  h.trans ⟨fun _ _ _ _ => rfl, fun p hn => by cases p <;> first | rfl | exact absurd hp hn, rfl, id, id, Nat.le_refl _⟩

theorem Keeps.set_pwr {v : Pwr} (hp : Part.pwr ∈ W.parts) (h : Keeps W s0 x) : Keeps W s0 { x with pwr := v } :=
  h.trans ⟨fun _ _ _ _ => rfl, fun p hn => by cases p <;> first | rfl | exact absurd hp hn, rfl, id, id, Nat.le_refl _⟩

theorem Keeps.set_thm {v : Thm} (hp : Part.thm ∈ W.parts) (h : Keeps W s0 x) : Keeps W s0 { x with thm := v } :=
  h.trans ⟨fun _ _ _ _ => rfl, fun p hn => by cases p <;> first | rfl | exact absurd hp hn, rfl, id, id, Nat.le_refl _⟩

theorem Keeps.set_dom {v : Dom} (hp : Part.dom ∈ W.parts) (h : Keeps W s0 x) : Keeps W s0 { x with dom := v } :=
  h.trans ⟨fun _ _ _ _ => rfl, fun p hn => by cases p <;> first | rfl | exact absurd hp hn, rfl, id, id, Nat.le_refl _⟩

theorem Keeps.set_upd {v : Upd} (hp : Part.upd ∈ W.parts) (h : Keeps W s0 x) : Keeps W s0 { x with upd := v } :=
  h.trans ⟨fun _ _ _ _ => rfl, fun p hn => by cases p <;> first | rfl | exact absurd hp hn, rfl, id, id, Nat.le_refl _⟩

theorem State.set_keeps {f : Fld} (hc : Nat.blt 0 f.count = true) (hf : f ∈ W.regs) (h : Keeps W s0 x) :
    Keeps W s0 (x.set f) := State.wr_keeps hc hf h

theorem State.set_elem_keeps {f : Fld} {n : Nat} (hf : f ∈ W.regs) (h : Keeps W s0 x) : Keeps W s0 (x.set (f.elem n)) :=
  State.wr_elem_keeps hf h

theorem State.clr_keeps {f : Fld} (hc : Nat.blt 0 f.count = true) (hf : f ∈ W.regs) (h : Keeps W s0 x) :
    Keeps W s0 (x.clr f) := State.wr_keeps hc hf h

theorem State.clr_elem_keeps {f : Fld} {n : Nat} (hf : f ∈ W.regs) (h : Keeps W s0 x) : Keeps W s0 (x.clr (f.elem n)) :=
  State.wr_elem_keeps hf h

theorem State.addSat_keeps {f : Fld} {v : Nat} (hc : Nat.blt 0 f.count = true) (hf : f ∈ W.regs) (h : Keeps W s0 x) :
    Keeps W s0 (x.addSat f v) := State.wr_keeps hc hf h

theorem State.addSat_elem_keeps {f : Fld} {n v : Nat} (hf : f ∈ W.regs) (h : Keeps W s0 x) :
    Keeps W s0 (x.addSat (f.elem n) v) := State.wr_elem_keeps hf h

theorem State.bump_keeps {f : Fld} (hc : Nat.blt 0 f.count = true) (hf : f ∈ W.regs) (h : Keeps W s0 x) :
    Keeps W s0 (x.bump f) := State.wr_keeps hc hf h

theorem State.bump_elem_keeps {f : Fld} {n : Nat} (hf : f ∈ W.regs) (h : Keeps W s0 x) : Keeps W s0 (x.bump (f.elem n)) :=
  State.wr_elem_keeps hf h

theorem State.addWrap_keeps {f : Fld} {v : Nat} (hc : Nat.blt 0 f.count = true) (hf : f ∈ W.regs) (h : Keeps W s0 x) :
    Keeps W s0 (x.addWrap f v) := State.wr_keeps hc hf h

theorem State.addWrap_elem_keeps {f : Fld} {n v : Nat} (hf : f ∈ W.regs) (h : Keeps W s0 x) :
    Keeps W s0 (x.addWrap (f.elem n) v) := State.wr_elem_keeps hf h

theorem State.wrPair_keeps {f g : Fld} {v : Nat} (hc : Nat.blt 0 f.count = true) (hf : f ∈ W.regs)
    (hd : Nat.blt 0 g.count = true) (hg : g ∈ W.regs) (h : Keeps W s0 x) : Keeps W s0 (x.wrPair f g v) :=
  State.wr_keeps hd hg (State.wr_keeps hc hf h)

theorem State.wrPair_elem_keeps {f g : Fld} {n m v : Nat} (hf : f ∈ W.regs) (hg : g ∈ W.regs) (h : Keeps W s0 x) :
    Keeps W s0 (x.wrPair (f.elem n) (g.elem m) v) := State.wr_elem_keeps hg (State.wr_elem_keeps hf h)

theorem State.takeFree_keeps (hp : Part.free ∈ W.parts) (h : Keeps W s0 x) : Keeps W s0 x.takeFree.2 :=
  h.trans ⟨fun _ _ _ _ => rfl, fun p hn => by cases p <;> first | rfl | exact absurd hp hn, rfl, id, id, Nat.le_succ _⟩

theorem State.set_keeps_any {f : Fld} (ha : W.any = true) (h : Keeps W s0 x) : Keeps W s0 (x.set f) := State.wr_keeps_any ha h
theorem State.clr_keeps_any {f : Fld} (ha : W.any = true) (h : Keeps W s0 x) : Keeps W s0 (x.clr f) := State.wr_keeps_any ha h
theorem State.bump_keeps_any {f : Fld} (ha : W.any = true) (h : Keeps W s0 x) : Keeps W s0 (x.bump f) := State.wr_keeps_any ha h

/-- A write of a field that is found in a list of rows, as a row or as an instance of one. -/
theorem State.wr_keeps_in {f : Fld} {v : Nat} {l : List Fld} (hl : ∀ g ∈ l, g ∈ W.regs)
    (hc : (l.any fun g => (f.eqb g && Nat.blt 0 g.count) || (List.range g.count).any fun n => f.eqb (g.elem n)) = true)
    (h : Keeps W s0 x) : Keeps W s0 (x.wr f v) := by
  obtain ⟨g, hg, hf⟩ := List.any_eq_true.mp hc
  simp only [Bool.or_eq_true, Bool.and_eq_true, List.any_eq_true] at hf
  rcases hf with ⟨he, hn⟩ | ⟨n, _, he⟩
  · exact State.wr_keeps (Fld.eq_of_eqb he ▸ hn) (Fld.eq_of_eqb he ▸ hl g hg) h
  · rw [Fld.eq_of_eqb he]
    exact State.wr_elem_keeps (hl g hg) h

theorem Keeps.same_id (h : Keeps W s0 x) : Keeps W s0 (id x) := h

/-! ## Reading a field after a command that does not write it -/

/-- The footprint writes no bit of a field (a field of one instance). -/
def Foot.misses (W : Foot) (f : Fld) : Bool :=
  !W.any && W.regs.all fun g => (List.range g.count).all fun k =>
    !Nat.beq (g.addr + k * g.stride) f.addr || Nat.ble (g.lo + g.width) f.lo || Nat.ble (f.lo + f.width) g.lo

/-- A field that the footprint misses reads as before. -/
theorem Keeps.rd {W : Foot} {s t : State} {f : Fld} (h : Keeps W s t) (hm : W.misses f = true) : t.rd f = s.rd f := by
  simp only [Foot.misses, Bool.and_eq_true, Bool.not_eq_true', List.all_eq_true, List.mem_range, Bool.or_eq_true,
    Nat.ble_eq] at hm
  obtain ⟨ha, hr⟩ := hm
  unfold State.rd Store.field
  apply Nat.eq_of_testBit_eq
  intro j
  rw [testBit_fieldOf, testBit_fieldOf]
  by_cases hj : j < f.width
  · have := h.regs ha f.addr (f.lo + j) fun g hg hc => by
      obtain ⟨k, hk, e, h1, h2⟩ := hc
      rcases hr g hg k hk with (h3 | h3) | h3
      · rw [← e] at h3
        simp at h3
      · omega
      · omega
    unfold State.rdWord at this
    rw [this]
  · simp [hj]

/-- A one-bit field that the footprint misses reads as before. -/
theorem Keeps.flag {W : Foot} {s t : State} {f : Fld} (h : Keeps W s t) (hm : W.misses f = true) : t.flag f = s.flag f := by
  rw [State.flag, State.flag, h.rd hm]

/-! ## Pairs, options and outcomes -/

theorem Keeps.snd_ite {α : Type} {c : Prop} [Decidable c] {a b : α × State} (ha : Keeps W s0 a.2) (hb : Keeps W s0 b.2) :
    Keeps W s0 (if c then a else b).2 := by split <;> assumption

theorem Keeps.snd2_ite {α β : Type} {c : Prop} [Decidable c] {a b : α × β × State} (ha : Keeps W s0 a.2.2)
    (hb : Keeps W s0 b.2.2) : Keeps W s0 (if c then a else b).2.2 := by split <;> assumption

theorem Keeps.snd3_ite {α β γ : Type} {c : Prop} [Decidable c] {a b : α × β × γ × State} (ha : Keeps W s0 a.2.2.2)
    (hb : Keeps W s0 b.2.2.2) : Keeps W s0 (if c then a else b).2.2.2 := by split <;> assumption

theorem Keeps.of_snd {α : Type} {p : α × State} {a : α} {y : State} (e : p = (a, y)) (h : Keeps W s0 p.2) : Keeps W s0 y := by
  rw [e] at h; exact h

theorem Keeps.of_snd2 {α β : Type} {p : α × β × State} {a : α} {b : β} {y : State} (e : p = (a, b, y))
    (h : Keeps W s0 p.2.2) : Keeps W s0 y := by
  rw [e] at h; exact h

theorem Keeps.of_snd3 {α β γ : Type} {p : α × β × γ × State} {a : α} {b : β} {c : γ} {y : State} (e : p = (a, b, c, y))
    (h : Keeps W s0 p.2.2.2) : Keeps W s0 y := by
  rw [e] at h; exact h

/-- The next state of an outcome, if there is one, is reached within the footprint. -/
def KeepsOut (W : Foot) (s0 : State) (o : Host.Outcome State Fault Refusal) : Prop := ∀ y, o = .next y → Keeps W s0 y

theorem KeepsOut.next {y : State} (h : Keeps W s0 y) : KeepsOut W s0 (.next y) := by
  intro z hz
  cases hz
  exact h

theorem KeepsOut.ite {c : Prop} [Decidable c] {a b : Host.Outcome State Fault Refusal} (ha : KeepsOut W s0 a)
    (hb : KeepsOut W s0 b) : KeepsOut W s0 (if c then a else b) := by split <;> assumption

end

end Sys2Proof.Machine
end

