-- ==== Sys2Proof/Laws/FootOps.lean ====
section
/-!
SUPPORT. Footprints of the operations of Machine/Ops.lean: what each may change, and that it changes nothing else.
-/

namespace Sys2Proof.Machine

set_option Elab.async false

/-- What `State.setRegs` may change. -/
def setRegsFoot : Foot :=
  ⟨[], [], true⟩


/-- What `State.setPoison` may change. -/
def setPoisonFoot : Foot :=
  ⟨[], [.poison], false⟩

theorem State.setPoison_keeps {W : Foot} {s0 s : State} {v : List Nat} (hW : setPoisonFoot.Le W) (h : Keeps W s0 s) :
    Keeps W s0 (State.setPoison s v) := by
  unfold State.setPoison
  repeat' first
    | with_reducible assumption
    | with_reducible apply Keeps.set_poison
    | exact hW.part (by decide +kernel)

/-- What `State.setLoHalf` may change. -/
def setLoHalfFoot : Foot :=
  ⟨[], [.loHalf], false⟩

theorem State.setLoHalf_keeps {W : Foot} {s0 s : State} {v : Store (Option Word)} (hW : setLoHalfFoot.Le W) (h : Keeps W s0 s) :
    Keeps W s0 (State.setLoHalf s v) := by
  unfold State.setLoHalf
  repeat' first
    | with_reducible assumption
    | with_reducible apply Keeps.set_loHalf
    | exact hW.part (by decide +kernel)

/-- What `State.setHiLatch` may change. -/
def setHiLatchFoot : Foot :=
  ⟨[], [.hiLatch], false⟩

theorem State.setHiLatch_keeps {W : Foot} {s0 s : State} {v : Store (Option Word)} (hW : setHiLatchFoot.Le W) (h : Keeps W s0 s) :
    Keeps W s0 (State.setHiLatch s v) := by
  unfold State.setHiLatch
  repeat' first
    | with_reducible assumption
    | with_reducible apply Keeps.set_hiLatch
    | exact hW.part (by decide +kernel)

/-- What `State.setResp` may change. -/
def setRespFoot : Foot :=
  ⟨[], [.resp], false⟩

theorem State.setResp_keeps {W : Foot} {s0 s : State} {v : BusResp} (hW : setRespFoot.Le W) (h : Keeps W s0 s) :
    Keeps W s0 (State.setResp s v) := by
  unfold State.setResp
  repeat' first
    | with_reducible assumption
    | with_reducible apply Keeps.set_resp
    | exact hW.part (by decide +kernel)

/-- What `State.setBoot` may change. -/
def setBootFoot : Foot :=
  ⟨[], [.boot], false⟩

theorem State.setBoot_keeps {W : Foot} {s0 s : State} {v : BootPhase} (hW : setBootFoot.Le W) (h : Keeps W s0 s) :
    Keeps W s0 (State.setBoot s v) := by
  unfold State.setBoot
  repeat' first
    | with_reducible assumption
    | with_reducible apply Keeps.set_boot
    | exact hW.part (by decide +kernel)

/-- What `State.setRecorder` may change. -/
def setRecorderFoot : Foot :=
  ⟨[], [.recorder], false⟩

theorem State.setRecorder_keeps {W : Foot} {s0 s : State} {v : Recorder} (hW : setRecorderFoot.Le W) (h : Keeps W s0 s) :
    Keeps W s0 (State.setRecorder s v) := by
  unfold State.setRecorder
  repeat' first
    | with_reducible assumption
    | with_reducible apply Keeps.set_recorder
    | exact hW.part (by decide +kernel)

/-- What `State.setFlt` may change. -/
def setFltFoot : Foot :=
  ⟨[], [.flt], false⟩

theorem State.setFlt_keeps {W : Foot} {s0 s : State} {v : Flt} (hW : setFltFoot.Le W) (h : Keeps W s0 s) :
    Keeps W s0 (State.setFlt s v) := by
  unfold State.setFlt
  repeat' first
    | with_reducible assumption
    | with_reducible apply Keeps.set_flt
    | exact hW.part (by decide +kernel)

/-- What `State.setRst` may change. -/
def setRstFoot : Foot :=
  ⟨[], [.rst], false⟩

theorem State.setRst_keeps {W : Foot} {s0 s : State} {v : Rst} (hW : setRstFoot.Le W) (h : Keeps W s0 s) :
    Keeps W s0 (State.setRst s v) := by
  unfold State.setRst
  repeat' first
    | with_reducible assumption
    | with_reducible apply Keeps.set_rst
    | exact hW.part (by decide +kernel)

/-- What `State.setAng` may change. -/
def setAngFoot : Foot :=
  ⟨[], [.ang], false⟩

theorem State.setAng_keeps {W : Foot} {s0 s : State} {v : Ang} (hW : setAngFoot.Le W) (h : Keeps W s0 s) :
    Keeps W s0 (State.setAng s v) := by
  unfold State.setAng
  repeat' first
    | with_reducible assumption
    | with_reducible apply Keeps.set_ang
    | exact hW.part (by decide +kernel)

/-- What `State.setSim` may change. -/
def setSimFoot : Foot :=
  ⟨[], [.sim], false⟩

theorem State.setSim_keeps {W : Foot} {s0 s : State} {v : Sim} (hW : setSimFoot.Le W) (h : Keeps W s0 s) :
    Keeps W s0 (State.setSim s v) := by
  unfold State.setSim
  repeat' first
    | with_reducible assumption
    | with_reducible apply Keeps.set_sim
    | exact hW.part (by decide +kernel)

/-- What `State.setCs` may change. -/
def setCsFoot : Foot :=
  ⟨[], [.cs], false⟩

theorem State.setCs_keeps {W : Foot} {s0 s : State} {v : ControlStores} (hW : setCsFoot.Le W) (h : Keeps W s0 s) :
    Keeps W s0 (State.setCs s v) := by
  unfold State.setCs
  repeat' first
    | with_reducible assumption
    | with_reducible apply Keeps.set_cs
    | exact hW.part (by decide +kernel)

/-- What `State.setCe` may change. -/
def setCeFoot : Foot :=
  ⟨[], [.ce], false⟩

theorem State.setCe_keeps {W : Foot} {s0 s : State} {v : Engines} (hW : setCeFoot.Le W) (h : Keeps W s0 s) :
    Keeps W s0 (State.setCe s v) := by
  unfold State.setCe
  repeat' first
    | with_reducible assumption
    | with_reducible apply Keeps.set_ce
    | exact hW.part (by decide +kernel)

/-- What `State.setSpn` may change. -/
def setSpnFoot : Foot :=
  ⟨[], [.spn], false⟩

theorem State.setSpn_keeps {W : Foot} {s0 s : State} {v : Spn} (hW : setSpnFoot.Le W) (h : Keeps W s0 s) :
    Keeps W s0 (State.setSpn s v) := by
  unfold State.setSpn
  repeat' first
    | with_reducible assumption
    | with_reducible apply Keeps.set_spn
    | exact hW.part (by decide +kernel)

/-- What `State.setPre` may change. -/
def setPreFoot : Foot :=
  ⟨[], [.pre], false⟩

theorem State.setPre_keeps {W : Foot} {s0 s : State} {v : Pre} (hW : setPreFoot.Le W) (h : Keeps W s0 s) :
    Keeps W s0 (State.setPre s v) := by
  unfold State.setPre
  repeat' first
    | with_reducible assumption
    | with_reducible apply Keeps.set_pre
    | exact hW.part (by decide +kernel)

/-- What `State.setCal` may change. -/
def setCalFoot : Foot :=
  ⟨[], [.cal], false⟩

theorem State.setCal_keeps {W : Foot} {s0 s : State} {v : Cal} (hW : setCalFoot.Le W) (h : Keeps W s0 s) :
    Keeps W s0 (State.setCal s v) := by
  unfold State.setCal
  repeat' first
    | with_reducible assumption
    | with_reducible apply Keeps.set_cal
    | exact hW.part (by decide +kernel)

/-- What `State.setAge` may change. -/
def setAgeFoot : Foot :=
  ⟨[], [.age], false⟩

theorem State.setAge_keeps {W : Foot} {s0 s : State} {v : Age} (hW : setAgeFoot.Le W) (h : Keeps W s0 s) :
    Keeps W s0 (State.setAge s v) := by
  unfold State.setAge
  repeat' first
    | with_reducible assumption
    | with_reducible apply Keeps.set_age
    | exact hW.part (by decide +kernel)

/-- What `State.setLdp` may change. -/
def setLdpFoot : Foot :=
  ⟨[], [.ldp], false⟩

theorem State.setLdp_keeps {W : Foot} {s0 s : State} {v : Ldp} (hW : setLdpFoot.Le W) (h : Keeps W s0 s) :
    Keeps W s0 (State.setLdp s v) := by
  unfold State.setLdp
  repeat' first
    | with_reducible assumption
    | with_reducible apply Keeps.set_ldp
    | exact hW.part (by decide +kernel)

/-- What `State.setOce` may change. -/
def setOceFoot : Foot :=
  ⟨[], [.oce], false⟩

theorem State.setOce_keeps {W : Foot} {s0 s : State} {v : Oce} (hW : setOceFoot.Le W) (h : Keeps W s0 s) :
    Keeps W s0 (State.setOce s v) := by
  unfold State.setOce
  repeat' first
    | with_reducible assumption
    | with_reducible apply Keeps.set_oce
    | exact hW.part (by decide +kernel)

/-- What `State.setCry` may change. -/
def setCryFoot : Foot :=
  ⟨[], [.cry], false⟩

theorem State.setCry_keeps {W : Foot} {s0 s : State} {v : Cry} (hW : setCryFoot.Le W) (h : Keeps W s0 s) :
    Keeps W s0 (State.setCry s v) := by
  unfold State.setCry
  repeat' first
    | with_reducible assumption
    | with_reducible apply Keeps.set_cry
    | exact hW.part (by decide +kernel)

/-- What `State.setBcm` may change. -/
def setBcmFoot : Foot :=
  ⟨[], [.bcm], false⟩

theorem State.setBcm_keeps {W : Foot} {s0 s : State} {v : Bcm} (hW : setBcmFoot.Le W) (h : Keeps W s0 s) :
    Keeps W s0 (State.setBcm s v) := by
  unfold State.setBcm
  repeat' first
    | with_reducible assumption
    | with_reducible apply Keeps.set_bcm
    | exact hW.part (by decide +kernel)

/-- What `State.setMemc` may change. -/
def setMemcFoot : Foot :=
  ⟨[], [.memc], false⟩

theorem State.setMemc_keeps {W : Foot} {s0 s : State} {v : Mem} (hW : setMemcFoot.Le W) (h : Keeps W s0 s) :
    Keeps W s0 (State.setMemc s v) := by
  unfold State.setMemc
  repeat' first
    | with_reducible assumption
    | with_reducible apply Keeps.set_memc
    | exact hW.part (by decide +kernel)

/-- What `State.setHst` may change. -/
def setHstFoot : Foot :=
  ⟨[], [.hst], false⟩

theorem State.setHst_keeps {W : Foot} {s0 s : State} {v : Hst} (hW : setHstFoot.Le W) (h : Keeps W s0 s) :
    Keeps W s0 (State.setHst s v) := by
  unfold State.setHst
  repeat' first
    | with_reducible assumption
    | with_reducible apply Keeps.set_hst
    | exact hW.part (by decide +kernel)

/-- What `State.setJnl` may change. -/
def setJnlFoot : Foot :=
  ⟨[], [.jnl], false⟩

theorem State.setJnl_keeps {W : Foot} {s0 s : State} {v : Jnl} (hW : setJnlFoot.Le W) (h : Keeps W s0 s) :
    Keeps W s0 (State.setJnl s v) := by
  unfold State.setJnl
  repeat' first
    | with_reducible assumption
    | with_reducible apply Keeps.set_jnl
    | exact hW.part (by decide +kernel)

/-- What `State.setChange` may change. -/
def setChangeFoot : Foot :=
  ⟨[], [.change], false⟩

theorem State.setChange_keeps {W : Foot} {s0 s : State} {v : Option ModeChange} (hW : setChangeFoot.Le W) (h : Keeps W s0 s) :
    Keeps W s0 (State.setChange s v) := by
  unfold State.setChange
  repeat' first
    | with_reducible assumption
    | with_reducible apply Keeps.set_change
    | exact hW.part (by decide +kernel)

/-- What `State.setGated` may change. -/
def setGatedFoot : Foot :=
  ⟨[], [.gated], false⟩

theorem State.setGated_keeps {W : Foot} {s0 s : State} {v : List Nat} (hW : setGatedFoot.Le W) (h : Keeps W s0 s) :
    Keeps W s0 (State.setGated s v) := by
  unfold State.setGated
  repeat' first
    | with_reducible assumption
    | with_reducible apply Keeps.set_gated
    | exact hW.part (by decide +kernel)

/-- What `State.setShadow` may change. -/
def setShadowFoot : Foot :=
  ⟨[], [.shadow], false⟩

theorem State.setShadow_keeps {W : Foot} {s0 s : State} {v : Store Word} (hW : setShadowFoot.Le W) (h : Keeps W s0 s) :
    Keeps W s0 (State.setShadow s v) := by
  unfold State.setShadow
  repeat' first
    | with_reducible assumption
    | with_reducible apply Keeps.set_shadow
    | exact hW.part (by decide +kernel)

/-- What `State.setPwr` may change. -/
def setPwrFoot : Foot :=
  ⟨[], [.pwr], false⟩

theorem State.setPwr_keeps {W : Foot} {s0 s : State} {v : Pwr} (hW : setPwrFoot.Le W) (h : Keeps W s0 s) :
    Keeps W s0 (State.setPwr s v) := by
  unfold State.setPwr
  repeat' first
    | with_reducible assumption
    | with_reducible apply Keeps.set_pwr
    | exact hW.part (by decide +kernel)

/-- What `State.setThm` may change. -/
def setThmFoot : Foot :=
  ⟨[], [.thm], false⟩

theorem State.setThm_keeps {W : Foot} {s0 s : State} {v : Thm} (hW : setThmFoot.Le W) (h : Keeps W s0 s) :
    Keeps W s0 (State.setThm s v) := by
  unfold State.setThm
  repeat' first
    | with_reducible assumption
    | with_reducible apply Keeps.set_thm
    | exact hW.part (by decide +kernel)

/-- What `State.setDom` may change. -/
def setDomFoot : Foot :=
  ⟨[], [.dom], false⟩

theorem State.setDom_keeps {W : Foot} {s0 s : State} {v : Dom} (hW : setDomFoot.Le W) (h : Keeps W s0 s) :
    Keeps W s0 (State.setDom s v) := by
  unfold State.setDom
  repeat' first
    | with_reducible assumption
    | with_reducible apply Keeps.set_dom
    | exact hW.part (by decide +kernel)

/-- What `State.setUpd` may change. -/
def setUpdFoot : Foot :=
  ⟨[], [.upd], false⟩

theorem State.setUpd_keeps {W : Foot} {s0 s : State} {v : Upd} (hW : setUpdFoot.Le W) (h : Keeps W s0 s) :
    Keeps W s0 (State.setUpd s v) := by
  unfold State.setUpd
  repeat' first
    | with_reducible assumption
    | with_reducible apply Keeps.set_upd
    | exact hW.part (by decide +kernel)

/-- What `State.setBwk` may change. -/
def setBwkFoot : Foot :=
  ⟨[], [.bwk], false⟩

theorem State.setBwk_keeps {W : Foot} {s0 s : State} {n : Nat} {v : Bwk} (hW : setBwkFoot.Le W) (h : Keeps W s0 s) :
    Keeps W s0 (State.setBwk s n v) := by
  unfold State.setBwk
  repeat' first
    | with_reducible assumption
    | with_reducible apply Keeps.set_bwk
    | exact hW.part (by decide +kernel)

/-- What `State.setSrv` may change. -/
def setSrvFoot : Foot :=
  ⟨[], [.srv], false⟩

theorem State.setSrv_keeps {W : Foot} {s0 s : State} {n : Nat} {v : Srv} (hW : setSrvFoot.Le W) (h : Keeps W s0 s) :
    Keeps W s0 (State.setSrv s n v) := by
  unfold State.setSrv
  repeat' first
    | with_reducible assumption
    | with_reducible apply Keeps.set_srv
    | exact hW.part (by decide +kernel)

/-- What `State.setAst` may change. -/
def setAstFoot : Foot :=
  ⟨[], [.ast], false⟩

theorem State.setAst_keeps {W : Foot} {s0 s : State} {n : Nat} {v : Ast} (hW : setAstFoot.Le W) (h : Keeps W s0 s) :
    Keeps W s0 (State.setAst s n v) := by
  unfold State.setAst
  repeat' first
    | with_reducible assumption
    | with_reducible apply Keeps.set_ast
    | exact hW.part (by decide +kernel)

/-- What `State.setChan` may change. -/
def setChanFoot : Foot :=
  ⟨[], [.chan], false⟩

theorem State.setChan_keeps {W : Foot} {s0 s : State} {n : Nat} {v : Chan} (hW : setChanFoot.Le W) (h : Keeps W s0 s) :
    Keeps W s0 (State.setChan s n v) := by
  unfold State.setChan
  repeat' first
    | with_reducible assumption
    | with_reducible apply Keeps.set_chan
    | exact hW.part (by decide +kernel)

/-- What `checkWrite` may change. -/
def checkWriteFoot : Foot :=
  ⟨[Reg.memCounts2PoisonWr, Reg.memInjectArm, Reg.memIrqStatusPoison], [.poison, .memc], false⟩

theorem checkWrite_keeps {W : Foot} {s0 s : State} {a : Nat} {n : Nat} {base : Nat} (hW : checkWriteFoot.Le W) (h : Keeps W s0 s) :
    Keeps W s0 (checkWrite s a n base) := by
  unfold checkWrite
  repeat' first
    | with_reducible assumption
    | with_reducible apply State.bump_keeps
    | with_reducible apply State.setPoison_keeps
    | with_reducible apply State.setMemc_keeps
    | with_reducible apply State.set_keeps
    | with_reducible apply State.clr_keeps
    | with_reducible apply Keeps.ite
    | exact hW.fld (by decide +kernel)
    | exact hW.trans (Foot.le_of (by decide +kernel))
    | exact Eq.refl true

/-- What `State.store` may change. -/
def storeFoot : Foot :=
  .union [outcomeAtFrame]

theorem State.store_keeps {W : Foot} {s0 s : State} {a : Nat} {bs : List Byte} (hW : storeFoot.Le W) (h : Keeps W s0 s) :
    Keeps W s0 (State.store s a bs) := by
  have h1 : Keeps W s0 (s.each (memWords a bs.length) fun s b => checkWrite s a bs.length b) :=
    Keeps.each h fun y b hy => checkWrite_keeps (hW.trans (Foot.le_of (by decide +kernel))) hy
  refine h1.trans ⟨fun _ _ _ _ => rfl, fun p hp => ?_, rfl, id, Store.wf_writeRun 0 bs _ a, Nat.le_refl _⟩
  cases p <;> first | rfl | exact absurd (hW.part (by decide +kernel)) hp

/-- What `State.answer` may change. -/
def answerFoot : Foot :=
  ⟨[], [.resp], false⟩

theorem State.answer_keeps {W : Foot} {s0 s : State} {v : Nat} (hW : answerFoot.Le W) (h : Keeps W s0 s) :
    Keeps W s0 (State.answer s v) := by
  unfold State.answer
  repeat' first
    | with_reducible assumption
    | with_reducible apply State.setResp_keeps
    | exact hW.trans (Foot.le_of (by decide +kernel))

/-- What `corrected` may change. -/
def correctedFoot : Foot :=
  ⟨[Reg.fltCounts0Corrected], [], false⟩

theorem corrected_keeps {W : Foot} {s0 s : State} (hW : correctedFoot.Le W) (h : Keeps W s0 s) :
    Keeps W s0 (corrected s) := by
  unfold corrected
  repeat' first
    | with_reducible assumption
    | with_reducible apply State.bump_keeps
    | exact hW.fld (by decide +kernel)
    | exact Eq.refl true

/-- What `busError` may change. -/
def busErrorFoot : Foot :=
  ⟨[Reg.fltCounts0Corrected], [.resp], false⟩

theorem busError_keeps {W : Foot} {s0 s : State} (hW : busErrorFoot.Le W) (h : Keeps W s0 s) :
    Keeps W s0 (busError s) := by
  unfold busError
  repeat' first
    | with_reducible assumption
    | with_reducible apply corrected_keeps
    | with_reducible apply State.setResp_keeps
    | exact hW.trans (Foot.le_of (by decide +kernel))

/-- What `gatedAccess` may change. -/
def gatedAccessFoot : Foot :=
  ⟨[Reg.fltCounts0Corrected], [.resp], false⟩

theorem gatedAccess_keeps {W : Foot} {s0 s : State} {u : Nat} {o : Host.Outcome State Fault Refusal}
    (hW : gatedAccessFoot.Le W) (h : Keeps W s0 s) (ho : KeepsOut W s0 o) : KeepsOut W s0 (gatedAccess s u o) := by
  unfold gatedAccess
  exact KeepsOut.ite (KeepsOut.next (busError_keeps (hW.trans (Foot.le_of (by decide +kernel))) h)) ho

/-- What `recPost` may change. -/
def recPostFoot : Foot :=
  ⟨[Reg.recStatusDropped, Reg.recStatusQueued, Reg.recIrqStatusDrop], [.recorder], false⟩

theorem recPost_keeps {W : Foot} {s0 s : State} {p : RecPost} (hW : recPostFoot.Le W) (h : Keeps W s0 s) :
    Keeps W s0 (recPost s p) := by
  unfold recPost
  repeat' first
    | with_reducible assumption
    | with_reducible apply State.bump_keeps
    | with_reducible apply State.wr_keeps
    | with_reducible apply State.set_keeps
    | with_reducible apply State.setRecorder_keeps
    | with_reducible apply Keeps.ite
    | exact hW.fld (by decide +kernel)
    | exact hW.trans (Foot.le_of (by decide +kernel))
    | exact Eq.refl true

/-- What `record` may change. -/
def recordFoot : Foot :=
  ⟨[Reg.recStatusDropped, Reg.recStatusQueued, Reg.recIrqStatusDrop], [.recorder], false⟩

theorem record_keeps {W : Foot} {s0 s : State} {source : Nat} {severity : Nat} {code : Nat} {payload : List Byte} (hW : recordFoot.Le W) (h : Keeps W s0 s) :
    Keeps W s0 (record s source severity code payload) := by
  unfold record
  repeat' first
    | with_reducible assumption
    | with_reducible apply recPost_keeps
    | exact hW.trans (Foot.le_of (by decide +kernel))

/-- What `recordWarden` may change. -/
def recordWardenFoot : Foot :=
  ⟨[Reg.recStatusDropped, Reg.recStatusQueued, Reg.recIrqStatusDrop], [.recorder], false⟩

theorem recordWarden_keeps {W : Foot} {s0 s : State} {source : Nat} {severity : Nat} {code : Nat} {payload : List Byte} (hW : recordWardenFoot.Le W) (h : Keeps W s0 s) :
    Keeps W s0 (recordWarden s source severity code payload) := by
  unfold recordWarden
  repeat' first
    | with_reducible assumption
    | with_reducible apply recPost_keeps
    | exact hW.trans (Foot.le_of (by decide +kernel))

/-- What `recordFirst` may change. -/
def recordFirstFoot : Foot :=
  ⟨[Reg.recStatusDropped, Reg.recStatusQueued, Reg.recIrqStatusDrop], [.recorder], false⟩

theorem recordFirst_keeps {W : Foot} {s0 s : State} {source : Nat} {severity : Nat} {code : Nat} {payload : List Byte} (hW : recordFirstFoot.Le W) (h : Keeps W s0 s) :
    Keeps W s0 (recordFirst s source severity code payload) := by
  unfold recordFirst
  repeat' first
    | with_reducible assumption
    | with_reducible apply State.setRecorder_keeps
    | with_reducible apply recordWarden_keeps
    | exact hW.trans (Foot.le_of (by decide +kernel))

/-- What `pmuOverflow` may change. -/
def pmuOverflowFoot : Foot :=
  ⟨[Reg.pmuOvfOvf], [], false⟩

theorem pmuOverflow_keeps {W : Foot} {s0 s : State} {k : Nat} (hW : pmuOverflowFoot.Le W) (h : Keeps W s0 s) :
    Keeps W s0 (pmuOverflow s k) := by
  unfold pmuOverflow
  repeat' first
    | with_reducible assumption
    | with_reducible apply State.wr_keeps
    | exact hW.fld (by decide +kernel)
    | exact Eq.refl true

/-- What `pmuAdd` may change. -/
def pmuAddFoot : Foot :=
  ⟨[Reg.pmuOvfOvf, Reg.pmuCntLoCount, Reg.pmuCntHiCount], [], false⟩

theorem pmuAdd_keeps {W : Foot} {s0 s : State} {k : Nat} {n : Nat} (hW : pmuAddFoot.Le W) (h : Keeps W s0 s) :
    Keeps W s0 (pmuAdd s k n) := by
  unfold pmuAdd
  repeat' first
    | with_reducible assumption
    | with_reducible apply State.wrPair_elem_keeps
    | with_reducible apply pmuOverflow_keeps
    | with_reducible apply Keeps.ite
    | exact hW.fld (by decide +kernel)
    | exact hW.trans (Foot.le_of (by decide +kernel))

/-- What `pmuEventIn` may change. -/
def pmuEventInFoot : Foot :=
  ⟨[Reg.pmuOvfOvf, Reg.pmuCntLoCount, Reg.pmuCntHiCount], [], false⟩

theorem pmuEventIn_keeps {W : Foot} {s0 s : State} {mode : Nat} {cls : Nat} {ev : Nat} {inst : Option Nat} {addr : Option Nat} {n : Nat} (hW : pmuEventInFoot.Le W) (h : Keeps W s0 s) :
    Keeps W s0 (pmuEventIn s mode cls ev inst addr n) := by
  unfold pmuEventIn
  repeat' first
    | with_reducible assumption
    | with_reducible intro _
    | with_reducible apply Keeps.each
    | with_reducible apply pmuAdd_keeps
    | with_reducible apply Keeps.ite
    | exact hW.trans (Foot.le_of (by decide +kernel))

/-- What `pmuEvent` may change. -/
def pmuEventFoot : Foot :=
  ⟨[Reg.pmuOvfOvf, Reg.pmuCntLoCount, Reg.pmuCntHiCount], [], false⟩

theorem pmuEvent_keeps {W : Foot} {s0 s : State} {cls : Nat} {ev : Nat} {inst : Option Nat} {addr : Option Nat} {n : Nat} (hW : pmuEventFoot.Le W) (h : Keeps W s0 s) :
    Keeps W s0 (pmuEvent s cls ev inst addr n) := by
  unfold pmuEvent
  repeat' first
    | with_reducible assumption
    | with_reducible apply pmuEventIn_keeps
    | exact hW.trans (Foot.le_of (by decide +kernel))

/-- What `setAngle` may change. -/
def setAngleFoot : Foot :=
  ⟨[Reg.angPosWedge, Reg.angPosTick, Reg.angRevLoRev, Reg.angRevHiRev], [], false⟩

theorem setAngle_keeps {W : Foot} {s0 s : State} {full : Nat} (hW : setAngleFoot.Le W) (h : Keeps W s0 s) :
    Keeps W s0 (setAngle s full) := by
  unfold setAngle
  repeat' first
    | with_reducible assumption
    | with_reducible apply State.wr_keeps
    | with_reducible apply State.wrPair_keeps
    | exact hW.fld (by decide +kernel)
    | exact Eq.refl true

/-- What `enterMode` may change. -/
def enterModeFoot : Foot :=
  .union [bootEnterFrame]

theorem enterMode_keeps {W : Foot} {s0 s : State} {mode : Nat} {cause : Nat} (hW : enterModeFoot.Le W) (h : Keeps W s0 s) :
    Keeps W s0 (enterMode s mode cause) := by
  unfold enterMode
  repeat' first
    | with_reducible assumption
    | with_reducible apply State.wr_keeps
    | with_reducible apply record_keeps
    | exact hW.fld (by decide +kernel)
    | exact hW.trans (Foot.le_of (by decide +kernel))
    | exact Eq.refl true

end Sys2Proof.Machine
end

