-- ==== Sys2Proof/Laws/FootFaultOps.lean ====
section
/-!
SUPPORT. Footprints of the operations of Machine/FaultOps.lean: what each may change, and that it changes nothing else.
-/

namespace Sys2Proof.Machine

set_option Elab.async false

/-- What `mcWrite` may change. -/
def mcWriteFoot : Foot :=
  .union [mcWriteFrame]

theorem mcWrite_keeps {W : Foot} {s0 s : State} {r : McRecord} (hW : mcWriteFoot.Le W) (h : Keeps W s0 s) :
    Keeps W s0 (mcWrite s r) := by
  unfold mcWrite
  repeat' first
    | with_reducible assumption
    | with_reducible apply recPost_keeps
    | with_reducible apply State.wr_keeps
    | with_reducible apply State.set_keeps
    | with_reducible apply State.setFlt_keeps
    | exact hW.fld (by decide +kernel)
    | exact hW.trans (Foot.le_of (by decide +kernel))
    | exact Eq.refl true

/-- What `contained` may change. -/
def containedFoot : Foot :=
  .union [⟨[Reg.fltCounts1Contained], [], false⟩, mcWriteFrame]

theorem contained_keeps {W : Foot} {s0 s : State} {source : Nat} {inst : Nat} {code : Nat} {addr : Nat} (hW : containedFoot.Le W) (h : Keeps W s0 s) :
    Keeps W s0 (contained s source inst code addr) := by
  unfold contained
  repeat' first
    | with_reducible assumption
    | with_reducible apply State.bump_keeps
    | with_reducible apply mcWrite_keeps
    | exact hW.fld (by decide +kernel)
    | exact hW.trans (Foot.le_of (by decide +kernel))
    | exact Eq.refl true

/-- What `containedInt` may change. -/
def containedIntFoot : Foot :=
  .union [⟨[Reg.fltCounts1Contained, Reg.fltIntMax, Reg.fltIntLast, Reg.fltIrqStatusIntDone], [], false⟩,
    mcWriteFrame]

theorem containedInt_keeps {W : Foot} {s0 s : State} {source : Nat} {inst : Nat} {code : Nat} {addr : Nat} {int : Nat} (hW : containedIntFoot.Le W) (h : Keeps W s0 s) :
    Keeps W s0 (containedInt s source inst code addr int) := by
  unfold containedInt
  repeat' first
    | with_reducible assumption
    | with_reducible apply State.bump_keeps
    | with_reducible apply State.wr_keeps
    | with_reducible apply State.set_keeps
    | with_reducible apply mcWrite_keeps
    | with_reducible apply Keeps.ite
    | exact hW.fld (by decide +kernel)
    | exact hW.trans (Foot.le_of (by decide +kernel))
    | exact Eq.refl true

/-- What `unitFatalRecord` may change. -/
def unitFatalRecordFoot : Foot :=
  .union [⟨[Reg.fltCounts1UnitFatal], [], false⟩, mcWriteFrame]

theorem unitFatalRecord_keeps {W : Foot} {s0 s : State} {source : Nat} {inst : Nat} {code : Nat} {addr : Nat} {retired : Bool} (hW : unitFatalRecordFoot.Le W) (h : Keeps W s0 s) :
    Keeps W s0 (unitFatalRecord s source inst code addr retired) := by
  unfold unitFatalRecord
  repeat' first
    | with_reducible assumption
    | with_reducible apply State.bump_keeps
    | with_reducible apply mcWrite_keeps
    | exact hW.fld (by decide +kernel)
    | exact hW.trans (Foot.le_of (by decide +kernel))
    | exact Eq.refl true

end Sys2Proof.Machine
end

