-- ==== Sys2Proof/Laws/FootRings.lean ====
section
/-!
SUPPORT. Footprints of the operations of Machine/Rings.lean: what each may change, and that it changes nothing else.
-/

namespace Sys2Proof.Machine

set_option Elab.async false

/-- What `State.setRing` may change. -/
def setRingFoot : Foot :=
  ⟨[], [.rings], false⟩

theorem State.setRing_keeps {W : Foot} {s0 s : State} {n : Nat} {r : Ring} (hW : setRingFoot.Le W) (h : Keeps W s0 s) :
    Keeps W s0 (State.setRing s n r) := by
  unfold State.setRing
  repeat' first
    | with_reducible assumption
    | with_reducible apply Keeps.set_rings
    | exact hW.part (by decide +kernel)

/-- What `ringRefresh` may change. -/
def ringRefreshFoot : Foot :=
  ⟨[Reg.rngStatusHeld, Reg.rngStatusStoppedFull, Reg.rngStatusIdle], [], false⟩

theorem ringRefresh_keeps {W : Foot} {s0 s : State} {n : Nat} (hW : ringRefreshFoot.Le W) (h : Keeps W s0 s) :
    Keeps W s0 (ringRefresh s n) := by
  unfold ringRefresh
  repeat' first
    | with_reducible assumption
    | with_reducible apply State.wr_elem_keeps
    | with_reducible apply Keeps.ite
    | exact hW.fld (by decide +kernel)

/-- What `ringWrite` may change. -/
def ringWriteFoot : Foot :=
  .union [⟨[Reg.rngIrqStatusResult, Reg.rngReqConsIdx, Reg.rngResProdIdx], [.rings], false⟩, outcomeAtFrame]

theorem ringWrite_keeps {W : Foot} {s0 s : State} {n : Nat} {x : RingResult} (hW : ringWriteFoot.Le W) (h : Keeps W s0 s) :
    Keeps W s0 (ringWrite s n x) := by
  unfold ringWrite
  repeat' first
    | with_reducible assumption
    | with_reducible apply State.store_keeps
    | with_reducible apply State.wr_elem_keeps
    | with_reducible apply State.wr_keeps
    | with_reducible apply State.setRing_keeps
    | with_reducible apply Keeps.ite
    | exact hW.fld (by decide +kernel)
    | exact hW.trans (Foot.le_of (by decide +kernel))
    | exact Eq.refl true

/-- What `ringLose` may change. -/
def ringLoseFoot : Foot :=
  .union [⟨[Reg.rngIrqStatusOvf, Reg.rngStatusLost, Reg.rngStatusResultOvf, Reg.fltCounts1Contained], [], false⟩,
    mcWriteFrame]

theorem ringLose_keeps {W : Foot} {s0 s : State} {n : Nat} (hW : ringLoseFoot.Le W) (h : Keeps W s0 s) :
    Keeps W s0 (ringLose s n) := by
  unfold ringLose
  repeat' first
    | with_reducible assumption
    | with_reducible apply State.bump_elem_keeps
    | with_reducible apply State.wr_keeps
    | with_reducible apply State.set_elem_keeps
    | with_reducible apply contained_keeps
    | with_reducible apply record_keeps
    | exact hW.fld (by decide +kernel)
    | exact hW.trans (Foot.le_of (by decide +kernel))
    | exact Eq.refl true

/-- What `ringPost` may change. -/
def ringPostFoot : Foot :=
  .union [ringAnswerFrame]

theorem ringPost_keeps {W : Foot} {s0 s : State} {n : Nat} {x : RingResult} (hW : ringPostFoot.Le W) (h : Keeps W s0 s) :
    Keeps W s0 (ringPost s n x) := by
  unfold ringPost
  repeat' first
    | with_reducible assumption
    | with_reducible apply ringLose_keeps
    | with_reducible apply State.setRing_keeps
    | with_reducible apply ringWrite_keeps
    | with_reducible apply ringRefresh_keeps
    | with_reducible apply Keeps.ite
    | exact hW.trans (Foot.le_of (by decide +kernel))

/-- What `ringDrainHold` may change. -/
def ringDrainHoldFoot : Foot :=
  .union [⟨[Reg.rngIrqStatusResult, Reg.rngReqConsIdx, Reg.rngResProdIdx], [.rings], false⟩, outcomeAtFrame]

theorem ringDrainHold_keeps {W : Foot} {s0 s : State} {n : Nat} {a2 : Nat} (hW : ringDrainHoldFoot.Le W) (h : Keeps W s0 s) :
    Keeps W s0 (ringDrainHold s n a2) := by
  induction a2 generalizing s n with
  | zero =>
    unfold ringDrainHold
    repeat' first
      | with_reducible assumption
  | succ k ih =>
    unfold ringDrainHold
    repeat' first
      | with_reducible assumption
      | with_reducible apply ih
      | with_reducible apply State.setRing_keeps
      | with_reducible apply ringWrite_keeps
      | exact hW.trans (Foot.le_of (by decide +kernel))
      | split
      | dsimp only

/-- What `ringAnswer` may change. -/
def ringAnswerFoot : Foot :=
  .union [ringAnswerFrame]

theorem ringAnswer_keeps {W : Foot} {s0 s : State} {n : Nat} {bytes : List Byte} {last : Bool} (hW : ringAnswerFoot.Le W) (h : Keeps W s0 s) :
    Keeps W s0 (ringAnswer s n bytes last) := by
  unfold ringAnswer
  repeat' first
    | with_reducible assumption
    | with_reducible apply ringPost_keeps
    | with_reducible apply State.setRing_keeps
    | exact hW.trans (Foot.le_of (by decide +kernel))

/-- What `mailboxNotice` may change. -/
def mailboxNoticeFoot : Foot :=
  .union [ringAnswerFrame]

theorem mailboxNotice_keeps {W : Foot} {s0 s : State} {code : Nat} {data : List Byte} (hW : mailboxNoticeFoot.Le W) (h : Keeps W s0 s) :
    Keeps W s0 (mailboxNotice s code data) := by
  unfold mailboxNotice
  repeat' first
    | with_reducible assumption
    | with_reducible apply ringPost_keeps
    | with_reducible apply recordWarden_keeps
    | with_reducible apply Keeps.ite
    | exact hW.trans (Foot.le_of (by decide +kernel))

/-- What `ringAdmit` may change. -/
def ringAdmitFoot : Foot :=
  .union [⟨[Reg.rngStatusHeld, Reg.rngStatusStoppedFull, Reg.rngStatusIdle, Reg.fltCounts0Corrected,
    Reg.fltCounts1Contained], [.rings], false⟩, mcWriteFrame]

theorem ringAdmit_keeps {W : Foot} {s0 s : State} {n : Nat} (hW : ringAdmitFoot.Le W) (h : Keeps W s0 s) :
    Keeps W s0 (ringAdmit s n) := by
  unfold ringAdmit
  repeat' first
    | with_reducible assumption
    | with_reducible intro _
    | with_reducible apply contained_keeps
    | with_reducible apply corrected_keeps
    | with_reducible apply State.setRing_keeps
    | with_reducible apply Keeps.when
    | with_reducible apply ringRefresh_keeps
    | exact hW.trans (Foot.le_of (by decide +kernel))

theorem execRingReqProdWrite_keeps {W : Foot} {s0 s : State} {n : Nat} {data : Word} (hW : execRingReqProdWriteFrame.Le W) (h : Keeps W s0 s) :
    KeepsOut W s0 (execRingReqProdWrite n data s) := by
  unfold execRingReqProdWrite
  repeat' first
    | with_reducible assumption
    | with_reducible apply KeepsOut.next
    | with_reducible apply State.answer_keeps
    | with_reducible apply State.wr_elem_keeps
    | with_reducible apply corrected_keeps
    | with_reducible apply ringRefresh_keeps
    | with_reducible apply Keeps.ite
    | exact hW.fld (by decide +kernel)
    | exact hW.trans (Foot.le_of (by decide +kernel))

theorem execRingResConsWrite_keeps {W : Foot} {s0 s : State} {n : Nat} {data : Word} (hW : execRingResConsWriteFrame.Le W) (h : Keeps W s0 s) :
    KeepsOut W s0 (execRingResConsWrite n data s) := by
  unfold execRingResConsWrite
  repeat' first
    | with_reducible assumption
    | with_reducible apply KeepsOut.next
    | with_reducible apply State.answer_keeps
    | with_reducible apply State.wr_elem_keeps
    | with_reducible apply corrected_keeps
    | with_reducible apply ringRefresh_keeps
    | with_reducible apply Keeps.ite
    | exact hW.fld (by decide +kernel)
    | exact hW.trans (Foot.le_of (by decide +kernel))

theorem execRingEnable_keeps {W : Foot} {s0 s : State} {n : Nat} (hW : execRingEnableFrame.Le W) (h : Keeps W s0 s) :
    KeepsOut W s0 (execRingEnable n s) := by
  unfold execRingEnable
  simp only [State.each, List.foldl_cons, List.foldl_nil]
  repeat' first
    | with_reducible assumption
    | with_reducible apply KeepsOut.next
    | with_reducible apply KeepsOut.ite
    | with_reducible apply State.answer_keeps
    | with_reducible apply ringRefresh_keeps
    | with_reducible apply State.setRing_keeps
    | with_reducible apply State.wr_elem_keeps
    | with_reducible apply State.wr_keeps
    | with_reducible apply State.set_elem_keeps
    | with_reducible apply State.clr_elem_keeps
    | apply Keeps.ite
    | exact hW.fld (by decide +kernel)
    | exact hW.trans (Foot.le_of (by decide +kernel))
    | exact Eq.refl true
    | split

theorem execRingDisable_keeps {W : Foot} {s0 s : State} {n : Nat} (hW : execRingDisableFrame.Le W) (h : Keeps W s0 s) :
    KeepsOut W s0 (execRingDisable n s) := by
  unfold execRingDisable
  repeat' first
    | with_reducible assumption
    | with_reducible apply KeepsOut.next
    | with_reducible apply KeepsOut.ite
    | with_reducible apply State.answer_keeps
    | with_reducible apply State.set_elem_keeps
    | with_reducible apply State.clr_elem_keeps
    | exact hW.fld (by decide +kernel)
    | exact hW.trans (Foot.le_of (by decide +kernel))

theorem execRingDrainDone_keeps {W : Foot} {s0 s : State} {n : Nat} (hW : execRingDrainDoneFrame.Le W) (h : Keeps W s0 s) :
    KeepsOut W s0 (execRingDrainDone n s) := by
  unfold execRingDrainDone
  repeat' first
    | with_reducible assumption
    | with_reducible apply KeepsOut.next
    | with_reducible apply KeepsOut.ite
    | with_reducible apply State.wr_elem_keeps
    | with_reducible apply State.wr_keeps
    | with_reducible apply State.set_elem_keeps
    | with_reducible apply State.clr_elem_keeps
    | with_reducible apply Keeps.ite
    | exact hW.fld (by decide +kernel)
    | exact Eq.refl true

theorem execHeldResultWrite_keeps {W : Foot} {s0 s : State} {n : Nat} (hW : execHeldResultWriteFrame.Le W) (h : Keeps W s0 s) :
    KeepsOut W s0 (execHeldResultWrite n s) := by
  unfold execHeldResultWrite
  repeat' first
    | with_reducible assumption
    | with_reducible apply KeepsOut.next
    | with_reducible apply ringDrainHold_keeps
    | with_reducible apply ringRefresh_keeps
    | exact hW.trans (Foot.le_of (by decide +kernel))

end Sys2Proof.Machine
end

