-- ==== Sys2Proof/Laws/FootRung.lean ====
section
/-!
SUPPORT. Footprints of the operations of Machine/Rung.lean: what each may change, and that it changes nothing else.
-/

namespace Sys2Proof.Machine

set_option Elab.async false

/-- What `rungResult` may change. -/
def rungResultFoot : Foot :=
  ⟨[Reg.angRungResult, Reg.angIrqStatusRungDone], [], false⟩

theorem rungResult_keeps {W : Foot} {s0 s : State} {r : Nat} (hW : rungResultFoot.Le W) (h : Keeps W s0 s) :
    Keeps W s0 (rungResult s r) := by
  unfold rungResult
  repeat' first
    | with_reducible assumption
    | with_reducible apply State.wr_keeps
    | with_reducible apply State.set_keeps
    | exact hW.fld (by decide +kernel)
    | exact Eq.refl true

/-- What `bwkUnhold` may change. -/
def bwkUnholdFoot : Foot :=
  ⟨[Reg.bwkStatusState], [], false⟩

theorem bwkUnhold_keeps {W : Foot} {s0 s : State} {n : Nat} (hW : bwkUnholdFoot.Le W) (h : Keeps W s0 s) :
    Keeps W s0 (bwkUnhold s n) := by
  unfold bwkUnhold
  repeat' first
    | with_reducible assumption
    | with_reducible apply State.wr_elem_keeps
    | with_reducible apply Keeps.ite
    | exact hW.fld (by decide +kernel)

/-- What `rungReleaseHold` may change. -/
def rungReleaseHoldFoot : Foot :=
  ⟨[Reg.bwkStatusState], [.ang], false⟩

theorem rungReleaseHold_keeps {W : Foot} {s0 s : State} (hW : rungReleaseHoldFoot.Le W) (h : Keeps W s0 s) :
    Keeps W s0 (rungReleaseHold s) := by
  unfold rungReleaseHold
  repeat' first
    | with_reducible assumption
    | with_reducible apply State.setAng_keeps
    | with_reducible apply bwkUnhold_keeps
    | exact hW.trans (Foot.le_of (by decide +kernel))

/-- What `rungStart` may change. -/
def rungStartFoot : Foot :=
  ⟨[Reg.angRungPhase, Reg.angRungTarget], [.ang], false⟩

theorem rungStart_keeps {W : Foot} {s0 s : State} {target : Nat} (hW : rungStartFoot.Le W) (h : Keeps W s0 s) :
    Keeps W s0 (rungStart s target) := by
  unfold rungStart
  repeat' first
    | with_reducible assumption
    | with_reducible apply State.wr_keeps
    | with_reducible apply State.setAng_keeps
    | exact hW.fld (by decide +kernel)
    | exact hW.trans (Foot.le_of (by decide +kernel))
    | exact Eq.refl true

/-- What `rungRequest` may change. -/
def rungRequestFoot : Foot :=
  ⟨[Reg.angRungResult, Reg.angRungPhase, Reg.angRungTarget, Reg.angIrqStatusRungDone], [.ang], false⟩

theorem rungRequest_keeps {W : Foot} {s0 s : State} {target : Nat} (hW : rungRequestFoot.Le W) (h : Keeps W s0 s) :
    Keeps W s0 (rungRequest s target) := by
  unfold rungRequest
  repeat' first
    | with_reducible assumption
    | with_reducible apply rungStart_keeps
    | with_reducible apply rungResult_keeps
    | exact hW.trans (Foot.le_of (by decide +kernel))
    | split

/-- What `rungPend` may change. -/
def rungPendFoot : Foot :=
  ⟨[Reg.angRungPend, Reg.angRungPendTarget], [], false⟩

theorem rungPend_keeps {W : Foot} {s0 s : State} {target : Nat} (hW : rungPendFoot.Le W) (h : Keeps W s0 s) :
    Keeps W s0 (rungPend s target) := by
  unfold rungPend
  repeat' first
    | with_reducible assumption
    | with_reducible apply State.wr_keeps
    | with_reducible apply State.set_keeps
    | exact hW.fld (by decide +kernel)
    | exact Eq.refl true

/-- What `rungAsk` may change. -/
def rungAskFoot : Foot :=
  ⟨[Reg.angRungResult, Reg.angRungPhase, Reg.angRungPend, Reg.angRungPendTarget, Reg.angRungTarget,
    Reg.angIrqStatusRungDone], [.ang], false⟩

theorem rungAsk_keeps {W : Foot} {s0 s : State} {target : Nat} (hW : rungAskFoot.Le W) (h : Keeps W s0 s) :
    Keeps W s0 (rungAsk s target) := by
  unfold rungAsk
  repeat' first
    | with_reducible assumption
    | with_reducible apply rungRequest_keeps
    | with_reducible apply rungPend_keeps
    | with_reducible apply Keeps.ite
    | exact hW.trans (Foot.le_of (by decide +kernel))

/-- What `rungFinish` may change. -/
def rungFinishFoot : Foot :=
  .union [rungFinishFrame]

theorem rungFinish_keeps {W : Foot} {s0 s : State} {result : Nat} (hW : rungFinishFoot.Le W) (h : Keeps W s0 s) :
    Keeps W s0 (rungFinish s result) := by
  unfold rungFinish
  repeat' first
    | with_reducible assumption
    | with_reducible apply rungRequest_keeps
    | with_reducible apply State.wr_keeps
    | with_reducible apply rungReleaseHold_keeps
    | with_reducible apply rungResult_keeps
    | with_reducible apply State.setAng_keeps
    | with_reducible apply State.clr_keeps
    | with_reducible apply Keeps.ite
    | exact hW.fld (by decide +kernel)
    | exact hW.trans (Foot.le_of (by decide +kernel))
    | exact Eq.refl true

/-- What `rungReturn` may change. -/
def rungReturnFoot : Foot :=
  ⟨[Reg.angRungPhase], [.free, .ang], false⟩

theorem rungReturn_keeps {W : Foot} {s0 s : State} (hW : rungReturnFoot.Le W) (h : Keeps W s0 s) :
    Keeps W s0 (rungReturn s) := by
  unfold rungReturn
  repeat' first
    | with_reducible assumption
    | with_reducible apply State.wr_keeps
    | with_reducible apply State.setAng_keeps
    | with_reducible apply State.takeFree_keeps
    | with_reducible apply Keeps.ite
    | exact hW.fld (by decide +kernel)
    | exact hW.trans (Foot.le_of (by decide +kernel))
    | exact hW.part (by decide +kernel)
    | exact Eq.refl true

/-- What `rungLostLock` may change. -/
def rungLostLockFoot : Foot :=
  .union [⟨[], [.free], false⟩, rungFinishFrame]

theorem rungLostLock_keeps {W : Foot} {s0 s : State} (hW : rungLostLockFoot.Le W) (h : Keeps W s0 s) :
    Keeps W s0 (rungLostLock s) := by
  unfold rungLostLock
  repeat' first
    | with_reducible assumption
    | with_reducible apply rungReturn_keeps
    | with_reducible apply rungFinish_keeps
    | with_reducible apply Keeps.ite
    | exact hW.trans (Foot.le_of (by decide +kernel))

/-- What `rungSpindleFault` may change. -/
def rungSpindleFaultFoot : Foot :=
  ⟨[Reg.angRungResult, Reg.angRungPhase, Reg.angRungPend, Reg.angIrqStatusRungDone, Reg.bwkStatusState], [.ang],
    false⟩

theorem rungSpindleFault_keeps {W : Foot} {s0 s : State} (hW : rungSpindleFaultFoot.Le W) (h : Keeps W s0 s) :
    Keeps W s0 (rungSpindleFault s) := by
  unfold rungSpindleFault
  repeat' first
    | with_reducible assumption
    | with_reducible apply State.wr_keeps
    | with_reducible apply rungReleaseHold_keeps
    | with_reducible apply rungResult_keeps
    | with_reducible apply State.setAng_keeps
    | with_reducible apply State.clr_keeps
    | with_reducible apply Keeps.ite
    | exact hW.fld (by decide +kernel)
    | exact hW.trans (Foot.le_of (by decide +kernel))
    | exact Eq.refl true

/-- What `rungPreempt` may change. -/
def rungPreemptFoot : Foot :=
  ⟨[Reg.angRungResult, Reg.angRungPhase, Reg.angRungPend, Reg.angIrqStatusRungDone], [.ang], false⟩

theorem rungPreempt_keeps {W : Foot} {s0 s : State} (hW : rungPreemptFoot.Le W) (h : Keeps W s0 s) :
    Keeps W s0 (rungPreempt s) := by
  unfold rungPreempt
  repeat' first
    | with_reducible assumption
    | with_reducible apply State.wr_keeps
    | with_reducible apply rungResult_keeps
    | with_reducible apply State.setAng_keeps
    | with_reducible apply State.clr_keeps
    | with_reducible apply Keeps.ite
    | exact hW.fld (by decide +kernel)
    | exact hW.trans (Foot.le_of (by decide +kernel))
    | exact Eq.refl true

/-- What `rungCeiling` may change. -/
def rungCeilingFoot : Foot :=
  ⟨[Reg.angRungCeilExceeded, Reg.angRungResult, Reg.angRungPhase, Reg.angRungPend, Reg.angRungPendTarget,
    Reg.angRungCeiling, Reg.angRungTarget, Reg.angIrqStatusRungDone], [.ang], false⟩

theorem rungCeiling_keeps {W : Foot} {s0 s : State} (hW : rungCeilingFoot.Le W) (h : Keeps W s0 s) :
    Keeps W s0 (rungCeiling s) := by
  unfold rungCeiling
  repeat' first
    | with_reducible assumption
    | with_reducible apply State.wr_keeps
    | with_reducible apply State.set_keeps
    | with_reducible apply rungAsk_keeps
    | with_reducible apply Keeps.ite
    | exact hW.fld (by decide +kernel)
    | exact hW.trans (Foot.le_of (by decide +kernel))
    | exact Eq.refl true

end Sys2Proof.Machine
end

