-- ==== Sys2Proof/Laws/FootAngleTime.lean ====
section
/-!
SUPPORT. Footprints of the operations of Machine/AngleTime.lean: what each may change, and that it changes nothing else.
-/

namespace Sys2Proof.Machine

set_option Elab.async false

/-- What `angEnter` may change. -/
def angEnterFoot : Foot :=
  ⟨[Reg.angStatusSrc, Reg.angStatusState, Reg.angPosValid, Reg.angIrqStatusStateChg], [.ang], false⟩

theorem angEnter_keeps {W : Foot} {s0 s : State} {st : Nat} {src : Nat} (hW : angEnterFoot.Le W) (h : Keeps W s0 s) :
    Keeps W s0 (angEnter s st src) := by
  unfold angEnter
  repeat' first
    | with_reducible assumption
    | with_reducible intro _
    | with_reducible apply State.wr_keeps
    | with_reducible apply State.set_keeps
    | with_reducible apply State.setAng_keeps
    | with_reducible apply Keeps.when
    | exact hW.fld (by decide +kernel)
    | exact hW.trans (Foot.le_of (by decide +kernel))
    | exact Eq.refl true

/-- What `angUnlock` may change. -/
def angUnlockFoot : Foot :=
  .union [⟨[Reg.angStatusSrc, Reg.angStatusState, Reg.angPosValid, Reg.angIrqStatusStateChg], [.free], false⟩,
    rungFinishFrame]

theorem angUnlock_keeps {W : Foot} {s0 s : State} {st : Nat} {src : Nat} (hW : angUnlockFoot.Le W) (h : Keeps W s0 s) :
    Keeps W s0 (angUnlock s st src) := by
  unfold angUnlock
  repeat' first
    | with_reducible assumption
    | with_reducible apply rungLostLock_keeps
    | with_reducible apply angEnter_keeps
    | with_reducible apply Keeps.ite
    | exact hW.trans (Foot.le_of (by decide +kernel))

/-- What `angLock` may change. -/
def angLockFoot : Foot :=
  ⟨[Reg.angStatusGapCount, Reg.angStatusIndexKnown, Reg.angStatusSrc, Reg.angStatusState, Reg.angPosValid,
    Reg.angPosWedge, Reg.angPosTick, Reg.angRevLoRev, Reg.angRevHiRev, Reg.angIrqStatusGap, Reg.angIrqStatusStateChg],
    [.ang], false⟩

theorem angLock_keeps {W : Foot} {s0 s : State} {act : Nat} {decoded : Nat} {dev : Nat} (hW : angLockFoot.Le W) (h : Keeps W s0 s) :
    Keeps W s0 (angLock s act decoded dev) := by
  unfold angLock
  repeat' first
    | with_reducible assumption
    | with_reducible apply State.bump_keeps
    | with_reducible apply setAngle_keeps
    | with_reducible apply State.set_keeps
    | with_reducible apply angEnter_keeps
    | with_reducible apply Keeps.ite
    | exact hW.fld (by decide +kernel)
    | exact hW.trans (Foot.le_of (by decide +kernel))
    | exact Eq.refl true

theorem execGoodWedgeMark_keeps {W : Foot} {s0 s : State} {act : Nat} {surface : Nat} {dev : Nat} {decoded : Nat} (hW : execGoodWedgeMarkFrame.Le W) (h : Keeps W s0 s) :
    KeepsOut W s0 (execGoodWedgeMark act surface dev decoded s) := by
  unfold execGoodWedgeMark
  repeat' first
    | with_reducible assumption
    | with_reducible apply KeepsOut.next
    | with_reducible apply KeepsOut.ite
    | with_reducible apply setAngle_keeps
    | with_reducible apply State.wr_keeps
    | with_reducible apply angUnlock_keeps
    | with_reducible apply angEnter_keeps
    | with_reducible apply angLock_keeps
    | with_reducible apply State.setAng_keeps
    | with_reducible apply Keeps.ite
    | exact hW.fld (by decide +kernel)
    | exact hW.trans (Foot.le_of (by decide +kernel))
    | exact Eq.refl true

/-- What `gateLow` may change. -/
def gateLowFoot : Foot :=
  ⟨[Reg.bwkStatusOntrack, Reg.bwkStatusGate], [], false⟩

theorem gateLow_keeps {W : Foot} {s0 s : State} {n : Nat} (hW : gateLowFoot.Le W) (h : Keeps W s0 s) :
    Keeps W s0 (gateLow s n) := by
  unfold gateLow
  repeat' first
    | with_reducible assumption
    | with_reducible apply State.clr_elem_keeps
    | exact hW.fld (by decide +kernel)

theorem execMissingWedgeMark_keeps {W : Foot} {s0 s : State} {act : Nat} {otherGood : Bool} (hW : execMissingWedgeMarkFrame.Le W) (h : Keeps W s0 s) :
    KeepsOut W s0 (execMissingWedgeMark act otherGood s) := by
  unfold execMissingWedgeMark
  repeat' first
    | with_reducible assumption
    | with_reducible apply KeepsOut.next
    | with_reducible apply KeepsOut.ite
    | with_reducible apply angUnlock_keeps
    | with_reducible apply gateLow_keeps
    | with_reducible apply State.setAng_keeps
    | with_reducible apply State.clr_elem_keeps
    | exact hW.fld (by decide +kernel)
    | exact hW.trans (Foot.le_of (by decide +kernel))

theorem execCoastWedgesExpiry_keeps {W : Foot} {s0 s : State} (hW : execCoastWedgesExpiryFrame.Le W) (h : Keeps W s0 s) :
    KeepsOut W s0 (execCoastWedgesExpiry s) := by
  unfold execCoastWedgesExpiry
  repeat' first
    | with_reducible assumption
    | with_reducible apply KeepsOut.next
    | with_reducible apply angEnter_keeps
    | with_reducible apply Keeps.ite
    | exact hW.trans (Foot.le_of (by decide +kernel))

theorem execSpindleAbove300_keeps {W : Foot} {s0 s : State} {commutating : Bool} (hW : execSpindleAbove300Frame.Le W) (h : Keeps W s0 s) :
    KeepsOut W s0 (execSpindleAbove300 commutating s) := by
  unfold execSpindleAbove300
  repeat' first
    | with_reducible assumption
    | with_reducible apply KeepsOut.next
    | with_reducible apply angEnter_keeps
    | with_reducible apply Keeps.ite
    | exact hW.trans (Foot.le_of (by decide +kernel))

/-- What `angStop` may change. -/
def angStopFoot : Foot :=
  .union [⟨[Reg.angStatusIndexKnown, Reg.angStatusSrc, Reg.angStatusState, Reg.angPosValid, Reg.angRevPeriodCycles,
    Reg.angIrqStatusStateChg], [.free], false⟩, rungFinishFrame]

theorem angStop_keeps {W : Foot} {s0 s : State} (hW : angStopFoot.Le W) (h : Keeps W s0 s) :
    Keeps W s0 (angStop s) := by
  unfold angStop
  repeat' first
    | with_reducible assumption
    | with_reducible apply angUnlock_keeps
    | with_reducible apply State.setAng_keeps
    | with_reducible apply State.clr_keeps
    | exact hW.fld (by decide +kernel)
    | exact hW.trans (Foot.le_of (by decide +kernel))
    | exact Eq.refl true

theorem execSpindleBelow300_keeps {W : Foot} {s0 s : State} (hW : execSpindleBelow300Frame.Le W) (h : Keeps W s0 s) :
    KeepsOut W s0 (execSpindleBelow300 s) := by
  unfold execSpindleBelow300
  repeat' first
    | with_reducible assumption
    | with_reducible apply KeepsOut.next
    | with_reducible apply angStop_keeps
    | with_reducible apply Keeps.ite
    | exact hW.trans (Foot.le_of (by decide +kernel))

theorem execRevStore_keeps {W : Foot} {s0 s : State} (hW : execRevStoreFrame.Le W) (h : Keeps W s0 s) :
    KeepsOut W s0 (execRevStore s) := by
  unfold execRevStore
  repeat' first
    | with_reducible assumption
    | with_reducible apply KeepsOut.next
    | with_reducible apply State.setAng_keeps
    | exact hW.trans (Foot.le_of (by decide +kernel))

theorem execCeilingChange_keeps {W : Foot} {s0 s : State} {age : Bool} {rung : Nat} (hW : execCeilingChangeFrame.Le W) (h : Keeps W s0 s) :
    KeepsOut W s0 (execCeilingChange age rung s) := by
  unfold execCeilingChange
  repeat' first
    | with_reducible assumption
    | with_reducible apply KeepsOut.next
    | with_reducible apply State.wr_keeps
    | with_reducible apply rungCeiling_keeps
    | with_reducible apply Keeps.ite
    | exact hW.fld (by decide +kernel)
    | exact hW.trans (Foot.le_of (by decide +kernel))
    | exact Eq.refl true

theorem execRungTargetWrite_keeps {W : Foot} {s0 s : State} {data : Word} (hW : execRungTargetWriteFrame.Le W) (h : Keeps W s0 s) :
    KeepsOut W s0 (execRungTargetWrite data s) := by
  unfold execRungTargetWrite
  repeat' first
    | with_reducible assumption
    | with_reducible intro _
    | with_reducible apply KeepsOut.next
    | with_reducible apply State.answer_keeps
    | with_reducible apply State.wr_keeps
    | with_reducible apply rungAsk_keeps
    | with_reducible apply Keeps.when
    | with_reducible apply State.clr_keeps
    | with_reducible apply Keeps.ite
    | exact hW.fld (by decide +kernel)
    | exact hW.trans (Foot.le_of (by decide +kernel))
    | exact Eq.refl true

theorem execRungHeld_keeps {W : Foot} {s0 s : State} (hW : execRungHeldFrame.Le W) (h : Keeps W s0 s) :
    KeepsOut W s0 (execRungHeld s) := by
  unfold execRungHeld
  repeat' first
    | with_reducible assumption
    | with_reducible apply KeepsOut.next
    | with_reducible apply KeepsOut.ite
    | with_reducible apply State.wr_keeps
    | exact hW.fld (by decide +kernel)
    | exact Eq.refl true

theorem execSchedRungSwitch_keeps {W : Foot} {s0 s : State} (hW : execSchedRungSwitchFrame.Le W) (h : Keeps W s0 s) :
    KeepsOut W s0 (execSchedRungSwitch s) := by
  unfold execSchedRungSwitch
  repeat' first
    | with_reducible assumption
    | with_reducible apply KeepsOut.next
    | with_reducible apply State.wr_keeps
    | with_reducible apply Keeps.ite
    | exact hW.fld (by decide +kernel)
    | exact Eq.refl true

theorem execRungRampEnd_keeps {W : Foot} {s0 s : State} (hW : execRungRampEndFrame.Le W) (h : Keeps W s0 s) :
    KeepsOut W s0 (execRungRampEnd s) := by
  unfold execRungRampEnd
  repeat' first
    | with_reducible assumption
    | with_reducible apply KeepsOut.next
    | with_reducible apply KeepsOut.ite
    | with_reducible apply State.wr_keeps
    | with_reducible apply State.setAng_keeps
    | exact hW.fld (by decide +kernel)
    | exact hW.trans (Foot.le_of (by decide +kernel))
    | exact Eq.refl true

theorem execRungSettled_keeps {W : Foot} {s0 s : State} (hW : execRungSettledFrame.Le W) (h : Keeps W s0 s) :
    KeepsOut W s0 (execRungSettled s) := by
  unfold execRungSettled
  repeat' first
    | with_reducible assumption
    | with_reducible apply KeepsOut.next
    | with_reducible apply KeepsOut.ite
    | with_reducible apply State.wr_keeps
    | with_reducible apply State.setAng_keeps
    | exact hW.fld (by decide +kernel)
    | exact hW.trans (Foot.le_of (by decide +kernel))
    | exact Eq.refl true

theorem execRungSettleTimeout_keeps {W : Foot} {s0 s : State} (hW : execRungSettleTimeoutFrame.Le W) (h : Keeps W s0 s) :
    KeepsOut W s0 (execRungSettleTimeout s) := by
  unfold execRungSettleTimeout
  repeat' first
    | with_reducible assumption
    | with_reducible apply KeepsOut.next
    | with_reducible apply rungReturn_keeps
    | with_reducible apply Keeps.ite
    | exact hW.trans (Foot.le_of (by decide +kernel))

/-- What `angCmdIgnored` may change. -/
def angCmdIgnoredFoot : Foot :=
  ⟨[Reg.angModeExpertWrIgnored], [], false⟩

theorem angCmdIgnored_keeps {W : Foot} {s0 s : State} (hW : angCmdIgnoredFoot.Le W) (h : Keeps W s0 s) :
    Keeps W s0 (angCmdIgnored s) := by
  unfold angCmdIgnored
  repeat' first
    | with_reducible assumption
    | with_reducible apply State.bump_keeps
    | exact hW.fld (by decide +kernel)
    | exact Eq.refl true

/-- What `angBadStep` may change. -/
def angBadStepFoot : Foot :=
  ⟨[Reg.angRungResult, Reg.angIrqStatusRungDone], [], false⟩

theorem angBadStep_keeps {W : Foot} {s0 s : State} (hW : angBadStepFoot.Le W) (h : Keeps W s0 s) :
    Keeps W s0 (angBadStep s) := by
  unfold angBadStep
  repeat' first
    | with_reducible assumption
    | with_reducible apply rungResult_keeps
    | exact hW.trans (Foot.le_of (by decide +kernel))

theorem execAngCmdHold_keeps {W : Foot} {s0 s : State} (hW : execAngCmdHoldFrame.Le W) (h : Keeps W s0 s) :
    KeepsOut W s0 (execAngCmdHold s) := by
  unfold execAngCmdHold
  repeat' first
    | with_reducible assumption
    | with_reducible apply KeepsOut.next
    | with_reducible apply KeepsOut.ite
    | with_reducible apply State.answer_keeps
    | with_reducible apply angBadStep_keeps
    | with_reducible apply rungRequest_keeps
    | with_reducible apply angCmdIgnored_keeps
    | exact hW.trans (Foot.le_of (by decide +kernel))

theorem execAngCmdRamp_keeps {W : Foot} {s0 s : State} (hW : execAngCmdRampFrame.Le W) (h : Keeps W s0 s) :
    KeepsOut W s0 (execAngCmdRamp s) := by
  unfold execAngCmdRamp
  repeat' first
    | with_reducible assumption
    | with_reducible apply KeepsOut.next
    | with_reducible apply KeepsOut.ite
    | with_reducible apply State.answer_keeps
    | with_reducible apply angBadStep_keeps
    | with_reducible apply State.wr_keeps
    | with_reducible apply angCmdIgnored_keeps
    | exact hW.fld (by decide +kernel)
    | exact hW.trans (Foot.le_of (by decide +kernel))
    | exact Eq.refl true

theorem execAngCmdRetune_keeps {W : Foot} {s0 s : State} (hW : execAngCmdRetuneFrame.Le W) (h : Keeps W s0 s) :
    KeepsOut W s0 (execAngCmdRetune s) := by
  unfold execAngCmdRetune
  repeat' first
    | with_reducible assumption
    | with_reducible apply KeepsOut.next
    | with_reducible apply KeepsOut.ite
    | with_reducible apply State.answer_keeps
    | with_reducible apply angBadStep_keeps
    | with_reducible apply State.wr_keeps
    | with_reducible apply angCmdIgnored_keeps
    | exact hW.fld (by decide +kernel)
    | exact hW.trans (Foot.le_of (by decide +kernel))
    | exact Eq.refl true

theorem execAngCmdRelease_keeps {W : Foot} {s0 s : State} (hW : execAngCmdReleaseFrame.Le W) (h : Keeps W s0 s) :
    KeepsOut W s0 (execAngCmdRelease s) := by
  unfold execAngCmdRelease
  repeat' first
    | with_reducible assumption
    | with_reducible apply KeepsOut.next
    | with_reducible apply KeepsOut.ite
    | with_reducible apply State.answer_keeps
    | with_reducible apply angBadStep_keeps
    | with_reducible apply angCmdIgnored_keeps
    | with_reducible apply rungFinish_keeps
    | exact hW.trans (Foot.le_of (by decide +kernel))

theorem execAngCmdAbort_keeps {W : Foot} {s0 s : State} (hW : execAngCmdAbortFrame.Le W) (h : Keeps W s0 s) :
    KeepsOut W s0 (execAngCmdAbort s) := by
  unfold execAngCmdAbort
  repeat' first
    | with_reducible assumption
    | with_reducible apply KeepsOut.next
    | with_reducible apply KeepsOut.ite
    | with_reducible apply State.answer_keeps
    | with_reducible apply angBadStep_keeps
    | with_reducible apply rungReturn_keeps
    | with_reducible apply angCmdIgnored_keeps
    | with_reducible apply rungFinish_keeps
    | exact hW.trans (Foot.le_of (by decide +kernel))

theorem execOpsecStore_keeps {W : Foot} {s0 s : State} (hW : execOpsecStoreFrame.Le W) (h : Keeps W s0 s) :
    KeepsOut W s0 (execOpsecStore s) := by
  unfold execOpsecStore
  repeat' first
    | with_reducible assumption
    | with_reducible apply KeepsOut.next
    | with_reducible apply State.wr_elem_keeps
    | with_reducible apply State.wr_keeps
    | with_reducible apply State.setAng_keeps
    | exact hW.fld (by decide +kernel)
    | exact hW.trans (Foot.le_of (by decide +kernel))
    | exact Eq.refl true

theorem execSnapshotTake_keeps {W : Foot} {s0 s : State} {full : Nat} {cycles : Nat} (hW : execSnapshotTakeFrame.Le W) (h : Keeps W s0 s) :
    KeepsOut W s0 (execSnapshotTake full cycles s) := by
  unfold execSnapshotTake
  repeat' first
    | with_reducible assumption
    | with_reducible apply KeepsOut.next
    | with_reducible apply State.answer_keeps
    | with_reducible apply State.wr_elem_keeps
    | with_reducible apply State.wr_keeps
    | with_reducible apply State.clr_keeps
    | exact hW.fld (by decide +kernel)
    | exact hW.trans (Foot.le_of (by decide +kernel))
    | exact Eq.refl true

/-- What `stageHalf` may change. -/
def stageHalfFoot : Foot :=
  ⟨[], [.loHalf], false⟩

theorem stageHalf_keeps {W : Foot} {s0 s : State} {m : Nat} {addr : Nat} {w : Option Word} (hW : stageHalfFoot.Le W) (h : Keeps W s0 s) :
    Keeps W s0 (stageHalf s m addr w) := by
  unfold stageHalf
  repeat' first
    | with_reducible assumption
    | with_reducible apply State.setLoHalf_keeps
    | exact hW.trans (Foot.le_of (by decide +kernel))

theorem execAlarmArm_keeps {W : Foot} {s0 s : State} {m : Nat} {data : Word} (hW : execAlarmArmFrame.Le W) (h : Keeps W s0 s) :
    KeepsOut W s0 (execAlarmArm m data s) := by
  unfold execAlarmArm
  repeat' first
    | with_reducible assumption
    | with_reducible intro _
    | with_reducible apply KeepsOut.next
    | with_reducible apply State.answer_keeps
    | with_reducible apply stageHalf_keeps
    | with_reducible apply corrected_keeps
    | with_reducible apply State.wrWord_keeps
    | with_reducible apply Keeps.when
    | with_reducible apply State.wr_keeps_any
    | exact hW.2.2 rfl
    | exact hW.trans (Foot.le_of (by decide +kernel))
    | split

theorem execAlarmFire_keeps {W : Foot} {s0 s : State} {full : Nat} (hW : execAlarmFireFrame.Le W) (h : Keeps W s0 s) :
    KeepsOut W s0 (execAlarmFire full s) := by
  unfold execAlarmFire
  repeat' first
    | with_reducible assumption
    | with_reducible apply KeepsOut.next
    | with_reducible apply KeepsOut.ite
    | with_reducible apply setAngle_keeps
    | with_reducible apply State.set_keeps
    | with_reducible apply State.clr_keeps
    | exact hW.fld (by decide +kernel)
    | exact hW.trans (Foot.le_of (by decide +kernel))
    | exact Eq.refl true

end Sys2Proof.Machine
end

