-- ==== Sys2Proof/Laws/FootAssistOps.lean ====
section
/-!
SUPPORT. Footprints of the operations of Machine/AssistOps.lean: what each may change, and that it changes nothing else.
-/

namespace Sys2Proof.Machine

set_option Elab.async false

/-- What `stageCeil` may change. -/
def stageCeilFoot : Foot :=
  ⟨[Reg.astStagedPend], [.ast], false⟩

theorem stageCeil_keeps {W : Foot} {s0 s : State} {n : Nat} {i : Nat} {w : Word} (hW : stageCeilFoot.Le W) (h : Keeps W s0 s) :
    Keeps W s0 (stageCeil s n i w) := by
  unfold stageCeil
  repeat' first
    | with_reducible assumption
    | with_reducible apply State.set_elem_keeps
    | with_reducible apply State.setAst_keeps
    | exact hW.fld (by decide +kernel)
    | exact hW.trans (Foot.le_of (by decide +kernel))

/-- What `stageTable` may change. -/
def stageTableFoot : Foot :=
  ⟨[Reg.astStagedPend], [.ast], false⟩

theorem stageTable_keeps {W : Foot} {s0 s : State} {n : Nat} {i : Nat} {w : Word} (hW : stageTableFoot.Le W) (h : Keeps W s0 s) :
    Keeps W s0 (stageTable s n i w) := by
  unfold stageTable
  repeat' first
    | with_reducible assumption
    | with_reducible apply State.set_elem_keeps
    | with_reducible apply State.setAst_keeps
    | exact hW.fld (by decide +kernel)
    | exact hW.trans (Foot.le_of (by decide +kernel))

/-- What `astApplyStaged` may change. -/
def astApplyStagedFoot : Foot :=
  ⟨[Reg.astStagedPend, Reg.astIrqStatusStagedApplied], [.ast], false⟩

theorem astApplyStaged_keeps {W : Foot} {s0 s : State} {n : Nat} (hW : astApplyStagedFoot.Le W) (h : Keeps W s0 s) :
    Keeps W s0 (astApplyStaged s n) := by
  unfold astApplyStaged
  repeat' first
    | with_reducible assumption
    | with_reducible apply State.set_elem_keeps
    | with_reducible apply State.setAst_keeps
    | with_reducible apply State.clr_elem_keeps
    | with_reducible apply Keeps.ite
    | exact hW.fld (by decide +kernel)
    | exact hW.trans (Foot.le_of (by decide +kernel))

/-- What `setInBand` may change. -/
def setInBandFoot : Foot :=
  ⟨[Reg.bwkStatusInband, Reg.bwkStatusGate, Reg.astStatusInband], [.bwk], false⟩

theorem setInBand_keeps {W : Foot} {s0 s : State} {n : Nat} {v : Bool} (hW : setInBandFoot.Le W) (h : Keeps W s0 s) :
    Keeps W s0 (setInBand s n v) := by
  unfold setInBand
  repeat' first
    | with_reducible assumption
    | with_reducible apply State.wr_elem_keeps
    | with_reducible apply State.setBwk_keeps
    | with_reducible apply Keeps.ite
    | exact hW.fld (by decide +kernel)
    | exact hW.trans (Foot.le_of (by decide +kernel))

/-- What `astEnter` may change. -/
def astEnterFoot : Foot :=
  .union [astBandFrame]

theorem astEnter_keeps {W : Foot} {s0 s : State} {n : Nat} {st : Nat} (hW : astEnterFoot.Le W) (h : Keeps W s0 s) :
    Keeps W s0 (astEnter s n st) := by
  unfold astEnter
  repeat' first
    | with_reducible assumption
    | with_reducible apply State.wr_elem_keeps
    | with_reducible apply setInBand_keeps
    | with_reducible apply State.setAst_keeps
    | with_reducible apply State.clr_elem_keeps
    | with_reducible apply Keeps.ite
    | exact hW.fld (by decide +kernel)
    | exact hW.trans (Foot.le_of (by decide +kernel))

/-- What `astDownEvent` may change. -/
def astDownEventFoot : Foot :=
  .union [astBandFrame]

theorem astDownEvent_keeps {W : Foot} {s0 s : State} {n : Nat} (hW : astDownEventFoot.Le W) (h : Keeps W s0 s) :
    Keeps W s0 (astDownEvent s n) := by
  unfold astDownEvent
  repeat' first
    | with_reducible assumption
    | with_reducible apply astEnter_keeps
    | with_reducible apply State.setAst_keeps
    | with_reducible apply Keeps.ite
    | exact hW.trans (Foot.le_of (by decide +kernel))

/-- What `astChainEnd` may change. -/
def astChainEndFoot : Foot :=
  .union [astBandFrame]

theorem astChainEnd_keeps {W : Foot} {s0 s : State} {n : Nat} (hW : astChainEndFoot.Le W) (h : Keeps W s0 s) :
    Keeps W s0 (astChainEnd s n) := by
  unfold astChainEnd
  repeat' first
    | with_reducible assumption
    | with_reducible apply astDownEvent_keeps
    | exact hW.trans (Foot.le_of (by decide +kernel))

/-- What `astRampStart` may change. -/
def astRampStartFoot : Foot :=
  .union [⟨[Reg.astStatusHead, Reg.astStatusGset, Reg.fltCounts0Corrected], [], false⟩, astBandFrame]

theorem astRampStart_keeps {W : Foot} {s0 s : State} {n : Nat} (hW : astRampStartFoot.Le W) (h : Keeps W s0 s) :
    Keeps W s0 (astRampStart s n) := by
  unfold astRampStart
  repeat' first
    | with_reducible assumption
    | with_reducible intro _
    | with_reducible apply astEnter_keeps
    | with_reducible apply State.wr_elem_keeps
    | with_reducible apply Keeps.each
    | with_reducible apply State.setAst_keeps
    | with_reducible apply corrected_keeps
    | with_reducible apply Keeps.ite
    | exact hW.fld (by decide +kernel)
    | exact hW.trans (Foot.le_of (by decide +kernel))

/-- What `astStop` may change. -/
def astStopFoot : Foot :=
  .union [astBandFrame]

theorem astStop_keeps {W : Foot} {s0 s : State} {n : Nat} (hW : astStopFoot.Le W) (h : Keeps W s0 s) :
    Keeps W s0 (astStop s n) := by
  unfold astStop
  repeat' first
    | with_reducible assumption
    | with_reducible apply astEnter_keeps
    | exact hW.trans (Foot.le_of (by decide +kernel))

/-- What `astHeadChange` may change. -/
def astHeadChangeFoot : Foot :=
  .union [astBandFrame]

theorem astHeadChange_keeps {W : Foot} {s0 s : State} {n : Nat} (hW : astHeadChangeFoot.Le W) (h : Keeps W s0 s) :
    Keeps W s0 (astHeadChange s n) := by
  unfold astHeadChange
  repeat' first
    | with_reducible assumption
    | with_reducible apply astDownEvent_keeps
    | exact hW.trans (Foot.le_of (by decide +kernel))

end Sys2Proof.Machine
end

