-- ==== Sys2Proof/Laws/FootCalOps.lean ====
section
/-!
SUPPORT. Footprints of the operations of Machine/CalOps.lean: what each may change, and that it changes nothing else.
-/

namespace Sys2Proof.Machine

set_option Elab.async false

/-- What `calLeave` may change. -/
def calLeaveFoot : Foot :=
  ⟨[Reg.calStatusRunning], [.cal], false⟩

theorem calLeave_keeps {W : Foot} {s0 s : State} {g : Nat} {inst : Nat} (hW : calLeaveFoot.Le W) (h : Keeps W s0 s) :
    Keeps W s0 (calLeave s g inst) := by
  unfold calLeave
  repeat' first
    | with_reducible assumption
    | with_reducible apply State.wr_keeps
    | with_reducible apply State.setCal_keeps
    | with_reducible apply Keeps.ite
    | exact hW.fld (by decide +kernel)
    | exact hW.trans (Foot.le_of (by decide +kernel))
    | exact Eq.refl true

/-- What `calEnter` may change. -/
def calEnterFoot : Foot :=
  ⟨[Reg.calStatusRunning], [.cal], false⟩

theorem calEnter_keeps {W : Foot} {s0 s : State} {g : Nat} {inst : Nat} (hW : calEnterFoot.Le W) (h : Keeps W s0 s) :
    Keeps W s0 (calEnter s g inst) := by
  unfold calEnter
  repeat' first
    | with_reducible assumption
    | with_reducible apply State.wr_keeps
    | with_reducible apply State.setCal_keeps
    | exact hW.fld (by decide +kernel)
    | exact hW.trans (Foot.le_of (by decide +kernel))
    | exact Eq.refl true

/-- What `calStamp` may change. -/
def calStampFoot : Foot :=
  .union [calAbortedFrame]

theorem calStamp_keeps {W : Foot} {s0 s : State} {g : Nat} {inst : Nat} {outcome : Nat} (hW : calStampFoot.Le W) (h : Keeps W s0 s) :
    Keeps W s0 (calStamp s g inst outcome) := by
  unfold calStamp
  repeat' first
    | with_reducible assumption
    | with_reducible apply State.bump_elem_keeps
    | with_reducible apply calLeave_keeps
    | with_reducible apply State.wr_elem_keeps
    | with_reducible apply State.set_keeps
    | with_reducible apply record_keeps
    | with_reducible apply Keeps.ite
    | exact hW.fld (by decide +kernel)
    | exact hW.trans (Foot.le_of (by decide +kernel))
    | exact Eq.refl true
    | split

/-- What `calAborted` may change. -/
def calAbortedFoot : Foot :=
  .union [calAbortedFrame]

theorem calAborted_keeps {W : Foot} {s0 s : State} {g : Nat} {inst : Nat} (hW : calAbortedFoot.Le W) (h : Keeps W s0 s) :
    Keeps W s0 (calAborted s g inst) := by
  unfold calAborted
  repeat' first
    | with_reducible assumption
    | with_reducible apply calStamp_keeps
    | with_reducible apply Keeps.ite
    | exact hW.trans (Foot.le_of (by decide +kernel))

/-- What `calStop` may change. -/
def calStopFoot : Foot :=
  .union [⟨[], [.chan], false⟩, calAbortedFrame]

theorem calStop_keeps {W : Foot} {s0 s : State} (hW : calStopFoot.Le W) (h : Keeps W s0 s) :
    Keeps W s0 (calStop s) := by
  unfold calStop
  repeat' first
    | with_reducible assumption
    | with_reducible intro _
    | with_reducible apply State.setChan_keeps
    | with_reducible apply calAborted_keeps
    | with_reducible apply Keeps.each
    | with_reducible apply State.setCal_keeps
    | exact hW.trans (Foot.le_of (by decide +kernel))

end Sys2Proof.Machine
end

