-- ==== Sys2Proof/Laws/FootBoardwalk.lean ====
section
/-!
SUPPORT. Footprints of the operations of Machine/Boardwalk.lean: what each may change, and that it changes nothing else.
-/

namespace Sys2Proof.Machine

set_option Elab.async false

/-- What `setBwkState` may change. -/
def setBwkStateFoot : Foot :=
  ⟨[Reg.bwkStatusState], [], false⟩

theorem setBwkState_keeps {W : Foot} {s0 s : State} {n : Nat} {v : Nat} (hW : setBwkStateFoot.Le W) (h : Keeps W s0 s) :
    Keeps W s0 (setBwkState s n v) := by
  unfold setBwkState
  repeat' first
    | with_reducible assumption
    | with_reducible apply State.wr_elem_keeps
    | exact hW.fld (by decide +kernel)

/-- What `gateRefresh` may change. -/
def gateRefreshFoot : Foot :=
  ⟨[Reg.bwkStatusGate], [], false⟩

theorem gateRefresh_keeps {W : Foot} {s0 s : State} {n : Nat} (hW : gateRefreshFoot.Le W) (h : Keeps W s0 s) :
    Keeps W s0 (gateRefresh s n) := by
  unfold gateRefresh
  repeat' first
    | with_reducible assumption
    | with_reducible apply State.wr_elem_keeps
    | exact hW.fld (by decide +kernel)

/-- What `wreqLow` may change. -/
def wreqLowFoot : Foot :=
  ⟨[Reg.bwkStatusWreq, Reg.bwkStatusGate], [], false⟩

theorem wreqLow_keeps {W : Foot} {s0 s : State} {n : Nat} (hW : wreqLowFoot.Le W) (h : Keeps W s0 s) :
    Keeps W s0 (wreqLow s n) := by
  unfold wreqLow
  repeat' first
    | with_reducible assumption
    | with_reducible apply State.clr_elem_keeps
    | exact hW.fld (by decide +kernel)

/-- What `bwkNoPlank` may change. -/
def bwkNoPlankFoot : Foot :=
  ⟨[Reg.bwkStatusCurIdx, Reg.bwkStatusCurHead, Reg.bwkStatusCurAction, Reg.bwkStatusState], [], false⟩

theorem bwkNoPlank_keeps {W : Foot} {s0 s : State} {n : Nat} (hW : bwkNoPlankFoot.Le W) (h : Keeps W s0 s) :
    Keeps W s0 (bwkNoPlank s n) := by
  unfold bwkNoPlank
  repeat' first
    | with_reducible assumption
    | with_reducible apply setBwkState_keeps
    | with_reducible apply State.clr_elem_keeps
    | with_reducible apply Keeps.ite
    | exact hW.fld (by decide +kernel)
    | exact hW.trans (Foot.le_of (by decide +kernel))

/-- What `bwkShow` may change. -/
def bwkShowFoot : Foot :=
  ⟨[Reg.bwkStatusCurIdx, Reg.bwkStatusCurHead, Reg.bwkStatusCurAction, Reg.bwkStatusState], [], false⟩

theorem bwkShow_keeps {W : Foot} {s0 s : State} {n : Nat} {p : Plank} (hW : bwkShowFoot.Le W) (h : Keeps W s0 s) :
    Keeps W s0 (bwkShow s n p) := by
  unfold bwkShow
  repeat' first
    | with_reducible assumption
    | with_reducible apply setBwkState_keeps
    | with_reducible apply State.wr_elem_keeps
    | with_reducible apply Keeps.ite
    | exact hW.fld (by decide +kernel)
    | exact hW.trans (Foot.le_of (by decide +kernel))

/-- What `doneWrite` may change. -/
def doneWriteFoot : Foot :=
  .union [⟨[Reg.bwkPlanksCount, Reg.bwkSlipsCount, Reg.bwkIrqStatusRevSlip, Reg.bwkIrqStatusWriteFault,
    Reg.bwkIrqStatusResult, Reg.pmuOvfOvf, Reg.pmuCntLoCount, Reg.pmuCntHiCount], [], false⟩, ringAnswerFrame]

theorem doneWrite_keeps {W : Foot} {s0 s : State} {n : Nat} {d : DonePlank} (hW : doneWriteFoot.Le W) (h : Keeps W s0 s) :
    Keeps W s0 (doneWrite s n d) := by
  unfold doneWrite
  repeat' first
    | with_reducible assumption
    | with_reducible intro _
    | with_reducible apply State.bump_elem_keeps
    | with_reducible apply pmuEvent_keeps
    | with_reducible apply State.set_elem_keeps
    | with_reducible apply ringAnswer_keeps
    | with_reducible apply State.addWrap_elem_keeps
    | with_reducible apply Keeps.when
    | exact hW.fld (by decide +kernel)
    | exact hW.trans (Foot.le_of (by decide +kernel))

/-- What `doneFlush` may change. -/
def doneFlushFoot : Foot :=
  .union [⟨[Reg.bwkPlanksCount, Reg.bwkSlipsCount, Reg.bwkIrqStatusRevSlip, Reg.bwkIrqStatusWriteFault,
    Reg.bwkIrqStatusResult, Reg.pmuOvfOvf, Reg.pmuCntLoCount, Reg.pmuCntHiCount], [.bwk], false⟩, ringAnswerFrame]

theorem doneFlush_keeps {W : Foot} {s0 s : State} {n : Nat} {a2 : Nat} (hW : doneFlushFoot.Le W) (h : Keeps W s0 s) :
    Keeps W s0 (doneFlush s n a2) := by
  induction a2 generalizing s n with
  | zero =>
    unfold doneFlush
    repeat' first
      | with_reducible assumption
  | succ k ih =>
    unfold doneFlush
    repeat' first
      | with_reducible assumption
      | with_reducible apply ih
      | with_reducible apply State.setBwk_keeps
      | with_reducible apply doneWrite_keeps
      | with_reducible apply Keeps.ite
      | exact hW.trans (Foot.le_of (by decide +kernel))
      | split

/-- What `chanRelease` may change. -/
def chanReleaseFoot : Foot :=
  ⟨[Reg.rdcStatusPhase], [.chan], false⟩

theorem chanRelease_keeps {W : Foot} {s0 s : State} {n : Nat} (hW : chanReleaseFoot.Le W) (h : Keeps W s0 s) :
    Keeps W s0 (chanRelease s n) := by
  unfold chanRelease
  repeat' first
    | with_reducible assumption
    | with_reducible apply State.setChan_keeps
    | with_reducible apply State.clr_elem_keeps
    | with_reducible apply Keeps.ite
    | exact hW.fld (by decide +kernel)
    | exact hW.trans (Foot.le_of (by decide +kernel))

/-- What `plankLeave` may change. -/
def plankLeaveFoot : Foot :=
  .union [bwkStopAllFrame]

theorem plankLeave_keeps {W : Foot} {s0 s : State} {n : Nat} {p : Plank} {status : Nat} {endAt : Nat} (hW : plankLeaveFoot.Le W) (h : Keeps W s0 s) :
    Keeps W s0 (plankLeave s n p status endAt) := by
  unfold plankLeave
  repeat' first
    | with_reducible assumption
    | with_reducible intro _
    | with_reducible apply bwkNoPlank_keeps
    | with_reducible apply chanRelease_keeps
    | with_reducible apply doneFlush_keeps
    | with_reducible apply calAborted_keeps
    | with_reducible apply wreqLow_keeps
    | with_reducible apply State.setBwk_keeps
    | with_reducible apply bwkShow_keeps
    | with_reducible apply Keeps.when
    | with_reducible apply astChainEnd_keeps
    | exact hW.trans (Foot.le_of (by decide +kernel))
    | split

/-- What `bwkSettleFront` may change. -/
def bwkSettleFrontFoot : Foot :=
  .union [bwkStopAllFrame]

theorem bwkSettleFront_keeps {W : Foot} {s0 s : State} {n : Nat} {a2 : Nat} (hW : bwkSettleFrontFoot.Le W) (h : Keeps W s0 s) :
    Keeps W s0 (bwkSettleFront s n a2) := by
  induction a2 generalizing s n with
  | zero =>
    unfold bwkSettleFront
    repeat' first
      | with_reducible assumption
  | succ k ih =>
    unfold bwkSettleFront
    repeat' first
      | with_reducible assumption
      | with_reducible apply ih
      | with_reducible apply plankLeave_keeps
      | with_reducible apply Keeps.ite
      | exact hW.trans (Foot.le_of (by decide +kernel))
      | split
      | dsimp only

/-- What `plankEnd` may change. -/
def plankEndFoot : Foot :=
  .union [bwkStopAllFrame]

theorem plankEnd_keeps {W : Foot} {s0 s : State} {n : Nat} {status : Nat} {endAt : Nat} (hW : plankEndFoot.Le W) (h : Keeps W s0 s) :
    Keeps W s0 (plankEnd s n status endAt) := by
  unfold plankEnd
  repeat' first
    | with_reducible assumption
    | with_reducible apply bwkSettleFront_keeps
    | with_reducible apply plankLeave_keeps
    | exact hW.trans (Foot.le_of (by decide +kernel))
    | split

/-- What `bwkFetch` may change. -/
def bwkFetchFoot : Foot :=
  .union [⟨[Reg.fltCounts0Corrected], [], false⟩, bwkStopAllFrame]

theorem bwkFetch_keeps {W : Foot} {s0 s : State} {n : Nat} {full : Nat} (hW : bwkFetchFoot.Le W) (h : Keeps W s0 s) :
    Keeps W s0 (bwkFetch s n full) := by
  unfold bwkFetch
  repeat' first
    | with_reducible assumption
    | with_reducible intro _
    | with_reducible apply ringAdmit_keeps
    | with_reducible apply bwkSettleFront_keeps
    | with_reducible apply contained_keeps
    | with_reducible apply State.setBwk_keeps
    | with_reducible apply bwkShow_keeps
    | with_reducible apply Keeps.when
    | with_reducible apply Keeps.ite
    | exact hW.trans (Foot.le_of (by decide +kernel))

/-- What `bwkJudge` may change. -/
def bwkJudgeFoot : Foot :=
  ⟨[], [.bwk], false⟩

theorem bwkJudge_keeps {W : Foot} {s0 s : State} {n : Nat} {now : Nat} (hW : bwkJudgeFoot.Le W) (h : Keeps W s0 s) :
    Keeps W s0 (bwkJudge s n now) := by
  unfold bwkJudge
  repeat' first
    | with_reducible assumption
    | with_reducible apply State.setBwk_keeps
    | with_reducible apply Keeps.ite
    | exact hW.trans (Foot.le_of (by decide +kernel))
    | split
    | dsimp only

/-- What `chanWait` may change. -/
def chanWaitFoot : Foot :=
  ⟨[Reg.rdcCounts2Waits], [.chan], false⟩

theorem chanWait_keeps {W : Foot} {s0 s : State} {n : Nat} (hW : chanWaitFoot.Le W) (h : Keeps W s0 s) :
    Keeps W s0 (chanWait s n) := by
  unfold chanWait
  repeat' first
    | with_reducible assumption
    | with_reducible apply State.bump_elem_keeps
    | with_reducible apply State.setChan_keeps
    | with_reducible apply Keeps.ite
    | exact hW.fld (by decide +kernel)
    | exact hW.trans (Foot.le_of (by decide +kernel))

/-- What `chanGrant` may change. -/
def chanGrantFoot : Foot :=
  ⟨[Reg.rdcStatusGrant], [.chan], false⟩

theorem chanGrant_keeps {W : Foot} {s0 s : State} {n : Nat} (hW : chanGrantFoot.Le W) (h : Keeps W s0 s) :
    Keeps W s0 (chanGrant s n) := by
  unfold chanGrant
  repeat' first
    | with_reducible assumption
    | with_reducible apply State.setChan_keeps
    | with_reducible apply State.wr_elem_keeps
    | exact hW.fld (by decide +kernel)
    | exact hW.trans (Foot.le_of (by decide +kernel))

/-- What `bwkBegin` may change. -/
def bwkBeginFoot : Foot :=
  .union [⟨[Reg.rdcStatusGrant, Reg.rdcCounts2Waits], [], false⟩, bwkStopAllFrame]

/-- The state that an attempt to begin a plank leaves. -/
def Begin.state : Begin → State
  | .notYet s => s
  | .ended s => s
  | .begun s _ => s

theorem bwkBegin_keeps {W : Foot} {s0 s : State} {n action full : Nat} (hW : bwkBeginFoot.Le W) (h : Keeps W s0 s) :
    Keeps W s0 (bwkBegin s n action full).state := by
  unfold bwkBegin
  dsimp only
  repeat' first
    | assumption
    | with_reducible apply plankEnd_keeps
    | with_reducible apply pmuEvent_keeps
    | with_reducible apply setBwkState_keeps
    | with_reducible apply State.setBwk_keeps
    | with_reducible apply bwkJudge_keeps
    | with_reducible apply chanWait_keeps
    | with_reducible apply chanGrant_keeps
    | with_reducible apply Keeps.ite
    | exact hW.trans (Foot.le_of (by decide +kernel))
    | split
    | dsimp only [Begin.state]

theorem Begin.notYet_keeps {W : Foot} {s0 y : State} {b : Begin} (e : b = .notYet y) (h : Keeps W s0 b.state) : Keeps W s0 y := by
  subst e; exact h

theorem Begin.ended_keeps {W : Foot} {s0 y : State} {b : Begin} (e : b = .ended y) (h : Keeps W s0 b.state) : Keeps W s0 y := by
  subst e; exact h

theorem Begin.begun_keeps {W : Foot} {s0 y : State} {b : Begin} {p : Plank} (e : b = .begun y p) (h : Keeps W s0 b.state) :
    Keeps W s0 y := by
  subst e; exact h

/-- What `writeOutcome` may change. -/
def writeOutcomeFoot : Foot :=
  .union [outcomeAtFrame]

theorem writeOutcome_keeps {W : Foot} {s0 s : State} {p : Plank} {i : Nat} {sstat : Nat} {events : Nat} {iter : Nat} {detail : Nat} (hW : writeOutcomeFoot.Le W) (h : Keeps W s0 s) :
    Keeps W s0 (writeOutcome s p i sstat events iter detail) := by
  unfold writeOutcome
  repeat' first
    | with_reducible assumption
    | with_reducible apply State.store_keeps
    | exact hW.trans (Foot.le_of (by decide +kernel))

theorem execPlankFetch_keeps {W : Foot} {s0 s : State} {n : Nat} {full : Nat} (hW : execPlankFetchFrame.Le W) (h : Keeps W s0 s) :
    KeepsOut W s0 (execPlankFetch n full s) := by
  unfold execPlankFetch
  repeat' first
    | with_reducible assumption
    | with_reducible apply KeepsOut.next
    | with_reducible apply bwkFetch_keeps
    | with_reducible apply bwkJudge_keeps
    | with_reducible apply Keeps.ite
    | exact hW.trans (Foot.le_of (by decide +kernel))
    | split
    | dsimp only

theorem execRingEntryAdmit_keeps {W : Foot} {s0 s : State} {n : Nat} (hW : execRingEntryAdmitFrame.Le W) (h : Keeps W s0 s) :
    KeepsOut W s0 (execRingEntryAdmit n s) := by
  unfold execRingEntryAdmit
  repeat' first
    | with_reducible assumption
    | with_reducible apply KeepsOut.next
    | with_reducible apply KeepsOut.ite
    | with_reducible apply ringAdmit_keeps
    | with_reducible apply bwkFetch_keeps
    | with_reducible apply Keeps.ite
    | exact hW.trans (Foot.le_of (by decide +kernel))

theorem execPlankMark_keeps {W : Foot} {s0 s : State} {n : Nat} {full : Nat} (hW : execPlankMarkFrame.Le W) (h : Keeps W s0 s) :
    KeepsOut W s0 (execPlankMark n full s) := by
  unfold execPlankMark
  repeat' first
    | with_reducible assumption
    | with_reducible apply KeepsOut.next
    | with_reducible apply State.wr_elem_keeps
    | with_reducible apply State.set_elem_keeps
    | with_reducible apply bwkBegin_keeps
    | with_reducible apply plankEnd_keeps
    | (apply Begin.notYet_keeps; assumption)
    | (apply Begin.ended_keeps; assumption)
    | (apply Begin.begun_keeps; assumption)
    | exact hW.fld (by decide +kernel)
    | exact hW.trans (Foot.le_of (by decide +kernel))
    | split

theorem execMarkerPlank_keeps {W : Foot} {s0 s : State} {n : Nat} {full : Nat} (hW : execMarkerPlankFrame.Le W) (h : Keeps W s0 s) :
    KeepsOut W s0 (execMarkerPlank n full s) := by
  unfold execMarkerPlank
  repeat' first
    | with_reducible assumption
    | with_reducible apply KeepsOut.next
    | with_reducible apply KeepsOut.ite
    | with_reducible apply State.wr_elem_keeps
    | with_reducible apply bwkBegin_keeps
    | with_reducible apply Keeps.ite
    | (apply Begin.notYet_keeps; assumption)
    | (apply Begin.ended_keeps; assumption)
    | (apply Begin.begun_keeps; assumption)
    | exact hW.fld (by decide +kernel)
    | exact hW.trans (Foot.le_of (by decide +kernel))
    | split

theorem execNolockTimeout_keeps {W : Foot} {s0 s : State} {n : Nat} {full : Nat} (hW : execNolockTimeoutFrame.Le W) (h : Keeps W s0 s) :
    KeepsOut W s0 (execNolockTimeout n full s) := by
  unfold execNolockTimeout
  repeat' first
    | with_reducible assumption
    | with_reducible apply KeepsOut.next
    | with_reducible apply KeepsOut.ite
    | with_reducible apply setBwkState_keeps
    | with_reducible apply State.set_elem_keeps
    | with_reducible apply plankEnd_keeps
    | exact hW.fld (by decide +kernel)
    | exact hW.trans (Foot.le_of (by decide +kernel))
    | split

/-- What `bwkAbortRest` may change. -/
def bwkAbortRestFoot : Foot :=
  .union [⟨[Reg.fltCounts0Corrected], [], false⟩, bwkStopAllFrame]

theorem bwkAbortRest_keeps {W : Foot} {s0 s : State} {n : Nat} {a2 : Nat} (hW : bwkAbortRestFoot.Le W) (h : Keeps W s0 s) :
    Keeps W s0 (bwkAbortRest s n a2) := by
  induction a2 generalizing s n with
  | zero =>
    unfold bwkAbortRest
    repeat' first
      | with_reducible assumption
  | succ k ih =>
    unfold bwkAbortRest
    repeat' first
      | with_reducible assumption
      | with_reducible apply ih
      | with_reducible apply State.setBwk_keeps
      | with_reducible apply bwkShow_keeps
      | with_reducible apply plankLeave_keeps
      | with_reducible apply ringAdmit_keeps
      | with_reducible apply Keeps.ite
      | exact hW.trans (Foot.le_of (by decide +kernel))
      | split
      | dsimp only

/-- What `bwkEndCurrent` may change. -/
def bwkEndCurrentFoot : Foot :=
  .union [bwkStopAllFrame]

theorem bwkEndCurrent_keeps {W : Foot} {s0 s : State} {n : Nat} {status : Nat} {full : Nat} (hW : bwkEndCurrentFoot.Le W) (h : Keeps W s0 s) :
    Keeps W s0 (bwkEndCurrent s n status full) := by
  unfold bwkEndCurrent
  repeat' first
    | with_reducible assumption
    | with_reducible apply wreqLow_keeps
    | with_reducible apply plankEnd_keeps
    | with_reducible apply Keeps.ite
    | exact hW.trans (Foot.le_of (by decide +kernel))
    | split

/-- What `bwkAbort` may change. -/
def bwkAbortFoot : Foot :=
  .union [⟨[Reg.bwkCtlAbort, Reg.fltCounts0Corrected], [], false⟩, bwkStopAllFrame]

theorem bwkAbort_keeps {W : Foot} {s0 s : State} {n : Nat} {full : Nat} (hW : bwkAbortFoot.Le W) (h : Keeps W s0 s) :
    Keeps W s0 (bwkAbort s n full) := by
  unfold bwkAbort
  repeat' first
    | with_reducible assumption
    | with_reducible apply bwkAbortRest_keeps
    | with_reducible apply State.setBwk_keeps
    | with_reducible apply bwkEndCurrent_keeps
    | with_reducible apply State.clr_elem_keeps
    | exact hW.fld (by decide +kernel)
    | exact hW.trans (Foot.le_of (by decide +kernel))

theorem execBwkAbort_keeps {W : Foot} {s0 s : State} {n : Nat} {full : Nat} (hW : execBwkAbortFrame.Le W) (h : Keeps W s0 s) :
    KeepsOut W s0 (execBwkAbort n full s) := by
  unfold execBwkAbort
  repeat' first
    | with_reducible assumption
    | with_reducible apply KeepsOut.next
    | with_reducible apply State.answer_keeps
    | with_reducible apply bwkAbort_keeps
    | with_reducible apply gatedAccess_keeps
    | exact hW.trans (Foot.le_of (by decide +kernel))

theorem execBwkResume_keeps {W : Foot} {s0 s : State} {n : Nat} (hW : execBwkResumeFrame.Le W) (h : Keeps W s0 s) :
    KeepsOut W s0 (execBwkResume n s) := by
  unfold execBwkResume
  repeat' first
    | with_reducible assumption
    | with_reducible apply KeepsOut.next
    | with_reducible apply KeepsOut.ite
    | with_reducible apply State.answer_keeps
    | with_reducible apply setBwkState_keeps
    | with_reducible apply gatedAccess_keeps
    | exact hW.trans (Foot.le_of (by decide +kernel))

/-- What `bwkStop` may change. -/
def bwkStopFoot : Foot :=
  .union [bwkStopAllFrame]

theorem bwkStop_keeps {W : Foot} {s0 s : State} {n : Nat} {cause : Nat} {full : Nat} (hW : bwkStopFoot.Le W) (h : Keeps W s0 s) :
    Keeps W s0 (bwkStop s n cause full) := by
  unfold bwkStop
  repeat' first
    | with_reducible assumption
    | with_reducible apply wreqLow_keeps
    | with_reducible apply State.setBwk_keeps
    | with_reducible apply bwkEndCurrent_keeps
    | with_reducible apply Keeps.ite
    | exact hW.trans (Foot.le_of (by decide +kernel))

/-- What `bwkStopAll` may change. -/
def bwkStopAllFoot : Foot :=
  .union [bwkStopAllFrame]

theorem bwkStopAll_keeps {W : Foot} {s0 s : State} {cause : Nat} (hW : bwkStopAllFoot.Le W) (h : Keeps W s0 s) :
    Keeps W s0 (bwkStopAll s cause) := by
  unfold bwkStopAll
  repeat' first
    | with_reducible assumption
    | with_reducible apply bwkStop_keeps
    | exact hW.trans (Foot.le_of (by decide +kernel))

end Sys2Proof.Machine
end

