-- ==== Sys2Proof/Laws/FootDomOps.lean ====
section
/-!
SUPPORT. Footprints of the operations of Machine/DomOps.lean: what each may change, and that it changes nothing else.
-/

namespace Sys2Proof.Machine

set_option Elab.async false

/-- What `setDomClock` may change. -/
def setDomClockFoot : Foot :=
  ⟨[Reg.domTimeLoUs, Reg.domTimeHiUs], [], false⟩

theorem setDomClock_keeps {W : Foot} {s0 s : State} {us : Nat} (hW : setDomClockFoot.Le W) (h : Keeps W s0 s) :
    Keeps W s0 (setDomClock s us) := by
  unfold setDomClock
  repeat' first
    | with_reducible assumption
    | with_reducible apply State.wrPair_keeps
    | exact hW.fld (by decide +kernel)
    | exact Eq.refl true

/-- What `domSend` may change. -/
def domSendFoot : Foot :=
  ⟨[Reg.pmuOvfOvf, Reg.pmuCntLoCount, Reg.pmuCntHiCount], [.dom], false⟩

theorem domSend_keeps {W : Foot} {s0 s : State} {f : DomOut} (hW : domSendFoot.Le W) (h : Keeps W s0 s) :
    Keeps W s0 (domSend s f) := by
  unfold domSend
  repeat' first
    | with_reducible assumption
    | with_reducible apply pmuEvent_keeps
    | with_reducible apply State.setDom_keeps
    | exact hW.trans (Foot.le_of (by decide +kernel))

/-- What `domToManager` may change. -/
def domToManagerFoot : Foot :=
  ⟨[Reg.pmuOvfOvf, Reg.pmuCntLoCount, Reg.pmuCntHiCount], [.dom], false⟩

theorem domToManager_keeps {W : Foot} {s0 s : State} {cls : Nat} {type : Nat} {payload : List Byte} (hW : domToManagerFoot.Le W) (h : Keeps W s0 s) :
    Keeps W s0 (domToManager s cls type payload) := by
  unfold domToManager
  repeat' first
    | with_reducible assumption
    | with_reducible apply domSend_keeps
    | exact hW.trans (Foot.le_of (by decide +kernel))

/-- What `domToDevice` may change. -/
def domToDeviceFoot : Foot :=
  ⟨[Reg.pmuOvfOvf, Reg.pmuCntLoCount, Reg.pmuCntHiCount], [.dom], false⟩

theorem domToDevice_keeps {W : Foot} {s0 s : State} {id : Nat} {cls : Nat} {type : Nat} {payload : List Byte} (hW : domToDeviceFoot.Le W) (h : Keeps W s0 s) :
    Keeps W s0 (domToDevice s id cls type payload) := by
  unfold domToDevice
  repeat' first
    | with_reducible assumption
    | with_reducible apply domSend_keeps
    | exact hW.trans (Foot.le_of (by decide +kernel))

/-- What `domBroadcast` may change. -/
def domBroadcastFoot : Foot :=
  ⟨[Reg.pmuOvfOvf, Reg.pmuCntLoCount, Reg.pmuCntHiCount], [.dom], false⟩

theorem domBroadcast_keeps {W : Foot} {s0 s : State} {cls : Nat} {type : Nat} {payload : Nat → List Byte} (hW : domBroadcastFoot.Le W) (h : Keeps W s0 s) :
    Keeps W s0 (domBroadcast s cls type payload) := by
  unfold domBroadcast
  repeat' first
    | with_reducible assumption
    | with_reducible intro _
    | with_reducible apply Keeps.each
    | with_reducible apply domSend_keeps
    | exact hW.trans (Foot.le_of (by decide +kernel))

/-- What `tokenShow` may change. -/
def tokenShowFoot : Foot :=
  ⟨[Reg.domTokenOut], [], false⟩

theorem tokenShow_keeps {W : Foot} {s0 s : State} (hW : tokenShowFoot.Le W) (h : Keeps W s0 s) :
    Keeps W s0 (tokenShow s) := by
  unfold tokenShow
  repeat' first
    | with_reducible assumption
    | with_reducible apply State.wr_keeps
    | exact hW.fld (by decide +kernel)
    | exact Eq.refl true

/-- What `tokenGive` may change. -/
def tokenGiveFoot : Foot :=
  ⟨[Reg.domTokenOut, Reg.domIrqStatusToken, Reg.pmuOvfOvf, Reg.pmuCntLoCount, Reg.pmuCntHiCount], [.dom], false⟩

theorem tokenGive_keeps {W : Foot} {s0 s : State} {r : Nat × Nat} (hW : tokenGiveFoot.Le W) (h : Keeps W s0 s) :
    Keeps W s0 (tokenGive s r) := by
  unfold tokenGive
  repeat' first
    | with_reducible assumption
    | with_reducible apply State.set_keeps
    | with_reducible apply State.setDom_keeps
    | with_reducible apply domToDevice_keeps
    | with_reducible apply tokenShow_keeps
    | with_reducible apply Keeps.ite
    | exact hW.fld (by decide +kernel)
    | exact hW.trans (Foot.le_of (by decide +kernel))
    | exact Eq.refl true

/-- What `tokenPump` may change. -/
def tokenPumpFoot : Foot :=
  ⟨[Reg.domTokenOut, Reg.domIrqStatusToken, Reg.pmuOvfOvf, Reg.pmuCntLoCount, Reg.pmuCntHiCount], [.dom], false⟩

theorem tokenPump_keeps {W : Foot} {s0 s : State} {a1 : Nat} (hW : tokenPumpFoot.Le W) (h : Keeps W s0 s) :
    Keeps W s0 (tokenPump s a1) := by
  induction a1 generalizing s with
  | zero =>
    unfold tokenPump
    repeat' first
      | with_reducible assumption
  | succ k ih =>
    unfold tokenPump
    repeat' first
      | with_reducible assumption
      | with_reducible apply ih
      | with_reducible apply tokenGive_keeps
      | with_reducible apply Keeps.ite
      | exact hW.trans (Foot.le_of (by decide +kernel))
      | split

/-- What `tokenBack` may change. -/
def tokenBackFoot : Foot :=
  ⟨[Reg.domTokenOut, Reg.domIrqStatusToken, Reg.pmuOvfOvf, Reg.pmuCntLoCount, Reg.pmuCntHiCount], [.dom], false⟩

theorem tokenBack_keeps {W : Foot} {s0 s : State} {id : Nat} (hW : tokenBackFoot.Le W) (h : Keeps W s0 s) :
    Keeps W s0 (tokenBack s id) := by
  unfold tokenBack
  repeat' first
    | with_reducible assumption
    | with_reducible apply tokenPump_keeps
    | with_reducible apply State.setDom_keeps
    | with_reducible apply tokenShow_keeps
    | exact hW.trans (Foot.le_of (by decide +kernel))

/-- What `tokenReturn` may change. -/
def tokenReturnFoot : Foot :=
  ⟨[Reg.domTokenOut, Reg.domIrqStatusToken, Reg.pmuOvfOvf, Reg.pmuCntLoCount, Reg.pmuCntHiCount], [.dom], false⟩

theorem tokenReturn_keeps {W : Foot} {s0 s : State} (hW : tokenReturnFoot.Le W) (h : Keeps W s0 s) :
    Keeps W s0 (tokenReturn s) := by
  unfold tokenReturn
  repeat' first
    | with_reducible assumption
    | with_reducible apply domToManager_keeps
    | with_reducible apply State.setDom_keeps
    | with_reducible apply tokenBack_keeps
    | with_reducible apply Keeps.ite
    | exact hW.trans (Foot.le_of (by decide +kernel))

/-- What `tokenAsk` may change. -/
def tokenAskFoot : Foot :=
  ⟨[Reg.pmuOvfOvf, Reg.pmuCntLoCount, Reg.pmuCntHiCount], [.dom], false⟩

theorem tokenAsk_keeps {W : Foot} {s0 s : State} (hW : tokenAskFoot.Le W) (h : Keeps W s0 s) :
    Keeps W s0 (tokenAsk s) := by
  unfold tokenAsk
  repeat' first
    | with_reducible assumption
    | with_reducible apply domToManager_keeps
    | with_reducible apply State.setDom_keeps
    | with_reducible apply Keeps.ite
    | exact hW.trans (Foot.le_of (by decide +kernel))

/-- What `noticeSend` may change. -/
def noticeSendFoot : Foot :=
  ⟨[Reg.domNbrCountsSent, Reg.pmuOvfOvf, Reg.pmuCntLoCount, Reg.pmuCntHiCount], [.dom], false⟩

theorem noticeSend_keeps {W : Foot} {s0 s : State} {act : Nat} {dist : Nat} {amp : Int} (hW : noticeSendFoot.Le W) (h : Keeps W s0 s) :
    Keeps W s0 (noticeSend s act dist amp) := by
  unfold noticeSend
  repeat' first
    | with_reducible assumption
    | with_reducible apply domSend_keeps
    | with_reducible apply State.addWrap_keeps
    | with_reducible apply Keeps.ite
    | exact hW.fld (by decide +kernel)
    | exact hW.trans (Foot.le_of (by decide +kernel))
    | exact Eq.refl true

end Sys2Proof.Machine
end

