-- ==== Sys2Proof/Laws/FootEngine.lean ====
section
/-!
SUPPORT. Footprints of the operations of Machine/Engine.lean: what each may change, and that it changes nothing else.
-/

namespace Sys2Proof.Machine

set_option Elab.async false

/-- What `csCommit` may change. -/
def csCommitFoot : Foot :=
  ⟨[], [.cs], false⟩

theorem csCommit_keeps {W : Foot} {s0 s : State} {inst : Nat} {addr : Nat} {w : BitVec 128} (hW : csCommitFoot.Le W) (h : Keeps W s0 s) :
    Keeps W s0 (csCommit s inst addr w) := by
  unfold csCommit
  repeat' first
    | with_reducible assumption
    | with_reducible apply State.setCs_keeps
    | exact hW.trans (Foot.le_of (by decide +kernel))

/-- What `csReload` may change. -/
def csReloadFoot : Foot :=
  ⟨[], [.cs], false⟩

theorem csReload_keeps {W : Foot} {s0 s : State} {inst : Nat} {addr : Nat} (hW : csReloadFoot.Le W) (h : Keeps W s0 s) :
    Keeps W s0 (csReload s inst addr) := by
  unfold csReload
  repeat' first
    | with_reducible assumption
    | with_reducible intro _
    | with_reducible apply Keeps.each
    | with_reducible apply State.setCs_keeps
    | exact hW.trans (Foot.le_of (by decide +kernel))

/-- What `ceProgram` may change. -/
def ceProgramFoot : Foot :=
  ⟨[], [.free, .ce], false⟩

theorem CeRun.put_free (c : CeRun) (i : Nat) (v : Option Word) : (c.put i v).free = c.free := by
  unfold CeRun.put CeRun.setReg
  split
  · split <;> rfl
  · rfl

theorem CeRun.branch_free (c : CeRun) (k a : Nat) : (c.branch k a).free = c.free := by
  unfold CeRun.branch
  split <;> rfl

theorem CeRun.free_ite {p : Prop} [Decidable p] (a b : CeRun) : (if p then a else b).free = if p then a.free else b.free := by
  split <;> rfl

/-- A word executed never gives a free value back. -/
theorem ceExec_free (ports : Option (List Word)) (w : Nat) (c : CeRun) : c.free ≤ (ceExec ports w c).free := by
  unfold ceExec
  split
  · exact Nat.le_refl _
  · simp only [CeRun.branch_free, CeRun.put_free, CeRun.free_ite, ite_self]
    split
    · exact Nat.le_succ _
    · exact Nat.le_refl _

theorem ceRun_free (fetch : Nat → CsWord) (upset : Option Upset) (ports : Option (List Word)) (k : Nat) (c : CeRun) :
    c.free ≤ (ceRun fetch upset ports k c).free := by
  induction k generalizing c with
  | zero => exact Nat.le_refl _
  | succ k ih =>
    unfold ceRun
    split
    · exact Nat.le_refl _
    · split
      · exact Nat.le_refl _
      · exact Nat.le_trans (ceExec_free _ _ _) (ih _)

theorem ceRun_free_of {fetch : Nat → CsWord} {upset : Option Upset} {ports : Option (List Word)} {k n : Nat} {c : CeRun}
    (h : n = c.free) : n ≤ (ceRun fetch upset ports k c).free := h ▸ ceRun_free fetch upset ports k c

theorem ceProgram_keeps {W : Foot} {s0 s : State} {e code budget : Nat} {upset : Option Upset} {ports : Option (List Word)}
    (hW : ceProgramFoot.Le W) (h : Keeps W s0 s) : Keeps W s0 (ceProgram s e code budget upset ports).2 := by
  refine h.trans ⟨fun _ _ _ _ => rfl, fun p hp => ?_, rfl, id, id, ?_⟩
  · cases p <;> first | exact absurd (hW.part (by decide +kernel)) hp | rfl
  · unfold ceProgram
    exact ceRun_free_of rfl

/-- What `setCeMem` may change. -/
def setCeMemFoot : Foot :=
  ⟨[], [.ce], false⟩

theorem setCeMem_keeps {W : Foot} {s0 s : State} {e : Nat} {a : Nat} {v : Word} (hW : setCeMemFoot.Le W) (h : Keeps W s0 s) :
    Keeps W s0 (setCeMem s e a v) := by
  unfold setCeMem
  repeat' first
    | with_reducible assumption
    | with_reducible apply State.setCe_keeps
    | exact hW.trans (Foot.le_of (by decide +kernel))

/-- What `ceParityNote` may change. -/
def ceParityNoteFoot : Foot :=
  ⟨[], [.cs, .ce], false⟩

theorem ceParityNote_keeps {W : Foot} {s0 s : State} {e : Nat} {addr : Nat} (hW : ceParityNoteFoot.Le W) (h : Keeps W s0 s) :
    Keeps W s0 (ceParityNote s e addr) := by
  unfold ceParityNote
  repeat' first
    | with_reducible assumption
    | with_reducible apply State.setCe_keeps
    | with_reducible apply csReload_keeps
    | exact hW.trans (Foot.le_of (by decide +kernel))

end Sys2Proof.Machine
end

