-- ==== Sys2Proof/Laws/FootServoOps.lean ====
section
/-!
SUPPORT. Footprints of the operations of Machine/ServoOps.lean: what each may change, and that it changes nothing else.
-/

namespace Sys2Proof.Machine

set_option Elab.async false

/-- What `roundFree` may change. -/
def roundFreeFoot : Foot :=
  ⟨[], [.free], false⟩

theorem roundFree_keeps {W : Foot} {s0 s : State} {num : Int} {den : Nat} (hW : roundFreeFoot.Le W) (h : Keeps W s0 s) :
    Keeps W s0 (roundFree s num den).2 := by
  unfold roundFree
  repeat' first
    | with_reducible assumption
    | with_reducible apply Keeps.snd_ite
    | with_reducible apply State.takeFree_keeps
    | exact hW.part (by decide +kernel)

/-- What `setTarget` may change. -/
def setTargetFoot : Foot :=
  ⟨[Reg.srvTargetTarget], [], false⟩

theorem setTarget_keeps {W : Foot} {s0 s : State} {n : Nat} {v : Nat} (hW : setTargetFoot.Le W) (h : Keeps W s0 s) :
    Keeps W s0 (setTarget s n v) := by
  unfold setTarget
  repeat' first
    | with_reducible assumption
    | with_reducible apply State.wr_elem_keeps
    | exact hW.fld (by decide +kernel)

/-- What `setOnTrack` may change. -/
def setOnTrackFoot : Foot :=
  ⟨[Reg.bwkStatusOntrack, Reg.bwkStatusGate, Reg.srvStatusOntrack], [.bwk], false⟩

theorem setOnTrack_keeps {W : Foot} {s0 s : State} {n : Nat} {v : Bool} (hW : setOnTrackFoot.Le W) (h : Keeps W s0 s) :
    Keeps W s0 (setOnTrack s n v) := by
  unfold setOnTrack
  repeat' first
    | with_reducible assumption
    | with_reducible apply State.wr_elem_keeps
    | with_reducible apply State.setBwk_keeps
    | with_reducible apply gateRefresh_keeps
    | with_reducible apply Keeps.ite
    | exact hW.fld (by decide +kernel)
    | exact hW.trans (Foot.le_of (by decide +kernel))

/-- What `srvLastFault` may change. -/
def srvLastFaultFoot : Foot :=
  ⟨[Reg.srvLastFaultWedge, Reg.srvLastFaultCause], [], false⟩

theorem srvLastFault_keeps {W : Foot} {s0 s : State} {n : Nat} {cause : Nat} (hW : srvLastFaultFoot.Le W) (h : Keeps W s0 s) :
    Keeps W s0 (srvLastFault s n cause) := by
  unfold srvLastFault
  repeat' first
    | with_reducible assumption
    | with_reducible apply State.wr_elem_keeps
    | exact hW.fld (by decide +kernel)

/-- What `srvEnterIrq` may change. -/
def srvEnterIrqFoot : Foot :=
  ⟨[Reg.srvIrqStatusParked, Reg.srvIrqStatusRetract, Reg.srvIrqStatusFallback, Reg.srvIrqStatusCoast,
    Reg.srvIrqStatusSettled], [], false⟩

theorem srvEnterIrq_keeps {W : Foot} {s0 s : State} {n : Nat} {st : Nat} (hW : srvEnterIrqFoot.Le W) (h : Keeps W s0 s) :
    Keeps W s0 (srvEnterIrq s n st) := by
  unfold srvEnterIrq
  repeat' first
    | with_reducible assumption
    | with_reducible apply State.set_elem_keeps
    | with_reducible apply Keeps.ite
    | exact hW.fld (by decide +kernel)

/-- What `srvEnter` may change. -/
def srvEnterFoot : Foot :=
  .union [unloadRampReachedFrame]

theorem srvEnter_keeps {W : Foot} {s0 s : State} {n : Nat} {st : Nat} (hW : srvEnterFoot.Le W) (h : Keeps W s0 s) :
    Keeps W s0 (srvEnter s n st) := by
  unfold srvEnter
  repeat' first
    | with_reducible assumption
    | with_reducible apply srvEnterIrq_keeps
    | with_reducible apply State.wr_elem_keeps
    | with_reducible apply setOnTrack_keeps
    | with_reducible apply State.setSrv_keeps
    | with_reducible apply Keeps.ite
    | exact hW.fld (by decide +kernel)
    | exact hW.trans (Foot.le_of (by decide +kernel))

/-- What `srvOut` may change. -/
def srvOutFoot : Foot :=
  ⟨[Reg.srvOutMa, Reg.srvOutVcm], [], false⟩

theorem srvOut_keeps {W : Foot} {s0 s : State} {n : Nat} {vcm : Int} {ma : Int} (hW : srvOutFoot.Le W) (h : Keeps W s0 s) :
    Keeps W s0 (srvOut s n vcm ma) := by
  unfold srvOut
  repeat' first
    | with_reducible assumption
    | with_reducible apply State.wr_elem_keeps
    | exact hW.fld (by decide +kernel)

/-- What `seekClear` may change. -/
def seekClearFoot : Foot :=
  ⟨[], [.srv], false⟩

theorem seekClear_keeps {W : Foot} {s0 s : State} {n : Nat} (hW : seekClearFoot.Le W) (h : Keeps W s0 s) :
    Keeps W s0 (seekClear s n) := by
  unfold seekClear
  repeat' first
    | with_reducible assumption
    | with_reducible apply State.setSrv_keeps
    | exact hW.trans (Foot.le_of (by decide +kernel))

/-- What `servoPlankFault` may change. -/
def servoPlankFaultFoot : Foot :=
  .union [bwkStopAllFrame]

theorem servoPlankFault_keeps {W : Foot} {s0 s : State} {n : Nat} (hW : servoPlankFaultFoot.Le W) (h : Keeps W s0 s) :
    Keeps W s0 (servoPlankFault s n) := by
  unfold servoPlankFault
  repeat' first
    | with_reducible assumption
    | with_reducible apply plankEnd_keeps
    | with_reducible apply Keeps.ite
    | exact hW.trans (Foot.le_of (by decide +kernel))
    | split
    | dsimp only

/-- What `seekPlankFault` may change. -/
def seekPlankFaultFoot : Foot :=
  .union [bwkStopAllFrame]

theorem seekPlankFault_keeps {W : Foot} {s0 s : State} {n : Nat} (hW : seekPlankFaultFoot.Le W) (h : Keeps W s0 s) :
    Keeps W s0 (seekPlankFault s n) := by
  unfold seekPlankFault
  repeat' first
    | with_reducible assumption
    | with_reducible apply plankEnd_keeps
    | exact hW.trans (Foot.le_of (by decide +kernel))
    | split

/-- What `srvFallbackEnter` may change. -/
def srvFallbackEnterFoot : Foot :=
  .union [⟨[Reg.srvOutMa, Reg.srvLastFaultWedge, Reg.srvLastFaultCause, Reg.srvCountsFallbacks], [], false⟩,
    bwkStopAllFrame, unloadRampReachedFrame]

theorem srvFallbackEnter_keeps {W : Foot} {s0 s : State} {n : Nat} {cause : Nat} (hW : srvFallbackEnterFoot.Le W) (h : Keeps W s0 s) :
    Keeps W s0 (srvFallbackEnter s n cause) := by
  unfold srvFallbackEnter
  repeat' first
    | with_reducible assumption
    | with_reducible apply State.bump_elem_keeps
    | with_reducible apply seekClear_keeps
    | with_reducible apply srvEnter_keeps
    | with_reducible apply pmuEvent_keeps
    | with_reducible apply contained_keeps
    | with_reducible apply srvLastFault_keeps
    | with_reducible apply servoPlankFault_keeps
    | with_reducible apply State.clr_elem_keeps
    | exact hW.fld (by decide +kernel)
    | exact hW.trans (Foot.le_of (by decide +kernel))

/-- What `srvLawFault` may change. -/
def srvLawFaultFoot : Foot :=
  .union [⟨[Reg.srvOutMa, Reg.srvOutVcm, Reg.srvLastFaultWedge, Reg.srvLastFaultCause, Reg.srvCountsFallbacks,
    Reg.srvIrqStatusLawEvent], [], false⟩, bwkStopAllFrame, unloadRampReachedFrame]

theorem srvLawFault_keeps {W : Foot} {s0 s : State} {n : Nat} {cause : Nat} (hW : srvLawFaultFoot.Le W) (h : Keeps W s0 s) :
    Keeps W s0 (srvLawFault s n cause) := by
  unfold srvLawFault
  repeat' first
    | with_reducible assumption
    | with_reducible apply srvFallbackEnter_keeps
    | with_reducible apply State.wr_elem_keeps
    | with_reducible apply State.set_elem_keeps
    | with_reducible apply Keeps.ite
    | exact hW.fld (by decide +kernel)
    | exact hW.trans (Foot.le_of (by decide +kernel))

/-- What `settleNearest` may change. -/
def settleNearestFoot : Foot :=
  .union [⟨[Reg.srvStatusHold, Reg.srvStatusSat, Reg.srvStatusCoastCnt, Reg.srvTargetTarget, Reg.srvIntegS], [],
    false⟩, unloadRampReachedFrame]

theorem settleNearest_keeps {W : Foot} {s0 s : State} {n : Nat} (hW : settleNearestFoot.Le W) (h : Keeps W s0 s) :
    Keeps W s0 (settleNearest s n) := by
  unfold settleNearest
  repeat' first
    | with_reducible assumption
    | with_reducible apply srvEnter_keeps
    | with_reducible apply State.setSrv_keeps
    | with_reducible apply State.clr_elem_keeps
    | with_reducible apply setTarget_keeps
    | exact hW.fld (by decide +kernel)
    | exact hW.trans (Foot.le_of (by decide +kernel))

/-- What `srvRetracting_` may change. -/
def srvRetracting_Foot : Foot :=
  .union [⟨[Reg.srvOutMa, Reg.srvLastFaultWedge, Reg.srvLastFaultCause], [], false⟩, bwkStopAllFrame,
    unloadRampReachedFrame]

theorem srvRetracting__keeps {W : Foot} {s0 s : State} {n : Nat} {cause : Nat} (hW : srvRetracting_Foot.Le W) (h : Keeps W s0 s) :
    Keeps W s0 (srvRetracting_ s n cause) := by
  unfold srvRetracting_
  repeat' first
    | with_reducible assumption
    | with_reducible apply seekClear_keeps
    | with_reducible apply srvEnter_keeps
    | with_reducible apply srvLastFault_keeps
    | with_reducible apply State.clr_elem_keeps
    | with_reducible apply seekPlankFault_keeps
    | with_reducible apply Keeps.ite
    | exact hW.fld (by decide +kernel)
    | exact hW.trans (Foot.le_of (by decide +kernel))

/-- What `hvRetract` may change. -/
def hvRetractFoot : Foot :=
  .union [hvRetractFrame]

theorem hvRetract_keeps {W : Foot} {s0 s : State} {n : Nat} {hvCause : Nat} {srvCause : Nat} (hW : hvRetractFoot.Le W) (h : Keeps W s0 s) :
    Keeps W s0 (hvRetract s n hvCause srvCause) := by
  unfold hvRetract
  repeat' first
    | with_reducible assumption
    | with_reducible apply srvRetracting__keeps
    | with_reducible apply State.wr_elem_keeps
    | with_reducible apply State.set_elem_keeps
    | with_reducible apply State.clr_elem_keeps
    | with_reducible apply Keeps.ite
    | exact hW.fld (by decide +kernel)
    | exact hW.trans (Foot.le_of (by decide +kernel))

/-- What `hvRetractBoth` may change. -/
def hvRetractBothFoot : Foot :=
  .union [hvRetractFrame]

theorem hvRetractBoth_keeps {W : Foot} {s0 s : State} {hvCause : Nat} {srvCause : Nat} (hW : hvRetractBothFoot.Le W) (h : Keeps W s0 s) :
    Keeps W s0 (hvRetractBoth s hvCause srvCause) := by
  unfold hvRetractBoth
  repeat' first
    | with_reducible assumption
    | with_reducible apply hvRetract_keeps
    | exact hW.trans (Foot.le_of (by decide +kernel))

/-- What `retractLine` may change. -/
def retractLineFoot : Foot :=
  .union [⟨[Reg.hvbStatusRetractLine], [], false⟩, hvRetractFrame]

theorem retractLine_keeps {W : Foot} {s0 s : State} (hW : retractLineFoot.Le W) (h : Keeps W s0 s) :
    Keeps W s0 (retractLine s) := by
  unfold retractLine
  repeat' first
    | with_reducible assumption
    | with_reducible apply hvRetractBoth_keeps
    | with_reducible apply State.set_keeps
    | exact hW.fld (by decide +kernel)
    | exact hW.trans (Foot.le_of (by decide +kernel))
    | exact Eq.refl true

/-- What `hvFault` may change. -/
def hvFaultFoot : Foot :=
  .union [⟨[Reg.pwrIrqStatusHvFault, Reg.hvbStatusHvFaultLine, Reg.hvFaultCauseCause], [], false⟩, ringAnswerFrame]

theorem hvFault_keeps {W : Foot} {s0 s : State} {bits : Nat} (hW : hvFaultFoot.Le W) (h : Keeps W s0 s) :
    Keeps W s0 (hvFault s bits) := by
  unfold hvFault
  repeat' first
    | with_reducible assumption
    | with_reducible apply mailboxNotice_keeps
    | with_reducible apply State.wr_keeps
    | with_reducible apply State.set_keeps
    | with_reducible apply Keeps.ite
    | exact hW.fld (by decide +kernel)
    | exact hW.trans (Foot.le_of (by decide +kernel))
    | exact Eq.refl true

/-- What `setInteg` may change. -/
def setIntegFoot : Foot :=
  ⟨[Reg.srvIntegS], [.free], false⟩

theorem setInteg_keeps {W : Foot} {s0 s : State} {n : Nat} {v : Int} (hW : setIntegFoot.Le W) (h : Keeps W s0 s) :
    Keeps W s0 (setInteg s n v) := by
  unfold setInteg
  repeat' first
    | with_reducible assumption
    | with_reducible apply State.wr_elem_keeps
    | with_reducible apply State.takeFree_keeps
    | with_reducible apply Keeps.ite
    | exact hW.fld (by decide +kernel)
    | exact hW.part (by decide +kernel)

/-- What `setHold` may change. -/
def setHoldFoot : Foot :=
  ⟨[Reg.srvStatusHold], [.srv], false⟩

theorem setHold_keeps {W : Foot} {s0 s : State} {n : Nat} {err : Int} (hW : setHoldFoot.Le W) (h : Keeps W s0 s) :
    Keeps W s0 (setHold s n err) := by
  unfold setHold
  repeat' first
    | with_reducible assumption
    | with_reducible apply State.set_elem_keeps
    | with_reducible apply State.setSrv_keeps
    | exact hW.fld (by decide +kernel)
    | exact hW.trans (Foot.le_of (by decide +kernel))

/-- What `swapInteg` may change. -/
def swapIntegFoot : Foot :=
  ⟨[Reg.srvStatusHold, Reg.srvStatusSat, Reg.srvStatusSatHi, Reg.srvIntegS], [.free, .srv], false⟩

theorem swapInteg_keeps {W : Foot} {s0 s : State} {n : Nat} {o : Option (List Byte)} {b : List Byte} {err : Int} (hW : swapIntegFoot.Le W) (h : Keeps W s0 s) :
    Keeps W s0 (swapInteg s n o b err) := by
  unfold swapInteg
  repeat' first
    | with_reducible assumption
    | with_reducible apply setInteg_keeps
    | with_reducible apply State.wr_elem_keeps
    | with_reducible apply State.set_elem_keeps
    | with_reducible apply setHold_keeps
    | with_reducible apply State.clr_elem_keeps
    | with_reducible apply Keeps.ite
    | exact hW.fld (by decide +kernel)
    | exact hW.trans (Foot.le_of (by decide +kernel))
    | split

/-- What `gainSwap` may change. -/
def gainSwapFoot : Foot :=
  ⟨[Reg.srvStatusGset, Reg.srvStatusHold, Reg.srvStatusSat, Reg.srvStatusSatHi, Reg.srvIntegS], [.free, .srv, .ce],
    false⟩

theorem gainSwap_keeps {W : Foot} {s0 s : State} {n : Nat} {i : Nat} {err : Int} (hW : gainSwapFoot.Le W) (h : Keeps W s0 s) :
    Keeps W s0 (gainSwap s n i err) := by
  unfold gainSwap
  repeat' first
    | with_reducible assumption
    | with_reducible intro _
    | with_reducible apply setCeMem_keeps
    | with_reducible apply State.wr_elem_keeps
    | with_reducible apply Keeps.each
    | with_reducible apply swapInteg_keeps
    | with_reducible apply State.setSrv_keeps
    | exact hW.fld (by decide +kernel)
    | exact hW.trans (Foot.le_of (by decide +kernel))

/-- What `outInteg` may change. -/
def outIntegFoot : Foot :=
  ⟨[Reg.srvStatusHold, Reg.srvStatusSat, Reg.srvStatusSatHi, Reg.srvIntegS], [.free, .srv], false⟩

theorem outInteg_keeps {W : Foot} {s0 s : State} {n : Nat} {v : Int} {err : Int} (hW : outIntegFoot.Le W) (h : Keeps W s0 s) :
    Keeps W s0 (outInteg s n v err) := by
  unfold outInteg
  repeat' first
    | with_reducible assumption
    | with_reducible apply setInteg_keeps
    | with_reducible apply State.wr_elem_keeps
    | with_reducible apply State.set_elem_keeps
    | with_reducible apply setHold_keeps
    | with_reducible apply State.clr_elem_keeps
    | with_reducible apply Keeps.ite
    | exact hW.fld (by decide +kernel)
    | exact hW.trans (Foot.le_of (by decide +kernel))
    | split

/-- What `seekBegin` may change. -/
def seekBeginFoot : Foot :=
  .union [⟨[Reg.srvStatusHead, Reg.srvTargetTarget, Reg.pmuOvfOvf, Reg.pmuCntLoCount, Reg.pmuCntHiCount], [], false⟩,
    unloadRampReachedFrame, astBandFrame]

theorem seekBegin_keeps {W : Foot} {s0 s : State} {n : Nat} {head : Nat} {track : Nat} {profile : Nat} {full : Nat} (hW : seekBeginFoot.Le W) (h : Keeps W s0 s) :
    Keeps W s0 (seekBegin s n head track profile full) := by
  unfold seekBegin
  repeat' first
    | with_reducible assumption
    | with_reducible intro _
    | with_reducible apply srvEnter_keeps
    | with_reducible apply pmuEvent_keeps
    | with_reducible apply State.wr_elem_keeps
    | with_reducible apply astHeadChange_keeps
    | with_reducible apply Keeps.when
    | with_reducible apply State.setSrv_keeps
    | with_reducible apply setTarget_keeps
    | with_reducible apply Keeps.ite
    | exact hW.fld (by decide +kernel)
    | exact hW.trans (Foot.le_of (by decide +kernel))

/-- What `spnEnter` may change. -/
def spnEnterFoot : Foot :=
  .union [spnLeaveTokenFrame]

theorem spnEnter_keeps {W : Foot} {s0 s : State} {st : Nat} (hW : spnEnterFoot.Le W) (h : Keeps W s0 s) :
    Keeps W s0 (spnEnter s st) := by
  unfold spnEnter
  repeat' first
    | with_reducible assumption
    | with_reducible intro _
    | with_reducible apply State.setSpn_keeps
    | with_reducible apply State.wr_keeps
    | with_reducible apply State.set_keeps
    | with_reducible apply tokenReturn_keeps
    | with_reducible apply Keeps.when
    | with_reducible apply State.clr_keeps
    | with_reducible apply Keeps.ite
    | exact hW.fld (by decide +kernel)
    | exact hW.trans (Foot.le_of (by decide +kernel))
    | exact Eq.refl true

/-- What `spnFaultEnter` may change. -/
def spnFaultEnterFoot : Foot :=
  .union [⟨[Reg.angRungResult, Reg.angRungPhase, Reg.angRungPend, Reg.angIrqStatusRungDone, Reg.spnFaultCause],
    [.ang], false⟩, hvRetractFrame, spnLeaveTokenFrame]

theorem spnFaultEnter_keeps {W : Foot} {s0 s : State} {cause : Nat} (hW : spnFaultEnterFoot.Le W) (h : Keeps W s0 s) :
    Keeps W s0 (spnFaultEnter s cause) := by
  unfold spnFaultEnter
  repeat' first
    | with_reducible assumption
    | with_reducible apply spnEnter_keeps
    | with_reducible apply hvRetractBoth_keeps
    | with_reducible apply State.wr_keeps
    | with_reducible apply rungSpindleFault_keeps
    | exact hW.fld (by decide +kernel)
    | exact hW.trans (Foot.le_of (by decide +kernel))
    | exact Eq.refl true

end Sys2Proof.Machine
end

