-- ==== Sys2Proof/Laws/FootCacheOps.lean ====
section
/-!
SUPPORT. Footprints of the operations of Machine/CacheOps.lean: what each may change, and that it changes nothing else.
-/

namespace Sys2Proof.Machine

set_option Elab.async false

/-- What `bcmDirtyShow` may change. -/
def bcmDirtyShowFoot : Foot :=
  ⟨[Reg.bcmDirtyLines], [], false⟩

theorem bcmDirtyShow_keeps {W : Foot} {s0 s : State} (hW : bcmDirtyShowFoot.Le W) (h : Keeps W s0 s) :
    Keeps W s0 (bcmDirtyShow s) := by
  unfold bcmDirtyShow
  repeat' first
    | with_reducible assumption
    | with_reducible apply State.wr_keeps
    | exact hW.fld (by decide +kernel)
    | exact Eq.refl true

/-- What `bcmDrop` may change. -/
def bcmDropFoot : Foot :=
  ⟨[], [.bcm], false⟩

theorem bcmDrop_keeps {W : Foot} {s0 s : State} {l : Line} (hW : bcmDropFoot.Le W) (h : Keeps W s0 s) :
    Keeps W s0 (bcmDrop s l) := by
  unfold bcmDrop
  repeat' first
    | with_reducible assumption
    | with_reducible apply State.setBcm_keeps
    | exact hW.trans (Foot.le_of (by decide +kernel))

/-- What `bcmPut` may change. -/
def bcmPutFoot : Foot :=
  ⟨[Reg.bcmDirtyLines], [.bcm], false⟩

theorem bcmPut_keeps {W : Foot} {s0 s : State} {l : Line} {new : Line} (hW : bcmPutFoot.Le W) (h : Keeps W s0 s) :
    Keeps W s0 (bcmPut s l new) := by
  unfold bcmPut
  repeat' first
    | with_reducible assumption
    | with_reducible apply bcmDirtyShow_keeps
    | with_reducible apply State.setBcm_keeps
    | with_reducible apply bcmDrop_keeps
    | with_reducible apply Keeps.ite
    | exact hW.trans (Foot.le_of (by decide +kernel))

/-- What `bcmAdd` may change. -/
def bcmAddFoot : Foot :=
  ⟨[Reg.bcmDirtyLines], [.bcm], false⟩

theorem bcmAdd_keeps {W : Foot} {s0 s : State} {l : Line} (hW : bcmAddFoot.Le W) (h : Keeps W s0 s) :
    Keeps W s0 (bcmAdd s l) := by
  unfold bcmAdd
  repeat' first
    | with_reducible assumption
    | with_reducible apply bcmDirtyShow_keeps
    | with_reducible apply State.setBcm_keeps
    | exact hW.trans (Foot.le_of (by decide +kernel))

/-- What `bcmTick` may change. -/
def bcmTickFoot : Foot :=
  ⟨[], [.bcm], false⟩

theorem bcmTick_keeps {W : Foot} {s0 s : State} (hW : bcmTickFoot.Le W) (h : Keeps W s0 s) :
    Keeps W s0 (bcmTick s) := by
  unfold bcmTick
  repeat' first
    | with_reducible assumption
    | with_reducible apply State.setBcm_keeps
    | exact hW.trans (Foot.le_of (by decide +kernel))

/-- What `bcmTouch` may change. -/
def bcmTouchFoot : Foot :=
  ⟨[Reg.bcmDirtyLines], [.bcm], false⟩

theorem bcmTouch_keeps {W : Foot} {s0 s : State} {l : Line} (hW : bcmTouchFoot.Le W) (h : Keeps W s0 s) :
    Keeps W s0 (bcmTouch s l) := by
  unfold bcmTouch
  repeat' first
    | with_reducible assumption
    | with_reducible apply bcmTick_keeps
    | with_reducible apply bcmPut_keeps
    | exact hW.trans (Foot.le_of (by decide +kernel))

/-- What `takeFrame` may change. -/
def takeFrameFoot : Foot :=
  ⟨[], [.free, .bcm], false⟩

theorem takeFrame_keeps {W : Foot} {s0 s : State} {keep : Option Line} (hW : takeFrameFoot.Le W) (h : Keeps W s0 s) :
    ∀ f y, takeFrame s keep = some (f, y) → Keeps W s0 y := by
  intro f y e
  unfold takeFrame at e
  dsimp only at e
  split at e
  · split at e
    · cases e
    · split at e
      · cases e
      · cases e
        exact bcmDrop_keeps (hW.trans (Foot.le_of (by decide +kernel))) h
  · cases e
    exact State.takeFree_keeps (hW.part (by decide +kernel)) h

/-- What `evictIn` may change. -/
def evictInFoot : Foot :=
  ⟨[Reg.bcmDirtyLines, Reg.pmuOvfOvf, Reg.pmuCntLoCount, Reg.pmuCntHiCount], [.bcm], false⟩

theorem evictIn_keeps {W : Foot} {s0 s : State} {l : Line} (hW : evictInFoot.Le W) (h : Keeps W s0 s) :
    Keeps W s0 (evictIn s l).1 := by
  unfold evictIn
  repeat' first
    | with_reducible assumption
    | with_reducible apply bcmTick_keeps
    | with_reducible apply bcmDirtyShow_keeps
    | with_reducible apply State.setBcm_keeps
    | with_reducible apply pmuEvent_keeps
    | with_reducible apply bcmDrop_keeps
    | with_reducible apply Keeps.ite
    | exact hW.trans (Foot.le_of (by decide +kernel))
    | split

/-- What `wayTake` may change. -/
def wayTakeFoot : Foot :=
  ⟨[Reg.bcmDirtyLines, Reg.pmuOvfOvf, Reg.pmuCntLoCount, Reg.pmuCntHiCount], [.free, .bcm], false⟩

theorem wayTake_keeps {W : Foot} {s0 s : State} {la : Nat} (hW : wayTakeFoot.Le W) (h : Keeps W s0 s) :
    ∀ w f y, wayTake s la = some (w, f, y) → Keeps W s0 y := by
  intro w f y e
  unfold wayTake at e
  split at e
  · cases e
  · split at e
    · cases e
    · cases e
      exact h
    · dsimp only at e
      split at e
      · cases e
      · rename_i hf
        cases e
        exact bcmDirtyShow_keeps (hW.trans (Foot.le_of (by decide +kernel)))
          (takeFrame_keeps (hW.trans (Foot.le_of (by decide +kernel)))
            (evictIn_keeps (hW.trans (Foot.le_of (by decide +kernel))) h) _ _ hf)

/-- What `lineToSet` may change. -/
def lineToSetFoot : Foot :=
  ⟨[Reg.bcmDirtyLines, Reg.pmuOvfOvf, Reg.pmuCntLoCount, Reg.pmuCntHiCount], [.bcm], false⟩

theorem lineToSet_keeps {W : Foot} {s0 s : State} {l : Line} (hW : lineToSetFoot.Le W) (h : Keeps W s0 s) :
    Keeps W s0 (lineToSet s l) := by
  unfold lineToSet
  repeat' first
    | with_reducible assumption
    | with_reducible apply bcmDirtyShow_keeps
    | with_reducible apply bcmPut_keeps
    | with_reducible apply evictIn_keeps
    | with_reducible apply Keeps.ite
    | exact hW.trans (Foot.le_of (by decide +kernel))
    | split

/-- What `lineHit` may change. -/
def lineHitFoot : Foot :=
  ⟨[Reg.bcmCounts2Recalls, Reg.bcmCounts2Remaps, Reg.bcmDirtyLines, Reg.pmuOvfOvf, Reg.pmuCntLoCount,
    Reg.pmuCntHiCount], [.bcm], false⟩

theorem lineHit_keeps {W : Foot} {s0 s : State} {l : Line} (hW : lineHitFoot.Le W) (h : Keeps W s0 s) :
    Keeps W s0 (lineHit s l) := by
  unfold lineHit
  repeat' first
    | with_reducible assumption
    | with_reducible apply State.bump_keeps
    | with_reducible apply lineToSet_keeps
    | with_reducible apply pmuEvent_keeps
    | with_reducible apply bcmTouch_keeps
    | exact hW.fld (by decide +kernel)
    | exact hW.trans (Foot.le_of (by decide +kernel))
    | exact Eq.refl true
    | split
    | dsimp only

/-- What `bcmAlloc` may change. -/
def bcmAllocFoot : Foot :=
  ⟨[Reg.bcmCounts2Recalls, Reg.bcmCounts2Remaps, Reg.bcmCounts3NoWay, Reg.bcmCounts3Transient, Reg.bcmDirtyLines,
    Reg.bcmIrqStatusNoWay, Reg.pmuOvfOvf, Reg.pmuCntLoCount, Reg.pmuCntHiCount], [.free, .bcm], false⟩

theorem bcmAlloc_keeps {W : Foot} {s0 s : State} {la : Nat} {mask : Nat} (hW : bcmAllocFoot.Le W) (h : Keeps W s0 s) :
    Keeps W s0 (bcmAlloc s la mask).2.2.2 := by
  unfold bcmAlloc
  repeat' first
    | with_reducible assumption
    | with_reducible intro _
    | with_reducible apply State.bump_keeps
    | with_reducible apply bcmAdd_keeps
    | with_reducible apply bcmTick_keeps
    | with_reducible apply bcmPut_keeps
    | with_reducible apply pmuEvent_keeps
    | with_reducible apply State.set_keeps
    | with_reducible apply lineHit_keeps
    | with_reducible apply Keeps.when
    | refine wayTake_keeps ?_ ?_ _ _ _ (by assumption)
    | refine takeFrame_keeps ?_ ?_ _ _ (by assumption)
    | exact hW.fld (by decide +kernel)
    | exact hW.trans (Foot.le_of (by decide +kernel))
    | exact Eq.refl true
    | split
    | dsimp only

/-- What `fifoShow` may change. -/
def fifoShowFoot : Foot :=
  ⟨[Reg.bcmReq0Valid, Reg.bcmReq0Kind, Reg.bcmReq0Ns, Reg.bcmReq0Mask, Reg.bcmReq1Line, Reg.bcmReq2Frame,
    Reg.bcmReqCntEntries], [], false⟩

theorem fifoShow_keeps {W : Foot} {s0 s : State} (hW : fifoShowFoot.Le W) (h : Keeps W s0 s) :
    Keeps W s0 (fifoShow s) := by
  unfold fifoShow
  repeat' first
    | with_reducible assumption
    | with_reducible apply State.wr_keeps
    | with_reducible apply State.set_keeps
    | with_reducible apply State.clr_keeps
    | exact hW.fld (by decide +kernel)
    | exact Eq.refl true
    | split
    | dsimp only

/-- What `fifoPost` may change. -/
def fifoPostFoot : Foot :=
  ⟨[Reg.bcmReq0Valid, Reg.bcmReq0Kind, Reg.bcmReq0Ns, Reg.bcmReq0Mask, Reg.bcmReq1Line, Reg.bcmReq2Frame,
    Reg.bcmReqCntEntries, Reg.bcmIrqStatusReq], [.bcm], false⟩

theorem fifoPost_keeps {W : Foot} {s0 s : State} {r : BcmReq} (hW : fifoPostFoot.Le W) (h : Keeps W s0 s) :
    Keeps W s0 (fifoPost s r) := by
  unfold fifoPost
  repeat' first
    | with_reducible assumption
    | with_reducible apply fifoShow_keeps
    | with_reducible apply State.setBcm_keeps
    | with_reducible apply State.set_keeps
    | exact hW.fld (by decide +kernel)
    | exact hW.trans (Foot.le_of (by decide +kernel))
    | exact Eq.refl true

/-- What `missPost` may change. -/
def missPostFoot : Foot :=
  .union [readMissesFrame]

theorem missPost_keeps {W : Foot} {s0 s : State} {la : Nat} {mask : Nat} (hW : missPostFoot.Le W) (h : Keeps W s0 s) :
    Keeps W s0 (missPost s la mask) := by
  unfold missPost
  repeat' first
    | with_reducible assumption
    | with_reducible apply pmuEvent_keeps
    | with_reducible apply bcmAlloc_keeps
    | with_reducible apply State.addWrap_keeps
    | with_reducible apply fifoPost_keeps
    | with_reducible apply Keeps.ite
    | exact hW.fld (by decide +kernel)
    | exact hW.trans (Foot.le_of (by decide +kernel))
    | exact Eq.refl true

/-- What `aheadPost` may change. -/
def aheadPostFoot : Foot :=
  ⟨[Reg.bcmReq0Valid, Reg.bcmReq0Kind, Reg.bcmReq0Ns, Reg.bcmReq0Mask, Reg.bcmReq1Line, Reg.bcmReq2Frame,
    Reg.bcmReqCntEntries, Reg.bcmDirtyLines, Reg.bcmIrqStatusReq], [.free, .bcm], false⟩

theorem aheadPost_keeps {W : Foot} {s0 s : State} {la : Nat} (hW : aheadPostFoot.Le W) (h : Keeps W s0 s) :
    Keeps W s0 (aheadPost s la) := by
  unfold aheadPost
  repeat' first
    | with_reducible assumption
    | with_reducible apply bcmAdd_keeps
    | with_reducible apply bcmTick_keeps
    | with_reducible apply fifoPost_keeps
    | with_reducible apply Keeps.ite
    | refine takeFrame_keeps ?_ ?_ _ _ (by assumption)
    | exact hW.trans (Foot.le_of (by decide +kernel))
    | split

/-- What `readStream` may change. -/
def readStreamFoot : Foot :=
  ⟨[Reg.bcmReq0Valid, Reg.bcmReq0Kind, Reg.bcmReq0Ns, Reg.bcmReq0Mask, Reg.bcmReq1Line, Reg.bcmReq2Frame,
    Reg.bcmReqCntEntries, Reg.bcmDirtyLines, Reg.bcmIrqStatusReq], [.free, .bcm], false⟩

theorem readStream_keeps {W : Foot} {s0 s : State} {ns : Nat} {slba : Nat} {nlb : Nat} (hW : readStreamFoot.Le W) (h : Keeps W s0 s) :
    Keeps W s0 (readStream s ns slba nlb) := by
  unfold readStream
  repeat' first
    | with_reducible assumption
    | with_reducible intro _
    | with_reducible apply aheadPost_keeps
    | with_reducible apply State.setBcm_keeps
    | with_reducible apply Keeps.each
    | with_reducible apply Keeps.ite
    | exact hW.trans (Foot.le_of (by decide +kernel))

/-- What `mergeCopy` may change. -/
def mergeCopyFoot : Foot :=
  .union [outcomeAtFrame]

theorem mergeCopy_keeps {W : Foot} {s0 s : State} {t : Staged} {frame : Nat} (hW : mergeCopyFoot.Le W) (h : Keeps W s0 s) :
    Keeps W s0 (mergeCopy s t frame) := by
  unfold mergeCopy
  repeat' first
    | with_reducible assumption
    | with_reducible intro _
    | with_reducible apply State.store_keeps
    | with_reducible apply Keeps.each
    | exact hW.trans (Foot.le_of (by decide +kernel))

/-- What `mergeOne` may change. -/
def mergeOneFoot : Foot :=
  .union [⟨[Reg.bcmCounts2Recalls, Reg.bcmCounts2Remaps, Reg.bcmDirtyLines, Reg.pmuOvfOvf, Reg.pmuCntLoCount,
    Reg.pmuCntHiCount], [.free, .bcm], false⟩, outcomeAtFrame]

theorem mergeOne_keeps {W : Foot} {s0 s : State} {t : Staged} {v : Nat} (hW : mergeOneFoot.Le W) (h : Keeps W s0 s) :
    Keeps W s0 (mergeOne s t v) := by
  unfold mergeOne
  repeat' first
    | with_reducible assumption
    | with_reducible apply State.bump_keeps
    | with_reducible apply bcmAdd_keeps
    | with_reducible apply bcmTick_keeps
    | with_reducible apply bcmPut_keeps
    | with_reducible apply State.setBcm_keeps
    | with_reducible apply lineHit_keeps
    | with_reducible apply mergeCopy_keeps
    | refine wayTake_keeps ?_ ?_ _ _ _ (by assumption)
    | exact hW.fld (by decide +kernel)
    | exact hW.trans (Foot.le_of (by decide +kernel))
    | exact Eq.refl true
    | split
    | dsimp only

/-- What `mergePump` may change. -/
def mergePumpFoot : Foot :=
  .union [⟨[Reg.bcmCounts2Recalls, Reg.bcmCounts2Remaps, Reg.bcmDirtyLines, Reg.pmuOvfOvf, Reg.pmuCntLoCount,
    Reg.pmuCntHiCount], [.free, .bcm], false⟩, outcomeAtFrame]

theorem mergePump_keeps {W : Foot} {s0 s : State} (hW : mergePumpFoot.Le W) (h : Keeps W s0 s) :
    Keeps W s0 (mergePump s) := by
  unfold mergePump
  repeat' first
    | with_reducible assumption
    | with_reducible intro _
    | with_reducible apply Keeps.each
    | with_reducible apply mergeOne_keeps
    | with_reducible apply Keeps.ite
    | exact hW.trans (Foot.le_of (by decide +kernel))

/-- What `mergeWrite` may change. -/
def mergeWriteFoot : Foot :=
  .union [⟨[Reg.bcmCounts2Recalls, Reg.bcmCounts2Remaps, Reg.bcmDirtyLines, Reg.pmuOvfOvf, Reg.pmuCntLoCount,
    Reg.pmuCntHiCount], [.free, .bcm], false⟩, outcomeAtFrame]

theorem mergeWrite_keeps {W : Foot} {s0 s : State} {tag : Nat} {dirty : Bool} (hW : mergeWriteFoot.Le W) (h : Keeps W s0 s) :
    Keeps W s0 (mergeWrite s tag dirty) := by
  unfold mergeWrite
  repeat' first
    | with_reducible assumption
    | with_reducible apply State.setBcm_keeps
    | with_reducible apply mergePump_keeps
    | exact hW.trans (Foot.le_of (by decide +kernel))

/-- What `dirtyEnd` may change. -/
def dirtyEndFoot : Foot :=
  ⟨[Reg.bcmDirtyLines], [.bcm], false⟩

theorem dirtyEnd_keeps {W : Foot} {s0 s : State} {ns : Nat} {slba : Nat} {n : Nat} {to_ : Nat} (hW : dirtyEndFoot.Le W) (h : Keeps W s0 s) :
    Keeps W s0 (dirtyEnd s ns slba n to_) := by
  unfold dirtyEnd
  repeat' first
    | with_reducible assumption
    | with_reducible intro _
    | with_reducible apply bcmPut_keeps
    | with_reducible apply Keeps.each
    | exact hW.trans (Foot.le_of (by decide +kernel))
    | split

/-- What `slotEnd` may change. -/
def slotEndFoot : Foot :=
  ⟨[Reg.bcmIrqStatusOpDone, Reg.bcmOpResBusy, Reg.bcmOpResStatus, Reg.bcmOpResMask, Reg.bcmOpFrameFrame], [], false⟩

theorem slotEnd_keeps {W : Foot} {s0 s : State} {slot : Nat} {status : Nat} {mask : Nat} {frame : Nat} (hW : slotEndFoot.Le W) (h : Keeps W s0 s) :
    Keeps W s0 (slotEnd s slot status mask frame) := by
  unfold slotEnd
  repeat' first
    | with_reducible assumption
    | with_reducible apply State.wr_elem_keeps
    | with_reducible apply State.set_keeps
    | with_reducible apply State.clr_elem_keeps
    | exact hW.fld (by decide +kernel)
    | exact Eq.refl true

/-- What `slotTry` may change. -/
def slotTryFoot : Foot :=
  .union [slotTryFrame]

theorem slotTry_keeps {W : Foot} {s0 s : State} {o : SlotOp} (hW : slotTryFoot.Le W) (h : Keeps W s0 s) :
    ∀ y, slotTry s o = some y → Keeps W s0 y := by
  intro y e
  unfold slotTry at e
  repeat' first
    | assumption
    | (split at e)
    | (dsimp only at e)
    | cases e
    | with_reducible apply slotEnd_keeps
    | with_reducible apply bcmPut_keeps
    | (apply Keeps.of_snd3; with_reducible assumption)
    | with_reducible apply bcmAlloc_keeps
    | exact hW.trans (Foot.le_of (by decide +kernel))

/-- What `slotPump` may change. -/
def slotPumpFoot : Foot :=
  .union [slotTryFrame]

theorem slotPump_keeps {W : Foot} {s0 s : State} {a1 : List SlotOp} {a2 : List SlotOp} (hW : slotPumpFoot.Le W) (h : Keeps W s0 s) :
    Keeps W s0 (slotPump s a1 a2) := by
  induction a1 generalizing s a2 with
  | nil =>
    unfold slotPump
    repeat' first
      | with_reducible assumption
      | with_reducible apply State.setBcm_keeps
      | with_reducible apply Keeps.ite
      | refine slotTry_keeps ?_ ?_ _ (by assumption)
      | exact hW.trans (Foot.le_of (by decide +kernel))
  | cons a l ih =>
    unfold slotPump
    repeat' first
      | with_reducible assumption
      | with_reducible apply ih
      | with_reducible apply State.setBcm_keeps
      | with_reducible apply Keeps.ite
      | refine slotTry_keeps ?_ ?_ _ (by assumption)
      | exact hW.trans (Foot.le_of (by decide +kernel))
      | split

/-- What `bcmPump` may change. -/
def bcmPumpFoot : Foot :=
  .union [slotTryFrame]

theorem bcmPump_keeps {W : Foot} {s0 s : State} (hW : bcmPumpFoot.Le W) (h : Keeps W s0 s) :
    Keeps W s0 (bcmPump s) := by
  unfold bcmPump
  repeat' first
    | with_reducible assumption
    | with_reducible apply slotPump_keeps
    | exact hW.trans (Foot.le_of (by decide +kernel))

end Sys2Proof.Machine
end

