-- ==== Sys2Proof/Laws/FootAssist.lean ====
section
/-!
SUPPORT. Footprints of the operations of Machine/Assist.lean: what each may change, and that it changes nothing else.
-/

namespace Sys2Proof.Machine

set_option Elab.async false

/-- What `roundNear` may change. -/
def roundNearFoot : Foot :=
  ⟨[], [.free], false⟩

theorem roundNear_keeps {W : Foot} {s0 s : State} {num : Int} {den : Nat} (hW : roundNearFoot.Le W) (h : Keeps W s0 s) :
    Keeps W s0 (roundNear s num den).2 := by
  unfold roundNear
  repeat' first
    | with_reducible assumption
    | with_reducible apply Keeps.snd_ite
    | with_reducible apply State.takeFree_keeps
    | exact hW.part (by decide +kernel)

/-- What `sentCode` may change. -/
def sentCodeFoot : Foot :=
  ⟨[Reg.fltCounts0Corrected], [.free], false⟩

theorem sentCode_keeps {W : Foot} {s0 s : State} {n : Nat} {u : Nat} (hW : sentCodeFoot.Le W) (h : Keeps W s0 s) :
    Keeps W s0 (sentCode s n u).2 := by
  unfold sentCode
  repeat' first
    | with_reducible assumption
    | with_reducible intro _
    | with_reducible apply roundNear_keeps
    | with_reducible apply corrected_keeps
    | with_reducible apply Keeps.when
    | exact hW.trans (Foot.le_of (by decide +kernel))

/-- What `calTestCode` may change. -/
def calTestCodeFoot : Foot :=
  ⟨[], [.free], false⟩

theorem calTestCode_keeps {W : Foot} {s0 s : State} {n : Nat} {full : Nat} (hW : calTestCodeFoot.Le W) (h : Keeps W s0 s) :
    Keeps W s0 (calTestCode s n full).2 := by
  unfold calTestCode
  repeat' first
    | with_reducible assumption
    | with_reducible apply Keeps.snd_ite
    | with_reducible apply roundFree_keeps
    | exact hW.trans (Foot.le_of (by decide +kernel))
    | split

/-- What `astSend` may change. -/
def astSendFoot : Foot :=
  ⟨[Reg.astStatusHead, Reg.astSetpointIset, Reg.fltCounts0Corrected], [.free, .ast], false⟩

theorem astSend_keeps {W : Foot} {s0 s : State} {n : Nat} {full : Nat} (hW : astSendFoot.Le W) (h : Keeps W s0 s) :
    Keeps W s0 (astSend s n full) := by
  unfold astSend
  repeat' first
    | with_reducible assumption
    | with_reducible apply sentCode_keeps
    | with_reducible apply State.wr_elem_keeps
    | with_reducible apply State.setAst_keeps
    | with_reducible apply calTestCode_keeps
    | exact hW.fld (by decide +kernel)
    | exact hW.trans (Foot.le_of (by decide +kernel))
    | split

/-- What `chanCount` may change. -/
def chanCountFoot : Foot :=
  ⟨[Reg.astChanCrcErr, Reg.astChanEchoErr], [], false⟩

theorem chanCount_keeps {W : Foot} {s0 s : State} {n : Nat} {word : Option Nat} {seq0 : Nat} {seq1 : Nat} (hW : chanCountFoot.Le W) (h : Keeps W s0 s) :
    Keeps W s0 (chanCount s n word seq0 seq1) := by
  unfold chanCount
  repeat' first
    | with_reducible assumption
    | with_reducible intro _
    | with_reducible apply State.bump_elem_keeps
    | with_reducible apply Keeps.when
    | exact hW.fld (by decide +kernel)
    | split

/-- What `astFrozen` may change. -/
def astFrozenFoot : Foot :=
  ⟨[], [.ast], false⟩

theorem astFrozen_keeps {W : Foot} {s0 s : State} {n : Nat} {fault : Option Nat} {proxy : Nat} {sent0 : Nat} (hW : astFrozenFoot.Le W) (h : Keeps W s0 s) :
    Keeps W s0 (astFrozen s n fault proxy sent0) := by
  unfold astFrozen
  repeat' first
    | with_reducible assumption
    | with_reducible apply State.setAst_keeps
    | with_reducible apply Keeps.ite
    | exact hW.trans (Foot.le_of (by decide +kernel))

/-- What `astBand` may change. -/
def astBandFoot : Foot :=
  .union [astBandFrame]

theorem astBand_keeps {W : Foot} {s0 s : State} {n : Nat} {err : Int} (hW : astBandFoot.Le W) (h : Keeps W s0 s) :
    Keeps W s0 (astBand s n err) := by
  unfold astBand
  repeat' first
    | with_reducible assumption
    | with_reducible apply astEnter_keeps
    | with_reducible apply setInBand_keeps
    | with_reducible apply State.setAst_keeps
    | with_reducible apply Keeps.ite
    | exact hW.trans (Foot.le_of (by decide +kernel))

/-- What `astMeasure` may change. -/
def astMeasureFoot : Foot :=
  ⟨[], [.cal, .age], false⟩

theorem astMeasure_keeps {W : Foot} {s0 s : State} {n : Nat} {u : Nat} {limiter : Nat} (hW : astMeasureFoot.Le W) (h : Keeps W s0 s) :
    Keeps W s0 (astMeasure s n u limiter) := by
  unfold astMeasure
  repeat' first
    | with_reducible assumption
    | with_reducible apply State.setAge_keeps
    | with_reducible apply State.setCal_keeps
    | exact hW.trans (Foot.le_of (by decide +kernel))
    | split
    | dsimp only

/-- What `astPut` may change. -/
def astPutFoot : Foot :=
  ⟨[Reg.astStatusLimiter, Reg.astSetpointHeld], [.ast], false⟩

theorem astPut_keeps {W : Foot} {s0 s : State} {n : Nat} {u : Nat} {limiter : Nat} {integral : Nat} (hW : astPutFoot.Le W) (h : Keeps W s0 s) :
    Keeps W s0 (astPut s n u limiter integral) := by
  unfold astPut
  repeat' first
    | with_reducible assumption
    | with_reducible apply State.wr_elem_keeps
    | with_reducible apply State.setAst_keeps
    | exact hW.fld (by decide +kernel)
    | exact hW.trans (Foot.le_of (by decide +kernel))

/-- What `astCeilHit` may change. -/
def astCeilHitFoot : Foot :=
  ⟨[Reg.astIrqStatusCeilHit], [], false⟩

theorem astCeilHit_keeps {W : Foot} {s0 s : State} {n : Nat} {hit : Bool} (hW : astCeilHitFoot.Le W) (h : Keeps W s0 s) :
    Keeps W s0 (astCeilHit s n hit) := by
  unfold astCeilHit
  repeat' first
    | with_reducible assumption
    | with_reducible intro _
    | with_reducible apply State.set_elem_keeps
    | with_reducible apply Keeps.when
    | exact hW.fld (by decide +kernel)

/-- What `astDownEnd` may change. -/
def astDownEndFoot : Foot :=
  .union [⟨[Reg.astSetpointHeld], [], false⟩, astBandFrame]

theorem astDownEnd_keeps {W : Foot} {s0 s : State} {n : Nat} {u : Nat} {limiter : Nat} {integral : Nat} (hW : astDownEndFoot.Le W) (h : Keeps W s0 s) :
    Keeps W s0 (astDownEnd s n u limiter integral) := by
  unfold astDownEnd
  repeat' first
    | with_reducible assumption
    | with_reducible apply astEnter_keeps
    | with_reducible apply astPut_keeps
    | with_reducible apply Keeps.ite
    | exact hW.trans (Foot.le_of (by decide +kernel))

/-- What `astLevelEnd` may change. -/
def astLevelEndFoot : Foot :=
  .union [⟨[Reg.astSetpointHeld, Reg.astIrqStatusCeilHit], [.cal, .age], false⟩, astBandFrame]

theorem astLevelEnd_keeps {W : Foot} {s0 s : State} {n : Nat} {u : Nat} {limiter : Nat} {integral : Nat} {level : Bool} {e : Int} (hW : astLevelEndFoot.Le W) (h : Keeps W s0 s) :
    Keeps W s0 (astLevelEnd s n u limiter integral level e) := by
  unfold astLevelEnd
  repeat' first
    | with_reducible assumption
    | with_reducible apply astPut_keeps
    | with_reducible apply astBand_keeps
    | with_reducible apply astMeasure_keeps
    | with_reducible apply astCeilHit_keeps
    | exact hW.trans (Foot.le_of (by decide +kernel))

/-- What `astCompute` may change. -/
def astComputeFoot : Foot :=
  .union [⟨[Reg.astSetpointHeld, Reg.astIrqStatusCeilHit], [.free, .cal, .age], false⟩, astBandFrame]

theorem astCompute_keeps {W : Foot} {s0 s : State} {n : Nat} {p : Int} (hW : astComputeFoot.Le W) (h : Keeps W s0 s) :
    Keeps W s0 (astCompute s n p) := by
  unfold astCompute
  repeat' first
    | with_reducible assumption
    | with_reducible apply roundNear_keeps
    | with_reducible apply astLevelEnd_keeps
    | with_reducible apply astDownEnd_keeps
    | with_reducible apply Keeps.ite
    | exact hW.trans (Foot.le_of (by decide +kernel))

/-- What `olAdvance` may change. -/
def olAdvanceFoot : Foot :=
  .union [astBandFrame]

theorem olAdvance_keeps {W : Foot} {s0 s : State} {n : Nat} (hW : olAdvanceFoot.Le W) (h : Keeps W s0 s) :
    Keeps W s0 (olAdvance s n) := by
  unfold olAdvance
  repeat' first
    | with_reducible assumption
    | with_reducible apply astEnter_keeps
    | with_reducible apply State.setAst_keeps
    | with_reducible apply Keeps.ite
    | exact hW.trans (Foot.le_of (by decide +kernel))

theorem execAstSample_keeps {W : Foot} {s0 s : State} {n : Nat} {full : Nat} {word : Option Nat} (hW : execAstSampleFrame.Le W) (h : Keeps W s0 s) :
    KeepsOut W s0 (execAstSample n full word s) := by
  unfold execAstSample
  repeat' first
    | with_reducible assumption
    | with_reducible intro _
    | with_reducible apply KeepsOut.next
    | with_reducible apply KeepsOut.ite
    | with_reducible apply astEnter_keeps
    | with_reducible apply astCompute_keeps
    | with_reducible apply State.wr_elem_keeps
    | with_reducible apply State.setAst_keeps
    | with_reducible apply astSend_keeps
    | with_reducible apply olAdvance_keeps
    | with_reducible apply Keeps.when
    | with_reducible apply astFrozen_keeps
    | with_reducible apply chanCount_keeps
    | with_reducible apply State.clr_elem_keeps
    | with_reducible apply Keeps.ite
    | exact hW.fld (by decide +kernel)
    | exact hW.trans (Foot.le_of (by decide +kernel))
    | split

theorem execProxyLoss_keeps {W : Foot} {s0 s : State} {n : Nat} {full : Nat} (hW : execProxyLossFrame.Le W) (h : Keeps W s0 s) :
    KeepsOut W s0 (execProxyLoss n full s) := by
  unfold execProxyLoss
  repeat' first
    | with_reducible assumption
    | with_reducible apply KeepsOut.next
    | with_reducible apply KeepsOut.ite
    | with_reducible apply State.bump_elem_keeps
    | with_reducible apply astEnter_keeps
    | with_reducible apply State.wr_elem_keeps
    | with_reducible apply State.set_elem_keeps
    | with_reducible apply contained_keeps
    | with_reducible apply State.setAst_keeps
    | with_reducible apply record_keeps
    | with_reducible apply Keeps.ite
    | exact hW.fld (by decide +kernel)
    | exact hW.trans (Foot.le_of (by decide +kernel))

theorem execAstStagedApply_keeps {W : Foot} {s0 s : State} {n : Nat} (hW : execAstStagedApplyFrame.Le W) (h : Keeps W s0 s) :
    KeepsOut W s0 (execAstStagedApply n s) := by
  unfold execAstStagedApply
  repeat' first
    | with_reducible assumption
    | with_reducible apply KeepsOut.next
    | with_reducible apply astApplyStaged_keeps
    | with_reducible apply Keeps.ite
    | exact hW.trans (Foot.le_of (by decide +kernel))

/-- What `expertIgnored` may change. -/
def expertIgnoredFoot : Foot :=
  ⟨[], [], false⟩

theorem expertIgnored_keeps {W : Foot} {s0 s : State} {f : Fld} {b : Bool} (hc : Nat.blt 0 f.count = true) (hf : f ∈ W.regs)
    (h : Keeps W s0 s) : Keeps W s0 (expertIgnored s f b) :=
  Keeps.when h fun _ hy => State.bump_keeps hc hf hy

theorem expertIgnored_elem_keeps {W : Foot} {s0 s : State} {f : Fld} {n : Nat} {b : Bool} (hf : f ∈ W.regs)
    (h : Keeps W s0 s) : Keeps W s0 (expertIgnored s (f.elem n) b) :=
  Keeps.when h fun _ hy => State.bump_elem_keeps hf hy

theorem execAstTblDataAccess_keeps {W : Foot} {s0 s : State} {n : Nat} {write : Option Word} (hW : execAstTblDataAccessFrame.Le W) (h : Keeps W s0 s) :
    KeepsOut W s0 (execAstTblDataAccess n write s) := by
  unfold execAstTblDataAccess
  repeat' first
    | with_reducible assumption
    | with_reducible intro _
    | with_reducible apply KeepsOut.next
    | with_reducible apply KeepsOut.ite
    | with_reducible apply State.answer_keeps
    | with_reducible apply gatedAccess_keeps
    | with_reducible apply State.wr_elem_keeps
    | with_reducible apply corrected_keeps
    | with_reducible apply expertIgnored_elem_keeps
    | with_reducible apply Keeps.when
    | with_reducible apply stageCeil_keeps
    | exact hW.fld (by decide +kernel)
    | exact hW.trans (Foot.le_of (by decide +kernel))
    | split

theorem execAstSetDataAccess_keeps {W : Foot} {s0 s : State} {n : Nat} {write : Option Word} (hW : execAstSetDataAccessFrame.Le W) (h : Keeps W s0 s) :
    KeepsOut W s0 (execAstSetDataAccess n write s) := by
  unfold execAstSetDataAccess
  repeat' first
    | with_reducible assumption
    | with_reducible apply KeepsOut.next
    | with_reducible apply KeepsOut.ite
    | with_reducible apply State.answer_keeps
    | with_reducible apply gatedAccess_keeps
    | with_reducible apply State.wr_elem_keeps
    | with_reducible apply stageTable_keeps
    | with_reducible apply expertIgnored_elem_keeps
    | exact hW.fld (by decide +kernel)
    | exact hW.trans (Foot.le_of (by decide +kernel))
    | split

/-- What `preQueue` may change. -/
def preQueueFoot : Foot :=
  ⟨[], [.pre], false⟩

theorem preQueue_keeps {W : Foot} {s0 s : State} {x : PreXfer} (hW : preQueueFoot.Le W) (h : Keeps W s0 s) :
    Keeps W s0 (preQueue s x) := by
  unfold preQueue
  repeat' first
    | with_reducible assumption
    | with_reducible apply State.setPre_keeps
    | exact hW.trans (Foot.le_of (by decide +kernel))

/-- What `preStrobe` may change. -/
def preStrobeFoot : Foot :=
  ⟨[Reg.preStatusPa1Head, Reg.preStatusPa0Head, Reg.preStatusPa1Mode, Reg.preStatusPa0Mode], [.pre], false⟩

theorem preStrobe_keeps {W : Foot} {s0 s : State} {pa head which : Nat} (hW : preStrobeFoot.Le W) (h : Keeps W s0 s) :
    Keeps W s0 (preStrobe s pa head which) := by
  unfold preStrobe paHead paMode
  repeat' first
    | with_reducible assumption
    | with_reducible apply preQueue_keeps
    | with_reducible apply State.wr_keeps
    | with_reducible apply Keeps.ite
    | exact hW.fld (by decide +kernel)
    | exact hW.trans (Foot.le_of (by decide +kernel))
    | exact Eq.refl true
    | split

/-- What `preReplay` may change. -/
def preReplayFoot : Foot :=
  ⟨[], [.pre], false⟩

theorem preReplay_keeps {W : Foot} {s0 s : State} {pa : Nat} (hW : preReplayFoot.Le W) (h : Keeps W s0 s) :
    Keeps W s0 (preReplay s pa) := by
  unfold preReplay
  repeat' first
    | with_reducible assumption
    | with_reducible intro _
    | with_reducible apply preQueue_keeps
    | with_reducible apply State.setPre_keeps
    | with_reducible apply Keeps.each
    | with_reducible apply Keeps.ite
    | exact hW.trans (Foot.le_of (by decide +kernel))

theorem execSetupReplay_keeps {W : Foot} {s0 s : State} {pa : Nat} (hW : execSetupReplayFrame.Le W) (h : Keeps W s0 s) :
    KeepsOut W s0 (execSetupReplay pa s) := by
  unfold execSetupReplay
  repeat' first
    | with_reducible assumption
    | with_reducible apply KeepsOut.next
    | with_reducible apply preReplay_keeps
    | exact hW.trans (Foot.le_of (by decide +kernel))

theorem execPreampFault_keeps {W : Foot} {s0 s : State} {pa : Nat} {full : Nat} (hW : execPreampFaultFrame.Le W) (h : Keeps W s0 s) :
    KeepsOut W s0 (execPreampFault pa full s) := by
  unfold execPreampFault paFault paLog paIrq
  repeat' first
    | with_reducible assumption
    | with_reducible apply KeepsOut.next
    | with_reducible apply KeepsOut.ite
    | with_reducible apply State.bump_keeps
    | with_reducible apply astEnter_keeps
    | with_reducible apply State.set_elem_keeps
    | with_reducible apply State.set_keeps
    | with_reducible apply record_keeps
    | exact hW.fld (by decide +kernel)
    | exact hW.trans (Foot.le_of (by decide +kernel))
    | exact Eq.refl true
    | split

theorem execPreampFaultClear_keeps {W : Foot} {s0 s : State} {pa : Nat} (hW : execPreampFaultClearFrame.Le W) (h : Keeps W s0 s) :
    KeepsOut W s0 (execPreampFaultClear pa s) := by
  unfold execPreampFaultClear paFault
  repeat' first
    | with_reducible assumption
    | with_reducible apply KeepsOut.next
    | with_reducible apply KeepsOut.ite
    | with_reducible apply astEnter_keeps
    | with_reducible apply State.clr_elem_keeps
    | with_reducible apply State.clr_keeps
    | with_reducible apply Keeps.ite
    | exact hW.fld (by decide +kernel)
    | exact hW.trans (Foot.le_of (by decide +kernel))
    | exact Eq.refl true
    | split

theorem execPreXferGo_keeps {W : Foot} {s0 s : State} {data : Word} (hW : execPreXferGoFrame.Le W) (h : Keeps W s0 s) :
    KeepsOut W s0 (execPreXferGo data s) := by
  unfold execPreXferGo
  repeat' first
    | with_reducible assumption
    | with_reducible apply KeepsOut.next
    | with_reducible apply KeepsOut.ite
    | with_reducible apply State.bump_keeps
    | with_reducible apply State.answer_keeps
    | with_reducible apply preQueue_keeps
    | with_reducible apply State.wr_keeps
    | with_reducible apply State.clr_keeps
    | exact hW.fld (by decide +kernel)
    | exact hW.trans (Foot.le_of (by decide +kernel))
    | exact Eq.refl true

theorem execPreTransactionDone_keeps {W : Foot} {s0 s : State} {data : Nat} (hW : execPreTransactionDoneFrame.Le W) (h : Keeps W s0 s) :
    KeepsOut W s0 (execPreTransactionDone data s) := by
  unfold execPreTransactionDone
  repeat' first
    | with_reducible assumption
    | with_reducible apply KeepsOut.next
    | with_reducible apply KeepsOut.ite
    | with_reducible apply State.setPre_keeps
    | with_reducible apply State.wr_keeps
    | with_reducible apply State.set_keeps
    | with_reducible apply Keeps.ite
    | exact hW.fld (by decide +kernel)
    | exact hW.trans (Foot.le_of (by decide +kernel))
    | exact Eq.refl true
    | split

theorem execPreReadTimeout_keeps {W : Foot} {s0 s : State} (hW : execPreReadTimeoutFrame.Le W) (h : Keeps W s0 s) :
    KeepsOut W s0 (execPreReadTimeout s) := by
  unfold execPreReadTimeout
  repeat' first
    | with_reducible assumption
    | with_reducible apply KeepsOut.next
    | with_reducible apply KeepsOut.ite
    | with_reducible apply State.setPre_keeps
    | with_reducible apply State.set_keeps
    | exact hW.fld (by decide +kernel)
    | exact hW.trans (Foot.le_of (by decide +kernel))
    | exact Eq.refl true
    | split

theorem execPreSetupDataAccess_keeps {W : Foot} {s0 s : State} {write : Option Word} (hW : execPreSetupDataAccessFrame.Le W) (h : Keeps W s0 s) :
    KeepsOut W s0 (execPreSetupDataAccess write s) := by
  unfold execPreSetupDataAccess
  repeat' first
    | with_reducible assumption
    | with_reducible apply KeepsOut.next
    | with_reducible apply State.answer_keeps
    | with_reducible apply State.setPre_keeps
    | with_reducible apply State.wr_keeps
    | exact hW.fld (by decide +kernel)
    | exact hW.trans (Foot.le_of (by decide +kernel))
    | exact Eq.refl true
    | split

theorem execPlankPreheat_keeps {W : Foot} {s0 s : State} {n : Nat} {full : Nat} (hW : execPlankPreheatFrame.Le W) (h : Keeps W s0 s) :
    KeepsOut W s0 (execPlankPreheat n full s) := by
  unfold execPlankPreheat
  repeat' first
    | with_reducible assumption
    | with_reducible apply KeepsOut.next
    | with_reducible apply KeepsOut.ite
    | with_reducible apply astRampStart_keeps
    | with_reducible apply bwkBegin_keeps
    | with_reducible apply State.setBwk_keeps
    | with_reducible apply plankEnd_keeps
    | (apply Begin.notYet_keeps; assumption)
    | (apply Begin.ended_keeps; assumption)
    | (apply Begin.begun_keeps; assumption)
    | exact hW.trans (Foot.le_of (by decide +kernel))
    | split

end Sys2Proof.Machine
end

