-- ==== Sys2Proof/Laws/FootChannelOps.lean ====
section
/-!
SUPPORT. Footprints of the operations of Machine/ChannelOps.lean: what each may change, and that it changes nothing else.
-/

namespace Sys2Proof.Machine

set_option Elab.async false

/-- What `cryCount` may change. -/
def cryCountFoot : Foot :=
  ⟨[Reg.cryCounts0Units], [.cry], false⟩

theorem cryCount_keeps {W : Foot} {s0 s : State} {slot : Nat} {n : Nat} (hW : cryCountFoot.Le W) (h : Keeps W s0 s) :
    Keeps W s0 (cryCount s slot n) := by
  unfold cryCount
  repeat' first
    | with_reducible assumption
    | with_reducible apply State.setCry_keeps
    | with_reducible apply State.addWrap_keeps
    | exact hW.fld (by decide +kernel)
    | exact hW.trans (Foot.le_of (by decide +kernel))
    | exact Eq.refl true

/-- What `sectorCount` may change. -/
def sectorCountFoot : Foot :=
  ⟨[Reg.cryCounts0Units], [.cry], false⟩

theorem sectorCount_keeps {W : Foot} {s0 s : State} {slot : Nat} (hW : sectorCountFoot.Le W) (h : Keeps W s0 s) :
    Keeps W s0 (sectorCount s slot) := by
  unfold sectorCount
  repeat' first
    | with_reducible assumption
    | with_reducible apply cryCount_keeps
    | with_reducible apply Keeps.ite
    | exact hW.trans (Foot.le_of (by decide +kernel))

/-- What `scribble` may change. -/
def scribbleFoot : Foot :=
  .union [⟨[], [.free], false⟩, outcomeAtFrame]

theorem scribble_keeps {W : Foot} {s0 s : State} {a : Nat} {n : Nat} (hW : scribbleFoot.Le W) (h : Keeps W s0 s) :
    Keeps W s0 (scribble s a n) := by
  unfold scribble
  repeat' first
    | with_reducible assumption
    | with_reducible apply State.store_keeps
    | with_reducible apply State.takeFree_keeps
    | exact hW.trans (Foot.le_of (by decide +kernel))
    | exact hW.part (by decide +kernel)

/-- What `outcomeAt` may change. -/
def outcomeAtFoot : Foot :=
  .union [outcomeAtFrame]

theorem outcomeAt_keeps {W : Foot} {s0 s : State} {m : Nat} {sstat : Nat} {events : Nat} {iter : Nat} {detail : Nat} (hW : outcomeAtFoot.Le W) (h : Keeps W s0 s) :
    Keeps W s0 (outcomeAt s m sstat events iter detail) := by
  unfold outcomeAt
  repeat' first
    | with_reducible assumption
    | with_reducible apply State.store_keeps
    | exact hW.trans (Foot.le_of (by decide +kernel))

/-- What `sectorStore` may change. -/
def sectorStoreFoot : Foot :=
  .union [⟨[], [.free], false⟩, outcomeAtFrame]

theorem sectorStore_keeps {W : Foot} {s0 s : State} {a : Nat} {m : Nat} {sstat : Nat} {user : List Byte} {block : List Byte} (hW : sectorStoreFoot.Le W) (h : Keeps W s0 s) :
    Keeps W s0 (sectorStore s a m sstat user block) := by
  unfold sectorStore
  repeat' first
    | with_reducible assumption
    | with_reducible apply State.store_keeps
    | with_reducible apply scribble_keeps
    | with_reducible apply Keeps.ite
    | exact hW.trans (Foot.le_of (by decide +kernel))

/-- What `deepResult` may change. -/
def deepResultFoot : Foot :=
  .union [⟨[Reg.ldpStatusDeepBusy, Reg.ldpCounts1DeepOk, Reg.ldpCounts1DeepFail, Reg.ldpIrqStatusDeepFail,
    Reg.ldpIrqStatusJobDone], [.ldp], false⟩, ringAnswerFrame]

theorem deepResult_keeps {W : Foot} {s0 s : State} {e : RingEntry} {status : Nat} {sstat : Nat} {used : Nat} {iter : Nat} {unsat : Nat} (hW : deepResultFoot.Le W) (h : Keeps W s0 s) :
    Keeps W s0 (deepResult s e status sstat used iter unsat) := by
  unfold deepResult
  repeat' first
    | with_reducible assumption
    | with_reducible intro _
    | with_reducible apply State.bump_keeps
    | with_reducible apply State.set_keeps
    | with_reducible apply ringAnswer_keeps
    | with_reducible apply Keeps.when
    | with_reducible apply State.clr_keeps
    | with_reducible apply State.setLdp_keeps
    | exact hW.fld (by decide +kernel)
    | exact hW.trans (Foot.le_of (by decide +kernel))
    | exact Eq.refl true

/-- What `oceResult` may change. -/
def oceResultFoot : Foot :=
  .union [⟨[Reg.oceStatusBusy, Reg.oceCountsRebuilds, Reg.oceIrqStatusJobFail, Reg.oceIrqStatusJobDone], [.oce],
    false⟩, ringAnswerFrame]

theorem oceResult_keeps {W : Foot} {s0 s : State} {e : RingEntry} {status : Nat} {outs : Nat} (hW : oceResultFoot.Le W) (h : Keeps W s0 s) :
    Keeps W s0 (oceResult s e status outs) := by
  unfold oceResult
  repeat' first
    | with_reducible assumption
    | with_reducible intro _
    | with_reducible apply State.bump_keeps
    | with_reducible apply State.set_keeps
    | with_reducible apply ringAnswer_keeps
    | with_reducible apply State.setOce_keeps
    | with_reducible apply Keeps.when
    | with_reducible apply State.clr_keeps
    | exact hW.fld (by decide +kernel)
    | exact hW.trans (Foot.le_of (by decide +kernel))
    | exact Eq.refl true

/-- What `cryResult` may change. -/
def cryResultFoot : Foot :=
  .union [⟨[Reg.cryStatusBusy, Reg.cryCounts1KeyEmpty, Reg.cryCounts1Poison, Reg.cryIrqStatusKeyEmpty,
    Reg.cryIrqStatusErr], [.cry], false⟩, ringAnswerFrame]

theorem cryResult_keeps {W : Foot} {s0 s : State} {e : RingEntry} {status : Nat} {done : Nat} (hW : cryResultFoot.Le W) (h : Keeps W s0 s) :
    Keeps W s0 (cryResult s e status done) := by
  unfold cryResult
  repeat' first
    | with_reducible assumption
    | with_reducible intro _
    | with_reducible apply State.bump_keeps
    | with_reducible apply State.wr_keeps
    | with_reducible apply State.set_keeps
    | with_reducible apply State.setCry_keeps
    | with_reducible apply ringAnswer_keeps
    | with_reducible apply Keeps.when
    | exact hW.fld (by decide +kernel)
    | exact hW.trans (Foot.le_of (by decide +kernel))
    | exact Eq.refl true

/-- What `jobsAbort` may change. -/
def jobsAbortFoot : Foot :=
  .union [jobsAbortFrame]

theorem jobsAbort_keeps {W : Foot} {s0 s : State} (hW : jobsAbortFoot.Le W) (h : Keeps W s0 s) :
    Keeps W s0 (jobsAbort s) := by
  unfold jobsAbort
  repeat' first
    | with_reducible assumption
    | with_reducible intro _
    | with_reducible apply deepResult_keeps
    | with_reducible apply Keeps.each
    | with_reducible apply oceResult_keeps
    | with_reducible apply scribble_keeps
    | with_reducible apply cryResult_keeps
    | with_reducible apply Keeps.ite
    | exact hW.trans (Foot.le_of (by decide +kernel))

end Sys2Proof.Machine
end

