-- ==== Sys2Proof/Laws/FootHostOps.lean ====
section
/-!
SUPPORT. Footprints of the operations of Machine/HostOps.lean: what each may change, and that it changes nothing else.
-/

namespace Sys2Proof.Machine

set_option Elab.async false

/-- What `setCtrl` may change. -/
def setCtrlFoot : Foot :=
  ⟨[], [.hst], false⟩

theorem setCtrl_keeps {W : Foot} {s0 s : State} {c : Ctrl} (hW : setCtrlFoot.Le W) (h : Keeps W s0 s) :
    Keeps W s0 (setCtrl s c) := by
  unfold setCtrl
  repeat' first
    | with_reducible assumption
    | with_reducible apply State.setHst_keeps
    | exact hW.trans (Foot.le_of (by decide +kernel))

/-- What `sqPut` may change. -/
def sqPutFoot : Foot :=
  ⟨[], [.hst], false⟩

theorem sqPut_keeps {W : Foot} {s0 s : State} {q : SubQ} (hW : sqPutFoot.Le W) (h : Keeps W s0 s) :
    Keeps W s0 (sqPut s q) := by
  unfold sqPut
  repeat' first
    | with_reducible assumption
    | with_reducible apply State.setHst_keeps
    | exact hW.trans (Foot.le_of (by decide +kernel))

/-- What `cqPut` may change. -/
def cqPutFoot : Foot :=
  ⟨[], [.hst], false⟩

theorem cqPut_keeps {W : Foot} {s0 s : State} {q : CompQ} (hW : cqPutFoot.Le W) (h : Keeps W s0 s) :
    Keeps W s0 (cqPut s q) := by
  unfold cqPut
  repeat' first
    | with_reducible assumption
    | with_reducible apply State.setHst_keeps
    | exact hW.trans (Foot.le_of (by decide +kernel))

/-- What `pendShow` may change. -/
def pendShowFoot : Foot :=
  ⟨[Reg.hstPendEntries, Reg.hstPendCqsCqs], [], false⟩

theorem pendShow_keeps {W : Foot} {s0 s : State} (hW : pendShowFoot.Le W) (h : Keeps W s0 s) :
    Keeps W s0 (pendShow s) := by
  unfold pendShow
  repeat' first
    | with_reducible assumption
    | with_reducible apply State.wr_keeps
    | exact hW.fld (by decide +kernel)
    | exact Eq.refl true

/-- What `cqWrite` may change. -/
def cqWriteFoot : Foot :=
  ⟨[Reg.pmuOvfOvf, Reg.pmuCntLoCount, Reg.pmuCntHiCount], [.hst], false⟩

theorem cqWrite_keeps {W : Foot} {s0 s : State} {q : CompQ} {e : Cqe} (hW : cqWriteFoot.Le W) (h : Keeps W s0 s) :
    Keeps W s0 (cqWrite s q e) := by
  unfold cqWrite
  repeat' first
    | with_reducible assumption
    | with_reducible apply cqPut_keeps
    | with_reducible apply State.setHst_keeps
    | with_reducible apply pmuEvent_keeps
    | exact hW.trans (Foot.le_of (by decide +kernel))

/-- What `intentWrite` may change. -/
def intentWriteFoot : Foot :=
  .union [outcomeAtFrame]

theorem intentWrite_keeps {W : Foot} {s0 s : State} {c : HostCmd} {state : Nat} (hW : intentWriteFoot.Le W) (h : Keeps W s0 s) :
    Keeps W s0 (intentWrite s c state) := by
  unfold intentWrite
  repeat' first
    | with_reducible assumption
    | with_reducible apply State.store_keeps
    | exact hW.trans (Foot.le_of (by decide +kernel))

/-- What `tagsShow` may change. -/
def tagsShowFoot : Foot :=
  ⟨[Reg.hstTagsInUse, Reg.hstTagHwmHwm], [], false⟩

theorem tagsShow_keeps {W : Foot} {s0 s : State} (hW : tagsShowFoot.Le W) (h : Keeps W s0 s) :
    Keeps W s0 (tagsShow s) := by
  unfold tagsShow
  repeat' first
    | with_reducible assumption
    | with_reducible apply State.wr_keeps
    | with_reducible apply Keeps.ite
    | exact hW.fld (by decide +kernel)
    | exact Eq.refl true

/-- What `setCmd` may change. -/
def setCmdFoot : Foot :=
  ⟨[], [.hst], false⟩

theorem setCmd_keeps {W : Foot} {s0 s : State} {c : HostCmd} (hW : setCmdFoot.Le W) (h : Keeps W s0 s) :
    Keeps W s0 (setCmd s c) := by
  unfold setCmd
  repeat' first
    | with_reducible assumption
    | with_reducible apply State.setHst_keeps
    | exact hW.trans (Foot.le_of (by decide +kernel))

/-- What `cmdFree` may change. -/
def cmdFreeFoot : Foot :=
  .union [⟨[Reg.hstTagsInUse, Reg.hstTagHwmHwm], [.hst], false⟩, outcomeAtFrame]

theorem cmdFree_keeps {W : Foot} {s0 s : State} {c : HostCmd} (hW : cmdFreeFoot.Le W) (h : Keeps W s0 s) :
    Keeps W s0 (cmdFree s c) := by
  unfold cmdFree
  repeat' first
    | with_reducible assumption
    | with_reducible apply intentWrite_keeps
    | with_reducible apply State.setHst_keeps
    | with_reducible apply tagsShow_keeps
    | exact hW.trans (Foot.le_of (by decide +kernel))

/-- What `errorAdd` may change. -/
def errorAddFoot : Foot :=
  ⟨[], [.hst], false⟩

theorem errorAdd_keeps {W : Foot} {s0 s : State} {c : HostCmd} {lba : Nat} (hW : errorAddFoot.Le W) (h : Keeps W s0 s) :
    Keeps W s0 (errorAdd s c lba) := by
  unfold errorAdd
  repeat' first
    | with_reducible assumption
    | with_reducible apply State.setHst_keeps
    | exact hW.trans (Foot.le_of (by decide +kernel))

/-- What `cmdDone` may change. -/
def cmdDoneFoot : Foot :=
  .union [⟨[Reg.hstTagsInUse, Reg.hstTagHwmHwm], [.hst], false⟩, outcomeAtFrame]

theorem cmdDone_keeps {W : Foot} {s0 s : State} {c : HostCmd} {status : Nat} (hW : cmdDoneFoot.Le W) (h : Keeps W s0 s) :
    Keeps W s0 (cmdDone s c status) := by
  unfold cmdDone
  repeat' first
    | with_reducible assumption
    | with_reducible apply intentWrite_keeps
    | with_reducible apply setCmd_keeps
    | with_reducible apply cmdFree_keeps
    | with_reducible apply Keeps.ite
    | exact hW.trans (Foot.le_of (by decide +kernel))

/-- What `cmdFail` may change. -/
def cmdFailFoot : Foot :=
  .union [⟨[Reg.hstTagsInUse, Reg.hstTagHwmHwm], [.bcm, .hst], false⟩, outcomeAtFrame]

theorem cmdFail_keeps {W : Foot} {s0 s : State} {c : HostCmd} {status : Nat} {lba : Nat} (hW : cmdFailFoot.Le W) (h : Keeps W s0 s) :
    Keeps W s0 (cmdFail s c status lba) := by
  unfold cmdFail
  repeat' first
    | with_reducible assumption
    | with_reducible apply State.setBcm_keeps
    | with_reducible apply errorAdd_keeps
    | with_reducible apply cmdDone_keeps
    | exact hW.trans (Foot.le_of (by decide +kernel))

/-- What `setZone` may change. -/
def setZoneFoot : Foot :=
  ⟨[], [.hst], false⟩

theorem setZone_keeps {W : Foot} {s0 s : State} {ns : Nat} {z : Nat} {v : Zone} (hW : setZoneFoot.Le W) (h : Keeps W s0 s) :
    Keeps W s0 (setZone s ns z v) := by
  unfold setZone
  repeat' first
    | with_reducible assumption
    | with_reducible apply State.setHst_keeps
    | exact hW.trans (Foot.le_of (by decide +kernel))

/-- What `zoneAdvance` may change. -/
def zoneAdvanceFoot : Foot :=
  ⟨[], [.hst], false⟩

theorem zoneAdvance_keeps {W : Foot} {s0 s : State} {ns : Nat} {z : Nat} {n : Nat} (hW : zoneAdvanceFoot.Le W) (h : Keeps W s0 s) :
    Keeps W s0 (zoneAdvance s ns z n) := by
  unfold zoneAdvance
  repeat' first
    | with_reducible assumption
    | with_reducible apply setZone_keeps
    | exact hW.trans (Foot.le_of (by decide +kernel))

/-- What `zoneChanged` may change. -/
def zoneChangedFoot : Foot :=
  ⟨[], [.hst], false⟩

theorem zoneChanged_keeps {W : Foot} {s0 s : State} {ns : Nat} {z : Nat} (hW : zoneChangedFoot.Le W) (h : Keeps W s0 s) :
    Keeps W s0 (zoneChanged s ns z) := by
  unfold zoneChanged
  repeat' first
    | with_reducible assumption
    | with_reducible apply State.setHst_keeps
    | exact hW.trans (Foot.le_of (by decide +kernel))

/-- What `asyncEvent` may change. -/
def asyncEventFoot : Foot :=
  ⟨[], [.hst], false⟩

theorem asyncEvent_keeps {W : Foot} {s0 s : State} {fn : Nat} {dw0 : Nat} (hW : asyncEventFoot.Le W) (h : Keeps W s0 s) :
    Keeps W s0 (asyncEvent s fn dw0) := by
  unfold asyncEvent
  repeat' first
    | with_reducible assumption
    | with_reducible apply setCtrl_keeps
    | exact hW.trans (Foot.le_of (by decide +kernel))
    | split

/-- What `cqReady` may change. -/
def cqReadyFoot : Foot :=
  .union [cqReadyFrame]

theorem cqReady_keeps {W : Foot} {s0 s : State} {cq : Nat} {e : Cqe} (hW : cqReadyFoot.Le W) (h : Keeps W s0 s) :
    Keeps W s0 (cqReady s cq e) := by
  unfold cqReady
  repeat' first
    | with_reducible assumption
    | with_reducible apply State.bump_keeps
    | with_reducible apply cqPut_keeps
    | with_reducible apply pendShow_keeps
    | with_reducible apply State.set_keeps
    | with_reducible apply cqWrite_keeps
    | with_reducible apply cmdFree_keeps
    | with_reducible apply Keeps.ite
    | exact hW.fld (by decide +kernel)
    | exact hW.trans (Foot.le_of (by decide +kernel))
    | exact Eq.refl true
    | split
    | dsimp only

/-- What `cqDrain` may change. -/
def cqDrainFoot : Foot :=
  .union [⟨[Reg.hstTagsInUse, Reg.hstTagHwmHwm, Reg.pmuOvfOvf, Reg.pmuCntLoCount, Reg.pmuCntHiCount], [.hst], false⟩,
    outcomeAtFrame]

theorem cqDrain_keeps {W : Foot} {s0 s : State} {fn : Nat} {cq : Nat} {a3 : Nat} (hW : cqDrainFoot.Le W) (h : Keeps W s0 s) :
    Keeps W s0 (cqDrain s fn cq a3) := by
  induction a3 generalizing s fn cq with
  | zero =>
    unfold cqDrain
    repeat' first
      | with_reducible assumption
  | succ k ih =>
    unfold cqDrain
    repeat' first
      | with_reducible assumption
      | with_reducible apply ih
      | with_reducible apply State.setHst_keeps
      | with_reducible apply cmdFree_keeps
      | with_reducible apply cqPut_keeps
      | with_reducible apply cqWrite_keeps
      | with_reducible apply Keeps.ite
      | exact hW.trans (Foot.le_of (by decide +kernel))
      | split

/-- What `aerPump` may change. -/
def aerPumpFoot : Foot :=
  .union [cqReadyFrame]

theorem aerPump_keeps {W : Foot} {s0 s : State} {fn : Nat} {a2 : Nat} (hW : aerPumpFoot.Le W) (h : Keeps W s0 s) :
    Keeps W s0 (aerPump s fn a2) := by
  induction a2 generalizing s fn with
  | zero =>
    unfold aerPump
    repeat' first
      | with_reducible assumption
  | succ k ih =>
    unfold aerPump
    repeat' first
      | with_reducible assumption
      | with_reducible apply ih
      | with_reducible apply State.setHst_keeps
      | with_reducible apply cqReady_keeps
      | with_reducible apply setCtrl_keeps
      | with_reducible apply Keeps.ite
      | exact hW.trans (Foot.le_of (by decide +kernel))
      | split

/-- What `stageSector` may change. -/
def stageSectorFoot : Foot :=
  .union [outcomeAtFrame]

theorem stageSector_keeps {W : Foot} {s0 s : State} {frame : Nat} {c : HostCmd} {lba : Nat} {user : List Byte} {pi : List Byte} (hW : stageSectorFoot.Le W) (h : Keeps W s0 s) :
    Keeps W s0 (stageSector s frame c lba user pi) := by
  unfold stageSector
  repeat' first
    | with_reducible assumption
    | with_reducible apply State.store_keeps
    | exact hW.trans (Foot.le_of (by decide +kernel))

/-- What `stageFrames` may change. -/
def stageFramesFoot : Foot :=
  ⟨[], [.free, .bcm], false⟩

theorem stageFrames_keeps {W : Foot} {s0 s : State} {tag : Nat} {l : List (Nat × Nat)} (hW : stageFramesFoot.Le W)
    (h : Keeps W s0 s) : ∀ y, stageFrames s tag l = some y → Keeps W s0 y := by
  induction l generalizing s with
  | nil =>
    intro y e
    cases e
    exact h
  | cons a l ih =>
    intro y e
    unfold stageFrames at e
    dsimp only at e
    split at e
    · cases e
    · rename_i hf
      exact ih (State.setBcm_keeps (hW.trans (Foot.le_of (by decide +kernel)))
        (takeFrame_keeps (hW.trans (Foot.le_of (by decide +kernel))) h _ _ hf)) y e

/-- What `hostActuatorLost` may change. -/
def hostActuatorLostFoot : Foot :=
  .union [⟨[Reg.jnlStatusTwinDegraded, Reg.jnlIrqStatusTwinDegraded, Reg.hstTagsInUse, Reg.hstTagHwmHwm], [.bcm, .hst,
    .jnl], false⟩, outcomeAtFrame]

theorem hostActuatorLost_keeps {W : Foot} {s0 s : State} {n : Nat} (hW : hostActuatorLostFoot.Le W) (h : Keeps W s0 s) :
    Keeps W s0 (hostActuatorLost s n) := by
  unfold hostActuatorLost
  repeat' first
    | with_reducible assumption
    | with_reducible intro _
    | with_reducible apply zoneChanged_keeps
    | with_reducible apply State.setJnl_keeps
    | with_reducible apply State.set_keeps
    | with_reducible apply Keeps.each
    | with_reducible apply cmdFail_keeps
    | with_reducible apply Keeps.ite
    | exact hW.fld (by decide +kernel)
    | exact hW.trans (Foot.le_of (by decide +kernel))
    | exact Eq.refl true
    | split

/-- What `linkSet` may change. -/
def linkSetFoot : Foot :=
  ⟨[Reg.hstStatusP1Up, Reg.hstStatusP1Width, Reg.hstStatusP1Speed, Reg.hstStatusP0Up, Reg.hstStatusP0Width,
    Reg.hstStatusP0Speed, Reg.hstIrqStatusLinkChg], [], false⟩

theorem linkSet_keeps {W : Foot} {s0 s : State} {p : Nat} {width : Nat} {speed : Nat} (hW : linkSetFoot.Le W) (h : Keeps W s0 s) :
    Keeps W s0 (linkSet s p width speed) := by
  unfold linkSet
  repeat' first
    | with_reducible assumption
    | with_reducible apply State.wr_keeps
    | with_reducible apply State.set_keeps
    | with_reducible apply Keeps.ite
    | exact hW.fld (by decide +kernel)
    | exact Eq.refl true

/-- What `hostStop` may change. -/
def hostStopFoot : Foot :=
  .union [⟨[Reg.hstPendEntries, Reg.hstPendCqsCqs], [.hst], false⟩, jobsAbortFrame]

theorem hostStop_keeps {W : Foot} {s0 s : State} (hW : hostStopFoot.Le W) (h : Keeps W s0 s) :
    Keeps W s0 (hostStop s) := by
  unfold hostStop
  repeat' first
    | with_reducible assumption
    | with_reducible apply jobsAbort_keeps
    | with_reducible apply State.setHst_keeps
    | with_reducible apply pendShow_keeps
    | exact hW.trans (Foot.le_of (by decide +kernel))

/-- What `hostReadFailed` may change. -/
def hostReadFailedFoot : Foot :=
  .union [⟨[Reg.hstTagsInUse, Reg.hstTagHwmHwm], [.bcm, .hst], false⟩, outcomeAtFrame]

theorem hostReadFailed_keeps {W : Foot} {s0 s : State} {la : Nat} {mask : Nat} (hW : hostReadFailedFoot.Le W) (h : Keeps W s0 s) :
    Keeps W s0 (hostReadFailed s la mask) := by
  unfold hostReadFailed
  repeat' first
    | with_reducible assumption
    | with_reducible intro _
    | with_reducible apply Keeps.each
    | with_reducible apply cmdFail_keeps
    | exact hW.trans (Foot.le_of (by decide +kernel))
    | split

end Sys2Proof.Machine
end

