-- ==== Sys2Proof/Laws/FootUnits.lean ====
section
/-!
SUPPORT. Footprints of the operations of Machine/Units.lean: what each may change, and that it changes nothing else.
-/

namespace Sys2Proof.Machine

set_option Elab.async false

/-- What `safeStop` may change. -/
def safeStopFoot : Foot :=
  .union [safeStopFrame]

theorem safeStop_keeps {W : Foot} {s0 s : State} (hW : safeStopFoot.Le W) (h : Keeps W s0 s) :
    Keeps W s0 (safeStop s) := by
  unfold safeStop
  repeat' first
    | with_reducible assumption
    | with_reducible apply hostStop_keeps
    | with_reducible apply bwkStopAll_keeps
    | with_reducible apply rungPreempt_keeps
    | with_reducible apply State.wr_keeps
    | with_reducible apply calStop_keeps
    | with_reducible apply retractLine_keeps
    | with_reducible apply State.clr_keeps
    | with_reducible apply astStop_keeps
    | exact hW.fld (by decide +kernel)
    | exact hW.trans (Foot.le_of (by decide +kernel))
    | exact Eq.refl true

/-- What `safeRecord` may change. -/
def safeRecordFoot : Foot :=
  .union [⟨[Reg.fltStatusCause, Reg.fltStatusSafePend], [], false⟩, mcWriteFrame]

theorem safeRecord_keeps {W : Foot} {s0 s : State} (hW : safeRecordFoot.Le W) (h : Keeps W s0 s) :
    Keeps W s0 (safeRecord s) := by
  unfold safeRecord
  repeat' first
    | with_reducible assumption
    | with_reducible apply State.wr_keeps
    | with_reducible apply State.set_keeps
    | with_reducible apply State.setFlt_keeps
    | with_reducible apply recordWarden_keeps
    | with_reducible apply mcWrite_keeps
    | with_reducible apply Keeps.ite
    | exact hW.fld (by decide +kernel)
    | exact hW.trans (Foot.le_of (by decide +kernel))
    | exact Eq.refl true
    | split

/-- What `safeEnter` may change. -/
def safeEnterFoot : Foot :=
  .union [⟨[Reg.fltStatusCause, Reg.fltStatusSafePend], [], false⟩, safeStopFrame]

theorem safeEnter_keeps {W : Foot} {s0 s : State} {cause : Nat} {captured : Option McRecord} (hW : safeEnterFoot.Le W) (h : Keeps W s0 s) :
    Keeps W s0 (safeEnter s cause captured) := by
  unfold safeEnter
  repeat' first
    | with_reducible assumption
    | with_reducible apply State.setFlt_keeps
    | with_reducible apply safeStop_keeps
    | with_reducible apply safeRecord_keeps
    | with_reducible apply Keeps.ite
    | exact hW.trans (Foot.le_of (by decide +kernel))

/-- What `deviceFatal` may change. -/
def deviceFatalFoot : Foot :=
  .union [⟨[Reg.fltStatusCause, Reg.fltStatusSafePend], [], false⟩, safeStopFrame]

theorem deviceFatal_keeps {W : Foot} {s0 s : State} {source : Nat} {inst : Nat} {code : Nat} {addr : Nat} {declared : Bool} (hW : deviceFatalFoot.Le W) (h : Keeps W s0 s) :
    Keeps W s0 (deviceFatal s source inst code addr declared) := by
  unfold deviceFatal
  repeat' first
    | with_reducible assumption
    | with_reducible apply safeEnter_keeps
    | exact hW.trans (Foot.le_of (by decide +kernel))

/-- What `setDown` may change. -/
def setDownFoot : Foot :=
  ⟨[Reg.fltDownMask, Reg.fltIrqStatusUnitDown], [], false⟩

theorem setDown_keeps {W : Foot} {s0 s : State} {i : Nat} (hW : setDownFoot.Le W) (h : Keeps W s0 s) :
    Keeps W s0 (setDown s i) := by
  unfold setDown
  repeat' first
    | with_reducible assumption
    | with_reducible apply State.wr_elem_keeps
    | with_reducible apply State.set_keeps
    | exact hW.fld (by decide +kernel)
    | exact Eq.refl true

/-- What `retireWrite` may change. -/
def retireWriteFoot : Foot :=
  .union [⟨[Reg.simRetireMask, Reg.recStatusDropped, Reg.recStatusQueued, Reg.recIrqStatusDrop], [.recorder], false⟩,
    outcomeAtFrame]

theorem retireWrite_keeps {W : Foot} {s0 s : State} {i : Nat} (hW : retireWriteFoot.Le W) (h : Keeps W s0 s) :
    Keeps W s0 (retireWrite s i) := by
  unfold retireWrite
  repeat' first
    | with_reducible assumption
    | with_reducible apply State.store_keeps
    | with_reducible apply State.wr_elem_keeps
    | with_reducible apply record_keeps
    | exact hW.fld (by decide +kernel)
    | exact hW.trans (Foot.le_of (by decide +kernel))

/-- What `histNote` may change. -/
def histNoteFoot : Foot :=
  .union [⟨[Reg.simRetireMask, Reg.fltHistCount, Reg.fltIrqStatusRetired, Reg.recStatusDropped, Reg.recStatusQueued,
    Reg.recIrqStatusDrop], [.recorder, .flt], false⟩, outcomeAtFrame]

theorem histNote_keeps {W : Foot} {s0 s : State} {i : Nat} (hW : histNoteFoot.Le W) (h : Keeps W s0 s) :
    Keeps W s0 (histNote s i) := by
  unfold histNote
  repeat' first
    | with_reducible assumption
    | with_reducible apply State.wr_elem_keeps
    | with_reducible apply State.set_keeps
    | with_reducible apply State.setFlt_keeps
    | with_reducible apply retireWrite_keeps
    | with_reducible apply Keeps.ite
    | exact hW.fld (by decide +kernel)
    | exact hW.trans (Foot.le_of (by decide +kernel))
    | exact Eq.refl true

/-- What `actuatorLost` may change. -/
def actuatorLostFoot : Foot :=
  .union [⟨[Reg.bwkCtlAbort, Reg.jnlStatusTwinDegraded, Reg.jnlIrqStatusTwinDegraded, Reg.hstTagsInUse,
    Reg.hstTagHwmHwm, Reg.rngCtlEnable, Reg.rngStatusDraining, Reg.fltCounts0Corrected, Reg.fltDownMask,
    Reg.fltIrqStatusUnitDown], [.bcm, .hst, .jnl], false⟩, hvRetractFrame]

theorem actuatorLost_keeps {W : Foot} {s0 s : State} {n : Nat} (hW : actuatorLostFoot.Le W) (h : Keeps W s0 s) :
    Keeps W s0 (actuatorLost s n) := by
  unfold actuatorLost
  repeat' first
    | with_reducible assumption
    | with_reducible intro _
    | with_reducible apply hvRetract_keeps
    | with_reducible apply bwkAbort_keeps
    | with_reducible apply hostActuatorLost_keeps
    | with_reducible apply State.set_elem_keeps
    | with_reducible apply Keeps.each
    | with_reducible apply setDown_keeps
    | with_reducible apply State.setBwk_keeps
    | with_reducible apply State.clr_elem_keeps
    | with_reducible apply astStop_keeps
    | with_reducible apply Keeps.ite
    | exact hW.fld (by decide +kernel)
    | exact hW.trans (Foot.le_of (by decide +kernel))

/-- What `channelLost` may change. -/
def channelLostFoot : Foot :=
  ⟨[Reg.simStatusRewired, Reg.rdcStatusShared, Reg.rdcStatusPa], [.sim], false⟩

theorem channelLost_keeps {W : Foot} {s0 s : State} {n : Nat} (hW : channelLostFoot.Le W) (h : Keeps W s0 s) :
    Keeps W s0 (channelLost s n) := by
  unfold channelLost
  repeat' first
    | with_reducible assumption
    | with_reducible apply State.wr_elem_keeps
    | with_reducible apply State.set_elem_keeps
    | with_reducible apply State.set_keeps
    | with_reducible apply State.setSim_keeps
    | exact hW.fld (by decide +kernel)
    | exact hW.trans (Foot.le_of (by decide +kernel))
    | exact Eq.refl true

/-- What `unitFatal` may change. -/
def unitFatalFoot : Foot :=
  .union [unitFatalFrame]

theorem unitFatal_keeps {W : Foot} {s0 s : State} {i : Nat} {source : Nat} {inst : Nat} {code : Nat} {addr : Nat} (hW : unitFatalFoot.Le W) (h : Keeps W s0 s) :
    Keeps W s0 (unitFatal s i source inst code addr) := by
  unfold unitFatal
  repeat' first
    | with_reducible assumption
    | with_reducible apply deviceFatal_keeps
    | with_reducible apply setDown_keeps
    | with_reducible apply actuatorLost_keeps
    | with_reducible apply channelLost_keeps
    | with_reducible apply State.setSrv_keeps
    | with_reducible apply histNote_keeps
    | with_reducible apply unitFatalRecord_keeps
    | with_reducible apply Keeps.ite
    | exact hW.trans (Foot.le_of (by decide +kernel))
    | split

end Sys2Proof.Machine
end

