-- ==== Sys2Proof/Laws/FootCache.lean ====
section
/-!
SUPPORT. Footprints of the operations of Machine/Cache.lean: what each may change, and that it changes nothing else.
-/

namespace Sys2Proof.Machine

set_option Elab.async false

/-- What `slotGo` may change. -/
def slotGoFoot : Foot :=
  ⟨[Reg.bcmOpCtlOp, Reg.bcmOpCtlNs, Reg.bcmOpCtlMask, Reg.bcmOpResBusy], [], false⟩

theorem slotGo_keeps {W : Foot} {s0 s : State} {slot : Nat} {data : Word} {run : State → SlotOp → State} (hW : slotGoFoot.Le W) (h : Keeps W s0 s) (hrun : ∀ a0 a1, Keeps W s0 a0 → Keeps W s0 (run a0 a1)) :
    Keeps W s0 (slotGo s slot data run) := by
  unfold slotGo
  repeat' first
    | with_reducible assumption
    | with_reducible apply hrun
    | with_reducible apply State.wr_elem_keeps
    | with_reducible apply State.set_elem_keeps
    | with_reducible apply Keeps.ite
    | exact hW.fld (by decide +kernel)

/-- What `slotQueue` may change. -/
def slotQueueFoot : Foot :=
  .union [slotTryFrame]

theorem slotQueue_keeps {W : Foot} {s0 s : State} {o : SlotOp} (hW : slotQueueFoot.Le W) (h : Keeps W s0 s) :
    Keeps W s0 (slotQueue s o) := by
  unfold slotQueue
  repeat' first
    | with_reducible assumption
    | with_reducible apply State.setBcm_keeps
    | with_reducible apply bcmPump_keeps
    | exact hW.trans (Foot.le_of (by decide +kernel))

theorem execLookup_keeps {W : Foot} {s0 s : State} {slot : Nat} {data : Word} (hW : execLookupFrame.Le W) (h : Keeps W s0 s) :
    KeepsOut W s0 (execLookup slot data s) := by
  unfold execLookup
  repeat' first
    | with_reducible assumption
    | with_reducible intro _
    | with_reducible apply KeepsOut.next
    | with_reducible apply State.answer_keeps
    | with_reducible apply slotGo_keeps
    | with_reducible apply slotQueue_keeps
    | exact hW.trans (Foot.le_of (by decide +kernel))

theorem execAlloc_keeps {W : Foot} {s0 s : State} {slot : Nat} {data : Word} (hW : execAllocFrame.Le W) (h : Keeps W s0 s) :
    KeepsOut W s0 (execAlloc slot data s) := by
  unfold execAlloc
  repeat' first
    | with_reducible assumption
    | with_reducible intro _
    | with_reducible apply KeepsOut.next
    | with_reducible apply State.answer_keeps
    | with_reducible apply slotGo_keeps
    | with_reducible apply slotQueue_keeps
    | exact hW.trans (Foot.le_of (by decide +kernel))

/-- What `fillEnd` may change. -/
def fillEndFoot : Foot :=
  .union [slotTryFrame, outcomeAtFrame]

theorem fillEnd_keeps {W : Foot} {s0 s : State} {o : SlotOp} {to_ : Nat} (hW : fillEndFoot.Le W) (h : Keeps W s0 s) :
    Keeps W s0 (fillEnd s o to_) := by
  unfold fillEnd
  repeat' first
    | with_reducible assumption
    | with_reducible apply slotEnd_keeps
    | with_reducible apply bcmPut_keeps
    | with_reducible apply mergePump_keeps
    | with_reducible apply bcmDrop_keeps
    | with_reducible apply bcmPump_keeps
    | with_reducible apply Keeps.ite
    | exact hW.trans (Foot.le_of (by decide +kernel))
    | split

theorem execFillOk_keeps {W : Foot} {s0 s : State} {slot : Nat} {data : Word} (hW : execFillOkFrame.Le W) (h : Keeps W s0 s) :
    KeepsOut W s0 (execFillOk slot data s) := by
  unfold execFillOk
  repeat' first
    | with_reducible assumption
    | with_reducible intro _
    | with_reducible apply KeepsOut.next
    | with_reducible apply State.answer_keeps
    | with_reducible apply slotGo_keeps
    | with_reducible apply fillEnd_keeps
    | exact hW.trans (Foot.le_of (by decide +kernel))

theorem execFillFail_keeps {W : Foot} {s0 s : State} {slot : Nat} {data : Word} (hW : execFillFailFrame.Le W) (h : Keeps W s0 s) :
    KeepsOut W s0 (execFillFail slot data s) := by
  unfold execFillFail
  repeat' first
    | with_reducible assumption
    | with_reducible intro _
    | with_reducible apply KeepsOut.next
    | with_reducible apply State.answer_keeps
    | with_reducible apply slotGo_keeps
    | with_reducible apply hostReadFailed_keeps
    | with_reducible apply fillEnd_keeps
    | exact hW.trans (Foot.le_of (by decide +kernel))

theorem execClean_keeps {W : Foot} {s0 s : State} {slot : Nat} {data : Word} (hW : execCleanFrame.Le W) (h : Keeps W s0 s) :
    KeepsOut W s0 (execClean slot data s) := by
  unfold execClean
  repeat' first
    | with_reducible assumption
    | with_reducible intro _
    | with_reducible apply KeepsOut.next
    | with_reducible apply State.answer_keeps
    | with_reducible apply slotGo_keeps
    | with_reducible apply slotQueue_keeps
    | exact hW.trans (Foot.le_of (by decide +kernel))

theorem execInvalidate_keeps {W : Foot} {s0 s : State} {slot : Nat} {data : Word} (hW : execInvalidateFrame.Le W) (h : Keeps W s0 s) :
    KeepsOut W s0 (execInvalidate slot data s) := by
  unfold execInvalidate
  repeat' first
    | with_reducible assumption
    | with_reducible intro _
    | with_reducible apply KeepsOut.next
    | with_reducible apply State.answer_keeps
    | with_reducible apply slotGo_keeps
    | with_reducible apply slotQueue_keeps
    | exact hW.trans (Foot.le_of (by decide +kernel))

theorem execPin_keeps {W : Foot} {s0 s : State} {slot : Nat} {data : Word} (hW : execPinFrame.Le W) (h : Keeps W s0 s) :
    KeepsOut W s0 (execPin slot data s) := by
  unfold execPin
  repeat' first
    | with_reducible assumption
    | with_reducible intro _
    | with_reducible apply KeepsOut.next
    | with_reducible apply State.answer_keeps
    | with_reducible apply slotEnd_keeps
    | with_reducible apply slotGo_keeps
    | with_reducible apply slotQueue_keeps
    | with_reducible apply Keeps.ite
    | exact hW.trans (Foot.le_of (by decide +kernel))

theorem execUnpin_keeps {W : Foot} {s0 s : State} {slot : Nat} {data : Word} (hW : execUnpinFrame.Le W) (h : Keeps W s0 s) :
    KeepsOut W s0 (execUnpin slot data s) := by
  unfold execUnpin
  repeat' first
    | with_reducible assumption
    | with_reducible intro _
    | with_reducible apply KeepsOut.next
    | with_reducible apply State.answer_keeps
    | with_reducible apply slotEnd_keeps
    | with_reducible apply slotGo_keeps
    | with_reducible apply slotQueue_keeps
    | with_reducible apply Keeps.ite
    | exact hW.trans (Foot.le_of (by decide +kernel))

theorem execBcmReqPop_keeps {W : Foot} {s0 s : State} (hW : execBcmReqPopFrame.Le W) (h : Keeps W s0 s) :
    KeepsOut W s0 (execBcmReqPop s) := by
  unfold execBcmReqPop
  repeat' first
    | with_reducible assumption
    | with_reducible apply KeepsOut.next
    | with_reducible apply State.answer_keeps
    | with_reducible apply fifoShow_keeps
    | with_reducible apply State.setBcm_keeps
    | exact hW.trans (Foot.le_of (by decide +kernel))

/-- What `wayEmpty` may change. -/
def wayEmptyFoot : Foot :=
  ⟨[Reg.bcmDirtyLines, Reg.pmuOvfOvf, Reg.pmuCntLoCount, Reg.pmuCntHiCount], [.bcm], false⟩

theorem wayEmpty_keeps {W : Foot} {s0 s : State} {w : Nat} (hW : wayEmptyFoot.Le W) (h : Keeps W s0 s) :
    Keeps W s0 (wayEmpty s w) := by
  unfold wayEmpty
  repeat' first
    | with_reducible assumption
    | with_reducible intro _
    | with_reducible apply Keeps.each
    | with_reducible apply evictIn_keeps
    | exact hW.trans (Foot.le_of (by decide +kernel))

theorem execBcmWaysWrite_keeps {W : Foot} {s0 s : State} {data : Word} (hW : execBcmWaysWriteFrame.Le W) (h : Keeps W s0 s) :
    KeepsOut W s0 (execBcmWaysWrite data s) := by
  unfold execBcmWaysWrite
  repeat' first
    | with_reducible assumption
    | with_reducible intro _
    | with_reducible apply KeepsOut.next
    | with_reducible apply KeepsOut.ite
    | with_reducible apply State.answer_keeps
    | with_reducible apply wayEmpty_keeps
    | with_reducible apply State.wr_keeps
    | with_reducible apply Keeps.each
    | with_reducible apply corrected_keeps
    | with_reducible apply expertIgnored_keeps
    | exact hW.fld (by decide +kernel)
    | exact hW.trans (Foot.le_of (by decide +kernel))
    | exact Eq.refl true

theorem execWayGated_keeps {W : Foot} {s0 s : State} {w : Nat} (hW : execWayGatedFrame.Le W) (h : Keeps W s0 s) :
    KeepsOut W s0 (execWayGated w s) := by
  unfold execWayGated
  repeat' first
    | with_reducible assumption
    | with_reducible apply KeepsOut.next
    | with_reducible apply KeepsOut.ite
    | with_reducible apply wayEmpty_keeps
    | with_reducible apply State.wr_keeps
    | with_reducible apply State.set_keeps
    | exact hW.fld (by decide +kernel)
    | exact hW.trans (Foot.le_of (by decide +kernel))
    | exact Eq.refl true

theorem execBcmEnWrite_keeps {W : Foot} {s0 s : State} {data : Word} (hW : execBcmEnWriteFrame.Le W) (h : Keeps W s0 s) :
    KeepsOut W s0 (execBcmEnWrite data s) := by
  unfold execBcmEnWrite
  repeat' first
    | with_reducible assumption
    | with_reducible apply KeepsOut.next
    | with_reducible apply KeepsOut.ite
    | with_reducible apply State.answer_keeps
    | with_reducible apply State.wr_keeps
    | with_reducible apply State.set_keeps
    | with_reducible apply State.clr_keeps
    | exact hW.fld (by decide +kernel)
    | exact hW.trans (Foot.le_of (by decide +kernel))
    | exact Eq.refl true

theorem execBcmDrainDone_keeps {W : Foot} {s0 s : State} (hW : execBcmDrainDoneFrame.Le W) (h : Keeps W s0 s) :
    KeepsOut W s0 (execBcmDrainDone s) := by
  unfold execBcmDrainDone
  repeat' first
    | with_reducible assumption
    | with_reducible apply KeepsOut.next
    | with_reducible apply KeepsOut.ite
    | with_reducible apply bcmDirtyShow_keeps
    | with_reducible apply State.setBcm_keeps
    | with_reducible apply State.wr_keeps
    | with_reducible apply State.set_keeps
    | exact hW.fld (by decide +kernel)
    | exact hW.trans (Foot.le_of (by decide +kernel))
    | exact Eq.refl true

/-- What `State.setMem` may change. -/
def setMemFoot : Foot :=
  ⟨[Reg.memStatusPinned, Reg.memStatusTrkUsed, Reg.memStatusCand], [.memc], false⟩

theorem State.setMem_keeps {W : Foot} {s0 s : State} {v : Mem} (hW : setMemFoot.Le W) (h : Keeps W s0 s) :
    Keeps W s0 (State.setMem s v) := by
  unfold State.setMem
  repeat' first
    | with_reducible assumption
    | with_reducible apply State.setMemc_keeps
    | with_reducible apply State.wr_keeps
    | exact hW.fld (by decide +kernel)
    | exact hW.trans (Foot.le_of (by decide +kernel))
    | exact Eq.refl true

/-- What `memReport` may change. -/
def memReportFoot : Foot :=
  ⟨[Reg.memLastErrValid, Reg.memLastErrKind, Reg.memLastErrArray, Reg.memLastErrMaster, Reg.memLastErrPosition,
    Reg.memLastAddrLoAddr, Reg.memLastAddrHiAddr], [], false⟩

theorem memReport_keeps {W : Foot} {s0 s : State} {kind : Nat} {array : Nat} {m : Nat} {position : Nat} {addr : Nat} (hW : memReportFoot.Le W) (h : Keeps W s0 s) :
    Keeps W s0 (memReport s kind array m position addr) := by
  unfold memReport
  repeat' first
    | with_reducible assumption
    | with_reducible apply State.wr_keeps
    | with_reducible apply State.set_keeps
    | with_reducible apply State.wrPair_keeps
    | exact hW.fld (by decide +kernel)
    | exact Eq.refl true

/-- What `memCount` may change. -/
def memCountFoot : Foot :=
  ⟨[], [], false⟩

theorem memCount_keeps {W : Foot} {s0 s : State} {array : Nat} {f g k : Fld} (hf : Nat.blt 0 f.count = true)
    (hg : Nat.blt 0 g.count = true) (hk : Nat.blt 0 k.count = true) (hfW : f ∈ W.regs) (hgW : g ∈ W.regs) (hkW : k ∈ W.regs)
    (h : Keeps W s0 s) : Keeps W s0 (memCount s array f g k) := by
  unfold memCount
  split
  · exact State.bump_keeps hf hfW h
  · split
    · exact State.bump_keeps hg hgW h
    · exact State.bump_keeps hk hkW h

/-- What `hardWord` may change. -/
def hardWordFoot : Foot :=
  ⟨[Reg.memStatusHardOvf, Reg.memStatusPinned, Reg.memStatusTrkUsed, Reg.memStatusCand, Reg.memCounts2Hard,
    Reg.memIrqStatusHard, Reg.recStatusDropped, Reg.recStatusQueued, Reg.recIrqStatusDrop], [.recorder, .memc], false⟩

theorem hardWord_keeps {W : Foot} {s0 s : State} {array : Nat} {addr : Nat} (hW : hardWordFoot.Le W) (h : Keeps W s0 s) :
    Keeps W s0 (hardWord s array addr) := by
  unfold hardWord
  repeat' first
    | with_reducible assumption
    | with_reducible intro _
    | with_reducible apply State.bump_keeps
    | with_reducible apply State.set_keeps
    | with_reducible apply record_keeps
    | with_reducible apply State.setMem_keeps
    | with_reducible apply Keeps.when
    | exact hW.fld (by decide +kernel)
    | exact hW.trans (Foot.le_of (by decide +kernel))
    | exact Eq.refl true

/-- What `trackCorrection` may change. -/
def trackCorrectionFoot : Foot :=
  ⟨[Reg.memStatusHardOvf, Reg.memStatusPinned, Reg.memStatusTrkUsed, Reg.memStatusCand, Reg.memCounts2Hard,
    Reg.memIrqStatusHard, Reg.recStatusDropped, Reg.recStatusQueued, Reg.recIrqStatusDrop], [.recorder, .memc], false⟩

theorem trackCorrection_keeps {W : Foot} {s0 s : State} {array : Nat} {addr : Nat} (hW : trackCorrectionFoot.Le W) (h : Keeps W s0 s) :
    Keeps W s0 (trackCorrection s array addr) := by
  unfold trackCorrection
  repeat' first
    | with_reducible assumption
    | with_reducible apply State.setMem_keeps
    | with_reducible apply hardWord_keeps
    | with_reducible apply Keeps.ite
    | exact hW.trans (Foot.le_of (by decide +kernel))
    | split
    | dsimp only

theorem execMemCorrectedRead_keeps {W : Foot} {s0 s : State} {m : Nat} {addr : Nat} {position : Nat} (hW : execMemCorrectedReadFrame.Le W) (h : Keeps W s0 s) :
    KeepsOut W s0 (execMemCorrectedRead m addr position s) := by
  unfold execMemCorrectedRead
  repeat' first
    | with_reducible assumption
    | with_reducible apply KeepsOut.next
    | with_reducible apply pmuEvent_keeps
    | with_reducible apply State.set_keeps
    | with_reducible apply corrected_keeps
    | with_reducible apply memReport_keeps
    | with_reducible apply memCount_keeps
    | with_reducible apply trackCorrection_keeps
    | exact hW.fld (by decide +kernel)
    | exact hW.trans (Foot.le_of (by decide +kernel))
    | exact Eq.refl true

/-- What `uncorrectable` may change. -/
def uncorrectableFoot : Foot :=
  .union [uncorrectableFrame]

theorem uncorrectable_keeps {W : Foot} {s0 s : State} {m : Nat} {addr : Nat} (hW : uncorrectableFoot.Le W) (h : Keeps W s0 s) :
    Keeps W s0 (uncorrectable s m addr) := by
  unfold uncorrectable
  repeat' first
    | with_reducible assumption
    | with_reducible apply State.setPoison_keeps
    | with_reducible apply State.setMemc_keeps
    | with_reducible apply State.set_keeps
    | with_reducible apply memReport_keeps
    | with_reducible apply memCount_keeps
    | with_reducible apply Keeps.ite
    | exact hW.fld (by decide +kernel)
    | exact hW.trans (Foot.le_of (by decide +kernel))
    | exact Eq.refl true

theorem execMemUncorrectableRead_keeps {W : Foot} {s0 s : State} {m : Nat} {addr : Nat} (hW : execMemUncorrectableReadFrame.Le W) (h : Keeps W s0 s) :
    KeepsOut W s0 (execMemUncorrectableRead m addr s) := by
  unfold execMemUncorrectableRead
  repeat' first
    | with_reducible assumption
    | with_reducible apply KeepsOut.next
    | with_reducible apply contained_keeps
    | with_reducible apply uncorrectable_keeps
    | with_reducible apply State.setResp_keeps
    | with_reducible apply Keeps.ite
    | exact hW.trans (Foot.le_of (by decide +kernel))

theorem execTrackerWriteback_keeps {W : Foot} {s0 s : State} {k : Nat} (hW : execTrackerWritebackFrame.Le W) (h : Keeps W s0 s) :
    KeepsOut W s0 (execTrackerWriteback k s) := by
  unfold execTrackerWriteback
  repeat' first
    | with_reducible assumption
    | with_reducible apply KeepsOut.next
    | with_reducible apply KeepsOut.ite
    | with_reducible apply State.setMem_keeps
    | exact hW.trans (Foot.le_of (by decide +kernel))
    | split

theorem execScrubStep_keeps {W : Foot} {s0 s : State} {array : Nat} {flaw : Nat} (hW : execScrubStepFrame.Le W) (h : Keeps W s0 s) :
    KeepsOut W s0 (execScrubStep array flaw s) := by
  unfold execScrubStep
  repeat' first
    | with_reducible assumption
    | with_reducible apply KeepsOut.next
    | with_reducible apply KeepsOut.ite
    | with_reducible apply pmuEvent_keeps
    | with_reducible apply State.wr_keeps
    | with_reducible apply State.set_keeps
    | with_reducible apply corrected_keeps
    | with_reducible apply uncorrectable_keeps
    | with_reducible apply memReport_keeps
    | with_reducible apply State.setMem_keeps
    | with_reducible apply memCount_keeps
    | with_reducible apply trackCorrection_keeps
    | with_reducible apply Keeps.ite
    | exact hW.fld (by decide +kernel)
    | exact hW.trans (Foot.le_of (by decide +kernel))
    | exact Eq.refl true
    | split

theorem execMemInjectArm_keeps {W : Foot} {s0 s : State} {data : Word} (hW : execMemInjectArmFrame.Le W) (h : Keeps W s0 s) :
    KeepsOut W s0 (execMemInjectArm data s) := by
  unfold execMemInjectArm
  repeat' first
    | with_reducible assumption
    | with_reducible apply KeepsOut.next
    | with_reducible apply KeepsOut.ite
    | with_reducible apply State.answer_keeps
    | with_reducible apply State.wr_keeps
    | with_reducible apply State.set_keeps
    | with_reducible apply corrected_keeps
    | with_reducible apply expertIgnored_keeps
    | with_reducible apply Keeps.ite
    | exact hW.fld (by decide +kernel)
    | exact hW.trans (Foot.le_of (by decide +kernel))
    | exact Eq.refl true

end Sys2Proof.Machine
end

