-- ==== Sys2Proof/Laws/FootJournalOps.lean ====
section
/-!
SUPPORT. Footprints of the operations of Machine/JournalOps.lean: what each may change, and that it changes nothing else.
-/

namespace Sys2Proof.Machine

set_option Elab.async false

/-- What `seqTake` may change. -/
def seqTakeFoot : Foot :=
  ⟨[Reg.jnlSeqLoSeq, Reg.jnlSeqHiSeq], [.jnl], false⟩

theorem seqTake_keeps {W : Foot} {s0 s : State} (hW : seqTakeFoot.Le W) (h : Keeps W s0 s) :
    Keeps W s0 (seqTake s).2 := by
  unfold seqTake
  repeat' first
    | with_reducible assumption
    | with_reducible apply State.setJnl_keeps
    | with_reducible apply State.wrPair_keeps
    | exact hW.fld (by decide +kernel)
    | exact hW.trans (Foot.le_of (by decide +kernel))
    | exact Eq.refl true

/-- What `setPeatRing` may change. -/
def setPeatRingFoot : Foot :=
  ⟨[], [.jnl], false⟩

theorem setPeatRing_keeps {W : Foot} {s0 s : State} {su : Nat} {k : Nat} {r : PeatRing} (hW : setPeatRingFoot.Le W) (h : Keeps W s0 s) :
    Keeps W s0 (setPeatRing s su k r) := by
  unfold setPeatRing
  repeat' first
    | with_reducible assumption
    | with_reducible apply State.setJnl_keeps
    | exact hW.trans (Foot.le_of (by decide +kernel))

/-- What `occShow` may change. -/
def occShowFoot : Foot :=
  ⟨[Reg.jnlStatusSpaceLow, Reg.jnlOccAct1, Reg.jnlOccAct0, Reg.jnlIrqStatusSpaceLow], [], false⟩

theorem occShow_keeps {W : Foot} {s0 s : State} (hW : occShowFoot.Le W) (h : Keeps W s0 s) :
    Keeps W s0 (occShow s) := by
  unfold occShow
  repeat' first
    | with_reducible assumption
    | with_reducible intro _
    | with_reducible apply State.wr_keeps
    | with_reducible apply State.set_keeps
    | with_reducible apply Keeps.when
    | exact hW.fld (by decide +kernel)
    | exact Eq.refl true

/-- What `twinDegraded` may change. -/
def twinDegradedFoot : Foot :=
  ⟨[Reg.jnlStatusTwinDegraded, Reg.jnlIrqStatusTwinDegraded], [], false⟩

theorem twinDegraded_keeps {W : Foot} {s0 s : State} {v : Bool} (hW : twinDegradedFoot.Le W) (h : Keeps W s0 s) :
    Keeps W s0 (twinDegraded s v) := by
  unfold twinDegraded
  repeat' first
    | with_reducible assumption
    | with_reducible intro _
    | with_reducible apply State.wr_keeps
    | with_reducible apply State.set_keeps
    | with_reducible apply Keeps.when
    | exact hW.fld (by decide +kernel)
    | exact Eq.refl true

/-- What `tailAdvance` may change. -/
def tailAdvanceFoot : Foot :=
  ⟨[], [.jnl], false⟩

theorem tailAdvance_keeps {W : Foot} {s0 s : State} {su : Nat} {k : Nat} {a3 : Nat} (hW : tailAdvanceFoot.Le W) (h : Keeps W s0 s) :
    Keeps W s0 (tailAdvance s su k a3) := by
  induction a3 generalizing s su k with
  | zero =>
    unfold tailAdvance
    repeat' first
      | with_reducible assumption
  | succ k ih =>
    unfold tailAdvance
    repeat' first
      | with_reducible assumption
      | with_reducible apply ih
      | with_reducible apply State.setJnl_keeps
      | with_reducible apply setPeatRing_keeps
      | with_reducible apply Keeps.ite
      | exact hW.trans (Foot.le_of (by decide +kernel))
      | split

/-- What `setExtent` may change. -/
def setExtentFoot : Foot :=
  ⟨[], [.jnl], false⟩

theorem setExtent_keeps {W : Foot} {s0 s : State} {e : Extent} (hW : setExtentFoot.Le W) (h : Keeps W s0 s) :
    Keeps W s0 (setExtent s e) := by
  unfold setExtent
  repeat' first
    | with_reducible assumption
    | with_reducible apply State.setJnl_keeps
    | exact hW.trans (Foot.le_of (by decide +kernel))

/-- What `extentDrop` may change. -/
def extentDropFoot : Foot :=
  .union [extentDropFrame]

theorem extentDrop_keeps {W : Foot} {s0 s : State} {e : Extent} {to_ : Nat} (hW : extentDropFoot.Le W) (h : Keeps W s0 s) :
    Keeps W s0 (extentDrop s e to_) := by
  unfold extentDrop
  repeat' first
    | with_reducible assumption
    | with_reducible apply dirtyEnd_keeps
    | with_reducible apply State.setJnl_keeps
    | with_reducible apply occShow_keeps
    | with_reducible apply State.wr_keeps
    | with_reducible apply tailAdvance_keeps
    | with_reducible apply State.clr_keeps
    | with_reducible apply bcmPump_keeps
    | with_reducible apply Keeps.ite
    | exact hW.fld (by decide +kernel)
    | exact hW.trans (Foot.le_of (by decide +kernel))
    | exact Eq.refl true

/-- What `foldJudge` may change. -/
def foldJudgeFoot : Foot :=
  .union [⟨[Reg.jnlCounts1Folds], [], false⟩, extentDropFrame]

theorem foldJudge_keeps {W : Foot} {s0 s : State} {e : Extent} (hW : foldJudgeFoot.Le W) (h : Keeps W s0 s) :
    Keeps W s0 (foldJudge s e) := by
  unfold foldJudge
  repeat' first
    | with_reducible assumption
    | with_reducible intro _
    | with_reducible apply Keeps.each
    | with_reducible apply State.addWrap_keeps
    | with_reducible apply extentDrop_keeps
    | with_reducible apply Keeps.ite
    | exact hW.fld (by decide +kernel)
    | exact hW.trans (Foot.le_of (by decide +kernel))
    | exact Eq.refl true

/-- What `foldPump` may change. -/
def foldPumpFoot : Foot :=
  .union [⟨[Reg.jnlCounts1Folds], [], false⟩, extentDropFrame]

theorem foldPump_keeps {W : Foot} {s0 s : State} (hW : foldPumpFoot.Le W) (h : Keeps W s0 s) :
    Keeps W s0 (foldPump s) := by
  unfold foldPump
  repeat' first
    | with_reducible assumption
    | with_reducible intro _
    | with_reducible apply Keeps.each
    | with_reducible apply foldJudge_keeps
    | exact hW.trans (Foot.le_of (by decide +kernel))

/-- What `bandUpdate` may change. -/
def bandUpdateFoot : Foot :=
  ⟨[], [.jnl], false⟩

theorem bandUpdate_keeps {W : Foot} {s0 s : State} {ns : Nat} {zone : Nat} {f : Band → Band} (hW : bandUpdateFoot.Le W) (h : Keeps W s0 s) :
    Keeps W s0 (bandUpdate s ns zone f) := by
  unfold bandUpdate
  repeat' first
    | with_reducible assumption
    | with_reducible apply State.setJnl_keeps
    | with_reducible apply Keeps.ite
    | exact hW.trans (Foot.le_of (by decide +kernel))

/-- What `writeJudge` may change. -/
def writeJudgeFoot : Foot :=
  .union [⟨[Reg.hstTagsInUse, Reg.hstTagHwmHwm, Reg.bcmCounts2Recalls, Reg.bcmCounts2Remaps, Reg.bcmDirtyLines,
    Reg.pmuOvfOvf, Reg.pmuCntLoCount, Reg.pmuCntHiCount], [.free, .bcm, .hst, .jnl], false⟩, outcomeAtFrame]

theorem writeJudge_keeps {W : Foot} {s0 s : State} {c : HostCmd} (hW : writeJudgeFoot.Le W) (h : Keeps W s0 s) :
    Keeps W s0 (writeJudge s c) := by
  unfold writeJudge
  repeat' first
    | with_reducible assumption
    | with_reducible apply bandUpdate_keeps
    | with_reducible apply mergeWrite_keeps
    | with_reducible apply cmdDone_keeps
    | with_reducible apply Keeps.ite
    | exact hW.trans (Foot.le_of (by decide +kernel))

/-- What `writePump` may change. -/
def writePumpFoot : Foot :=
  .union [⟨[Reg.hstTagsInUse, Reg.hstTagHwmHwm, Reg.bcmCounts2Recalls, Reg.bcmCounts2Remaps, Reg.bcmDirtyLines,
    Reg.pmuOvfOvf, Reg.pmuCntLoCount, Reg.pmuCntHiCount], [.free, .bcm, .hst, .jnl], false⟩, outcomeAtFrame]

theorem writePump_keeps {W : Foot} {s0 s : State} (hW : writePumpFoot.Le W) (h : Keeps W s0 s) :
    Keeps W s0 (writePump s) := by
  unfold writePump
  repeat' first
    | with_reducible assumption
    | with_reducible intro _
    | with_reducible apply writeJudge_keeps
    | with_reducible apply Keeps.each
    | exact hW.trans (Foot.le_of (by decide +kernel))
    | split

/-- What `creditLaid` may change. -/
def creditLaidFoot : Foot :=
  ⟨[], [.hst], false⟩

theorem creditLaid_keeps {W : Foot} {s0 s : State} {ns : Nat} {seq : Nat} {lbas : List Nat} (hW : creditLaidFoot.Le W) (h : Keeps W s0 s) :
    Keeps W s0 (creditLaid s ns seq lbas) := by
  unfold creditLaid
  repeat' first
    | with_reducible assumption
    | with_reducible apply State.setHst_keeps
    | exact hW.trans (Foot.le_of (by decide +kernel))

/-- What `creditSafe` may change. -/
def creditSafeFoot : Foot :=
  ⟨[], [.hst], false⟩

theorem creditSafe_keeps {W : Foot} {s0 s : State} {ns : Nat} {seq : Nat} {lbas : List Nat} (hW : creditSafeFoot.Le W) (h : Keeps W s0 s) :
    Keeps W s0 (creditSafe s ns seq lbas) := by
  unfold creditSafe
  repeat' first
    | with_reducible assumption
    | with_reducible apply State.setHst_keeps
    | exact hW.trans (Foot.le_of (by decide +kernel))

/-- What `creditHome` may change. -/
def creditHomeFoot : Foot :=
  ⟨[], [.jnl], false⟩

theorem creditHome_keeps {W : Foot} {s0 s : State} {ns : Nat} {seq : Nat} {lba : Nat} (hW : creditHomeFoot.Le W) (h : Keeps W s0 s) :
    Keeps W s0 (creditHome s ns seq lba) := by
  unfold creditHome
  repeat' first
    | with_reducible assumption
    | with_reducible apply State.setJnl_keeps
    | exact hW.trans (Foot.le_of (by decide +kernel))

/-- What `groupSeal` may change. -/
def groupSealFoot : Foot :=
  .union [⟨[], [.hst], false⟩, extentDropFrame]

theorem groupSeal_keeps {W : Foot} {s0 s : State} {n : Nat} (hW : groupSealFoot.Le W) (h : Keeps W s0 s) :
    Keeps W s0 (groupSeal s n) := by
  unfold groupSeal
  repeat' first
    | with_reducible assumption
    | with_reducible intro _
    | with_reducible apply State.setJnl_keeps
    | with_reducible apply Keeps.each
    | with_reducible apply creditSafe_keeps
    | with_reducible apply extentDrop_keeps
    | exact hW.trans (Foot.le_of (by decide +kernel))

/-- What `creditData` may change. -/
def creditDataFoot : Foot :=
  ⟨[], [.hst, .jnl], false⟩

theorem creditData_keeps {W : Foot} {s0 s : State} {n : Nat} {internal : List Byte} {accum : Bool} (hW : creditDataFoot.Le W) (h : Keeps W s0 s) :
    Keeps W s0 (creditData s n internal accum) := by
  unfold creditData
  repeat' first
    | with_reducible assumption
    | with_reducible apply creditLaid_keeps
    | with_reducible apply bandUpdate_keeps
    | with_reducible apply creditHome_keeps
    | with_reducible apply State.setJnl_keeps
    | with_reducible apply creditSafe_keeps
    | with_reducible apply Keeps.ite
    | exact hW.trans (Foot.le_of (by decide +kernel))

/-- What `creditParity` may change. -/
def creditParityFoot : Foot :=
  .union [⟨[], [.hst], false⟩, extentDropFrame]

theorem creditParity_keeps {W : Foot} {s0 s : State} {n : Nat} {internal : List Byte} (hW : creditParityFoot.Le W) (h : Keeps W s0 s) :
    Keeps W s0 (creditParity s n internal) := by
  unfold creditParity
  repeat' first
    | with_reducible assumption
    | with_reducible apply bandUpdate_keeps
    | with_reducible apply State.setJnl_keeps
    | with_reducible apply groupSeal_keeps
    | with_reducible apply Keeps.ite
    | exact hW.trans (Foot.le_of (by decide +kernel))

/-- What `recordEnter` may change. -/
def recordEnterFoot : Foot :=
  ⟨[Reg.jnlStatusSpaceLow, Reg.jnlOccAct1, Reg.jnlOccAct0, Reg.jnlIrqStatusSpaceLow], [.jnl], false⟩

theorem recordEnter_keeps {W : Foot} {s0 s : State} {r : OpenRecord} {idx : Nat} (hW : recordEnterFoot.Le W) (h : Keeps W s0 s) :
    Keeps W s0 (recordEnter s r idx) := by
  unfold recordEnter
  repeat' first
    | with_reducible assumption
    | with_reducible apply State.setJnl_keeps
    | with_reducible apply occShow_keeps
    | with_reducible apply setPeatRing_keeps
    | exact hW.trans (Foot.le_of (by decide +kernel))

/-- What `recordLaid` may change. -/
def recordLaidFoot : Foot :=
  ⟨[Reg.jnlStatusIdxFull, Reg.jnlStatusSpaceLow, Reg.jnlOccAct1, Reg.jnlOccAct0, Reg.jnlCounts0Twins,
    Reg.jnlIrqStatusSpaceLow], [.hst, .jnl], false⟩

theorem recordLaid_keeps {W : Foot} {s0 s : State} {r : OpenRecord} (hW : recordLaidFoot.Le W) (h : Keeps W s0 s) :
    Keeps W s0 (recordLaid s r) := by
  rw [recordLaid]
  generalize extentFree s = o
  cases o with
  | none => exact State.set_keeps (Eq.refl true) (hW.fld (by decide +kernel)) h
  | some idx =>
    have h1 : Keeps W s0 (recordEnter s r idx) := recordEnter_keeps (hW.trans (Foot.le_of (by decide +kernel))) h
    refine Keeps.ite (creditSafe_keeps (hW.trans (Foot.le_of (by decide +kernel)))
      (State.addWrap_keeps (Eq.refl true) (hW.fld (by decide +kernel)) h1)) ?_
    exact creditLaid_keeps (hW.trans (Foot.le_of (by decide +kernel))) h1

/-- What `creditHeader` may change. -/
def creditHeaderFoot : Foot :=
  ⟨[Reg.jnlStatusIdxFull, Reg.jnlStatusSpaceLow, Reg.jnlOccAct1, Reg.jnlOccAct0, Reg.jnlCounts0Twins,
    Reg.jnlIrqStatusSpaceLow], [.hst, .jnl], false⟩

theorem creditHeader_keeps {W : Foot} {s0 s : State} {n : Nat} {p : Plank} {i : Nat} (hW : creditHeaderFoot.Le W) (h : Keeps W s0 s) :
    Keeps W s0 (creditHeader s n p i) := by
  unfold creditHeader
  repeat' first
    | with_reducible assumption
    | with_reducible apply recordLaid_keeps
    | with_reducible apply State.setJnl_keeps
    | with_reducible apply Keeps.ite
    | exact hW.trans (Foot.le_of (by decide +kernel))
    | split
    | dsimp only

/-- What `creditPayload` may change. -/
def creditPayloadFoot : Foot :=
  ⟨[Reg.jnlStatusIdxFull, Reg.jnlStatusSpaceLow, Reg.jnlOccAct1, Reg.jnlOccAct0, Reg.jnlCounts0Twins,
    Reg.jnlIrqStatusSpaceLow], [.hst, .jnl], false⟩

theorem creditPayload_keeps {W : Foot} {s0 s : State} {n : Nat} (hW : creditPayloadFoot.Le W) (h : Keeps W s0 s) :
    Keeps W s0 (creditPayload s n) := by
  unfold creditPayload
  repeat' first
    | with_reducible assumption
    | with_reducible apply recordLaid_keeps
    | with_reducible apply State.setJnl_keeps
    | with_reducible apply Keeps.ite
    | exact hW.trans (Foot.le_of (by decide +kernel))
    | split

/-- What `creditSector` may change. -/
def creditSectorFoot : Foot :=
  .union [⟨[Reg.jnlCounts0Twins], [.hst], false⟩, extentDropFrame]

theorem creditSector_keeps {W : Foot} {s0 s : State} {n : Nat} {p : Plank} {i : Nat} (hW : creditSectorFoot.Le W) (h : Keeps W s0 s) :
    Keeps W s0 (creditSector s n p i) := by
  unfold creditSector
  repeat' first
    | with_reducible assumption
    | with_reducible apply creditData_keeps
    | with_reducible apply creditPayload_keeps
    | with_reducible apply creditParity_keeps
    | with_reducible apply creditHeader_keeps
    | with_reducible apply Keeps.ite
    | exact hW.trans (Foot.le_of (by decide +kernel))

/-- What `faultCount` may change. -/
def faultCountFoot : Foot :=
  .union [⟨[Reg.jnlIrqStatusWriteFail, Reg.hstTagsInUse, Reg.hstTagHwmHwm], [.bcm, .hst], false⟩, outcomeAtFrame]

theorem faultCount_keeps {W : Foot} {s0 s : State} {act : Nat} {ns : Nat} {seq : Nat} {lba : Nat} (hW : faultCountFoot.Le W) (h : Keeps W s0 s) :
    Keeps W s0 (faultCount s act ns seq lba) := by
  unfold faultCount
  repeat' first
    | with_reducible assumption
    | with_reducible apply setCmd_keeps
    | with_reducible apply State.set_keeps
    | with_reducible apply cmdFail_keeps
    | with_reducible apply Keeps.ite
    | exact hW.fld (by decide +kernel)
    | exact hW.trans (Foot.le_of (by decide +kernel))
    | exact Eq.refl true
    | split

/-- What `faultRestart` may change. -/
def faultRestartFoot : Foot :=
  .union [faultRestartFrame]

theorem faultRestart_keeps {W : Foot} {s0 s : State} {n : Nat} {p : Plank} {i : Nat} (hW : faultRestartFoot.Le W) (h : Keeps W s0 s) :
    Keeps W s0 (faultRestart s n p i) := by
  unfold faultRestart
  repeat' first
    | with_reducible assumption
    | with_reducible intro _
    | with_reducible apply faultCount_keeps
    | with_reducible apply State.bump_keeps
    | with_reducible apply creditSector_keeps
    | with_reducible apply State.setJnl_keeps
    | with_reducible apply Keeps.each
    | with_reducible apply State.setOce_keeps
    | with_reducible apply State.clr_elem_keeps
    | with_reducible apply Keeps.ite
    | exact hW.fld (by decide +kernel)
    | exact hW.trans (Foot.le_of (by decide +kernel))
    | exact Eq.refl true

/-- What `jnlPlank` may change. -/
def jnlPlankFoot : Foot :=
  .union [⟨[Reg.jnlCounts1Folds], [], false⟩, faultRestartFrame]

theorem jnlPlank_keeps {W : Foot} {s0 s : State} {n : Nat} {p : Plank} {status : Nat} {failFirst : Option Nat} (hW : jnlPlankFoot.Le W) (h : Keeps W s0 s) :
    Keeps W s0 (jnlPlank s n p status failFirst) := by
  unfold jnlPlank
  repeat' first
    | with_reducible assumption
    | with_reducible intro _
    | with_reducible apply faultRestart_keeps
    | with_reducible apply creditSector_keeps
    | with_reducible apply foldPump_keeps
    | with_reducible apply State.setJnl_keeps
    | with_reducible apply Keeps.each
    | with_reducible apply writePump_keeps
    | with_reducible apply Keeps.ite
    | exact hW.trans (Foot.le_of (by decide +kernel))

/-- What `accSave` may change. -/
def accSaveFoot : Foot :=
  ⟨[], [.jnl], false⟩

theorem accSave_keeps {W : Foot} {s0 s : State} {n : Nat} (hW : accSaveFoot.Le W) (h : Keeps W s0 s) :
    Keeps W s0 (accSave s n) := by
  unfold accSave
  repeat' first
    | with_reducible assumption
    | with_reducible apply State.setJnl_keeps
    | exact hW.trans (Foot.le_of (by decide +kernel))

/-- What `jnlZoneReset` may change. -/
def jnlZoneResetFoot : Foot :=
  .union [extentDropFrame]

theorem jnlZoneReset_keeps {W : Foot} {s0 s : State} {ns : Nat} {zone : Nat} (hW : jnlZoneResetFoot.Le W) (h : Keeps W s0 s) :
    Keeps W s0 (jnlZoneReset s ns zone) := by
  unfold jnlZoneReset
  repeat' first
    | with_reducible assumption
    | with_reducible intro _
    | with_reducible apply State.setJnl_keeps
    | with_reducible apply Keeps.each
    | with_reducible apply extentDrop_keeps
    | exact hW.trans (Foot.le_of (by decide +kernel))

end Sys2Proof.Machine
end

