-- ==== Sys2Proof/Laws/FootChannel.lean ====
section
/-!
SUPPORT. Footprints of the operations of Machine/Channel.lean: what each may change, and that it changes nothing else.
-/

namespace Sys2Proof.Machine

set_option Elab.async false

/-- What `runUpdate` may change. -/
def runUpdateFoot : Foot :=
  ⟨[], [.bwk], false⟩

theorem runUpdate_keeps {W : Foot} {s0 s : State} {n : Nat} {slot : Nat} {f : PlankRun → PlankRun} (hW : runUpdateFoot.Le W) (h : Keeps W s0 s) :
    Keeps W s0 (runUpdate s n slot f) := by
  unfold runUpdate
  repeat' first
    | with_reducible assumption
    | with_reducible apply State.setBwk_keeps
    | with_reducible apply Keeps.ite
    | exact hW.trans (Foot.le_of (by decide +kernel))

/-- What `runFail` may change. -/
def runFailFoot : Foot :=
  ⟨[], [.bwk], false⟩

theorem runFail_keeps {W : Foot} {s0 s : State} {n : Nat} {i : Nat} (hW : runFailFoot.Le W) (h : Keeps W s0 s) :
    Keeps W s0 (runFail s n i) := by
  unfold runFail
  repeat' first
    | with_reducible assumption
    | with_reducible apply State.setBwk_keeps
    | exact hW.trans (Foot.le_of (by decide +kernel))

/-- What `llrCode` may change. -/
def llrCodeFoot : Foot :=
  ⟨[], [.free], false⟩

theorem llrCode_keeps {W : Foot} {s0 s : State} {scale : Nat} {x : Int} (hW : llrCodeFoot.Le W) (h : Keeps W s0 s) :
    Keeps W s0 (llrCode s scale x).2 := by
  unfold llrCode
  repeat' first
    | with_reducible assumption
    | with_reducible apply roundNear_keeps
    | exact hW.trans (Foot.le_of (by decide +kernel))

/-- What `llrCodes` may change. -/
def llrCodesFoot : Foot :=
  ⟨[], [.free], false⟩

theorem llrCodes_keeps {W : Foot} {s0 s : State} {scale : Nat} {a2 : List Int} (hW : llrCodesFoot.Le W) (h : Keeps W s0 s) :
    Keeps W s0 (llrCodes s scale a2).2 := by
  induction a2 generalizing s scale with
  | nil =>
    unfold llrCodes
    repeat' first
      | with_reducible assumption
  | cons a l ih =>
    unfold llrCodes
    repeat' first
      | with_reducible assumption
      | with_reducible apply ih
      | with_reducible apply llrCode_keeps
      | exact hW.trans (Foot.le_of (by decide +kernel))

/-- What `ageSoft` may change. -/
def ageSoftFoot : Foot :=
  ⟨[], [.age], false⟩

theorem ageSoft_keeps {W : Foot} {s0 s : State} {head : Nat} {slotPos : Nat} {codes : List Int} (hW : ageSoftFoot.Le W) (h : Keeps W s0 s) :
    Keeps W s0 (ageSoft s head slotPos codes) := by
  unfold ageSoft
  repeat' first
    | with_reducible assumption
    | with_reducible apply State.setAge_keeps
    | exact hW.trans (Foot.le_of (by decide +kernel))
    | split

/-- What `captureWord` may change. -/
def captureWordFoot : Foot :=
  .union [⟨[], [.free, .age], false⟩, outcomeAtFrame]

theorem captureWord_keeps {W : Foot} {s0 s : State} {w : Codeword} {sstat : Nat} (hW : captureWordFoot.Le W) (h : Keeps W s0 s) :
    Keeps W s0 (captureWord s w sstat) := by
  unfold captureWord
  repeat' first
    | with_reducible assumption
    | with_reducible apply State.store_keeps
    | with_reducible apply ageSoft_keeps
    | with_reducible apply llrCodes_keeps
    | with_reducible apply Keeps.ite
    | exact hW.trans (Foot.le_of (by decide +kernel))

/-- What `bufsShow` may change. -/
def bufsShowFoot : Foot :=
  ⟨[Reg.ldpStatusFast1Bufs, Reg.ldpStatusFast0Bufs], [], false⟩

theorem bufsShow_keeps {W : Foot} {s0 s : State} (hW : bufsShowFoot.Le W) (h : Keeps W s0 s) :
    Keeps W s0 (bufsShow s) := by
  unfold bufsShow
  repeat' first
    | with_reducible assumption
    | with_reducible apply State.wr_keeps
    | exact hW.fld (by decide +kernel)
    | exact Eq.refl true

/-- What `ageSector` may change. -/
def ageSectorFoot : Foot :=
  ⟨[], [.age], false⟩

theorem ageSector_keeps {W : Foot} {s0 s : State} {p : Plank} {iter : Nat} {good : Bool} (hW : ageSectorFoot.Le W) (h : Keeps W s0 s) :
    Keeps W s0 (ageSector s p iter good) := by
  unfold ageSector
  repeat' first
    | with_reducible assumption
    | with_reducible apply State.setAge_keeps
    | with_reducible apply Keeps.ite
    | exact hW.trans (Foot.le_of (by decide +kernel))
    | split

/-- What `wordFinal` may change. -/
def wordFinalFoot : Foot :=
  .union [⟨[Reg.ldpStatusFast1Bufs, Reg.ldpStatusFast0Bufs, Reg.pmuOvfOvf, Reg.pmuCntLoCount, Reg.pmuCntHiCount],
    [.free, .bwk, .age], false⟩, outcomeAtFrame]

theorem wordFinal_keeps {W : Foot} {s0 s : State} {w : Codeword} {sstat : Nat} {iter : Nat} {unsat : Nat} {user : List Byte} {block : List Byte} (hW : wordFinalFoot.Le W) (h : Keeps W s0 s) :
    Keeps W s0 (wordFinal s w sstat iter unsat user block) := by
  unfold wordFinal
  repeat' first
    | with_reducible assumption
    | with_reducible intro _
    | with_reducible apply sectorStore_keeps
    | with_reducible apply pmuEvent_keeps
    | with_reducible apply runUpdate_keeps
    | with_reducible apply ageSector_keeps
    | with_reducible apply bufsShow_keeps
    | with_reducible apply writeOutcome_keeps
    | with_reducible apply captureWord_keeps
    | with_reducible apply Keeps.when
    | exact hW.trans (Foot.le_of (by decide +kernel))

/-- What `wordTake` may change. -/
def wordTakeFoot : Foot :=
  ⟨[], [.ldp], false⟩

theorem wordTake_keeps {W : Foot} {s0 s : State} {k : Nat} (hW : wordTakeFoot.Le W) (h : Keeps W s0 s) :
    ∀ w y, wordTake s k = some (w, y) → Keeps W s0 y := by
  intro w y e
  unfold wordTake at e
  split at e
  · cases e
  · cases e
    exact State.setLdp_keeps (hW.trans (Foot.le_of (by decide +kernel))) h

/-- What `wordFail` may change. -/
def wordFailFoot : Foot :=
  .union [⟨[Reg.ldpStatusFast1Bufs, Reg.ldpStatusFast0Bufs, Reg.pmuOvfOvf, Reg.pmuCntLoCount, Reg.pmuCntHiCount],
    [.free, .bwk, .age], false⟩, outcomeAtFrame]

theorem wordFail_keeps {W : Foot} {s0 s : State} {w : Codeword} {iter : Nat} {unsat : Nat} {block : List Byte} (hW : wordFailFoot.Le W) (h : Keeps W s0 s) :
    Keeps W s0 (wordFail s w iter unsat block) := by
  unfold wordFail
  repeat' first
    | with_reducible assumption
    | with_reducible apply wordFinal_keeps
    | exact hW.trans (Foot.le_of (by decide +kernel))

/-- What `wordCutFree` may change. -/
def wordCutFreeFoot : Foot :=
  .union [⟨[Reg.ldpStatusFast1Bufs, Reg.ldpStatusFast0Bufs, Reg.pmuOvfOvf, Reg.pmuCntLoCount, Reg.pmuCntHiCount],
    [.free, .bwk, .age], false⟩, outcomeAtFrame]

theorem wordCutFree_keeps {W : Foot} {s0 s : State} {w : Codeword} (hW : wordCutFreeFoot.Le W) (h : Keeps W s0 s) :
    Keeps W s0 (wordCutFree s w) := by
  unfold wordCutFree
  repeat' first
    | with_reducible assumption
    | with_reducible apply pmuEvent_keeps
    | with_reducible apply wordFail_keeps
    | with_reducible apply State.takeFree_keeps
    | exact hW.trans (Foot.le_of (by decide +kernel))
    | exact hW.part (by decide +kernel)

theorem execFastDecodeDone_keeps {W : Foot} {s0 s : State} {k : Nat} {iter : Nat} {unsat : Nat} {block : List Byte} (hW : execFastDecodeDoneFrame.Le W) (h : Keeps W s0 s) :
    KeepsOut W s0 (execFastDecodeDone k iter unsat block s) := by
  unfold execFastDecodeDone
  repeat' first
    | with_reducible assumption
    | with_reducible apply KeepsOut.next
    | with_reducible apply KeepsOut.ite
    | with_reducible apply wordFinal_keeps
    | with_reducible apply sectorCount_keeps
    | with_reducible apply wordFail_keeps
    | refine wordTake_keeps ?_ ?_ _ _ (by assumption)
    | exact hW.trans (Foot.le_of (by decide +kernel))
    | split

theorem execDecodeDeadlineCut_keeps {W : Foot} {s0 s : State} {k : Nat} {iter : Nat} {unsat : Nat} {block : List Byte} (hW : execDecodeDeadlineCutFrame.Le W) (h : Keeps W s0 s) :
    KeepsOut W s0 (execDecodeDeadlineCut k iter unsat block s) := by
  unfold execDecodeDeadlineCut
  repeat' first
    | with_reducible assumption
    | with_reducible apply KeepsOut.next
    | with_reducible apply KeepsOut.ite
    | with_reducible apply State.bump_keeps
    | with_reducible apply pmuEvent_keeps
    | with_reducible apply State.set_keeps
    | with_reducible apply wordFail_keeps
    | refine wordTake_keeps ?_ ?_ _ _ (by assumption)
    | exact hW.fld (by decide +kernel)
    | exact hW.trans (Foot.le_of (by decide +kernel))
    | exact Eq.refl true
    | split

/-- What `decoderDrop` may change. -/
def decoderDropFoot : Foot :=
  .union [⟨[Reg.ldpStatusFast1Bufs, Reg.ldpStatusFast0Bufs, Reg.pmuOvfOvf, Reg.pmuCntLoCount, Reg.pmuCntHiCount],
    [.free, .bwk, .age, .ldp], false⟩, outcomeAtFrame]

theorem decoderDrop_keeps {W : Foot} {s0 s : State} {d : Nat} {a2 : Nat} (hW : decoderDropFoot.Le W) (h : Keeps W s0 s) :
    Keeps W s0 (decoderDrop s d a2) := by
  induction a2 generalizing s d with
  | zero =>
    unfold decoderDrop
    repeat' first
      | with_reducible assumption
  | succ k ih =>
    unfold decoderDrop
    repeat' first
      | with_reducible assumption
      | with_reducible apply ih
      | with_reducible apply wordCutFree_keeps
      | refine wordTake_keeps ?_ ?_ _ _ (by assumption)
      | exact hW.trans (Foot.le_of (by decide +kernel))
      | split

theorem execFastDecoderCheckFail_keeps {W : Foot} {s0 s : State} {d : Nat} (hW : execFastDecoderCheckFailFrame.Le W) (h : Keeps W s0 s) :
    KeepsOut W s0 (execFastDecoderCheckFail d s) := by
  unfold execFastDecoderCheckFail
  repeat' first
    | with_reducible assumption
    | with_reducible apply KeepsOut.next
    | with_reducible apply KeepsOut.ite
    | with_reducible apply decoderDrop_keeps
    | with_reducible apply unitFatal_keeps
    | exact hW.trans (Foot.le_of (by decide +kernel))

theorem execReadResultWrite_keeps {W : Foot} {s0 s : State} {n : Nat} (hW : execReadResultWriteFrame.Le W) (h : Keeps W s0 s) :
    KeepsOut W s0 (execReadResultWrite n s) := by
  unfold execReadResultWrite
  repeat' first
    | with_reducible assumption
    | with_reducible apply KeepsOut.next
    | with_reducible apply KeepsOut.ite
    | with_reducible apply doneFlush_keeps
    | with_reducible apply doneWrite_keeps
    | with_reducible apply State.setBwk_keeps
    | exact hW.trans (Foot.le_of (by decide +kernel))
    | split

/-- What `outcomesClear` may change. -/
def outcomesClearFoot : Foot :=
  .union [outcomeAtFrame]

theorem outcomesClear_keeps {W : Foot} {s0 s : State} {p : Plank} (hW : outcomesClearFoot.Le W) (h : Keeps W s0 s) :
    Keeps W s0 (outcomesClear s p) := by
  unfold outcomesClear
  repeat' first
    | with_reducible assumption
    | with_reducible intro _
    | with_reducible apply Keeps.each
    | with_reducible apply writeOutcome_keeps
    | exact hW.trans (Foot.le_of (by decide +kernel))

theorem execPlankRead_keeps {W : Foot} {s0 s : State} {n : Nat} {full : Nat} (hW : execPlankReadFrame.Le W) (h : Keeps W s0 s) :
    KeepsOut W s0 (execPlankRead n full s) := by
  unfold execPlankRead
  repeat' first
    | with_reducible assumption
    | with_reducible apply KeepsOut.next
    | with_reducible apply State.wr_elem_keeps
    | with_reducible apply bwkBegin_keeps
    | with_reducible apply outcomesClear_keeps
    | with_reducible apply State.setBwk_keeps
    | (apply Begin.notYet_keeps; assumption)
    | (apply Begin.ended_keeps; assumption)
    | (apply Begin.begun_keeps; assumption)
    | exact hW.fld (by decide +kernel)
    | exact hW.trans (Foot.le_of (by decide +kernel))
    | split

/-- What `sectorNext` may change. -/
def sectorNextFoot : Foot :=
  .union [bwkStopAllFrame]

theorem sectorNext_keeps {W : Foot} {s0 s : State} {n : Nat} {p : Plank} (hW : sectorNextFoot.Le W) (h : Keeps W s0 s) :
    Keeps W s0 (sectorNext s n p) := by
  unfold sectorNext
  repeat' first
    | with_reducible assumption
    | with_reducible apply State.setBwk_keeps
    | with_reducible apply plankEnd_keeps
    | with_reducible apply Keeps.ite
    | exact hW.trans (Foot.le_of (by decide +kernel))
    | split

/-- What `sectorNoWord` may change. -/
def sectorNoWordFoot : Foot :=
  .union [⟨[], [.bwk], false⟩, outcomeAtFrame]

theorem sectorNoWord_keeps {W : Foot} {s0 s : State} {n : Nat} {p : Plank} {i : Nat} {pass : Nat} {sstat : Nat} {events : Nat} {drop : Nat} {angle : Nat} (hW : sectorNoWordFoot.Le W) (h : Keeps W s0 s) :
    Keeps W s0 (sectorNoWord s n p i pass sstat events drop angle) := by
  unfold sectorNoWord
  repeat' first
    | with_reducible assumption
    | with_reducible apply runFail_keeps
    | with_reducible apply State.store_keeps
    | with_reducible apply writeOutcome_keeps
    | with_reducible apply Keeps.ite
    | exact hW.trans (Foot.le_of (by decide +kernel))

/-- What `wordJoin` may change. -/
def wordJoinFoot : Foot :=
  .union [⟨[Reg.ldpStatusFast1Bufs, Reg.ldpStatusFast0Bufs, Reg.ldpCounts0BufCuts, Reg.ldpIrqStatusCut, Reg.pmuOvfOvf,
    Reg.pmuCntLoCount, Reg.pmuCntHiCount], [.free, .bwk, .age, .ldp], false⟩, outcomeAtFrame]

theorem wordJoin_keeps {W : Foot} {s0 s : State} {c : Nat} {w : Codeword} (hW : wordJoinFoot.Le W) (h : Keeps W s0 s) :
    Keeps W s0 (wordJoin s c w) := by
  unfold wordJoin
  repeat' first
    | with_reducible assumption
    | with_reducible apply State.bump_keeps
    | with_reducible apply runUpdate_keeps
    | with_reducible apply State.set_keeps
    | with_reducible apply wordCutFree_keeps
    | with_reducible apply bufsShow_keeps
    | with_reducible apply State.setLdp_keeps
    | refine wordTake_keeps ?_ ?_ _ _ (by assumption)
    | exact hW.fld (by decide +kernel)
    | exact hW.trans (Foot.le_of (by decide +kernel))
    | exact Eq.refl true
    | split
    | dsimp only

theorem execReadSector_keeps {W : Foot} {s0 s : State} {n : Nat} {full : Nat} {det : Detection} (hW : execReadSectorFrame.Le W) (h : Keeps W s0 s) :
    KeepsOut W s0 (execReadSector n full det s) := by
  unfold execReadSector
  repeat' first
    | with_reducible assumption
    | with_reducible intro _
    | with_reducible apply KeepsOut.next
    | with_reducible apply KeepsOut.ite
    | with_reducible apply State.bump_elem_keeps
    | with_reducible apply pmuEvent_keeps
    | with_reducible apply runUpdate_keeps
    | with_reducible apply State.wr_elem_keeps
    | with_reducible apply State.set_elem_keeps
    | with_reducible apply sectorNext_keeps
    | with_reducible apply sectorNoWord_keeps
    | with_reducible apply Keeps.when
    | with_reducible apply wordJoin_keeps
    | exact hW.fld (by decide +kernel)
    | exact hW.trans (Foot.le_of (by decide +kernel))
    | split
    | dsimp only

theorem execPlankWrite_keeps {W : Foot} {s0 s : State} {n : Nat} {full : Nat} (hW : execPlankWriteFrame.Le W) (h : Keeps W s0 s) :
    KeepsOut W s0 (execPlankWrite n full s) := by
  unfold execPlankWrite
  repeat' first
    | with_reducible assumption
    | with_reducible apply KeepsOut.next
    | with_reducible apply astRampStart_keeps
    | with_reducible apply bwkBegin_keeps
    | with_reducible apply State.setAst_keeps
    | with_reducible apply outcomesClear_keeps
    | with_reducible apply Keeps.ite
    | (apply Begin.notYet_keeps; assumption)
    | (apply Begin.ended_keeps; assumption)
    | (apply Begin.begun_keeps; assumption)
    | exact hW.trans (Foot.le_of (by decide +kernel))
    | split

theorem execPlankProbe_keeps {W : Foot} {s0 s : State} {n : Nat} {full : Nat} (hW : execPlankProbeFrame.Le W) (h : Keeps W s0 s) :
    KeepsOut W s0 (execPlankProbe n full s) := by
  unfold execPlankProbe
  repeat' first
    | with_reducible assumption
    | with_reducible apply KeepsOut.next
    | with_reducible apply astRampStart_keeps
    | with_reducible apply bwkBegin_keeps
    | with_reducible apply State.setAst_keeps
    | with_reducible apply outcomesClear_keeps
    | with_reducible apply State.setCal_keeps
    | with_reducible apply Keeps.ite
    | (apply Begin.notYet_keeps; assumption)
    | (apply Begin.ended_keeps; assumption)
    | (apply Begin.begun_keeps; assumption)
    | exact hW.trans (Foot.le_of (by decide +kernel))
    | split

/-- What `accShow` may change. -/
def accShowFoot : Foot :=
  ⟨[Reg.oceAccK, Reg.oceAccJ], [.oce], false⟩

theorem accShow_keeps {W : Foot} {s0 s : State} {n : Nat} {a : OceAcc} (hW : accShowFoot.Le W) (h : Keeps W s0 s) :
    Keeps W s0 (accShow s n a) := by
  unfold accShow
  repeat' first
    | with_reducible assumption
    | with_reducible apply State.wr_elem_keeps
    | with_reducible apply State.setOce_keeps
    | exact hW.fld (by decide +kernel)
    | exact hW.trans (Foot.le_of (by decide +kernel))

/-- What `accAdvance` may change. -/
def accAdvanceFoot : Foot :=
  ⟨[Reg.oceAccK, Reg.oceAccJ, Reg.oceCountsSeals], [.oce], false⟩

theorem accAdvance_keeps {W : Foot} {s0 s : State} {n : Nat} {o : SectorOut} (hW : accAdvanceFoot.Le W) (h : Keeps W s0 s) :
    Keeps W s0 (accAdvance s n o) := by
  unfold accAdvance
  repeat' first
    | with_reducible assumption
    | with_reducible apply State.addWrap_keeps
    | with_reducible apply accShow_keeps
    | with_reducible apply Keeps.ite
    | exact hW.fld (by decide +kernel)
    | exact hW.trans (Foot.le_of (by decide +kernel))
    | exact Eq.refl true

/-- What `sectorWritten` may change. -/
def sectorWrittenFoot : Foot :=
  .union [⟨[Reg.bwkStatusWreq, Reg.bwkStatusGate, Reg.oceAccK, Reg.oceAccJ, Reg.oceCountsSeals, Reg.pmuOvfOvf,
    Reg.pmuCntLoCount, Reg.pmuCntHiCount], [.bwk, .oce], false⟩, outcomeAtFrame]

theorem sectorWritten_keeps {W : Foot} {s0 s : State} {n : Nat} {p : Plank} {i : Nat} (hW : sectorWrittenFoot.Le W) (h : Keeps W s0 s) :
    Keeps W s0 (sectorWritten s n p i) := by
  unfold sectorWritten
  repeat' first
    | with_reducible assumption
    | with_reducible apply accAdvance_keeps
    | with_reducible apply pmuEvent_keeps
    | with_reducible apply wreqLow_keeps
    | with_reducible apply writeOutcome_keeps
    | with_reducible apply State.setBwk_keeps
    | exact hW.trans (Foot.le_of (by decide +kernel))
    | split
    | dsimp only

/-- What `writeEnd` may change. -/
def writeEndFoot : Foot :=
  .union [⟨[Reg.jnlCounts1Folds], [], false⟩, bwkStopAllFrame, faultRestartFrame]

theorem writeEnd_keeps {W : Foot} {s0 s : State} {n : Nat} {p : Plank} {status : Nat} {at_ : Nat} (hW : writeEndFoot.Le W) (h : Keeps W s0 s) :
    Keeps W s0 (writeEnd s n p status at_) := by
  unfold writeEnd
  repeat' first
    | with_reducible assumption
    | with_reducible apply State.setAst_keeps
    | with_reducible apply astDownEvent_keeps
    | with_reducible apply State.setBwk_keeps
    | with_reducible apply jnlPlank_keeps
    | with_reducible apply State.setCal_keeps
    | with_reducible apply plankEnd_keeps
    | with_reducible apply Keeps.ite
    | exact hW.trans (Foot.le_of (by decide +kernel))

/-- What `sectorBegin` may change. -/
def sectorBeginFoot : Foot :=
  .union [⟨[Reg.oceAccOrderErr, Reg.oceIrqStatusOrderErr, Reg.jnlCounts1Folds, Reg.cryCounts0Units,
    Reg.cryCounts1Poison], [.cry], false⟩, bwkStopAllFrame, faultRestartFrame]

theorem sectorBegin_keeps {W : Foot} {s0 s : State} {n : Nat} {p : Plank} {i : Nat} {at_ : Nat} (hW : sectorBeginFoot.Le W) (h : Keeps W s0 s) :
    Keeps W s0 (sectorBegin s n p i at_) := by
  unfold sectorBegin
  repeat' first
    | with_reducible assumption
    | with_reducible intro _
    | with_reducible apply State.bump_keeps
    | with_reducible apply sectorCount_keeps
    | with_reducible apply State.setChan_keeps
    | with_reducible apply runFail_keeps
    | with_reducible apply State.set_elem_keeps
    | with_reducible apply State.set_keeps
    | with_reducible apply writeOutcome_keeps
    | with_reducible apply State.setBwk_keeps
    | with_reducible apply gateRefresh_keeps
    | with_reducible apply writeEnd_keeps
    | with_reducible apply Keeps.when
    | with_reducible apply Keeps.ite
    | exact hW.fld (by decide +kernel)
    | exact hW.trans (Foot.le_of (by decide +kernel))
    | exact Eq.refl true

theorem execWriteSector_keeps {W : Foot} {s0 s : State} {n : Nat} {full : Nat} (hW : execWriteSectorFrame.Le W) (h : Keeps W s0 s) :
    KeepsOut W s0 (execWriteSector n full s) := by
  unfold execWriteSector
  repeat' first
    | with_reducible assumption
    | with_reducible apply KeepsOut.next
    | with_reducible apply KeepsOut.ite
    | with_reducible apply sectorBegin_keeps
    | with_reducible apply sectorWritten_keeps
    | with_reducible apply State.setBwk_keeps
    | with_reducible apply writeEnd_keeps
    | exact hW.trans (Foot.le_of (by decide +kernel))
    | split

/-- What `faultSnapshot` may change. -/
def faultSnapshotFoot : Foot :=
  ⟨[Reg.astWfSnap0PosErr, Reg.astWfSnap0Proxy, Reg.astWfSnap1GateCause, Reg.astWfSnap1Head, Reg.astWfSnap1Iset,
    Reg.astWfAngleAngle], [.ast], false⟩

theorem faultSnapshot_keeps {W : Foot} {s0 s : State} {n : Nat} {p : Plank} {full : Nat} (hW : faultSnapshotFoot.Le W) (h : Keeps W s0 s) :
    Keeps W s0 (faultSnapshot s n p full) := by
  unfold faultSnapshot
  repeat' first
    | with_reducible assumption
    | with_reducible apply State.wr_elem_keeps
    | with_reducible apply State.setAst_keeps
    | with_reducible apply Keeps.ite
    | exact hW.fld (by decide +kernel)
    | exact hW.trans (Foot.le_of (by decide +kernel))

/-- What `faultSector` may change. -/
def faultSectorFoot : Foot :=
  .union [⟨[Reg.bwkStatusWreq, Reg.bwkStatusGate, Reg.astWfSnap0PosErr, Reg.astWfSnap0Proxy, Reg.astWfSnap1GateCause,
    Reg.astWfSnap1Head, Reg.astWfSnap1Iset, Reg.astWfAngleAngle], [.bwk, .ast], false⟩, outcomeAtFrame]

theorem faultSector_keeps {W : Foot} {s0 s : State} {n : Nat} {p : Plank} {full : Nat} {bits : Nat} {status : Nat} (hW : faultSectorFoot.Le W) (h : Keeps W s0 s) :
    Keeps W s0 (faultSector s n p full bits status) := by
  unfold faultSector
  repeat' first
    | with_reducible assumption
    | with_reducible apply runFail_keeps
    | with_reducible apply wreqLow_keeps
    | with_reducible apply faultSnapshot_keeps
    | with_reducible apply writeOutcome_keeps
    | with_reducible apply State.setBwk_keeps
    | exact hW.trans (Foot.le_of (by decide +kernel))
    | split
    | dsimp only

theorem execWriteGateFall_keeps {W : Foot} {s0 s : State} {n : Nat} {full : Nat} {bits : Nat} (hW : execWriteGateFallFrame.Le W) (h : Keeps W s0 s) :
    KeepsOut W s0 (execWriteGateFall n full bits s) := by
  unfold execWriteGateFall
  repeat' first
    | with_reducible assumption
    | with_reducible apply KeepsOut.next
    | with_reducible apply KeepsOut.ite
    | with_reducible apply faultSector_keeps
    | with_reducible apply State.setBwk_keeps
    | exact hW.trans (Foot.le_of (by decide +kernel))
    | split

theorem execChannelGrant_keeps {W : Foot} {s0 s : State} {c : Nat} {full : Nat} (hW : execChannelGrantFrame.Le W) (h : Keeps W s0 s) :
    KeepsOut W s0 (execChannelGrant c full s) := by
  unfold execChannelGrant
  repeat' first
    | with_reducible assumption
    | with_reducible apply KeepsOut.next
    | with_reducible apply KeepsOut.ite
    | with_reducible apply chanRelease_keeps
    | with_reducible apply chanGrant_keeps
    | with_reducible apply bwkJudge_keeps
    | with_reducible apply Keeps.ite
    | exact hW.trans (Foot.le_of (by decide +kernel))
    | split
    | dsimp only

/-- What `readSyncMissRest` may change. -/
def readSyncMissRestFoot : Foot :=
  .union [⟨[], [.bwk], false⟩, outcomeAtFrame]

theorem readSyncMissRest_keeps {W : Foot} {s0 s : State} {n : Nat} {p : Plank} {from_ : Nat} (hW : readSyncMissRestFoot.Le W) (h : Keeps W s0 s) :
    Keeps W s0 (readSyncMissRest s n p from_) := by
  unfold readSyncMissRest
  repeat' first
    | with_reducible assumption
    | with_reducible intro _
    | with_reducible apply runUpdate_keeps
    | with_reducible apply Keeps.each
    | with_reducible apply sectorNoWord_keeps
    | exact hW.trans (Foot.le_of (by decide +kernel))

theorem execChannelLockLoss_keeps {W : Foot} {s0 s : State} {c : Nat} {bits : Nat} {inDet : Bool} (hW : execChannelLockLossFrame.Le W) (h : Keeps W s0 s) :
    KeepsOut W s0 (execChannelLockLoss c bits inDet s) := by
  unfold execChannelLockLoss
  repeat' first
    | with_reducible assumption
    | with_reducible apply KeepsOut.next
    | with_reducible apply State.setChan_keeps
    | with_reducible apply runFail_keeps
    | with_reducible apply wreqLow_keeps
    | with_reducible apply runUpdate_keeps
    | with_reducible apply contained_keeps
    | with_reducible apply faultSector_keeps
    | with_reducible apply writeOutcome_keeps
    | with_reducible apply readSyncMissRest_keeps
    | with_reducible apply plankEnd_keeps
    | with_reducible apply scribble_keeps
    | with_reducible apply Keeps.ite
    | exact hW.trans (Foot.le_of (by decide +kernel))
    | split
    | dsimp only

theorem execChannelRelock_keeps {W : Foot} {s0 s : State} {c : Nat} (hW : execChannelRelockFrame.Le W) (h : Keeps W s0 s) :
    KeepsOut W s0 (execChannelRelock c s) := by
  unfold execChannelRelock
  repeat' first
    | with_reducible assumption
    | with_reducible apply KeepsOut.next
    | with_reducible apply State.setChan_keeps
    | exact hW.trans (Foot.le_of (by decide +kernel))

theorem execChannelRelockTimeout_keeps {W : Foot} {s0 s : State} {c : Nat} (hW : execChannelRelockTimeoutFrame.Le W) (h : Keeps W s0 s) :
    KeepsOut W s0 (execChannelRelockTimeout c s) := by
  unfold execChannelRelockTimeout
  repeat' first
    | with_reducible assumption
    | with_reducible apply KeepsOut.next
    | with_reducible apply unitFatal_keeps
    | with_reducible apply Keeps.ite
    | exact hW.trans (Foot.le_of (by decide +kernel))

theorem execRdcStagedApply_keeps {W : Foot} {s0 s : State} {c : Nat} (hW : execRdcStagedApplyFrame.Le W) (h : Keeps W s0 s) :
    KeepsOut W s0 (execRdcStagedApply c s) := by
  unfold execRdcStagedApply
  repeat' first
    | with_reducible assumption
    | with_reducible intro _
    | with_reducible apply KeepsOut.next
    | with_reducible apply KeepsOut.ite
    | with_reducible apply State.setChan_keeps
    | with_reducible apply State.wrWord_keeps
    | with_reducible apply Keeps.foldl
    | with_reducible apply State.set_keeps_any
    | with_reducible apply State.clr_keeps_any
    | exact hW.2.2 rfl
    | exact hW.trans (Foot.le_of (by decide +kernel))
    | split

theorem execRdcProfDataAccess_keeps {W : Foot} {s0 s : State} {c : Nat} {write : Option Word} (hW : execRdcProfDataAccessFrame.Le W) (h : Keeps W s0 s) :
    KeepsOut W s0 (execRdcProfDataAccess c write s) := by
  unfold execRdcProfDataAccess
  repeat' first
    | with_reducible assumption
    | with_reducible apply KeepsOut.next
    | with_reducible apply KeepsOut.ite
    | with_reducible apply State.answer_keeps
    | with_reducible apply State.setChan_keeps
    | with_reducible apply gatedAccess_keeps
    | with_reducible apply State.wr_elem_keeps
    | with_reducible apply State.set_elem_keeps
    | with_reducible apply expertIgnored_elem_keeps
    | exact hW.fld (by decide +kernel)
    | exact hW.trans (Foot.le_of (by decide +kernel))
    | split

theorem execRdcEqDataAccess_keeps {W : Foot} {s0 s : State} {c : Nat} {write : Option Word} (hW : execRdcEqDataAccessFrame.Le W) (h : Keeps W s0 s) :
    KeepsOut W s0 (execRdcEqDataAccess c write s) := by
  unfold execRdcEqDataAccess
  repeat' first
    | with_reducible assumption
    | with_reducible apply KeepsOut.next
    | with_reducible apply KeepsOut.ite
    | with_reducible apply State.answer_keeps
    | with_reducible apply State.setChan_keeps
    | with_reducible apply gatedAccess_keeps
    | with_reducible apply State.wr_elem_keeps
    | with_reducible apply State.set_elem_keeps
    | with_reducible apply expertIgnored_elem_keeps
    | exact hW.fld (by decide +kernel)
    | exact hW.trans (Foot.le_of (by decide +kernel))
    | split

end Sys2Proof.Machine
end

