-- ==== Sys2Proof/Laws/FootOuter.lean ====
section
/-!
SUPPORT. Footprints of the operations of Machine/Outer.lean: what each may change, and that it changes nothing else.
-/

namespace Sys2Proof.Machine

set_option Elab.async false

theorem execDeep_keeps {W : Foot} {s0 s : State} (hW : execDeepFrame.Le W) (h : Keeps W s0 s) :
    KeepsOut W s0 (execDeep s) := by
  unfold execDeep
  repeat' first
    | with_reducible assumption
    | with_reducible apply KeepsOut.next
    | with_reducible apply KeepsOut.ite
    | with_reducible apply State.set_keeps
    | with_reducible apply State.setLdp_keeps
    | exact hW.fld (by decide +kernel)
    | exact hW.trans (Foot.le_of (by decide +kernel))
    | exact Eq.refl true
    | split

theorem execDeepJobDone_keeps {W : Foot} {s0 s : State} {iter : Nat} {unsat : Nat} {block : List Byte} (hW : execDeepJobDoneFrame.Le W) (h : Keeps W s0 s) :
    KeepsOut W s0 (execDeepJobDone iter unsat block s) := by
  unfold execDeepJobDone
  repeat' first
    | with_reducible assumption
    | with_reducible apply KeepsOut.next
    | with_reducible apply KeepsOut.ite
    | with_reducible apply sectorCount_keeps
    | with_reducible apply deepResult_keeps
    | with_reducible apply sectorStore_keeps
    | with_reducible apply pmuEvent_keeps
    | with_reducible apply outcomeAt_keeps
    | with_reducible apply Keeps.ite
    | exact hW.trans (Foot.le_of (by decide +kernel))
    | split

/-- What `oceOutput` may change. -/
def oceOutputFoot : Foot :=
  .union [⟨[Reg.cryCounts0Units], [.cry], false⟩, outcomeAtFrame]

theorem oceOutput_keeps {W : Foot} {s0 s : State} {e : RingEntry} {sectors : List (List Byte)} {k : Nat} (hW : oceOutputFoot.Le W) (h : Keeps W s0 s) :
    Keeps W s0 (oceOutput s e sectors k) := by
  unfold oceOutput
  repeat' first
    | with_reducible assumption
    | with_reducible intro _
    | with_reducible apply sectorCount_keeps
    | with_reducible apply State.store_keeps
    | with_reducible apply outcomeAt_keeps
    | with_reducible apply Keeps.when
    | exact hW.trans (Foot.le_of (by decide +kernel))

/-- What `oceBegin` may change. -/
def oceBeginFoot : Foot :=
  .union [⟨[Reg.oceStatusBusy, Reg.cryCounts0Units], [.oce, .cry], false⟩, outcomeAtFrame]

theorem oceBegin_keeps {W : Foot} {s0 s : State} {op : Nat} (hW : oceBeginFoot.Le W) (h : Keeps W s0 s) :
    Keeps W s0 (oceBegin s op) := by
  unfold oceBegin
  repeat' first
    | with_reducible assumption
    | with_reducible intro _
    | with_reducible apply oceOutput_keeps
    | with_reducible apply sectorCount_keeps
    | with_reducible apply State.set_keeps
    | with_reducible apply Keeps.each
    | with_reducible apply State.setOce_keeps
    | with_reducible apply Keeps.ite
    | exact hW.fld (by decide +kernel)
    | exact hW.trans (Foot.le_of (by decide +kernel))
    | exact Eq.refl true
    | split

theorem execEncode_keeps {W : Foot} {s0 s : State} (hW : execEncodeFrame.Le W) (h : Keeps W s0 s) :
    KeepsOut W s0 (execEncode s) := by
  unfold execEncode
  repeat' first
    | with_reducible assumption
    | with_reducible apply KeepsOut.next
    | with_reducible apply oceBegin_keeps
    | exact hW.trans (Foot.le_of (by decide +kernel))

theorem execRebuild_keeps {W : Foot} {s0 s : State} (hW : execRebuildFrame.Le W) (h : Keeps W s0 s) :
    KeepsOut W s0 (execRebuild s) := by
  unfold execRebuild
  repeat' first
    | with_reducible assumption
    | with_reducible apply KeepsOut.next
    | with_reducible apply oceBegin_keeps
    | exact hW.trans (Foot.le_of (by decide +kernel))

theorem execOceJobDone_keeps {W : Foot} {s0 s : State} (hW : execOceJobDoneFrame.Le W) (h : Keeps W s0 s) :
    KeepsOut W s0 (execOceJobDone s) := by
  unfold execOceJobDone
  repeat' first
    | with_reducible assumption
    | with_reducible apply KeepsOut.next
    | with_reducible apply oceResult_keeps
    | with_reducible apply Keeps.ite
    | exact hW.trans (Foot.le_of (by decide +kernel))
    | split

theorem execOceAccClrWrite_keeps {W : Foot} {s0 s : State} {data : Word} (hW : execOceAccClrWriteFrame.Le W) (h : Keeps W s0 s) :
    KeepsOut W s0 (execOceAccClrWrite data s) := by
  unfold execOceAccClrWrite
  repeat' first
    | with_reducible assumption
    | with_reducible intro _
    | with_reducible apply KeepsOut.next
    | with_reducible apply State.answer_keeps
    | with_reducible apply State.wr_keeps
    | with_reducible apply Keeps.each
    | with_reducible apply accShow_keeps
    | with_reducible apply Keeps.ite
    | exact hW.fld (by decide +kernel)
    | exact hW.trans (Foot.le_of (by decide +kernel))
    | exact Eq.refl true

theorem execOceAccClrApply_keeps {W : Foot} {s0 s : State} (hW : execOceAccClrApplyFrame.Le W) (h : Keeps W s0 s) :
    KeepsOut W s0 (execOceAccClrApply s) := by
  unfold execOceAccClrApply
  repeat' first
    | with_reducible assumption
    | with_reducible intro _
    | with_reducible apply KeepsOut.next
    | with_reducible apply State.wr_keeps
    | with_reducible apply Keeps.each
    | with_reducible apply accShow_keeps
    | with_reducible apply Keeps.ite
    | exact hW.fld (by decide +kernel)
    | exact hW.trans (Foot.le_of (by decide +kernel))
    | exact Eq.refl true

end Sys2Proof.Machine
end

