-- ==== Sys2Proof/Laws/FootCrypto.lean ====
section
/-!
SUPPORT. Footprints of the operations of Machine/Crypto.lean: what each may change, and that it changes nothing else.
-/

namespace Sys2Proof.Machine

set_option Elab.async false

/-- What `keySet` may change. -/
def keySetFoot : Foot :=
  ⟨[Reg.cryStatusSlots], [.cry], false⟩

theorem keySet_keeps {W : Foot} {s0 s : State} {slot : Nat} {key : List Byte} {fromSettings : Bool} (hW : keySetFoot.Le W) (h : Keeps W s0 s) :
    Keeps W s0 (keySet s slot key fromSettings) := by
  unfold keySet
  repeat' first
    | with_reducible assumption
    | with_reducible apply State.wr_keeps
    | with_reducible apply State.setCry_keeps
    | exact hW.fld (by decide +kernel)
    | exact hW.trans (Foot.le_of (by decide +kernel))
    | exact Eq.refl true

/-- What `cryGive` may change. -/
def cryGiveFoot : Foot :=
  ⟨[], [.cry], false⟩

theorem cryGive_keeps {W : Foot} {s0 s : State} {status : Nat} {done : Nat} (hW : cryGiveFoot.Le W) (h : Keeps W s0 s) :
    Keeps W s0 (cryGive s status done) := by
  unfold cryGive
  repeat' first
    | with_reducible assumption
    | with_reducible apply State.setCry_keeps
    | exact hW.trans (Foot.le_of (by decide +kernel))

/-- What `cryBegin` may change. -/
def cryBeginFoot : Foot :=
  ⟨[Reg.cryStatusBusy], [.cry], false⟩

theorem cryBegin_keeps {W : Foot} {s0 s : State} {op : Nat} {run : State → RingEntry → State} (hW : cryBeginFoot.Le W) (h : Keeps W s0 s) (hrun : ∀ a0 a1, Keeps W s0 a0 → Keeps W s0 (run a0 a1)) :
    Keeps W s0 (cryBegin s op run) := by
  unfold cryBegin
  repeat' first
    | with_reducible assumption
    | with_reducible apply hrun
    | with_reducible apply cryGive_keeps
    | with_reducible apply State.set_keeps
    | with_reducible apply Keeps.ite
    | exact hW.fld (by decide +kernel)
    | exact hW.trans (Foot.le_of (by decide +kernel))
    | exact Eq.refl true
    | split

/-- What `cryUnits` may change. -/
def cryUnitsFoot : Foot :=
  .union [⟨[Reg.cryCounts0Units], [.cry], false⟩, outcomeAtFrame]

theorem cryUnits_keeps {W : Foot} {s0 s : State} {e : RingEntry} {f : Nat → List Byte → List Byte} {a3 : Nat} {a4 : Nat} (hW : cryUnitsFoot.Le W) (h : Keeps W s0 s) :
    Keeps W s0 (cryUnits s e f a3 a4) := by
  induction a3 generalizing s e f a4 with
  | zero =>
    unfold cryUnits
    repeat' first
      | with_reducible assumption
      | with_reducible apply State.store_keeps
      | with_reducible apply cryCount_keeps
      | with_reducible apply cryGive_keeps
      | with_reducible apply Keeps.ite
      | exact hW.trans (Foot.le_of (by decide +kernel))
  | succ k ih =>
    unfold cryUnits
    repeat' first
      | with_reducible assumption
      | with_reducible apply ih
      | with_reducible apply State.store_keeps
      | with_reducible apply cryCount_keeps
      | with_reducible apply cryGive_keeps
      | with_reducible apply Keeps.ite
      | exact hW.trans (Foot.le_of (by decide +kernel))

theorem execEncrypt_keeps {W : Foot} {s0 s : State} (hW : execEncryptFrame.Le W) (h : Keeps W s0 s) :
    KeepsOut W s0 (execEncrypt s) := by
  unfold execEncrypt
  repeat' first
    | with_reducible assumption
    | with_reducible intro _
    | with_reducible apply KeepsOut.next
    | with_reducible apply cryGive_keeps
    | with_reducible apply cryBegin_keeps
    | with_reducible apply cryUnits_keeps
    | with_reducible apply Keeps.ite
    | exact hW.trans (Foot.le_of (by decide +kernel))

theorem execDecrypt_keeps {W : Foot} {s0 s : State} (hW : execDecryptFrame.Le W) (h : Keeps W s0 s) :
    KeepsOut W s0 (execDecrypt s) := by
  unfold execDecrypt
  repeat' first
    | with_reducible assumption
    | with_reducible intro _
    | with_reducible apply KeepsOut.next
    | with_reducible apply cryGive_keeps
    | with_reducible apply cryBegin_keeps
    | with_reducible apply cryUnits_keeps
    | with_reducible apply Keeps.ite
    | exact hW.trans (Foot.le_of (by decide +kernel))

theorem execHash_keeps {W : Foot} {s0 s : State} (hW : execHashFrame.Le W) (h : Keeps W s0 s) :
    KeepsOut W s0 (execHash s) := by
  unfold execHash
  repeat' first
    | with_reducible assumption
    | with_reducible intro _
    | with_reducible apply KeepsOut.next
    | with_reducible apply cryGive_keeps
    | with_reducible apply cryBegin_keeps
    | with_reducible apply State.store_keeps
    | with_reducible apply State.setCry_keeps
    | with_reducible apply Keeps.ite
    | exact hW.trans (Foot.le_of (by decide +kernel))

/-- What `keyOp` may change. -/
def keyOpFoot : Foot :=
  ⟨[Reg.cryStatusSlots, Reg.cryStatusKeyWait, Reg.cryIrqStatusKeyDone], [.cry], false⟩

theorem keyOp_keeps {W : Foot} {s0 s : State} {slot : Nat} {key : List Byte} (hW : keyOpFoot.Le W) (h : Keeps W s0 s) :
    Keeps W s0 (keyOp s slot key) := by
  unfold keyOp
  repeat' first
    | with_reducible assumption
    | with_reducible apply keySet_keeps
    | with_reducible apply cryGive_keeps
    | with_reducible apply State.set_keeps
    | with_reducible apply State.setCry_keeps
    | with_reducible apply Keeps.ite
    | exact hW.fld (by decide +kernel)
    | exact hW.trans (Foot.le_of (by decide +kernel))
    | exact Eq.refl true

theorem execKeyLoad_keeps {W : Foot} {s0 s : State} (hW : execKeyLoadFrame.Le W) (h : Keeps W s0 s) :
    KeepsOut W s0 (execKeyLoad s) := by
  unfold execKeyLoad
  repeat' first
    | with_reducible assumption
    | with_reducible intro _
    | with_reducible apply KeepsOut.next
    | with_reducible apply cryGive_keeps
    | with_reducible apply cryBegin_keeps
    | with_reducible apply keyOp_keeps
    | with_reducible apply Keeps.ite
    | exact hW.trans (Foot.le_of (by decide +kernel))

theorem execKeyClear_keeps {W : Foot} {s0 s : State} (hW : execKeyClearFrame.Le W) (h : Keeps W s0 s) :
    KeepsOut W s0 (execKeyClear s) := by
  unfold execKeyClear
  repeat' first
    | with_reducible assumption
    | with_reducible intro _
    | with_reducible apply KeepsOut.next
    | with_reducible apply cryGive_keeps
    | with_reducible apply cryBegin_keeps
    | with_reducible apply keyOp_keeps
    | with_reducible apply Keeps.ite
    | exact hW.trans (Foot.le_of (by decide +kernel))

theorem execKeyOpApply_keeps {W : Foot} {s0 s : State} (hW : execKeyOpApplyFrame.Le W) (h : Keeps W s0 s) :
    KeepsOut W s0 (execKeyOpApply s) := by
  unfold execKeyOpApply
  repeat' first
    | with_reducible assumption
    | with_reducible apply KeepsOut.next
    | with_reducible apply KeepsOut.ite
    | with_reducible apply keySet_keeps
    | with_reducible apply cryGive_keeps
    | with_reducible apply State.set_keeps
    | with_reducible apply State.setCry_keeps
    | with_reducible apply State.clr_keeps
    | exact hW.fld (by decide +kernel)
    | exact hW.trans (Foot.le_of (by decide +kernel))
    | exact Eq.refl true
    | split

theorem execCryEntryDone_keeps {W : Foot} {s0 s : State} (hW : execCryEntryDoneFrame.Le W) (h : Keeps W s0 s) :
    KeepsOut W s0 (execCryEntryDone s) := by
  unfold execCryEntryDone
  repeat' first
    | with_reducible assumption
    | with_reducible apply KeepsOut.next
    | with_reducible apply KeepsOut.ite
    | with_reducible apply cryResult_keeps
    | exact hW.trans (Foot.le_of (by decide +kernel))
    | split

/-- What `mailReply` may change. -/
def mailReplyFoot : Foot :=
  .union [ringAnswerFrame]

theorem mailReply_keeps {W : Foot} {s0 s : State} {e : RingEntry} {status : Nat} {data : List Byte} (hW : mailReplyFoot.Le W) (h : Keeps W s0 s) :
    Keeps W s0 (mailReply s e status data) := by
  unfold mailReply
  repeat' first
    | with_reducible assumption
    | with_reducible apply ringAnswer_keeps
    | exact hW.trans (Foot.le_of (by decide +kernel))

theorem execNop_keeps {W : Foot} {s0 s : State} (hW : execNopFrame.Le W) (h : Keeps W s0 s) :
    KeepsOut W s0 (execNop s) := by
  unfold execNop
  repeat' first
    | with_reducible assumption
    | with_reducible apply KeepsOut.next
    | with_reducible apply KeepsOut.ite
    | with_reducible apply mailReply_keeps
    | exact hW.trans (Foot.le_of (by decide +kernel))
    | split

end Sys2Proof.Machine
end

