-- ==== Sys2Proof/Laws/FootServo.lean ====
section
/-!
SUPPORT. Footprints of the operations of Machine/Servo.lean: what each may change, and that it changes nothing else.
-/

namespace Sys2Proof.Machine

set_option Elab.async false

/-- What `measure` may change. -/
def measureFoot : Foot :=
  ⟨[Reg.srvCountsRroErr], [.free], false⟩

theorem measure_keeps {W : Foot} {s0 s : State} {n : Nat} {x : Sample} (hW : measureFoot.Le W) (h : Keeps W s0 s) :
    Keeps W s0 (measure s n x).2.2 := by
  unfold measure
  repeat' first
    | with_reducible assumption
    | with_reducible apply Keeps.snd_ite
    | with_reducible apply State.bump_elem_keeps
    | with_reducible apply roundFree_keeps
    | with_reducible apply State.takeFree_keeps
    | exact hW.fld (by decide +kernel)
    | exact hW.trans (Foot.le_of (by decide +kernel))
    | exact hW.part (by decide +kernel)

/-- What `freezeStep` may change. -/
def freezeStepFoot : Foot :=
  ⟨[], [.srv], false⟩

theorem freezeStep_keeps {W : Foot} {s0 s : State} {n : Nat} {x : Sample} (hW : freezeStepFoot.Le W) (h : Keeps W s0 s) :
    Keeps W s0 (freezeStep s n x) := by
  unfold freezeStep
  repeat' first
    | with_reducible assumption
    | with_reducible apply State.setSrv_keeps
    | with_reducible apply Keeps.ite
    | exact hW.trans (Foot.le_of (by decide +kernel))

/-- What `reacqStep` may change. -/
def reacqStepFoot : Foot :=
  ⟨[], [.srv], false⟩

theorem reacqStep_keeps {W : Foot} {s0 s : State} {n : Nat} {x : Sample} (hW : reacqStepFoot.Le W) (h : Keeps W s0 s) :
    Keeps W s0 (reacqStep s n x) := by
  unfold reacqStep
  repeat' first
    | with_reducible assumption
    | with_reducible apply State.setSrv_keeps
    | exact hW.trans (Foot.le_of (by decide +kernel))

/-- What `noticeStep` may change. -/
def noticeStepFoot : Foot :=
  ⟨[], [.srv], false⟩

theorem noticeStep_keeps {W : Foot} {s0 s : State} {n : Nat} (hW : noticeStepFoot.Le W) (h : Keeps W s0 s) :
    Keeps W s0 (noticeStep s n) := by
  unfold noticeStep
  repeat' first
    | with_reducible assumption
    | with_reducible apply State.setSrv_keeps
    | exact hW.trans (Foot.le_of (by decide +kernel))

/-- What `setTap` may change. -/
def setTapFoot : Foot :=
  ⟨[], [.ce], false⟩

theorem setTap_keeps {W : Foot} {s0 s : State} {n : Nat} {i : Nat} {w : Word} (hW : setTapFoot.Le W) (h : Keeps W s0 s) :
    Keeps W s0 (setTap s n i w) := by
  unfold setTap
  repeat' first
    | with_reducible assumption
    | with_reducible apply setCeMem_keeps
    | exact hW.trans (Foot.le_of (by decide +kernel))

/-- What `adaptTaps` may change. -/
def adaptTapsFoot : Foot :=
  ⟨[], [.free, .ce], false⟩

theorem adaptTaps_keeps {W : Foot} {s0 s : State} {n : Nat} (hW : adaptTapsFoot.Le W) (h : Keeps W s0 s) :
    Keeps W s0 (adaptTaps s n) := by
  unfold adaptTaps
  repeat' first
    | with_reducible assumption
    | with_reducible intro _
    | with_reducible apply Keeps.each
    | with_reducible apply State.takeFree_keeps
    | with_reducible apply setTap_keeps
    | with_reducible apply Keeps.ite
    | exact hW.trans (Foot.le_of (by decide +kernel))
    | exact hW.part (by decide +kernel)

/-- What `srvPorts` may change. -/
def srvPortsFoot : Foot :=
  ⟨[], [.free], false⟩

theorem srvPorts_keeps {W : Foot} {s0 s : State} {n : Nat} {full : Nat} {pos : Int} {x : Sample} {rro : Int} {qual : Nat} (hW : srvPortsFoot.Le W) (h : Keeps W s0 s) :
    Keeps W s0 (srvPorts s n full pos x rro qual).2 := by
  unfold srvPorts
  repeat' first
    | with_reducible assumption
    | with_reducible apply Keeps.snd_ite
    | with_reducible apply State.takeFree_keeps
    | exact hW.part (by decide +kernel)

/-- What `srvOutput` may change. -/
def srvOutputFoot : Foot :=
  ⟨[Reg.srvStatusHold, Reg.srvStatusSat, Reg.srvStatusSatHi, Reg.srvIntegS, Reg.srvOutMa, Reg.srvOutVcm,
    Reg.srvIrqStatusLawEvent], [.free, .srv], false⟩

theorem srvOutput_keeps {W : Foot} {s0 s : State} {n : Nat} {full : Nat} {err : Int} {o : Nat × Word} (hW : srvOutputFoot.Le W) (h : Keeps W s0 s) :
    Keeps W s0 (srvOutput s n full err o) := by
  unfold srvOutput
  repeat' first
    | with_reducible assumption
    | with_reducible apply State.wr_elem_keeps
    | with_reducible apply State.set_elem_keeps
    | with_reducible apply outInteg_keeps
    | with_reducible apply State.setSrv_keeps
    | with_reducible apply Keeps.ite
    | exact hW.fld (by decide +kernel)
    | exact hW.trans (Foot.le_of (by decide +kernel))

/-- What `srvParity` may change. -/
def srvParityFoot : Foot :=
  .union [⟨[], [.cs, .ce], false⟩, unitFatalFrame]

theorem srvParity_keeps {W : Foot} {s0 s : State} {n : Nat} {addr : Nat} {upset : Option Upset} (hW : srvParityFoot.Le W) (h : Keeps W s0 s) :
    Keeps W s0 (srvParity s n addr upset) := by
  unfold srvParity
  repeat' first
    | with_reducible assumption
    | with_reducible apply ceParityNote_keeps
    | with_reducible apply contained_keeps
    | with_reducible apply unitFatal_keeps
    | with_reducible apply srvLastFault_keeps
    | with_reducible apply Keeps.ite
    | exact hW.trans (Foot.le_of (by decide +kernel))

/-- What `srvProgramOnce` may change. -/
def srvProgramOnceFoot : Foot :=
  .union [⟨[Reg.srvStatusHold, Reg.srvStatusSat, Reg.srvStatusSatHi, Reg.srvIntegS, Reg.srvOutVcm,
    Reg.srvCountsFallbacks, Reg.srvIrqStatusLawEvent], [.cs, .ce], false⟩, unitFatalFrame]

theorem srvProgramOnce_keeps {W : Foot} {s0 s : State} {n : Nat} {code : Nat} {full : Nat} (hW : srvProgramOnceFoot.Le W) (h : Keeps W s0 s) :
    Keeps W s0 (srvProgramOnce s n code full).2 := by
  unfold srvProgramOnce
  repeat' first
    | with_reducible assumption
    | with_reducible intro _
    | with_reducible apply Keeps.each
    | with_reducible apply srvPorts_keeps
    | with_reducible apply srvLawFault_keeps
    | with_reducible apply srvParity_keeps
    | with_reducible apply ceProgram_keeps
    | with_reducible apply srvOutput_keeps
    | exact hW.trans (Foot.le_of (by decide +kernel))
    | split
    | dsimp only

/-- What `fallbackDrive` may change. -/
def fallbackDriveFoot : Foot :=
  ⟨[Reg.srvOutMa, Reg.srvOutVcm], [.free], false⟩

theorem fallbackDrive_keeps {W : Foot} {s0 s : State} {n : Nat} {emf : Int} (hW : fallbackDriveFoot.Le W) (h : Keeps W s0 s) :
    Keeps W s0 (fallbackDrive s n emf) := by
  unfold fallbackDrive
  repeat' first
    | with_reducible assumption
    | with_reducible apply srvOut_keeps
    | with_reducible apply roundFree_keeps
    | exact hW.trans (Foot.le_of (by decide +kernel))

/-- What `sampleMissing` may change. -/
def sampleMissingFoot : Foot :=
  .union [⟨[Reg.srvStatusCoastCnt, Reg.srvCountsMissing, Reg.pmuOvfOvf, Reg.pmuCntLoCount, Reg.pmuCntHiCount], [],
    false⟩, unloadRampReachedFrame]

theorem sampleMissing_keeps {W : Foot} {s0 s : State} {n : Nat} (hW : sampleMissingFoot.Le W) (h : Keeps W s0 s) :
    Keeps W s0 (sampleMissing s n) := by
  unfold sampleMissing
  repeat' first
    | with_reducible assumption
    | with_reducible apply State.bump_elem_keeps
    | with_reducible apply srvEnter_keeps
    | with_reducible apply pmuEvent_keeps
    | with_reducible apply setOnTrack_keeps
    | with_reducible apply State.setSrv_keeps
    | with_reducible apply State.clr_elem_keeps
    | with_reducible apply Keeps.ite
    | exact hW.fld (by decide +kernel)
    | exact hW.trans (Foot.le_of (by decide +kernel))

/-- What `sampleCounted` may change. -/
def sampleCountedFoot : Foot :=
  .union [⟨[Reg.srvStatusHold, Reg.srvStatusCoastCnt], [], false⟩, unloadRampReachedFrame]

theorem sampleCounted_keeps {W : Foot} {s0 s : State} {n : Nat} {err : Int} {decision : Bool} (hW : sampleCountedFoot.Le W) (h : Keeps W s0 s) :
    Keeps W s0 (sampleCounted s n err decision) := by
  unfold sampleCounted
  repeat' first
    | with_reducible assumption
    | with_reducible intro _
    | with_reducible apply srvEnter_keeps
    | with_reducible apply setOnTrack_keeps
    | with_reducible apply Keeps.when
    | with_reducible apply State.setSrv_keeps
    | with_reducible apply State.clr_elem_keeps
    | with_reducible apply Keeps.ite
    | exact hW.fld (by decide +kernel)
    | exact hW.trans (Foot.le_of (by decide +kernel))

/-- What `ageBurst` may change. -/
def ageBurstFoot : Foot :=
  ⟨[], [.age], false⟩

theorem ageBurst_keeps {W : Foot} {s0 s : State} {n : Nat} {x : Sample} (hW : ageBurstFoot.Le W) (h : Keeps W s0 s) :
    Keeps W s0 (ageBurst s n x) := by
  unfold ageBurst
  repeat' first
    | with_reducible assumption
    | with_reducible apply State.setAge_keeps
    | exact hW.trans (Foot.le_of (by decide +kernel))
    | split
    | dsimp only

/-- What `swapDue` may change. -/
def swapDueFoot : Foot :=
  ⟨[Reg.srvStatusGset, Reg.srvStatusBand, Reg.srvStatusHold, Reg.srvStatusSat, Reg.srvStatusSatHi, Reg.srvIntegS],
    [.free, .srv, .ce], false⟩

theorem swapDue_keeps {W : Foot} {s0 s : State} {n : Nat} {pos : Int} {err : Int} {lost : Bool} (hW : swapDueFoot.Le W) (h : Keeps W s0 s) :
    Keeps W s0 (swapDue s n pos err lost) := by
  unfold swapDue
  repeat' first
    | with_reducible assumption
    | with_reducible apply State.wr_elem_keeps
    | with_reducible apply gainSwap_keeps
    | with_reducible apply Keeps.ite
    | exact hW.fld (by decide +kernel)
    | exact hW.trans (Foot.le_of (by decide +kernel))

theorem execServoSample_keeps {W : Foot} {s0 s : State} {n : Nat} {full : Nat} {smp : Sample} (hW : execServoSampleFrame.Le W) (h : Keeps W s0 s) :
    KeepsOut W s0 (execServoSample n full smp s) := by
  unfold execServoSample
  repeat' first
    | with_reducible assumption
    | with_reducible intro _
    | with_reducible apply KeepsOut.next
    | with_reducible apply KeepsOut.ite
    | with_reducible apply ageBurst_keeps
    | with_reducible apply sampleCounted_keeps
    | with_reducible apply hvRetract_keeps
    | with_reducible apply srvEnter_keeps
    | with_reducible apply pmuEvent_keeps
    | with_reducible apply fallbackDrive_keeps
    | with_reducible apply State.wr_elem_keeps
    | with_reducible apply Keeps.each
    | with_reducible apply srvPorts_keeps
    | with_reducible apply measure_keeps
    | with_reducible apply swapDue_keeps
    | with_reducible apply freezeStep_keeps
    | with_reducible apply reacqStep_keeps
    | with_reducible apply srvLawFault_keeps
    | with_reducible apply sampleMissing_keeps
    | with_reducible apply adaptTaps_keeps
    | with_reducible apply srvParity_keeps
    | with_reducible apply noticeStep_keeps
    | with_reducible apply Keeps.when
    | with_reducible apply State.setSrv_keeps
    | with_reducible apply ceProgram_keeps
    | with_reducible apply srvOutput_keeps
    | with_reducible apply Keeps.ite
    | exact hW.fld (by decide +kernel)
    | exact hW.trans (Foot.le_of (by decide +kernel))
    | split

theorem execLawOverrun_keeps {W : Foot} {s0 s : State} {n : Nat} (hW : execLawOverrunFrame.Le W) (h : Keeps W s0 s) :
    KeepsOut W s0 (execLawOverrun n s) := by
  unfold execLawOverrun
  repeat' first
    | with_reducible assumption
    | with_reducible apply KeepsOut.next
    | with_reducible apply hvRetract_keeps
    | with_reducible apply srvLawFault_keeps
    | with_reducible apply Keeps.ite
    | exact hW.trans (Foot.le_of (by decide +kernel))

theorem execCoastExhausted_keeps {W : Foot} {s0 s : State} {n : Nat} (hW : execCoastExhaustedFrame.Le W) (h : Keeps W s0 s) :
    KeepsOut W s0 (execCoastExhausted n s) := by
  unfold execCoastExhausted
  repeat' first
    | with_reducible assumption
    | with_reducible apply KeepsOut.next
    | with_reducible apply srvFallbackEnter_keeps
    | with_reducible apply Keeps.ite
    | exact hW.trans (Foot.le_of (by decide +kernel))

theorem execFeLimitFault_keeps {W : Foot} {s0 s : State} {n : Nat} (hW : execFeLimitFaultFrame.Le W) (h : Keeps W s0 s) :
    KeepsOut W s0 (execFeLimitFault n s) := by
  unfold execFeLimitFault
  repeat' first
    | with_reducible assumption
    | with_reducible apply KeepsOut.next
    | with_reducible apply srvFallbackEnter_keeps
    | with_reducible apply Keeps.ite
    | exact hW.trans (Foot.le_of (by decide +kernel))

/-- What `settleRunMet` may change. -/
def settleRunMetFoot : Foot :=
  .union [⟨[Reg.srvIrqStatusLoaded], [], false⟩, unloadRampReachedFrame]

theorem settleRunMet_keeps {W : Foot} {s0 s : State} {n : Nat} (hW : settleRunMetFoot.Le W) (h : Keeps W s0 s) :
    KeepsOut W s0 (settleRunMet n s) := by
  unfold settleRunMet
  repeat' first
    | with_reducible assumption
    | with_reducible apply KeepsOut.next
    | with_reducible apply KeepsOut.ite
    | with_reducible apply srvEnter_keeps
    | with_reducible apply State.set_elem_keeps
    | with_reducible apply State.setSrv_keeps
    | exact hW.fld (by decide +kernel)
    | exact hW.trans (Foot.le_of (by decide +kernel))

/-- What `reacquired` may change. -/
def reacquiredFoot : Foot :=
  .union [⟨[Reg.srvStatusHead, Reg.srvStatusHold, Reg.srvStatusSat, Reg.srvStatusCoastCnt, Reg.srvTargetTarget,
    Reg.srvIntegS, Reg.srvIrqStatusReacq, Reg.pmuOvfOvf, Reg.pmuCntLoCount, Reg.pmuCntHiCount], [], false⟩,
    unloadRampReachedFrame, astBandFrame]

theorem reacquired_keeps {W : Foot} {s0 s : State} {n : Nat} {full : Nat} (hW : reacquiredFoot.Le W) (h : Keeps W s0 s) :
    KeepsOut W s0 (reacquired n full s) := by
  unfold reacquired
  repeat' first
    | with_reducible assumption
    | with_reducible apply KeepsOut.next
    | with_reducible apply KeepsOut.ite
    | with_reducible apply State.set_elem_keeps
    | with_reducible apply seekBegin_keeps
    | with_reducible apply settleNearest_keeps
    | with_reducible apply Keeps.ite
    | exact hW.fld (by decide +kernel)
    | exact hW.trans (Foot.le_of (by decide +kernel))
    | split

theorem execReacqTimeout_keeps {W : Foot} {s0 s : State} {n : Nat} (hW : execReacqTimeoutFrame.Le W) (h : Keeps W s0 s) :
    KeepsOut W s0 (execReacqTimeout n s) := by
  unfold execReacqTimeout
  repeat' first
    | with_reducible assumption
    | with_reducible apply KeepsOut.next
    | with_reducible apply hvRetract_keeps
    | with_reducible apply Keeps.ite
    | exact hW.trans (Foot.le_of (by decide +kernel))

theorem execPlankSeek_keeps {W : Foot} {s0 s : State} {n : Nat} {full : Nat} (hW : execPlankSeekFrame.Le W) (h : Keeps W s0 s) :
    KeepsOut W s0 (execPlankSeek n full s) := by
  unfold execPlankSeek
  repeat' first
    | with_reducible assumption
    | with_reducible intro _
    | with_reducible apply KeepsOut.next
    | with_reducible apply KeepsOut.ite
    | with_reducible apply bwkBegin_keeps
    | with_reducible apply seekBegin_keeps
    | with_reducible apply Keeps.when
    | with_reducible apply plankEnd_keeps
    | with_reducible apply State.setSrv_keeps
    | with_reducible apply noticeSend_keeps
    | with_reducible apply preStrobe_keeps
    | with_reducible apply srvProgramOnce_keeps
    | (apply Begin.notYet_keeps; assumption)
    | (apply Begin.ended_keeps; assumption)
    | (apply Begin.begun_keeps; assumption)
    | exact hW.trans (Foot.le_of (by decide +kernel))
    | split

theorem execPlankSettle_keeps {W : Foot} {s0 s : State} {n : Nat} {full : Nat} (hW : execPlankSettleFrame.Le W) (h : Keeps W s0 s) :
    KeepsOut W s0 (execPlankSettle n full s) := by
  unfold execPlankSettle
  repeat' first
    | with_reducible assumption
    | with_reducible apply KeepsOut.next
    | with_reducible apply KeepsOut.ite
    | with_reducible apply bwkBegin_keeps
    | with_reducible apply plankEnd_keeps
    | with_reducible apply State.setSrv_keeps
    | (apply Begin.notYet_keeps; assumption)
    | (apply Begin.ended_keeps; assumption)
    | (apply Begin.begun_keeps; assumption)
    | exact hW.trans (Foot.le_of (by decide +kernel))
    | split

theorem execSettlePlankRun_keeps {W : Foot} {s0 s : State} {n : Nat} {full : Nat} (hW : execSettlePlankRunFrame.Le W) (h : Keeps W s0 s) :
    KeepsOut W s0 (execSettlePlankRun n full s) := by
  unfold execSettlePlankRun
  repeat' first
    | with_reducible assumption
    | with_reducible apply KeepsOut.next
    | with_reducible apply plankEnd_keeps
    | with_reducible apply Keeps.ite
    | exact hW.trans (Foot.le_of (by decide +kernel))
    | split

theorem execSettleTimeout_keeps {W : Foot} {s0 s : State} {n : Nat} {full : Nat} (hW : execSettleTimeoutFrame.Le W) (h : Keeps W s0 s) :
    KeepsOut W s0 (execSettleTimeout n full s) := by
  unfold execSettleTimeout
  repeat' first
    | with_reducible assumption
    | with_reducible apply KeepsOut.next
    | with_reducible apply plankEnd_keeps
    | with_reducible apply Keeps.ite
    | exact hW.trans (Foot.le_of (by decide +kernel))
    | split

theorem execSeekArrival_keeps {W : Foot} {s0 s : State} {n : Nat} {full : Nat} (hW : execSeekArrivalFrame.Le W) (h : Keeps W s0 s) :
    KeepsOut W s0 (execSeekArrival n full s) := by
  unfold execSeekArrival
  repeat' first
    | with_reducible assumption
    | with_reducible apply KeepsOut.next
    | with_reducible apply KeepsOut.ite
    | with_reducible apply State.set_elem_keeps
    | with_reducible apply State.setBwk_keeps
    | with_reducible apply plankEnd_keeps
    | with_reducible apply State.setSrv_keeps
    | exact hW.fld (by decide +kernel)
    | exact hW.trans (Foot.le_of (by decide +kernel))
    | split
    | dsimp only

/-- What `seekFault` may change. -/
def seekFaultFoot : Foot :=
  .union [⟨[Reg.srvStatusHold, Reg.srvStatusSat, Reg.srvStatusCoastCnt, Reg.srvTargetTarget, Reg.srvIntegS,
    Reg.srvLastFaultWedge, Reg.srvLastFaultCause], [], false⟩, bwkStopAllFrame, unloadRampReachedFrame]

theorem seekFault_keeps {W : Foot} {s0 s : State} {n : Nat} {cause : Nat} {full : Nat} (hW : seekFaultFoot.Le W) (h : Keeps W s0 s) :
    Keeps W s0 (seekFault s n cause full) := by
  unfold seekFault
  repeat' first
    | with_reducible assumption
    | with_reducible apply seekClear_keeps
    | with_reducible apply srvLastFault_keeps
    | with_reducible apply settleNearest_keeps
    | with_reducible apply plankEnd_keeps
    | exact hW.trans (Foot.le_of (by decide +kernel))
    | split
    | dsimp only

theorem execSeekTimeout_keeps {W : Foot} {s0 s : State} {n : Nat} {full : Nat} (hW : execSeekTimeoutFrame.Le W) (h : Keeps W s0 s) :
    KeepsOut W s0 (execSeekTimeout n full s) := by
  unfold execSeekTimeout
  repeat' first
    | with_reducible assumption
    | with_reducible apply KeepsOut.next
    | with_reducible apply seekFault_keeps
    | with_reducible apply Keeps.ite
    | exact hW.trans (Foot.le_of (by decide +kernel))

theorem execSeekVerrFault_keeps {W : Foot} {s0 s : State} {n : Nat} {full : Nat} (hW : execSeekVerrFaultFrame.Le W) (h : Keeps W s0 s) :
    KeepsOut W s0 (execSeekVerrFault n full s) := by
  unfold execSeekVerrFault
  repeat' first
    | with_reducible assumption
    | with_reducible apply KeepsOut.next
    | with_reducible apply seekFault_keeps
    | with_reducible apply Keeps.ite
    | exact hW.trans (Foot.le_of (by decide +kernel))

/-- What `loadBegin` may change. -/
def loadBeginFoot : Foot :=
  .union [⟨[Reg.srvStatusHead, Reg.srvStatusHold, Reg.srvStatusSat, Reg.srvStatusSatHi, Reg.srvIntegS, Reg.srvOutVcm,
    Reg.srvCountsFallbacks, Reg.srvIrqStatusLawEvent], [.cs, .ce], false⟩, unitFatalFrame]

theorem loadBegin_keeps {W : Foot} {s0 s : State} {n : Nat} {head : Nat} {track : Nat} {full : Nat} (hW : loadBeginFoot.Le W) (h : Keeps W s0 s) :
    Keeps W s0 (loadBegin s n head track full) := by
  unfold loadBegin
  repeat' first
    | with_reducible assumption
    | with_reducible apply srvEnter_keeps
    | with_reducible apply State.wr_elem_keeps
    | with_reducible apply State.setSrv_keeps
    | with_reducible apply srvProgramOnce_keeps
    | exact hW.fld (by decide +kernel)
    | exact hW.trans (Foot.le_of (by decide +kernel))

theorem execSrvCmdLoad_keeps {W : Foot} {s0 s : State} {n : Nat} {head : Nat} {track : Nat} {full : Nat} (hW : execSrvCmdLoadFrame.Le W) (h : Keeps W s0 s) :
    KeepsOut W s0 (execSrvCmdLoad n head track full s) := by
  unfold execSrvCmdLoad
  repeat' first
    | with_reducible assumption
    | with_reducible apply KeepsOut.next
    | with_reducible apply State.answer_keeps
    | with_reducible apply loadBegin_keeps
    | with_reducible apply gatedAccess_keeps
    | with_reducible apply corrected_keeps
    | with_reducible apply Keeps.ite
    | exact hW.trans (Foot.le_of (by decide +kernel))

theorem execSrvCmdUnload_keeps {W : Foot} {s0 s : State} {n : Nat} (hW : execSrvCmdUnloadFrame.Le W) (h : Keeps W s0 s) :
    KeepsOut W s0 (execSrvCmdUnload n s) := by
  unfold execSrvCmdUnload
  repeat' first
    | with_reducible assumption
    | with_reducible apply KeepsOut.next
    | with_reducible apply KeepsOut.ite
    | with_reducible apply State.answer_keeps
    | with_reducible apply srvEnter_keeps
    | with_reducible apply gatedAccess_keeps
    | with_reducible apply corrected_keeps
    | with_reducible apply srvProgramOnce_keeps
    | exact hW.trans (Foot.le_of (by decide +kernel))

theorem execSrvCmdRetract_keeps {W : Foot} {s0 s : State} {n : Nat} (hW : execSrvCmdRetractFrame.Le W) (h : Keeps W s0 s) :
    KeepsOut W s0 (execSrvCmdRetract n s) := by
  unfold execSrvCmdRetract
  repeat' first
    | with_reducible assumption
    | with_reducible apply KeepsOut.next
    | with_reducible apply State.answer_keeps
    | with_reducible apply hvRetract_keeps
    | with_reducible apply gatedAccess_keeps
    | exact hW.trans (Foot.le_of (by decide +kernel))

/-- What `unloadRampReached` may change. -/
def unloadRampReachedFoot : Foot :=
  .union [unloadRampReachedFrame]

theorem unloadRampReached_keeps {W : Foot} {s0 s : State} {n : Nat} (hW : unloadRampReachedFoot.Le W) (h : Keeps W s0 s) :
    KeepsOut W s0 (unloadRampReached n s) := by
  unfold unloadRampReached
  repeat' first
    | with_reducible assumption
    | with_reducible apply KeepsOut.next
    | with_reducible apply srvEnter_keeps
    | with_reducible apply Keeps.ite
    | exact hW.trans (Foot.le_of (by decide +kernel))

/-- What `bootLoad` may change. -/
def bootLoadFoot : Foot :=
  .union [⟨[Reg.srvStatusHead, Reg.srvStatusHold, Reg.srvStatusSat, Reg.srvStatusSatHi, Reg.srvIntegS, Reg.srvOutVcm,
    Reg.srvCountsFallbacks, Reg.srvIrqStatusLawEvent], [.cs, .ce], false⟩, unitFatalFrame]

theorem bootLoad_keeps {W : Foot} {s0 s : State} {n : Nat} {full : Nat} (hW : bootLoadFoot.Le W) (h : Keeps W s0 s) :
    Keeps W s0 (bootLoad s n full) := by
  unfold bootLoad
  repeat' first
    | with_reducible assumption
    | with_reducible apply loadBegin_keeps
    | with_reducible apply State.setSrv_keeps
    | exact hW.trans (Foot.le_of (by decide +kernel))
    | split

/-- What `bootLoadFailed` may change. -/
def bootLoadFailedFoot : Foot :=
  .union [⟨[Reg.srvStatusHead, Reg.srvStatusHold, Reg.srvStatusSat, Reg.srvStatusSatHi, Reg.srvIntegS, Reg.srvOutVcm,
    Reg.srvCountsFallbacks, Reg.srvIrqStatusLawEvent], [.cs, .ce], false⟩, unitFatalFrame]

theorem bootLoadFailed_keeps {W : Foot} {s0 s : State} {n : Nat} {full : Nat} (hW : bootLoadFailedFoot.Le W) (h : Keeps W s0 s) :
    Keeps W s0 (bootLoadFailed s n full) := by
  unfold bootLoadFailed
  repeat' first
    | with_reducible assumption
    | with_reducible apply safeEnter_keeps
    | with_reducible apply unitFatal_keeps
    | with_reducible apply srvLastFault_keeps
    | with_reducible apply State.setSrv_keeps
    | with_reducible apply bootLoad_keeps
    | with_reducible apply Keeps.ite
    | exact hW.trans (Foot.le_of (by decide +kernel))

/-- What `retractDone` may change. -/
def retractDoneFoot : Foot :=
  .union [⟨[Reg.srvStatusHead, Reg.srvStatusHold, Reg.srvStatusSat, Reg.srvStatusSatHi, Reg.srvIntegS, Reg.srvOutVcm,
    Reg.srvCountsFallbacks, Reg.srvIrqStatusLawEvent], [.cs, .ce], false⟩, unitFatalFrame]

theorem retractDone_keeps {W : Foot} {s0 s : State} {n : Nat} {full : Nat} (hW : retractDoneFoot.Le W) (h : Keeps W s0 s) :
    KeepsOut W s0 (retractDone n full s) := by
  unfold retractDone
  repeat' first
    | with_reducible assumption
    | with_reducible apply KeepsOut.next
    | with_reducible apply KeepsOut.ite
    | with_reducible apply srvEnter_keeps
    | with_reducible apply bootLoadFailed_keeps
    | exact hW.trans (Foot.le_of (by decide +kernel))

theorem execTapDataAccess_keeps {W : Foot} {s0 s : State} {n : Nat} {write : Option Word} (hW : execTapDataAccessFrame.Le W) (h : Keeps W s0 s) :
    KeepsOut W s0 (execTapDataAccess n write s) := by
  unfold execTapDataAccess
  repeat' first
    | with_reducible assumption
    | with_reducible apply KeepsOut.next
    | with_reducible apply KeepsOut.ite
    | with_reducible apply State.answer_keeps
    | with_reducible apply gatedAccess_keeps
    | with_reducible apply State.wr_elem_keeps
    | with_reducible apply expertIgnored_elem_keeps
    | with_reducible apply setTap_keeps
    | exact hW.fld (by decide +kernel)
    | exact hW.trans (Foot.le_of (by decide +kernel))
    | split

end Sys2Proof.Machine
end

