-- ==== Sys2Proof/Laws/FootSpindle.lean ====
section
/-!
SUPPORT. Footprints of the operations of Machine/Spindle.lean: what each may change, and that it changes nothing else.
-/

namespace Sys2Proof.Machine

set_option Elab.async false

/-- What `spnFails` may change. -/
def spnFailsFoot : Foot :=
  .union [⟨[Reg.spnFaultCause, Reg.fltStatusCause, Reg.fltStatusSafePend], [], false⟩, safeStopFrame,
    spnLeaveTokenFrame]

theorem spnFails_keeps {W : Foot} {s0 s : State} {cause : Nat} (hW : spnFailsFoot.Le W) (h : Keeps W s0 s) :
    Keeps W s0 (spnFails s cause) := by
  unfold spnFails
  repeat' first
    | with_reducible assumption
    | with_reducible apply safeEnter_keeps
    | with_reducible apply spnFaultEnter_keeps
    | with_reducible apply Keeps.ite
    | exact hW.trans (Foot.le_of (by decide +kernel))

/-- What `spnLeaveToken` may change. -/
def spnLeaveTokenFoot : Foot :=
  .union [spnLeaveTokenFrame]

theorem spnLeaveToken_keeps {W : Foot} {s0 s : State} (hW : spnLeaveTokenFoot.Le W) (h : Keeps W s0 s) :
    Keeps W s0 (spnLeaveToken s) := by
  unfold spnLeaveToken
  repeat' first
    | with_reducible assumption
    | with_reducible apply spnEnter_keeps
    | with_reducible apply State.setSpn_keeps
    | with_reducible apply Keeps.ite
    | exact hW.trans (Foot.le_of (by decide +kernel))

/-- What `tokenOwn` may change. -/
def tokenOwnFoot : Foot :=
  .union [⟨[Reg.spnIrqStatusToken], [], false⟩, spnLeaveTokenFrame]

theorem tokenOwn_keeps {W : Foot} {s0 s : State} (hW : tokenOwnFoot.Le W) (h : Keeps W s0 s) :
    Keeps W s0 (tokenOwn s) := by
  unfold tokenOwn
  repeat' first
    | with_reducible assumption
    | with_reducible apply spnLeaveToken_keeps
    | with_reducible apply tokenGive_keeps
    | with_reducible apply State.set_keeps
    | with_reducible apply State.setDom_keeps
    | exact hW.fld (by decide +kernel)
    | exact hW.trans (Foot.le_of (by decide +kernel))
    | exact Eq.refl true
    | split

/-- What `spnStart` may change. -/
def spnStartFoot : Foot :=
  .union [⟨[Reg.spnStatusRpm, Reg.spnCountsStarts, Reg.spnIrqStatusToken], [], false⟩, spnLeaveTokenFrame]

theorem spnStart_keeps {W : Foot} {s0 s : State} {rung : Nat} {rpm : Nat} (hW : spnStartFoot.Le W) (h : Keeps W s0 s) :
    Keeps W s0 (spnStart s rung rpm) := by
  unfold spnStart
  repeat' first
    | with_reducible assumption
    | with_reducible apply State.bump_keeps
    | with_reducible apply spnEnter_keeps
    | with_reducible apply State.setSpn_keeps
    | with_reducible apply State.wr_keeps
    | with_reducible apply tokenOwn_keeps
    | with_reducible apply tokenAsk_keeps
    | exact hW.fld (by decide +kernel)
    | exact hW.trans (Foot.le_of (by decide +kernel))
    | exact Eq.refl true

theorem execSpnCmdStart_keeps {W : Foot} {s0 s : State} {rung : Nat} {rpm : Nat} (hW : execSpnCmdStartFrame.Le W) (h : Keeps W s0 s) :
    KeepsOut W s0 (execSpnCmdStart rung rpm s) := by
  unfold execSpnCmdStart
  repeat' first
    | with_reducible assumption
    | with_reducible apply KeepsOut.next
    | with_reducible apply KeepsOut.ite
    | with_reducible apply State.answer_keeps
    | with_reducible apply gatedAccess_keeps
    | with_reducible apply corrected_keeps
    | with_reducible apply spnStart_keeps
    | exact hW.trans (Foot.le_of (by decide +kernel))

theorem execSpnCmdStop_keeps {W : Foot} {s0 s : State} (hW : execSpnCmdStopFrame.Le W) (h : Keeps W s0 s) :
    KeepsOut W s0 (execSpnCmdStop s) := by
  unfold execSpnCmdStop
  repeat' first
    | with_reducible assumption
    | with_reducible apply KeepsOut.next
    | with_reducible apply KeepsOut.ite
    | with_reducible apply State.answer_keeps
    | with_reducible apply spnEnter_keeps
    | with_reducible apply gatedAccess_keeps
    | with_reducible apply State.setSpn_keeps
    | with_reducible apply corrected_keeps
    | exact hW.trans (Foot.le_of (by decide +kernel))

theorem execSpnCmdClear_keeps {W : Foot} {s0 s : State} {rpm : Nat} (hW : execSpnCmdClearFrame.Le W) (h : Keeps W s0 s) :
    KeepsOut W s0 (execSpnCmdClear rpm s) := by
  unfold execSpnCmdClear
  repeat' first
    | with_reducible assumption
    | with_reducible apply KeepsOut.next
    | with_reducible apply KeepsOut.ite
    | with_reducible apply State.answer_keeps
    | with_reducible apply spnEnter_keeps
    | with_reducible apply gatedAccess_keeps
    | with_reducible apply State.setSpn_keeps
    | with_reducible apply corrected_keeps
    | with_reducible apply State.clr_keeps
    | exact hW.fld (by decide +kernel)
    | exact hW.trans (Foot.le_of (by decide +kernel))
    | exact Eq.refl true

theorem execAlignTimeExpiry_keeps {W : Foot} {s0 s : State} (hW : execAlignTimeExpiryFrame.Le W) (h : Keeps W s0 s) :
    KeepsOut W s0 (execAlignTimeExpiry s) := by
  unfold execAlignTimeExpiry
  repeat' first
    | with_reducible assumption
    | with_reducible apply KeepsOut.next
    | with_reducible apply spnEnter_keeps
    | with_reducible apply Keeps.ite
    | exact hW.trans (Foot.le_of (by decide +kernel))

theorem execHandoverReached_keeps {W : Foot} {s0 s : State} (hW : execHandoverReachedFrame.Le W) (h : Keeps W s0 s) :
    KeepsOut W s0 (execHandoverReached s) := by
  unfold execHandoverReached
  repeat' first
    | with_reducible assumption
    | with_reducible apply KeepsOut.next
    | with_reducible apply spnEnter_keeps
    | with_reducible apply Keeps.ite
    | exact hW.trans (Foot.le_of (by decide +kernel))

theorem execSpinupTimeout_keeps {W : Foot} {s0 s : State} (hW : execSpinupTimeoutFrame.Le W) (h : Keeps W s0 s) :
    KeepsOut W s0 (execSpinupTimeout s) := by
  unfold execSpinupTimeout
  repeat' first
    | with_reducible assumption
    | with_reducible apply KeepsOut.next
    | with_reducible apply spnFails_keeps
    | with_reducible apply Keeps.ite
    | exact hW.trans (Foot.le_of (by decide +kernel))

/-- What `spnParity` may change. -/
def spnParityFoot : Foot :=
  .union [⟨[Reg.spnFaultCause, Reg.fltStatusCause, Reg.fltStatusSafePend], [.cs, .ce], false⟩, safeStopFrame,
    spnLeaveTokenFrame]

theorem spnParity_keeps {W : Foot} {s0 s : State} {addr : Nat} {upset : Option Upset} (hW : spnParityFoot.Le W) (h : Keeps W s0 s) :
    Keeps W s0 (spnParity s addr upset) := by
  unfold spnParity
  repeat' first
    | with_reducible assumption
    | with_reducible apply deviceFatal_keeps
    | with_reducible apply ceParityNote_keeps
    | with_reducible apply spnFaultEnter_keeps
    | with_reducible apply contained_keeps
    | with_reducible apply Keeps.ite
    | exact hW.trans (Foot.le_of (by decide +kernel))

/-- What `spnSpeed` may change. -/
def spnSpeedFoot : Foot :=
  .union [⟨[Reg.spnFaultCause, Reg.fltStatusCause, Reg.fltStatusSafePend], [.cs, .ce], false⟩, safeStopFrame,
    spnLeaveTokenFrame]

theorem spnSpeed_keeps {W : Foot} {s0 s : State} {upset : Option Upset} (hW : spnSpeedFoot.Le W) (h : Keeps W s0 s) :
    Keeps W s0 (spnSpeed s upset) := by
  unfold spnSpeed
  repeat' first
    | with_reducible assumption
    | with_reducible apply spnParity_keeps
    | with_reducible apply ceProgram_keeps
    | with_reducible apply Keeps.ite
    | exact hW.trans (Foot.le_of (by decide +kernel))

/-- What `offspeedStep` may change. -/
def offspeedStepFoot : Foot :=
  ⟨[Reg.spnStatusOffspeed], [.spn], false⟩

theorem offspeedStep_keeps {W : Foot} {s0 s : State} {period : Nat} (hW : offspeedStepFoot.Le W) (h : Keeps W s0 s) :
    Keeps W s0 (offspeedStep s period) := by
  unfold offspeedStep
  repeat' first
    | with_reducible assumption
    | with_reducible apply State.setSpn_keeps
    | with_reducible apply State.clr_keeps
    | with_reducible apply Keeps.ite
    | exact hW.fld (by decide +kernel)
    | exact hW.trans (Foot.le_of (by decide +kernel))
    | exact Eq.refl true

/-- What `zeroCrossing` may change. -/
def zeroCrossingFoot : Foot :=
  .union [⟨[Reg.angRevPeriodCycles, Reg.angRungSchedRung, Reg.angRungCurrent, Reg.spnStatusRpm, Reg.spnFaultCause,
    Reg.fltStatusCause, Reg.fltStatusSafePend], [.cs, .ce], false⟩, safeStopFrame, spnLeaveTokenFrame]

theorem zeroCrossing_keeps {W : Foot} {s0 s : State} {rpm : Nat} {period : Nat} {upset : Option Upset} (hW : zeroCrossingFoot.Le W) (h : Keeps W s0 s) :
    KeepsOut W s0 (zeroCrossing rpm period upset s) := by
  unfold zeroCrossing
  repeat' first
    | with_reducible assumption
    | with_reducible apply KeepsOut.next
    | with_reducible apply offspeedStep_keeps
    | with_reducible apply spnEnter_keeps
    | with_reducible apply State.setSpn_keeps
    | with_reducible apply State.wr_keeps
    | with_reducible apply spnSpeed_keeps
    | with_reducible apply Keeps.ite
    | exact hW.fld (by decide +kernel)
    | exact hW.trans (Foot.le_of (by decide +kernel))
    | exact Eq.refl true

theorem execZcWindowMiss_keeps {W : Foot} {s0 s : State} (hW : execZcWindowMissFrame.Le W) (h : Keeps W s0 s) :
    KeepsOut W s0 (execZcWindowMiss s) := by
  unfold execZcWindowMiss
  repeat' first
    | with_reducible assumption
    | with_reducible apply KeepsOut.next
    | with_reducible apply KeepsOut.ite
    | with_reducible apply State.bump_keeps
    | with_reducible apply spnEnter_keeps
    | with_reducible apply State.setSpn_keeps
    | with_reducible apply State.wr_keeps
    | with_reducible apply State.clr_keeps
    | with_reducible apply Keeps.ite
    | exact hW.fld (by decide +kernel)
    | exact hW.trans (Foot.le_of (by decide +kernel))
    | exact Eq.refl true

theorem execZcLost_keeps {W : Foot} {s0 s : State} (hW : execZcLostFrame.Le W) (h : Keeps W s0 s) :
    KeepsOut W s0 (execZcLost s) := by
  unfold execZcLost
  repeat' first
    | with_reducible assumption
    | with_reducible apply KeepsOut.next
    | with_reducible apply spnFails_keeps
    | with_reducible apply Keeps.ite
    | exact hW.trans (Foot.le_of (by decide +kernel))

theorem execOffspeedSet_keeps {W : Foot} {s0 s : State} (hW : execOffspeedSetFrame.Le W) (h : Keeps W s0 s) :
    KeepsOut W s0 (execOffspeedSet s) := by
  unfold execOffspeedSet
  repeat' first
    | with_reducible assumption
    | with_reducible apply KeepsOut.next
    | with_reducible apply KeepsOut.ite
    | with_reducible apply State.set_keeps
    | with_reducible apply setOnTrack_keeps
    | exact hW.fld (by decide +kernel)
    | exact hW.trans (Foot.le_of (by decide +kernel))
    | exact Eq.refl true

theorem execSpeedBelowFlyMin_keeps {W : Foot} {s0 s : State} {rpm : Nat} (hW : execSpeedBelowFlyMinFrame.Le W) (h : Keeps W s0 s) :
    KeepsOut W s0 (execSpeedBelowFlyMin rpm s) := by
  unfold execSpeedBelowFlyMin
  repeat' first
    | with_reducible assumption
    | with_reducible apply KeepsOut.next
    | with_reducible apply hvRetractBoth_keeps
    | with_reducible apply Keeps.ite
    | exact hW.trans (Foot.le_of (by decide +kernel))

/-- What `spindleBrakeDone` may change. -/
def spindleBrakeDoneFoot : Foot :=
  .union [⟨[Reg.spnStatusRpm, Reg.spnFaultCause], [], false⟩, spnLeaveTokenFrame]

theorem spindleBrakeDone_keeps {W : Foot} {s0 s : State} {rpm : Nat} (hW : spindleBrakeDoneFoot.Le W) (h : Keeps W s0 s) :
    KeepsOut W s0 (spindleBrakeDone rpm s) := by
  unfold spindleBrakeDone
  repeat' first
    | with_reducible assumption
    | with_reducible apply KeepsOut.next
    | with_reducible apply KeepsOut.ite
    | with_reducible apply spnEnter_keeps
    | with_reducible apply State.setSpn_keeps
    | with_reducible apply State.wr_keeps
    | with_reducible apply State.clr_keeps
    | exact hW.fld (by decide +kernel)
    | exact hW.trans (Foot.le_of (by decide +kernel))
    | exact Eq.refl true

theorem execReturnSettleTimeout_keeps {W : Foot} {s0 s : State} (hW : execReturnSettleTimeoutFrame.Le W) (h : Keeps W s0 s) :
    KeepsOut W s0 (execReturnSettleTimeout s) := by
  unfold execReturnSettleTimeout
  repeat' first
    | with_reducible assumption
    | with_reducible apply KeepsOut.next
    | with_reducible apply spnFails_keeps
    | with_reducible apply Keeps.ite
    | exact hW.trans (Foot.le_of (by decide +kernel))

theorem execRetractStart_keeps {W : Foot} {s0 s : State} {mask : Nat} {cause : Nat} (hW : execRetractStartFrame.Le W) (h : Keeps W s0 s) :
    KeepsOut W s0 (execRetractStart mask cause s) := by
  unfold execRetractStart
  repeat' first
    | with_reducible assumption
    | with_reducible intro _
    | with_reducible apply KeepsOut.next
    | with_reducible apply hvRetract_keeps
    | with_reducible apply Keeps.when
    | exact hW.trans (Foot.le_of (by decide +kernel))

/-- What `hvAdvance` may change. -/
def hvAdvanceFoot : Foot :=
  ⟨[Reg.hvbStatusRetractLine, Reg.hvbCtlRetract, Reg.hvRetractActive, Reg.hvRetractDone, Reg.hvRetractPhase], [],
    false⟩

theorem hvAdvance_keeps {W : Foot} {s0 s : State} {n : Nat} (hW : hvAdvanceFoot.Le W) (h : Keeps W s0 s) :
    Keeps W s0 (hvAdvance s n) := by
  unfold hvAdvance
  repeat' first
    | with_reducible assumption
    | with_reducible apply State.wr_elem_keeps
    | with_reducible apply State.set_elem_keeps
    | with_reducible apply State.clr_elem_keeps
    | with_reducible apply State.clr_keeps
    | with_reducible apply Keeps.ite
    | exact hW.fld (by decide +kernel)
    | exact Eq.refl true

theorem execRetractPhaseEnd_keeps {W : Foot} {s0 s : State} {n : Nat} (hW : execRetractPhaseEndFrame.Le W) (h : Keeps W s0 s) :
    KeepsOut W s0 (execRetractPhaseEnd n s) := by
  unfold execRetractPhaseEnd
  repeat' first
    | with_reducible assumption
    | with_reducible apply KeepsOut.next
    | with_reducible apply hvAdvance_keeps
    | exact hW.trans (Foot.le_of (by decide +kernel))

theorem execRetractPhaseTimeout_keeps {W : Foot} {s0 s : State} {n : Nat} (hW : execRetractPhaseTimeoutFrame.Le W) (h : Keeps W s0 s) :
    KeepsOut W s0 (execRetractPhaseTimeout n s) := by
  unfold execRetractPhaseTimeout
  repeat' first
    | with_reducible assumption
    | with_reducible apply KeepsOut.next
    | with_reducible apply KeepsOut.ite
    | with_reducible apply State.set_elem_keeps
    | with_reducible apply hvAdvance_keeps
    | with_reducible apply hvFault_keeps
    | exact hW.fld (by decide +kernel)
    | exact hW.trans (Foot.le_of (by decide +kernel))

end Sys2Proof.Machine
end

