-- ==== Sys2Proof/Laws/FootModes.lean ====
section
/-!
SUPPORT. Footprints of the operations of Machine/Modes.lean: what each may change, and that it changes nothing else.
-/

namespace Sys2Proof.Machine

set_option Elab.async false

/-- What `afterNext` may change. -/
def afterNextFoot : Foot :=
  ⟨[], [], false⟩

theorem afterNext_keeps {W : Foot} {s0 : State} {o : Host.Outcome State Fault Refusal} {f : State → State}
    (ho : KeepsOut W s0 o) (hf : ∀ y, Keeps W s0 y → Keeps W s0 (f y)) : KeepsOut W s0 (afterNext o f) := by
  intro y hy
  unfold afterNext at hy
  split at hy
  · rename_i s
    cases hy
    exact hf s (ho s rfl)
  · exact ho y hy

/-- What `rungSelect` may change. -/
def rungSelectFoot : Foot :=
  ⟨[Reg.angRungResult, Reg.angRungPhase, Reg.angRungPend, Reg.angRungPendTarget, Reg.angRungTarget,
    Reg.angIrqStatusRungDone], [.ang], false⟩

theorem rungSelect_keeps {W : Foot} {s0 s : State} {rung : Nat} (hW : rungSelectFoot.Le W) (h : Keeps W s0 s) :
    Keeps W s0 (rungSelect s rung) := by
  unfold rungSelect
  repeat' first
    | with_reducible assumption
    | with_reducible apply State.wr_keeps
    | with_reducible apply rungAsk_keeps
    | with_reducible apply Keeps.ite
    | exact hW.fld (by decide +kernel)
    | exact hW.trans (Foot.le_of (by decide +kernel))
    | exact Eq.refl true

/-- What `unloadBegin` may change. -/
def unloadBeginFoot : Foot :=
  .union [⟨[Reg.srvStatusHold, Reg.srvStatusSat, Reg.srvStatusSatHi, Reg.srvIntegS, Reg.srvOutVcm,
    Reg.srvCountsFallbacks, Reg.srvIrqStatusLawEvent], [.cs, .ce], false⟩, unitFatalFrame]

theorem unloadBegin_keeps {W : Foot} {s0 s : State} {n : Nat} (hW : unloadBeginFoot.Le W) (h : Keeps W s0 s) :
    Keeps W s0 (unloadBegin s n) := by
  unfold unloadBegin
  repeat' first
    | with_reducible assumption
    | with_reducible apply srvEnter_keeps
    | with_reducible apply srvProgramOnce_keeps
    | exact hW.trans (Foot.le_of (by decide +kernel))

/-- What `autoLoad` may change. -/
def autoLoadFoot : Foot :=
  .union [⟨[Reg.srvStatusHead, Reg.srvStatusHold, Reg.srvStatusSat, Reg.srvStatusSatHi, Reg.srvIntegS, Reg.srvOutVcm,
    Reg.srvCountsFallbacks, Reg.srvIrqStatusLawEvent], [.cs, .ce], false⟩, unitFatalFrame]

theorem autoLoad_keeps {W : Foot} {s0 s : State} (hW : autoLoadFoot.Le W) (h : Keeps W s0 s) :
    Keeps W s0 (autoLoad s) := by
  unfold autoLoad
  repeat' first
    | with_reducible assumption
    | with_reducible intro _
    | with_reducible apply Keeps.each
    | with_reducible apply bootLoad_keeps
    | with_reducible apply Keeps.ite
    | exact hW.trans (Foot.le_of (by decide +kernel))

/-- What `serviceEnter` may change. -/
def serviceEnterFoot : Foot :=
  .union [⟨[Reg.angRungPendTarget], [.change], false⟩, bootEnterFrame, rungFinishFrame]

theorem serviceEnter_keeps {W : Foot} {s0 s : State} {cause : Nat} (hW : serviceEnterFoot.Le W) (h : Keeps W s0 s) :
    Keeps W s0 (serviceEnter s cause) := by
  unfold serviceEnter
  repeat' first
    | with_reducible assumption
    | with_reducible apply enterMode_keeps
    | with_reducible apply rungSelect_keeps
    | with_reducible apply bwkUnhold_keeps
    | with_reducible apply State.setChange_keeps
    | with_reducible apply Keeps.ite
    | exact hW.trans (Foot.le_of (by decide +kernel))

/-- What `wakeBegin` may change. -/
def wakeBeginFoot : Foot :=
  .union [⟨[Reg.srvStatusHead, Reg.srvStatusHold, Reg.srvStatusSat, Reg.srvStatusSatHi, Reg.srvIntegS, Reg.srvOutVcm,
    Reg.srvCountsFallbacks, Reg.srvIrqStatusLawEvent, Reg.spnStatusRpm, Reg.spnCountsStarts, Reg.spnIrqStatusToken],
    [.cs, .ce, .change], false⟩, unitFatalFrame, spnLeaveTokenFrame]

theorem wakeBegin_keeps {W : Foot} {s0 s : State} {mode : Nat} {cause : Nat} (hW : wakeBeginFoot.Le W) (h : Keeps W s0 s) :
    Keeps W s0 (wakeBegin s mode cause) := by
  unfold wakeBegin
  repeat' first
    | with_reducible assumption
    | with_reducible apply autoLoad_keeps
    | with_reducible apply State.setChange_keeps
    | with_reducible apply State.setSrv_keeps
    | with_reducible apply spnStart_keeps
    | with_reducible apply Keeps.ite
    | exact hW.trans (Foot.le_of (by decide +kernel))

/-- What `recoveryEnter` may change. -/
def recoveryEnterFoot : Foot :=
  .union [noSetFrame]

theorem recoveryEnter_keeps {W : Foot} {s0 s : State} {cause : Nat} (hW : recoveryEnterFoot.Le W) (h : Keeps W s0 s) :
    Keeps W s0 (recoveryEnter s cause) := by
  unfold recoveryEnter
  repeat' first
    | with_reducible assumption
    | with_reducible apply hostStop_keeps
    | with_reducible apply spnEnter_keeps
    | with_reducible apply linkSet_keeps
    | with_reducible apply enterMode_keeps
    | with_reducible apply State.setSpn_keeps
    | with_reducible apply State.wr_keeps
    | with_reducible apply calStop_keeps
    | with_reducible apply State.setChange_keeps
    | with_reducible apply State.clr_keeps
    | with_reducible apply Keeps.ite
    | with_reducible apply Keeps.set_boot
    | exact hW.fld (by decide +kernel)
    | exact hW.trans (Foot.le_of (by decide +kernel))
    | exact hW.part (by decide +kernel)
    | exact Eq.refl true

/-- What `changeStep` may change. -/
def changeStepFoot : Foot :=
  .union [modeAdvanceFrame]

theorem changeStep_keeps {W : Foot} {s0 s : State} {c : ModeChange} (hW : changeStepFoot.Le W) (h : Keeps W s0 s) :
    Keeps W s0 (changeStep s c) := by
  unfold changeStep
  repeat' first
    | with_reducible assumption
    | with_reducible intro _
    | with_reducible apply spnEnter_keeps
    | with_reducible apply rungStart_keeps
    | with_reducible apply enterMode_keeps
    | with_reducible apply State.setSpn_keeps
    | with_reducible apply Keeps.each
    | with_reducible apply unloadBegin_keeps
    | with_reducible apply wakeBegin_keeps
    | with_reducible apply autoLoad_keeps
    | with_reducible apply State.setChange_keeps
    | with_reducible apply serviceEnter_keeps
    | with_reducible apply recoveryEnter_keeps
    | with_reducible apply spnStart_keeps
    | with_reducible apply Keeps.ite
    | exact hW.trans (Foot.le_of (by decide +kernel))

/-- What `modeAdvance` may change. -/
def modeAdvanceFoot : Foot :=
  .union [modeAdvanceFrame]

theorem modeAdvance_keeps {W : Foot} {s0 s : State} (hW : modeAdvanceFoot.Le W) (h : Keeps W s0 s) :
    Keeps W s0 (modeAdvance s) := by
  unfold modeAdvance
  repeat' first
    | with_reducible assumption
    | with_reducible apply changeStep_keeps
    | with_reducible apply autoLoad_keeps
    | with_reducible apply Keeps.ite
    | exact hW.trans (Foot.le_of (by decide +kernel))
    | split
    | dsimp only

/-- What `changeAbandon` may change. -/
def changeAbandonFoot : Foot :=
  .union [⟨[Reg.angRungPendTarget], [.change], false⟩, rungFinishFrame]

theorem changeAbandon_keeps {W : Foot} {s0 s : State} (hW : changeAbandonFoot.Le W) (h : Keeps W s0 s) :
    Keeps W s0 (changeAbandon s) := by
  unfold changeAbandon
  repeat' first
    | with_reducible assumption
    | with_reducible apply rungSelect_keeps
    | with_reducible apply bwkUnhold_keeps
    | with_reducible apply State.setChange_keeps
    | with_reducible apply Keeps.ite
    | exact hW.trans (Foot.le_of (by decide +kernel))

/-- What `modeRequest` may change. -/
def modeRequestFoot : Foot :=
  .union [modeAdvanceFrame]

theorem modeRequest_keeps {W : Foot} {s0 s : State} {mode : Nat} {cause : Nat} (hW : modeRequestFoot.Le W) (h : Keeps W s0 s) :
    Keeps W s0 (modeRequest s mode cause) := by
  unfold modeRequest
  repeat' first
    | with_reducible assumption
    | with_reducible apply modeAdvance_keeps
    | with_reducible apply wakeBegin_keeps
    | with_reducible apply State.setAng_keeps
    | with_reducible apply State.setChange_keeps
    | with_reducible apply changeAbandon_keeps
    | with_reducible apply Keeps.ite
    | exact hW.trans (Foot.le_of (by decide +kernel))

/-- What `mediaWake` may change. -/
def mediaWakeFoot : Foot :=
  .union [modeAdvanceFrame]

theorem mediaWake_keeps {W : Foot} {s0 s : State} (hW : mediaWakeFoot.Le W) (h : Keeps W s0 s) :
    Keeps W s0 (mediaWake s) := by
  unfold mediaWake
  repeat' first
    | with_reducible assumption
    | with_reducible apply State.setChange_keeps
    | with_reducible apply changeAbandon_keeps
    | with_reducible apply modeRequest_keeps
    | with_reducible apply Keeps.ite
    | exact hW.trans (Foot.le_of (by decide +kernel))
    | split

/-- What `powerPendApply` may change. -/
def powerPendApplyFoot : Foot :=
  .union [modeAdvanceFrame]

theorem powerPendApply_keeps {W : Foot} {s0 s : State} (hW : powerPendApplyFoot.Le W) (h : Keeps W s0 s) :
    Keeps W s0 (powerPendApply s) := by
  unfold powerPendApply
  repeat' first
    | with_reducible assumption
    | with_reducible apply State.setAng_keeps
    | with_reducible apply modeRequest_keeps
    | with_reducible apply Keeps.ite
    | exact hW.trans (Foot.le_of (by decide +kernel))
    | split

theorem execUnloadRampReached_keeps {W : Foot} {s0 s : State} {n : Nat} (hW : execUnloadRampReachedFrame.Le W) (h : Keeps W s0 s) :
    KeepsOut W s0 (execUnloadRampReached n s) := by
  unfold execUnloadRampReached
  repeat' first
    | with_reducible assumption
    | with_reducible intro _
    | with_reducible apply afterNext_keeps
    | with_reducible apply modeAdvance_keeps
    | with_reducible apply unloadRampReached_keeps
    | exact hW.trans (Foot.le_of (by decide +kernel))

theorem execRetractDone_keeps {W : Foot} {s0 s : State} {n : Nat} {full : Nat} (hW : execRetractDoneFrame.Le W) (h : Keeps W s0 s) :
    KeepsOut W s0 (execRetractDone n full s) := by
  unfold execRetractDone
  repeat' first
    | with_reducible assumption
    | with_reducible intro _
    | with_reducible apply afterNext_keeps
    | with_reducible apply modeAdvance_keeps
    | with_reducible apply retractDone_keeps
    | exact hW.trans (Foot.le_of (by decide +kernel))

theorem execSettleRunMet_keeps {W : Foot} {s0 s : State} {n : Nat} (hW : execSettleRunMetFrame.Le W) (h : Keeps W s0 s) :
    KeepsOut W s0 (execSettleRunMet n s) := by
  unfold execSettleRunMet
  repeat' first
    | with_reducible assumption
    | with_reducible intro _
    | with_reducible apply afterNext_keeps
    | with_reducible apply modeAdvance_keeps
    | with_reducible apply settleRunMet_keeps
    | exact hW.trans (Foot.le_of (by decide +kernel))

theorem execReacquired_keeps {W : Foot} {s0 s : State} {n : Nat} {full : Nat} (hW : execReacquiredFrame.Le W) (h : Keeps W s0 s) :
    KeepsOut W s0 (execReacquired n full s) := by
  unfold execReacquired
  repeat' first
    | with_reducible assumption
    | with_reducible intro _
    | with_reducible apply afterNext_keeps
    | with_reducible apply modeAdvance_keeps
    | with_reducible apply reacquired_keeps
    | exact hW.trans (Foot.le_of (by decide +kernel))

theorem execZeroCrossing_keeps {W : Foot} {s0 s : State} {rpm : Nat} {period : Nat} {upset : Option Upset} (hW : execZeroCrossingFrame.Le W) (h : Keeps W s0 s) :
    KeepsOut W s0 (execZeroCrossing rpm period upset s) := by
  unfold execZeroCrossing
  repeat' first
    | with_reducible assumption
    | with_reducible intro _
    | with_reducible apply afterNext_keeps
    | with_reducible apply modeAdvance_keeps
    | with_reducible apply zeroCrossing_keeps
    | exact hW.trans (Foot.le_of (by decide +kernel))

theorem execSpindleBrakeDone_keeps {W : Foot} {s0 s : State} {rpm : Nat} (hW : execSpindleBrakeDoneFrame.Le W) (h : Keeps W s0 s) :
    KeepsOut W s0 (execSpindleBrakeDone rpm s) := by
  unfold execSpindleBrakeDone
  repeat' first
    | with_reducible assumption
    | with_reducible intro _
    | with_reducible apply afterNext_keeps
    | with_reducible apply modeAdvance_keeps
    | with_reducible apply spindleBrakeDone_keeps
    | exact hW.trans (Foot.le_of (by decide +kernel))

theorem execRungRetuneDone_keeps {W : Foot} {s0 s : State} (hW : execRungRetuneDoneFrame.Le W) (h : Keeps W s0 s) :
    KeepsOut W s0 (execRungRetuneDone s) := by
  unfold execRungRetuneDone
  repeat' first
    | with_reducible assumption
    | with_reducible apply KeepsOut.next
    | with_reducible apply KeepsOut.ite
    | with_reducible apply modeAdvance_keeps
    | with_reducible apply State.setSpn_keeps
    | with_reducible apply State.wr_keeps
    | with_reducible apply State.setAng_keeps
    | with_reducible apply powerPendApply_keeps
    | with_reducible apply rungFinish_keeps
    | exact hW.fld (by decide +kernel)
    | exact hW.trans (Foot.le_of (by decide +kernel))
    | exact Eq.refl true

end Sys2Proof.Machine
end

