-- ==== Sys2Proof/Laws/FootHostQueue.lean ====
section
/-!
SUPPORT. Footprints of the operations of Machine/HostQueue.lean: what each may change, and that it changes nothing else.
-/

namespace Sys2Proof.Machine

set_option Elab.async false

theorem execPcieLinkUp_keeps {W : Foot} {s0 s : State} {port : Nat} {width : Nat} {speed : Nat} (hW : execPcieLinkUpFrame.Le W) (h : Keeps W s0 s) :
    KeepsOut W s0 (execPcieLinkUp port width speed s) := by
  unfold execPcieLinkUp
  repeat' first
    | with_reducible assumption
    | with_reducible apply KeepsOut.next
    | with_reducible apply KeepsOut.ite
    | with_reducible apply linkSet_keeps
    | exact hW.trans (Foot.le_of (by decide +kernel))

theorem execPcieLaneFail_keeps {W : Foot} {s0 s : State} {lane : Nat} {int : Nat} (hW : execPcieLaneFailFrame.Le W) (h : Keeps W s0 s) :
    KeepsOut W s0 (execPcieLaneFail lane int s) := by
  unfold execPcieLaneFail
  repeat' first
    | with_reducible assumption
    | with_reducible apply KeepsOut.next
    | with_reducible apply KeepsOut.ite
    | with_reducible apply State.bump_keeps
    | with_reducible apply linkSet_keeps
    | with_reducible apply State.wr_keeps
    | with_reducible apply State.set_keeps
    | with_reducible apply containedInt_keeps
    | exact hW.fld (by decide +kernel)
    | exact hW.trans (Foot.le_of (by decide +kernel))
    | exact Eq.refl true

/-- What `badDoorbell` may change. -/
def badDoorbellFoot : Foot :=
  .union [cqReadyFrame]

theorem badDoorbell_keeps {W : Foot} {s0 s : State} {fn : Nat} {info : Nat} (hW : badDoorbellFoot.Le W) (h : Keeps W s0 s) :
    Keeps W s0 (badDoorbell s fn info) := by
  unfold badDoorbell
  repeat' first
    | with_reducible assumption
    | with_reducible apply aerPump_keeps
    | with_reducible apply asyncEvent_keeps
    | exact hW.trans (Foot.le_of (by decide +kernel))

theorem execSqTailDoorbell_keeps {W : Foot} {s0 s : State} {fn : Nat} {qid : Nat} {value : Nat} (hW : execSqTailDoorbellFrame.Le W) (h : Keeps W s0 s) :
    KeepsOut W s0 (execSqTailDoorbell fn qid value s) := by
  unfold execSqTailDoorbell
  repeat' first
    | with_reducible assumption
    | with_reducible apply KeepsOut.next
    | with_reducible apply KeepsOut.ite
    | with_reducible apply sqPut_keeps
    | with_reducible apply badDoorbell_keeps
    | exact hW.trans (Foot.le_of (by decide +kernel))
    | split

theorem execCqHeadDoorbell_keeps {W : Foot} {s0 s : State} {fn : Nat} {qid : Nat} {value : Nat} (hW : execCqHeadDoorbellFrame.Le W) (h : Keeps W s0 s) :
    KeepsOut W s0 (execCqHeadDoorbell fn qid value s) := by
  unfold execCqHeadDoorbell
  repeat' first
    | with_reducible assumption
    | with_reducible apply KeepsOut.next
    | with_reducible apply KeepsOut.ite
    | with_reducible apply cqPut_keeps
    | with_reducible apply cqDrain_keeps
    | with_reducible apply pendShow_keeps
    | with_reducible apply badDoorbell_keeps
    | exact hW.trans (Foot.le_of (by decide +kernel))
    | split

/-- What `mediaNeed` may change. -/
def mediaNeedFoot : Foot :=
  .union [modeAdvanceFrame]

theorem mediaNeed_keeps {W : Foot} {s0 s : State} {c : HostCmd} (hW : mediaNeedFoot.Le W) (h : Keeps W s0 s) :
    Keeps W s0 (mediaNeed s c) := by
  unfold mediaNeed
  repeat' first
    | with_reducible assumption
    | with_reducible apply State.setHst_keeps
    | with_reducible apply mediaWake_keeps
    | with_reducible apply rungSelect_keeps
    | with_reducible apply Keeps.ite
    | exact hW.trans (Foot.le_of (by decide +kernel))

/-- What `placeCommand` may change. -/
def placeCommandFoot : Foot :=
  .union [⟨[Reg.jnlSeqLoSeq, Reg.jnlSeqHiSeq, Reg.hstCounts2Commands], [], false⟩, modeAdvanceFrame]

theorem placeCommand_keeps {W : Foot} {s0 s : State} {c : HostCmd} (hW : placeCommandFoot.Le W) (h : Keeps W s0 s) :
    Keeps W s0 (placeCommand s c) := by
  unfold placeCommand
  repeat' first
    | with_reducible assumption
    | with_reducible apply intentWrite_keeps
    | with_reducible apply State.setHst_keeps
    | with_reducible apply pmuEvent_keeps
    | with_reducible apply zoneAdvance_keeps
    | with_reducible apply errorAdd_keeps
    | with_reducible apply cmdDone_keeps
    | with_reducible apply State.addWrap_keeps
    | with_reducible apply seqTake_keeps
    | with_reducible apply mediaNeed_keeps
    | with_reducible apply tagsShow_keeps
    | with_reducible apply Keeps.ite
    | exact hW.fld (by decide +kernel)
    | exact hW.trans (Foot.le_of (by decide +kernel))
    | exact Eq.refl true
    | split

/-- What `abortMatch` may change. -/
def abortMatchFoot : Foot :=
  .union [⟨[Reg.hstCounts0Aborted, Reg.hstCounts0NotAborted], [.bcm], false⟩, cqReadyFrame]

theorem abortMatch_keeps {W : Foot} {s0 s : State} {fn : Nat} {cid : Nat} {sqid : Nat} {target : Nat} (hW : abortMatchFoot.Le W) (h : Keeps W s0 s) :
    Keeps W s0 (abortMatch s fn cid sqid target) := by
  unfold abortMatch
  repeat' first
    | with_reducible assumption
    | with_reducible apply State.bump_keeps
    | with_reducible apply State.setBcm_keeps
    | with_reducible apply cmdFree_keeps
    | with_reducible apply cqReady_keeps
    | with_reducible apply Keeps.ite
    | exact hW.fld (by decide +kernel)
    | exact hW.trans (Foot.le_of (by decide +kernel))
    | exact Eq.refl true
    | split

theorem execAbort_keeps {W : Foot} {s0 s : State} {fn : Nat} {cid : Nat} {sqid : Nat} {target : Nat} (hW : execAbortFrame.Le W) (h : Keeps W s0 s) :
    KeepsOut W s0 (execAbort fn cid sqid target s) := by
  unfold execAbort
  repeat' first
    | with_reducible assumption
    | with_reducible apply KeepsOut.next
    | with_reducible apply KeepsOut.ite
    | with_reducible apply abortMatch_keeps
    | exact hW.trans (Foot.le_of (by decide +kernel))

/-- What `inboxPut` may change. -/
def inboxPutFoot : Foot :=
  .union [⟨[Reg.hstAdmProdIdx, Reg.hstIrqStatusAdmin], [.hst], false⟩, outcomeAtFrame]

theorem inboxPut_keeps {W : Foot} {s0 s : State} {fn : Nat} {sqe : List Byte} (hW : inboxPutFoot.Le W) (h : Keeps W s0 s) :
    Keeps W s0 (inboxPut s fn sqe) := by
  unfold inboxPut
  repeat' first
    | with_reducible assumption
    | with_reducible apply State.setHst_keeps
    | with_reducible apply State.store_keeps
    | with_reducible apply State.wr_keeps
    | with_reducible apply State.set_keeps
    | exact hW.fld (by decide +kernel)
    | exact hW.trans (Foot.le_of (by decide +kernel))
    | exact Eq.refl true

theorem execCommandFetch_keeps {W : Foot} {s0 s : State} {fn : Nat} {sqid : Nat} {tag : Nat} {hart : Nat} {sqe : List Byte} (hW : execCommandFetchFrame.Le W) (h : Keeps W s0 s) :
    KeepsOut W s0 (execCommandFetch fn sqid tag hart sqe s) := by
  unfold execCommandFetch
  repeat' first
    | with_reducible assumption
    | with_reducible apply KeepsOut.next
    | with_reducible apply KeepsOut.ite
    | with_reducible apply abortMatch_keeps
    | with_reducible apply sqPut_keeps
    | with_reducible apply placeCommand_keeps
    | with_reducible apply State.set_keeps
    | with_reducible apply inboxPut_keeps
    | with_reducible apply cqReady_keeps
    | exact hW.fld (by decide +kernel)
    | exact hW.trans (Foot.le_of (by decide +kernel))
    | exact Eq.refl true
    | split

theorem execCommandBegin_keeps {W : Foot} {s0 s : State} {tag : Nat} (hW : execCommandBeginFrame.Le W) (h : Keeps W s0 s) :
    KeepsOut W s0 (execCommandBegin tag s) := by
  unfold execCommandBegin
  repeat' first
    | with_reducible assumption
    | with_reducible apply KeepsOut.next
    | with_reducible apply KeepsOut.ite
    | with_reducible apply intentWrite_keeps
    | with_reducible apply setCmd_keeps
    | with_reducible apply writePump_keeps
    | exact hW.trans (Foot.le_of (by decide +kernel))
    | split

/-- What `latchFinish` may change. -/
def latchFinishFoot : Foot :=
  ⟨[Reg.pmuOvfOvf, Reg.pmuCntLoCount, Reg.pmuCntHiCount], [.hst], false⟩

theorem latchFinish_keeps {W : Foot} {s0 s : State} {lane : Nat} {l : Latch} (hW : latchFinishFoot.Le W) (h : Keeps W s0 s) :
    Keeps W s0 (latchFinish s lane l) := by
  unfold latchFinish
  repeat' first
    | with_reducible assumption
    | with_reducible apply State.setHst_keeps
    | with_reducible apply cqWrite_keeps
    | with_reducible apply Keeps.ite
    | exact hW.trans (Foot.le_of (by decide +kernel))
    | split

theorem execCompletionPost_keeps {W : Foot} {s0 s : State} {lane : Nat} {tag : Nat} (hW : execCompletionPostFrame.Le W) (h : Keeps W s0 s) :
    KeepsOut W s0 (execCompletionPost lane tag s) := by
  unfold execCompletionPost
  repeat' first
    | with_reducible assumption
    | with_reducible apply KeepsOut.next
    | with_reducible apply KeepsOut.ite
    | with_reducible apply State.setHst_keeps
    | with_reducible apply cmdFree_keeps
    | with_reducible apply latchFinish_keeps
    | with_reducible apply cqReady_keeps
    | with_reducible apply Keeps.ite
    | exact hW.trans (Foot.le_of (by decide +kernel))
    | split

theorem execAggregationTimeExpiry_keeps {W : Foot} {s0 s : State} {fn : Nat} {vector : Nat} (hW : execAggregationTimeExpiryFrame.Le W) (h : Keeps W s0 s) :
    KeepsOut W s0 (execAggregationTimeExpiry fn vector s) := by
  unfold execAggregationTimeExpiry
  repeat' first
    | with_reducible assumption
    | with_reducible apply KeepsOut.next
    | with_reducible apply KeepsOut.ite
    | with_reducible apply State.setHst_keeps
    | exact hW.trans (Foot.le_of (by decide +kernel))

/-- What `reexecute` may change. -/
def reexecuteFoot : Foot :=
  ⟨[], [.bcm, .hst], false⟩

theorem reexecute_keeps {W : Foot} {s0 s : State} {p : HostCmd → Bool} (hW : reexecuteFoot.Le W) (h : Keeps W s0 s) :
    Keeps W s0 (reexecute s p) := by
  unfold reexecute
  repeat' first
    | with_reducible assumption
    | with_reducible apply State.setHst_keeps
    | with_reducible apply State.setBcm_keeps
    | exact hW.trans (Foot.le_of (by decide +kernel))

theorem execFrontendRestart_keeps {W : Foot} {s0 s : State} {int : Nat} {again : Bool} (hW : execFrontendRestartFrame.Le W) (h : Keeps W s0 s) :
    KeepsOut W s0 (execFrontendRestart int again s) := by
  unfold execFrontendRestart
  repeat' first
    | with_reducible assumption
    | with_reducible intro _
    | with_reducible apply KeepsOut.next
    | with_reducible apply KeepsOut.ite
    | with_reducible apply deviceFatal_keeps
    | with_reducible apply Keeps.each
    | with_reducible apply reexecute_keeps
    | with_reducible apply containedInt_keeps
    | with_reducible apply latchFinish_keeps
    | with_reducible apply Keeps.ite
    | exact hW.trans (Foot.le_of (by decide +kernel))
    | split

theorem execAdminInboxConsume_keeps {W : Foot} {s0 s : State} {data : Word} (hW : execAdminInboxConsumeFrame.Le W) (h : Keeps W s0 s) :
    KeepsOut W s0 (execAdminInboxConsume data s) := by
  unfold execAdminInboxConsume
  repeat' first
    | with_reducible assumption
    | with_reducible apply KeepsOut.next
    | with_reducible apply State.answer_keeps
    | with_reducible apply State.wr_keeps
    | with_reducible apply corrected_keeps
    | with_reducible apply Keeps.ite
    | exact hW.fld (by decide +kernel)
    | exact hW.trans (Foot.le_of (by decide +kernel))
    | exact Eq.refl true

theorem execAdminCompletionGo_keeps {W : Foot} {s0 s : State} {data : Word} (hW : execAdminCompletionGoFrame.Le W) (h : Keeps W s0 s) :
    KeepsOut W s0 (execAdminCompletionGo data s) := by
  unfold execAdminCompletionGo
  repeat' first
    | with_reducible assumption
    | with_reducible apply KeepsOut.next
    | with_reducible apply KeepsOut.ite
    | with_reducible apply State.answer_keeps
    | with_reducible apply State.setHst_keeps
    | with_reducible apply State.wr_keeps
    | with_reducible apply cqReady_keeps
    | with_reducible apply Keeps.ite
    | exact hW.fld (by decide +kernel)
    | exact hW.trans (Foot.le_of (by decide +kernel))
    | exact Eq.refl true

end Sys2Proof.Machine
end

