-- ==== Sys2Proof/Laws/FootLedger.lean ====
section
/-!
SUPPORT. Footprints of the operations of Machine/Ledger.lean: what each may change, and that it changes nothing else.
-/

namespace Sys2Proof.Machine

set_option Elab.async false

/-- What `recPut` may change. -/
def recPutFoot : Foot :=
  .union [outcomeAtFrame]

theorem recPut_keeps {W : Foot} {s0 s : State} {a : Nat} {size : Nat} {l : List (Nat × Nat × Nat)} (hW : recPutFoot.Le W) (h : Keeps W s0 s) :
    Keeps W s0 (recPut s a size l) := by
  unfold recPut
  repeat' first
    | with_reducible assumption
    | with_reducible apply State.store_keeps
    | exact hW.trans (Foot.le_of (by decide +kernel))

/-- What `headStatePut` may change. -/
def headStatePutFoot : Foot :=
  .union [outcomeAtFrame]

theorem headStatePut_keeps {W : Foot} {s0 s : State} {head : Nat} {v : Nat} (hW : headStatePutFoot.Le W) (h : Keeps W s0 s) :
    Keeps W s0 (headStatePut s head v) := by
  unfold headStatePut
  repeat' first
    | with_reducible assumption
    | with_reducible intro _
    | with_reducible apply Keeps.each
    | with_reducible apply recPut_keeps
    | exact hW.trans (Foot.le_of (by decide +kernel))

/-- What `headRetireDone` may change. -/
def headRetireDoneFoot : Foot :=
  .union [⟨[Reg.simRetireMask, Reg.recStatusDropped, Reg.recStatusQueued, Reg.recIrqStatusDrop], [.recorder], false⟩,
    outcomeAtFrame]

theorem headRetireDone_keeps {W : Foot} {s0 s : State} {head : Nat} (hW : headRetireDoneFoot.Le W) (h : Keeps W s0 s) :
    Keeps W s0 (headRetireDone s head) := by
  unfold headRetireDone
  repeat' first
    | with_reducible assumption
    | with_reducible apply retireWrite_keeps
    | with_reducible apply headStatePut_keeps
    | with_reducible apply Keeps.ite
    | exact hW.trans (Foot.le_of (by decide +kernel))

end Sys2Proof.Machine
end

