-- ==== Sys2Proof/Laws/FootHostData.lean ====
section
/-!
SUPPORT. Footprints of the operations of Machine/HostData.lean: what each may change, and that it changes nothing else.
-/

namespace Sys2Proof.Machine

set_option Elab.async false

/-- What `twinIssue` may change. -/
def twinIssueFoot : Foot :=
  ⟨[Reg.jnlStatusTwinDegraded, Reg.jnlIrqStatusTwinDegraded], [.hst, .jnl], false⟩

theorem twinIssue_keeps {W : Foot} {s0 s : State} {c : HostCmd} (hW : twinIssueFoot.Le W) (h : Keeps W s0 s) :
    Keeps W s0 (twinIssue s c) := by
  unfold twinIssue
  repeat' first
    | with_reducible assumption
    | with_reducible apply setCmd_keeps
    | with_reducible apply State.setJnl_keeps
    | with_reducible apply twinDegraded_keeps
    | exact hW.trans (Foot.le_of (by decide +kernel))

/-- What `writeRoute` may change. -/
def writeRouteFoot : Foot :=
  ⟨[Reg.jnlStatusTwinDegraded, Reg.jnlIrqStatusTwinDegraded], [.hst, .jnl], false⟩

theorem writeRoute_keeps {W : Foot} {s0 s : State} {c : HostCmd} {direct : Bool} (hW : writeRouteFoot.Le W) (h : Keeps W s0 s) :
    Keeps W s0 (writeRoute s c direct) := by
  unfold writeRoute
  repeat' first
    | with_reducible assumption
    | with_reducible apply twinIssue_keeps
    | with_reducible apply setCmd_keeps
    | with_reducible apply twinDegraded_keeps
    | with_reducible apply Keeps.ite
    | exact hW.trans (Foot.le_of (by decide +kernel))

/-- What `stageData` may change. -/
def stageDataFoot : Foot :=
  .union [outcomeAtFrame]

theorem stageData_keeps {W : Foot} {s0 s : State} {c : HostCmd} {data : List Byte} {info : List Byte} (hW : stageDataFoot.Le W) (h : Keeps W s0 s) :
    Keeps W s0 (stageData s c data info) := by
  unfold stageData
  repeat' first
    | with_reducible assumption
    | with_reducible intro _
    | with_reducible apply Keeps.each
    | with_reducible apply stageSector_keeps
    | exact hW.trans (Foot.le_of (by decide +kernel))
    | split
    | dsimp only

/-- What `writeTake` may change. -/
def writeTakeFoot : Foot :=
  .union [⟨[Reg.jnlStatusTwinDegraded, Reg.jnlIrqStatusTwinDegraded, Reg.pmuOvfOvf, Reg.pmuCntLoCount,
    Reg.pmuCntHiCount], [.free, .bcm, .hst, .jnl], false⟩, outcomeAtFrame]

theorem writeTake_keeps {W : Foot} {s0 s : State} {c : HostCmd} {data : List Byte} {info : List Byte} (hW : writeTakeFoot.Le W) (h : Keeps W s0 s) :
    Keeps W s0 (writeTake s c data info) := by
  unfold writeTake
  repeat' first
    | with_reducible assumption
    | with_reducible apply stageData_keeps
    | with_reducible apply writeRoute_keeps
    | with_reducible apply pmuEvent_keeps
    | refine stageFrames_keeps ?_ ?_ _ (by assumption)
    | exact hW.trans (Foot.le_of (by decide +kernel))
    | split
    | dsimp only

/-- What `writeRun` may change. -/
def writeRunFoot : Foot :=
  .union [writeRunFrame]

theorem writeRun_keeps {W : Foot} {s0 s : State} {c : HostCmd} {ok : Bool} {data : List Byte} {info : List Byte} (hW : writeRunFoot.Le W) (h : Keeps W s0 s) :
    Keeps W s0 (writeRun s c ok data info) := by
  unfold writeRun
  repeat' first
    | with_reducible assumption
    | with_reducible apply writeTake_keeps
    | with_reducible apply cmdFail_keeps
    | with_reducible apply Keeps.ite
    | exact hW.trans (Foot.le_of (by decide +kernel))
    | split

theorem execWrite_keeps {W : Foot} {s0 s : State} {tag : Nat} {ok : Bool} {data : List Byte} {info : List Byte} (hW : execWriteFrame.Le W) (h : Keeps W s0 s) :
    KeepsOut W s0 (execWrite tag ok data info s) := by
  unfold execWrite
  repeat' first
    | with_reducible assumption
    | with_reducible apply KeepsOut.next
    | with_reducible apply writeRun_keeps
    | exact hW.trans (Foot.le_of (by decide +kernel))
    | split

theorem execZoneAppend_keeps {W : Foot} {s0 s : State} {tag : Nat} {ok : Bool} {data : List Byte} {info : List Byte} (hW : execZoneAppendFrame.Le W) (h : Keeps W s0 s) :
    KeepsOut W s0 (execZoneAppend tag ok data info s) := by
  unfold execZoneAppend
  repeat' first
    | with_reducible assumption
    | with_reducible apply KeepsOut.next
    | with_reducible apply writeRun_keeps
    | exact hW.trans (Foot.le_of (by decide +kernel))
    | split

theorem execWriteZeroes_keeps {W : Foot} {s0 s : State} {tag : Nat} (hW : execWriteZeroesFrame.Le W) (h : Keeps W s0 s) :
    KeepsOut W s0 (execWriteZeroes tag s) := by
  unfold execWriteZeroes
  repeat' first
    | with_reducible assumption
    | with_reducible apply KeepsOut.next
    | with_reducible apply writeTake_keeps
    | with_reducible apply Keeps.ite
    | exact hW.trans (Foot.le_of (by decide +kernel))
    | split

/-- What `readHit` may change. -/
def readHitFoot : Foot :=
  ⟨[Reg.bcmCounts0Hits, Reg.bcmCounts2Recalls, Reg.bcmCounts2Remaps, Reg.bcmDirtyLines, Reg.pmuOvfOvf,
    Reg.pmuCntLoCount, Reg.pmuCntHiCount], [.bcm], false⟩

theorem readHit_keeps {W : Foot} {s0 s : State} {ns : Nat} {lba : Nat} (hW : readHitFoot.Le W) (h : Keeps W s0 s) :
    Keeps W s0 (readHit s ns lba) := by
  unfold readHit
  repeat' first
    | with_reducible assumption
    | with_reducible apply pmuEvent_keeps
    | with_reducible apply lineHit_keeps
    | with_reducible apply State.addWrap_keeps
    | exact hW.fld (by decide +kernel)
    | exact hW.trans (Foot.le_of (by decide +kernel))
    | exact Eq.refl true
    | split

/-- What `readForget` may change. -/
def readForgetFoot : Foot :=
  ⟨[Reg.bcmDirtyLines], [.bcm], false⟩

theorem readForget_keeps {W : Foot} {s0 s : State} {ns : Nat} {lba : Nat} (hW : readForgetFoot.Le W) (h : Keeps W s0 s) :
    Keeps W s0 (readForget s ns lba) := by
  unfold readForget
  repeat' first
    | with_reducible assumption
    | with_reducible apply bcmPut_keeps
    | with_reducible apply Keeps.ite
    | exact hW.trans (Foot.le_of (by decide +kernel))
    | split

/-- What `readSector` may change. -/
def readSectorFoot : Foot :=
  .union [⟨[Reg.hstTagsInUse, Reg.hstTagHwmHwm, Reg.bcmCounts0Hits, Reg.bcmCounts2Recalls, Reg.bcmCounts2Remaps,
    Reg.bcmDirtyLines, Reg.pmuOvfOvf, Reg.pmuCntLoCount, Reg.pmuCntHiCount], [.bcm, .hst], false⟩, outcomeAtFrame]

theorem readSector_keeps {W : Foot} {s0 s : State} {tag : Nat} {lba : Nat} (hW : readSectorFoot.Le W) (h : Keeps W s0 s) :
    Keeps W s0 (readSector s tag lba) := by
  unfold readSector
  repeat' first
    | with_reducible assumption
    | with_reducible apply readForget_keeps
    | with_reducible apply State.setHst_keeps
    | with_reducible apply pmuEvent_keeps
    | with_reducible apply setCmd_keeps
    | with_reducible apply readHit_keeps
    | with_reducible apply cmdFail_keeps
    | with_reducible apply Keeps.ite
    | exact hW.trans (Foot.le_of (by decide +kernel))
    | split
    | dsimp only

/-- What `readMisses` may change. -/
def readMissesFoot : Foot :=
  .union [readMissesFrame]

theorem readMisses_keeps {W : Foot} {s0 s : State} {c : HostCmd} (hW : readMissesFoot.Le W) (h : Keeps W s0 s) :
    Keeps W s0 (readMisses s c) := by
  unfold readMisses
  repeat' first
    | with_reducible assumption
    | with_reducible intro _
    | with_reducible apply Keeps.each
    | with_reducible apply missPost_keeps
    | with_reducible apply Keeps.ite
    | exact hW.trans (Foot.le_of (by decide +kernel))

theorem execRead_keeps {W : Foot} {s0 s : State} {tag : Nat} {ok : Bool} (hW : execReadFrame.Le W) (h : Keeps W s0 s) :
    KeepsOut W s0 (execRead tag ok s) := by
  unfold execRead
  repeat' first
    | with_reducible assumption
    | with_reducible intro _
    | with_reducible apply KeepsOut.next
    | with_reducible apply KeepsOut.ite
    | with_reducible apply readMisses_keeps
    | with_reducible apply readSector_keeps
    | with_reducible apply State.setHst_keeps
    | with_reducible apply setCmd_keeps
    | with_reducible apply Keeps.each
    | with_reducible apply cmdDone_keeps
    | with_reducible apply readStream_keeps
    | with_reducible apply cmdFail_keeps
    | with_reducible apply Keeps.ite
    | exact hW.trans (Foot.le_of (by decide +kernel))
    | split
    | dsimp only

theorem execFlush_keeps {W : Foot} {s0 s : State} {tag : Nat} (hW : execFlushFrame.Le W) (h : Keeps W s0 s) :
    KeepsOut W s0 (execFlush tag s) := by
  unfold execFlush
  repeat' first
    | with_reducible assumption
    | with_reducible apply KeepsOut.next
    | with_reducible apply KeepsOut.ite
    | with_reducible apply cmdDone_keeps
    | exact hW.trans (Foot.le_of (by decide +kernel))
    | split

/-- What `zoneClose` may change. -/
def zoneCloseFoot : Foot :=
  ⟨[], [.hst], false⟩

theorem zoneClose_keeps {W : Foot} {s0 s : State} {ns : Nat} {z : Nat} (hW : zoneCloseFoot.Le W) (h : Keeps W s0 s) :
    Keeps W s0 (zoneClose s ns z).2 := by
  unfold zoneClose
  repeat' first
    | with_reducible assumption
    | with_reducible apply Keeps.snd_ite
    | with_reducible apply setZone_keeps
    | exact hW.trans (Foot.le_of (by decide +kernel))

/-- What `zoneFinish` may change. -/
def zoneFinishFoot : Foot :=
  ⟨[], [.hst], false⟩

theorem zoneFinish_keeps {W : Foot} {s0 s : State} {ns : Nat} {z : Nat} (hW : zoneFinishFoot.Le W) (h : Keeps W s0 s) :
    Keeps W s0 (zoneFinish s ns z).2 := by
  unfold zoneFinish
  repeat' first
    | with_reducible assumption
    | with_reducible apply Keeps.snd_ite
    | with_reducible apply setZone_keeps
    | exact hW.trans (Foot.le_of (by decide +kernel))
    | split

/-- What `zoneOpenSet` may change. -/
def zoneOpenSetFoot : Foot :=
  ⟨[], [.hst], false⟩

theorem zoneOpenSet_keeps {W : Foot} {s0 s : State} {ns : Nat} {z : Nat} (hW : zoneOpenSetFoot.Le W) (h : Keeps W s0 s) :
    Keeps W s0 (zoneOpenSet s ns z).2 := by
  unfold zoneOpenSet
  repeat' first
    | with_reducible assumption
    | with_reducible apply Keeps.snd_ite
    | with_reducible apply setZone_keeps
    | exact hW.trans (Foot.le_of (by decide +kernel))
    | split

/-- What `heldPlanApply` may change. -/
def heldPlanApplyFoot : Foot :=
  .union [⟨[], [.hst], false⟩, outcomeAtFrame]

theorem heldPlanApply_keeps {W : Foot} {s0 s : State} {ns : Nat} {z : Nat} (hW : heldPlanApplyFoot.Le W) (h : Keeps W s0 s) :
    Keeps W s0 (heldPlanApply s ns z) := by
  unfold heldPlanApply
  repeat' first
    | with_reducible assumption
    | with_reducible apply setZone_keeps
    | with_reducible apply zoneChanged_keeps
    | with_reducible apply State.store_keeps
    | with_reducible apply Keeps.ite
    | exact hW.trans (Foot.le_of (by decide +kernel))
    | split

/-- What `retiredZoneOffline` may change. -/
def retiredZoneOfflineFoot : Foot :=
  .union [⟨[Reg.simRetireMask, Reg.recStatusDropped, Reg.recStatusQueued, Reg.recIrqStatusDrop], [.recorder, .hst],
    false⟩, outcomeAtFrame]

theorem retiredZoneOffline_keeps {W : Foot} {s0 s : State} {ns : Nat} {z : Nat} (hW : retiredZoneOfflineFoot.Le W) (h : Keeps W s0 s) :
    Keeps W s0 (retiredZoneOffline s ns z) := by
  unfold retiredZoneOffline
  repeat' first
    | with_reducible assumption
    | with_reducible apply setZone_keeps
    | with_reducible apply headRetireDone_keeps
    | with_reducible apply zoneChanged_keeps
    | with_reducible apply Keeps.ite
    | exact hW.trans (Foot.le_of (by decide +kernel))
    | split

/-- What `zoneReset` may change. -/
def zoneResetFoot : Foot :=
  .union [⟨[Reg.simRetireMask, Reg.recStatusDropped, Reg.recStatusQueued, Reg.recIrqStatusDrop], [.recorder, .hst],
    false⟩, extentDropFrame, outcomeAtFrame]

theorem zoneReset_keeps {W : Foot} {s0 s : State} {ns : Nat} {z : Nat} (hW : zoneResetFoot.Le W) (h : Keeps W s0 s) :
    Keeps W s0 (zoneReset s ns z).2 := by
  unfold zoneReset
  repeat' first
    | with_reducible assumption
    | with_reducible apply Keeps.snd_ite
    | with_reducible apply heldPlanApply_keeps
    | with_reducible apply setZone_keeps
    | with_reducible apply retiredZoneOffline_keeps
    | with_reducible apply jnlZoneReset_keeps
    | exact hW.trans (Foot.le_of (by decide +kernel))

/-- What `zoneOffline` may change. -/
def zoneOfflineFoot : Foot :=
  ⟨[], [.hst], false⟩

theorem zoneOffline_keeps {W : Foot} {s0 s : State} {ns : Nat} {z : Nat} (hW : zoneOfflineFoot.Le W) (h : Keeps W s0 s) :
    Keeps W s0 (zoneOffline s ns z).2 := by
  unfold zoneOffline
  repeat' first
    | with_reducible assumption
    | with_reducible apply Keeps.snd_ite
    | with_reducible apply setZone_keeps
    | with_reducible apply zoneChanged_keeps
    | exact hW.trans (Foot.le_of (by decide +kernel))

/-- What `zoneAct` may change. -/
def zoneActFoot : Foot :=
  .union [⟨[Reg.hstTagsInUse, Reg.hstTagHwmHwm], [.hst], false⟩, outcomeAtFrame]

theorem zoneAct_keeps {W : Foot} {s0 s : State} {tag : Nat} {action : Nat} {states : Nat → Bool} {act : State → Nat → Nat → Option Nat × State} (hW : zoneActFoot.Le W) (h : Keeps W s0 s) (hact : ∀ a0 a1 a2, Keeps W s0 a0 → Keeps W s0 (act a0 a1 a2).2) :
    Keeps W s0 (zoneAct s tag action states act) := by
  unfold zoneAct
  repeat' first
    | with_reducible assumption
    | with_reducible intro _
    | with_reducible apply hact
    | with_reducible apply Keeps.each
    | with_reducible apply cmdDone_keeps
    | with_reducible apply Keeps.ite
    | exact hW.trans (Foot.le_of (by decide +kernel))
    | split

theorem execZoneClose_keeps {W : Foot} {s0 s : State} {tag : Nat} (hW : execZoneCloseFrame.Le W) (h : Keeps W s0 s) :
    KeepsOut W s0 (execZoneClose tag s) := by
  unfold execZoneClose
  repeat' first
    | with_reducible assumption
    | with_reducible intro _
    | with_reducible apply KeepsOut.next
    | with_reducible apply zoneClose_keeps
    | with_reducible apply zoneAct_keeps
    | exact hW.trans (Foot.le_of (by decide +kernel))

theorem execZoneFinish_keeps {W : Foot} {s0 s : State} {tag : Nat} (hW : execZoneFinishFrame.Le W) (h : Keeps W s0 s) :
    KeepsOut W s0 (execZoneFinish tag s) := by
  unfold execZoneFinish
  repeat' first
    | with_reducible assumption
    | with_reducible intro _
    | with_reducible apply KeepsOut.next
    | with_reducible apply KeepsOut.ite
    | with_reducible apply zoneFinish_keeps
    | with_reducible apply zoneAct_keeps
    | exact hW.trans (Foot.le_of (by decide +kernel))
    | split

theorem execZoneOpen_keeps {W : Foot} {s0 s : State} {tag : Nat} (hW : execZoneOpenFrame.Le W) (h : Keeps W s0 s) :
    KeepsOut W s0 (execZoneOpen tag s) := by
  unfold execZoneOpen
  repeat' first
    | with_reducible assumption
    | with_reducible intro _
    | with_reducible apply KeepsOut.next
    | with_reducible apply zoneAct_keeps
    | with_reducible apply zoneOpenSet_keeps
    | exact hW.trans (Foot.le_of (by decide +kernel))

theorem execZoneReset_keeps {W : Foot} {s0 s : State} {tag : Nat} (hW : execZoneResetFrame.Le W) (h : Keeps W s0 s) :
    KeepsOut W s0 (execZoneReset tag s) := by
  unfold execZoneReset
  repeat' first
    | with_reducible assumption
    | with_reducible intro _
    | with_reducible apply KeepsOut.next
    | with_reducible apply zoneReset_keeps
    | with_reducible apply zoneAct_keeps
    | exact hW.trans (Foot.le_of (by decide +kernel))

theorem execZoneOffline_keeps {W : Foot} {s0 s : State} {tag : Nat} (hW : execZoneOfflineFrame.Le W) (h : Keeps W s0 s) :
    KeepsOut W s0 (execZoneOffline tag s) := by
  unfold execZoneOffline
  repeat' first
    | with_reducible assumption
    | with_reducible intro _
    | with_reducible apply KeepsOut.next
    | with_reducible apply zoneOffline_keeps
    | with_reducible apply zoneAct_keeps
    | exact hW.trans (Foot.le_of (by decide +kernel))

theorem execSetZoneDescExt_keeps {W : Foot} {s0 s : State} {tag : Nat} (hW : execSetZoneDescExtFrame.Le W) (h : Keeps W s0 s) :
    KeepsOut W s0 (execSetZoneDescExt tag s) := by
  unfold execSetZoneDescExt
  repeat' first
    | with_reducible assumption
    | with_reducible apply KeepsOut.next
    | with_reducible apply cmdDone_keeps
    | with_reducible apply Keeps.ite
    | exact hW.trans (Foot.le_of (by decide +kernel))
    | split

theorem execReportZones_keeps {W : Foot} {s0 s : State} {tag : Nat} (hW : execReportZonesFrame.Le W) (h : Keeps W s0 s) :
    KeepsOut W s0 (execReportZones tag s) := by
  unfold execReportZones
  repeat' first
    | with_reducible assumption
    | with_reducible apply KeepsOut.next
    | with_reducible apply KeepsOut.ite
    | with_reducible apply State.setHst_keeps
    | with_reducible apply cmdDone_keeps
    | exact hW.trans (Foot.le_of (by decide +kernel))
    | split

theorem execExtendedReportZones_keeps {W : Foot} {s0 s : State} {tag : Nat} (hW : execExtendedReportZonesFrame.Le W) (h : Keeps W s0 s) :
    KeepsOut W s0 (execExtendedReportZones tag s) := by
  unfold execExtendedReportZones
  repeat' first
    | with_reducible assumption
    | with_reducible apply KeepsOut.next
    | with_reducible apply cmdDone_keeps
    | with_reducible apply Keeps.ite
    | exact hW.trans (Foot.le_of (by decide +kernel))
    | split

end Sys2Proof.Machine
end

