-- ==== Sys2Proof/Laws/FootHostAdmin.lean ====
section
/-!
SUPPORT. Footprints of the operations of Machine/HostAdmin.lean: what each may change, and that it changes nothing else.
-/

namespace Sys2Proof.Machine

set_option Elab.async false

/-- What `adminReply` may change. -/
def adminReplyFoot : Foot :=
  ⟨[], [.hst], false⟩

theorem adminReply_keeps {W : Foot} {s0 s : State} {fn : Nat} {status : Nat} {dw0 : Nat} {data : List Byte} (hW : adminReplyFoot.Le W) (h : Keeps W s0 s) :
    Keeps W s0 (adminReply s fn status dw0 data) := by
  unfold adminReply
  repeat' first
    | with_reducible assumption
    | with_reducible apply State.setHst_keeps
    | exact hW.trans (Foot.le_of (by decide +kernel))

/-- What `adminRun` may change. -/
def adminRunFoot : Foot :=
  ⟨[], [.hst], false⟩

theorem adminRun_keeps {W : Foot} {s0 s : State} {fn : Nat} {inSafe : Bool} {pfOnly : Bool} {run : Ctrl → State} (hW : adminRunFoot.Le W) (h : Keeps W s0 s) (hrun : ∀ a0, Keeps W s0 (run a0)) :
    Keeps W s0 (adminRun s fn inSafe pfOnly run) := by
  unfold adminRun
  repeat' first
    | with_reducible assumption
    | with_reducible apply hrun
    | with_reducible apply adminReply_keeps
    | with_reducible apply Keeps.ite
    | exact hW.trans (Foot.le_of (by decide +kernel))
    | split

/-- What `freeBytes` may change. -/
def freeBytesFoot : Foot :=
  ⟨[], [.free], false⟩

theorem freeBytes_keeps {W : Foot} {s0 s : State} {n : Nat} (hW : freeBytesFoot.Le W) (h : Keeps W s0 s) :
    Keeps W s0 (freeBytes s n).2 := by
  unfold freeBytes
  repeat' first
    | with_reducible assumption
    | with_reducible apply State.takeFree_keeps
    | exact hW.part (by decide +kernel)

theorem execCreateIoCq_keeps {W : Foot} {s0 s : State} {fn : Nat} {qid : Nat} {base : Nat} {entries : Nat} {vector : Nat} {ien : Bool} (hW : execCreateIoCqFrame.Le W) (h : Keeps W s0 s) :
    KeepsOut W s0 (execCreateIoCq fn qid base entries vector ien s) := by
  unfold execCreateIoCq
  repeat' first
    | with_reducible assumption
    | with_reducible intro _
    | with_reducible apply KeepsOut.next
    | with_reducible apply State.setHst_keeps
    | with_reducible apply adminReply_keeps
    | with_reducible apply adminRun_keeps
    | with_reducible apply Keeps.ite
    | exact hW.trans (Foot.le_of (by decide +kernel))

theorem execCreateIoSq_keeps {W : Foot} {s0 s : State} {fn : Nat} {qid : Nat} {base : Nat} {entries : Nat} {cq : Nat} {prio : Nat} (hW : execCreateIoSqFrame.Le W) (h : Keeps W s0 s) :
    KeepsOut W s0 (execCreateIoSq fn qid base entries cq prio s) := by
  unfold execCreateIoSq
  repeat' first
    | with_reducible assumption
    | with_reducible intro _
    | with_reducible apply KeepsOut.next
    | with_reducible apply State.setHst_keeps
    | with_reducible apply adminReply_keeps
    | with_reducible apply adminRun_keeps
    | with_reducible apply Keeps.ite
    | exact hW.trans (Foot.le_of (by decide +kernel))

/-- What `sqDrop` may change. -/
def sqDropFoot : Foot :=
  .union [⟨[Reg.hstTagsInUse, Reg.hstTagHwmHwm], [.bcm, .hst], false⟩, outcomeAtFrame]

theorem sqDrop_keeps {W : Foot} {s0 s : State} {fn : Nat} {qid : Nat} (hW : sqDropFoot.Le W) (h : Keeps W s0 s) :
    Keeps W s0 (sqDrop s fn qid) := by
  unfold sqDrop
  repeat' first
    | with_reducible assumption
    | with_reducible intro _
    | with_reducible apply State.setBcm_keeps
    | with_reducible apply Keeps.each
    | with_reducible apply cmdDone_keeps
    | exact hW.trans (Foot.le_of (by decide +kernel))

theorem execDeleteIoSq_keeps {W : Foot} {s0 s : State} {fn : Nat} {qid : Nat} (hW : execDeleteIoSqFrame.Le W) (h : Keeps W s0 s) :
    KeepsOut W s0 (execDeleteIoSq fn qid s) := by
  unfold execDeleteIoSq
  repeat' first
    | with_reducible assumption
    | with_reducible intro _
    | with_reducible apply KeepsOut.next
    | with_reducible apply sqPut_keeps
    | with_reducible apply sqDrop_keeps
    | with_reducible apply State.setHst_keeps
    | with_reducible apply adminReply_keeps
    | with_reducible apply adminRun_keeps
    | with_reducible apply Keeps.ite
    | exact hW.trans (Foot.le_of (by decide +kernel))
    | split

theorem execDeleteIoCq_keeps {W : Foot} {s0 s : State} {fn : Nat} {qid : Nat} (hW : execDeleteIoCqFrame.Le W) (h : Keeps W s0 s) :
    KeepsOut W s0 (execDeleteIoCq fn qid s) := by
  unfold execDeleteIoCq
  repeat' first
    | with_reducible assumption
    | with_reducible intro _
    | with_reducible apply KeepsOut.next
    | with_reducible apply State.setHst_keeps
    | with_reducible apply pendShow_keeps
    | with_reducible apply adminReply_keeps
    | with_reducible apply adminRun_keeps
    | with_reducible apply Keeps.ite
    | exact hW.trans (Foot.le_of (by decide +kernel))

theorem execAsynchronousEventRequest_keeps {W : Foot} {s0 s : State} {fn : Nat} {cid : Nat} (hW : execAsynchronousEventRequestFrame.Le W) (h : Keeps W s0 s) :
    KeepsOut W s0 (execAsynchronousEventRequest fn cid s) := by
  unfold execAsynchronousEventRequest
  repeat' first
    | with_reducible assumption
    | with_reducible intro _
    | with_reducible apply KeepsOut.next
    | with_reducible apply aerPump_keeps
    | with_reducible apply setCtrl_keeps
    | with_reducible apply adminReply_keeps
    | with_reducible apply adminRun_keeps
    | with_reducible apply Keeps.ite
    | exact hW.trans (Foot.le_of (by decide +kernel))

/-- What `deviceSet` may change. -/
def deviceSetFoot : Foot :=
  ⟨[], [.hst], false⟩

theorem deviceSet_keeps {W : Foot} {s0 s : State} {fn : Nat} {fid : Nat} {save : Bool} {run : State} (hW : deviceSetFoot.Le W) (h : Keeps W s0 s) (hrun : Keeps W s0 run) :
    Keeps W s0 (deviceSet s fn fid save run) := by
  unfold deviceSet
  repeat' first
    | with_reducible assumption
    | with_reducible intro _
    | with_reducible apply adminReply_keeps
    | with_reducible apply adminRun_keeps
    | with_reducible apply Keeps.ite
    | exact hW.trans (Foot.le_of (by decide +kernel))

/-- What `deviceStore` may change. -/
def deviceStoreFoot : Foot :=
  ⟨[], [.hst], false⟩

theorem deviceStore_keeps {W : Foot} {s0 s : State} {fid : Nat} {value : Nat} {save : Bool} (hW : deviceStoreFoot.Le W) (h : Keeps W s0 s) :
    Keeps W s0 (deviceStore s fid value save) := by
  unfold deviceStore
  repeat' first
    | with_reducible assumption
    | with_reducible apply State.setHst_keeps
    | with_reducible apply Keeps.ite
    | exact hW.trans (Foot.le_of (by decide +kernel))

theorem execSetFeaturesPowerMgmt_keeps {W : Foot} {s0 s : State} {fn : Nat} {ps : Nat} (hW : execSetFeaturesPowerMgmtFrame.Le W) (h : Keeps W s0 s) :
    KeepsOut W s0 (execSetFeaturesPowerMgmt fn ps s) := by
  unfold execSetFeaturesPowerMgmt
  repeat' first
    | with_reducible assumption
    | with_reducible apply KeepsOut.next
    | with_reducible apply deviceStore_keeps
    | with_reducible apply State.setHst_keeps
    | with_reducible apply deviceSet_keeps
    | with_reducible apply adminReply_keeps
    | with_reducible apply rungSelect_keeps
    | with_reducible apply modeRequest_keeps
    | with_reducible apply Keeps.ite
    | exact hW.trans (Foot.le_of (by decide +kernel))

theorem execSetFeaturesApst_keeps {W : Foot} {s0 s : State} {fn : Nat} {enable : Bool} {table : List Nat} {save : Bool} (hW : execSetFeaturesApstFrame.Le W) (h : Keeps W s0 s) :
    KeepsOut W s0 (execSetFeaturesApst fn enable table save s) := by
  unfold execSetFeaturesApst
  repeat' first
    | with_reducible assumption
    | with_reducible apply KeepsOut.next
    | with_reducible apply deviceStore_keeps
    | with_reducible apply State.setHst_keeps
    | with_reducible apply deviceSet_keeps
    | with_reducible apply adminReply_keeps
    | with_reducible apply Keeps.ite
    | exact hW.trans (Foot.le_of (by decide +kernel))

theorem execSetFeaturesHctm_keeps {W : Foot} {s0 s : State} {fn : Nat} {value : Nat} {save : Bool} (hW : execSetFeaturesHctmFrame.Le W) (h : Keeps W s0 s) :
    KeepsOut W s0 (execSetFeaturesHctm fn value save s) := by
  unfold execSetFeaturesHctm
  repeat' first
    | with_reducible assumption
    | with_reducible apply KeepsOut.next
    | with_reducible apply deviceStore_keeps
    | with_reducible apply deviceSet_keeps
    | with_reducible apply State.wr_keeps
    | with_reducible apply adminReply_keeps
    | with_reducible apply Keeps.ite
    | exact hW.fld (by decide +kernel)
    | exact hW.trans (Foot.le_of (by decide +kernel))
    | exact Eq.refl true

theorem execSetFeaturesTwin_keeps {W : Foot} {s0 s : State} {fn : Nat} {value : Nat} {save : Bool} (hW : execSetFeaturesTwinFrame.Le W) (h : Keeps W s0 s) :
    KeepsOut W s0 (execSetFeaturesTwin fn value save s) := by
  unfold execSetFeaturesTwin
  repeat' first
    | with_reducible assumption
    | with_reducible apply KeepsOut.next
    | with_reducible apply deviceStore_keeps
    | with_reducible apply deviceSet_keeps
    | with_reducible apply State.wr_keeps
    | with_reducible apply adminReply_keeps
    | exact hW.fld (by decide +kernel)
    | exact hW.trans (Foot.le_of (by decide +kernel))
    | exact Eq.refl true

theorem execSetFeaturesIdleCadence_keeps {W : Foot} {s0 s : State} {fn : Nat} {value : Nat} {save : Bool} (hW : execSetFeaturesIdleCadenceFrame.Le W) (h : Keeps W s0 s) :
    KeepsOut W s0 (execSetFeaturesIdleCadence fn value save s) := by
  unfold execSetFeaturesIdleCadence
  repeat' first
    | with_reducible assumption
    | with_reducible apply KeepsOut.next
    | with_reducible apply deviceStore_keeps
    | with_reducible apply deviceSet_keeps
    | with_reducible apply adminReply_keeps
    | exact hW.trans (Foot.le_of (by decide +kernel))

theorem execSetFeaturesNsMask_keeps {W : Foot} {s0 s : State} {fn : Nat} {value : Nat} (hW : execSetFeaturesNsMaskFrame.Le W) (h : Keeps W s0 s) :
    KeepsOut W s0 (execSetFeaturesNsMask fn value s) := by
  unfold execSetFeaturesNsMask
  repeat' first
    | with_reducible assumption
    | with_reducible intro _
    | with_reducible apply KeepsOut.next
    | with_reducible apply State.setHst_keeps
    | with_reducible apply adminReply_keeps
    | with_reducible apply adminRun_keeps
    | with_reducible apply Keeps.ite
    | exact hW.trans (Foot.le_of (by decide +kernel))

theorem execSetFeatures_keeps {W : Foot} {s0 s : State} {fn : Nat} {fid : Nat} {value : Nat} {save : Bool} (hW : execSetFeaturesFrame.Le W) (h : Keeps W s0 s) :
    KeepsOut W s0 (execSetFeatures fn fid value save s) := by
  unfold execSetFeatures
  repeat' first
    | with_reducible assumption
    | with_reducible intro _
    | with_reducible apply KeepsOut.next
    | with_reducible apply KeepsOut.ite
    | with_reducible apply setCtrl_keeps
    | with_reducible apply adminReply_keeps
    | with_reducible apply State.takeFree_keeps
    | with_reducible apply adminRun_keeps
    | with_reducible apply Keeps.ite
    | exact hW.trans (Foot.le_of (by decide +kernel))
    | exact hW.part (by decide +kernel)
    | split

/-- What `orFree` may change. -/
def orFreeFoot : Foot :=
  ⟨[], [.free], false⟩

theorem orFree_keeps {W : Foot} {s0 s : State} {v : Option Nat} (hW : orFreeFoot.Le W) (h : Keeps W s0 s) :
    Keeps W s0 (orFree s v).2 := by
  unfold orFree
  repeat' first
    | with_reducible assumption
    | with_reducible apply State.takeFree_keeps
    | exact hW.part (by decide +kernel)
    | split

/-- What `getFeatures` may change. -/
def getFeaturesFoot : Foot :=
  ⟨[], [.free, .hst], false⟩

theorem getFeatures_keeps {W : Foot} {s0 s : State} {c : Ctrl} {fid : Nat} {sel : Nat} {value : Nat} (hW : getFeaturesFoot.Le W) (h : Keeps W s0 s) :
    Keeps W s0 (getFeatures s c fid sel value) := by
  unfold getFeatures
  repeat' first
    | with_reducible assumption
    | with_reducible apply adminReply_keeps
    | with_reducible apply orFree_keeps
    | with_reducible apply Keeps.ite
    | exact hW.trans (Foot.le_of (by decide +kernel))

theorem execGetFeatures_keeps {W : Foot} {s0 s : State} {fn : Nat} {fid : Nat} {sel : Nat} {value : Nat} (hW : execGetFeaturesFrame.Le W) (h : Keeps W s0 s) :
    KeepsOut W s0 (execGetFeatures fn fid sel value s) := by
  unfold execGetFeatures
  repeat' first
    | with_reducible assumption
    | with_reducible intro _
    | with_reducible apply KeepsOut.next
    | with_reducible apply getFeatures_keeps
    | with_reducible apply adminRun_keeps
    | exact hW.trans (Foot.le_of (by decide +kernel))

/-- What `identify` may change. -/
def identifyFoot : Foot :=
  ⟨[], [.free, .hst], false⟩

theorem identify_keeps {W : Foot} {s0 s : State} {c : Ctrl} {cns : Nat} {ns : Nat} {csi : Nat} (hW : identifyFoot.Le W) (h : Keeps W s0 s) :
    Keeps W s0 (identify s c cns ns csi) := by
  unfold identify
  repeat' first
    | with_reducible assumption
    | with_reducible apply freeBytes_keeps
    | with_reducible apply adminReply_keeps
    | with_reducible apply Keeps.ite
    | exact hW.trans (Foot.le_of (by decide +kernel))

theorem execIdentify_keeps {W : Foot} {s0 s : State} {fn : Nat} {cns : Nat} {ns : Nat} {csi : Nat} (hW : execIdentifyFrame.Le W) (h : Keeps W s0 s) :
    KeepsOut W s0 (execIdentify fn cns ns csi s) := by
  unfold execIdentify
  repeat' first
    | with_reducible assumption
    | with_reducible intro _
    | with_reducible apply KeepsOut.next
    | with_reducible apply identify_keeps
    | with_reducible apply adminRun_keeps
    | exact hW.trans (Foot.le_of (by decide +kernel))

/-- What `nsErase` may change. -/
def nsEraseFoot : Foot :=
  .union [⟨[Reg.simRetireMask, Reg.recStatusDropped, Reg.recStatusQueued, Reg.recIrqStatusDrop, Reg.cryStatusSlots],
    [.recorder, .cry, .hst, .upd], false⟩, extentDropFrame, outcomeAtFrame]

theorem nsErase_keeps {W : Foot} {s0 s : State} {ns : Nat} {lbaf : Nat} {pi : Nat} {key : List Byte} (hW : nsEraseFoot.Le W) (h : Keeps W s0 s) :
    Keeps W s0 (nsErase s ns lbaf pi key) := by
  unfold nsErase
  repeat' first
    | with_reducible assumption
    | with_reducible intro _
    | with_reducible apply heldPlanApply_keeps
    | with_reducible apply keySet_keeps
    | with_reducible apply retiredZoneOffline_keeps
    | with_reducible apply bcmDirtyShow_keeps
    | with_reducible apply State.setHst_keeps
    | with_reducible apply State.setBcm_keeps
    | with_reducible apply State.setJnl_keeps
    | with_reducible apply Keeps.each
    | with_reducible apply extentDrop_keeps
    | with_reducible apply State.setUpd_keeps
    | with_reducible apply Keeps.ite
    | exact hW.trans (Foot.le_of (by decide +kernel))

theorem execFormatNvm_keeps {W : Foot} {s0 s : State} {fn : Nat} {ns : Nat} {lbaf : Nat} {pi : Nat} {ses : Nat} {key : List Byte} (hW : execFormatNvmFrame.Le W) (h : Keeps W s0 s) :
    KeepsOut W s0 (execFormatNvm fn ns lbaf pi ses key s) := by
  unfold execFormatNvm
  repeat' first
    | with_reducible assumption
    | with_reducible intro _
    | with_reducible apply KeepsOut.next
    | with_reducible apply State.setHst_keeps
    | with_reducible apply adminReply_keeps
    | with_reducible apply mediaWake_keeps
    | with_reducible apply nsErase_keeps
    | with_reducible apply adminRun_keeps
    | with_reducible apply Keeps.ite
    | exact hW.trans (Foot.le_of (by decide +kernel))
    | split

theorem execSanitize_keeps {W : Foot} {s0 s : State} {fn : Nat} {action : Nat} {keys : List (List Byte)} (hW : execSanitizeFrame.Le W) (h : Keeps W s0 s) :
    KeepsOut W s0 (execSanitize fn action keys s) := by
  unfold execSanitize
  repeat' first
    | with_reducible assumption
    | with_reducible intro _
    | with_reducible apply KeepsOut.next
    | with_reducible apply State.setHst_keeps
    | with_reducible apply adminReply_keeps
    | with_reducible apply Keeps.each
    | with_reducible apply mediaWake_keeps
    | with_reducible apply nsErase_keeps
    | with_reducible apply adminRun_keeps
    | with_reducible apply Keeps.ite
    | exact hW.trans (Foot.le_of (by decide +kernel))

theorem execIdleCadenceStep_keeps {W : Foot} {s0 s : State} {step : Nat} (hW : execIdleCadenceStepFrame.Le W) (h : Keeps W s0 s) :
    KeepsOut W s0 (execIdleCadenceStep step s) := by
  unfold execIdleCadenceStep
  repeat' first
    | with_reducible assumption
    | with_reducible apply KeepsOut.next
    | with_reducible apply KeepsOut.ite
    | with_reducible apply State.setHst_keeps
    | with_reducible apply rungSelect_keeps
    | exact hW.trans (Foot.le_of (by decide +kernel))

theorem execApstIdleExpiry_keeps {W : Foot} {s0 s : State} {idle : Nat} (hW : execApstIdleExpiryFrame.Le W) (h : Keeps W s0 s) :
    KeepsOut W s0 (execApstIdleExpiry idle s) := by
  unfold execApstIdleExpiry
  repeat' first
    | with_reducible assumption
    | with_reducible apply KeepsOut.next
    | with_reducible apply KeepsOut.ite
    | with_reducible apply modeRequest_keeps
    | exact hW.trans (Foot.le_of (by decide +kernel))

end Sys2Proof.Machine
end

