-- ==== Sys2Proof/Laws/FootAgeing.lean ====
section
/-!
SUPPORT. Footprints of the operations of Machine/Ageing.lean: what each may change, and that it changes nothing else.
-/

namespace Sys2Proof.Machine

set_option Elab.async false

/-- What `propShow` may change. -/
def propShowFoot : Foot :=
  ⟨[Reg.ageStatusPend], [], false⟩

theorem propShow_keeps {W : Foot} {s0 s : State} (hW : propShowFoot.Le W) (h : Keeps W s0 s) :
    Keeps W s0 (propShow s) := by
  unfold propShow
  repeat' first
    | with_reducible assumption
    | with_reducible apply State.wr_keeps
    | exact hW.fld (by decide +kernel)
    | exact Eq.refl true

/-- What `propWrite` may change. -/
def propWriteFoot : Foot :=
  .union [⟨[Reg.ageStatusPend, Reg.ageIrqStatusProposal, Reg.recStatusDropped, Reg.recStatusQueued,
    Reg.recIrqStatusDrop], [.recorder], false⟩, outcomeAtFrame]

theorem propWrite_keeps {W : Foot} {s0 s : State} {kind : Nat} {state : Nat} {head : Nat} {rb : Nat} {value : Nat} (hW : propWriteFoot.Le W) (h : Keeps W s0 s) :
    Keeps W s0 (propWrite s kind state head rb value) := by
  unfold propWrite
  repeat' first
    | with_reducible assumption
    | with_reducible apply State.set_keeps
    | with_reducible apply recPut_keeps
    | with_reducible apply record_keeps
    | with_reducible apply propShow_keeps
    | exact hW.fld (by decide +kernel)
    | exact hW.trans (Foot.le_of (by decide +kernel))
    | exact Eq.refl true
    | split

/-- What `assistApply` may change. -/
def assistApplyFoot : Foot :=
  .union [⟨[Reg.astStagedPend], [.ast], false⟩, outcomeAtFrame]

theorem assistApply_keeps {W : Foot} {s0 s : State} {h_ : Nat} {b : Nat} {ceil : Nat} (hW : assistApplyFoot.Le W) (h : Keeps W s0 s) :
    Keeps W s0 (assistApply s h_ b ceil) := by
  unfold assistApply
  repeat' first
    | with_reducible assumption
    | with_reducible apply stageTable_keeps
    | with_reducible apply recPut_keeps
    | with_reducible apply stageCeil_keeps
    | exact hW.trans (Foot.le_of (by decide +kernel))
    | split
    | dsimp only

/-- What `planBand` may change. -/
def planBandFoot : Foot :=
  .union [⟨[], [.hst], false⟩, outcomeAtFrame]

theorem planBand_keeps {W : Foot} {s0 s : State} {su : Nat} {region : Nat} {pt : Nat} {i : Nat} (hW : planBandFoot.Le W) (h : Keeps W s0 s) :
    Keeps W s0 (planBand s su region pt i) := by
  unfold planBand
  repeat' first
    | with_reducible assumption
    | with_reducible apply setZone_keeps
    | with_reducible apply zoneChanged_keeps
    | with_reducible apply State.store_keeps
    | with_reducible apply Keeps.ite
    | exact hW.trans (Foot.le_of (by decide +kernel))
    | split
    | dsimp only

/-- What `planApply` may change. -/
def planApplyFoot : Foot :=
  .union [⟨[Reg.ageIrqStatusPlan], [.hst], false⟩, outcomeAtFrame]

theorem planApply_keeps {W : Foot} {s0 s : State} {h_ : Nat} {region : Nat} {pt : Nat} (hW : planApplyFoot.Le W) (h : Keeps W s0 s) :
    Keeps W s0 (planApply s h_ region pt) := by
  unfold planApply
  repeat' first
    | with_reducible assumption
    | with_reducible intro _
    | with_reducible apply planBand_keeps
    | with_reducible apply State.set_keeps
    | with_reducible apply Keeps.each
    | with_reducible apply recPut_keeps
    | exact hW.fld (by decide +kernel)
    | exact hW.trans (Foot.le_of (by decide +kernel))
    | exact Eq.refl true

/-- What `retireSteps` may change. -/
def retireStepsFoot : Foot :=
  .union [⟨[Reg.simRetireMask, Reg.recStatusDropped, Reg.recStatusQueued, Reg.recIrqStatusDrop], [.recorder, .hst],
    false⟩, outcomeAtFrame]

theorem retireSteps_keeps {W : Foot} {s0 s : State} {h_ : Nat} (hW : retireStepsFoot.Le W) (h : Keeps W s0 s) :
    Keeps W s0 (retireSteps s h_) := by
  unfold retireSteps
  repeat' first
    | with_reducible assumption
    | with_reducible intro _
    | with_reducible apply setZone_keeps
    | with_reducible apply headRetireDone_keeps
    | with_reducible apply zoneChanged_keeps
    | with_reducible apply Keeps.each
    | with_reducible apply Keeps.ite
    | exact hW.trans (Foot.le_of (by decide +kernel))

/-- What `holdupSet` may change. -/
def holdupSetFoot : Foot :=
  ⟨[Reg.jnlStatusHoldupLow, Reg.ageStatusHoldupLow, Reg.ageIrqStatusHoldupLow, Reg.pwrStatusHoldupLow,
    Reg.pwrIrqStatusHoldupLow], [], false⟩

theorem holdupSet_keeps {W : Foot} {s0 s : State} {low : Bool} (hW : holdupSetFoot.Le W) (h : Keeps W s0 s) :
    Keeps W s0 (holdupSet s low) := by
  unfold holdupSet
  repeat' first
    | with_reducible assumption
    | with_reducible apply State.wr_keeps
    | with_reducible apply State.set_keeps
    | with_reducible apply Keeps.ite
    | exact hW.fld (by decide +kernel)
    | exact Eq.refl true

/-- What `cadenceApply` may change. -/
def cadenceApplyFoot : Foot :=
  .union [⟨[Reg.angRungCeilExceeded, Reg.angRungResult, Reg.angRungPhase, Reg.angRungPend, Reg.angRungPendTarget,
    Reg.angRungCeilAge, Reg.angRungCeiling, Reg.angRungTarget, Reg.angIrqStatusRungDone], [.ang], false⟩,
    outcomeAtFrame]

theorem cadenceApply_keeps {W : Foot} {s0 s : State} {v : Nat} (hW : cadenceApplyFoot.Le W) (h : Keeps W s0 s) :
    Keeps W s0 (cadenceApply s v) := by
  unfold cadenceApply
  repeat' first
    | with_reducible assumption
    | with_reducible apply State.wr_keeps
    | with_reducible apply recPut_keeps
    | with_reducible apply rungCeiling_keeps
    | with_reducible apply Keeps.ite
    | exact hW.fld (by decide +kernel)
    | exact hW.trans (Foot.le_of (by decide +kernel))
    | exact Eq.refl true

/-- What `vguardApply` may change. -/
def vguardApplyFoot : Foot :=
  .union [⟨[Reg.ageStatusVguardNext], [], false⟩, outcomeAtFrame]

theorem vguardApply_keeps {W : Foot} {s0 s : State} {v : Nat} (hW : vguardApplyFoot.Le W) (h : Keeps W s0 s) :
    Keeps W s0 (vguardApply s v) := by
  unfold vguardApply
  repeat' first
    | with_reducible assumption
    | with_reducible apply State.wr_keeps
    | with_reducible apply recPut_keeps
    | exact hW.fld (by decide +kernel)
    | exact hW.trans (Foot.le_of (by decide +kernel))
    | exact Eq.refl true

/-- What `ageEffect` may change. -/
def ageEffectFoot : Foot :=
  .union [ageEffectFrame]

theorem ageEffect_keeps {W : Foot} {s0 s : State} {kind : Nat} {head : Nat} {rb : Nat} {value : Nat} (hW : ageEffectFoot.Le W) (h : Keeps W s0 s) :
    Keeps W s0 (ageEffect s kind head rb value) := by
  unfold ageEffect
  repeat' first
    | with_reducible assumption
    | with_reducible apply assistApply_keeps
    | with_reducible apply retireSteps_keeps
    | with_reducible apply cadenceApply_keeps
    | with_reducible apply holdupSet_keeps
    | with_reducible apply vguardApply_keeps
    | with_reducible apply planApply_keeps
    | with_reducible apply Keeps.ite
    | exact hW.trans (Foot.le_of (by decide +kernel))

/-- What `ageAction` may change. -/
def ageActionFoot : Foot :=
  .union [⟨[Reg.ageStatusPend, Reg.ageIrqStatusRetire, Reg.ageIrqStatusProposal], [], false⟩, ageEffectFrame]

theorem ageAction_keeps {W : Foot} {s0 s : State} {kind : Nat} {head : Nat} {rb : Nat} {value : Nat} (hW : ageActionFoot.Le W) (h : Keeps W s0 s) :
    Keeps W s0 (ageAction s kind head rb value) := by
  unfold ageAction
  repeat' first
    | with_reducible assumption
    | with_reducible apply ageEffect_keeps
    | with_reducible apply State.set_keeps
    | with_reducible apply propWrite_keeps
    | with_reducible apply headStatePut_keeps
    | with_reducible apply Keeps.ite
    | exact hW.fld (by decide +kernel)
    | exact hW.trans (Foot.le_of (by decide +kernel))
    | exact Eq.refl true

/-- What `cellI99` may change. -/
def cellI99Foot : Foot :=
  ⟨[], [.free], false⟩

theorem cellI99_keeps {W : Foot} {s0 s : State} {h_ : Nat} {r : Nat} (hW : cellI99Foot.Le W) (h : Keeps W s0 s) :
    Keeps W s0 (cellI99 s h_ r).2 := by
  unfold cellI99
  repeat' first
    | with_reducible assumption
    | with_reducible apply Keeps.snd_ite
    | with_reducible apply State.takeFree_keeps
    | exact hW.part (by decide +kernel)

/-- What `cellMeasure` may change. -/
def cellMeasureFoot : Foot :=
  .union [⟨[], [.free, .age], false⟩, outcomeAtFrame]

theorem cellMeasure_keeps {W : Foot} {s0 s : State} {h_ : Nat} {r : Nat} (hW : cellMeasureFoot.Le W) (h : Keeps W s0 s) :
    Keeps W s0 (cellMeasure s h_ r) := by
  unfold cellMeasure
  repeat' first
    | with_reducible assumption
    | with_reducible apply State.setAge_keeps
    | with_reducible apply recPut_keeps
    | with_reducible apply cellI99_keeps
    | exact hW.trans (Foot.le_of (by decide +kernel))

/-- What `bandMeasure` may change. -/
def bandMeasureFoot : Foot :=
  .union [⟨[], [.age], false⟩, outcomeAtFrame]

theorem bandMeasure_keeps {W : Foot} {s0 s : State} {h_ : Nat} {b : Nat} {born : Bool} (hW : bandMeasureFoot.Le W) (h : Keeps W s0 s) :
    Keeps W s0 (bandMeasure s h_ b born) := by
  unfold bandMeasure
  repeat' first
    | with_reducible assumption
    | with_reducible apply State.setAge_keeps
    | with_reducible apply recPut_keeps
    | exact hW.trans (Foot.le_of (by decide +kernel))

/-- What `headMeasure` may change. -/
def headMeasureFoot : Foot :=
  .union [⟨[], [.free, .age], false⟩, outcomeAtFrame]

theorem headMeasure_keeps {W : Foot} {s0 s : State} {h_ : Nat} {reader : Nat} (hW : headMeasureFoot.Le W) (h : Keeps W s0 s) :
    Keeps W s0 (headMeasure s h_ reader) := by
  unfold headMeasure
  repeat' first
    | with_reducible assumption
    | with_reducible intro _
    | with_reducible apply bandMeasure_keeps
    | with_reducible apply cellMeasure_keeps
    | with_reducible apply Keeps.each
    | with_reducible apply recPut_keeps
    | with_reducible apply Keeps.ite
    | exact hW.trans (Foot.le_of (by decide +kernel))

/-- What `headActions` may change. -/
def headActionsFoot : Foot :=
  .union [⟨[Reg.ageStatusPend, Reg.ageIrqStatusRetire, Reg.ageIrqStatusProposal], [], false⟩, ageEffectFrame]

theorem headActions_keeps {W : Foot} {s0 s : State} {h_ : Nat} {ready : List Nat} (hW : headActionsFoot.Le W) (h : Keeps W s0 s) :
    Keeps W s0 (headActions s h_ ready) := by
  unfold headActions
  repeat' first
    | with_reducible assumption
    | with_reducible intro _
    | with_reducible apply ageAction_keeps
    | with_reducible apply Keeps.each
    | with_reducible apply recPut_keeps
    | with_reducible apply Keeps.ite
    | exact hW.trans (Foot.le_of (by decide +kernel))

/-- What `historyWrite` may change. -/
def historyWriteFoot : Foot :=
  .union [⟨[], [.age], false⟩, outcomeAtFrame]

theorem historyWrite_keeps {W : Foot} {s0 s : State} {h_ : Nat} (hW : historyWriteFoot.Le W) (h : Keeps W s0 s) :
    Keeps W s0 (historyWrite s h_) := by
  unfold historyWrite
  repeat' first
    | with_reducible assumption
    | with_reducible apply State.setAge_keeps
    | with_reducible apply recPut_keeps
    | exact hW.trans (Foot.le_of (by decide +kernel))

/-- What `siliconActions` may change. -/
def siliconActionsFoot : Foot :=
  .union [⟨[Reg.ageStatusPend, Reg.ageSiliconDriftPpm, Reg.ageIrqStatusRetire, Reg.ageIrqStatusProposal], [], false⟩,
    ageEffectFrame]

theorem siliconActions_keeps {W : Foot} {s0 s : State} (hW : siliconActionsFoot.Le W) (h : Keeps W s0 s) :
    Keeps W s0 (siliconActions s) := by
  unfold siliconActions
  repeat' first
    | with_reducible assumption
    | with_reducible apply ageAction_keeps
    | with_reducible apply State.wr_keeps
    | with_reducible apply Keeps.ite
    | exact hW.fld (by decide +kernel)
    | exact hW.trans (Foot.le_of (by decide +kernel))
    | exact Eq.refl true

/-- What `ageEvaluate` may change. -/
def ageEvaluateFoot : Foot :=
  .union [⟨[Reg.ageStatusPend, Reg.ageSiliconDriftPpm, Reg.ageEvalsCount, Reg.ageIrqStatusRetire,
    Reg.ageIrqStatusProposal, Reg.ageIrqStatusEvalDone], [.free, .age], false⟩, ageEffectFrame]

theorem ageEvaluate_keeps {W : Foot} {s0 s : State} {delay : Nat} {readers : List Nat} (hW : ageEvaluateFoot.Le W) (h : Keeps W s0 s) :
    Keeps W s0 (ageEvaluate s delay readers) := by
  unfold ageEvaluate
  repeat' first
    | with_reducible assumption
    | with_reducible intro _
    | with_reducible apply siliconActions_keeps
    | with_reducible apply State.setAge_keeps
    | with_reducible apply historyWrite_keeps
    | with_reducible apply State.store_keeps
    | with_reducible apply headActions_keeps
    | with_reducible apply State.set_keeps
    | with_reducible apply Keeps.each
    | with_reducible apply recPut_keeps
    | with_reducible apply State.addWrap_keeps
    | with_reducible apply headMeasure_keeps
    | with_reducible apply Keeps.ite
    | exact hW.fld (by decide +kernel)
    | exact hW.trans (Foot.le_of (by decide +kernel))
    | exact Eq.refl true

theorem execAgeEvalTimer_keeps {W : Foot} {s0 s : State} {delay : Nat} {readers : List Nat} (hW : execAgeEvalTimerFrame.Le W) (h : Keeps W s0 s) :
    KeepsOut W s0 (execAgeEvalTimer delay readers s) := by
  unfold execAgeEvalTimer
  repeat' first
    | with_reducible assumption
    | with_reducible apply KeepsOut.next
    | with_reducible apply ageEvaluate_keeps
    | with_reducible apply Keeps.ite
    | exact hW.trans (Foot.le_of (by decide +kernel))

theorem execEval_keeps {W : Foot} {s0 s : State} {delay : Nat} {readers : List Nat} (hW : execEvalFrame.Le W) (h : Keeps W s0 s) :
    KeepsOut W s0 (execEval delay readers s) := by
  unfold execEval
  repeat' first
    | with_reducible assumption
    | with_reducible apply KeepsOut.next
    | with_reducible apply State.answer_keeps
    | with_reducible apply ageEvaluate_keeps
    | exact hW.trans (Foot.le_of (by decide +kernel))

/-- What `propCommand` may change. -/
def propCommandFoot : Foot :=
  .union [⟨[Reg.ageModeExpertWrIgnored, Reg.ageStatusPend], [], false⟩, outcomeAtFrame]

theorem propCommand_keeps {W : Foot} {s0 s : State} {entry : Nat} {state : Nat} {run : State → State} (hW : propCommandFoot.Le W) (h : Keeps W s0 s) (hrun : ∀ a0, Keeps W s0 a0 → Keeps W s0 (run a0)) :
    Keeps W s0 (propCommand s entry state run) := by
  unfold propCommand
  repeat' first
    | with_reducible assumption
    | with_reducible apply hrun
    | with_reducible apply expertIgnored_keeps
    | with_reducible apply recPut_keeps
    | with_reducible apply propShow_keeps
    | with_reducible apply Keeps.ite
    | exact hW.fld (by decide +kernel)
    | exact hW.trans (Foot.le_of (by decide +kernel))
    | exact Eq.refl true

theorem execApply_keeps {W : Foot} {s0 s : State} {entry : Nat} (hW : execApplyFrame.Le W) (h : Keeps W s0 s) :
    KeepsOut W s0 (execApply entry s) := by
  unfold execApply
  repeat' first
    | with_reducible assumption
    | with_reducible intro _
    | with_reducible apply KeepsOut.next
    | with_reducible apply propCommand_keeps
    | with_reducible apply State.answer_keeps
    | with_reducible apply ageEffect_keeps
    | exact hW.trans (Foot.le_of (by decide +kernel))

theorem execDiscard_keeps {W : Foot} {s0 s : State} {entry : Nat} (hW : execDiscardFrame.Le W) (h : Keeps W s0 s) :
    KeepsOut W s0 (execDiscard entry s) := by
  unfold execDiscard
  repeat' first
    | with_reducible assumption
    | with_reducible intro _
    | with_reducible apply KeepsOut.next
    | with_reducible apply propCommand_keeps
    | with_reducible apply State.answer_keeps
    | exact hW.trans (Foot.le_of (by decide +kernel))

end Sys2Proof.Machine
end

