-- ==== Sys2Proof/Laws/FootCalib.lean ====
section
/-!
SUPPORT. Footprints of the operations of Machine/Calib.lean: what each may change, and that it changes nothing else.
-/

namespace Sys2Proof.Machine

set_option Elab.async false

/-- What `qidForm` may change. -/
def qidFormFoot : Foot :=
  ⟨[Reg.angSkewSkew, Reg.fltCounts0Corrected], [.cal], false⟩

theorem qidForm_keeps {W : Foot} {s0 s : State} {qid : Nat} (hW : qidFormFoot.Le W) (h : Keeps W s0 s) :
    Keeps W s0 (qidForm s qid) := by
  unfold qidForm
  repeat' first
    | with_reducible assumption
    | with_reducible apply State.wr_elem_keeps
    | with_reducible apply corrected_keeps
    | with_reducible apply State.setCal_keeps
    | with_reducible apply Keeps.ite
    | exact hW.fld (by decide +kernel)
    | exact hW.trans (Foot.le_of (by decide +kernel))

/-- What `groupForm` may change. -/
def groupFormFoot : Foot :=
  ⟨[Reg.angSkewSkew, Reg.fltCounts0Corrected], [.cal], false⟩

theorem groupForm_keeps {W : Foot} {s0 s : State} {g : Nat} (hW : groupFormFoot.Le W) (h : Keeps W s0 s) :
    Keeps W s0 (groupForm s g) := by
  unfold groupForm
  repeat' first
    | with_reducible assumption
    | with_reducible intro _
    | with_reducible apply Keeps.each
    | with_reducible apply qidForm_keeps
    | exact hW.trans (Foot.le_of (by decide +kernel))

theorem execCalOverlayApply_keeps {W : Foot} {s0 s : State} {group : Nat} (hW : execCalOverlayApplyFrame.Le W) (h : Keeps W s0 s) :
    KeepsOut W s0 (execCalOverlayApply group s) := by
  unfold execCalOverlayApply
  repeat' first
    | with_reducible assumption
    | with_reducible apply KeepsOut.next
    | with_reducible apply KeepsOut.ite
    | with_reducible apply State.wr_keeps
    | with_reducible apply State.set_keeps
    | with_reducible apply groupForm_keeps
    | with_reducible apply State.setCal_keeps
    | with_reducible apply Keeps.ite
    | exact hW.fld (by decide +kernel)
    | exact hW.trans (Foot.le_of (by decide +kernel))
    | exact Eq.refl true

theorem execCalOverlayWrite_keeps {W : Foot} {s0 s : State} {data : Word} (hW : execCalOverlayWriteFrame.Le W) (h : Keeps W s0 s) :
    KeepsOut W s0 (execCalOverlayWrite data s) := by
  unfold execCalOverlayWrite
  repeat' first
    | with_reducible assumption
    | with_reducible apply KeepsOut.next
    | with_reducible apply KeepsOut.ite
    | with_reducible apply State.answer_keeps
    | with_reducible apply State.wr_keeps
    | with_reducible apply State.setCal_keeps
    | exact hW.fld (by decide +kernel)
    | exact hW.trans (Foot.le_of (by decide +kernel))
    | exact Eq.refl true

/-- What `runStart` may change. -/
def runStartFoot : Foot :=
  ⟨[Reg.calStatusRunning], [.cal, .chan], false⟩

theorem runStart_keeps {W : Foot} {s0 s : State} {r : CalReq} (hW : runStartFoot.Le W) (h : Keeps W s0 s) :
    Keeps W s0 (runStart s r) := by
  unfold runStart
  repeat' first
    | with_reducible assumption
    | with_reducible apply State.setChan_keeps
    | with_reducible apply calEnter_keeps
    | with_reducible apply Keeps.ite
    | exact hW.trans (Foot.le_of (by decide +kernel))

/-- What `calPump` may change. -/
def calPumpFoot : Foot :=
  ⟨[Reg.calStatusRunning], [.cal, .chan], false⟩

theorem calPump_keeps {W : Foot} {s0 s : State} (hW : calPumpFoot.Le W) (h : Keeps W s0 s) :
    Keeps W s0 (calPump s) := by
  unfold calPump
  repeat' first
    | with_reducible assumption
    | with_reducible intro _
    | with_reducible apply runStart_keeps
    | with_reducible apply Keeps.each
    | with_reducible apply State.setCal_keeps
    | with_reducible apply Keeps.ite
    | exact hW.trans (Foot.le_of (by decide +kernel))

/-- What `calRequest` may change. -/
def calRequestFoot : Foot :=
  ⟨[Reg.calStatusRunning], [.cal, .chan], false⟩

theorem calRequest_keeps {W : Foot} {s0 s : State} {g : Nat} {inst : Nat} (hW : calRequestFoot.Le W) (h : Keeps W s0 s) :
    Keeps W s0 (calRequest s g inst) := by
  unfold calRequest
  repeat' first
    | with_reducible assumption
    | with_reducible apply calPump_keeps
    | with_reducible apply State.setCal_keeps
    | with_reducible apply Keeps.ite
    | exact hW.trans (Foot.le_of (by decide +kernel))

theorem execRun_keeps {W : Foot} {s0 s : State} {group : Nat} {inst : Nat} (hW : execRunFrame.Le W) (h : Keeps W s0 s) :
    KeepsOut W s0 (execRun group inst s) := by
  unfold execRun
  repeat' first
    | with_reducible assumption
    | with_reducible apply KeepsOut.next
    | with_reducible apply KeepsOut.ite
    | with_reducible apply State.answer_keeps
    | with_reducible apply State.wr_keeps
    | with_reducible apply calRequest_keeps
    | exact hW.fld (by decide +kernel)
    | exact hW.trans (Foot.le_of (by decide +kernel))
    | exact Eq.refl true

theorem execFactory_keeps {W : Foot} {s0 s : State} {group : Nat} (hW : execFactoryFrame.Le W) (h : Keeps W s0 s) :
    KeepsOut W s0 (execFactory group s) := by
  unfold execFactory
  repeat' first
    | with_reducible assumption
    | with_reducible apply KeepsOut.next
    | with_reducible apply KeepsOut.ite
    | with_reducible apply State.answer_keeps
    | with_reducible apply State.wr_keeps
    | with_reducible apply State.setCal_keeps
    | exact hW.fld (by decide +kernel)
    | exact hW.trans (Foot.le_of (by decide +kernel))
    | exact Eq.refl true

/-- What `runStore` may change. -/
def runStoreFoot : Foot :=
  ⟨[Reg.calStatusDue, Reg.calGrpStatTempLast], [.cal], false⟩

theorem runStore_keeps {W : Foot} {s0 s : State} {g : Nat} {inst : Nat} {l : List (Nat × Int)} (hW : runStoreFoot.Le W) (h : Keeps W s0 s) :
    Keeps W s0 (runStore s g inst l) := by
  unfold runStore
  repeat' first
    | with_reducible assumption
    | with_reducible apply State.wr_elem_keeps
    | with_reducible apply State.wr_keeps
    | with_reducible apply State.setCal_keeps
    | exact hW.fld (by decide +kernel)
    | exact hW.trans (Foot.le_of (by decide +kernel))
    | exact Eq.refl true

/-- What `runEnd` may change. -/
def runEndFoot : Foot :=
  .union [⟨[Reg.calStatusDue, Reg.calGrpStatTempLast], [], false⟩, calAbortedFrame]

theorem runEnd_keeps {W : Foot} {s0 s : State} {g : Nat} {inst : Nat} {outcome : Nat} {l : List (Nat × Int)} (hW : runEndFoot.Le W) (h : Keeps W s0 s) :
    Keeps W s0 (runEnd s g inst outcome l) := by
  unfold runEnd
  repeat' first
    | with_reducible assumption
    | with_reducible apply runStore_keeps
    | with_reducible apply calStamp_keeps
    | with_reducible apply Keeps.ite
    | exact hW.trans (Foot.le_of (by decide +kernel))

theorem execCalInternalRunEnd_keeps {W : Foot} {s0 s : State} {group : Nat} {values : List Int} {check : Bool} (hW : execCalInternalRunEndFrame.Le W) (h : Keeps W s0 s) :
    KeepsOut W s0 (execCalInternalRunEnd group values check s) := by
  unfold execCalInternalRunEnd
  repeat' first
    | with_reducible assumption
    | with_reducible apply KeepsOut.next
    | with_reducible apply calPump_keeps
    | with_reducible apply State.setChan_keeps
    | with_reducible apply runEnd_keeps
    | with_reducible apply Keeps.ite
    | exact hW.trans (Foot.le_of (by decide +kernel))
    | split

/-- What `dueSet` may change. -/
def dueSetFoot : Foot :=
  ⟨[Reg.calStatusDue, Reg.calIrqStatusDue], [], false⟩

theorem dueSet_keeps {W : Foot} {s0 s : State} {g : Nat} (hW : dueSetFoot.Le W) (h : Keeps W s0 s) :
    Keeps W s0 (dueSet s g) := by
  unfold dueSet
  repeat' first
    | with_reducible assumption
    | with_reducible apply State.wr_keeps
    | with_reducible apply State.set_keeps
    | with_reducible apply Keeps.ite
    | exact hW.fld (by decide +kernel)
    | exact Eq.refl true

/-- What `calTriggers` may change. -/
def calTriggersFoot : Foot :=
  ⟨[Reg.calStatusDue, Reg.calStatusRunning, Reg.calIrqStatusDue], [.cal, .chan], false⟩

theorem calTriggers_keeps {W : Foot} {s0 s : State} (hW : calTriggersFoot.Le W) (h : Keeps W s0 s) :
    Keeps W s0 (calTriggers s) := by
  unfold calTriggers
  repeat' first
    | with_reducible assumption
    | with_reducible intro _
    | with_reducible apply dueSet_keeps
    | with_reducible apply Keeps.each
    | with_reducible apply calRequest_keeps
    | with_reducible apply Keeps.ite
    | exact hW.trans (Foot.le_of (by decide +kernel))

theorem execXchkDetect_keeps {W : Foot} {s0 s : State} {src : Nat} {diff : Nat} (hW : execXchkDetectFrame.Le W) (h : Keeps W s0 s) :
    KeepsOut W s0 (execXchkDetect src diff s) := by
  unfold execXchkDetect
  repeat' first
    | with_reducible assumption
    | with_reducible apply KeepsOut.next
    | with_reducible apply KeepsOut.ite
    | with_reducible apply dueSet_keeps
    | with_reducible apply State.set_keeps
    | with_reducible apply record_keeps
    | exact hW.fld (by decide +kernel)
    | exact hW.trans (Foot.le_of (by decide +kernel))
    | exact Eq.refl true

theorem execPlankCal_keeps {W : Foot} {s0 s : State} {n : Nat} {full : Nat} (hW : execPlankCalFrame.Le W) (h : Keeps W s0 s) :
    KeepsOut W s0 (execPlankCal n full s) := by
  unfold execPlankCal
  repeat' first
    | with_reducible assumption
    | with_reducible apply KeepsOut.next
    | with_reducible apply calEnter_keeps
    | with_reducible apply bwkBegin_keeps
    | (apply Begin.notYet_keeps; assumption)
    | (apply Begin.ended_keeps; assumption)
    | (apply Begin.begun_keeps; assumption)
    | exact hW.trans (Foot.le_of (by decide +kernel))
    | split

/-- What `wwStage` may change. -/
def wwStageFoot : Foot :=
  ⟨[Reg.astStagedPend], [.free, .ast], false⟩

theorem wwStage_keeps {W : Foot} {s0 s : State} {n : Nat} {p : Plank} {inst : Nat} (hW : wwStageFoot.Le W) (h : Keeps W s0 s) :
    Keeps W s0 (wwStage s n p inst) := by
  unfold wwStage
  repeat' first
    | with_reducible assumption
    | with_reducible apply State.takeFree_keeps
    | with_reducible apply stageCeil_keeps
    | with_reducible apply Keeps.ite
    | exact hW.trans (Foot.le_of (by decide +kernel))
    | exact hW.part (by decide +kernel)
    | split

theorem execCalWindowClose_keeps {W : Foot} {s0 s : State} {n : Nat} {full : Nat} {values : List Int} {check : Bool} (hW : execCalWindowCloseFrame.Le W) (h : Keeps W s0 s) :
    KeepsOut W s0 (execCalWindowClose n full values check s) := by
  unfold execCalWindowClose
  repeat' first
    | with_reducible assumption
    | with_reducible apply KeepsOut.next
    | with_reducible apply KeepsOut.ite
    | with_reducible apply calPump_keeps
    | with_reducible apply State.wr_elem_keeps
    | with_reducible apply runEnd_keeps
    | with_reducible apply wwStage_keeps
    | with_reducible apply plankEnd_keeps
    | with_reducible apply Keeps.ite
    | exact hW.fld (by decide +kernel)
    | exact hW.trans (Foot.le_of (by decide +kernel))
    | split

end Sys2Proof.Machine
end

