-- ==== Sys2Proof/Laws/FootRecorder.lean ====
section
/-!
SUPPORT. Footprints of the operations of Machine/Recorder.lean: what each may change, and that it changes nothing else.
-/

namespace Sys2Proof.Machine

set_option Elab.async false

/-- What `recWrite` may change. -/
def recWriteFoot : Foot :=
  .union [⟨[Reg.recHeadSeqSeq, Reg.recIrqStatusSev], [], false⟩, outcomeAtFrame]

theorem recWrite_keeps {W : Foot} {s0 s : State} {p : RecPost} (hW : recWriteFoot.Le W) (h : Keeps W s0 s) :
    Keeps W s0 (recWrite s p) := by
  unfold recWrite
  repeat' first
    | with_reducible assumption
    | with_reducible apply State.store_keeps
    | with_reducible apply State.set_keeps
    | with_reducible apply State.addWrap_keeps
    | with_reducible apply Keeps.ite
    | exact hW.fld (by decide +kernel)
    | exact hW.trans (Foot.le_of (by decide +kernel))
    | exact Eq.refl true

theorem execRecordWrite_keeps {W : Foot} {s0 s : State} (hW : execRecordWriteFrame.Le W) (h : Keeps W s0 s) :
    KeepsOut W s0 (execRecordWrite s) := by
  unfold execRecordWrite
  repeat' first
    | with_reducible assumption
    | with_reducible apply KeepsOut.next
    | with_reducible apply KeepsOut.ite
    | with_reducible apply State.wr_keeps
    | with_reducible apply State.setRecorder_keeps
    | with_reducible apply recWrite_keeps
    | exact hW.fld (by decide +kernel)
    | exact hW.trans (Foot.le_of (by decide +kernel))
    | exact Eq.refl true
    | split

theorem execRecordPost_keeps {W : Foot} {s0 s : State} {source : Nat} {severity : Nat} {code : Nat} {payload : List Byte} {warden : Bool} (hW : execRecordPostFrame.Le W) (h : Keeps W s0 s) :
    KeepsOut W s0 (execRecordPost source severity code payload warden s) := by
  unfold execRecordPost
  repeat' first
    | with_reducible assumption
    | with_reducible apply KeepsOut.next
    | with_reducible apply recPost_keeps
    | with_reducible apply Keeps.ite
    | exact hW.trans (Foot.le_of (by decide +kernel))

theorem execRecPostGo_keeps {W : Foot} {s0 s : State} {m : Nat} {priv : Priv} {data : Word} (hW : execRecPostGoFrame.Le W) (h : Keeps W s0 s) :
    KeepsOut W s0 (execRecPostGo m priv data s) := by
  unfold execRecPostGo
  repeat' first
    | with_reducible assumption
    | with_reducible apply KeepsOut.next
    | with_reducible apply KeepsOut.ite
    | with_reducible apply recPost_keeps
    | with_reducible apply State.answer_keeps
    | with_reducible apply busError_keeps
    | exact hW.trans (Foot.le_of (by decide +kernel))

theorem execCounterWrap_keeps {W : Foot} {s0 s : State} {k : Nat} (hW : execCounterWrapFrame.Le W) (h : Keeps W s0 s) :
    KeepsOut W s0 (execCounterWrap k s) := by
  unfold execCounterWrap
  repeat' first
    | with_reducible assumption
    | with_reducible apply KeepsOut.next
    | with_reducible apply KeepsOut.ite
    | with_reducible apply State.wrPair_elem_keeps
    | with_reducible apply pmuOverflow_keeps
    | exact hW.fld (by decide +kernel)
    | exact hW.trans (Foot.le_of (by decide +kernel))

theorem execClrAll_keeps {W : Foot} {s0 s : State} {priv : Priv} {data : Word} (hW : execClrAllFrame.Le W) (h : Keeps W s0 s) :
    KeepsOut W s0 (execClrAll priv data s) := by
  unfold execClrAll
  repeat' first
    | with_reducible assumption
    | with_reducible intro _
    | with_reducible apply KeepsOut.next
    | with_reducible apply KeepsOut.ite
    | with_reducible apply State.answer_keeps
    | with_reducible apply busError_keeps
    | with_reducible apply State.wr_keeps
    | with_reducible apply State.wrPair_elem_keeps
    | with_reducible apply Keeps.each
    | with_reducible apply Keeps.ite
    | exact hW.fld (by decide +kernel)
    | exact hW.trans (Foot.le_of (by decide +kernel))
    | exact Eq.refl true

theorem execPmuCounterWrite_keeps {W : Foot} {s0 s : State} {m : Nat} {k : Nat} {priv : Priv} {data : Word} (hW : execPmuCounterWriteFrame.Le W) (h : Keeps W s0 s) :
    KeepsOut W s0 (execPmuCounterWrite m k priv data s) := by
  unfold execPmuCounterWrite
  repeat' first
    | with_reducible assumption
    | with_reducible apply KeepsOut.next
    | with_reducible apply KeepsOut.ite
    | with_reducible apply State.answer_keeps
    | with_reducible apply busError_keeps
    | with_reducible apply stageHalf_keeps
    | with_reducible apply State.wr_elem_keeps
    | exact hW.fld (by decide +kernel)
    | exact hW.trans (Foot.le_of (by decide +kernel))

end Sys2Proof.Machine
end

