-- ==== Sys2Proof/Laws/FootJournal.lean ====
section
/-!
SUPPORT. Footprints of the operations of Machine/Journal.lean: what each may change, and that it changes nothing else.
-/

namespace Sys2Proof.Machine

set_option Elab.async false

/-- What `jnlResult` may change. -/
def jnlResultFoot : Foot :=
  .union [ringAnswerFrame]

theorem jnlResult_keeps {W : Foot} {s0 s : State} {e : RingEntry} {status : Nat} (hW : jnlResultFoot.Le W) (h : Keeps W s0 s) :
    Keeps W s0 (jnlResult s e status) := by
  unfold jnlResult
  repeat' first
    | with_reducible assumption
    | with_reducible apply ringAnswer_keeps
    | exact hW.trans (Foot.le_of (by decide +kernel))

/-- What `jnlEntry` may change. -/
def jnlEntryFoot : Foot :=
  .union [ringAnswerFrame]

theorem jnlEntry_keeps {W : Foot} {s0 s : State} {op : Nat} {run : State → RingEntry → State} (hW : jnlEntryFoot.Le W) (h : Keeps W s0 s) (hrun : ∀ a0 a1, Keeps W s0 a0 → Keeps W s0 (run a0 a1)) :
    Keeps W s0 (jnlEntry s op run) := by
  unfold jnlEntry
  repeat' first
    | with_reducible assumption
    | with_reducible apply hrun
    | with_reducible apply jnlResult_keeps
    | with_reducible apply Keeps.ite
    | exact hW.trans (Foot.le_of (by decide +kernel))
    | split

theorem execRoute_keeps {W : Foot} {s0 s : State} (hW : execRouteFrame.Le W) (h : Keeps W s0 s) :
    KeepsOut W s0 (execRoute s) := by
  unfold execRoute
  repeat' first
    | with_reducible assumption
    | with_reducible intro _
    | with_reducible apply KeepsOut.next
    | with_reducible apply KeepsOut.ite
    | with_reducible apply jnlResult_keeps
    | with_reducible apply setCmd_keeps
    | with_reducible apply jnlEntry_keeps
    | with_reducible apply Keeps.ite
    | exact hW.trans (Foot.le_of (by decide +kernel))
    | split

/-- What `foldStart` may change. -/
def foldStartFoot : Foot :=
  ⟨[Reg.jnlStatusFold], [.jnl], false⟩

theorem foldStart_keeps {W : Foot} {s0 s : State} {e : Extent} (hW : foldStartFoot.Le W) (h : Keeps W s0 s) :
    Keeps W s0 (foldStart s e) := by
  unfold foldStart
  repeat' first
    | with_reducible assumption
    | with_reducible apply State.wr_keeps
    | with_reducible apply setExtent_keeps
    | with_reducible apply Keeps.ite
    | exact hW.fld (by decide +kernel)
    | exact hW.trans (Foot.le_of (by decide +kernel))
    | exact Eq.refl true

theorem execFold_keeps {W : Foot} {s0 s : State} (hW : execFoldFrame.Le W) (h : Keeps W s0 s) :
    KeepsOut W s0 (execFold s) := by
  unfold execFold
  repeat' first
    | with_reducible assumption
    | with_reducible intro _
    | with_reducible apply KeepsOut.next
    | with_reducible apply jnlResult_keeps
    | with_reducible apply jnlEntry_keeps
    | with_reducible apply foldStart_keeps
    | with_reducible apply Keeps.ite
    | exact hW.trans (Foot.le_of (by decide +kernel))
    | split

theorem execRelease_keeps {W : Foot} {s0 s : State} (hW : execReleaseFrame.Le W) (h : Keeps W s0 s) :
    KeepsOut W s0 (execRelease s) := by
  unfold execRelease
  repeat' first
    | with_reducible assumption
    | with_reducible intro _
    | with_reducible apply KeepsOut.next
    | with_reducible apply jnlResult_keeps
    | with_reducible apply jnlEntry_keeps
    | with_reducible apply extentDrop_keeps
    | with_reducible apply Keeps.ite
    | exact hW.trans (Foot.le_of (by decide +kernel))
    | split

theorem execTwinWaitExpiry_keeps {W : Foot} {s0 s : State} {tag : Nat} (hW : execTwinWaitExpiryFrame.Le W) (h : Keeps W s0 s) :
    KeepsOut W s0 (execTwinWaitExpiry tag s) := by
  unfold execTwinWaitExpiry
  repeat' first
    | with_reducible assumption
    | with_reducible apply KeepsOut.next
    | with_reducible apply KeepsOut.ite
    | with_reducible apply twinIssue_keeps
    | exact hW.trans (Foot.le_of (by decide +kernel))
    | split

theorem execFoldIdleStart_keeps {W : Foot} {s0 s : State} (hW : execFoldIdleStartFrame.Le W) (h : Keeps W s0 s) :
    KeepsOut W s0 (execFoldIdleStart s) := by
  unfold execFoldIdleStart
  repeat' first
    | with_reducible assumption
    | with_reducible intro _
    | with_reducible apply KeepsOut.next
    | with_reducible apply KeepsOut.ite
    | with_reducible apply State.wr_keeps
    | with_reducible apply State.set_keeps
    | with_reducible apply Keeps.each
    | with_reducible apply foldStart_keeps
    | with_reducible apply Keeps.ite
    | exact hW.fld (by decide +kernel)
    | exact hW.trans (Foot.le_of (by decide +kernel))
    | exact Eq.refl true

/-- What `bandTrim` may change. -/
def bandTrimFoot : Foot :=
  ⟨[Reg.oceAccK, Reg.oceAccJ, Reg.jnlReplayLogTrimmed, Reg.jnlReplayLogLost, Reg.jnlIrqStatusAckLoss], [.oce, .hst,
    .jnl], false⟩

theorem bandTrim_keeps {W : Foot} {s0 s : State} {r : BandRead} (hW : bandTrimFoot.Le W) (h : Keeps W s0 s) :
    Keeps W s0 (bandTrim s r) := by
  unfold bandTrim
  repeat' first
    | with_reducible assumption
    | with_reducible apply State.bump_keeps
    | with_reducible apply setZone_keeps
    | with_reducible apply State.addSat_keeps
    | with_reducible apply bandUpdate_keeps
    | with_reducible apply zoneChanged_keeps
    | with_reducible apply State.setJnl_keeps
    | with_reducible apply State.wr_elem_keeps
    | with_reducible apply State.set_keeps
    | with_reducible apply State.setOce_keeps
    | with_reducible apply Keeps.ite
    | exact hW.fld (by decide +kernel)
    | exact hW.trans (Foot.le_of (by decide +kernel))
    | exact Eq.refl true
    | split

/-- What `intentsFree` may change. -/
def intentsFreeFoot : Foot :=
  .union [outcomeAtFrame]

theorem intentsFree_keeps {W : Foot} {s0 s : State} (hW : intentsFreeFoot.Le W) (h : Keeps W s0 s) :
    Keeps W s0 (intentsFree s) := by
  unfold intentsFree
  repeat' first
    | with_reducible assumption
    | with_reducible intro _
    | with_reducible apply State.store_keeps
    | with_reducible apply Keeps.each
    | exact hW.trans (Foot.le_of (by decide +kernel))

theorem execJournalReplay_keeps {W : Foot} {s0 s : State} {reads : List BandRead} (hW : execJournalReplayFrame.Le W) (h : Keeps W s0 s) :
    KeepsOut W s0 (execJournalReplay reads s) := by
  unfold execJournalReplay
  repeat' first
    | with_reducible assumption
    | with_reducible intro _
    | with_reducible apply KeepsOut.next
    | with_reducible apply KeepsOut.ite
    | with_reducible apply deviceFatal_keeps
    | with_reducible apply State.addSat_keeps
    | with_reducible apply bandTrim_keeps
    | with_reducible apply State.setJnl_keeps
    | with_reducible apply occShow_keeps
    | with_reducible apply State.wr_keeps
    | with_reducible apply State.set_keeps
    | with_reducible apply Keeps.each
    | with_reducible apply setExtent_keeps
    | with_reducible apply setPeatRing_keeps
    | with_reducible apply intentsFree_keeps
    | exact hW.fld (by decide +kernel)
    | exact hW.trans (Foot.le_of (by decide +kernel))
    | exact Eq.refl true
    | split
    | dsimp only

end Sys2Proof.Machine
end

