-- ==== Sys2Proof/Laws/FootFaults.lean ====
section
/-!
SUPPORT. Footprints of the operations of Machine/Faults.lean: what each may change, and that it changes nothing else.
-/

namespace Sys2Proof.Machine

set_option Elab.async false

/-- What `tagsPass` may change. -/
def tagsPassFoot : Foot :=
  ⟨[], [.hst], false⟩

theorem tagsPass_keeps {W : Foot} {s0 s : State} {h_ : Nat} {to_ : List Nat} (hW : tagsPassFoot.Le W) (h : Keeps W s0 s) :
    Keeps W s0 (tagsPass s h_ to_) := by
  unfold tagsPass
  repeat' first
    | with_reducible assumption
    | with_reducible apply State.setHst_keeps
    | exact hW.trans (Foot.le_of (by decide +kernel))

/-- What `takeover` may change. -/
def takeoverFoot : Foot :=
  ⟨[Reg.sysCoreRelRun, Reg.fltCoreOnline, Reg.fltCoreHeld, Reg.fltCoreFaults, Reg.fltIrqStatusTakeover], [.flt, .bcm,
    .hst], false⟩

theorem takeover_keeps {W : Foot} {s0 s : State} {h_ : Nat} (hW : takeoverFoot.Le W) (h : Keeps W s0 s) :
    Keeps W s0 (takeover s h_) := by
  unfold takeover
  repeat' first
    | with_reducible assumption
    | with_reducible apply State.wr_keeps
    | with_reducible apply tagsPass_keeps
    | with_reducible apply State.set_keeps
    | with_reducible apply State.setFlt_keeps
    | with_reducible apply reexecute_keeps
    | with_reducible apply Keeps.ite
    | exact hW.fld (by decide +kernel)
    | exact hW.trans (Foot.le_of (by decide +kernel))
    | exact Eq.refl true

/-- What `coreFault` may change. -/
def coreFaultFoot : Foot :=
  .union [⟨[Reg.fltIntMax, Reg.fltIntLast, Reg.fltCoreOnline, Reg.fltCoreFaults, Reg.fltIrqStatusTakeover,
    Reg.fltIrqStatusIntDone], [], false⟩, unitFatalFrame]

theorem coreFault_keeps {W : Foot} {s0 s : State} {h_ : Nat} {int : Nat} (hW : coreFaultFoot.Le W) (h : Keeps W s0 s) :
    Keeps W s0 (coreFault s h_ int) := by
  unfold coreFault
  repeat' first
    | with_reducible assumption
    | with_reducible apply deviceFatal_keeps
    | with_reducible apply takeover_keeps
    | with_reducible apply unitFatal_keeps
    | with_reducible apply containedInt_keeps
    | with_reducible apply Keeps.ite
    | exact hW.trans (Foot.le_of (by decide +kernel))

theorem execHartWatchdogExpiry_keeps {W : Foot} {s0 s : State} {h_ : Nat} {int : Nat} (hW : execHartWatchdogExpiryFrame.Le W) (h : Keeps W s0 s) :
    KeepsOut W s0 (execHartWatchdogExpiry h_ int s) := by
  unfold execHartWatchdogExpiry
  repeat' first
    | with_reducible assumption
    | with_reducible apply KeepsOut.next
    | with_reducible apply coreFault_keeps
    | with_reducible apply Keeps.ite
    | exact hW.trans (Foot.le_of (by decide +kernel))

theorem execCoreFault_keeps {W : Foot} {s0 s : State} {h_ : Nat} {int : Nat} (hW : execCoreFaultFrame.Le W) (h : Keeps W s0 s) :
    KeepsOut W s0 (execCoreFault h_ int s) := by
  unfold execCoreFault
  repeat' first
    | with_reducible assumption
    | with_reducible apply KeepsOut.next
    | with_reducible apply coreFault_keeps
    | exact hW.trans (Foot.le_of (by decide +kernel))

theorem execCoreRejoin_keeps {W : Foot} {s0 s : State} {h_ : Nat} (hW : execCoreRejoinFrame.Le W) (h : Keeps W s0 s) :
    KeepsOut W s0 (execCoreRejoin h_ s) := by
  unfold execCoreRejoin
  repeat' first
    | with_reducible assumption
    | with_reducible apply KeepsOut.next
    | with_reducible apply KeepsOut.ite
    | with_reducible apply State.wr_keeps
    | with_reducible apply State.setFlt_keeps
    | exact hW.fld (by decide +kernel)
    | exact hW.trans (Foot.le_of (by decide +kernel))
    | exact Eq.refl true

theorem execFltCoreOnline_keeps {W : Foot} {s0 s : State} {h_ : Nat} {data : Word} (hW : execFltCoreOnlineFrame.Le W) (h : Keeps W s0 s) :
    KeepsOut W s0 (execFltCoreOnline h_ data s) := by
  unfold execFltCoreOnline
  repeat' first
    | with_reducible assumption
    | with_reducible apply KeepsOut.next
    | with_reducible apply State.answer_keeps
    | with_reducible apply State.wr_keeps
    | with_reducible apply Keeps.ite
    | exact hW.fld (by decide +kernel)
    | exact hW.trans (Foot.le_of (by decide +kernel))
    | exact Eq.refl true

theorem execFltWdogKick_keeps {W : Foot} {s0 s : State} {m : Nat} {n : Nat} {data : Word} (hW : execFltWdogKickFrame.Le W) (h : Keeps W s0 s) :
    KeepsOut W s0 (execFltWdogKick m n data s) := by
  unfold execFltWdogKick
  repeat' first
    | with_reducible assumption
    | with_reducible apply KeepsOut.next
    | with_reducible apply KeepsOut.ite
    | with_reducible apply State.answer_keeps
    | with_reducible apply State.wr_elem_keeps
    | with_reducible apply State.setFlt_keeps
    | exact hW.fld (by decide +kernel)
    | exact hW.trans (Foot.le_of (by decide +kernel))

/-- What `declare` may change. -/
def declareFoot : Foot :=
  ⟨[Reg.fltCounts0Corrected], [.resp], false⟩

theorem declare_keeps {W : Foot} {s0 s : State} {priv : Priv} {f : State → State} (hW : declareFoot.Le W) (h : Keeps W s0 s) (hf : ∀ a0, Keeps W s0 a0 → Keeps W s0 (f a0)) :
    KeepsOut W s0 (declare s priv f) := by
  unfold declare
  repeat' first
    | with_reducible assumption
    | with_reducible apply KeepsOut.next
    | with_reducible apply KeepsOut.ite
    | with_reducible apply hf
    | with_reducible apply State.answer_keeps
    | with_reducible apply busError_keeps
    | exact hW.trans (Foot.le_of (by decide +kernel))

theorem execFltDeclareContained_keeps {W : Foot} {s0 s : State} {m : Nat} {priv : Priv} {data : Word} (hW : execFltDeclareContainedFrame.Le W) (h : Keeps W s0 s) :
    KeepsOut W s0 (execFltDeclareContained m priv data s) := by
  unfold execFltDeclareContained
  repeat' first
    | with_reducible assumption
    | with_reducible intro _
    | with_reducible apply State.bump_keeps
    | with_reducible apply declare_keeps
    | with_reducible apply mcWrite_keeps
    | with_reducible apply Keeps.ite
    | exact hW.fld (by decide +kernel)
    | exact hW.trans (Foot.le_of (by decide +kernel))
    | exact Eq.refl true

theorem execFltDeclareDeviceFatal_keeps {W : Foot} {s0 s : State} {m : Nat} {priv : Priv} {data : Word} (hW : execFltDeclareDeviceFatalFrame.Le W) (h : Keeps W s0 s) :
    KeepsOut W s0 (execFltDeclareDeviceFatal m priv data s) := by
  unfold execFltDeclareDeviceFatal
  repeat' first
    | with_reducible assumption
    | with_reducible intro _
    | with_reducible apply deviceFatal_keeps
    | with_reducible apply declare_keeps
    | with_reducible apply Keeps.ite
    | exact hW.trans (Foot.le_of (by decide +kernel))

theorem execFltDeclareHart_keeps {W : Foot} {s0 s : State} {m : Nat} {priv : Priv} {data : Word} {int : Nat} (hW : execFltDeclareHartFrame.Le W) (h : Keeps W s0 s) :
    KeepsOut W s0 (execFltDeclareHart m priv data int s) := by
  unfold execFltDeclareHart
  repeat' first
    | with_reducible assumption
    | with_reducible intro _
    | with_reducible apply declare_keeps
    | with_reducible apply corrected_keeps
    | with_reducible apply coreFault_keeps
    | with_reducible apply Keeps.ite
    | exact hW.trans (Foot.le_of (by decide +kernel))

theorem execLockstepMismatch_keeps {W : Foot} {s0 s : State} (hW : execLockstepMismatchFrame.Le W) (h : Keeps W s0 s) :
    KeepsOut W s0 (execLockstepMismatch s) := by
  unfold execLockstepMismatch
  repeat' first
    | with_reducible assumption
    | with_reducible apply KeepsOut.next
    | with_reducible apply KeepsOut.ite
    | with_reducible apply State.wr_keeps
    | with_reducible apply State.setFlt_keeps
    | with_reducible apply safeStop_keeps
    | with_reducible apply retractLine_keeps
    | exact hW.fld (by decide +kernel)
    | exact hW.trans (Foot.le_of (by decide +kernel))
    | exact Eq.refl true

theorem execWardenRestartDone_keeps {W : Foot} {s0 s : State} (hW : execWardenRestartDoneFrame.Le W) (h : Keeps W s0 s) :
    KeepsOut W s0 (execWardenRestartDone s) := by
  unfold execWardenRestartDone
  repeat' first
    | with_reducible assumption
    | with_reducible apply KeepsOut.next
    | with_reducible apply KeepsOut.ite
    | with_reducible apply State.setFlt_keeps
    | with_reducible apply safeRecord_keeps
    | with_reducible apply Keeps.ite
    | exact hW.trans (Foot.le_of (by decide +kernel))

/-- What `safeParkDone` may change. -/
def safeParkDoneFoot : Foot :=
  .union [⟨[Reg.fltStatusSafePend], [.flt, .change], false⟩, bootEnterFrame]

theorem safeParkDone_keeps {W : Foot} {s0 s : State} (hW : safeParkDoneFoot.Le W) (h : Keeps W s0 s) :
    Keeps W s0 (safeParkDone s) := by
  unfold safeParkDone
  repeat' first
    | with_reducible assumption
    | with_reducible apply enterMode_keeps
    | with_reducible apply State.setFlt_keeps
    | with_reducible apply State.setChange_keeps
    | with_reducible apply State.clr_keeps
    | with_reducible apply Keeps.ite
    | exact hW.fld (by decide +kernel)
    | exact hW.trans (Foot.le_of (by decide +kernel))
    | exact Eq.refl true

end Sys2Proof.Machine
end

