-- ==== Sys2Proof/Laws/FootPower.lean ====
section
/-!
SUPPORT. Footprints of the operations of Machine/Power.lean: what each may change, and that it changes nothing else.
-/

namespace Sys2Proof.Machine

set_option Elab.async false

/-- What `supplyShow` may change. -/
def supplyShowFoot : Foot :=
  ⟨[Reg.pwrStatusVmOk, Reg.pwrStatusVlOk, Reg.pwrVinVmMv, Reg.pwrVinVlMv], [], false⟩

theorem supplyShow_keeps {W : Foot} {s0 s : State} {vm : Nat} {vl : Nat} (hW : supplyShowFoot.Le W) (h : Keeps W s0 s) :
    Keeps W s0 (supplyShow s vm vl) := by
  unfold supplyShow
  repeat' first
    | with_reducible assumption
    | with_reducible apply State.wr_keeps
    | exact hW.fld (by decide +kernel)
    | exact Eq.refl true

/-- What `lossBegin` may change. -/
def lossBeginFoot : Foot :=
  .union [lossBeginFrame]

theorem lossBegin_keeps {W : Foot} {s0 s : State} {cause : Nat} {vm : Nat} {vl : Nat} (hW : lossBeginFoot.Le W) (h : Keeps W s0 s) :
    Keeps W s0 (lossBegin s cause vm vl) := by
  unfold lossBegin
  repeat' first
    | with_reducible assumption
    | with_reducible apply State.bump_keeps
    | with_reducible apply rungPreempt_keeps
    | with_reducible apply supplyShow_keeps
    | with_reducible apply State.setHst_keeps
    | with_reducible apply mailboxNotice_keeps
    | with_reducible apply State.wr_keeps
    | with_reducible apply State.set_keeps
    | with_reducible apply State.setRst_keeps
    | with_reducible apply State.setChange_keeps
    | with_reducible apply State.setPwr_keeps
    | with_reducible apply Keeps.ite
    | exact hW.fld (by decide +kernel)
    | exact hW.trans (Foot.le_of (by decide +kernel))
    | exact Eq.refl true

theorem execPowerLossDetect_keeps {W : Foot} {s0 s : State} {vm : Nat} {vl : Nat} (hW : execPowerLossDetectFrame.Le W) (h : Keeps W s0 s) :
    KeepsOut W s0 (execPowerLossDetect vm vl s) := by
  unfold execPowerLossDetect
  repeat' first
    | with_reducible assumption
    | with_reducible apply KeepsOut.next
    | with_reducible apply KeepsOut.ite
    | with_reducible apply lossBegin_keeps
    | with_reducible apply State.takeFree_keeps
    | exact hW.trans (Foot.le_of (by decide +kernel))
    | exact hW.part (by decide +kernel)

theorem execLossSectorBoundary_keeps {W : Foot} {s0 s : State} (hW : execLossSectorBoundaryFrame.Le W) (h : Keeps W s0 s) :
    KeepsOut W s0 (execLossSectorBoundary s) := by
  unfold execLossSectorBoundary
  repeat' first
    | with_reducible assumption
    | with_reducible apply KeepsOut.next
    | with_reducible apply KeepsOut.ite
    | with_reducible apply bwkStopAll_keeps
    | with_reducible apply accSave_keeps
    | with_reducible apply hvRetractBoth_keeps
    | with_reducible apply State.setPwr_keeps
    | exact hW.trans (Foot.le_of (by decide +kernel))

theorem execLossCoreHold_keeps {W : Foot} {s0 s : State} (hW : execLossCoreHoldFrame.Le W) (h : Keeps W s0 s) :
    KeepsOut W s0 (execLossCoreHold s) := by
  unfold execLossCoreHold
  repeat' first
    | with_reducible assumption
    | with_reducible apply KeepsOut.next
    | with_reducible apply KeepsOut.ite
    | with_reducible apply jobsAbort_keeps
    | with_reducible apply State.wr_keeps
    | with_reducible apply State.setPwr_keeps
    | with_reducible apply State.clr_keeps
    | exact hW.fld (by decide +kernel)
    | exact hW.trans (Foot.le_of (by decide +kernel))
    | exact Eq.refl true

theorem execLastGaspRecord_keeps {W : Foot} {s0 s : State} {vhold : Nat} (hW : execLastGaspRecordFrame.Le W) (h : Keeps W s0 s) :
    KeepsOut W s0 (execLastGaspRecord vhold s) := by
  unfold execLastGaspRecord
  repeat' first
    | with_reducible assumption
    | with_reducible apply KeepsOut.next
    | with_reducible apply KeepsOut.ite
    | with_reducible apply linkSet_keeps
    | with_reducible apply State.wr_keeps
    | with_reducible apply State.setFlt_keeps
    | with_reducible apply recordFirst_keeps
    | with_reducible apply State.setAng_keeps
    | with_reducible apply State.setPwr_keeps
    | with_reducible apply Keeps.ite
    | exact hW.fld (by decide +kernel)
    | exact hW.trans (Foot.le_of (by decide +kernel))
    | exact Eq.refl true

theorem execVholdBelowVmin_keeps {W : Foot} {s0 s : State} {vhold : Nat} (hW : execVholdBelowVminFrame.Le W) (h : Keeps W s0 s) :
    KeepsOut W s0 (execVholdBelowVmin vhold s) := by
  unfold execVholdBelowVmin
  repeat' first
    | with_reducible assumption
    | with_reducible apply KeepsOut.next
    | with_reducible apply KeepsOut.ite
    | with_reducible apply State.wr_keeps
    | with_reducible apply State.setBoot_keeps
    | with_reducible apply State.setPwr_keeps
    | with_reducible apply State.clr_keeps
    | exact hW.fld (by decide +kernel)
    | exact hW.trans (Foot.le_of (by decide +kernel))
    | exact Eq.refl true

/-- What `holdupReady` may change. -/
def holdupReadyFoot : Foot :=
  ⟨[Reg.pwrStatusHoldupReady, Reg.pwrIrqStatusHoldupReady], [], false⟩

theorem holdupReady_keeps {W : Foot} {s0 s : State} (hW : holdupReadyFoot.Le W) (h : Keeps W s0 s) :
    Keeps W s0 (holdupReady s) := by
  unfold holdupReady
  repeat' first
    | with_reducible assumption
    | with_reducible apply State.set_keeps
    | with_reducible apply Keeps.ite
    | exact hW.fld (by decide +kernel)
    | exact Eq.refl true

theorem execHoldupTestDone_keeps {W : Foot} {s0 s : State} {rise : Nat} {step : Nat} {vhold : Nat} (hW : execHoldupTestDoneFrame.Le W) (h : Keeps W s0 s) :
    KeepsOut W s0 (execHoldupTestDone rise step vhold s) := by
  unfold execHoldupTestDone
  repeat' first
    | with_reducible assumption
    | with_reducible apply KeepsOut.next
    | with_reducible apply KeepsOut.ite
    | with_reducible apply ageAction_keeps
    | with_reducible apply modeAdvance_keeps
    | with_reducible apply State.wr_keeps
    | with_reducible apply recPut_keeps
    | with_reducible apply State.takeFree_keeps
    | with_reducible apply holdupReady_keeps
    | with_reducible apply State.setPwr_keeps
    | with_reducible apply State.clr_keeps
    | exact hW.fld (by decide +kernel)
    | exact hW.trans (Foot.le_of (by decide +kernel))
    | exact hW.part (by decide +kernel)
    | exact Eq.refl true
    | split

theorem execHoldupReadyTimeout_keeps {W : Foot} {s0 s : State} (hW : execHoldupReadyTimeoutFrame.Le W) (h : Keeps W s0 s) :
    KeepsOut W s0 (execHoldupReadyTimeout s) := by
  unfold execHoldupReadyTimeout
  repeat' first
    | with_reducible assumption
    | with_reducible apply KeepsOut.next
    | with_reducible apply KeepsOut.ite
    | with_reducible apply modeAdvance_keeps
    | with_reducible apply State.set_keeps
    | with_reducible apply holdupSet_keeps
    | with_reducible apply record_keeps
    | exact hW.fld (by decide +kernel)
    | exact hW.trans (Foot.le_of (by decide +kernel))
    | exact Eq.refl true

theorem execVmArrival_keeps {W : Foot} {s0 s : State} {vm : Nat} (hW : execVmArrivalFrame.Le W) (h : Keeps W s0 s) :
    KeepsOut W s0 (execVmArrival vm s) := by
  unfold execVmArrival
  repeat' first
    | with_reducible assumption
    | with_reducible apply KeepsOut.next
    | with_reducible apply KeepsOut.ite
    | with_reducible apply modeAdvance_keeps
    | with_reducible apply supplyShow_keeps
    | with_reducible apply State.wr_keeps
    | with_reducible apply State.set_keeps
    | with_reducible apply State.setPwr_keeps
    | exact hW.fld (by decide +kernel)
    | exact hW.trans (Foot.le_of (by decide +kernel))
    | exact Eq.refl true

theorem execRailOutOfRange_keeps {W : Foot} {s0 s : State} {rail : Nat} (hW : execRailOutOfRangeFrame.Le W) (h : Keeps W s0 s) :
    KeepsOut W s0 (execRailOutOfRange rail s) := by
  unfold execRailOutOfRange
  repeat' first
    | with_reducible assumption
    | with_reducible apply KeepsOut.next
    | with_reducible apply KeepsOut.ite
    | with_reducible apply State.wr_keeps
    | with_reducible apply State.set_keeps
    | exact hW.fld (by decide +kernel)
    | exact Eq.refl true

theorem execDykeLinkDown_keeps {W : Foot} {s0 s : State} (hW : execDykeLinkDownFrame.Le W) (h : Keeps W s0 s) :
    KeepsOut W s0 (execDykeLinkDown s) := by
  unfold execDykeLinkDown
  repeat' first
    | with_reducible assumption
    | with_reducible apply KeepsOut.next
    | with_reducible apply KeepsOut.ite
    | with_reducible apply State.bump_keeps
    | with_reducible apply State.set_keeps
    | with_reducible apply State.clr_keeps
    | exact hW.fld (by decide +kernel)
    | exact Eq.refl true

theorem execDykeLinkRetrained_keeps {W : Foot} {s0 s : State} (hW : execDykeLinkRetrainedFrame.Le W) (h : Keeps W s0 s) :
    KeepsOut W s0 (execDykeLinkRetrained s) := by
  unfold execDykeLinkRetrained
  repeat' first
    | with_reducible assumption
    | with_reducible intro _
    | with_reducible apply KeepsOut.next
    | with_reducible apply KeepsOut.ite
    | with_reducible apply srvRetracting__keeps
    | with_reducible apply State.set_keeps
    | with_reducible apply Keeps.each
    | with_reducible apply Keeps.ite
    | exact hW.fld (by decide +kernel)
    | exact hW.trans (Foot.le_of (by decide +kernel))
    | exact Eq.refl true

theorem execDykeSilenceRetract_keeps {W : Foot} {s0 s : State} (hW : execDykeSilenceRetractFrame.Le W) (h : Keeps W s0 s) :
    KeepsOut W s0 (execDykeSilenceRetract s) := by
  unfold execDykeSilenceRetract
  repeat' first
    | with_reducible assumption
    | with_reducible apply KeepsOut.next
    | with_reducible apply KeepsOut.ite
    | with_reducible apply hvRetractBoth_keeps
    | with_reducible apply hvFault_keeps
    | exact hW.trans (Foot.le_of (by decide +kernel))

theorem execHeartbeatLoss_keeps {W : Foot} {s0 s : State} (hW : execHeartbeatLossFrame.Le W) (h : Keeps W s0 s) :
    KeepsOut W s0 (execHeartbeatLoss s) := by
  unfold execHeartbeatLoss
  repeat' first
    | with_reducible assumption
    | with_reducible apply KeepsOut.next
    | with_reducible apply hvRetractBoth_keeps
    | with_reducible apply hvFault_keeps
    | with_reducible apply State.clr_keeps
    | exact hW.fld (by decide +kernel)
    | exact hW.trans (Foot.le_of (by decide +kernel))
    | exact Eq.refl true

theorem execHvFaultAssert_keeps {W : Foot} {s0 s : State} {cause : Nat} (hW : execHvFaultAssertFrame.Le W) (h : Keeps W s0 s) :
    KeepsOut W s0 (execHvFaultAssert cause s) := by
  unfold execHvFaultAssert
  repeat' first
    | with_reducible assumption
    | with_reducible apply KeepsOut.next
    | with_reducible apply hvFault_keeps
    | exact hW.trans (Foot.le_of (by decide +kernel))

theorem execHvbCtlRetract_keeps {W : Foot} {s0 s : State} {priv : Priv} {data : Word} (hW : execHvbCtlRetractFrame.Le W) (h : Keeps W s0 s) :
    KeepsOut W s0 (execHvbCtlRetract priv data s) := by
  unfold execHvbCtlRetract
  repeat' first
    | with_reducible assumption
    | with_reducible apply KeepsOut.next
    | with_reducible apply KeepsOut.ite
    | with_reducible apply State.answer_keeps
    | with_reducible apply busError_keeps
    | with_reducible apply State.set_keeps
    | with_reducible apply retractLine_keeps
    | with_reducible apply Keeps.ite
    | exact hW.fld (by decide +kernel)
    | exact hW.trans (Foot.le_of (by decide +kernel))
    | exact Eq.refl true

end Sys2Proof.Machine
end

