-- ==== Sys2Proof/Laws/FootThermal.lean ====
section
/-!
SUPPORT. Footprints of the operations of Machine/Thermal.lean: what each may change, and that it changes nothing else.
-/

namespace Sys2Proof.Machine

set_option Elab.async false

/-- What `riseStep` may change. -/
def riseStepFoot : Foot :=
  ⟨[Reg.thmStatusRise, Reg.thmIrqStatusRise], [.thm], false⟩

theorem riseStep_keeps {W : Foot} {s0 s : State} {g : Nat} {ms : Nat} {t : Int} (hW : riseStepFoot.Le W) (h : Keeps W s0 s) :
    Keeps W s0 (riseStep s g ms t) := by
  unfold riseStep
  repeat' first
    | with_reducible assumption
    | with_reducible apply State.setThm_keeps
    | with_reducible apply State.wr_keeps
    | with_reducible apply State.set_keeps
    | with_reducible apply Keeps.ite
    | exact hW.fld (by decide +kernel)
    | exact hW.trans (Foot.le_of (by decide +kernel))
    | exact Eq.refl true
    | split
    | dsimp only

/-- What `groupStep` may change. -/
def groupStepFoot : Foot :=
  ⟨[Reg.thmStatusRise, Reg.thmStatusFast, Reg.thmStatusLevel, Reg.thmIrqStatusRise, Reg.thmIrqStatusLevel], [.thm],
    false⟩

theorem groupStep_keeps {W : Foot} {s0 s : State} {ms : Nat} {g : Nat} (hW : groupStepFoot.Le W) (h : Keeps W s0 s) :
    Keeps W s0 (groupStep s ms g) := by
  unfold groupStep
  repeat' first
    | with_reducible assumption
    | with_reducible apply State.wr_keeps
    | with_reducible apply State.set_keeps
    | with_reducible apply riseStep_keeps
    | with_reducible apply Keeps.ite
    | exact hW.fld (by decide +kernel)
    | exact hW.trans (Foot.le_of (by decide +kernel))
    | exact Eq.refl true
    | split

/-- What `tempEvent` may change. -/
def tempEventFoot : Foot :=
  .union [cqReadyFrame]

theorem tempEvent_keeps {W : Foot} {s0 s : State} {fn : Nat} (hW : tempEventFoot.Le W) (h : Keeps W s0 s) :
    Keeps W s0 (tempEvent s fn) := by
  unfold tempEvent
  repeat' first
    | with_reducible assumption
    | with_reducible apply aerPump_keeps
    | with_reducible apply asyncEvent_keeps
    | with_reducible apply Keeps.ite
    | exact hW.trans (Foot.le_of (by decide +kernel))

/-- What `threshStep` may change. -/
def threshStepFoot : Foot :=
  .union [⟨[Reg.thmIrqStatusThresh], [.thm], false⟩, cqReadyFrame]

theorem threshStep_keeps {W : Foot} {s0 s : State} (hW : threshStepFoot.Le W) (h : Keeps W s0 s) :
    Keeps W s0 (threshStep s) := by
  unfold threshStep
  repeat' first
    | with_reducible assumption
    | with_reducible intro _
    | with_reducible apply State.setThm_keeps
    | with_reducible apply tempEvent_keeps
    | with_reducible apply State.set_keeps
    | with_reducible apply Keeps.each
    | with_reducible apply Keeps.ite
    | exact hW.fld (by decide +kernel)
    | exact hW.trans (Foot.le_of (by decide +kernel))
    | exact Eq.refl true

/-- What `ceilThm` may change. -/
def ceilThmFoot : Foot :=
  ⟨[Reg.angRungCeilExceeded, Reg.angRungResult, Reg.angRungPhase, Reg.angRungPend, Reg.angRungPendTarget,
    Reg.angRungCeilThm, Reg.angRungCeiling, Reg.angRungTarget, Reg.angIrqStatusRungDone], [.ang], false⟩

theorem ceilThm_keeps {W : Foot} {s0 s : State} {v : Nat} (hW : ceilThmFoot.Le W) (h : Keeps W s0 s) :
    Keeps W s0 (ceilThm s v) := by
  unfold ceilThm
  repeat' first
    | with_reducible assumption
    | with_reducible apply State.wr_keeps
    | with_reducible apply rungCeiling_keeps
    | with_reducible apply Keeps.ite
    | exact hW.fld (by decide +kernel)
    | exact hW.trans (Foot.le_of (by decide +kernel))
    | exact Eq.refl true

/-- What `sluiceSet` may change. -/
def sluiceSetFoot : Foot :=
  .union [sluiceSetFrame]

theorem sluiceSet_keeps {W : Foot} {s0 s : State} {state : Nat} {step : Nat} (hW : sluiceSetFoot.Le W) (h : Keeps W s0 s) :
    Keeps W s0 (sluiceSet s state step) := by
  unfold sluiceSet
  repeat' first
    | with_reducible assumption
    | with_reducible apply State.bump_keeps
    | with_reducible apply mailboxNotice_keeps
    | with_reducible apply State.wr_keeps
    | with_reducible apply State.set_keeps
    | with_reducible apply ceilThm_keeps
    | with_reducible apply Keeps.ite
    | exact hW.fld (by decide +kernel)
    | exact hW.trans (Foot.le_of (by decide +kernel))
    | exact Eq.refl true

/-- What `stepDue` may change. -/
def stepDueFoot : Foot :=
  ⟨[Reg.thmStatusStepDue, Reg.thmIrqStatusStepDue], [], false⟩

theorem stepDue_keeps {W : Foot} {s0 s : State} (hW : stepDueFoot.Le W) (h : Keeps W s0 s) :
    Keeps W s0 (stepDue s) := by
  unfold stepDue
  repeat' first
    | with_reducible assumption
    | with_reducible apply State.set_keeps
    | exact hW.fld (by decide +kernel)
    | exact Eq.refl true

/-- What `tmtEnforce` may change. -/
def tmtEnforceFoot : Foot :=
  .union [⟨[], [.thm], false⟩, sluiceSetFrame]

theorem tmtEnforce_keeps {W : Foot} {s0 s : State} {which : Nat} {step : Nat} (hW : tmtEnforceFoot.Le W) (h : Keeps W s0 s) :
    Keeps W s0 (tmtEnforce s which step) := by
  unfold tmtEnforce
  repeat' first
    | with_reducible assumption
    | with_reducible apply State.setThm_keeps
    | with_reducible apply sluiceSet_keeps
    | with_reducible apply Keeps.ite
    | exact hW.trans (Foot.le_of (by decide +kernel))

/-- What `sluiceStep` may change. -/
def sluiceStepFoot : Foot :=
  .union [⟨[Reg.thmStatusStepDue, Reg.thmStatusTmt2Act, Reg.thmStatusTmt1Act, Reg.thmIrqStatusStepDue], [.thm],
    false⟩, sluiceSetFrame, cqReadyFrame]

theorem sluiceStep_keeps {W : Foot} {s0 s : State} (hW : sluiceStepFoot.Le W) (h : Keeps W s0 s) :
    Keeps W s0 (sluiceStep s) := by
  unfold sluiceStep
  repeat' first
    | with_reducible assumption
    | with_reducible intro _
    | with_reducible apply sluiceSet_keeps
    | with_reducible apply tempEvent_keeps
    | with_reducible apply tmtEnforce_keeps
    | with_reducible apply State.wr_keeps
    | with_reducible apply Keeps.each
    | with_reducible apply stepDue_keeps
    | with_reducible apply Keeps.ite
    | exact hW.fld (by decide +kernel)
    | exact hW.trans (Foot.le_of (by decide +kernel))
    | exact Eq.refl true

/-- What `tmtTime` may change. -/
def tmtTimeFoot : Foot :=
  ⟨[], [.thm], false⟩

theorem tmtTime_keeps {W : Foot} {s0 s : State} {ms : Nat} (hW : tmtTimeFoot.Le W) (h : Keeps W s0 s) :
    Keeps W s0 (tmtTime s ms) := by
  unfold tmtTime
  repeat' first
    | with_reducible assumption
    | with_reducible apply State.setThm_keeps
    | with_reducible apply Keeps.ite
    | exact hW.trans (Foot.le_of (by decide +kernel))

theorem execThmSample_keeps {W : Foot} {s0 s : State} {ms : Nat} {temps : List (Nat × Nat)} (hW : execThmSampleFrame.Le W) (h : Keeps W s0 s) :
    KeepsOut W s0 (execThmSample ms temps s) := by
  unfold execThmSample
  repeat' first
    | with_reducible assumption
    | with_reducible intro _
    | with_reducible apply KeepsOut.next
    | with_reducible apply threshStep_keeps
    | with_reducible apply groupStep_keeps
    | with_reducible apply calTriggers_keeps
    | with_reducible apply State.wr_elem_keeps
    | with_reducible apply State.wr_keeps
    | with_reducible apply State.set_elem_keeps
    | with_reducible apply Keeps.each
    | with_reducible apply tmtTime_keeps
    | with_reducible apply sluiceStep_keeps
    | exact hW.fld (by decide +kernel)
    | exact hW.trans (Foot.le_of (by decide +kernel))
    | exact Eq.refl true
    | split

theorem execRiseClearExpiry_keeps {W : Foot} {s0 s : State} {g : Nat} (hW : execRiseClearExpiryFrame.Le W) (h : Keeps W s0 s) :
    KeepsOut W s0 (execRiseClearExpiry g s) := by
  unfold execRiseClearExpiry
  repeat' first
    | with_reducible assumption
    | with_reducible apply KeepsOut.next
    | with_reducible apply KeepsOut.ite
    | with_reducible apply State.wr_keeps
    | with_reducible apply sluiceStep_keeps
    | exact hW.fld (by decide +kernel)
    | exact hW.trans (Foot.le_of (by decide +kernel))
    | exact Eq.refl true

theorem execSluiceGraceExpiry_keeps {W : Foot} {s0 s : State} (hW : execSluiceGraceExpiryFrame.Le W) (h : Keeps W s0 s) :
    KeepsOut W s0 (execSluiceGraceExpiry s) := by
  unfold execSluiceGraceExpiry
  repeat' first
    | with_reducible assumption
    | with_reducible apply KeepsOut.next
    | with_reducible apply KeepsOut.ite
    | with_reducible apply State.setThm_keeps
    | with_reducible apply sluiceSet_keeps
    | with_reducible apply stepDue_keeps
    | exact hW.trans (Foot.le_of (by decide +kernel))

theorem execSluiceStepExpiry_keeps {W : Foot} {s0 s : State} (hW : execSluiceStepExpiryFrame.Le W) (h : Keeps W s0 s) :
    KeepsOut W s0 (execSluiceStepExpiry s) := by
  unfold execSluiceStepExpiry
  repeat' first
    | with_reducible assumption
    | with_reducible apply KeepsOut.next
    | with_reducible apply KeepsOut.ite
    | with_reducible apply sluiceSet_keeps
    | with_reducible apply stepDue_keeps
    | exact hW.trans (Foot.le_of (by decide +kernel))

theorem execSluiceReleaseExpiry_keeps {W : Foot} {s0 s : State} (hW : execSluiceReleaseExpiryFrame.Le W) (h : Keeps W s0 s) :
    KeepsOut W s0 (execSluiceReleaseExpiry s) := by
  unfold execSluiceReleaseExpiry
  repeat' first
    | with_reducible assumption
    | with_reducible apply KeepsOut.next
    | with_reducible apply KeepsOut.ite
    | with_reducible apply sluiceSet_keeps
    | exact hW.trans (Foot.le_of (by decide +kernel))

theorem execStep_keeps {W : Foot} {s0 s : State} (hW : execStepFrame.Le W) (h : Keeps W s0 s) :
    KeepsOut W s0 (execStep s) := by
  unfold execStep
  repeat' first
    | with_reducible assumption
    | with_reducible apply KeepsOut.next
    | with_reducible apply KeepsOut.ite
    | with_reducible apply State.answer_keeps
    | with_reducible apply sluiceSet_keeps
    | with_reducible apply expertIgnored_keeps
    | with_reducible apply State.clr_keeps
    | exact hW.fld (by decide +kernel)
    | exact hW.trans (Foot.le_of (by decide +kernel))
    | exact Eq.refl true

theorem execThmCmdRelease_keeps {W : Foot} {s0 s : State} (hW : execThmCmdReleaseFrame.Le W) (h : Keeps W s0 s) :
    KeepsOut W s0 (execThmCmdRelease s) := by
  unfold execThmCmdRelease
  repeat' first
    | with_reducible assumption
    | with_reducible apply KeepsOut.next
    | with_reducible apply KeepsOut.ite
    | with_reducible apply State.answer_keeps
    | with_reducible apply sluiceSet_keeps
    | with_reducible apply expertIgnored_keeps
    | with_reducible apply State.clr_keeps
    | exact hW.fld (by decide +kernel)
    | exact hW.trans (Foot.le_of (by decide +kernel))
    | exact Eq.refl true

theorem execThermalTrip_keeps {W : Foot} {s0 s : State} {k : Nat} {reading : Nat} (hW : execThermalTripFrame.Le W) (h : Keeps W s0 s) :
    KeepsOut W s0 (execThermalTrip k reading s) := by
  unfold execThermalTrip
  repeat' first
    | with_reducible assumption
    | with_reducible apply KeepsOut.next
    | with_reducible apply KeepsOut.ite
    | with_reducible apply lossBegin_keeps
    | with_reducible apply State.bump_keeps
    | with_reducible apply hvRetractBoth_keeps
    | with_reducible apply State.wr_keeps
    | with_reducible apply State.set_keeps
    | with_reducible apply State.setPwr_keeps
    | exact hW.fld (by decide +kernel)
    | exact hW.trans (Foot.le_of (by decide +kernel))
    | exact Eq.refl true
    | split

theorem execTripLogicHold_keeps {W : Foot} {s0 s : State} (hW : execTripLogicHoldFrame.Le W) (h : Keeps W s0 s) :
    KeepsOut W s0 (execTripLogicHold s) := by
  unfold execTripLogicHold
  repeat' first
    | with_reducible assumption
    | with_reducible apply KeepsOut.next
    | with_reducible apply KeepsOut.ite
    | with_reducible apply jobsAbort_keeps
    | with_reducible apply linkSet_keeps
    | with_reducible apply State.wr_keeps
    | with_reducible apply State.setFlt_keeps
    | with_reducible apply State.setPwr_keeps
    | with_reducible apply State.clr_keeps
    | exact hW.fld (by decide +kernel)
    | exact hW.trans (Foot.le_of (by decide +kernel))
    | exact Eq.refl true

end Sys2Proof.Machine
end

