-- ==== Sys2Proof/Laws/FootResets.lean ====
section
/-!
SUPPORT. Footprints of the operations of Machine/Resets.lean: what each may change, and that it changes nothing else.
-/

namespace Sys2Proof.Machine

set_option Elab.async false

/-- What `logicReset` may change. -/
def logicResetFoot : Foot :=
  ⟨[], [.loHalf, .hiLatch, .resp, .boot, .recorder, .flt, .rst, .ang, .sim, .cs, .rings, .bwk, .srv, .ce, .spn, .ast,
    .pre, .cal, .age, .chan, .ldp, .oce, .cry, .bcm, .memc, .hst, .jnl, .change, .gated, .shadow, .pwr, .thm, .dom,
    .upd], true⟩

theorem Store.wf_setFld (m : Store Word) (f : Fld) (v : Nat) (h : Store.wf 0 m = true) : Store.wf 0 (Store.setFld m f v) = true :=
  Store.wf_write 0 m _ _ h

/-- A fold of steps that keep the canonical form keeps it. -/
theorem wf_foldl {β : Type} (f : Store Word → β → Store Word) (hf : ∀ m b, Store.wf 0 m = true → Store.wf 0 (f m b) = true)
    (l : List β) (m : Store Word) (h : Store.wf 0 m = true) : Store.wf 0 (l.foldl f m) = true := by
  induction l generalizing m with
  | nil => exact h
  | cons b l ih => exact ih _ (hf m b h)

theorem resetWords_wf : Store.wf 0 resetWords = true := by
  refine wf_foldl _ (fun m rows hm => wf_foldl _ (fun m r hm => ?_) rows m hm) regRows [] rfl
  split
  · split
    · exact hm
    · exact wf_foldl _ (fun m i hm => Store.wf_setFld _ _ _ hm) _ _ hm
  · exact hm

/-- The register file after reset is in canonical form. -/
theorem reset_regs_wf : Store.wf 0 State.reset.regs = true := by
  have key : ∀ (l : List (Fld × Nat)) (m : Store Word), Store.wf 0 m = true →
      Store.wf 0 (l.foldl (fun m e => Store.setFld m e.1 e.2) m) = true :=
    fun l m h => wf_foldl _ (fun m e hm => Store.wf_setFld m e.1 e.2 hm) l m h
  have h := key resetOpen resetWords resetWords_wf
  unfold State.reset
  revert h
  generalize resetWords = m
  exact id

theorem regsAfter_wf (s : State) (keeps : RegRow → Bool) : Store.wf 0 (regsAfter s keeps) = true := by
  refine wf_foldl _ (fun m rows hm => wf_foldl _ (fun m r hm => ?_) rows m hm) regRows _ reset_regs_wf
  split
  · exact wf_foldl _ (fun m i hm => Store.wf_setFld _ _ _ hm) _ _ hm
  · exact hm

theorem logicReset_keeps {W : Foot} {s0 s : State} {por : Bool} {keeps : RegRow → Bool} (hW : logicResetFoot.Le W)
    (h : Keeps W s0 s) : Keeps W s0 (logicReset s por keeps) := by
  refine h.trans ⟨fun hn => absurd (hW.2.2 rfl) (by simp [hn]), fun p hp => ?_, rfl, fun _ => regsAfter_wf s keeps, id, Nat.le_refl _⟩
  cases p <;> first | exact absurd (hW.part (by decide +kernel)) hp | rfl

/-- What `bootEnter` may change. -/
def bootEnterFoot : Foot :=
  .union [bootEnterFrame]

theorem bootEnter_keeps {W : Foot} {s0 s : State} {old : Nat} (hW : bootEnterFoot.Le W) (h : Keeps W s0 s) :
    Keeps W s0 (bootEnter s old) := by
  unfold bootEnter
  repeat' first
    | with_reducible assumption
    | with_reducible apply enterMode_keeps
    | with_reducible apply State.wr_keeps
    | exact hW.fld (by decide +kernel)
    | exact hW.trans (Foot.le_of (by decide +kernel))
    | exact Eq.refl true

/-- What `vguardTake` may change. -/
def vguardTakeFoot : Foot :=
  ⟨[Reg.pwrVcoreVguard, Reg.pwrVcoreSetpointMv], [], false⟩

theorem vguardTake_keeps {W : Foot} {s0 s : State} {limit : Nat} (hW : vguardTakeFoot.Le W) (h : Keeps W s0 s) :
    Keeps W s0 (vguardTake s limit) := by
  unfold vguardTake
  repeat' first
    | with_reducible assumption
    | with_reducible apply State.wr_keeps
    | exact hW.fld (by decide +kernel)
    | exact Eq.refl true

/-- What `opsecStamp` may change. -/
def opsecStampFoot : Foot :=
  ⟨[Reg.rstOpsecLoOpsec, Reg.rstOpsecHiOpsec], [], false⟩

theorem opsecStamp_keeps {W : Foot} {s0 s : State} (hW : opsecStampFoot.Le W) (h : Keeps W s0 s) :
    Keeps W s0 (opsecStamp s) := by
  unfold opsecStamp
  repeat' first
    | with_reducible assumption
    | with_reducible apply State.wr_keeps
    | exact hW.fld (by decide +kernel)
    | exact Eq.refl true

/-- What `causeSet` may change. -/
def causeSetFoot : Foot :=
  .union [causeSetFrame]

theorem causeSet_keeps {W : Foot} {s0 s : State} {source : Nat} {stopped : Bool} {afterLoss : Bool} {merged : Bool} (hW : causeSetFoot.Le W) (h : Keeps W s0 s) :
    Keeps W s0 (causeSet s source stopped afterLoss merged) := by
  unfold causeSet
  repeat' first
    | with_reducible assumption
    | with_reducible apply State.wr_keeps
    | with_reducible apply State.set_keeps
    | exact hW.fld (by decide +kernel)
    | exact Eq.refl true

/-- What `drstHold` may change. -/
def drstHoldFoot : Foot :=
  .union [⟨[Reg.pwrVcoreVguard, Reg.pwrVcoreSetpointMv, Reg.rstStatusPerst, Reg.rstStatusPhase, Reg.rstDrstsCount,
    Reg.rstOpsecLoOpsec, Reg.rstOpsecHiOpsec, Reg.hvbStatusHb, Reg.hvbStatusRetractLine, Reg.hvbStatusHvFaultLine],
    [.loHalf, .hiLatch, .resp, .boot, .flt, .rst, .ang, .sim, .cs, .rings, .bwk, .srv, .ce, .spn, .ast, .pre, .cal,
    .age, .chan, .ldp, .oce, .cry, .bcm, .memc, .hst, .jnl, .change, .gated, .shadow, .pwr, .thm, .dom, .upd], true⟩,
    bootEnterFrame, causeSetFrame]

theorem drstHold_keeps {W : Foot} {s0 s : State} {source : Nat} {stopped : Bool} {afterLoss : Bool} {merged : Bool} (hW : drstHoldFoot.Le W) (h : Keeps W s0 s) :
    Keeps W s0 (drstHold s source stopped afterLoss merged) := by
  unfold drstHold
  repeat' first
    | with_reducible assumption
    | with_reducible apply bootEnter_keeps
    | with_reducible apply State.setJnl_keeps
    | with_reducible apply opsecStamp_keeps
    | with_reducible apply vguardTake_keeps
    | with_reducible apply logicReset_keeps
    | with_reducible apply causeSet_keeps
    | with_reducible apply State.wr_keeps_any
    | with_reducible apply State.clr_keeps_any
    | with_reducible apply State.bump_keeps_any
    | exact hW.2.2 rfl
    | exact hW.trans (Foot.le_of (by decide +kernel))

/-- What `drstRequest` may change. -/
def drstRequestFoot : Foot :=
  .union [⟨[Reg.sysOpmodeCause, Reg.sysOpmodePrevMode, Reg.sysOpmodeMode, Reg.pwrVcoreVguard, Reg.pwrVcoreSetpointMv,
    Reg.rstStatusPerst, Reg.rstStatusPhase, Reg.rstDrstsCount, Reg.rstOpsecLoOpsec, Reg.rstOpsecHiOpsec,
    Reg.hvbStatusHb, Reg.hvbStatusRetractLine, Reg.hvbStatusHvFaultLine], [.loHalf, .hiLatch, .resp, .boot, .rst,
    .ang, .sim, .cs, .ce, .spn, .pre, .age, .ldp, .oce, .cry, .bcm, .hst, .jnl, .change, .gated, .shadow, .pwr, .thm,
    .dom, .upd], true⟩, hvRetractFrame, causeSetFrame]

theorem drstRequest_keeps {W : Foot} {s0 s : State} {source : Nat} (hW : drstRequestFoot.Le W) (h : Keeps W s0 s) :
    Keeps W s0 (drstRequest s source) := by
  unfold drstRequest
  repeat' first
    | with_reducible assumption
    | with_reducible apply drstHold_keeps
    | with_reducible apply State.setHst_keeps
    | with_reducible apply State.setRst_keeps
    | with_reducible apply State.setBwk_keeps
    | with_reducible apply retractLine_keeps
    | with_reducible apply Keeps.ite
    | with_reducible apply State.wr_keeps_any
    | with_reducible apply State.set_keeps_any
    | exact hW.2.2 rfl
    | exact hW.trans (Foot.le_of (by decide +kernel))

theorem execDrstWriteStop_keeps {W : Foot} {s0 s : State} (hW : execDrstWriteStopFrame.Le W) (h : Keeps W s0 s) :
    KeepsOut W s0 (execDrstWriteStop s) := by
  unfold execDrstWriteStop
  repeat' first
    | with_reducible assumption
    | with_reducible apply KeepsOut.next
    | with_reducible apply KeepsOut.ite
    | with_reducible apply bwkStopAll_keeps
    | with_reducible apply accSave_keeps
    | with_reducible apply State.setRst_keeps
    | exact hW.trans (Foot.le_of (by decide +kernel))

/-- What `glitchDrst` may change. -/
def glitchDrstFoot : Foot :=
  .union [⟨[Reg.pwrVcoreVguard, Reg.pwrVcoreSetpointMv, Reg.pwrCountsGlitches, Reg.rstStatusPerst, Reg.rstStatusPhase,
    Reg.rstDrstsCount, Reg.rstOpsecLoOpsec, Reg.rstOpsecHiOpsec, Reg.hvbStatusHb, Reg.hvbStatusRetractLine,
    Reg.hvbStatusHvFaultLine], [.loHalf, .hiLatch, .resp, .boot, .flt, .rst, .ang, .sim, .cs, .rings, .bwk, .srv, .ce,
    .spn, .ast, .pre, .cal, .age, .chan, .ldp, .oce, .cry, .bcm, .memc, .hst, .jnl, .change, .gated, .shadow, .pwr,
    .thm, .dom, .upd], true⟩, bootEnterFrame, causeSetFrame]

theorem glitchDrst_keeps {W : Foot} {s0 s : State} (hW : glitchDrstFoot.Le W) (h : Keeps W s0 s) :
    Keeps W s0 (glitchDrst s) := by
  unfold glitchDrst
  repeat' first
    | with_reducible assumption
    | with_reducible apply drstHold_keeps
    | with_reducible apply State.bump_keeps_any
    | exact hW.2.2 rfl
    | exact hW.trans (Foot.le_of (by decide +kernel))

theorem execDrstHold_keeps {W : Foot} {s0 s : State} (hW : execDrstHoldFrame.Le W) (h : Keeps W s0 s) :
    KeepsOut W s0 (execDrstHold s) := by
  unfold execDrstHold
  repeat' first
    | with_reducible assumption
    | with_reducible apply KeepsOut.next
    | with_reducible apply drstHold_keeps
    | with_reducible apply glitchDrst_keeps
    | with_reducible apply retractLine_keeps
    | with_reducible apply Keeps.ite
    | exact hW.trans (Foot.le_of (by decide +kernel))
    | split

/-- What `repairApply` may change. -/
def repairApplyFoot : Foot :=
  ⟨[Reg.memStatusPinned, Reg.memStatusCand, Reg.memIrqStatusRepairFail, Reg.recStatusDropped, Reg.recStatusQueued,
    Reg.recIrqStatusDrop], [.recorder, .memc], false⟩

theorem repairApply_keeps {W : Foot} {s0 s : State} {noSpare : List Nat} (hW : repairApplyFoot.Le W) (h : Keeps W s0 s) :
    Keeps W s0 (repairApply s noSpare) := by
  unfold repairApply
  repeat' first
    | with_reducible assumption
    | with_reducible intro _
    | with_reducible apply State.setMemc_keeps
    | with_reducible apply State.wr_keeps
    | with_reducible apply State.set_keeps
    | with_reducible apply Keeps.each
    | with_reducible apply record_keeps
    | exact hW.fld (by decide +kernel)
    | exact hW.trans (Foot.le_of (by decide +kernel))
    | exact Eq.refl true

/-- What `bootStart` may change. -/
def bootStartFoot : Foot :=
  ⟨[Reg.memStatusPinned, Reg.memStatusCand, Reg.memIrqStatusRepairFail, Reg.recStatusDropped, Reg.recStatusQueued,
    Reg.recIrqStatusDrop, Reg.hvbStatusHb], [.boot, .recorder, .memc], false⟩

theorem bootStart_keeps {W : Foot} {s0 s : State} {noSpare : List Nat} (hW : bootStartFoot.Le W) (h : Keeps W s0 s) :
    Keeps W s0 (bootStart s noSpare) := by
  unfold bootStart
  repeat' first
    | with_reducible assumption
    | with_reducible apply State.set_keeps
    | with_reducible apply repairApply_keeps
    | with_reducible apply Keeps.set_boot
    | exact hW.fld (by decide +kernel)
    | exact hW.trans (Foot.le_of (by decide +kernel))
    | exact hW.part (by decide +kernel)
    | exact Eq.refl true

theorem execDrstRelease_keeps {W : Foot} {s0 s : State} {noSpare : List Nat} (hW : execDrstReleaseFrame.Le W) (h : Keeps W s0 s) :
    KeepsOut W s0 (execDrstRelease noSpare s) := by
  unfold execDrstRelease
  repeat' first
    | with_reducible assumption
    | with_reducible apply KeepsOut.next
    | with_reducible apply KeepsOut.ite
    | with_reducible apply bootStart_keeps
    | with_reducible apply State.wr_keeps
    | with_reducible apply State.setPwr_keeps
    | exact hW.fld (by decide +kernel)
    | exact hW.trans (Foot.le_of (by decide +kernel))
    | exact Eq.refl true

theorem execPor_keeps {W : Foot} {s0 s : State} {hv : Bool} (hW : execPorFrame.Le W) (h : Keeps W s0 s) :
    KeepsOut W s0 (execPor hv s) := by
  have ha : W.any = true := hW.2.2 rfl
  unfold execPor
  dsimp only [State.wrPair]
  repeat' first
    | with_reducible assumption
    | with_reducible apply KeepsOut.next
    | with_reducible apply bootEnter_keeps
    | with_reducible apply opsecStamp_keeps
    | with_reducible apply vguardTake_keeps
    | with_reducible apply State.addWrap_keeps
    | with_reducible apply State.setAng_keeps
    | with_reducible apply State.setJnl_keeps
    | with_reducible apply State.wr_keeps_any
    | with_reducible apply logicReset_keeps
    | exact hW.fld (by decide +kernel)
    | exact hW.trans (Foot.le_of (by decide +kernel))
    | exact Eq.refl true

theorem execPorRelease_keeps {W : Foot} {s0 s : State} {noSpare : List Nat} (hW : execPorReleaseFrame.Le W) (h : Keeps W s0 s) :
    KeepsOut W s0 (execPorRelease noSpare s) := by
  unfold execPorRelease
  repeat' first
    | with_reducible assumption
    | with_reducible apply KeepsOut.next
    | with_reducible apply KeepsOut.ite
    | with_reducible apply bootStart_keeps
    | with_reducible apply State.wr_keeps
    | with_reducible apply State.set_keeps
    | exact hW.fld (by decide +kernel)
    | exact hW.trans (Foot.le_of (by decide +kernel))
    | exact Eq.refl true

/-- What `memoryFill` may change. -/
def memoryFillFoot : Foot :=
  ⟨[], [.mem, .poison], false⟩

theorem memoryFill_keeps {W : Foot} {s0 s : State} (hW : memoryFillFoot.Le W) (h : Keeps W s0 s) : Keeps W s0 (memoryFill s) := by
  refine h.trans ⟨fun _ _ _ _ => rfl, fun p hp => ?_, rfl, id, Store.wf_filter 0 _ _, Nat.le_refl _⟩
  cases p <;> first | exact absurd (hW.part (by decide +kernel)) hp | rfl

theorem execB1FillDone_keeps {W : Foot} {s0 s : State} {fails : Nat} (hW : execB1FillDoneFrame.Le W) (h : Keeps W s0 s) :
    KeepsOut W s0 (execB1FillDone fails s) := by
  unfold execB1FillDone
  repeat' first
    | with_reducible assumption
    | with_reducible intro _
    | with_reducible apply KeepsOut.next
    | with_reducible apply KeepsOut.ite
    | with_reducible apply memoryFill_keeps
    | with_reducible apply State.setMemc_keeps
    | with_reducible apply State.setCe_keeps
    | with_reducible apply State.wr_keeps
    | with_reducible apply State.set_keeps
    | with_reducible apply Keeps.each
    | with_reducible apply State.setCs_keeps
    | with_reducible apply recordWarden_keeps
    | with_reducible apply State.setBoot_keeps
    | with_reducible apply Keeps.ite
    | exact hW.fld (by decide +kernel)
    | exact hW.trans (Foot.le_of (by decide +kernel))
    | exact Eq.refl true

theorem execResetNLow_keeps {W : Foot} {s0 s : State} {us : Nat} (hW : execResetNLowFrame.Le W) (h : Keeps W s0 s) :
    KeepsOut W s0 (execResetNLow us s) := by
  unfold execResetNLow
  repeat' first
    | with_reducible assumption
    | with_reducible apply KeepsOut.next
    | with_reducible apply KeepsOut.ite
    | with_reducible apply drstRequest_keeps
    | with_reducible apply State.takeFree_keeps
    | with_reducible apply Keeps.ite
    | exact hW.trans (Foot.le_of (by decide +kernel))
    | exact hW.part (by decide +kernel)

theorem execNvmSubsystemReset_keeps {W : Foot} {s0 s : State} {fn : Nat} {value : Nat} (hW : execNvmSubsystemResetFrame.Le W) (h : Keeps W s0 s) :
    KeepsOut W s0 (execNvmSubsystemReset fn value s) := by
  unfold execNvmSubsystemReset
  repeat' first
    | with_reducible assumption
    | with_reducible apply KeepsOut.next
    | with_reducible apply drstRequest_keeps
    | with_reducible apply Keeps.ite
    | exact hW.trans (Foot.le_of (by decide +kernel))

theorem execRstDrstReqWrite_keeps {W : Foot} {s0 s : State} {priv : Priv} {data : Word} (hW : execRstDrstReqWriteFrame.Le W) (h : Keeps W s0 s) :
    KeepsOut W s0 (execRstDrstReqWrite priv data s) := by
  unfold execRstDrstReqWrite
  repeat' first
    | with_reducible assumption
    | with_reducible apply KeepsOut.next
    | with_reducible apply KeepsOut.ite
    | with_reducible apply State.answer_keeps
    | with_reducible apply drstRequest_keeps
    | with_reducible apply busError_keeps
    | with_reducible apply corrected_keeps
    | with_reducible apply Keeps.ite
    | exact hW.trans (Foot.le_of (by decide +kernel))

theorem execSupplyReturn_keeps {W : Foot} {s0 s : State} {vm : Nat} {vl : Nat} (hW : execSupplyReturnFrame.Le W) (h : Keeps W s0 s) :
    KeepsOut W s0 (execSupplyReturn vm vl s) := by
  unfold execSupplyReturn
  repeat' first
    | with_reducible assumption
    | with_reducible apply KeepsOut.next
    | with_reducible apply KeepsOut.ite
    | with_reducible apply supplyShow_keeps
    | with_reducible apply glitchDrst_keeps
    | with_reducible apply State.setPwr_keeps
    | with_reducible apply Keeps.ite
    | exact hW.trans (Foot.le_of (by decide +kernel))

theorem execThermalRestart_keeps {W : Foot} {s0 s : State} {readings : List Nat} (hW : execThermalRestartFrame.Le W) (h : Keeps W s0 s) :
    KeepsOut W s0 (execThermalRestart readings s) := by
  unfold execThermalRestart
  repeat' first
    | with_reducible assumption
    | with_reducible apply KeepsOut.next
    | with_reducible apply drstHold_keeps
    | with_reducible apply Keeps.ite
    | exact hW.trans (Foot.le_of (by decide +kernel))

/-- What `b4Done` may change. -/
def b4DoneFoot : Foot :=
  .union [⟨[Reg.angRungPendTarget], [.boot, .change], false⟩, bootEnterFrame, rungFinishFrame]

theorem b4Done_keeps {W : Foot} {s0 s : State} (hW : b4DoneFoot.Le W) (h : Keeps W s0 s) :
    Keeps W s0 (b4Done s) := by
  unfold b4Done
  repeat' first
    | with_reducible assumption
    | with_reducible apply serviceEnter_keeps
    | with_reducible apply State.setBoot_keeps
    | with_reducible apply Keeps.ite
    | exact hW.trans (Foot.le_of (by decide +kernel))

theorem execSvcModeAssert_keeps {W : Foot} {s0 s : State} (hW : execSvcModeAssertFrame.Le W) (h : Keeps W s0 s) :
    KeepsOut W s0 (execSvcModeAssert s) := by
  unfold execSvcModeAssert
  repeat' first
    | with_reducible assumption
    | with_reducible apply KeepsOut.next
    | with_reducible apply KeepsOut.ite
    | with_reducible apply State.wr_keeps
    | with_reducible apply recoveryEnter_keeps
    | exact hW.fld (by decide +kernel)
    | exact hW.trans (Foot.le_of (by decide +kernel))
    | exact Eq.refl true

theorem execSvcModeHoldExpiry_keeps {W : Foot} {s0 s : State} (hW : execSvcModeHoldExpiryFrame.Le W) (h : Keeps W s0 s) :
    KeepsOut W s0 (execSvcModeHoldExpiry s) := by
  unfold execSvcModeHoldExpiry
  repeat' first
    | with_reducible assumption
    | with_reducible apply KeepsOut.next
    | with_reducible apply KeepsOut.ite
    | with_reducible apply hostStop_keeps
    | with_reducible apply bwkStopAll_keeps
    | with_reducible apply rungPreempt_keeps
    | with_reducible apply calStop_keeps
    | with_reducible apply retractLine_keeps
    | with_reducible apply State.setChange_keeps
    | with_reducible apply recoveryEnter_keeps
    | with_reducible apply astStop_keeps
    | exact hW.trans (Foot.le_of (by decide +kernel))

/-- What `cmdReset` may change. -/
def cmdResetFoot : Foot :=
  .union [writeRunFrame]

theorem cmdReset_keeps {W : Foot} {s0 s : State} {c : HostCmd} (hW : cmdResetFoot.Le W) (h : Keeps W s0 s) :
    Keeps W s0 (cmdReset s c) := by
  unfold cmdReset
  repeat' first
    | with_reducible assumption
    | with_reducible apply State.setBcm_keeps
    | with_reducible apply setCmd_keeps
    | with_reducible apply writeTake_keeps
    | with_reducible apply cmdFree_keeps
    | with_reducible apply Keeps.ite
    | exact hW.trans (Foot.le_of (by decide +kernel))

/-- What `functionReset` may change. -/
def functionResetFoot : Foot :=
  .union [⟨[Reg.hstPendEntries, Reg.hstPendCqsCqs], [], false⟩, writeRunFrame]

theorem functionReset_keeps {W : Foot} {s0 s : State} {fn : Nat} (hW : functionResetFoot.Le W) (h : Keeps W s0 s) :
    Keeps W s0 (functionReset s fn) := by
  unfold functionReset
  repeat' first
    | with_reducible assumption
    | with_reducible intro _
    | with_reducible apply cmdReset_keeps
    | with_reducible apply State.setHst_keeps
    | with_reducible apply pendShow_keeps
    | with_reducible apply Keeps.each
    | exact hW.trans (Foot.le_of (by decide +kernel))

/-- What `portReset` may change. -/
def portResetFoot : Foot :=
  .union [⟨[Reg.hstStatusP1Up, Reg.hstStatusP1Width, Reg.hstStatusP1Speed, Reg.hstStatusP0Up, Reg.hstStatusP0Width,
    Reg.hstStatusP0Speed, Reg.hstStatusLanesDown, Reg.hstPendEntries, Reg.hstPendCqsCqs, Reg.hstIrqStatusLinkChg], [],
    false⟩, writeRunFrame]

theorem portReset_keeps {W : Foot} {s0 s : State} {p : Nat} (hW : portResetFoot.Le W) (h : Keeps W s0 s) :
    Keeps W s0 (portReset s p) := by
  unfold portReset
  repeat' first
    | with_reducible assumption
    | with_reducible intro _
    | with_reducible apply linkSet_keeps
    | with_reducible apply State.wr_keeps
    | with_reducible apply Keeps.each
    | with_reducible apply functionReset_keeps
    | exact hW.fld (by decide +kernel)
    | exact hW.trans (Foot.le_of (by decide +kernel))
    | exact Eq.refl true

/-- What `portLeft` may change. -/
def portLeftFoot : Foot :=
  ⟨[Reg.hstIrqStatusHrst, Reg.rstHrstP1, Reg.rstHrstP0, Reg.rstIrqStatusHrst1, Reg.rstIrqStatusHrst0], [], false⟩

theorem portLeft_keeps {W : Foot} {s0 s : State} {p : Nat} (hW : portLeftFoot.Le W) (h : Keeps W s0 s) :
    Keeps W s0 (portLeft s p) := by
  unfold portLeft
  repeat' first
    | with_reducible assumption
    | with_reducible apply State.bump_keeps
    | with_reducible apply State.set_keeps
    | with_reducible apply Keeps.ite
    | exact hW.fld (by decide +kernel)
    | exact Eq.refl true

theorem execPerstNAssert_keeps {W : Foot} {s0 s : State} (hW : execPerstNAssertFrame.Le W) (h : Keeps W s0 s) :
    KeepsOut W s0 (execPerstNAssert s) := by
  unfold execPerstNAssert
  repeat' first
    | with_reducible assumption
    | with_reducible intro _
    | with_reducible apply KeepsOut.next
    | with_reducible apply KeepsOut.ite
    | with_reducible apply portReset_keeps
    | with_reducible apply State.set_keeps
    | with_reducible apply Keeps.each
    | exact hW.fld (by decide +kernel)
    | exact hW.trans (Foot.le_of (by decide +kernel))
    | exact Eq.refl true

theorem execPerstNDeassert_keeps {W : Foot} {s0 s : State} (hW : execPerstNDeassertFrame.Le W) (h : Keeps W s0 s) :
    KeepsOut W s0 (execPerstNDeassert s) := by
  unfold execPerstNDeassert
  repeat' first
    | with_reducible assumption
    | with_reducible intro _
    | with_reducible apply KeepsOut.next
    | with_reducible apply KeepsOut.ite
    | with_reducible apply Keeps.each
    | with_reducible apply portLeft_keeps
    | with_reducible apply State.clr_keeps
    | exact hW.fld (by decide +kernel)
    | exact hW.trans (Foot.le_of (by decide +kernel))
    | exact Eq.refl true

theorem execHotReset_keeps {W : Foot} {s0 s : State} {port : Nat} (hW : execHotResetFrame.Le W) (h : Keeps W s0 s) :
    KeepsOut W s0 (execHotReset port s) := by
  unfold execHotReset
  repeat' first
    | with_reducible assumption
    | with_reducible apply KeepsOut.next
    | with_reducible apply KeepsOut.ite
    | with_reducible apply portReset_keeps
    | with_reducible apply portLeft_keeps
    | exact hW.trans (Foot.le_of (by decide +kernel))

theorem execFlr_keeps {W : Foot} {s0 s : State} {fn : Nat} (hW : execFlrFrame.Le W) (h : Keeps W s0 s) :
    KeepsOut W s0 (execFlr fn s) := by
  unfold execFlr
  repeat' first
    | with_reducible assumption
    | with_reducible intro _
    | with_reducible apply KeepsOut.next
    | with_reducible apply KeepsOut.ite
    | with_reducible apply State.bump_keeps
    | with_reducible apply State.wr_keeps
    | with_reducible apply State.set_keeps
    | with_reducible apply Keeps.each
    | with_reducible apply functionReset_keeps
    | exact hW.fld (by decide +kernel)
    | exact hW.trans (Foot.le_of (by decide +kernel))
    | exact Eq.refl true

theorem execCcEnClear_keeps {W : Foot} {s0 s : State} {fn : Nat} (hW : execCcEnClearFrame.Le W) (h : Keeps W s0 s) :
    KeepsOut W s0 (execCcEnClear fn s) := by
  unfold execCcEnClear
  repeat' first
    | with_reducible assumption
    | with_reducible apply KeepsOut.next
    | with_reducible apply KeepsOut.ite
    | with_reducible apply State.wr_keeps
    | with_reducible apply State.set_keeps
    | with_reducible apply functionReset_keeps
    | exact hW.fld (by decide +kernel)
    | exact hW.trans (Foot.le_of (by decide +kernel))
    | exact Eq.refl true

theorem execCcEnSet_keeps {W : Foot} {s0 s : State} {fn : Nat} {ams : Nat} {sqBase : Nat} {sqSize : Nat} {cqBase : Nat} {cqSize : Nat} (hW : execCcEnSetFrame.Le W) (h : Keeps W s0 s) :
    KeepsOut W s0 (execCcEnSet fn ams sqBase sqSize cqBase cqSize s) := by
  unfold execCcEnSet
  repeat' first
    | with_reducible assumption
    | with_reducible apply KeepsOut.next
    | with_reducible apply KeepsOut.ite
    | with_reducible apply State.setHst_keeps
    | exact hW.trans (Foot.le_of (by decide +kernel))

/-- What `unitLose` may change. -/
def unitLoseFoot : Foot :=
  ⟨[], [.bwk, .srv, .spn, .ast, .chan], false⟩

theorem unitLose_keeps {W : Foot} {s0 s : State} {u : Nat} (hW : unitLoseFoot.Le W) (h : Keeps W s0 s) :
    Keeps W s0 (unitLose s u) := by
  unfold unitLose
  repeat' first
    | with_reducible assumption
    | with_reducible apply State.setChan_keeps
    | with_reducible apply State.setSpn_keeps
    | with_reducible apply State.setAst_keeps
    | with_reducible apply State.setBwk_keeps
    | with_reducible apply State.setSrv_keeps
    | with_reducible apply Keeps.ite
    | exact hW.trans (Foot.le_of (by decide +kernel))

/-- The register file replaced by one in canonical form. -/
theorem State.setRegs_keeps_any {W : Foot} {s0 s : State} {m : Store Word} (ha : W.any = true)
    (hm : Store.wf 0 s.regs = true → Store.wf 0 m = true) (h : Keeps W s0 s) : Keeps W s0 (s.setRegs m) :=
  h.trans ⟨fun hn => absurd ha (by simp [hn]), fun p _ => by cases p <;> rfl, rfl, hm, id, Nat.le_refl _⟩

theorem execStandbyUnitGate_keeps {W : Foot} {s0 s : State} {u : Nat} (hW : execStandbyUnitGateFrame.Le W) (h : Keeps W s0 s) :
    KeepsOut W s0 (execStandbyUnitGate u s) := by
  unfold execStandbyUnitGate
  refine KeepsOut.ite (.next h) (.next (State.setGated_keeps (hW.trans (Foot.le_of (by decide +kernel)))
    (unitLose_keeps (hW.trans (Foot.le_of (by decide +kernel))) (State.setShadow_keeps (hW.trans (Foot.le_of (by decide +kernel)))
      (State.setRegs_keeps_any (hW.2.2 rfl) (fun hc => ?_) h)))))
  exact wf_foldl _ (fun m e hm => Store.wf_setFld _ _ _ hm) _ _ hc

theorem execStandbyWakeRestore_keeps {W : Foot} {s0 s : State} (hW : execStandbyWakeRestoreFrame.Le W) (h : Keeps W s0 s) :
    KeepsOut W s0 (execStandbyWakeRestore s) := by
  unfold execStandbyWakeRestore
  refine KeepsOut.ite (.next h) (.next (modeAdvance_keeps (hW.trans (Foot.le_of (by decide +kernel)))
    (State.setCe_keeps (hW.trans (Foot.le_of (by decide +kernel))) (State.setCs_keeps (hW.trans (Foot.le_of (by decide +kernel)))
      (State.setGated_keeps (hW.trans (Foot.le_of (by decide +kernel))) (State.setShadow_keeps (hW.trans (Foot.le_of (by decide +kernel)))
        (State.setRegs_keeps_any (hW.2.2 rfl) (fun hc => ?_) h)))))))
  exact wf_foldl _ (fun m u hm => wf_foldl _ (fun m e hm => Store.wf_setFld _ _ _ hm) _ _ hm) _ _ hc

end Sys2Proof.Machine
end

