-- ==== Sys2Proof/Laws/FootUpdOps.lean ====
section
/-!
SUPPORT. Footprints of the operations of Machine/UpdOps.lean: what each may change, and that it changes nothing else.
-/

namespace Sys2Proof.Machine

set_option Elab.async false

/-- What `norWrite` may change. -/
def norWriteFoot : Foot :=
  ⟨[], [.upd], false⟩

theorem norWrite_keeps {W : Foot} {s0 s : State} {slot : Nat} {off : Nat} {bs : List Byte} (hW : norWriteFoot.Le W) (h : Keeps W s0 s) :
    Keeps W s0 (norWrite s slot off bs) := by
  unfold norWrite
  repeat' first
    | with_reducible assumption
    | with_reducible apply State.setUpd_keeps
    | exact hW.trans (Foot.le_of (by decide +kernel))

/-- What `norErase` may change. -/
def norEraseFoot : Foot :=
  ⟨[], [.upd], false⟩

theorem norErase_keeps {W : Foot} {s0 s : State} {slot : Nat} (hW : norEraseFoot.Le W) (h : Keeps W s0 s) :
    Keeps W s0 (norErase s slot) := by
  unfold norErase
  repeat' first
    | with_reducible assumption
    | with_reducible apply State.setUpd_keeps
    | exact hW.trans (Foot.le_of (by decide +kernel))

/-- What `setSlot` may change. -/
def setSlotFoot : Foot :=
  ⟨[Reg.updSlotState], [], false⟩

theorem setSlot_keeps {W : Foot} {s0 s : State} {k : Nat} {v : Nat} (hW : setSlotFoot.Le W) (h : Keeps W s0 s) :
    Keeps W s0 (setSlot s k v) := by
  unfold setSlot
  repeat' first
    | with_reducible assumption
    | with_reducible apply State.wr_elem_keeps
    | exact hW.fld (by decide +kernel)

/-- What `pendPut` may change. -/
def pendPutFoot : Foot :=
  ⟨[Reg.updStatusPendSlot, Reg.updStatusPendState], [], false⟩

theorem pendPut_keeps {W : Foot} {s0 s : State} {slot : Nat} {st : Nat} (hW : pendPutFoot.Le W) (h : Keeps W s0 s) :
    Keeps W s0 (pendPut s slot st) := by
  unfold pendPut
  repeat' first
    | with_reducible assumption
    | with_reducible apply State.wr_keeps
    | exact hW.fld (by decide +kernel)
    | exact Eq.refl true

/-- What `pendDrop` may change. -/
def pendDropFoot : Foot :=
  ⟨[Reg.updStatusPendSlot, Reg.updStatusPendState, Reg.updSlotState, Reg.updSlotSecVer, Reg.updSlotSetVer], [.upd],
    false⟩

theorem pendDrop_keeps {W : Foot} {s0 s : State} (hW : pendDropFoot.Le W) (h : Keeps W s0 s) :
    Keeps W s0 (pendDrop s) := by
  unfold pendDrop
  repeat' first
    | with_reducible assumption
    | with_reducible apply State.wr_elem_keeps
    | with_reducible apply pendPut_keeps
    | with_reducible apply State.setUpd_keeps
    | with_reducible apply setSlot_keeps
    | with_reducible apply Keeps.ite
    | exact hW.fld (by decide +kernel)
    | exact hW.trans (Foot.le_of (by decide +kernel))

/-- What `updNotice` may change. -/
def updNoticeFoot : Foot :=
  .union [ringAnswerFrame]

theorem updNotice_keeps {W : Foot} {s0 s : State} {event : Nat} {source : Nat} (hW : updNoticeFoot.Le W) (h : Keeps W s0 s) :
    Keeps W s0 (updNotice s event source) := by
  unfold updNotice
  repeat' first
    | with_reducible assumption
    | with_reducible apply mailboxNotice_keeps
    | exact hW.trans (Foot.le_of (by decide +kernel))

/-- What `updHostEvent` may change. -/
def updHostEventFoot : Foot :=
  .union [⟨[], [.upd], false⟩, cqReadyFrame]

theorem updHostEvent_keeps {W : Foot} {s0 s : State} (hW : updHostEventFoot.Le W) (h : Keeps W s0 s) :
    Keeps W s0 (updHostEvent s) := by
  unfold updHostEvent
  repeat' first
    | with_reducible assumption
    | with_reducible intro _
    | with_reducible apply aerPump_keeps
    | with_reducible apply asyncEvent_keeps
    | with_reducible apply Keeps.each
    | with_reducible apply State.setUpd_keeps
    | exact hW.trans (Foot.le_of (by decide +kernel))

/-- What `updNak` may change. -/
def updNakFoot : Foot :=
  ⟨[Reg.pmuOvfOvf, Reg.pmuCntLoCount, Reg.pmuCntHiCount], [.dom], false⟩

theorem updNak_keeps {W : Foot} {s0 s : State} {reason : Nat} (hW : updNakFoot.Le W) (h : Keeps W s0 s) :
    Keeps W s0 (updNak s reason) := by
  unfold updNak
  repeat' first
    | with_reducible assumption
    | with_reducible apply domToManager_keeps
    | with_reducible apply Keeps.ite
    | exact hW.trans (Foot.le_of (by decide +kernel))

/-- What `displaced` may change. -/
def displacedFoot : Foot :=
  .union [⟨[Reg.updStatusPendSlot, Reg.updStatusPendState, Reg.updSlotState, Reg.updSlotSecVer, Reg.updSlotSetVer,
    Reg.updIrqStatusDisplaced], [.dom, .upd], false⟩, ringAnswerFrame, cqReadyFrame]

theorem displaced_keeps {W : Foot} {s0 s : State} (hW : displacedFoot.Le W) (h : Keeps W s0 s) :
    Keeps W s0 (displaced s) := by
  unfold displaced
  repeat' first
    | with_reducible assumption
    | with_reducible apply State.set_keeps
    | with_reducible apply State.setUpd_keeps
    | with_reducible apply adminReply_keeps
    | with_reducible apply pendDrop_keeps
    | with_reducible apply updHostEvent_keeps
    | with_reducible apply updNak_keeps
    | with_reducible apply updNotice_keeps
    | with_reducible apply Keeps.ite
    | exact hW.fld (by decide +kernel)
    | exact hW.trans (Foot.le_of (by decide +kernel))
    | exact Eq.refl true
    | split

/-- What `stageBegin` may change. -/
def stageBeginFoot : Foot :=
  .union [⟨[Reg.updIrqStatusDisplaced], [.dom], false⟩, ringAnswerFrame, cqReadyFrame, commitStageFrame]

theorem stageBegin_keeps {W : Foot} {s0 s : State} {src : Nat} {slot : Nat} (hW : stageBeginFoot.Le W) (h : Keeps W s0 s) :
    Keeps W s0 (stageBegin s src slot) := by
  unfold stageBegin
  repeat' first
    | with_reducible assumption
    | with_reducible apply displaced_keeps
    | with_reducible apply State.wr_elem_keeps
    | with_reducible apply State.wr_keeps
    | with_reducible apply pendPut_keeps
    | with_reducible apply norErase_keeps
    | with_reducible apply State.setUpd_keeps
    | with_reducible apply setSlot_keeps
    | with_reducible apply Keeps.ite
    | exact hW.fld (by decide +kernel)
    | exact hW.trans (Foot.le_of (by decide +kernel))
    | exact Eq.refl true

/-- What `lockFree` may change. -/
def lockFreeFoot : Foot :=
  ⟨[Reg.updStatusLock], [], false⟩

theorem lockFree_keeps {W : Foot} {s0 s : State} (hW : lockFreeFoot.Le W) (h : Keeps W s0 s) :
    Keeps W s0 (lockFree s) := by
  unfold lockFree
  repeat' first
    | with_reducible assumption
    | with_reducible apply State.wr_keeps
    | exact hW.fld (by decide +kernel)
    | exact Eq.refl true

/-- What `slotAuth` may change. -/
def slotAuthFoot : Foot :=
  ⟨[Reg.updStatusReject, Reg.updStatusSimErr, Reg.updSlotState, Reg.updSlotSecVer, Reg.updSlotSetVer,
    Reg.updIrqStatusRejected], [], false⟩

theorem slotAuth_keeps {W : Foot} {s0 s : State} {slot : Nat} (hW : slotAuthFoot.Le W) (h : Keeps W s0 s) :
    Keeps W s0 (slotAuth s slot).2 := by
  unfold slotAuth
  repeat' first
    | with_reducible assumption
    | with_reducible apply State.wr_elem_keeps
    | with_reducible apply State.wr_keeps
    | with_reducible apply State.set_keeps
    | with_reducible apply setSlot_keeps
    | exact hW.fld (by decide +kernel)
    | exact hW.trans (Foot.le_of (by decide +kernel))
    | exact Eq.refl true
    | split

/-- What `stagePass` may change. -/
def stagePassFoot : Foot :=
  .union [⟨[Reg.updStatusPendSlot, Reg.updStatusPendState, Reg.updIrqStatusStaged], [], false⟩, ringAnswerFrame]

theorem stagePass_keeps {W : Foot} {s0 s : State} {slot : Nat} {src : Nat} {arm : Bool} (hW : stagePassFoot.Le W) (h : Keeps W s0 s) :
    Keeps W s0 (stagePass s slot src arm) := by
  unfold stagePass
  repeat' first
    | with_reducible assumption
    | with_reducible apply pendPut_keeps
    | with_reducible apply State.set_keeps
    | with_reducible apply updNotice_keeps
    | exact hW.fld (by decide +kernel)
    | exact hW.trans (Foot.le_of (by decide +kernel))
    | exact Eq.refl true

/-- What `stageFail` may change. -/
def stageFailFoot : Foot :=
  .union [⟨[Reg.updStatusLock, Reg.updStatusPendSlot, Reg.updStatusPendState, Reg.updSlotState, Reg.updSlotSecVer,
    Reg.updSlotSetVer], [.upd], false⟩, ringAnswerFrame]

theorem stageFail_keeps {W : Foot} {s0 s : State} {src : Nat} (hW : stageFailFoot.Le W) (h : Keeps W s0 s) :
    Keeps W s0 (stageFail s src) := by
  unfold stageFail
  repeat' first
    | with_reducible assumption
    | with_reducible apply lockFree_keeps
    | with_reducible apply pendDrop_keeps
    | with_reducible apply updNotice_keeps
    | exact hW.trans (Foot.le_of (by decide +kernel))

/-- What `setShow` may change. -/
def setShowFoot : Foot :=
  ⟨[Reg.updSetStatusFormat, Reg.updSetGenGen], [], false⟩

theorem setShow_keeps {W : Foot} {s0 s : State} (hW : setShowFoot.Le W) (h : Keeps W s0 s) :
    Keeps W s0 (setShow s) := by
  unfold setShow
  repeat' first
    | with_reducible assumption
    | with_reducible apply State.wr_keeps
    | exact hW.fld (by decide +kernel)
    | exact Eq.refl true

/-- What `liveWrite` may change. -/
def liveWriteFoot : Foot :=
  .union [⟨[Reg.updSetStatusFormat, Reg.updSetStatusMirrorPend, Reg.updSetGenGen], [], false⟩, outcomeAtFrame]

theorem liveWrite_keeps {W : Foot} {s0 s : State} {format : Nat} {body : List Byte} (hW : liveWriteFoot.Le W) (h : Keeps W s0 s) :
    Keeps W s0 (liveWrite s format body) := by
  unfold liveWrite
  repeat' first
    | with_reducible assumption
    | with_reducible apply setShow_keeps
    | with_reducible apply State.store_keeps
    | with_reducible apply State.set_keeps
    | exact hW.fld (by decide +kernel)
    | exact hW.trans (Foot.le_of (by decide +kernel))
    | exact Eq.refl true

/-- What `heldPut` may change. -/
def heldPutFoot : Foot :=
  ⟨[], [.hst, .upd], false⟩

theorem heldPut_keeps {W : Foot} {s0 s : State} {h_ : Held} (hW : heldPutFoot.Le W) (h : Keeps W s0 s) :
    Keeps W s0 (heldPut s h_) := by
  unfold heldPut
  repeat' first
    | with_reducible assumption
    | with_reducible apply State.setHst_keeps
    | with_reducible apply State.setUpd_keeps
    | exact hW.trans (Foot.le_of (by decide +kernel))

/-- What `settingsSeal` may change. -/
def settingsSealFoot : Foot :=
  .union [⟨[Reg.updSetStatusFormat, Reg.updSetStatusDefaulted, Reg.updSetStatusMirrorPend, Reg.updSetGenGen], [.hst,
    .upd], false⟩, outcomeAtFrame]

theorem settingsSeal_keeps {W : Foot} {s0 s : State} {src : Nat} (hW : settingsSealFoot.Le W) (h : Keeps W s0 s) :
    Keeps W s0 (settingsSeal s src) := by
  unfold settingsSeal
  repeat' first
    | with_reducible assumption
    | with_reducible apply heldPut_keeps
    | with_reducible apply State.store_keeps
    | with_reducible apply State.set_keeps
    | with_reducible apply liveWrite_keeps
    | with_reducible apply State.setUpd_keeps
    | with_reducible apply Keeps.ite
    | exact hW.fld (by decide +kernel)
    | exact hW.trans (Foot.le_of (by decide +kernel))
    | exact Eq.refl true

/-- What `settingsQuarantine` may change. -/
def settingsQuarantineFoot : Foot :=
  .union [outcomeAtFrame]

theorem settingsQuarantine_keeps {W : Foot} {s0 s : State} (hW : settingsQuarantineFoot.Le W) (h : Keeps W s0 s) :
    Keeps W s0 (settingsQuarantine s) := by
  unfold settingsQuarantine
  repeat' first
    | with_reducible assumption
    | with_reducible apply State.store_keeps
    | exact hW.trans (Foot.le_of (by decide +kernel))

/-- What `settingsRestore` may change. -/
def settingsRestoreFoot : Foot :=
  .union [⟨[Reg.updSetStatusFormat, Reg.updSetStatusRestored, Reg.updSetStatusMirrorPend, Reg.updSetGenGen], [.hst,
    .upd], false⟩, outcomeAtFrame]

theorem settingsRestore_keeps {W : Foot} {s0 s : State} (hW : settingsRestoreFoot.Le W) (h : Keeps W s0 s) :
    Keeps W s0 (settingsRestore s) := by
  unfold settingsRestore
  repeat' first
    | with_reducible assumption
    | with_reducible apply heldPut_keeps
    | with_reducible apply setShow_keeps
    | with_reducible apply State.store_keeps
    | with_reducible apply State.set_keeps
    | with_reducible apply Keeps.ite
    | exact hW.fld (by decide +kernel)
    | exact hW.trans (Foot.le_of (by decide +kernel))
    | exact Eq.refl true

/-- What `updActivate` may change. -/
def updActivateFoot : Foot :=
  .union [⟨[Reg.updStatusPendState, Reg.updActAtLoUs, Reg.updActAtHiUs, Reg.updActCtlResult, Reg.updActTagTag,
    Reg.updIrqStatusScheduled], [], false⟩, ringAnswerFrame]

theorem updActivate_keeps {W : Foot} {s0 s : State} {at_ : Nat} {tag : Nat} (hW : updActivateFoot.Le W) (h : Keeps W s0 s) :
    Keeps W s0 (updActivate s at_ tag) := by
  unfold updActivate
  repeat' first
    | with_reducible assumption
    | with_reducible apply State.wr_keeps
    | with_reducible apply State.set_keeps
    | with_reducible apply State.wrPair_keeps
    | with_reducible apply updNotice_keeps
    | with_reducible apply Keeps.ite
    | exact hW.fld (by decide +kernel)
    | exact hW.trans (Foot.le_of (by decide +kernel))
    | exact Eq.refl true

/-- What `trialLose` may change. -/
def trialLoseFoot : Foot :=
  .union [trialLoseFrame]

theorem trialLose_keeps {W : Foot} {s0 s : State} (hW : trialLoseFoot.Le W) (h : Keeps W s0 s) :
    Keeps W s0 (trialLose s) := by
  unfold trialLose
  repeat' first
    | with_reducible assumption
    | with_reducible apply settingsRestore_keeps
    | with_reducible apply settingsQuarantine_keeps
    | with_reducible apply State.wr_keeps
    | with_reducible apply State.set_keeps
    | with_reducible apply updNotice_keeps
    | with_reducible apply recordWarden_keeps
    | with_reducible apply State.setUpd_keeps
    | with_reducible apply State.clr_keeps
    | with_reducible apply setSlot_keeps
    | with_reducible apply Keeps.ite
    | exact hW.fld (by decide +kernel)
    | exact hW.trans (Foot.le_of (by decide +kernel))
    | exact Eq.refl true

/-- What `trialFail` may change. -/
def trialFailFoot : Foot :=
  .union [⟨[Reg.sysOpmodeCause, Reg.sysOpmodePrevMode, Reg.sysOpmodeMode, Reg.pwrVcoreVguard, Reg.pwrVcoreSetpointMv,
    Reg.rstStatusPerst, Reg.rstStatusPhase, Reg.rstDrstsCount, Reg.rstOpsecLoOpsec, Reg.rstOpsecHiOpsec,
    Reg.hvbStatusHb, Reg.hvbStatusRetractLine, Reg.hvbStatusHvFaultLine], [.loHalf, .hiLatch, .resp, .boot, .rst,
    .ang, .sim, .cs, .ce, .spn, .pre, .age, .ldp, .oce, .cry, .bcm, .jnl, .change, .gated, .shadow, .pwr, .thm, .dom],
    true⟩, hvRetractFrame, trialLoseFrame, causeSetFrame]

theorem trialFail_keeps {W : Foot} {s0 s : State} (hW : trialFailFoot.Le W) (h : Keeps W s0 s) :
    Keeps W s0 (trialFail s) := by
  unfold trialFail
  repeat' first
    | with_reducible assumption
    | with_reducible apply drstRequest_keeps
    | with_reducible apply trialLose_keeps
    | exact hW.trans (Foot.le_of (by decide +kernel))

/-- What `keyApply` may change. -/
def keyApplyFoot : Foot :=
  ⟨[], [.upd], false⟩

theorem keyApply_keeps {W : Foot} {s0 s : State} {b : List Byte} (hW : keyApplyFoot.Le W) (h : Keeps W s0 s) :
    Keeps W s0 (keyApply s b).2 := by
  unfold keyApply
  repeat' first
    | with_reducible assumption
    | with_reducible apply State.setUpd_keeps
    | exact hW.trans (Foot.le_of (by decide +kernel))
    | split

end Sys2Proof.Machine
end

