-- ==== Sys2Proof/Laws/FootUpdate.lean ====
section
/-!
SUPPORT. Footprints of the operations of Machine/Update.lean: what each may change, and that it changes nothing else.
-/

namespace Sys2Proof.Machine

set_option Elab.async false

theorem execFirmwareImageDownload_keeps {W : Foot} {s0 s : State} {fn : Nat} {offset : Nat} {data : List Byte} (hW : execFirmwareImageDownloadFrame.Le W) (h : Keeps W s0 s) :
    KeepsOut W s0 (execFirmwareImageDownload fn offset data s) := by
  unfold execFirmwareImageDownload
  repeat' first
    | with_reducible assumption
    | with_reducible intro _
    | with_reducible apply KeepsOut.next
    | with_reducible apply stageBegin_keeps
    | with_reducible apply adminReply_keeps
    | with_reducible apply State.setUpd_keeps
    | with_reducible apply norWrite_keeps
    | with_reducible apply adminRun_keeps
    | with_reducible apply Keeps.ite
    | exact hW.trans (Foot.le_of (by decide +kernel))

/-- What `commitStage` may change. -/
def commitStageFoot : Foot :=
  .union [commitStageFrame]

theorem commitStage_keeps {W : Foot} {s0 s : State} {fn : Nat} {slot : Nat} {arm : Bool} (hW : commitStageFoot.Le W) (h : Keeps W s0 s) :
    Keeps W s0 (commitStage s fn slot arm) := by
  unfold commitStage
  repeat' first
    | with_reducible assumption
    | with_reducible intro _
    | with_reducible apply lockFree_keeps
    | with_reducible apply pendDrop_keeps
    | with_reducible apply State.wr_keeps
    | with_reducible apply adminReply_keeps
    | with_reducible apply State.setUpd_keeps
    | with_reducible apply adminRun_keeps
    | with_reducible apply Keeps.ite
    | exact hW.fld (by decide +kernel)
    | exact hW.trans (Foot.le_of (by decide +kernel))
    | exact Eq.refl true

theorem execFirmwareCommitCa0_keeps {W : Foot} {s0 s : State} {fn : Nat} {slot : Nat} (hW : execFirmwareCommitCa0Frame.Le W) (h : Keeps W s0 s) :
    KeepsOut W s0 (execFirmwareCommitCa0 fn slot s) := by
  unfold execFirmwareCommitCa0
  repeat' first
    | with_reducible assumption
    | with_reducible apply KeepsOut.next
    | with_reducible apply commitStage_keeps
    | exact hW.trans (Foot.le_of (by decide +kernel))

theorem execFirmwareCommitCa1_keeps {W : Foot} {s0 s : State} {fn : Nat} {slot : Nat} (hW : execFirmwareCommitCa1Frame.Le W) (h : Keeps W s0 s) :
    KeepsOut W s0 (execFirmwareCommitCa1 fn slot s) := by
  unfold execFirmwareCommitCa1
  repeat' first
    | with_reducible assumption
    | with_reducible apply KeepsOut.next
    | with_reducible apply commitStage_keeps
    | exact hW.trans (Foot.le_of (by decide +kernel))

theorem execFirmwareCommitCa2_keeps {W : Foot} {s0 s : State} {fn : Nat} {slot : Nat} (hW : execFirmwareCommitCa2Frame.Le W) (h : Keeps W s0 s) :
    KeepsOut W s0 (execFirmwareCommitCa2 fn slot s) := by
  unfold execFirmwareCommitCa2
  repeat' first
    | with_reducible assumption
    | with_reducible intro _
    | with_reducible apply KeepsOut.next
    | with_reducible apply State.wr_keeps
    | with_reducible apply pendPut_keeps
    | with_reducible apply adminReply_keeps
    | with_reducible apply adminRun_keeps
    | with_reducible apply Keeps.ite
    | exact hW.fld (by decide +kernel)
    | exact hW.trans (Foot.le_of (by decide +kernel))
    | exact Eq.refl true

theorem execUpdStageAuthDone_keeps {W : Foot} {s0 s : State} (hW : execUpdStageAuthDoneFrame.Le W) (h : Keeps W s0 s) :
    KeepsOut W s0 (execUpdStageAuthDone s) := by
  unfold execUpdStageAuthDone
  repeat' first
    | with_reducible assumption
    | with_reducible apply KeepsOut.next
    | with_reducible apply updNak_keeps
    | with_reducible apply adminReply_keeps
    | with_reducible apply stageFail_keeps
    | with_reducible apply State.setUpd_keeps
    | with_reducible apply stagePass_keeps
    | with_reducible apply slotAuth_keeps
    | (apply Keeps.of_snd; assumption)
    | exact hW.trans (Foot.le_of (by decide +kernel))
    | split
    | dsimp only

theorem execLockIdleExpiry_keeps {W : Foot} {s0 s : State} (hW : execLockIdleExpiryFrame.Le W) (h : Keeps W s0 s) :
    KeepsOut W s0 (execLockIdleExpiry s) := by
  unfold execLockIdleExpiry
  repeat' first
    | with_reducible assumption
    | with_reducible apply KeepsOut.next
    | with_reducible apply KeepsOut.ite
    | with_reducible apply lockFree_keeps
    | with_reducible apply State.setUpd_keeps
    | exact hW.trans (Foot.le_of (by decide +kernel))

theorem execActivateAtReached_keeps {W : Foot} {s0 s : State} (hW : execActivateAtReachedFrame.Le W) (h : Keeps W s0 s) :
    KeepsOut W s0 (execActivateAtReached s) := by
  unfold execActivateAtReached
  repeat' first
    | with_reducible assumption
    | with_reducible apply KeepsOut.next
    | with_reducible apply KeepsOut.ite
    | with_reducible apply drstRequest_keeps
    | with_reducible apply setDomClock_keeps
    | exact hW.trans (Foot.le_of (by decide +kernel))

/-- What `waveState` may change. -/
def waveStateFoot : Foot :=
  ⟨[Reg.updWaveCtlState, Reg.updIrqStatusWave], [], false⟩

theorem waveState_keeps {W : Foot} {s0 s : State} {v : Nat} (hW : waveStateFoot.Le W) (h : Keeps W s0 s) :
    Keeps W s0 (waveState s v) := by
  unfold waveState
  repeat' first
    | with_reducible assumption
    | with_reducible apply State.wr_keeps
    | with_reducible apply State.set_keeps
    | exact hW.fld (by decide +kernel)
    | exact Eq.refl true

/-- What `wavesDone` may change. -/
def wavesDoneFoot : Foot :=
  .union [⟨[Reg.updStatusPendState, Reg.updActAtLoUs, Reg.updActAtHiUs, Reg.updActCtlResult, Reg.updActTagTag,
    Reg.updWaveCtlState, Reg.updIrqStatusWave, Reg.updIrqStatusScheduled], [], false⟩, ringAnswerFrame]

theorem wavesDone_keeps {W : Foot} {s0 s : State} {at_ : Nat} (hW : wavesDoneFoot.Le W) (h : Keeps W s0 s) :
    Keeps W s0 (wavesDone s at_) := by
  unfold wavesDone
  repeat' first
    | with_reducible assumption
    | with_reducible apply waveState_keeps
    | with_reducible apply updActivate_keeps
    | with_reducible apply Keeps.ite
    | exact hW.trans (Foot.le_of (by decide +kernel))

/-- What `waveSend` may change. -/
def waveSendFoot : Foot :=
  ⟨[Reg.updWaveCtlState, Reg.updWaveCtlGroup, Reg.updIrqStatusWave, Reg.pmuOvfOvf, Reg.pmuCntLoCount,
    Reg.pmuCntHiCount], [.dom, .upd], false⟩

theorem waveSend_keeps {W : Foot} {s0 s : State} {g : Nat} {at_ : Nat} (hW : waveSendFoot.Le W) (h : Keeps W s0 s) :
    Keeps W s0 (waveSend s g at_) := by
  unfold waveSend
  repeat' first
    | with_reducible assumption
    | with_reducible apply State.wr_keeps
    | with_reducible apply waveState_keeps
    | with_reducible apply domBroadcast_keeps
    | with_reducible apply State.setUpd_keeps
    | exact hW.fld (by decide +kernel)
    | exact hW.trans (Foot.le_of (by decide +kernel))
    | exact Eq.refl true

theorem execWaveAtReached_keeps {W : Foot} {s0 s : State} (hW : execWaveAtReachedFrame.Le W) (h : Keeps W s0 s) :
    KeepsOut W s0 (execWaveAtReached s) := by
  have hs : ∀ x g a, Keeps W s0 x → Keeps W s0 (waveSend x g a) := fun x g a hx =>
    waveSend_keeps (hW.trans (Foot.le_of (by decide +kernel))) hx
  have hd : ∀ x a, Keeps W s0 x → Keeps W s0 (wavesDone x a) := fun x a hx =>
    wavesDone_keeps (hW.trans (Foot.le_of (by decide +kernel))) hx
  have hu : Keeps W s0 (s.setUpd { s.upd with groups := stagedGroups s }) :=
    State.setUpd_keeps (hW.trans (Foot.le_of (by decide +kernel))) h
  rw [execWaveAtReached]
  refine KeepsOut.ite (.next h) (KeepsOut.ite ?_ (KeepsOut.ite ?_ (.next h)))
  · dsimp only
    revert hu
    generalize s.rdPair Reg.updWaveAtLoUs Reg.updWaveAtHiUs = k
    generalize s.setUpd { s.upd with groups := stagedGroups s } = t
    intro hu
    generalize t.upd.groups = l
    cases l
    · exact .next (hd _ _ hu)
    · exact .next (hs _ _ _ hu)
  · generalize s.upd.groups = l
    generalize s.upd.waveAt + 1000000 * s.rd Reg.updWaveTimeSpacingS = k
    cases l
    · exact .next h
    · exact .next (hs _ _ _ h)

/-- What `waveJudge` may change. -/
def waveJudgeFoot : Foot :=
  .union [⟨[Reg.updStatusPendState, Reg.updActAtLoUs, Reg.updActAtHiUs, Reg.updActCtlResult, Reg.updActTagTag,
    Reg.updWaveCtlState, Reg.updIrqStatusWave, Reg.updIrqStatusScheduled], [.upd], false⟩, ringAnswerFrame]

theorem waveJudge_keeps {W : Foot} {s0 s : State} {id : Nat} {payload : List Byte} (hW : waveJudgeFoot.Le W) (h : Keeps W s0 s) :
    Keeps W s0 (waveJudge s id payload) := by
  unfold waveJudge
  repeat' first
    | with_reducible assumption
    | with_reducible apply wavesDone_keeps
    | with_reducible apply waveState_keeps
    | with_reducible apply State.setUpd_keeps
    | with_reducible apply Keeps.ite
    | exact hW.trans (Foot.le_of (by decide +kernel))

theorem execWaveTimeout_keeps {W : Foot} {s0 s : State} (hW : execWaveTimeoutFrame.Le W) (h : Keeps W s0 s) :
    KeepsOut W s0 (execWaveTimeout s) := by
  unfold execWaveTimeout
  repeat' first
    | with_reducible assumption
    | with_reducible apply KeepsOut.next
    | with_reducible apply waveState_keeps
    | with_reducible apply Keeps.ite
    | exact hW.trans (Foot.le_of (by decide +kernel))

/-- What `fuseAdvance` may change. -/
def fuseAdvanceFoot : Foot :=
  ⟨[Reg.updSlotState], [.upd], false⟩

theorem fuseAdvance_keeps {W : Foot} {s0 s : State} {slot : Nat} (hW : fuseAdvanceFoot.Le W) (h : Keeps W s0 s) :
    Keeps W s0 (fuseAdvance s slot) := by
  unfold fuseAdvance
  repeat' first
    | with_reducible assumption
    | with_reducible intro _
    | with_reducible apply Keeps.each
    | with_reducible apply State.setUpd_keeps
    | with_reducible apply setSlot_keeps
    | with_reducible apply Keeps.ite
    | exact hW.trans (Foot.le_of (by decide +kernel))

/-- What `trialConfirm` may change. -/
def trialConfirmFoot : Foot :=
  .union [⟨[Reg.updStatusLock, Reg.updStatusTrial, Reg.updStatusActiveSlot, Reg.updSlotState, Reg.updTrialBoots,
    Reg.updTrialElapsed], [.upd], false⟩, ringAnswerFrame]

theorem trialConfirm_keeps {W : Foot} {s0 s : State} {slot : Nat} (hW : trialConfirmFoot.Le W) (h : Keeps W s0 s) :
    Keeps W s0 (trialConfirm s slot) := by
  unfold trialConfirm
  repeat' first
    | with_reducible assumption
    | with_reducible apply lockFree_keeps
    | with_reducible apply fuseAdvance_keeps
    | with_reducible apply State.wr_keeps
    | with_reducible apply updNotice_keeps
    | with_reducible apply State.clr_keeps
    | with_reducible apply setSlot_keeps
    | exact hW.fld (by decide +kernel)
    | exact hW.trans (Foot.le_of (by decide +kernel))
    | exact Eq.refl true
    | split

theorem execUpdConfirmWrite_keeps {W : Foot} {s0 s : State} {priv : Priv} {data : Word} (hW : execUpdConfirmWriteFrame.Le W) (h : Keeps W s0 s) :
    KeepsOut W s0 (execUpdConfirmWrite priv data s) := by
  unfold execUpdConfirmWrite
  repeat' first
    | with_reducible assumption
    | with_reducible apply KeepsOut.next
    | with_reducible apply KeepsOut.ite
    | with_reducible apply State.answer_keeps
    | with_reducible apply busError_keeps
    | with_reducible apply corrected_keeps
    | with_reducible apply trialConfirm_keeps
    | exact hW.trans (Foot.le_of (by decide +kernel))
    | split

theorem execTrialWindowExpiry_keeps {W : Foot} {s0 s : State} (hW : execTrialWindowExpiryFrame.Le W) (h : Keeps W s0 s) :
    KeepsOut W s0 (execTrialWindowExpiry s) := by
  unfold execTrialWindowExpiry
  repeat' first
    | with_reducible assumption
    | with_reducible apply KeepsOut.next
    | with_reducible apply KeepsOut.ite
    | with_reducible apply trialFail_keeps
    | with_reducible apply State.wr_keeps_any
    | exact hW.2.2 rfl
    | exact hW.trans (Foot.le_of (by decide +kernel))

theorem execSafeParkDone_keeps {W : Foot} {s0 s : State} (hW : execSafeParkDoneFrame.Le W) (h : Keeps W s0 s) :
    KeepsOut W s0 (execSafeParkDone s) := by
  unfold execSafeParkDone
  repeat' first
    | with_reducible assumption
    | with_reducible apply KeepsOut.next
    | with_reducible apply trialFail_keeps
    | with_reducible apply safeParkDone_keeps
    | with_reducible apply Keeps.ite
    | exact hW.trans (Foot.le_of (by decide +kernel))

theorem execWardenWatchdogExpiry_keeps {W : Foot} {s0 s : State} (hW : execWardenWatchdogExpiryFrame.Le W) (h : Keeps W s0 s) :
    KeepsOut W s0 (execWardenWatchdogExpiry s) := by
  unfold execWardenWatchdogExpiry
  repeat' first
    | with_reducible assumption
    | with_reducible apply KeepsOut.next
    | with_reducible apply drstRequest_keeps
    | with_reducible apply trialLose_keeps
    | with_reducible apply Keeps.ite
    | exact hW.trans (Foot.le_of (by decide +kernel))

theorem execUpdSetCmd_keeps {W : Foot} {s0 s : State} {data : Word} (hW : execUpdSetCmdFrame.Le W) (h : Keeps W s0 s) :
    KeepsOut W s0 (execUpdSetCmd data s) := by
  unfold execUpdSetCmd
  repeat' first
    | with_reducible assumption
    | with_reducible apply KeepsOut.next
    | with_reducible apply KeepsOut.ite
    | with_reducible apply State.answer_keeps
    | with_reducible apply State.wr_keeps
    | with_reducible apply liveWrite_keeps
    | with_reducible apply Keeps.ite
    | exact hW.fld (by decide +kernel)
    | exact hW.trans (Foot.le_of (by decide +kernel))
    | exact Eq.refl true

theorem execSettingsMirrorDone_keeps {W : Foot} {s0 s : State} (hW : execSettingsMirrorDoneFrame.Le W) (h : Keeps W s0 s) :
    KeepsOut W s0 (execSettingsMirrorDone s) := by
  unfold execSettingsMirrorDone
  repeat' first
    | with_reducible assumption
    | with_reducible apply KeepsOut.next
    | with_reducible apply KeepsOut.ite
    | with_reducible apply State.setUpd_keeps
    | with_reducible apply State.clr_keeps
    | exact hW.fld (by decide +kernel)
    | exact hW.trans (Foot.le_of (by decide +kernel))
    | exact Eq.refl true

theorem execSave_keeps {W : Foot} {s0 s : State} (hW : execSaveFrame.Le W) (h : Keeps W s0 s) :
    KeepsOut W s0 (execSave s) := by
  unfold execSave
  repeat' first
    | with_reducible assumption
    | with_reducible apply KeepsOut.next
    | with_reducible apply State.answer_keeps
    | with_reducible apply State.wr_keeps
    | with_reducible apply liveWrite_keeps
    | exact hW.fld (by decide +kernel)
    | exact hW.trans (Foot.le_of (by decide +kernel))
    | exact Eq.refl true

theorem execKeycmd_keeps {W : Foot} {s0 s : State} (hW : execKeycmdFrame.Le W) (h : Keeps W s0 s) :
    KeepsOut W s0 (execKeycmd s) := by
  unfold execKeycmd
  repeat' first
    | with_reducible assumption
    | with_reducible apply KeepsOut.next
    | with_reducible apply KeepsOut.ite
    | with_reducible apply keyApply_keeps
    | with_reducible apply mailReply_keeps
    | (apply Keeps.of_snd; assumption)
    | exact hW.trans (Foot.le_of (by decide +kernel))
    | split

end Sys2Proof.Machine
end

