-- ==== Sys2Proof/Laws/FootDomain.lean ====
section
/-!
SUPPORT. Footprints of the operations of Machine/Domain.lean: what each may change, and that it changes nothing else.
-/

namespace Sys2Proof.Machine

set_option Elab.async false

/-- What `domNotice` may change. -/
def domNoticeFoot : Foot :=
  .union [ringAnswerFrame]

theorem domNotice_keeps {W : Foot} {s0 s : State} {event : Nat} (hW : domNoticeFoot.Le W) (h : Keeps W s0 s) :
    Keeps W s0 (domNotice s event) := by
  unfold domNotice
  repeat' first
    | with_reducible assumption
    | with_reducible apply mailboxNotice_keeps
    | exact hW.trans (Foot.le_of (by decide +kernel))

/-- What `domEnter` may change. -/
def domEnterFoot : Foot :=
  .union [⟨[Reg.domStatusTimeLocked, Reg.domStatusTimeValid, Reg.domStatusState, Reg.domIrqStatusStateChg], [.dom],
    false⟩, ringAnswerFrame]

theorem domEnter_keeps {W : Foot} {s0 s : State} {st : Nat} (hW : domEnterFoot.Le W) (h : Keeps W s0 s) :
    Keeps W s0 (domEnter s st) := by
  unfold domEnter
  repeat' first
    | with_reducible assumption
    | with_reducible apply State.wr_keeps
    | with_reducible apply State.set_keeps
    | with_reducible apply State.setDom_keeps
    | with_reducible apply domNotice_keeps
    | with_reducible apply State.clr_keeps
    | with_reducible apply Keeps.ite
    | exact hW.fld (by decide +kernel)
    | exact hW.trans (Foot.le_of (by decide +kernel))
    | exact Eq.refl true

/-- What `ringChanged` may change. -/
def ringChangedFoot : Foot :=
  ⟨[Reg.domIrqStatusRing], [], false⟩

theorem ringChanged_keeps {W : Foot} {s0 s : State} (hW : ringChangedFoot.Le W) (h : Keeps W s0 s) :
    Keeps W s0 (ringChanged s) := by
  unfold ringChanged
  repeat' first
    | with_reducible assumption
    | with_reducible apply State.set_keeps
    | exact hW.fld (by decide +kernel)
    | exact Eq.refl true

/-- What `rxShow` may change. -/
def rxShowFoot : Foot :=
  ⟨[Reg.domRxBytes, Reg.domRxCtlCount], [], false⟩

theorem rxShow_keeps {W : Foot} {s0 s : State} (hW : rxShowFoot.Le W) (h : Keeps W s0 s) :
    Keeps W s0 (rxShow s) := by
  unfold rxShow
  repeat' first
    | with_reducible assumption
    | with_reducible intro _
    | with_reducible apply State.wr_elem_keeps
    | with_reducible apply State.wr_keeps
    | with_reducible apply Keeps.each
    | exact hW.fld (by decide +kernel)
    | exact Eq.refl true

/-- What `rxPush` may change. -/
def rxPushFoot : Foot :=
  ⟨[Reg.domIrqStatusRx, Reg.domRxBytes, Reg.domRxCtlDropped, Reg.domRxCtlCount], [.dom], false⟩

theorem rxPush_keeps {W : Foot} {s0 s : State} {b : List Byte} (hW : rxPushFoot.Le W) (h : Keeps W s0 s) :
    Keeps W s0 (rxPush s b) := by
  unfold rxPush
  repeat' first
    | with_reducible assumption
    | with_reducible apply State.bump_keeps
    | with_reducible apply State.set_keeps
    | with_reducible apply rxShow_keeps
    | with_reducible apply State.setDom_keeps
    | with_reducible apply Keeps.ite
    | exact hW.fld (by decide +kernel)
    | exact hW.trans (Foot.le_of (by decide +kernel))
    | exact Eq.refl true

/-- What `passOn` may change. -/
def passOnFoot : Foot :=
  ⟨[Reg.pmuOvfOvf, Reg.pmuCntLoCount, Reg.pmuCntHiCount], [.dom], false⟩

theorem passOn_keeps {W : Foot} {s0 s : State} {f : Frame} {cls : Nat} {type : Nat} {payload : List Byte} (hW : passOnFoot.Le W) (h : Keeps W s0 s) :
    Keeps W s0 (passOn s f cls type payload) := by
  unfold passOn
  repeat' first
    | with_reducible assumption
    | with_reducible apply domSend_keeps
    | with_reducible apply Keeps.ite
    | exact hW.trans (Foot.le_of (by decide +kernel))

/-- What `domFrame` may change. -/
def domFrameFoot : Foot :=
  ⟨[Reg.domPortStatusLastHeard, Reg.domPortErrsCrc, Reg.pmuOvfOvf, Reg.pmuCntLoCount, Reg.pmuCntHiCount], [.dom],
    false⟩

theorem domFrame_keeps {W : Foot} {s0 s : State} {f : Frame} {cls : Nat} {type : Nat} {pass : State → List Byte} {worker : State → State} {manager : State → State} (hW : domFrameFoot.Le W) (h : Keeps W s0 s) (hworker : ∀ a0, Keeps W s0 a0 → Keeps W s0 (worker a0)) (hmanager : ∀ a0, Keeps W s0 a0 → Keeps W s0 (manager a0)) :
    Keeps W s0 (domFrame s f cls type pass worker manager) := by
  unfold domFrame
  repeat' first
    | with_reducible assumption
    | with_reducible apply hworker
    | with_reducible apply hmanager
    | with_reducible apply State.bump_elem_keeps
    | with_reducible apply pmuEvent_keeps
    | with_reducible apply State.wr_elem_keeps
    | with_reducible apply State.setDom_keeps
    | with_reducible apply passOn_keeps
    | with_reducible apply Keeps.ite
    | exact hW.fld (by decide +kernel)
    | exact hW.trans (Foot.le_of (by decide +kernel))

/-- What `toFifo` may change. -/
def toFifoFoot : Foot :=
  ⟨[Reg.domIrqStatusRx, Reg.domRxBytes, Reg.domRxCtlDropped, Reg.domRxCtlCount], [.dom], false⟩

theorem toFifo_keeps {W : Foot} {s0 s : State} {f : Frame} {cls : Nat} {type : Nat} (hW : toFifoFoot.Le W) (h : Keeps W s0 s) :
    Keeps W s0 (toFifo f cls type s) := by
  unfold toFifo
  repeat' first
    | with_reducible assumption
    | with_reducible apply rxPush_keeps
    | exact hW.trans (Foot.le_of (by decide +kernel))

theorem execSafe_keeps {W : Foot} {s0 s : State} {f : Frame} (hW : execSafeFrame.Le W) (h : Keeps W s0 s) :
    KeepsOut W s0 (execSafe f s) := by
  unfold execSafe
  repeat' first
    | with_reducible assumption
    | with_reducible intro _
    | with_reducible apply KeepsOut.next
    | with_reducible apply domFrame_keeps
    | with_reducible apply safeEnter_keeps
    | with_reducible apply State.set_keeps
    | with_reducible apply Keeps.ite
    | with_reducible apply Keeps.same_id
    | exact hW.fld (by decide +kernel)
    | exact hW.trans (Foot.le_of (by decide +kernel))
    | exact Eq.refl true

theorem execActivate_keeps {W : Foot} {s0 s : State} {f : Frame} (hW : execActivateFrame.Le W) (h : Keeps W s0 s) :
    KeepsOut W s0 (execActivate f s) := by
  unfold execActivate
  repeat' first
    | with_reducible assumption
    | with_reducible intro _
    | with_reducible apply KeepsOut.next
    | with_reducible apply domFrame_keeps
    | with_reducible apply updActivate_keeps
    | with_reducible apply toFifo_keeps
    | with_reducible apply Keeps.ite
    | exact hW.trans (Foot.le_of (by decide +kernel))

theorem execReset_keeps {W : Foot} {s0 s : State} {f : Frame} (hW : execResetFrame.Le W) (h : Keeps W s0 s) :
    KeepsOut W s0 (execReset f s) := by
  unfold execReset
  repeat' first
    | with_reducible assumption
    | with_reducible intro _
    | with_reducible apply KeepsOut.next
    | with_reducible apply domFrame_keeps
    | with_reducible apply drstRequest_keeps
    | with_reducible apply corrected_keeps
    | with_reducible apply toFifo_keeps
    | with_reducible apply Keeps.ite
    | exact hW.trans (Foot.le_of (by decide +kernel))

/-- What `noticeQueue` may change. -/
def noticeQueueFoot : Foot :=
  ⟨[Reg.srvIrqStatusNbrDrop, Reg.pmuOvfOvf, Reg.pmuCntLoCount, Reg.pmuCntHiCount], [.srv], false⟩

theorem noticeQueue_keeps {W : Foot} {s0 s : State} {n : Nat} {x : Notice} (hW : noticeQueueFoot.Le W) (h : Keeps W s0 s) :
    Keeps W s0 (noticeQueue s n x) := by
  unfold noticeQueue
  repeat' first
    | with_reducible assumption
    | with_reducible apply pmuEvent_keeps
    | with_reducible apply State.set_elem_keeps
    | with_reducible apply State.setSrv_keeps
    | with_reducible apply Keeps.ite
    | exact hW.fld (by decide +kernel)
    | exact hW.trans (Foot.le_of (by decide +kernel))

/-- What `noticeTake` may change. -/
def noticeTakeFoot : Foot :=
  ⟨[Reg.srvIrqStatusNbrDrop, Reg.domNbrCountsTaken, Reg.pmuOvfOvf, Reg.pmuCntLoCount, Reg.pmuCntHiCount], [.srv],
    false⟩

theorem noticeTake_keeps {W : Foot} {s0 s : State} {f : Frame} {now : Nat} (hW : noticeTakeFoot.Le W) (h : Keeps W s0 s) :
    Keeps W s0 (noticeTake s f now) := by
  unfold noticeTake
  repeat' first
    | with_reducible assumption
    | with_reducible apply noticeQueue_keeps
    | with_reducible apply State.addWrap_keeps
    | with_reducible apply Keeps.ite
    | exact hW.fld (by decide +kernel)
    | exact hW.trans (Foot.le_of (by decide +kernel))
    | exact Eq.refl true
    | split

theorem execNotice_keeps {W : Foot} {s0 s : State} {f : Frame} {now : Nat} (hW : execNoticeFrame.Le W) (h : Keeps W s0 s) :
    KeepsOut W s0 (execNotice f now s) := by
  unfold execNotice
  repeat' first
    | with_reducible assumption
    | with_reducible apply KeepsOut.next
    | with_reducible apply KeepsOut.ite
    | with_reducible apply State.bump_elem_keeps
    | with_reducible apply pmuEvent_keeps
    | with_reducible apply noticeTake_keeps
    | with_reducible apply State.setDom_keeps
    | with_reducible apply domSend_keeps
    | with_reducible apply Keeps.ite
    | exact hW.fld (by decide +kernel)
    | exact hW.trans (Foot.le_of (by decide +kernel))

/-- What `tapsReload` may change. -/
def tapsReloadFoot : Foot :=
  ⟨[], [.ce], false⟩

theorem tapsReload_keeps {W : Foot} {s0 s : State} (hW : tapsReloadFoot.Le W) (h : Keeps W s0 s) :
    Keeps W s0 (tapsReload s) := by
  unfold tapsReload
  repeat' first
    | with_reducible assumption
    | with_reducible intro _
    | with_reducible apply Keeps.each
    | with_reducible apply setTap_keeps
    | exact hW.trans (Foot.le_of (by decide +kernel))

/-- What `positionSet` may change. -/
def positionSetFoot : Foot :=
  .union [⟨[Reg.domStatusPort, Reg.domStatusPosition, Reg.domStaggerLastPos, Reg.domIrqStatusPosChg], [.ce], false⟩,
    ringAnswerFrame]

theorem positionSet_keeps {W : Foot} {s0 s : State} {port : Nat} {pos : Nat} (hW : positionSetFoot.Le W) (h : Keeps W s0 s) :
    Keeps W s0 (positionSet s port pos) := by
  unfold positionSet
  repeat' first
    | with_reducible assumption
    | with_reducible apply tapsReload_keeps
    | with_reducible apply State.wr_keeps
    | with_reducible apply State.set_keeps
    | with_reducible apply domNotice_keeps
    | with_reducible apply Keeps.ite
    | exact hW.fld (by decide +kernel)
    | exact hW.trans (Foot.le_of (by decide +kernel))
    | exact Eq.refl true

/-- What `enumBack` may change. -/
def enumBackFoot : Foot :=
  .union [⟨[Reg.domIrqStatusRing, Reg.domPortStatusBroken, Reg.domPortStatusWorkers], [.dom], false⟩, ringAnswerFrame]

theorem enumBack_keeps {W : Foot} {s0 s : State} {p : Nat} {count : Nat} (hW : enumBackFoot.Le W) (h : Keeps W s0 s) :
    Keeps W s0 (enumBack s p count) := by
  unfold enumBack
  repeat' first
    | with_reducible assumption
    | with_reducible apply State.wr_elem_keeps
    | with_reducible apply State.setDom_keeps
    | with_reducible apply domNotice_keeps
    | with_reducible apply ringChanged_keeps
    | with_reducible apply State.clr_elem_keeps
    | with_reducible apply Keeps.ite
    | exact hW.fld (by decide +kernel)
    | exact hW.trans (Foot.le_of (by decide +kernel))

theorem execEnum_keeps {W : Foot} {s0 s : State} {f : Frame} (hW : execEnumFrame.Le W) (h : Keeps W s0 s) :
    KeepsOut W s0 (execEnum f s) := by
  unfold execEnum
  repeat' first
    | with_reducible assumption
    | with_reducible intro _
    | with_reducible apply KeepsOut.next
    | with_reducible apply domFrame_keeps
    | with_reducible apply enumBack_keeps
    | with_reducible apply domEnter_keeps
    | with_reducible apply positionSet_keeps
    | exact hW.trans (Foot.le_of (by decide +kernel))

/-- What `syncTake` may change. -/
def syncTakeFoot : Foot :=
  .union [⟨[Reg.domStatusTimeLocked, Reg.domStatusTimeValid, Reg.domStatusState, Reg.domTimeLoUs, Reg.domTimeHiUs,
    Reg.domSyncErrNs, Reg.domSyncLinkdly, Reg.domIrqStatusStateChg], [.dom], false⟩, ringAnswerFrame]

theorem syncTake_keeps {W : Foot} {s0 s : State} {f : Frame} {own : Nat} (hW : syncTakeFoot.Le W) (h : Keeps W s0 s) :
    Keeps W s0 (syncTake s f own) := by
  unfold syncTake
  repeat' first
    | with_reducible assumption
    | with_reducible apply setDomClock_keeps
    | with_reducible apply domEnter_keeps
    | with_reducible apply State.wr_keeps
    | with_reducible apply State.set_keeps
    | with_reducible apply State.setDom_keeps
    | with_reducible apply Keeps.ite
    | exact hW.fld (by decide +kernel)
    | exact hW.trans (Foot.le_of (by decide +kernel))
    | exact Eq.refl true

/-- What `syncBack` may change. -/
def syncBackFoot : Foot :=
  ⟨[Reg.domIrqStatusRing, Reg.domPortStatusBroken, Reg.domPortStatusLinkdly], [.dom], false⟩

theorem syncBack_keeps {W : Foot} {s0 s : State} {f : Frame} {rtt : Nat} (hW : syncBackFoot.Le W) (h : Keeps W s0 s) :
    Keeps W s0 (syncBack s f rtt) := by
  unfold syncBack
  repeat' first
    | with_reducible assumption
    | with_reducible apply State.wr_elem_keeps
    | with_reducible apply State.setDom_keeps
    | with_reducible apply ringChanged_keeps
    | with_reducible apply State.clr_elem_keeps
    | with_reducible apply Keeps.ite
    | exact hW.fld (by decide +kernel)
    | exact hW.trans (Foot.le_of (by decide +kernel))

theorem execSync_keeps {W : Foot} {s0 s : State} {f : Frame} {ns : Nat} {resid : Nat} (hW : execSyncFrame.Le W) (h : Keeps W s0 s) :
    KeepsOut W s0 (execSync f ns resid s) := by
  unfold execSync
  repeat' first
    | with_reducible assumption
    | with_reducible intro _
    | with_reducible apply KeepsOut.next
    | with_reducible apply domFrame_keeps
    | with_reducible apply syncBack_keeps
    | with_reducible apply syncTake_keeps
    | exact hW.trans (Foot.le_of (by decide +kernel))

/-- What `breakPorts` may change. -/
def breakPortsFoot : Foot :=
  ⟨[Reg.domIrqStatusRing, Reg.domPortStatusBroken], [], false⟩

theorem breakPorts_keeps {W : Foot} {s0 s : State} {out : Nat} (hW : breakPortsFoot.Le W) (h : Keeps W s0 s) :
    Keeps W s0 (breakPorts s out) := by
  unfold breakPorts
  repeat' first
    | with_reducible assumption
    | with_reducible intro _
    | with_reducible apply State.set_elem_keeps
    | with_reducible apply Keeps.each
    | with_reducible apply ringChanged_keeps
    | with_reducible apply Keeps.ite
    | exact hW.fld (by decide +kernel)
    | exact hW.trans (Foot.le_of (by decide +kernel))

theorem execEnumSend_keeps {W : Foot} {s0 s : State} (hW : execEnumSendFrame.Le W) (h : Keeps W s0 s) :
    KeepsOut W s0 (execEnumSend s) := by
  unfold execEnumSend
  repeat' first
    | with_reducible assumption
    | with_reducible apply KeepsOut.next
    | with_reducible apply KeepsOut.ite
    | with_reducible apply breakPorts_keeps
    | with_reducible apply State.setDom_keeps
    | with_reducible apply domBroadcast_keeps
    | exact hW.trans (Foot.le_of (by decide +kernel))

theorem execSyncSend_keeps {W : Foot} {s0 s : State} {now : Nat} (hW : execSyncSendFrame.Le W) (h : Keeps W s0 s) :
    KeepsOut W s0 (execSyncSend now s) := by
  unfold execSyncSend
  repeat' first
    | with_reducible assumption
    | with_reducible apply KeepsOut.next
    | with_reducible apply KeepsOut.ite
    | with_reducible apply setDomClock_keeps
    | with_reducible apply breakPorts_keeps
    | with_reducible apply State.setDom_keeps
    | with_reducible apply domBroadcast_keeps
    | exact hW.trans (Foot.le_of (by decide +kernel))

theorem execDomTimeSetWrite_keeps {W : Foot} {s0 s : State} {m : Nat} {data : Word} (hW : execDomTimeSetWriteFrame.Le W) (h : Keeps W s0 s) :
    KeepsOut W s0 (execDomTimeSetWrite m data s) := by
  unfold execDomTimeSetWrite
  repeat' first
    | with_reducible assumption
    | with_reducible apply KeepsOut.next
    | with_reducible apply KeepsOut.ite
    | with_reducible apply State.answer_keeps
    | with_reducible apply setDomClock_keeps
    | with_reducible apply stageHalf_keeps
    | with_reducible apply corrected_keeps
    | with_reducible apply State.setDom_keeps
    | exact hW.trans (Foot.le_of (by decide +kernel))

theorem execWxLaneUp_keeps {W : Foot} {s0 s : State} {port : Nat} (hW : execWxLaneUpFrame.Le W) (h : Keeps W s0 s) :
    KeepsOut W s0 (execWxLaneUp port s) := by
  unfold execWxLaneUp
  repeat' first
    | with_reducible assumption
    | with_reducible apply KeepsOut.next
    | with_reducible apply KeepsOut.ite
    | with_reducible apply domEnter_keeps
    | with_reducible apply State.set_elem_keeps
    | with_reducible apply ringChanged_keeps
    | with_reducible apply Keeps.ite
    | exact hW.fld (by decide +kernel)
    | exact hW.trans (Foot.le_of (by decide +kernel))

theorem execWxLaneDown_keeps {W : Foot} {s0 s : State} {port : Nat} {n : Nat} (hW : execWxLaneDownFrame.Le W) (h : Keeps W s0 s) :
    KeepsOut W s0 (execWxLaneDown port n s) := by
  unfold execWxLaneDown
  repeat' first
    | with_reducible assumption
    | with_reducible apply KeepsOut.next
    | with_reducible apply KeepsOut.ite
    | with_reducible apply State.bump_elem_keeps
    | with_reducible apply domEnter_keeps
    | with_reducible apply State.set_elem_keeps
    | with_reducible apply unitFatal_keeps
    | with_reducible apply ringChanged_keeps
    | with_reducible apply State.clr_elem_keeps
    | with_reducible apply Keeps.ite
    | exact hW.fld (by decide +kernel)
    | exact hW.trans (Foot.le_of (by decide +kernel))

theorem execListenTimeout_keeps {W : Foot} {s0 s : State} (hW : execListenTimeoutFrame.Le W) (h : Keeps W s0 s) :
    KeepsOut W s0 (execListenTimeout s) := by
  unfold execListenTimeout
  repeat' first
    | with_reducible assumption
    | with_reducible apply KeepsOut.next
    | with_reducible apply domEnter_keeps
    | with_reducible apply Keeps.ite
    | exact hW.trans (Foot.le_of (by decide +kernel))

theorem execSyncMissing_keeps {W : Foot} {s0 s : State} (hW : execSyncMissingFrame.Le W) (h : Keeps W s0 s) :
    KeepsOut W s0 (execSyncMissing s) := by
  unfold execSyncMissing
  repeat' first
    | with_reducible assumption
    | with_reducible apply KeepsOut.next
    | with_reducible apply KeepsOut.ite
    | with_reducible apply State.bump_keeps
    | with_reducible apply domEnter_keeps
    | with_reducible apply State.setDom_keeps
    | with_reducible apply Keeps.ite
    | exact hW.fld (by decide +kernel)
    | exact hW.trans (Foot.le_of (by decide +kernel))
    | exact Eq.refl true

theorem execOrphanTimeout_keeps {W : Foot} {s0 s : State} (hW : execOrphanTimeoutFrame.Le W) (h : Keeps W s0 s) :
    KeepsOut W s0 (execOrphanTimeout s) := by
  unfold execOrphanTimeout
  repeat' first
    | with_reducible assumption
    | with_reducible apply KeepsOut.next
    | with_reducible apply domEnter_keeps
    | with_reducible apply Keeps.ite
    | exact hW.trans (Foot.le_of (by decide +kernel))

theorem execTokenReq_keeps {W : Foot} {s0 s : State} {f : Frame} (hW : execTokenReqFrame.Le W) (h : Keeps W s0 s) :
    KeepsOut W s0 (execTokenReq f s) := by
  unfold execTokenReq
  repeat' first
    | with_reducible assumption
    | with_reducible intro _
    | with_reducible apply KeepsOut.next
    | with_reducible apply domFrame_keeps
    | with_reducible apply tokenPump_keeps
    | with_reducible apply tokenOwn_keeps
    | with_reducible apply State.setDom_keeps
    | with_reducible apply domToDevice_keeps
    | with_reducible apply toFifo_keeps
    | with_reducible apply Keeps.ite
    | exact hW.trans (Foot.le_of (by decide +kernel))

theorem execTokenGrant_keeps {W : Foot} {s0 s : State} {f : Frame} (hW : execTokenGrantFrame.Le W) (h : Keeps W s0 s) :
    KeepsOut W s0 (execTokenGrant f s) := by
  unfold execTokenGrant
  repeat' first
    | with_reducible assumption
    | with_reducible intro _
    | with_reducible apply KeepsOut.next
    | with_reducible apply domFrame_keeps
    | with_reducible apply spnLeaveToken_keeps
    | with_reducible apply State.set_keeps
    | with_reducible apply domToManager_keeps
    | with_reducible apply State.setDom_keeps
    | with_reducible apply toFifo_keeps
    | with_reducible apply Keeps.ite
    | exact hW.fld (by decide +kernel)
    | exact hW.trans (Foot.le_of (by decide +kernel))
    | exact Eq.refl true

theorem execTokenReturn_keeps {W : Foot} {s0 s : State} {f : Frame} (hW : execTokenReturnFrame.Le W) (h : Keeps W s0 s) :
    KeepsOut W s0 (execTokenReturn f s) := by
  unfold execTokenReturn
  repeat' first
    | with_reducible assumption
    | with_reducible intro _
    | with_reducible apply KeepsOut.next
    | with_reducible apply domFrame_keeps
    | with_reducible apply tokenOwn_keeps
    | with_reducible apply toFifo_keeps
    | with_reducible apply tokenBack_keeps
    | with_reducible apply Keeps.ite
    | exact hW.trans (Foot.le_of (by decide +kernel))

theorem execTokenQueued_keeps {W : Foot} {s0 s : State} {f : Frame} (hW : execTokenQueuedFrame.Le W) (h : Keeps W s0 s) :
    KeepsOut W s0 (execTokenQueued f s) := by
  unfold execTokenQueued
  repeat' first
    | with_reducible assumption
    | with_reducible intro _
    | with_reducible apply KeepsOut.next
    | with_reducible apply domFrame_keeps
    | with_reducible apply State.setDom_keeps
    | with_reducible apply toFifo_keeps
    | with_reducible apply Keeps.ite
    | exact hW.trans (Foot.le_of (by decide +kernel))

theorem execTokenReqRepeat_keeps {W : Foot} {s0 s : State} (hW : execTokenReqRepeatFrame.Le W) (h : Keeps W s0 s) :
    KeepsOut W s0 (execTokenReqRepeat s) := by
  unfold execTokenReqRepeat
  repeat' first
    | with_reducible assumption
    | with_reducible apply KeepsOut.next
    | with_reducible apply domToManager_keeps
    | with_reducible apply State.setDom_keeps
    | with_reducible apply Keeps.ite
    | exact hW.trans (Foot.le_of (by decide +kernel))

theorem execTokenFallback_keeps {W : Foot} {s0 s : State} (hW : execTokenFallbackFrame.Le W) (h : Keeps W s0 s) :
    KeepsOut W s0 (execTokenFallback s) := by
  unfold execTokenFallback
  repeat' first
    | with_reducible assumption
    | with_reducible apply KeepsOut.next
    | with_reducible apply State.setDom_keeps
    | with_reducible apply Keeps.ite
    | exact hW.trans (Foot.le_of (by decide +kernel))

theorem execStaggerExpiry_keeps {W : Foot} {s0 s : State} (hW : execStaggerExpiryFrame.Le W) (h : Keeps W s0 s) :
    KeepsOut W s0 (execStaggerExpiry s) := by
  unfold execStaggerExpiry
  repeat' first
    | with_reducible assumption
    | with_reducible apply KeepsOut.next
    | with_reducible apply spnLeaveToken_keeps
    | with_reducible apply State.setDom_keeps
    | with_reducible apply Keeps.ite
    | exact hW.trans (Foot.le_of (by decide +kernel))

theorem execTokenReclaim_keeps {W : Foot} {s0 s : State} {id : Nat} (hW : execTokenReclaimFrame.Le W) (h : Keeps W s0 s) :
    KeepsOut W s0 (execTokenReclaim id s) := by
  unfold execTokenReclaim
  repeat' first
    | with_reducible assumption
    | with_reducible apply KeepsOut.next
    | with_reducible apply KeepsOut.ite
    | with_reducible apply State.set_keeps
    | with_reducible apply tokenOwn_keeps
    | with_reducible apply State.setDom_keeps
    | with_reducible apply tokenBack_keeps
    | with_reducible apply Keeps.ite
    | exact hW.fld (by decide +kernel)
    | exact hW.trans (Foot.le_of (by decide +kernel))
    | exact Eq.refl true

theorem execHealthSend_keeps {W : Foot} {s0 s : State} (hW : execHealthSendFrame.Le W) (h : Keeps W s0 s) :
    KeepsOut W s0 (execHealthSend s) := by
  unfold execHealthSend
  repeat' first
    | with_reducible assumption
    | with_reducible apply KeepsOut.next
    | with_reducible apply domToManager_keeps
    | with_reducible apply State.setDom_keeps
    | with_reducible apply Keeps.ite
    | exact hW.trans (Foot.le_of (by decide +kernel))

theorem execHealth_keeps {W : Foot} {s0 s : State} {f : Frame} (hW : execHealthFrame.Le W) (h : Keeps W s0 s) :
    KeepsOut W s0 (execHealth f s) := by
  unfold execHealth
  repeat' first
    | with_reducible assumption
    | with_reducible intro _
    | with_reducible apply KeepsOut.next
    | with_reducible apply domFrame_keeps
    | with_reducible apply State.store_keeps
    | with_reducible apply toFifo_keeps
    | with_reducible apply waveJudge_keeps
    | with_reducible apply Keeps.ite
    | exact hW.trans (Foot.le_of (by decide +kernel))

/-- What `bulkSend` may change. -/
def bulkSendFoot : Foot :=
  ⟨[Reg.pmuOvfOvf, Reg.pmuCntLoCount, Reg.pmuCntHiCount], [.dom], false⟩

theorem bulkSend_keeps {W : Foot} {s0 s : State} {dst : Nat} {type : Nat} {payload : List Byte} (hW : bulkSendFoot.Le W) (h : Keeps W s0 s) :
    Keeps W s0 (bulkSend s dst type payload) := by
  unfold bulkSend
  repeat' first
    | with_reducible assumption
    | with_reducible apply domToManager_keeps
    | with_reducible apply domToDevice_keeps
    | with_reducible apply Keeps.ite
    | exact hW.trans (Foot.le_of (by decide +kernel))

/-- What `blockSend` may change. -/
def blockSendFoot : Foot :=
  ⟨[Reg.pmuOvfOvf, Reg.pmuCntLoCount, Reg.pmuCntHiCount], [.dom], false⟩

theorem blockSend_keeps {W : Foot} {s0 s : State} {b : Bulk} (hW : blockSendFoot.Le W) (h : Keeps W s0 s) :
    Keeps W s0 (blockSend s b) := by
  unfold blockSend
  repeat' first
    | with_reducible assumption
    | with_reducible intro _
    | with_reducible apply bulkSend_keeps
    | with_reducible apply Keeps.each
    | exact hW.trans (Foot.le_of (by decide +kernel))

/-- What `bulkEnd` may change. -/
def bulkEndFoot : Foot :=
  ⟨[Reg.domIrqStatusBulk], [.dom], false⟩

theorem bulkEnd_keeps {W : Foot} {s0 s : State} (hW : bulkEndFoot.Le W) (h : Keeps W s0 s) :
    Keeps W s0 (bulkEnd s) := by
  unfold bulkEnd
  repeat' first
    | with_reducible assumption
    | with_reducible apply State.set_keeps
    | with_reducible apply State.setDom_keeps
    | exact hW.fld (by decide +kernel)
    | exact hW.trans (Foot.le_of (by decide +kernel))
    | exact Eq.refl true

/-- What `pullTake` may change. -/
def pullTakeFoot : Foot :=
  ⟨[Reg.domIrqStatusBulk, Reg.domIrqStatusRx, Reg.domRxBytes, Reg.domRxCtlDropped, Reg.domRxCtlCount, Reg.pmuOvfOvf,
    Reg.pmuCntLoCount, Reg.pmuCntHiCount], [.dom], false⟩

theorem pullTake_keeps {W : Foot} {s0 s : State} {f : Frame} (hW : pullTakeFoot.Le W) (h : Keeps W s0 s) :
    Keeps W s0 (pullTake f s) := by
  unfold pullTake
  repeat' first
    | with_reducible assumption
    | with_reducible apply bulkEnd_keeps
    | with_reducible apply blockSend_keeps
    | with_reducible apply State.setDom_keeps
    | with_reducible apply toFifo_keeps
    | with_reducible apply Keeps.ite
    | exact hW.trans (Foot.le_of (by decide +kernel))

theorem execPull_keeps {W : Foot} {s0 s : State} {f : Frame} (hW : execPullFrame.Le W) (h : Keeps W s0 s) :
    KeepsOut W s0 (execPull f s) := by
  unfold execPull
  repeat' first
    | with_reducible assumption
    | with_reducible intro _
    | with_reducible apply KeepsOut.next
    | with_reducible apply domFrame_keeps
    | with_reducible apply pullTake_keeps
    | exact hW.trans (Foot.le_of (by decide +kernel))

/-- What `dataTake` may change. -/
def dataTakeFoot : Foot :=
  ⟨[Reg.domIrqStatusRx, Reg.domRxBytes, Reg.domRxCtlDropped, Reg.domRxCtlCount], [.dom], false⟩

theorem dataTake_keeps {W : Foot} {s0 s : State} {f : Frame} (hW : dataTakeFoot.Le W) (h : Keeps W s0 s) :
    Keeps W s0 (dataTake f s) := by
  unfold dataTake
  repeat' first
    | with_reducible assumption
    | with_reducible apply State.setDom_keeps
    | with_reducible apply toFifo_keeps
    | with_reducible apply Keeps.ite
    | exact hW.trans (Foot.le_of (by decide +kernel))

theorem execData_keeps {W : Foot} {s0 s : State} {f : Frame} (hW : execDataFrame.Le W) (h : Keeps W s0 s) :
    KeepsOut W s0 (execData f s) := by
  unfold execData
  repeat' first
    | with_reducible assumption
    | with_reducible intro _
    | with_reducible apply KeepsOut.next
    | with_reducible apply domFrame_keeps
    | with_reducible apply dataTake_keeps
    | with_reducible apply toFifo_keeps
    | exact hW.trans (Foot.le_of (by decide +kernel))

/-- What `stageBlock` may change. -/
def stageBlockFoot : Foot :=
  .union [⟨[Reg.updIrqStatusDisplaced], [.dom], false⟩, ringAnswerFrame, cqReadyFrame, commitStageFrame]

theorem stageBlock_keeps {W : Foot} {s0 s : State} {idx : Nat} {b : List Byte} (hW : stageBlockFoot.Le W) (h : Keeps W s0 s) :
    Keeps W s0 (stageBlock s idx b) := by
  unfold stageBlock
  repeat' first
    | with_reducible assumption
    | with_reducible apply stageBegin_keeps
    | with_reducible apply bulkSend_keeps
    | with_reducible apply updNak_keeps
    | with_reducible apply State.setUpd_keeps
    | with_reducible apply norWrite_keeps
    | with_reducible apply Keeps.ite
    | exact hW.trans (Foot.le_of (by decide +kernel))
    | split

/-- What `blockTake` may change. -/
def blockTakeFoot : Foot :=
  .union [⟨[Reg.domIrqStatusRx, Reg.domRxBytes, Reg.domRxCtlDropped, Reg.domRxCtlCount, Reg.updIrqStatusDisplaced],
    [.dom], false⟩, ringAnswerFrame, cqReadyFrame, commitStageFrame]

theorem blockTake_keeps {W : Foot} {s0 s : State} {f : Frame} (hW : blockTakeFoot.Le W) (h : Keeps W s0 s) :
    Keeps W s0 (blockTake f s) := by
  unfold blockTake
  repeat' first
    | with_reducible assumption
    | with_reducible apply stageBlock_keeps
    | with_reducible apply bulkSend_keeps
    | with_reducible apply State.setDom_keeps
    | with_reducible apply toFifo_keeps
    | with_reducible apply Keeps.ite
    | exact hW.trans (Foot.le_of (by decide +kernel))

theorem execBlockEnd_keeps {W : Foot} {s0 s : State} {f : Frame} (hW : execBlockEndFrame.Le W) (h : Keeps W s0 s) :
    KeepsOut W s0 (execBlockEnd f s) := by
  unfold execBlockEnd
  repeat' first
    | with_reducible assumption
    | with_reducible intro _
    | with_reducible apply KeepsOut.next
    | with_reducible apply domFrame_keeps
    | with_reducible apply blockTake_keeps
    | with_reducible apply toFifo_keeps
    | exact hW.trans (Foot.le_of (by decide +kernel))

/-- What `blockAgain` may change. -/
def blockAgainFoot : Foot :=
  ⟨[Reg.domIrqStatusBulk, Reg.pmuOvfOvf, Reg.pmuCntLoCount, Reg.pmuCntHiCount], [.dom], false⟩

theorem blockAgain_keeps {W : Foot} {s0 s : State} {b : Bulk} (hW : blockAgainFoot.Le W) (h : Keeps W s0 s) :
    Keeps W s0 (blockAgain s b) := by
  unfold blockAgain
  repeat' first
    | with_reducible assumption
    | with_reducible apply bulkEnd_keeps
    | with_reducible apply blockSend_keeps
    | with_reducible apply State.setDom_keeps
    | with_reducible apply Keeps.ite
    | exact hW.trans (Foot.le_of (by decide +kernel))

/-- What `ackTake` may change. -/
def ackTakeFoot : Foot :=
  ⟨[Reg.domIrqStatusBulk, Reg.domIrqStatusRx, Reg.domRxBytes, Reg.domRxCtlDropped, Reg.domRxCtlCount, Reg.pmuOvfOvf,
    Reg.pmuCntLoCount, Reg.pmuCntHiCount], [.dom], false⟩

theorem ackTake_keeps {W : Foot} {s0 s : State} {f : Frame} (hW : ackTakeFoot.Le W) (h : Keeps W s0 s) :
    Keeps W s0 (ackTake f s) := by
  unfold ackTake
  repeat' first
    | with_reducible assumption
    | with_reducible apply bulkEnd_keeps
    | with_reducible apply blockSend_keeps
    | with_reducible apply State.setDom_keeps
    | with_reducible apply toFifo_keeps
    | with_reducible apply Keeps.ite
    | exact hW.trans (Foot.le_of (by decide +kernel))
    | split

theorem execAck_keeps {W : Foot} {s0 s : State} {f : Frame} (hW : execAckFrame.Le W) (h : Keeps W s0 s) :
    KeepsOut W s0 (execAck f s) := by
  unfold execAck
  repeat' first
    | with_reducible assumption
    | with_reducible intro _
    | with_reducible apply KeepsOut.next
    | with_reducible apply domFrame_keeps
    | with_reducible apply ackTake_keeps
    | exact hW.trans (Foot.le_of (by decide +kernel))

/-- What `nakTake` may change. -/
def nakTakeFoot : Foot :=
  ⟨[Reg.domIrqStatusBulk, Reg.domIrqStatusRx, Reg.domRxBytes, Reg.domRxCtlDropped, Reg.domRxCtlCount, Reg.pmuOvfOvf,
    Reg.pmuCntLoCount, Reg.pmuCntHiCount], [.dom], false⟩

theorem nakTake_keeps {W : Foot} {s0 s : State} {f : Frame} (hW : nakTakeFoot.Le W) (h : Keeps W s0 s) :
    Keeps W s0 (nakTake f s) := by
  unfold nakTake
  repeat' first
    | with_reducible assumption
    | with_reducible apply blockAgain_keeps
    | with_reducible apply toFifo_keeps
    | exact hW.trans (Foot.le_of (by decide +kernel))
    | split

theorem execNak_keeps {W : Foot} {s0 s : State} {f : Frame} (hW : execNakFrame.Le W) (h : Keeps W s0 s) :
    KeepsOut W s0 (execNak f s) := by
  unfold execNak
  repeat' first
    | with_reducible assumption
    | with_reducible intro _
    | with_reducible apply KeepsOut.next
    | with_reducible apply domFrame_keeps
    | with_reducible apply nakTake_keeps
    | exact hW.trans (Foot.le_of (by decide +kernel))

theorem execBulkResendTimeout_keeps {W : Foot} {s0 s : State} (hW : execBulkResendTimeoutFrame.Le W) (h : Keeps W s0 s) :
    KeepsOut W s0 (execBulkResendTimeout s) := by
  unfold execBulkResendTimeout
  repeat' first
    | with_reducible assumption
    | with_reducible apply KeepsOut.next
    | with_reducible apply blockAgain_keeps
    | with_reducible apply State.setDom_keeps
    | exact hW.trans (Foot.le_of (by decide +kernel))
    | split
    | dsimp only

theorem execUser_keeps {W : Foot} {s0 s : State} {f : Frame} (hW : execUserFrame.Le W) (h : Keeps W s0 s) :
    KeepsOut W s0 (execUser f s) := by
  unfold execUser
  repeat' first
    | with_reducible assumption
    | with_reducible intro _
    | with_reducible apply KeepsOut.next
    | with_reducible apply domFrame_keeps
    | with_reducible apply toFifo_keeps
    | exact hW.trans (Foot.le_of (by decide +kernel))

/-- What `safeSend` may change. -/
def safeSendFoot : Foot :=
  ⟨[Reg.pmuOvfOvf, Reg.pmuCntLoCount, Reg.pmuCntHiCount], [.free, .dom], false⟩

theorem safeSend_keeps {W : Foot} {s0 s : State} {repeat_ : Nat} (hW : safeSendFoot.Le W) (h : Keeps W s0 s) :
    Keeps W s0 (safeSend s repeat_) := by
  unfold safeSend
  repeat' first
    | with_reducible assumption
    | with_reducible apply domBroadcast_keeps
    | with_reducible apply State.takeFree_keeps
    | exact hW.trans (Foot.le_of (by decide +kernel))
    | exact hW.part (by decide +kernel)

theorem execDomSafeWrite_keeps {W : Foot} {s0 s : State} {priv : Priv} {data : Word} (hW : execDomSafeWriteFrame.Le W) (h : Keeps W s0 s) :
    KeepsOut W s0 (execDomSafeWrite priv data s) := by
  unfold execDomSafeWrite
  repeat' first
    | with_reducible assumption
    | with_reducible apply KeepsOut.next
    | with_reducible apply KeepsOut.ite
    | with_reducible apply State.answer_keeps
    | with_reducible apply busError_keeps
    | with_reducible apply corrected_keeps
    | with_reducible apply State.setDom_keeps
    | with_reducible apply safeSend_keeps
    | exact hW.trans (Foot.le_of (by decide +kernel))

theorem execSafeRepeat_keeps {W : Foot} {s0 s : State} (hW : execSafeRepeatFrame.Le W) (h : Keeps W s0 s) :
    KeepsOut W s0 (execSafeRepeat s) := by
  unfold execSafeRepeat
  repeat' first
    | with_reducible assumption
    | with_reducible apply KeepsOut.next
    | with_reducible apply KeepsOut.ite
    | with_reducible apply State.setDom_keeps
    | with_reducible apply safeSend_keeps
    | exact hW.trans (Foot.le_of (by decide +kernel))

theorem execDomTxGo_keeps {W : Foot} {s0 s : State} {data : Word} (hW : execDomTxGoFrame.Le W) (h : Keeps W s0 s) :
    KeepsOut W s0 (execDomTxGo data s) := by
  unfold execDomTxGo
  repeat' first
    | with_reducible assumption
    | with_reducible apply KeepsOut.next
    | with_reducible apply KeepsOut.ite
    | with_reducible apply State.answer_keeps
    | with_reducible apply State.wr_keeps
    | with_reducible apply State.setDom_keeps
    | with_reducible apply domSend_keeps
    | exact hW.fld (by decide +kernel)
    | exact hW.trans (Foot.le_of (by decide +kernel))
    | exact Eq.refl true

theorem execDomRxPop_keeps {W : Foot} {s0 s : State} {data : Word} (hW : execDomRxPopFrame.Le W) (h : Keeps W s0 s) :
    KeepsOut W s0 (execDomRxPop data s) := by
  unfold execDomRxPop
  repeat' first
    | with_reducible assumption
    | with_reducible apply KeepsOut.next
    | with_reducible apply KeepsOut.ite
    | with_reducible apply State.answer_keeps
    | with_reducible apply rxShow_keeps
    | with_reducible apply State.setDom_keeps
    | exact hW.trans (Foot.le_of (by decide +kernel))

end Sys2Proof.Machine
end

