-- ==== Sys2Proof/Laws/FootUandonak.lean ====
section
/-!
SUPPORT. Footprints of the operations of Machine/Uandonak.lean: what each may change, and that it changes nothing else.
-/

namespace Sys2Proof.Machine

set_option Elab.async false

/-- What `State.setUan` may change. -/
def setUanFoot : Foot :=
  ⟨[], [.upd], false⟩

theorem State.setUan_keeps {W : Foot} {s0 s : State} {v : Uan} (hW : setUanFoot.Le W) (h : Keeps W s0 s) :
    Keeps W s0 (State.setUan s v) := by
  unfold State.setUan
  repeat' first
    | with_reducible assumption
    | with_reducible apply State.setUpd_keeps
    | exact hW.trans (Foot.le_of (by decide +kernel))

/-- What `taskWrite` may change. -/
def taskWriteFoot : Foot :=
  ⟨[], [.upd], false⟩

theorem taskWrite_keeps {W : Foot} {s0 s : State} {reg : Nat} {data : List Byte} (hW : taskWriteFoot.Le W) (h : Keeps W s0 s) :
    Keeps W s0 (taskWrite s reg data).2 := by
  unfold taskWrite
  repeat' first
    | with_reducible assumption
    | with_reducible apply Keeps.snd_ite
    | with_reducible apply State.setUan_keeps
    | with_reducible apply Keeps.ite
    | exact hW.trans (Foot.le_of (by decide +kernel))

/-- What `taskRead` may change. -/
def taskReadFoot : Foot :=
  ⟨[], [.upd], false⟩

theorem taskRead_keeps {W : Foot} {s0 s : State} {reg : Nat} (hW : taskReadFoot.Le W) (h : Keeps W s0 s) :
    Keeps W s0 (taskRead s reg).2 := by
  unfold taskRead
  repeat' first
    | with_reducible assumption
    | with_reducible apply Keeps.snd_ite
    | with_reducible apply State.setUan_keeps
    | exact hW.trans (Foot.le_of (by decide +kernel))

/-- What `taskRequest` may change. -/
def taskRequestFoot : Foot :=
  ⟨[], [.upd], false⟩

theorem taskRequest_keeps {W : Foot} {s0 s : State} {op : Nat} {reg : Nat} {data : List Byte} (hW : taskRequestFoot.Le W) (h : Keeps W s0 s) :
    Keeps W s0 (taskRequest s op reg data).2.2 := by
  unfold taskRequest
  repeat' first
    | with_reducible assumption
    | with_reducible apply Keeps.snd2_ite
    | with_reducible apply taskRead_keeps
    | with_reducible apply taskWrite_keeps
    | exact hW.trans (Foot.le_of (by decide +kernel))

theorem execServicePortRequest_keeps {W : Foot} {s0 s : State} {req : List Byte} (hW : execServicePortRequestFrame.Le W) (h : Keeps W s0 s) :
    KeepsOut W s0 (execServicePortRequest req s) := by
  unfold execServicePortRequest
  repeat' first
    | with_reducible assumption
    | with_reducible apply KeepsOut.next
    | with_reducible apply KeepsOut.ite
    | with_reducible apply State.setUan_keeps
    | with_reducible apply taskRequest_keeps
    | exact hW.trans (Foot.le_of (by decide +kernel))

theorem execTask_keeps {W : Foot} {s0 s : State} {f : Frame} (hW : execTaskFrame.Le W) (h : Keeps W s0 s) :
    KeepsOut W s0 (execTask f s) := by
  unfold execTask
  repeat' first
    | with_reducible assumption
    | with_reducible intro _
    | with_reducible apply KeepsOut.next
    | with_reducible apply domFrame_keeps
    | with_reducible apply taskRequest_keeps
    | with_reducible apply domToManager_keeps
    | with_reducible apply toFifo_keeps
    | with_reducible apply Keeps.ite
    | exact hW.trans (Foot.le_of (by decide +kernel))

/-- What `uanGive` may change. -/
def uanGiveFoot : Foot :=
  ⟨[], [.upd], false⟩

theorem uanGive_keeps {W : Foot} {s0 s : State} {ok : Bool} {error : Nat} (hW : uanGiveFoot.Le W) (h : Keeps W s0 s) :
    Keeps W s0 (uanGive s ok error) := by
  unfold uanGive
  repeat' first
    | with_reducible assumption
    | with_reducible apply State.setUan_keeps
    | exact hW.trans (Foot.le_of (by decide +kernel))

/-- What `uanFail` may change. -/
def uanFailFoot : Foot :=
  ⟨[], [.free, .upd], false⟩

theorem uanFail_keeps {W : Foot} {s0 s : State} (hW : uanFailFoot.Le W) (h : Keeps W s0 s) :
    Keeps W s0 (uanFail s) := by
  unfold uanFail
  repeat' first
    | with_reducible assumption
    | with_reducible apply State.takeFree_keeps
    | with_reducible apply uanGive_keeps
    | exact hW.trans (Foot.le_of (by decide +kernel))
    | exact hW.part (by decide +kernel)

/-- What `uanClose` may change. -/
def uanCloseFoot : Foot :=
  .union [⟨[Reg.updStatusLock, Reg.updStatusPendSlot, Reg.updStatusPendState, Reg.updStatusReject,
    Reg.updStatusSimErr, Reg.updSlotState, Reg.updSlotSecVer, Reg.updSlotSetVer, Reg.updIrqStatusRejected,
    Reg.updIrqStatusStaged], [.upd], false⟩, ringAnswerFrame]

theorem uanClose_keeps {W : Foot} {s0 s : State} {k : Nat} (hW : uanCloseFoot.Le W) (h : Keeps W s0 s) :
    Keeps W s0 (uanClose s k) := by
  unfold uanClose
  repeat' first
    | with_reducible assumption
    | with_reducible apply State.setUan_keeps
    | with_reducible apply stageFail_keeps
    | with_reducible apply stagePass_keeps
    | with_reducible apply uanGive_keeps
    | with_reducible apply slotAuth_keeps
    | (apply Keeps.of_snd; assumption)
    | exact hW.trans (Foot.le_of (by decide +kernel))
    | split
    | dsimp only

theorem execUandonakOpen_keeps {W : Foot} {s0 s : State} (hW : execUandonakOpenFrame.Le W) (h : Keeps W s0 s) :
    KeepsOut W s0 (execUandonakOpen s) := by
  unfold execUandonakOpen
  repeat' first
    | with_reducible assumption
    | with_reducible apply KeepsOut.next
    | with_reducible apply KeepsOut.ite
    | with_reducible apply State.setUan_keeps
    | with_reducible apply stageBegin_keeps
    | with_reducible apply uanFail_keeps
    | with_reducible apply uanGive_keeps
    | exact hW.trans (Foot.le_of (by decide +kernel))

theorem execUandonakBlock_keeps {W : Foot} {s0 s : State} (hW : execUandonakBlockFrame.Le W) (h : Keeps W s0 s) :
    KeepsOut W s0 (execUandonakBlock s) := by
  unfold execUandonakBlock
  repeat' first
    | with_reducible assumption
    | with_reducible apply KeepsOut.next
    | with_reducible apply KeepsOut.ite
    | with_reducible apply State.setUan_keeps
    | with_reducible apply uanFail_keeps
    | with_reducible apply norWrite_keeps
    | with_reducible apply uanGive_keeps
    | exact hW.trans (Foot.le_of (by decide +kernel))
    | split
    | dsimp only

theorem execUandonakClose_keeps {W : Foot} {s0 s : State} (hW : execUandonakCloseFrame.Le W) (h : Keeps W s0 s) :
    KeepsOut W s0 (execUandonakClose s) := by
  unfold execUandonakClose
  repeat' first
    | with_reducible assumption
    | with_reducible apply KeepsOut.next
    | with_reducible apply KeepsOut.ite
    | with_reducible apply uanFail_keeps
    | with_reducible apply uanClose_keeps
    | exact hW.trans (Foot.le_of (by decide +kernel))
    | split

theorem execUandonakArm_keeps {W : Foot} {s0 s : State} (hW : execUandonakArmFrame.Le W) (h : Keeps W s0 s) :
    KeepsOut W s0 (execUandonakArm s) := by
  unfold execUandonakArm
  repeat' first
    | with_reducible assumption
    | with_reducible apply KeepsOut.next
    | with_reducible apply KeepsOut.ite
    | with_reducible apply uanFail_keeps
    | with_reducible apply State.wr_keeps
    | with_reducible apply pendPut_keeps
    | with_reducible apply uanGive_keeps
    | exact hW.fld (by decide +kernel)
    | exact hW.trans (Foot.le_of (by decide +kernel))
    | exact Eq.refl true

theorem execUandonakSvckey_keeps {W : Foot} {s0 s : State} {key : List Byte} (hW : execUandonakSvckeyFrame.Le W) (h : Keeps W s0 s) :
    KeepsOut W s0 (execUandonakSvckey key s) := by
  unfold execUandonakSvckey
  repeat' first
    | with_reducible assumption
    | with_reducible apply KeepsOut.next
    | with_reducible apply KeepsOut.ite
    | with_reducible apply State.setUan_keeps
    | with_reducible apply stageBegin_keeps
    | with_reducible apply uanFail_keeps
    | with_reducible apply uanClose_keeps
    | with_reducible apply norWrite_keeps
    | exact hW.trans (Foot.le_of (by decide +kernel))

theorem execUandonakKeycmd_keeps {W : Foot} {s0 s : State} (hW : execUandonakKeycmdFrame.Le W) (h : Keeps W s0 s) :
    KeepsOut W s0 (execUandonakKeycmd s) := by
  unfold execUandonakKeycmd
  repeat' first
    | with_reducible assumption
    | with_reducible apply KeepsOut.next
    | with_reducible apply KeepsOut.ite
    | with_reducible apply uanFail_keeps
    | with_reducible apply keyApply_keeps
    | with_reducible apply uanGive_keeps
    | (apply Keeps.of_snd; assumption)
    | exact hW.trans (Foot.le_of (by decide +kernel))
    | split

theorem execUandonakRecread_keeps {W : Foot} {s0 s : State} (hW : execUandonakRecreadFrame.Le W) (h : Keeps W s0 s) :
    KeepsOut W s0 (execUandonakRecread s) := by
  unfold execUandonakRecread
  repeat' first
    | with_reducible assumption
    | with_reducible apply KeepsOut.next
    | with_reducible apply KeepsOut.ite
    | with_reducible apply State.setUan_keeps
    | with_reducible apply uanGive_keeps
    | exact hW.trans (Foot.le_of (by decide +kernel))

theorem execUandonakBaud_keeps {W : Foot} {s0 s : State} (hW : execUandonakBaudFrame.Le W) (h : Keeps W s0 s) :
    KeepsOut W s0 (execUandonakBaud s) := by
  unfold execUandonakBaud
  repeat' first
    | with_reducible assumption
    | with_reducible apply KeepsOut.next
    | with_reducible apply KeepsOut.ite
    | with_reducible apply State.setUan_keeps
    | with_reducible apply uanFail_keeps
    | with_reducible apply uanGive_keeps
    | exact hW.trans (Foot.le_of (by decide +kernel))

theorem execUandonakReset_keeps {W : Foot} {s0 s : State} (hW : execUandonakResetFrame.Le W) (h : Keeps W s0 s) :
    KeepsOut W s0 (execUandonakReset s) := by
  unfold execUandonakReset
  repeat' first
    | with_reducible assumption
    | with_reducible apply KeepsOut.next
    | with_reducible apply KeepsOut.ite
    | with_reducible apply drstRequest_keeps
    | with_reducible apply uanGive_keeps
    | exact hW.trans (Foot.le_of (by decide +kernel))

theorem execUandonakCmdDone_keeps {W : Foot} {s0 s : State} (hW : execUandonakCmdDoneFrame.Le W) (h : Keeps W s0 s) :
    KeepsOut W s0 (execUandonakCmdDone s) := by
  unfold execUandonakCmdDone
  repeat' first
    | with_reducible assumption
    | with_reducible apply KeepsOut.next
    | with_reducible apply KeepsOut.ite
    | with_reducible apply State.setUan_keeps
    | with_reducible apply State.takeFree_keeps
    | exact hW.trans (Foot.le_of (by decide +kernel))
    | exact hW.part (by decide +kernel)
    | split

end Sys2Proof.Machine
end

