-- ==== Sys2Proof/Laws/FootLoader.lean ====
section
/-!
SUPPORT. Footprints of the operations of Machine/Loader.lean: what each may change, and that it changes nothing else.
-/

namespace Sys2Proof.Machine

set_option Elab.async false

/-- What `fusesRead` may change. -/
def fusesReadFoot : Foot :=
  ⟨[Reg.simSecFuseArb, Reg.simKeysRevoked, Reg.simKeysProgrammed], [.upd], false⟩

theorem fusesRead_keeps {W : Foot} {s0 s : State} (hW : fusesReadFoot.Le W) (h : Keeps W s0 s) :
    Keeps W s0 (fusesRead s) := by
  unfold fusesRead
  repeat' first
    | with_reducible assumption
    | with_reducible apply State.wr_keeps
    | with_reducible apply State.setUpd_keeps
    | exact hW.fld (by decide +kernel)
    | exact hW.trans (Foot.le_of (by decide +kernel))
    | exact Eq.refl true

/-- What `mirrorRestore` may change. -/
def mirrorRestoreFoot : Foot :=
  .union [outcomeAtFrame]

theorem mirrorRestore_keeps {W : Foot} {s0 s : State} (hW : mirrorRestoreFoot.Le W) (h : Keeps W s0 s) :
    Keeps W s0 (mirrorRestore s) := by
  unfold mirrorRestore
  repeat' first
    | with_reducible assumption
    | with_reducible apply State.store_keeps
    | with_reducible apply Keeps.ite
    | exact hW.trans (Foot.le_of (by decide +kernel))

/-- What `settingsDefault` may change. -/
def settingsDefaultFoot : Foot :=
  .union [⟨[Reg.updSetStatusFormat, Reg.updSetStatusMirrorPend, Reg.updSetGenGen, Reg.recStatusDropped,
    Reg.recStatusQueued, Reg.recIrqStatusDrop], [.recorder], false⟩, outcomeAtFrame]

theorem settingsDefault_keeps {W : Foot} {s0 s : State} {src : Nat} (hW : settingsDefaultFoot.Le W) (h : Keeps W s0 s) :
    Keeps W s0 (settingsDefault s src) := by
  unfold settingsDefault
  repeat' first
    | with_reducible assumption
    | with_reducible apply liveWrite_keeps
    | with_reducible apply record_keeps
    | with_reducible apply Keeps.ite
    | exact hW.trans (Foot.le_of (by decide +kernel))

/-- What `bootUpdate` may change. -/
def bootUpdateFoot : Foot :=
  .union [⟨[Reg.sysOpmodeCause, Reg.sysOpmodePrevMode, Reg.sysOpmodeMode, Reg.simSecFuseArb, Reg.simKeysRevoked,
    Reg.simKeysProgrammed, Reg.pwrVcoreVguard, Reg.pwrVcoreSetpointMv, Reg.rstStatusPerst, Reg.rstStatusPhase,
    Reg.rstDrstsCount, Reg.rstOpsecLoOpsec, Reg.rstOpsecHiOpsec, Reg.updTrialElapsed, Reg.hvbStatusHb,
    Reg.hvbStatusRetractLine, Reg.hvbStatusHvFaultLine], [.loHalf, .hiLatch, .resp, .boot, .rst, .ang, .sim, .cs, .ce,
    .spn, .pre, .age, .ldp, .oce, .cry, .bcm, .jnl, .change, .gated, .shadow, .pwr, .thm, .dom], true⟩,
    hvRetractFrame, trialLoseFrame, commitStageFrame, causeSetFrame]

theorem bootUpdate_keeps {W : Foot} {s0 s : State} {key : List Byte} (hW : bootUpdateFoot.Le W) (h : Keeps W s0 s) :
    Keeps W s0 (bootUpdate s key) := by
  unfold bootUpdate
  repeat' first
    | with_reducible assumption
    | with_reducible apply fusesRead_keeps
    | with_reducible apply settingsRestore_keeps
    | with_reducible apply setShow_keeps
    | with_reducible apply lockFree_keeps
    | with_reducible apply pendDrop_keeps
    | with_reducible apply trialFail_keeps
    | with_reducible apply mirrorRestore_keeps
    | with_reducible apply State.setUpd_keeps
    | with_reducible apply Keeps.ite
    | with_reducible apply State.wr_keeps_any
    | with_reducible apply State.clr_keeps_any
    | with_reducible apply State.bump_keeps_any
    | exact hW.2.2 rfl
    | exact hW.trans (Foot.le_of (by decide +kernel))

/-- What `noSet` may change. -/
def noSetFoot : Foot :=
  .union [noSetFrame]

theorem noSet_keeps {W : Foot} {s0 s : State} (hW : noSetFoot.Le W) (h : Keeps W s0 s) :
    Keeps W s0 (noSet s) := by
  unfold noSet
  repeat' first
    | with_reducible assumption
    | with_reducible apply recoveryEnter_keeps
    | exact hW.trans (Foot.le_of (by decide +kernel))

/-- What `sourceReject` may change. -/
def sourceRejectFoot : Foot :=
  .union [⟨[Reg.simStatusState, Reg.updStatusLock, Reg.updStatusPendSlot, Reg.updStatusPendState,
    Reg.updIrqStatusRejected], [.sim], false⟩, noSetFrame, trialLoseFrame]

theorem sourceReject_keeps {W : Foot} {s0 s : State} {src : Nat} (hW : sourceRejectFoot.Le W) (h : Keeps W s0 s) :
    Keeps W s0 (sourceReject s src) := by
  unfold sourceReject
  repeat' first
    | with_reducible assumption
    | with_reducible apply lockFree_keeps
    | with_reducible apply trialLose_keeps
    | with_reducible apply State.wr_keeps
    | with_reducible apply pendPut_keeps
    | with_reducible apply State.set_keeps
    | with_reducible apply State.setSim_keeps
    | with_reducible apply noSet_keeps
    | with_reducible apply State.setUpd_keeps
    | with_reducible apply setSlot_keeps
    | with_reducible apply Keeps.ite
    | exact hW.fld (by decide +kernel)
    | exact hW.trans (Foot.le_of (by decide +kernel))
    | exact Eq.refl true

/-- What `simReject` may change. -/
def simRejectFoot : Foot :=
  ⟨[Reg.simRejectErr, Reg.simRejectErrSect, Reg.simRejectSlot, Reg.simRejectCount, Reg.simRejectOffOffset,
    Reg.updStatusReject, Reg.updStatusSimErr], [], false⟩

theorem simReject_keeps {W : Foot} {s0 s : State} {src : Nat} {e : ImageFail} (hW : simRejectFoot.Le W) (h : Keeps W s0 s) :
    Keeps W s0 (simReject s src e) := by
  unfold simReject
  repeat' first
    | with_reducible assumption
    | with_reducible apply State.bump_keeps
    | with_reducible apply State.wr_keeps
    | exact hW.fld (by decide +kernel)
    | exact Eq.refl true

/-- What `loaderCheck` may change. -/
def loaderCheckFoot : Foot :=
  .union [loaderCheckFrame]

theorem loaderCheck_keeps {W : Foot} {s0 s : State} {r : Option ImageFail} {go : State → State} (hW : loaderCheckFoot.Le W) (h : Keeps W s0 s) (hgo : ∀ a0, Keeps W s0 a0 → Keeps W s0 (go a0)) :
    Keeps W s0 (loaderCheck s r go) := by
  unfold loaderCheck
  repeat' first
    | with_reducible assumption
    | with_reducible apply hgo
    | with_reducible apply sourceReject_keeps
    | with_reducible apply simReject_keeps
    | exact hW.trans (Foot.le_of (by decide +kernel))
    | split

/-- What `sourceTake` may change. -/
def sourceTakeFoot : Foot :=
  .union [⟨[Reg.updStatusActiveSlot, Reg.updSetStatusDefaulted], [], false⟩, loaderCheckFrame]

theorem sourceTake_keeps {W : Foot} {s0 s : State} {src : Nat} {trial : Bool} (hW : sourceTakeFoot.Le W) (h : Keeps W s0 s) :
    Keeps W s0 (sourceTake s src trial) := by
  unfold sourceTake
  repeat' first
    | with_reducible assumption
    | with_reducible intro _
    | with_reducible apply loaderCheck_keeps
    | with_reducible apply fuseAdvance_keeps
    | with_reducible apply settingsDefault_keeps
    | with_reducible apply State.wr_keeps
    | with_reducible apply settingsSeal_keeps
    | with_reducible apply State.setSim_keeps
    | with_reducible apply State.setUpd_keeps
    | with_reducible apply setSlot_keeps
    | with_reducible apply Keeps.ite
    | with_reducible apply Keeps.same_id
    | exact hW.fld (by decide +kernel)
    | exact hW.trans (Foot.le_of (by decide +kernel))
    | exact Eq.refl true

theorem execSetAuthDone_keeps {W : Foot} {s0 s : State} {key : List Byte} (hW : execSetAuthDoneFrame.Le W) (h : Keeps W s0 s) :
    KeepsOut W s0 (execSetAuthDone key s) := by
  unfold execSetAuthDone
  repeat' first
    | with_reducible assumption
    | with_reducible apply KeepsOut.next
    | with_reducible apply KeepsOut.ite
    | with_reducible apply sourceReject_keeps
    | with_reducible apply simReject_keeps
    | with_reducible apply noSet_keeps
    | with_reducible apply bootUpdate_keeps
    | with_reducible apply sourceTake_keeps
    | with_reducible apply Keeps.ite
    | with_reducible apply State.wr_keeps_any
    | exact hW.2.2 rfl
    | exact hW.trans (Foot.le_of (by decide +kernel))
    | split

theorem execImageStreamDone_keeps {W : Foot} {s0 s : State} (hW : execImageStreamDoneFrame.Le W) (h : Keeps W s0 s) :
    KeepsOut W s0 (execImageStreamDone s) := by
  unfold execImageStreamDone
  repeat' first
    | with_reducible assumption
    | with_reducible intro _
    | with_reducible apply KeepsOut.next
    | with_reducible apply loaderCheck_keeps
    | with_reducible apply State.wr_keeps
    | with_reducible apply Keeps.ite
    | with_reducible apply Keeps.same_id
    | exact hW.fld (by decide +kernel)
    | exact hW.trans (Foot.le_of (by decide +kernel))
    | exact Eq.refl true

theorem execImageAuthDone_keeps {W : Foot} {s0 s : State} (hW : execImageAuthDoneFrame.Le W) (h : Keeps W s0 s) :
    KeepsOut W s0 (execImageAuthDone s) := by
  unfold execImageAuthDone
  repeat' first
    | with_reducible assumption
    | with_reducible intro _
    | with_reducible apply KeepsOut.next
    | with_reducible apply loaderCheck_keeps
    | with_reducible apply State.wr_keeps
    | with_reducible apply Keeps.ite
    | with_reducible apply Keeps.same_id
    | exact hW.fld (by decide +kernel)
    | exact hW.trans (Foot.le_of (by decide +kernel))
    | exact Eq.refl true

/-- What `patchApply` may change. -/
def patchApplyFoot : Foot :=
  ⟨[Reg.bwkUcodeVerPatch, Reg.bwkUcodeVerPatchSkipped, Reg.recStatusDropped, Reg.recStatusQueued,
    Reg.recIrqStatusDrop], [.recorder, .sim, .cs], false⟩

theorem patchApply_keeps {W : Foot} {s0 s : State} {b : List Byte} {n : Nat} (hW : patchApplyFoot.Le W) (h : Keeps W s0 s) :
    Keeps W s0 (patchApply s b n) := by
  unfold patchApply
  repeat' first
    | with_reducible assumption
    | with_reducible intro _
    | with_reducible apply State.wr_elem_keeps
    | with_reducible apply State.set_elem_keeps
    | with_reducible apply Keeps.each
    | with_reducible apply State.setSim_keeps
    | with_reducible apply csCommit_keeps
    | with_reducible apply record_keeps
    | with_reducible apply Keeps.ite
    | exact hW.fld (by decide +kernel)
    | exact hW.trans (Foot.le_of (by decide +kernel))

/-- What `patchesApply` may change. -/
def patchesApplyFoot : Foot :=
  ⟨[Reg.bwkUcodeVerPatch, Reg.bwkUcodeVerPatchSkipped, Reg.recStatusDropped, Reg.recStatusQueued,
    Reg.recIrqStatusDrop], [.recorder, .sim, .cs], false⟩

theorem patchesApply_keeps {W : Foot} {s0 s : State} {src : Nat} (hW : patchesApplyFoot.Le W) (h : Keeps W s0 s) :
    Keeps W s0 (patchesApply s src) := by
  unfold patchesApply
  repeat' first
    | with_reducible assumption
    | with_reducible intro _
    | with_reducible apply Keeps.each
    | with_reducible apply patchApply_keeps
    | exact hW.trans (Foot.le_of (by decide +kernel))

/-- What `wardenPatch` may change. -/
def wardenPatchFoot : Foot :=
  ⟨[Reg.sysWardenPatchVerRomVer, Reg.sysWardenPatchVerPatchLevel, Reg.sysWardenPatchVerSkipped, Reg.recStatusDropped,
    Reg.recStatusQueued, Reg.recIrqStatusDrop], [.recorder], false⟩

theorem wardenPatch_keeps {W : Foot} {s0 s : State} {src : Nat} (hW : wardenPatchFoot.Le W) (h : Keeps W s0 s) :
    Keeps W s0 (wardenPatch s src) := by
  unfold wardenPatch
  repeat' first
    | with_reducible assumption
    | with_reducible apply State.wr_keeps
    | with_reducible apply State.set_keeps
    | with_reducible apply recordWarden_keeps
    | with_reducible apply Keeps.ite
    | exact hW.fld (by decide +kernel)
    | exact hW.trans (Foot.le_of (by decide +kernel))
    | exact Eq.refl true
    | split

/-- What `limitsApply` may change. -/
def limitsApplyFoot : Foot :=
  ⟨[Reg.srvFeLimitValue, Reg.srvFeTimeValue, Reg.srvFbCoastValue, Reg.srvReacqTimeValue, Reg.srvFbIImax,
    Reg.srvOntrackWriteLim, Reg.spnIlimMa, Reg.spnZcCoastValue, Reg.astHoldSamples, Reg.astFreezeSamples,
    Reg.rdcSyncHdrTol, Reg.rdcSyncATol, Reg.ldpFastCtlIter, Reg.ldpDeepCtlMaxCaps, Reg.ldpDeepCtlIter, Reg.calCtlDt,
    Reg.ageHoldup0ParkMinMs, Reg.thmSluiceGraceS, Reg.thmCapIops, Reg.thmThrThrot, Reg.thmThrWarn], [], false⟩

theorem limitsApply_keeps {W : Foot} {s0 s : State} (hW : limitsApplyFoot.Le W) (h : Keeps W s0 s) : Keeps W s0 (limitsApply s) := by
  have key : (limitFields.all fun e => e.2.all fun f => limitsApplyFoot.regs.any fun g =>
      (f.eqb g && Nat.blt 0 g.count) || (List.range g.count).any fun n => f.eqb (g.elem n)) = true := by decide +kernel
  unfold limitsApply
  revert key
  generalize limitFields = l
  intro key
  simp only [List.all_eq_true] at key
  have inner : ∀ (e : Nat × List Fld) (fs : List Fld), (∀ f ∈ fs, (limitsApplyFoot.regs.any fun g =>
      (f.eqb g && Nat.blt 0 g.count) || (List.range g.count).any fun n => f.eqb (g.elem n)) = true) →
      ∀ y, Keeps W s0 y → Keeps W s0 (y.each fs fun s f =>
        let seed := (s.sim.cfg.limits.find? fun l => l.id == e.1 && !l.floor && !l.ceiling).map fun l => l.value
        s.wr f (limitValue s e.1 (seed.getD (s.rd f)))) := by
    intro e fs
    induction fs with
    | nil => exact fun _ y hy => hy
    | cons f fs ih =>
      intro hfs y hy
      exact ih (fun f hf => hfs f (List.mem_cons_of_mem _ hf)) _ (State.wr_keeps_in hW.1 (hfs f List.mem_cons_self) hy)
  induction l generalizing s with
  | nil => exact h
  | cons e l ih =>
    exact ih (inner e e.2 (fun f hf => key e List.mem_cons_self f hf) s h) (fun e he => key e (List.mem_cons_of_mem _ he))

/-- What `simShow` may change. -/
def simShowFoot : Foot :=
  ⟨[Reg.simStatusSlot, Reg.simImgVerImageVer, Reg.simSecSecVer, Reg.simKeysKeyId, Reg.simRoleRole, Reg.simRosterMask,
    Reg.simEffMask], [], false⟩

theorem simShow_keeps {W : Foot} {s0 s : State} {src : Nat} {eff : Nat} (hW : simShowFoot.Le W) (h : Keeps W s0 s) :
    Keeps W s0 (simShow s src eff) := by
  unfold simShow
  repeat' first
    | with_reducible assumption
    | with_reducible intro _
    | with_reducible apply State.wr_elem_keeps
    | with_reducible apply State.wr_keeps
    | with_reducible apply Keeps.each
    | exact hW.fld (by decide +kernel)
    | exact Eq.refl true

/-- What `imageRegs` may change. -/
def imageRegsFoot : Foot :=
  ⟨[Reg.angRungSchedRung, Reg.angRungTarget, Reg.angRungCurrent, Reg.bwkUcodeVerBase, Reg.bwkUcodeVerPatch,
    Reg.srvFeLimitValue, Reg.srvFeTimeValue, Reg.srvFbCoastValue, Reg.srvReacqTimeValue, Reg.srvFbIImax,
    Reg.srvOntrackWriteLim, Reg.spnIlimMa, Reg.spnZcCoastValue, Reg.astHoldSamples, Reg.astFreezeSamples,
    Reg.astSetDataData, Reg.rdcStatusPa, Reg.rdcSyncHdrTol, Reg.rdcSyncATol, Reg.ldpStatusDeepPresent,
    Reg.ldpStatusFast1Present, Reg.ldpStatusFast0Present, Reg.ldpFastCtlIter, Reg.ldpDeepCtlMaxCaps,
    Reg.ldpDeepCtlIter, Reg.hstStatusLanesEff, Reg.hstQuotaDataCq, Reg.hstQuotaDataSq, Reg.bcmStatusEvb,
    Reg.bcmStatusSets, Reg.calCtlDt, Reg.ageHoldup0ParkMinMs, Reg.thmSluiceGraceS, Reg.thmCapIops, Reg.thmThrThrot,
    Reg.thmThrWarn, Reg.domStatusRole, Reg.domNbrMinTracks, Reg.domNbrMask, Reg.domStaggerMs], [.spn, .ast], false⟩

theorem imageRegs_keeps {W : Foot} {s0 s : State} (hW : imageRegsFoot.Le W) (h : Keeps W s0 s) :
    Keeps W s0 (imageRegs s) := by
  unfold imageRegs
  repeat' first
    | with_reducible assumption
    | with_reducible intro _
    | with_reducible apply State.setSpn_keeps
    | with_reducible apply State.wr_elem_keeps
    | with_reducible apply State.wr_keeps
    | with_reducible apply Keeps.each
    | with_reducible apply State.setAst_keeps
    | with_reducible apply limitsApply_keeps
    | exact hW.fld (by decide +kernel)
    | exact hW.trans (Foot.le_of (by decide +kernel))
    | exact Eq.refl true

/-- What `entriesShow` may change. -/
def entriesShowFoot : Foot :=
  ⟨[], [.bwk], false⟩

theorem entriesShow_keeps {W : Foot} {s0 s : State} (hW : entriesShowFoot.Le W) (h : Keeps W s0 s) :
    Keeps W s0 (entriesShow s) := by
  unfold entriesShow
  repeat' first
    | with_reducible assumption
    | with_reducible intro _
    | with_reducible apply Keeps.each
    | with_reducible apply State.setBwk_keeps
    | exact hW.trans (Foot.le_of (by decide +kernel))

/-- What `imageApply` may change. -/
def imageApplyFoot : Foot :=
  .union [imageApplyFrame]

theorem imageApply_keeps {W : Foot} {s0 s : State} {src : Nat} (hW : imageApplyFoot.Le W) (h : Keeps W s0 s) :
    Keeps W s0 (imageApply s src) := by
  unfold imageApply
  repeat' first
    | with_reducible assumption
    | with_reducible apply wardenPatch_keeps
    | with_reducible apply patchesApply_keeps
    | with_reducible apply State.wr_keeps
    | with_reducible apply simShow_keeps
    | with_reducible apply entriesShow_keeps
    | with_reducible apply State.setCs_keeps
    | with_reducible apply State.setSim_keeps
    | with_reducible apply imageRegs_keeps
    | exact hW.fld (by decide +kernel)
    | exact hW.trans (Foot.le_of (by decide +kernel))
    | exact Eq.refl true

theorem execImageCheckDone_keeps {W : Foot} {s0 s : State} (hW : execImageCheckDoneFrame.Le W) (h : Keeps W s0 s) :
    KeepsOut W s0 (execImageCheckDone s) := by
  unfold execImageCheckDone
  repeat' first
    | with_reducible assumption
    | with_reducible apply KeepsOut.next
    | with_reducible apply State.wr_keeps
    | with_reducible apply imageApply_keeps
    | with_reducible apply Keeps.ite
    | exact hW.fld (by decide +kernel)
    | exact hW.trans (Foot.le_of (by decide +kernel))
    | exact Eq.refl true
    | split

/-- What `firmwareLoad` may change. -/
def firmwareLoadFoot : Foot :=
  .union [⟨[Reg.sysBootLoAddr, Reg.sysBootHiAddr, Reg.sysFwRevLoChars, Reg.sysFwRevHiChars], [], false⟩,
    outcomeAtFrame]

theorem firmwareLoad_keeps {W : Foot} {s0 s : State} {src : Nat} (hW : firmwareLoadFoot.Le W) (h : Keeps W s0 s) :
    Keeps W s0 (firmwareLoad s src) := by
  unfold firmwareLoad
  repeat' first
    | with_reducible assumption
    | with_reducible apply State.store_keeps
    | with_reducible apply State.wr_keeps
    | exact hW.fld (by decide +kernel)
    | exact hW.trans (Foot.le_of (by decide +kernel))
    | exact Eq.refl true
    | split

/-- What `trialBegin` may change. -/
def trialBeginFoot : Foot :=
  .union [⟨[Reg.updStatusLock, Reg.updStatusPendSlot, Reg.updStatusPendState, Reg.updStatusTrial, Reg.updSlotState,
    Reg.updTrialBoots, Reg.updTrialElapsed, Reg.updIrqStatusTrial], [.upd], false⟩, ringAnswerFrame]

theorem trialBegin_keeps {W : Foot} {s0 s : State} {src : Nat} (hW : trialBeginFoot.Le W) (h : Keeps W s0 s) :
    Keeps W s0 (trialBegin s src) := by
  unfold trialBegin
  repeat' first
    | with_reducible assumption
    | with_reducible apply lockFree_keeps
    | with_reducible apply State.wr_keeps
    | with_reducible apply pendPut_keeps
    | with_reducible apply State.set_keeps
    | with_reducible apply updNotice_keeps
    | with_reducible apply State.setUpd_keeps
    | with_reducible apply setSlot_keeps
    | with_reducible apply Keeps.ite
    | exact hW.fld (by decide +kernel)
    | exact hW.trans (Foot.le_of (by decide +kernel))
    | exact Eq.refl true

/-- What `nsKeySet` may change. -/
def nsKeySetFoot : Foot :=
  ⟨[Reg.cryNsKey0Ns4, Reg.cryNsKey0Ns3, Reg.cryNsKey0Ns2, Reg.cryNsKey0Ns1, Reg.cryNsKey1Ns8Ns5], [], false⟩

theorem nsKeySet_keeps {W : Foot} {s0 s : State} {ns : Nat} {slot : Nat} (hW : nsKeySetFoot.Le W) (h : Keeps W s0 s) :
    Keeps W s0 (nsKeySet s ns slot) := by
  unfold nsKeySet
  repeat' first
    | with_reducible assumption
    | with_reducible apply State.wr_keeps
    | with_reducible apply Keeps.ite
    | exact hW.fld (by decide +kernel)
    | exact Eq.refl true

/-- What `keysLoad` may change. -/
def keysLoadFoot : Foot :=
  ⟨[Reg.cryStatusSlots, Reg.cryNsKey0Ns4, Reg.cryNsKey0Ns3, Reg.cryNsKey0Ns2, Reg.cryNsKey0Ns1, Reg.cryNsKey1Ns8Ns5],
    [.cry], false⟩

theorem keysLoad_keeps {W : Foot} {s0 s : State} (hW : keysLoadFoot.Le W) (h : Keeps W s0 s) :
    Keeps W s0 (keysLoad s) := by
  unfold keysLoad
  repeat' first
    | with_reducible assumption
    | with_reducible intro _
    | with_reducible apply keySet_keeps
    | with_reducible apply Keeps.each
    | with_reducible apply nsKeySet_keeps
    | exact hW.trans (Foot.le_of (by decide +kernel))

/-- What `overlaysLoad` may change. -/
def overlaysLoadFoot : Foot :=
  ⟨[Reg.angSkewSkew, Reg.fltCounts0Corrected, Reg.calStatusDue, Reg.calStatusRunning, Reg.calIrqStatusDue], [.cal,
    .chan], false⟩

theorem overlaysLoad_keeps {W : Foot} {s0 s : State} (hW : overlaysLoadFoot.Le W) (h : Keeps W s0 s) :
    Keeps W s0 (overlaysLoad s) := by
  unfold overlaysLoad
  repeat' first
    | with_reducible assumption
    | with_reducible intro _
    | with_reducible apply calTriggers_keeps
    | with_reducible apply Keeps.each
    | with_reducible apply groupForm_keeps
    | with_reducible apply State.setCal_keeps
    | exact hW.trans (Foot.le_of (by decide +kernel))

/-- What `recRebuild` may change. -/
def recRebuildFoot : Foot :=
  .union [⟨[Reg.recStatusDropped, Reg.recStatusQueued, Reg.recIrqStatusDrop], [.free, .recorder], false⟩,
    outcomeAtFrame]

theorem recRebuild_keeps {W : Foot} {s0 s : State} {a : Nat} {l : List (Nat × Nat × Nat)} (hW : recRebuildFoot.Le W) (h : Keeps W s0 s) :
    Keeps W s0 (recRebuild s a l) := by
  unfold recRebuild
  repeat' first
    | with_reducible assumption
    | with_reducible apply State.store_keeps
    | with_reducible apply recPut_keeps
    | with_reducible apply record_keeps
    | with_reducible apply State.takeFree_keeps
    | with_reducible apply Keeps.ite
    | exact hW.trans (Foot.le_of (by decide +kernel))
    | exact hW.part (by decide +kernel)

/-- What `ledgerLoad` may change. -/
def ledgerLoadFoot : Foot :=
  .union [⟨[Reg.angRungCeilAge, Reg.angRungCeiling, Reg.recStatusDropped, Reg.recStatusQueued, Reg.recIrqStatusDrop],
    [.free, .recorder], false⟩, outcomeAtFrame]

theorem ledgerLoad_keeps {W : Foot} {s0 s : State} (hW : ledgerLoadFoot.Le W) (h : Keeps W s0 s) :
    Keeps W s0 (ledgerLoad s) := by
  unfold ledgerLoad
  repeat' first
    | with_reducible assumption
    | with_reducible intro _
    | with_reducible apply State.wr_keeps
    | with_reducible apply Keeps.each
    | with_reducible apply recRebuild_keeps
    | exact hW.fld (by decide +kernel)
    | exact hW.trans (Foot.le_of (by decide +kernel))
    | exact Eq.refl true

/-- What `featuresLoad` may change. -/
def featuresLoadFoot : Foot :=
  ⟨[Reg.jnlCtlTwin, Reg.thmHctmTmt2, Reg.thmHctmTmt1], [], false⟩

theorem featuresLoad_keeps {W : Foot} {s0 s : State} (hW : featuresLoadFoot.Le W) (h : Keeps W s0 s) :
    Keeps W s0 (featuresLoad s) := by
  unfold featuresLoad
  repeat' first
    | with_reducible assumption
    | with_reducible apply State.wr_keeps
    | exact hW.fld (by decide +kernel)
    | exact Eq.refl true

/-- What `domainLoad` may change. -/
def domainLoadFoot : Foot :=
  .union [⟨[Reg.domStatusTimeLocked, Reg.domStatusTimeValid, Reg.domStatusState, Reg.domStaggerLastPos,
    Reg.domGroupGroup, Reg.domIrqStatusStateChg], [.dom], false⟩, ringAnswerFrame]

theorem domainLoad_keeps {W : Foot} {s0 s : State} (hW : domainLoadFoot.Le W) (h : Keeps W s0 s) :
    Keeps W s0 (domainLoad s) := by
  unfold domainLoad
  repeat' first
    | with_reducible assumption
    | with_reducible apply domEnter_keeps
    | with_reducible apply State.wr_keeps
    | with_reducible apply State.set_keeps
    | with_reducible apply Keeps.ite
    | exact hW.fld (by decide +kernel)
    | exact hW.trans (Foot.le_of (by decide +kernel))
    | exact Eq.refl true

/-- What `tripRecord` may change. -/
def tripRecordFoot : Foot :=
  ⟨[Reg.thmIrqStatusTripRestart, Reg.recStatusDropped, Reg.recStatusQueued, Reg.recIrqStatusDrop], [.recorder], false⟩

theorem tripRecord_keeps {W : Foot} {s0 s : State} (hW : tripRecordFoot.Le W) (h : Keeps W s0 s) :
    Keeps W s0 (tripRecord s) := by
  unfold tripRecord
  repeat' first
    | with_reducible assumption
    | with_reducible apply State.set_keeps
    | with_reducible apply recordWarden_keeps
    | with_reducible apply Keeps.ite
    | exact hW.fld (by decide +kernel)
    | exact hW.trans (Foot.le_of (by decide +kernel))
    | exact Eq.refl true

/-- What `b3Start` may change. -/
def b3StartFoot : Foot :=
  .union [b3StartFrame]

theorem b3Start_keeps {W : Foot} {s0 s : State} {src : Nat} (hW : b3StartFoot.Le W) (h : Keeps W s0 s) :
    Keeps W s0 (b3Start s src) := by
  unfold b3Start
  repeat' first
    | with_reducible assumption
    | with_reducible apply keysLoad_keeps
    | with_reducible apply trialBegin_keeps
    | with_reducible apply firmwareLoad_keeps
    | with_reducible apply featuresLoad_keeps
    | with_reducible apply State.wr_keeps
    | with_reducible apply ledgerLoad_keeps
    | with_reducible apply tripRecord_keeps
    | with_reducible apply intentsFree_keeps
    | with_reducible apply overlaysLoad_keeps
    | with_reducible apply State.setBoot_keeps
    | with_reducible apply domainLoad_keeps
    | with_reducible apply Keeps.ite
    | exact hW.fld (by decide +kernel)
    | exact hW.trans (Foot.le_of (by decide +kernel))
    | exact Eq.refl true

/-- What `b4Start` may change. -/
def b4StartFoot : Foot :=
  .union [⟨[Reg.angRungPendTarget, Reg.spnStatusRpm, Reg.spnCountsStarts, Reg.spnIrqStatusToken], [.boot, .change],
    false⟩, spnLeaveTokenFrame, bootEnterFrame, rungFinishFrame]

theorem b4Start_keeps {W : Foot} {s0 s : State} {rpm : Nat} (hW : b4StartFoot.Le W) (h : Keeps W s0 s) :
    Keeps W s0 (b4Start s rpm) := by
  unfold b4Start
  repeat' first
    | with_reducible assumption
    | with_reducible apply serviceEnter_keeps
    | with_reducible apply State.setBoot_keeps
    | with_reducible apply spnStart_keeps
    | with_reducible apply Keeps.ite
    | exact hW.trans (Foot.le_of (by decide +kernel))

/-- What `displacedTell` may change. -/
def displacedTellFoot : Foot :=
  .union [⟨[], [.upd], false⟩, cqReadyFrame]

theorem displacedTell_keeps {W : Foot} {s0 s : State} (hW : displacedTellFoot.Le W) (h : Keeps W s0 s) :
    Keeps W s0 (displacedTell s) := by
  unfold displacedTell
  repeat' first
    | with_reducible assumption
    | with_reducible apply updHostEvent_keeps
    | with_reducible apply State.setUpd_keeps
    | with_reducible apply Keeps.ite
    | exact hW.trans (Foot.le_of (by decide +kernel))

theorem execImageApplyDone_keeps {W : Foot} {s0 s : State} {rpm : Nat} (hW : execImageApplyDoneFrame.Le W) (h : Keeps W s0 s) :
    KeepsOut W s0 (execImageApplyDone rpm s) := by
  unfold execImageApplyDone
  repeat' first
    | with_reducible assumption
    | with_reducible apply KeepsOut.next
    | with_reducible apply KeepsOut.ite
    | with_reducible apply deviceFatal_keeps
    | with_reducible apply b4Start_keeps
    | with_reducible apply b3Start_keeps
    | with_reducible apply displacedTell_keeps
    | exact hW.trans (Foot.le_of (by decide +kernel))
    | split

theorem execB4Done_keeps {W : Foot} {s0 s : State} (hW : execB4DoneFrame.Le W) (h : Keeps W s0 s) :
    KeepsOut W s0 (execB4Done s) := by
  unfold execB4Done
  repeat' first
    | with_reducible assumption
    | with_reducible apply KeepsOut.next
    | with_reducible apply b4Done_keeps
    | with_reducible apply displacedTell_keeps
    | exact hW.trans (Foot.le_of (by decide +kernel))

theorem execSimRetireAddWrite_keeps {W : Foot} {s0 s : State} {priv : Priv} {data : Word} (hW : execSimRetireAddWriteFrame.Le W) (h : Keeps W s0 s) :
    KeepsOut W s0 (execSimRetireAddWrite priv data s) := by
  unfold execSimRetireAddWrite
  repeat' first
    | with_reducible assumption
    | with_reducible apply KeepsOut.next
    | with_reducible apply KeepsOut.ite
    | with_reducible apply State.answer_keeps
    | with_reducible apply busError_keeps
    | with_reducible apply corrected_keeps
    | with_reducible apply retireWrite_keeps
    | exact hW.trans (Foot.le_of (by decide +kernel))

end Sys2Proof.Machine
end

