-- ==== Sys2Proof/Laws/FootAccess.lean ====
section
/-!
SUPPORT. Footprints of the operations of Machine/Access.lean: what each may change, and that it changes nothing else.
-/

namespace Sys2Proof.Machine

set_option Elab.async false

theorem execModeWrite_keeps {W : Foot} {s0 s : State} {unit : Nat} {data : Word} (hW : (execModeWriteFrame unit).Le W)
    (h : Keeps W s0 s) : KeepsOut W s0 (execModeWrite unit data s) := by
  have h1 : modeLevel unit ∈ W.regs := hW.1 _ List.mem_cons_self
  have h2 : modePend unit ∈ W.regs := hW.1 _ (List.mem_cons_of_mem _ List.mem_cons_self)
  have h3 : modeIgnored unit ∈ W.regs := hW.1 _ (List.mem_cons_of_mem _ (List.mem_cons_of_mem _ List.mem_cons_self))
  have h4 : Reg.fltCounts0Corrected ∈ W.regs :=
    hW.1 _ (List.mem_cons_of_mem _ (List.mem_cons_of_mem _ (List.mem_cons_of_mem _ List.mem_cons_self)))
  have hr : Part.resp ∈ W.parts := hW.2.1 _ List.mem_cons_self
  have ha : ∀ x, Keeps W s0 x → Keeps W s0 (x.answer 0) := fun x hx => Keeps.set_resp hr hx
  have hc : Keeps W s0 (if fieldOf data 16 16 = 0 then s.clr (modeIgnored unit) else s) :=
    Keeps.ite (State.clr_keeps rfl h3 h) h
  unfold execModeWrite
  refine KeepsOut.ite (.next (ha _ h)) (KeepsOut.ite (.next (Keeps.set_resp hr (State.bump_keeps rfl h4 h))) ?_)
  revert hc
  dsimp only
  generalize (if fieldOf data 16 16 = 0 then s.clr (modeIgnored unit) else s) = x
  intro hc
  exact .next (ha _ (Keeps.ite (State.clr_keeps rfl h2 (State.wr_keeps rfl h1 hc)) (State.wr_keeps rfl h2 hc)))

theorem execLevelChangeApply_keeps {W : Foot} {s0 s : State} {unit : Nat} (hW : (execLevelChangeApplyFrame unit).Le W)
    (h : Keeps W s0 s) : KeepsOut W s0 (execLevelChangeApply unit s) := by
  have h1 : modeLevel unit ∈ W.regs := hW.1 _ List.mem_cons_self
  have h2 : modePend unit ∈ W.regs := hW.1 _ (List.mem_cons_of_mem _ List.mem_cons_self)
  unfold execLevelChangeApply
  exact KeepsOut.ite (.next h) (.next (State.clr_keeps rfl h2 (State.wr_keeps rfl h1 h)))

/-- What `writeField` may change. -/
def writeFieldFoot : Foot :=
  ⟨[], [], true⟩

theorem writeField_keeps {W : Foot} {s0 s : State} {expert : Bool} {r : RegRow} {data : Word} (hW : writeFieldFoot.Le W) (h : Keeps W s0 s) :
    Keeps W s0 (writeField s expert r data) := by
  unfold writeField
  repeat' first
    | with_reducible assumption
    | with_reducible apply Keeps.ite
    | with_reducible apply State.wr_keeps_any
    | with_reducible apply State.clr_keeps_any
    | exact hW.2.2 rfl
    | split

/-- What `writeFields` may change. -/
def writeFieldsFoot : Foot :=
  ⟨[Reg.fltCounts0Corrected], [], true⟩

theorem writeFields_keeps {W : Foot} {s0 s : State} {a : Nat} {data : Word} (hW : writeFieldsFoot.Le W) (h : Keeps W s0 s) :
    Keeps W s0 (writeFields s a data) := by
  have hany : W.any = true := hW.2.2 rfl
  refine Keeps.each (Keeps.when ?_ fun y hy => corrected_keeps (hW.trans (Foot.le_of (by decide +kernel))) hy)
    fun x r hx => writeField_keeps (hW.trans (Foot.le_of (by decide +kernel))) hx
  exact Keeps.when h fun y hy => State.bump_keeps_any hany hy

/-- What `writePairLow` may change. -/
def writePairLowFoot : Foot :=
  ⟨[Reg.fltCounts0Corrected], [.loHalf], true⟩

theorem writePairLow_keeps {W : Foot} {s0 s : State} {m : Nat} {a : Nat} {data : Word} (hW : writePairLowFoot.Le W) (h : Keeps W s0 s) :
    Keeps W s0 (writePairLow s m a data) := by
  unfold writePairLow
  repeat' first
    | with_reducible assumption
    | with_reducible apply stageHalf_keeps
    | with_reducible apply writeFields_keeps
    | with_reducible apply Keeps.ite
    | exact hW.trans (Foot.le_of (by decide +kernel))

/-- What `writePairHigh` may change. -/
def writePairHighFoot : Foot :=
  ⟨[Reg.fltCounts0Corrected], [.loHalf], true⟩

theorem writePairHigh_keeps {W : Foot} {s0 s : State} {m : Nat} {a : Nat} {data : Word} (hW : writePairHighFoot.Le W) (h : Keeps W s0 s) :
    Keeps W s0 (writePairHigh s m a data) := by
  unfold writePairHigh
  repeat' first
    | with_reducible assumption
    | with_reducible apply stageHalf_keeps
    | with_reducible apply writeFields_keeps
    | exact hW.trans (Foot.le_of (by decide +kernel))
    | split

/-- What `leftover` may change. -/
def leftoverFoot : Foot :=
  ⟨[Reg.angModeExpertWrIgnored, Reg.bcmIrqStatusOpDone, Reg.bcmOpCtlOp, Reg.bcmOpCtlNs, Reg.bcmOpCtlMask,
    Reg.bcmOpResBusy, Reg.bcmOpResStatus, Reg.bcmOpResMask, Reg.bcmOpFrameFrame, Reg.fltCounts0Corrected,
    Reg.calCmdResStatus, Reg.thmModeExpertWrIgnored], [], true⟩

theorem leftover_keeps {W : Foot} {s0 s : State} {a : Nat} {data : Word} (hW : leftoverFoot.Le W) (h : Keeps W s0 s) :
    ∀ y, leftover s a data = some y → Keeps W s0 y := by
  intro y e
  have hc : ∀ z, Keeps W s0 z → Keeps W s0 (corrected z) := fun z hz => corrected_keeps (hW.trans (Foot.le_of (by decide +kernel))) hz
  unfold leftover at e
  dsimp only at e
  repeat' first
    | assumption
    | (split at e)
    | cases e
    | with_reducible apply Keeps.ite
    | with_reducible apply Keeps.when
    | with_reducible apply hc
    | with_reducible apply expertIgnored_keeps
    | with_reducible apply slotGo_keeps
    | with_reducible apply slotEnd_keeps
    | with_reducible apply writeFields_keeps
    | with_reducible apply State.wr_keeps_any
    | with_reducible intro _
    | exact hW.2.2 rfl
    | exact hW.fld (by decide +kernel)
    | exact Eq.refl true
    | exact hW.trans (Foot.le_of (by decide +kernel))

/-- What `quotaWrite` may change. -/
def quotaWriteFoot : Foot :=
  ⟨[Reg.hstModeExpertWrIgnored, Reg.fltCounts0Corrected], [.hst], false⟩

theorem quotaWrite_keeps {W : Foot} {s0 s : State} {data : Word} (hW : quotaWriteFoot.Le W) (h : Keeps W s0 s) :
    Keeps W s0 (quotaWrite s data) := by
  unfold quotaWrite
  repeat' first
    | with_reducible assumption
    | with_reducible apply State.setHst_keeps
    | with_reducible apply corrected_keeps
    | with_reducible apply expertIgnored_keeps
    | with_reducible apply Keeps.ite
    | exact hW.fld (by decide +kernel)
    | exact hW.trans (Foot.le_of (by decide +kernel))
    | exact Eq.refl true

/-- What `weightWrite` may change. -/
def weightWriteFoot : Foot :=
  ⟨[Reg.hstModeExpertWrIgnored, Reg.fltCounts0Corrected], [.hst], false⟩

theorem weightWrite_keeps {W : Foot} {s0 s : State} {data : Word} (hW : weightWriteFoot.Le W) (h : Keeps W s0 s) :
    Keeps W s0 (weightWrite s data) := by
  unfold weightWrite
  repeat' first
    | with_reducible assumption
    | with_reducible intro _
    | with_reducible apply State.setHst_keeps
    | with_reducible apply corrected_keeps
    | with_reducible apply expertIgnored_keeps
    | with_reducible apply Keeps.when
    | with_reducible apply Keeps.ite
    | exact hW.fld (by decide +kernel)
    | exact hW.trans (Foot.le_of (by decide +kernel))
    | exact Eq.refl true

/-- What `registerWord` may change. -/
def registerWordFoot : Foot :=
  ⟨[Reg.angModeExpertWrIgnored, Reg.rdcStatusStaged, Reg.hstModeExpertWrIgnored, Reg.bcmIrqStatusOpDone,
    Reg.bcmOpCtlOp, Reg.bcmOpCtlNs, Reg.bcmOpCtlMask, Reg.bcmOpResBusy, Reg.bcmOpResStatus, Reg.bcmOpResMask,
    Reg.bcmOpFrameFrame, Reg.fltCounts0Corrected, Reg.calCmdResStatus, Reg.thmModeExpertWrIgnored,
    Reg.updWaveCtlState], [.loHalf, .recorder, .chan, .hst], true⟩

theorem registerWord_keeps {W : Foot} {s0 s : State} {m : Nat} {a : Nat} {data : Word} (hW : registerWordFoot.Le W) (h : Keeps W s0 s) :
    Keeps W s0 (registerWord s m a data) := by
  unfold registerWord
  repeat' first
    | with_reducible assumption
    | with_reducible intro _
    | with_reducible apply State.setChan_keeps
    | with_reducible apply writePairHigh_keeps
    | with_reducible apply stageHalf_keeps
    | with_reducible apply writePairLow_keeps
    | with_reducible apply corrected_keeps
    | with_reducible apply State.setRecorder_keeps
    | with_reducible apply quotaWrite_keeps
    | with_reducible apply Keeps.when
    | with_reducible apply writeFields_keeps
    | with_reducible apply weightWrite_keeps
    | with_reducible apply Keeps.ite
    | with_reducible apply State.set_keeps_any
    | with_reducible apply State.clr_keeps_any
    | exact hW.2.2 rfl
    | refine leftover_keeps ?_ ?_ _ (by assumption)
    | exact hW.trans (Foot.le_of (by decide +kernel))
    | split

/-- What `storePart` may change. -/
def storePartFoot : Foot :=
  ⟨[], [.cs, .ce], false⟩

theorem storePart_keeps {W : Foot} {s0 s : State} {inst : Nat} {off : Nat} {data : Word} (hW : storePartFoot.Le W) (h : Keeps W s0 s) :
    Keeps W s0 (storePart s inst off data) := by
  unfold storePart
  repeat' first
    | with_reducible assumption
    | with_reducible apply setCeMem_keeps
    | with_reducible apply State.setCs_keeps
    | with_reducible apply csCommit_keeps
    | with_reducible apply Keeps.ite
    | exact hW.trans (Foot.le_of (by decide +kernel))

/-- What `storeAccess` may change. -/
def storeAccessFoot : Foot :=
  ⟨[Reg.fltCounts0Corrected], [.resp, .cs, .ce], true⟩

theorem storeAccess_keeps {W : Foot} {s0 s : State} {inst : Nat} {off : Nat} {data : Word} (hW : storeAccessFoot.Le W) (h : Keeps W s0 s) :
    Keeps W s0 (storeAccess s inst off data) := by
  unfold storeAccess
  repeat' first
    | with_reducible assumption
    | with_reducible apply State.answer_keeps
    | with_reducible apply busError_keeps
    | with_reducible apply storePart_keeps
    | with_reducible apply Keeps.ite
    | with_reducible apply State.bump_keeps_any
    | exact hW.2.2 rfl
    | exact hW.trans (Foot.le_of (by decide +kernel))

theorem execControlStoreWrite_keeps {W : Foot} {s0 s : State} {store : Nat} {offset : Nat} {data : Word} (hW : execControlStoreWriteFrame.Le W) (h : Keeps W s0 s) :
    KeepsOut W s0 (execControlStoreWrite store offset data s) := by
  unfold execControlStoreWrite
  repeat' first
    | with_reducible assumption
    | with_reducible apply KeepsOut.next
    | with_reducible apply storeAccess_keeps
    | exact hW.trans (Foot.le_of (by decide +kernel))

/-- What `storeEvents` may change. -/
def storeEventsFoot : Foot :=
  ⟨[Reg.pmuOvfOvf, Reg.pmuCntLoCount, Reg.pmuCntHiCount], [], false⟩

theorem storeEvents_keeps {W : Foot} {s0 s : State} {m : Nat} {priv : Priv} {a : Nat} {size : Nat} (hW : storeEventsFoot.Le W) (h : Keeps W s0 s) :
    Keeps W s0 (storeEvents s m priv a size) := by
  unfold storeEvents
  repeat' first
    | with_reducible assumption
    | with_reducible apply pmuEventIn_keeps
    | exact hW.trans (Foot.le_of (by decide +kernel))
    | split
    | dsimp only

/-- What `memoryStore` may change. -/
def memoryStoreFoot : Foot :=
  .union [⟨[Reg.fltCounts0Corrected, Reg.pmuOvfOvf, Reg.pmuCntLoCount, Reg.pmuCntHiCount], [.resp], false⟩,
    outcomeAtFrame]

theorem memoryStore_keeps {W : Foot} {s0 s : State} {m : Nat} {priv : Priv} {a : Nat} {size : Nat} {data : Nat} (hW : memoryStoreFoot.Le W) (h : Keeps W s0 s) :
    Keeps W s0 (memoryStore s m priv a size data) := by
  unfold memoryStore
  repeat' first
    | with_reducible assumption
    | with_reducible apply State.answer_keeps
    | with_reducible apply busError_keeps
    | with_reducible apply storeEvents_keeps
    | with_reducible apply State.store_keeps
    | with_reducible apply Keeps.ite
    | exact hW.trans (Foot.le_of (by decide +kernel))

theorem execRegisterWrite_keeps {W : Foot} {s0 s : State} {m : Nat} {priv : Priv} {addr : Nat} {size : Nat} {data : Nat} (hW : execRegisterWriteFrame.Le W) (h : Keeps W s0 s) :
    KeepsOut W s0 (execRegisterWrite m priv addr size data s) := by
  unfold execRegisterWrite
  repeat' first
    | with_reducible assumption
    | with_reducible apply KeepsOut.next
    | with_reducible apply State.answer_keeps
    | with_reducible apply busError_keeps
    | with_reducible apply registerWord_keeps
    | with_reducible apply storeAccess_keeps
    | with_reducible apply memoryStore_keeps
    | with_reducible apply Keeps.ite
    | exact hW.trans (Foot.le_of (by decide +kernel))
    | split

/-- What `readRegister` may change. -/
def readRegisterFoot : Foot :=
  ⟨[Reg.angRevLoRev, Reg.fltMcrWordWord, Reg.fltOwnerIdxWord, Reg.domTimeLoUs, Reg.pmuCycleLoCyc], [.hiLatch, .resp],
    false⟩

theorem readRegister_keeps {W : Foot} {s0 s : State} {m : Nat} {a : Nat} (hW : readRegisterFoot.Le W) (h : Keeps W s0 s) :
    Keeps W s0 (readRegister s m a) := by
  unfold readRegister
  repeat' first
    | with_reducible assumption
    | with_reducible apply State.answer_keeps
    | with_reducible apply State.wr_keeps
    | with_reducible apply State.setHiLatch_keeps
    | exact hW.fld (by decide +kernel)
    | exact hW.trans (Foot.le_of (by decide +kernel))
    | exact Eq.refl true
    | split
    | dsimp only

/-- What `hvFaultLine` may change. -/
def hvFaultLineFoot : Foot :=
  ⟨[Reg.hvbStatusHvFaultLine], [], false⟩

theorem hvFaultLine_keeps {W : Foot} {s0 s : State} (hW : hvFaultLineFoot.Le W) (h : Keeps W s0 s) :
    Keeps W s0 (hvFaultLine s) := by
  unfold hvFaultLine
  repeat' first
    | with_reducible assumption
    | with_reducible apply State.wr_keeps
    | exact hW.fld (by decide +kernel)
    | exact Eq.refl true

theorem execHvbAccess_keeps {W : Foot} {s0 s : State} {m : Nat} {priv : Priv} {write : Bool} {offset : Nat} {data : Word} (hW : execHvbAccessFrame.Le W) (h : Keeps W s0 s) :
    KeepsOut W s0 (execHvbAccess m priv write offset data s) := by
  unfold execHvbAccess
  repeat' first
    | with_reducible assumption
    | with_reducible apply KeepsOut.next
    | with_reducible apply KeepsOut.ite
    | with_reducible apply State.answer_keeps
    | with_reducible apply readRegister_keeps
    | with_reducible apply hvFaultLine_keeps
    | with_reducible apply busError_keeps
    | with_reducible apply pmuEventIn_keeps
    | with_reducible apply writeFields_keeps
    | with_reducible apply State.bump_keeps_any
    | exact hW.2.2 rfl
    | exact hW.trans (Foot.le_of (by decide +kernel))

end Sys2Proof.Machine
end

