-- ==== Sys2Proof/Laws/FootIdle.lean ====
section
/-!
SUPPORT. Footprints of the operations of Machine/Idle.lean: what each may change, and that it changes nothing else.
-/

namespace Sys2Proof.Machine

set_option Elab.async false

/-- What `cycleAdvance` may change. -/
def cycleAdvanceFoot : Foot :=
  ⟨[Reg.pmuCycleLoCyc, Reg.pmuCycleHiCyc], [], false⟩

theorem cycleAdvance_keeps {W : Foot} {s0 s : State} (hW : cycleAdvanceFoot.Le W) (h : Keeps W s0 s) :
    Keeps W s0 (cycleAdvance s) := by
  unfold cycleAdvance
  repeat' first
    | with_reducible assumption
    | with_reducible apply State.wrPair_keeps
    | exact hW.fld (by decide +kernel)
    | exact Eq.refl true

/-- What `tick` may change. -/
def tickFoot : Foot :=
  .union [⟨[Reg.pmuCycleLoCyc, Reg.pmuCycleHiCyc], [], false⟩, modeAdvanceFrame]

theorem tick_keeps {W : Foot} {s0 s : State} (hW : tickFoot.Le W) (h : Keeps W s0 s) :
    Keeps W s0 (tick s) := by
  unfold tick
  repeat' first
    | with_reducible assumption
    | with_reducible apply calPump_keeps
    | with_reducible apply modeAdvance_keeps
    | with_reducible apply cycleAdvance_keeps
    | exact hW.trans (Foot.le_of (by decide +kernel))

end Sys2Proof.Machine
end

