-- ==== Sys2Proof/Laws/FootLogs.lean ====
section
/-!
SUPPORT. Footprints of the operations of Machine/Logs.lean: what each may change, and that it changes nothing else.
-/

namespace Sys2Proof.Machine

set_option Elab.async false

/-- What `pageBytes` may change. -/
def pageBytesFoot : Foot :=
  ⟨[], [.free], false⟩

theorem pageBytes_keeps {W : Foot} {s0 s : State} {lid : Nat} {ns : Nat} {off : Nat} {n : Nat} (hW : pageBytesFoot.Le W) (h : Keeps W s0 s) :
    Keeps W s0 (pageBytes s lid ns off n).2 := by
  unfold pageBytes
  repeat' first
    | with_reducible assumption
    | with_reducible apply Keeps.snd_ite
    | with_reducible apply freeBytes_keeps
    | exact hW.trans (Foot.le_of (by decide +kernel))

/-- What `pageRead` may change. -/
def pageReadFoot : Foot :=
  ⟨[], [.hst, .upd], false⟩

theorem pageRead_keeps {W : Foot} {s0 s : State} {lid : Nat} {ns : Nat} (hW : pageReadFoot.Le W) (h : Keeps W s0 s) :
    Keeps W s0 (pageRead s lid ns) := by
  unfold pageRead
  repeat' first
    | with_reducible assumption
    | with_reducible apply State.setHst_keeps
    | with_reducible apply State.setUpd_keeps
    | with_reducible apply Keeps.ite
    | exact hW.trans (Foot.le_of (by decide +kernel))

/-- What `logPage` may change. -/
def logPageFoot : Foot :=
  ⟨[], [.free, .hst, .upd], false⟩

theorem logPage_keeps {W : Foot} {s0 s : State} {fn : Nat} {lid : Nat} {ns : Nat} {off : Nat} {n : Nat} (hW : logPageFoot.Le W) (h : Keeps W s0 s) :
    Keeps W s0 (logPage s fn lid ns off n) := by
  unfold logPage
  repeat' first
    | with_reducible assumption
    | with_reducible apply pageRead_keeps
    | with_reducible apply pageBytes_keeps
    | with_reducible apply adminReply_keeps
    | with_reducible apply Keeps.ite
    | exact hW.trans (Foot.le_of (by decide +kernel))

theorem execGetLogPage_keeps {W : Foot} {s0 s : State} {fn : Nat} {lid : Nat} {ns : Nat} {offset : Nat} {len : Nat} (hW : execGetLogPageFrame.Le W) (h : Keeps W s0 s) :
    KeepsOut W s0 (execGetLogPage fn lid ns offset len s) := by
  unfold execGetLogPage
  repeat' first
    | with_reducible assumption
    | with_reducible intro _
    | with_reducible apply KeepsOut.next
    | with_reducible apply logPage_keeps
    | with_reducible apply adminRun_keeps
    | exact hW.trans (Foot.le_of (by decide +kernel))

/-- What `miReply` may change. -/
def miReplyFoot : Foot :=
  ⟨[], [.hst], false⟩

theorem miReply_keeps {W : Foot} {s0 s : State} {status : Nat} {data : List Byte} (hW : miReplyFoot.Le W) (h : Keeps W s0 s) :
    Keeps W s0 (miReply s status data) := by
  unfold miReply
  repeat' first
    | with_reducible assumption
    | with_reducible apply State.setHst_keeps
    | exact hW.trans (Foot.le_of (by decide +kernel))

/-- What `miRun` may change. -/
def miRunFoot : Foot :=
  ⟨[], [.hst], false⟩

theorem miRun_keeps {W : Foot} {s0 s : State} {always : Bool} {run : State → State} (hW : miRunFoot.Le W) (h : Keeps W s0 s) (hrun : ∀ a0, Keeps W s0 a0 → Keeps W s0 (run a0)) :
    Keeps W s0 (miRun s always run) := by
  unfold miRun
  repeat' first
    | with_reducible assumption
    | with_reducible apply hrun
    | with_reducible apply miReply_keeps
    | with_reducible apply Keeps.ite
    | exact hW.trans (Foot.le_of (by decide +kernel))

theorem execMiReadDataStructure_keeps {W : Foot} {s0 s : State} {type : Nat} (hW : execMiReadDataStructureFrame.Le W) (h : Keeps W s0 s) :
    KeepsOut W s0 (execMiReadDataStructure type s) := by
  unfold execMiReadDataStructure
  repeat' first
    | with_reducible assumption
    | with_reducible intro _
    | with_reducible apply KeepsOut.next
    | with_reducible apply freeBytes_keeps
    | with_reducible apply miRun_keeps
    | with_reducible apply miReply_keeps
    | with_reducible apply Keeps.ite
    | exact hW.trans (Foot.le_of (by decide +kernel))

theorem execMiSubsystemHealthPoll_keeps {W : Foot} {s0 s : State} {_clear : Bool} (hW : execMiSubsystemHealthPollFrame.Le W) (h : Keeps W s0 s) :
    KeepsOut W s0 (execMiSubsystemHealthPoll _clear s) := by
  unfold execMiSubsystemHealthPoll
  repeat' first
    | with_reducible assumption
    | with_reducible intro _
    | with_reducible apply KeepsOut.next
    | with_reducible apply freeBytes_keeps
    | with_reducible apply miRun_keeps
    | with_reducible apply miReply_keeps
    | exact hW.trans (Foot.le_of (by decide +kernel))

theorem execMiControllerHealthPoll_keeps {W : Foot} {s0 s : State} {first : Nat} {count : Nat} (hW : execMiControllerHealthPollFrame.Le W) (h : Keeps W s0 s) :
    KeepsOut W s0 (execMiControllerHealthPoll first count s) := by
  unfold execMiControllerHealthPoll
  repeat' first
    | with_reducible assumption
    | with_reducible intro _
    | with_reducible apply KeepsOut.next
    | with_reducible apply freeBytes_keeps
    | with_reducible apply miRun_keeps
    | with_reducible apply miReply_keeps
    | exact hW.trans (Foot.le_of (by decide +kernel))

theorem execMiConfigGet_keeps {W : Foot} {s0 s : State} {id : Nat} (hW : execMiConfigGetFrame.Le W) (h : Keeps W s0 s) :
    KeepsOut W s0 (execMiConfigGet id s) := by
  unfold execMiConfigGet
  repeat' first
    | with_reducible assumption
    | with_reducible intro _
    | with_reducible apply KeepsOut.next
    | with_reducible apply miRun_keeps
    | with_reducible apply miReply_keeps
    | with_reducible apply Keeps.ite
    | exact hW.trans (Foot.le_of (by decide +kernel))

theorem execMiConfigSet_keeps {W : Foot} {s0 s : State} {id : Nat} {value : Nat} (hW : execMiConfigSetFrame.Le W) (h : Keeps W s0 s) :
    KeepsOut W s0 (execMiConfigSet id value s) := by
  unfold execMiConfigSet
  repeat' first
    | with_reducible assumption
    | with_reducible intro _
    | with_reducible apply KeepsOut.next
    | with_reducible apply miRun_keeps
    | with_reducible apply State.setHst_keeps
    | with_reducible apply miReply_keeps
    | with_reducible apply Keeps.ite
    | exact hW.trans (Foot.le_of (by decide +kernel))

theorem execMiTunneledAdmin_keeps {W : Foot} {s0 s : State} {fn : Nat} {opc : Nat} {sel : Nat} {ns : Nat} {arg : Nat} {len : Nat} (hW : execMiTunneledAdminFrame.Le W) (h : Keeps W s0 s) :
    KeepsOut W s0 (execMiTunneledAdmin fn opc sel ns arg len s) := by
  unfold execMiTunneledAdmin
  repeat' first
    | with_reducible assumption
    | with_reducible intro _
    | with_reducible apply KeepsOut.next
    | with_reducible apply logPage_keeps
    | with_reducible apply getFeatures_keeps
    | with_reducible apply miRun_keeps
    | with_reducible apply State.setHst_keeps
    | with_reducible apply identify_keeps
    | with_reducible apply miReply_keeps
    | with_reducible apply Keeps.ite
    | exact hW.trans (Foot.le_of (by decide +kernel))

theorem execMiBasicMgmtCommand_keeps {W : Foot} {s0 s : State} {code : Nat} (hW : execMiBasicMgmtCommandFrame.Le W) (h : Keeps W s0 s) :
    KeepsOut W s0 (execMiBasicMgmtCommand code s) := by
  unfold execMiBasicMgmtCommand
  repeat' first
    | with_reducible assumption
    | with_reducible apply KeepsOut.next
    | with_reducible apply KeepsOut.ite
    | with_reducible apply freeBytes_keeps
    | with_reducible apply miReply_keeps
    | exact hW.trans (Foot.le_of (by decide +kernel))

end Sys2Proof.Machine
end

