-- ==== Sys2Proof/Laws/FootMicrocode.lean ====
section
/-!
SUPPORT. Footprints of the operations of Machine/Microcode.lean: what each may change, and that it changes nothing else.
-/

namespace Sys2Proof.Machine

set_option Elab.async false

/-- What `mwStrobe` may change. -/
def mwStrobeFoot : Foot :=
  .union [⟨[Reg.bwkStatusWreq, Reg.bwkIrqStatusResult, Reg.astStatusHead, Reg.astStatusGset, Reg.fltCounts0Corrected,
    Reg.preStatusPa1Head, Reg.preStatusPa0Head, Reg.preStatusPa1Mode, Reg.preStatusPa0Mode], [.pre], false⟩,
    astBandFrame]

theorem mwStrobe_keeps {W : Foot} {s0 s : State} {n : Nat} {p : Plank} {w : BitVec 128} {now : Nat} (hW : mwStrobeFoot.Le W) (h : Keeps W s0 s) :
    Keeps W s0 (mwStrobe s n p w now) := by
  unfold mwStrobe
  repeat' first
    | with_reducible assumption
    | with_reducible intro _
    | with_reducible apply astRampStart_keeps
    | with_reducible apply State.set_elem_keeps
    | with_reducible apply astDownEvent_keeps
    | with_reducible apply State.setBwk_keeps
    | with_reducible apply gateRefresh_keeps
    | with_reducible apply Keeps.when
    | with_reducible apply preStrobe_keeps
    | exact hW.fld (by decide +kernel)
    | exact hW.trans (Foot.le_of (by decide +kernel))
    | split

/-- What `mwEnd` may change. -/
def mwEndFoot : Foot :=
  .union [⟨[Reg.jnlCounts1Folds], [], false⟩, bwkStopAllFrame, faultRestartFrame]

theorem mwEnd_keeps {W : Foot} {s0 s : State} {n : Nat} {p : Plank} {status : Nat} {now : Nat} (hW : mwEndFoot.Le W) (h : Keeps W s0 s) :
    Keeps W s0 (mwEnd s n p status now) := by
  unfold mwEnd
  repeat' first
    | with_reducible assumption
    | with_reducible apply writeEnd_keeps
    | with_reducible apply plankEnd_keeps
    | with_reducible apply Keeps.ite
    | exact hW.trans (Foot.le_of (by decide +kernel))

/-- What `mwHalt` may change. -/
def mwHaltFoot : Foot :=
  .union [⟨[Reg.bwkIrqStatusHalt, Reg.jnlCounts1Folds], [], false⟩, bwkStopAllFrame, faultRestartFrame]

theorem mwHalt_keeps {W : Foot} {s0 s : State} {n : Nat} {p : Plank} {now : Nat} (hW : mwHaltFoot.Le W) (h : Keeps W s0 s) :
    Keeps W s0 (mwHalt s n p now) := by
  unfold mwHalt
  repeat' first
    | with_reducible assumption
    | with_reducible apply mwEnd_keeps
    | with_reducible apply setBwkState_keeps
    | with_reducible apply State.set_elem_keeps
    | with_reducible apply contained_keeps
    | exact hW.fld (by decide +kernel)
    | exact hW.trans (Foot.le_of (by decide +kernel))

/-- What `mwParity` may change. -/
def mwParityFoot : Foot :=
  .union [⟨[Reg.bwkIrqStatusParity, Reg.astWfSnap0PosErr, Reg.astWfSnap0Proxy, Reg.astWfSnap1GateCause,
    Reg.astWfSnap1Head, Reg.astWfSnap1Iset, Reg.astWfAngleAngle, Reg.jnlCounts1Folds], [], false⟩, unitFatalFrame,
    faultRestartFrame]

theorem mwParity_keeps {W : Foot} {s0 s : State} {n : Nat} {p : Plank} {full : Nat} {addr : Nat} {copyBad : Bool} (hW : mwParityFoot.Le W) (h : Keeps W s0 s) :
    Keeps W s0 (mwParity s n p full addr copyBad) := by
  unfold mwParity
  repeat' first
    | with_reducible assumption
    | with_reducible apply mwEnd_keeps
    | with_reducible apply setBwkState_keeps
    | with_reducible apply wreqLow_keeps
    | with_reducible apply State.set_elem_keeps
    | with_reducible apply contained_keeps
    | with_reducible apply unitFatal_keeps
    | with_reducible apply faultSector_keeps
    | with_reducible apply State.setBwk_keeps
    | with_reducible apply Keeps.ite
    | exact hW.fld (by decide +kernel)
    | exact hW.trans (Foot.le_of (by decide +kernel))

theorem execMicrowordExecute_keeps {W : Foot} {s0 s : State} {n : Nat} {full : Nat} {upset : Option Upset} (hW : execMicrowordExecuteFrame.Le W) (h : Keeps W s0 s) :
    KeepsOut W s0 (execMicrowordExecute n full upset s) := by
  unfold execMicrowordExecute
  repeat' first
    | with_reducible assumption
    | with_reducible apply KeepsOut.next
    | with_reducible apply KeepsOut.ite
    | with_reducible apply mwEnd_keeps
    | with_reducible apply mwParity_keeps
    | with_reducible apply State.setBwk_keeps
    | with_reducible apply mwStrobe_keeps
    | with_reducible apply mwHalt_keeps
    | with_reducible apply Keeps.ite
    | exact hW.trans (Foot.le_of (by decide +kernel))
    | split
    | dsimp only

theorem execParityReloadDone_keeps {W : Foot} {s0 s : State} {n : Nat} (hW : execParityReloadDoneFrame.Le W) (h : Keeps W s0 s) :
    KeepsOut W s0 (execParityReloadDone n s) := by
  unfold execParityReloadDone
  repeat' first
    | with_reducible assumption
    | with_reducible apply KeepsOut.next
    | with_reducible apply KeepsOut.ite
    | with_reducible apply setBwkState_keeps
    | with_reducible apply csReload_keeps
    | exact hW.trans (Foot.le_of (by decide +kernel))

end Sys2Proof.Machine
end

