-- ==== Sys2Proof/Laws/State.lean ====
section
/-!
SUPPORT. Laws of State: what each update of one part leaves of every other part, what a register field reads as after a
write of a field, and that the operations over memory keep its canonical form.
-/

namespace Sys2Proof.Machine

set_option Elab.async false

section
variable (s : State)

/-! ## Register writes leave every part but the register file -/

section
variable (a : Nat) (w : Word)
@[simp] theorem State.wrWord_mem : (s.wrWord a w).mem = s.mem := rfl
@[simp] theorem State.wrWord_poison : (s.wrWord a w).poison = s.poison := rfl
@[simp] theorem State.wrWord_loHalf : (s.wrWord a w).loHalf = s.loHalf := rfl
@[simp] theorem State.wrWord_hiLatch : (s.wrWord a w).hiLatch = s.hiLatch := rfl
@[simp] theorem State.wrWord_resp : (s.wrWord a w).resp = s.resp := rfl
@[simp] theorem State.wrWord_free : (s.wrWord a w).free = s.free := rfl
@[simp] theorem State.wrWord_boot : (s.wrWord a w).boot = s.boot := rfl
@[simp] theorem State.wrWord_recorder : (s.wrWord a w).recorder = s.recorder := rfl
@[simp] theorem State.wrWord_flt : (s.wrWord a w).flt = s.flt := rfl
@[simp] theorem State.wrWord_rst : (s.wrWord a w).rst = s.rst := rfl
@[simp] theorem State.wrWord_ang : (s.wrWord a w).ang = s.ang := rfl
@[simp] theorem State.wrWord_sim : (s.wrWord a w).sim = s.sim := rfl
@[simp] theorem State.wrWord_cs : (s.wrWord a w).cs = s.cs := rfl
@[simp] theorem State.wrWord_rings : (s.wrWord a w).rings = s.rings := rfl
@[simp] theorem State.wrWord_bwk : (s.wrWord a w).bwk = s.bwk := rfl
@[simp] theorem State.wrWord_srv : (s.wrWord a w).srv = s.srv := rfl
@[simp] theorem State.wrWord_ce : (s.wrWord a w).ce = s.ce := rfl
@[simp] theorem State.wrWord_spn : (s.wrWord a w).spn = s.spn := rfl
@[simp] theorem State.wrWord_ast : (s.wrWord a w).ast = s.ast := rfl
@[simp] theorem State.wrWord_pre : (s.wrWord a w).pre = s.pre := rfl
@[simp] theorem State.wrWord_cal : (s.wrWord a w).cal = s.cal := rfl
@[simp] theorem State.wrWord_age : (s.wrWord a w).age = s.age := rfl
@[simp] theorem State.wrWord_chan : (s.wrWord a w).chan = s.chan := rfl
@[simp] theorem State.wrWord_ldp : (s.wrWord a w).ldp = s.ldp := rfl
@[simp] theorem State.wrWord_oce : (s.wrWord a w).oce = s.oce := rfl
@[simp] theorem State.wrWord_cry : (s.wrWord a w).cry = s.cry := rfl
@[simp] theorem State.wrWord_bcm : (s.wrWord a w).bcm = s.bcm := rfl
@[simp] theorem State.wrWord_memc : (s.wrWord a w).memc = s.memc := rfl
@[simp] theorem State.wrWord_hst : (s.wrWord a w).hst = s.hst := rfl
@[simp] theorem State.wrWord_jnl : (s.wrWord a w).jnl = s.jnl := rfl
@[simp] theorem State.wrWord_change : (s.wrWord a w).change = s.change := rfl
@[simp] theorem State.wrWord_gated : (s.wrWord a w).gated = s.gated := rfl
@[simp] theorem State.wrWord_shadow : (s.wrWord a w).shadow = s.shadow := rfl
@[simp] theorem State.wrWord_pwr : (s.wrWord a w).pwr = s.pwr := rfl
@[simp] theorem State.wrWord_thm : (s.wrWord a w).thm = s.thm := rfl
@[simp] theorem State.wrWord_dom : (s.wrWord a w).dom = s.dom := rfl
@[simp] theorem State.wrWord_upd : (s.wrWord a w).upd = s.upd := rfl
@[simp] theorem State.wrWord_pending : (s.wrWord a w).pending = s.pending := rfl
end

section
variable (f : Fld) (v : Nat)
@[simp] theorem State.wr_mem : (s.wr f v).mem = s.mem := rfl
@[simp] theorem State.wr_poison : (s.wr f v).poison = s.poison := rfl
@[simp] theorem State.wr_loHalf : (s.wr f v).loHalf = s.loHalf := rfl
@[simp] theorem State.wr_hiLatch : (s.wr f v).hiLatch = s.hiLatch := rfl
@[simp] theorem State.wr_resp : (s.wr f v).resp = s.resp := rfl
@[simp] theorem State.wr_free : (s.wr f v).free = s.free := rfl
@[simp] theorem State.wr_boot : (s.wr f v).boot = s.boot := rfl
@[simp] theorem State.wr_recorder : (s.wr f v).recorder = s.recorder := rfl
@[simp] theorem State.wr_flt : (s.wr f v).flt = s.flt := rfl
@[simp] theorem State.wr_rst : (s.wr f v).rst = s.rst := rfl
@[simp] theorem State.wr_ang : (s.wr f v).ang = s.ang := rfl
@[simp] theorem State.wr_sim : (s.wr f v).sim = s.sim := rfl
@[simp] theorem State.wr_cs : (s.wr f v).cs = s.cs := rfl
@[simp] theorem State.wr_rings : (s.wr f v).rings = s.rings := rfl
@[simp] theorem State.wr_bwk : (s.wr f v).bwk = s.bwk := rfl
@[simp] theorem State.wr_srv : (s.wr f v).srv = s.srv := rfl
@[simp] theorem State.wr_ce : (s.wr f v).ce = s.ce := rfl
@[simp] theorem State.wr_spn : (s.wr f v).spn = s.spn := rfl
@[simp] theorem State.wr_ast : (s.wr f v).ast = s.ast := rfl
@[simp] theorem State.wr_pre : (s.wr f v).pre = s.pre := rfl
@[simp] theorem State.wr_cal : (s.wr f v).cal = s.cal := rfl
@[simp] theorem State.wr_age : (s.wr f v).age = s.age := rfl
@[simp] theorem State.wr_chan : (s.wr f v).chan = s.chan := rfl
@[simp] theorem State.wr_ldp : (s.wr f v).ldp = s.ldp := rfl
@[simp] theorem State.wr_oce : (s.wr f v).oce = s.oce := rfl
@[simp] theorem State.wr_cry : (s.wr f v).cry = s.cry := rfl
@[simp] theorem State.wr_bcm : (s.wr f v).bcm = s.bcm := rfl
@[simp] theorem State.wr_memc : (s.wr f v).memc = s.memc := rfl
@[simp] theorem State.wr_hst : (s.wr f v).hst = s.hst := rfl
@[simp] theorem State.wr_jnl : (s.wr f v).jnl = s.jnl := rfl
@[simp] theorem State.wr_change : (s.wr f v).change = s.change := rfl
@[simp] theorem State.wr_gated : (s.wr f v).gated = s.gated := rfl
@[simp] theorem State.wr_shadow : (s.wr f v).shadow = s.shadow := rfl
@[simp] theorem State.wr_pwr : (s.wr f v).pwr = s.pwr := rfl
@[simp] theorem State.wr_thm : (s.wr f v).thm = s.thm := rfl
@[simp] theorem State.wr_dom : (s.wr f v).dom = s.dom := rfl
@[simp] theorem State.wr_upd : (s.wr f v).upd = s.upd := rfl
@[simp] theorem State.wr_pending : (s.wr f v).pending = s.pending := rfl
end

section
variable (f : Fld)
@[simp] theorem State.set_mem : (s.set f).mem = s.mem := rfl
@[simp] theorem State.set_poison : (s.set f).poison = s.poison := rfl
@[simp] theorem State.set_loHalf : (s.set f).loHalf = s.loHalf := rfl
@[simp] theorem State.set_hiLatch : (s.set f).hiLatch = s.hiLatch := rfl
@[simp] theorem State.set_resp : (s.set f).resp = s.resp := rfl
@[simp] theorem State.set_free : (s.set f).free = s.free := rfl
@[simp] theorem State.set_boot : (s.set f).boot = s.boot := rfl
@[simp] theorem State.set_recorder : (s.set f).recorder = s.recorder := rfl
@[simp] theorem State.set_flt : (s.set f).flt = s.flt := rfl
@[simp] theorem State.set_rst : (s.set f).rst = s.rst := rfl
@[simp] theorem State.set_ang : (s.set f).ang = s.ang := rfl
@[simp] theorem State.set_sim : (s.set f).sim = s.sim := rfl
@[simp] theorem State.set_cs : (s.set f).cs = s.cs := rfl
@[simp] theorem State.set_rings : (s.set f).rings = s.rings := rfl
@[simp] theorem State.set_bwk : (s.set f).bwk = s.bwk := rfl
@[simp] theorem State.set_srv : (s.set f).srv = s.srv := rfl
@[simp] theorem State.set_ce : (s.set f).ce = s.ce := rfl
@[simp] theorem State.set_spn : (s.set f).spn = s.spn := rfl
@[simp] theorem State.set_ast : (s.set f).ast = s.ast := rfl
@[simp] theorem State.set_pre : (s.set f).pre = s.pre := rfl
@[simp] theorem State.set_cal : (s.set f).cal = s.cal := rfl
@[simp] theorem State.set_age : (s.set f).age = s.age := rfl
@[simp] theorem State.set_chan : (s.set f).chan = s.chan := rfl
@[simp] theorem State.set_ldp : (s.set f).ldp = s.ldp := rfl
@[simp] theorem State.set_oce : (s.set f).oce = s.oce := rfl
@[simp] theorem State.set_cry : (s.set f).cry = s.cry := rfl
@[simp] theorem State.set_bcm : (s.set f).bcm = s.bcm := rfl
@[simp] theorem State.set_memc : (s.set f).memc = s.memc := rfl
@[simp] theorem State.set_hst : (s.set f).hst = s.hst := rfl
@[simp] theorem State.set_jnl : (s.set f).jnl = s.jnl := rfl
@[simp] theorem State.set_change : (s.set f).change = s.change := rfl
@[simp] theorem State.set_gated : (s.set f).gated = s.gated := rfl
@[simp] theorem State.set_shadow : (s.set f).shadow = s.shadow := rfl
@[simp] theorem State.set_pwr : (s.set f).pwr = s.pwr := rfl
@[simp] theorem State.set_thm : (s.set f).thm = s.thm := rfl
@[simp] theorem State.set_dom : (s.set f).dom = s.dom := rfl
@[simp] theorem State.set_upd : (s.set f).upd = s.upd := rfl
@[simp] theorem State.set_pending : (s.set f).pending = s.pending := rfl
end

section
variable (f : Fld)
@[simp] theorem State.clr_mem : (s.clr f).mem = s.mem := rfl
@[simp] theorem State.clr_poison : (s.clr f).poison = s.poison := rfl
@[simp] theorem State.clr_loHalf : (s.clr f).loHalf = s.loHalf := rfl
@[simp] theorem State.clr_hiLatch : (s.clr f).hiLatch = s.hiLatch := rfl
@[simp] theorem State.clr_resp : (s.clr f).resp = s.resp := rfl
@[simp] theorem State.clr_free : (s.clr f).free = s.free := rfl
@[simp] theorem State.clr_boot : (s.clr f).boot = s.boot := rfl
@[simp] theorem State.clr_recorder : (s.clr f).recorder = s.recorder := rfl
@[simp] theorem State.clr_flt : (s.clr f).flt = s.flt := rfl
@[simp] theorem State.clr_rst : (s.clr f).rst = s.rst := rfl
@[simp] theorem State.clr_ang : (s.clr f).ang = s.ang := rfl
@[simp] theorem State.clr_sim : (s.clr f).sim = s.sim := rfl
@[simp] theorem State.clr_cs : (s.clr f).cs = s.cs := rfl
@[simp] theorem State.clr_rings : (s.clr f).rings = s.rings := rfl
@[simp] theorem State.clr_bwk : (s.clr f).bwk = s.bwk := rfl
@[simp] theorem State.clr_srv : (s.clr f).srv = s.srv := rfl
@[simp] theorem State.clr_ce : (s.clr f).ce = s.ce := rfl
@[simp] theorem State.clr_spn : (s.clr f).spn = s.spn := rfl
@[simp] theorem State.clr_ast : (s.clr f).ast = s.ast := rfl
@[simp] theorem State.clr_pre : (s.clr f).pre = s.pre := rfl
@[simp] theorem State.clr_cal : (s.clr f).cal = s.cal := rfl
@[simp] theorem State.clr_age : (s.clr f).age = s.age := rfl
@[simp] theorem State.clr_chan : (s.clr f).chan = s.chan := rfl
@[simp] theorem State.clr_ldp : (s.clr f).ldp = s.ldp := rfl
@[simp] theorem State.clr_oce : (s.clr f).oce = s.oce := rfl
@[simp] theorem State.clr_cry : (s.clr f).cry = s.cry := rfl
@[simp] theorem State.clr_bcm : (s.clr f).bcm = s.bcm := rfl
@[simp] theorem State.clr_memc : (s.clr f).memc = s.memc := rfl
@[simp] theorem State.clr_hst : (s.clr f).hst = s.hst := rfl
@[simp] theorem State.clr_jnl : (s.clr f).jnl = s.jnl := rfl
@[simp] theorem State.clr_change : (s.clr f).change = s.change := rfl
@[simp] theorem State.clr_gated : (s.clr f).gated = s.gated := rfl
@[simp] theorem State.clr_shadow : (s.clr f).shadow = s.shadow := rfl
@[simp] theorem State.clr_pwr : (s.clr f).pwr = s.pwr := rfl
@[simp] theorem State.clr_thm : (s.clr f).thm = s.thm := rfl
@[simp] theorem State.clr_dom : (s.clr f).dom = s.dom := rfl
@[simp] theorem State.clr_upd : (s.clr f).upd = s.upd := rfl
@[simp] theorem State.clr_pending : (s.clr f).pending = s.pending := rfl
end

section
variable (f : Fld) (v : Nat)
@[simp] theorem State.addSat_mem : (s.addSat f v).mem = s.mem := rfl
@[simp] theorem State.addSat_poison : (s.addSat f v).poison = s.poison := rfl
@[simp] theorem State.addSat_loHalf : (s.addSat f v).loHalf = s.loHalf := rfl
@[simp] theorem State.addSat_hiLatch : (s.addSat f v).hiLatch = s.hiLatch := rfl
@[simp] theorem State.addSat_resp : (s.addSat f v).resp = s.resp := rfl
@[simp] theorem State.addSat_free : (s.addSat f v).free = s.free := rfl
@[simp] theorem State.addSat_boot : (s.addSat f v).boot = s.boot := rfl
@[simp] theorem State.addSat_recorder : (s.addSat f v).recorder = s.recorder := rfl
@[simp] theorem State.addSat_flt : (s.addSat f v).flt = s.flt := rfl
@[simp] theorem State.addSat_rst : (s.addSat f v).rst = s.rst := rfl
@[simp] theorem State.addSat_ang : (s.addSat f v).ang = s.ang := rfl
@[simp] theorem State.addSat_sim : (s.addSat f v).sim = s.sim := rfl
@[simp] theorem State.addSat_cs : (s.addSat f v).cs = s.cs := rfl
@[simp] theorem State.addSat_rings : (s.addSat f v).rings = s.rings := rfl
@[simp] theorem State.addSat_bwk : (s.addSat f v).bwk = s.bwk := rfl
@[simp] theorem State.addSat_srv : (s.addSat f v).srv = s.srv := rfl
@[simp] theorem State.addSat_ce : (s.addSat f v).ce = s.ce := rfl
@[simp] theorem State.addSat_spn : (s.addSat f v).spn = s.spn := rfl
@[simp] theorem State.addSat_ast : (s.addSat f v).ast = s.ast := rfl
@[simp] theorem State.addSat_pre : (s.addSat f v).pre = s.pre := rfl
@[simp] theorem State.addSat_cal : (s.addSat f v).cal = s.cal := rfl
@[simp] theorem State.addSat_age : (s.addSat f v).age = s.age := rfl
@[simp] theorem State.addSat_chan : (s.addSat f v).chan = s.chan := rfl
@[simp] theorem State.addSat_ldp : (s.addSat f v).ldp = s.ldp := rfl
@[simp] theorem State.addSat_oce : (s.addSat f v).oce = s.oce := rfl
@[simp] theorem State.addSat_cry : (s.addSat f v).cry = s.cry := rfl
@[simp] theorem State.addSat_bcm : (s.addSat f v).bcm = s.bcm := rfl
@[simp] theorem State.addSat_memc : (s.addSat f v).memc = s.memc := rfl
@[simp] theorem State.addSat_hst : (s.addSat f v).hst = s.hst := rfl
@[simp] theorem State.addSat_jnl : (s.addSat f v).jnl = s.jnl := rfl
@[simp] theorem State.addSat_change : (s.addSat f v).change = s.change := rfl
@[simp] theorem State.addSat_gated : (s.addSat f v).gated = s.gated := rfl
@[simp] theorem State.addSat_shadow : (s.addSat f v).shadow = s.shadow := rfl
@[simp] theorem State.addSat_pwr : (s.addSat f v).pwr = s.pwr := rfl
@[simp] theorem State.addSat_thm : (s.addSat f v).thm = s.thm := rfl
@[simp] theorem State.addSat_dom : (s.addSat f v).dom = s.dom := rfl
@[simp] theorem State.addSat_upd : (s.addSat f v).upd = s.upd := rfl
@[simp] theorem State.addSat_pending : (s.addSat f v).pending = s.pending := rfl
end

section
variable (f : Fld)
@[simp] theorem State.bump_mem : (s.bump f).mem = s.mem := rfl
@[simp] theorem State.bump_poison : (s.bump f).poison = s.poison := rfl
@[simp] theorem State.bump_loHalf : (s.bump f).loHalf = s.loHalf := rfl
@[simp] theorem State.bump_hiLatch : (s.bump f).hiLatch = s.hiLatch := rfl
@[simp] theorem State.bump_resp : (s.bump f).resp = s.resp := rfl
@[simp] theorem State.bump_free : (s.bump f).free = s.free := rfl
@[simp] theorem State.bump_boot : (s.bump f).boot = s.boot := rfl
@[simp] theorem State.bump_recorder : (s.bump f).recorder = s.recorder := rfl
@[simp] theorem State.bump_flt : (s.bump f).flt = s.flt := rfl
@[simp] theorem State.bump_rst : (s.bump f).rst = s.rst := rfl
@[simp] theorem State.bump_ang : (s.bump f).ang = s.ang := rfl
@[simp] theorem State.bump_sim : (s.bump f).sim = s.sim := rfl
@[simp] theorem State.bump_cs : (s.bump f).cs = s.cs := rfl
@[simp] theorem State.bump_rings : (s.bump f).rings = s.rings := rfl
@[simp] theorem State.bump_bwk : (s.bump f).bwk = s.bwk := rfl
@[simp] theorem State.bump_srv : (s.bump f).srv = s.srv := rfl
@[simp] theorem State.bump_ce : (s.bump f).ce = s.ce := rfl
@[simp] theorem State.bump_spn : (s.bump f).spn = s.spn := rfl
@[simp] theorem State.bump_ast : (s.bump f).ast = s.ast := rfl
@[simp] theorem State.bump_pre : (s.bump f).pre = s.pre := rfl
@[simp] theorem State.bump_cal : (s.bump f).cal = s.cal := rfl
@[simp] theorem State.bump_age : (s.bump f).age = s.age := rfl
@[simp] theorem State.bump_chan : (s.bump f).chan = s.chan := rfl
@[simp] theorem State.bump_ldp : (s.bump f).ldp = s.ldp := rfl
@[simp] theorem State.bump_oce : (s.bump f).oce = s.oce := rfl
@[simp] theorem State.bump_cry : (s.bump f).cry = s.cry := rfl
@[simp] theorem State.bump_bcm : (s.bump f).bcm = s.bcm := rfl
@[simp] theorem State.bump_memc : (s.bump f).memc = s.memc := rfl
@[simp] theorem State.bump_hst : (s.bump f).hst = s.hst := rfl
@[simp] theorem State.bump_jnl : (s.bump f).jnl = s.jnl := rfl
@[simp] theorem State.bump_change : (s.bump f).change = s.change := rfl
@[simp] theorem State.bump_gated : (s.bump f).gated = s.gated := rfl
@[simp] theorem State.bump_shadow : (s.bump f).shadow = s.shadow := rfl
@[simp] theorem State.bump_pwr : (s.bump f).pwr = s.pwr := rfl
@[simp] theorem State.bump_thm : (s.bump f).thm = s.thm := rfl
@[simp] theorem State.bump_dom : (s.bump f).dom = s.dom := rfl
@[simp] theorem State.bump_upd : (s.bump f).upd = s.upd := rfl
@[simp] theorem State.bump_pending : (s.bump f).pending = s.pending := rfl
end

section
variable (f : Fld) (v : Nat)
@[simp] theorem State.addWrap_mem : (s.addWrap f v).mem = s.mem := rfl
@[simp] theorem State.addWrap_poison : (s.addWrap f v).poison = s.poison := rfl
@[simp] theorem State.addWrap_loHalf : (s.addWrap f v).loHalf = s.loHalf := rfl
@[simp] theorem State.addWrap_hiLatch : (s.addWrap f v).hiLatch = s.hiLatch := rfl
@[simp] theorem State.addWrap_resp : (s.addWrap f v).resp = s.resp := rfl
@[simp] theorem State.addWrap_free : (s.addWrap f v).free = s.free := rfl
@[simp] theorem State.addWrap_boot : (s.addWrap f v).boot = s.boot := rfl
@[simp] theorem State.addWrap_recorder : (s.addWrap f v).recorder = s.recorder := rfl
@[simp] theorem State.addWrap_flt : (s.addWrap f v).flt = s.flt := rfl
@[simp] theorem State.addWrap_rst : (s.addWrap f v).rst = s.rst := rfl
@[simp] theorem State.addWrap_ang : (s.addWrap f v).ang = s.ang := rfl
@[simp] theorem State.addWrap_sim : (s.addWrap f v).sim = s.sim := rfl
@[simp] theorem State.addWrap_cs : (s.addWrap f v).cs = s.cs := rfl
@[simp] theorem State.addWrap_rings : (s.addWrap f v).rings = s.rings := rfl
@[simp] theorem State.addWrap_bwk : (s.addWrap f v).bwk = s.bwk := rfl
@[simp] theorem State.addWrap_srv : (s.addWrap f v).srv = s.srv := rfl
@[simp] theorem State.addWrap_ce : (s.addWrap f v).ce = s.ce := rfl
@[simp] theorem State.addWrap_spn : (s.addWrap f v).spn = s.spn := rfl
@[simp] theorem State.addWrap_ast : (s.addWrap f v).ast = s.ast := rfl
@[simp] theorem State.addWrap_pre : (s.addWrap f v).pre = s.pre := rfl
@[simp] theorem State.addWrap_cal : (s.addWrap f v).cal = s.cal := rfl
@[simp] theorem State.addWrap_age : (s.addWrap f v).age = s.age := rfl
@[simp] theorem State.addWrap_chan : (s.addWrap f v).chan = s.chan := rfl
@[simp] theorem State.addWrap_ldp : (s.addWrap f v).ldp = s.ldp := rfl
@[simp] theorem State.addWrap_oce : (s.addWrap f v).oce = s.oce := rfl
@[simp] theorem State.addWrap_cry : (s.addWrap f v).cry = s.cry := rfl
@[simp] theorem State.addWrap_bcm : (s.addWrap f v).bcm = s.bcm := rfl
@[simp] theorem State.addWrap_memc : (s.addWrap f v).memc = s.memc := rfl
@[simp] theorem State.addWrap_hst : (s.addWrap f v).hst = s.hst := rfl
@[simp] theorem State.addWrap_jnl : (s.addWrap f v).jnl = s.jnl := rfl
@[simp] theorem State.addWrap_change : (s.addWrap f v).change = s.change := rfl
@[simp] theorem State.addWrap_gated : (s.addWrap f v).gated = s.gated := rfl
@[simp] theorem State.addWrap_shadow : (s.addWrap f v).shadow = s.shadow := rfl
@[simp] theorem State.addWrap_pwr : (s.addWrap f v).pwr = s.pwr := rfl
@[simp] theorem State.addWrap_thm : (s.addWrap f v).thm = s.thm := rfl
@[simp] theorem State.addWrap_dom : (s.addWrap f v).dom = s.dom := rfl
@[simp] theorem State.addWrap_upd : (s.addWrap f v).upd = s.upd := rfl
@[simp] theorem State.addWrap_pending : (s.addWrap f v).pending = s.pending := rfl
end

section
variable (f g : Fld) (v : Nat)
@[simp] theorem State.wrPair_mem : (s.wrPair f g v).mem = s.mem := rfl
@[simp] theorem State.wrPair_poison : (s.wrPair f g v).poison = s.poison := rfl
@[simp] theorem State.wrPair_loHalf : (s.wrPair f g v).loHalf = s.loHalf := rfl
@[simp] theorem State.wrPair_hiLatch : (s.wrPair f g v).hiLatch = s.hiLatch := rfl
@[simp] theorem State.wrPair_resp : (s.wrPair f g v).resp = s.resp := rfl
@[simp] theorem State.wrPair_free : (s.wrPair f g v).free = s.free := rfl
@[simp] theorem State.wrPair_boot : (s.wrPair f g v).boot = s.boot := rfl
@[simp] theorem State.wrPair_recorder : (s.wrPair f g v).recorder = s.recorder := rfl
@[simp] theorem State.wrPair_flt : (s.wrPair f g v).flt = s.flt := rfl
@[simp] theorem State.wrPair_rst : (s.wrPair f g v).rst = s.rst := rfl
@[simp] theorem State.wrPair_ang : (s.wrPair f g v).ang = s.ang := rfl
@[simp] theorem State.wrPair_sim : (s.wrPair f g v).sim = s.sim := rfl
@[simp] theorem State.wrPair_cs : (s.wrPair f g v).cs = s.cs := rfl
@[simp] theorem State.wrPair_rings : (s.wrPair f g v).rings = s.rings := rfl
@[simp] theorem State.wrPair_bwk : (s.wrPair f g v).bwk = s.bwk := rfl
@[simp] theorem State.wrPair_srv : (s.wrPair f g v).srv = s.srv := rfl
@[simp] theorem State.wrPair_ce : (s.wrPair f g v).ce = s.ce := rfl
@[simp] theorem State.wrPair_spn : (s.wrPair f g v).spn = s.spn := rfl
@[simp] theorem State.wrPair_ast : (s.wrPair f g v).ast = s.ast := rfl
@[simp] theorem State.wrPair_pre : (s.wrPair f g v).pre = s.pre := rfl
@[simp] theorem State.wrPair_cal : (s.wrPair f g v).cal = s.cal := rfl
@[simp] theorem State.wrPair_age : (s.wrPair f g v).age = s.age := rfl
@[simp] theorem State.wrPair_chan : (s.wrPair f g v).chan = s.chan := rfl
@[simp] theorem State.wrPair_ldp : (s.wrPair f g v).ldp = s.ldp := rfl
@[simp] theorem State.wrPair_oce : (s.wrPair f g v).oce = s.oce := rfl
@[simp] theorem State.wrPair_cry : (s.wrPair f g v).cry = s.cry := rfl
@[simp] theorem State.wrPair_bcm : (s.wrPair f g v).bcm = s.bcm := rfl
@[simp] theorem State.wrPair_memc : (s.wrPair f g v).memc = s.memc := rfl
@[simp] theorem State.wrPair_hst : (s.wrPair f g v).hst = s.hst := rfl
@[simp] theorem State.wrPair_jnl : (s.wrPair f g v).jnl = s.jnl := rfl
@[simp] theorem State.wrPair_change : (s.wrPair f g v).change = s.change := rfl
@[simp] theorem State.wrPair_gated : (s.wrPair f g v).gated = s.gated := rfl
@[simp] theorem State.wrPair_shadow : (s.wrPair f g v).shadow = s.shadow := rfl
@[simp] theorem State.wrPair_pwr : (s.wrPair f g v).pwr = s.pwr := rfl
@[simp] theorem State.wrPair_thm : (s.wrPair f g v).thm = s.thm := rfl
@[simp] theorem State.wrPair_dom : (s.wrPair f g v).dom = s.dom := rfl
@[simp] theorem State.wrPair_upd : (s.wrPair f g v).upd = s.upd := rfl
@[simp] theorem State.wrPair_pending : (s.wrPair f g v).pending = s.pending := rfl
end

/-! ## A free value taken, an answer given -/

@[simp] theorem State.takeFree_regs : s.takeFree.2.regs = s.regs := rfl
@[simp] theorem State.takeFree_mem : s.takeFree.2.mem = s.mem := rfl
@[simp] theorem State.takeFree_poison : s.takeFree.2.poison = s.poison := rfl
@[simp] theorem State.takeFree_loHalf : s.takeFree.2.loHalf = s.loHalf := rfl
@[simp] theorem State.takeFree_hiLatch : s.takeFree.2.hiLatch = s.hiLatch := rfl
@[simp] theorem State.takeFree_resp : s.takeFree.2.resp = s.resp := rfl
@[simp] theorem State.takeFree_free : s.takeFree.2.free = s.free + 1 := rfl
@[simp] theorem State.takeFree_boot : s.takeFree.2.boot = s.boot := rfl
@[simp] theorem State.takeFree_recorder : s.takeFree.2.recorder = s.recorder := rfl
@[simp] theorem State.takeFree_flt : s.takeFree.2.flt = s.flt := rfl
@[simp] theorem State.takeFree_rst : s.takeFree.2.rst = s.rst := rfl
@[simp] theorem State.takeFree_ang : s.takeFree.2.ang = s.ang := rfl
@[simp] theorem State.takeFree_sim : s.takeFree.2.sim = s.sim := rfl
@[simp] theorem State.takeFree_cs : s.takeFree.2.cs = s.cs := rfl
@[simp] theorem State.takeFree_rings : s.takeFree.2.rings = s.rings := rfl
@[simp] theorem State.takeFree_bwk : s.takeFree.2.bwk = s.bwk := rfl
@[simp] theorem State.takeFree_srv : s.takeFree.2.srv = s.srv := rfl
@[simp] theorem State.takeFree_ce : s.takeFree.2.ce = s.ce := rfl
@[simp] theorem State.takeFree_spn : s.takeFree.2.spn = s.spn := rfl
@[simp] theorem State.takeFree_ast : s.takeFree.2.ast = s.ast := rfl
@[simp] theorem State.takeFree_pre : s.takeFree.2.pre = s.pre := rfl
@[simp] theorem State.takeFree_cal : s.takeFree.2.cal = s.cal := rfl
@[simp] theorem State.takeFree_age : s.takeFree.2.age = s.age := rfl
@[simp] theorem State.takeFree_chan : s.takeFree.2.chan = s.chan := rfl
@[simp] theorem State.takeFree_ldp : s.takeFree.2.ldp = s.ldp := rfl
@[simp] theorem State.takeFree_oce : s.takeFree.2.oce = s.oce := rfl
@[simp] theorem State.takeFree_cry : s.takeFree.2.cry = s.cry := rfl
@[simp] theorem State.takeFree_bcm : s.takeFree.2.bcm = s.bcm := rfl
@[simp] theorem State.takeFree_memc : s.takeFree.2.memc = s.memc := rfl
@[simp] theorem State.takeFree_hst : s.takeFree.2.hst = s.hst := rfl
@[simp] theorem State.takeFree_jnl : s.takeFree.2.jnl = s.jnl := rfl
@[simp] theorem State.takeFree_change : s.takeFree.2.change = s.change := rfl
@[simp] theorem State.takeFree_gated : s.takeFree.2.gated = s.gated := rfl
@[simp] theorem State.takeFree_shadow : s.takeFree.2.shadow = s.shadow := rfl
@[simp] theorem State.takeFree_pwr : s.takeFree.2.pwr = s.pwr := rfl
@[simp] theorem State.takeFree_thm : s.takeFree.2.thm = s.thm := rfl
@[simp] theorem State.takeFree_dom : s.takeFree.2.dom = s.dom := rfl
@[simp] theorem State.takeFree_upd : s.takeFree.2.upd = s.upd := rfl
@[simp] theorem State.takeFree_pending : s.takeFree.2.pending = s.pending := rfl

@[simp] theorem State.answer_regs (v : Nat) : (s.answer v).regs = s.regs := rfl
@[simp] theorem State.answer_mem (v : Nat) : (s.answer v).mem = s.mem := rfl
@[simp] theorem State.answer_poison (v : Nat) : (s.answer v).poison = s.poison := rfl
@[simp] theorem State.answer_loHalf (v : Nat) : (s.answer v).loHalf = s.loHalf := rfl
@[simp] theorem State.answer_hiLatch (v : Nat) : (s.answer v).hiLatch = s.hiLatch := rfl
@[simp] theorem State.answer_resp (v : Nat) : (s.answer v).resp = .done v := rfl
@[simp] theorem State.answer_free (v : Nat) : (s.answer v).free = s.free := rfl
@[simp] theorem State.answer_boot (v : Nat) : (s.answer v).boot = s.boot := rfl
@[simp] theorem State.answer_recorder (v : Nat) : (s.answer v).recorder = s.recorder := rfl
@[simp] theorem State.answer_flt (v : Nat) : (s.answer v).flt = s.flt := rfl
@[simp] theorem State.answer_rst (v : Nat) : (s.answer v).rst = s.rst := rfl
@[simp] theorem State.answer_ang (v : Nat) : (s.answer v).ang = s.ang := rfl
@[simp] theorem State.answer_sim (v : Nat) : (s.answer v).sim = s.sim := rfl
@[simp] theorem State.answer_cs (v : Nat) : (s.answer v).cs = s.cs := rfl
@[simp] theorem State.answer_rings (v : Nat) : (s.answer v).rings = s.rings := rfl
@[simp] theorem State.answer_bwk (v : Nat) : (s.answer v).bwk = s.bwk := rfl
@[simp] theorem State.answer_srv (v : Nat) : (s.answer v).srv = s.srv := rfl
@[simp] theorem State.answer_ce (v : Nat) : (s.answer v).ce = s.ce := rfl
@[simp] theorem State.answer_spn (v : Nat) : (s.answer v).spn = s.spn := rfl
@[simp] theorem State.answer_ast (v : Nat) : (s.answer v).ast = s.ast := rfl
@[simp] theorem State.answer_pre (v : Nat) : (s.answer v).pre = s.pre := rfl
@[simp] theorem State.answer_cal (v : Nat) : (s.answer v).cal = s.cal := rfl
@[simp] theorem State.answer_age (v : Nat) : (s.answer v).age = s.age := rfl
@[simp] theorem State.answer_chan (v : Nat) : (s.answer v).chan = s.chan := rfl
@[simp] theorem State.answer_ldp (v : Nat) : (s.answer v).ldp = s.ldp := rfl
@[simp] theorem State.answer_oce (v : Nat) : (s.answer v).oce = s.oce := rfl
@[simp] theorem State.answer_cry (v : Nat) : (s.answer v).cry = s.cry := rfl
@[simp] theorem State.answer_bcm (v : Nat) : (s.answer v).bcm = s.bcm := rfl
@[simp] theorem State.answer_memc (v : Nat) : (s.answer v).memc = s.memc := rfl
@[simp] theorem State.answer_hst (v : Nat) : (s.answer v).hst = s.hst := rfl
@[simp] theorem State.answer_jnl (v : Nat) : (s.answer v).jnl = s.jnl := rfl
@[simp] theorem State.answer_change (v : Nat) : (s.answer v).change = s.change := rfl
@[simp] theorem State.answer_gated (v : Nat) : (s.answer v).gated = s.gated := rfl
@[simp] theorem State.answer_shadow (v : Nat) : (s.answer v).shadow = s.shadow := rfl
@[simp] theorem State.answer_pwr (v : Nat) : (s.answer v).pwr = s.pwr := rfl
@[simp] theorem State.answer_thm (v : Nat) : (s.answer v).thm = s.thm := rfl
@[simp] theorem State.answer_dom (v : Nat) : (s.answer v).dom = s.dom := rfl
@[simp] theorem State.answer_upd (v : Nat) : (s.answer v).upd = s.upd := rfl
@[simp] theorem State.answer_pending (v : Nat) : (s.answer v).pending = s.pending := rfl

/-! ## One part replaced -/

section
variable (v : Store Word)
@[simp] theorem State.setRegs_regs : (s.setRegs v).regs = v := rfl
@[simp] theorem State.setRegs_mem : (s.setRegs v).mem = s.mem := rfl
@[simp] theorem State.setRegs_poison : (s.setRegs v).poison = s.poison := rfl
@[simp] theorem State.setRegs_loHalf : (s.setRegs v).loHalf = s.loHalf := rfl
@[simp] theorem State.setRegs_hiLatch : (s.setRegs v).hiLatch = s.hiLatch := rfl
@[simp] theorem State.setRegs_resp : (s.setRegs v).resp = s.resp := rfl
@[simp] theorem State.setRegs_free : (s.setRegs v).free = s.free := rfl
@[simp] theorem State.setRegs_boot : (s.setRegs v).boot = s.boot := rfl
@[simp] theorem State.setRegs_recorder : (s.setRegs v).recorder = s.recorder := rfl
@[simp] theorem State.setRegs_flt : (s.setRegs v).flt = s.flt := rfl
@[simp] theorem State.setRegs_rst : (s.setRegs v).rst = s.rst := rfl
@[simp] theorem State.setRegs_ang : (s.setRegs v).ang = s.ang := rfl
@[simp] theorem State.setRegs_sim : (s.setRegs v).sim = s.sim := rfl
@[simp] theorem State.setRegs_cs : (s.setRegs v).cs = s.cs := rfl
@[simp] theorem State.setRegs_rings : (s.setRegs v).rings = s.rings := rfl
@[simp] theorem State.setRegs_bwk : (s.setRegs v).bwk = s.bwk := rfl
@[simp] theorem State.setRegs_srv : (s.setRegs v).srv = s.srv := rfl
@[simp] theorem State.setRegs_ce : (s.setRegs v).ce = s.ce := rfl
@[simp] theorem State.setRegs_spn : (s.setRegs v).spn = s.spn := rfl
@[simp] theorem State.setRegs_ast : (s.setRegs v).ast = s.ast := rfl
@[simp] theorem State.setRegs_pre : (s.setRegs v).pre = s.pre := rfl
@[simp] theorem State.setRegs_cal : (s.setRegs v).cal = s.cal := rfl
@[simp] theorem State.setRegs_age : (s.setRegs v).age = s.age := rfl
@[simp] theorem State.setRegs_chan : (s.setRegs v).chan = s.chan := rfl
@[simp] theorem State.setRegs_ldp : (s.setRegs v).ldp = s.ldp := rfl
@[simp] theorem State.setRegs_oce : (s.setRegs v).oce = s.oce := rfl
@[simp] theorem State.setRegs_cry : (s.setRegs v).cry = s.cry := rfl
@[simp] theorem State.setRegs_bcm : (s.setRegs v).bcm = s.bcm := rfl
@[simp] theorem State.setRegs_memc : (s.setRegs v).memc = s.memc := rfl
@[simp] theorem State.setRegs_hst : (s.setRegs v).hst = s.hst := rfl
@[simp] theorem State.setRegs_jnl : (s.setRegs v).jnl = s.jnl := rfl
@[simp] theorem State.setRegs_change : (s.setRegs v).change = s.change := rfl
@[simp] theorem State.setRegs_gated : (s.setRegs v).gated = s.gated := rfl
@[simp] theorem State.setRegs_shadow : (s.setRegs v).shadow = s.shadow := rfl
@[simp] theorem State.setRegs_pwr : (s.setRegs v).pwr = s.pwr := rfl
@[simp] theorem State.setRegs_thm : (s.setRegs v).thm = s.thm := rfl
@[simp] theorem State.setRegs_dom : (s.setRegs v).dom = s.dom := rfl
@[simp] theorem State.setRegs_upd : (s.setRegs v).upd = s.upd := rfl
@[simp] theorem State.setRegs_pending : (s.setRegs v).pending = s.pending := rfl
end

section
variable (v : List Nat)
@[simp] theorem State.setPoison_regs : (s.setPoison v).regs = s.regs := rfl
@[simp] theorem State.setPoison_mem : (s.setPoison v).mem = s.mem := rfl
@[simp] theorem State.setPoison_poison : (s.setPoison v).poison = v := rfl
@[simp] theorem State.setPoison_loHalf : (s.setPoison v).loHalf = s.loHalf := rfl
@[simp] theorem State.setPoison_hiLatch : (s.setPoison v).hiLatch = s.hiLatch := rfl
@[simp] theorem State.setPoison_resp : (s.setPoison v).resp = s.resp := rfl
@[simp] theorem State.setPoison_free : (s.setPoison v).free = s.free := rfl
@[simp] theorem State.setPoison_boot : (s.setPoison v).boot = s.boot := rfl
@[simp] theorem State.setPoison_recorder : (s.setPoison v).recorder = s.recorder := rfl
@[simp] theorem State.setPoison_flt : (s.setPoison v).flt = s.flt := rfl
@[simp] theorem State.setPoison_rst : (s.setPoison v).rst = s.rst := rfl
@[simp] theorem State.setPoison_ang : (s.setPoison v).ang = s.ang := rfl
@[simp] theorem State.setPoison_sim : (s.setPoison v).sim = s.sim := rfl
@[simp] theorem State.setPoison_cs : (s.setPoison v).cs = s.cs := rfl
@[simp] theorem State.setPoison_rings : (s.setPoison v).rings = s.rings := rfl
@[simp] theorem State.setPoison_bwk : (s.setPoison v).bwk = s.bwk := rfl
@[simp] theorem State.setPoison_srv : (s.setPoison v).srv = s.srv := rfl
@[simp] theorem State.setPoison_ce : (s.setPoison v).ce = s.ce := rfl
@[simp] theorem State.setPoison_spn : (s.setPoison v).spn = s.spn := rfl
@[simp] theorem State.setPoison_ast : (s.setPoison v).ast = s.ast := rfl
@[simp] theorem State.setPoison_pre : (s.setPoison v).pre = s.pre := rfl
@[simp] theorem State.setPoison_cal : (s.setPoison v).cal = s.cal := rfl
@[simp] theorem State.setPoison_age : (s.setPoison v).age = s.age := rfl
@[simp] theorem State.setPoison_chan : (s.setPoison v).chan = s.chan := rfl
@[simp] theorem State.setPoison_ldp : (s.setPoison v).ldp = s.ldp := rfl
@[simp] theorem State.setPoison_oce : (s.setPoison v).oce = s.oce := rfl
@[simp] theorem State.setPoison_cry : (s.setPoison v).cry = s.cry := rfl
@[simp] theorem State.setPoison_bcm : (s.setPoison v).bcm = s.bcm := rfl
@[simp] theorem State.setPoison_memc : (s.setPoison v).memc = s.memc := rfl
@[simp] theorem State.setPoison_hst : (s.setPoison v).hst = s.hst := rfl
@[simp] theorem State.setPoison_jnl : (s.setPoison v).jnl = s.jnl := rfl
@[simp] theorem State.setPoison_change : (s.setPoison v).change = s.change := rfl
@[simp] theorem State.setPoison_gated : (s.setPoison v).gated = s.gated := rfl
@[simp] theorem State.setPoison_shadow : (s.setPoison v).shadow = s.shadow := rfl
@[simp] theorem State.setPoison_pwr : (s.setPoison v).pwr = s.pwr := rfl
@[simp] theorem State.setPoison_thm : (s.setPoison v).thm = s.thm := rfl
@[simp] theorem State.setPoison_dom : (s.setPoison v).dom = s.dom := rfl
@[simp] theorem State.setPoison_upd : (s.setPoison v).upd = s.upd := rfl
@[simp] theorem State.setPoison_pending : (s.setPoison v).pending = s.pending := rfl
@[simp] theorem State.setPoison_rd (f : Fld) : (s.setPoison v).rd f = s.rd f := rfl
@[simp] theorem State.setPoison_flag (f : Fld) : (s.setPoison v).flag f = s.flag f := rfl
@[simp] theorem State.setPoison_rdWord (a : Nat) : (s.setPoison v).rdWord a = s.rdWord a := rfl
end

section
variable (v : Store (Option Word))
@[simp] theorem State.setLoHalf_regs : (s.setLoHalf v).regs = s.regs := rfl
@[simp] theorem State.setLoHalf_mem : (s.setLoHalf v).mem = s.mem := rfl
@[simp] theorem State.setLoHalf_poison : (s.setLoHalf v).poison = s.poison := rfl
@[simp] theorem State.setLoHalf_loHalf : (s.setLoHalf v).loHalf = v := rfl
@[simp] theorem State.setLoHalf_hiLatch : (s.setLoHalf v).hiLatch = s.hiLatch := rfl
@[simp] theorem State.setLoHalf_resp : (s.setLoHalf v).resp = s.resp := rfl
@[simp] theorem State.setLoHalf_free : (s.setLoHalf v).free = s.free := rfl
@[simp] theorem State.setLoHalf_boot : (s.setLoHalf v).boot = s.boot := rfl
@[simp] theorem State.setLoHalf_recorder : (s.setLoHalf v).recorder = s.recorder := rfl
@[simp] theorem State.setLoHalf_flt : (s.setLoHalf v).flt = s.flt := rfl
@[simp] theorem State.setLoHalf_rst : (s.setLoHalf v).rst = s.rst := rfl
@[simp] theorem State.setLoHalf_ang : (s.setLoHalf v).ang = s.ang := rfl
@[simp] theorem State.setLoHalf_sim : (s.setLoHalf v).sim = s.sim := rfl
@[simp] theorem State.setLoHalf_cs : (s.setLoHalf v).cs = s.cs := rfl
@[simp] theorem State.setLoHalf_rings : (s.setLoHalf v).rings = s.rings := rfl
@[simp] theorem State.setLoHalf_bwk : (s.setLoHalf v).bwk = s.bwk := rfl
@[simp] theorem State.setLoHalf_srv : (s.setLoHalf v).srv = s.srv := rfl
@[simp] theorem State.setLoHalf_ce : (s.setLoHalf v).ce = s.ce := rfl
@[simp] theorem State.setLoHalf_spn : (s.setLoHalf v).spn = s.spn := rfl
@[simp] theorem State.setLoHalf_ast : (s.setLoHalf v).ast = s.ast := rfl
@[simp] theorem State.setLoHalf_pre : (s.setLoHalf v).pre = s.pre := rfl
@[simp] theorem State.setLoHalf_cal : (s.setLoHalf v).cal = s.cal := rfl
@[simp] theorem State.setLoHalf_age : (s.setLoHalf v).age = s.age := rfl
@[simp] theorem State.setLoHalf_chan : (s.setLoHalf v).chan = s.chan := rfl
@[simp] theorem State.setLoHalf_ldp : (s.setLoHalf v).ldp = s.ldp := rfl
@[simp] theorem State.setLoHalf_oce : (s.setLoHalf v).oce = s.oce := rfl
@[simp] theorem State.setLoHalf_cry : (s.setLoHalf v).cry = s.cry := rfl
@[simp] theorem State.setLoHalf_bcm : (s.setLoHalf v).bcm = s.bcm := rfl
@[simp] theorem State.setLoHalf_memc : (s.setLoHalf v).memc = s.memc := rfl
@[simp] theorem State.setLoHalf_hst : (s.setLoHalf v).hst = s.hst := rfl
@[simp] theorem State.setLoHalf_jnl : (s.setLoHalf v).jnl = s.jnl := rfl
@[simp] theorem State.setLoHalf_change : (s.setLoHalf v).change = s.change := rfl
@[simp] theorem State.setLoHalf_gated : (s.setLoHalf v).gated = s.gated := rfl
@[simp] theorem State.setLoHalf_shadow : (s.setLoHalf v).shadow = s.shadow := rfl
@[simp] theorem State.setLoHalf_pwr : (s.setLoHalf v).pwr = s.pwr := rfl
@[simp] theorem State.setLoHalf_thm : (s.setLoHalf v).thm = s.thm := rfl
@[simp] theorem State.setLoHalf_dom : (s.setLoHalf v).dom = s.dom := rfl
@[simp] theorem State.setLoHalf_upd : (s.setLoHalf v).upd = s.upd := rfl
@[simp] theorem State.setLoHalf_pending : (s.setLoHalf v).pending = s.pending := rfl
@[simp] theorem State.setLoHalf_rd (f : Fld) : (s.setLoHalf v).rd f = s.rd f := rfl
@[simp] theorem State.setLoHalf_flag (f : Fld) : (s.setLoHalf v).flag f = s.flag f := rfl
@[simp] theorem State.setLoHalf_rdWord (a : Nat) : (s.setLoHalf v).rdWord a = s.rdWord a := rfl
end

section
variable (v : Store (Option Word))
@[simp] theorem State.setHiLatch_regs : (s.setHiLatch v).regs = s.regs := rfl
@[simp] theorem State.setHiLatch_mem : (s.setHiLatch v).mem = s.mem := rfl
@[simp] theorem State.setHiLatch_poison : (s.setHiLatch v).poison = s.poison := rfl
@[simp] theorem State.setHiLatch_loHalf : (s.setHiLatch v).loHalf = s.loHalf := rfl
@[simp] theorem State.setHiLatch_hiLatch : (s.setHiLatch v).hiLatch = v := rfl
@[simp] theorem State.setHiLatch_resp : (s.setHiLatch v).resp = s.resp := rfl
@[simp] theorem State.setHiLatch_free : (s.setHiLatch v).free = s.free := rfl
@[simp] theorem State.setHiLatch_boot : (s.setHiLatch v).boot = s.boot := rfl
@[simp] theorem State.setHiLatch_recorder : (s.setHiLatch v).recorder = s.recorder := rfl
@[simp] theorem State.setHiLatch_flt : (s.setHiLatch v).flt = s.flt := rfl
@[simp] theorem State.setHiLatch_rst : (s.setHiLatch v).rst = s.rst := rfl
@[simp] theorem State.setHiLatch_ang : (s.setHiLatch v).ang = s.ang := rfl
@[simp] theorem State.setHiLatch_sim : (s.setHiLatch v).sim = s.sim := rfl
@[simp] theorem State.setHiLatch_cs : (s.setHiLatch v).cs = s.cs := rfl
@[simp] theorem State.setHiLatch_rings : (s.setHiLatch v).rings = s.rings := rfl
@[simp] theorem State.setHiLatch_bwk : (s.setHiLatch v).bwk = s.bwk := rfl
@[simp] theorem State.setHiLatch_srv : (s.setHiLatch v).srv = s.srv := rfl
@[simp] theorem State.setHiLatch_ce : (s.setHiLatch v).ce = s.ce := rfl
@[simp] theorem State.setHiLatch_spn : (s.setHiLatch v).spn = s.spn := rfl
@[simp] theorem State.setHiLatch_ast : (s.setHiLatch v).ast = s.ast := rfl
@[simp] theorem State.setHiLatch_pre : (s.setHiLatch v).pre = s.pre := rfl
@[simp] theorem State.setHiLatch_cal : (s.setHiLatch v).cal = s.cal := rfl
@[simp] theorem State.setHiLatch_age : (s.setHiLatch v).age = s.age := rfl
@[simp] theorem State.setHiLatch_chan : (s.setHiLatch v).chan = s.chan := rfl
@[simp] theorem State.setHiLatch_ldp : (s.setHiLatch v).ldp = s.ldp := rfl
@[simp] theorem State.setHiLatch_oce : (s.setHiLatch v).oce = s.oce := rfl
@[simp] theorem State.setHiLatch_cry : (s.setHiLatch v).cry = s.cry := rfl
@[simp] theorem State.setHiLatch_bcm : (s.setHiLatch v).bcm = s.bcm := rfl
@[simp] theorem State.setHiLatch_memc : (s.setHiLatch v).memc = s.memc := rfl
@[simp] theorem State.setHiLatch_hst : (s.setHiLatch v).hst = s.hst := rfl
@[simp] theorem State.setHiLatch_jnl : (s.setHiLatch v).jnl = s.jnl := rfl
@[simp] theorem State.setHiLatch_change : (s.setHiLatch v).change = s.change := rfl
@[simp] theorem State.setHiLatch_gated : (s.setHiLatch v).gated = s.gated := rfl
@[simp] theorem State.setHiLatch_shadow : (s.setHiLatch v).shadow = s.shadow := rfl
@[simp] theorem State.setHiLatch_pwr : (s.setHiLatch v).pwr = s.pwr := rfl
@[simp] theorem State.setHiLatch_thm : (s.setHiLatch v).thm = s.thm := rfl
@[simp] theorem State.setHiLatch_dom : (s.setHiLatch v).dom = s.dom := rfl
@[simp] theorem State.setHiLatch_upd : (s.setHiLatch v).upd = s.upd := rfl
@[simp] theorem State.setHiLatch_pending : (s.setHiLatch v).pending = s.pending := rfl
@[simp] theorem State.setHiLatch_rd (f : Fld) : (s.setHiLatch v).rd f = s.rd f := rfl
@[simp] theorem State.setHiLatch_flag (f : Fld) : (s.setHiLatch v).flag f = s.flag f := rfl
@[simp] theorem State.setHiLatch_rdWord (a : Nat) : (s.setHiLatch v).rdWord a = s.rdWord a := rfl
end

section
variable (v : BusResp)
@[simp] theorem State.setResp_regs : (s.setResp v).regs = s.regs := rfl
@[simp] theorem State.setResp_mem : (s.setResp v).mem = s.mem := rfl
@[simp] theorem State.setResp_poison : (s.setResp v).poison = s.poison := rfl
@[simp] theorem State.setResp_loHalf : (s.setResp v).loHalf = s.loHalf := rfl
@[simp] theorem State.setResp_hiLatch : (s.setResp v).hiLatch = s.hiLatch := rfl
@[simp] theorem State.setResp_resp : (s.setResp v).resp = v := rfl
@[simp] theorem State.setResp_free : (s.setResp v).free = s.free := rfl
@[simp] theorem State.setResp_boot : (s.setResp v).boot = s.boot := rfl
@[simp] theorem State.setResp_recorder : (s.setResp v).recorder = s.recorder := rfl
@[simp] theorem State.setResp_flt : (s.setResp v).flt = s.flt := rfl
@[simp] theorem State.setResp_rst : (s.setResp v).rst = s.rst := rfl
@[simp] theorem State.setResp_ang : (s.setResp v).ang = s.ang := rfl
@[simp] theorem State.setResp_sim : (s.setResp v).sim = s.sim := rfl
@[simp] theorem State.setResp_cs : (s.setResp v).cs = s.cs := rfl
@[simp] theorem State.setResp_rings : (s.setResp v).rings = s.rings := rfl
@[simp] theorem State.setResp_bwk : (s.setResp v).bwk = s.bwk := rfl
@[simp] theorem State.setResp_srv : (s.setResp v).srv = s.srv := rfl
@[simp] theorem State.setResp_ce : (s.setResp v).ce = s.ce := rfl
@[simp] theorem State.setResp_spn : (s.setResp v).spn = s.spn := rfl
@[simp] theorem State.setResp_ast : (s.setResp v).ast = s.ast := rfl
@[simp] theorem State.setResp_pre : (s.setResp v).pre = s.pre := rfl
@[simp] theorem State.setResp_cal : (s.setResp v).cal = s.cal := rfl
@[simp] theorem State.setResp_age : (s.setResp v).age = s.age := rfl
@[simp] theorem State.setResp_chan : (s.setResp v).chan = s.chan := rfl
@[simp] theorem State.setResp_ldp : (s.setResp v).ldp = s.ldp := rfl
@[simp] theorem State.setResp_oce : (s.setResp v).oce = s.oce := rfl
@[simp] theorem State.setResp_cry : (s.setResp v).cry = s.cry := rfl
@[simp] theorem State.setResp_bcm : (s.setResp v).bcm = s.bcm := rfl
@[simp] theorem State.setResp_memc : (s.setResp v).memc = s.memc := rfl
@[simp] theorem State.setResp_hst : (s.setResp v).hst = s.hst := rfl
@[simp] theorem State.setResp_jnl : (s.setResp v).jnl = s.jnl := rfl
@[simp] theorem State.setResp_change : (s.setResp v).change = s.change := rfl
@[simp] theorem State.setResp_gated : (s.setResp v).gated = s.gated := rfl
@[simp] theorem State.setResp_shadow : (s.setResp v).shadow = s.shadow := rfl
@[simp] theorem State.setResp_pwr : (s.setResp v).pwr = s.pwr := rfl
@[simp] theorem State.setResp_thm : (s.setResp v).thm = s.thm := rfl
@[simp] theorem State.setResp_dom : (s.setResp v).dom = s.dom := rfl
@[simp] theorem State.setResp_upd : (s.setResp v).upd = s.upd := rfl
@[simp] theorem State.setResp_pending : (s.setResp v).pending = s.pending := rfl
@[simp] theorem State.setResp_rd (f : Fld) : (s.setResp v).rd f = s.rd f := rfl
@[simp] theorem State.setResp_flag (f : Fld) : (s.setResp v).flag f = s.flag f := rfl
@[simp] theorem State.setResp_rdWord (a : Nat) : (s.setResp v).rdWord a = s.rdWord a := rfl
end

section
variable (v : BootPhase)
@[simp] theorem State.setBoot_regs : (s.setBoot v).regs = s.regs := rfl
@[simp] theorem State.setBoot_mem : (s.setBoot v).mem = s.mem := rfl
@[simp] theorem State.setBoot_poison : (s.setBoot v).poison = s.poison := rfl
@[simp] theorem State.setBoot_loHalf : (s.setBoot v).loHalf = s.loHalf := rfl
@[simp] theorem State.setBoot_hiLatch : (s.setBoot v).hiLatch = s.hiLatch := rfl
@[simp] theorem State.setBoot_resp : (s.setBoot v).resp = s.resp := rfl
@[simp] theorem State.setBoot_free : (s.setBoot v).free = s.free := rfl
@[simp] theorem State.setBoot_boot : (s.setBoot v).boot = v := rfl
@[simp] theorem State.setBoot_recorder : (s.setBoot v).recorder = s.recorder := rfl
@[simp] theorem State.setBoot_flt : (s.setBoot v).flt = s.flt := rfl
@[simp] theorem State.setBoot_rst : (s.setBoot v).rst = s.rst := rfl
@[simp] theorem State.setBoot_ang : (s.setBoot v).ang = s.ang := rfl
@[simp] theorem State.setBoot_sim : (s.setBoot v).sim = s.sim := rfl
@[simp] theorem State.setBoot_cs : (s.setBoot v).cs = s.cs := rfl
@[simp] theorem State.setBoot_rings : (s.setBoot v).rings = s.rings := rfl
@[simp] theorem State.setBoot_bwk : (s.setBoot v).bwk = s.bwk := rfl
@[simp] theorem State.setBoot_srv : (s.setBoot v).srv = s.srv := rfl
@[simp] theorem State.setBoot_ce : (s.setBoot v).ce = s.ce := rfl
@[simp] theorem State.setBoot_spn : (s.setBoot v).spn = s.spn := rfl
@[simp] theorem State.setBoot_ast : (s.setBoot v).ast = s.ast := rfl
@[simp] theorem State.setBoot_pre : (s.setBoot v).pre = s.pre := rfl
@[simp] theorem State.setBoot_cal : (s.setBoot v).cal = s.cal := rfl
@[simp] theorem State.setBoot_age : (s.setBoot v).age = s.age := rfl
@[simp] theorem State.setBoot_chan : (s.setBoot v).chan = s.chan := rfl
@[simp] theorem State.setBoot_ldp : (s.setBoot v).ldp = s.ldp := rfl
@[simp] theorem State.setBoot_oce : (s.setBoot v).oce = s.oce := rfl
@[simp] theorem State.setBoot_cry : (s.setBoot v).cry = s.cry := rfl
@[simp] theorem State.setBoot_bcm : (s.setBoot v).bcm = s.bcm := rfl
@[simp] theorem State.setBoot_memc : (s.setBoot v).memc = s.memc := rfl
@[simp] theorem State.setBoot_hst : (s.setBoot v).hst = s.hst := rfl
@[simp] theorem State.setBoot_jnl : (s.setBoot v).jnl = s.jnl := rfl
@[simp] theorem State.setBoot_change : (s.setBoot v).change = s.change := rfl
@[simp] theorem State.setBoot_gated : (s.setBoot v).gated = s.gated := rfl
@[simp] theorem State.setBoot_shadow : (s.setBoot v).shadow = s.shadow := rfl
@[simp] theorem State.setBoot_pwr : (s.setBoot v).pwr = s.pwr := rfl
@[simp] theorem State.setBoot_thm : (s.setBoot v).thm = s.thm := rfl
@[simp] theorem State.setBoot_dom : (s.setBoot v).dom = s.dom := rfl
@[simp] theorem State.setBoot_upd : (s.setBoot v).upd = s.upd := rfl
@[simp] theorem State.setBoot_pending : (s.setBoot v).pending = s.pending := rfl
@[simp] theorem State.setBoot_rd (f : Fld) : (s.setBoot v).rd f = s.rd f := rfl
@[simp] theorem State.setBoot_flag (f : Fld) : (s.setBoot v).flag f = s.flag f := rfl
@[simp] theorem State.setBoot_rdWord (a : Nat) : (s.setBoot v).rdWord a = s.rdWord a := rfl
end

section
variable (v : Recorder)
@[simp] theorem State.setRecorder_regs : (s.setRecorder v).regs = s.regs := rfl
@[simp] theorem State.setRecorder_mem : (s.setRecorder v).mem = s.mem := rfl
@[simp] theorem State.setRecorder_poison : (s.setRecorder v).poison = s.poison := rfl
@[simp] theorem State.setRecorder_loHalf : (s.setRecorder v).loHalf = s.loHalf := rfl
@[simp] theorem State.setRecorder_hiLatch : (s.setRecorder v).hiLatch = s.hiLatch := rfl
@[simp] theorem State.setRecorder_resp : (s.setRecorder v).resp = s.resp := rfl
@[simp] theorem State.setRecorder_free : (s.setRecorder v).free = s.free := rfl
@[simp] theorem State.setRecorder_boot : (s.setRecorder v).boot = s.boot := rfl
@[simp] theorem State.setRecorder_recorder : (s.setRecorder v).recorder = v := rfl
@[simp] theorem State.setRecorder_flt : (s.setRecorder v).flt = s.flt := rfl
@[simp] theorem State.setRecorder_rst : (s.setRecorder v).rst = s.rst := rfl
@[simp] theorem State.setRecorder_ang : (s.setRecorder v).ang = s.ang := rfl
@[simp] theorem State.setRecorder_sim : (s.setRecorder v).sim = s.sim := rfl
@[simp] theorem State.setRecorder_cs : (s.setRecorder v).cs = s.cs := rfl
@[simp] theorem State.setRecorder_rings : (s.setRecorder v).rings = s.rings := rfl
@[simp] theorem State.setRecorder_bwk : (s.setRecorder v).bwk = s.bwk := rfl
@[simp] theorem State.setRecorder_srv : (s.setRecorder v).srv = s.srv := rfl
@[simp] theorem State.setRecorder_ce : (s.setRecorder v).ce = s.ce := rfl
@[simp] theorem State.setRecorder_spn : (s.setRecorder v).spn = s.spn := rfl
@[simp] theorem State.setRecorder_ast : (s.setRecorder v).ast = s.ast := rfl
@[simp] theorem State.setRecorder_pre : (s.setRecorder v).pre = s.pre := rfl
@[simp] theorem State.setRecorder_cal : (s.setRecorder v).cal = s.cal := rfl
@[simp] theorem State.setRecorder_age : (s.setRecorder v).age = s.age := rfl
@[simp] theorem State.setRecorder_chan : (s.setRecorder v).chan = s.chan := rfl
@[simp] theorem State.setRecorder_ldp : (s.setRecorder v).ldp = s.ldp := rfl
@[simp] theorem State.setRecorder_oce : (s.setRecorder v).oce = s.oce := rfl
@[simp] theorem State.setRecorder_cry : (s.setRecorder v).cry = s.cry := rfl
@[simp] theorem State.setRecorder_bcm : (s.setRecorder v).bcm = s.bcm := rfl
@[simp] theorem State.setRecorder_memc : (s.setRecorder v).memc = s.memc := rfl
@[simp] theorem State.setRecorder_hst : (s.setRecorder v).hst = s.hst := rfl
@[simp] theorem State.setRecorder_jnl : (s.setRecorder v).jnl = s.jnl := rfl
@[simp] theorem State.setRecorder_change : (s.setRecorder v).change = s.change := rfl
@[simp] theorem State.setRecorder_gated : (s.setRecorder v).gated = s.gated := rfl
@[simp] theorem State.setRecorder_shadow : (s.setRecorder v).shadow = s.shadow := rfl
@[simp] theorem State.setRecorder_pwr : (s.setRecorder v).pwr = s.pwr := rfl
@[simp] theorem State.setRecorder_thm : (s.setRecorder v).thm = s.thm := rfl
@[simp] theorem State.setRecorder_dom : (s.setRecorder v).dom = s.dom := rfl
@[simp] theorem State.setRecorder_upd : (s.setRecorder v).upd = s.upd := rfl
@[simp] theorem State.setRecorder_pending : (s.setRecorder v).pending = s.pending := rfl
@[simp] theorem State.setRecorder_rd (f : Fld) : (s.setRecorder v).rd f = s.rd f := rfl
@[simp] theorem State.setRecorder_flag (f : Fld) : (s.setRecorder v).flag f = s.flag f := rfl
@[simp] theorem State.setRecorder_rdWord (a : Nat) : (s.setRecorder v).rdWord a = s.rdWord a := rfl
end

section
variable (v : Flt)
@[simp] theorem State.setFlt_regs : (s.setFlt v).regs = s.regs := rfl
@[simp] theorem State.setFlt_mem : (s.setFlt v).mem = s.mem := rfl
@[simp] theorem State.setFlt_poison : (s.setFlt v).poison = s.poison := rfl
@[simp] theorem State.setFlt_loHalf : (s.setFlt v).loHalf = s.loHalf := rfl
@[simp] theorem State.setFlt_hiLatch : (s.setFlt v).hiLatch = s.hiLatch := rfl
@[simp] theorem State.setFlt_resp : (s.setFlt v).resp = s.resp := rfl
@[simp] theorem State.setFlt_free : (s.setFlt v).free = s.free := rfl
@[simp] theorem State.setFlt_boot : (s.setFlt v).boot = s.boot := rfl
@[simp] theorem State.setFlt_recorder : (s.setFlt v).recorder = s.recorder := rfl
@[simp] theorem State.setFlt_flt : (s.setFlt v).flt = v := rfl
@[simp] theorem State.setFlt_rst : (s.setFlt v).rst = s.rst := rfl
@[simp] theorem State.setFlt_ang : (s.setFlt v).ang = s.ang := rfl
@[simp] theorem State.setFlt_sim : (s.setFlt v).sim = s.sim := rfl
@[simp] theorem State.setFlt_cs : (s.setFlt v).cs = s.cs := rfl
@[simp] theorem State.setFlt_rings : (s.setFlt v).rings = s.rings := rfl
@[simp] theorem State.setFlt_bwk : (s.setFlt v).bwk = s.bwk := rfl
@[simp] theorem State.setFlt_srv : (s.setFlt v).srv = s.srv := rfl
@[simp] theorem State.setFlt_ce : (s.setFlt v).ce = s.ce := rfl
@[simp] theorem State.setFlt_spn : (s.setFlt v).spn = s.spn := rfl
@[simp] theorem State.setFlt_ast : (s.setFlt v).ast = s.ast := rfl
@[simp] theorem State.setFlt_pre : (s.setFlt v).pre = s.pre := rfl
@[simp] theorem State.setFlt_cal : (s.setFlt v).cal = s.cal := rfl
@[simp] theorem State.setFlt_age : (s.setFlt v).age = s.age := rfl
@[simp] theorem State.setFlt_chan : (s.setFlt v).chan = s.chan := rfl
@[simp] theorem State.setFlt_ldp : (s.setFlt v).ldp = s.ldp := rfl
@[simp] theorem State.setFlt_oce : (s.setFlt v).oce = s.oce := rfl
@[simp] theorem State.setFlt_cry : (s.setFlt v).cry = s.cry := rfl
@[simp] theorem State.setFlt_bcm : (s.setFlt v).bcm = s.bcm := rfl
@[simp] theorem State.setFlt_memc : (s.setFlt v).memc = s.memc := rfl
@[simp] theorem State.setFlt_hst : (s.setFlt v).hst = s.hst := rfl
@[simp] theorem State.setFlt_jnl : (s.setFlt v).jnl = s.jnl := rfl
@[simp] theorem State.setFlt_change : (s.setFlt v).change = s.change := rfl
@[simp] theorem State.setFlt_gated : (s.setFlt v).gated = s.gated := rfl
@[simp] theorem State.setFlt_shadow : (s.setFlt v).shadow = s.shadow := rfl
@[simp] theorem State.setFlt_pwr : (s.setFlt v).pwr = s.pwr := rfl
@[simp] theorem State.setFlt_thm : (s.setFlt v).thm = s.thm := rfl
@[simp] theorem State.setFlt_dom : (s.setFlt v).dom = s.dom := rfl
@[simp] theorem State.setFlt_upd : (s.setFlt v).upd = s.upd := rfl
@[simp] theorem State.setFlt_pending : (s.setFlt v).pending = s.pending := rfl
@[simp] theorem State.setFlt_rd (f : Fld) : (s.setFlt v).rd f = s.rd f := rfl
@[simp] theorem State.setFlt_flag (f : Fld) : (s.setFlt v).flag f = s.flag f := rfl
@[simp] theorem State.setFlt_rdWord (a : Nat) : (s.setFlt v).rdWord a = s.rdWord a := rfl
end

section
variable (v : Rst)
@[simp] theorem State.setRst_regs : (s.setRst v).regs = s.regs := rfl
@[simp] theorem State.setRst_mem : (s.setRst v).mem = s.mem := rfl
@[simp] theorem State.setRst_poison : (s.setRst v).poison = s.poison := rfl
@[simp] theorem State.setRst_loHalf : (s.setRst v).loHalf = s.loHalf := rfl
@[simp] theorem State.setRst_hiLatch : (s.setRst v).hiLatch = s.hiLatch := rfl
@[simp] theorem State.setRst_resp : (s.setRst v).resp = s.resp := rfl
@[simp] theorem State.setRst_free : (s.setRst v).free = s.free := rfl
@[simp] theorem State.setRst_boot : (s.setRst v).boot = s.boot := rfl
@[simp] theorem State.setRst_recorder : (s.setRst v).recorder = s.recorder := rfl
@[simp] theorem State.setRst_flt : (s.setRst v).flt = s.flt := rfl
@[simp] theorem State.setRst_rst : (s.setRst v).rst = v := rfl
@[simp] theorem State.setRst_ang : (s.setRst v).ang = s.ang := rfl
@[simp] theorem State.setRst_sim : (s.setRst v).sim = s.sim := rfl
@[simp] theorem State.setRst_cs : (s.setRst v).cs = s.cs := rfl
@[simp] theorem State.setRst_rings : (s.setRst v).rings = s.rings := rfl
@[simp] theorem State.setRst_bwk : (s.setRst v).bwk = s.bwk := rfl
@[simp] theorem State.setRst_srv : (s.setRst v).srv = s.srv := rfl
@[simp] theorem State.setRst_ce : (s.setRst v).ce = s.ce := rfl
@[simp] theorem State.setRst_spn : (s.setRst v).spn = s.spn := rfl
@[simp] theorem State.setRst_ast : (s.setRst v).ast = s.ast := rfl
@[simp] theorem State.setRst_pre : (s.setRst v).pre = s.pre := rfl
@[simp] theorem State.setRst_cal : (s.setRst v).cal = s.cal := rfl
@[simp] theorem State.setRst_age : (s.setRst v).age = s.age := rfl
@[simp] theorem State.setRst_chan : (s.setRst v).chan = s.chan := rfl
@[simp] theorem State.setRst_ldp : (s.setRst v).ldp = s.ldp := rfl
@[simp] theorem State.setRst_oce : (s.setRst v).oce = s.oce := rfl
@[simp] theorem State.setRst_cry : (s.setRst v).cry = s.cry := rfl
@[simp] theorem State.setRst_bcm : (s.setRst v).bcm = s.bcm := rfl
@[simp] theorem State.setRst_memc : (s.setRst v).memc = s.memc := rfl
@[simp] theorem State.setRst_hst : (s.setRst v).hst = s.hst := rfl
@[simp] theorem State.setRst_jnl : (s.setRst v).jnl = s.jnl := rfl
@[simp] theorem State.setRst_change : (s.setRst v).change = s.change := rfl
@[simp] theorem State.setRst_gated : (s.setRst v).gated = s.gated := rfl
@[simp] theorem State.setRst_shadow : (s.setRst v).shadow = s.shadow := rfl
@[simp] theorem State.setRst_pwr : (s.setRst v).pwr = s.pwr := rfl
@[simp] theorem State.setRst_thm : (s.setRst v).thm = s.thm := rfl
@[simp] theorem State.setRst_dom : (s.setRst v).dom = s.dom := rfl
@[simp] theorem State.setRst_upd : (s.setRst v).upd = s.upd := rfl
@[simp] theorem State.setRst_pending : (s.setRst v).pending = s.pending := rfl
@[simp] theorem State.setRst_rd (f : Fld) : (s.setRst v).rd f = s.rd f := rfl
@[simp] theorem State.setRst_flag (f : Fld) : (s.setRst v).flag f = s.flag f := rfl
@[simp] theorem State.setRst_rdWord (a : Nat) : (s.setRst v).rdWord a = s.rdWord a := rfl
end

section
variable (v : Ang)
@[simp] theorem State.setAng_regs : (s.setAng v).regs = s.regs := rfl
@[simp] theorem State.setAng_mem : (s.setAng v).mem = s.mem := rfl
@[simp] theorem State.setAng_poison : (s.setAng v).poison = s.poison := rfl
@[simp] theorem State.setAng_loHalf : (s.setAng v).loHalf = s.loHalf := rfl
@[simp] theorem State.setAng_hiLatch : (s.setAng v).hiLatch = s.hiLatch := rfl
@[simp] theorem State.setAng_resp : (s.setAng v).resp = s.resp := rfl
@[simp] theorem State.setAng_free : (s.setAng v).free = s.free := rfl
@[simp] theorem State.setAng_boot : (s.setAng v).boot = s.boot := rfl
@[simp] theorem State.setAng_recorder : (s.setAng v).recorder = s.recorder := rfl
@[simp] theorem State.setAng_flt : (s.setAng v).flt = s.flt := rfl
@[simp] theorem State.setAng_rst : (s.setAng v).rst = s.rst := rfl
@[simp] theorem State.setAng_ang : (s.setAng v).ang = v := rfl
@[simp] theorem State.setAng_sim : (s.setAng v).sim = s.sim := rfl
@[simp] theorem State.setAng_cs : (s.setAng v).cs = s.cs := rfl
@[simp] theorem State.setAng_rings : (s.setAng v).rings = s.rings := rfl
@[simp] theorem State.setAng_bwk : (s.setAng v).bwk = s.bwk := rfl
@[simp] theorem State.setAng_srv : (s.setAng v).srv = s.srv := rfl
@[simp] theorem State.setAng_ce : (s.setAng v).ce = s.ce := rfl
@[simp] theorem State.setAng_spn : (s.setAng v).spn = s.spn := rfl
@[simp] theorem State.setAng_ast : (s.setAng v).ast = s.ast := rfl
@[simp] theorem State.setAng_pre : (s.setAng v).pre = s.pre := rfl
@[simp] theorem State.setAng_cal : (s.setAng v).cal = s.cal := rfl
@[simp] theorem State.setAng_age : (s.setAng v).age = s.age := rfl
@[simp] theorem State.setAng_chan : (s.setAng v).chan = s.chan := rfl
@[simp] theorem State.setAng_ldp : (s.setAng v).ldp = s.ldp := rfl
@[simp] theorem State.setAng_oce : (s.setAng v).oce = s.oce := rfl
@[simp] theorem State.setAng_cry : (s.setAng v).cry = s.cry := rfl
@[simp] theorem State.setAng_bcm : (s.setAng v).bcm = s.bcm := rfl
@[simp] theorem State.setAng_memc : (s.setAng v).memc = s.memc := rfl
@[simp] theorem State.setAng_hst : (s.setAng v).hst = s.hst := rfl
@[simp] theorem State.setAng_jnl : (s.setAng v).jnl = s.jnl := rfl
@[simp] theorem State.setAng_change : (s.setAng v).change = s.change := rfl
@[simp] theorem State.setAng_gated : (s.setAng v).gated = s.gated := rfl
@[simp] theorem State.setAng_shadow : (s.setAng v).shadow = s.shadow := rfl
@[simp] theorem State.setAng_pwr : (s.setAng v).pwr = s.pwr := rfl
@[simp] theorem State.setAng_thm : (s.setAng v).thm = s.thm := rfl
@[simp] theorem State.setAng_dom : (s.setAng v).dom = s.dom := rfl
@[simp] theorem State.setAng_upd : (s.setAng v).upd = s.upd := rfl
@[simp] theorem State.setAng_pending : (s.setAng v).pending = s.pending := rfl
@[simp] theorem State.setAng_rd (f : Fld) : (s.setAng v).rd f = s.rd f := rfl
@[simp] theorem State.setAng_flag (f : Fld) : (s.setAng v).flag f = s.flag f := rfl
@[simp] theorem State.setAng_rdWord (a : Nat) : (s.setAng v).rdWord a = s.rdWord a := rfl
end

section
variable (v : Sim)
@[simp] theorem State.setSim_regs : (s.setSim v).regs = s.regs := rfl
@[simp] theorem State.setSim_mem : (s.setSim v).mem = s.mem := rfl
@[simp] theorem State.setSim_poison : (s.setSim v).poison = s.poison := rfl
@[simp] theorem State.setSim_loHalf : (s.setSim v).loHalf = s.loHalf := rfl
@[simp] theorem State.setSim_hiLatch : (s.setSim v).hiLatch = s.hiLatch := rfl
@[simp] theorem State.setSim_resp : (s.setSim v).resp = s.resp := rfl
@[simp] theorem State.setSim_free : (s.setSim v).free = s.free := rfl
@[simp] theorem State.setSim_boot : (s.setSim v).boot = s.boot := rfl
@[simp] theorem State.setSim_recorder : (s.setSim v).recorder = s.recorder := rfl
@[simp] theorem State.setSim_flt : (s.setSim v).flt = s.flt := rfl
@[simp] theorem State.setSim_rst : (s.setSim v).rst = s.rst := rfl
@[simp] theorem State.setSim_ang : (s.setSim v).ang = s.ang := rfl
@[simp] theorem State.setSim_sim : (s.setSim v).sim = v := rfl
@[simp] theorem State.setSim_cs : (s.setSim v).cs = s.cs := rfl
@[simp] theorem State.setSim_rings : (s.setSim v).rings = s.rings := rfl
@[simp] theorem State.setSim_bwk : (s.setSim v).bwk = s.bwk := rfl
@[simp] theorem State.setSim_srv : (s.setSim v).srv = s.srv := rfl
@[simp] theorem State.setSim_ce : (s.setSim v).ce = s.ce := rfl
@[simp] theorem State.setSim_spn : (s.setSim v).spn = s.spn := rfl
@[simp] theorem State.setSim_ast : (s.setSim v).ast = s.ast := rfl
@[simp] theorem State.setSim_pre : (s.setSim v).pre = s.pre := rfl
@[simp] theorem State.setSim_cal : (s.setSim v).cal = s.cal := rfl
@[simp] theorem State.setSim_age : (s.setSim v).age = s.age := rfl
@[simp] theorem State.setSim_chan : (s.setSim v).chan = s.chan := rfl
@[simp] theorem State.setSim_ldp : (s.setSim v).ldp = s.ldp := rfl
@[simp] theorem State.setSim_oce : (s.setSim v).oce = s.oce := rfl
@[simp] theorem State.setSim_cry : (s.setSim v).cry = s.cry := rfl
@[simp] theorem State.setSim_bcm : (s.setSim v).bcm = s.bcm := rfl
@[simp] theorem State.setSim_memc : (s.setSim v).memc = s.memc := rfl
@[simp] theorem State.setSim_hst : (s.setSim v).hst = s.hst := rfl
@[simp] theorem State.setSim_jnl : (s.setSim v).jnl = s.jnl := rfl
@[simp] theorem State.setSim_change : (s.setSim v).change = s.change := rfl
@[simp] theorem State.setSim_gated : (s.setSim v).gated = s.gated := rfl
@[simp] theorem State.setSim_shadow : (s.setSim v).shadow = s.shadow := rfl
@[simp] theorem State.setSim_pwr : (s.setSim v).pwr = s.pwr := rfl
@[simp] theorem State.setSim_thm : (s.setSim v).thm = s.thm := rfl
@[simp] theorem State.setSim_dom : (s.setSim v).dom = s.dom := rfl
@[simp] theorem State.setSim_upd : (s.setSim v).upd = s.upd := rfl
@[simp] theorem State.setSim_pending : (s.setSim v).pending = s.pending := rfl
@[simp] theorem State.setSim_rd (f : Fld) : (s.setSim v).rd f = s.rd f := rfl
@[simp] theorem State.setSim_flag (f : Fld) : (s.setSim v).flag f = s.flag f := rfl
@[simp] theorem State.setSim_rdWord (a : Nat) : (s.setSim v).rdWord a = s.rdWord a := rfl
end

section
variable (v : ControlStores)
@[simp] theorem State.setCs_regs : (s.setCs v).regs = s.regs := rfl
@[simp] theorem State.setCs_mem : (s.setCs v).mem = s.mem := rfl
@[simp] theorem State.setCs_poison : (s.setCs v).poison = s.poison := rfl
@[simp] theorem State.setCs_loHalf : (s.setCs v).loHalf = s.loHalf := rfl
@[simp] theorem State.setCs_hiLatch : (s.setCs v).hiLatch = s.hiLatch := rfl
@[simp] theorem State.setCs_resp : (s.setCs v).resp = s.resp := rfl
@[simp] theorem State.setCs_free : (s.setCs v).free = s.free := rfl
@[simp] theorem State.setCs_boot : (s.setCs v).boot = s.boot := rfl
@[simp] theorem State.setCs_recorder : (s.setCs v).recorder = s.recorder := rfl
@[simp] theorem State.setCs_flt : (s.setCs v).flt = s.flt := rfl
@[simp] theorem State.setCs_rst : (s.setCs v).rst = s.rst := rfl
@[simp] theorem State.setCs_ang : (s.setCs v).ang = s.ang := rfl
@[simp] theorem State.setCs_sim : (s.setCs v).sim = s.sim := rfl
@[simp] theorem State.setCs_cs : (s.setCs v).cs = v := rfl
@[simp] theorem State.setCs_rings : (s.setCs v).rings = s.rings := rfl
@[simp] theorem State.setCs_bwk : (s.setCs v).bwk = s.bwk := rfl
@[simp] theorem State.setCs_srv : (s.setCs v).srv = s.srv := rfl
@[simp] theorem State.setCs_ce : (s.setCs v).ce = s.ce := rfl
@[simp] theorem State.setCs_spn : (s.setCs v).spn = s.spn := rfl
@[simp] theorem State.setCs_ast : (s.setCs v).ast = s.ast := rfl
@[simp] theorem State.setCs_pre : (s.setCs v).pre = s.pre := rfl
@[simp] theorem State.setCs_cal : (s.setCs v).cal = s.cal := rfl
@[simp] theorem State.setCs_age : (s.setCs v).age = s.age := rfl
@[simp] theorem State.setCs_chan : (s.setCs v).chan = s.chan := rfl
@[simp] theorem State.setCs_ldp : (s.setCs v).ldp = s.ldp := rfl
@[simp] theorem State.setCs_oce : (s.setCs v).oce = s.oce := rfl
@[simp] theorem State.setCs_cry : (s.setCs v).cry = s.cry := rfl
@[simp] theorem State.setCs_bcm : (s.setCs v).bcm = s.bcm := rfl
@[simp] theorem State.setCs_memc : (s.setCs v).memc = s.memc := rfl
@[simp] theorem State.setCs_hst : (s.setCs v).hst = s.hst := rfl
@[simp] theorem State.setCs_jnl : (s.setCs v).jnl = s.jnl := rfl
@[simp] theorem State.setCs_change : (s.setCs v).change = s.change := rfl
@[simp] theorem State.setCs_gated : (s.setCs v).gated = s.gated := rfl
@[simp] theorem State.setCs_shadow : (s.setCs v).shadow = s.shadow := rfl
@[simp] theorem State.setCs_pwr : (s.setCs v).pwr = s.pwr := rfl
@[simp] theorem State.setCs_thm : (s.setCs v).thm = s.thm := rfl
@[simp] theorem State.setCs_dom : (s.setCs v).dom = s.dom := rfl
@[simp] theorem State.setCs_upd : (s.setCs v).upd = s.upd := rfl
@[simp] theorem State.setCs_pending : (s.setCs v).pending = s.pending := rfl
@[simp] theorem State.setCs_rd (f : Fld) : (s.setCs v).rd f = s.rd f := rfl
@[simp] theorem State.setCs_flag (f : Fld) : (s.setCs v).flag f = s.flag f := rfl
@[simp] theorem State.setCs_rdWord (a : Nat) : (s.setCs v).rdWord a = s.rdWord a := rfl
end

section
variable (v : Engines)
@[simp] theorem State.setCe_regs : (s.setCe v).regs = s.regs := rfl
@[simp] theorem State.setCe_mem : (s.setCe v).mem = s.mem := rfl
@[simp] theorem State.setCe_poison : (s.setCe v).poison = s.poison := rfl
@[simp] theorem State.setCe_loHalf : (s.setCe v).loHalf = s.loHalf := rfl
@[simp] theorem State.setCe_hiLatch : (s.setCe v).hiLatch = s.hiLatch := rfl
@[simp] theorem State.setCe_resp : (s.setCe v).resp = s.resp := rfl
@[simp] theorem State.setCe_free : (s.setCe v).free = s.free := rfl
@[simp] theorem State.setCe_boot : (s.setCe v).boot = s.boot := rfl
@[simp] theorem State.setCe_recorder : (s.setCe v).recorder = s.recorder := rfl
@[simp] theorem State.setCe_flt : (s.setCe v).flt = s.flt := rfl
@[simp] theorem State.setCe_rst : (s.setCe v).rst = s.rst := rfl
@[simp] theorem State.setCe_ang : (s.setCe v).ang = s.ang := rfl
@[simp] theorem State.setCe_sim : (s.setCe v).sim = s.sim := rfl
@[simp] theorem State.setCe_cs : (s.setCe v).cs = s.cs := rfl
@[simp] theorem State.setCe_rings : (s.setCe v).rings = s.rings := rfl
@[simp] theorem State.setCe_bwk : (s.setCe v).bwk = s.bwk := rfl
@[simp] theorem State.setCe_srv : (s.setCe v).srv = s.srv := rfl
@[simp] theorem State.setCe_ce : (s.setCe v).ce = v := rfl
@[simp] theorem State.setCe_spn : (s.setCe v).spn = s.spn := rfl
@[simp] theorem State.setCe_ast : (s.setCe v).ast = s.ast := rfl
@[simp] theorem State.setCe_pre : (s.setCe v).pre = s.pre := rfl
@[simp] theorem State.setCe_cal : (s.setCe v).cal = s.cal := rfl
@[simp] theorem State.setCe_age : (s.setCe v).age = s.age := rfl
@[simp] theorem State.setCe_chan : (s.setCe v).chan = s.chan := rfl
@[simp] theorem State.setCe_ldp : (s.setCe v).ldp = s.ldp := rfl
@[simp] theorem State.setCe_oce : (s.setCe v).oce = s.oce := rfl
@[simp] theorem State.setCe_cry : (s.setCe v).cry = s.cry := rfl
@[simp] theorem State.setCe_bcm : (s.setCe v).bcm = s.bcm := rfl
@[simp] theorem State.setCe_memc : (s.setCe v).memc = s.memc := rfl
@[simp] theorem State.setCe_hst : (s.setCe v).hst = s.hst := rfl
@[simp] theorem State.setCe_jnl : (s.setCe v).jnl = s.jnl := rfl
@[simp] theorem State.setCe_change : (s.setCe v).change = s.change := rfl
@[simp] theorem State.setCe_gated : (s.setCe v).gated = s.gated := rfl
@[simp] theorem State.setCe_shadow : (s.setCe v).shadow = s.shadow := rfl
@[simp] theorem State.setCe_pwr : (s.setCe v).pwr = s.pwr := rfl
@[simp] theorem State.setCe_thm : (s.setCe v).thm = s.thm := rfl
@[simp] theorem State.setCe_dom : (s.setCe v).dom = s.dom := rfl
@[simp] theorem State.setCe_upd : (s.setCe v).upd = s.upd := rfl
@[simp] theorem State.setCe_pending : (s.setCe v).pending = s.pending := rfl
@[simp] theorem State.setCe_rd (f : Fld) : (s.setCe v).rd f = s.rd f := rfl
@[simp] theorem State.setCe_flag (f : Fld) : (s.setCe v).flag f = s.flag f := rfl
@[simp] theorem State.setCe_rdWord (a : Nat) : (s.setCe v).rdWord a = s.rdWord a := rfl
end

section
variable (v : Spn)
@[simp] theorem State.setSpn_regs : (s.setSpn v).regs = s.regs := rfl
@[simp] theorem State.setSpn_mem : (s.setSpn v).mem = s.mem := rfl
@[simp] theorem State.setSpn_poison : (s.setSpn v).poison = s.poison := rfl
@[simp] theorem State.setSpn_loHalf : (s.setSpn v).loHalf = s.loHalf := rfl
@[simp] theorem State.setSpn_hiLatch : (s.setSpn v).hiLatch = s.hiLatch := rfl
@[simp] theorem State.setSpn_resp : (s.setSpn v).resp = s.resp := rfl
@[simp] theorem State.setSpn_free : (s.setSpn v).free = s.free := rfl
@[simp] theorem State.setSpn_boot : (s.setSpn v).boot = s.boot := rfl
@[simp] theorem State.setSpn_recorder : (s.setSpn v).recorder = s.recorder := rfl
@[simp] theorem State.setSpn_flt : (s.setSpn v).flt = s.flt := rfl
@[simp] theorem State.setSpn_rst : (s.setSpn v).rst = s.rst := rfl
@[simp] theorem State.setSpn_ang : (s.setSpn v).ang = s.ang := rfl
@[simp] theorem State.setSpn_sim : (s.setSpn v).sim = s.sim := rfl
@[simp] theorem State.setSpn_cs : (s.setSpn v).cs = s.cs := rfl
@[simp] theorem State.setSpn_rings : (s.setSpn v).rings = s.rings := rfl
@[simp] theorem State.setSpn_bwk : (s.setSpn v).bwk = s.bwk := rfl
@[simp] theorem State.setSpn_srv : (s.setSpn v).srv = s.srv := rfl
@[simp] theorem State.setSpn_ce : (s.setSpn v).ce = s.ce := rfl
@[simp] theorem State.setSpn_spn : (s.setSpn v).spn = v := rfl
@[simp] theorem State.setSpn_ast : (s.setSpn v).ast = s.ast := rfl
@[simp] theorem State.setSpn_pre : (s.setSpn v).pre = s.pre := rfl
@[simp] theorem State.setSpn_cal : (s.setSpn v).cal = s.cal := rfl
@[simp] theorem State.setSpn_age : (s.setSpn v).age = s.age := rfl
@[simp] theorem State.setSpn_chan : (s.setSpn v).chan = s.chan := rfl
@[simp] theorem State.setSpn_ldp : (s.setSpn v).ldp = s.ldp := rfl
@[simp] theorem State.setSpn_oce : (s.setSpn v).oce = s.oce := rfl
@[simp] theorem State.setSpn_cry : (s.setSpn v).cry = s.cry := rfl
@[simp] theorem State.setSpn_bcm : (s.setSpn v).bcm = s.bcm := rfl
@[simp] theorem State.setSpn_memc : (s.setSpn v).memc = s.memc := rfl
@[simp] theorem State.setSpn_hst : (s.setSpn v).hst = s.hst := rfl
@[simp] theorem State.setSpn_jnl : (s.setSpn v).jnl = s.jnl := rfl
@[simp] theorem State.setSpn_change : (s.setSpn v).change = s.change := rfl
@[simp] theorem State.setSpn_gated : (s.setSpn v).gated = s.gated := rfl
@[simp] theorem State.setSpn_shadow : (s.setSpn v).shadow = s.shadow := rfl
@[simp] theorem State.setSpn_pwr : (s.setSpn v).pwr = s.pwr := rfl
@[simp] theorem State.setSpn_thm : (s.setSpn v).thm = s.thm := rfl
@[simp] theorem State.setSpn_dom : (s.setSpn v).dom = s.dom := rfl
@[simp] theorem State.setSpn_upd : (s.setSpn v).upd = s.upd := rfl
@[simp] theorem State.setSpn_pending : (s.setSpn v).pending = s.pending := rfl
@[simp] theorem State.setSpn_rd (f : Fld) : (s.setSpn v).rd f = s.rd f := rfl
@[simp] theorem State.setSpn_flag (f : Fld) : (s.setSpn v).flag f = s.flag f := rfl
@[simp] theorem State.setSpn_rdWord (a : Nat) : (s.setSpn v).rdWord a = s.rdWord a := rfl
end

section
variable (v : Pre)
@[simp] theorem State.setPre_regs : (s.setPre v).regs = s.regs := rfl
@[simp] theorem State.setPre_mem : (s.setPre v).mem = s.mem := rfl
@[simp] theorem State.setPre_poison : (s.setPre v).poison = s.poison := rfl
@[simp] theorem State.setPre_loHalf : (s.setPre v).loHalf = s.loHalf := rfl
@[simp] theorem State.setPre_hiLatch : (s.setPre v).hiLatch = s.hiLatch := rfl
@[simp] theorem State.setPre_resp : (s.setPre v).resp = s.resp := rfl
@[simp] theorem State.setPre_free : (s.setPre v).free = s.free := rfl
@[simp] theorem State.setPre_boot : (s.setPre v).boot = s.boot := rfl
@[simp] theorem State.setPre_recorder : (s.setPre v).recorder = s.recorder := rfl
@[simp] theorem State.setPre_flt : (s.setPre v).flt = s.flt := rfl
@[simp] theorem State.setPre_rst : (s.setPre v).rst = s.rst := rfl
@[simp] theorem State.setPre_ang : (s.setPre v).ang = s.ang := rfl
@[simp] theorem State.setPre_sim : (s.setPre v).sim = s.sim := rfl
@[simp] theorem State.setPre_cs : (s.setPre v).cs = s.cs := rfl
@[simp] theorem State.setPre_rings : (s.setPre v).rings = s.rings := rfl
@[simp] theorem State.setPre_bwk : (s.setPre v).bwk = s.bwk := rfl
@[simp] theorem State.setPre_srv : (s.setPre v).srv = s.srv := rfl
@[simp] theorem State.setPre_ce : (s.setPre v).ce = s.ce := rfl
@[simp] theorem State.setPre_spn : (s.setPre v).spn = s.spn := rfl
@[simp] theorem State.setPre_ast : (s.setPre v).ast = s.ast := rfl
@[simp] theorem State.setPre_pre : (s.setPre v).pre = v := rfl
@[simp] theorem State.setPre_cal : (s.setPre v).cal = s.cal := rfl
@[simp] theorem State.setPre_age : (s.setPre v).age = s.age := rfl
@[simp] theorem State.setPre_chan : (s.setPre v).chan = s.chan := rfl
@[simp] theorem State.setPre_ldp : (s.setPre v).ldp = s.ldp := rfl
@[simp] theorem State.setPre_oce : (s.setPre v).oce = s.oce := rfl
@[simp] theorem State.setPre_cry : (s.setPre v).cry = s.cry := rfl
@[simp] theorem State.setPre_bcm : (s.setPre v).bcm = s.bcm := rfl
@[simp] theorem State.setPre_memc : (s.setPre v).memc = s.memc := rfl
@[simp] theorem State.setPre_hst : (s.setPre v).hst = s.hst := rfl
@[simp] theorem State.setPre_jnl : (s.setPre v).jnl = s.jnl := rfl
@[simp] theorem State.setPre_change : (s.setPre v).change = s.change := rfl
@[simp] theorem State.setPre_gated : (s.setPre v).gated = s.gated := rfl
@[simp] theorem State.setPre_shadow : (s.setPre v).shadow = s.shadow := rfl
@[simp] theorem State.setPre_pwr : (s.setPre v).pwr = s.pwr := rfl
@[simp] theorem State.setPre_thm : (s.setPre v).thm = s.thm := rfl
@[simp] theorem State.setPre_dom : (s.setPre v).dom = s.dom := rfl
@[simp] theorem State.setPre_upd : (s.setPre v).upd = s.upd := rfl
@[simp] theorem State.setPre_pending : (s.setPre v).pending = s.pending := rfl
@[simp] theorem State.setPre_rd (f : Fld) : (s.setPre v).rd f = s.rd f := rfl
@[simp] theorem State.setPre_flag (f : Fld) : (s.setPre v).flag f = s.flag f := rfl
@[simp] theorem State.setPre_rdWord (a : Nat) : (s.setPre v).rdWord a = s.rdWord a := rfl
end

section
variable (v : Cal)
@[simp] theorem State.setCal_regs : (s.setCal v).regs = s.regs := rfl
@[simp] theorem State.setCal_mem : (s.setCal v).mem = s.mem := rfl
@[simp] theorem State.setCal_poison : (s.setCal v).poison = s.poison := rfl
@[simp] theorem State.setCal_loHalf : (s.setCal v).loHalf = s.loHalf := rfl
@[simp] theorem State.setCal_hiLatch : (s.setCal v).hiLatch = s.hiLatch := rfl
@[simp] theorem State.setCal_resp : (s.setCal v).resp = s.resp := rfl
@[simp] theorem State.setCal_free : (s.setCal v).free = s.free := rfl
@[simp] theorem State.setCal_boot : (s.setCal v).boot = s.boot := rfl
@[simp] theorem State.setCal_recorder : (s.setCal v).recorder = s.recorder := rfl
@[simp] theorem State.setCal_flt : (s.setCal v).flt = s.flt := rfl
@[simp] theorem State.setCal_rst : (s.setCal v).rst = s.rst := rfl
@[simp] theorem State.setCal_ang : (s.setCal v).ang = s.ang := rfl
@[simp] theorem State.setCal_sim : (s.setCal v).sim = s.sim := rfl
@[simp] theorem State.setCal_cs : (s.setCal v).cs = s.cs := rfl
@[simp] theorem State.setCal_rings : (s.setCal v).rings = s.rings := rfl
@[simp] theorem State.setCal_bwk : (s.setCal v).bwk = s.bwk := rfl
@[simp] theorem State.setCal_srv : (s.setCal v).srv = s.srv := rfl
@[simp] theorem State.setCal_ce : (s.setCal v).ce = s.ce := rfl
@[simp] theorem State.setCal_spn : (s.setCal v).spn = s.spn := rfl
@[simp] theorem State.setCal_ast : (s.setCal v).ast = s.ast := rfl
@[simp] theorem State.setCal_pre : (s.setCal v).pre = s.pre := rfl
@[simp] theorem State.setCal_cal : (s.setCal v).cal = v := rfl
@[simp] theorem State.setCal_age : (s.setCal v).age = s.age := rfl
@[simp] theorem State.setCal_chan : (s.setCal v).chan = s.chan := rfl
@[simp] theorem State.setCal_ldp : (s.setCal v).ldp = s.ldp := rfl
@[simp] theorem State.setCal_oce : (s.setCal v).oce = s.oce := rfl
@[simp] theorem State.setCal_cry : (s.setCal v).cry = s.cry := rfl
@[simp] theorem State.setCal_bcm : (s.setCal v).bcm = s.bcm := rfl
@[simp] theorem State.setCal_memc : (s.setCal v).memc = s.memc := rfl
@[simp] theorem State.setCal_hst : (s.setCal v).hst = s.hst := rfl
@[simp] theorem State.setCal_jnl : (s.setCal v).jnl = s.jnl := rfl
@[simp] theorem State.setCal_change : (s.setCal v).change = s.change := rfl
@[simp] theorem State.setCal_gated : (s.setCal v).gated = s.gated := rfl
@[simp] theorem State.setCal_shadow : (s.setCal v).shadow = s.shadow := rfl
@[simp] theorem State.setCal_pwr : (s.setCal v).pwr = s.pwr := rfl
@[simp] theorem State.setCal_thm : (s.setCal v).thm = s.thm := rfl
@[simp] theorem State.setCal_dom : (s.setCal v).dom = s.dom := rfl
@[simp] theorem State.setCal_upd : (s.setCal v).upd = s.upd := rfl
@[simp] theorem State.setCal_pending : (s.setCal v).pending = s.pending := rfl
@[simp] theorem State.setCal_rd (f : Fld) : (s.setCal v).rd f = s.rd f := rfl
@[simp] theorem State.setCal_flag (f : Fld) : (s.setCal v).flag f = s.flag f := rfl
@[simp] theorem State.setCal_rdWord (a : Nat) : (s.setCal v).rdWord a = s.rdWord a := rfl
end

section
variable (v : Age)
@[simp] theorem State.setAge_regs : (s.setAge v).regs = s.regs := rfl
@[simp] theorem State.setAge_mem : (s.setAge v).mem = s.mem := rfl
@[simp] theorem State.setAge_poison : (s.setAge v).poison = s.poison := rfl
@[simp] theorem State.setAge_loHalf : (s.setAge v).loHalf = s.loHalf := rfl
@[simp] theorem State.setAge_hiLatch : (s.setAge v).hiLatch = s.hiLatch := rfl
@[simp] theorem State.setAge_resp : (s.setAge v).resp = s.resp := rfl
@[simp] theorem State.setAge_free : (s.setAge v).free = s.free := rfl
@[simp] theorem State.setAge_boot : (s.setAge v).boot = s.boot := rfl
@[simp] theorem State.setAge_recorder : (s.setAge v).recorder = s.recorder := rfl
@[simp] theorem State.setAge_flt : (s.setAge v).flt = s.flt := rfl
@[simp] theorem State.setAge_rst : (s.setAge v).rst = s.rst := rfl
@[simp] theorem State.setAge_ang : (s.setAge v).ang = s.ang := rfl
@[simp] theorem State.setAge_sim : (s.setAge v).sim = s.sim := rfl
@[simp] theorem State.setAge_cs : (s.setAge v).cs = s.cs := rfl
@[simp] theorem State.setAge_rings : (s.setAge v).rings = s.rings := rfl
@[simp] theorem State.setAge_bwk : (s.setAge v).bwk = s.bwk := rfl
@[simp] theorem State.setAge_srv : (s.setAge v).srv = s.srv := rfl
@[simp] theorem State.setAge_ce : (s.setAge v).ce = s.ce := rfl
@[simp] theorem State.setAge_spn : (s.setAge v).spn = s.spn := rfl
@[simp] theorem State.setAge_ast : (s.setAge v).ast = s.ast := rfl
@[simp] theorem State.setAge_pre : (s.setAge v).pre = s.pre := rfl
@[simp] theorem State.setAge_cal : (s.setAge v).cal = s.cal := rfl
@[simp] theorem State.setAge_age : (s.setAge v).age = v := rfl
@[simp] theorem State.setAge_chan : (s.setAge v).chan = s.chan := rfl
@[simp] theorem State.setAge_ldp : (s.setAge v).ldp = s.ldp := rfl
@[simp] theorem State.setAge_oce : (s.setAge v).oce = s.oce := rfl
@[simp] theorem State.setAge_cry : (s.setAge v).cry = s.cry := rfl
@[simp] theorem State.setAge_bcm : (s.setAge v).bcm = s.bcm := rfl
@[simp] theorem State.setAge_memc : (s.setAge v).memc = s.memc := rfl
@[simp] theorem State.setAge_hst : (s.setAge v).hst = s.hst := rfl
@[simp] theorem State.setAge_jnl : (s.setAge v).jnl = s.jnl := rfl
@[simp] theorem State.setAge_change : (s.setAge v).change = s.change := rfl
@[simp] theorem State.setAge_gated : (s.setAge v).gated = s.gated := rfl
@[simp] theorem State.setAge_shadow : (s.setAge v).shadow = s.shadow := rfl
@[simp] theorem State.setAge_pwr : (s.setAge v).pwr = s.pwr := rfl
@[simp] theorem State.setAge_thm : (s.setAge v).thm = s.thm := rfl
@[simp] theorem State.setAge_dom : (s.setAge v).dom = s.dom := rfl
@[simp] theorem State.setAge_upd : (s.setAge v).upd = s.upd := rfl
@[simp] theorem State.setAge_pending : (s.setAge v).pending = s.pending := rfl
@[simp] theorem State.setAge_rd (f : Fld) : (s.setAge v).rd f = s.rd f := rfl
@[simp] theorem State.setAge_flag (f : Fld) : (s.setAge v).flag f = s.flag f := rfl
@[simp] theorem State.setAge_rdWord (a : Nat) : (s.setAge v).rdWord a = s.rdWord a := rfl
end

section
variable (v : Ldp)
@[simp] theorem State.setLdp_regs : (s.setLdp v).regs = s.regs := rfl
@[simp] theorem State.setLdp_mem : (s.setLdp v).mem = s.mem := rfl
@[simp] theorem State.setLdp_poison : (s.setLdp v).poison = s.poison := rfl
@[simp] theorem State.setLdp_loHalf : (s.setLdp v).loHalf = s.loHalf := rfl
@[simp] theorem State.setLdp_hiLatch : (s.setLdp v).hiLatch = s.hiLatch := rfl
@[simp] theorem State.setLdp_resp : (s.setLdp v).resp = s.resp := rfl
@[simp] theorem State.setLdp_free : (s.setLdp v).free = s.free := rfl
@[simp] theorem State.setLdp_boot : (s.setLdp v).boot = s.boot := rfl
@[simp] theorem State.setLdp_recorder : (s.setLdp v).recorder = s.recorder := rfl
@[simp] theorem State.setLdp_flt : (s.setLdp v).flt = s.flt := rfl
@[simp] theorem State.setLdp_rst : (s.setLdp v).rst = s.rst := rfl
@[simp] theorem State.setLdp_ang : (s.setLdp v).ang = s.ang := rfl
@[simp] theorem State.setLdp_sim : (s.setLdp v).sim = s.sim := rfl
@[simp] theorem State.setLdp_cs : (s.setLdp v).cs = s.cs := rfl
@[simp] theorem State.setLdp_rings : (s.setLdp v).rings = s.rings := rfl
@[simp] theorem State.setLdp_bwk : (s.setLdp v).bwk = s.bwk := rfl
@[simp] theorem State.setLdp_srv : (s.setLdp v).srv = s.srv := rfl
@[simp] theorem State.setLdp_ce : (s.setLdp v).ce = s.ce := rfl
@[simp] theorem State.setLdp_spn : (s.setLdp v).spn = s.spn := rfl
@[simp] theorem State.setLdp_ast : (s.setLdp v).ast = s.ast := rfl
@[simp] theorem State.setLdp_pre : (s.setLdp v).pre = s.pre := rfl
@[simp] theorem State.setLdp_cal : (s.setLdp v).cal = s.cal := rfl
@[simp] theorem State.setLdp_age : (s.setLdp v).age = s.age := rfl
@[simp] theorem State.setLdp_chan : (s.setLdp v).chan = s.chan := rfl
@[simp] theorem State.setLdp_ldp : (s.setLdp v).ldp = v := rfl
@[simp] theorem State.setLdp_oce : (s.setLdp v).oce = s.oce := rfl
@[simp] theorem State.setLdp_cry : (s.setLdp v).cry = s.cry := rfl
@[simp] theorem State.setLdp_bcm : (s.setLdp v).bcm = s.bcm := rfl
@[simp] theorem State.setLdp_memc : (s.setLdp v).memc = s.memc := rfl
@[simp] theorem State.setLdp_hst : (s.setLdp v).hst = s.hst := rfl
@[simp] theorem State.setLdp_jnl : (s.setLdp v).jnl = s.jnl := rfl
@[simp] theorem State.setLdp_change : (s.setLdp v).change = s.change := rfl
@[simp] theorem State.setLdp_gated : (s.setLdp v).gated = s.gated := rfl
@[simp] theorem State.setLdp_shadow : (s.setLdp v).shadow = s.shadow := rfl
@[simp] theorem State.setLdp_pwr : (s.setLdp v).pwr = s.pwr := rfl
@[simp] theorem State.setLdp_thm : (s.setLdp v).thm = s.thm := rfl
@[simp] theorem State.setLdp_dom : (s.setLdp v).dom = s.dom := rfl
@[simp] theorem State.setLdp_upd : (s.setLdp v).upd = s.upd := rfl
@[simp] theorem State.setLdp_pending : (s.setLdp v).pending = s.pending := rfl
@[simp] theorem State.setLdp_rd (f : Fld) : (s.setLdp v).rd f = s.rd f := rfl
@[simp] theorem State.setLdp_flag (f : Fld) : (s.setLdp v).flag f = s.flag f := rfl
@[simp] theorem State.setLdp_rdWord (a : Nat) : (s.setLdp v).rdWord a = s.rdWord a := rfl
end

section
variable (v : Oce)
@[simp] theorem State.setOce_regs : (s.setOce v).regs = s.regs := rfl
@[simp] theorem State.setOce_mem : (s.setOce v).mem = s.mem := rfl
@[simp] theorem State.setOce_poison : (s.setOce v).poison = s.poison := rfl
@[simp] theorem State.setOce_loHalf : (s.setOce v).loHalf = s.loHalf := rfl
@[simp] theorem State.setOce_hiLatch : (s.setOce v).hiLatch = s.hiLatch := rfl
@[simp] theorem State.setOce_resp : (s.setOce v).resp = s.resp := rfl
@[simp] theorem State.setOce_free : (s.setOce v).free = s.free := rfl
@[simp] theorem State.setOce_boot : (s.setOce v).boot = s.boot := rfl
@[simp] theorem State.setOce_recorder : (s.setOce v).recorder = s.recorder := rfl
@[simp] theorem State.setOce_flt : (s.setOce v).flt = s.flt := rfl
@[simp] theorem State.setOce_rst : (s.setOce v).rst = s.rst := rfl
@[simp] theorem State.setOce_ang : (s.setOce v).ang = s.ang := rfl
@[simp] theorem State.setOce_sim : (s.setOce v).sim = s.sim := rfl
@[simp] theorem State.setOce_cs : (s.setOce v).cs = s.cs := rfl
@[simp] theorem State.setOce_rings : (s.setOce v).rings = s.rings := rfl
@[simp] theorem State.setOce_bwk : (s.setOce v).bwk = s.bwk := rfl
@[simp] theorem State.setOce_srv : (s.setOce v).srv = s.srv := rfl
@[simp] theorem State.setOce_ce : (s.setOce v).ce = s.ce := rfl
@[simp] theorem State.setOce_spn : (s.setOce v).spn = s.spn := rfl
@[simp] theorem State.setOce_ast : (s.setOce v).ast = s.ast := rfl
@[simp] theorem State.setOce_pre : (s.setOce v).pre = s.pre := rfl
@[simp] theorem State.setOce_cal : (s.setOce v).cal = s.cal := rfl
@[simp] theorem State.setOce_age : (s.setOce v).age = s.age := rfl
@[simp] theorem State.setOce_chan : (s.setOce v).chan = s.chan := rfl
@[simp] theorem State.setOce_ldp : (s.setOce v).ldp = s.ldp := rfl
@[simp] theorem State.setOce_oce : (s.setOce v).oce = v := rfl
@[simp] theorem State.setOce_cry : (s.setOce v).cry = s.cry := rfl
@[simp] theorem State.setOce_bcm : (s.setOce v).bcm = s.bcm := rfl
@[simp] theorem State.setOce_memc : (s.setOce v).memc = s.memc := rfl
@[simp] theorem State.setOce_hst : (s.setOce v).hst = s.hst := rfl
@[simp] theorem State.setOce_jnl : (s.setOce v).jnl = s.jnl := rfl
@[simp] theorem State.setOce_change : (s.setOce v).change = s.change := rfl
@[simp] theorem State.setOce_gated : (s.setOce v).gated = s.gated := rfl
@[simp] theorem State.setOce_shadow : (s.setOce v).shadow = s.shadow := rfl
@[simp] theorem State.setOce_pwr : (s.setOce v).pwr = s.pwr := rfl
@[simp] theorem State.setOce_thm : (s.setOce v).thm = s.thm := rfl
@[simp] theorem State.setOce_dom : (s.setOce v).dom = s.dom := rfl
@[simp] theorem State.setOce_upd : (s.setOce v).upd = s.upd := rfl
@[simp] theorem State.setOce_pending : (s.setOce v).pending = s.pending := rfl
@[simp] theorem State.setOce_rd (f : Fld) : (s.setOce v).rd f = s.rd f := rfl
@[simp] theorem State.setOce_flag (f : Fld) : (s.setOce v).flag f = s.flag f := rfl
@[simp] theorem State.setOce_rdWord (a : Nat) : (s.setOce v).rdWord a = s.rdWord a := rfl
end

section
variable (v : Cry)
@[simp] theorem State.setCry_regs : (s.setCry v).regs = s.regs := rfl
@[simp] theorem State.setCry_mem : (s.setCry v).mem = s.mem := rfl
@[simp] theorem State.setCry_poison : (s.setCry v).poison = s.poison := rfl
@[simp] theorem State.setCry_loHalf : (s.setCry v).loHalf = s.loHalf := rfl
@[simp] theorem State.setCry_hiLatch : (s.setCry v).hiLatch = s.hiLatch := rfl
@[simp] theorem State.setCry_resp : (s.setCry v).resp = s.resp := rfl
@[simp] theorem State.setCry_free : (s.setCry v).free = s.free := rfl
@[simp] theorem State.setCry_boot : (s.setCry v).boot = s.boot := rfl
@[simp] theorem State.setCry_recorder : (s.setCry v).recorder = s.recorder := rfl
@[simp] theorem State.setCry_flt : (s.setCry v).flt = s.flt := rfl
@[simp] theorem State.setCry_rst : (s.setCry v).rst = s.rst := rfl
@[simp] theorem State.setCry_ang : (s.setCry v).ang = s.ang := rfl
@[simp] theorem State.setCry_sim : (s.setCry v).sim = s.sim := rfl
@[simp] theorem State.setCry_cs : (s.setCry v).cs = s.cs := rfl
@[simp] theorem State.setCry_rings : (s.setCry v).rings = s.rings := rfl
@[simp] theorem State.setCry_bwk : (s.setCry v).bwk = s.bwk := rfl
@[simp] theorem State.setCry_srv : (s.setCry v).srv = s.srv := rfl
@[simp] theorem State.setCry_ce : (s.setCry v).ce = s.ce := rfl
@[simp] theorem State.setCry_spn : (s.setCry v).spn = s.spn := rfl
@[simp] theorem State.setCry_ast : (s.setCry v).ast = s.ast := rfl
@[simp] theorem State.setCry_pre : (s.setCry v).pre = s.pre := rfl
@[simp] theorem State.setCry_cal : (s.setCry v).cal = s.cal := rfl
@[simp] theorem State.setCry_age : (s.setCry v).age = s.age := rfl
@[simp] theorem State.setCry_chan : (s.setCry v).chan = s.chan := rfl
@[simp] theorem State.setCry_ldp : (s.setCry v).ldp = s.ldp := rfl
@[simp] theorem State.setCry_oce : (s.setCry v).oce = s.oce := rfl
@[simp] theorem State.setCry_cry : (s.setCry v).cry = v := rfl
@[simp] theorem State.setCry_bcm : (s.setCry v).bcm = s.bcm := rfl
@[simp] theorem State.setCry_memc : (s.setCry v).memc = s.memc := rfl
@[simp] theorem State.setCry_hst : (s.setCry v).hst = s.hst := rfl
@[simp] theorem State.setCry_jnl : (s.setCry v).jnl = s.jnl := rfl
@[simp] theorem State.setCry_change : (s.setCry v).change = s.change := rfl
@[simp] theorem State.setCry_gated : (s.setCry v).gated = s.gated := rfl
@[simp] theorem State.setCry_shadow : (s.setCry v).shadow = s.shadow := rfl
@[simp] theorem State.setCry_pwr : (s.setCry v).pwr = s.pwr := rfl
@[simp] theorem State.setCry_thm : (s.setCry v).thm = s.thm := rfl
@[simp] theorem State.setCry_dom : (s.setCry v).dom = s.dom := rfl
@[simp] theorem State.setCry_upd : (s.setCry v).upd = s.upd := rfl
@[simp] theorem State.setCry_pending : (s.setCry v).pending = s.pending := rfl
@[simp] theorem State.setCry_rd (f : Fld) : (s.setCry v).rd f = s.rd f := rfl
@[simp] theorem State.setCry_flag (f : Fld) : (s.setCry v).flag f = s.flag f := rfl
@[simp] theorem State.setCry_rdWord (a : Nat) : (s.setCry v).rdWord a = s.rdWord a := rfl
end

section
variable (v : Bcm)
@[simp] theorem State.setBcm_regs : (s.setBcm v).regs = s.regs := rfl
@[simp] theorem State.setBcm_mem : (s.setBcm v).mem = s.mem := rfl
@[simp] theorem State.setBcm_poison : (s.setBcm v).poison = s.poison := rfl
@[simp] theorem State.setBcm_loHalf : (s.setBcm v).loHalf = s.loHalf := rfl
@[simp] theorem State.setBcm_hiLatch : (s.setBcm v).hiLatch = s.hiLatch := rfl
@[simp] theorem State.setBcm_resp : (s.setBcm v).resp = s.resp := rfl
@[simp] theorem State.setBcm_free : (s.setBcm v).free = s.free := rfl
@[simp] theorem State.setBcm_boot : (s.setBcm v).boot = s.boot := rfl
@[simp] theorem State.setBcm_recorder : (s.setBcm v).recorder = s.recorder := rfl
@[simp] theorem State.setBcm_flt : (s.setBcm v).flt = s.flt := rfl
@[simp] theorem State.setBcm_rst : (s.setBcm v).rst = s.rst := rfl
@[simp] theorem State.setBcm_ang : (s.setBcm v).ang = s.ang := rfl
@[simp] theorem State.setBcm_sim : (s.setBcm v).sim = s.sim := rfl
@[simp] theorem State.setBcm_cs : (s.setBcm v).cs = s.cs := rfl
@[simp] theorem State.setBcm_rings : (s.setBcm v).rings = s.rings := rfl
@[simp] theorem State.setBcm_bwk : (s.setBcm v).bwk = s.bwk := rfl
@[simp] theorem State.setBcm_srv : (s.setBcm v).srv = s.srv := rfl
@[simp] theorem State.setBcm_ce : (s.setBcm v).ce = s.ce := rfl
@[simp] theorem State.setBcm_spn : (s.setBcm v).spn = s.spn := rfl
@[simp] theorem State.setBcm_ast : (s.setBcm v).ast = s.ast := rfl
@[simp] theorem State.setBcm_pre : (s.setBcm v).pre = s.pre := rfl
@[simp] theorem State.setBcm_cal : (s.setBcm v).cal = s.cal := rfl
@[simp] theorem State.setBcm_age : (s.setBcm v).age = s.age := rfl
@[simp] theorem State.setBcm_chan : (s.setBcm v).chan = s.chan := rfl
@[simp] theorem State.setBcm_ldp : (s.setBcm v).ldp = s.ldp := rfl
@[simp] theorem State.setBcm_oce : (s.setBcm v).oce = s.oce := rfl
@[simp] theorem State.setBcm_cry : (s.setBcm v).cry = s.cry := rfl
@[simp] theorem State.setBcm_bcm : (s.setBcm v).bcm = v := rfl
@[simp] theorem State.setBcm_memc : (s.setBcm v).memc = s.memc := rfl
@[simp] theorem State.setBcm_hst : (s.setBcm v).hst = s.hst := rfl
@[simp] theorem State.setBcm_jnl : (s.setBcm v).jnl = s.jnl := rfl
@[simp] theorem State.setBcm_change : (s.setBcm v).change = s.change := rfl
@[simp] theorem State.setBcm_gated : (s.setBcm v).gated = s.gated := rfl
@[simp] theorem State.setBcm_shadow : (s.setBcm v).shadow = s.shadow := rfl
@[simp] theorem State.setBcm_pwr : (s.setBcm v).pwr = s.pwr := rfl
@[simp] theorem State.setBcm_thm : (s.setBcm v).thm = s.thm := rfl
@[simp] theorem State.setBcm_dom : (s.setBcm v).dom = s.dom := rfl
@[simp] theorem State.setBcm_upd : (s.setBcm v).upd = s.upd := rfl
@[simp] theorem State.setBcm_pending : (s.setBcm v).pending = s.pending := rfl
@[simp] theorem State.setBcm_rd (f : Fld) : (s.setBcm v).rd f = s.rd f := rfl
@[simp] theorem State.setBcm_flag (f : Fld) : (s.setBcm v).flag f = s.flag f := rfl
@[simp] theorem State.setBcm_rdWord (a : Nat) : (s.setBcm v).rdWord a = s.rdWord a := rfl
end

section
variable (v : Mem)
@[simp] theorem State.setMemc_regs : (s.setMemc v).regs = s.regs := rfl
@[simp] theorem State.setMemc_mem : (s.setMemc v).mem = s.mem := rfl
@[simp] theorem State.setMemc_poison : (s.setMemc v).poison = s.poison := rfl
@[simp] theorem State.setMemc_loHalf : (s.setMemc v).loHalf = s.loHalf := rfl
@[simp] theorem State.setMemc_hiLatch : (s.setMemc v).hiLatch = s.hiLatch := rfl
@[simp] theorem State.setMemc_resp : (s.setMemc v).resp = s.resp := rfl
@[simp] theorem State.setMemc_free : (s.setMemc v).free = s.free := rfl
@[simp] theorem State.setMemc_boot : (s.setMemc v).boot = s.boot := rfl
@[simp] theorem State.setMemc_recorder : (s.setMemc v).recorder = s.recorder := rfl
@[simp] theorem State.setMemc_flt : (s.setMemc v).flt = s.flt := rfl
@[simp] theorem State.setMemc_rst : (s.setMemc v).rst = s.rst := rfl
@[simp] theorem State.setMemc_ang : (s.setMemc v).ang = s.ang := rfl
@[simp] theorem State.setMemc_sim : (s.setMemc v).sim = s.sim := rfl
@[simp] theorem State.setMemc_cs : (s.setMemc v).cs = s.cs := rfl
@[simp] theorem State.setMemc_rings : (s.setMemc v).rings = s.rings := rfl
@[simp] theorem State.setMemc_bwk : (s.setMemc v).bwk = s.bwk := rfl
@[simp] theorem State.setMemc_srv : (s.setMemc v).srv = s.srv := rfl
@[simp] theorem State.setMemc_ce : (s.setMemc v).ce = s.ce := rfl
@[simp] theorem State.setMemc_spn : (s.setMemc v).spn = s.spn := rfl
@[simp] theorem State.setMemc_ast : (s.setMemc v).ast = s.ast := rfl
@[simp] theorem State.setMemc_pre : (s.setMemc v).pre = s.pre := rfl
@[simp] theorem State.setMemc_cal : (s.setMemc v).cal = s.cal := rfl
@[simp] theorem State.setMemc_age : (s.setMemc v).age = s.age := rfl
@[simp] theorem State.setMemc_chan : (s.setMemc v).chan = s.chan := rfl
@[simp] theorem State.setMemc_ldp : (s.setMemc v).ldp = s.ldp := rfl
@[simp] theorem State.setMemc_oce : (s.setMemc v).oce = s.oce := rfl
@[simp] theorem State.setMemc_cry : (s.setMemc v).cry = s.cry := rfl
@[simp] theorem State.setMemc_bcm : (s.setMemc v).bcm = s.bcm := rfl
@[simp] theorem State.setMemc_memc : (s.setMemc v).memc = v := rfl
@[simp] theorem State.setMemc_hst : (s.setMemc v).hst = s.hst := rfl
@[simp] theorem State.setMemc_jnl : (s.setMemc v).jnl = s.jnl := rfl
@[simp] theorem State.setMemc_change : (s.setMemc v).change = s.change := rfl
@[simp] theorem State.setMemc_gated : (s.setMemc v).gated = s.gated := rfl
@[simp] theorem State.setMemc_shadow : (s.setMemc v).shadow = s.shadow := rfl
@[simp] theorem State.setMemc_pwr : (s.setMemc v).pwr = s.pwr := rfl
@[simp] theorem State.setMemc_thm : (s.setMemc v).thm = s.thm := rfl
@[simp] theorem State.setMemc_dom : (s.setMemc v).dom = s.dom := rfl
@[simp] theorem State.setMemc_upd : (s.setMemc v).upd = s.upd := rfl
@[simp] theorem State.setMemc_pending : (s.setMemc v).pending = s.pending := rfl
@[simp] theorem State.setMemc_rd (f : Fld) : (s.setMemc v).rd f = s.rd f := rfl
@[simp] theorem State.setMemc_flag (f : Fld) : (s.setMemc v).flag f = s.flag f := rfl
@[simp] theorem State.setMemc_rdWord (a : Nat) : (s.setMemc v).rdWord a = s.rdWord a := rfl
end

section
variable (v : Hst)
@[simp] theorem State.setHst_regs : (s.setHst v).regs = s.regs := rfl
@[simp] theorem State.setHst_mem : (s.setHst v).mem = s.mem := rfl
@[simp] theorem State.setHst_poison : (s.setHst v).poison = s.poison := rfl
@[simp] theorem State.setHst_loHalf : (s.setHst v).loHalf = s.loHalf := rfl
@[simp] theorem State.setHst_hiLatch : (s.setHst v).hiLatch = s.hiLatch := rfl
@[simp] theorem State.setHst_resp : (s.setHst v).resp = s.resp := rfl
@[simp] theorem State.setHst_free : (s.setHst v).free = s.free := rfl
@[simp] theorem State.setHst_boot : (s.setHst v).boot = s.boot := rfl
@[simp] theorem State.setHst_recorder : (s.setHst v).recorder = s.recorder := rfl
@[simp] theorem State.setHst_flt : (s.setHst v).flt = s.flt := rfl
@[simp] theorem State.setHst_rst : (s.setHst v).rst = s.rst := rfl
@[simp] theorem State.setHst_ang : (s.setHst v).ang = s.ang := rfl
@[simp] theorem State.setHst_sim : (s.setHst v).sim = s.sim := rfl
@[simp] theorem State.setHst_cs : (s.setHst v).cs = s.cs := rfl
@[simp] theorem State.setHst_rings : (s.setHst v).rings = s.rings := rfl
@[simp] theorem State.setHst_bwk : (s.setHst v).bwk = s.bwk := rfl
@[simp] theorem State.setHst_srv : (s.setHst v).srv = s.srv := rfl
@[simp] theorem State.setHst_ce : (s.setHst v).ce = s.ce := rfl
@[simp] theorem State.setHst_spn : (s.setHst v).spn = s.spn := rfl
@[simp] theorem State.setHst_ast : (s.setHst v).ast = s.ast := rfl
@[simp] theorem State.setHst_pre : (s.setHst v).pre = s.pre := rfl
@[simp] theorem State.setHst_cal : (s.setHst v).cal = s.cal := rfl
@[simp] theorem State.setHst_age : (s.setHst v).age = s.age := rfl
@[simp] theorem State.setHst_chan : (s.setHst v).chan = s.chan := rfl
@[simp] theorem State.setHst_ldp : (s.setHst v).ldp = s.ldp := rfl
@[simp] theorem State.setHst_oce : (s.setHst v).oce = s.oce := rfl
@[simp] theorem State.setHst_cry : (s.setHst v).cry = s.cry := rfl
@[simp] theorem State.setHst_bcm : (s.setHst v).bcm = s.bcm := rfl
@[simp] theorem State.setHst_memc : (s.setHst v).memc = s.memc := rfl
@[simp] theorem State.setHst_hst : (s.setHst v).hst = v := rfl
@[simp] theorem State.setHst_jnl : (s.setHst v).jnl = s.jnl := rfl
@[simp] theorem State.setHst_change : (s.setHst v).change = s.change := rfl
@[simp] theorem State.setHst_gated : (s.setHst v).gated = s.gated := rfl
@[simp] theorem State.setHst_shadow : (s.setHst v).shadow = s.shadow := rfl
@[simp] theorem State.setHst_pwr : (s.setHst v).pwr = s.pwr := rfl
@[simp] theorem State.setHst_thm : (s.setHst v).thm = s.thm := rfl
@[simp] theorem State.setHst_dom : (s.setHst v).dom = s.dom := rfl
@[simp] theorem State.setHst_upd : (s.setHst v).upd = s.upd := rfl
@[simp] theorem State.setHst_pending : (s.setHst v).pending = s.pending := rfl
@[simp] theorem State.setHst_rd (f : Fld) : (s.setHst v).rd f = s.rd f := rfl
@[simp] theorem State.setHst_flag (f : Fld) : (s.setHst v).flag f = s.flag f := rfl
@[simp] theorem State.setHst_rdWord (a : Nat) : (s.setHst v).rdWord a = s.rdWord a := rfl
end

section
variable (v : Jnl)
@[simp] theorem State.setJnl_regs : (s.setJnl v).regs = s.regs := rfl
@[simp] theorem State.setJnl_mem : (s.setJnl v).mem = s.mem := rfl
@[simp] theorem State.setJnl_poison : (s.setJnl v).poison = s.poison := rfl
@[simp] theorem State.setJnl_loHalf : (s.setJnl v).loHalf = s.loHalf := rfl
@[simp] theorem State.setJnl_hiLatch : (s.setJnl v).hiLatch = s.hiLatch := rfl
@[simp] theorem State.setJnl_resp : (s.setJnl v).resp = s.resp := rfl
@[simp] theorem State.setJnl_free : (s.setJnl v).free = s.free := rfl
@[simp] theorem State.setJnl_boot : (s.setJnl v).boot = s.boot := rfl
@[simp] theorem State.setJnl_recorder : (s.setJnl v).recorder = s.recorder := rfl
@[simp] theorem State.setJnl_flt : (s.setJnl v).flt = s.flt := rfl
@[simp] theorem State.setJnl_rst : (s.setJnl v).rst = s.rst := rfl
@[simp] theorem State.setJnl_ang : (s.setJnl v).ang = s.ang := rfl
@[simp] theorem State.setJnl_sim : (s.setJnl v).sim = s.sim := rfl
@[simp] theorem State.setJnl_cs : (s.setJnl v).cs = s.cs := rfl
@[simp] theorem State.setJnl_rings : (s.setJnl v).rings = s.rings := rfl
@[simp] theorem State.setJnl_bwk : (s.setJnl v).bwk = s.bwk := rfl
@[simp] theorem State.setJnl_srv : (s.setJnl v).srv = s.srv := rfl
@[simp] theorem State.setJnl_ce : (s.setJnl v).ce = s.ce := rfl
@[simp] theorem State.setJnl_spn : (s.setJnl v).spn = s.spn := rfl
@[simp] theorem State.setJnl_ast : (s.setJnl v).ast = s.ast := rfl
@[simp] theorem State.setJnl_pre : (s.setJnl v).pre = s.pre := rfl
@[simp] theorem State.setJnl_cal : (s.setJnl v).cal = s.cal := rfl
@[simp] theorem State.setJnl_age : (s.setJnl v).age = s.age := rfl
@[simp] theorem State.setJnl_chan : (s.setJnl v).chan = s.chan := rfl
@[simp] theorem State.setJnl_ldp : (s.setJnl v).ldp = s.ldp := rfl
@[simp] theorem State.setJnl_oce : (s.setJnl v).oce = s.oce := rfl
@[simp] theorem State.setJnl_cry : (s.setJnl v).cry = s.cry := rfl
@[simp] theorem State.setJnl_bcm : (s.setJnl v).bcm = s.bcm := rfl
@[simp] theorem State.setJnl_memc : (s.setJnl v).memc = s.memc := rfl
@[simp] theorem State.setJnl_hst : (s.setJnl v).hst = s.hst := rfl
@[simp] theorem State.setJnl_jnl : (s.setJnl v).jnl = v := rfl
@[simp] theorem State.setJnl_change : (s.setJnl v).change = s.change := rfl
@[simp] theorem State.setJnl_gated : (s.setJnl v).gated = s.gated := rfl
@[simp] theorem State.setJnl_shadow : (s.setJnl v).shadow = s.shadow := rfl
@[simp] theorem State.setJnl_pwr : (s.setJnl v).pwr = s.pwr := rfl
@[simp] theorem State.setJnl_thm : (s.setJnl v).thm = s.thm := rfl
@[simp] theorem State.setJnl_dom : (s.setJnl v).dom = s.dom := rfl
@[simp] theorem State.setJnl_upd : (s.setJnl v).upd = s.upd := rfl
@[simp] theorem State.setJnl_pending : (s.setJnl v).pending = s.pending := rfl
@[simp] theorem State.setJnl_rd (f : Fld) : (s.setJnl v).rd f = s.rd f := rfl
@[simp] theorem State.setJnl_flag (f : Fld) : (s.setJnl v).flag f = s.flag f := rfl
@[simp] theorem State.setJnl_rdWord (a : Nat) : (s.setJnl v).rdWord a = s.rdWord a := rfl
end

section
variable (v : Option ModeChange)
@[simp] theorem State.setChange_regs : (s.setChange v).regs = s.regs := rfl
@[simp] theorem State.setChange_mem : (s.setChange v).mem = s.mem := rfl
@[simp] theorem State.setChange_poison : (s.setChange v).poison = s.poison := rfl
@[simp] theorem State.setChange_loHalf : (s.setChange v).loHalf = s.loHalf := rfl
@[simp] theorem State.setChange_hiLatch : (s.setChange v).hiLatch = s.hiLatch := rfl
@[simp] theorem State.setChange_resp : (s.setChange v).resp = s.resp := rfl
@[simp] theorem State.setChange_free : (s.setChange v).free = s.free := rfl
@[simp] theorem State.setChange_boot : (s.setChange v).boot = s.boot := rfl
@[simp] theorem State.setChange_recorder : (s.setChange v).recorder = s.recorder := rfl
@[simp] theorem State.setChange_flt : (s.setChange v).flt = s.flt := rfl
@[simp] theorem State.setChange_rst : (s.setChange v).rst = s.rst := rfl
@[simp] theorem State.setChange_ang : (s.setChange v).ang = s.ang := rfl
@[simp] theorem State.setChange_sim : (s.setChange v).sim = s.sim := rfl
@[simp] theorem State.setChange_cs : (s.setChange v).cs = s.cs := rfl
@[simp] theorem State.setChange_rings : (s.setChange v).rings = s.rings := rfl
@[simp] theorem State.setChange_bwk : (s.setChange v).bwk = s.bwk := rfl
@[simp] theorem State.setChange_srv : (s.setChange v).srv = s.srv := rfl
@[simp] theorem State.setChange_ce : (s.setChange v).ce = s.ce := rfl
@[simp] theorem State.setChange_spn : (s.setChange v).spn = s.spn := rfl
@[simp] theorem State.setChange_ast : (s.setChange v).ast = s.ast := rfl
@[simp] theorem State.setChange_pre : (s.setChange v).pre = s.pre := rfl
@[simp] theorem State.setChange_cal : (s.setChange v).cal = s.cal := rfl
@[simp] theorem State.setChange_age : (s.setChange v).age = s.age := rfl
@[simp] theorem State.setChange_chan : (s.setChange v).chan = s.chan := rfl
@[simp] theorem State.setChange_ldp : (s.setChange v).ldp = s.ldp := rfl
@[simp] theorem State.setChange_oce : (s.setChange v).oce = s.oce := rfl
@[simp] theorem State.setChange_cry : (s.setChange v).cry = s.cry := rfl
@[simp] theorem State.setChange_bcm : (s.setChange v).bcm = s.bcm := rfl
@[simp] theorem State.setChange_memc : (s.setChange v).memc = s.memc := rfl
@[simp] theorem State.setChange_hst : (s.setChange v).hst = s.hst := rfl
@[simp] theorem State.setChange_jnl : (s.setChange v).jnl = s.jnl := rfl
@[simp] theorem State.setChange_change : (s.setChange v).change = v := rfl
@[simp] theorem State.setChange_gated : (s.setChange v).gated = s.gated := rfl
@[simp] theorem State.setChange_shadow : (s.setChange v).shadow = s.shadow := rfl
@[simp] theorem State.setChange_pwr : (s.setChange v).pwr = s.pwr := rfl
@[simp] theorem State.setChange_thm : (s.setChange v).thm = s.thm := rfl
@[simp] theorem State.setChange_dom : (s.setChange v).dom = s.dom := rfl
@[simp] theorem State.setChange_upd : (s.setChange v).upd = s.upd := rfl
@[simp] theorem State.setChange_pending : (s.setChange v).pending = s.pending := rfl
@[simp] theorem State.setChange_rd (f : Fld) : (s.setChange v).rd f = s.rd f := rfl
@[simp] theorem State.setChange_flag (f : Fld) : (s.setChange v).flag f = s.flag f := rfl
@[simp] theorem State.setChange_rdWord (a : Nat) : (s.setChange v).rdWord a = s.rdWord a := rfl
end

section
variable (v : List Nat)
@[simp] theorem State.setGated_regs : (s.setGated v).regs = s.regs := rfl
@[simp] theorem State.setGated_mem : (s.setGated v).mem = s.mem := rfl
@[simp] theorem State.setGated_poison : (s.setGated v).poison = s.poison := rfl
@[simp] theorem State.setGated_loHalf : (s.setGated v).loHalf = s.loHalf := rfl
@[simp] theorem State.setGated_hiLatch : (s.setGated v).hiLatch = s.hiLatch := rfl
@[simp] theorem State.setGated_resp : (s.setGated v).resp = s.resp := rfl
@[simp] theorem State.setGated_free : (s.setGated v).free = s.free := rfl
@[simp] theorem State.setGated_boot : (s.setGated v).boot = s.boot := rfl
@[simp] theorem State.setGated_recorder : (s.setGated v).recorder = s.recorder := rfl
@[simp] theorem State.setGated_flt : (s.setGated v).flt = s.flt := rfl
@[simp] theorem State.setGated_rst : (s.setGated v).rst = s.rst := rfl
@[simp] theorem State.setGated_ang : (s.setGated v).ang = s.ang := rfl
@[simp] theorem State.setGated_sim : (s.setGated v).sim = s.sim := rfl
@[simp] theorem State.setGated_cs : (s.setGated v).cs = s.cs := rfl
@[simp] theorem State.setGated_rings : (s.setGated v).rings = s.rings := rfl
@[simp] theorem State.setGated_bwk : (s.setGated v).bwk = s.bwk := rfl
@[simp] theorem State.setGated_srv : (s.setGated v).srv = s.srv := rfl
@[simp] theorem State.setGated_ce : (s.setGated v).ce = s.ce := rfl
@[simp] theorem State.setGated_spn : (s.setGated v).spn = s.spn := rfl
@[simp] theorem State.setGated_ast : (s.setGated v).ast = s.ast := rfl
@[simp] theorem State.setGated_pre : (s.setGated v).pre = s.pre := rfl
@[simp] theorem State.setGated_cal : (s.setGated v).cal = s.cal := rfl
@[simp] theorem State.setGated_age : (s.setGated v).age = s.age := rfl
@[simp] theorem State.setGated_chan : (s.setGated v).chan = s.chan := rfl
@[simp] theorem State.setGated_ldp : (s.setGated v).ldp = s.ldp := rfl
@[simp] theorem State.setGated_oce : (s.setGated v).oce = s.oce := rfl
@[simp] theorem State.setGated_cry : (s.setGated v).cry = s.cry := rfl
@[simp] theorem State.setGated_bcm : (s.setGated v).bcm = s.bcm := rfl
@[simp] theorem State.setGated_memc : (s.setGated v).memc = s.memc := rfl
@[simp] theorem State.setGated_hst : (s.setGated v).hst = s.hst := rfl
@[simp] theorem State.setGated_jnl : (s.setGated v).jnl = s.jnl := rfl
@[simp] theorem State.setGated_change : (s.setGated v).change = s.change := rfl
@[simp] theorem State.setGated_gated : (s.setGated v).gated = v := rfl
@[simp] theorem State.setGated_shadow : (s.setGated v).shadow = s.shadow := rfl
@[simp] theorem State.setGated_pwr : (s.setGated v).pwr = s.pwr := rfl
@[simp] theorem State.setGated_thm : (s.setGated v).thm = s.thm := rfl
@[simp] theorem State.setGated_dom : (s.setGated v).dom = s.dom := rfl
@[simp] theorem State.setGated_upd : (s.setGated v).upd = s.upd := rfl
@[simp] theorem State.setGated_pending : (s.setGated v).pending = s.pending := rfl
@[simp] theorem State.setGated_rd (f : Fld) : (s.setGated v).rd f = s.rd f := rfl
@[simp] theorem State.setGated_flag (f : Fld) : (s.setGated v).flag f = s.flag f := rfl
@[simp] theorem State.setGated_rdWord (a : Nat) : (s.setGated v).rdWord a = s.rdWord a := rfl
end

section
variable (v : Store Word)
@[simp] theorem State.setShadow_regs : (s.setShadow v).regs = s.regs := rfl
@[simp] theorem State.setShadow_mem : (s.setShadow v).mem = s.mem := rfl
@[simp] theorem State.setShadow_poison : (s.setShadow v).poison = s.poison := rfl
@[simp] theorem State.setShadow_loHalf : (s.setShadow v).loHalf = s.loHalf := rfl
@[simp] theorem State.setShadow_hiLatch : (s.setShadow v).hiLatch = s.hiLatch := rfl
@[simp] theorem State.setShadow_resp : (s.setShadow v).resp = s.resp := rfl
@[simp] theorem State.setShadow_free : (s.setShadow v).free = s.free := rfl
@[simp] theorem State.setShadow_boot : (s.setShadow v).boot = s.boot := rfl
@[simp] theorem State.setShadow_recorder : (s.setShadow v).recorder = s.recorder := rfl
@[simp] theorem State.setShadow_flt : (s.setShadow v).flt = s.flt := rfl
@[simp] theorem State.setShadow_rst : (s.setShadow v).rst = s.rst := rfl
@[simp] theorem State.setShadow_ang : (s.setShadow v).ang = s.ang := rfl
@[simp] theorem State.setShadow_sim : (s.setShadow v).sim = s.sim := rfl
@[simp] theorem State.setShadow_cs : (s.setShadow v).cs = s.cs := rfl
@[simp] theorem State.setShadow_rings : (s.setShadow v).rings = s.rings := rfl
@[simp] theorem State.setShadow_bwk : (s.setShadow v).bwk = s.bwk := rfl
@[simp] theorem State.setShadow_srv : (s.setShadow v).srv = s.srv := rfl
@[simp] theorem State.setShadow_ce : (s.setShadow v).ce = s.ce := rfl
@[simp] theorem State.setShadow_spn : (s.setShadow v).spn = s.spn := rfl
@[simp] theorem State.setShadow_ast : (s.setShadow v).ast = s.ast := rfl
@[simp] theorem State.setShadow_pre : (s.setShadow v).pre = s.pre := rfl
@[simp] theorem State.setShadow_cal : (s.setShadow v).cal = s.cal := rfl
@[simp] theorem State.setShadow_age : (s.setShadow v).age = s.age := rfl
@[simp] theorem State.setShadow_chan : (s.setShadow v).chan = s.chan := rfl
@[simp] theorem State.setShadow_ldp : (s.setShadow v).ldp = s.ldp := rfl
@[simp] theorem State.setShadow_oce : (s.setShadow v).oce = s.oce := rfl
@[simp] theorem State.setShadow_cry : (s.setShadow v).cry = s.cry := rfl
@[simp] theorem State.setShadow_bcm : (s.setShadow v).bcm = s.bcm := rfl
@[simp] theorem State.setShadow_memc : (s.setShadow v).memc = s.memc := rfl
@[simp] theorem State.setShadow_hst : (s.setShadow v).hst = s.hst := rfl
@[simp] theorem State.setShadow_jnl : (s.setShadow v).jnl = s.jnl := rfl
@[simp] theorem State.setShadow_change : (s.setShadow v).change = s.change := rfl
@[simp] theorem State.setShadow_gated : (s.setShadow v).gated = s.gated := rfl
@[simp] theorem State.setShadow_shadow : (s.setShadow v).shadow = v := rfl
@[simp] theorem State.setShadow_pwr : (s.setShadow v).pwr = s.pwr := rfl
@[simp] theorem State.setShadow_thm : (s.setShadow v).thm = s.thm := rfl
@[simp] theorem State.setShadow_dom : (s.setShadow v).dom = s.dom := rfl
@[simp] theorem State.setShadow_upd : (s.setShadow v).upd = s.upd := rfl
@[simp] theorem State.setShadow_pending : (s.setShadow v).pending = s.pending := rfl
@[simp] theorem State.setShadow_rd (f : Fld) : (s.setShadow v).rd f = s.rd f := rfl
@[simp] theorem State.setShadow_flag (f : Fld) : (s.setShadow v).flag f = s.flag f := rfl
@[simp] theorem State.setShadow_rdWord (a : Nat) : (s.setShadow v).rdWord a = s.rdWord a := rfl
end

section
variable (v : Pwr)
@[simp] theorem State.setPwr_regs : (s.setPwr v).regs = s.regs := rfl
@[simp] theorem State.setPwr_mem : (s.setPwr v).mem = s.mem := rfl
@[simp] theorem State.setPwr_poison : (s.setPwr v).poison = s.poison := rfl
@[simp] theorem State.setPwr_loHalf : (s.setPwr v).loHalf = s.loHalf := rfl
@[simp] theorem State.setPwr_hiLatch : (s.setPwr v).hiLatch = s.hiLatch := rfl
@[simp] theorem State.setPwr_resp : (s.setPwr v).resp = s.resp := rfl
@[simp] theorem State.setPwr_free : (s.setPwr v).free = s.free := rfl
@[simp] theorem State.setPwr_boot : (s.setPwr v).boot = s.boot := rfl
@[simp] theorem State.setPwr_recorder : (s.setPwr v).recorder = s.recorder := rfl
@[simp] theorem State.setPwr_flt : (s.setPwr v).flt = s.flt := rfl
@[simp] theorem State.setPwr_rst : (s.setPwr v).rst = s.rst := rfl
@[simp] theorem State.setPwr_ang : (s.setPwr v).ang = s.ang := rfl
@[simp] theorem State.setPwr_sim : (s.setPwr v).sim = s.sim := rfl
@[simp] theorem State.setPwr_cs : (s.setPwr v).cs = s.cs := rfl
@[simp] theorem State.setPwr_rings : (s.setPwr v).rings = s.rings := rfl
@[simp] theorem State.setPwr_bwk : (s.setPwr v).bwk = s.bwk := rfl
@[simp] theorem State.setPwr_srv : (s.setPwr v).srv = s.srv := rfl
@[simp] theorem State.setPwr_ce : (s.setPwr v).ce = s.ce := rfl
@[simp] theorem State.setPwr_spn : (s.setPwr v).spn = s.spn := rfl
@[simp] theorem State.setPwr_ast : (s.setPwr v).ast = s.ast := rfl
@[simp] theorem State.setPwr_pre : (s.setPwr v).pre = s.pre := rfl
@[simp] theorem State.setPwr_cal : (s.setPwr v).cal = s.cal := rfl
@[simp] theorem State.setPwr_age : (s.setPwr v).age = s.age := rfl
@[simp] theorem State.setPwr_chan : (s.setPwr v).chan = s.chan := rfl
@[simp] theorem State.setPwr_ldp : (s.setPwr v).ldp = s.ldp := rfl
@[simp] theorem State.setPwr_oce : (s.setPwr v).oce = s.oce := rfl
@[simp] theorem State.setPwr_cry : (s.setPwr v).cry = s.cry := rfl
@[simp] theorem State.setPwr_bcm : (s.setPwr v).bcm = s.bcm := rfl
@[simp] theorem State.setPwr_memc : (s.setPwr v).memc = s.memc := rfl
@[simp] theorem State.setPwr_hst : (s.setPwr v).hst = s.hst := rfl
@[simp] theorem State.setPwr_jnl : (s.setPwr v).jnl = s.jnl := rfl
@[simp] theorem State.setPwr_change : (s.setPwr v).change = s.change := rfl
@[simp] theorem State.setPwr_gated : (s.setPwr v).gated = s.gated := rfl
@[simp] theorem State.setPwr_shadow : (s.setPwr v).shadow = s.shadow := rfl
@[simp] theorem State.setPwr_pwr : (s.setPwr v).pwr = v := rfl
@[simp] theorem State.setPwr_thm : (s.setPwr v).thm = s.thm := rfl
@[simp] theorem State.setPwr_dom : (s.setPwr v).dom = s.dom := rfl
@[simp] theorem State.setPwr_upd : (s.setPwr v).upd = s.upd := rfl
@[simp] theorem State.setPwr_pending : (s.setPwr v).pending = s.pending := rfl
@[simp] theorem State.setPwr_rd (f : Fld) : (s.setPwr v).rd f = s.rd f := rfl
@[simp] theorem State.setPwr_flag (f : Fld) : (s.setPwr v).flag f = s.flag f := rfl
@[simp] theorem State.setPwr_rdWord (a : Nat) : (s.setPwr v).rdWord a = s.rdWord a := rfl
end

section
variable (v : Thm)
@[simp] theorem State.setThm_regs : (s.setThm v).regs = s.regs := rfl
@[simp] theorem State.setThm_mem : (s.setThm v).mem = s.mem := rfl
@[simp] theorem State.setThm_poison : (s.setThm v).poison = s.poison := rfl
@[simp] theorem State.setThm_loHalf : (s.setThm v).loHalf = s.loHalf := rfl
@[simp] theorem State.setThm_hiLatch : (s.setThm v).hiLatch = s.hiLatch := rfl
@[simp] theorem State.setThm_resp : (s.setThm v).resp = s.resp := rfl
@[simp] theorem State.setThm_free : (s.setThm v).free = s.free := rfl
@[simp] theorem State.setThm_boot : (s.setThm v).boot = s.boot := rfl
@[simp] theorem State.setThm_recorder : (s.setThm v).recorder = s.recorder := rfl
@[simp] theorem State.setThm_flt : (s.setThm v).flt = s.flt := rfl
@[simp] theorem State.setThm_rst : (s.setThm v).rst = s.rst := rfl
@[simp] theorem State.setThm_ang : (s.setThm v).ang = s.ang := rfl
@[simp] theorem State.setThm_sim : (s.setThm v).sim = s.sim := rfl
@[simp] theorem State.setThm_cs : (s.setThm v).cs = s.cs := rfl
@[simp] theorem State.setThm_rings : (s.setThm v).rings = s.rings := rfl
@[simp] theorem State.setThm_bwk : (s.setThm v).bwk = s.bwk := rfl
@[simp] theorem State.setThm_srv : (s.setThm v).srv = s.srv := rfl
@[simp] theorem State.setThm_ce : (s.setThm v).ce = s.ce := rfl
@[simp] theorem State.setThm_spn : (s.setThm v).spn = s.spn := rfl
@[simp] theorem State.setThm_ast : (s.setThm v).ast = s.ast := rfl
@[simp] theorem State.setThm_pre : (s.setThm v).pre = s.pre := rfl
@[simp] theorem State.setThm_cal : (s.setThm v).cal = s.cal := rfl
@[simp] theorem State.setThm_age : (s.setThm v).age = s.age := rfl
@[simp] theorem State.setThm_chan : (s.setThm v).chan = s.chan := rfl
@[simp] theorem State.setThm_ldp : (s.setThm v).ldp = s.ldp := rfl
@[simp] theorem State.setThm_oce : (s.setThm v).oce = s.oce := rfl
@[simp] theorem State.setThm_cry : (s.setThm v).cry = s.cry := rfl
@[simp] theorem State.setThm_bcm : (s.setThm v).bcm = s.bcm := rfl
@[simp] theorem State.setThm_memc : (s.setThm v).memc = s.memc := rfl
@[simp] theorem State.setThm_hst : (s.setThm v).hst = s.hst := rfl
@[simp] theorem State.setThm_jnl : (s.setThm v).jnl = s.jnl := rfl
@[simp] theorem State.setThm_change : (s.setThm v).change = s.change := rfl
@[simp] theorem State.setThm_gated : (s.setThm v).gated = s.gated := rfl
@[simp] theorem State.setThm_shadow : (s.setThm v).shadow = s.shadow := rfl
@[simp] theorem State.setThm_pwr : (s.setThm v).pwr = s.pwr := rfl
@[simp] theorem State.setThm_thm : (s.setThm v).thm = v := rfl
@[simp] theorem State.setThm_dom : (s.setThm v).dom = s.dom := rfl
@[simp] theorem State.setThm_upd : (s.setThm v).upd = s.upd := rfl
@[simp] theorem State.setThm_pending : (s.setThm v).pending = s.pending := rfl
@[simp] theorem State.setThm_rd (f : Fld) : (s.setThm v).rd f = s.rd f := rfl
@[simp] theorem State.setThm_flag (f : Fld) : (s.setThm v).flag f = s.flag f := rfl
@[simp] theorem State.setThm_rdWord (a : Nat) : (s.setThm v).rdWord a = s.rdWord a := rfl
end

section
variable (v : Dom)
@[simp] theorem State.setDom_regs : (s.setDom v).regs = s.regs := rfl
@[simp] theorem State.setDom_mem : (s.setDom v).mem = s.mem := rfl
@[simp] theorem State.setDom_poison : (s.setDom v).poison = s.poison := rfl
@[simp] theorem State.setDom_loHalf : (s.setDom v).loHalf = s.loHalf := rfl
@[simp] theorem State.setDom_hiLatch : (s.setDom v).hiLatch = s.hiLatch := rfl
@[simp] theorem State.setDom_resp : (s.setDom v).resp = s.resp := rfl
@[simp] theorem State.setDom_free : (s.setDom v).free = s.free := rfl
@[simp] theorem State.setDom_boot : (s.setDom v).boot = s.boot := rfl
@[simp] theorem State.setDom_recorder : (s.setDom v).recorder = s.recorder := rfl
@[simp] theorem State.setDom_flt : (s.setDom v).flt = s.flt := rfl
@[simp] theorem State.setDom_rst : (s.setDom v).rst = s.rst := rfl
@[simp] theorem State.setDom_ang : (s.setDom v).ang = s.ang := rfl
@[simp] theorem State.setDom_sim : (s.setDom v).sim = s.sim := rfl
@[simp] theorem State.setDom_cs : (s.setDom v).cs = s.cs := rfl
@[simp] theorem State.setDom_rings : (s.setDom v).rings = s.rings := rfl
@[simp] theorem State.setDom_bwk : (s.setDom v).bwk = s.bwk := rfl
@[simp] theorem State.setDom_srv : (s.setDom v).srv = s.srv := rfl
@[simp] theorem State.setDom_ce : (s.setDom v).ce = s.ce := rfl
@[simp] theorem State.setDom_spn : (s.setDom v).spn = s.spn := rfl
@[simp] theorem State.setDom_ast : (s.setDom v).ast = s.ast := rfl
@[simp] theorem State.setDom_pre : (s.setDom v).pre = s.pre := rfl
@[simp] theorem State.setDom_cal : (s.setDom v).cal = s.cal := rfl
@[simp] theorem State.setDom_age : (s.setDom v).age = s.age := rfl
@[simp] theorem State.setDom_chan : (s.setDom v).chan = s.chan := rfl
@[simp] theorem State.setDom_ldp : (s.setDom v).ldp = s.ldp := rfl
@[simp] theorem State.setDom_oce : (s.setDom v).oce = s.oce := rfl
@[simp] theorem State.setDom_cry : (s.setDom v).cry = s.cry := rfl
@[simp] theorem State.setDom_bcm : (s.setDom v).bcm = s.bcm := rfl
@[simp] theorem State.setDom_memc : (s.setDom v).memc = s.memc := rfl
@[simp] theorem State.setDom_hst : (s.setDom v).hst = s.hst := rfl
@[simp] theorem State.setDom_jnl : (s.setDom v).jnl = s.jnl := rfl
@[simp] theorem State.setDom_change : (s.setDom v).change = s.change := rfl
@[simp] theorem State.setDom_gated : (s.setDom v).gated = s.gated := rfl
@[simp] theorem State.setDom_shadow : (s.setDom v).shadow = s.shadow := rfl
@[simp] theorem State.setDom_pwr : (s.setDom v).pwr = s.pwr := rfl
@[simp] theorem State.setDom_thm : (s.setDom v).thm = s.thm := rfl
@[simp] theorem State.setDom_dom : (s.setDom v).dom = v := rfl
@[simp] theorem State.setDom_upd : (s.setDom v).upd = s.upd := rfl
@[simp] theorem State.setDom_pending : (s.setDom v).pending = s.pending := rfl
@[simp] theorem State.setDom_rd (f : Fld) : (s.setDom v).rd f = s.rd f := rfl
@[simp] theorem State.setDom_flag (f : Fld) : (s.setDom v).flag f = s.flag f := rfl
@[simp] theorem State.setDom_rdWord (a : Nat) : (s.setDom v).rdWord a = s.rdWord a := rfl
end

section
variable (v : Upd)
@[simp] theorem State.setUpd_regs : (s.setUpd v).regs = s.regs := rfl
@[simp] theorem State.setUpd_mem : (s.setUpd v).mem = s.mem := rfl
@[simp] theorem State.setUpd_poison : (s.setUpd v).poison = s.poison := rfl
@[simp] theorem State.setUpd_loHalf : (s.setUpd v).loHalf = s.loHalf := rfl
@[simp] theorem State.setUpd_hiLatch : (s.setUpd v).hiLatch = s.hiLatch := rfl
@[simp] theorem State.setUpd_resp : (s.setUpd v).resp = s.resp := rfl
@[simp] theorem State.setUpd_free : (s.setUpd v).free = s.free := rfl
@[simp] theorem State.setUpd_boot : (s.setUpd v).boot = s.boot := rfl
@[simp] theorem State.setUpd_recorder : (s.setUpd v).recorder = s.recorder := rfl
@[simp] theorem State.setUpd_flt : (s.setUpd v).flt = s.flt := rfl
@[simp] theorem State.setUpd_rst : (s.setUpd v).rst = s.rst := rfl
@[simp] theorem State.setUpd_ang : (s.setUpd v).ang = s.ang := rfl
@[simp] theorem State.setUpd_sim : (s.setUpd v).sim = s.sim := rfl
@[simp] theorem State.setUpd_cs : (s.setUpd v).cs = s.cs := rfl
@[simp] theorem State.setUpd_rings : (s.setUpd v).rings = s.rings := rfl
@[simp] theorem State.setUpd_bwk : (s.setUpd v).bwk = s.bwk := rfl
@[simp] theorem State.setUpd_srv : (s.setUpd v).srv = s.srv := rfl
@[simp] theorem State.setUpd_ce : (s.setUpd v).ce = s.ce := rfl
@[simp] theorem State.setUpd_spn : (s.setUpd v).spn = s.spn := rfl
@[simp] theorem State.setUpd_ast : (s.setUpd v).ast = s.ast := rfl
@[simp] theorem State.setUpd_pre : (s.setUpd v).pre = s.pre := rfl
@[simp] theorem State.setUpd_cal : (s.setUpd v).cal = s.cal := rfl
@[simp] theorem State.setUpd_age : (s.setUpd v).age = s.age := rfl
@[simp] theorem State.setUpd_chan : (s.setUpd v).chan = s.chan := rfl
@[simp] theorem State.setUpd_ldp : (s.setUpd v).ldp = s.ldp := rfl
@[simp] theorem State.setUpd_oce : (s.setUpd v).oce = s.oce := rfl
@[simp] theorem State.setUpd_cry : (s.setUpd v).cry = s.cry := rfl
@[simp] theorem State.setUpd_bcm : (s.setUpd v).bcm = s.bcm := rfl
@[simp] theorem State.setUpd_memc : (s.setUpd v).memc = s.memc := rfl
@[simp] theorem State.setUpd_hst : (s.setUpd v).hst = s.hst := rfl
@[simp] theorem State.setUpd_jnl : (s.setUpd v).jnl = s.jnl := rfl
@[simp] theorem State.setUpd_change : (s.setUpd v).change = s.change := rfl
@[simp] theorem State.setUpd_gated : (s.setUpd v).gated = s.gated := rfl
@[simp] theorem State.setUpd_shadow : (s.setUpd v).shadow = s.shadow := rfl
@[simp] theorem State.setUpd_pwr : (s.setUpd v).pwr = s.pwr := rfl
@[simp] theorem State.setUpd_thm : (s.setUpd v).thm = s.thm := rfl
@[simp] theorem State.setUpd_dom : (s.setUpd v).dom = s.dom := rfl
@[simp] theorem State.setUpd_upd : (s.setUpd v).upd = v := rfl
@[simp] theorem State.setUpd_pending : (s.setUpd v).pending = s.pending := rfl
@[simp] theorem State.setUpd_rd (f : Fld) : (s.setUpd v).rd f = s.rd f := rfl
@[simp] theorem State.setUpd_flag (f : Fld) : (s.setUpd v).flag f = s.flag f := rfl
@[simp] theorem State.setUpd_rdWord (a : Nat) : (s.setUpd v).rdWord a = s.rdWord a := rfl
end

section
variable (n : Nat) (v : Bwk)
@[simp] theorem State.setBwk_regs : (s.setBwk n v).regs = s.regs := rfl
@[simp] theorem State.setBwk_mem : (s.setBwk n v).mem = s.mem := rfl
@[simp] theorem State.setBwk_poison : (s.setBwk n v).poison = s.poison := rfl
@[simp] theorem State.setBwk_loHalf : (s.setBwk n v).loHalf = s.loHalf := rfl
@[simp] theorem State.setBwk_hiLatch : (s.setBwk n v).hiLatch = s.hiLatch := rfl
@[simp] theorem State.setBwk_resp : (s.setBwk n v).resp = s.resp := rfl
@[simp] theorem State.setBwk_free : (s.setBwk n v).free = s.free := rfl
@[simp] theorem State.setBwk_boot : (s.setBwk n v).boot = s.boot := rfl
@[simp] theorem State.setBwk_recorder : (s.setBwk n v).recorder = s.recorder := rfl
@[simp] theorem State.setBwk_flt : (s.setBwk n v).flt = s.flt := rfl
@[simp] theorem State.setBwk_rst : (s.setBwk n v).rst = s.rst := rfl
@[simp] theorem State.setBwk_ang : (s.setBwk n v).ang = s.ang := rfl
@[simp] theorem State.setBwk_sim : (s.setBwk n v).sim = s.sim := rfl
@[simp] theorem State.setBwk_cs : (s.setBwk n v).cs = s.cs := rfl
@[simp] theorem State.setBwk_rings : (s.setBwk n v).rings = s.rings := rfl
@[simp] theorem State.setBwk_bwk : (s.setBwk n v).bwk = s.bwk.set n v := rfl
@[simp] theorem State.setBwk_srv : (s.setBwk n v).srv = s.srv := rfl
@[simp] theorem State.setBwk_ce : (s.setBwk n v).ce = s.ce := rfl
@[simp] theorem State.setBwk_spn : (s.setBwk n v).spn = s.spn := rfl
@[simp] theorem State.setBwk_ast : (s.setBwk n v).ast = s.ast := rfl
@[simp] theorem State.setBwk_pre : (s.setBwk n v).pre = s.pre := rfl
@[simp] theorem State.setBwk_cal : (s.setBwk n v).cal = s.cal := rfl
@[simp] theorem State.setBwk_age : (s.setBwk n v).age = s.age := rfl
@[simp] theorem State.setBwk_chan : (s.setBwk n v).chan = s.chan := rfl
@[simp] theorem State.setBwk_ldp : (s.setBwk n v).ldp = s.ldp := rfl
@[simp] theorem State.setBwk_oce : (s.setBwk n v).oce = s.oce := rfl
@[simp] theorem State.setBwk_cry : (s.setBwk n v).cry = s.cry := rfl
@[simp] theorem State.setBwk_bcm : (s.setBwk n v).bcm = s.bcm := rfl
@[simp] theorem State.setBwk_memc : (s.setBwk n v).memc = s.memc := rfl
@[simp] theorem State.setBwk_hst : (s.setBwk n v).hst = s.hst := rfl
@[simp] theorem State.setBwk_jnl : (s.setBwk n v).jnl = s.jnl := rfl
@[simp] theorem State.setBwk_change : (s.setBwk n v).change = s.change := rfl
@[simp] theorem State.setBwk_gated : (s.setBwk n v).gated = s.gated := rfl
@[simp] theorem State.setBwk_shadow : (s.setBwk n v).shadow = s.shadow := rfl
@[simp] theorem State.setBwk_pwr : (s.setBwk n v).pwr = s.pwr := rfl
@[simp] theorem State.setBwk_thm : (s.setBwk n v).thm = s.thm := rfl
@[simp] theorem State.setBwk_dom : (s.setBwk n v).dom = s.dom := rfl
@[simp] theorem State.setBwk_upd : (s.setBwk n v).upd = s.upd := rfl
@[simp] theorem State.setBwk_pending : (s.setBwk n v).pending = s.pending := rfl
@[simp] theorem State.setBwk_rd (f : Fld) : (s.setBwk n v).rd f = s.rd f := rfl
@[simp] theorem State.setBwk_flag (f : Fld) : (s.setBwk n v).flag f = s.flag f := rfl
@[simp] theorem State.setBwk_rdWord (a : Nat) : (s.setBwk n v).rdWord a = s.rdWord a := rfl
end

section
variable (n : Nat) (v : Srv)
@[simp] theorem State.setSrv_regs : (s.setSrv n v).regs = s.regs := rfl
@[simp] theorem State.setSrv_mem : (s.setSrv n v).mem = s.mem := rfl
@[simp] theorem State.setSrv_poison : (s.setSrv n v).poison = s.poison := rfl
@[simp] theorem State.setSrv_loHalf : (s.setSrv n v).loHalf = s.loHalf := rfl
@[simp] theorem State.setSrv_hiLatch : (s.setSrv n v).hiLatch = s.hiLatch := rfl
@[simp] theorem State.setSrv_resp : (s.setSrv n v).resp = s.resp := rfl
@[simp] theorem State.setSrv_free : (s.setSrv n v).free = s.free := rfl
@[simp] theorem State.setSrv_boot : (s.setSrv n v).boot = s.boot := rfl
@[simp] theorem State.setSrv_recorder : (s.setSrv n v).recorder = s.recorder := rfl
@[simp] theorem State.setSrv_flt : (s.setSrv n v).flt = s.flt := rfl
@[simp] theorem State.setSrv_rst : (s.setSrv n v).rst = s.rst := rfl
@[simp] theorem State.setSrv_ang : (s.setSrv n v).ang = s.ang := rfl
@[simp] theorem State.setSrv_sim : (s.setSrv n v).sim = s.sim := rfl
@[simp] theorem State.setSrv_cs : (s.setSrv n v).cs = s.cs := rfl
@[simp] theorem State.setSrv_rings : (s.setSrv n v).rings = s.rings := rfl
@[simp] theorem State.setSrv_bwk : (s.setSrv n v).bwk = s.bwk := rfl
@[simp] theorem State.setSrv_srv : (s.setSrv n v).srv = s.srv.set n v := rfl
@[simp] theorem State.setSrv_ce : (s.setSrv n v).ce = s.ce := rfl
@[simp] theorem State.setSrv_spn : (s.setSrv n v).spn = s.spn := rfl
@[simp] theorem State.setSrv_ast : (s.setSrv n v).ast = s.ast := rfl
@[simp] theorem State.setSrv_pre : (s.setSrv n v).pre = s.pre := rfl
@[simp] theorem State.setSrv_cal : (s.setSrv n v).cal = s.cal := rfl
@[simp] theorem State.setSrv_age : (s.setSrv n v).age = s.age := rfl
@[simp] theorem State.setSrv_chan : (s.setSrv n v).chan = s.chan := rfl
@[simp] theorem State.setSrv_ldp : (s.setSrv n v).ldp = s.ldp := rfl
@[simp] theorem State.setSrv_oce : (s.setSrv n v).oce = s.oce := rfl
@[simp] theorem State.setSrv_cry : (s.setSrv n v).cry = s.cry := rfl
@[simp] theorem State.setSrv_bcm : (s.setSrv n v).bcm = s.bcm := rfl
@[simp] theorem State.setSrv_memc : (s.setSrv n v).memc = s.memc := rfl
@[simp] theorem State.setSrv_hst : (s.setSrv n v).hst = s.hst := rfl
@[simp] theorem State.setSrv_jnl : (s.setSrv n v).jnl = s.jnl := rfl
@[simp] theorem State.setSrv_change : (s.setSrv n v).change = s.change := rfl
@[simp] theorem State.setSrv_gated : (s.setSrv n v).gated = s.gated := rfl
@[simp] theorem State.setSrv_shadow : (s.setSrv n v).shadow = s.shadow := rfl
@[simp] theorem State.setSrv_pwr : (s.setSrv n v).pwr = s.pwr := rfl
@[simp] theorem State.setSrv_thm : (s.setSrv n v).thm = s.thm := rfl
@[simp] theorem State.setSrv_dom : (s.setSrv n v).dom = s.dom := rfl
@[simp] theorem State.setSrv_upd : (s.setSrv n v).upd = s.upd := rfl
@[simp] theorem State.setSrv_pending : (s.setSrv n v).pending = s.pending := rfl
@[simp] theorem State.setSrv_rd (f : Fld) : (s.setSrv n v).rd f = s.rd f := rfl
@[simp] theorem State.setSrv_flag (f : Fld) : (s.setSrv n v).flag f = s.flag f := rfl
@[simp] theorem State.setSrv_rdWord (a : Nat) : (s.setSrv n v).rdWord a = s.rdWord a := rfl
end

section
variable (n : Nat) (v : Ast)
@[simp] theorem State.setAst_regs : (s.setAst n v).regs = s.regs := rfl
@[simp] theorem State.setAst_mem : (s.setAst n v).mem = s.mem := rfl
@[simp] theorem State.setAst_poison : (s.setAst n v).poison = s.poison := rfl
@[simp] theorem State.setAst_loHalf : (s.setAst n v).loHalf = s.loHalf := rfl
@[simp] theorem State.setAst_hiLatch : (s.setAst n v).hiLatch = s.hiLatch := rfl
@[simp] theorem State.setAst_resp : (s.setAst n v).resp = s.resp := rfl
@[simp] theorem State.setAst_free : (s.setAst n v).free = s.free := rfl
@[simp] theorem State.setAst_boot : (s.setAst n v).boot = s.boot := rfl
@[simp] theorem State.setAst_recorder : (s.setAst n v).recorder = s.recorder := rfl
@[simp] theorem State.setAst_flt : (s.setAst n v).flt = s.flt := rfl
@[simp] theorem State.setAst_rst : (s.setAst n v).rst = s.rst := rfl
@[simp] theorem State.setAst_ang : (s.setAst n v).ang = s.ang := rfl
@[simp] theorem State.setAst_sim : (s.setAst n v).sim = s.sim := rfl
@[simp] theorem State.setAst_cs : (s.setAst n v).cs = s.cs := rfl
@[simp] theorem State.setAst_rings : (s.setAst n v).rings = s.rings := rfl
@[simp] theorem State.setAst_bwk : (s.setAst n v).bwk = s.bwk := rfl
@[simp] theorem State.setAst_srv : (s.setAst n v).srv = s.srv := rfl
@[simp] theorem State.setAst_ce : (s.setAst n v).ce = s.ce := rfl
@[simp] theorem State.setAst_spn : (s.setAst n v).spn = s.spn := rfl
@[simp] theorem State.setAst_ast : (s.setAst n v).ast = s.ast.set n v := rfl
@[simp] theorem State.setAst_pre : (s.setAst n v).pre = s.pre := rfl
@[simp] theorem State.setAst_cal : (s.setAst n v).cal = s.cal := rfl
@[simp] theorem State.setAst_age : (s.setAst n v).age = s.age := rfl
@[simp] theorem State.setAst_chan : (s.setAst n v).chan = s.chan := rfl
@[simp] theorem State.setAst_ldp : (s.setAst n v).ldp = s.ldp := rfl
@[simp] theorem State.setAst_oce : (s.setAst n v).oce = s.oce := rfl
@[simp] theorem State.setAst_cry : (s.setAst n v).cry = s.cry := rfl
@[simp] theorem State.setAst_bcm : (s.setAst n v).bcm = s.bcm := rfl
@[simp] theorem State.setAst_memc : (s.setAst n v).memc = s.memc := rfl
@[simp] theorem State.setAst_hst : (s.setAst n v).hst = s.hst := rfl
@[simp] theorem State.setAst_jnl : (s.setAst n v).jnl = s.jnl := rfl
@[simp] theorem State.setAst_change : (s.setAst n v).change = s.change := rfl
@[simp] theorem State.setAst_gated : (s.setAst n v).gated = s.gated := rfl
@[simp] theorem State.setAst_shadow : (s.setAst n v).shadow = s.shadow := rfl
@[simp] theorem State.setAst_pwr : (s.setAst n v).pwr = s.pwr := rfl
@[simp] theorem State.setAst_thm : (s.setAst n v).thm = s.thm := rfl
@[simp] theorem State.setAst_dom : (s.setAst n v).dom = s.dom := rfl
@[simp] theorem State.setAst_upd : (s.setAst n v).upd = s.upd := rfl
@[simp] theorem State.setAst_pending : (s.setAst n v).pending = s.pending := rfl
@[simp] theorem State.setAst_rd (f : Fld) : (s.setAst n v).rd f = s.rd f := rfl
@[simp] theorem State.setAst_flag (f : Fld) : (s.setAst n v).flag f = s.flag f := rfl
@[simp] theorem State.setAst_rdWord (a : Nat) : (s.setAst n v).rdWord a = s.rdWord a := rfl
end

section
variable (n : Nat) (v : Chan)
@[simp] theorem State.setChan_regs : (s.setChan n v).regs = s.regs := rfl
@[simp] theorem State.setChan_mem : (s.setChan n v).mem = s.mem := rfl
@[simp] theorem State.setChan_poison : (s.setChan n v).poison = s.poison := rfl
@[simp] theorem State.setChan_loHalf : (s.setChan n v).loHalf = s.loHalf := rfl
@[simp] theorem State.setChan_hiLatch : (s.setChan n v).hiLatch = s.hiLatch := rfl
@[simp] theorem State.setChan_resp : (s.setChan n v).resp = s.resp := rfl
@[simp] theorem State.setChan_free : (s.setChan n v).free = s.free := rfl
@[simp] theorem State.setChan_boot : (s.setChan n v).boot = s.boot := rfl
@[simp] theorem State.setChan_recorder : (s.setChan n v).recorder = s.recorder := rfl
@[simp] theorem State.setChan_flt : (s.setChan n v).flt = s.flt := rfl
@[simp] theorem State.setChan_rst : (s.setChan n v).rst = s.rst := rfl
@[simp] theorem State.setChan_ang : (s.setChan n v).ang = s.ang := rfl
@[simp] theorem State.setChan_sim : (s.setChan n v).sim = s.sim := rfl
@[simp] theorem State.setChan_cs : (s.setChan n v).cs = s.cs := rfl
@[simp] theorem State.setChan_rings : (s.setChan n v).rings = s.rings := rfl
@[simp] theorem State.setChan_bwk : (s.setChan n v).bwk = s.bwk := rfl
@[simp] theorem State.setChan_srv : (s.setChan n v).srv = s.srv := rfl
@[simp] theorem State.setChan_ce : (s.setChan n v).ce = s.ce := rfl
@[simp] theorem State.setChan_spn : (s.setChan n v).spn = s.spn := rfl
@[simp] theorem State.setChan_ast : (s.setChan n v).ast = s.ast := rfl
@[simp] theorem State.setChan_pre : (s.setChan n v).pre = s.pre := rfl
@[simp] theorem State.setChan_cal : (s.setChan n v).cal = s.cal := rfl
@[simp] theorem State.setChan_age : (s.setChan n v).age = s.age := rfl
@[simp] theorem State.setChan_chan : (s.setChan n v).chan = s.chan.set n v := rfl
@[simp] theorem State.setChan_ldp : (s.setChan n v).ldp = s.ldp := rfl
@[simp] theorem State.setChan_oce : (s.setChan n v).oce = s.oce := rfl
@[simp] theorem State.setChan_cry : (s.setChan n v).cry = s.cry := rfl
@[simp] theorem State.setChan_bcm : (s.setChan n v).bcm = s.bcm := rfl
@[simp] theorem State.setChan_memc : (s.setChan n v).memc = s.memc := rfl
@[simp] theorem State.setChan_hst : (s.setChan n v).hst = s.hst := rfl
@[simp] theorem State.setChan_jnl : (s.setChan n v).jnl = s.jnl := rfl
@[simp] theorem State.setChan_change : (s.setChan n v).change = s.change := rfl
@[simp] theorem State.setChan_gated : (s.setChan n v).gated = s.gated := rfl
@[simp] theorem State.setChan_shadow : (s.setChan n v).shadow = s.shadow := rfl
@[simp] theorem State.setChan_pwr : (s.setChan n v).pwr = s.pwr := rfl
@[simp] theorem State.setChan_thm : (s.setChan n v).thm = s.thm := rfl
@[simp] theorem State.setChan_dom : (s.setChan n v).dom = s.dom := rfl
@[simp] theorem State.setChan_upd : (s.setChan n v).upd = s.upd := rfl
@[simp] theorem State.setChan_pending : (s.setChan n v).pending = s.pending := rfl
@[simp] theorem State.setChan_rd (f : Fld) : (s.setChan n v).rd f = s.rd f := rfl
@[simp] theorem State.setChan_flag (f : Fld) : (s.setChan n v).flag f = s.flag f := rfl
@[simp] theorem State.setChan_rdWord (a : Nat) : (s.setChan n v).rdWord a = s.rdWord a := rfl
end

section
variable (n : Nat) (r : Ring)
@[simp] theorem State.setRing_regs : (s.setRing n r).regs = s.regs := rfl
@[simp] theorem State.setRing_mem : (s.setRing n r).mem = s.mem := rfl
@[simp] theorem State.setRing_poison : (s.setRing n r).poison = s.poison := rfl
@[simp] theorem State.setRing_loHalf : (s.setRing n r).loHalf = s.loHalf := rfl
@[simp] theorem State.setRing_hiLatch : (s.setRing n r).hiLatch = s.hiLatch := rfl
@[simp] theorem State.setRing_resp : (s.setRing n r).resp = s.resp := rfl
@[simp] theorem State.setRing_free : (s.setRing n r).free = s.free := rfl
@[simp] theorem State.setRing_boot : (s.setRing n r).boot = s.boot := rfl
@[simp] theorem State.setRing_recorder : (s.setRing n r).recorder = s.recorder := rfl
@[simp] theorem State.setRing_flt : (s.setRing n r).flt = s.flt := rfl
@[simp] theorem State.setRing_rst : (s.setRing n r).rst = s.rst := rfl
@[simp] theorem State.setRing_ang : (s.setRing n r).ang = s.ang := rfl
@[simp] theorem State.setRing_sim : (s.setRing n r).sim = s.sim := rfl
@[simp] theorem State.setRing_cs : (s.setRing n r).cs = s.cs := rfl
@[simp] theorem State.setRing_rings : (s.setRing n r).rings = setNth s.rings n r := rfl
@[simp] theorem State.setRing_bwk : (s.setRing n r).bwk = s.bwk := rfl
@[simp] theorem State.setRing_srv : (s.setRing n r).srv = s.srv := rfl
@[simp] theorem State.setRing_ce : (s.setRing n r).ce = s.ce := rfl
@[simp] theorem State.setRing_spn : (s.setRing n r).spn = s.spn := rfl
@[simp] theorem State.setRing_ast : (s.setRing n r).ast = s.ast := rfl
@[simp] theorem State.setRing_pre : (s.setRing n r).pre = s.pre := rfl
@[simp] theorem State.setRing_cal : (s.setRing n r).cal = s.cal := rfl
@[simp] theorem State.setRing_age : (s.setRing n r).age = s.age := rfl
@[simp] theorem State.setRing_chan : (s.setRing n r).chan = s.chan := rfl
@[simp] theorem State.setRing_ldp : (s.setRing n r).ldp = s.ldp := rfl
@[simp] theorem State.setRing_oce : (s.setRing n r).oce = s.oce := rfl
@[simp] theorem State.setRing_cry : (s.setRing n r).cry = s.cry := rfl
@[simp] theorem State.setRing_bcm : (s.setRing n r).bcm = s.bcm := rfl
@[simp] theorem State.setRing_memc : (s.setRing n r).memc = s.memc := rfl
@[simp] theorem State.setRing_hst : (s.setRing n r).hst = s.hst := rfl
@[simp] theorem State.setRing_jnl : (s.setRing n r).jnl = s.jnl := rfl
@[simp] theorem State.setRing_change : (s.setRing n r).change = s.change := rfl
@[simp] theorem State.setRing_gated : (s.setRing n r).gated = s.gated := rfl
@[simp] theorem State.setRing_shadow : (s.setRing n r).shadow = s.shadow := rfl
@[simp] theorem State.setRing_pwr : (s.setRing n r).pwr = s.pwr := rfl
@[simp] theorem State.setRing_thm : (s.setRing n r).thm = s.thm := rfl
@[simp] theorem State.setRing_dom : (s.setRing n r).dom = s.dom := rfl
@[simp] theorem State.setRing_upd : (s.setRing n r).upd = s.upd := rfl
@[simp] theorem State.setRing_pending : (s.setRing n r).pending = s.pending := rfl
end

end

/-! ## Pairs of instances -/

@[simp] theorem Pair.get_set_self {α : Type} (p : Pair α) (n : Nat) (v : α) : (p.set n v).get n = v := by
  unfold Pair.get Pair.set
  split <;> simp_all

/-! ## A register field after a write of a field -/

/-- A field written reads as the value, to its width. -/
theorem State.rd_wr_self (s : State) (f : Fld) (v : Nat) (hf : f.fits = true) : (s.wr f v).rd f = v % 2 ^ f.width := by
  simp only [Fld.fits, decide_eq_true_eq] at hf
  simp only [State.rd, State.wr, Store.field, Store.setFld, Store.read_write_self]
  exact fieldOf_setField_self _ _ _ _ hf

/-- A field that shares no bit with the field written reads as before. -/
theorem State.rd_wr_other (s : State) (f g : Fld) (v : Nat) (hd : g.disjoint f = true) : (s.wr f v).rd g = s.rd g := by
  simp only [State.rd, State.wr, Store.field, Store.setFld, Store.read_write]
  split
  · rename_i ha
    rw [ha]
    refine fieldOf_setField_other _ _ _ _ _ _ ?_
    simp only [Fld.disjoint, Bool.or_eq_true, decide_eq_true_eq, bne_iff_ne, ne_eq] at hd
    omega
  · rfl

/-- A one-bit field set reads 1. -/
theorem State.flag_set_self (s : State) (f : Fld) (hf : f.fits = true) (h0 : f.width ≠ 0) : (s.set f).flag f = true := by
  have hw : 1 < 2 ^ f.width := Nat.one_lt_two_pow h0
  simp [State.flag, State.set, State.rd_wr_self s f 1 hf, Nat.mod_eq_of_lt hw]

/-- A field cleared reads 0. -/
theorem State.rd_clr_self (s : State) (f : Fld) (hf : f.fits = true) : (s.clr f).rd f = 0 := by
  simp [State.clr, State.rd_wr_self s f 0 hf]

/-! ## Memory -/

theorem checkWrite_mem (s : State) (a n base : Nat) : (checkWrite s a n base).mem = s.mem := by
  unfold checkWrite
  dsimp only
  repeat' first
    | split
    | simp only [State.setPoison_mem, State.setMemc_mem, State.clr_mem, State.bump_mem, State.set_mem]

theorem State.each_checkWrite_mem (s : State) (a n : Nat) (l : List Nat) :
    (s.each l fun s b => checkWrite s a n b).mem = s.mem := by
  unfold State.each
  induction l generalizing s with
  | nil => rfl
  | cons b l ih => rw [List.foldl_cons, ih, checkWrite_mem]

/-- What a store leaves in memory. -/
theorem State.store_mem (s : State) (a : Nat) (bs : List Byte) : (s.store a bs).mem = Store.writeRun 0 s.mem a bs := by
  unfold State.store
  dsimp only
  rw [State.each_checkWrite_mem]

/-- A store keeps memory in canonical form. -/
theorem State.store_wf (s : State) (a : Nat) (bs : List Byte) (h : Memory.wf s.mem = true) :
    Memory.wf (s.store a bs).mem = true := by
  rw [State.store_mem]
  exact Store.wf_writeRun 0 bs _ a h

/-- Filling SRAM and DRAM keeps memory in canonical form. -/
theorem memoryFill_wf (s : State) (h : Memory.wf s.mem = true) : Memory.wf (memoryFill s).mem = true :=
  Store.wf_filter 0 s.mem _ h

/-- Memory right after reset is in canonical form: it lists nothing. -/
theorem State.reset_mem_wf : Memory.wf State.reset.mem = true := rfl

/-- The bytes stored read back. -/
theorem State.bytes_store (s : State) (a : Nat) (bs : List Byte) : (s.store a bs).bytes a bs.length = bs := by
  unfold State.bytes
  rw [State.store_mem]
  exact Store.readRun_writeRun 0 bs _ a

/-- A byte outside the stored run reads as before. -/
theorem State.byte_store_other (s : State) (a b : Nat) (bs : List Byte) (h : b < a ∨ a + bs.length ≤ b) :
    (s.store a bs).byte b = s.byte b := by
  unfold State.byte
  rw [State.store_mem]
  exact Store.read_writeRun_other 0 bs _ a b h

end Sys2Proof.Machine
end

