-- ==== Sys2Proof/WellFormed.lean ====
section
/-!
DEFINITION. Which terms of `Instr` are commands of the block: every operand lies in the range that the spec gives the thing it
numbers (actuators, sequencers and channels 0 and 1, ring pairs 0 to 6, harts 0 to 3, bus masters 0 to 19 of R516, calibration
groups 0 to 7, and so on). A term outside these ranges stands for nothing that can happen, and its meaning says nothing
(notes/assumptions/21.md).
-/

namespace Sys2Proof

/-- Full angles have 65 bits: REV of 44 bits and a position of 21 (R73). -/
def fullAngles : Nat := 2 ^ 65

/-- A frame of the Waixia Link: a logical port, HOPS of 3 bits, SRC and DST of 16, 12 payload bytes (R464, R467). -/
def Frame.wf (f : Frame) : Bool :=
  decide (f.port < 32) && decide (f.src < 65536) && decide (f.dst < 65536) && decide (f.hops < 8) && decide (f.payload.length = 12)

/-- A wedge as demodulated: field widths of R99, R159 and R160. -/
def Sample.wf (s : Sample) : Bool :=
  decide (s.gray < 16777216) && decide (s.wedge < 2048) && decide (s.wpar < 16) && decide (s.a < 4096) && decide (s.b < 4096)
  && decide (s.c < 4096) && decide (s.d < 4096) && decide (s.rro < 256) && decide (s.rroPar < 2)
  && decide (s.acc0 < 65536) && decide (s.acc1 < 65536)

/-- The operands of a command lie in their ranges. -/
def Instr.wf : Instr → Bool
  | .registerWrite m _ addr size data_ => decide (m < 20) && decide (addr < 0x1000000000) && [1, 2, 4, 8].contains size && decide (data_ < 2 ^ (8 * size))
  | .modeWrite unit _ => decide (unit < 32)
  | .levelChangeApply unit => decide (unit < 32)
  | .controlStoreWrite store offset _ => decide (store < 5) && decide (offset < 262144)
  | .por _ => true
  | .porRelease _ => true
  | .b1FillDone fails => decide (fails < 16)
  | .setAuthDone _ => true
  | .imageStreamDone => true
  | .imageAuthDone => true
  | .imageCheckDone => true
  | .imageApplyDone rpm => decide (rpm < 65536)
  | .b4Done => true
  | .svcModeAssert => true
  | .svcModeHoldExpiry => true
  | .safeParkDone => true
  | .standbyUnitGate u => decide (u < 9)
  | .standbyWakeRestore => true
  | .apstIdleExpiry _ => true
  | .simRetireAddWrite _ _ => true
  | .spindleAbove300 _ => true
  | .spindleBelow300 => true
  | .goodWedgeMark act surface dev decoded => decide (act < 2) && decide (surface < 32) && decide (dev < fullAngles) && decide (decoded < 2048)
  | .missingWedgeMark act _ => decide (act < 2)
  | .coastWedgesExpiry => true
  | .revStore => true
  | .xchkDetect src diff => decide (src < 2) && decide (diff < 2097152)
  | .ceilingChange _ rung => decide (rung < 4)
  | .rungTargetWrite _ => true
  | .rungHeld => true
  | .schedRungSwitch => true
  | .rungRampEnd => true
  | .rungSettled => true
  | .rungRetuneDone => true
  | .rungSettleTimeout => true
  | .returnSettleTimeout => true
  | .angCmdHold => true
  | .angCmdRamp => true
  | .angCmdRetune => true
  | .angCmdRelease => true
  | .angCmdAbort => true
  | .opsecStore => true
  | .snapshotTake full cycles => decide (full < fullAngles) && decide (cycles < 2 ^ 64)
  | .alarmArm m _ => decide (m < 20)
  | .alarmFire full => decide (full < fullAngles)
  | .plankFetch n full => decide (n < 2) && decide (full < fullAngles)
  | .plankSeek n full => decide (n < 2) && decide (full < fullAngles)
  | .plankSettle n full => decide (n < 2) && decide (full < fullAngles)
  | .plankRead n full => decide (n < 2) && decide (full < fullAngles)
  | .plankWrite n full => decide (n < 2) && decide (full < fullAngles)
  | .plankPreheat n full => decide (n < 2) && decide (full < fullAngles)
  | .plankProbe n full => decide (n < 2) && decide (full < fullAngles)
  | .plankCal n full => decide (n < 2) && decide (full < fullAngles)
  | .plankMark n full => decide (n < 2) && decide (full < fullAngles)
  | .markerPlank n full => decide (n < 2) && decide (full < fullAngles)
  | .microwordExecute n full _ => decide (n < 2) && decide (full < fullAngles)
  | .parityReloadDone n => decide (n < 2)
  | .nolockTimeout n full => decide (n < 2) && decide (full < fullAngles)
  | .writeGateFall n full _ => decide (n < 2) && decide (full < fullAngles)
  | .bwkAbort n full => decide (n < 2) && decide (full < fullAngles)
  | .bwkResume n => decide (n < 2)
  | .servoSample n full smp => decide (n < 2) && decide (full < fullAngles) && smp.wf
  | .lawOverrun n => decide (n < 2)
  | .coastExhausted n => decide (n < 2)
  | .feLimitFault n => decide (n < 2)
  | .settleRunMet n => decide (n < 2)
  | .settlePlankRun n full => decide (n < 2) && decide (full < fullAngles)
  | .settleTimeout n full => decide (n < 2) && decide (full < fullAngles)
  | .reacquired n full => decide (n < 2) && decide (full < fullAngles)
  | .reacqTimeout n => decide (n < 2)
  | .seekArrival n full => decide (n < 2) && decide (full < fullAngles)
  | .seekTimeout n full => decide (n < 2) && decide (full < fullAngles)
  | .seekVerrFault n full => decide (n < 2) && decide (full < fullAngles)
  | .srvCmdLoad n head track full => decide (n < 2) && decide (head < 32) && decide (track < 1048576) && decide (full < fullAngles)
  | .srvCmdUnload n => decide (n < 2)
  | .srvCmdRetract n => decide (n < 2)
  | .unloadRampReached n => decide (n < 2)
  | .retractDone n full => decide (n < 2) && decide (full < fullAngles)
  | .setupReplay pa => decide (pa < 2)
  | .tapDataAccess n _ => decide (n < 2)
  | .spnCmdStart rung rpm => decide (rung < 4) && decide (rpm < 65536)
  | .spnCmdStop => true
  | .spnCmdClear rpm => decide (rpm < 65536)
  | .alignTimeExpiry => true
  | .handoverReached => true
  | .spinupTimeout => true
  | .zeroCrossing rpm _ _ => decide (rpm < 65536)
  | .zcWindowMiss => true
  | .zcLost => true
  | .offspeedSet => true
  | .speedBelowFlyMin rpm => decide (rpm < 65536)
  | .spindleBrakeDone rpm => decide (rpm < 65536)
  | .retractStart mask cause => decide (mask < 4) && decide (cause < 16)
  | .retractPhaseEnd n => decide (n < 2)
  | .retractPhaseTimeout n => decide (n < 2)
  | .astSample n full word => decide (n < 2) && decide (full < fullAngles) && (word.all fun w => decide (w < 4294967296))
  | .proxyLoss n full => decide (n < 2) && decide (full < fullAngles)
  | .astStagedApply n => decide (n < 2)
  | .astTblDataAccess n _ => decide (n < 2)
  | .astSetDataAccess n _ => decide (n < 2)
  | .preampFault pa full => decide (pa < 2) && decide (full < fullAngles)
  | .preampFaultClear pa => decide (pa < 2)
  | .preXferGo _ => true
  | .preTransactionDone data_ => decide (data_ < 65536)
  | .preReadTimeout => true
  | .preSetupDataAccess _ => true
  | .readSector n full _ => decide (n < 2) && decide (full < fullAngles)
  | .writeSector n full => decide (n < 2) && decide (full < fullAngles)
  | .fastDecodeDone k _ _ _ => decide (k < 8)
  | .decodeDeadlineCut k _ _ _ => decide (k < 8)
  | .readResultWrite n => decide (n < 2)
  | .deep => true
  | .deepJobDone _ _ _ => true
  | .encode => true
  | .rebuild => true
  | .oceJobDone => true
  | .oceAccClrWrite _ => true
  | .oceAccClrApply => true
  | .channelGrant c full => decide (c < 2) && decide (full < fullAngles)
  | .rdcStagedApply c => decide (c < 2)
  | .rdcProfDataAccess c _ => decide (c < 2)
  | .rdcEqDataAccess c _ => decide (c < 2)
  | .channelLockLoss c _ _ => decide (c < 2)
  | .channelRelock c => decide (c < 2)
  | .channelRelockTimeout c => decide (c < 2)
  | .route => true
  | .fold => true
  | .release => true
  | .twinWaitExpiry tag => decide (tag < 65536)
  | .foldIdleStart => true
  | .journalReplay _ => true
  | .pcieLaneFail lane _ => decide (lane < 4)
  | .sqTailDoorbell fn qid value => decide (fn < 256) && decide (qid < 65536) && decide (value < 65536)
  | .cqHeadDoorbell fn qid value => decide (fn < 256) && decide (qid < 65536) && decide (value < 65536)
  | .commandFetch fn sqid tag hart sqe => decide (fn < 256) && decide (sqid < 65536) && decide (tag < 65536) && decide (hart < 4) && decide (sqe.length = 64)
  | .commandBegin tag => decide (tag < 65536)
  | .completionPost lane tag => decide (lane < 4) && decide (tag < 65536)
  | .frontendRestart _ _ => true
  | .createIoSq fn qid _ entries cq prio => decide (fn < 256) && decide (qid < 65536) && decide (entries < 65537) && decide (cq < 65536) && decide (prio < 4)
  | .createIoCq fn qid _ entries vector _ => decide (fn < 256) && decide (qid < 65536) && decide (entries < 65537) && decide (vector < 2048)
  | .deleteIoSq fn qid => decide (fn < 256) && decide (qid < 65536)
  | .deleteIoCq fn qid => decide (fn < 256) && decide (qid < 65536)
  | .getLogPage fn lid ns _ _ => decide (fn < 256) && decide (lid < 256) && decide (ns < 4294967296)
  | .identify fn cns ns csi => decide (fn < 256) && decide (cns < 256) && decide (ns < 4294967296) && decide (csi < 256)
  | .abort fn cid sqid target => decide (fn < 256) && decide (cid < 65536) && decide (sqid < 65536) && decide (target < 65536)
  | .setFeatures fn fid value _ => decide (fn < 256) && decide (fid < 256) && decide (value < 4294967296)
  | .setFeaturesPowerMgmt fn ps => decide (fn < 256) && decide (ps < 32)
  | .setFeaturesApst fn _ table _ => decide (fn < 256) && decide (table.length = 32)
  | .setFeaturesHctm fn value _ => decide (fn < 256) && decide (value < 4294967296)
  | .setFeaturesTwin fn value _ => decide (fn < 256) && decide (value < 4294967296)
  | .setFeaturesIdleCadence fn value _ => decide (fn < 256) && decide (value < 4294967296)
  | .setFeaturesNsMask fn value => decide (fn < 256) && decide (value < 4294967296)
  | .getFeatures fn fid sel value => decide (fn < 256) && decide (fid < 256) && decide (sel < 256) && decide (value < 4294967296)
  | .asynchronousEventRequest fn cid => decide (fn < 256) && decide (cid < 65536)
  | .firmwareImageDownload fn offset _ => decide (fn < 256) && decide (offset < 4294967296)
  | .firmwareCommitCa0 fn slot => decide (fn < 256) && decide (slot < 4)
  | .firmwareCommitCa1 fn slot => decide (fn < 256) && decide (slot < 4)
  | .firmwareCommitCa2 fn slot => decide (fn < 256) && decide (slot < 4)
  | .formatNvm fn ns lbaf pi ses key => decide (fn < 256) && decide (ns < 4294967296) && decide (lbaf < 16) && decide (pi < 8) && decide (ses < 8) && decide (key.length = 64)
  | .sanitize fn action keys => decide (fn < 256) && decide (action < 8) && (keys.all fun k => decide (k.length = 64))
  | .flush tag => decide (tag < 65536)
  | .write tag _ _ _ => decide (tag < 65536)
  | .read tag _ => decide (tag < 65536)
  | .writeZeroes tag => decide (tag < 65536)
  | .zoneAppend tag _ _ _ => decide (tag < 65536)
  | .zoneClose tag => decide (tag < 65536)
  | .zoneFinish tag => decide (tag < 65536)
  | .zoneOpen tag => decide (tag < 65536)
  | .zoneReset tag => decide (tag < 65536)
  | .zoneOffline tag => decide (tag < 65536)
  | .setZoneDescExt tag => decide (tag < 65536)
  | .reportZones tag => decide (tag < 65536)
  | .extendedReportZones tag => decide (tag < 65536)
  | .adminInboxConsume _ => true
  | .adminCompletionGo _ => true
  | .idleCadenceStep step_ => (step_ == 1 || step_ == 2)
  | .miReadDataStructure _ => true
  | .miSubsystemHealthPoll _ => true
  | .miControllerHealthPoll _ _ => true
  | .miConfigGet _ => true
  | .miConfigSet _ value => decide (value < 4294967296)
  | .miTunneledAdmin fn opc sel ns _ _ => decide (fn < 256) && decide (opc < 256) && decide (sel < 256) && decide (ns < 4294967296)
  | .miBasicMgmtCommand _ => true
  | .ringReqProdWrite n _ => decide (n < 7)
  | .ringResConsWrite n _ => decide (n < 7)
  | .ringEnable n => decide (n < 7)
  | .ringDisable n => decide (n < 7)
  | .ringDrainDone n => decide (n < 7)
  | .ringEntryAdmit n => decide (n < 7)
  | .heldResultWrite n => decide (n < 7)
  | .encrypt => true
  | .decrypt => true
  | .hash => true
  | .keyLoad => true
  | .keyClear => true
  | .keyOpApply => true
  | .cryEntryDone => true
  | .nop => true
  | .keycmd => true
  | .lookup slot _ => decide (slot < 4)
  | .alloc slot _ => decide (slot < 4)
  | .fillOk slot _ => decide (slot < 4)
  | .fillFail slot _ => decide (slot < 4)
  | .clean slot _ => decide (slot < 4)
  | .invalidate slot _ => decide (slot < 4)
  | .pin slot _ => decide (slot < 4)
  | .unpin slot _ => decide (slot < 4)
  | .bcmReqPop => true
  | .bcmWaysWrite _ => true
  | .wayGated w => decide (w < 16)
  | .bcmEnWrite _ => true
  | .bcmDrainDone => true
  | .memCorrectedRead m addr position => decide (m < 20) && decide (addr < 0x1000000000) && decide (position < 65536)
  | .memUncorrectableRead m addr => decide (m < 20) && decide (addr < 0x1000000000)
  | .trackerWriteback k => decide (k < 32)
  | .scrubStep array flaw => decide (array < 3) && decide (flaw < 3)
  | .memInjectArm _ => true
  | .hartWatchdogExpiry h _ => decide (h < 4)
  | .coreFault h _ => decide (h < 4)
  | .coreRejoin h => decide (h < 4)
  | .fltCoreOnline h _ => decide (h < 4)
  | .fltWdogKick m n _ => decide (m < 4) && decide (n < 4)
  | .fltDeclareContained m _ _ => decide (m < 4)
  | .fltDeclareDeviceFatal m _ _ => decide (m < 4)
  | .fltDeclareHart m _ _ _ => decide (m < 4)
  | .wardenWatchdogExpiry => true
  | .lockstepMismatch => true
  | .wardenRestartDone => true
  | .run group inst => decide (group < 8) && decide (inst < 256)
  | .save => true
  | .factory group => decide (group < 8)
  | .calInternalRunEnd group _ _ => decide (group < 8)
  | .calWindowClose n full _ _ => decide (n < 2) && decide (full < fullAngles)
  | .calOverlayWrite _ => true
  | .calOverlayApply group => decide (group < 8)
  | .ageEvalTimer _ _ => true
  | .eval _ _ => true
  | .apply entry => decide (entry < 64)
  | .discard entry => decide (entry < 64)
  | .powerLossDetect vm vl => decide (vm < 65536) && decide (vl < 65536)
  | .lossSectorBoundary => true
  | .lossCoreHold => true
  | .lastGaspRecord vhold => decide (vhold < 65536)
  | .vholdBelowVmin vhold => decide (vhold < 65536)
  | .supplyReturn vm vl => decide (vm < 65536) && decide (vl < 65536)
  | .holdupTestDone _ _ vhold => decide (vhold < 65536)
  | .holdupReadyTimeout => true
  | .vmArrival vm => decide (vm < 65536)
  | .dykeLinkDown => true
  | .dykeLinkRetrained => true
  | .dykeSilenceRetract => true
  | .heartbeatLoss => true
  | .hvFaultAssert cause => decide (cause < 1024)
  | .hvbAccess m _ _ offset _ => decide (m < 20) && decide (0x1000 ≤ offset) && decide (offset < 0x10000)
  | .hvbCtlRetract _ _ => true
  | .thmSample _ temps => temps.all fun e => decide (e.1 < 13) && decide (e.2 < 65536)
  | .riseClearExpiry g => decide (g < 4)
  | .sluiceGraceExpiry => true
  | .sluiceStepExpiry => true
  | .sluiceReleaseExpiry => true
  | .step => true
  | .thmCmdRelease => true
  | .thermalTrip k reading => decide (k < 13) && decide (reading < 65536)
  | .tripLogicHold => true
  | .thermalRestart readings => decide (readings.length = 13) && readings.all fun r => decide (r < 65536)
  | .resetNLow _ => true
  | .rstDrstReqWrite _ _ => true
  | .nvmSubsystemReset fn value => decide (fn < 256) && decide (value < 4294967296)
  | .drstWriteStop => true
  | .drstHold => true
  | .drstRelease _ => true
  | .perstNAssert => true
  | .perstNDeassert => true
  | .hotReset port => decide (port < 2)
  | .flr fn => decide (fn < 256)
  | .ccEnClear fn => decide (fn < 256)
  | .ccEnSet fn _ _ _ _ _ => decide (fn < 256)
  | .safe f => f.wf
  | .notice f _ => f.wf
  | .sync f ns _ => f.wf && decide (ns < 2 ^ 64)
  | .enum f => f.wf
  | .tokenReq f => f.wf
  | .tokenGrant f => f.wf
  | .tokenReturn f => f.wf
  | .tokenQueued f => f.wf
  | .activate f => f.wf
  | .reset f => f.wf
  | .health f => f.wf
  | .pull f => f.wf
  | .data f => f.wf
  | .blockEnd f => f.wf
  | .ack f => f.wf
  | .nak f => f.wf
  | .task f => f.wf
  | .user f => f.wf
  | .wxLaneUp port => decide (port < 32)
  | .wxLaneDown port n => decide (port < 32) && decide (n < 256)
  | .listenTimeout => true
  | .syncMissing => true
  | .orphanTimeout => true
  | .enumSend => true
  | .syncSend _ => true
  | .domTimeSetWrite m _ => decide (m < 20)
  | .tokenReqRepeat => true
  | .tokenFallback => true
  | .staggerExpiry => true
  | .tokenReclaim _ => true
  | .healthSend => true
  | .bulkResendTimeout => true
  | .domSafeWrite _ _ => true
  | .safeRepeat => true
  | .domTxGo _ => true
  | .domRxPop _ => true
  | .updStageAuthDone => true
  | .lockIdleExpiry => true
  | .activateAtReached => true
  | .waveAtReached => true
  | .waveTimeout => true
  | .updConfirmWrite _ _ => true
  | .trialWindowExpiry => true
  | .updSetCmd _ => true
  | .settingsMirrorDone => true
  | .servicePortRequest _ => true
  | .uandonakOpen => true
  | .uandonakBlock => true
  | .uandonakClose => true
  | .uandonakArm => true
  | .uandonakSvckey _ => true
  | .uandonakKeycmd => true
  | .uandonakRecread => true
  | .uandonakBaud => true
  | .uandonakReset => true
  | .uandonakCmdDone => true
  | .recordPost source severity code _ _ => decide (source < 64) && decide (severity < 8) && decide (code < 65536)
  | .recPostGo m _ _ => decide (m < 5)
  | .recordWrite => true
  | .counterWrap k => decide (k < 8)
  | .clrAll _ _ => true
  | .pmuCounterWrite m k _ _ => decide (m < 20) && decide (k < 8)
  | .fastDecoderCheckFail d => decide (d < 2)
  | .pcieLinkUp port width speed => decide (port < 2) && decide (width < 8) && decide (speed < 8)
  | .aggregationTimeExpiry fn vector => decide (fn < 256) && decide (vector < 2048)
  | .railOutOfRange rail => decide (rail < 5)

end Sys2Proof
end

