-- ==== Sys2Proof/Tests/Slice0.lean ====
section
/-!
SUPPORT. Tests: the terms that the well-formedness check refuses, small facts worked out by hand from the spec, and for every statement
of Obligations.lean states and operands that meet its hypotheses.
-/

set_option maxRecDepth 20000
set_option Elab.async false
set_option linter.unusedVariables false

namespace Sys2Proof.Tests

open Sys2Proof Sys2Proof.Machine

/-! ## Helper states -/

/-- A state with fields set. -/
def st (l : List (Fld × Nat)) : State := { regs := l.foldl (fun m e => Store.setFld m e.1 e.2) [] }

/-- An enabled controller of function 0. -/
def admC : Ctrl := ⟨0, 0, 1, 1, 1, [], [], 0, []⟩
/-- A state in SERVICE with that controller. -/
def admS (l : List (Fld × Nat)) : State := { st ((Reg.sysOpmodeMode, 2) :: l) with hst := { ctrls := [admC] } }

/-- A plank of an action, head 0, count 1. -/
def pl (a : Nat) : Plank := ⟨0, 0, a, 0, false, true, true, false, false, false, 0, 0, 1, 65535, 0, 0, 0, 0, 0, 0, none⟩
/-- BWK0 waiting with plank `p`, and running it. -/
def bwkS (p : Plank) (l : List (Fld × Nat)) : State :=
  { st ([(Reg.bwkStatusState, 3), (Reg.angStatusState, 3), (Reg.sysOpmodeMode, 2)] ++ l) with
    bwk := ⟨{ cur := some p }, {}⟩, rings := List.replicate 7 { reqSize := 4, resSize := 4 } }
/-- BWK0 running plank `p`. -/
def runS (p : Plank) (l : List (Fld × Nat)) : State :=
  { st ([(Reg.bwkStatusState, 4), (Reg.angStatusState, 3)] ++ l) with bwk := ⟨{ cur := some p, run := { begun := true } }, {}⟩ }

/-- A JNL ring entry with an OP, FIRST and LAST. -/
def jnlE (op : Nat) : RingEntry := ⟨0, [BitVec.ofNat 8 op, 3, 1, 0, 0, 0, 0, 0, 0, 0, 0, 0, 0, 0, 0, 0], false⟩
/-- A write of one sector, tag `tag`, not done, nothing laid. -/
def wrC (tag : Nat) : HostCmd := ⟨tag, 0, 1, 7, 1, 1, 0, 1, List.replicate 64 0, 5, 0, none, false, false, false, false, false, [], [], [], 0, false, none, 0⟩
/-- A LIVE extent of index 0. -/
def exX (state : Nat) : Extent := ⟨0, state, 1, 0, 1, 5, 0, 0, 0, 0, 2, false, []⟩
/-- A begun zone command with action `a`; with Select All. -/
def zC (a : Nat) : HostCmd := { wrC 1 with opc := 0x79, begun := true, sqe := List.replicate 52 0 ++ [BitVec.ofNat 8 a] ++ List.replicate 11 0 }
/-- A begun zone command with action `a` and Select All. -/
def zCA (a : Nat) : HostCmd := { wrC 1 with opc := 0x79, begun := true, sqe := List.replicate 52 0 ++ [BitVec.ofNat 8 a, 1] ++ List.replicate 10 0 }
/-- A zoned namespace whose zone 0 has a state and one sector written, with a zone command. -/
def zStC (c : HostCmd) (k : Nat) : State :=
  { st [(Reg.simEffMask.elem 2, 1)] with
    sim := { cfg := { heads := [⟨0, 0, 0, 0, 1⟩], regions := [⟨0, 0, 10, 0, 100, 0, 0⟩], zoneSectors := 16, stripeG := 4, stripeP := 1,
                      ns := [⟨1, 1, 2, 0⟩] } }
    hst := { cmds := [c], zones := [(zoneKey 1 0, ⟨k, 1, false⟩)] } }
/-- The same with a zone command of action `a`; with Select All. -/
def zSt (a k : Nat) : State := zStC (zC a) k
/-- With Select All. -/
def zStA (a k : Nat) : State := zStC (zCA a) k
/-- A read of one sector that the cache holds. -/
def rdC : HostCmd := { wrC 1 with opc := 2, begun := true, fetched := true }
/-- A state in which that sector is safe. -/
def rdZ : State := { st [] with hst := { cmds := [{ rdC with safe := [0] }] } }
/-- Four harts run. -/
def hS : State := st [(Reg.simEffMask.elem 0, 15), (Reg.sysCoreRelRun, 15)  , (Reg.fltWdogUs.elem 0, 9)]
/-- A frame from the manager of port 0, broadcast, with a payload. -/
def fr (p : List Byte) : Frame := ⟨0, false, 0, 0, 0x2000, p, false⟩
/-- A MEMBER at position 1 of port 0. -/
def memS (l : List (Fld × Nat)) : State := { st ([(Reg.domStatusState, 2), (Reg.domStatusPosition, 1), (Reg.sysOpmodeMode, 2)] ++ l) with boot := .done }
/-- A frame of worker 1 to the manager. -/
def frW (p : List Byte) : Frame := ⟨0, false, 0, 1, 0, p, false⟩
/-- A manager. -/
def manS (l : List (Fld × Nat)) : State := { st ([(Reg.domStatusState, 5), (Reg.domStatusRole, 1), (Reg.sysOpmodeMode, 2)] ++ l) with boot := .done }

/-! ## Well-formedness: the check accepts a term of each command that it restricts, and refuses one that breaks each of its conditions -/

theorem test_wf_accepts_1 : ([
    .registerWrite 0 .m 0 4 0,
    .modeWrite 0 0,
    .levelChangeApply 0,
    .controlStoreWrite 0 0 0,
    .b1FillDone 0,
    .imageApplyDone 0,
    .standbyUnitGate 0,
    .goodWedgeMark 0 0 0 0,
    .missingWedgeMark 0 false,
    .xchkDetect 0 0,
    .ceilingChange false 0,
    .snapshotTake 0 0,
    .alarmArm 0 0,
    .alarmFire 0,
    .plankFetch 0 0,
    .plankSeek 0 0,
    .plankSettle 0 0,
    .plankRead 0 0,
    .plankWrite 0 0,
    .plankPreheat 0 0,
    .plankProbe 0 0,
    .plankCal 0 0,
    .plankMark 0 0,
    .markerPlank 0 0,
    .microwordExecute 0 0 none,
    .parityReloadDone 0,
    .nolockTimeout 0 0,
    .writeGateFall 0 0 0,
    .bwkAbort 0 0,
    .bwkResume 0,
    .servoSample 0 0 ⟨false, 0, 0, 0, 0, 0, 0, 0, 0, 0, 0, 0, 0, 0, 0, none⟩,
    .lawOverrun 0,
    .coastExhausted 0,
    .feLimitFault 0,
    .settleRunMet 0,
    .settlePlankRun 0 0,
    .settleTimeout 0 0,
    .reacquired 0 0,
    .reacqTimeout 0,
    .seekArrival 0 0,
    .seekTimeout 0 0,
    .seekVerrFault 0 0,
    .srvCmdLoad 0 0 0 0,
    .srvCmdUnload 0,
    .srvCmdRetract 0,
    .unloadRampReached 0,
    .retractDone 0 0,
    .setupReplay 0,
    .tapDataAccess 0 none,
    .spnCmdStart 0 0,
    .spnCmdClear 0,
    .zeroCrossing 0 0 none,
    .speedBelowFlyMin 0,
    .spindleBrakeDone 0,
    .retractStart 0 0,
    .retractPhaseEnd 0,
    .retractPhaseTimeout 0,
    .astSample 0 0 none,
    .proxyLoss 0 0,
    .astStagedApply 0] : List Instr).all (fun i => i.wf) = true := by decide +kernel

theorem test_wf_accepts_2 : ([
    .astTblDataAccess 0 none,
    .astSetDataAccess 0 none,
    .preampFault 0 0,
    .preampFaultClear 0,
    .preTransactionDone 0,
    .readSector 0 0 ⟨[], [], [], [], []⟩,
    .writeSector 0 0,
    .fastDecodeDone 0 0 0 [],
    .decodeDeadlineCut 0 0 0 [],
    .readResultWrite 0,
    .channelGrant 0 0,
    .rdcStagedApply 0,
    .rdcProfDataAccess 0 none,
    .rdcEqDataAccess 0 none,
    .channelLockLoss 0 0 false,
    .channelRelock 0,
    .channelRelockTimeout 0,
    .twinWaitExpiry 0,
    .pcieLaneFail 0 0,
    .sqTailDoorbell 0 0 0,
    .cqHeadDoorbell 0 0 0,
    .commandFetch 0 0 0 0 ((List.replicate 64 0)),
    .commandBegin 0,
    .completionPost 0 0,
    .createIoSq 0 0 0 0 0 0,
    .createIoCq 0 0 0 0 0 false,
    .deleteIoSq 0 0,
    .deleteIoCq 0 0,
    .getLogPage 0 0 0 0 0,
    .identify 0 0 0 0,
    .abort 0 0 0 0,
    .setFeatures 0 0 0 false,
    .setFeaturesPowerMgmt 0 0,
    .setFeaturesApst 0 false ((List.replicate 32 0)) false,
    .setFeaturesHctm 0 0 false,
    .setFeaturesTwin 0 0 false,
    .setFeaturesIdleCadence 0 0 false,
    .setFeaturesNsMask 0 0,
    .getFeatures 0 0 0 0,
    .asynchronousEventRequest 0 0,
    .firmwareImageDownload 0 0 [],
    .firmwareCommitCa0 0 0,
    .firmwareCommitCa1 0 0,
    .firmwareCommitCa2 0 0,
    .formatNvm 0 0 0 0 0 ((List.replicate 64 0)),
    .sanitize 0 0 [],
    .flush 0,
    .write 0 false [] [],
    .read 0 false,
    .writeZeroes 0,
    .zoneAppend 0 false [] [],
    .zoneClose 0,
    .zoneFinish 0,
    .zoneOpen 0,
    .zoneReset 0,
    .zoneOffline 0,
    .setZoneDescExt 0,
    .reportZones 0,
    .extendedReportZones 0,
    .idleCadenceStep 1] : List Instr).all (fun i => i.wf) = true := by decide +kernel

theorem test_wf_accepts_3 : ([
    .miConfigSet 0 0,
    .miTunneledAdmin 0 0 0 0 0 0,
    .ringReqProdWrite 0 0,
    .ringResConsWrite 0 0,
    .ringEnable 0,
    .ringDisable 0,
    .ringDrainDone 0,
    .ringEntryAdmit 0,
    .heldResultWrite 0,
    .lookup 0 0,
    .alloc 0 0,
    .fillOk 0 0,
    .fillFail 0 0,
    .clean 0 0,
    .invalidate 0 0,
    .pin 0 0,
    .unpin 0 0,
    .wayGated 0,
    .memCorrectedRead 0 0 0,
    .memUncorrectableRead 0 0,
    .trackerWriteback 0,
    .scrubStep 0 0,
    .hartWatchdogExpiry 0 0,
    .coreFault 0 0,
    .coreRejoin 0,
    .fltCoreOnline 0 0,
    .fltWdogKick 0 0 0,
    .fltDeclareContained 0 .m 0,
    .fltDeclareDeviceFatal 0 .m 0,
    .fltDeclareHart 0 .m 0 0,
    .run 0 0,
    .factory 0,
    .calInternalRunEnd 0 [] false,
    .calWindowClose 0 0 [] false,
    .calOverlayApply 0,
    .apply 0,
    .discard 0,
    .powerLossDetect 0 0,
    .lastGaspRecord 0,
    .vholdBelowVmin 0,
    .supplyReturn 0 0,
    .holdupTestDone 0 0 0,
    .vmArrival 0,
    .hvFaultAssert 0,
    .hvbAccess 0 .m false 0x1000 0,
    .thmSample 0 [],
    .riseClearExpiry 0,
    .thermalTrip 0 0,
    .thermalRestart ((List.replicate 13 0)),
    .nvmSubsystemReset 0 0,
    .hotReset 0,
    .flr 0,
    .ccEnClear 0,
    .ccEnSet 0 0 0 0 0 0,
    .safe ⟨0, false, 0, 0, 0, List.replicate 12 0, false⟩,
    .notice ⟨0, false, 0, 0, 0, List.replicate 12 0, false⟩ 0,
    .sync ⟨0, false, 0, 0, 0, List.replicate 12 0, false⟩ 0 0,
    .enum ⟨0, false, 0, 0, 0, List.replicate 12 0, false⟩,
    .tokenReq ⟨0, false, 0, 0, 0, List.replicate 12 0, false⟩,
    .tokenGrant ⟨0, false, 0, 0, 0, List.replicate 12 0, false⟩] : List Instr).all (fun i => i.wf) = true := by decide +kernel

theorem test_wf_accepts_4 : ([
    .tokenReturn ⟨0, false, 0, 0, 0, List.replicate 12 0, false⟩,
    .tokenQueued ⟨0, false, 0, 0, 0, List.replicate 12 0, false⟩,
    .activate ⟨0, false, 0, 0, 0, List.replicate 12 0, false⟩,
    .reset ⟨0, false, 0, 0, 0, List.replicate 12 0, false⟩,
    .health ⟨0, false, 0, 0, 0, List.replicate 12 0, false⟩,
    .pull ⟨0, false, 0, 0, 0, List.replicate 12 0, false⟩,
    .data ⟨0, false, 0, 0, 0, List.replicate 12 0, false⟩,
    .blockEnd ⟨0, false, 0, 0, 0, List.replicate 12 0, false⟩,
    .ack ⟨0, false, 0, 0, 0, List.replicate 12 0, false⟩,
    .nak ⟨0, false, 0, 0, 0, List.replicate 12 0, false⟩,
    .task ⟨0, false, 0, 0, 0, List.replicate 12 0, false⟩,
    .user ⟨0, false, 0, 0, 0, List.replicate 12 0, false⟩,
    .wxLaneUp 0,
    .wxLaneDown 0 0,
    .domTimeSetWrite 0 0,
    .recordPost 0 0 0 [] false,
    .recPostGo 0 .m 0,
    .counterWrap 0,
    .pmuCounterWrite 0 0 .m 0,
    .fastDecoderCheckFail 0,
    .pcieLinkUp 0 0 0,
    .aggregationTimeExpiry 0 0,
    .railOutOfRange 0] : List Instr).all (fun i => i.wf) = true := by decide +kernel

theorem test_wf_refuses_1 : ([
    .registerWrite 20 .m 0 4 0,
    .registerWrite 0 .m 0x1000000000 4 0,
    .registerWrite 0 .m 0 3 0,
    .registerWrite 0 .m 0 4 (2 ^ 32),
    .modeWrite 32 0,
    .levelChangeApply 32,
    .controlStoreWrite 5 0 0,
    .controlStoreWrite 0 262144 0,
    .b1FillDone 16,
    .imageApplyDone 65536,
    .standbyUnitGate 9,
    .goodWedgeMark 2 0 0 0,
    .goodWedgeMark 0 32 0 0,
    .goodWedgeMark 0 0 fullAngles 0,
    .goodWedgeMark 0 0 0 2048,
    .missingWedgeMark 2 false,
    .xchkDetect 2 0,
    .xchkDetect 0 2097152,
    .ceilingChange false 4,
    .snapshotTake fullAngles 0,
    .snapshotTake 0 (2 ^ 64),
    .alarmArm 20 0,
    .alarmFire fullAngles,
    .plankFetch 2 0,
    .plankFetch 0 fullAngles,
    .plankSeek 2 0,
    .plankSeek 0 fullAngles,
    .plankSettle 2 0,
    .plankSettle 0 fullAngles,
    .plankRead 2 0,
    .plankRead 0 fullAngles,
    .plankWrite 2 0,
    .plankWrite 0 fullAngles,
    .plankPreheat 2 0,
    .plankPreheat 0 fullAngles,
    .plankProbe 2 0,
    .plankProbe 0 fullAngles,
    .plankCal 2 0,
    .plankCal 0 fullAngles,
    .plankMark 2 0,
    .plankMark 0 fullAngles,
    .markerPlank 2 0,
    .markerPlank 0 fullAngles,
    .microwordExecute 2 0 none,
    .microwordExecute 0 fullAngles none,
    .parityReloadDone 2,
    .nolockTimeout 2 0,
    .nolockTimeout 0 fullAngles,
    .writeGateFall 2 0 0,
    .writeGateFall 0 fullAngles 0,
    .bwkAbort 2 0,
    .bwkAbort 0 fullAngles,
    .bwkResume 2,
    .servoSample 2 0 ⟨false, 0, 0, 0, 0, 0, 0, 0, 0, 0, 0, 0, 0, 0, 0, none⟩,
    .servoSample 0 fullAngles ⟨false, 0, 0, 0, 0, 0, 0, 0, 0, 0, 0, 0, 0, 0, 0, none⟩,
    .servoSample 0 0 ⟨false, 16777216, 0, 0, 0, 0, 0, 0, 0, 0, 0, 0, 0, 0, 0, none⟩,
    .servoSample 0 0 ⟨false, 0, 2048, 0, 0, 0, 0, 0, 0, 0, 0, 0, 0, 0, 0, none⟩,
    .servoSample 0 0 ⟨false, 0, 0, 16, 0, 0, 0, 0, 0, 0, 0, 0, 0, 0, 0, none⟩,
    .servoSample 0 0 ⟨false, 0, 0, 0, 4096, 0, 0, 0, 0, 0, 0, 0, 0, 0, 0, none⟩,
    .servoSample 0 0 ⟨false, 0, 0, 0, 0, 4096, 0, 0, 0, 0, 0, 0, 0, 0, 0, none⟩] : List Instr).all (fun i => !i.wf) = true := by decide +kernel

theorem test_wf_refuses_2 : ([
    .servoSample 0 0 ⟨false, 0, 0, 0, 0, 0, 4096, 0, 0, 0, 0, 0, 0, 0, 0, none⟩,
    .servoSample 0 0 ⟨false, 0, 0, 0, 0, 0, 0, 4096, 0, 0, 0, 0, 0, 0, 0, none⟩,
    .servoSample 0 0 ⟨false, 0, 0, 0, 0, 0, 0, 0, 256, 0, 0, 0, 0, 0, 0, none⟩,
    .servoSample 0 0 ⟨false, 0, 0, 0, 0, 0, 0, 0, 0, 2, 0, 0, 0, 0, 0, none⟩,
    .servoSample 0 0 ⟨false, 0, 0, 0, 0, 0, 0, 0, 0, 0, 0, 65536, 0, 0, 0, none⟩,
    .servoSample 0 0 ⟨false, 0, 0, 0, 0, 0, 0, 0, 0, 0, 0, 0, 65536, 0, 0, none⟩,
    .lawOverrun 2,
    .coastExhausted 2,
    .feLimitFault 2,
    .settleRunMet 2,
    .settlePlankRun 2 0,
    .settlePlankRun 0 fullAngles,
    .settleTimeout 2 0,
    .settleTimeout 0 fullAngles,
    .reacquired 2 0,
    .reacquired 0 fullAngles,
    .reacqTimeout 2,
    .seekArrival 2 0,
    .seekArrival 0 fullAngles,
    .seekTimeout 2 0,
    .seekTimeout 0 fullAngles,
    .seekVerrFault 2 0,
    .seekVerrFault 0 fullAngles,
    .srvCmdLoad 2 0 0 0,
    .srvCmdLoad 0 32 0 0,
    .srvCmdLoad 0 0 1048576 0,
    .srvCmdLoad 0 0 0 fullAngles,
    .srvCmdUnload 2,
    .srvCmdRetract 2,
    .unloadRampReached 2,
    .retractDone 2 0,
    .retractDone 0 fullAngles,
    .setupReplay 2,
    .tapDataAccess 2 none,
    .spnCmdStart 4 0,
    .spnCmdStart 0 65536,
    .spnCmdClear 65536,
    .zeroCrossing 65536 0 none,
    .speedBelowFlyMin 65536,
    .spindleBrakeDone 65536,
    .retractStart 4 0,
    .retractStart 0 16,
    .retractPhaseEnd 2,
    .retractPhaseTimeout 2,
    .astSample 2 0 none,
    .astSample 0 fullAngles none,
    .astSample 0 0 ((some 4294967296)),
    .proxyLoss 2 0,
    .proxyLoss 0 fullAngles,
    .astStagedApply 2,
    .astTblDataAccess 2 none,
    .astSetDataAccess 2 none,
    .preampFault 2 0,
    .preampFault 0 fullAngles,
    .preampFaultClear 2,
    .preTransactionDone 65536,
    .readSector 2 0 ⟨[], [], [], [], []⟩,
    .readSector 0 fullAngles ⟨[], [], [], [], []⟩,
    .writeSector 2 0,
    .writeSector 0 fullAngles] : List Instr).all (fun i => !i.wf) = true := by decide +kernel

theorem test_wf_refuses_3 : ([
    .fastDecodeDone 8 0 0 [],
    .decodeDeadlineCut 8 0 0 [],
    .readResultWrite 2,
    .channelGrant 2 0,
    .channelGrant 0 fullAngles,
    .rdcStagedApply 2,
    .rdcProfDataAccess 2 none,
    .rdcEqDataAccess 2 none,
    .channelLockLoss 2 0 false,
    .channelRelock 2,
    .channelRelockTimeout 2,
    .twinWaitExpiry 65536,
    .pcieLaneFail 4 0,
    .sqTailDoorbell 256 0 0,
    .sqTailDoorbell 0 65536 0,
    .sqTailDoorbell 0 0 65536,
    .cqHeadDoorbell 256 0 0,
    .cqHeadDoorbell 0 65536 0,
    .cqHeadDoorbell 0 0 65536,
    .commandFetch 256 0 0 0 ((List.replicate 64 0)),
    .commandFetch 0 65536 0 0 ((List.replicate 64 0)),
    .commandFetch 0 0 65536 0 ((List.replicate 64 0)),
    .commandFetch 0 0 0 4 ((List.replicate 64 0)),
    .commandFetch 0 0 0 0 [],
    .commandBegin 65536,
    .completionPost 4 0,
    .completionPost 0 65536,
    .createIoSq 256 0 0 0 0 0,
    .createIoSq 0 65536 0 0 0 0,
    .createIoSq 0 0 0 65537 0 0,
    .createIoSq 0 0 0 0 65536 0,
    .createIoSq 0 0 0 0 0 4,
    .createIoCq 256 0 0 0 0 false,
    .createIoCq 0 65536 0 0 0 false,
    .createIoCq 0 0 0 65537 0 false,
    .createIoCq 0 0 0 0 2048 false,
    .deleteIoSq 256 0,
    .deleteIoSq 0 65536,
    .deleteIoCq 256 0,
    .deleteIoCq 0 65536,
    .getLogPage 256 0 0 0 0,
    .getLogPage 0 256 0 0 0,
    .getLogPage 0 0 4294967296 0 0,
    .identify 256 0 0 0,
    .identify 0 256 0 0,
    .identify 0 0 4294967296 0,
    .identify 0 0 0 256,
    .abort 256 0 0 0,
    .abort 0 65536 0 0,
    .abort 0 0 65536 0,
    .abort 0 0 0 65536,
    .setFeatures 256 0 0 false,
    .setFeatures 0 256 0 false,
    .setFeatures 0 0 4294967296 false,
    .setFeaturesPowerMgmt 256 0,
    .setFeaturesPowerMgmt 0 32,
    .setFeaturesApst 256 false ((List.replicate 32 0)) false,
    .setFeaturesApst 0 false [] false,
    .setFeaturesHctm 256 0 false,
    .setFeaturesHctm 0 4294967296 false] : List Instr).all (fun i => !i.wf) = true := by decide +kernel

theorem test_wf_refuses_4 : ([
    .setFeaturesTwin 256 0 false,
    .setFeaturesTwin 0 4294967296 false,
    .setFeaturesIdleCadence 256 0 false,
    .setFeaturesIdleCadence 0 4294967296 false,
    .setFeaturesNsMask 256 0,
    .setFeaturesNsMask 0 4294967296,
    .getFeatures 256 0 0 0,
    .getFeatures 0 256 0 0,
    .getFeatures 0 0 256 0,
    .getFeatures 0 0 0 4294967296,
    .asynchronousEventRequest 256 0,
    .asynchronousEventRequest 0 65536,
    .firmwareImageDownload 256 0 [],
    .firmwareImageDownload 0 4294967296 [],
    .firmwareCommitCa0 256 0,
    .firmwareCommitCa0 0 4,
    .firmwareCommitCa1 256 0,
    .firmwareCommitCa1 0 4,
    .firmwareCommitCa2 256 0,
    .firmwareCommitCa2 0 4,
    .formatNvm 256 0 0 0 0 ((List.replicate 64 0)),
    .formatNvm 0 4294967296 0 0 0 ((List.replicate 64 0)),
    .formatNvm 0 0 16 0 0 ((List.replicate 64 0)),
    .formatNvm 0 0 0 8 0 ((List.replicate 64 0)),
    .formatNvm 0 0 0 0 8 ((List.replicate 64 0)),
    .formatNvm 0 0 0 0 0 [],
    .sanitize 256 0 [],
    .sanitize 0 8 [],
    .sanitize 0 0 [[]],
    .flush 65536,
    .write 65536 false [] [],
    .read 65536 false,
    .writeZeroes 65536,
    .zoneAppend 65536 false [] [],
    .zoneClose 65536,
    .zoneFinish 65536,
    .zoneOpen 65536,
    .zoneReset 65536,
    .zoneOffline 65536,
    .setZoneDescExt 65536,
    .reportZones 65536,
    .extendedReportZones 65536,
    .idleCadenceStep 0,
    .miConfigSet 0 4294967296,
    .miTunneledAdmin 256 0 0 0 0 0,
    .miTunneledAdmin 0 256 0 0 0 0,
    .miTunneledAdmin 0 0 256 0 0 0,
    .miTunneledAdmin 0 0 0 4294967296 0 0,
    .ringReqProdWrite 7 0,
    .ringResConsWrite 7 0,
    .ringEnable 7,
    .ringDisable 7,
    .ringDrainDone 7,
    .ringEntryAdmit 7,
    .heldResultWrite 7,
    .lookup 4 0,
    .alloc 4 0,
    .fillOk 4 0,
    .fillFail 4 0,
    .clean 4 0] : List Instr).all (fun i => !i.wf) = true := by decide +kernel

theorem test_wf_refuses_5 : ([
    .invalidate 4 0,
    .pin 4 0,
    .unpin 4 0,
    .wayGated 16,
    .memCorrectedRead 20 0 0,
    .memCorrectedRead 0 0x1000000000 0,
    .memCorrectedRead 0 0 65536,
    .memUncorrectableRead 20 0,
    .memUncorrectableRead 0 0x1000000000,
    .trackerWriteback 32,
    .scrubStep 3 0,
    .scrubStep 0 3,
    .hartWatchdogExpiry 4 0,
    .coreFault 4 0,
    .coreRejoin 4,
    .fltCoreOnline 4 0,
    .fltWdogKick 4 0 0,
    .fltWdogKick 0 4 0,
    .fltDeclareContained 4 .m 0,
    .fltDeclareDeviceFatal 4 .m 0,
    .fltDeclareHart 4 .m 0 0,
    .run 8 0,
    .run 0 256,
    .factory 8,
    .calInternalRunEnd 8 [] false,
    .calWindowClose 2 0 [] false,
    .calWindowClose 0 fullAngles [] false,
    .calOverlayApply 8,
    .apply 64,
    .discard 64,
    .powerLossDetect 65536 0,
    .powerLossDetect 0 65536,
    .lastGaspRecord 65536,
    .vholdBelowVmin 65536,
    .supplyReturn 65536 0,
    .supplyReturn 0 65536,
    .holdupTestDone 0 0 65536,
    .vmArrival 65536,
    .hvFaultAssert 1024,
    .hvbAccess 20 .m false 0x1000 0,
    .hvbAccess 0 .m false 4095 0,
    .hvbAccess 0 .m false 0x10000 0,
    .thmSample 0 [(14, 0)],
    .thmSample 0 [(0, 65536)],
    .riseClearExpiry 4,
    .thermalTrip 13 0,
    .thermalTrip 0 65536,
    .thermalRestart [],
    .thermalRestart ((65536 :: List.replicate 12 0)),
    .nvmSubsystemReset 256 0,
    .nvmSubsystemReset 0 4294967296,
    .hotReset 2,
    .flr 256,
    .ccEnClear 256,
    .ccEnSet 256 0 0 0 0 0,
    .safe ⟨32, false, 0, 0, 0, List.replicate 12 0, false⟩,
    .safe ⟨0, false, 8, 0, 0, List.replicate 12 0, false⟩,
    .safe ⟨0, false, 0, 65536, 0, List.replicate 12 0, false⟩,
    .safe ⟨0, false, 0, 0, 65536, List.replicate 12 0, false⟩,
    .safe ⟨0, false, 0, 0, 0, [], false⟩] : List Instr).all (fun i => !i.wf) = true := by decide +kernel

theorem test_wf_refuses_6 : ([
    .notice ⟨32, false, 0, 0, 0, List.replicate 12 0, false⟩ 0,
    .sync ⟨32, false, 0, 0, 0, List.replicate 12 0, false⟩ 0 0,
    .sync ⟨0, false, 0, 0, 0, List.replicate 12 0, false⟩ (2 ^ 64) 0,
    .enum ⟨32, false, 0, 0, 0, List.replicate 12 0, false⟩,
    .tokenReq ⟨32, false, 0, 0, 0, List.replicate 12 0, false⟩,
    .tokenGrant ⟨32, false, 0, 0, 0, List.replicate 12 0, false⟩,
    .tokenReturn ⟨32, false, 0, 0, 0, List.replicate 12 0, false⟩,
    .tokenQueued ⟨32, false, 0, 0, 0, List.replicate 12 0, false⟩,
    .activate ⟨32, false, 0, 0, 0, List.replicate 12 0, false⟩,
    .reset ⟨32, false, 0, 0, 0, List.replicate 12 0, false⟩,
    .health ⟨32, false, 0, 0, 0, List.replicate 12 0, false⟩,
    .pull ⟨32, false, 0, 0, 0, List.replicate 12 0, false⟩,
    .data ⟨32, false, 0, 0, 0, List.replicate 12 0, false⟩,
    .blockEnd ⟨32, false, 0, 0, 0, List.replicate 12 0, false⟩,
    .ack ⟨32, false, 0, 0, 0, List.replicate 12 0, false⟩,
    .nak ⟨32, false, 0, 0, 0, List.replicate 12 0, false⟩,
    .task ⟨32, false, 0, 0, 0, List.replicate 12 0, false⟩,
    .user ⟨32, false, 0, 0, 0, List.replicate 12 0, false⟩,
    .wxLaneUp 32,
    .wxLaneDown 32 0,
    .wxLaneDown 0 256,
    .domTimeSetWrite 20 0,
    .recordPost 64 0 0 [] false,
    .recordPost 0 8 0 [] false,
    .recordPost 0 0 65536 [] false,
    .recPostGo 5 .m 0,
    .counterWrap 8,
    .pmuCounterWrite 20 0 .m 0,
    .pmuCounterWrite 0 8 .m 0,
    .fastDecoderCheckFail 2,
    .pcieLinkUp 2 0 0,
    .pcieLinkUp 0 8 0,
    .pcieLinkUp 0 0 8,
    .aggregationTimeExpiry 256 0,
    .aggregationTimeExpiry 0 2048,
    .railOutOfRange 5] : List Instr).all (fun i => !i.wf) = true := by decide +kernel

/-! ## Facts worked out by hand from the spec -/

/-- The table gives no row bits: no word spells a command. -/
theorem test_no_word_spells_a_command : decodeTableWord 32 0 = none ∧ State.reset.withFetchWord 32 0 = State.reset :=
  ⟨rfl, rfl⟩

/-- A state is in BOOT right after reset, with PHASE IDLE (R33, R447). -/
theorem test_reset_is_boot : State.reset.rd Reg.sysOpmodeMode = 0 ∧ State.reset.rd Reg.rstStatusPhase = 0 := by decide +kernel

/-- R149: the halt word has the part 0x00E0_0000 at offset 0xC, its other parts zero, and the parity byte 0x80. -/
theorem test_halt_word_parity : csParity (BitVec.ofNat 128 (0x00E00000 * 2 ^ 96)) = 0x80 := by decide +kernel

/-- R507: sequence 65,537 lives in slot 1. -/
theorem test_record_slot : recSlot 65537 = 0x10000040 := by decide +kernel

/-- R504: a CRC-8 with polynomial x⁸ + x² + x + 1 and initial value 0 of one byte 0x01 is 0x07. -/
theorem test_crc8_of_one : crc8 [1] = 7 := by decide +kernel

/-- R322: 48 is no ring size, 65,536 is one. -/
theorem test_ring_sizes : ringSizeTaken 48 = 0 ∧ ringSizeTaken 65536 = 65536 ∧ ringSizeTaken 131072 = 0 := by decide +kernel

/-- R25: the last byte of the recorder is read-only MRAM, and the byte past SRAM is in no range. -/
theorem test_ranges : accessRange State.reset 0x103FFFFF 1 = some 2 ∧ accessRange State.reset 0x09000000 1 = none := by decide +kernel

/-- R465: the worker at port 5, position 0x25 has ID 0x0525 (the worked example of spec/18_update.md). -/
theorem test_device_id : ownId (st [(Reg.domStatusPort, 5), (Reg.domStatusPosition, 0x25)]) = 0x0525 := by decide +kernel

/-- The exec of a command that answers a next state, as that state. -/
def after (i : Instr) (s : State) : State := match exec i s with | .next t => t | _ => s

/-- R20, R29: a MODE write to an idle unit takes LEVEL, and one of 0 clears it. -/
theorem test_mode_write :
    (after (.modeWrite 2 1) (st [])).rd Reg.angModeLevel = 1
    ∧ (after (.modeWrite 2 0) (st [(Reg.angModeLevel, 1)])).rd Reg.angModeLevel = 0 := by decide +kernel

/-- R12: a half-word store to a register is a bus error and a corrected event. -/
theorem test_half_word_store :
    (after (.registerWrite 0 .m 0x20000010 2 1) {}).resp = .busError
    ∧ (after (.registerWrite 0 .m 0x20000010 2 1) {}).rd Reg.fltCounts0Corrected = 1 := by decide +kernel

/-- R9: a store to SRAM lies lowest byte first. -/
theorem test_store_little_endian :
    (after (.registerWrite 0 .m 0x08000000 4 0x04030201) {}).bytes 0x08000000 4 = [1, 2, 3, 4] := by decide +kernel

/-- R78: the spindle above 300 rpm takes ANG from STOPPED to COARSE. -/
theorem test_spindle_above_300 : (after (.spindleAbove300 true) (st [])).rd Reg.angStatusState = 1 := by decide +kernel

/-- R508, R510: a post joins the queue, and the record takes the sequence. -/
theorem test_record_write :
    (after .recordWrite { st [(Reg.recHeadSeqSeq, 0xFFFFFFFF)] with
      boot := .done, recorder := { queue := [⟨1, 1, 1, [], false⟩] } }).rd Reg.recHeadSeqSeq = 0 := by decide +kernel

/-- R514: a counter that counts wraps to 0 with its OVF bit. -/
theorem test_counter_wrap :
    (after (.counterWrap 3) (st [(Reg.pmuEvselEn.elem 3, 1), (Reg.pmuCntLoCount.elem 3, 9)])).rd Reg.pmuOvfOvf = 8 := by
  decide +kernel

/-- R504: ARG1 written over the service port is register 3; the answer is OK. -/
theorem test_service_port :
    (after (.servicePortRequest ([0x7E, 1, 3, 5, 0, 0, 0] ++ [BitVec.ofNat 8 (crc8 [1, 3, 5, 0, 0, 0])]))
      (st [(Reg.sysOpmodeMode, 1)])).upd.uan.args = [0, 5, 0, 0] := by decide +kernel

/-- A step runs the command in front and leaves the rest of the queue. -/
theorem test_step_front :
    (match step { st [] with pending := [.spindleAbove300 true, .spindleBelow300] } with
     | .next t => t.pending == [.spindleBelow300] && t.rd Reg.angStatusState == 1
     | _ => false) = true := by decide +kernel

/-! ## Witnesses: the hypotheses of every part of every statement can be met together -/

theorem witness_CompleteAccess :
    (∃ (s : State) (m addr size data : Nat) (priv : Priv), 0 < size ∧ 0x08000000 ≤ addr ∧ addr + size ≤ 0x09000000) ∧
    (∃ (s : State) (m addr data : Nat) (priv : Priv), accessRange s addr 4 = some 4 ∧ addr % 4 = 0 ∧ windowGated s (windowOf addr) = false ∧ privRefused addr priv = false) ∧
    (∃ (s : State) (unit : Nat) (data : Word), hasMode unit = true ∧ windowGated s unit = false ∧ unitIdle (if fieldOf data 16 16 = 0 then s.clr (modeIgnored unit) else s) unit = true) ∧
    (∃ (s : State) (unit : Nat), hasMode unit = true ∧ s.flag (modePend unit) = true ∧ unitIdle s unit = true) ∧
    (∃ (s : State) (store word : Nat) (data : Word), store < 5 ∧ word < 8192 ∧ store ∉ s.gated ∧ s.flag (modeLevel (storeUnit store)) = true ∧ unitIdle s (storeUnit store) = true) ∧
    (∃ (s : State) (m offset : Nat) (priv : Priv) (data : Word), offset % 4 = 0 ∧ 0x1000 ≤ offset ∧ offset < 0x10000 ∧ s.rd Reg.hvbStatusLinkUp = 1) :=
  ⟨⟨{}, 0, 0x08000000, 4, 1, .m, by decide +kernel⟩,
    ⟨{}, 0, 0x20000010, 1, .m, by decide +kernel⟩,
    ⟨st [], 2, 1#32, by decide +kernel⟩,
    ⟨st [(modePend 2, 1)], 2, by decide +kernel⟩,
    ⟨st [(modeLevel 3, 1)], 0, 0, 0#32, by decide +kernel⟩,
    ⟨st [(Reg.hvbStatusLinkUp, 1)], 0, 0x1000, .m, 0#32, by decide +kernel⟩⟩

theorem witness_CompleteLoad :
    (∃ (s : State) (src : Nat) (trial : Bool), s.boot = .b2 ∧ s.rd Reg.sysOpmodeMode = 0 ∧ s.upd.source = none ∧ s.upd.begun = true ∧ s.rd Reg.rstStatusPhase = 0 ∧ bootChoice s = some (src, trial)) ∧
    (∃ (s : State) (src : Nat), s.boot = .b2 ∧ s.rd Reg.sysOpmodeMode = 0 ∧ s.upd.source = some src ∧ s.rd Reg.rstStatusPhase = 0 ∧ s.rd Reg.simStatusState = 1) ∧
    (∃ (s : State) (src : Nat), s.boot = .b2 ∧ s.rd Reg.sysOpmodeMode = 0 ∧ s.upd.source = some src ∧ s.rd Reg.rstStatusPhase = 0 ∧ s.rd Reg.simStatusState = 2) ∧
    (∃ (s : State) (src : Nat), s.boot = .b2 ∧ s.rd Reg.sysOpmodeMode = 0 ∧ s.upd.source = some src ∧ s.rd Reg.rstStatusPhase = 0 ∧ s.rd Reg.simStatusState = 3) ∧
    (∃ (s : State) (src rpm : Nat), s.boot = .b2 ∧ s.rd Reg.sysOpmodeMode = 0 ∧ s.upd.source = some src ∧ s.rd Reg.rstStatusPhase = 0 ∧ s.rd Reg.simStatusState = 4 ∧ s.rd Reg.simStatusMinFail = 0 ∧ s.rd Reg.memStatusStFail = 0 ∧ s.present (bitSrv 0) = true) ∧
    (∃ (s : State), s.boot = .b4 ∧ s.flt.safe = .none ∧ s.rd Reg.spnStatusState = 5 ∧ allFollow s = true ∧ s.upd.displaced = false) ∧
    (∃ (s : State) (data : Word), fieldOf data 16 16 = 0xB0C6 ∧ fieldOf data 0 7 < 22) :=
  ⟨⟨{ st [(Reg.updSlotState, 3)] with boot := .b2, upd := { begun := true } }, 0, false, by decide +kernel⟩,
    ⟨{ st [(Reg.simStatusState, 1)] with boot := .b2, upd := { source := some 0 } }, 0, by decide +kernel⟩,
    ⟨{ st [(Reg.simStatusState, 2)] with boot := .b2, upd := { source := some 0 } }, 0, by decide +kernel⟩,
    ⟨{ st [(Reg.simStatusState, 3)] with boot := .b2, upd := { source := some 0 } }, 0, by decide +kernel⟩,
    ⟨{ st [(Reg.simStatusState, 4), (Reg.simEffMask, 2 ^ 6)] with boot := .b2, upd := { source := some 0 } }, 0, 0, by decide +kernel⟩,
    ⟨{ st [(Reg.spnStatusState, 5)] with boot := .b4 }, by decide +kernel⟩,
    ⟨st [], 0xB0C60005#32, by decide +kernel⟩⟩

theorem witness_CompleteAngle :
    (∃ (s : State), s.rd Reg.angStatusState = 0) ∧
    (∃ (s : State), s.rd Reg.angStatusState ≠ 0) ∧
    (∃ (s : State) (act surface dev decoded : Nat), act < 2 ∧ s.rd Reg.angCtlSrcSel = 0 ∧ s.rd (Reg.srvStatusState.elem act) = 4 ∧ s.rd Reg.angStatusState = 1) ∧
    (∃ (s : State) (act surface dev decoded : Nat), act < 2 ∧ s.rd Reg.angCtlSrcSel = 0 ∧ s.rd (Reg.srvStatusState.elem act) = 4 ∧ s.rd Reg.angStatusState = 3 ∧ s.rd Reg.angStatusSrc = act ∧ s.rd Reg.angStatusIndexKnown = 1 ∧ predictedWedge s surface dev = decoded) ∧
    (∃ (s : State) (act : Nat), act < 2 ∧ s.rd Reg.angStatusState = 3 ∧ s.rd Reg.angStatusSrc = act ∧ s.rd Reg.angCoastCoastWedges ≠ 0) ∧
    (∃ (s : State), s.rd Reg.angStatusState = 4) ∧
    (∃ (s : State) (src diff : Nat), s.rd Reg.angCtlXchkLim ≠ 0 ∧ s.rd Reg.angCtlXchkLim < diff ∧ s.rd Reg.angCtlSrcSel = 0) ∧
    (∃ (s : State) (m : Nat) (data : Word), fieldOf data 16 11 < s.sim.cfg.w) ∧
    (∃ (s : State) (full : Nat), s.rd Reg.angAlarmPosEn = 1 ∧ s.rd Reg.angPosValid = 1 ∧ alarmAngle s ≤ full) :=
  ⟨⟨st [], by decide +kernel⟩,
    ⟨st [(Reg.angStatusState, 3)], by decide +kernel⟩,
    ⟨st [(Reg.srvStatusState, 4), (Reg.angStatusState, 1)], 0, 0, 0, 0, by decide +kernel⟩,
    ⟨st [(Reg.srvStatusState, 4), (Reg.angStatusState, 3), (Reg.angStatusIndexKnown, 1)], 0, 0, 0, 0, by decide +kernel⟩,
    ⟨st [(Reg.angStatusState, 3), (Reg.angCoastCoastWedges, 5)], 0, by decide +kernel⟩,
    ⟨st [(Reg.angStatusState, 4)], by decide +kernel⟩,
    ⟨st [(Reg.angCtlXchkLim, 3)], 0, 4, by decide +kernel⟩,
    ⟨{ sim := { cfg := { w := 288 } } }, 0, 0, by decide +kernel⟩,
    ⟨st [(Reg.angAlarmPosEn, 1), (Reg.angPosValid, 1)], 5, by decide +kernel⟩⟩

theorem witness_CompleteRung :
    (∃ (s : State) (rung : Nat), rung < 4 ∧ s.rd Reg.angRungCeilThm ≤ rung ∧ rung ≤ s.rd Reg.angRungCurrent) ∧
    (∃ (s : State) (data : Word), s.rd Reg.angModeLevel = 0 ∧ s.rd Reg.angRungPhase = 0 ∧ fieldOf data 31 1 = 0 ∧ rungJudge s (fieldOf data 8 2) = none) ∧
    (∃ (s : State), s.rd Reg.angRungPhase = 1 ∧ rungHeldReady s = true ∧ s.rd Reg.angModeLevel = 0) ∧
    (∃ (s : State), s.rd Reg.angRungPhase = 3 ∧ s.ang.returning = false) ∧
    (∃ (s : State), s.rd Reg.angRungPhase = 3 ∧ s.ang.returning = false) ∧
    (∃ (s : State), s.rd Reg.angRungPhase = 4 ∧ s.rd Reg.angModeLevel = 0) ∧
    (∃ (s : State), s.rd Reg.angRungPhase = 5 ∧ s.ang.returning = false ∧ s.rd Reg.angModeLevel = 0 ∧ s.rd Reg.angRungPend = 0 ∧ s.ang.powerPend = none ∧ s.change = none ∧ s.boot = .done) ∧
    (∃ (s : State), s.rd Reg.angRungPhase = 4 ∧ s.ang.returning = false) ∧
    (∃ (s : State), s.ang.returning = true ∧ s.boot = .done) ∧
    (∃ (s : State), s.rd Reg.angModeLevel = 1 ∧ s.rd Reg.angRungPhase = 0 ∧ rungJudge s (s.rd Reg.angRungTarget) = none) ∧
    (∃ (s : State), s.rd Reg.angModeLevel = 1 ∧ s.rd Reg.angRungPhase = 2 ∧ s.rd (Reg.bwkStatusGate.elem 0) = 0 ∧ s.rd (Reg.bwkStatusGate.elem 1) = 0) ∧
    (∃ (s : State), s.rd Reg.angModeLevel = 1 ∧ s.rd Reg.angRungPhase = 4 ∧ s.ang.settled = true ∧ s.ang.returning = false) ∧
    (∃ (s : State), s.rd Reg.angModeLevel = 1 ∧ s.rd Reg.angRungPhase = 5 ∧ s.ang.retuned = true ∧ s.ang.returning = false ∧ s.rd Reg.angRungPend = 0) ∧
    (∃ (s : State), s.rd Reg.angModeLevel = 1 ∧ s.rd Reg.angRungPhase = 1 ∧ s.ang.returning = false ∧ s.rd Reg.angRungPend = 0) :=
  ⟨⟨st [(Reg.angRungCurrent, 2)], 1, by decide +kernel⟩,
    ⟨{ st [(Reg.sysOpmodeMode, 2), (Reg.angStatusState, 3)] with sim := { cfg := { rungCount := 4 } } }, 0x100, by decide +kernel⟩,
    ⟨st [(Reg.angRungPhase, 1)], by decide +kernel⟩,
    ⟨st [(Reg.angRungPhase, 3)], by decide +kernel⟩,
    ⟨st [(Reg.angRungPhase, 3)], by decide +kernel⟩,
    ⟨st [(Reg.angRungPhase, 4)], by decide +kernel⟩,
    ⟨{ st [(Reg.angRungPhase, 5)] with boot := .done }, by decide +kernel⟩,
    ⟨st [(Reg.angRungPhase, 4)], by decide +kernel⟩,
    ⟨{ ang := { returning := true }, boot := .done }, by decide +kernel⟩,
    ⟨{ st [(Reg.angModeLevel, 1), (Reg.sysOpmodeMode, 2), (Reg.angStatusState, 3), (Reg.angRungTarget, 1)] with sim := { cfg := { rungCount := 4 } } }, by decide +kernel⟩,
    ⟨st [(Reg.angModeLevel, 1), (Reg.angRungPhase, 2)], by decide +kernel⟩,
    ⟨{ st [(Reg.angModeLevel, 1), (Reg.angRungPhase, 4)] with ang := { settled := true } }, by decide +kernel⟩,
    ⟨{ st [(Reg.angModeLevel, 1), (Reg.angRungPhase, 5)] with ang := { retuned := true } }, by decide +kernel⟩,
    ⟨st [(Reg.angModeLevel, 1), (Reg.angRungPhase, 1)], by decide +kernel⟩⟩

theorem witness_CompletePlank :
    (∃ (s : State) (n full : Nat), n < 2 ∧ bwkMayFetch s n = true ∧ (s.bwk.get n).cur = none ∧ (s.bwk.get n).chainEnded = false ∧ plankListPoison (ringAdmit s n) (plankOf (ringNextEntry s n).slot (ringNextEntry s n).bytes) = false ∧ plankFetchStatus (ringAdmit s n) n (ringNextEntry s n) (plankOf (ringNextEntry s n).slot (ringNextEntry s n).bytes) = none) ∧
    (∃ (s : State) (n full : Nat) (p : Plank), n < 2 ∧ plankMayBegin s n full actMark p = true ∧ p.count ≠ 0 ∧ (s.bwk.get n).next = none) ∧
    (∃ (s : State) (n full : Nat) (p : Plank), n < 2 ∧ plankMayBegin s n full p.action p = true ∧ p.count = 0 ∧ (s.bwk.get n).next = none) ∧
    (∃ (s : State) (n full : Nat) (p : Plank), n < 2 ∧ (s.bwk.get n).cur = some p ∧ (s.bwk.get n).next = none ∧ s.rd Reg.angStatusState ≠ 3 ∧ s.rd Reg.angStatusState ≠ 4 ∧ s.rd (Reg.bwkStatusState.elem n) = 3) ∧
    (∃ (s : State) (n full : Nat), n < 2 ∧ n ∉ s.gated) ∧
    (∃ (s : State) (n : Nat), n < 2 ∧ n ∉ s.gated ∧ s.rd (Reg.bwkStatusState.elem n) = 6 ∧ s.down (bitBwk n) = false) ∧
    (∃ (s : State) (n : Nat), 1 < n ∧ n < s.rings.length ∧ ringMayAdmit s n = true) ∧
    (∃ (s : State) (n full : Nat) (p : Plank), n < 2 ∧ plankMayBegin s n full actSettle p = true ∧ p.count ≠ 0 ∧ p.param % 256 ≠ 0 ∧ p.param / 256 % 65536 ≠ 0) ∧
    (∃ (s : State) (n full : Nat) (p : Plank), runsAlone s n actSettle p = true ∧ p.param % 256 ≤ (s.srv.get n).plankRun) ∧
    (∃ (s : State) (n full : Nat) (p : Plank), runsAlone s n actSettle p = true ∧ p.param / 256 % 65536 ≤ (s.srv.get n).plankWedges ∧ (s.srv.get n).plankRun < p.param % 256) :=
  ⟨⟨{ ({ st [(Reg.sysOpmodeMode, 2), (Reg.rngCtlEnable.elem 0, 1), (Reg.rngReqProdIdx.elem 0, 1), (Reg.simEffMask.elem 0, 16)] with rings := List.replicate 7 { reqSize := 4, resSize := 4 } } : State).store 0 [0, 0, 0, 0, 7, 0, 255, 0] with bwk := ⟨{ entries := [⟨0, 7, 0⟩] }, {}⟩ }, 0, 0, by decide +kernel⟩,
    ⟨bwkS (pl 7) [], 0, 0, pl 7, by decide +kernel⟩,
    ⟨bwkS { pl 2 with count := 0 } [], 0, 0, { pl 2 with count := 0 }, by decide +kernel⟩,
    ⟨{ st [(Reg.bwkStatusState, 3), (Reg.angStatusState, 1)] with bwk := ⟨{ cur := some (pl 2) }, {}⟩ }, 0, 0, pl 2, by decide +kernel⟩,
    ⟨st [], 0, 0, by decide +kernel⟩,
    ⟨st [(Reg.bwkStatusState, 6)], 0, by decide +kernel⟩,
    ⟨{ st [(Reg.sysOpmodeMode, 2), (Reg.rngCtlEnable.elem 2, 1), (Reg.rngReqProdIdx.elem 2, 1)] with rings := List.replicate 7 { reqSize := 4, resSize := 4 } }, 2, by decide +kernel⟩,
    ⟨bwkS { pl 1 with param := 257 } [], 0, 0, { pl 1 with param := 257 }, by decide +kernel⟩,
    ⟨runS (pl 1) [], 0, 0, pl 1, by decide +kernel⟩,
    ⟨runS { pl 1 with param := 1 } [], 0, 0, { pl 1 with param := 1 }, by decide +kernel⟩⟩

theorem witness_CompleteServo :
    (∃ (s : State) (n full : Nat) (smp : Sample), n < 2 ∧ s.rd (Reg.srvStatusState.elem n) ≠ 0 ∧ s.rd (Reg.srvStatusState.elem n) ≠ 8 ∧ s.rd (Reg.srvStatusState.elem n) ≠ 9) ∧
    (∃ (s : State) (n : Nat), n < 2 ∧ s.rd (Reg.srvStatusState.elem n) = 4 ∧ runningPlank s n actSeek = none ∧ runningPlank s n actSettle = none) ∧
    (∃ (s : State) (n : Nat), n < 2 ∧ s.rd (Reg.srvStatusState.elem n) = 5 ∧ s.rd (Reg.srvFbCoastValue.elem n) < (s.srv.get n).missRun) ∧
    (∃ (s : State) (n : Nat), n < 2 ∧ s.rd (Reg.srvStatusState.elem n) = 4 ∧ s.rd (Reg.srvFeTimeValue.elem n) ≤ (s.srv.get n).feCount) ∧
    (∃ (s : State) (n : Nat), n < 2 ∧ s.rd (Reg.srvStatusState.elem n) = 6 ∧ s.rd (Reg.srvReacqTimeValue.elem n) ≤ (s.srv.get n).sinceEntry ∧ s.rd (Reg.hvRetractActive.elem n) = 0) ∧
    (∃ (s : State) (n full : Nat) (p : Plank), n < 2 ∧ plankMayBegin s n full actSeek p = true ∧ p.count ≠ 0 ∧ s.rd (Reg.srvStatusState.elem n) = 4) ∧
    (∃ (s : State) (n full a : Nat), n < 2 ∧ (s.srv.get n).arrive = some a ∧ (s.srv.get n).seeking = true ∧ a ≤ frameAngle s (followedHead s n) full ∧ runningPlank s n actSeek = none) ∧
    (∃ (s : State) (n full : Nat), n < 2 ∧ s.rd (Reg.srvStatusState.elem n) = 2 ∧ (s.srv.get n).seeking = true ∧ (s.srv.get n).arrived = false ∧ seekExpired s n full = true) ∧
    (∃ (s : State) (n full : Nat), n < 2 ∧ s.rd (Reg.srvStatusState.elem n) = 2 ∧ (s.srv.get n).seeking = true ∧ (s.srv.get n).arrived = false) ∧
    (∃ (s : State) (n head track full : Nat), n < 2 ∧ 2 + n ∉ s.gated ∧ loadAccepted s n head track = true) ∧
    (∃ (s : State) (n : Nat), n < 2 ∧ 2 + n ∉ s.gated ∧ s.rd (Reg.srvStatusState.elem n) = 4 ∧ (s.bwk.get n).run.begun = false) ∧
    (∃ (s : State) (n : Nat), n < 2 ∧ 2 + n ∉ s.gated ∧ s.rd (Reg.hvRetractActive.elem n) = 0) ∧
    (∃ (s : State) (n : Nat), n < 2 ∧ 2 + n ∉ s.gated) ∧
    (∃ (s : State) (n : Nat), n < 2 ∧ s.rd (Reg.srvStatusState.elem n) = 3 ∧ s.rd (Reg.srvOntrackSettleRun.elem n) ≤ (s.srv.get n).settleRun ∧ s.change = none ∧ s.boot = .done) ∧
    (∃ (s : State) (n full : Nat), n < 2 ∧ s.rd (Reg.srvStatusState.elem n) = 6 ∧ s.rd (Reg.srvReacqMarks.elem n) ≤ (s.srv.get n).reacqRun ∧ (s.srv.get n).emf.natAbs ≤ s.rd (Reg.srvFbVVmax.elem n) ∧ s.change = none ∧ s.boot = .done) ∧
    (∃ (s : State) (n : Nat), n < 2 ∧ s.rd (Reg.srvStatusState.elem n) = 7 ∧ s.change = none ∧ s.boot = .done) ∧
    (∃ (s : State) (n full : Nat), n < 2 ∧ s.rd (Reg.hvRetractDone.elem n) = 1 ∧ (s.srv.get n).fatal = false ∧ s.rd (Reg.srvStatusState.elem n) = 8 ∧ (s.srv.get n).loading = none ∧ s.change = none ∧ s.boot = .done) :=
  ⟨⟨st [(Reg.srvStatusState, 4)], 0, 0, ⟨true, 0, 0, 0, 0, 0, 0, 0, 0, 0, 0, 0, 0, 0, 0, none⟩, by decide +kernel⟩,
    ⟨st [(Reg.srvStatusState, 4)], 0, by decide +kernel⟩,
    ⟨{ st [(Reg.srvStatusState, 5)] with srv := ⟨{ missRun := 1 }, {}⟩ }, 0, by decide +kernel⟩,
    ⟨st [(Reg.srvStatusState, 4)], 0, by decide +kernel⟩,
    ⟨st [(Reg.srvStatusState, 6)], 0, by decide +kernel⟩,
    ⟨bwkS (pl 0) [(Reg.srvStatusState, 4)], 0, 0, pl 0, by decide +kernel⟩,
    ⟨{ st [] with srv := ⟨{ arrive := some 0, seeking := true }, {}⟩ }, 0, 0, 0, by decide +kernel⟩,
    ⟨{ st [(Reg.srvStatusState, 2)] with srv := ⟨{ seeking := true }, {}⟩ }, 0, 2, by decide +kernel⟩,
    ⟨{ st [(Reg.srvStatusState, 2)] with srv := ⟨{ seeking := true }, {}⟩ }, 0, 0, by decide +kernel⟩,
    ⟨{ st [(Reg.spnStatusState, 5), (Reg.simEffMask.elem 2, 1)] with sim := { cfg := { tracks := 1, heads := [⟨0, 0, 0, 0, 0⟩] } } }, 0, 0, 0, 0, by decide +kernel⟩,
    ⟨st [(Reg.srvStatusState, 4)], 0, by decide +kernel⟩,
    ⟨st [], 0, by decide +kernel⟩,
    ⟨st [], 0, by decide +kernel⟩,
    ⟨{ st [(Reg.srvStatusState, 3)] with boot := .done }, 0, by decide +kernel⟩,
    ⟨{ st [(Reg.srvStatusState, 6)] with boot := .done }, 0, 0, by decide +kernel⟩,
    ⟨{ st [(Reg.srvStatusState, 7)] with boot := .done }, 0, by decide +kernel⟩,
    ⟨{ st [(Reg.srvStatusState, 8), (Reg.hvRetractDone, 1)] with boot := .done }, 0, 0, by decide +kernel⟩⟩

theorem witness_CompleteSpindle :
    (∃ (s : State) (rung rpm : Nat), 4 ∉ s.gated ∧ s.rd Reg.spnStatusState = 0 ∧ s.rd Reg.domStatusRole = 0 ∧ s.rd Reg.domStatusState ≠ 2 ∧ s.dom.wait = [] ∧ rung < s.sim.cfg.rungCount) ∧
    (∃ (s : State), 4 ∉ s.gated ∧ s.rd Reg.spnStatusState = 5) ∧
    (∃ (s : State) (rpm : Nat), 4 ∉ s.gated ∧ s.rd Reg.spnStatusState = 8 ∧ rpm < 300) ∧
    (∃ (s : State), s.rd Reg.spnStatusState = 2) ∧
    (∃ (s : State), s.rd Reg.spnStatusState = 3) ∧
    (∃ (s : State), s.rd Reg.spnStatusState = 4 ∧ s.boot = .done ∧ s.rd (Reg.hvRetractActive.elem 0) = 0 ∧ s.rd (Reg.hvRetractActive.elem 1) = 0) ∧
    (∃ (s : State) (rpm : Nat), s.rd Reg.spnStatusState = 4 ∧ (((rpm : Int) - rungRpmOf s s.spn.rung).natAbs * 100 ≤ rungRpmOf s s.spn.rung) ∧ s.change = none ∧ s.boot = .done) ∧
    (∃ (s : State), s.rd Reg.spnStatusState = 5) ∧
    (∃ (s : State), s.rd Reg.spnStatusState = 6 ∧ s.rd Reg.spnZcCoastValue < s.spn.missed ∧ s.boot = .done) ∧
    (∃ (s : State), s.rd Reg.spnStatusState = 5 ∧ s.rd Reg.angRungPhase = 0 ∧ s.rd Reg.spnTolRevs ≤ s.spn.offRevs ∧ s.rd Reg.spnStatusOffspeed = 0) ∧
    (∃ (s : State) (rpm : Nat), rpm * 100 < spindleNat s 0x18 2 * rungRpmOf s (lowestRung s) ∧ s.rd (Reg.srvStatusState.elem 0) = 4 ∧ s.rd (Reg.hvRetractActive.elem 0) = 0 ∧ s.rd (Reg.hvRetractActive.elem 1) = 0) ∧
    (∃ (s : State) (rpm : Nat), rpm < 300 ∧ s.rd Reg.spnStatusState = 7 ∧ s.spn.brakeToAlign = false ∧ s.change = none ∧ s.boot = .done) ∧
    (∃ (s : State) (cause : Nat), s.rd (Reg.hvRetractActive.elem 0) = 0 ∧ s.rd (Reg.hvRetractActive.elem 1) = 0) ∧
    (∃ (s : State) (n : Nat), n < 2 ∧ s.rd (Reg.hvRetractActive.elem n) = 1 ∧ s.rd (Reg.hvRetractPhase.elem n) = 4) ∧
    (∃ (s : State) (n : Nat), n < 2 ∧ s.rd (Reg.hvRetractActive.elem n) = 1 ∧ s.rd (Reg.hvRetractPhase.elem n) = 1) :=
  ⟨⟨{ sim := { cfg := { rungCount := 4 } } }, 0, 0, by decide +kernel⟩,
    ⟨st [(Reg.spnStatusState, 5)], by decide +kernel⟩,
    ⟨st [(Reg.spnStatusState, 8)], 0, by decide +kernel⟩,
    ⟨st [(Reg.spnStatusState, 2)], by decide +kernel⟩,
    ⟨st [(Reg.spnStatusState, 3)], by decide +kernel⟩,
    ⟨{ st [(Reg.spnStatusState, 4)] with boot := .done }, by decide +kernel⟩,
    ⟨{ st [(Reg.spnStatusState, 4)] with boot := .done, sim := { cfg := { rungRpm := [7200, 5400, 3600, 1800] } } }, 7200, by decide +kernel⟩,
    ⟨st [(Reg.spnStatusState, 5)], by decide +kernel⟩,
    ⟨{ st [(Reg.spnStatusState, 6)] with boot := .done, spn := { missed := 3 } }, by decide +kernel⟩,
    ⟨st [(Reg.spnStatusState, 5)], by decide +kernel⟩,
    ⟨{ st [(Reg.srvStatusState, 4)] with sim := { cfg := { rungCount := 1, rungRpm := [5400], bodies := [{ type := 0x13, inst := 0, bytes := List.replicate 64 70 }] } } }, 0, by decide +kernel⟩,
    ⟨{ st [(Reg.spnStatusState, 7)] with boot := .done }, 0, by decide +kernel⟩,
    ⟨st [], 3, by decide +kernel⟩,
    ⟨st [(Reg.hvRetractActive, 1), (Reg.hvRetractPhase, 4)], 0, by decide +kernel⟩,
    ⟨st [(Reg.hvRetractActive, 1), (Reg.hvRetractPhase, 1)], 0, by decide +kernel⟩⟩

theorem witness_CompleteAssist :
    (∃ (s : State) (n full : Nat) (p : Plank), n < 2 ∧ plankMayBegin s n full actPreheat p = true ∧ p.count ≠ 0 ∧ s.rd (Reg.astStatusState.elem n) = 0) ∧
    (∃ (s : State) (n full w : Nat), n < 2 ∧ s.rd (Reg.astStatusState.elem n) = 0 ∧ sensorFault (some w) (s.ast.get n).seq (((s.ast.get n).seq + 1) % 16) = none ∧ runningPlank s n actCal = none) ∧
    (∃ (s : State) (n full : Nat), n < 2 ∧ s.rd (Reg.astStatusState.elem n) = 3 ∧ s.rd (Reg.astHoldSamples.elem n) < (s.ast.get n).invalid) ∧
    (∃ (s : State) (n : Nat), n < 2 ∧ s.rd (Reg.astStatusState.elem n) = 0 ∧ (s.ast.get n).tablePend ≠ []) ∧
    (∃ (s : State) (n : Nat), n < 2 ∧ 5 + n ∉ s.gated) ∧
    (∃ (s : State) (n : Nat), n < 2 ∧ 5 + n ∉ s.gated) ∧
    (∃ (s : State) (pa full : Nat), pa < 2 ∧ astOfPreamp s pa < 2 ∧ s.rd (Reg.astStatusState.elem (astOfPreamp s pa)) ≠ 6) ∧
    (∃ (s : State) (pa : Nat), pa < 2 ∧ astOfPreamp s pa < 2 ∧ s.rd (paFault pa) = 1 ∧ s.rd (Reg.astStatusState.elem (astOfPreamp s pa)) = 6) ∧
    (∃ (s : State) (data : Word), s.rd Reg.preModeLevel = 1) ∧
    (∃ (s : State) (data : Nat) (x : PreXfer) (rest : List PreXfer), s.pre.queue = x :: rest ∧ preWaits s x = false ∧ x.raw = true ∧ x.read = true) ∧
    (∃ (s : State) (x : PreXfer) (rest : List PreXfer), s.pre.queue = x :: rest ∧ preWaits s x = false ∧ x.raw = true ∧ x.read = true) :=
  ⟨⟨bwkS (pl 4) [], 0, 0, pl 4, by decide +kernel⟩,
    ⟨st [], 0, 0, 2147549203, by decide +kernel⟩,
    ⟨{ st [(Reg.astStatusState, 3)] with ast := ⟨{ invalid := 1 }, {}⟩ }, 0, 0, by decide +kernel⟩,
    ⟨{ st [] with ast := ⟨{ tablePend := [(0, some 1)] }, {}⟩ }, 0, by decide +kernel⟩,
    ⟨st [], 0, by decide +kernel⟩,
    ⟨st [], 0, by decide +kernel⟩,
    ⟨st [], 0, 0, by decide +kernel⟩,
    ⟨st [(Reg.preStatusPa0Fault, 1), (Reg.astStatusState.elem 0, 6), (Reg.astStatusState.elem 1, 6)], 0, by decide +kernel⟩,
    ⟨st [(Reg.preModeLevel, 1)], 0, by decide +kernel⟩,
    ⟨{ st [] with pre := { queue := [⟨0, true, 0, 0, true⟩] } }, 0, ⟨0, true, 0, 0, true⟩, [], by decide +kernel⟩,
    ⟨{ st [] with pre := { queue := [⟨0, true, 0, 0, true⟩] } }, ⟨0, true, 0, 0, true⟩, [], by decide +kernel⟩⟩

theorem witness_CompleteJournal :
    (∃ (s : State) (e : RingEntry) (c : HostCmd), 4 < s.rings.length ∧ ringFront s 4 = some e ∧ s.rd Reg.jnlModeLevel = 1 ∧ jnlMalformed e = false ∧ e.at 0 1 = 1 ∧ e.at 1 1 = 3 ∧ s.hst.cmds.find? (fun c => c.tag == e.at 2 2 && c.isWrite && !c.done) = some c ∧ c.laid = []) ∧
    (∃ (s : State) (e : RingEntry) (x : Extent), 4 < s.rings.length ∧ ringFront s 4 = some e ∧ s.rd Reg.jnlModeLevel = 1 ∧ jnlMalformed e = false ∧ e.at 0 1 = 2 ∧ s.jnl.extents.find? (fun x => x.idx == e.at 4 4) = some x ∧ x.state = 1 ∧ foldHeld s x = false ∧ s.rd Reg.jnlStatusFold = 0) ∧
    (∃ (s : State) (e : RingEntry) (x : Extent), ringFront s 4 = some e ∧ s.rd Reg.jnlModeLevel = 1 ∧ jnlMalformed e = false ∧ e.at 0 1 = 3 ∧ s.jnl.extents.find? (fun x => x.idx == e.at 4 4) = some x ∧ x.state ≠ 2) ∧
    (∃ (s : State) (tag : Nat) (c : HostCmd), s.hst.cmds.find? (fun c => c.tag == tag && c.isWrite && !c.done) = some c ∧ c.twin = true ∧ c.direct = true ∧ c.fetched = true ∧ writeLaid c = false ∧ s.jnl.twins.contains tag = false ∧ s.rd Reg.jnlModeLevel = 0) ∧
    (∃ (s : State) (x : Extent), s.rd Reg.jnlModeLevel = 0 ∧ s.rd Reg.sysOpmodeMode = 2 ∧ s.hst.cmds = [] ∧ foldCandidates s = [x] ∧ foldHeld s x = false ∧ s.rd Reg.jnlStatusFold = 0) ∧
    (∃ (s : State), s.jnl.needReplay = true ∧ s.rd Reg.sysOpmodeMode = 2 ∧ s.hst.cmds = [] ∧ s.poisoned (s.rd Reg.jnlIdxBaseAddr) 64 = false) :=
  ⟨⟨{ st [(Reg.jnlModeLevel, 1)] with rings := List.replicate 7 { inProg := [jnlE 1] }, hst := { cmds := [wrC 1] } }, jnlE 1, wrC 1, by decide +kernel⟩,
    ⟨{ st [(Reg.jnlModeLevel, 1)] with rings := List.replicate 7 { inProg := [jnlE 2] }, jnl := { extents := [exX 1] } }, jnlE 2, exX 1, by decide +kernel⟩,
    ⟨{ st [(Reg.jnlModeLevel, 1)] with rings := List.replicate 7 { inProg := [jnlE 3] }, jnl := { extents := [exX 1] } }, jnlE 3, exX 1, by decide +kernel⟩,
    ⟨{ st [] with hst := { cmds := [{ wrC 1 with twin := true, direct := true, fetched := true }] } }, 1, { wrC 1 with twin := true, direct := true, fetched := true }, by decide +kernel⟩,
    ⟨{ st [(Reg.sysOpmodeMode, 2)] with jnl := { extents := [exX 1] } }, exX 1, by decide +kernel⟩,
    ⟨{ st [(Reg.sysOpmodeMode, 2)] with jnl := { needReplay := true } }, by decide +kernel⟩⟩

theorem witness_CompleteLink :
    (∃ (s : State) (width speed : Nat), (width = 1 ∨ width = 2 ∨ width = 4) ∧ width ≤ widestWidth s 0 ∧ 1 ≤ speed ∧ speed ≤ 4 ∧ s.rd Reg.sysOpmodeMode ≠ 1 ∧ s.rd Reg.rstStatusPerst = 0 ∧ s.boot ≠ .por) ∧
    (∃ (s : State) (lane int : Nat), lane < 4 ∧ s.present (bitLane lane) = true ∧ (s.rd Reg.hstStatusLanesDown).testBit lane = false) ∧
    (∃ (s : State) (fn qid value : Nat) (q : SubQ), sqFind s fn qid = some q ∧ value < q.size) ∧
    (∃ (s : State) (fn qid value : Nat) (q : CompQ), cqFind s fn qid = some q ∧ value < q.size ∧ q.pend = []) ∧
    (∃ (s : State) (data : Word), fieldOf data 0 10 < s.rd Reg.hstAdmRingEntries ∧ ringDist (s.rd Reg.hstAdmRingEntries) (s.rd Reg.hstAdmConsIdx) (fieldOf data 0 10) ≤ ringDist (s.rd Reg.hstAdmRingEntries) (s.rd Reg.hstAdmConsIdx) (s.rd Reg.hstAdmProdIdx)) ∧
    (∃ (s : State) (data : Word) (q : CompQ) (e : Cqe), data.getLsbD 31 = true ∧ e = { fn := s.rd Reg.hstAdmCpl1Func, sqid := 0, cid := s.rd Reg.hstAdmCpl1Cid, status := fieldOf data 0 15, dw0 := s.rd Reg.hstAdmCpl0Dw0, dw1 := 0, tag := none } ∧ cqFind s e.fn 0 = some q ∧ q.full = false ∧ q.pend = []) ∧
    (∃ (s : State) (fn vector : Nat), (s.hst.cqs.any fun q => q.fn == fn && q.vector == vector && q.agg != 0 && q.ien) = true) :=
  ⟨⟨{ st [(Reg.simEffMask.elem 0, 0xFFFFFFFF)] with boot := .done }, 1, 3, by decide +kernel⟩,
    ⟨st [(Reg.simEffMask.elem 0, 0xFFFFFFFF)], 0, 5, by decide +kernel⟩,
    ⟨{ st [] with hst := { sqs := [⟨0, 1, 0, 4, 1, 0, 0, 0⟩] } }, 0, 1, 2, ⟨0, 1, 0, 4, 1, 0, 0, 0⟩, by decide +kernel⟩,
    ⟨{ st [] with hst := { cqs := [⟨0, 1, 0, 4, 0, true, 0, 2, true, [], 0⟩] } }, 0, 1, 2, ⟨0, 1, 0, 4, 0, true, 0, 2, true, [], 0⟩, by decide +kernel⟩,
    ⟨st [(Reg.hstAdmRingEntries, 4), (Reg.hstAdmProdIdx, 2)], 1, by decide +kernel⟩,
    ⟨{ st [] with hst := { cqs := [⟨0, 0, 0, 4, 0, true, 0, 0, true, [], 0⟩], admin := [(0, 0)] } }, 0x80000000, ⟨0, 0, 0, 4, 0, true, 0, 0, true, [], 0⟩, ⟨0, 0, 0, 0, 0, 0, none⟩, by decide +kernel⟩,
    ⟨{ st [] with hst := { cqs := [⟨0, 1, 0, 4, 0, true, 0, 2, true, [], 1⟩] } }, 0, 0, by decide +kernel⟩⟩

theorem witness_CompleteFetch :
    (∃ (s : State) (tag hart : Nat) (fn : Nat) (sqe : List Byte) (q : SubQ) (c : Ctrl), sqFind s fn 0 = some q ∧ ctrlOf s fn = some c ∧ s.rd Reg.sysOpmodeMode = 2 ∧ s.hst.paused = false ∧ sqReady s q = true ∧ portUp s (portOf fn) = true ∧ leValue (sqe.take 1) ≠ 8 ∧ s.hst.admin.length < 1024 ∧ inboxRoom s = true) ∧
    (∃ (s : State) (fn sqid tag hart : Nat) (sqe : List Byte) (q : SubQ) (c : Ctrl), sqFind s fn sqid = some q ∧ ctrlOf s fn = some c ∧ s.rd Reg.sysOpmodeMode = 2 ∧ s.hst.paused = false ∧ sqReady s q = true ∧ portUp s (portOf fn) = true ∧ aheadWaits s c q = false ∧ sqid ≠ 0 ∧ s.hst.cmds.length < 65536 ∧ tag < 65536 ∧ cmdOf s tag = none ∧ (s.rd Reg.fltCoreOnline).testBit hart = true) ∧
    (∃ (s : State) (tag : Nat) (c : HostCmd), cmdOf s tag = some c ∧ c.begun = false ∧ c.done = false ∧ mayBegin s c = true ∧ s.rd Reg.sysOpmodeMode = 2 ∧ s.hst.paused = false) ∧
    (∃ (s : State) (lane tag : Nat) (c : HostCmd) (q : CompQ), cmdOf s tag = some c ∧ cqFind s c.fn (cqOfSq s c.fn c.sqid) = some q ∧ c.done = true ∧ postWaits s tag = false ∧ lane < 4 ∧ nth none s.hst.latches lane = none ∧ s.hst.paused = false ∧ q.full = false ∧ q.pend = [] ∧ portUp s (portOf c.fn) = true) ∧
    (∃ (s : State) (fn cid sqid target : Nat) (k : Ctrl) (c : HostCmd), ctrlOf s fn = some k ∧ k.aborts < 4 ∧ s.hst.cmds.find? (fun c => c.fn == fn && c.sqid == sqid && c.cid == target && sqid != 0) = some c ∧ abortable s c = true) ∧
    (∃ (s : State) (int : Nat), s.hst.latches = [none, none, none, none]) :=
  ⟨⟨{ st [(Reg.sysOpmodeMode, 2), (Reg.hstStatusP0Up, 1), (Reg.hstAdmRingEntries, 4)] with hst := { ctrls := [admC], sqs := [⟨0, 0, 0, 4, 0, 0, 0, 1⟩], cqs := [⟨0, 0, 0, 4, 0, true, 0, 0, true, [], 0⟩] } }, 0, 0, 0, [6], ⟨0, 0, 0, 4, 0, 0, 0, 1⟩, admC, by decide +kernel⟩,
    ⟨{ st [(Reg.sysOpmodeMode, 2), (Reg.hstStatusP0Up, 1), (Reg.fltCoreOnline, 1)] with hst := { ctrls := [admC], sqs := [⟨0, 1, 0, 4, 1, 0, 0, 1⟩], cqs := [⟨0, 1, 0, 4, 0, true, 0, 0, true, [], 0⟩] } }, 0, 1, 3, 0, [2], ⟨0, 1, 0, 4, 1, 0, 0, 1⟩, admC, by decide +kernel⟩,
    ⟨{ st [(Reg.sysOpmodeMode, 2)] with hst := { cmds := [wrC 1] } }, 1, wrC 1, by decide +kernel⟩,
    ⟨{ st [(Reg.hstStatusP0Up, 1)] with hst := { cmds := [{ wrC 1 with done := true, status := some 0 }], sqs := [⟨0, 1, 0, 4, 1, 0, 0, 0⟩], cqs := [⟨0, 1, 0, 4, 0, true, 0, 0, true, [], 0⟩] } }, 0, 1, { wrC 1 with done := true, status := some 0 }, ⟨0, 1, 0, 4, 0, true, 0, 0, true, [], 0⟩, by decide +kernel⟩,
    ⟨{ st [] with hst := { ctrls := [admC], cmds := [{ wrC 1 with opc := 2 }] } }, 0, 9, 1, 7, admC, { wrC 1 with opc := 2 }, by decide +kernel⟩,
    ⟨st [], 5, by decide +kernel⟩⟩

theorem witness_CompleteChannel :
    (∃ (s : State) (n full : Nat) (p : Plank), n < 2 ∧ plankMayBegin s n full actRead p = true ∧ p.count ≠ 0) ∧
    (∃ (s : State) (n full : Nat) (p : Plank), n < 2 ∧ plankMayBegin s n full actWrite p = true ∧ p.count ≠ 0 ∧ s.rd (Reg.astStatusState.elem n) = 0 ∧ s.rd (Reg.bwkModeLevel.elem n) = 0) ∧
    (∃ (s : State) (n full : Nat) (p : Plank), n < 2 ∧ plankMayBegin s n full actProbe p = true ∧ p.count ≠ 0 ∧ s.rd (Reg.astStatusState.elem n) = 0 ∧ s.rd (Reg.bwkModeLevel.elem n) = 0) ∧
    (∃ (s : State) (n full bits : Nat) (p : Plank) (o : SectorOut), n < 2 ∧ runningPlank s n actWrite = some p ∧ lowFlags s n ≠ 0 ∧ (s.bwk.get n).out = some o) ∧
    (∃ (s : State) (n full : Nat) (det : Detection) (p : Plank) (e : Nat × Nat), n < 2 ∧ runningPlank s n actRead = some p ∧ nextBoundary s n p ≤ frameAngle s p.head full ∧ (s.bwk.get n).sector < p.count ∧ chanOf s n < 2 ∧ det.envelope.getLast? = some e) ∧
    (∃ (s : State) (n full : Nat) (p : Plank), n < 2 ∧ runningPlank s n actWrite = some p ∧ nextBoundary s n p ≤ frameAngle s p.head full ∧ (s.bwk.get n).sector = 0 ∧ (s.bwk.get n).run.endWith = none ∧ (s.bwk.get n).gateDown = false ∧ p.count ≠ 0 ∧ p.sg = false ∧ s.poisoned (p.dataPage * 4096) 4096 = false ∧ s.poisoned (plankMeta p 0) 64 = false ∧ lowFlags s n = 0) ∧
    (∃ (s : State) (k iter unsat : Nat) (block : List Byte) (w : Codeword), s.ldp.words[k]? = some w ∧ iter ≤ w.iterMax ∧ (unsat = 0 ∨ iter = w.iterMax)) ∧
    (∃ (s : State) (k iter unsat : Nat) (block : List Byte) (w : Codeword), s.ldp.words[k]? = some w ∧ iter ≤ w.iterMax ∧ unsat ≠ 0) ∧
    (∃ (s : State) (d : Nat), d < 2 ∧ s.serving (bitFast d) = true ∧ kindLost (setDown (decoderDrop s d s.ldp.words.length) (bitFast d)) = false) ∧
    (∃ (s : State) (n : Nat) (d : DonePlank), n < 2 ∧ (s.bwk.get n).done = [d] ∧ d.run.reading = true ∧ d.run.openReads = 0) ∧
    (∃ (s : State) (c full n : Nat), c < 2 ∧ (s.chan.get c).unlocked = false ∧ (s.chan.get c).granted = none ∧ ((s.chan.get c).waiting.find? fun m => m != (s.chan.get c).last).or (s.chan.get c).waiting.head? = some n ∧ chanOf s n = c) ∧
    (∃ (s : State) (c : Nat), c < 2 ∧ (s.chan.get c).granted = none ∧ (s.chan.get c).profPend ≠ []) ∧
    (∃ (s : State) (c : Nat), c < 2 ∧ 7 + c ∉ s.gated) ∧
    (∃ (s : State) (c : Nat), c < 2 ∧ 7 + c ∉ s.gated) ∧
    (∃ (s : State) (c bits : Nat) (inDet : Bool), c < 2 ∧ (s.chan.get c).granted = none) ∧
    (∃ (s : State) (c : Nat), c < 2) ∧
    (∃ (s : State) (c : Nat), c < 2 ∧ (s.chan.get c).unlocked = true ∧ s.down (bitRdc c) = false ∧ kindLost (setDown s (bitRdc c)) = false) :=
  ⟨⟨bwkS (pl 2) [], 0, 0, pl 2, by decide +kernel⟩,
    ⟨bwkS (pl 3) [], 0, 0, pl 3, by decide +kernel⟩,
    ⟨bwkS (pl 5) [], 0, 0, pl 5, by decide +kernel⟩,
    ⟨{ runS (pl 3) [] with bwk := ⟨{ cur := some (pl 3), run := { begun := true }, out := some ⟨[], 0, 0, false⟩ }, {}⟩ }, 0, 0, 0, pl 3, ⟨[], 0, 0, false⟩, by decide +kernel⟩,
    ⟨runS (pl 2) [], 0, 1000000000, { envelope := [(1, 1)], aDiff := [], bDiff := [], headers := [], llrs := [] }, pl 2, (1, 1), by decide +kernel⟩,
    ⟨runS (pl 3) [(Reg.bwkStatusOntrack, 1), (Reg.bwkStatusInband, 1)], 0, 1000000000, pl 3, by decide +kernel⟩,
    ⟨{ st [] with ldp := { words := [⟨0, pl 2, 0, 0, 0, 0, 0, 4, 0, []⟩] } }, 0, 0, 0, [], ⟨0, pl 2, 0, 0, 0, 0, 0, 4, 0, []⟩, by decide +kernel⟩,
    ⟨{ st [] with ldp := { words := [⟨0, pl 2, 0, 0, 0, 0, 0, 4, 0, []⟩] } }, 0, 0, 1, [], ⟨0, pl 2, 0, 0, 0, 0, 0, 4, 0, []⟩, by decide +kernel⟩,
    ⟨st [(Reg.simEffMask, 4294967295), (Reg.simEffMask.elem 1, 4294967295), (Reg.simEffMask.elem 2, 3)], 0, by decide +kernel⟩,
    ⟨{ st [] with bwk := ⟨{ done := [⟨pl 2, { reading := true }, 0, 0, false⟩] }, {}⟩ }, 0, ⟨pl 2, { reading := true }, 0, 0, false⟩, by decide +kernel⟩,
    ⟨{ st [] with chan := ⟨{ waiting := [0] }, {}⟩ }, 0, 0, 0, by decide +kernel⟩,
    ⟨{ st [] with chan := ⟨{ profPend := [(0, some 1)] }, {}⟩ }, 0, by decide +kernel⟩,
    ⟨st [], 0, by decide +kernel⟩,
    ⟨st [], 0, by decide +kernel⟩,
    ⟨st [], 0, 0, true, by decide +kernel⟩,
    ⟨st [], 0, by decide +kernel⟩,
    ⟨{ st [(Reg.simEffMask, 4294967295), (Reg.simEffMask.elem 1, 4294967295), (Reg.simEffMask.elem 2, 3)] with chan := ⟨{ unlocked := true }, {}⟩ }, 0, by decide +kernel⟩⟩

theorem witness_CompleteQueueAdmin :
    (∃ (s : State) (c : Ctrl) (fn qid base entries vector : Nat) (ien : Bool), ctrlOf s fn = some c ∧ s.rd Reg.sysOpmodeMode = 2 ∧ 1 ≤ qid ∧ qid ≤ min c.cqGrant (qidLimit fn) ∧ cqFind s fn qid = none ∧ 2 ≤ entries ∧ entries ≤ s.sim.cfg.maxQEntries ∧ vector < vectorLimit fn) ∧
    (∃ (s : State) (c : Ctrl) (q : CompQ) (fn qid base entries cq prio : Nat), ctrlOf s fn = some c ∧ s.rd Reg.sysOpmodeMode = 2 ∧ 1 ≤ qid ∧ qid ≤ min c.sqGrant (qidLimit fn) ∧ sqFind s fn qid = none ∧ 2 ≤ entries ∧ entries ≤ s.sim.cfg.maxQEntries ∧ cq ≠ 0 ∧ cqFind s fn cq = some q) ∧
    (∃ (s : State) (c : Ctrl) (q : SubQ) (fn qid : Nat), ctrlOf s fn = some c ∧ s.rd Reg.sysOpmodeMode = 2 ∧ sqFind s fn qid = some q ∧ qid ≠ 0 ∧ s.hst.cmds = []) ∧
    (∃ (s : State) (c : Ctrl) (q : CompQ) (fn qid : Nat), ctrlOf s fn = some c ∧ s.rd Reg.sysOpmodeMode = 2 ∧ qid ≠ 0 ∧ cqFind s fn qid = some q ∧ (s.hst.sqs.any fun x => x.fn == fn && x.cq == qid) = false) ∧
    (∃ (s : State) (c : Ctrl) (fn ns csi : Nat), ctrlOf s fn = some c ∧ s.rd Reg.sysOpmodeMode = 2) ∧
    (∃ (s : State) (c : Ctrl) (fn value : Nat), ctrlOf s fn = some c ∧ s.rd Reg.sysOpmodeMode = 2) ∧
    (∃ (s : State) (c : Ctrl) (fn cid : Nat), ctrlOf s fn = some c ∧ s.rd Reg.sysOpmodeMode = 2 ∧ c.aers.length < 8 ∧ c.events = []) :=
  ⟨⟨{ admS [] with sim := { cfg := { maxQEntries := 4 } } }, admC, 0, 1, 0, 2, 0, true, by decide +kernel⟩,
    ⟨{ admS [] with sim := { cfg := { maxQEntries := 4 } }, hst := { ctrls := [admC], cqs := [⟨0, 1, 0, 2, 0, true, 0, 0, true, [], 0⟩] } }, admC, ⟨0, 1, 0, 2, 0, true, 0, 0, true, [], 0⟩, 0, 1, 0, 2, 1, 0, by decide +kernel⟩,
    ⟨{ admS [] with hst := { ctrls := [admC], sqs := [⟨0, 1, 0, 2, 1, 0, 0, 0⟩] } }, admC, ⟨0, 1, 0, 2, 1, 0, 0, 0⟩, 0, 1, by decide +kernel⟩,
    ⟨{ admS [] with hst := { ctrls := [admC], cqs := [⟨0, 1, 0, 2, 0, true, 0, 0, true, [], 0⟩] } }, admC, ⟨0, 1, 0, 2, 0, true, 0, 0, true, [], 0⟩, 0, 1, by decide +kernel⟩,
    ⟨admS [], admC, 0, 0, 0, by decide +kernel⟩,
    ⟨admS [], admC, 0, 0, by decide +kernel⟩,
    ⟨admS [], admC, 0, 7, by decide +kernel⟩⟩

theorem witness_CompleteFeatures :
    (∃ (s : State) (c : Ctrl) (fn value : Nat), ctrlOf s fn = some c ∧ s.rd Reg.sysOpmodeMode = 2) ∧
    (∃ (s : State) (c : Ctrl) (fn ps : Nat), ctrlOf s fn = some c ∧ s.rd Reg.sysOpmodeMode = 2 ∧ isPf fn = true ∧ ps ≤ 2 ∧ s.change = none ∧ s.rd Reg.angModeLevel = 1) ∧
    (∃ (s : State) (c : Ctrl) (fn : Nat) (enable : Bool), ctrlOf s fn = some c ∧ s.rd Reg.sysOpmodeMode = 2 ∧ isPf fn = true) ∧
    (∃ (s : State) (c : Ctrl) (fn t1 t2 : Nat), ctrlOf s fn = some c ∧ s.rd Reg.sysOpmodeMode = 2 ∧ isPf fn = true ∧ 273 ≤ t1 ∧ t1 < t2 ∧ t2 ≤ 388) ∧
    (∃ (s : State) (c : Ctrl) (fn value : Nat) (save : Bool), ctrlOf s fn = some c ∧ s.rd Reg.sysOpmodeMode = 2 ∧ isPf fn = true) ∧
    (∃ (s : State) (c : Ctrl) (fn value : Nat), ctrlOf s fn = some c ∧ s.rd Reg.sysOpmodeMode = 2 ∧ isPf fn = true) ∧
    (∃ (s : State) (c : Ctrl) (fn value : Nat), ctrlOf s fn = some c ∧ s.rd Reg.sysOpmodeMode = 2 ∧ isPf fn = true ∧ bitsOf value 0 8 ≤ s.sim.cfg.vfPerPf) ∧
    (∃ (s : State) (c : Ctrl) (n : NsEntry) (fn ns ses : Nat) (key : List Byte), ctrlOf s fn = some c ∧ s.rd Reg.sysOpmodeMode = 2 ∧ isPf fn = true ∧ nsOf s ns = some n ∧ n.lbafMask.testBit 0 = true ∧ ses ≤ 2 ∧ nsBusy s ns = false ∧ cryInUse s (nsKey s ns) = false) ∧
    (∃ (s : State) (c : Ctrl) (fn : Nat) (keys : List (List Byte)), ctrlOf s fn = some c ∧ s.rd Reg.sysOpmodeMode = 2 ∧ isPf fn = true ∧ s.hst.blocked = [] ∧ s.hst.cmds = [] ∧ s.sim.cfg.ns = []) ∧
    (∃ (s : State), bitsOf (Store.read 0 s.hst.device 0xC1) 0 16 ≠ 0 ∧ s.hst.cmds = [] ∧ s.rd Reg.sysOpmodeMode = 2 ∧ s.change = none ∧ s.rd Reg.angModeLevel = 0 ∧ s.hst.idleStep = 0) ∧
    (∃ (s : State) (idle : Nat), Store.read 0 s.hst.device 0x0C % 2 = 1 ∧ apstTime (Store.read 0 s.hst.apst s.hst.psOp) ≠ 0 ∧ apstTime (Store.read 0 s.hst.apst s.hst.psOp) ≤ idle ∧ apstTarget (Store.read 0 s.hst.apst s.hst.psOp) = 3 ∧ s.hst.cmds = [] ∧ s.rd Reg.sysOpmodeMode = 2 ∧ s.flt.safe = .none ∧ s.change = none ∧ s.rd Reg.angRungPhase ≠ 0) :=
  ⟨⟨admS [], admC, 0, 0, by decide +kernel⟩,
    ⟨admS [(Reg.angModeLevel, 1)], admC, 0, 1, by decide +kernel⟩,
    ⟨admS [], admC, 0, true, by decide +kernel⟩,
    ⟨admS [], admC, 0, 300, 310, by decide +kernel⟩,
    ⟨admS [], admC, 0, 1, true, by decide +kernel⟩,
    ⟨admS [], admC, 0, 1, by decide +kernel⟩,
    ⟨admS [], admC, 0, 0x10000, by decide +kernel⟩,
    ⟨{ admS [] with hst := { ctrls := [admC] }, sim := { cfg := { ns := [⟨1, 1, 0, 0⟩] } } }, admC, ⟨1, 1, 0, 0⟩, 0, 1, 0, [], by decide +kernel⟩,
    ⟨admS [], admC, 0, [], by decide +kernel⟩,
    ⟨{ admS [] with hst := { device := [(0xC1, 60)] } }, by decide +kernel⟩,
    ⟨{ admS [(Reg.angRungPhase, 1)] with hst := { device := [(0x0C, 1)], apst := [(0, 0x1F18)] } }, 50, by decide +kernel⟩⟩

theorem witness_CompleteLogs :
    (∃ (s : State) (c : Ctrl) (fn lid ns offset len : Nat), ctrlOf s fn = some c ∧ s.rd Reg.sysOpmodeMode = 2 ∧ pageSupported fn lid = true ∧ offset % 4 = 0 ∧ ((lid = 2 → ns = 0xFFFFFFFF)) ∧ ((lid = 0xBF → nsZoned s ns = true))) ∧
    (∃ (s : State) (type : Nat), miOpen s = true ∧ s.rd Reg.sysOpmodeMode ≠ 1 ∧ type ≤ 4) ∧
    (∃ (s : State) (clear : Bool), miOpen s = true) ∧
    (∃ (s : State) (first : Nat), miOpen s = true ∧ first < 256) ∧
    (∃ (s : State) (id : Nat), miOpen s = true ∧ s.rd Reg.sysOpmodeMode ≠ 1 ∧ miConfigKnown id = true) ∧
    (∃ (s : State) (value : Nat), miOpen s = true ∧ s.rd Reg.sysOpmodeMode ≠ 1 ∧ 64 ≤ value ∧ value ≤ 250) ∧
    (∃ (s : State) (value : Nat), miOpen s = true ∧ s.rd Reg.sysOpmodeMode ≠ 1 ∧ (value = 1 ∨ value = 2)) ∧
    (∃ (s : State) (fn opc sel ns arg len : Nat), miOpen s = true ∧ coresRun s = true ∧ (opc = 0x02 ∨ opc = 0x06 ∨ opc = 0x0A)) ∧
    (∃ (s : State), miOpen s = true ∧ Store.read 0 s.hst.mi 0 = 0) :=
  ⟨⟨admS [], admC, 0, 1, 1, 0, 64, by decide +kernel⟩,
    ⟨{ st [] with boot := .done }, 0, by decide +kernel⟩,
    ⟨{ st [] with boot := .done }, true, by decide +kernel⟩,
    ⟨{ st [] with boot := .done }, 0, by decide +kernel⟩,
    ⟨{ st [] with boot := .done }, 1, by decide +kernel⟩,
    ⟨{ st [] with boot := .done }, 100, by decide +kernel⟩,
    ⟨{ st [] with boot := .done }, 2, by decide +kernel⟩,
    ⟨{ st [(Reg.sysOpmodeMode, 2)] with boot := .done }, 0, 6, 1, 0, 0, 0, by decide +kernel⟩,
    ⟨{ st [] with boot := .done }, by decide +kernel⟩⟩

theorem witness_CompleteData :
    (∃ (s : State) (tag : Nat) (c : HostCmd) (data info : List Byte) (direct : Bool) (s0 : State), liveCmd s tag 0x01 = some c ∧ c.fetched = false ∧ writePiFail s c data info = none ∧ s.rd Reg.jnlModeLevel = 0 ∧ routeOf s c = some direct ∧ stageFrames s c.tag (rangeLines c.ns (writeFirst c) c.nlb) = some s0) ∧
    (∃ (s : State) (tag : Nat) (c : HostCmd) (data info : List Byte), liveCmd s tag 0x01 = some c ∧ c.fetched = false) ∧
    (∃ (s : State) (tag : Nat) (c : HostCmd) (data info : List Byte) (direct : Bool) (s0 : State), liveCmd s tag 0x7D = some c ∧ c.fetched = false ∧ writePiFail s c data info = none ∧ s.rd Reg.jnlModeLevel = 0 ∧ routeOf s c = some direct ∧ stageFrames s c.tag (rangeLines c.ns (writeFirst c) c.nlb) = some s0) ∧
    (∃ (s : State) (tag : Nat) (c : HostCmd) (direct : Bool) (s0 : State), liveCmd s tag 0x08 = some c ∧ c.fetched = false ∧ s.rd Reg.jnlModeLevel = 0 ∧ routeOf s c = some direct ∧ stageFrames s c.tag (rangeLines c.ns (writeFirst c) c.nlb) = some s0) ∧
    (∃ (s : State) (tag : Nat) (c : HostCmd) (user pi : List Byte), liveCmd s tag 0x02 = some c ∧ c.begun = true ∧ c.fetched = true ∧ c.ended = false ∧ c.nlb = 1 ∧ c.given = [] ∧ (readFind s c c.slba = .good user pi ∨ (readFind s c c.slba = .zeros ∧ user = List.replicate 4096 0)) ∧ (formatOf s c.ns).lbaf = 0) ∧
    (∃ (s : State) (tag : Nat) (c : HostCmd), liveCmd s tag 0x02 = some c ∧ c.begun = true) ∧
    (∃ (s : State) (tag : Nat) (c : HostCmd), liveCmd s tag 0x00 = some c ∧ c.begun = true ∧ c.ended = false ∧ (earlier s.hst.cmds tag).any (fun e => e.isWrite && e.ns == c.ns) = false) :=
  ⟨⟨{ st [] with hst := { cmds := [{ wrC 1 with nlb := 0 }] } }, 1, { wrC 1 with nlb := 0 }, [], [], true, { st [] with hst := { cmds := [{ wrC 1 with nlb := 0 }] } }, by decide +kernel⟩,
    ⟨{ st [] with hst := { cmds := [wrC 1] } }, 1, wrC 1, [], [], by decide +kernel⟩,
    ⟨{ st [] with hst := { cmds := [{ wrC 1 with nlb := 0, opc := 0x7D }] } }, 1, { wrC 1 with nlb := 0, opc := 0x7D }, [], [], true, { st [] with hst := { cmds := [{ wrC 1 with nlb := 0, opc := 0x7D }] } }, by decide +kernel⟩,
    ⟨{ st [] with hst := { cmds := [{ wrC 1 with nlb := 0, opc := 8 }] } }, 1, { wrC 1 with nlb := 0, opc := 8 }, true, { st [] with hst := { cmds := [{ wrC 1 with nlb := 0, opc := 8 }] } }, by decide +kernel⟩,
    ⟨rdZ, 1, { rdC with safe := [0] }, List.replicate 4096 0, [], by decide +kernel⟩,
    ⟨{ st [] with hst := { cmds := [{ wrC 1 with opc := 2, begun := true }] } }, 1, { wrC 1 with opc := 2, begun := true }, by decide +kernel⟩,
    ⟨{ st [] with hst := { cmds := [{ wrC 1 with opc := 0, begun := true }] } }, 1, { wrC 1 with opc := 0, begun := true }, by decide +kernel⟩⟩

theorem witness_CompleteZones :
    (∃ (s : State) (tag : Nat) (c : HostCmd) (z : Nat), liveCmd s tag 0x79 = some c ∧ c.begun = true ∧ c.ended = false ∧ c.zoneAction = 1 ∧ c.selectAll = false ∧ c.slba / max s.sim.cfg.zoneSectors 1 = z ∧ zoneOpen (zoneState s c.ns z) = true ∧ (zoneRec s c.ns z).wp ≠ 0) ∧
    (∃ (s : State) (tag : Nat) (c : HostCmd) (z : Nat), liveCmd s tag 0x79 = some c ∧ c.begun = true ∧ c.ended = false ∧ c.zoneAction = 2 ∧ c.selectAll = false ∧ c.slba / max s.sim.cfg.zoneSectors 1 = z ∧ (zoneState s c.ns z = 1 ∨ zoneActive (zoneState s c.ns z) = true) ∧ openRefusal s c.ns (zoneState s c.ns z) = none ∧ zoneGroupOpen s c.ns z = false) ∧
    (∃ (s : State) (tag : Nat) (c : HostCmd) (z : Nat), liveCmd s tag 0x79 = some c ∧ c.begun = true ∧ c.ended = false ∧ c.zoneAction = 3 ∧ c.selectAll = false ∧ c.slba / max s.sim.cfg.zoneSectors 1 = z ∧ (zoneState s c.ns z = 1 ∨ zoneActive (zoneState s c.ns z) = true) ∧ openRefusal s c.ns (zoneState s c.ns z) = none) ∧
    (∃ (s : State) (tag : Nat) (c : HostCmd) (z : Nat), liveCmd s tag 0x79 = some c ∧ c.begun = true ∧ c.zoneAction = 4 ∧ c.selectAll = false ∧ c.slba / max s.sim.cfg.zoneSectors 1 = z ∧ (zoneState s c.ns z = 1 ∨ zoneActive (zoneState s c.ns z) = true ∨ zoneState s c.ns z = 14)) ∧
    (∃ (s : State) (tag : Nat) (c : HostCmd) (z : Nat), liveCmd s tag 0x79 = some c ∧ c.begun = true ∧ c.zoneAction = 5 ∧ c.selectAll = false ∧ c.slba / max s.sim.cfg.zoneSectors 1 = z ∧ zoneState s c.ns z = 13) ∧
    (∃ (s : State) (tag : Nat) (c : HostCmd), liveCmd s tag 0x79 = some c ∧ c.begun = true ∧ c.ended = false ∧ c.zoneAction = 16) ∧
    (∃ (s : State) (tag : Nat) (c : HostCmd), liveCmd s tag 0x7A = some c ∧ c.begun = true ∧ c.ended = false ∧ c.zoneAction = 0 ∧ c.cdw 13 / 256 % 256 ≤ 7) ∧
    (∃ (s : State) (tag : Nat) (c : HostCmd), liveCmd s tag 0x7A = some c ∧ c.begun = true ∧ c.ended = false ∧ c.zoneAction = 1) :=
  ⟨⟨zSt 1 2, 1, zC 1, 0, by decide +kernel⟩,
    ⟨zSt 2 2, 1, zC 2, 0, by decide +kernel⟩,
    ⟨zSt 3 2, 1, zC 3, 0, by decide +kernel⟩,
    ⟨zSt 4 2, 1, zC 4, 0, by decide +kernel⟩,
    ⟨zSt 5 13, 1, zC 5, 0, by decide +kernel⟩,
    ⟨zSt 16 2, 1, zC 16, by decide +kernel⟩,
    ⟨{ st [] with hst := { cmds := [{ zC 0 with opc := 0x7A }] } }, 1, { zC 0 with opc := 0x7A }, by decide +kernel⟩,
    ⟨{ st [] with hst := { cmds := [{ zC 1 with opc := 0x7A }] } }, 1, { zC 1 with opc := 0x7A }, by decide +kernel⟩⟩

theorem witness_CompleteZonesAll :
    (∃ (s : State) (tag : Nat) (c : HostCmd), liveCmd s tag 0x79 = some c ∧ c.begun = true ∧ c.zoneAction = 1 ∧ c.selectAll = true) ∧
    (∃ (s : State) (tag : Nat) (c : HostCmd), liveCmd s tag 0x79 = some c ∧ c.begun = true ∧ c.zoneAction = 2 ∧ c.selectAll = true) ∧
    (∃ (s : State) (tag : Nat) (c : HostCmd), liveCmd s tag 0x79 = some c ∧ c.begun = true ∧ c.zoneAction = 3 ∧ c.selectAll = true) ∧
    (∃ (s : State) (tag : Nat) (c : HostCmd), liveCmd s tag 0x79 = some c ∧ c.begun = true ∧ c.zoneAction = 4 ∧ c.selectAll = true) ∧
    (∃ (s : State) (tag : Nat) (c : HostCmd), liveCmd s tag 0x79 = some c ∧ c.begun = true ∧ c.zoneAction = 5 ∧ c.selectAll = true) :=
  ⟨⟨zStA 1 2, 1, zCA 1, by decide +kernel⟩,
    ⟨zStA 2 2, 1, zCA 2, by decide +kernel⟩,
    ⟨zStA 3 4, 1, zCA 3, by decide +kernel⟩,
    ⟨zStA 4 2, 1, zCA 4, by decide +kernel⟩,
    ⟨zStA 5 13, 1, zCA 5, by decide +kernel⟩⟩

theorem witness_CompleteRings :
    (∃ (s : State) (n : Nat) (data : Word), n < 7 ∧ s.rd (Reg.rngCtlEnable.elem n) = 1 ∧ data.toNat < (s.ring n).reqSize ∧ ringDist (s.ring n).reqSize (s.rd (Reg.rngReqConsIdx.elem n)) (s.rd (Reg.rngReqProdIdx.elem n)) ≤ ringDist (s.ring n).reqSize (s.rd (Reg.rngReqConsIdx.elem n)) data.toNat) ∧
    (∃ (s : State) (n : Nat) (data : Word), n < 7 ∧ ringLive s n = true ∧ data.toNat < (s.ring n).resSize ∧ ringDist (s.ring n).resSize (s.rd (Reg.rngResConsIdx.elem n)) data.toNat ≤ ringDist (s.ring n).resSize (s.rd (Reg.rngResConsIdx.elem n)) (s.rd (Reg.rngResProdIdx.elem n))) ∧
    (∃ (s : State) (n : Nat), n < 7 ∧ s.rd (Reg.rngCtlEnable.elem n) = 0 ∧ ringRefusal s n = none) ∧
    (∃ (s : State) (n why : Nat), n < 7 ∧ s.rd (Reg.rngCtlEnable.elem n) = 0 ∧ ringRefusal s n = some why) ∧
    (∃ (s : State) (n : Nat), n < 7 ∧ s.rd (Reg.rngCtlEnable.elem n) = 1) ∧
    (∃ (s : State) (n : Nat), n < 7 ∧ ringDrained s n = true) ∧
    (∃ (s : State) (n : Nat) (x : RingResult), n < 7 ∧ n < s.rings.length ∧ (s.ring n).hold = [x] ∧ resultRingFull s n = false) ∧
    (∃ (s : State) (e : RingEntry), 6 < s.rings.length ∧ ringFront s 6 = some e ∧ mailMalformed e = false ∧ e.at 0 1 = 0) :=
  ⟨⟨{ st [(Reg.rngCtlEnable.elem 2, 1)] with rings := List.replicate 7 { reqSize := 4, resSize := 4 } }, 2, 1, by decide +kernel⟩,
    ⟨{ st [(Reg.rngCtlEnable.elem 2, 1), (Reg.rngResProdIdx.elem 2, 1)] with rings := List.replicate 7 { reqSize := 4, resSize := 4 } }, 2, 1, by decide +kernel⟩,
    ⟨st [(Reg.rngReqSizeEntries.elem 6, 16), (Reg.rngResSizeEntries.elem 6, 16), (Reg.rngReqBaseLoAddr.elem 6, 0x8000000 / 64), (Reg.rngResBaseLoAddr.elem 6, 0x8100000 / 64)], 6, by decide +kernel⟩,
    ⟨st [], 6, 1, by decide +kernel⟩,
    ⟨st [(Reg.rngCtlEnable.elem 2, 1)], 2, by decide +kernel⟩,
    ⟨st [(Reg.rngStatusDraining.elem 2, 1)], 2, by decide +kernel⟩,
    ⟨{ st [] with rings := List.replicate 7 { reqSize := 4, resSize := 4, hold := [⟨[], false, false⟩] } }, 2, ⟨[], false, false⟩, by decide +kernel⟩,
    ⟨{ st [] with rings := List.replicate 7 { inProg := [⟨0, [0, 3, 0, 0, 0, 0, 0, 0], false⟩] } }, ⟨0, [0, 3, 0, 0, 0, 0, 0, 0], false⟩, by decide +kernel⟩⟩

theorem witness_CompleteCrypto :
    (∃ (s : State) (e : RingEntry), ringFront s 5 = some e ∧ s.cry.job = none ∧ s.cry.wait = none ∧ s.cry.failed = false ∧ cryOp e = 1 ∧ cryOk (s.set Reg.cryStatusBusy) e = true ∧ (cryKey s (crySlot e)).isEmpty = false ∧ cryCountOf e = 1 ∧ s.poisoned (crySrc e) 4096 = false) ∧
    (∃ (s : State) (e : RingEntry), ringFront s 5 = some e ∧ s.cry.job = none ∧ s.cry.wait = none ∧ s.cry.failed = false ∧ cryOp e = 2 ∧ cryOk (s.set Reg.cryStatusBusy) e = true ∧ (cryKey s (crySlot e)).isEmpty = false ∧ cryCountOf e = 1 ∧ s.poisoned (crySrc e) 4096 = false) ∧
    (∃ (s : State) (e : RingEntry), ringFront s 5 = some e ∧ s.cry.job = none ∧ s.cry.wait = none ∧ s.cry.failed = false ∧ cryOp e = 3 ∧ cryOk (s.set Reg.cryStatusBusy) e = true ∧ s.poisoned (crySrc e) (cryArg e) = false) ∧
    (∃ (s : State) (e : RingEntry), ringFront s 5 = some e ∧ s.cry.job = none ∧ s.cry.wait = none ∧ s.cry.failed = false ∧ cryOp e = 4 ∧ cryOk (s.set Reg.cryStatusBusy) e = true ∧ s.rd Reg.cryModeLevel = 1 ∧ s.poisoned (crySrc e) 64 = false ∧ cryInUse s (crySlot e) = false) ∧
    (∃ (s : State) (e : RingEntry), ringFront s 5 = some e ∧ s.cry.job = none ∧ s.cry.wait = none ∧ s.cry.failed = false ∧ cryOp e = 5 ∧ cryOk (s.set Reg.cryStatusBusy) e = true ∧ s.rd Reg.cryModeLevel = 1 ∧ cryInUse s (crySlot e) = false) ∧
    (∃ (s : State) (k : KeyOp), s.cry.wait = some k ∧ cryInUse s k.slot = false) ∧
    (∃ (s : State) (e : RingEntry) (r done : Nat), 5 < s.rings.length ∧ ringFront s 5 = some e ∧ s.cry.job = some (r, done)) :=
  ⟨⟨{ st [] with rings := List.replicate 7 { inProg := [⟨0, [1, 3, 0, 0, 0, 0, 1, 0, 0, 0, 0, 8, 0, 0, 0, 0, 0, 0, 0x10, 8], false⟩] }, cry := { keys := [(0, [1])] } }, ⟨0, [1, 3, 0, 0, 0, 0, 1, 0, 0, 0, 0, 8, 0, 0, 0, 0, 0, 0, 0x10, 8], false⟩, by decide +kernel⟩,
    ⟨{ st [] with rings := List.replicate 7 { inProg := [⟨0, [2, 3, 0, 0, 0, 0, 1, 0, 0, 0, 0, 8, 0, 0, 0, 0, 0, 0, 0x10, 8], false⟩] }, cry := { keys := [(0, [1])] } }, ⟨0, [2, 3, 0, 0, 0, 0, 1, 0, 0, 0, 0, 8, 0, 0, 0, 0, 0, 0, 0x10, 8], false⟩, by decide +kernel⟩,
    ⟨{ st [] with rings := List.replicate 7 { inProg := [⟨0, [3, 3, 0, 0, 0, 0, 0, 0, 0, 0, 0, 8, 0, 0, 0, 0, 0, 0, 0x10, 8, 0, 0, 0, 0, 64, 0, 0, 0, 0, 0, 0, 0], false⟩] } }, ⟨0, [3, 3, 0, 0, 0, 0, 0, 0, 0, 0, 0, 8, 0, 0, 0, 0, 0, 0, 0x10, 8, 0, 0, 0, 0, 64, 0, 0, 0, 0, 0, 0, 0], false⟩, by decide +kernel⟩,
    ⟨{ st [(Reg.cryModeLevel, 1)] with rings := List.replicate 7 { inProg := [⟨0, [4, 3, 0, 0, 0, 0, 0, 0, 0, 0, 0, 8], false⟩] } }, ⟨0, [4, 3, 0, 0, 0, 0, 0, 0, 0, 0, 0, 8], false⟩, by decide +kernel⟩,
    ⟨{ st [(Reg.cryModeLevel, 1)] with rings := List.replicate 7 { inProg := [⟨0, [5, 3], false⟩] } }, ⟨0, [5, 3], false⟩, by decide +kernel⟩,
    ⟨{ st [] with cry := { wait := some ⟨0, []⟩ } }, ⟨0, []⟩, by decide +kernel⟩,
    ⟨{ st [] with rings := List.replicate 7 { inProg := [⟨0, [5, 3], false⟩] }, cry := { job := some (0, 0) } }, ⟨0, [5, 3], false⟩, 0, 0, by decide +kernel⟩⟩

theorem witness_CompleteOuter :
    (∃ (s : State) (e : RingEntry), ringFront s 2 = some e ∧ s.ldp.deep = none) ∧
    (∃ (s : State) (iter unsat : Nat) (block : List Byte) (e : RingEntry) (j : DeepJob), 2 < s.rings.length ∧ ringFront s 2 = some e ∧ s.ldp.deep = some j ∧ j.status = none ∧ iter ≤ deepIterLimit s e ∧ (unsat = 0 ∨ iter = deepIterLimit s e)) ∧
    (∃ (s : State) (e : RingEntry), ringFront s 3 = some e ∧ s.oce.job = none ∧ e.at 0 1 = 1) ∧
    (∃ (s : State) (e : RingEntry), ringFront s 3 = some e ∧ s.oce.job = none ∧ e.at 0 1 = 2) ∧
    (∃ (s : State) (e : RingEntry) (r outs : Nat), 3 < s.rings.length ∧ ringFront s 3 = some e ∧ s.oce.job = some (r, outs)) ∧
    (∃ (s : State), accStreaming s 0 = false) ∧
    (∃ (s : State), s.rd Reg.oceAccClrClr = 1 ∧ accStreaming s 0 = false) ∧
    (∃ (s : State) (n full : Nat) (p : Plank), n < 2 ∧ (s.bwk.get n).cur = some p ∧ (s.bwk.get n).run.begun = true ∧ (s.bwk.get n).run.endWith = none ∧ s.rd (Reg.bwkStatusState.elem n) = 4 ∧ (s.csWord n (s.bwk.get n).upc).parity = csParity (s.csWord n (s.bwk.get n).upc).bits ∧ mwReserved (s.csWord n (s.bwk.get n).upc).bits = false ∧ mwWaited s n p (s.csWord n (s.bwk.get n).upc).bits (frameAngle s p.head full) = true ∧ mwUsel (s.csWord n (s.bwk.get n).upc).bits = 0 ∧ mwCond (s.csWord n (s.bwk.get n).upc).bits = 1) ∧
    (∃ (s : State) (n : Nat), n < 2 ∧ s.rd (Reg.bwkStatusState.elem n) = 8 ∧ (s.bwk.get n).run.begun = false) :=
  ⟨⟨{ st [] with rings := List.replicate 7 { inProg := [⟨0, [1, 3], false⟩] } }, ⟨0, [1, 3], false⟩, by decide +kernel⟩,
    ⟨{ st [] with rings := List.replicate 7 { inProg := [⟨0, [1, 3], false⟩] }, ldp := { deep := some ⟨none, 0, []⟩ } }, 0, 0, [], ⟨0, [1, 3], false⟩, ⟨none, 0, []⟩, by decide +kernel⟩,
    ⟨{ st [] with rings := List.replicate 7 { inProg := [⟨0, [1, 3], false⟩] } }, ⟨0, [1, 3], false⟩, by decide +kernel⟩,
    ⟨{ st [] with rings := List.replicate 7 { inProg := [⟨0, [2, 3], false⟩] } }, ⟨0, [2, 3], false⟩, by decide +kernel⟩,
    ⟨{ st [] with rings := List.replicate 7 { inProg := [⟨0, [2, 3], false⟩] }, oce := { job := some (0, 0) } }, ⟨0, [2, 3], false⟩, 0, 0, by decide +kernel⟩,
    ⟨st [], by decide +kernel⟩,
    ⟨st [(Reg.oceAccClrClr, 1)], by decide +kernel⟩,
    ⟨{ runS (pl 0) [] with cs := { words := [(0, ⟨BitVec.ofNat 128 (2 ^ 117), csParity (BitVec.ofNat 128 (2 ^ 117))⟩)] } }, 0, 0, pl 0, by decide +kernel⟩,
    ⟨st [(Reg.bwkStatusState, 8)], 0, by decide +kernel⟩⟩

theorem witness_CompleteCache :
    (∃ (s : State) (slot : Nat) (data : Word) (l : Line), slot < 4 ∧ opFree s slot = true ∧ bcmFind s (opLine s slot data) = some l) ∧
    (∃ (s : State) (slot : Nat) (data : Word), slot < 4 ∧ opFree s slot = true ∧ bcmFind s (opLine s slot data) = none) ∧
    (∃ (s : State) (slot : Nat) (data : Word) (l : Line), slot < 4 ∧ opFree s slot = true ∧ bcmFind s (opLine s slot data) = some l ∧ l.has 3 = false ∧ l.maskOf 2 &&& fieldOf data 0 16 = 0) ∧
    (∃ (s : State) (slot : Nat) (data : Word) (l : Line), slot < 4 ∧ opFree s slot = true ∧ bcmFind s (opLine s slot data) = some l ∧ l.has 3 = false ∧ l.maskOf 2 &&& fieldOf data 0 16 = 0) ∧
    (∃ (s : State) (slot : Nat) (data : Word) (l : Line), slot < 4 ∧ opFree s slot = true ∧ bcmFind s (opLine s slot data) = some l ∧ l.has 3 = false ∧ (l.pinned = true ∨ pinRefused s (opLine s slot data) = false) ∧ s.rd Reg.bcmModeLevel = 1) ∧
    (∃ (s : State) (slot : Nat) (data : Word) (l : Line), slot < 4 ∧ opFree s slot = true ∧ bcmFind s (opLine s slot data) = some l ∧ l.has 3 = false ∧ s.rd Reg.bcmModeLevel = 1) ∧
    (∃ (s : State) (slot : Nat) (data : Word) (l : Line), slot < 4 ∧ opFree s slot = true ∧ bcmFillLine s (opLine s slot data) = some l ∧ l.maskOf 3 &&& fieldOf data 0 16 ≠ 0 ∧ s.bcm.staged = []) ∧
    (∃ (s : State) (slot : Nat) (data : Word) (l : Line), slot < 4 ∧ opFree s slot = true ∧ bcmFillLine s (opLine s slot data) = some l ∧ l.maskOf 3 &&& fieldOf data 0 16 ≠ 0 ∧ s.bcm.staged = [] ∧ s.hst.cmds = []) ∧
    (∃ (s : State) (data : Word), s.rd Reg.bcmModeLevel = 1 ∧ s.rd Reg.bcmCtlEn = 0) ∧
    (∃ (s : State) (w : Nat), w < 16 ∧ (s.rd Reg.bcmWaysPend).testBit w = true ∧ ((s.bcm.lines.filter fun l => l.place == 0 && l.way == w).all wayClean) = true) ∧
    (∃ (s : State) (data : Word), data.getLsbD 0 = true ∧ s.rd Reg.bcmStatusState = 0) ∧
    (∃ (s : State) (data : Word), data.getLsbD 0 = false ∧ s.rd Reg.bcmStatusState = 1) ∧
    (∃ (s : State), s.rd Reg.bcmStatusState = 2 ∧ s.bcm.lines.any (fun l => l.has 2) = false) :=
  ⟨⟨{ st [] with bcm := { lines := [⟨0, false, [1], 0, 0, 0, 0, 0⟩] } }, 0, 0, ⟨0, false, [1], 0, 0, 0, 0, 0⟩, by decide +kernel⟩,
    ⟨st [], 0, 0, by decide +kernel⟩,
    ⟨{ st [] with bcm := { lines := [⟨0, false, [1], 0, 0, 0, 0, 0⟩] } }, 0, 0, ⟨0, false, [1], 0, 0, 0, 0, 0⟩, by decide +kernel⟩,
    ⟨{ st [] with bcm := { lines := [⟨0, false, [1], 0, 0, 0, 0, 0⟩] } }, 0, 0, ⟨0, false, [1], 0, 0, 0, 0, 0⟩, by decide +kernel⟩,
    ⟨{ st [(Reg.bcmModeLevel, 1)] with bcm := { lines := [⟨0, false, [1], 0, 0, 0, 0, 0⟩] } }, 0, 0, ⟨0, false, [1], 0, 0, 0, 0, 0⟩, by decide +kernel⟩,
    ⟨{ st [(Reg.bcmModeLevel, 1)] with bcm := { lines := [⟨0, false, [1], 0, 0, 0, 0, 0⟩] } }, 0, 0, ⟨0, false, [1], 0, 0, 0, 0, 0⟩, by decide +kernel⟩,
    ⟨{ st [] with bcm := { lines := [⟨0, false, [3], 0, 0, 0, 0, 0⟩] } }, 0, 1, ⟨0, false, [3], 0, 0, 0, 0, 0⟩, by decide +kernel⟩,
    ⟨{ st [] with bcm := { lines := [⟨0, false, [3], 0, 0, 0, 0, 0⟩] } }, 0, 1, ⟨0, false, [3], 0, 0, 0, 0, 0⟩, by decide +kernel⟩,
    ⟨st [(Reg.bcmModeLevel, 1)], 0, by decide +kernel⟩,
    ⟨st [(Reg.bcmWaysPend, 1)], 0, by decide +kernel⟩,
    ⟨st [], 1, by decide +kernel⟩,
    ⟨st [(Reg.bcmStatusState, 1)], 0, by decide +kernel⟩,
    ⟨st [(Reg.bcmStatusState, 2)], by decide +kernel⟩⟩

theorem witness_CompleteMemory :
    (∃ (s : State) (m addr : Nat), m ≤ 3 ∧ memWordBase addr ∉ s.poison) ∧
    (∃ (s : State) (k : Nat) (u : Tracked), s.memc.tracker[k]? = some u ∧ u.wb = false ∧ s.rd Reg.memRepeatLimitValue ≤ u.count) ∧
    (∃ (s : State) (array : Nat), array < s.memc.scrub.length ∧ scrubbing s array = true) ∧
    (∃ (s : State) (data : Word), s.rd Reg.memModeLevel = 1 ∧ data.getLsbD 31 = true ∧ fieldOf data 0 2 ≠ 0) :=
  ⟨⟨st [], 0, 0, by decide +kernel⟩,
    ⟨{ st [] with memc := { tracker := [⟨0, 0, 1, false⟩] } }, 0, ⟨0, 0, 1, false⟩, by decide +kernel⟩,
    ⟨{ st [(Reg.memScrubRateSramMin, 1)] with memc := { scrub := [0, 0, 0] } }, 0, by decide +kernel⟩,
    ⟨st [(Reg.memModeLevel, 1)], 0x80000001, by decide +kernel⟩⟩

theorem witness_CompleteFault :
    (∃ (s : State) (h int : Nat), s.flt.wdogOn.testBit h = true ∧ s.rd (Reg.fltWdogUs.elem h) ≠ 0 ∧ h < 4 ∧ hartRuns s h = true ∧ (survivors s h).isEmpty = false ∧ (s.rd Reg.fltCoreFaults).testBit h = false) ∧
    (∃ (s : State) (h int : Nat), h < 4 ∧ hartRuns s h = true ∧ (survivors s h).isEmpty = false ∧ (s.rd Reg.fltCoreFaults).testBit h = false) ∧
    (∃ (s : State) (h : Nat), h < 4 ∧ (s.rd Reg.fltCoreHeld).testBit h = true ∧ s.serving (bitHart h) = true ∧ s.flt.safe = .none ∧ s.rd Reg.sysOpmodeMode ≠ 5 ∧ s.rd Reg.sysOpmodeMode ≠ 1) ∧
    (∃ (s : State) (h : Nat) (data : Word), h < 4 ∧ data.getLsbD (24 + h) = true ∧ hartRuns (s.wr Reg.fltCoreRejoin (s.rd Reg.fltCoreRejoin &&& (15 ^^^ fieldOf data 16 4))) h = true) ∧
    (∃ (s : State) (m n : Nat) (data : Word), n < 4 ∧ (s.rd Reg.fltCoreHeld).testBit m = false) ∧
    (∃ (s : State) (m : Nat) (data : Word), fieldOf data 30 2 = 1 ∧ data.getLsbD 7 = false) ∧
    (∃ (s : State) (m : Nat) (data : Word), fieldOf data 30 2 = 3 ∧ data.getLsbD 7 = false ∧ mayEnterSafe s = true) ∧
    (∃ (s : State) (m : Nat) (data : Word) (int : Nat), data.getLsbD 7 = true ∧ fieldOf data 4 3 < 4 ∧ hartRuns s (fieldOf data 4 3) = true ∧ (survivors s (fieldOf data 4 3)).isEmpty = false ∧ (s.rd Reg.fltCoreFaults).testBit (fieldOf data 4 3) = false) ∧
    (∃ (s : State), s.flt.mismatches = 0) ∧
    (∃ (s : State), s.flt.mismatches ≠ 0) ∧
    (∃ (s : State), s.flt.warden = .restarting ∧ s.flt.safe = .begun) :=
  ⟨⟨{ hS with flt := { wdogOn := 1 } }, 0, 5, by decide +kernel⟩,
    ⟨hS, 0, 5, by decide +kernel⟩,
    ⟨st [(Reg.fltCoreHeld, 1), (Reg.simEffMask.elem 0, 15)], 0, by decide +kernel⟩,
    ⟨hS, 0, 0x1000000, by decide +kernel⟩,
    ⟨st [], 0, 0, 5, by decide +kernel⟩,
    ⟨st [], 0, 0x40000000, by decide +kernel⟩,
    ⟨st [(Reg.sysOpmodeMode, 2)], 0, 0xC0000000, by decide +kernel⟩,
    ⟨hS, 0, 0x80, 5, by decide +kernel⟩,
    ⟨st [(Reg.sysOpmodeMode, 1)], by decide +kernel⟩,
    ⟨{ st [] with flt := { mismatches := 1 } }, by decide +kernel⟩,
    ⟨{ st [] with flt := { warden := .restarting, safe := .begun } }, by decide +kernel⟩⟩

theorem witness_CompleteCalib :
    (∃ (s : State) (n full : Nat) (p : Plank), n < 2 ∧ plankMayBegin s n full actCal p = true ∧ p.count ≠ 0) ∧
    (∃ (s : State) (group inst : Nat), group ≤ 2 ∧ s.rd Reg.sysOpmodeMode = 2 ∧ s.flt.safe = .none ∧ instPresent s group inst = true ∧ runFree s (CalReq.mk group inst) = true ∧ s.cal.queue = []) ∧
    (∃ (s : State) (group : Nat), group < 8) ∧
    (∃ (s : State) (values : List Int) (r : CalReq), s.cal.running = [r] ∧ r.group = 2 ∧ s.cal.queue = []) ∧
    (∃ (s : State) (n full : Nat) (p : Plank) (values : List Int) (check : Bool), n < 2 ∧ runsAlone s n actCal p = true ∧ s.cal.running = [{ group := p.param % 256, inst := calInst s n p }] ∧ calWindow s p ≤ ticksBetween s (s.bwk.get n).run.beginAt (frameAngle s p.head full)) ∧
    (∃ (s : State) (data : Word), qidValid s (s.rd Reg.calQIdxQid) = true) ∧
    (∃ (s : State) (group : Nat), group < 8 ∧ groupBoundary s group = true ∧ s.cal.staged.filter (fun e => e.1 / 4096 == group) ≠ []) ∧
    (∃ (s : State) (delay : Nat) (readers : List Nat), s.age.lastEval + 3600 * s.rd Reg.ageCtlEvalH ≤ s.opsec ∧ mayEvaluate s = true) ∧
    (∃ (s : State) (delay : Nat) (readers : List Nat), mayEvaluate s = true) ∧
    (∃ (s : State) (entry : Nat), s.rd Reg.ageModeLevel = 1 ∧ entry < 64 ∧ propState s entry = 1) ∧
    (∃ (s : State) (entry : Nat), s.rd Reg.ageModeLevel = 1 ∧ entry < 64 ∧ propState s entry = 1) :=
  ⟨⟨bwkS (pl 6) [], 0, 0, pl 6, by decide +kernel⟩,
    ⟨{ st [(Reg.sysOpmodeMode, 2), (Reg.simEffMask, 2048)] with flt := { safe := .none } }, 0, 0, by decide +kernel⟩,
    ⟨st [], 0, by decide +kernel⟩,
    ⟨{ st [] with cal := { running := [{ group := 2, inst := 0 }] } }, [], { group := 2, inst := 0 }, by decide +kernel⟩,
    ⟨{ runS (pl 6) [] with cal := { running := [{ group := 0, inst := 0 }] } }, 0, 0, pl 6, [], true, by decide +kernel⟩,
    ⟨st [(Reg.calQIdxQid, 8192)], 0, by decide +kernel⟩,
    ⟨{ st [] with cal := { staged := [(0, some 1)] } }, 0, by decide +kernel⟩,
    ⟨{ st [(Reg.sysOpmodeMode, 2)] with flt := { safe := .none } }, 0, [], by decide +kernel⟩,
    ⟨{ st [(Reg.sysOpmodeMode, 2)] with flt := { safe := .none } }, 0, [], by decide +kernel⟩,
    ⟨(st [(Reg.ageModeLevel, 1)]).store 0x10B20001 [1], 0, by decide +kernel⟩,
    ⟨(st [(Reg.ageModeLevel, 1)]).store 0x10B20001 [1], 0, by decide +kernel⟩⟩

theorem witness_CompletePower :
    (∃ (s : State) (vm vl : Nat), s.boot ≠ .por ∧ s.rd Reg.pwrStatusLoss = 0 ∧ vm < 9500 ∧ s.pwr.vmArrived = true ∧ 4500 ≤ vl) ∧
    (∃ (s : State) (vm vl : Nat), s.boot ≠ .por ∧ s.rd Reg.pwrStatusLoss = 0 ∧ ((vm < 9500 → s.pwr.vmArrived = false)) ∧ vl < 4500) ∧
    (∃ (s : State), s.pwr.step = .detected) ∧
    (∃ (s : State), s.pwr.step = .retracting) ∧
    (∃ (s : State) (vhold : Nat), s.pwr.step = .held ∧ s.pwr.tripped = false) ∧
    (∃ (s : State) (vhold : Nat), s.rd Reg.pwrStatusLoss = 1 ∧ s.rd Reg.pwrStatusCause ≠ 3 ∧ s.pwr.returned = false ∧ vhold < s.rd Reg.ageHoldup2VminMv) ∧
    (∃ (s : State) (rise step vhold : Nat), s.pwr.testing = true ∧ s.change = none ∧ s.boot = .done ∧ s.rd Reg.ageHoldup2VminMv ≠ 0) ∧
    (∃ (s : State), s.rd Reg.pwrStatusHoldupReady = 0 ∧ s.rd Reg.pwrStatusHoldupFail = 0 ∧ s.pwr.vmArrived = true ∧ s.change = none ∧ s.boot = .done) ∧
    (∃ (s : State) (vm : Nat), 10500 ≤ vm ∧ s.boot = .done ∧ s.pwr.vmArrived = false ∧ s.change = none) ∧
    (∃ (s : State) (rail : Nat), rail < 7 ∧ (s.rd Reg.pwrStatusRailsOk).testBit rail = true) ∧
    (∃ (s : State), s.rd Reg.hvbStatusLinkUp = 1) ∧
    (∃ (s : State), s.rd Reg.hvbStatusLinkUp = 0 ∧ s.boot ≠ .por ∧ s.rd (Reg.hvRetractActive.elem 0) = 0 ∧ s.rd (Reg.hvRetractActive.elem 1) = 0) ∧
    (∃ (s : State), s.rd Reg.hvbStatusLinkUp = 0) ∧
    (∃ (s : State) (cause : Nat), cause % 1024 ≠ 0) ∧
    (∃ (s : State) (data : Word), data.getLsbD 0 = true) :=
  ⟨⟨{ st [] with boot := .done, pwr := { vmArrived := true } }, 0, 5000, by decide +kernel⟩,
    ⟨{ st [] with boot := .done }, 12000, 0, by decide +kernel⟩,
    ⟨{ st [] with pwr := { step := .detected } }, by decide +kernel⟩,
    ⟨{ st [] with pwr := { step := .retracting } }, by decide +kernel⟩,
    ⟨{ st [] with pwr := { step := .held } }, 5, by decide +kernel⟩,
    ⟨st [(Reg.pwrStatusLoss, 1), (Reg.ageHoldup2VminMv, 9)], 5, by decide +kernel⟩,
    ⟨{ st [(Reg.ageHoldup2VminMv, 9000)] with boot := .done, pwr := { testing := true } }, 1, 2, 3, by decide +kernel⟩,
    ⟨{ st [] with boot := .done, pwr := { vmArrived := true } }, by decide +kernel⟩,
    ⟨{ st [] with boot := .done }, 12000, by decide +kernel⟩,
    ⟨st [(Reg.pwrStatusRailsOk, 127)], 3, by decide +kernel⟩,
    ⟨st [(Reg.hvbStatusLinkUp, 1)], by decide +kernel⟩,
    ⟨{ st [] with boot := .done }, by decide +kernel⟩,
    ⟨st [], by decide +kernel⟩,
    ⟨st [], 5, by decide +kernel⟩,
    ⟨st [], 1, by decide +kernel⟩⟩

theorem witness_CompleteThermal :
    (∃ (s : State) (ms k temp : Nat), k < 14) ∧
    (∃ (s : State) (g : Nat), g < 4 ∧ Store.read none s.thm.rising g = none) ∧
    (∃ (s : State), s.rd Reg.thmStatusSluice = 1 ∧ throttling s = true ∧ s.rd Reg.thmModeLevel = 0) ∧
    (∃ (s : State), s.rd Reg.thmStatusSluice = 2 ∧ throttling s = true ∧ s.rd Reg.thmModeLevel = 0 ∧ s.rd Reg.thmStatusStep < 15) ∧
    (∃ (s : State), s.rd Reg.thmStatusSluice = 2 ∧ throttling s = false ∧ s.rd Reg.thmModeLevel = 0) ∧
    (∃ (s : State), s.rd Reg.thmModeLevel = 1 ∧ s.rd Reg.thmStatusSluice ≠ 2) ∧
    (∃ (s : State), s.rd Reg.thmModeLevel = 1 ∧ s.rd Reg.thmStatusSluice = 2) ∧
    (∃ (s : State) (k reading : Nat), k < 13 ∧ deg (s.rd (Reg.thmThrShut.elem (sensorGroup k))) ≤ signedOf 16 reading ∧ s.boot ≠ .por ∧ s.pwr.tripped = false ∧ s.rd Reg.pwrStatusLoss = 0) ∧
    (∃ (s : State), s.pwr.tripped = true ∧ s.pwr.dieHeld = false) :=
  ⟨⟨st [], 0, 3, 100, by decide +kernel⟩,
    ⟨st [(Reg.thmStatusRise, 15)], 2, by decide +kernel⟩,
    ⟨st [(Reg.thmStatusSluice, 1), (Reg.thmStatusRise, 1)], by decide +kernel⟩,
    ⟨st [(Reg.thmStatusSluice, 2), (Reg.thmStatusStep, 3), (Reg.thmStatusRise, 1)], by decide +kernel⟩,
    ⟨st [(Reg.thmStatusSluice, 2)], by decide +kernel⟩,
    ⟨st [(Reg.thmModeLevel, 1)], by decide +kernel⟩,
    ⟨st [(Reg.thmModeLevel, 1), (Reg.thmStatusSluice, 2)], by decide +kernel⟩,
    ⟨{ st [] with boot := .done }, 3, 100, by decide +kernel⟩,
    ⟨{ st [] with pwr := { tripped := true } }, by decide +kernel⟩⟩

theorem witness_CompleteReset :
    (∃ (s : State) (noSpare : List Nat), s.boot = .por ∧ s.rd Reg.rstStatusPhase ≠ 2) ∧
    (∃ (s : State) (fails : Nat), s.boot = .b1) ∧
    (∃ (s : State) (data : Word), fieldOf data 16 16 = 0xFE25 ∧ data.getLsbD 0 = true ∧ s.rd Reg.rstStatusPhase = 0 ∧ s.boot = .done ∧ s.rd Reg.pwrStatusLoss = 0 ∧ s.rd Reg.sysOpmodeMode = 2) ∧
    (∃ (s : State) (fn : Nat), isPf fn = true ∧ s.rd Reg.rstStatusPhase = 0 ∧ s.boot = .done ∧ s.rd Reg.pwrStatusLoss = 0 ∧ s.rd Reg.sysOpmodeMode = 2) ∧
    (∃ (s : State) (us : Nat), 10 ≤ us ∧ s.rd Reg.rstStatusPhase = 0 ∧ s.boot = .done ∧ s.rd Reg.pwrStatusLoss = 0 ∧ s.rd Reg.sysOpmodeMode = 2) ∧
    (∃ (s : State), s.rst.request = some 7 ∧ s.rst.cleanStop = false) ∧
    (∃ (s : State) (source : Nat), s.rst.request = some source ∧ s.rst.cleanStop = true) ∧
    (∃ (s : State) (noSpare : List Nat), s.rd Reg.rstStatusPhase = 2) ∧
    (∃ (s : State) (vm vl : Nat), s.rd Reg.pwrStatusLoss = 1 ∧ s.rd Reg.pwrStatusCause ≠ 3 ∧ s.pwr.step = .none ∧ supplyRange vm vl = true) ∧
    (∃ (s : State) (readings : List Nat), s.pwr.dieHeld = true ∧ tripCool s readings = true) :=
  ⟨⟨{ st [] with boot := .por }, [], by decide +kernel⟩,
    ⟨{ st [] with boot := .b1 }, 0, by decide +kernel⟩,
    ⟨{ st [(Reg.sysOpmodeMode, 2)] with boot := .done }, 0xFE250001#32, by decide +kernel⟩,
    ⟨{ st [(Reg.sysOpmodeMode, 2)] with boot := .done }, 0, by decide +kernel⟩,
    ⟨{ st [(Reg.sysOpmodeMode, 2)] with boot := .done }, 10, by decide +kernel⟩,
    ⟨{ st [] with rst := { request := some 7 } }, by decide +kernel⟩,
    ⟨{ st [] with rst := { request := some 7, cleanStop := true } }, 7, by decide +kernel⟩,
    ⟨st [(Reg.rstStatusPhase, 2)], [], by decide +kernel⟩,
    ⟨st [(Reg.pwrStatusLoss, 1)], 12000, 5000, by decide +kernel⟩,
    ⟨{ st [(Reg.thmThrShut, 100), (Reg.thmThrShut.elem 1, 100), (Reg.thmThrShut.elem 2, 100), (Reg.thmThrShut.elem 3, 100)] with pwr := { dieHeld := true } }, List.replicate 13 0, by decide +kernel⟩⟩

theorem witness_CompleteHostReset :
    (∃ (s : State), s.boot = .b2 ∧ s.rd Reg.sysOpmodeMode = 0) ∧
    (∃ (s : State), s.rd Reg.sysOpmodeMode = 2 ∧ s.flt.safe = .none ∧ s.rst.request = none ∧ s.rd Reg.pwrStatusLoss = 0 ∧ (loadedActs (calStop (hostStop (astStop (astStop (rungPreempt (bwkStopAll s 0)) 0) 1)))).isEmpty = false) ∧
    (∃ (s : State), s.rd Reg.rstStatusPerst = 0 ∧ s.rd Reg.rstStatusPhase = 0 ∧ s.boot = .done) ∧
    (∃ (s : State), s.rd Reg.rstStatusPerst = 1 ∧ s.rd Reg.rstStatusP0Hrst = 1) ∧
    (∃ (s : State), s.rd Reg.rstStatusPerst = 0 ∧ s.rd Reg.rstStatusPhase = 0 ∧ s.boot = .done) ∧
    (∃ (s : State) (fn : Nat), functionExists s fn = true ∧ s.rd Reg.rstStatusPhase = 0 ∧ s.boot = .done) ∧
    (∃ (s : State) (fn : Nat) (k : Ctrl), ctrlOf s fn = some k ∧ s.rd Reg.rstStatusPhase = 0) ∧
    (∃ (s : State) (fn ams sqBase sqSize cqBase cqSize : Nat), functionExists s fn = true ∧ ctrlOf s fn = none ∧ portUp s (portOf fn) = true ∧ s.rd Reg.rstStatusPhase = 0 ∧ s.boot = .done ∧ s.rd Reg.sysOpmodeMode = 2 ∧ 2 ≤ sqSize ∧ 2 ≤ cqSize) ∧
    (∃ (s : State) (u : Nat), s.rd Reg.sysOpmodeMode = 4 ∧ u < 9 ∧ u ∉ s.gated ∧ s.change = none ∧ gateIdle s u = true) ∧
    (∃ (s : State), s.gated ≠ [] ∧ s.change = some { mode := 2, cause := 0x15, unloading := true } ∧ s.boot = .done) :=
  ⟨⟨{ st [] with boot := .b2 }, by decide +kernel⟩,
    ⟨st [(Reg.sysOpmodeMode, 2), (Reg.simEffMask, 2 ^ 6), (Reg.srvStatusState, 4)], by decide +kernel⟩,
    ⟨{ st [] with boot := .done }, by decide +kernel⟩,
    ⟨st [(Reg.rstStatusPerst, 1), (Reg.rstStatusP0Hrst, 1)], by decide +kernel⟩,
    ⟨{ st [] with boot := .done }, by decide +kernel⟩,
    ⟨{ st [] with boot := .done }, 0, by decide +kernel⟩,
    ⟨{ st [] with hst := { ctrls := [⟨0, 0, 1, 1, 1, [], [], 0, []⟩] } }, 0, ⟨0, 0, 1, 1, 1, [], [], 0, []⟩, by decide +kernel⟩,
    ⟨{ st [(Reg.hstStatusP0Up, 1), (Reg.sysOpmodeMode, 2)] with boot := .done }, 0, 0, 0, 2, 0, 2, by decide +kernel⟩,
    ⟨st [(Reg.sysOpmodeMode, 4)], 0, by decide +kernel⟩,
    ⟨{ st [] with boot := .done, gated := [0], change := some { mode := 2, cause := 0x15, unloading := true } }, by decide +kernel⟩⟩

theorem witness_CompleteFrames :
    (∃ (s : State) (f : Frame), frameActed s f 1 1 = true ∧ s.rd Reg.sysOpmodeMode = 2 ∧ s.flt.safe = .none) ∧
    (∃ (s : State) (f : Frame), frameActed s f 5 0x40 = true ∧ (bodyNat f.payload 0 1 = s.rd Reg.domGroupGroup ∨ (bodyNat f.payload 1 1).testBit 0 = true)) ∧
    (∃ (s : State) (f : Frame), frameActed s f 5 0x41 = true ∧ isBcast f = false ∧ bodyNat f.payload 0 2 = 0xD5E7 ∧ s.rd Reg.rstStatusPhase = 0 ∧ s.boot = .done ∧ s.rd Reg.pwrStatusLoss = 0 ∧ s.rd Reg.sysOpmodeMode = 2) ∧
    (∃ (s : State) (f : Frame) (now k : Nat), s.boot ≠ .por ∧ f.bad = false ∧ f.port = bit f.reverse ∧ s.rd Reg.domStatusRole = 0 ∧ s.rd Reg.domStatusState = 2 ∧ s.rd Reg.domStatusTimeLocked = 1 ∧ f.src % 8192 / 256 = s.rd Reg.domStatusPort ∧ neighbour ((f.src % 256 : Nat) - (s.rd Reg.domStatusPosition : Nat)) = some k ∧ (s.rd Reg.domNbrMask).testBit k = true ∧ (s.srv.get 0).notices = []) ∧
    (∃ (s : State) (f : Frame), frameActed s f 3 0x21 = true ∧ bodyNat f.payload 0 1 < 255) ∧
    (∃ (s : State) (f : Frame) (ns resid : Nat), frameActed s f 3 0x20 = true) ∧
    (∃ (s : State) (f : Frame), frameHeard s f = true ∧ s.rd Reg.domModeLevel = 0 ∧ frameFrom f ≠ 0 ∧ s.dom.wait = [] ∧ s.dom.held.any (fun w => w.1 == frameFrom f) = false ∧ tokenRoom s (frameFrom f) = true) ∧
    (∃ (s : State) (f : Frame), frameActed s f 4 0x31 = true ∧ s.dom.holding = false ∧ s.rd Reg.spnStatusState = 1 ∧ s.dom.asked = true ∧ s.dom.fallback = false) ∧
    (∃ (s : State) (f : Frame), frameHeard s f = true ∧ s.rd Reg.domModeLevel = 0 ∧ s.dom.wait = []) ∧
    (∃ (s : State) (f : Frame), frameActed s f 4 0x33 = true ∧ s.dom.asked = true) :=
  ⟨⟨memS [], fr [], by decide +kernel⟩,
    ⟨memS [], fr [], by decide +kernel⟩,
    ⟨memS [], { fr [0xE7, 0xD5] with dst := 1 }, by decide +kernel⟩,
    ⟨memS [(Reg.domStatusTimeLocked, 1), (Reg.domNbrMask, 255)], { fr [] with src := 2 }, 0, 4, by decide +kernel⟩,
    ⟨memS [], fr [3], by decide +kernel⟩,
    ⟨memS [], fr [], 0, 0, by decide +kernel⟩,
    ⟨manS [(Reg.domTokenMax, 4), (Reg.domTokenPerPort, 4)], frW [7], by decide +kernel⟩,
    ⟨{ memS [(Reg.spnStatusState, 1)] with dom := { asked := true } }, fr [], by decide +kernel⟩,
    ⟨manS [], frW [], by decide +kernel⟩,
    ⟨{ memS [] with dom := { asked := true } }, fr [], by decide +kernel⟩⟩

theorem witness_CompleteBulk :
    (∃ (s : State) (f : Frame), frameHeard s f = true ∧ s.rd Reg.domModeLevel = 0 ∧ htblBase s ≠ 0 ∧ inBuffer s (htblBase s + 16 * frameFrom f) 16 = true) ∧
    (∃ (s : State) (f : Frame), (frameActed s f 6 0x51 = true ∨ frameHeard s f = true) ∧ bodyNat f.payload 0 1 ≤ 1 ∧ s.rd Reg.sysOpmodeMode ≠ 1 ∧ bodyNat f.payload 8 4 ≠ 0) ∧
    (∃ (s : State) (f : Frame), frameActed s f 6 0x52 = true ∧ bodyNat f.payload 0 1 = 2 ∧ 8 * bodyNat f.payload 1 3 % 4096 = 0) ∧
    (∃ (s : State) (f : Frame), frameActed s f 6 0x53 = true ∧ bodyNat f.payload 0 1 = 2 ∧ s.dom.block ≠ [] ∧ s.dom.block.length ≤ 4096 ∧ crc32c s.dom.block = bodyNat f.payload 4 4) ∧
    (∃ (s : State) (f : Frame) (b : Bulk), (frameActed s f 6 0x54 = true ∨ frameHeard s f = true) ∧ bulkOf s f = some b ∧ b.len ≤ b.done + 4096) ∧
    (∃ (s : State) (f : Frame) (b : Bulk), (frameActed s f 6 0x54 = true ∨ frameHeard s f = true) ∧ bulkOf s f = some b ∧ b.done + 4096 < b.len) ∧
    (∃ (s : State) (f : Frame) (b : Bulk), (frameActed s f 6 0x55 = true ∨ frameHeard s f = true) ∧ bulkOf s f = some b ∧ b.tries < 8) ∧
    (∃ (s : State) (f : Frame), (frameActed s f 6 0x5F = true ∨ frameHeard s f = true) ∧ s.dom.rx.length < 64) :=
  ⟨⟨manS [(Reg.domHtblLoAddr, 0x08000000 / 2 ^ 17)], frW [], by decide +kernel⟩,
    ⟨memS [], fr [0, 0, 0, 0, 0, 0, 0, 0, 8], by decide +kernel⟩,
    ⟨memS [], fr [2], by decide +kernel⟩,
    ⟨{ memS [] with dom := { block := [1] } }, fr ([2, 0, 0, 0] ++ leBytes 4 (crc32c [1])), by decide +kernel⟩,
    ⟨{ memS [] with dom := { bulk := some ⟨0, 0, 0, 8, 0, 0⟩ } }, fr [], ⟨0, 0, 0, 8, 0, 0⟩, by decide +kernel⟩,
    ⟨{ memS [] with dom := { bulk := some ⟨0, 0, 0, 5000, 0, 0⟩ } }, fr [], ⟨0, 0, 0, 5000, 0, 0⟩, by decide +kernel⟩,
    ⟨{ memS [] with dom := { bulk := some ⟨0, 0, 0, 8, 0, 0⟩ } }, fr [], ⟨0, 0, 0, 8, 0, 0⟩, by decide +kernel⟩,
    ⟨memS [], fr [], by decide +kernel⟩⟩

theorem witness_CompleteDomain :
    (∃ (s : State) (port : Nat), port < 32 ∧ s.rd (Reg.domPortStatusUp.elem port) = 0 ∧ s.rd (Reg.domPortStatusFailed.elem port) = 0 ∧ s.boot ≠ .por) ∧
    (∃ (s : State) (port n : Nat), port < 32 ∧ n < 8 ∧ s.rd (Reg.domPortStatusUp.elem port) = 1) ∧
    (∃ (s : State), s.rd Reg.domStatusRole = 0 ∧ s.rd Reg.domStatusState = 1) ∧
    (∃ (s : State), s.rd Reg.domStatusRole = 0 ∧ s.rd Reg.domStatusState = 2 ∧ s.dom.missed < 9) ∧
    (∃ (s : State), s.rd Reg.domStatusRole = 0 ∧ s.rd Reg.domStatusState = 2 ∧ s.dom.missed = 9) ∧
    (∃ (s : State), s.rd Reg.domStatusRole = 0 ∧ s.rd Reg.domStatusState = 3) ∧
    (∃ (s : State), s.rd Reg.domStatusState = 5 ∧ s.rd Reg.domModeLevel = 0) ∧
    (∃ (s : State) (now : Nat), s.rd Reg.domStatusState = 5 ∧ s.rd Reg.domModeLevel = 0 ∧ now < 2 ^ 64) ∧
    (∃ (s : State) (m : Nat) (data : Word), s.rd Reg.domStatusRole ≠ 0 ∧ s.domClock ≤ ((stagedHalf s m Reg.domTimeSetLoUs.addr).getD 0).toNat + 2 ^ 32 * data.toNat) ∧
    (∃ (s : State), tokenWaits s = true) ∧
    (∃ (s : State), tokenWaits s = true) ∧
    (∃ (s : State), s.rd Reg.domStatusRole = 0 ∧ s.rd Reg.spnStatusState = 1 ∧ s.dom.asked = true ∧ (s.rd Reg.domStatusState ≠ 2 ∨ s.dom.fallback = true)) ∧
    (∃ (s : State) (id : Nat), s.rd Reg.domStatusRole ≠ 0 ∧ s.rd Reg.domModeLevel = 0 ∧ s.dom.held.any (fun h => h.1 == id) = true ∧ s.dom.wait = []) ∧
    (∃ (s : State), s.rd Reg.domStatusRole = 0 ∧ s.rd Reg.domStatusState = 2 ∧ s.rd Reg.sysOpmodeMode ≠ 1) ∧
    (∃ (s : State) (b : Bulk), s.dom.bulk = some b ∧ b.tries < 8) ∧
    (∃ (s : State) (b : Bulk), s.dom.bulk = some b ∧ 8 ≤ b.tries) ∧
    (∃ (s : State) (data : Word), fieldOf data 16 16 = 0x5AFE ∧ data.getLsbD 0 = true ∧ s.rd Reg.domStatusRole ≠ 0) ∧
    (∃ (s : State), s.dom.safeLeft ≠ 0) ∧
    (∃ (s : State) (data : Word), data.getLsbD 31 = true ∧ (s.rd Reg.domTxBytes % 8 = 5 ∨ s.rd Reg.domTxBytes % 8 = 6) ∧ s.rd Reg.domStatusState ≠ 0 ∧ s.rd Reg.domStatusState ≠ 4) ∧
    (∃ (s : State) (data : Word), data.getLsbD 31 = true) :=
  ⟨⟨{ st [] with boot := .done }, 0, by decide +kernel⟩,
    ⟨st [(Reg.domPortStatusUp, 1)], 0, 0, by decide +kernel⟩,
    ⟨st [(Reg.domStatusState, 1)], by decide +kernel⟩,
    ⟨st [(Reg.domStatusState, 2)], by decide +kernel⟩,
    ⟨{ st [(Reg.domStatusState, 2)] with dom := { missed := 9 } }, by decide +kernel⟩,
    ⟨st [(Reg.domStatusState, 3)], by decide +kernel⟩,
    ⟨manS [], by decide +kernel⟩,
    ⟨manS [], 7, by decide +kernel⟩,
    ⟨manS [], 0, 1, by decide +kernel⟩,
    ⟨{ memS [(Reg.spnStatusState, 1)] with dom := { asked := true } }, by decide +kernel⟩,
    ⟨{ memS [(Reg.spnStatusState, 1)] with dom := { asked := true } }, by decide +kernel⟩,
    ⟨{ st [(Reg.spnStatusState, 1)] with dom := { asked := true } }, by decide +kernel⟩,
    ⟨{ manS [] with dom := { held := [(1, 0)] } }, 1, by decide +kernel⟩,
    ⟨memS [], by decide +kernel⟩,
    ⟨{ memS [] with dom := { bulk := some ⟨0, 0, 0, 8, 0, 0⟩ } }, ⟨0, 0, 0, 8, 0, 0⟩, by decide +kernel⟩,
    ⟨{ memS [] with dom := { bulk := some ⟨0, 0, 0, 8, 0, 8⟩ } }, ⟨0, 0, 0, 8, 0, 8⟩, by decide +kernel⟩,
    ⟨manS [], 0x5AFE0001#32, by decide +kernel⟩,
    ⟨{ manS [] with dom := { safeLeft := 2 } }, by decide +kernel⟩,
    ⟨memS [(Reg.domTxBytes, 6)], 0x80000000#32, by decide +kernel⟩,
    ⟨{}, 0x80000000#32, by decide +kernel⟩⟩

theorem witness_CompleteUpdate :
    (∃ (s : State) (c : Ctrl) (fn : Nat) (data : List Byte), ctrlOf s fn = some c ∧ s.rd Reg.sysOpmodeMode = 2 ∧ isPf fn = true ∧ s.rd Reg.updStatusTrial = 0 ∧ s.upd.keyRun = false ∧ s.rd Reg.updStatusLock = 0 ∧ pieceBad s 0 data.length = false) ∧
    (∃ (s : State) (c : Ctrl) (fn : Nat), ctrlOf s fn = some c ∧ s.rd Reg.sysOpmodeMode = 2 ∧ isPf fn = true ∧ s.rd Reg.updStatusTrial = 0 ∧ s.upd.keyRun = false ∧ s.upd.auth = none ∧ s.rd Reg.updStatusLock = 1 ∧ s.rd Reg.updStatusPendState = 1 ∧ pendSlot s = otherSlot s ∧ slotState s (otherSlot s) ≠ 3 ∧ s.upd.pieces ≠ []) ∧
    (∃ (s : State) (c : Ctrl) (fn : Nat), ctrlOf s fn = some c ∧ s.rd Reg.sysOpmodeMode = 2 ∧ isPf fn = true ∧ s.rd Reg.updStatusTrial = 0 ∧ s.upd.keyRun = false ∧ s.upd.auth = none ∧ s.rd Reg.updStatusLock = 1 ∧ s.rd Reg.updStatusPendState = 1 ∧ pendSlot s = otherSlot s ∧ slotState s (otherSlot s) ≠ 3 ∧ s.upd.pieces ≠ []) ∧
    (∃ (s : State) (c : Ctrl) (fn : Nat), ctrlOf s fn = some c ∧ s.rd Reg.sysOpmodeMode = 2 ∧ isPf fn = true ∧ s.rd Reg.updStatusTrial = 0 ∧ s.upd.keyRun = false ∧ s.upd.auth = none ∧ s.rd Reg.updStatusLock = 0 ∧ s.rd Reg.updStatusPendState = 0 ∧ slotState s 1 = 2) ∧
    (∃ (s : State) (slot fn : Nat), slot < 2 ∧ s.upd.auth = some { slot, source := 1, arm := false, fn }) ∧
    (∃ (s : State), s.rd Reg.updStatusLock = 1 ∧ s.rd Reg.updStatusPendState = 1 ∧ s.upd.auth = none) ∧
    (∃ (s : State), s.rd Reg.updStatusPendState = 4 ∧ s.rd Reg.rstStatusPhase = 0 ∧ s.boot = .done ∧ s.rd Reg.pwrStatusLoss = 0 ∧ s.rd Reg.sysOpmodeMode = 2) ∧
    (∃ (s : State), s.rd Reg.domStatusRole = 1 ∧ s.rd Reg.updWaveCtlEn = 1 ∧ s.rd Reg.updWaveCtlState = 0 ∧ stagedGroups s = []) ∧
    (∃ (s : State), s.rd Reg.updWaveCtlState = 1 ∧ s.upd.done = false) ∧
    (∃ (s : State) (data : Word), fieldOf data 16 16 = 0xC0F1 ∧ data.getLsbD 0 = true ∧ s.rd Reg.updStatusTrial = 1 ∧ trialSlot s = some 1 ∧ setVer s 1 = 0) ∧
    (∃ (s : State), s.rd Reg.updStatusTrial = 1 ∧ s.rd Reg.rstStatusPhase = 0 ∧ s.boot = .done ∧ s.rd Reg.pwrStatusLoss = 0 ∧ s.rd Reg.sysOpmodeMode = 2) :=
  ⟨⟨admS [], admC, 0, [1, 2, 3, 4], by decide +kernel⟩,
    ⟨{ admS [(Reg.updStatusLock, 1), (Reg.updStatusPendState, 1)] with upd := { pieces := [(0, 4)] } }, admC, 0, by decide +kernel⟩,
    ⟨{ admS [(Reg.updStatusLock, 1), (Reg.updStatusPendState, 1)] with upd := { pieces := [(0, 4)] } }, admC, 0, by decide +kernel⟩,
    ⟨admS [(Reg.updSlotState.elem 1, 2)], admC, 0, by decide +kernel⟩,
    ⟨{ st [] with upd := { auth := some { slot := 0, source := 1, arm := false, fn := 0 } } }, 0, 0, by decide +kernel⟩,
    ⟨st [(Reg.updStatusLock, 1), (Reg.updStatusPendState, 1)], by decide +kernel⟩,
    ⟨{ st [(Reg.updStatusPendState, 4), (Reg.sysOpmodeMode, 2)] with boot := .done }, by decide +kernel⟩,
    ⟨st [(Reg.domStatusRole, 1), (Reg.updWaveCtlEn, 1)], by decide +kernel⟩,
    ⟨st [(Reg.updWaveCtlState, 1)], by decide +kernel⟩,
    ⟨{ st [(Reg.updStatusTrial, 1), (Reg.updSlotState.elem 1, 4)] with upd := { nor := [(0x180001E, 0), (0x180001F, 0)] } }, 0xC0F10001#32, by decide +kernel⟩,
    ⟨{ st [(Reg.updStatusTrial, 1), (Reg.sysOpmodeMode, 2)] with boot := .done }, by decide +kernel⟩⟩

theorem witness_CompleteSettings :
    (∃ (s : State), s.flt.safe = .recorded ∧ s.rd (Reg.hvRetractDone.elem 0) = 1 ∧ s.rd (Reg.hvRetractDone.elem 1) = 1 ∧ s.rd Reg.updStatusTrial = 0) ∧
    (∃ (s : State), s.rd Reg.updStatusTrial = 0 ∧ s.rd Reg.rstStatusPhase = 0 ∧ s.boot = .done ∧ s.rd Reg.pwrStatusLoss = 0 ∧ s.rd Reg.sysOpmodeMode = 2) ∧
    (∃ (s : State) (data : Word), data.getLsbD 31 = true) ∧
    (∃ (s : State), s.rd Reg.updSetStatusMirrorPend = 1) ∧
    (∃ (s : State) (e : RingEntry), ringFront s 6 = some e ∧ e.at 0 1 = 0x10 ∧ mailMalformed e = true) :=
  ⟨⟨{ st [(Reg.hvRetractDone.elem 0, 1), (Reg.hvRetractDone.elem 1, 1)] with flt := { safe := .recorded } }, by decide +kernel⟩,
    ⟨{ st [(Reg.sysOpmodeMode, 2)] with boot := .done }, by decide +kernel⟩,
    ⟨{}, 0x80000000#32, by decide +kernel⟩,
    ⟨st [(Reg.updSetStatusMirrorPend, 1)], by decide +kernel⟩,
    ⟨{ st [] with rings := List.replicate 6 {} ++ [{ inProg := [⟨0, [0x10, 4], false⟩] }] }, ⟨0, [0x10, 4], false⟩, by decide +kernel⟩⟩

theorem witness_CompleteUandonak :
    (∃ (s : State) (op reg : Byte) (data : List Byte), s.rd Reg.sysOpmodeMode = 1 ∧ data.length = 4 ∧ (op = 1 ∨ op = 2)) ∧
    (∃ (s : State) (f : Frame), frameActed s f 6 0x56 = true ∧ s.rd Reg.sysOpmodeMode = 1 ∧ isBcast f = false ∧ f.src % 256 = 0 ∧ (bodyNat f.payload 0 1 = 1 ∨ bodyNat f.payload 0 1 = 2)) ∧
    (∃ (s : State), uanPending s 0x01 = true ∧ uanMayOpen s (uanArg s 0) = true) ∧
    (∃ (s : State) (k : Nat), uanPending s 0x02 = true ∧ s.upd.uan.open_ = some k ∧ crc32c s.upd.uan.input = uanArg s 1 ∧ uanArg s 0 < 6144) ∧
    (∃ (s : State) (k : Nat), uanPending s 0x03 = true ∧ s.upd.uan.open_ = some k) ∧
    (∃ (s : State), uanPending s 0x04 = true ∧ uanArg s 0 < 2 ∧ slotState s (uanArg s 0) = slotValid) ∧
    (∃ (s : State) (key : List Byte), uanPending s 0x05 = true ∧ uanMayOpen s (uanArg s 0) = true ∧ key ≠ [] ∧ key.length ≤ 0x1800000) ∧
    (∃ (s : State), uanPending s 0x06 = true) ∧
    (∃ (s : State), uanPending s 0x07 = true) ∧
    (∃ (s : State), uanPending s 0x08 = true ∧ uanArg s 0 < 2) ∧
    (∃ (s : State), uanPending s 0x09 = true ∧ s.rd Reg.rstStatusPhase = 0 ∧ s.boot = .done ∧ s.rd Reg.pwrStatusLoss = 0) ∧
    (∃ (s : State) (ok : Bool) (error : Nat), s.rd Reg.sysOpmodeMode = 1 ∧ s.upd.uan.state = 1 ∧ s.upd.uan.result = some (ok, error)) :=
  ⟨⟨st [(Reg.sysOpmodeMode, 1)], 2, 8, [0, 0, 0, 0], by decide +kernel⟩,
    ⟨{ st [(Reg.domStatusState, 2), (Reg.domStatusPosition, 1), (Reg.sysOpmodeMode, 1)] with boot := .done }, { fr [2, 8] with dst := 1 }, by decide +kernel⟩,
    ⟨{ st [(Reg.sysOpmodeMode, 1)] with upd := { uan := { cmd := 1, state := 1 } } }, by decide +kernel⟩,
    ⟨{ st [(Reg.sysOpmodeMode, 1)] with upd := { uan := { cmd := 2, state := 1, open_ := some 0, input := [1], args := [0, crc32c [1], 0, 0] } } }, 0, by decide +kernel⟩,
    ⟨{ st [(Reg.sysOpmodeMode, 1)] with upd := { uan := { cmd := 3, state := 1, open_ := some 0 } } }, 0, by decide +kernel⟩,
    ⟨{ st [(Reg.sysOpmodeMode, 1), (Reg.updSlotState, 2)] with upd := { uan := { cmd := 4, state := 1 } } }, by decide +kernel⟩,
    ⟨{ st [(Reg.sysOpmodeMode, 1)] with upd := { uan := { cmd := 5, state := 1 } } }, [1], by decide +kernel⟩,
    ⟨{ st [(Reg.sysOpmodeMode, 1)] with upd := { uan := { cmd := 6, state := 1 } } }, by decide +kernel⟩,
    ⟨{ st [(Reg.sysOpmodeMode, 1)] with upd := { uan := { cmd := 7, state := 1 } } }, by decide +kernel⟩,
    ⟨{ st [(Reg.sysOpmodeMode, 1)] with upd := { uan := { cmd := 8, state := 1 } } }, by decide +kernel⟩,
    ⟨{ st [(Reg.sysOpmodeMode, 1)] with boot := .done, upd := { uan := { cmd := 9, state := 1 } } }, by decide +kernel⟩,
    ⟨{ st [(Reg.sysOpmodeMode, 1)] with upd := { uan := { cmd := 9, state := 1, result := some (true, 0) } } }, true, 0, by decide +kernel⟩⟩

theorem witness_CompleteRecorder :
    (∃ (s : State) (source severity code : Nat) (payload : List Byte) (warden : Bool), s.boot ≠ .por ∧ s.pwr.step ≠ .down ∧ recHasRoom s warden = true) ∧
    (∃ (s : State) (source severity code : Nat) (payload : List Byte) (warden : Bool), s.boot ≠ .por ∧ s.pwr.step ≠ .down ∧ recHasRoom s warden = false) ∧
    (∃ (s : State) (m : Nat) (data : Word), data.getLsbD 31 = true) ∧
    (∃ (s : State) (p : RecPost) (rest : List RecPost), s.boot ≠ .por ∧ s.pwr.step ≠ .down ∧ s.recorder.queue = p :: rest) ∧
    (∃ (s : State) (k : Nat), k < 8 ∧ s.rd (Reg.pmuEvselEn.elem k) = 1) ∧
    (∃ (s : State) (priv : Priv) (data : Word) (k : Nat), priv ≠ .u ∧ data.getLsbD 1 = true ∧ k < 8) ∧
    (∃ (s : State) (m k : Nat) (priv : Priv) (data w : Word), priv ≠ .u ∧ k < 8 ∧ stagedHalf s m (Reg.pmuCntLoCount.elem k).addr = some w) :=
  ⟨⟨{ st [] with boot := .done }, 1, 1, 1, [], false, by decide +kernel⟩,
    ⟨{ st [] with boot := .done, recorder := { queue := List.replicate 60 ⟨1, 1, 1, [], false⟩ } }, 1, 1, 1, [], false, by decide +kernel⟩,
    ⟨{}, 0, 0x80000000#32, by decide +kernel⟩,
    ⟨{ st [] with boot := .done, recorder := { queue := [⟨1, 1, 1, [], false⟩] } }, ⟨1, 1, 1, [], false⟩, [], by decide +kernel⟩,
    ⟨st [(Reg.pmuEvselEn, 1)], 0, by decide +kernel⟩,
    ⟨{}, .m, 2#32, 0, by decide +kernel⟩,
    ⟨stageHalf (st []) 0 Reg.pmuCntLoCount.addr (some 5), 0, 0, .m, 0, 5, by decide +kernel⟩⟩

/-- StepRunsFront: a state with a command waiting. -/
theorem witness_StepRunsFront : ∃ (s : State) (c : Instr) (rest : List Instr), s.pending = c :: rest :=
  ⟨{ pending := [.recordWrite] }, .recordWrite, [], rfl⟩

/-- IdleStepCounts: the queue is empty after reset. -/
theorem witness_IdleStepCounts : ∃ s : State, s.pending = [] := ⟨State.reset, rfl⟩

/-- ResetHoldsResetColumn: a row that gives a number. -/
theorem witness_ResetHoldsResetColumn :
    ∃ rows ∈ regRows, ∃ r ∈ rows, ∃ v, r.reset = .val v ∧ ∃ k, k < r.count :=
  ⟨sysRows, by decide +kernel, ⟨Reg.sysOpmodeMode, 1, .ro, .val 0x0, .d, .none⟩, by decide +kernel, 0, rfl, 0, by decide⟩

/-- StepKeepsCanonical, StepTakesOnlyFront: a canonical state and the state after a step of RECORD_WRITE with nothing to write. -/
theorem witness_StepKeepsCanonical : ∃ s t : State, Canonical s ∧ step s = .next t :=
  ⟨{ pending := [.recordWrite] }, {}, ⟨rfl, rfl⟩, rfl⟩

/-- EveryCommandKeepsFrame, CommandsThatStoreNothing: LISTEN_TIMEOUT stores nothing. -/
theorem witness_CommandsThatStoreNothing :
    ∃ (i : Instr) (s t : State), Part.mem ∉ (commandFrame i).parts ∧ exec i s = .next t :=
  ⟨.domRxPop 0, {}, _, by decide +kernel, rfl⟩

/-- StoreReachesItsBytesOnly: the last byte of SRAM, of the MRAM firmware region, and of free DRAM. -/
theorem witness_StoreReachesItsBytesOnly :
    (∃ s : State, accessRange s 0x08FFFFFF 1 = some 1) ∧
    (∃ s : State, accessRange s 0x10FFFFFF 1 = some 3 ∧ indexTouched s 0x10FFFFFF 1 = false) ∧
    (∃ s : State, accessRange s 0x83FFFFFFF 1 = some 6 ∧ s.inFreeDram 0x83FFFFFFF 1 = true) :=
  ⟨⟨{}, by decide +kernel⟩, ⟨{}, by decide +kernel⟩, ⟨{}, by decide +kernel⟩⟩

/-- RefusedStoreChangesNothing: one byte past SRAM, the first byte of the recorder, and half a register. -/
theorem witness_RefusedStoreChangesNothing :
    (∃ s : State, accessRange s 0x09000000 1 = none) ∧ (∃ s : State, accessRange s 0x10000000 4 = some 2) ∧
    (∃ s : State, accessRange s 0x20000010 2 = some 4) :=
  ⟨⟨{}, by decide +kernel⟩, ⟨{}, by decide +kernel⟩, ⟨{}, by decide +kernel⟩⟩

/-- FaultDeclaration: a write of each kind. -/
theorem witness_FaultDeclaration :
    (∃ p : Priv, p ≠ .m) ∧
    (∃ data : Word, fieldOf data 30 2 = 1 ∧ data.getLsbD 7 = false) ∧
    (∃ (s : State) (data : Word), fieldOf data 30 2 = 3 ∧ data.getLsbD 7 = false ∧ mayEnterSafe s = true) ∧
    (∃ (s : State) (data : Word), data.getLsbD 7 = true ∧ fieldOf data 4 3 < 4 ∧ (survivors s (fieldOf data 4 3)).isEmpty = false) ∧
    (∃ (s : State) (data : Word), data.getLsbD 7 = true ∧ (survivors s (fieldOf data 4 3)).isEmpty = true) :=
  ⟨⟨.u, by decide⟩, ⟨0x40000000, by decide +kernel⟩, ⟨st [(Reg.sysOpmodeMode, 2)], 0xC0000000, by decide +kernel⟩,
    ⟨hS, 0x80, by decide +kernel⟩, ⟨{}, 0x80, by decide +kernel⟩⟩

/-- RecordLayout: a post that waits, with the last sequence before SEQ wraps. -/
theorem witness_RecordLayout :
    ∃ (s : State) (p : RecPost) (rest : List RecPost) (seq slot : Nat), s.boot ≠ .por ∧ s.pwr.step ≠ .down ∧
      s.recorder.queue = p :: rest ∧ seq = s.rd Reg.recHeadSeqSeq ∧ slot = 0x10000000 + 64 * (seq % 65536) :=
  ⟨{ st [(Reg.recHeadSeqSeq, 0xFFFFFFFF)] with boot := .done, recorder := { queue := [⟨1, 1, 1, [], false⟩] } },
    ⟨1, 1, 1, [], false⟩, [], 0xFFFFFFFF, 0x103FFFC0, by decide +kernel⟩

/-- RingSizes: a pair that is refused for its size, and one that nothing refuses. -/
theorem witness_RingSizes :
    (∃ (s : State) (n : Nat), n < 7 ∧ n < s.rings.length ∧ s.rd (Reg.rngCtlEnable.elem n) = 0 ∧
      ringSizeTaken (s.rd (Reg.rngReqSizeEntries.elem n)) = 0) ∧
    (∃ (s : State) (n : Nat), n < 7 ∧ n < s.rings.length ∧ s.rd (Reg.rngCtlEnable.elem n) = 0 ∧ ringRefusal s n = none) :=
  ⟨⟨{}, 6, by decide +kernel⟩,
    ⟨st [(Reg.rngReqSizeEntries.elem 6, 16), (Reg.rngResSizeEntries.elem 6, 16), (Reg.rngReqBaseLoAddr.elem 6, 0x8000000 / 64),
      (Reg.rngResBaseLoAddr.elem 6, 0x8100000 / 64)], 6, by decide +kernel⟩⟩

end Sys2Proof.Tests
end

section
/-!
SUPPORT. Proofs of the statements on the step, the state after reset, stores of a bus master, and the recorder (spec/00_scope.md,
spec/19_recorder_counters.md). Two facts about `exec` carry the statements on the step: every command keeps its frame, and every
command answers with a next state.
-/

namespace Sys2Proof.Machine

/-! ## Every command keeps its frame -/

/-- The footprint of each command (Laws/Foot*.lean), taken at the frame that `commandFrame` gives it. -/
theorem exec_keeps (i : Instr) (s : State) : KeepsOut (commandFrame i) s (exec i s) := by
  cases i with
  | registerWrite => exact execRegisterWrite_keeps (.refl _) (.refl _ s)
  | modeWrite => exact execModeWrite_keeps (.refl _) (.refl _ s)
  | levelChangeApply => exact execLevelChangeApply_keeps (.refl _) (.refl _ s)
  | controlStoreWrite => exact execControlStoreWrite_keeps (.refl _) (.refl _ s)
  | por => exact execPor_keeps (.refl _) (.refl _ s)
  | porRelease => exact execPorRelease_keeps (.refl _) (.refl _ s)
  | b1FillDone => exact execB1FillDone_keeps (.refl _) (.refl _ s)
  | setAuthDone => exact execSetAuthDone_keeps (.refl _) (.refl _ s)
  | imageStreamDone => exact execImageStreamDone_keeps (.refl _) (.refl _ s)
  | imageAuthDone => exact execImageAuthDone_keeps (.refl _) (.refl _ s)
  | imageCheckDone => exact execImageCheckDone_keeps (.refl _) (.refl _ s)
  | imageApplyDone => exact execImageApplyDone_keeps (.refl _) (.refl _ s)
  | b4Done => exact execB4Done_keeps (.refl _) (.refl _ s)
  | svcModeAssert => exact execSvcModeAssert_keeps (.refl _) (.refl _ s)
  | svcModeHoldExpiry => exact execSvcModeHoldExpiry_keeps (.refl _) (.refl _ s)
  | safeParkDone => exact execSafeParkDone_keeps (.refl _) (.refl _ s)
  | standbyUnitGate => exact execStandbyUnitGate_keeps (.refl _) (.refl _ s)
  | standbyWakeRestore => exact execStandbyWakeRestore_keeps (.refl _) (.refl _ s)
  | apstIdleExpiry => exact execApstIdleExpiry_keeps (.refl _) (.refl _ s)
  | simRetireAddWrite => exact execSimRetireAddWrite_keeps (.refl _) (.refl _ s)
  | spindleAbove300 => exact execSpindleAbove300_keeps (.refl _) (.refl _ s)
  | spindleBelow300 => exact execSpindleBelow300_keeps (.refl _) (.refl _ s)
  | goodWedgeMark => exact execGoodWedgeMark_keeps (.refl _) (.refl _ s)
  | missingWedgeMark => exact execMissingWedgeMark_keeps (.refl _) (.refl _ s)
  | coastWedgesExpiry => exact execCoastWedgesExpiry_keeps (.refl _) (.refl _ s)
  | revStore => exact execRevStore_keeps (.refl _) (.refl _ s)
  | xchkDetect => exact execXchkDetect_keeps (.refl _) (.refl _ s)
  | ceilingChange => exact execCeilingChange_keeps (.refl _) (.refl _ s)
  | rungTargetWrite => exact execRungTargetWrite_keeps (.refl _) (.refl _ s)
  | rungHeld => exact execRungHeld_keeps (.refl _) (.refl _ s)
  | schedRungSwitch => exact execSchedRungSwitch_keeps (.refl _) (.refl _ s)
  | rungRampEnd => exact execRungRampEnd_keeps (.refl _) (.refl _ s)
  | rungSettled => exact execRungSettled_keeps (.refl _) (.refl _ s)
  | rungRetuneDone => exact execRungRetuneDone_keeps (.refl _) (.refl _ s)
  | rungSettleTimeout => exact execRungSettleTimeout_keeps (.refl _) (.refl _ s)
  | returnSettleTimeout => exact execReturnSettleTimeout_keeps (.refl _) (.refl _ s)
  | angCmdHold => exact execAngCmdHold_keeps (.refl _) (.refl _ s)
  | angCmdRamp => exact execAngCmdRamp_keeps (.refl _) (.refl _ s)
  | angCmdRetune => exact execAngCmdRetune_keeps (.refl _) (.refl _ s)
  | angCmdRelease => exact execAngCmdRelease_keeps (.refl _) (.refl _ s)
  | angCmdAbort => exact execAngCmdAbort_keeps (.refl _) (.refl _ s)
  | opsecStore => exact execOpsecStore_keeps (.refl _) (.refl _ s)
  | snapshotTake => exact execSnapshotTake_keeps (.refl _) (.refl _ s)
  | alarmArm => exact execAlarmArm_keeps (.refl _) (.refl _ s)
  | alarmFire => exact execAlarmFire_keeps (.refl _) (.refl _ s)
  | plankFetch => exact execPlankFetch_keeps (.refl _) (.refl _ s)
  | plankSeek => exact execPlankSeek_keeps (.refl _) (.refl _ s)
  | plankSettle => exact execPlankSettle_keeps (.refl _) (.refl _ s)
  | plankRead => exact execPlankRead_keeps (.refl _) (.refl _ s)
  | plankWrite => exact execPlankWrite_keeps (.refl _) (.refl _ s)
  | plankPreheat => exact execPlankPreheat_keeps (.refl _) (.refl _ s)
  | plankProbe => exact execPlankProbe_keeps (.refl _) (.refl _ s)
  | plankCal => exact execPlankCal_keeps (.refl _) (.refl _ s)
  | plankMark => exact execPlankMark_keeps (.refl _) (.refl _ s)
  | markerPlank => exact execMarkerPlank_keeps (.refl _) (.refl _ s)
  | microwordExecute => exact execMicrowordExecute_keeps (.refl _) (.refl _ s)
  | parityReloadDone => exact execParityReloadDone_keeps (.refl _) (.refl _ s)
  | nolockTimeout => exact execNolockTimeout_keeps (.refl _) (.refl _ s)
  | writeGateFall => exact execWriteGateFall_keeps (.refl _) (.refl _ s)
  | bwkAbort => exact execBwkAbort_keeps (.refl _) (.refl _ s)
  | bwkResume => exact execBwkResume_keeps (.refl _) (.refl _ s)
  | servoSample => exact execServoSample_keeps (.refl _) (.refl _ s)
  | lawOverrun => exact execLawOverrun_keeps (.refl _) (.refl _ s)
  | coastExhausted => exact execCoastExhausted_keeps (.refl _) (.refl _ s)
  | feLimitFault => exact execFeLimitFault_keeps (.refl _) (.refl _ s)
  | settleRunMet => exact execSettleRunMet_keeps (.refl _) (.refl _ s)
  | settlePlankRun => exact execSettlePlankRun_keeps (.refl _) (.refl _ s)
  | settleTimeout => exact execSettleTimeout_keeps (.refl _) (.refl _ s)
  | reacquired => exact execReacquired_keeps (.refl _) (.refl _ s)
  | reacqTimeout => exact execReacqTimeout_keeps (.refl _) (.refl _ s)
  | seekArrival => exact execSeekArrival_keeps (.refl _) (.refl _ s)
  | seekTimeout => exact execSeekTimeout_keeps (.refl _) (.refl _ s)
  | seekVerrFault => exact execSeekVerrFault_keeps (.refl _) (.refl _ s)
  | srvCmdLoad => exact execSrvCmdLoad_keeps (.refl _) (.refl _ s)
  | srvCmdUnload => exact execSrvCmdUnload_keeps (.refl _) (.refl _ s)
  | srvCmdRetract => exact execSrvCmdRetract_keeps (.refl _) (.refl _ s)
  | unloadRampReached => exact execUnloadRampReached_keeps (.refl _) (.refl _ s)
  | retractDone => exact execRetractDone_keeps (.refl _) (.refl _ s)
  | setupReplay => exact execSetupReplay_keeps (.refl _) (.refl _ s)
  | tapDataAccess => exact execTapDataAccess_keeps (.refl _) (.refl _ s)
  | spnCmdStart => exact execSpnCmdStart_keeps (.refl _) (.refl _ s)
  | spnCmdStop => exact execSpnCmdStop_keeps (.refl _) (.refl _ s)
  | spnCmdClear => exact execSpnCmdClear_keeps (.refl _) (.refl _ s)
  | alignTimeExpiry => exact execAlignTimeExpiry_keeps (.refl _) (.refl _ s)
  | handoverReached => exact execHandoverReached_keeps (.refl _) (.refl _ s)
  | spinupTimeout => exact execSpinupTimeout_keeps (.refl _) (.refl _ s)
  | zeroCrossing => exact execZeroCrossing_keeps (.refl _) (.refl _ s)
  | zcWindowMiss => exact execZcWindowMiss_keeps (.refl _) (.refl _ s)
  | zcLost => exact execZcLost_keeps (.refl _) (.refl _ s)
  | offspeedSet => exact execOffspeedSet_keeps (.refl _) (.refl _ s)
  | speedBelowFlyMin => exact execSpeedBelowFlyMin_keeps (.refl _) (.refl _ s)
  | spindleBrakeDone => exact execSpindleBrakeDone_keeps (.refl _) (.refl _ s)
  | retractStart => exact execRetractStart_keeps (.refl _) (.refl _ s)
  | retractPhaseEnd => exact execRetractPhaseEnd_keeps (.refl _) (.refl _ s)
  | retractPhaseTimeout => exact execRetractPhaseTimeout_keeps (.refl _) (.refl _ s)
  | astSample => exact execAstSample_keeps (.refl _) (.refl _ s)
  | proxyLoss n full => exact execProxyLoss_keeps (full := full) (.refl _) (.refl _ s)
  | astStagedApply => exact execAstStagedApply_keeps (.refl _) (.refl _ s)
  | astTblDataAccess => exact execAstTblDataAccess_keeps (.refl _) (.refl _ s)
  | astSetDataAccess => exact execAstSetDataAccess_keeps (.refl _) (.refl _ s)
  | preampFault pa full => exact execPreampFault_keeps (full := full) (.refl _) (.refl _ s)
  | preampFaultClear => exact execPreampFaultClear_keeps (.refl _) (.refl _ s)
  | preXferGo => exact execPreXferGo_keeps (.refl _) (.refl _ s)
  | preTransactionDone => exact execPreTransactionDone_keeps (.refl _) (.refl _ s)
  | preReadTimeout => exact execPreReadTimeout_keeps (.refl _) (.refl _ s)
  | preSetupDataAccess => exact execPreSetupDataAccess_keeps (.refl _) (.refl _ s)
  | readSector => exact execReadSector_keeps (.refl _) (.refl _ s)
  | writeSector => exact execWriteSector_keeps (.refl _) (.refl _ s)
  | fastDecodeDone => exact execFastDecodeDone_keeps (.refl _) (.refl _ s)
  | decodeDeadlineCut => exact execDecodeDeadlineCut_keeps (.refl _) (.refl _ s)
  | readResultWrite => exact execReadResultWrite_keeps (.refl _) (.refl _ s)
  | deep => exact execDeep_keeps (.refl _) (.refl _ s)
  | deepJobDone => exact execDeepJobDone_keeps (.refl _) (.refl _ s)
  | encode => exact execEncode_keeps (.refl _) (.refl _ s)
  | rebuild => exact execRebuild_keeps (.refl _) (.refl _ s)
  | oceJobDone => exact execOceJobDone_keeps (.refl _) (.refl _ s)
  | oceAccClrWrite => exact execOceAccClrWrite_keeps (.refl _) (.refl _ s)
  | oceAccClrApply => exact execOceAccClrApply_keeps (.refl _) (.refl _ s)
  | channelGrant => exact execChannelGrant_keeps (.refl _) (.refl _ s)
  | rdcStagedApply => exact execRdcStagedApply_keeps (.refl _) (.refl _ s)
  | rdcProfDataAccess => exact execRdcProfDataAccess_keeps (.refl _) (.refl _ s)
  | rdcEqDataAccess => exact execRdcEqDataAccess_keeps (.refl _) (.refl _ s)
  | channelLockLoss => exact execChannelLockLoss_keeps (.refl _) (.refl _ s)
  | channelRelock => exact execChannelRelock_keeps (.refl _) (.refl _ s)
  | channelRelockTimeout => exact execChannelRelockTimeout_keeps (.refl _) (.refl _ s)
  | route => exact execRoute_keeps (.refl _) (.refl _ s)
  | fold => exact execFold_keeps (.refl _) (.refl _ s)
  | release => exact execRelease_keeps (.refl _) (.refl _ s)
  | twinWaitExpiry => exact execTwinWaitExpiry_keeps (.refl _) (.refl _ s)
  | foldIdleStart => exact execFoldIdleStart_keeps (.refl _) (.refl _ s)
  | journalReplay => exact execJournalReplay_keeps (.refl _) (.refl _ s)
  | pcieLaneFail => exact execPcieLaneFail_keeps (.refl _) (.refl _ s)
  | sqTailDoorbell => exact execSqTailDoorbell_keeps (.refl _) (.refl _ s)
  | cqHeadDoorbell => exact execCqHeadDoorbell_keeps (.refl _) (.refl _ s)
  | commandFetch => exact execCommandFetch_keeps (.refl _) (.refl _ s)
  | commandBegin => exact execCommandBegin_keeps (.refl _) (.refl _ s)
  | completionPost => exact execCompletionPost_keeps (.refl _) (.refl _ s)
  | frontendRestart => exact execFrontendRestart_keeps (.refl _) (.refl _ s)
  | createIoSq => exact execCreateIoSq_keeps (.refl _) (.refl _ s)
  | createIoCq => exact execCreateIoCq_keeps (.refl _) (.refl _ s)
  | deleteIoSq => exact execDeleteIoSq_keeps (.refl _) (.refl _ s)
  | deleteIoCq => exact execDeleteIoCq_keeps (.refl _) (.refl _ s)
  | getLogPage => exact execGetLogPage_keeps (.refl _) (.refl _ s)
  | identify => exact execIdentify_keeps (.refl _) (.refl _ s)
  | abort => exact execAbort_keeps (.refl _) (.refl _ s)
  | setFeatures => exact execSetFeatures_keeps (.refl _) (.refl _ s)
  | setFeaturesPowerMgmt => exact execSetFeaturesPowerMgmt_keeps (.refl _) (.refl _ s)
  | setFeaturesApst => exact execSetFeaturesApst_keeps (.refl _) (.refl _ s)
  | setFeaturesHctm => exact execSetFeaturesHctm_keeps (.refl _) (.refl _ s)
  | setFeaturesTwin => exact execSetFeaturesTwin_keeps (.refl _) (.refl _ s)
  | setFeaturesIdleCadence => exact execSetFeaturesIdleCadence_keeps (.refl _) (.refl _ s)
  | setFeaturesNsMask => exact execSetFeaturesNsMask_keeps (.refl _) (.refl _ s)
  | getFeatures => exact execGetFeatures_keeps (.refl _) (.refl _ s)
  | asynchronousEventRequest => exact execAsynchronousEventRequest_keeps (.refl _) (.refl _ s)
  | firmwareImageDownload => exact execFirmwareImageDownload_keeps (.refl _) (.refl _ s)
  | firmwareCommitCa0 => exact execFirmwareCommitCa0_keeps (.refl _) (.refl _ s)
  | firmwareCommitCa1 => exact execFirmwareCommitCa1_keeps (.refl _) (.refl _ s)
  | firmwareCommitCa2 => exact execFirmwareCommitCa2_keeps (.refl _) (.refl _ s)
  | formatNvm => exact execFormatNvm_keeps (.refl _) (.refl _ s)
  | sanitize => exact execSanitize_keeps (.refl _) (.refl _ s)
  | flush => exact execFlush_keeps (.refl _) (.refl _ s)
  | write => exact execWrite_keeps (.refl _) (.refl _ s)
  | read => exact execRead_keeps (.refl _) (.refl _ s)
  | writeZeroes => exact execWriteZeroes_keeps (.refl _) (.refl _ s)
  | zoneAppend => exact execZoneAppend_keeps (.refl _) (.refl _ s)
  | zoneClose => exact execZoneClose_keeps (.refl _) (.refl _ s)
  | zoneFinish => exact execZoneFinish_keeps (.refl _) (.refl _ s)
  | zoneOpen => exact execZoneOpen_keeps (.refl _) (.refl _ s)
  | zoneReset => exact execZoneReset_keeps (.refl _) (.refl _ s)
  | zoneOffline => exact execZoneOffline_keeps (.refl _) (.refl _ s)
  | setZoneDescExt => exact execSetZoneDescExt_keeps (.refl _) (.refl _ s)
  | reportZones => exact execReportZones_keeps (.refl _) (.refl _ s)
  | extendedReportZones => exact execExtendedReportZones_keeps (.refl _) (.refl _ s)
  | adminInboxConsume => exact execAdminInboxConsume_keeps (.refl _) (.refl _ s)
  | adminCompletionGo => exact execAdminCompletionGo_keeps (.refl _) (.refl _ s)
  | idleCadenceStep => exact execIdleCadenceStep_keeps (.refl _) (.refl _ s)
  | miReadDataStructure => exact execMiReadDataStructure_keeps (.refl _) (.refl _ s)
  | miSubsystemHealthPoll clear => exact execMiSubsystemHealthPoll_keeps (_clear := clear) (.refl _) (.refl _ s)
  | miControllerHealthPoll => exact execMiControllerHealthPoll_keeps (.refl _) (.refl _ s)
  | miConfigGet => exact execMiConfigGet_keeps (.refl _) (.refl _ s)
  | miConfigSet => exact execMiConfigSet_keeps (.refl _) (.refl _ s)
  | miTunneledAdmin => exact execMiTunneledAdmin_keeps (.refl _) (.refl _ s)
  | miBasicMgmtCommand => exact execMiBasicMgmtCommand_keeps (.refl _) (.refl _ s)
  | ringReqProdWrite => exact execRingReqProdWrite_keeps (.refl _) (.refl _ s)
  | ringResConsWrite => exact execRingResConsWrite_keeps (.refl _) (.refl _ s)
  | ringEnable => exact execRingEnable_keeps (.refl _) (.refl _ s)
  | ringDisable => exact execRingDisable_keeps (.refl _) (.refl _ s)
  | ringDrainDone => exact execRingDrainDone_keeps (.refl _) (.refl _ s)
  | ringEntryAdmit => exact execRingEntryAdmit_keeps (.refl _) (.refl _ s)
  | heldResultWrite => exact execHeldResultWrite_keeps (.refl _) (.refl _ s)
  | encrypt => exact execEncrypt_keeps (.refl _) (.refl _ s)
  | decrypt => exact execDecrypt_keeps (.refl _) (.refl _ s)
  | hash => exact execHash_keeps (.refl _) (.refl _ s)
  | keyLoad => exact execKeyLoad_keeps (.refl _) (.refl _ s)
  | keyClear => exact execKeyClear_keeps (.refl _) (.refl _ s)
  | keyOpApply => exact execKeyOpApply_keeps (.refl _) (.refl _ s)
  | cryEntryDone => exact execCryEntryDone_keeps (.refl _) (.refl _ s)
  | nop => exact execNop_keeps (.refl _) (.refl _ s)
  | keycmd => exact execKeycmd_keeps (.refl _) (.refl _ s)
  | lookup => exact execLookup_keeps (.refl _) (.refl _ s)
  | alloc => exact execAlloc_keeps (.refl _) (.refl _ s)
  | fillOk => exact execFillOk_keeps (.refl _) (.refl _ s)
  | fillFail => exact execFillFail_keeps (.refl _) (.refl _ s)
  | clean => exact execClean_keeps (.refl _) (.refl _ s)
  | invalidate => exact execInvalidate_keeps (.refl _) (.refl _ s)
  | pin => exact execPin_keeps (.refl _) (.refl _ s)
  | unpin => exact execUnpin_keeps (.refl _) (.refl _ s)
  | bcmReqPop => exact execBcmReqPop_keeps (.refl _) (.refl _ s)
  | bcmWaysWrite => exact execBcmWaysWrite_keeps (.refl _) (.refl _ s)
  | wayGated => exact execWayGated_keeps (.refl _) (.refl _ s)
  | bcmEnWrite => exact execBcmEnWrite_keeps (.refl _) (.refl _ s)
  | bcmDrainDone => exact execBcmDrainDone_keeps (.refl _) (.refl _ s)
  | memCorrectedRead => exact execMemCorrectedRead_keeps (.refl _) (.refl _ s)
  | memUncorrectableRead => exact execMemUncorrectableRead_keeps (.refl _) (.refl _ s)
  | trackerWriteback => exact execTrackerWriteback_keeps (.refl _) (.refl _ s)
  | scrubStep => exact execScrubStep_keeps (.refl _) (.refl _ s)
  | memInjectArm => exact execMemInjectArm_keeps (.refl _) (.refl _ s)
  | hartWatchdogExpiry => exact execHartWatchdogExpiry_keeps (.refl _) (.refl _ s)
  | coreFault => exact execCoreFault_keeps (.refl _) (.refl _ s)
  | coreRejoin => exact execCoreRejoin_keeps (.refl _) (.refl _ s)
  | fltCoreOnline => exact execFltCoreOnline_keeps (.refl _) (.refl _ s)
  | fltWdogKick => exact execFltWdogKick_keeps (.refl _) (.refl _ s)
  | fltDeclareContained => exact execFltDeclareContained_keeps (.refl _) (.refl _ s)
  | fltDeclareDeviceFatal => exact execFltDeclareDeviceFatal_keeps (.refl _) (.refl _ s)
  | fltDeclareHart m => exact execFltDeclareHart_keeps (m := m) (.refl _) (.refl _ s)
  | wardenWatchdogExpiry => exact execWardenWatchdogExpiry_keeps (.refl _) (.refl _ s)
  | lockstepMismatch => exact execLockstepMismatch_keeps (.refl _) (.refl _ s)
  | wardenRestartDone => exact execWardenRestartDone_keeps (.refl _) (.refl _ s)
  | run => exact execRun_keeps (.refl _) (.refl _ s)
  | save => exact execSave_keeps (.refl _) (.refl _ s)
  | factory => exact execFactory_keeps (.refl _) (.refl _ s)
  | calInternalRunEnd => exact execCalInternalRunEnd_keeps (.refl _) (.refl _ s)
  | calWindowClose => exact execCalWindowClose_keeps (.refl _) (.refl _ s)
  | calOverlayWrite => exact execCalOverlayWrite_keeps (.refl _) (.refl _ s)
  | calOverlayApply => exact execCalOverlayApply_keeps (.refl _) (.refl _ s)
  | ageEvalTimer => exact execAgeEvalTimer_keeps (.refl _) (.refl _ s)
  | eval => exact execEval_keeps (.refl _) (.refl _ s)
  | apply => exact execApply_keeps (.refl _) (.refl _ s)
  | discard => exact execDiscard_keeps (.refl _) (.refl _ s)
  | powerLossDetect => exact execPowerLossDetect_keeps (.refl _) (.refl _ s)
  | lossSectorBoundary => exact execLossSectorBoundary_keeps (.refl _) (.refl _ s)
  | lossCoreHold => exact execLossCoreHold_keeps (.refl _) (.refl _ s)
  | lastGaspRecord => exact execLastGaspRecord_keeps (.refl _) (.refl _ s)
  | vholdBelowVmin => exact execVholdBelowVmin_keeps (.refl _) (.refl _ s)
  | supplyReturn => exact execSupplyReturn_keeps (.refl _) (.refl _ s)
  | holdupTestDone => exact execHoldupTestDone_keeps (.refl _) (.refl _ s)
  | holdupReadyTimeout => exact execHoldupReadyTimeout_keeps (.refl _) (.refl _ s)
  | vmArrival => exact execVmArrival_keeps (.refl _) (.refl _ s)
  | dykeLinkDown => exact execDykeLinkDown_keeps (.refl _) (.refl _ s)
  | dykeLinkRetrained => exact execDykeLinkRetrained_keeps (.refl _) (.refl _ s)
  | dykeSilenceRetract => exact execDykeSilenceRetract_keeps (.refl _) (.refl _ s)
  | heartbeatLoss => exact execHeartbeatLoss_keeps (.refl _) (.refl _ s)
  | hvFaultAssert => exact execHvFaultAssert_keeps (.refl _) (.refl _ s)
  | hvbAccess => exact execHvbAccess_keeps (.refl _) (.refl _ s)
  | hvbCtlRetract => exact execHvbCtlRetract_keeps (.refl _) (.refl _ s)
  | thmSample => exact execThmSample_keeps (.refl _) (.refl _ s)
  | riseClearExpiry => exact execRiseClearExpiry_keeps (.refl _) (.refl _ s)
  | sluiceGraceExpiry => exact execSluiceGraceExpiry_keeps (.refl _) (.refl _ s)
  | sluiceStepExpiry => exact execSluiceStepExpiry_keeps (.refl _) (.refl _ s)
  | sluiceReleaseExpiry => exact execSluiceReleaseExpiry_keeps (.refl _) (.refl _ s)
  | step => exact execStep_keeps (.refl _) (.refl _ s)
  | thmCmdRelease => exact execThmCmdRelease_keeps (.refl _) (.refl _ s)
  | thermalTrip => exact execThermalTrip_keeps (.refl _) (.refl _ s)
  | tripLogicHold => exact execTripLogicHold_keeps (.refl _) (.refl _ s)
  | thermalRestart => exact execThermalRestart_keeps (.refl _) (.refl _ s)
  | resetNLow => exact execResetNLow_keeps (.refl _) (.refl _ s)
  | rstDrstReqWrite => exact execRstDrstReqWrite_keeps (.refl _) (.refl _ s)
  | nvmSubsystemReset => exact execNvmSubsystemReset_keeps (.refl _) (.refl _ s)
  | drstWriteStop => exact execDrstWriteStop_keeps (.refl _) (.refl _ s)
  | drstHold => exact execDrstHold_keeps (.refl _) (.refl _ s)
  | drstRelease => exact execDrstRelease_keeps (.refl _) (.refl _ s)
  | perstNAssert => exact execPerstNAssert_keeps (.refl _) (.refl _ s)
  | perstNDeassert => exact execPerstNDeassert_keeps (.refl _) (.refl _ s)
  | hotReset => exact execHotReset_keeps (.refl _) (.refl _ s)
  | flr => exact execFlr_keeps (.refl _) (.refl _ s)
  | ccEnClear => exact execCcEnClear_keeps (.refl _) (.refl _ s)
  | ccEnSet => exact execCcEnSet_keeps (.refl _) (.refl _ s)
  | safe => exact execSafe_keeps (.refl _) (.refl _ s)
  | notice => exact execNotice_keeps (.refl _) (.refl _ s)
  | sync => exact execSync_keeps (.refl _) (.refl _ s)
  | enum => exact execEnum_keeps (.refl _) (.refl _ s)
  | tokenReq => exact execTokenReq_keeps (.refl _) (.refl _ s)
  | tokenGrant => exact execTokenGrant_keeps (.refl _) (.refl _ s)
  | tokenReturn => exact execTokenReturn_keeps (.refl _) (.refl _ s)
  | tokenQueued => exact execTokenQueued_keeps (.refl _) (.refl _ s)
  | activate => exact execActivate_keeps (.refl _) (.refl _ s)
  | reset => exact execReset_keeps (.refl _) (.refl _ s)
  | health => exact execHealth_keeps (.refl _) (.refl _ s)
  | pull => exact execPull_keeps (.refl _) (.refl _ s)
  | data => exact execData_keeps (.refl _) (.refl _ s)
  | blockEnd => exact execBlockEnd_keeps (.refl _) (.refl _ s)
  | ack => exact execAck_keeps (.refl _) (.refl _ s)
  | nak => exact execNak_keeps (.refl _) (.refl _ s)
  | task => exact execTask_keeps (.refl _) (.refl _ s)
  | user => exact execUser_keeps (.refl _) (.refl _ s)
  | wxLaneUp => exact execWxLaneUp_keeps (.refl _) (.refl _ s)
  | wxLaneDown => exact execWxLaneDown_keeps (.refl _) (.refl _ s)
  | listenTimeout => exact execListenTimeout_keeps (.refl _) (.refl _ s)
  | syncMissing => exact execSyncMissing_keeps (.refl _) (.refl _ s)
  | orphanTimeout => exact execOrphanTimeout_keeps (.refl _) (.refl _ s)
  | enumSend => exact execEnumSend_keeps (.refl _) (.refl _ s)
  | syncSend => exact execSyncSend_keeps (.refl _) (.refl _ s)
  | domTimeSetWrite => exact execDomTimeSetWrite_keeps (.refl _) (.refl _ s)
  | tokenReqRepeat => exact execTokenReqRepeat_keeps (.refl _) (.refl _ s)
  | tokenFallback => exact execTokenFallback_keeps (.refl _) (.refl _ s)
  | staggerExpiry => exact execStaggerExpiry_keeps (.refl _) (.refl _ s)
  | tokenReclaim => exact execTokenReclaim_keeps (.refl _) (.refl _ s)
  | healthSend => exact execHealthSend_keeps (.refl _) (.refl _ s)
  | bulkResendTimeout => exact execBulkResendTimeout_keeps (.refl _) (.refl _ s)
  | domSafeWrite => exact execDomSafeWrite_keeps (.refl _) (.refl _ s)
  | safeRepeat => exact execSafeRepeat_keeps (.refl _) (.refl _ s)
  | domTxGo => exact execDomTxGo_keeps (.refl _) (.refl _ s)
  | domRxPop => exact execDomRxPop_keeps (.refl _) (.refl _ s)
  | updStageAuthDone => exact execUpdStageAuthDone_keeps (.refl _) (.refl _ s)
  | lockIdleExpiry => exact execLockIdleExpiry_keeps (.refl _) (.refl _ s)
  | activateAtReached => exact execActivateAtReached_keeps (.refl _) (.refl _ s)
  | waveAtReached => exact execWaveAtReached_keeps (.refl _) (.refl _ s)
  | waveTimeout => exact execWaveTimeout_keeps (.refl _) (.refl _ s)
  | updConfirmWrite => exact execUpdConfirmWrite_keeps (.refl _) (.refl _ s)
  | trialWindowExpiry => exact execTrialWindowExpiry_keeps (.refl _) (.refl _ s)
  | updSetCmd => exact execUpdSetCmd_keeps (.refl _) (.refl _ s)
  | settingsMirrorDone => exact execSettingsMirrorDone_keeps (.refl _) (.refl _ s)
  | servicePortRequest => exact execServicePortRequest_keeps (.refl _) (.refl _ s)
  | uandonakOpen => exact execUandonakOpen_keeps (.refl _) (.refl _ s)
  | uandonakBlock => exact execUandonakBlock_keeps (.refl _) (.refl _ s)
  | uandonakClose => exact execUandonakClose_keeps (.refl _) (.refl _ s)
  | uandonakArm => exact execUandonakArm_keeps (.refl _) (.refl _ s)
  | uandonakSvckey => exact execUandonakSvckey_keeps (.refl _) (.refl _ s)
  | uandonakKeycmd => exact execUandonakKeycmd_keeps (.refl _) (.refl _ s)
  | uandonakRecread => exact execUandonakRecread_keeps (.refl _) (.refl _ s)
  | uandonakBaud => exact execUandonakBaud_keeps (.refl _) (.refl _ s)
  | uandonakReset => exact execUandonakReset_keeps (.refl _) (.refl _ s)
  | uandonakCmdDone => exact execUandonakCmdDone_keeps (.refl _) (.refl _ s)
  | recordPost => exact execRecordPost_keeps (.refl _) (.refl _ s)
  | recPostGo => exact execRecPostGo_keeps (.refl _) (.refl _ s)
  | recordWrite => exact execRecordWrite_keeps (.refl _) (.refl _ s)
  | counterWrap => exact execCounterWrap_keeps (.refl _) (.refl _ s)
  | clrAll => exact execClrAll_keeps (.refl _) (.refl _ s)
  | pmuCounterWrite => exact execPmuCounterWrite_keeps (.refl _) (.refl _ s)
  | fastDecoderCheckFail => exact execFastDecoderCheckFail_keeps (.refl _) (.refl _ s)
  | pcieLinkUp => exact execPcieLinkUp_keeps (.refl _) (.refl _ s)
  | aggregationTimeExpiry => exact execAggregationTimeExpiry_keeps (.refl _) (.refl _ s)
  | railOutOfRange => exact execRailOutOfRange_keeps (.refl _) (.refl _ s)
/-! ## Every command answers -/

/-- An outcome is a next state: no fault, no refusal. -/
def Answers (o : Host.Outcome State Fault Refusal) : Prop := ∃ t, o = .next t

section
variable {o : Host.Outcome State Fault Refusal}

theorem Answers.next {t : State} : Answers (.next t) := ⟨t, rfl⟩

theorem Answers.ite {c : Prop} [Decidable c] {p : Host.Outcome State Fault Refusal} (ho : Answers o) (hp : Answers p) :
    Answers (if c then o else p) := by split <;> assumption

theorem Answers.gated {s : State} {u : Nat} (ho : Answers o) : Answers (gatedAccess s u o) := .ite .next ho

theorem Answers.afterNext {f : State → State} (ho : Answers o) : Answers (afterNext o f) := by
  obtain ⟨t, rfl⟩ := ho
  exact .next

end

/-- By its own cases: the kernel must not come to compare the products with 1,000,000 that `split` would leave it. -/
theorem execWaveAtReached_answers (s : State) : Answers (execWaveAtReached s) := by
  fun_cases execWaveAtReached s <;> exact .next

/-- No branch of a meaning ends in a fault or a refusal. -/
theorem exec_answers (i : Instr) (s : State) : Answers (exec i s) := by
  cases i with
  -- a next state whatever the branch: the choices stand inside the state
  | registerWrite | controlStoreWrite | por | imageStreamDone | imageAuthDone | b4Done | safeParkDone | spindleAbove300
  | spindleBelow300 | coastWedgesExpiry | revStore | ceilingChange | rungTargetWrite | schedRungSwitch | rungSettleTimeout
  | returnSettleTimeout | opsecStore | snapshotTake | alarmArm | lawOverrun | coastExhausted | feLimitFault | reacqTimeout
  | seekTimeout | seekVerrFault | unloadRampReached | setupReplay | alignTimeExpiry | handoverReached | spinupTimeout
  | zeroCrossing | zcLost | speedBelowFlyMin | retractStart | retractPhaseEnd | astStagedApply | encode | rebuild
  | oceAccClrWrite | oceAccClrApply | channelRelock | channelRelockTimeout | fold | release | createIoSq | createIoCq
  | deleteIoSq | deleteIoCq | getLogPage | identify | setFeaturesPowerMgmt | setFeaturesApst | setFeaturesHctm
  | setFeaturesTwin | setFeaturesIdleCadence | setFeaturesNsMask | getFeatures | asynchronousEventRequest
  | firmwareImageDownload | firmwareCommitCa0 | firmwareCommitCa1 | firmwareCommitCa2 | formatNvm | sanitize | zoneClose
  | zoneOpen | zoneReset | zoneOffline | adminInboxConsume | miReadDataStructure | miSubsystemHealthPoll
  | miControllerHealthPoll | miConfigGet | miConfigSet | miTunneledAdmin | ringReqProdWrite | ringResConsWrite
  | heldResultWrite | encrypt | decrypt | hash | keyLoad | keyClear | lookup | alloc | fillOk | fillFail | clean | invalidate
  | pin | unpin | bcmReqPop | memCorrectedRead | memUncorrectableRead | hartWatchdogExpiry | coreFault | fltCoreOnline
  | wardenWatchdogExpiry | save | ageEvalTimer | eval | apply | discard | heartbeatLoss | hvFaultAssert | thmSample
  | thermalRestart | nvmSubsystemReset | safe | sync | enum | tokenReq | tokenGrant | tokenReturn | tokenQueued | activate
  | reset | health | pull | data | blockEnd | ack | nak | task | user | listenTimeout | orphanTimeout | tokenReqRepeat
  | tokenFallback | staggerExpiry | healthSend | waveTimeout | recordPost => exact .next
  -- a choice among outcomes
  | modeWrite | levelChangeApply | porRelease | b1FillDone | svcModeAssert | svcModeHoldExpiry | standbyUnitGate
  | standbyWakeRestore | apstIdleExpiry | simRetireAddWrite | goodWedgeMark | missingWedgeMark | xchkDetect | rungHeld
  | rungRampEnd | rungSettled | rungRetuneDone | angCmdHold | angCmdRamp | angCmdRetune | angCmdRelease | angCmdAbort
  | alarmFire | parityReloadDone | bwkAbort | bwkResume | servoSample | srvCmdLoad | srvCmdUnload | srvCmdRetract
  | spnCmdStart | spnCmdStop | spnCmdClear | zcWindowMiss | offspeedSet | retractPhaseTimeout | proxyLoss | preampFault
  | preampFaultClear | preXferGo | rdcStagedApply | foldIdleStart | journalReplay | pcieLaneFail | frontendRestart | abort
  | setFeatures | adminCompletionGo | idleCadenceStep | miBasicMgmtCommand | ringDisable | ringDrainDone | ringEntryAdmit
  | bcmWaysWrite | wayGated | bcmEnWrite | bcmDrainDone | scrubStep | memInjectArm | coreRejoin | fltWdogKick
  | fltDeclareContained | fltDeclareDeviceFatal | fltDeclareHart | lockstepMismatch | wardenRestartDone | run | factory
  | calOverlayWrite | calOverlayApply | powerLossDetect | lossSectorBoundary | lossCoreHold | lastGaspRecord | vholdBelowVmin
  | supplyReturn | holdupTestDone | holdupReadyTimeout | vmArrival | dykeLinkDown | dykeLinkRetrained | dykeSilenceRetract
  | hvbAccess | hvbCtlRetract | riseClearExpiry | sluiceGraceExpiry | sluiceStepExpiry | sluiceReleaseExpiry | step
  | thmCmdRelease | thermalTrip | tripLogicHold | resetNLow | rstDrstReqWrite | drstWriteStop | drstRelease | perstNAssert
  | perstNDeassert | hotReset | flr | ccEnClear | ccEnSet | notice | wxLaneUp | wxLaneDown | syncMissing | enumSend | syncSend
  | domTimeSetWrite | tokenReclaim | domSafeWrite | safeRepeat | domTxGo | domRxPop | lockIdleExpiry | activateAtReached
  | trialWindowExpiry | updSetCmd | settingsMirrorDone | servicePortRequest | uandonakOpen | uandonakArm | uandonakSvckey
  | uandonakRecread | uandonakBaud | uandonakReset | recPostGo | counterWrap | clrAll | pmuCounterWrite | fastDecoderCheckFail
  | pcieLinkUp | aggregationTimeExpiry | railOutOfRange =>
    repeat' first | exact .next | apply Answers.ite
  -- a choice by what an option, a pair or a list holds
  | setAuthDone | imageCheckDone | imageApplyDone | plankFetch | plankSeek | plankSettle | plankRead | plankWrite
  | plankPreheat | plankProbe | plankCal | plankMark | markerPlank | microwordExecute | nolockTimeout | writeGateFall
  | settleRunMet | settlePlankRun | settleTimeout | reacquired | seekArrival | retractDone | tapDataAccess | spindleBrakeDone
  | astSample | astTblDataAccess | astSetDataAccess | preTransactionDone | preReadTimeout | preSetupDataAccess | readSector
  | writeSector | fastDecodeDone | decodeDeadlineCut | readResultWrite | deep | deepJobDone | oceJobDone | channelGrant
  | rdcProfDataAccess | rdcEqDataAccess | channelLockLoss | route | twinWaitExpiry | sqTailDoorbell | cqHeadDoorbell
  | commandFetch | commandBegin | completionPost | flush | write | read | writeZeroes | zoneAppend | zoneFinish
  | setZoneDescExt | reportZones | extendedReportZones | ringEnable | keyOpApply | cryEntryDone | nop | keycmd
  | trackerWriteback | calInternalRunEnd | calWindowClose | drstHold | bulkResendTimeout | updStageAuthDone | updConfirmWrite
  | uandonakBlock | uandonakClose | uandonakKeycmd | uandonakCmdDone | recordWrite =>
    unfold exec
    dsimp only
    dsimp -zeta only [
      execSetAuthDone, execImageCheckDone, execImageApplyDone, execPlankFetch, execPlankSeek, execPlankSettle, execPlankRead,
      execPlankWrite, execPlankPreheat, execPlankProbe, execPlankCal, execPlankMark, execMarkerPlank, execMicrowordExecute,
      execNolockTimeout, execWriteGateFall, execSettleRunMet, execSettlePlankRun, execSettleTimeout, execReacquired,
      execSeekArrival, execRetractDone, execTapDataAccess, execSpindleBrakeDone, execAstSample, execAstTblDataAccess,
      execAstSetDataAccess, execPreTransactionDone, execPreReadTimeout, execPreSetupDataAccess, execReadSector,
      execWriteSector, execFastDecodeDone, execDecodeDeadlineCut, execReadResultWrite, execDeep, execDeepJobDone,
      execOceJobDone, execChannelGrant, execRdcProfDataAccess, execRdcEqDataAccess, execChannelLockLoss, execRoute,
      execTwinWaitExpiry, execSqTailDoorbell, execCqHeadDoorbell, execCommandFetch, execCommandBegin, execCompletionPost,
      execFlush, execWrite, execRead, execWriteZeroes, execZoneAppend, execZoneFinish, execSetZoneDescExt, execReportZones,
      execExtendedReportZones, execRingEnable, execKeyOpApply, execCryEntryDone, execNop, execKeycmd, execTrackerWriteback,
      execCalInternalRunEnd, execCalWindowClose, execDrstHold, execBulkResendTimeout, execUpdStageAuthDone,
      execUpdConfirmWrite, execUandonakBlock, execUandonakClose, execUandonakKeycmd, execUandonakCmdDone, execRecordWrite,
      settleRunMet, reacquired, retractDone, spindleBrakeDone]
    repeat' with_reducible first
      | exact .next
      | apply Answers.ite
      | apply Answers.gated
      | apply Answers.afterNext
      | split
      | dsimp only
  | waveAtReached => exact execWaveAtReached_answers s


/-! ## A step, and what it keeps -/

/-- An idle step. -/
theorem step_of_nil {s : State} (h : s.pending = []) : step s = .next (tick s) := by
  unfold step
  rw [h]

/-- A step with a command waiting. -/
theorem step_of_cons {s : State} {c : Instr} {rest : List Instr} (h : s.pending = c :: rest) :
    step s = exec c { s with pending := rest } := by
  unfold step
  rw [h]

/-- Inversion of a step: it drops the front of the queue, and keeps a footprint from there. -/
theorem step_keeps {s t : State} (h : step s = .next t) :
    ∃ W, Keeps W { s with pending := s.pending.drop 1 } t := by
  cases hq : s.pending with
  | nil =>
    rw [step_of_nil hq] at h
    cases h
    have hs : { s with pending := ([] : List Instr).drop 1 } = s := by rw [List.drop_nil, ← hq]
    exact ⟨tickFoot, by rw [hs]; exact tick_keeps (.refl _) (.refl _ s)⟩
  | cons c rest =>
    rw [step_of_cons hq] at h
    exact ⟨commandFrame c, exec_keeps c _ t h⟩

theorem Keeps.canonical {W : Foot} {s t : State} (h : Keeps W s t) (hs : Canonical s) : Canonical t :=
  ⟨h.canon hs.1, h.memory hs.2⟩

/-- Settles O6: whatever footprint a step keeps, it keeps the canonical form (`Keeps.canonical`). -/
theorem stepKeepsCanonical : Obligations.StepKeepsCanonical := by
  intro s t hs h
  obtain ⟨W, hW⟩ := step_keeps h
  exact hW.canonical hs

/-- Settles O7: no command and no idle cycle touches the queue that `step` hands it. -/
theorem stepTakesOnlyFront : Obligations.StepTakesOnlyFront := by
  intro s t h
  obtain ⟨W, hW⟩ := step_keeps h
  exact ⟨hW.pending, hW.counter⟩

/-- Settles O1. -/
theorem stepRunsFront : Obligations.StepRunsFront := fun _ _ _ h => step_of_cons h

/-- Settles O3. -/
theorem everyCommandAnswers : Obligations.EveryCommandAnswers := exec_answers

/-! ## The state after reset -/

/-- In the register file `m`, every element of the row holds the number of its Reset column, where it gives one. -/
def RegRow.resetIn (m : Store Word) (r : RegRow) : Bool :=
  match r.reset with
  | .val v => (List.range r.count).all fun k => Nat.beq (Store.field m (r.fld.elem k)) v
  | _ => true

theorem RegRow.field_of_resetIn {m : Store Word} {r : RegRow} {v k : Nat} (h : r.resetIn m = true) (hv : r.reset = .val v)
    (hk : k < r.count) : Store.field m (r.fld.elem k) = v := by
  unfold RegRow.resetIn at h
  rw [hv] at h
  exact Nat.eq_of_beq_eq_true (List.all_eq_true.mp h k (List.mem_range.mpr hk))

/-- The register map is finite, and so is what it says of reset. -/
theorem regRows_resetIn_reset : (regRows.all fun rows => rows.all fun r => r.resetIn State.reset.regs) = true := by
  decide +kernel

/-- Settles O4: the rows of the map are checked against the register file after reset, one by one. -/
theorem resetHoldsResetColumn : Obligations.ResetHoldsResetColumn := by
  intro rows hrows r hr v hv k hk
  have hall := List.all_eq_true.mp (List.all_eq_true.mp regRows_resetIn_reset rows hrows) r hr
  exact r.field_of_resetIn hall hv hk

/-- Settles O5. -/
theorem resetIsCanonical : Obligations.ResetIsCanonical := ⟨reset_regs_wf, State.reset_mem_wf⟩

/-! ## Counters and bus errors -/

/-- A counter advanced by one reads one more, held at its width. -/
theorem State.rd_bump_self (s : State) (f : Fld) (hf : f.fits = true) :
    (s.bump f).rd f = min (s.rd f + 1) (2 ^ f.width - 1) := by
  have hlt : satAdd f.width (s.rd f) 1 < 2 ^ f.width :=
    Nat.lt_of_le_of_lt (Nat.min_le_right _ _) (Nat.sub_one_lt (Nat.two_pow_pos _).ne')
  rw [State.bump, State.addSat, State.rd_wr_self s f _ hf, Nat.mod_eq_of_lt hlt, satAdd]

theorem State.rdWord_bump_other (s : State) (f : Fld) {a : Nat} (ha : a ≠ f.addr) : (s.bump f).rdWord a = s.rdWord a := by
  rw [State.bump, State.addSat, State.rdWord_wr, if_neg ha]

theorem busError_rd_corrected (s : State) :
    (busError s).rd Reg.fltCounts0Corrected = min (s.rd Reg.fltCounts0Corrected + 1) 4294967295 :=
  State.rd_bump_self s Reg.fltCounts0Corrected rfl

theorem busError_rdWord_other (s : State) {a : Nat} (ha : a ≠ Reg.fltCounts0Corrected.addr) :
    (busError s).rdWord a = s.rdWord a :=
  State.rdWord_bump_other s Reg.fltCounts0Corrected ha

/-! ## Stores of a bus master -/

section
variable {s : State} {m addr size data : Nat} {priv : Priv}

/-- R25, R26, R12: a store that no range takes whole, one to a read-only region, and one that is no aligned 32-bit store to a unit
window are refused. -/
theorem execRegisterWrite_refused (h0 : 0 < size)
    (h : accessRange s addr size = none ∨ accessRange s addr size = some 2 ∨
      (accessRange s addr size = some 4 ∧ (size ≠ 4 ∨ addr % 4 ≠ 0))) :
    execRegisterWrite m priv addr size data s = .next (busError s) := by
  unfold execRegisterWrite
  rw [if_neg h0.ne']
  rcases h with h | h | ⟨h, hbad⟩
  · simp only [h]
  · simp only [h, memoryStore, Bool.false_eq_true, if_false]
  · have hc : size ≠ 4 ∨ addr % 4 ≠ 0 ∨ windowGated s (windowOf addr) ∨ privRefused addr priv := by tauto
    simp only [h, if_pos hc]

/-- A store to a range of plain memory that nothing reserves. -/
theorem execRegisterWrite_memory (h0 : 0 < size)
    (h : accessRange s addr size = some 1 ∨ (accessRange s addr size = some 3 ∧ indexTouched s addr size = false) ∨
      (accessRange s addr size = some 6 ∧ s.inFreeDram addr size = true)) :
    execRegisterWrite m priv addr size data s =
      .next (((storeEvents s m priv addr size).store addr (leBytes size data)).answer 0) := by
  unfold execRegisterWrite
  rw [if_neg h0.ne']
  rcases h with h | ⟨h, hi⟩ | ⟨h, hd⟩
  · simp only [h, memoryStore, if_true]
  · simp only [h, memoryStore, hi, Bool.not_false, if_true]
  · simp only [h, memoryStore, hd, if_true]

end

theorem leBytes_length (n v : Nat) : (leBytes n v).length = n := by
  induction n generalizing v with
  | zero => rfl
  | succ n ih => rw [leBytes, List.length_cons, ih]

/-- Counting the performance events of a store leaves memory. -/
theorem storeEvents_mem (s : State) (m : Nat) (priv : Priv) (a size : Nat) : (storeEvents s m priv a size).mem = s.mem :=
  (storeEvents_keeps (.refl _) (.refl storeEventsFoot s)).parts .mem (by decide)

theorem storeEvents_byte (s : State) (m : Nat) (priv : Priv) (a size b : Nat) :
    (storeEvents s m priv a size).byte b = s.byte b := by
  rw [State.byte, storeEvents_mem, State.byte]

/-- Settles O10: the store's own run of bytes reads back, and no other byte of memory is written. -/
theorem storeReachesItsBytesOnly : Obligations.StoreReachesItsBytesOnly := by
  intro s m addr size data priv h0 hr
  refine ⟨_, execRegisterWrite_memory h0 hr, rfl, ?_, fun b hb => ?_⟩
  · have hbytes := State.bytes_store (storeEvents s m priv addr size) addr (leBytes size data)
    rw [leBytes_length] at hbytes
    exact hbytes
  · have hbyte := State.byte_store_other (storeEvents s m priv addr size) addr b (leBytes size data)
      (by rw [leBytes_length]; exact hb)
    exact hbyte.trans (storeEvents_byte s m priv addr size b)

/-- Settles O11: the three refusals end alike, in `busError`. -/
theorem refusedStoreChangesNothing : Obligations.RefusedStoreChangesNothing := by
  intro s m addr size data priv h0 hr
  exact ⟨_, execRegisterWrite_refused h0 hr, rfl, busError_rd_corrected s, fun a ha => busError_rdWord_other s ha, rfl⟩

/-! ## Fields of one register beside fields of another -/

theorem Fld.disjoint_of_addr_ne {f g : Fld} (h : f.addr ≠ g.addr) : f.disjoint g = true := by
  simp [Fld.disjoint, h]

theorem Fld.fits_elem {f : Fld} (n : Nat) (h : f.fits = true) : (f.elem n).fits = true := by
  have hw : (f.elem n).width ≤ f.width := by
    unfold Fld.elem
    dsimp only
    split <;> omega
  simp only [Fld.fits, decide_eq_true_eq] at h ⊢
  exact (Nat.add_le_add_left hw f.lo).trans h

theorem State.rd_wr_addr_ne (s : State) {f g : Fld} (v : Nat) (h : g.addr ≠ f.addr) : (s.wr f v).rd g = s.rd g :=
  State.rd_wr_other s f g v (Fld.disjoint_of_addr_ne h)

theorem State.rd_wrPair_addr_ne (s : State) {lo hi g : Fld} (v : Nat) (h : g.addr ≠ lo.addr) (h' : g.addr ≠ hi.addr) :
    (s.wrPair lo hi v).rd g = s.rd g := by
  rw [State.wrPair, State.rd_wr_addr_ne _ _ h', State.rd_wr_addr_ne _ _ h]

theorem State.rd_lt (s : State) (f : Fld) : s.rd f < 2 ^ f.width := fieldOf_lt _ _ _

theorem State.rd_set_self (s : State) (f : Fld) (hf : f.fits = true) (h1 : f.width = 1) : (s.set f).rd f = 1 := by
  rw [State.set, State.rd_wr_self s f 1 hf, h1, Nat.pow_one, Nat.one_mod]

/-! ## Posts and records (R509, R510) -/

section
variable {s : State} {p : RecPost}

theorem recAlive_of (hb : s.boot ≠ .por) (hd : s.pwr.step ≠ .down) : recAlive s = true := by
  simp [recAlive, hb, hd]

theorem recPost_of_room (h : recHasRoom s p.warden = true) :
    recPost s p = (s.setRecorder { s.recorder with queue := s.recorder.queue ++ [p] }).wr Reg.recStatusQueued
      (s.recorder.queue ++ [p]).length := by
  unfold recPost
  rw [if_pos h]
  rfl

theorem recPost_of_full (h : recHasRoom s p.warden = false) :
    recPost s p = (s.bump Reg.recStatusDropped).set Reg.recIrqStatusDrop := by
  unfold recPost
  rw [if_neg (by rw [h]; decide)]

theorem execRecordPost_alive {source severity code : Nat} {payload : List Byte} {warden : Bool} (h : recAlive s = true) :
    execRecordPost source severity code payload warden s = .next (recPost s ⟨source, severity, code, payload, warden⟩) := by
  unfold execRecordPost
  rw [if_pos h]

theorem recPost_full_drops (h : recHasRoom s p.warden = false) :
    (recPost s p).recorder = s.recorder ∧ (recPost s p).rd Reg.recIrqStatusDrop = 1 ∧
      (recPost s p).rd Reg.recStatusDropped = min (s.rd Reg.recStatusDropped + 1) 65535 := by
  rw [recPost_of_full h]
  refine ⟨rfl, State.rd_set_self _ _ rfl rfl, ?_⟩
  rw [State.set, State.rd_wr_addr_ne _ _ (by decide)]
  exact State.rd_bump_self s Reg.recStatusDropped rfl

theorem execRecordWrite_alive {rest : List RecPost} (h : recAlive s = true) (hq : s.recorder.queue = p :: rest) :
    execRecordWrite s =
      .next ((recWrite (s.setRecorder { s.recorder with queue := rest }) p).wr Reg.recStatusQueued rest.length) := by
  unfold execRecordWrite
  rw [hq]
  simp [h]

theorem State.store_rd_recHeadSeqSeq (s : State) (a : Nat) (bs : List Byte) :
    (s.store a bs).rd Reg.recHeadSeqSeq = s.rd Reg.recHeadSeqSeq :=
  (State.store_keeps (.refl _) (.refl storeFoot s)).rd (by decide +kernel)

/-- R509: a record claims the next sequence. -/
theorem recWrite_rd_recHeadSeqSeq (s : State) (p : RecPost) :
    (recWrite s p).rd Reg.recHeadSeqSeq = (s.rd Reg.recHeadSeqSeq + 1) % 4294967296 := by
  have hclaim : (s.addWrap Reg.recHeadSeqSeq 1).rd Reg.recHeadSeqSeq = (s.rd Reg.recHeadSeqSeq + 1) % 4294967296 := by
    rw [State.addWrap, State.rd_wr_self _ _ _ rfl]
    exact Nat.mod_mod _ _
  unfold recWrite
  dsimp only
  split
  · rw [State.set, State.rd_wr_addr_ne _ _ (by decide), State.store_rd_recHeadSeqSeq, State.store_rd_recHeadSeqSeq, hclaim]
  · rw [State.store_rd_recHeadSeqSeq, State.store_rd_recHeadSeqSeq, hclaim]

/-- A record is its body, sealed by its tail. -/
theorem recWrite_mem (s : State) (p : RecPost) :
    (recWrite s p).mem =
      ((s.store (recSlot (s.rd Reg.recHeadSeqSeq)) (recBody s (s.rd Reg.recHeadSeqSeq) p)).store
        (recSlot (s.rd Reg.recHeadSeqSeq) + 0x38)
        (recTail (s.rd Reg.recHeadSeqSeq) (recBody s (s.rd Reg.recHeadSeqSeq) p))).mem := by
  unfold recWrite
  dsimp only
  split <;> simp only [State.set_mem, State.store_mem, State.addWrap_mem]

theorem recWrite_recorder (s : State) (p : RecPost) : (recWrite s p).recorder = s.recorder :=
  (recWrite_keeps (.refl _) (.refl recWriteFoot s)).parts .recorder (by decide)

end

/-! ## Performance counters (R514, R517, R521) -/

/-- The two halves of each performance counter are registers of their own. -/
theorem pmuCnt_addr (j k : Nat) :
    (Reg.pmuCntLoCount.elem j).addr ≠ (Reg.pmuCntHiCount.elem k).addr ∧
      (j ≠ k → (Reg.pmuCntLoCount.elem j).addr ≠ (Reg.pmuCntLoCount.elem k).addr ∧
        (Reg.pmuCntHiCount.elem j).addr ≠ (Reg.pmuCntHiCount.elem k).addr) := by
  simp only [Fld.elem, Reg.pmuCntLoCount, Reg.pmuCntHiCount]
  omega

/-- No performance counter is the register of the overflow bits, or the one of the control bits. -/
theorem pmuCnt_addr_ne {f : Fld} (hf : f.addr < 0x201C0104) (k : Nat) :
    f.addr ≠ (Reg.pmuCntLoCount.elem k).addr ∧ f.addr ≠ (Reg.pmuCntHiCount.elem k).addr := by
  simp only [Fld.elem, Reg.pmuCntLoCount, Reg.pmuCntHiCount]
  omega

/-- Counter `k` at 0. -/
def pmuZero (s : State) (k : Nat) : State := s.wrPair (Reg.pmuCntLoCount.elem k) (Reg.pmuCntHiCount.elem k) 0

theorem pmuZero_rd_lo (s : State) (j k : Nat) :
    (pmuZero s j).rd (Reg.pmuCntLoCount.elem k) = if j = k then 0 else s.rd (Reg.pmuCntLoCount.elem k) := by
  split
  · subst j
    rw [pmuZero, State.wrPair, State.rd_wr_addr_ne _ _ (pmuCnt_addr k k).1, State.rd_wr_self _ _ _ (Fld.fits_elem k rfl)]
    exact Nat.zero_mod _
  · next hjk => exact State.rd_wrPair_addr_ne s 0 ((pmuCnt_addr k j).2 (Ne.symm hjk)).1 (pmuCnt_addr k j).1

theorem pmuZero_rd_hi (s : State) (j k : Nat) :
    (pmuZero s j).rd (Reg.pmuCntHiCount.elem k) = if j = k then 0 else s.rd (Reg.pmuCntHiCount.elem k) := by
  split
  · subst j
    rw [pmuZero, State.wrPair, State.rd_wr_self _ _ _ (Fld.fits_elem k rfl)]
    exact Nat.zero_mod _
  · next hjk => exact State.rd_wrPair_addr_ne s 0 (pmuCnt_addr j k).1.symm ((pmuCnt_addr k j).2 (Ne.symm hjk)).2

theorem pmuZero_rd_other (s : State) (k : Nat) {f : Fld} (hf : f.addr < 0x201C0104) : (pmuZero s k).rd f = s.rd f :=
  State.rd_wrPair_addr_ne s 0 (pmuCnt_addr_ne hf k).1 (pmuCnt_addr_ne hf k).2

/-- A field that step `j` of a loop clears where `j = k`, and leaves otherwise, is cleared by a loop that comes to `k`. -/
theorem State.rd_each_clear {g : State → Nat → State} {f : Fld} {k : Nat}
    (hg : ∀ s j, (g s j).rd f = if j = k then 0 else s.rd f) (l : List Nat) (s : State) :
    (s.each l g).rd f = if k ∈ l then 0 else s.rd f := by
  unfold State.each
  induction l generalizing s with
  | nil => simp
  | cons j l ih =>
    rw [List.foldl_cons, ih, hg]
    by_cases hj : j = k
    · simp [hj]
    · simp [hj, Ne.symm hj]

theorem State.rd_each_of_rd {α : Type} {g : State → α → State} {f : Fld} (hg : ∀ s a, (g s a).rd f = s.rd f) (l : List α)
    (s : State) : (s.each l g).rd f = s.rd f := by
  unfold State.each
  induction l generalizing s with
  | nil => rfl
  | cons a l ih => rw [List.foldl_cons, ih, hg]

theorem execCounterWrap_counts {s : State} {k : Nat} (hk : k < 8) (h : s.rd (Reg.pmuEvselEn.elem k) = 1) :
    execCounterWrap k s = .next (pmuOverflow (pmuZero s k) k) := by
  have hflag : s.flag (Reg.pmuEvselEn.elem k) = true := by rw [State.flag, h]; rfl
  unfold execCounterWrap
  rw [if_neg (by simp [hflag, hk])]
  rfl

theorem pmuOverflow_rd_ovf (s : State) {k : Nat} (hk : k < 8) :
    (pmuOverflow s k).rd Reg.pmuOvfOvf = s.rd Reg.pmuOvfOvf ||| 2 ^ k := by
  have hlt : maskSet (s.rd Reg.pmuOvfOvf) k < 2 ^ 8 :=
    Nat.or_lt_two_pow (s.rd_lt Reg.pmuOvfOvf) (Nat.pow_lt_pow_right (by decide) hk)
  rw [pmuOverflow, State.rd_wr_self _ _ _ rfl]
  exact Nat.mod_eq_of_lt hlt

theorem pmuOverflow_rd_cnt (s : State) (j k : Nat) :
    (pmuOverflow s j).rd (Reg.pmuCntLoCount.elem k) = s.rd (Reg.pmuCntLoCount.elem k) ∧
      (pmuOverflow s j).rd (Reg.pmuCntHiCount.elem k) = s.rd (Reg.pmuCntHiCount.elem k) :=
  have h := pmuCnt_addr_ne (f := Reg.pmuOvfOvf) (by decide) k
  ⟨State.rd_wr_addr_ne _ _ h.1.symm, State.rd_wr_addr_ne _ _ h.2.symm⟩

/-- R517: a write of PMU_CTL with CLR_ALL set, by anyone whom R521 does not refuse. -/
theorem execClrAll_clears {s : State} {priv : Priv} {data : Word} (hp : priv ≠ .u) (hd : data.getLsbD 1 = true) :
    execClrAll priv data s =
      .next (((s.wr Reg.pmuCtlUserEn (fieldOf data 0 1)).each (List.range 8) pmuZero).answer 0) := by
  unfold execClrAll
  rw [if_neg hp]
  dsimp only
  rw [if_pos hd]
  rfl

theorem execPmuCounterWrite_staged {s : State} {m k : Nat} {priv : Priv} {data w : Word} (hp : priv ≠ .u) (hk : k < 8)
    (hw : stagedHalf s m (Reg.pmuCntLoCount.elem k).addr = some w) :
    execPmuCounterWrite m k priv data s =
      .next ((((stageHalf s m (Reg.pmuCntLoCount.elem k).addr none).wr (Reg.pmuCntLoCount.elem k) w.toNat).wr
        (Reg.pmuCntHiCount.elem k) (fieldOf data 0 16)).answer 0) := by
  unfold execPmuCounterWrite
  rw [if_neg (by simp [hp, hk])]
  simp only [hw, Option.getD_some]

theorem stagedHalf_stageHalf_self (s : State) (m a : Nat) (w : Option Word) : stagedHalf (stageHalf s m a w) m a = w :=
  Store.read_write_self none s.loHalf _ w

/-- An element of the register that exists has the field's own width. -/
theorem Fld.width_elem {f : Fld} {n : Nat} (h : n < f.count) : (f.elem n).width = f.width := if_pos h

/-! ### The parts of CompleteRecorder -/

section
variable {s : State} {m k : Nat} {priv : Priv} {data w : Word}

theorem recPostGo_posts (hd : data.getLsbD 31 = true) :
    execRecPostGo m .m data s = .next ((recPost s
      { source := 32 + m, severity := fieldOf (postReg s m 0x20) 16 3, code := fieldOf (postReg s m 0x20) 0 16,
        payload := (List.range 10).flatMap fun i => leBytes 4 (postReg s m (0x24 + 4 * i)).toNat,
        warden := m == 4 }).answer 0) := by
  unfold execRecPostGo
  rw [if_neg (by decide), if_neg (by rw [hd]; decide)]
  rfl

theorem recordWrite_writes {p : RecPost} {rest : List RecPost} (hb : s.boot ≠ .por) (hd : s.pwr.step ≠ .down)
    (hq : s.recorder.queue = p :: rest) :
    ∃ t, execRecordWrite s = .next t ∧ t.recorder.queue = rest ∧
      t.rd Reg.recHeadSeqSeq = (s.rd Reg.recHeadSeqSeq + 1) % 4294967296 ∧
      t.mem = ((s.store (recSlot (s.rd Reg.recHeadSeqSeq)) (recBody s (s.rd Reg.recHeadSeqSeq) p)).store
        (recSlot (s.rd Reg.recHeadSeqSeq) + 0x38)
        (recTail (s.rd Reg.recHeadSeqSeq) (recBody s (s.rd Reg.recHeadSeqSeq) p))).mem := by
  refine ⟨_, execRecordWrite_alive (recAlive_of hb hd) hq, ?_, ?_, ?_⟩
  · rw [State.wr_recorder, recWrite_recorder]
    rfl
  · rw [State.rd_wr_addr_ne _ _ (by decide), recWrite_rd_recHeadSeqSeq]
    rfl
  · rw [State.wr_mem, recWrite_mem]
    simp only [State.store_mem]
    rfl

theorem counterWrap_wraps (hk : k < 8) (h : s.rd (Reg.pmuEvselEn.elem k) = 1) :
    ∃ t, execCounterWrap k s = .next t ∧ t.rd (Reg.pmuCntLoCount.elem k) = 0 ∧ t.rd (Reg.pmuCntHiCount.elem k) = 0 ∧
      t.rd Reg.pmuOvfOvf = s.rd Reg.pmuOvfOvf ||| 2 ^ k := by
  obtain ⟨hlo, hhi⟩ := pmuOverflow_rd_cnt (pmuZero s k) k k
  refine ⟨_, execCounterWrap_counts hk h, ?_, ?_, ?_⟩
  · rw [hlo, pmuZero_rd_lo, if_pos rfl]
  · rw [hhi, pmuZero_rd_hi, if_pos rfl]
  · rw [pmuOverflow_rd_ovf _ hk, pmuZero_rd_other s k (by decide)]

theorem clrAll_clears (hp : priv ≠ .u) (hd : data.getLsbD 1 = true) (hk : k < 8) :
    ∃ t, execClrAll priv data s = .next t ∧ t.rd (Reg.pmuCntLoCount.elem k) = 0 ∧ t.rd (Reg.pmuCntHiCount.elem k) = 0 ∧
      t.rd Reg.pmuCtlUserEn = fieldOf data 0 1 ∧ t.resp = .done 0 := by
  refine ⟨_, execClrAll_clears hp hd, ?_, ?_, ?_, rfl⟩
  · exact (State.rd_each_clear (fun s j => pmuZero_rd_lo s j k) _ _).trans (if_pos (List.mem_range.mpr hk))
  · exact (State.rd_each_clear (fun s j => pmuZero_rd_hi s j k) _ _).trans (if_pos (List.mem_range.mpr hk))
  · refine (State.rd_each_of_rd (fun s j => pmuZero_rd_other s j (by decide)) _ _).trans ?_
    rw [State.rd_wr_self _ _ _ rfl]
    exact Nat.mod_mod _ _

theorem pmuCounterWrite_writes (hp : priv ≠ .u) (hk : k < 8)
    (hw : stagedHalf s m (Reg.pmuCntLoCount.elem k).addr = some w) :
    ∃ t, execPmuCounterWrite m k priv data s = .next t ∧ t.rd (Reg.pmuCntLoCount.elem k) = w.toNat ∧
      t.rd (Reg.pmuCntHiCount.elem k) = fieldOf data 0 16 ∧ stagedHalf t m (Reg.pmuCntLoCount.elem k).addr = none ∧
      t.resp = .done 0 := by
  refine ⟨_, execPmuCounterWrite_staged hp hk hw, ?_, ?_, ?_, rfl⟩
  · refine (State.rd_wr_addr_ne _ _ (pmuCnt_addr k k).1).trans ?_
    rw [State.rd_wr_self _ _ _ (Fld.fits_elem k rfl), Fld.width_elem hk]
    exact Nat.mod_eq_of_lt w.isLt
  · refine (State.rd_wr_self _ _ _ (Fld.fits_elem k rfl)).trans ?_
    rw [Fld.width_elem hk]
    exact Nat.mod_mod _ _
  · exact stagedHalf_stageHalf_self s m _ none

end

/-- Settles O50: each part from the lemma of its command. -/
theorem completeRecorder : Obligations.CompleteRecorder := by
  refine ⟨?post, ?drop, ?go, ?write, ?wrap, ?clear, ?counter⟩
  case post =>
    intro s source severity code payload warden hb hd hroom
    refine ⟨_, execRecordPost_alive (recAlive_of hb hd), ?_⟩
    rw [recPost_of_room hroom]
    rfl
  case drop =>
    intro s source severity code payload warden hb hd hfull
    exact ⟨_, execRecordPost_alive (recAlive_of hb hd), recPost_full_drops hfull⟩
  case go => exact fun s m data hd => ⟨_, recPostGo_posts hd, rfl⟩
  case write => exact fun s p rest hb hd hq => recordWrite_writes hb hd hq
  case wrap => exact fun s k hk h => counterWrap_wraps hk h
  case clear => exact fun s priv data k hp hd hk => clrAll_clears hp hd hk
  case counter => exact fun s m k priv data w hp hk hw => pmuCounterWrite_writes hp hk hw

end Sys2Proof.Machine
end

section
/-!
SUPPORT. Proof of the statement on commands that store nothing (R25, R26; spec/01_architecture.md): memory is a part of the state, and
a footprint that leaves it out leaves every byte.
-/

namespace Sys2Proof.Machine

/-- A byte of memory is read from the part `mem` alone. -/
theorem Keeps.byte {W : Foot} {s t : State} (h : Keeps W s t) (hm : Part.mem ∉ W.parts) (a : Nat) : t.byte a = s.byte a := by
  have hmem : t.mem = s.mem := h.parts .mem hm
  rw [State.byte, hmem, State.byte]

/-- Settles O9: the command keeps its frame (`exec_keeps`), and with it every byte (`Keeps.byte`). -/
theorem commandsThatStoreNothing : Obligations.CommandsThatStoreNothing := by
  intro i s t hm h a
  exact (exec_keeps i s t h).byte hm a

end Sys2Proof.Machine
end

section
/-!
SUPPORT. Proof of the statement on a step with an empty queue (R90, R514; notes/assumptions/5.md): the cycle counter is one
register pair, and what else an idle cycle carries on does not write it.
-/

namespace Sys2Proof.Machine

/-! ## Register pairs -/

/-- R13: a pair of whole registers reads as the 64-bit value written. -/
theorem State.rdPair_wrPair (s : State) {lo hi : Fld} {v : Nat} (hlo : lo.fits = true) (hhi : hi.fits = true)
    (wlo : lo.width = 32) (whi : hi.width = 32) (ha : lo.addr ≠ hi.addr) (hv : v < 2 ^ 64) :
    (s.wrPair lo hi v).rdPair lo hi = v := by
  have hl : (s.wrPair lo hi v).rd lo = v % 2 ^ 32 := by
    rw [State.wrPair, State.rd_wr_addr_ne _ _ ha, State.rd_wr_self _ _ _ hlo, wlo, Nat.mod_mod]
  have hh : (s.wrPair lo hi v).rd hi = v / 2 ^ 32 % 2 ^ 32 := by
    rw [State.wrPair, State.rd_wr_self _ _ _ hhi, whi]
  rw [State.rdPair, hl, hh]
  omega

theorem Keeps.rdPair {W : Foot} {s t : State} {lo hi : Fld} (h : Keeps W s t) (hlo : W.misses lo = true)
    (hhi : W.misses hi = true) : t.rdPair lo hi = s.rdPair lo hi := by
  rw [State.rdPair, h.rd hlo, h.rd hhi, State.rdPair]

/-! ## The idle cycle -/

theorem cycleAdvance_counts (s : State) :
    (cycleAdvance s).rdPair Reg.pmuCycleLoCyc Reg.pmuCycleHiCyc =
      (s.rdPair Reg.pmuCycleLoCyc Reg.pmuCycleHiCyc + 1) % 2 ^ 64 :=
  State.rdPair_wrPair s rfl rfl rfl rfl (by decide) (Nat.mod_lt _ (by decide))

/-- After the count an idle cycle goes on with a mode change and with calibration runs, and with nothing outside their frame. -/
theorem tick_keeps_of_cycleAdvance (s : State) : Keeps modeAdvanceFoot (cycleAdvance s) (tick s) :=
  calPump_keeps (Foot.le_of (by decide +kernel)) (modeAdvance_keeps (.refl _) (.refl _ _))

theorem tick_counts (s : State) :
    (tick s).rdPair Reg.pmuCycleLoCyc Reg.pmuCycleHiCyc =
      (s.rdPair Reg.pmuCycleLoCyc Reg.pmuCycleHiCyc + 1) % 2 ^ 64 :=
  ((tick_keeps_of_cycleAdvance s).rdPair (by decide +kernel) (by decide +kernel)).trans (cycleAdvance_counts s)

/-- Settles O2: an idle step is `tick`, whose frame has neither the queue nor, past the count, the cycle counter. -/
theorem idleStepCounts : Obligations.IdleStepCounts := by
  intro s hq
  exact ⟨_, step_of_nil hq, (tick_keeps (.refl _) (.refl tickFoot s)).pending.trans hq, tick_counts s⟩

end Sys2Proof.Machine
end

section
/-!
SUPPORT. Proof of the statement on rung changes (R83 to R89; spec/03_angle_time.md): what the shared operations of a change do
(its start, its end, RETURN, the ceiling, a spindle fault), then one lemma for each command.
-/

namespace Sys2Proof.Machine

/-! ## Flags -/

theorem State.flag_of_rd_zero {s : State} {f : Fld} (h : s.rd f = 0) : s.flag f = false := by rw [State.flag, h]; rfl

theorem State.flag_of_rd_one {s : State} {f : Fld} (h : s.rd f = 1) : s.flag f = true := by rw [State.flag, h]; rfl

/-- R29: LEVEL 0 is basic level. -/
theorem expert_of_basic {s : State} {level : Fld} (h : s.rd level = 0) : expert s level = false := State.flag_of_rd_zero h

theorem expert_of_expert {s : State} {level : Fld} (h : s.rd level = 1) : expert s level = true := State.flag_of_rd_one h

/-- The answer to the requester is no register. -/
@[simp] theorem State.answer_rd (s : State) (v : Nat) (f : Fld) : (s.answer v).rd f = s.rd f := rfl

/-! ## Operations of a rung change -/

section
variable (s : State)

theorem rungStart_rd_target (target : Nat) : (rungStart s target).rd Reg.angRungTarget = target % 4 := by
  rw [rungStart, State.setAng_rd, State.rd_wr_other _ _ _ _ (by decide), State.rd_wr_self _ _ _ rfl]
  rfl

theorem rungStart_rd_phase (target : Nat) : (rungStart s target).rd Reg.angRungPhase = phaseHolding := by
  rw [rungStart, State.setAng_rd, State.rd_wr_self _ _ _ rfl]
  rfl

theorem rungStart_hold (target : Nat) : (rungStart s target).ang.hold = true := rfl

theorem rungReturn_rd_phase : (rungReturn s).rd Reg.angRungPhase = phaseReturn := by
  rw [rungReturn, State.setAng_rd, State.rd_wr_self _ _ _ rfl]
  rfl

theorem rungReturn_returning : (rungReturn s).ang.returning = true := rfl

/-- R87: a target that steps 1 to 4 accept starts a change. -/
theorem rungRequest_of_judged {s : State} {target : Nat} (h : rungJudge s target = none) :
    rungRequest s target = rungStart s target := by
  rw [rungRequest, h]

theorem rungAsk_of_idle {s : State} {target : Nat} (h : s.rd Reg.angRungPhase = phaseIdle) :
    rungAsk s target = rungRequest s target := if_pos h

/-- R83: a ceiling that is not slower than CURRENT starts nothing. -/
theorem rungCeiling_of_le {s : State}
    (h : max (s.rd Reg.angRungCeilAge) (s.rd Reg.angRungCeilThm) ≤ s.rd Reg.angRungCurrent) :
    rungCeiling s = s.wr Reg.angRungCeiling (max (s.rd Reg.angRungCeilAge) (s.rd Reg.angRungCeilThm)) := by
  unfold rungCeiling
  dsimp only
  rw [State.rd_wr_other _ _ _ _ (by decide), if_neg h.not_gt]

/-! ### The end of a change -/

/-- A change that has ended, before a pending target is looked at (R84, R88). -/
def rungEnded (result : Nat) : State :=
  let s := rungReleaseHold (rungResult (s.wr Reg.angRungPhase phaseIdle) result)
  s.setAng { s.ang with returning := false, returnDown := false, settled := false, retuned := false }

theorem rungEnded_keeps (result : Nat) : Keeps rungFinishFrame s (rungEnded s result) := by
  have hidle : Keeps rungFinishFrame s (s.wr Reg.angRungPhase phaseIdle) :=
    State.wr_keeps rfl (by decide) (.refl _ s)
  have hresult := rungResult_keeps (r := result) (Foot.le_of (by decide)) hidle
  have hrelease := rungReleaseHold_keeps (Foot.le_of (by decide)) hresult
  exact State.setAng_keeps (Foot.le_of (by decide)) hrelease

theorem rungResult_rd (result : Nat) {f : Fld} (hf : rungResultFoot.misses f = true) : (rungResult s result).rd f = s.rd f :=
  (rungResult_keeps (.refl _) (.refl _ s)).rd hf

theorem rungResult_rd_result (result : Nat) : (rungResult s result).rd Reg.angRungResult = result % 8 := by
  rw [rungResult, State.set, State.rd_wr_other _ _ _ _ (by decide), State.rd_wr_self _ _ _ rfl]
  rfl

theorem rungReleaseHold_rd {f : Fld} (hf : rungReleaseHoldFoot.misses f = true) : (rungReleaseHold s).rd f = s.rd f :=
  (rungReleaseHold_keeps (.refl _) (.refl _ s)).rd hf

theorem bwkUnhold_ang (n : Nat) : (bwkUnhold s n).ang = s.ang :=
  (bwkUnhold_keeps (.refl _) (.refl _ s)).parts .ang (by decide)

/-- R84: the release of the sequencers ends their hold and changes nothing else of ANG. -/
theorem rungReleaseHold_ang : (rungReleaseHold s).ang = { s.ang with hold := false } := by
  rw [rungReleaseHold, bwkUnhold_ang, bwkUnhold_ang]
  rfl

theorem rungEnded_rd_phase (result : Nat) : (rungEnded s result).rd Reg.angRungPhase = phaseIdle := by
  rw [rungEnded, State.setAng_rd, rungReleaseHold_rd _ (by decide), rungResult_rd _ _ (by decide), State.rd_wr_self _ _ _ rfl]
  rfl

theorem rungEnded_rd_result (result : Nat) : (rungEnded s result).rd Reg.angRungResult = result % 8 := by
  rw [rungEnded, State.setAng_rd, rungReleaseHold_rd _ (by decide), rungResult_rd_result]

theorem rungEnded_rd_pend (result : Nat) : (rungEnded s result).rd Reg.angRungPend = s.rd Reg.angRungPend := by
  rw [rungEnded, State.setAng_rd, rungReleaseHold_rd _ (by decide), rungResult_rd _ _ (by decide),
    State.rd_wr_other _ _ _ _ (by decide)]

theorem rungEnded_ang (result : Nat) : (rungEnded s result).ang =
    { s.ang with hold := false, returning := false, returnDown := false, settled := false, retuned := false } := by
  rw [rungEnded, State.setAng_ang, rungReleaseHold_ang]
  rfl

theorem rungEnded_hold (result : Nat) : (rungEnded s result).ang.hold = false := by rw [rungEnded_ang]

/-- What the requester of an expert command that ends a change sees of it (R89). -/
theorem rungEnded_answer (result : Nat) : ((rungEnded s result).answer 0).rd Reg.angRungPhase = phaseIdle ∧
    ((rungEnded s result).answer 0).rd Reg.angRungResult = result % 8 ∧ ((rungEnded s result).answer 0).ang.hold = false := by
  rw [State.answer_rd, State.answer_rd, State.answer_ang]
  exact ⟨rungEnded_rd_phase s result, rungEnded_rd_result s result, rungEnded_hold s result⟩

/-- R88: with no target pending, the end of a change is all that happens. -/
theorem rungFinish_of_no_pend {s : State} {result : Nat} (h : s.rd Reg.angRungPend = 0) :
    rungFinish s result = rungEnded s result := by
  have hpend : ¬ (rungEnded s result).flag Reg.angRungPend = true := by
    rw [State.flag_of_rd_zero ((rungEnded_rd_pend s result).trans h)]
    decide
  exact if_neg hpend

/-! ### A spindle fault -/

theorem tokenReturn_rd_state : (tokenReturn s).rd Reg.spnStatusState = s.rd Reg.spnStatusState :=
  (tokenReturn_keeps (.refl _) (.refl _ s)).rd (by decide)

/-- The return of a token and the interrupt bit come after the entry into FAULT, and leave STATE (R188, R196). -/
theorem spnEnter_fault_rd_state : (spnEnter s spnFault).rd Reg.spnStatusState = spnFault := by
  change ((tokenReturn _).set Reg.spnIrqStatusFault).rd Reg.spnStatusState = spnFault
  rw [State.set, State.rd_wr_other _ _ _ _ (by decide), tokenReturn_rd_state, State.when, if_pos (by decide),
    State.setSpn_rd, State.clr, State.rd_wr_other _ _ _ _ (by decide), State.rd_wr_other _ _ _ _ (by decide),
    State.rd_wr_self _ _ _ rfl]
  rfl

/-- R88: a spindle fault leaves no change in progress. -/
theorem rungSpindleFault_rd_phase : (rungSpindleFault s).rd Reg.angRungPhase = phaseIdle := by
  unfold rungSpindleFault
  split
  case isTrue h => exact h
  case isFalse =>
    dsimp only
    rw [rungReleaseHold_rd _ (by decide), State.setAng_rd, State.clr, State.rd_wr_other _ _ _ _ (by decide),
      rungResult_rd _ _ (by decide), State.rd_wr_self _ _ _ rfl]
    rfl

theorem spnFaultEnter_rd_state (cause : Nat) : (spnFaultEnter s cause).rd Reg.spnStatusState = spnFault := by
  unfold spnFaultEnter
  dsimp only
  rw [(rungSpindleFault_keeps (.refl _) (.refl _ _)).rd (by decide),
    (hvRetractBoth_keeps (.refl _) (.refl _ _)).rd (by decide +kernel), spnEnter_fault_rd_state]

theorem spnFaultEnter_rd_cause (cause : Nat) : (spnFaultEnter s cause).rd Reg.spnFaultCause = cause % 256 := by
  unfold spnFaultEnter
  dsimp only
  rw [(rungSpindleFault_keeps (.refl _) (.refl _ _)).rd (by decide),
    (hvRetractBoth_keeps (.refl _) (.refl _ _)).rd (by decide +kernel),
    (spnEnter_keeps (.refl _) (.refl _ _)).rd (by decide), State.rd_wr_self _ _ _ rfl]
  rfl

theorem spnFaultEnter_rd_phase (cause : Nat) : (spnFaultEnter s cause).rd Reg.angRungPhase = phaseIdle :=
  rungSpindleFault_rd_phase _

theorem spnFaultEnter_boot (cause : Nat) : (spnFaultEnter s cause).boot = s.boot :=
  (spnFaultEnter_keeps (.refl _) (.refl _ s)).parts .boot (by decide +kernel)

/-- R193: past B4 a spindle fault is that and no more. -/
theorem spnFails_of_booted {s : State} {cause : Nat} (h : s.boot = .done) : spnFails s cause = spnFaultEnter s cause :=
  if_neg (by rw [spnFaultEnter_boot, h]; decide)

end

/-! ### The rung a change reaches -/

/-- A change that does not return heads for TARGET. -/
theorem rungHeading_of_forth {s : State} (h : s.ang.returning = false) : rungHeading s = s.rd Reg.angRungTarget := by
  rw [rungHeading, h, if_neg Bool.false_ne_true]

/-- CURRENT, the schedule and SPN at the rung headed for (R84). -/
def rungReached (s : State) : State :=
  ((s.wr Reg.angRungCurrent (rungHeading s)).wr Reg.angRungSchedRung (rungHeading s)).setSpn
    { s.spn with rung := rungHeading s }

theorem rungReached_rd (s : State) {f : Fld} (hc : f.disjoint Reg.angRungCurrent = true)
    (hs : f.disjoint Reg.angRungSchedRung = true) : (rungReached s).rd f = s.rd f := by
  rw [rungReached, State.setSpn_rd, State.rd_wr_other _ _ _ _ hs, State.rd_wr_other _ _ _ _ hc]

theorem rungReached_rd_current {s : State} (hr : s.ang.returning = false) :
    (rungReached s).rd Reg.angRungCurrent = s.rd Reg.angRungTarget % 4 := by
  rw [rungReached, State.setSpn_rd, State.rd_wr_other _ _ _ _ (by decide), State.rd_wr_self _ _ _ rfl,
    rungHeading_of_forth hr]
  rfl

/-! ### What waits for the end of a change -/

theorem powerPendApply_of_none {s : State} (h : s.ang.powerPend = none) : powerPendApply s = s := by
  unfold powerPendApply
  rw [h]

/-- Past B4, with no mode change under way, the automation has nothing to go on with. -/
theorem modeAdvance_of_no_change {s : State} (hb : s.boot = .done) (hc : s.change = none) : modeAdvance s = s := by
  unfold modeAdvance
  rw [if_neg (by rw [hb]; decide), hc]

/-! ## The commands -/

section
variable {s : State}

theorem ceilingChange_sets {rung : Nat} (hr : rung < 4) (hthm : s.rd Reg.angRungCeilThm ≤ rung)
    (hcur : rung ≤ s.rd Reg.angRungCurrent) :
    ∃ t, execCeilingChange true rung s = .next t ∧ t.rd Reg.angRungCeilAge = rung ∧ t.rd Reg.angRungCeiling = rung := by
  have hage : (s.wr Reg.angRungCeilAge rung).rd Reg.angRungCeilAge = rung :=
    (State.rd_wr_self s _ rung rfl).trans (Nat.mod_eq_of_lt hr)
  have hslower : max ((s.wr Reg.angRungCeilAge rung).rd Reg.angRungCeilAge)
      ((s.wr Reg.angRungCeilAge rung).rd Reg.angRungCeilThm) = rung := by
    rw [hage, State.rd_wr_other _ _ _ _ (by decide)]
    exact max_eq_left hthm
  have hceil : rungCeiling (s.wr Reg.angRungCeilAge rung) = (s.wr Reg.angRungCeilAge rung).wr Reg.angRungCeiling rung := by
    rw [rungCeiling_of_le (by rw [hslower, State.rd_wr_other _ _ _ _ (by decide)]; exact hcur), hslower]
  refine ⟨_, rfl, ?_, ?_⟩
  · rw [if_pos rfl, hceil, State.rd_wr_other _ _ _ _ (by decide), hage]
  · rw [if_pos rfl, hceil, State.rd_wr_self _ _ _ rfl]
    exact Nat.mod_eq_of_lt hr

theorem rungTargetWrite_starts {data : Word} (hl : s.rd Reg.angModeLevel = 0) (hp : s.rd Reg.angRungPhase = phaseIdle)
    (hd : fieldOf data 31 1 = 0) (hj : rungJudge s (fieldOf data 8 2) = none) :
    execRungTargetWrite data s = .next ((rungStart s (fieldOf data 8 2)).answer 0) := by
  unfold execRungTargetWrite
  dsimp only
  rw [hd, show (s.when (0 == 1) fun s => s.clr Reg.angRungCeilExceeded) = s from rfl, expert_of_basic hl,
    if_neg Bool.false_ne_true, rungAsk_of_idle hp, rungRequest_of_judged hj]

theorem rungHeld_ramps (hp : s.rd Reg.angRungPhase = phaseHolding) (hh : rungHeldReady s = true)
    (hl : s.rd Reg.angModeLevel = 0) : execRungHeld s = .next (s.wr Reg.angRungPhase phaseRamp) := by
  unfold execRungHeld
  rw [if_pos ⟨hp, hh⟩, expert_of_basic hl, if_neg Bool.false_ne_true]

theorem schedRungSwitch_switches (hp : s.rd Reg.angRungPhase = phaseRamp) (hr : s.ang.returning = false) :
    execSchedRungSwitch s = .next (s.wr Reg.angRungSchedRung (s.rd Reg.angRungTarget)) := by
  unfold execSchedRungSwitch
  dsimp only
  rw [if_pos (.inl hp), rungHeading_of_forth hr]

theorem rungRampEnd_settles (hp : s.rd Reg.angRungPhase = phaseRamp) (hr : s.ang.returning = false) :
    ∃ t, execRungRampEnd s = .next t ∧ t.rd Reg.angRungPhase = 4 ∧
      t.rd Reg.angRungSchedRung = s.rd Reg.angRungTarget % 4 := by
  refine ⟨_, if_pos (.inl hp), ?_, ?_⟩
  · rw [State.setAng_rd, State.rd_wr_self _ _ _ rfl]
    rfl
  · rw [State.setAng_rd, State.rd_wr_other _ _ _ _ (by decide), State.rd_wr_self _ _ _ rfl, rungHeading_of_forth hr]
    rfl

theorem rungSettled_retunes (hp : s.rd Reg.angRungPhase = phaseSettle) (hl : s.rd Reg.angModeLevel = 0) :
    execRungSettled s = .next (s.wr Reg.angRungPhase phaseRetune) := by
  unfold execRungSettled
  rw [if_pos hp, expert_of_basic hl, Bool.false_and, if_neg Bool.false_ne_true]

theorem rungRetuneDone_finishes (hp : s.rd Reg.angRungPhase = phaseRetune) (hr : s.ang.returning = false)
    (hl : s.rd Reg.angModeLevel = 0) (hpend : s.rd Reg.angRungPend = 0) (hpow : s.ang.powerPend = none)
    (hc : s.change = none) (hb : s.boot = .done) :
    execRungRetuneDone s = .next (rungEnded (rungReached s) rungDone) := by
  have hpend' : (rungReached s).rd Reg.angRungPend = 0 := (rungReached_rd s (by decide) (by decide)).trans hpend
  have hl' : (rungReached s).rd Reg.angModeLevel = 0 := (rungReached_rd s (by decide) (by decide)).trans hl
  have hkeeps := rungEnded_keeps (rungReached s) rungDone
  have hpow' : (rungEnded (rungReached s) rungDone).ang.powerPend = none := by
    rw [rungEnded_ang]
    exact hpow
  have hb' : (rungEnded (rungReached s) rungDone).boot = .done := (hkeeps.parts .boot (by decide)).trans hb
  have hc' : (rungEnded (rungReached s) rungDone).change = none := (hkeeps.parts .change (by decide)).trans hc
  calc execRungRetuneDone s
      = if s.ang.returning then .next (modeAdvance (powerPendApply (rungFinish (rungReached s) rungAbandoned)))
        else if expert (rungReached s) Reg.angModeLevel then
          .next ((rungReached s).setAng { (rungReached s).ang with retuned := true })
        else .next (modeAdvance (powerPendApply (rungFinish (rungReached s) rungDone))) := if_neg (not_not.mpr hp)
    _ = .next (modeAdvance (powerPendApply (rungFinish (rungReached s) rungDone))) := by
        rw [hr, if_neg Bool.false_ne_true, expert_of_basic hl', if_neg Bool.false_ne_true]
    _ = .next (rungEnded (rungReached s) rungDone) := by
        rw [rungFinish_of_no_pend hpend', powerPendApply_of_none hpow', modeAdvance_of_no_change hb' hc']

theorem rungSettleTimeout_returns (hp : s.rd Reg.angRungPhase = phaseSettle) (hr : s.ang.returning = false) :
    execRungSettleTimeout s = .next (rungReturn s) := by
  unfold execRungSettleTimeout
  dsimp only
  rw [if_pos ⟨.inr hp, by rw [hr]; rfl⟩]

theorem returnSettleTimeout_faults (hr : s.ang.returning = true) (hb : s.boot = .done) :
    execReturnSettleTimeout s = .next (spnFaultEnter s 5) := by
  unfold execReturnSettleTimeout
  rw [if_pos hr, spnFails_of_booted hb]

/-! ### ANG_CMD at expert level (R89) -/

section
variable (hl : s.rd Reg.angModeLevel = 1)
include hl

/-- No expert command is ignored at expert level. -/
theorem not_basic_of_expert : ¬ (!expert s Reg.angModeLevel) = true := by
  rw [expert_of_expert hl]
  decide

theorem angCmdHold_starts (hp : s.rd Reg.angRungPhase = phaseIdle) (hj : rungJudge s (s.rd Reg.angRungTarget) = none) :
    execAngCmdHold s = .next ((rungStart s (s.rd Reg.angRungTarget)).answer 0) := by
  unfold execAngCmdHold
  rw [if_neg (not_basic_of_expert hl), if_pos hp, rungRequest_of_judged hj]

theorem angCmdRamp_ramps (hp : s.rd Reg.angRungPhase = phaseHeld) (h0 : s.rd (Reg.bwkStatusGate.elem 0) = 0)
    (h1 : s.rd (Reg.bwkStatusGate.elem 1) = 0) : execAngCmdRamp s = .next ((s.wr Reg.angRungPhase phaseRamp).answer 0) := by
  have hgate : s.rd Reg.angRungPhase = phaseHeld ∧ !s.flag (Reg.bwkStatusGate.elem 0) ∧
      !s.flag (Reg.bwkStatusGate.elem 1) := by
    rw [State.flag_of_rd_zero h0, State.flag_of_rd_zero h1]
    exact ⟨hp, rfl, rfl⟩
  unfold execAngCmdRamp
  rw [if_neg (not_basic_of_expert hl), if_pos hgate]

theorem angCmdRetune_retunes (hp : s.rd Reg.angRungPhase = phaseSettle) (hs : s.ang.settled = true)
    (hr : s.ang.returning = false) : execAngCmdRetune s = .next ((s.wr Reg.angRungPhase phaseRetune).answer 0) := by
  unfold execAngCmdRetune
  rw [if_neg (not_basic_of_expert hl), if_pos ⟨hp, hs, by rw [hr]; rfl⟩]

theorem angCmdRelease_finishes (hp : s.rd Reg.angRungPhase = phaseRetune) (ht : s.ang.retuned = true)
    (hr : s.ang.returning = false) (hpend : s.rd Reg.angRungPend = 0) :
    execAngCmdRelease s = .next ((rungEnded s rungDone).answer 0) := by
  unfold execAngCmdRelease
  rw [if_neg (not_basic_of_expert hl), if_pos ⟨hp, ht, by rw [hr]; rfl⟩, rungFinish_of_no_pend hpend]

theorem angCmdAbort_abandons (hp : s.rd Reg.angRungPhase = phaseHolding) (hr : s.ang.returning = false)
    (hpend : s.rd Reg.angRungPend = 0) : execAngCmdAbort s = .next ((rungEnded s rungAbandoned).answer 0) := by
  unfold execAngCmdAbort
  dsimp only
  rw [if_neg (not_basic_of_expert hl), hr, if_neg Bool.false_ne_true, if_pos (.inl hp), rungFinish_of_no_pend hpend]

end

end

/-- Settles O18: each part from the lemma of its command, read through the operation it comes to. -/
theorem completeRung : Obligations.CompleteRung := by
  refine ⟨?ceiling, ?target, ?held, ?sched, ?rampEnd, ?settled, ?retuneDone, ?settleTimeout, ?returnTimeout, ?hold, ?ramp,
    ?retune, ?release, ?abort⟩
  case ceiling => exact fun s rung hr hthm hcur => ceilingChange_sets hr hthm hcur
  case target =>
    intro s data hl hp hd hj
    refine ⟨_, rungTargetWrite_starts hl hp hd hj, ?_, rungStart_rd_phase s _, rungStart_hold s _⟩
    exact (rungStart_rd_target s _).trans (Nat.mod_mod _ _)
  case held => exact fun s hp hh hl => ⟨_, rungHeld_ramps hp hh hl, State.rd_wr_self _ _ _ rfl⟩
  case sched => exact fun s hp hr => ⟨_, schedRungSwitch_switches hp hr, State.rd_wr_self _ _ _ rfl⟩
  case rampEnd => exact fun s hp hr => rungRampEnd_settles hp hr
  case settled => exact fun s hp hl => ⟨_, rungSettled_retunes hp hl, State.rd_wr_self _ _ _ rfl⟩
  case retuneDone =>
    intro s hp hr hl hpend hpow hc hb
    refine ⟨_, rungRetuneDone_finishes hp hr hl hpend hpow hc hb, rungEnded_rd_phase _ _, ?_, rungEnded_rd_result _ _,
      rungEnded_hold _ _⟩
    rw [(rungEnded_keeps _ _).rd (by decide), rungReached_rd_current hr]
  case settleTimeout =>
    exact fun s hp hr => ⟨_, rungSettleTimeout_returns hp hr, rungReturn_rd_phase s, rungReturn_returning s⟩
  case returnTimeout =>
    intro s hr hb
    exact ⟨_, returnSettleTimeout_faults hr hb, spnFaultEnter_rd_state s 5, spnFaultEnter_rd_cause s 5,
      spnFaultEnter_rd_phase s 5⟩
  case hold =>
    exact fun s hl hp hj => ⟨_, angCmdHold_starts hl hp hj, rungStart_rd_phase s _, rungStart_hold s _⟩
  case ramp => exact fun s hl hp h0 h1 => ⟨_, angCmdRamp_ramps hl hp h0 h1, State.rd_wr_self _ _ _ rfl⟩
  case retune => exact fun s hl hp hs hr => ⟨_, angCmdRetune_retunes hl hp hs hr, State.rd_wr_self _ _ _ rfl⟩
  case release =>
    exact fun s hl hp ht hr hpend => ⟨_, angCmdRelease_finishes hl hp ht hr hpend, rungEnded_answer s rungDone⟩
  case abort =>
    exact fun s hl hp hr hpend => ⟨_, angCmdAbort_abandons hl hp hr hpend, rungEnded_answer s rungAbandoned⟩

end Sys2Proof.Machine
end

section
/-!
SUPPORT. Proof of the statement on zone commands (R112, R281, R301, R302; spec/04_media_format.md,
spec/10_host_interface.md): what the end of a command leaves of the overlap order and of the zones, what each zone
action does on a zone that takes it, then what the commands come to.
-/

namespace Sys2Proof.Machine

/-! ## The command that holds a tag -/

theorem tag_of_cmdOf {s : State} {tag : Nat} {c : HostCmd} (h : cmdOf s tag = some c) : c.tag = tag := by
  have hbeq : (c.tag == tag) = true := List.find?_some (p := fun x : HostCmd => x.tag == tag) h
  exact beq_iff_eq.mp hbeq

/-- A live command is the one that holds its tag. -/
theorem cmdOf_of_liveCmd {s : State} {tag opc : Nat} {c : HostCmd} (h : liveCmd s tag opc = some c) :
    cmdOf s tag = some c := by
  unfold liveCmd at h
  split at h
  next d hd =>
    obtain ⟨-, hdc⟩ := Option.ite_none_right_eq_some.mp h
    exact hd.trans hdc
  next => exact nomatch h

/-- A replaced command is the one that holds its tag, where a command held it before. -/
theorem cmdOf_setCmd_self {s : State} {c d : HostCmd} (h : cmdOf s d.tag = some c) :
    cmdOf (setCmd s d) d.tag = some d := by
  have hsame : ((fun x : HostCmd => x.tag == d.tag) ∘ fun x => if x.tag = d.tag then d else x) =
      fun x => x.tag == d.tag := by
    funext x
    by_cases hx : x.tag = d.tag <;> simp [hx]
  unfold cmdOf at h
  rw [cmdOf, setCmd, State.setHst_hst, List.find?_map, hsame, h, Option.map_some, if_pos (tag_of_cmdOf h)]

/-! ## A command DONE (R266, R306) -/

/-- The record of a command lies in memory. -/
theorem intentWrite_hst (s : State) (c : HostCmd) (state : Nat) : (intentWrite s c state).hst = s.hst :=
  (intentWrite_keeps (.refl _) (.refl _ s)).parts .hst (by decide +kernel)

theorem tagsShow_hst (s : State) : (tagsShow s).hst = s.hst :=
  (tagsShow_keeps (.refl _) (.refl _ s)).parts .hst (by decide)

/-- A command that has not ended stays in the overlap order, DONE with its status (R306, R454). -/
theorem cmdOf_cmdDone {s : State} {tag : Nat} {c : HostCmd} (status : Nat) (h : cmdOf s tag = some c)
    (he : c.ended = false) :
    cmdOf (cmdDone s c status) tag = some { c with status := some status, done := true } := by
  obtain rfl := tag_of_cmdOf h
  rw [cmdDone, if_neg (by rw [he]; exact Bool.false_ne_true), cmdOf, intentWrite_hst]
  exact cmdOf_setCmd_self (d := { c with status := some status, done := true }) h

/-- The end of a command moves no zone. -/
theorem zoneRec_cmdDone (s : State) (c : HostCmd) (status ns z : Nat) :
    zoneRec (cmdDone s c status) ns z = zoneRec s ns z := by
  have hzones : (cmdDone s c status).hst.zones = s.hst.zones := by
    unfold cmdDone cmdFree
    dsimp only
    split
    · rw [tagsShow_hst, State.setHst_hst, intentWrite_hst, setCmd, State.setHst_hst]
    · rw [intentWrite_hst, setCmd, State.setHst_hst]
  rw [zoneRec, hzones, zoneRec]

theorem zoneRec_setZone_self (s : State) (ns z : Nat) (v : Zone) : zoneRec (setZone s ns z v) ns z = v :=
  Store.read_write_self _ _ _ _

/-- What the host sees of a command whose action on zone `z` comes to a new record of that zone. -/
theorem cmdDone_setZone {s : State} {tag z status : Nat} {c : HostCmd} {v : Zone} (h : cmdOf s tag = some c)
    (he : c.ended = false) :
    cmdOf (cmdDone (setZone s c.ns z v) c status) tag = some { c with status := some status, done := true } ∧
      zoneRec (cmdDone (setZone s c.ns z v) c status) c.ns z = v :=
  ⟨cmdOf_cmdDone status h he, (zoneRec_cmdDone _ _ _ _ _).trans (zoneRec_setZone_self _ _ _ _)⟩

/-! ## The zone actions on a zone that takes them (R301, R302) -/

section
variable {s : State} {ns z : Nat}

theorem zoneClose_of_written (ho : zoneOpen (zoneState s ns z) = true) (hwp : (zoneRec s ns z).wp ≠ 0) :
    zoneClose s ns z = (none, setZone s ns z { zoneRec s ns z with state := 4 }) := by
  unfold zoneClose
  dsimp only
  rw [if_pos ho, if_neg hwp]

theorem zoneFinish_of_openable (hst : zoneState s ns z = 1 ∨ zoneActive (zoneState s ns z) = true)
    (hr : openRefusal s ns (zoneState s ns z) = none) :
    zoneFinish s ns z = (none, setZone s ns z { zoneRec s ns z with state := 14 }) := by
  unfold zoneFinish
  dsimp only
  rw [if_pos hst, hr]

theorem zoneOpenSet_of_openable (hst : zoneState s ns z = 1 ∨ zoneActive (zoneState s ns z) = true)
    (hr : openRefusal s ns (zoneState s ns z) = none) :
    zoneOpenSet s ns z = (none, setZone s ns z { zoneRec s ns z with state := 3 }) := by
  unfold zoneOpenSet
  dsimp only
  rw [if_pos hst, hr]

theorem zoneReset_of_resettable
    (hst : zoneState s ns z = 1 ∨ zoneActive (zoneState s ns z) = true ∨ zoneState s ns z = 14) :
    zoneReset s ns z =
      (none, retiredZoneOffline (heldPlanApply (jnlZoneReset (setZone s ns z {}) ns z) ns z) ns z) :=
  if_pos hst

theorem zoneOffline_of_readOnly (hst : zoneState s ns z = 13) :
    zoneOffline s ns z = (none, zoneChanged (setZone s ns z { zoneRec s ns z with state := 15 }) ns z) :=
  if_pos hst

end

/-! ## The commands -/

section
variable {s : State} {tag : Nat} {c : HostCmd}

/-- A begun Zone Management Send without Select All whose zone takes the action is DONE with success after it. -/
theorem zoneAct_of_taken {action z : Nat} {states : Nat → Bool} {act : State → Nat → Nat → Option Nat × State}
    {t : State} (h : liveCmd s tag 0x79 = some c) (hb : c.begun = true) (ha : c.zoneAction = action)
    (hs : c.selectAll = false) (hz : c.slba / max s.sim.cfg.zoneSectors 1 = z) (hact : act s c.ns z = (none, t)) :
    zoneAct s tag action states act = cmdDone t c 0 := by
  unfold zoneAct
  rw [h]
  dsimp only
  rw [if_neg (by simp [hb, ha]), if_neg (by simp [hs]), hz, hact]
  rfl

/-- With no group of its zone open, Finish has no seal to wait for (R112). -/
theorem execZoneFinish_of_sealed {z : Nat} (h : liveCmd s tag 0x79 = some c) (hb : c.begun = true)
    (ha : c.zoneAction = 2) (hz : c.slba / max s.sim.cfg.zoneSectors 1 = z) (hg : zoneGroupOpen s c.ns z = false) :
    execZoneFinish tag s = .next (zoneAct s tag 2 zoneActive zoneFinish) := by
  unfold execZoneFinish
  rw [h]
  dsimp only
  rw [hz, if_neg (by simp [hb, ha]), if_neg (by simp [hg])]

theorem setZoneDescExt_fails (h : liveCmd s tag 0x79 = some c) (hb : c.begun = true) (ha : c.zoneAction = 16) :
    execSetZoneDescExt tag s = .next (cmdDone s c stInvalidField) := by
  unfold execSetZoneDescExt
  rw [h]
  dsimp only
  rw [if_pos (by simp [hb, ha])]

/-- R302: whatever Report Zones sends, the bytes sent are all that it changes before it is DONE. -/
theorem reportZones_sends (h : liveCmd s tag 0x7A = some c) (hb : c.begun = true) (ha : c.zoneAction = 0)
    (ho : c.cdw 13 / 256 % 256 ≤ 7) :
    ∃ bytes, execReportZones tag s = .next (cmdDone (s.setHst { s.hst with sent := bytes }) c 0) := by
  unfold execReportZones
  rw [h]
  dsimp only
  rw [if_neg (by simp [hb, ha]), if_neg ho.not_gt]
  exact ⟨_, rfl⟩

theorem extendedReportZones_fails (h : liveCmd s tag 0x7A = some c) (hb : c.begun = true) (ha : c.zoneAction = 1) :
    execExtendedReportZones tag s = .next (cmdDone s c stInvalidField) := by
  unfold execExtendedReportZones
  rw [h]
  dsimp only
  rw [if_pos (by simp [hb, ha])]

end

/-- Settles O31: each part from the lemma of its command; where the part names the command and its zone, through `cmdDone`. -/
theorem completeZones : Obligations.CompleteZones := by
  refine ⟨?close, ?finish, ?openZone, ?reset, ?offline, ?descExt, ?report, ?extendedReport⟩
  case close =>
    intro s tag c z h hb he ha hs hz ho hwp
    have hact := zoneAct_of_taken (states := zoneOpen) h hb ha hs hz (zoneClose_of_written ho hwp)
    exact ⟨_, congrArg Host.Outcome.next hact, cmdDone_setZone (cmdOf_of_liveCmd h) he⟩
  case finish =>
    intro s tag c z h hb he ha hs hz hst hr hg
    have hact := zoneAct_of_taken (states := zoneActive) h hb ha hs hz (zoneFinish_of_openable hst hr)
    exact ⟨_, (execZoneFinish_of_sealed h hb ha hz hg).trans (congrArg _ hact), cmdDone_setZone (cmdOf_of_liveCmd h) he⟩
  case openZone =>
    intro s tag c z h hb he ha hs hz hst hr
    have hact := zoneAct_of_taken (states := fun st => st == 4) h hb ha hs hz (zoneOpenSet_of_openable hst hr)
    exact ⟨_, congrArg Host.Outcome.next hact, cmdDone_setZone (cmdOf_of_liveCmd h) he⟩
  case reset =>
    intro s tag c z h hb ha hs hz hst
    exact ⟨_, congrArg Host.Outcome.next (zoneAct_of_taken h hb ha hs hz (zoneReset_of_resettable hst)), rfl⟩
  case offline =>
    intro s tag c z h hb ha hs hz hst
    exact ⟨_, congrArg Host.Outcome.next (zoneAct_of_taken h hb ha hs hz (zoneOffline_of_readOnly hst)), rfl⟩
  case descExt =>
    exact fun s tag c h hb he ha => ⟨_, setZoneDescExt_fails h hb ha, cmdOf_cmdDone _ (cmdOf_of_liveCmd h) he⟩
  case report =>
    intro s tag c h hb he ha ho
    obtain ⟨bytes, hsent⟩ := reportZones_sends h hb ha ho
    exact ⟨_, hsent, cmdOf_cmdDone 0 (cmdOf_of_liveCmd h) he⟩
  case extendedReport =>
    exact fun s tag c h hb he ha => ⟨_, extendedReportZones_fails h hb ha, cmdOf_cmdDone _ (cmdOf_of_liveCmd h) he⟩

end Sys2Proof.Machine
end

section
/-!
SUPPORT. Proof of the statement on journal commands (R259, R260, R263, R264, R271, R272, R279, R280, R282;
spec/09_journal.md): what the answer to a ring entry leaves of the entries in progress, what a fold's start and a twin's
issue show, then one lemma for each command.
-/

namespace Sys2Proof.Machine

/-! ## The entries in progress of a ring (R326, R330) -/

theorem nth_eq_getD {α : Type} (d : α) (l : List α) (i : Nat) : nth d l i = l.getD i d := by
  induction l generalizing i with
  | nil => rfl
  | cons x xs ih =>
    cases i with
    | zero => rfl
    | succ i => rw [nth, ih, List.getD_cons_succ]

theorem setNth_eq_set {α : Type} (l : List α) (i : Nat) (v : α) : setNth l i v = l.set i v := by
  induction l generalizing i with
  | nil => rfl
  | cons x xs ih =>
    cases i with
    | zero => rfl
    | succ i => rw [setNth, ih, List.set_cons_succ]

theorem State.ring_setRing_self {s : State} {n : Nat} (r : Ring) (h : n < s.rings.length) : (s.setRing n r).ring n = r := by
  have hset : n < (s.rings.set n r).length := by rw [List.length_set]; exact h
  rw [State.ring, State.setRing_rings, setNth_eq_set, nth_eq_getD, List.getD_eq_getElem _ _ hset, List.getElem_set_self]

theorem State.ring_of_rings {s t : State} (n : Nat) (h : t.rings = s.rings) : t.ring n = s.ring n := by
  rw [State.ring, h, State.ring]

theorem ringRefresh_ring (s : State) (n k : Nat) : (ringRefresh s n).ring k = s.ring k :=
  State.ring_of_rings k ((ringRefresh_keeps (.refl _) (.refl _ s)).parts .rings (by decide))

theorem ringLose_ring (s : State) (n k : Nat) : (ringLose s n).ring k = s.ring k :=
  State.ring_of_rings k ((ringLose_keeps (.refl _) (.refl _ s)).parts .rings (by decide))

section
variable {s : State} {n : Nat} (h : n < s.rings.length)
include h

/-- A result written to the ring moves no entry in progress. -/
theorem ringWrite_inProg (x : RingResult) : ((ringWrite s n x).ring n).inProg = (s.ring n).inProg := by
  have hrings (a v w : Nat) (bs : List Byte) :
      (((s.store a bs).wr (Reg.rngResProdIdx.elem n) v).wr Reg.rngIrqStatusResult w).rings = s.rings :=
    (State.store_keeps (.refl _) (.refl _ s)).parts .rings (by decide)
  unfold ringWrite
  dsimp only
  split
  · split
    · rw [State.ring_setRing_self _ (by rw [State.wr_rings, hrings]; exact h)]
    · rw [State.ring_setRing_self _ (by rw [hrings]; exact h)]
  · rw [State.ring_of_rings n (hrings _ _ _ _)]

/-- Written, held or lost, a result moves no entry in progress. -/
theorem ringPost_inProg (x : RingResult) : ((ringPost s n x).ring n).inProg = (s.ring n).inProg := by
  unfold ringPost
  dsimp only
  rw [ringRefresh_ring]
  split
  · exact ringWrite_inProg h x
  · split
    · rw [State.ring_setRing_self _ h]
    · rw [ringLose_ring]

/-- R326: an answer takes the oldest entry off the entries in progress. -/
theorem ringAnswer_inProg (bytes : List Byte) (last : Bool) :
    ((ringAnswer s n bytes last).ring n).inProg = (s.ring n).inProg.drop 1 := by
  have hlen (r : Ring) : n < (s.setRing n r).rings.length := by
    rw [State.setRing_rings, setNth_eq_set, List.length_set]
    exact h
  rw [ringAnswer, ringPost_inProg (hlen _), State.ring_setRing_self _ h]

end

/-! ## The journal's ring entries (R260) -/

section
variable {s : State} {e : RingEntry}

/-- The answer that follows an operation on other parts than the rings takes the oldest entry off. -/
theorem jnlResult_inProg {t : State} (ht : t.rings = s.rings) (h : 4 < s.rings.length) (status : Nat) :
    ((jnlResult t e status).ring 4).inProg = (s.ring 4).inProg.drop 1 := by
  rw [jnlResult, ringAnswer_inProg (by rw [ht]; exact h), State.ring_of_rings 4 ht]

theorem jnlResult_rd (status : Nat) {f : Fld} (hf : jnlResultFoot.misses f = true) : (jnlResult s e status).rd f = s.rd f :=
  (jnlResult_keeps (.refl _) (.refl _ s)).rd hf

/-- A well-formed entry at expert level runs. -/
theorem jnlEntry_of_wellFormed {op : Nat} {run : State → RingEntry → State} (hf : ringFront s 4 = some e)
    (hl : s.rd Reg.jnlModeLevel = 1) (hm : jnlMalformed e = false) (ho : e.at 0 1 = op) : jnlEntry s op run = run s e := by
  have hx : ¬ (!expert s Reg.jnlModeLevel || jnlMalformed e) = true := by simp [expert_of_expert hl, hm]
  unfold jnlEntry
  rw [hf]
  dsimp only
  rw [if_neg (not_not_intro ho), if_neg hx]

/-- R259, R260: FLAGS 3 leaves JOURNAL clear, so the write takes the direct route. -/
theorem execRoute_direct {c : HostCmd} (hf : ringFront s 4 = some e) (hl : s.rd Reg.jnlModeLevel = 1)
    (hm : jnlMalformed e = false) (ho : e.at 0 1 = 1) (hflags : e.at 1 1 = 3)
    (hc : s.hst.cmds.find? (fun c => c.tag == e.at 2 2 && c.isWrite && !c.done) = some c) (hlaid : c.laid = []) :
    execRoute s = .next (jnlResult (setCmd s { c with direct := true, target := none }) e 0) := by
  have hj : (e.at 1 1).testBit 2 = false := by rw [hflags]; decide
  unfold execRoute
  rw [hf]
  dsimp only
  rw [if_neg (by omega), if_neg (not_not_intro ho), jnlEntry_of_wellFormed hf hl hm ho, hc]
  simp [hlaid, hj]

/-- R271: an extent begins to fold: FOLDING, with nothing home yet, and the fold shown. -/
theorem foldStart_of_not_draining {x : Extent} (h : s.rd Reg.jnlStatusFold = 0) :
    foldStart s x = (setExtent s { x with state := 2, home := [] }).wr Reg.jnlStatusFold 1 := by
  have hfold : (setExtent s { x with state := 2, home := [] }).rd Reg.jnlStatusFold = 0 := h
  unfold foldStart
  dsimp only
  rw [if_neg (by rw [hfold]; decide)]

theorem foldStart_rings (s : State) (x : Extent) : (foldStart s x).rings = s.rings :=
  (foldStart_keeps (.refl _) (.refl _ s)).parts .rings (by decide)

theorem execFold_folds {x : Extent} (hf : ringFront s 4 = some e) (hl : s.rd Reg.jnlModeLevel = 1)
    (hm : jnlMalformed e = false) (ho : e.at 0 1 = 2)
    (hx : s.jnl.extents.find? (fun x => x.idx == e.at 4 4) = some x) (hlive : x.state = 1) (hheld : foldHeld s x = false) :
    execFold s = .next (jnlResult (foldStart s x) e 0) := by
  unfold execFold
  rw [jnlEntry_of_wellFormed hf hl hm ho, hx]
  dsimp only
  rw [if_neg (by simp [hlive, hheld]), if_neg (by simp [hlive])]

theorem execRelease_frees {x : Extent} (hf : ringFront s 4 = some e) (hl : s.rd Reg.jnlModeLevel = 1)
    (hm : jnlMalformed e = false) (ho : e.at 0 1 = 3)
    (hx : s.jnl.extents.find? (fun x => x.idx == e.at 4 4) = some x) (hnot : x.state ≠ 2) :
    execRelease s = .next (jnlResult (extentDrop s x 0) e 0) := by
  unfold execRelease
  rw [jnlEntry_of_wellFormed hf hl hm ho, hx]
  dsimp only
  rw [if_neg hnot]

end

/-! ## Twin records and folds of the automation (R264, R271, R272) -/

section
variable {s : State}

/-- R264: a twin record that is issued is owed until it is laid, whatever place it gets. -/
theorem twinIssue_twins (s : State) (c : HostCmd) : (twinIssue s c).jnl.twins = c.tag :: s.jnl.twins := by
  have hjnl (y : State) (v : Bool) : (twinDegraded y v).jnl = y.jnl :=
    (twinDegraded_keeps (.refl _) (.refl _ y)).parts .jnl (by decide)
  unfold twinIssue
  dsimp only
  rw [hjnl]
  rfl

theorem execTwinWaitExpiry_issues {tag : Nat} {c : HostCmd}
    (hc : s.hst.cmds.find? (fun c => c.tag == tag && c.isWrite && !c.done) = some c) (htwin : c.twin = true)
    (hdirect : c.direct = true) (hfetched : c.fetched = true) (hlaid : writeLaid c = false)
    (hnew : s.jnl.twins.contains tag = false) (hl : s.rd Reg.jnlModeLevel = 0) :
    execTwinWaitExpiry tag s = .next (twinIssue s c) := by
  have hdue : (c.twin && c.direct && c.fetched && !writeLaid c && !s.jnl.twins.contains tag &&
      !expert s Reg.jnlModeLevel) = true := by
    rw [htwin, hdirect, hfetched, hlaid, hnew, expert_of_basic hl]
    rfl
  unfold execTwinWaitExpiry
  rw [hc]
  dsimp only
  rw [if_pos hdue]

theorem execFoldIdleStart_folds {x : Extent} (hl : s.rd Reg.jnlModeLevel = 0) (hmode : s.rd Reg.sysOpmodeMode = 2)
    (hidle : s.hst.cmds = []) (hall : foldCandidates s = [x]) (hheld : foldHeld s x = false) :
    execFoldIdleStart s = .next (foldStart s x) := by
  have hservice : s.opMode = modeService := hmode
  have hgo : [x].filter (fun e => !foldHeld s e) = [x] := by simp [hheld]
  unfold execFoldIdleStart
  dsimp only
  rw [if_neg (by simp [expert_of_basic hl, hidle, hservice]), hall, hgo, if_neg (Nat.lt_irrefl _)]
  rfl

/-! ## Replay (R279, R280) -/

/-- R280: whatever the replay finds in the index, with no band lost it ends in REPLAY 2 and REPLAY_DONE. -/
theorem execJournalReplay_done (hneed : s.jnl.needReplay = true) (hmode : s.rd Reg.sysOpmodeMode = 2)
    (hidle : s.hst.cmds = []) (hgood : s.poisoned (s.rd Reg.jnlIdxBaseAddr) 64 = false) :
    ∃ y, execJournalReplay [] s = .next ((State.wr y Reg.jnlStatusReplay 2).set Reg.jnlIrqStatusReplayDone) := by
  have hservice : s.opMode = modeService := hmode
  unfold execJournalReplay
  rw [if_neg (by simp [hneed, hservice, hidle]), if_neg (by rw [hgood]; exact Bool.false_ne_true)]
  exact ⟨_, rfl⟩

end

/-- Settles O23: each part from the lemma of its command. -/
theorem completeJournal : Obligations.CompleteJournal := by
  refine ⟨?route, ?fold, ?release, ?twinWait, ?foldIdle, ?replay⟩
  case route =>
    intro s e c hr hf hl hm ho hflags hc hlaid
    refine ⟨_, execRoute_direct hf hl hm ho hflags hc hlaid, rfl, ?_⟩
    exact jnlResult_inProg (State.setHst_rings s _) hr 0
  case fold =>
    intro s e x hr hf hl hm ho hx hlive hheld hfold
    refine ⟨_, execFold_folds hf hl hm ho hx hlive hheld, by rw [foldStart_of_not_draining hfold], ?_, ?_⟩
    · rw [jnlResult_rd _ (by decide), foldStart_of_not_draining hfold, State.rd_wr_self _ _ _ rfl]
      rfl
    · exact jnlResult_inProg (foldStart_rings s x) hr 0
  case release =>
    exact fun s e x hf hl hm ho hx hnot => ⟨_, execRelease_frees hf hl hm ho hx hnot, rfl⟩
  case twinWait =>
    intro s tag c hc htwin hdirect hfetched hlaid hnew hl
    exact ⟨_, execTwinWaitExpiry_issues hc htwin hdirect hfetched hlaid hnew hl, rfl, twinIssue_twins s c⟩
  case foldIdle =>
    intro s x hl hmode hidle hall hheld hfold
    refine ⟨_, execFoldIdleStart_folds hl hmode hidle hall hheld, ?_⟩
    rw [foldStart_of_not_draining hfold, State.rd_wr_self _ _ _ rfl]
    exact ⟨rfl, rfl⟩
  case replay =>
    intro s hneed hmode hidle hgood
    obtain ⟨y, hdone⟩ := execJournalReplay_done hneed hmode hidle hgood
    refine ⟨_, hdone, ?_, State.rd_set_self _ _ rfl rfl⟩
    rw [State.set, State.rd_wr_addr_ne _ _ (by decide), State.rd_wr_self _ _ _ rfl]
    rfl

end Sys2Proof.Machine
end

section
/-!
SUPPORT. Proof of the statement on reads, writes and Flush (R259, R268, R298, R301, R305, R306, R311, R342, R346;
spec/09_journal.md, spec/10_host_interface.md): what a live command is, when a write takes its data, what a sector given to
the host changes, then one lemma for each command.
-/

namespace Sys2Proof.Machine

/-! ## Live commands -/

theorem liveCmd_eq_some_iff {s : State} {tag opc : Nat} {c : HostCmd} :
    liveCmd s tag opc = some c ↔ cmdOf s tag = some c ∧ c.opc = opc ∧ c.done = false := by
  unfold liveCmd
  split
  next d hd =>
    rw [Option.ite_none_right_eq_some, hd, Option.some_inj, Bool.not_eq_true']
    constructor
    · rintro ⟨hlive, rfl⟩
      exact ⟨rfl, hlive⟩
    · rintro ⟨rfl, hlive⟩
      exact ⟨hlive, rfl⟩
  next hnone => simp [hnone]

theorem cmdOf_of_cmds {s t : State} (tag : Nat) (h : t.hst.cmds = s.hst.cmds) : cmdOf t tag = cmdOf s tag := by
  rw [cmdOf, h, cmdOf]

/-- The end of a command that stays in the overlap order sends nothing. -/
theorem cmdDone_sent {s : State} {c : HostCmd} (status : Nat) (he : c.ended = false) :
    (cmdDone s c status).hst.sent = s.hst.sent := by
  rw [cmdDone, if_neg (by rw [he]; exact Bool.false_ne_true), intentWrite_hst, setCmd, State.setHst_hst]

/-! ## Writes (R259, R298, R346) -/

section
variable {s : State} {tag : Nat} {c : HostCmd} {data info : List Byte}

/-- R259, R346: at basic level a write with a route and frames to be had stages its data and takes the route. -/
theorem writeTake_stages {direct : Bool} {t : State} (hl : s.rd Reg.jnlModeLevel = 0) (hr : routeOf s c = some direct)
    (ht : stageFrames s c.tag (rangeLines c.ns (writeFirst c) c.nlb) = some t) :
    writeTake s c data info = pmuEvent (writeRoute (stageData t c data info) c direct) 0 5 none none c.nlb := by
  unfold writeTake
  dsimp only
  rw [if_neg (by simp [expert_of_basic hl]), hr, ht]

/-- R298: data that the host delivered and that pass the protection checks are taken. -/
theorem writeRun_of_good (hf : c.fetched = false) (hpi : writePiFail s c data info = none) :
    writeRun s c true data info = writeTake s c data info := by
  unfold writeRun
  rw [hf, hpi]
  rfl

/-- R311: data that the host did not deliver fail the write. -/
theorem writeRun_of_undelivered (hf : c.fetched = false) :
    writeRun s c false data info = cmdFail s c stDataTransfer (writeFirst c) := by
  unfold writeRun
  rw [hf]
  rfl

theorem execWrite_of_live {ok : Bool} (h : liveCmd s tag 0x01 = some c) :
    execWrite tag ok data info s = .next (writeRun s c ok data info) := by
  unfold execWrite
  rw [h]

theorem execZoneAppend_of_live {ok : Bool} (h : liveCmd s tag 0x7D = some c) :
    execZoneAppend tag ok data info s = .next (writeRun s c ok data info) := by
  unfold execZoneAppend
  rw [h]

theorem execWriteZeroes_of_unfetched (h : liveCmd s tag 0x08 = some c) (hf : c.fetched = false) :
    execWriteZeroes tag s = .next (writeTake s c [] []) := by
  unfold execWriteZeroes
  rw [h]
  dsimp only
  rw [if_neg (by rw [hf]; exact Bool.false_ne_true)]

end

/-! ## Reads (R305, R306, R311, R342) -/

section
variable {s : State} {tag lba : Nat} {c : HostCmd} {user : List Byte}

/-- The sector is to be had for the host: a good hit, or zeros. -/
def readHas (s : State) (c : HostCmd) (lba : Nat) (user : List Byte) : Prop :=
  (∃ pi, readFind s c lba = .good user pi) ∨ (readFind s c lba = .zeros ∧ user = List.replicate 4096 0)

theorem pmuEvent_hst (s : State) (cls ev : Nat) (inst addr : Option Nat) (n : Nat) :
    (pmuEvent s cls ev inst addr n).hst = s.hst :=
  (pmuEvent_keeps (.refl _) (.refl _ s)).parts .hst (by decide)

theorem readHit_hst (s : State) (ns lba : Nat) : (readHit s ns lba).hst = s.hst :=
  (readHit_keeps (.refl _) (.refl _ s)).parts .hst (by decide)

theorem formatOf_of_hst {t : State} (ns : Nat) (h : t.hst = s.hst) : formatOf t ns = formatOf s ns := by
  rw [formatOf, h, formatOf]

theorem setCmd_hst_of_hst {t : State} (c : HostCmd) (h : t.hst = s.hst) : (setCmd t c).hst = (setCmd s c).hst := by
  rw [setCmd, setCmd, State.setHst_hst, State.setHst_hst, h]

/-- R298, R342: a sector without metadata that is to be had reaches the host whole and unchecked, and counts as given. -/
theorem readSector_gives (hc : cmdOf s tag = some c) (hd : c.done = false) (hnew : lba ∉ c.given)
    (hhas : readHas s c lba user) (hf : (formatOf s c.ns).lbaf = 0) :
    (readSector s tag lba).hst.cmds = (setCmd s { c with given := c.given ++ [lba] }).hst.cmds ∧
      (readSector s tag lba).hst.sent = s.hst.sent ++ user := by
  unfold readSector
  rw [hc]
  dsimp only
  rw [if_neg (by simp [hd, hnew])]
  rcases hhas with ⟨pi, hgood⟩ | ⟨hzeros, rfl⟩
  · have hformat := (congrArg NsFormat.lbaf (formatOf_of_hst c.ns (readHit_hst s c.ns lba))).trans hf
    rw [hgood]
    dsimp only
    rw [if_pos hformat, if_pos (.inl hformat)]
    dsimp only
    rw [pmuEvent_hst, State.setHst_hst, setCmd_hst_of_hst _ (readHit_hst s c.ns lba), List.append_nil, setCmd,
      State.setHst_hst]
    exact ⟨rfl, rfl⟩
  · rw [hzeros]
    dsimp only
    rw [if_pos hf, if_pos (.inl hf)]
    dsimp only
    rw [pmuEvent_hst, State.setHst_hst, List.append_nil]
    exact ⟨rfl, rfl⟩

end

section
variable {s : State} {tag : Nat} {c : HostCmd}

/-- A read starts with nothing sent. -/
def readFresh (s : State) : State := s.setHst { s.hst with sent := [] }

/-- A begun read of one sector is DONE with success once that sector is given (R306). -/
theorem execRead_of_oneSector {d : HostCmd} (h : liveCmd s tag 0x02 = some c) (hb : c.begun = true) (hf : c.fetched = true)
    (hn : c.nlb = 1) (hd : liveCmd (readSector (readFresh s) tag c.slba) tag 0x02 = some d)
    (hall : d.nlb ≤ d.given.length) :
    execRead tag true s = .next (cmdDone (readSector (readFresh s) tag c.slba) d 0) := by
  have hone (y : State) : (y.each ((List.range 1).map fun i => c.slba + i) fun s lba => readSector s tag lba) =
      readSector y tag c.slba := rfl
  simp only [execRead, h, hb, hf, hn, Bool.not_true, Bool.false_eq_true, if_false, if_true, hone]
  rw [readFresh] at hd ⊢
  rw [hd]
  exact congrArg Host.Outcome.next (if_pos hall)

theorem execRead_of_failedTransfer (h : liveCmd s tag 0x02 = some c) (hb : c.begun = true) :
    execRead tag false s = .next (cmdFail s c stDataTransfer c.slba) := by
  simp only [execRead, h, hb, Bool.not_true, Bool.not_false, Bool.false_eq_true, if_false, if_true]

/-- What the host has of a read of one sector that is to be had: the sector's bytes, and the command DONE. -/
theorem oneSectorRead_done {user : List Byte} (h : liveCmd s tag 0x02 = some c) (hb : c.begun = true)
    (hf : c.fetched = true) (he : c.ended = false) (hn : c.nlb = 1) (hg : c.given = []) (hhas : readHas s c c.slba user)
    (hformat : (formatOf s c.ns).lbaf = 0) :
    ∃ t, execRead tag true s = .next t ∧ t.hst.sent = user ∧
      cmdOf t tag = some { c with given := [c.slba], status := some 0, done := true } := by
  obtain ⟨hc, hopc, hd⟩ := liveCmd_eq_some_iff.mp h
  obtain ⟨hcmds, hsent⟩ := readSector_gives (s := readFresh s) hc hd (by simp [hg]) hhas hformat
  rw [hg, List.nil_append] at hcmds
  have hgiven : cmdOf (readSector (readFresh s) tag c.slba) tag = some { c with given := [c.slba] } := by
    obtain rfl := tag_of_cmdOf hc
    rw [cmdOf_of_cmds _ hcmds]
    exact cmdOf_setCmd_self (d := { c with given := [c.slba] }) hc
  have hlive := liveCmd_eq_some_iff.mpr ⟨hgiven, hopc, hd⟩
  refine ⟨_, execRead_of_oneSector h hb hf hn hlive hn.le, ?_, cmdOf_cmdDone 0 hgiven he⟩
  exact (cmdDone_sent (c := { c with given := [c.slba] }) 0 he).trans hsent

end

/-! ## Flush (R268) -/

/-- R268: with no earlier write of its namespace in the overlap order, a Flush has nothing to wait for. -/
theorem execFlush_done {s : State} {tag : Nat} {c : HostCmd} (h : liveCmd s tag 0x00 = some c) (hb : c.begun = true)
    (hw : (earlier s.hst.cmds tag).any (fun e => e.isWrite && e.ns == c.ns) = false) :
    execFlush tag s = .next (cmdDone s c 0) := by
  simp only [execFlush, h, hb, hw, Bool.not_true, Bool.or_false, Bool.false_eq_true, if_false]

/-- Settles O30: each part from the lemma of its command. -/
theorem completeData : Obligations.CompleteData := by
  refine ⟨?write, ?writeFails, ?zoneAppend, ?writeZeroes, ?read, ?readFails, ?flush⟩
  case write =>
    intro s tag c data info direct t h hf hpi hl hr ht
    refine ⟨_, execWrite_of_live h, ?_⟩
    rw [writeRun_of_good hf hpi, writeTake_stages hl hr ht]
  case writeFails =>
    exact fun s tag c data info h hf => ⟨_, execWrite_of_live h, writeRun_of_undelivered hf⟩
  case zoneAppend =>
    intro s tag c data info direct t h hf hpi hl hr ht
    refine ⟨_, execZoneAppend_of_live h, ?_⟩
    rw [writeRun_of_good hf hpi, writeTake_stages hl hr ht]
  case writeZeroes =>
    exact fun s tag c direct t h hf hl hr ht => ⟨_, execWriteZeroes_of_unfetched h hf, writeTake_stages hl hr ht⟩
  case read =>
    intro s tag c user pi h hb hf he hn hg hhas hformat
    exact oneSectorRead_done h hb hf he hn hg (hhas.imp_left fun hgood => ⟨pi, hgood⟩) hformat
  case readFails =>
    exact fun s tag c h hb => ⟨_, execRead_of_failedTransfer h hb, rfl⟩
  case flush =>
    exact fun s tag c h hb he hw => ⟨_, execFlush_done h hb hw, cmdOf_cmdDone 0 (cmdOf_of_liveCmd h) he⟩

end Sys2Proof.Machine
end

section
/-!
SUPPORT. Proof of the statement on zone commands with Select All (R301, R302; spec/10_host_interface.md): what a zone action
with Select All comes to is said once, whatever the action.
-/

namespace Sys2Proof.Machine

section
variable {s : State} {tag : Nat} {c : HostCmd} (h : liveCmd s tag 0x79 = some c) (hb : c.begun = true)
  (hs : c.selectAll = true)
include h hb hs

/-- R302: with Select All a begun Zone Management Send acts on every listed zone whose state its action names. -/
theorem zoneAct_of_selectAll {action : Nat} {states : Nat → Bool} {act : State → Nat → Nat → Option Nat × State}
    (ha : c.zoneAction = action) :
    zoneAct s tag action states act =
      cmdDone (s.each ((zonesListed s c.ns).filter fun z => states (zoneState s c.ns z)) fun s z => (act s c.ns z).2) c 0 := by
  unfold zoneAct
  rw [h]
  dsimp only
  rw [if_neg (by simp [hb, ha]), if_pos hs]

/-- Finish with Select All waits for no seal (R112). -/
theorem execZoneFinish_of_selectAll (ha : c.zoneAction = 2) :
    execZoneFinish tag s = .next (zoneAct s tag 2 zoneActive zoneFinish) := by
  unfold execZoneFinish
  rw [h]
  dsimp only
  rw [if_neg (by simp [hb, ha]), if_neg (by simp [hs])]

end

/-- Settles O32: every action from `zoneAct_of_selectAll`. -/
theorem completeZonesAll : Obligations.CompleteZonesAll := by
  refine ⟨?close, ?finish, ?openZone, ?reset, ?offline⟩
  case finish =>
    exact fun s tag c h hb ha hs => ⟨_, execZoneFinish_of_selectAll h hb hs ha, zoneAct_of_selectAll h hb hs ha⟩
  case close | openZone | reset | offline =>
    exact fun s tag c h hb ha hs => ⟨_, rfl, zoneAct_of_selectAll h hb hs ha⟩

end Sys2Proof.Machine
end

section
/-!
SUPPORT. Proof of the statement on queue administration, Identify and asynchronous events (R287, R290, R294, R298, R310;
spec/10_host_interface.md): an admin command of an enabled controller runs in SERVICE, then one lemma for each command.
-/

namespace Sys2Proof.Machine

/-- R310: a submission queue from which nothing more is fetched. -/
def sqClosed (s : State) (q : SubQ) : State := sqPut s { q with tail := q.head }

/-! ## Admin commands in SERVICE (R39) -/

section
variable {s : State} {c : Ctrl} {fn : Nat} (hc : ctrlOf s fn = some c) (hm : s.rd Reg.sysOpmodeMode = 2)

include hm in
/-- R39: in SERVICE the control cores serve admin commands. -/
theorem adminOpen_of_service : adminOpen s = true := by
  have hservice : s.opMode = modeService := hm
  rw [adminOpen, hservice]
  rfl

include hc hm

/-- R40, R294: in SERVICE a command that is not marked PF runs for its controller. -/
theorem adminRun_of_service {inSafe : Bool} {run : Ctrl → State} : adminRun s fn inSafe false run = run c := by
  have hservice : s.opMode = modeService := hm
  unfold adminRun
  rw [hc]
  dsimp only
  rw [adminOpen_of_service hm, hservice]
  rfl

/-! ## Queues (R290, R310) -/

theorem execCreateIoCq_adds {qid base entries vector : Nat} {ien : Bool} (h1 : 1 ≤ qid)
    (hgrant : qid ≤ min c.cqGrant (qidLimit fn)) (hfree : cqFind s fn qid = none) (h2 : 2 ≤ entries)
    (hmax : entries ≤ s.sim.cfg.maxQEntries) (hv : vector < vectorLimit fn) :
    execCreateIoCq fn qid base entries vector ien s =
      .next (adminReply (s.setHst { s.hst with
        cqs := s.hst.cqs ++ [{
          fn, qid, base, size := entries, vector, ien, head := 0, tail := 0, phase := true, pend := [], agg := 0 }] }) fn 0 0
        []) := by
  have hid : ¬ (qid = 0 ∨ min c.cqGrant (qidLimit fn) < qid ∨ (cqFind s fn qid).isSome = true) := by
    rw [hfree]
    simp only [Option.isSome_none, Bool.false_eq_true, or_false]
    omega
  unfold execCreateIoCq
  rw [adminRun_of_service hc hm, if_neg hid, if_neg (by omega), if_neg hv.not_ge]

theorem execCreateIoSq_adds {qid base entries cq prio : Nat} {q : CompQ} (h1 : 1 ≤ qid)
    (hgrant : qid ≤ min c.sqGrant (qidLimit fn)) (hfree : sqFind s fn qid = none) (h2 : 2 ≤ entries)
    (hmax : entries ≤ s.sim.cfg.maxQEntries) (h0 : cq ≠ 0) (hq : cqFind s fn cq = some q) :
    execCreateIoSq fn qid base entries cq prio s =
      .next (adminReply (s.setHst { s.hst with
        sqs := s.hst.sqs ++ [{ fn, qid, base, size := entries, cq, prio, head := 0, tail := 0 }] }) fn 0 0 []) := by
  have hid : ¬ (qid = 0 ∨ min c.sqGrant (qidLimit fn) < qid ∨ (sqFind s fn qid).isSome = true) := by
    rw [hfree]
    simp only [Option.isSome_none, Bool.false_eq_true, or_false]
    omega
  unfold execCreateIoSq
  rw [adminRun_of_service hc hm, if_neg hid, if_neg (by omega), if_neg (by simp [h0, hq])]

/-- R310: with nothing outstanding no command of the queue ends as it is deleted, and the Delete waits for none. -/
theorem execDeleteIoSq_removes {qid : Nat} {q : SubQ} (hq : sqFind s fn qid = some q) (h0 : qid ≠ 0)
    (hidle : s.hst.cmds = []) :
    execDeleteIoSq fn qid s = .next (adminReply ((sqClosed s q).setHst { (sqClosed s q).hst with
      sqs := (sqClosed s q).hst.sqs.filter fun x => !(x.fn == fn && x.qid == qid) }) fn 0 0 []) := by
  have hidle' : (sqClosed s q).hst.cmds = [] := hidle
  have hwaits : ((sqClosed s q).hst.cmds.any fun c => c.fn == fn && c.sqid == qid) = false := by rw [hidle']; rfl
  have hdrop : sqDrop (sqClosed s q) fn qid = sqClosed s q := by rw [sqDrop, hidle']; rfl
  unfold execDeleteIoSq
  rw [adminRun_of_service hc hm, hq]
  dsimp only
  rw [if_neg h0, ← sqClosed, hdrop, hwaits, if_neg Bool.false_ne_true]

theorem execDeleteIoCq_removes {qid : Nat} {q : CompQ} (h0 : qid ≠ 0) (hq : cqFind s fn qid = some q)
    (hunused : (s.hst.sqs.any fun x => x.fn == fn && x.cq == qid) = false) :
    execDeleteIoCq fn qid s =
      .next (adminReply (pendShow (s.setHst { s.hst with
        cqs := s.hst.cqs.filter fun x => !(x.fn == fn && x.qid == qid) })) fn 0 0 []) := by
  unfold execDeleteIoCq
  rw [adminRun_of_service hc hm, if_neg (by simp [h0, hq]), hunused, if_neg Bool.false_ne_true]

/-! ## Identify, Get Features and events (R294, R295) -/

theorem execIdentify_activeNamespaces {ns csi : Nat} :
    execIdentify fn 0x02 ns csi s = .next (adminReply s c.fn 0 0 (identifyList s c ns fun _ => true)) := by
  unfold execIdentify
  rw [adminRun_of_service hc hm]
  rfl

theorem execGetFeatures_powerState {value : Nat} :
    execGetFeatures fn 0x02 0 value s = .next (adminReply s c.fn 0 s.hst.ps []) := by
  unfold execGetFeatures
  rw [adminRun_of_service hc hm]
  rfl

end

/-! ## What a queue or a controller reads after its change -/

/-- What a filter takes out of a list is not found there. -/
theorem find?_filter_not {α : Type} (p : α → Bool) (l : List α) : (l.filter fun x => !p x).find? p = none := by
  simp [List.find?_eq_none]

/-- Where `p` finds something, it finds what replaces it. -/
theorem find?_map_replace {α : Type} {p : α → Bool} {P : α → Prop} [DecidablePred P] {l : List α} {a b : α}
    (hp : ∀ x, p x = true ↔ P x) (hb : P b) (h : l.find? p = some a) :
    (l.map fun x => if P x then b else x).find? p = some b := by
  have hsame : (p ∘ fun x => if P x then b else x) = p := by
    funext x
    by_cases hx : P x
    · simp [hx, (hp b).mpr hb, (hp x).mpr hx]
    · simp [hx]
  rw [List.find?_map, hsame, h, Option.map_some, if_pos ((hp a).mp (List.find?_some h))]

theorem fn_of_ctrlOf {s : State} {fn : Nat} {c : Ctrl} (h : ctrlOf s fn = some c) : c.fn = fn :=
  beq_iff_eq.mp (List.find?_some (p := fun x : Ctrl => x.fn == fn) h)

/-- A replaced controller is the one of its function, where one was enabled before. -/
theorem ctrlOf_setCtrl_self {s : State} {c d : Ctrl} (h : ctrlOf s d.fn = some c) : ctrlOf (setCtrl s d) d.fn = some d :=
  find?_map_replace (P := fun x : Ctrl => x.fn = d.fn) (fun _ => beq_iff_eq) rfl h

/-- With no event queued, no request is answered. -/
theorem aerPump_of_no_events {s : State} {fn : Nat} {c : Ctrl} (hc : ctrlOf s fn = some c) (he : c.events = [])
    (fuel : Nat) : aerPump s fn fuel = s := by
  cases fuel with
  | zero => rfl
  | succ fuel =>
    unfold aerPump
    rw [hc]
    dsimp only
    rw [he]
    cases c.aers <;> rfl

/-- R294: with room for it and nothing to report, a request is held. -/
theorem execAsynchronousEventRequest_holds {s : State} {fn cid : Nat} {c : Ctrl} (hc : ctrlOf s fn = some c)
    (hm : s.rd Reg.sysOpmodeMode = 2) (hroom : c.aers.length < 8) (he : c.events = []) :
    execAsynchronousEventRequest fn cid s = .next (setCtrl s { c with aers := c.aers ++ [cid] }) := by
  obtain rfl := fn_of_ctrlOf hc
  have hheld := ctrlOf_setCtrl_self (d := { c with aers := c.aers ++ [cid] }) hc
  unfold execAsynchronousEventRequest
  rw [adminRun_of_service hc hm, if_neg hroom.not_ge, aerPump_of_no_events hheld he]

/-- Settles O27: each part from the lemma of its command. -/
theorem completeQueueAdmin : Obligations.CompleteQueueAdmin := by
  refine ⟨?createCq, ?createSq, ?deleteSq, ?deleteCq, ?identify, ?getFeatures, ?eventRequest⟩
  case createCq =>
    intro s c fn qid base entries vector ien hc hm h1 hgrant hfree h2 hmax hv
    exact ⟨_, execCreateIoCq_adds hc hm h1 hgrant hfree h2 hmax hv, rfl, List.map_append⟩
  case createSq =>
    intro s c q fn qid base entries cq prio hc hm h1 hgrant hfree h2 hmax h0 hq
    exact ⟨_, execCreateIoSq_adds hc hm h1 hgrant hfree h2 hmax h0 hq, rfl, rfl⟩
  case deleteSq =>
    intro s c q fn qid hc hm hq h0 hidle
    exact ⟨_, execDeleteIoSq_removes hc hm hq h0 hidle, rfl, find?_filter_not _ _⟩
  case deleteCq =>
    intro s c q fn qid hc hm h0 hq hunused
    exact ⟨_, execDeleteIoCq_removes hc hm h0 hq hunused, rfl, find?_filter_not _ _⟩
  case identify => exact fun s c fn ns csi hc hm => ⟨_, execIdentify_activeNamespaces hc hm, rfl⟩
  case getFeatures => exact fun s c fn value hc hm => ⟨_, execGetFeatures_powerState hc hm, rfl⟩
  case eventRequest =>
    intro s c fn cid hc hm hroom he
    refine ⟨_, execAsynchronousEventRequest_holds hc hm hroom he, ?_⟩
    obtain rfl := fn_of_ctrlOf hc
    exact ctrlOf_setCtrl_self (d := { c with aers := c.aers ++ [cid] }) hc

end Sys2Proof.Machine
end

section
/-!
SUPPORT. Proof of the statement on links, doorbells and the admin inbox (R286, R288, R293, R308, R309, R372;
spec/10_host_interface.md): what a link's fields, a queue's shadow and a completion's entry show after their change, then one
lemma for each command.
-/

namespace Sys2Proof.Machine

/-! ## Links (R286) -/

section
variable {s : State}

/-- A port whose lanes carry 1, 2 or 4 is up, and its width is its own code. -/
theorem linkSet_zero_of_width {width : Nat} (hw : width = 1 ∨ width = 2 ∨ width = 4) (speed : Nat) :
    linkSet s 0 width speed =
      (((s.wr Reg.hstStatusP0Up 1).wr Reg.hstStatusP0Width width).wr Reg.hstStatusP0Speed speed).set
        Reg.hstIrqStatusLinkChg := by
  rcases hw with rfl | rfl | rfl <;> rfl

theorem linkSet_zero_shows {width speed : Nat} (hw : width = 1 ∨ width = 2 ∨ width = 4) (hs : speed ≤ 4) :
    (linkSet s 0 width speed).rd Reg.hstStatusP0Up = 1 ∧ (linkSet s 0 width speed).rd Reg.hstStatusP0Width = width ∧
      (linkSet s 0 width speed).rd Reg.hstStatusP0Speed = speed ∧
      (linkSet s 0 width speed).rd Reg.hstIrqStatusLinkChg = 1 := by
  have hwidth : width < 2 ^ Reg.hstStatusP0Width.width := by rcases hw with rfl | rfl | rfl <;> decide
  have hspeed : speed < 2 ^ Reg.hstStatusP0Speed.width := Nat.lt_of_le_of_lt hs (by decide)
  rw [linkSet_zero_of_width hw]
  refine ⟨?_, ?_, ?_, State.rd_set_self _ _ rfl rfl⟩ <;> rw [State.set, State.rd_wr_addr_ne _ _ (by decide)]
  · rw [State.rd_wr_other _ _ _ _ (by decide), State.rd_wr_other _ _ _ _ (by decide), State.rd_wr_self _ _ _ rfl]
    rfl
  · rw [State.rd_wr_other _ _ _ _ (by decide), State.rd_wr_self _ _ _ rfl, Nat.mod_eq_of_lt hwidth]
  · rw [State.rd_wr_self _ _ _ rfl, Nat.mod_eq_of_lt hspeed]

theorem execPcieLinkUp_links {width speed : Nat} (hw : width = 1 ∨ width = 2 ∨ width = 4)
    (hwide : width ≤ widestWidth s 0) (h1 : 1 ≤ speed) (h4 : speed ≤ 4) (hm : s.rd Reg.sysOpmodeMode ≠ 1)
    (hp : s.rd Reg.rstStatusPerst = 0) (hb : s.boot ≠ .por) :
    execPcieLinkUp 0 width speed s = .next (linkSet s 0 width speed) := by
  unfold execPcieLinkUp
  refine if_neg ?_
  simp only [not_or]
  exact ⟨by simp [bit], by omega, hwide.not_gt, by omega, by omega, h4.not_gt, hm, by simp [State.flag_of_rd_zero hp], hb⟩

/-- R286: a failed lane, excluded and reported. -/
def laneExcluded (s : State) (lane : Nat) : State :=
  (s.wr Reg.hstStatusLanesDown (maskSet (s.rd Reg.hstStatusLanesDown) lane)).set Reg.hstIrqStatusLaneLost

theorem laneExcluded_shows (s : State) (lane : Nat) :
    (laneExcluded s lane).rd Reg.hstStatusLanesDown = maskSet (s.rd Reg.hstStatusLanesDown) lane % 16 ∧
      (laneExcluded s lane).rd Reg.hstIrqStatusLaneLost = 1 := by
  refine ⟨?_, State.rd_set_self _ _ rfl rfl⟩
  rw [laneExcluded, State.set, State.rd_wr_addr_ne _ _ (by decide), State.rd_wr_self _ _ _ rfl]
  rfl

/-- What follows the exclusion of a lane: the interruption's record, and the link trained again (R286, R372). -/
def laneRetrainFoot : Foot := .union [⟨[Reg.hstCounts1Retrains], [], false⟩, containedIntFoot, linkSetFoot]

theorem execPcieLaneFail_excludes {lane : Nat} (int : Nat) (hl : lane < 4) (hp : s.present (bitLane lane) = true)
    (hd : (s.rd Reg.hstStatusLanesDown).testBit lane = false) :
    ∃ t, execPcieLaneFail lane int s = .next t ∧ Keeps laneRetrainFoot (laneExcluded s lane) t := by
  have hrecord := containedInt_keeps (source := srcHst) (inst := lanePort s lane) (code := 0x0051) (addr := lane)
    (int := int) (W := laneRetrainFoot) (Foot.le_of (by decide +kernel)) (.refl _ (laneExcluded s lane))
  unfold execPcieLaneFail
  rw [if_neg (by simp [hp, hd, hl])]
  dsimp only
  split
  · exact ⟨_, rfl, hrecord⟩
  · exact ⟨_, rfl, linkSet_keeps (Foot.le_of (by decide +kernel)) (State.bump_keeps rfl (by decide +kernel) hrecord)⟩

end

/-! ## Doorbells (R288, R309) -/

section
variable {s : State} {fn qid value : Nat}

theorem sqFind_sqPut_self {p q : SubQ} (h : sqFind s q.fn q.qid = some p) : sqFind (sqPut s q) q.fn q.qid = some q :=
  find?_map_replace (P := fun x : SubQ => x.fn = q.fn ∧ x.qid = q.qid) (fun _ => by simp) ⟨rfl, rfl⟩ h

theorem cqFind_cqPut_self {p q : CompQ} (h : cqFind s q.fn q.qid = some p) : cqFind (cqPut s q) q.fn q.qid = some q :=
  find?_map_replace (P := fun x : CompQ => x.fn = q.fn ∧ x.qid = q.qid) (fun _ => by simp) ⟨rfl, rfl⟩ h

theorem key_of_sqFind {q : SubQ} (h : sqFind s fn qid = some q) : q.fn = fn ∧ q.qid = qid := by
  simpa using List.find?_some (p := fun x : SubQ => x.fn == fn && x.qid == qid) h

theorem key_of_cqFind {q : CompQ} (h : cqFind s fn qid = some q) : q.fn = fn ∧ q.qid = qid := by
  simpa using List.find?_some (p := fun x : CompQ => x.fn == fn && x.qid == qid) h

theorem execSqTailDoorbell_sets {q : SubQ} (hq : sqFind s fn qid = some q) (hv : value < q.size) :
    execSqTailDoorbell fn qid value s = .next (sqPut s { q with tail := value }) := by
  unfold execSqTailDoorbell
  rw [hq]
  exact if_pos hv

/-- R309: with nothing pending, a head that moves drains nothing. -/
theorem execCqHeadDoorbell_sets {q : CompQ} (hq : cqFind s fn qid = some q) (hv : value < q.size) (hp : q.pend = []) :
    execCqHeadDoorbell fn qid value s = .next (pendShow (cqPut s { q with head := value })) := by
  unfold execCqHeadDoorbell
  rw [hq]
  dsimp only
  rw [if_pos hv, hp]
  rfl

end

/-! ## The admin inbox (R293) -/

section
variable {s : State} {data : Word}

theorem execAdminInboxConsume_moves (hv : fieldOf data 0 10 < s.rd Reg.hstAdmRingEntries)
    (hpast : ringDist (s.rd Reg.hstAdmRingEntries) (s.rd Reg.hstAdmConsIdx) (fieldOf data 0 10) ≤
      ringDist (s.rd Reg.hstAdmRingEntries) (s.rd Reg.hstAdmConsIdx) (s.rd Reg.hstAdmProdIdx)) :
    execAdminInboxConsume data s = .next ((s.wr Reg.hstAdmConsIdx (fieldOf data 0 10)).answer 0) := by
  have hring : s.rd Reg.hstAdmRingEntries ≠ 0 := by omega
  unfold execAdminInboxConsume inboxSize
  dsimp only
  rw [if_pos (by simp [hring, hv, hpast])]

/-- R309: a queue with room and nothing pending takes the entry of a completion that holds no tag at once. -/
theorem cqReady_of_room {cq : Nat} {q : CompQ} {e : Cqe} (hq : cqFind s e.fn cq = some q) (hfull : q.full = false)
    (hp : q.pend = []) (ht : e.tag = none) : cqReady s cq e = cqWrite s q e := by
  unfold cqReady
  rw [hq]
  dsimp only
  rw [if_pos (by simp [hfull, hp]), ht]

theorem cqWrite_sent (s : State) (q : CompQ) (e : Cqe) : (cqWrite s q e).hst.sent = cqeBytes s e q.phase := by
  rw [cqWrite, pmuEvent_hst]
  rfl

theorem cqWrite_admin (s : State) (q : CompQ) (e : Cqe) : (cqWrite s q e).hst.admin = s.hst.admin := by
  rw [cqWrite, pmuEvent_hst]
  rfl

/-- The completion held in HST_ADM_CPL0 to HST_ADM_CPL2. -/
def heldCompletion (s : State) : Cqe :=
  { fn := s.rd Reg.hstAdmCpl1Func, sqid := 0, cid := s.rd Reg.hstAdmCpl1Cid, status := s.rd Reg.hstAdmCpl2Status,
    dw0 := s.rd Reg.hstAdmCpl0Dw0, dw1 := 0, tag := none }

/-- The status that the write of HST_ADM_CPL2 carries, taken. -/
def statusTaken (s : State) (data : Word) : State := s.wr Reg.hstAdmCpl2Status (fieldOf data 0 15)

theorem heldCompletion_statusTaken (s : State) (data : Word) :
    heldCompletion (statusTaken s data) = { heldCompletion s with status := fieldOf data 0 15 } := by
  have hstatus : (statusTaken s data).rd Reg.hstAdmCpl2Status = fieldOf data 0 15 :=
    (State.rd_wr_self _ _ _ rfl).trans (Nat.mod_eq_of_lt (fieldOf_lt _ _ _))
  have hother {f : Fld} (hf : f.addr ≠ Reg.hstAdmCpl2Status.addr) : (statusTaken s data).rd f = s.rd f :=
    State.rd_wr_addr_ne s _ hf
  unfold heldCompletion
  rw [hstatus, hother (by decide), hother (by decide), hother (by decide)]

/-- R293: GO posts the held completion where the admin queue has room, and its command leaves the fetched ones. -/
theorem execAdminCompletionGo_posts {q : CompQ} {e : Cqe} (hgo : data.getLsbD 31 = true)
    (he : heldCompletion (statusTaken s data) = e) (hq : cqFind s e.fn 0 = some q) (hfull : q.full = false)
    (hp : q.pend = []) :
    execAdminCompletionGo data s = .next (((cqWrite (statusTaken s data) q e).setHst
      { (cqWrite (statusTaken s data) q e).hst with
        admin := (cqWrite (statusTaken s data) q e).hst.admin.filter fun a => a != (e.fn, e.cid) }).answer 0) := by
  subst he
  have hready := cqReady_of_room (s := statusTaken s data) hq hfull hp rfl
  have hroom : ((cqFind (statusTaken s data) (heldCompletion (statusTaken s data)).fn 0).any
      fun q => q.full || !q.pend.isEmpty) = false := by
    rw [show cqFind (statusTaken s data) (heldCompletion (statusTaken s data)).fn 0 = some q from hq]
    simp [hfull, hp]
  unfold heldCompletion statusTaken at *
  unfold execAdminCompletionGo
  dsimp only at *
  rw [if_neg (by simp [hgo]), hroom, if_neg Bool.false_ne_true, hready]

end

/-! ## Coalescing (R295, R308) -/

theorem execAggregationTimeExpiry_signals {s : State} {fn vector : Nat}
    (h : (s.hst.cqs.any fun q => q.fn == fn && q.vector == vector && q.agg != 0 && q.ien) = true) :
    execAggregationTimeExpiry fn vector s = .next (s.setHst { s.hst with
      cqs := s.hst.cqs.map fun q => if q.fn = fn ∧ q.vector = vector then { q with agg := 0 } else q
      signalled := some (fn, vector) }) := by
  have hany : ((s.hst.cqs.filter fun q => q.fn == fn && q.vector == vector && q.agg != 0).any fun q => q.ien) = true := by
    rw [List.any_filter]
    exact h
  have hheld : ¬ (s.hst.cqs.filter fun q => q.fn == fn && q.vector == vector && q.agg != 0).isEmpty = true := by
    intro hempty
    rw [List.isEmpty_iff.mp hempty] at hany
    exact Bool.false_ne_true hany
  unfold execAggregationTimeExpiry
  dsimp only
  rw [if_neg hheld, if_pos hany]

/-- Settles O24: each part from the lemma of its command. -/
theorem completeLink : Obligations.CompleteLink := by
  refine ⟨?linkUp, ?laneFail, ?sqTail, ?cqHead, ?consume, ?go, ?aggregation⟩
  case linkUp =>
    exact fun s width speed hw hwide h1 h4 hm hp hb =>
      ⟨_, execPcieLinkUp_links hw hwide h1 h4 hm hp hb, linkSet_zero_shows hw h4⟩
  case laneFail =>
    intro s lane int hl hp hd
    obtain ⟨t, hfail, hkeeps⟩ := execPcieLaneFail_excludes int hl hp hd
    obtain ⟨hdown, hlost⟩ := laneExcluded_shows s lane
    exact ⟨t, hfail, (hkeeps.rd (by decide +kernel)).trans hdown, (hkeeps.rd (by decide +kernel)).trans hlost⟩
  case sqTail =>
    intro s fn qid value q hq hv
    obtain ⟨rfl, rfl⟩ := key_of_sqFind hq
    exact ⟨_, execSqTailDoorbell_sets hq hv, sqFind_sqPut_self (q := { q with tail := value }) hq⟩
  case cqHead =>
    intro s fn qid value q hq hv hp
    obtain ⟨rfl, rfl⟩ := key_of_cqFind hq
    exact ⟨_, execCqHeadDoorbell_sets hq hv hp, cqFind_cqPut_self (q := { q with head := value }) hq⟩
  case consume =>
    intro s data hv hpast
    exact ⟨_, execAdminInboxConsume_moves hv hpast, State.rd_wr_self _ _ _ rfl, rfl⟩
  case go =>
    rintro s data q e hgo rfl hq hfull hp
    refine ⟨_, execAdminCompletionGo_posts hgo (heldCompletion_statusTaken s data) hq hfull hp, cqWrite_sent _ _ _, ?_, rfl⟩
    exact congrArg (List.filter _) (cqWrite_admin _ _ _)
  case aggregation => exact fun s fn vector h => ⟨_, execAggregationTimeExpiry_signals h, rfl, rfl⟩

end Sys2Proof.Machine
end

section
/-!
SUPPORT. Proof of the statement on Get Log Page and the sideband management commands (R296, R316, R317, R409, R438, R493,
R512; spec/10_host_interface.md): when the warden runs a command of the interface, then one lemma for each command. What
NVMe-MI leaves to its own standard is as notes/assumptions/13.md has it.
-/

namespace Sys2Proof.Machine

/-! ## Log pages (R296) -/

theorem logPage_of_good {s : State} {fn lid ns off n : Nat} (hpage : pageSupported fn lid = true) (hoff : off % 4 = 0)
    (hsmart : lid = 0x02 → ns = 0xFFFFFFFF) (hzones : lid = 0xBF → nsZoned s ns = true) :
    logPage s fn lid ns off n =
      adminReply (pageRead (pageBytes s lid ns off n).2 lid ns) fn 0 0 (pageBytes s lid ns off n).1 := by
  have hgood : ¬ (off % 4 ≠ 0 ∨ (lid = 0x02 ∧ ns ≠ 0xFFFFFFFF) ∨ (lid = 0xBF ∧ (!nsZoned s ns) = true)) := by
    rintro (h | ⟨hl, hns⟩ | ⟨hl, hz⟩)
    · exact h hoff
    · exact hns (hsmart hl)
    · rw [hzones hl] at hz
      exact Bool.false_ne_true hz
  unfold logPage
  rw [hpage, if_neg (by decide), if_neg hgood]

theorem execGetLogPage_reads {s : State} {c : Ctrl} {fn lid ns off n : Nat} (hc : ctrlOf s fn = some c)
    (hm : s.rd Reg.sysOpmodeMode = 2) (hpage : pageSupported fn lid = true) (hoff : off % 4 = 0)
    (hsmart : lid = 0x02 → ns = 0xFFFFFFFF) (hzones : lid = 0xBF → nsZoned s ns = true) :
    execGetLogPage fn lid ns off n s =
      .next (adminReply (pageRead (pageBytes s lid ns off n).2 lid ns) fn 0 0 (pageBytes s lid ns off n).1) := by
  rw [execGetLogPage, adminRun_of_service hc hm, logPage_of_good hpage hoff hsmart hzones]

/-! ## Sideband management (R316, R317) -/

section
variable {s : State} (ho : miOpen s = true)
include ho

/-- R39: the warden runs a command that it serves in every mode. -/
theorem miRun_always {run : State → State} : miRun s true run = run s := by
  unfold miRun
  rw [if_neg (by simp [ho]), if_neg (by simp)]

/-- R39: outside RECOVERY the warden runs every command. -/
theorem miRun_of_not_recovery {always : Bool} {run : State → State} (hm : s.rd Reg.sysOpmodeMode ≠ 1) :
    miRun s always run = run s := by
  have hmode : s.opMode ≠ modeRecovery := hm
  unfold miRun
  rw [if_neg (by simp [ho]), if_neg (by simp [hmode])]

theorem execMiReadDataStructure_answers {type : Nat} (hm : s.rd Reg.sysOpmodeMode ≠ 1) (ht : type ≤ 4) :
    execMiReadDataStructure type s = .next (miReply (freeBytes s 32).2 miSuccess (freeBytes s 32).1) := by
  rw [execMiReadDataStructure, miRun_of_not_recovery ho hm, if_neg ht.not_gt]

theorem execMiSubsystemHealthPoll_answers (clear : Bool) :
    execMiSubsystemHealthPoll clear s = .next (miReply (freeBytes s 8).2 miSuccess (overlay (freeBytes s 8).1 1
      [BitVec.ofNat 8 (255 - criticalWarning (freeBytes s 8).2), compositeByte (freeBytes s 8).2])) := by
  rw [execMiSubsystemHealthPoll, miRun_always ho]

/-- A poll of one function. -/
theorem execMiControllerHealthPoll_one {first : Nat} (hf : first < 256) :
    execMiControllerHealthPoll first 1 s = .next (miReply (freeBytes s 16).2 miSuccess (overlayAll (freeBytes s 16).1
      [(0, 2, first + 1), (4, 2, s.rd Reg.thmCompositeKelvin), (8, 1, criticalWarning (freeBytes s 16).2)])) := by
  have hone : (((List.range 1).map fun i => first + i).filter fun f => decide (f < 256)) = [first] := by
    simp [hf]
  rw [execMiControllerHealthPoll, miRun_always ho]
  dsimp only
  rw [hone]
  rfl

theorem execMiConfigGet_answers {id : Nat} (hm : s.rd Reg.sysOpmodeMode ≠ 1) (hid : miConfigKnown id = true) :
    execMiConfigGet id s = .next (miReply s miSuccess (leBytes 4 (miConfig s id))) := by
  rw [execMiConfigGet, miRun_of_not_recovery ho hm, if_pos hid]

/-- A frequency or a transmission unit that the interface can take is kept. -/
theorem execMiConfigSet_sets {id value : Nat} (hm : s.rd Reg.sysOpmodeMode ≠ 1)
    (hv : (id = 1 ∧ (value = 1 ∨ value = 2)) ∨ (id = 3 ∧ 64 ≤ value ∧ value ≤ 250)) :
    execMiConfigSet id value s =
      .next (miReply (s.setHst { s.hst with mi := Store.write 0 s.hst.mi id value }) miSuccess []) := by
  have hid : id ≠ 2 := by omega
  rw [execMiConfigSet, miRun_of_not_recovery ho hm]
  dsimp only
  rw [if_neg hid, if_pos]
  rcases hv with ⟨rfl, hfreq⟩ | ⟨rfl, hlow, hhigh⟩
  · simpa using hfreq
  · simp [hlow, hhigh]

/-- R317: a tunnelled command that the interface knows is carried out while the control cores run. -/
theorem execMiTunneledAdmin_runs {fn opc sel ns arg len : Nat} (hr : coresRun s = true)
    (hopc : opc = 0x02 ∨ opc = 0x06 ∨ opc = 0x0A) :
    execMiTunneledAdmin fn opc sel ns arg len s = .next
      (if opc = 0x02 then logPage (s.setHst { s.hst with miStatus := 0 }) fn sel ns arg len
        else if opc = 0x06 then identify (s.setHst { s.hst with miStatus := 0 }) (miCtrl s fn) sel ns arg
        else getFeatures (s.setHst { s.hst with miStatus := 0 }) (miCtrl s fn) sel arg 0) := by
  rw [execMiTunneledAdmin, miRun_always ho, if_neg (by omega), if_neg (by simp [hr])]
  rfl

/-- R316: at SMBus the status block answers command 0. -/
theorem execMiBasicMgmtCommand_answers (hbus : Store.read 0 s.hst.mi 0 = 0) :
    execMiBasicMgmtCommand 0 s = .next (miReply (freeBytes s 8).2 miSuccess (overlay (freeBytes s 8).1 0
      [6, (freeBytes s 8).1.getD 1 0, BitVec.ofNat 8 (255 - criticalWarning (freeBytes s 8).2),
        compositeByte (freeBytes s 8).2])) := by
  rw [execMiBasicMgmtCommand, if_neg (by simp [ho, hbus])]
  rfl

end

/-- Settles O29: each part from the lemma of its command. -/
theorem completeLogs : Obligations.CompleteLogs := by
  refine ⟨?logPage, ?readStructure, ?subsystemPoll, ?controllerPoll, ?configGet, ?configSetUnit, ?configSetFrequency,
    ?tunnelled, ?basicCommand⟩
  case logPage =>
    intro s c fn lid ns offset len hc hm hpage hoff hsmart hzones
    exact ⟨_, execGetLogPage_reads hc hm hpage hoff hsmart hzones, rfl, rfl⟩
  case readStructure => exact fun s type ho hm ht => ⟨_, execMiReadDataStructure_answers ho hm ht, rfl, rfl⟩
  case subsystemPoll => exact fun s clear ho => ⟨_, execMiSubsystemHealthPoll_answers ho clear, rfl, rfl⟩
  case controllerPoll => exact fun s first ho hf => ⟨_, execMiControllerHealthPoll_one ho hf, rfl, rfl⟩
  case configGet => exact fun s id ho hm hid => ⟨_, execMiConfigGet_answers ho hm hid, rfl, rfl⟩
  case configSetUnit =>
    intro s value ho hm hlow hhigh
    exact ⟨_, execMiConfigSet_sets ho hm (.inr ⟨rfl, hlow, hhigh⟩), rfl, Store.read_write_self 0 s.hst.mi 3 value⟩
  case configSetFrequency =>
    intro s value ho hm hv
    exact ⟨_, execMiConfigSet_sets ho hm (.inl ⟨rfl, hv⟩), rfl, Store.read_write_self 0 s.hst.mi 1 value⟩
  case tunnelled =>
    exact fun s fn opc sel ns arg len ho hr hopc => ⟨_, execMiTunneledAdmin_runs ho hr hopc, rfl⟩
  case basicCommand => exact fun s ho hbus => ⟨_, execMiBasicMgmtCommand_answers ho hbus, rfl, rfl⟩

end Sys2Proof.Machine
end

section
/-!
SUPPORT. Proofs of the statements on work rings (R322 to R324, R330, R332, R333, R337; spec/11_work_rings.md): the fields of one
ring pair beside each other, what a refresh leaves, what an enable takes or refuses, then one lemma for each command.
-/

namespace Sys2Proof.Machine

/-! ## Fields of one element of a register array -/

theorem Fld.width_elem_le (f : Fld) (n : Nat) : (f.elem n).width ≤ f.width := by
  unfold Fld.elem
  dsimp only
  split <;> omega

/-- Fields that share no bit share none in any element of their registers, where the elements lie equally far apart. -/
theorem Fld.disjoint_elem {f g : Fld} (n : Nat) (hs : f.stride = g.stride) (h : f.disjoint g = true) :
    (f.elem n).disjoint (g.elem n) = true := by
  have hf := f.width_elem_le n
  have hg := g.width_elem_le n
  simp only [Fld.disjoint, Bool.or_eq_true, bne_iff_ne, ne_eq, decide_eq_true_eq] at h ⊢
  rcases h with (haddr | hlow) | hhigh
  · refine .inl (.inl fun heq => haddr ?_)
    simpa only [Fld.elem, hs, Nat.add_right_cancel_iff] using heq
  · exact .inl (.inr ((Nat.add_le_add_left hf f.lo).trans hlow))
  · exact .inr ((Nat.add_le_add_left hg g.lo).trans hhigh)

theorem State.rd_wr_elem_other (s : State) {f g : Fld} (n v : Nat) (h : g.stride = f.stride ∧ g.disjoint f = true) :
    (s.wr (f.elem n) v).rd (g.elem n) = s.rd (g.elem n) :=
  State.rd_wr_other s _ _ v (Fld.disjoint_elem n h.1 h.2)

theorem State.rd_wr_elem_self (s : State) {f : Fld} {n : Nat} (v : Nat) (hf : f.fits = true) (hn : n < f.count) :
    (s.wr (f.elem n) v).rd (f.elem n) = v % 2 ^ f.width := by
  rw [State.rd_wr_self s _ v (Fld.fits_elem n hf), Fld.width_elem hn]

theorem Fld.addr_le_elem (f : Fld) (n : Nat) : f.addr ≤ (f.elem n).addr := Nat.le_add_right _ _

/-- A register below the first element of another is none of its elements. -/
theorem Fld.elem_addr_ne {f g : Fld} (n : Nat) (h : f.addr < g.addr) : f.addr ≠ (g.elem n).addr :=
  (h.trans_le (g.addr_le_elem n)).ne

/-- The status register of a sequencer is no register of the rings. -/
theorem rng_addr_ne_bwkStatus {f : Fld} (hf : 0x20100000 ≤ f.addr) {n : Nat} (hn : n ≤ 1) :
    f.addr ≠ (Reg.bwkStatusState.elem n).addr := by
  simp only [Fld.elem, Reg.bwkStatusState]
  omega

/-- A field among those that a list clears reads 0, the others of the list sharing no bit with it. -/
theorem State.rd_each_clr {f : Fld} {n : Nat} (hf : f.fits = true) {l : List Fld}
    (hl : ∀ g ∈ l, g = f ∨ (f.stride = g.stride ∧ f.disjoint g = true)) (s : State) (h : f ∈ l ∨ s.rd (f.elem n) = 0) :
    (s.each l fun s g => s.clr (g.elem n)).rd (f.elem n) = 0 := by
  unfold State.each
  induction l generalizing s with
  | nil => exact h.resolve_left (List.not_mem_nil)
  | cons g l ih =>
    have hclr : g = f → (s.clr (g.elem n)).rd (f.elem n) = 0 := by
      rintro rfl
      exact State.rd_clr_self s _ (Fld.fits_elem n hf)
    refine ih (fun k hk => hl k (List.mem_cons_of_mem _ hk)) (s.clr (g.elem n)) ?_
    rcases hl g List.mem_cons_self with heq | hapart
    · exact .inr (hclr heq)
    · rcases h with h | h
      · exact (List.mem_cons.mp h).symm.imp id fun heq => hclr heq.symm
      · exact .inr ((State.rd_wr_elem_other s n 0 hapart).trans h)

/-! ## Ring sizes (R322) -/

theorem ringSizeValid_iff {v : Nat} : ringSizeValid v = true ↔ ∃ k, 4 ≤ k ∧ k ≤ 16 ∧ v = 2 ^ k := by
  simp only [ringSizeValid, List.any_eq_true, List.mem_range, beq_iff_eq]
  constructor
  · rintro ⟨i, hi, hv⟩
    exact ⟨i + 4, by omega, by omega, hv⟩
  · rintro ⟨k, h4, h16, hv⟩
    exact ⟨k - 4, by omega, by rwa [Nat.sub_add_cancel h4]⟩

theorem ringSizeTaken_two_pow {k : Nat} (h4 : 4 ≤ k) (h16 : k ≤ 16) : ringSizeTaken (2 ^ k) = 2 ^ k :=
  if_pos (ringSizeValid_iff.mpr ⟨k, h4, h16, rfl⟩)

theorem ringSizeTaken_other {v : Nat} (h : ∀ k, 4 ≤ k → k ≤ 16 → v ≠ 2 ^ k) : ringSizeTaken v = 0 := by
  refine if_neg fun hv => ?_
  obtain ⟨k, h4, h16, heq⟩ := ringSizeValid_iff.mp hv
  exact h k h4 h16 heq

/-- A size is taken as it stands, or as 0. -/
theorem ringSizeTaken_of_ne_zero {v : Nat} (h : ringSizeTaken v ≠ 0) : ringSizeTaken v = v := by
  unfold ringSizeTaken at h ⊢
  split
  · rfl
  · next hv => exact absurd (if_neg hv) h

/-! ## Why an enable is refused (R332) -/

section
variable {s : State} {n : Nat}

theorem ringRefusal_range {why : Nat} (h : ringRefusal s n = some why) : 0 < why ∧ why < 16 := by
  unfold ringRefusal at h
  dsimp only at h
  repeat' split at h
  all_goals cases h
  all_goals decide

theorem ringRefusal_of_size_zero (h : ringSizeTaken (s.rd (Reg.rngReqSizeEntries.elem n)) = 0 ∨
    ringSizeTaken (s.rd (Reg.rngResSizeEntries.elem n)) = 0) : ∃ why, ringRefusal s n = some why := by
  unfold ringRefusal
  dsimp only
  split
  · exact ⟨_, rfl⟩
  · split
    · exact ⟨_, rfl⟩
    · next hreq => exact ⟨_, if_pos (h.resolve_left hreq)⟩

/-- Where nothing refuses a pair, both sizes are taken as they stand. -/
theorem ringSizes_of_not_refused (h : ringRefusal s n = none) :
    ringSizeTaken (s.rd (Reg.rngReqSizeEntries.elem n)) = s.rd (Reg.rngReqSizeEntries.elem n) ∧
      ringSizeTaken (s.rd (Reg.rngResSizeEntries.elem n)) = s.rd (Reg.rngResSizeEntries.elem n) := by
  have hsize : ¬ (ringSizeTaken (s.rd (Reg.rngReqSizeEntries.elem n)) = 0 ∨
      ringSizeTaken (s.rd (Reg.rngResSizeEntries.elem n)) = 0) := by
    intro hzero
    obtain ⟨why, hwhy⟩ := ringRefusal_of_size_zero hzero
    exact Option.some_ne_none why (hwhy.symm.trans h)
  obtain ⟨hreq, hres⟩ := not_or.mp hsize
  exact ⟨ringSizeTaken_of_ne_zero hreq, ringSizeTaken_of_ne_zero hres⟩

/-! ## Refresh (R330, R333) -/

/-- A refresh writes the status register of its pair alone. -/
theorem ringRefresh_rd_elem {f : Fld} (hs : f.stride = 64) (ha : f.addr ≠ Reg.rngStatusIdle.addr) :
    (ringRefresh s n).rd (f.elem n) = s.rd (f.elem n) := by
  have hwr (t : State) {g : Fld} (v : Nat) (hg : g.stride = 64 ∧ g.addr = Reg.rngStatusIdle.addr) :
      (t.wr (g.elem n) v).rd (f.elem n) = t.rd (f.elem n) :=
    State.rd_wr_elem_other t n v ⟨hs.trans hg.1.symm, Fld.disjoint_of_addr_ne (hg.2 ▸ ha)⟩
  unfold ringRefresh
  dsimp only
  split
  · rw [hwr _ _ (by decide), hwr _ _ (by decide)]
  · rw [hwr _ _ (by decide), hwr _ _ (by decide), hwr _ _ (by decide)]

/-! ## Enable (R332) -/

/-- What an enable of pair `n` latches. -/
def ringLatched (s : State) (n : Nat) : Ring where
  reqBase := s.rd (Reg.rngReqBaseLoAddr.elem n) * 64 + 2 ^ 32 * s.rd (Reg.rngReqBaseHiAddr.elem n)
  reqSize := ringSizeTaken (s.rd (Reg.rngReqSizeEntries.elem n))
  resBase := s.rd (Reg.rngResBaseLoAddr.elem n) * 64 + 2 ^ 32 * s.rd (Reg.rngResBaseHiAddr.elem n)
  resSize := ringSizeTaken (s.rd (Reg.rngResSizeEntries.elem n))

/-- The fields of a pair that an enable clears. -/
def ringEnableClears : List Fld :=
  [Reg.rngReqProdIdx, Reg.rngReqConsIdx, Reg.rngResProdIdx, Reg.rngResConsIdx, Reg.rngStatusResultOvf, Reg.rngStatusLost,
    Reg.rngStatusStoppedFull]

/-- Pair `n` latched, cleared and enabled; the views of its state not yet refreshed. -/
def ringOpened (s : State) (n : Nat) : State :=
  ((s.setRing n (ringLatched s n)).each ringEnableClears fun s f => s.clr (f.elem n)).set (Reg.rngCtlEnable.elem n)

theorem ringOpened_rings : (ringOpened s n).rings = (s.setRing n (ringLatched s n)).rings := rfl

theorem ringOpened_rd_enable (hn : n < 7) : (ringOpened s n).rd (Reg.rngCtlEnable.elem n) = 1 :=
  State.rd_wr_elem_self _ 1 rfl hn

theorem ringOpened_rd_cleared {f : Fld} (hm : f ∈ ringEnableClears) (hf : f.fits = true) (hs : f.stride = 64)
    (ha : f.addr ≠ Reg.rngCtlEnable.addr)
    (hl : ∀ g ∈ ringEnableClears, g = f ∨ (f.stride = g.stride ∧ f.disjoint g = true)) :
    (ringOpened s n).rd (f.elem n) = 0 :=
  (State.rd_wr_elem_other _ n 1 ⟨hs, Fld.disjoint_of_addr_ne ha⟩).trans (State.rd_each_clr hf hl _ (.inl hm))

/-- A sequencer that is OFF is waiting once its ring is enabled. -/
def sequencerWoken (s : State) (n : Nat) : State :=
  if n ≤ 1 && s.rd (Reg.bwkStatusState.elem n) == 0 then s.wr (Reg.bwkStatusState.elem n) 1 else s

theorem sequencerWoken_rd {f : Fld} (hf : 0x20100000 ≤ f.addr) : (sequencerWoken s n).rd f = s.rd f := by
  unfold sequencerWoken
  split
  · next hseq =>
    have hn : n ≤ 1 := by simpa using (Bool.and_eq_true_iff.mp hseq).1
    exact State.rd_wr_addr_ne s _ (rng_addr_ne_bwkStatus hf hn)
  · rfl

theorem sequencerWoken_rings : (sequencerWoken s n).rings = s.rings := by
  unfold sequencerWoken
  split <;> rfl

theorem execRingEnable_of_not_refused (h0 : s.rd (Reg.rngCtlEnable.elem n) = 0) (h : ringRefusal s n = none) :
    execRingEnable n s = .next ((ringRefresh (sequencerWoken (ringOpened s n) n) n).answer 0) := by
  unfold execRingEnable
  rw [State.flag_of_rd_zero h0, if_neg Bool.false_ne_true, h]
  rfl

/-- A pair that nothing refuses is opened; what follows are its status register and its sequencer's. -/
theorem execRingEnable_opens (h0 : s.rd (Reg.rngCtlEnable.elem n) = 0) (h : ringRefusal s n = none) :
    ∃ t, execRingEnable n s = .next t ∧ t.rings = (ringOpened s n).rings ∧
      ∀ f : Fld, f.stride = 64 → 0x20100000 ≤ f.addr → f.addr ≠ Reg.rngStatusIdle.addr →
        t.rd (f.elem n) = (ringOpened s n).rd (f.elem n) := by
  refine ⟨_, execRingEnable_of_not_refused h0 h, ?_, fun f hs haddr ha => ?_⟩
  · exact ((ringRefresh_keeps (.refl _) (.refl _ _)).parts .rings (by decide)).trans sequencerWoken_rings
  · exact (ringRefresh_rd_elem hs ha).trans (sequencerWoken_rd (haddr.trans (f.addr_le_elem n)))

/-- A pair that is refused shows why, raises REFUSED, and stays as it was. -/
theorem execRingEnable_refuses {why : Nat} (hn : n < 7) (h0 : s.rd (Reg.rngCtlEnable.elem n) = 0)
    (h : ringRefusal s n = some why) :
    ∃ t, execRingEnable n s = .next t ∧ t.rd (Reg.rngCtlEnable.elem n) = 0 ∧ t.rings = s.rings ∧
      t.rd (Reg.rngStatusRefuse.elem n) = why % 16 ∧
      t.rd Reg.rngIrqStatusRefused = maskSet (s.rd Reg.rngIrqStatusRefused) n % 128 := by
  have hirq {f : Fld} (hf : Reg.rngIrqStatusRefused.addr < f.addr) : (f.elem n).addr ≠ Reg.rngIrqStatusRefused.addr :=
    (Fld.elem_addr_ne n hf).symm
  unfold execRingEnable
  rw [State.flag_of_rd_zero h0, if_neg Bool.false_ne_true, h]
  refine ⟨_, rfl, ?_, rfl, ?_, ?_⟩
  · rw [State.answer_rd, State.rd_wr_addr_ne _ _ (hirq (by decide)), State.rd_wr_elem_other s n why (by decide), h0]
  · rw [State.answer_rd, State.rd_wr_addr_ne _ _ (hirq (by decide)), State.rd_wr_elem_self s why rfl hn]
    rfl
  · rw [State.answer_rd, State.rd_wr_self _ _ _ rfl, State.rd_wr_addr_ne s why (Fld.elem_addr_ne n (by decide))]
    rfl

end

/-- A bit set in a mask stands in the mask, cut to a width that holds the bit. -/
theorem testBit_maskSet_mod (m : Nat) {i w : Nat} (h : i < w) : (maskSet m i % 2 ^ w).testBit i = true := by
  rw [Nat.testBit_mod_two_pow, maskSet, Nat.testBit_or, Nat.testBit_two_pow_self, Bool.or_true, Bool.and_true]
  exact decide_eq_true h

/-- Settles O14: a size taken as 0 refuses, and without a refusal neither size is taken as 0. -/
theorem ringSizes : Obligations.RingSizes := by
  intro s n hn hlen h0
  refine ⟨fun k h4 h16 => ringSizeTaken_two_pow h4 h16, fun v hv => ringSizeTaken_other hv, fun hzero => ?refused,
    fun hnone => ?taken⟩
  case refused =>
    obtain ⟨why, hwhy⟩ := ringRefusal_of_size_zero hzero
    obtain ⟨hpos, hlt⟩ := ringRefusal_range hwhy
    obtain ⟨t, ht, hctl, hrings, hrefuse, hirq⟩ := execRingEnable_refuses hn h0 hwhy
    refine ⟨t, ht, hctl, hrings, ?_, ?_⟩
    · rw [hrefuse, Nat.mod_eq_of_lt hlt]
      exact hpos.ne'
    · rw [hirq]
      exact testBit_maskSet_mod _ hn
  case taken =>
    obtain ⟨hreq, hres⟩ := ringSizes_of_not_refused hnone
    obtain ⟨t, ht, hrings, hrd⟩ := execRingEnable_opens h0 hnone
    have hring : t.ring n = ringLatched s n :=
      (State.ring_of_rings n (hrings.trans ringOpened_rings)).trans (State.ring_setRing_self _ hlen)
    refine ⟨t, ht, ?_, ?_, ?_⟩
    · rw [hrd _ rfl (by decide) (by decide), ringOpened_rd_enable hn]
    · rw [hring]
      exact hreq
    · rw [hring]
      exact hres

/-! ## Indices (R323, R324) -/

section
variable {s : State} {n : Nat}

theorem execRingReqProdWrite_takes {data : Word} (hen : s.rd (Reg.rngCtlEnable.elem n) = 1)
    (hlt : data.toNat < (s.ring n).reqSize)
    (hfwd : ringDist (s.ring n).reqSize (s.rd (Reg.rngReqConsIdx.elem n)) (s.rd (Reg.rngReqProdIdx.elem n)) ≤
      ringDist (s.ring n).reqSize (s.rd (Reg.rngReqConsIdx.elem n)) data.toNat) :
    execRingReqProdWrite n data s =
      .next ((ringRefresh (s.wr (Reg.rngReqProdIdx.elem n) data.toNat) n).answer 0) := by
  unfold execRingReqProdWrite
  dsimp only
  rw [if_pos (by simp [State.flag_of_rd_one hen, hlt, hfwd])]

theorem execRingResConsWrite_takes {data : Word} (hlive : ringLive s n = true) (hlt : data.toNat < (s.ring n).resSize)
    (hpast : ringDist (s.ring n).resSize (s.rd (Reg.rngResConsIdx.elem n)) data.toNat ≤
      ringDist (s.ring n).resSize (s.rd (Reg.rngResConsIdx.elem n)) (s.rd (Reg.rngResProdIdx.elem n))) :
    execRingResConsWrite n data s =
      .next ((ringRefresh (s.wr (Reg.rngResConsIdx.elem n) data.toNat) n).answer 0) := by
  unfold execRingResConsWrite
  dsimp only
  rw [if_pos (by simp [hlive, hlt, hpast])]

/-- An index of the pair, written and refreshed, reads as written. -/
theorem ringRefresh_wr_rd_self {f : Fld} (v : Nat) (hn : n < f.count) (hf : f.fits = true) (hs : f.stride = 64)
    (ha : f.addr ≠ Reg.rngStatusIdle.addr) : (ringRefresh (s.wr (f.elem n) v) n).rd (f.elem n) = v % 2 ^ f.width :=
  (ringRefresh_rd_elem hs ha).trans (State.rd_wr_elem_self s v hf hn)

/-! ## Disable and drain (R333) -/

theorem execRingDisable_drains (hn : n < 7) (h1 : s.rd (Reg.rngCtlEnable.elem n) = 1) :
    ∃ t, execRingDisable n s = .next t ∧ t.rd (Reg.rngCtlEnable.elem n) = 0 ∧ t.rd (Reg.rngStatusDraining.elem n) = 1 ∧
      t.rd (Reg.rngStatusIdle.elem n) = 0 := by
  unfold execRingDisable
  rw [if_pos (State.flag_of_rd_one h1)]
  refine ⟨_, rfl, ?_, ?_, ?_⟩
  · rw [State.answer_rd, State.clr, State.rd_wr_elem_other _ n 0 (by decide), State.set,
      State.rd_wr_elem_other _ n 1 (by decide)]
    exact State.rd_clr_self s _ (Fld.fits_elem n rfl)
  · rw [State.answer_rd, State.clr, State.rd_wr_elem_other _ n 0 (by decide)]
    exact State.rd_wr_elem_self _ 1 rfl hn
  · exact State.rd_clr_self _ _ (Fld.fits_elem n rfl)

/-- The end of a drain; a sequencer's own state beside it is no register of the rings. -/
theorem execRingDrainDone_ends (hn : n < 7) (h : ringDrained s n = true) :
    ∃ t, execRingDrainDone n s = .next t ∧ t.rd (Reg.rngStatusDraining.elem n) = 0 ∧ t.rd (Reg.rngStatusIdle.elem n) = 1 ∧
      t.rd Reg.rngIrqStatusDrained = maskSet (s.rd Reg.rngIrqStatusDrained) n % 128 := by
  have hirq : ((s.clr (Reg.rngStatusDraining.elem n)).set (Reg.rngStatusIdle.elem n)).rd Reg.rngIrqStatusDrained =
      s.rd Reg.rngIrqStatusDrained := by
    rw [State.set, State.rd_wr_addr_ne _ _ (Fld.elem_addr_ne n (by decide)), State.clr,
      State.rd_wr_addr_ne _ _ (Fld.elem_addr_ne n (by decide))]
  have hoff (t : State) {f : Fld} (hf : 0x20100000 ≤ f.addr) :
      (if n ≤ 1 then t.wr (Reg.bwkStatusState.elem n) 0 else t).rd f = t.rd f := by
    split
    · next hseq => exact State.rd_wr_addr_ne t 0 (rng_addr_ne_bwkStatus hf hseq)
    · rfl
  unfold execRingDrainDone
  rw [if_pos h]
  dsimp only
  rw [hirq]
  refine ⟨_, rfl, ?_, ?_, ?_⟩
  · rw [hoff _ (le_trans (by decide) (Fld.addr_le_elem _ n)), State.rd_wr_addr_ne _ _ (Fld.elem_addr_ne n (by decide)).symm,
      State.set, State.rd_wr_elem_other _ n 1 (by decide)]
    exact State.rd_clr_self s _ (Fld.fits_elem n rfl)
  · rw [hoff _ (le_trans (by decide) (Fld.addr_le_elem _ n)), State.rd_wr_addr_ne _ _ (Fld.elem_addr_ne n (by decide)).symm]
    exact State.rd_wr_elem_self _ 1 rfl hn
  · rw [hoff _ (by decide), State.rd_wr_self _ _ _ rfl]
    rfl

/-! ## Held results (R330) -/

@[simp] theorem State.setRing_rd (s : State) (n : Nat) (r : Ring) (f : Fld) : (s.setRing n r).rd f = s.rd f := rfl

/-- Of its pair, a result written changes the count of results alone. -/
theorem ringWrite_ring (h : n < s.rings.length) (x : RingResult) :
    ∃ w, (ringWrite s n x).ring n = { s.ring n with written := w } := by
  have hrings (a v w : Nat) (bs : List Byte) :
      (((s.store a bs).wr (Reg.rngResProdIdx.elem n) v).wr Reg.rngIrqStatusResult w).rings = s.rings :=
    (State.store_keeps (.refl _) (.refl _ s)).parts .rings (by decide)
  unfold ringWrite
  dsimp only
  split
  · split
    · exact ⟨_, State.ring_setRing_self _ (by rw [State.wr_rings, hrings]; exact h)⟩
    · exact ⟨_, State.ring_setRing_self _ (by rw [hrings]; exact h)⟩
  · exact ⟨_, State.ring_of_rings n (hrings _ _ _ _)⟩

/-- A result written moves the producer index on by one. -/
theorem ringWrite_rd_prod (hn : n < 7) (x : RingResult) :
    (ringWrite s n x).rd (Reg.rngResProdIdx.elem n) =
      (s.rd (Reg.rngResProdIdx.elem n) + 1) % (s.ring n).resSize % 65536 := by
  have hprod (t : State) (v w : Nat) :
      ((t.wr (Reg.rngResProdIdx.elem n) v).wr Reg.rngIrqStatusResult w).rd (Reg.rngResProdIdx.elem n) = v % 65536 :=
    (State.rd_wr_addr_ne _ _ (Fld.elem_addr_ne n (by decide)).symm).trans (State.rd_wr_elem_self _ v rfl hn)
  unfold ringWrite
  dsimp only
  split
  · split
    · rw [State.setRing_rd, State.rd_wr_elem_other _ n _ (by decide), hprod]
    · rw [State.setRing_rd, hprod]
  · exact hprod _ _ _

/-- The pair with nothing held. -/
def ringUnheld (s : State) (n : Nat) : State := s.setRing n { s.ring n with hold := [] }

theorem ringUnheld_ring (h : n < s.rings.length) : (ringUnheld s n).ring n = { s.ring n with hold := [] } :=
  State.ring_setRing_self _ h

/-- The last held result, written, leaves nothing held. -/
theorem ringWrite_unheld_hold (h : n < s.rings.length) (x : RingResult) :
    ((ringWrite (ringUnheld s n) n x).ring n).hold = [] := by
  have hlen : n < (ringUnheld s n).rings.length := by
    rw [ringUnheld, State.setRing_rings, setNth_eq_set, List.length_set]
    exact h
  obtain ⟨w, hw⟩ := ringWrite_ring hlen x
  rw [hw, ringUnheld_ring h]

/-- R330: one result held, with a slot free for it, is written, and then none is left. -/
theorem ringDrainHold_of_one {x : RingResult} (h : n < s.rings.length) (hx : (s.ring n).hold = [x])
    (hfull : resultRingFull s n = false) (fuel : Nat) : ringDrainHold s n (fuel + 2) = ringWrite (ringUnheld s n) n x := by
  have hwrite : ringDrainHold s n (fuel + 2) = ringDrainHold (ringWrite (ringUnheld s n) n x) n (fuel + 1) := by
    rw [ringDrainHold, hx]
    dsimp only
    rw [hfull, if_neg Bool.false_ne_true]
    rfl
  rw [hwrite, ringDrainHold, ringWrite_unheld_hold h]

theorem execHeldResultWrite_writes {x : RingResult} (hn : n < 7) (h : n < s.rings.length) (hx : (s.ring n).hold = [x])
    (hfull : resultRingFull s n = false) :
    ∃ t, execHeldResultWrite n s = .next t ∧
      t.rd (Reg.rngResProdIdx.elem n) = (s.rd (Reg.rngResProdIdx.elem n) + 1) % (s.ring n).resSize % 65536 ∧
      (t.ring n).hold = [] := by
  have hdrain : ringDrainHold s n ringHoldSize = ringWrite (ringUnheld s n) n x := ringDrainHold_of_one h hx hfull 14
  unfold execHeldResultWrite
  rw [hdrain]
  refine ⟨_, rfl, ?_, ?_⟩
  · rw [ringRefresh_rd_elem rfl (by decide), ringWrite_rd_prod hn, ringUnheld_ring h]
    rfl
  · rw [ringRefresh_ring, ringWrite_unheld_hold h]

/-! ## The mailbox (R337) -/

theorem execNop_answers {e : RingEntry} (hf : ringFront s 6 = some e) (hm : mailMalformed e = false) (h0 : e.at 0 1 = 0) :
    execNop s = .next (mailReply s e 0 (e.bytes.drop 8)) := by
  unfold execNop
  rw [hf]
  dsimp only
  rw [hm, if_neg Bool.false_ne_true, if_pos h0]

end

/-- Settles O33: each part from the lemma of its command. -/
theorem completeRings : Obligations.CompleteRings := by
  refine ⟨?reqProd, ?resCons, ?enable, ?refuse, ?disable, ?drain, ?held, ?nop⟩
  case reqProd =>
    intro s n data hn hen hlt hfwd
    exact ⟨_, execRingReqProdWrite_takes hen hlt hfwd, ringRefresh_wr_rd_self _ hn rfl rfl (by decide), rfl⟩
  case resCons =>
    intro s n data hn hlive hlt hpast
    exact ⟨_, execRingResConsWrite_takes hlive hlt hpast, ringRefresh_wr_rd_self _ hn rfl rfl (by decide), rfl⟩
  case enable =>
    intro s n hn h0 hnone
    obtain ⟨t, ht, -, hrd⟩ := execRingEnable_opens h0 hnone
    refine ⟨t, ht, ?_, ?_, ?_⟩
    · rw [hrd _ rfl (by decide) (by decide), ringOpened_rd_enable hn]
    · rw [hrd _ rfl (by decide) (by decide), ringOpened_rd_cleared (by decide) rfl rfl (by decide) (by decide)]
    · rw [hrd _ rfl (by decide) (by decide), ringOpened_rd_cleared (by decide) rfl rfl (by decide) (by decide)]
  case refuse =>
    intro s n why hn h0 hwhy
    obtain ⟨t, ht, -, -, hrefuse, hirq⟩ := execRingEnable_refuses hn h0 hwhy
    exact ⟨t, ht, hrefuse, hirq⟩
  case disable => exact fun s n hn h1 => execRingDisable_drains hn h1
  case drain => exact fun s n hn h => execRingDrainDone_ends hn h
  case held => exact fun s n x hn h hx hfull => execHeldResultWrite_writes hn h hx hfull
  case nop => exact fun s e hlen hf hm h0 => ⟨_, execNop_answers hf hm h0, rfl, ringAnswer_inProg hlen _ _⟩

end Sys2Proof.Machine
end

section
/-!
SUPPORT. Proof of the statement on CRY's ring (R334 to R336; spec/11_work_rings.md): when an entry's operation runs, what its
stores and key slots come to, then one lemma for each command.
-/

namespace Sys2Proof.Machine

/-! ## Bytes stored and read back -/

theorem padBytes_length (n : Nat) (bs : List Byte) : (padBytes n bs).length = n := by
  rw [padBytes, List.length_take, List.length_append, List.length_replicate]
  omega

/-- A run padded to `n` bytes and stored reads back. -/
theorem State.bytes_store_padBytes (s : State) (a n : Nat) (bs : List Byte) :
    (s.store a (padBytes n bs)).bytes a n = padBytes n bs := by
  have hbytes := State.bytes_store s a (padBytes n bs)
  rwa [padBytes_length] at hbytes

theorem State.store_cry (s : State) (a : Nat) (bs : List Byte) : (s.store a bs).cry = s.cry :=
  (State.store_keeps (.refl _) (.refl storeFoot s)).parts .cry (by decide)

/-! ## Operations of an entry (R334, R335) -/

/-- The state in which an entry's operation runs: BUSY. -/
def cryBusy (s : State) : State := s.set Reg.cryStatusBusy

/-- One data unit that is not poisoned. -/
theorem cryUnits_one {s : State} {e : RingEntry} {f : Nat → List Byte → List Byte} (hp : s.poisoned (crySrc e) 4096 = false) :
    cryUnits s e f 1 0 =
      cryGive (cryCount (s.store (cryDst e) (padBytes 4096 (f (cryArg e) (s.bytes (crySrc e) 4096)))) (crySlot e) 1) 0 1 := by
  have hp' : ¬ s.poisoned (crySrc e + 4096 * 0) 4096 = true := by simp [hp]
  rw [cryUnits]
  dsimp only
  rw [if_neg hp']
  rfl

/-- What ENCRYPT and DECRYPT do, each with its cipher. -/
def cryTransform (cipher : List Byte → Nat → List Byte → List Byte) (s : State) (e : RingEntry) : State :=
  if (cryKey s (crySlot e)).isEmpty then cryGive s 3 0
  else cryUnits s e (cipher (cryKey s (crySlot e))) (cryCountOf e) 0

/-- The level is in a register of its own. -/
theorem cryBusy_expert {s : State} (h : s.rd Reg.cryModeLevel = 1) : ¬ (!expert (cryBusy s) Reg.cryModeLevel) = true := by
  have hl : (cryBusy s).rd Reg.cryModeLevel = 1 := (State.rd_wr_addr_ne s 1 (by decide)).trans h
  simp [expert_of_expert hl]

section
variable {s : State} {slot : Nat} {key : List Byte}

/-- R334: a key operation on a slot that nothing uses takes effect at once. -/
theorem keyOp_of_free (h : cryInUse s slot = false) :
    keyOp s slot key = cryGive ((keySet s slot key false).set Reg.cryIrqStatusKeyDone) 0 key.length := by
  unfold keyOp
  rw [h, if_neg Bool.false_ne_true]

theorem keyOp_sets (h : cryInUse s slot = false) :
    (keyOp s slot key).cry.keys = Store.write [] s.cry.keys slot key ∧ (keyOp s slot key).rd Reg.cryIrqStatusKeyDone = 1 := by
  rw [keyOp_of_free h]
  exact ⟨rfl, State.rd_set_self _ _ rfl rfl⟩

theorem execKeyOpApply_applies {k : KeyOp} (hw : s.cry.wait = some k) (hfree : cryInUse s k.slot = false) :
    ∃ t, execKeyOpApply s = .next t ∧ t.cry.keys = Store.write [] s.cry.keys k.slot k.key ∧ t.cry.wait = none ∧
      t.rd Reg.cryStatusKeyWait = 0 ∧ t.rd Reg.cryIrqStatusKeyDone = 1 := by
  unfold execKeyOpApply
  rw [hw]
  dsimp only
  rw [hfree, if_neg Bool.false_ne_true]
  refine ⟨_, rfl, rfl, rfl, State.rd_clr_self _ _ rfl, ?_⟩
  exact (State.rd_wr_addr_ne _ 0 (by decide)).trans (State.rd_set_self _ _ rfl rfl)

end

section
variable {s : State} {e : RingEntry} (hf : ringFront s 5 = some e)
include hf

/-! ## The result (R335) -/

theorem execCryEntryDone_answers {r done : Nat} (hj : s.cry.job = some (r, done)) :
    execCryEntryDone s = .next (cryResult s e r done) := by
  unfold execCryEntryDone
  rw [hf]
  dsimp only
  rw [hj]

/-! ## The commands of an entry that may run -/

variable (hj : s.cry.job = none) (hw : s.cry.wait = none) (hfail : s.cry.failed = false) (hok : cryOk (cryBusy s) e = true)
include hj hw hfail hok

/-- A well-formed entry with no other under way, in a chain that has not failed, runs. -/
theorem cryBegin_runs {run : State → RingEntry → State} {op : Nat} (ho : cryOp e = op) :
    cryBegin s op run = run (cryBusy s) e := by
  unfold cryBegin
  rw [hf]
  dsimp only
  rw [if_neg (by simp [hj, hw, ho])]
  change (if s.cry.failed = true then _ else if (!cryOk (cryBusy s) e) = true then _ else run (cryBusy s) e) = _
  rw [hfail, hok, if_neg Bool.false_ne_true]
  rfl

/-- Of one data unit, the bytes transformed stand at DST. -/
theorem cryBegin_transforms {op : Nat} {cipher : List Byte → Nat → List Byte → List Byte} (ho : cryOp e = op)
    (hkey : (cryKey s (crySlot e)).isEmpty = false) (hcount : cryCountOf e = 1) (hp : s.poisoned (crySrc e) 4096 = false) :
    (cryBegin s op (cryTransform cipher)).cry.job = some (0, 1) ∧
      (cryBegin s op (cryTransform cipher)).bytes (cryDst e) 4096 =
        padBytes 4096 (cipher (cryKey s (crySlot e)) (cryArg e) (s.bytes (crySrc e) 4096)) := by
  have hkey' : ¬ (cryKey (cryBusy s) (crySlot e)).isEmpty = true := by
    change ¬ (cryKey s (crySlot e)).isEmpty = true
    simp [hkey]
  rw [cryBegin_runs hf hj hw hfail hok ho, cryTransform, if_neg hkey', hcount, cryUnits_one (s := cryBusy s) hp]
  exact ⟨rfl, State.bytes_store_padBytes (cryBusy s) (cryDst e) 4096 _⟩

theorem execHash_adds (ho : cryOp e = 3) (hp : s.poisoned (crySrc e) (cryArg e) = false) :
    ∃ t, execHash s = .next t ∧ t.cry.job = some (0, cryArg e) ∧
      t.cry.hash = s.cry.hash ++ s.bytes (crySrc e) (cryArg e) := by
  have hp' : ¬ (cryArg e ≠ 0 ∧ (cryBusy s).poisoned (crySrc e) (cryArg e) = true) := by
    rintro ⟨-, hpoison⟩
    exact Bool.false_ne_true (hp.symm.trans hpoison)
  unfold execHash
  rw [cryBegin_runs hf hj hw hfail hok ho, if_neg hp']
  refine ⟨_, rfl, rfl, ?_⟩
  dsimp only
  split
  · exact congrArg Cry.hash (State.store_cry _ _ _)
  · rfl

variable (hexpert : s.rd Reg.cryModeLevel = 1)
include hexpert

theorem execKeyLoad_loads (ho : cryOp e = 4) (hp : s.poisoned (crySrc e) 64 = false) :
    execKeyLoad s = .next (keyOp (cryBusy s) (crySlot e) (s.bytes (crySrc e) 64)) := by
  have hp' : ¬ (cryBusy s).poisoned (crySrc e) 64 = true := by
    change ¬ s.poisoned (crySrc e) 64 = true
    simp [hp]
  unfold execKeyLoad
  rw [cryBegin_runs hf hj hw hfail hok ho, if_neg (cryBusy_expert hexpert), if_neg hp']
  rfl

theorem execKeyClear_clears (ho : cryOp e = 5) : execKeyClear s = .next (keyOp (cryBusy s) (crySlot e) []) := by
  unfold execKeyClear
  rw [cryBegin_runs hf hj hw hfail hok ho, if_neg (cryBusy_expert hexpert)]

end

theorem State.when_rings {s : State} {c : Bool} {f : State → State} (h : ∀ t, (f t).rings = t.rings) :
    (s.when c f).rings = s.rings := by
  unfold State.when
  split
  · exact h s
  · rfl

/-- R335: with its result, the entry leaves the entries in progress; what is counted and raised then moves none. -/
theorem cryResult_inProg {s : State} (h : 5 < s.rings.length) (e : RingEntry) (r done : Nat) :
    ((cryResult s e r done).ring 5).inProg = (s.ring 5).inProg.drop 1 := by
  rw [← ringAnswer_inProg h _ _]
  refine congrArg Ring.inProg (State.ring_of_rings 5 ?_)
  unfold cryResult
  dsimp only
  rw [State.wr_rings, State.setCry_rings, State.when_rings, State.when_rings, State.when_rings]
  all_goals exact fun _ => rfl

/-- Settles O34: each part from the lemma of its command. -/
theorem completeCrypto : Obligations.CompleteCrypto := by
  refine ⟨?encrypt, ?decrypt, ?hash, ?keyLoad, ?keyClear, ?keyApply, ?done⟩
  case encrypt =>
    exact fun s e hf hj hw hfail ho hok hkey hcount hp =>
      ⟨_, rfl, cryBegin_transforms (cipher := Config.xtsEncrypt) hf hj hw hfail hok ho hkey hcount hp⟩
  case decrypt =>
    exact fun s e hf hj hw hfail ho hok hkey hcount hp =>
      ⟨_, rfl, cryBegin_transforms (cipher := Config.xtsDecrypt) hf hj hw hfail hok ho hkey hcount hp⟩
  case hash => exact fun s e hf hj hw hfail ho hok hp => execHash_adds hf hj hw hfail hok ho hp
  case keyLoad =>
    intro s e hf hj hw hfail ho hok hexpert hp hfree
    exact ⟨_, execKeyLoad_loads hf hj hw hfail hok hexpert ho hp, keyOp_sets (s := cryBusy s) hfree⟩
  case keyClear =>
    intro s e hf hj hw hfail ho hok hexpert hfree
    exact ⟨_, execKeyClear_clears hf hj hw hfail hok hexpert ho, keyOp_sets (s := cryBusy s) hfree⟩
  case keyApply => exact fun s k hw hfree => execKeyOpApply_applies hw hfree
  case done =>
    exact fun s e r done hlen hf hj => ⟨_, execCryEntryDone_answers hf hj, rfl, rfl, cryResult_inProg hlen e r done⟩

end Sys2Proof.Machine
end

section
/-!
SUPPORT. Proofs of the statements on faults (R366 to R383; spec/13_faults.md): what a record, a takeover and the entry into SAFE
leave in the registers, then one lemma for each command.
-/

namespace Sys2Proof.Machine

/-! ## Records (R365, R367, R370) -/

theorem mcWrite_rd_mchk (s : State) (r : McRecord) : (mcWrite s r).rd Reg.fltIrqStatusMchk = 1 := by
  unfold mcWrite
  exact ((recPost_keeps (.refl _) (.refl recPostFoot _)).rd (by decide +kernel)).trans (State.rd_set_self _ _ rfl rfl)

/-- R370: the interruption measured is the last one that FLT_INT shows. -/
theorem containedInt_rd_intLast (s : State) (source inst code addr int : Nat) :
    (containedInt s source inst code addr int).rd Reg.fltIntLast = min int 65535 := by
  have hlast (t : State) : ((t.wr Reg.fltIntLast (min int 0xFFFF)).set Reg.fltIrqStatusIntDone).rd Reg.fltIntLast =
      min int 65535 := by
    rw [State.set, State.rd_wr_addr_ne _ _ (by decide), State.rd_wr_self _ _ _ rfl]
    exact Nat.mod_eq_of_lt (Nat.lt_succ_of_le (Nat.min_le_right _ _))
  unfold containedInt
  dsimp only
  split
  · rw [State.rd_wr_other _ _ _ _ rfl, hlast]
  · exact hlast _

/-! ## Takeover (R371) -/

@[simp] theorem reexecute_rd (s : State) (p : HostCmd → Bool) (f : Fld) : (reexecute s p).rd f = s.rd f := rfl

@[simp] theorem tagsPass_rd (s : State) (h : Nat) (to_ : List Nat) (f : Fld) : (tagsPass s h to_).rd f = s.rd f := rfl

theorem takeover_rd_coreHeld (s : State) (h : Nat) :
    (takeover s h).rd Reg.fltCoreHeld = maskSet (s.rd Reg.fltCoreHeld) h % 16 := by
  have hheld (t : State) (v run online faults : Nat) : ((((t.wr Reg.fltCoreHeld v).wr Reg.sysCoreRelRun run).wr
      Reg.fltCoreOnline online).wr Reg.fltCoreFaults faults).rd Reg.fltCoreHeld = v % 16 := by
    rw [State.rd_wr_other _ _ _ _ rfl, State.rd_wr_other _ _ _ _ rfl, State.rd_wr_other _ _ _ _ rfl, State.rd_wr_self _ _ _ rfl]
    rfl
  unfold takeover
  dsimp only
  split
  · rw [tagsPass_rd, reexecute_rd, hheld, State.setFlt_rd]
  · rw [State.set, State.rd_wr_other _ _ _ _ rfl, tagsPass_rd, reexecute_rd, hheld, State.setFlt_rd]

/-! ## Control-core faults (R366, R369) -/

section
variable {s : State} {h : Nat} (int : Nat)

/-- The first fault of a running hart, with another one in service to take its work. -/
theorem coreFault_first (hlt : h < 4) (hrun : hartRuns s h = true) (hsurv : (survivors s h).isEmpty = false)
    (hfirst : (s.rd Reg.fltCoreFaults).testBit h = false) :
    coreFault s h int = containedInt (takeover s h) (srcHart h) 0 64 0 int := by
  unfold coreFault
  rw [if_neg (by simp [hlt, hrun]), if_neg (by simp [hsurv]), if_neg (by simp [hfirst])]

theorem containedInt_takeover_shows (source inst code addr : Nat) :
    (containedInt (takeover s h) source inst code addr int).rd Reg.fltCoreHeld = maskSet (s.rd Reg.fltCoreHeld) h % 16 ∧
      (containedInt (takeover s h) source inst code addr int).rd Reg.fltIntLast = min int 65535 :=
  ⟨((containedInt_keeps (.refl _) (.refl containedIntFoot _)).rd (by decide +kernel)).trans (takeover_rd_coreHeld s h),
    containedInt_rd_intLast _ _ _ _ _ _⟩

/-- R382: the expiry of a watchdog that is enabled and has a period is a control-core fault. -/
theorem execHartWatchdogExpiry_faults (hon : s.flt.wdogOn.testBit h = true) (hus : s.rd (Reg.fltWdogUs.elem h) ≠ 0) :
    execHartWatchdogExpiry h int s = .next (coreFault s h int) := by
  rw [execHartWatchdogExpiry, if_pos ⟨hon, hus⟩]

end

/-! ## Rejoin, ONLINE and the watchdogs (R371, R381 to R383) -/

theorem execCoreRejoin_releases {s : State} {h : Nat} (hlt : h < 4) (hheld : (s.rd Reg.fltCoreHeld).testBit h = true)
    (hserv : s.serving (bitHart h) = true) (hsafe : s.flt.safe = .none) (h5 : s.rd Reg.sysOpmodeMode ≠ 5)
    (h1 : s.rd Reg.sysOpmodeMode ≠ 1) :
    ∃ t, execCoreRejoin h s = .next t ∧ t.rd Reg.fltCoreHeld = maskClear (s.rd Reg.fltCoreHeld) h % 16 ∧
      t.rd Reg.sysCoreRelRun = maskSet (s.rd Reg.sysCoreRelRun) h % 16 ∧
      t.rd Reg.fltCoreRejoin = maskSet (s.rd Reg.fltCoreRejoin) h % 16 := by
  have hmode5 : s.opMode ≠ modeSafe := h5
  have hmode1 : s.opMode ≠ modeRecovery := h1
  unfold execCoreRejoin
  rw [if_neg (by simp [hlt, hheld, hserv, hsafe, hmode5, hmode1])]
  refine ⟨_, rfl, ?held, ?run, ?rejoin⟩
  case held =>
    rw [State.rd_wr_other _ _ _ _ rfl, State.setFlt_rd, State.rd_wr_other _ _ _ _ rfl, State.rd_wr_self _ _ _ rfl]
    rfl
  case run =>
    rw [State.rd_wr_other _ _ _ _ rfl, State.setFlt_rd, State.rd_wr_self _ _ _ rfl, State.rd_wr_other _ _ _ _ rfl]
    rfl
  case rejoin =>
    rw [State.rd_wr_self _ _ _ rfl, State.setFlt_rd, State.rd_wr_other _ _ _ _ rfl, State.rd_wr_other _ _ _ _ rfl]
    rfl

theorem execFltCoreOnline_sets {s : State} {h : Nat} {data : Word} (hlt : h < 4) (hbit : data.getLsbD (24 + h) = true)
    (hrun : hartRuns (s.wr Reg.fltCoreRejoin (s.rd Reg.fltCoreRejoin &&& (15 ^^^ fieldOf data 16 4))) h = true) :
    ∃ t, execFltCoreOnline h data s = .next t ∧ t.rd Reg.fltCoreOnline = maskSet (s.rd Reg.fltCoreOnline) h % 16 ∧
      t.resp = .done 0 := by
  unfold execFltCoreOnline
  dsimp only
  rw [if_pos ⟨hlt, hbit, hrun⟩]
  refine ⟨_, rfl, ?_, rfl⟩
  rw [State.answer_rd, State.rd_wr_self _ _ _ rfl, State.rd_wr_other _ _ _ _ rfl]
  rfl

theorem execFltWdogKick_enables {s : State} {m n : Nat} (data : Word) (hn : n < 4)
    (hheld : (s.rd Reg.fltCoreHeld).testBit m = false) :
    ∃ t, execFltWdogKick m n data s = .next t ∧ t.rd (Reg.fltWdogUs.elem n) = fieldOf data 0 24 % 16777216 ∧
      t.flt.wdogOn = maskSet s.flt.wdogOn n ∧ t.resp = .done 0 := by
  unfold execFltWdogKick
  rw [if_neg (by simp [hn, hheld])]
  exact ⟨_, rfl, State.rd_wr_elem_self s _ rfl hn, rfl, rfl⟩

/-! ## Entry into SAFE (R34, R375) -/

theorem safeRecord_records (s : State) : (safeRecord s).flt.safe = .recorded ∧ (safeRecord s).rd Reg.fltStatusSafePend = 1 :=
  ⟨rfl, State.rd_set_self _ _ rfl rfl⟩

/-- A device-fatal fault goes as far as the record, step 3 of R375. -/
theorem deviceFatal_records {s : State} (source inst code addr : Nat) (declared : Bool) (h : mayEnterSafe s = true) :
    (deviceFatal s source inst code addr declared).flt.safe = .recorded ∧
      (deviceFatal s source inst code addr declared).rd Reg.fltStatusSafePend = 1 := by
  rw [deviceFatal, safeEnter, if_pos h]
  exact safeRecord_records _

/-- RECOVERY is not left for SAFE (R34). -/
theorem mayEnterSafe_of_recovery {s : State} (h : s.rd Reg.sysOpmodeMode = 1) : mayEnterSafe s = false := by
  have hmode : s.opMode = modeRecovery := h
  simp [mayEnterSafe, hmode]

/-- What steps 1 and 2 of R375 may change once RETRACT is asserted. -/
def safeStopRetractedFoot : Foot :=
  .union [⟨[Reg.fltCoreHeld, Reg.sysCoreRelRun, Reg.fltStatusRecovering], [], false⟩, bwkStopAllFoot, astStopFoot,
    rungPreemptFoot, hostStopFoot, calStopFoot]

theorem safeStop_keeps_retracted (s : State) : Keeps safeStopRetractedFoot (retractLine s) (safeStop s) := by
  unfold safeStop
  refine State.clr_keeps rfl ?_ (State.clr_keeps rfl ?_ (State.wr_keeps rfl ?_ (calStop_keeps ?_ (hostStop_keeps ?_
    (rungPreempt_keeps ?_ (astStop_keeps ?_ (astStop_keeps ?_ (bwkStopAll_keeps ?_ (.refl _ _)))))))))
  case refine_1 | refine_2 | refine_3 => exact (Foot.Le.refl _).fld (by decide +kernel)
  all_goals exact Foot.le_of (by decide +kernel)

theorem retractLine_rd_line (s : State) : (retractLine s).rd Reg.hvbStatusRetractLine = 1 := by
  unfold retractLine
  exact ((hvRetractBoth_keeps (.refl _) (.refl hvRetractBothFoot _)).rd (by decide +kernel)).trans
    (State.rd_set_self _ _ rfl rfl)

theorem safeStop_rd_line (s : State) : (safeStop s).rd Reg.hvbStatusRetractLine = 1 :=
  ((safeStop_keeps_retracted s).rd (by decide +kernel)).trans (retractLine_rd_line s)

/-! ## Declared faults (R378) -/

section
variable {s : State} {m : Nat} {data : Word}

theorem declare_refused {priv : Priv} {f : State → State} (h : priv ≠ .m) : declare s priv f = .next (busError s) := if_neg h

theorem execFltDeclare_refused {priv : Priv} (int : Nat) (h : priv ≠ .m) :
    execFltDeclareContained m priv data s = .next (busError s) ∧
      execFltDeclareDeviceFatal m priv data s = .next (busError s) ∧
      execFltDeclareHart m priv data int s = .next (busError s) :=
  ⟨declare_refused h, declare_refused h, by
    unfold execFltDeclareHart
    exact declare_refused h⟩

theorem execFltDeclareContained_records (hc : fieldOf data 30 2 = 1) (h7 : data.getLsbD 7 = false) :
    execFltDeclareContained m .m data s = .next ((mcWrite (s.bump Reg.fltCounts1Contained)
      (mcCapture s 1 (srcHart (m % 4)) 0 (0x0070 + fieldOf data 0 4) 0 true 0)).answer 0) := by
  rw [execFltDeclareContained, declare, if_pos rfl, if_pos ⟨hc, by rw [h7]; rfl⟩]

theorem execFltDeclareDeviceFatal_enters (hc : fieldOf data 30 2 = 3) (h7 : data.getLsbD 7 = false)
    (hmay : mayEnterSafe s = true) :
    ∃ t, execFltDeclareDeviceFatal m .m data s = .next t ∧ t.flt.safe = .recorded ∧ t.rd Reg.fltStatusSafePend = 1 := by
  rw [execFltDeclareDeviceFatal, declare, if_pos rfl, if_pos ⟨hc, by rw [h7]; rfl⟩]
  exact ⟨_, rfl, deviceFatal_records _ _ _ _ _ hmay⟩

theorem execFltDeclareHart_faults (m int : Nat) (h7 : data.getLsbD 7 = true) (hlt : fieldOf data 4 3 < 4)
    (hsurv : (survivors s (fieldOf data 4 3)).isEmpty = false) :
    execFltDeclareHart m .m data int s = .next ((coreFault s (fieldOf data 4 3) int).answer 0) := by
  rw [execFltDeclareHart, declare, if_pos rfl]
  dsimp only
  rw [if_neg (by simp [h7]), if_neg (by simp [hlt, hsurv])]

theorem execFltDeclareHart_last (m int : Nat) (h7 : data.getLsbD 7 = true)
    (hsurv : (survivors s (fieldOf data 4 3)).isEmpty = true) :
    execFltDeclareHart m .m data int s = .next ((corrected s).answer 0) := by
  rw [execFltDeclareHart, declare, if_pos rfl]
  dsimp only
  rw [if_neg (by simp [h7]), if_pos (.inr hsurv)]

end

/-! ## The warden's own faults (R376) -/

theorem execLockstepMismatch_again {s : State} (h : s.flt.mismatches ≠ 0) :
    ∃ t, execLockstepMismatch s = .next t ∧ t.flt.warden = .inReset ∧ t.rd Reg.hvbStatusRetractLine = 1 := by
  have hagain : (s.flt.mismatches != 0) = true := bne_iff_ne.mpr h
  unfold execLockstepMismatch
  rw [hagain]
  exact ⟨_, rfl, rfl, retractLine_rd_line s⟩

/-- After the first mismatch, RETRACT is asserted and the warden restarts. -/
def mismatchSeen (s : State) : State :=
  (retractLine s).setFlt { (retractLine s).flt with
    mismatches := (retractLine s).flt.mismatches + 1, warden := .restarting }

/-- The first mismatch, with its code in FLT_STATUS. -/
def mismatchShown (s : State) : State := (mismatchSeen s).wr Reg.fltStatusCause 0x0060

/-- The first mismatch, with the entry into SAFE begun on the fault as captured (R376). -/
def mismatchBegun (s : State) : State :=
  (mismatchShown s).setFlt { (mismatchShown s).flt with
    safe := .begun, safeCause := 0x20, captured := some (mcCapture (mismatchSeen s) 3 srcWarden 0 0x0060 0 false 0) }

theorem mismatchShown_rd_cause (s : State) : (mismatchShown s).rd Reg.fltStatusCause = 96 := State.rd_wr_self _ _ _ rfl

theorem mismatchShown_rd_line (s : State) : (mismatchShown s).rd Reg.hvbStatusRetractLine = 1 :=
  (State.rd_wr_addr_ne _ _ (by decide)).trans (retractLine_rd_line s)

theorem mismatchShown_rd_mode (s : State) : (mismatchShown s).rd Reg.sysOpmodeMode = s.rd Reg.sysOpmodeMode :=
  (State.rd_wr_addr_ne _ _ (by decide)).trans ((retractLine_keeps (.refl _) (.refl retractLineFoot s)).rd (by decide +kernel))

theorem execLockstepMismatch_of_first {s : State} (h : s.flt.mismatches = 0) :
    execLockstepMismatch s =
      .next (if mayEnterSafe (mismatchShown s) then safeStop (mismatchBegun s) else mismatchShown s) := by
  have hfirst : (s.flt.mismatches != 0) = false := by rw [h]; rfl
  unfold execLockstepMismatch
  rw [hfirst]
  exact (apply_ite Host.Outcome.next _ _ _).symm

theorem execLockstepMismatch_first {s : State} (h : s.flt.mismatches = 0) :
    ∃ t, execLockstepMismatch s = .next t ∧ t.rd Reg.fltStatusCause = 96 ∧ t.rd Reg.hvbStatusRetractLine = 1 ∧
      (s.rd Reg.sysOpmodeMode = 1 → t.flt.warden = .restarting) := by
  refine ⟨_, execLockstepMismatch_of_first h, ?_⟩
  by_cases hmay : mayEnterSafe (mismatchShown s) = true
  · rw [if_pos hmay]
    refine ⟨?_, safeStop_rd_line _, fun hrec => ?_⟩
    · exact ((safeStop_keeps (.refl _) (.refl safeStopFoot _)).rd (by decide +kernel)).trans (mismatchShown_rd_cause s)
    · rw [mayEnterSafe_of_recovery ((mismatchShown_rd_mode s).trans hrec)] at hmay
      exact absurd hmay Bool.false_ne_true
  · rw [if_neg hmay]
    exact ⟨mismatchShown_rd_cause s, mismatchShown_rd_line s, fun _ => rfl⟩

theorem execWardenRestartDone_records {s : State} (hw : s.flt.warden = .restarting) (hs : s.flt.safe = .begun) :
    ∃ t, execWardenRestartDone s = .next t ∧ t.flt.safe = .recorded ∧ t.rd Reg.fltStatusSafePend = 1 := by
  unfold execWardenRestartDone
  rw [if_neg (by simp [hw])]
  dsimp only
  rw [State.setFlt_flt, if_pos hs]
  exact ⟨_, rfl, safeRecord_records _⟩

/-- Settles O38: each part from the lemma of its command. -/
theorem completeFault : Obligations.CompleteFault := by
  refine ⟨?watchdog, ?fault, ?rejoin, ?online, ?kick, ?declareContained, ?declareFatal, ?declareHart, ?mismatch, ?again,
    ?restarted⟩
  case watchdog =>
    intro s h int hon hus hlt hrun hsurv hfirst
    have hfault := coreFault_first int hlt hrun hsurv hfirst
    exact ⟨_, (execHartWatchdogExpiry_faults int hon hus).trans (congrArg Host.Outcome.next hfault), rfl,
      containedInt_takeover_shows int _ _ _ _⟩
  case fault =>
    intro s h int hlt hrun hsurv hfirst
    exact ⟨_, congrArg Host.Outcome.next (coreFault_first int hlt hrun hsurv hfirst), rfl, containedInt_takeover_shows int _ _ _ _⟩
  case rejoin => exact fun s h hlt hheld hserv hsafe h5 h1 => execCoreRejoin_releases hlt hheld hserv hsafe h5 h1
  case online => exact fun s h data hlt hbit hrun => execFltCoreOnline_sets hlt hbit hrun
  case kick => exact fun s m n data hn hheld => execFltWdogKick_enables data hn hheld
  case declareContained =>
    exact fun s m data hc h7 => ⟨_, execFltDeclareContained_records hc h7, rfl, mcWrite_rd_mchk _ _⟩
  case declareFatal => exact fun s m data hc h7 hmay => execFltDeclareDeviceFatal_enters hc h7 hmay
  case declareHart =>
    intro s m data int h7 hlt hrun hsurv hfirst
    refine ⟨_, execFltDeclareHart_faults m int h7 hlt hsurv, ?_⟩
    rw [coreFault_first int hlt hrun hsurv hfirst]
  case mismatch => exact fun s h => execLockstepMismatch_first h
  case again => exact fun s h => execLockstepMismatch_again h
  case restarted => exact fun s hw hs => execWardenRestartDone_records hw hs

/-- Settles O12: from machine mode each kind of write by its lemma, from any other `execFltDeclare_refused`. -/
theorem faultDeclaration : Obligations.FaultDeclaration := by
  intro s m int priv data
  refine ⟨?refused, ?contained, ?fatal, ?hart, ?last⟩
  case refused => exact fun hp => execFltDeclare_refused int hp
  case contained => exact fun hc h7 => execFltDeclareContained_records hc h7
  case fatal => exact fun hc h7 hmay => execFltDeclareDeviceFatal_enters hc h7 hmay
  case hart => exact fun h7 hlt hsurv => execFltDeclareHart_faults m int h7 hlt hsurv
  case last => exact fun h7 hsurv => execFltDeclareHart_last m int h7 hsurv

end Sys2Proof.Machine
end

section
/-!
SUPPORT. Proofs of the statements on temperatures (R431 to R437, R439, R442, R445; spec/15_power_thermal.md): what a sample, a
change of Sluice and the begin of a power loss leave in the registers, then one lemma for each command.
-/

namespace Sys2Proof.Machine

/-! ## A sample (R431) -/

section
variable (s : State) (k temp : Nat)

/-- One reading taken: shown, and valid. -/
def readingTaken : State := (s.wr (Reg.thmTempTemp.elem k) temp).set (Reg.thmTempValid.elem k)

theorem readingTaken_rd_temp (hk : k < 14) : (readingTaken s k temp).rd (Reg.thmTempTemp.elem k) = temp % 65536 := by
  refine (State.rd_wr_elem_other (f := Reg.thmTempValid) (g := Reg.thmTempTemp) _ k 1 ⟨rfl, rfl⟩).trans ?_
  exact State.rd_wr_elem_self s temp rfl hk

theorem readingTaken_rd_valid (hk : k < 14) : (readingTaken s k temp).rd (Reg.thmTempValid.elem k) = 1 :=
  State.rd_set_self _ _ (Fld.fits_elem k rfl) (Fld.width_elem hk)

/-- What follows the readings of a sample: levels and rates of the groups, the composite, the thresholds, Sluice, the triggers
of CAL (R432 to R435, R390). -/
def readingsFollowFoot : Foot :=
  .union [tmtTimeFoot, groupStepFoot, ⟨[Reg.thmCompositeKelvin], [], false⟩, threshStepFoot, sluiceStepFoot, calTriggersFoot]

theorem execThmSample_follows_reading (ms : Nat) (hk : k < 14) :
    ∃ t, execThmSample ms [(k, temp)] s = .next t ∧ Keeps readingsFollowFoot (readingTaken s k temp) t := by
  have hin : ([(k, temp)] : List (Nat × Nat)).filter (fun e => decide (e.1 < 14)) = [(k, temp)] := by simp [hk]
  unfold execThmSample
  rw [hin]
  refine ⟨_, rfl, calTriggers_keeps ?cal (sluiceStep_keeps ?sluice (threshStep_keeps ?thresh ?composite))⟩
  case composite =>
    have hgroups (l : List Nat) : Keeps readingsFollowFoot (readingTaken s k temp)
        ((tmtTime (readingTaken s k temp) ms).each l fun s g => groupStep s ms g) :=
      Keeps.each (tmtTime_keeps (Foot.le_of (by decide)) (.refl _ _)) fun _ _ h =>
        groupStep_keeps (Foot.le_of (by decide)) h
    split
    · exact State.wr_keeps rfl ((Foot.Le.refl _).fld (by decide)) (hgroups _)
    · exact hgroups _
  all_goals exact Foot.le_of (by decide)

theorem readingsFollowFoot_misses :
    ∀ k < 14, readingsFollowFoot.misses (Reg.thmTempValid.elem k) = true ∧
      readingsFollowFoot.misses (Reg.thmTempTemp.elem k) = true := by
  decide

theorem execThmSample_shows (ms : Nat) (hk : k < 14) :
    ∃ t, execThmSample ms [(k, temp)] s = .next t ∧ t.rd (Reg.thmTempValid.elem k) = 1 ∧
      t.rd (Reg.thmTempTemp.elem k) = temp % 65536 := by
  obtain ⟨t, ht, hkeep⟩ := execThmSample_follows_reading s k temp ms hk
  obtain ⟨hvalid, htemp⟩ := readingsFollowFoot_misses k hk
  exact ⟨t, ht, (hkeep.rd hvalid).trans (readingTaken_rd_valid s k temp hk),
    (hkeep.rd htemp).trans (readingTaken_rd_temp s k temp hk)⟩

end

/-! ## Sluice takes a state and a step (R435 to R437, R442) -/

section
variable (s : State) (state step : Nat)

/-- The new state and step of Sluice, with its interrupt. -/
def sluiceTaken : State := ((s.wr Reg.thmStatusSluice state).wr Reg.thmStatusStep step).set Reg.thmIrqStatusSluiceChg

/-- What follows: the counts of ASK and ENFORCE, CEIL_THM, the notice. -/
def sluiceFollowFoot : Foot :=
  .union [⟨[Reg.thmCountsEnforces, Reg.thmCountsAsks], [], false⟩, ceilThmFoot, mailboxNoticeFoot]

theorem sluiceSet_keeps_taken (h : ¬ (s.rd Reg.thmStatusSluice = state ∧ s.rd Reg.thmStatusStep = step)) :
    Keeps sluiceFollowFoot (sluiceTaken s state step) (sluiceSet s state step) := by
  have henforces {t : State} : Keeps sluiceFollowFoot t (t.bump Reg.thmCountsEnforces) :=
    State.bump_keeps rfl ((Foot.Le.refl _).fld (by decide)) (.refl _ _)
  have hasks {t : State} : Keeps sluiceFollowFoot t (t.bump Reg.thmCountsAsks) :=
    State.bump_keeps rfl ((Foot.Le.refl _).fld (by decide)) (.refl _ _)
  unfold sluiceSet
  rw [if_neg h]
  refine mailboxNotice_keeps (Foot.le_of (by decide)) (ceilThm_keeps (Foot.le_of (by decide)) ?_)
  have hfirst := Keeps.ite (c := state = sluiceEnforce ∧ s.rd Reg.thmStatusSluice ≠ sluiceEnforce)
    (henforces (t := sluiceTaken s state step)) (.refl _ _)
  exact .ite (hfirst.trans hasks) hfirst

theorem sluiceSet_shows {s : State} {state step : Nat} (hstate : state < 4) (hstep : step < 16)
    (h : ¬ (s.rd Reg.thmStatusSluice = state ∧ s.rd Reg.thmStatusStep = step)) :
    (sluiceSet s state step).rd Reg.thmStatusSluice = state ∧ (sluiceSet s state step).rd Reg.thmStatusStep = step ∧
      (sluiceSet s state step).rd Reg.thmIrqStatusSluiceChg = 1 := by
  have hkeep := sluiceSet_keeps_taken s state step h
  refine ⟨(hkeep.rd (by decide)).trans ?_, (hkeep.rd (by decide)).trans ?_,
    (hkeep.rd (by decide)).trans (State.rd_set_self _ _ rfl rfl)⟩
  · rw [sluiceTaken, State.set, State.rd_wr_addr_ne _ _ (by decide), State.rd_wr_other _ _ _ _ rfl, State.rd_wr_self _ _ _ rfl]
    exact Nat.mod_eq_of_lt hstate
  · rw [sluiceTaken, State.set, State.rd_wr_addr_ne _ _ (by decide), State.rd_wr_self _ _ _ rfl]
    exact Nat.mod_eq_of_lt hstep

theorem sluiceSet_rd_stepDue : (sluiceSet s state step).rd Reg.thmStatusStepDue = s.rd Reg.thmStatusStepDue :=
  (sluiceSet_keeps (.refl _) (.refl sluiceSetFoot s)).rd (by decide)

end

/-! ## The commands of Sluice -/

section
variable {s : State}

theorem execRiseClearExpiry_clears {g : Nat} (hg : g < 4) (hr : Store.read none s.thm.rising g = none) :
    ∃ t, execRiseClearExpiry g s = .next t ∧ t.rd Reg.thmStatusRise = maskClear (s.rd Reg.thmStatusRise) g % 16 := by
  unfold execRiseClearExpiry
  rw [if_neg (by simp [hg, hr])]
  exact ⟨_, rfl, ((sluiceStep_keeps (.refl _) (.refl sluiceStepFoot _)).rd (by decide)).trans
    (State.rd_wr_self _ _ _ rfl)⟩

theorem execSluiceGraceExpiry_enforces (hst : s.rd Reg.thmStatusSluice = sluiceAsk) (ht : throttling s = true)
    (hl : s.rd Reg.thmModeLevel = 0) :
    execSluiceGraceExpiry s = .next (sluiceSet (s.setThm { s.thm with cause := 0 }) sluiceEnforce 1) := by
  unfold execSluiceGraceExpiry
  rw [if_neg (by simp [hst, ht]), expert_of_basic hl, if_neg Bool.false_ne_true]

theorem execSluiceStepExpiry_steps (hst : s.rd Reg.thmStatusSluice = sluiceEnforce) (ht : throttling s = true)
    (hl : s.rd Reg.thmModeLevel = 0) (hstep : s.rd Reg.thmStatusStep < 15) :
    execSluiceStepExpiry s = .next (sluiceSet s sluiceEnforce (s.rd Reg.thmStatusStep + 1)) := by
  unfold execSluiceStepExpiry
  rw [if_neg (by simp [hst, ht]), expert_of_basic hl, if_neg Bool.false_ne_true, Nat.min_eq_right hstep]

theorem execSluiceReleaseExpiry_clears (hst : s.rd Reg.thmStatusSluice = sluiceEnforce) (ht : throttling s = false)
    (hl : s.rd Reg.thmModeLevel = 0) : execSluiceReleaseExpiry s = .next (sluiceSet s sluiceClear 0) := by
  unfold execSluiceReleaseExpiry
  rw [if_neg (by simp [hst, ht, expert_of_basic hl])]

/-- THM_CMD at expert level: STEP_DUE cleared, Sluice in a state and at a step, the write answered (R437). -/
def thmCmdTaken (s : State) (state step : Nat) : State := (sluiceSet (s.clr Reg.thmStatusStepDue) state step).answer 0

theorem execStep_enforces (hl : s.rd Reg.thmModeLevel = 1) (hst : s.rd Reg.thmStatusSluice ≠ sluiceEnforce) :
    execStep s = .next (thmCmdTaken s sluiceEnforce 1) := by
  unfold execStep
  rw [if_neg (by simp [expert_of_expert hl]), if_neg hst]
  rfl

theorem execThmCmdRelease_clears (hl : s.rd Reg.thmModeLevel = 1) :
    execThmCmdRelease s = .next (thmCmdTaken s sluiceClear 0) := by
  unfold execThmCmdRelease
  rw [if_neg (by simp [expert_of_expert hl])]
  rfl

theorem thmCmdTaken_shows {state step : Nat} (hstate : state < 4) (hstep : step < 16) (h : s.rd Reg.thmStatusSluice ≠ state) :
    (thmCmdTaken s state step).rd Reg.thmStatusSluice = state ∧ (thmCmdTaken s state step).rd Reg.thmStatusStep = step ∧
      (thmCmdTaken s state step).rd Reg.thmStatusStepDue = 0 ∧ (thmCmdTaken s state step).resp = .done 0 := by
  have hsame : (s.clr Reg.thmStatusStepDue).rd Reg.thmStatusSluice = s.rd Reg.thmStatusSluice := State.rd_wr_other _ _ _ _ rfl
  obtain ⟨hsluice, hstepped, -⟩ := sluiceSet_shows (s := s.clr Reg.thmStatusStepDue) hstate hstep
    fun heq => h (hsame.symm.trans heq.1)
  exact ⟨hsluice, hstepped, (sluiceSet_rd_stepDue _ _ _).trans (State.rd_clr_self _ _ rfl), rfl⟩

end

/-! ## Power loss begun (R424, R425) -/

section
variable {s : State}

/-- The loss noted: LOSS with its CAUSE, and what is measured at that moment. -/
def lossNoted (s : State) (cause vm vl : Nat) : State :=
  let s := (supplyShow s vm vl).setPwr { s.pwr with
    step := .detected, vm, vl, gates := bit (s.flag (Reg.bwkStatusGate.elem 0)) + 2 * bit (s.flag (Reg.bwkStatusGate.elem 1))
    angle := s.recordAngle, returned := false }
  (s.set Reg.pwrStatusLoss).wr Reg.pwrStatusCause cause

/-- What follows the loss noted: the supplies of the HV die, the end of a DRST's stop window and of a rung change, the notice. -/
def lossFollowFoot : Foot :=
  .union [⟨[Reg.pwrCountsLosses, Reg.hvSupplyVmIsolated, Reg.hvSupplyRectifying, Reg.rstStatusPhase, Reg.pwrIrqStatusLoss],
    [.rst, .hst, .change], false⟩, rungPreemptFoot, mailboxNoticeFoot]

theorem lossBegin_keeps_noted (cause vm vl : Nat) (h : s.rd Reg.pwrStatusLoss = 0) :
    Keeps lossFollowFoot (lossNoted s cause vm vl) (lossBegin s cause vm vl) := by
  have hcounted : Keeps lossFollowFoot (lossNoted s cause vm vl) ((lossNoted s cause vm vl).bump Reg.pwrCountsLosses) :=
    State.bump_keeps rfl ((Foot.Le.refl _).fld (by decide)) (.refl _ _)
  unfold lossBegin
  rw [State.flag_of_rd_zero h, if_neg Bool.false_ne_true]
  refine mailboxNotice_keeps ?_ (State.set_keeps rfl ?_ (State.setChange_keeps ?_ (rungPreempt_keeps ?_ (State.setHst_keeps ?_
    (State.wr_keeps rfl ?_ (State.setRst_keeps ?_ (.ite hcounted (State.set_keeps rfl ?_ (State.set_keeps rfl ?_ hcounted)))))))))
  case refine_2 | refine_6 | refine_8 | refine_9 => exact (Foot.Le.refl _).fld (by decide)
  all_goals exact Foot.le_of (by decide)

theorem lossBegin_shows {cause : Nat} (vm vl : Nat) (hc : cause < 8) (h : s.rd Reg.pwrStatusLoss = 0) :
    (lossBegin s cause vm vl).rd Reg.pwrStatusCause = cause ∧ (lossBegin s cause vm vl).rd Reg.pwrStatusLoss = 1 ∧
      (lossBegin s cause vm vl).pwr.tripped = s.pwr.tripped := by
  have hkeep := lossBegin_keeps_noted cause vm vl h
  have hpwr : (lossBegin s cause vm vl).pwr = (lossNoted s cause vm vl).pwr := hkeep.parts .pwr (by decide)
  refine ⟨(hkeep.rd (by decide)).trans ?_, (hkeep.rd (by decide)).trans ?_,
    (congrArg Pwr.tripped hpwr).trans rfl⟩
  · rw [lossNoted, State.rd_wr_self _ _ _ rfl]
    exact Nat.mod_eq_of_lt hc
  · rw [lossNoted, State.rd_wr_other _ _ _ _ rfl, State.rd_set_self _ _ rfl rfl]

end

/-! ## Thermal shutdown (R439) -/

section
variable {s : State}

/-- A first trip in THM_TRIP_LOG, and on the line of its die. -/
def tripLogged (s : State) (k reading : Nat) : State :=
  let s := ((s.wr Reg.thmTripLogPeak reading).bump Reg.thmTripLogCount).wr Reg.thmTripLogGroup (sensorGroup k)
  (s.wr Reg.thmTripLogSensor k).set (if sensorGroup k = 1 then Reg.hvbStatusTripIn else Reg.hvbStatusTripOut)

/-- The trip logged, with the retracts of step 1 begun. -/
def tripRetracting (s : State) (k reading : Nat) : State :=
  hvRetractBoth ((tripLogged s k reading).setPwr { s.pwr with tripped := true }) 6 10

theorem execThermalTrip_begins_loss {k reading : Nat} (hk : k < 13)
    (hr : deg (s.rd (Reg.thmThrShut.elem (sensorGroup k))) ≤ signedOf 16 reading) (hb : s.boot ≠ .por)
    (ht : s.pwr.tripped = false) :
    execThermalTrip k reading s = .next (lossBegin (tripRetracting s k reading) 3
      ((tripRetracting s k reading).rd Reg.pwrVinVmMv) ((tripRetracting s k reading).rd Reg.pwrVinVlMv)) := by
  unfold execThermalTrip
  rw [if_neg (by simp [hk, hr, hb])]
  dsimp only
  rw [if_neg (by simp [ht]), if_neg (by simp [ht])]
  rfl

/-- What the retracts change beside the log and the line. -/
theorem tripRetracting_keeps (k reading : Nat) :
    Keeps hvRetractBothFoot ((tripLogged s k reading).setPwr { s.pwr with tripped := true }) (tripRetracting s k reading) :=
  hvRetractBoth_keeps (.refl _) (.refl _ _)

theorem tripLogged_rd_sensor {k : Nat} (reading : Nat) (hk : k < 13) : (tripLogged s k reading).rd Reg.thmTripLogSensor = k := by
  unfold tripLogged
  dsimp only
  rw [State.set, State.rd_wr_addr_ne _ _ (by split <;> decide), State.rd_wr_self _ _ _ rfl]
  exact Nat.mod_eq_of_lt (hk.trans (by decide))

theorem tripRetracting_rd_sensor {k : Nat} (reading : Nat) (hk : k < 13) :
    (tripRetracting s k reading).rd Reg.thmTripLogSensor = k :=
  ((tripRetracting_keeps k reading).rd (by decide)).trans (tripLogged_rd_sensor reading hk)

theorem tripRetracting_tripped (k reading : Nat) : (tripRetracting s k reading).pwr.tripped = true := by
  have hpwr : (tripRetracting s k reading).pwr = { s.pwr with tripped := true } :=
    (tripRetracting_keeps k reading).parts .pwr (by decide)
  rw [hpwr]

theorem tripRetracting_rd_loss (k reading : Nat) :
    (tripRetracting s k reading).rd Reg.pwrStatusLoss = s.rd Reg.pwrStatusLoss := by
  refine ((tripRetracting_keeps k reading).rd (by decide)).trans ?_
  rw [State.setPwr_rd, tripLogged]
  rw [State.set, State.rd_wr_addr_ne _ _ (by split <;> decide), State.rd_wr_addr_ne _ _ (by decide),
    State.rd_wr_addr_ne _ _ (by decide), State.bump, State.addSat, State.rd_wr_addr_ne _ _ (by decide),
    State.rd_wr_addr_ne _ _ (by decide)]

theorem execThermalTrip_shows {k reading : Nat} (hk : k < 13)
    (hr : deg (s.rd (Reg.thmThrShut.elem (sensorGroup k))) ≤ signedOf 16 reading) (hb : s.boot ≠ .por)
    (ht : s.pwr.tripped = false) (hloss : s.rd Reg.pwrStatusLoss = 0) :
    ∃ t, execThermalTrip k reading s = .next t ∧ t.rd Reg.thmTripLogSensor = k ∧ t.rd Reg.pwrStatusCause = 3 ∧
      t.rd Reg.pwrStatusLoss = 1 ∧ t.pwr.tripped = true := by
  obtain ⟨hcause, hlost, htripped⟩ := lossBegin_shows (cause := 3) ((tripRetracting s k reading).rd Reg.pwrVinVmMv)
    ((tripRetracting s k reading).rd Reg.pwrVinVlMv) (by decide) ((tripRetracting_rd_loss k reading).trans hloss)
  refine ⟨_, execThermalTrip_begins_loss hk hr hb ht, ?_, hcause, hlost, htripped.trans (tripRetracting_tripped k reading)⟩
  exact ((lossBegin_keeps (.refl _) (.refl lossBeginFoot _)).rd (by decide)).trans (tripRetracting_rd_sensor reading hk)

/-- The logic die held in reset, the warden included (R439 step 4). -/
def logicHeld (s : State) : State :=
  (((jobsAbort s).wr Reg.fltCoreHeld 15).clr Reg.sysCoreRelRun).setFlt { (jobsAbort s).flt with warden := .inReset }

theorem logicHeld_rd_coreHeld (s : State) : (logicHeld s).rd Reg.fltCoreHeld = 15 := by
  rw [logicHeld, State.setFlt_rd, State.clr, State.rd_wr_addr_ne _ _ (by decide), State.rd_wr_self _ _ _ rfl]
  rfl

/-- The logic die held, with both links of the host down. -/
def logicHeldLinksDown (s : State) : State := linkSet (linkSet (logicHeld s) 0 0 0) 1 0 0

theorem logicHeldLinksDown_keeps (s : State) : Keeps linkSetFoot (logicHeld s) (logicHeldLinksDown s) :=
  linkSet_keeps (.refl _) (linkSet_keeps (.refl _) (.refl _ _))

theorem execTripLogicHold_next (ht : s.pwr.tripped = true) (hd : s.pwr.dieHeld = false) :
    execTripLogicHold s =
      .next ((logicHeldLinksDown s).setPwr { (logicHeldLinksDown s).pwr with dieHeld := true }) := by
  unfold execTripLogicHold
  rw [if_neg (by simp [ht, hd])]
  rfl

theorem execTripLogicHold_holds (ht : s.pwr.tripped = true) (hd : s.pwr.dieHeld = false) :
    ∃ t, execTripLogicHold s = .next t ∧ t.pwr.dieHeld = true ∧ t.flt.warden = .inReset ∧ t.rd Reg.fltCoreHeld = 15 := by
  have hlinks := logicHeldLinksDown_keeps s
  have hflt : (logicHeldLinksDown s).flt = (logicHeld s).flt := hlinks.parts .flt List.not_mem_nil
  refine ⟨_, execTripLogicHold_next ht hd, rfl, ?_, ?_⟩
  · rw [State.setPwr_flt, hflt]
    rfl
  · rw [State.setPwr_rd, hlinks.rd (by decide), logicHeld_rd_coreHeld]

end

/-- Settles O41: each part from the lemma of its command; those of Sluice are read through `sluiceSet_shows`. -/
theorem completeThermal : Obligations.CompleteThermal := by
  refine ⟨?sample, ?rise, ?grace, ?stepExpiry, ?release, ?step, ?cmdRelease, ?trip, ?hold⟩
  case sample => exact fun s ms k temp hk => execThmSample_shows s k temp ms hk
  case rise => exact fun s g hg hr => execRiseClearExpiry_clears hg hr
  case grace =>
    intro s hst ht hl
    refine ⟨_, execSluiceGraceExpiry_enforces hst ht hl, sluiceSet_shows (by decide) (by decide) fun h => ?_⟩
    exact absurd (hst.symm.trans h.1) (by decide)
  case stepExpiry =>
    intro s hst ht hl hstep
    refine ⟨_, execSluiceStepExpiry_steps hst ht hl hstep, sluiceSet_shows (by decide) (Nat.succ_lt_succ hstep) fun h => ?_⟩
    exact Nat.ne_add_one _ h.2
  case release =>
    intro s hst ht hl
    refine ⟨_, execSluiceReleaseExpiry_clears hst ht hl, sluiceSet_shows (by decide) (by decide) fun h => ?_⟩
    exact absurd (hst.symm.trans h.1) (by decide)
  case step =>
    exact fun s hl hst => ⟨_, execStep_enforces hl hst, thmCmdTaken_shows (by decide) (by decide) hst⟩
  case cmdRelease =>
    exact fun s hl hst =>
      ⟨_, execThmCmdRelease_clears hl, thmCmdTaken_shows (by decide) (by decide) (by rw [hst]; decide)⟩
  case trip => exact fun s k reading hk hr hb ht hloss => execThermalTrip_shows hk hr hb ht hloss
  case hold => exact fun s ht hd => execTripLogicHold_holds ht hd

end Sys2Proof.Machine
end

section
/-!
SUPPORT. Proof of the statement on the layout of a record (R507, R509; spec/19_recorder_counters.md): the body and the tail, stored
one behind the other, are one run of 64 bytes, and a run that stands in memory is cut into its fields where one ends and the next
begins.
-/

namespace Sys2Proof.Machine

/-! ## Runs one behind the other -/

theorem Store.writeRun_append {α : Type} [DecidableEq α] (d : α) (m : Store α) (k : Nat) (xs ys : List α) :
    Store.writeRun d m k (xs ++ ys) = Store.writeRun d (Store.writeRun d m k xs) (k + xs.length) ys := by
  induction xs generalizing m k with
  | nil => rfl
  | cons x xs ih =>
    rw [List.cons_append, Store.writeRun, Store.writeRun, ih, List.length_cons, Nat.add_assoc, Nat.add_comm 1]

theorem Store.readRun_add {α : Type} (d : α) (m : Store α) (k n j : Nat) :
    Store.readRun d m k (n + j) = Store.readRun d m k n ++ Store.readRun d m (k + n) j := by
  induction n generalizing k with
  | zero => rw [Nat.zero_add]; rfl
  | succ n ih =>
    rw [Nat.succ_add, Store.readRun, ih, Nat.add_assoc k 1 n, Nat.add_comm 1 n]
    rfl

theorem Store.readRun_length {α : Type} (d : α) (m : Store α) (k n : Nat) : (Store.readRun d m k n).length = n := by
  induction n generalizing k with
  | zero => rfl
  | succ n ih => rw [Store.readRun, List.length_cons, ih]

/-- Two stores, the second right behind the first, leave the memory of one. -/
theorem State.store_store_mem (s : State) (a : Nat) (xs ys : List Byte) :
    ((s.store a xs).store (a + xs.length) ys).mem = (s.store a (xs ++ ys)).mem := by
  rw [State.store_mem, State.store_mem, State.store_mem, Store.writeRun_append]

/-- A run of bytes in memory is cut in two: the second part stands right behind the first. -/
theorem State.bytes_split {s : State} {a : Nat} {xs ys : List Byte} (n j : Nat) (h : s.bytes a (n + j) = xs ++ ys)
    (hx : xs.length = n) : s.bytes a n = xs ∧ s.bytes (a + n) j = ys := by
  rw [State.bytes, Store.readRun_add] at h
  exact List.append_inj h ((Store.readRun_length _ _ _ _).trans hx.symm)

/-! ## The 64 bytes of a record (R507) -/

/-- Bytes 0x00 to 0x3D of a record, which its CRC covers. -/
def recCovered (s : State) (seq : Nat) (p : RecPost) : List Byte := recBody s seq p ++ ([0xA5, 0] ++ leBytes 4 seq)

/-- A record whole. -/
def recImage (s : State) (seq : Nat) (p : RecPost) : List Byte :=
  recCovered s seq p ++ leBytes 2 (crc277 (recCovered s seq p))

theorem recBody_append_recTail (s : State) (seq : Nat) (p : RecPost) :
    recBody s seq p ++ recTail seq (recBody s seq p) = recImage s seq p :=
  (List.append_assoc _ _ _).symm

theorem recBody_length (s : State) (seq : Nat) (p : RecPost) : (recBody s seq p).length = 0x38 := by
  simp [recBody, leBytes_length, padBytes_length]

theorem recCovered_length (s : State) (seq : Nat) (p : RecPost) : (recCovered s seq p).length = 0x3E := by
  simp [recCovered, recBody_length, leBytes_length]

theorem recImage_length (s : State) (seq : Nat) (p : RecPost) : (recImage s seq p).length = 64 := by
  simp [recImage, recCovered_length, leBytes_length]

theorem recSlot_in_region (seq : Nat) : 0x10000000 ≤ recSlot seq ∧ recSlot seq + 64 ≤ 0x10400000 := by
  unfold recSlot
  omega

/-- R509: the body and the tail that RECORD_WRITE stores are one record. -/
theorem recordWrite_stores_recImage {s : State} {p : RecPost} {rest : List RecPost} (hb : s.boot ≠ .por)
    (hd : s.pwr.step ≠ .down) (hq : s.recorder.queue = p :: rest) :
    ∃ t, exec .recordWrite s = .next t ∧
      t.mem = (s.store (recSlot (s.rd Reg.recHeadSeqSeq)) (recImage s (s.rd Reg.recHeadSeqSeq) p)).mem := by
  obtain ⟨t, ht, _, _, hmem⟩ := recordWrite_writes hb hd hq
  have hstores := State.store_store_mem s (recSlot (s.rd Reg.recHeadSeqSeq)) (recBody s (s.rd Reg.recHeadSeqSeq) p)
    (recTail (s.rd Reg.recHeadSeqSeq) (recBody s (s.rd Reg.recHeadSeqSeq) p))
  rw [recBody_length, recBody_append_recTail] at hstores
  exact ⟨t, ht, hmem.trans hstores⟩

section
variable {s t : State} {a seq : Nat} {p : RecPost}

theorem bytes_recImage (h : t.bytes a 64 = recImage s seq p) :
    t.bytes a 0x3E = recCovered s seq p ∧ t.bytes (a + 0x3E) 2 = leBytes 2 (crc277 (t.bytes a 0x3E)) := by
  obtain ⟨hcov, hcrc⟩ := State.bytes_split 0x3E 2 h (recCovered_length s seq p)
  exact ⟨hcov, hcov ▸ hcrc⟩

theorem bytes_recCovered (h : t.bytes a 0x3E = recCovered s seq p) :
    t.bytes a 0x38 = recBody s seq p ∧ t.bytes (a + 0x38) 1 = [0xA5] ∧ t.bytes (a + 0x39) 1 = [0] ∧
      t.bytes (a + 0x3A) 4 = leBytes 4 seq := by
  obtain ⟨hbody, hrest⟩ := State.bytes_split 0x38 6 h (recBody_length s seq p)
  obtain ⟨hvalid, hrest⟩ := State.bytes_split (xs := [0xA5]) (ys := 0 :: leBytes 4 seq) 1 5 hrest rfl
  obtain ⟨hzero, hcopy⟩ := State.bytes_split (xs := [0]) 1 4 hrest rfl
  exact ⟨hbody, hvalid, hzero, hcopy⟩

theorem bytes_recBody (h : t.bytes a 0x38 = recBody s seq p) :
    t.bytes a 4 = leBytes 4 seq ∧ t.bytes (a + 0x04) 5 = leBytes 5 s.opsec ∧
      t.bytes (a + 0x09) 3 = leBytes 3 (s.rd Reg.rstPcycleCount) ∧ t.bytes (a + 0x0C) 1 = [BitVec.ofNat 8 p.source] ∧
      t.bytes (a + 0x0D) 1 = [BitVec.ofNat 8 p.severity] ∧ t.bytes (a + 0x0E) 2 = leBytes 2 p.code ∧
      t.bytes (a + 0x10) 40 = padBytes 40 p.payload := by
  have hsplit : recBody s seq p = leBytes 4 seq ++ (leBytes 5 s.opsec ++ (leBytes 3 (s.rd Reg.rstPcycleCount) ++
      ([BitVec.ofNat 8 p.source] ++ ([BitVec.ofNat 8 p.severity] ++ (leBytes 2 p.code ++ padBytes 40 p.payload))))) := rfl
  rw [hsplit] at h
  obtain ⟨hseq, h⟩ := State.bytes_split 4 52 h (leBytes_length _ _)
  obtain ⟨hopsec, h⟩ := State.bytes_split 5 47 h (leBytes_length _ _)
  obtain ⟨hpcycle, h⟩ := State.bytes_split 3 44 h (leBytes_length _ _)
  obtain ⟨hsource, h⟩ := State.bytes_split 1 43 h rfl
  obtain ⟨hsev, h⟩ := State.bytes_split 1 42 h rfl
  obtain ⟨hcode, hpayload⟩ := State.bytes_split 2 40 h (leBytes_length _ _)
  exact ⟨hseq, hopsec, hpcycle, hsource, hsev, hcode, hpayload⟩

end

/-- Settles O13: the record stands whole in its slot, and is read field by field; outside it the store changes no byte. -/
theorem recordLayout : Obligations.RecordLayout := by
  rintro s p rest seq slot hb hd hq rfl rfl
  obtain ⟨hlo, hhi⟩ := recSlot_in_region (s.rd Reg.recHeadSeqSeq)
  obtain ⟨t, ht, hmem⟩ := recordWrite_stores_recImage hb hd hq
  have himage := State.bytes_store s (recSlot (s.rd Reg.recHeadSeqSeq)) (recImage s (s.rd Reg.recHeadSeqSeq) p)
  rw [recImage_length, State.bytes, ← hmem] at himage
  obtain ⟨hcovered, hcrc⟩ := bytes_recImage himage
  obtain ⟨hbody, hvalid, hzero, hcopy⟩ := bytes_recCovered hcovered
  obtain ⟨hseq, hopsec, hpcycle, hsource, hsev, hcode, hpayload⟩ := bytes_recBody hbody
  refine ⟨hlo, hhi, t, ht, hseq, hopsec, hpcycle, hsource, hsev, hcode, hpayload, hvalid, hzero, hcopy, hcrc, fun b hout => ?_⟩
  rw [State.byte, hmem]
  exact State.byte_store_other s _ b _ (by rwa [recImage_length])

end Sys2Proof.Machine
end
